-- ==== Sys2Proof/Word.lean ====
section
/-! DEFINITION. The word types of the Onvel H3 and their plainest arithmetic (R1, R28). -/

namespace Sys2Proof

/-- A byte of memory; multi-byte values are little-endian (R1). -/
abbrev Byte := BitVec 8

/-- One 32-bit slot of a vector or scalar register (R28, R61). -/
abbrev Word := BitVec 32

/-- A 64-bit value: an even-odd register pair, a pointer, a program counter (R28, R189). -/
abbrev DWord := BitVec 64

/-- A set of threads of one strand, bit t for thread t (R57). -/
abbrev Mask := BitVec 16

end Sys2Proof
end

