-- ==== Sys2Proof/Machine/Flags.lean ====
section
/-! DEFINITION. The numeric environment fmt (R64) and the sticky status flags of STS (R35, R72). -/

namespace Sys2Proof.Machine

/-- The floating-point flags of R35 as bits [4:0] of STS: NV, DZ, OF, UF, IX from bit 4 down (R72). -/
abbrev FpFlags := BitVec 5

def flagNone : FpFlags := 0
def flagIX : FpFlags := 1
def flagUF : FpFlags := 2
def flagOF : FpFlags := 4
def flagDZ : FpFlags := 8
def flagNV : FpFlags := 16

/-- STS bit 5, a scalar merge chose between differing values (R67, R72). -/
def stsSC : Word := 0x20
/-- STS bit 6, a run ended implicitly at its 24th instruction (R72, R102). -/
def stsRE : Word := 0x40

/-- `f` when `b` holds, else no flag. -/
def flagIf (b : Bool) (f : FpFlags) : FpFlags := if b then f else flagNone

/-- Flags are added to STS by logical OR (R72). -/
def stsAdd (sts : Word) (f : FpFlags) : Word := sts ||| f.zeroExtend 32

/-- The four rounding modes of fmt[1:0] (R30). -/
inductive RMode where
  | rne
  | rtz
  | rdn
  | rup
  deriving DecidableEq, Repr

/-- fmt[1:0] as a rounding mode (R30). -/
def RMode.ofBits (b : BitVec 2) : RMode :=
  match b.toNat with
  | 0 => .rne
  | 1 => .rtz
  | 2 => .rdn
  | _ => .rup

/-- What a floating-point operation takes from fmt: RM, FTZ and SAT (R30 to R34). -/
structure FEnv where
  rm : RMode
  ftz : Bool
  sat : Bool
  deriving DecidableEq, Repr

/-- The environment that fmt names (R64). -/
def FEnv.ofFmt (fmt : Word) : FEnv :=
  { rm := RMode.ofBits (fmt.extractLsb' 0 2), ftz := fmt.getLsbD 2, sat := fmt.getLsbD 3 }

/-- RNE with FTZ and SAT clear: the environment of the operations that ignore fmt. -/
def FEnv.plain : FEnv := { rm := .rne, ftz := false, sat := false }

/-- fmt.AW + 2, the mantissa width of operand A (R64). -/
def fmtAW (fmt : Word) : Nat := (fmt.extractLsb' 4 3).toNat + 2
/-- fmt.BW + 2, the mantissa width of operand B (R64). -/
def fmtBW (fmt : Word) : Nat := (fmt.extractLsb' 7 3).toNat + 2
/-- fmt.AEXP, the scalar register of operand A's base exponent (R64). -/
def fmtAEXP (fmt : Word) : Nat := (fmt.extractLsb' 10 6).toNat
/-- fmt.BEXP, the scalar register of operand B's base exponent (R64). -/
def fmtBEXP (fmt : Word) : Nat := (fmt.extractLsb' 16 6).toNat

/-- A value that fmt may hold: reserved bits [31:22] clear and neither width code 7 (R64). -/
def fmtLegal (v : Word) : Bool :=
  v.extractLsb' 22 10 == 0 && v.extractLsb' 4 3 != 7 && v.extractLsb' 7 3 != 7

end Sys2Proof.Machine
end

