-- ==== Sys2Proof/Machine/Num.lean ====
section
/-! DEFINITION. Floating-point formats and correctly rounded results (R26, R27, R30 to R37, R46). Every value is an
exact fraction of natural numbers times a power of two; rounding happens once, in `roundFrac`. -/

namespace Sys2Proof.Machine

/-- A binary format: exponent and fraction widths (R26). -/
structure FFmt where
  ebits : Nat
  fbits : Nat
  deriving DecidableEq, Repr

/-- FP32 (R26). -/
def fmtF32 : FFmt := { ebits := 8, fbits := 23 }
/-- FP16 (R26). -/
def fmtF16 : FFmt := { ebits := 5, fbits := 10 }
/-- BF16 (R26). -/
def fmtBF16 : FFmt := { ebits := 8, fbits := 7 }

def FFmt.bias (f : FFmt) : Nat := 2 ^ (f.ebits - 1) - 1
/-- The exponent of the smallest normal value. -/
def FFmt.emin (f : FFmt) : Int := 1 - (f.bias : Int)
/-- The exponent field of infinities and NaNs. -/
def FFmt.emax (f : FFmt) : Nat := 2 ^ f.ebits - 1
def FFmt.signBit (f : FFmt) : Nat := 2 ^ (f.ebits + f.fbits)
def FFmt.infBits (f : FFmt) : Nat := f.emax * 2 ^ f.fbits
/-- The largest finite value's encoding (R26). -/
def FFmt.maxBits (f : FFmt) : Nat := f.infBits - 1
/-- The canonical NaN (R26, R36). -/
def FFmt.nanBits (f : FFmt) : Nat := f.infBits + 2 ^ (f.fbits - 1)
/-- The smallest normal value's encoding (R26). -/
def FFmt.minNormBits (f : FFmt) : Nat := 2 ^ f.fbits
/-- The encoding `mag` with its sign. -/
def FFmt.withSign (f : FFmt) (neg : Bool) (mag : Nat) : Nat := if neg then f.signBit + mag else mag

/-- A decoded value: a finite one is (-1)^neg * m * 2^e. -/
inductive Fp where
  | nan
  | inf (neg : Bool)
  | fin (neg : Bool) (m : Nat) (e : Int)
  deriving DecidableEq, Repr

/-- Decodes an encoding (R26, R27). -/
def FFmt.dec (f : FFmt) (bits : Nat) : Fp :=
  let neg := (bits / f.signBit) % 2 == 1
  let ex := (bits / 2 ^ f.fbits) % 2 ^ f.ebits
  let fr := bits % 2 ^ f.fbits
  if ex == f.emax then (if fr == 0 then .inf neg else .nan)
  else if ex == 0 then .fin neg fr (f.emin - f.fbits)
  else .fin neg (2 ^ f.fbits + fr) (f.emin - f.fbits + ((ex : Int) - 1))

/-- The encoding is subnormal (R27). -/
def FFmt.isSub (f : FFmt) (bits : Nat) : Bool :=
  (bits / 2 ^ f.fbits) % 2 ^ f.ebits == 0 && bits % 2 ^ f.fbits != 0

/-- The encoding is a NaN (R27). -/
def FFmt.isNan (f : FFmt) (bits : Nat) : Bool :=
  (bits / 2 ^ f.fbits) % 2 ^ f.ebits == f.emax && bits % 2 ^ f.fbits != 0

/-- The encoding is an infinity (R27). -/
def FFmt.isInf (f : FFmt) (bits : Nat) : Bool :=
  (bits / 2 ^ f.fbits) % 2 ^ f.ebits == f.emax && bits % 2 ^ f.fbits == 0

def FFmt.isNeg (f : FFmt) (bits : Nat) : Bool := (bits / f.signBit) % 2 == 1

/-- The input flush of FTZ: a subnormal reads as a zero of its sign, with no flag (R34). -/
def FFmt.flush (f : FFmt) (ftz : Bool) (bits : Nat) : Nat :=
  if ftz && f.isSub bits then f.withSign (f.isNeg bits) 0 else bits

/-- Decodes an operand as encoded, after the input flush (R31, R34). -/
def FFmt.decIn (f : FFmt) (env : FEnv) (bits : Nat) : Fp := f.dec (f.flush env.ftz bits)

/-- n / d rounded to an integer under a mode, for a magnitude whose sign is `neg` (R30); the second part is whether the
value was exact. -/
def roundDiv (rm : RMode) (neg : Bool) (n d : Nat) : Nat × Bool :=
  let k := n / d
  let r := n % d
  if r == 0 then (k, true)
  else
    let up := match rm with
      | .rne => if 2 * r == d then k % 2 == 1 else decide (2 * r > d)
      | .rtz => false
      | .rdn => neg
      | .rup => !neg
    (if up then k + 1 else k, false)

/-- n * 2^e1 / (d * 2^e2) as a fraction of naturals. -/
def scaleFrac (n d : Nat) (e : Int) : Nat × Nat :=
  if 0 ≤ e then (n * 2 ^ e.toNat, d) else (n, d * 2 ^ (-e).toNat)

/-- floor(log2(n / d * 2^e)) for positive n and d. -/
def fracLog2 (n d : Nat) (e : Int) : Int :=
  let g : Int := (Nat.log2 n : Int) - (Nat.log2 d : Int)
  let lt := if 0 ≤ g then decide (n < d * 2 ^ g.toNat) else decide (n * 2 ^ (-g).toNat < d)
  (if lt then g - 1 else g) + e

/-- A rounded result with its flags. -/
structure FRes where
  bits : Nat
  flags : FpFlags
  deriving DecidableEq, Repr

/-- Rounds (-1)^neg * n/d * 2^e, n and d positive, once to the format (R31 to R35): overflow by R32, tininess after
rounding with the exponent unbounded by R34, the FTZ replacement of a tiny result by R34. -/
def roundFrac (f : FFmt) (env : FEnv) (neg : Bool) (n d : Nat) (e : Int) : FRes :=
  let l := fracLog2 n d e
  let qn := l - f.fbits
  let q := max qn (f.emin - f.fbits)
  let (n1, d1) := scaleFrac n d (e - qn)
  let (k1, _) := roundDiv env.rm neg n1 d1
  -- tiny: the value rounded with unbounded exponent lies below the smallest normal
  let tiny := decide (l + (if k1 == 2 ^ (f.fbits + 1) then 1 else 0) < f.emin)
  if tiny && env.ftz then { bits := f.withSign neg 0, flags := flagUF ||| flagIX }
  else
    let (n2, d2) := scaleFrac n d (e - q)
    let (k, exact) := roundDiv env.rm neg n2 d2
    -- k * 2^q, with k at most 2^(fbits+1); the encoding of k at quantum q
    let mag : Int := (q - (f.emin - f.fbits)) * 2 ^ f.fbits + (k : Int)
    if mag ≥ (f.infBits : Int) then
      let toMax := env.sat || (match env.rm with
        | .rne => false
        | .rtz => true
        | .rdn => !neg
        | .rup => neg)
      { bits := f.withSign neg (if toMax then f.maxBits else f.infBits), flags := flagOF ||| flagIX }
    else
      { bits := f.withSign neg mag.toNat,
        flags := flagIf (!exact) flagIX ||| flagIf (tiny && !exact) flagUF }

/-- The sign of an exact zero sum whose terms are not all zeros of one sign (R37). -/
def zeroSumNeg (env : FEnv) : Bool := env.rm == .rdn

/-- Rounds a fraction that may be zero; an exact zero has the sign given. -/
def roundFrac0 (f : FFmt) (env : FEnv) (neg : Bool) (n d : Nat) (e : Int) : FRes :=
  if n == 0 then { bits := f.withSign neg 0, flags := flagNone } else roundFrac f env neg n d e

/-- Rounds the integer v * 2^e; `zneg` is the sign of a zero. -/
def roundDyadic (f : FFmt) (env : FEnv) (v e : Int) (zneg : Bool) : FRes :=
  if v == 0 then { bits := f.withSign zneg 0, flags := flagNone }
  else roundFrac f env (decide (v < 0)) v.natAbs 1 e

/-- The canonical NaN of the format. -/
def FFmt.nanRes (f : FFmt) (fl : FpFlags) : FRes := { bits := f.nanBits, flags := fl }
/-- An infinity of the format. -/
def FFmt.infRes (f : FFmt) (neg : Bool) (fl : FpFlags) : FRes := { bits := f.withSign neg f.infBits, flags := fl }

/-- The signed mantissa of a finite value. -/
def sgn (neg : Bool) (m : Nat) : Int := if neg then -(m : Int) else (m : Int)

/-- One term of an exact sum: a product or an addend (R31, R39, R48). `nv` marks an invalid product 0 * inf. -/
inductive Term where
  | nan
  | nv
  | inf (neg : Bool)
  | fin (neg : Bool) (m : Nat) (e : Int)
  deriving DecidableEq, Repr

/-- A value as a term. -/
def Fp.term : Fp → Term
  | .nan => .nan
  | .inf n => .inf n
  | .fin n m e => .fin n m e

/-- The exact product as a term (R35, R36, R40). -/
def Fp.prod (x y : Fp) : Term :=
  match x, y with
  | .nan, _ => .nan
  | _, .nan => .nan
  | .inf a, .inf b => .inf (a != b)
  | .inf a, .fin b m _ => if m == 0 then .nv else .inf (a != b)
  | .fin a m _, .inf b => if m == 0 then .nv else .inf (a != b)
  | .fin a m e, .fin b k g => .fin (a != b) (m * k) (e + g)

/-- Minus a value. -/
def Fp.neg : Fp → Fp
  | .nan => .nan
  | .inf n => .inf (!n)
  | .fin n m e => .fin (!n) m e

/-- The exact sum of the finite terms as v * 2^e. -/
def sumFin (ts : List Term) : Int × Int :=
  ts.foldl (fun acc t => match t with
    | .fin n m e =>
      if m == 0 then acc
      else if acc.1 == 0 then (sgn n m, e)
      else if e ≤ acc.2 then (acc.1 * 2 ^ (acc.2 - e).toNat + sgn n m, e)
      else (acc.1 + sgn n m * 2 ^ (e - acc.2).toNat, acc.2)
    | _ => acc) (0, 0)

def Term.isNv : Term → Bool
  | .nv => true
  | _ => false
def Term.isNan : Term → Bool
  | .nan => true
  | _ => false
def Term.isInf (neg : Bool) : Term → Bool
  | .inf n => n == neg
  | _ => false
/-- A finite zero of the sign. -/
def Term.isZero (neg : Bool) : Term → Bool
  | .fin n m _ => m == 0 && n == neg
  | _ => false

/-- One exact sum of terms, rounded once to the format (R31, R36, R37, R39, R40): 0 * inf and opposite infinities give
the canonical NaN with NV; a product 0 * inf sets NV even beside a NaN. -/
def sumTerms (f : FFmt) (env : FEnv) (ts : List Term) : FRes :=
  let nv := ts.any Term.isNv
  let pi := ts.any (Term.isInf false)
  let ni := ts.any (Term.isInf true)
  if nv then f.nanRes flagNV
  else if ts.any Term.isNan then f.nanRes flagNone
  else if pi && ni then f.nanRes flagNV
  else if pi then f.infRes false flagNone
  else if ni then f.infRes true flagNone
  else
    let (v, e) := sumFin ts
    let zneg := if ts.all (Term.isZero true) then true
      else if ts.all (Term.isZero false) then false else zeroSumNeg env
    roundDyadic f env v e zneg

/-- a + b (R162). -/
def fpAdd (f : FFmt) (env : FEnv) (a b : Nat) : FRes :=
  sumTerms f env [(f.decIn env a).term, (f.decIn env b).term]
/-- a - b (R162). -/
def fpSub (f : FFmt) (env : FEnv) (a b : Nat) : FRes :=
  sumTerms f env [(f.decIn env a).term, (f.decIn env b).neg.term]
/-- a * b (R162); the one term of the sum carries the product's sign (R37). -/
def fpMul (f : FFmt) (env : FEnv) (a b : Nat) : FRes :=
  sumTerms f env [(f.decIn env a).prod (f.decIn env b)]
/-- a * b + c with one rounding (R162). -/
def fpFma (f : FFmt) (env : FEnv) (a b c : Nat) : FRes :=
  sumTerms f env [(f.decIn env a).prod (f.decIn env b), (f.decIn env c).term]

/-- Orders encodings of one format as numbers, -0 below +0: a key whose Int order is R163's order. -/
def FFmt.key (f : FFmt) (bits : Nat) : Int :=
  let mag := bits % f.signBit
  if f.isNeg bits then -(mag : Int) - 1 else (mag : Int)

/-- FMIN and FMAX (R163): no flag; a NaN beside a number gives the number; flushed operands are what is returned. -/
def fpMinMax (f : FFmt) (env : FEnv) (max : Bool) (a b : Nat) : Nat :=
  let x := f.flush env.ftz a
  let y := f.flush env.ftz b
  if f.isNan x then (if f.isNan y then f.nanBits else y)
  else if f.isNan y then x
  else if (f.key x ≤ f.key y) != max then x else y

/-- canonical(flush_in(fmt, x)), with no flag (R47). -/
def fpCanon (f : FFmt) (env : FEnv) (a : Nat) : Nat :=
  if f.isNan a then f.nanBits else f.flush env.ftz a

/-- The comparison of R164: -1, 0, 1 as numbers with -0 equal to +0, none when unordered. -/
def fpCompare (f : FFmt) (env : FEnv) (a b : Nat) : Option Int :=
  let x := f.flush env.ftz a
  let y := f.flush env.ftz b
  if f.isNan x || f.isNan y then none
  else
    let kx : Int := if f.isNeg x then -((x % f.signBit : Nat) : Int) else ((x % f.signBit : Nat) : Int)
    let ky : Int := if f.isNeg y then -((y % f.signBit : Nat) : Int) else ((y % f.signBit : Nat) : Int)
    some (if kx < ky then -1 else if kx == ky then 0 else 1)

/-- The condition codes of R164; codes above 7 do not occur. -/
def fpCond (code : Nat) (o : Option Int) : Bool :=
  match o, code with
  | none, 5 => true
  | none, 6 => true
  | none, _ => false
  | some r, 0 => decide (r < 0)
  | some r, 1 => decide (r ≤ 0)
  | some r, 2 => decide (r > 0)
  | some r, 3 => decide (r ≥ 0)
  | some r, 4 => r == 0
  | some r, 5 => r != 0
  | some _, 7 => true
  | some _, _ => false

/-- The class mask of R165. -/
def fpClass (f : FFmt) (env : FEnv) (a : Nat) : Nat :=
  let x := f.flush env.ftz a
  let neg := f.isNeg x
  if f.isNan x then 256
  else if f.isInf x then (if neg then 1 else 128)
  else if x % f.signBit == 0 then (if neg then 8 else 16)
  else if f.isSub x then (if neg then 4 else 32)
  else (if neg then 2 else 64)

/-- Converts between formats: rounded once; NaNs become canonical; FTZ applies to operand and result (R31, R131). -/
def fpCvt (src dst : FFmt) (env : FEnv) (a : Nat) : FRes :=
  match src.decIn env a with
  | .nan => dst.nanRes flagNone
  | .inf n => dst.infRes n flagNone
  | .fin n m e => if m == 0 then { bits := dst.withSign n 0, flags := flagNone } else roundFrac dst env n m 1 e

/-- Rounds a finite value to an integer; the second part is whether it was exact. -/
def roundToInt (rm : RMode) (n : Bool) (m : Nat) (e : Int) : Int × Bool :=
  let (a, d) := scaleFrac m 1 e
  let (k, ex) := roundDiv rm n a d
  (sgn n k, ex)

/-- Float to 32-bit integer (R46): NaN gives 0 with NV, out of range gives the nearest bound with NV, IX otherwise. -/
def fpToInt (src : FFmt) (env : FEnv) (signed : Bool) (a : Nat) : Word × FpFlags :=
  let lo : Int := if signed then -(2 ^ 31) else 0
  let hi : Int := if signed then 2 ^ 31 - 1 else 2 ^ 32 - 1
  match src.decIn env a with
  | .nan => (0, flagNV)
  | .inf n => (BitVec.ofInt 32 (if n then lo else hi), flagNV)
  | .fin n m e =>
    let (v, ex) := roundToInt env.rm n m e
    if v < lo then (BitVec.ofInt 32 lo, flagNV)
    else if v > hi then (BitVec.ofInt 32 hi, flagNV)
    else (BitVec.ofInt 32 v, flagIf (!ex) flagIX)

/-- 32-bit integer to float (R46). -/
def intToFp (dst : FFmt) (env : FEnv) (signed : Bool) (w : Word) : FRes :=
  roundDyadic dst env (if signed then w.toInt else (w.toNat : Int)) 0 false

/-- FRND: an integral value of the same format, no flag (R166). -/
def fpRnd (f : FFmt) (env : FEnv) (rm : RMode) (a : Nat) : Nat :=
  let x := f.flush env.ftz a
  match f.dec x with
  | .nan => f.nanBits
  | .inf _ => x
  | .fin n m e =>
    if 0 ≤ e then x
    else
      let (v, ex) := roundToInt rm n m e
      if ex then x else (roundDyadic f FEnv.plain v 0 n).bits

/-- FFRAC: a - trunc(a), exact, with the sign of a (R167). -/
def fpFrac (f : FFmt) (env : FEnv) (a : Nat) : FRes :=
  match f.decIn env a with
  | .nan => f.nanRes flagNone
  | .inf _ => f.nanRes flagNV
  | .fin n m e =>
    if 0 ≤ e then { bits := f.withSign n 0, flags := flagNone }
    else
      let r := m % 2 ^ (-e).toNat
      if r == 0 then { bits := f.withSign n 0, flags := flagNone }
      else { bits := (roundFrac f FEnv.plain n r 1 e).bits, flags := flagNone }

end Sys2Proof.Machine
end

