-- ==== Sys2Proof/Syntax.lean ====
section
/-! DEFINITION. The abstract form of every step of the part: one constructor of `Instr` for each row of
spec/opcode_table.json. Instructions carry the fields of their encoding format (R82, R85, R91); the steps that are
events of an engine, of the system software's register writes or of the outside world carry what the manual leaves to
placement, timing and the outside. -/

namespace Sys2Proof

/-- The fields of an H instruction (R82); op4 is the constructor. -/
structure HFields where
  b : BitVec 5
  d : BitVec 5
  e : BitVec 1
  deriving DecidableEq, Repr

/-- The fields of a W-R instruction (R85); op6 is the constructor. `b` is the offset of LDS, STS, LD and ST. -/
structure WRFields where
  b : BitVec 6
  a : BitVec 6
  d : BitVec 6
  g : BitVec 3
  s : BitVec 2
  e : BitVec 1
  deriving DecidableEq, Repr

/-- The fields of a W-I or W-B instruction (R85); op6 is the constructor. -/
structure WIFields where
  imm : BitVec 18
  d5 : BitVec 5
  e : BitVec 1
  deriving DecidableEq, Repr

/-- The fields of an L instruction (R91); op9 is the constructor. The L-I sub-form reads `b` and `c` as imm16 and the
L-J layout of R136 reads `a`, `b` and `c` as off24. -/
structure LFields where
  m3 : BitVec 3
  h : BitVec 2
  w : BitVec 2
  c : BitVec 8
  b : BitVec 8
  a : BitVec 8
  d : BitVec 8
  gn : BitVec 1
  g6 : BitVec 6
  y : BitVec 1
  u : BitVec 1
  s4 : BitVec 4
  e : BitVec 1
  deriving DecidableEq, Repr

/-- A strand place: die, core, lane of the core (0 to 191) and place on the lane (0 to 7) (R56, R73). -/
structure Loc where
  die : Nat
  core : Nat
  lane : Nat
  place : Nat
  deriving DecidableEq, Repr

/-- Where a strand is restored, and the other M-role strands of its item that are restored with it, with their places (R262,
R347). -/
structure Restoring where
  loc : Loc
  mates : List (Nat × Loc)
  deriving DecidableEq, Repr

/-- An operation that its slice applies, and whether the reply is back at once (R203, R456). -/
structure Applying where
  id : Nat
  back : Bool
  deriving DecidableEq, Repr

/-- An operation that an engine works on, and how far it goes in rows or blocks (R212). -/
structure Working where
  id : Nat
  units : Nat
  deriving DecidableEq, Repr

/-- A flit that a tile sends on a side: with a credit or not, its class, its destination and its length in bits (R425, R426). -/
structure Flit where
  side : Nat
  credit : Bool
  cls : Nat
  dst : Nat
  bits : Nat
  deriving DecidableEq, Repr

/-- A tile that receives a fence broadcast, and how many memory requests its router discards (R455). -/
structure Discard where
  tile : Nat
  count : Nat
  deriving DecidableEq, Repr

/-- An application core, 4 times its die's number plus its own, and an address that it stores to. -/
structure AppAddr where
  core : Nat
  addr : Nat
  deriving DecidableEq, Repr

/-- What the outside gives the boot ROM at reset (R5, R481): whether the power has come on, the strap each die reads, whether
each link trained, and the two firmware images of the flash (`none`: the flash read failed). -/
structure BootInput where
  powerOn : Bool
  straps : List Nat
  linksUp : List Bool
  image : Option (List Byte)
  backup : Option (List Byte)
  deriving DecidableEq, Repr

/-- Where an SRAM or DRAM error lies (R488). -/
inductive ErrorPlace where
  | corrected (die : Nat)
  | memory (line : Nat)
  | strandState (die core : Nat)
  | matrixRead (die core : Nat)
  deriving DecidableEq, Repr

/-- What a TAP access names (R6, R489): the IDCODE or DIEINFO of a die, a die-window register, or a piece of strand state. -/
inductive TapAccess where
  | readIdcode (die : Nat)
  | readDieInfo (die : Nat)
  | readWindow (addr size : Nat)
  | readScalar (strand reg : Nat)
  | readVector (strand reg thread : Nat)
  | readPredicate (strand reg : Nat)
  | readIndex (strand reg thread : Nat)
  | readFmt (strand : Nat)
  | readPc (strand : Nat)
  | writeWindow (addr size : Nat) (value : BitVec 64)
  | writeScalar (strand reg : Nat) (value : Word)
  | writeVector (strand reg thread : Nat) (value : Word)
  | writePredicate (strand reg : Nat) (value : Mask)
  | writeIndex (strand reg thread : Nat) (value : BitVec 16)
  | writeFmt (strand : Nat) (value : Word)
  | writePc (strand : Nat) (value : DWord)
  deriving DecidableEq, Repr

/-- Every step of the part: the operations and events of the table of operations and events. -/
inductive Instr where
  /-- IADD (R154): Adds a and b element-wise, wrapping modulo 2^w. -/
  | iadd (f : LFields)
  /-- ISUB (R154): Subtracts b from a element-wise, wrapping. -/
  | isub (f : LFields)
  /-- IMUL (R154): Writes the low w bits of a*b. -/
  | imul (f : LFields)
  /-- IMULH (R154): Writes the high w bits of the 2w-bit product. -/
  | imulh (f : LFields)
  /-- IMAD (R154): Writes (a*b + c) modulo 2^w. -/
  | imad (f : LFields)
  /-- IAND (R154): Bitwise AND of a and b. -/
  | iand (f : LFields)
  /-- IOR (R154): Bitwise OR of a and b. -/
  | ior (f : LFields)
  /-- IXOR (R154): Bitwise XOR of a and b. -/
  | ixor (f : LFields)
  /-- ISHL (R154): Shifts a left by b modulo w, filling with zeros. -/
  | ishl (f : LFields)
  /-- ISHR (R154): Shifts a right logically by b modulo w. -/
  | ishr (f : LFields)
  /-- ISRA (R154): Shifts a right arithmetically by b modulo w. -/
  | isra (f : LFields)
  /-- IMIN (R154): Writes the lesser of a and b, signed or unsigned. -/
  | imin (f : LFields)
  /-- IMAX (R154): Writes the greater of a and b. -/
  | imax (f : LFields)
  /-- IABS (R154): Writes the absolute value of a modulo 2^w. -/
  | iabs (f : LFields)
  /-- ICMP (R155): Writes a predicate from an integer comparison of a and b. -/
  | icmp (f : LFields)
  /-- ISEL (R154): Selects a or b per thread by a predicate. -/
  | isel (f : LFields)
  /-- BFE (R157): Extracts a bit field from a per thread. -/
  | bfe (f : LFields)
  /-- BFI (R157): Inserts a bit field of b into a per thread. -/
  | bfi (f : LFields)
  /-- POPC (R154): Counts the one bits of a. -/
  | popc (f : LFields)
  /-- CLZ (R154): Counts the leading zero bits of a. -/
  | clz (f : LFields)
  /-- BREV (R154): Reverses the bit order of a. -/
  | brev (f : LFields)
  /-- BGATH (R158): Gathers bytes from an eight-byte pool under a control word. -/
  | bgath (f : LFields)
  /-- LEA (R159): Forms a 64-bit address from a base pair and a shifted index. -/
  | lea (f : LFields)
  /-- IADDC (R156): Adds with a carry held in a predicate and writes the carry out. -/
  | iaddc (f : LFields)
  /-- MOV (R154): Copies a to d. -/
  | mov (f : LFields)
  /-- MOVI (R160): Writes a 16-bit immediate, extended or replicated, to each slot. -/
  | movi (f : LFields)
  /-- MOVHI (R160): Writes a 16-bit immediate to the upper half of each slot. -/
  | movhi (f : LFields)
  /-- IDOT4 (R161): Accumulates a four-way 8-bit dot product into c. -/
  | idot4 (f : LFields)
  /-- FADD (R162): Adds floating-point values, rounded once. -/
  | fadd (f : LFields)
  /-- FSUB (R162): Subtracts floating-point values, rounded once. -/
  | fsub (f : LFields)
  /-- FMUL (R162): Multiplies floating-point values, rounded once. -/
  | fmul (f : LFields)
  /-- FFMA (R162): Computes a*b + c with one rounding. -/
  | ffma (f : LFields)
  /-- FMIN (R163): Returns the lesser floating-point operand. -/
  | fmin (f : LFields)
  /-- FMAX (R163): Returns the greater floating-point operand. -/
  | fmax (f : LFields)
  /-- FCMP (R164): Writes a predicate from a floating-point comparison. -/
  | fcmp (f : LFields)
  /-- FCLASS (R165): Writes a class mask of each floating-point value. -/
  | fclass (f : LFields)
  /-- FRCP (R38): Computes the correctly rounded reciprocal. -/
  | frcp (f : LFields)
  /-- FRSQ (R38): Computes the correctly rounded reciprocal square root. -/
  | frsq (f : LFields)
  /-- FSQRT (R38): Computes the correctly rounded square root. -/
  | fsqrt (f : LFields)
  /-- FEXP2 (R38): Computes 2^a correctly rounded. -/
  | fexp2 (f : LFields)
  /-- FLOG2 (R38): Computes log2 a correctly rounded. -/
  | flog2 (f : LFields)
  /-- FSINT (R38): Computes sin of an angle in turns. -/
  | fsint (f : LFields)
  /-- FCOST (R38): Computes cos of an angle in turns. -/
  | fcost (f : LFields)
  /-- FCVT (R166): Converts each value between float and integer types. -/
  | fcvt (f : LFields)
  /-- FRND (R166): Rounds each element to an integral value of its format. -/
  | frnd (f : LFields)
  /-- FFRAC (R167): Returns a - trunc(a) exactly. -/
  | ffrac (f : LFields)
  /-- CADD (R168): Adds complex values component-wise. -/
  | cadd (f : LFields)
  /-- CSUB (R168): Subtracts complex values component-wise. -/
  | csub (f : LFields)
  /-- CMUL (R39): Multiplies complex values with one rounding per component. -/
  | cmul (f : LFields)
  /-- CFMA (R39): Complex fused multiply-add with one rounding per component. -/
  | cfma (f : LFields)
  /-- CMAG2 (R169): Writes the squared magnitude of a complex value as FP32. -/
  | cmag2 (f : LFields)
  /-- CSCALE (R169): Scales a complex value by an FP32 factor. -/
  | cscale (f : LFields)
  /-- CEXPI (R168): Writes cos + i*sin of an angle in turns. -/
  | cexpi (f : LFields)
  /-- CPHASE (R168): Writes the argument of a complex value in turns. -/
  | cphase (f : LFields)
  /-- TWID (R170): Writes the twiddle factor e^(∓2πik/2^n). -/
  | twid (f : LFields)
  /-- BFLY (R171): Writes the sum and difference of two complex values to d and d + 1. -/
  | bfly (f : LFields)
  /-- CCVT (R172): Converts complex values between formats. -/
  | ccvt (f : LFields)
  /-- BPACK (R174): Quantises FP32 values into the BFP register form. -/
  | bpack (f : LFields)
  /-- BUNPK (R175): Decodes a BFP block in register form to FP32. -/
  | bunpk (f : LFields)
  /-- BEXPM (R173): Computes the smallest block exponent that holds each value. -/
  | bexpm (f : LFields)
  /-- PHQ (R176): Quantises the phase of a complex value to an n-bit code. -/
  | phq (f : LFields)
  /-- EDGE (R177): Tests a pixel centre against a triangle in fixed point. -/
  | edge (f : LFields)
  /-- TRIX (R178): Tests a ray against a triangle watertight and writes t, u, v. -/
  | trix (f : LFields)
  /-- SHFL (R180): Copies from the thread named by b. -/
  | shfl (f : LFields)
  /-- SHFLX (R180): Copies from thread t xor b. -/
  | shflx (f : LFields)
  /-- SHFLD (R180): Copies from thread t + n where it exists. -/
  | shfld (f : LFields)
  /-- SHFLU (R180): Copies from thread t - n where it exists. -/
  | shflu (f : LFields)
  /-- SCAN (R181): Writes inclusive or exclusive prefix combinations in thread order. -/
  | scan (f : LFields)
  /-- REDS (R181): Reduces contributing threads' values in thread order. -/
  | reds (f : LFields)
  /-- VOTE (R182): Evaluates any, all, eq or ballot over a predicate. -/
  | vote (f : LFields)
  /-- MATCH (R183): Writes each thread the mask of threads holding an equal value. -/
  | matchT (f : LFields)
  /-- LACE (R185): Permutes a register block through a lace table. -/
  | lace (f : LFields)
  /-- LACELD (R186): Loads a lace table of the core from scratchpad. -/
  | laceld (f : LFields)
  /-- BCAST (R180): Copies one thread's slot to every thread. -/
  | bcast (f : LFields)
  /-- QAND (R133): ANDs two predicates with optional inversions. -/
  | qand (f : LFields)
  /-- QOR (R133): ORs two predicates with optional inversions. -/
  | qor (f : LFields)
  /-- QXOR (R133): XORs two predicates with optional inversions. -/
  | qxor (f : LFields)
  /-- QTOS (R134): Copies a predicate into a scalar register. -/
  | qtos (f : LFields)
  /-- STOQ (R135): Sets a predicate from the bits of a scalar. -/
  | stoq (f : LFields)
  /-- SADD (R119): Scalar addition, wrapping. -/
  | sadd (f : LFields)
  /-- SSUB (R119): Scalar subtraction, wrapping. -/
  | ssub (f : LFields)
  /-- SMUL (R119): Scalar multiply, low bits. -/
  | smul (f : LFields)
  /-- SMULH (R119): Scalar multiply, high 32 bits. -/
  | smulh (f : LFields)
  /-- SAND (R119): Scalar bitwise AND. -/
  | sand (f : LFields)
  /-- SOR (R119): Scalar bitwise OR. -/
  | sor (f : LFields)
  /-- SXOR (R119): Scalar bitwise XOR. -/
  | sxor (f : LFields)
  /-- SSHL (R119): Scalar left shift. -/
  | sshl (f : LFields)
  /-- SSHR (R119): Scalar logical right shift. -/
  | sshr (f : LFields)
  /-- SSRA (R119): Scalar arithmetic right shift. -/
  | ssra (f : LFields)
  /-- SMIN (R119): Scalar minimum. -/
  | smin (f : LFields)
  /-- SMAX (R119): Scalar maximum. -/
  | smax (f : LFields)
  /-- SMOV (R122): Moves a scalar, or one thread's vector slot, into a scalar. -/
  | smov (f : LFields)
  /-- SMOVI (R123): Writes a 16-bit immediate to a scalar register. -/
  | smovi (f : LFields)
  /-- SCMP (R120): Writes 1 or 0 from a scalar comparison. -/
  | scmp (f : LFields)
  /-- SSEL (R119): Selects a or b by a scalar selector. -/
  | ssel (f : LFields)
  /-- SBFE (R121): Extracts a bit field of a scalar. -/
  | sbfe (f : LFields)
  /-- SPOPC (R119): Counts one bits of a scalar. -/
  | spopc (f : LFields)
  /-- SCLZ (R119): Counts leading zeros of a scalar. -/
  | sclz (f : LFields)
  /-- SLDK (R124): Reads the kernel's copied parameter block into a scalar. -/
  | sldk (f : LFields)
  /-- SETFMT (R125): Writes fmt, or its RM, FTZ and SAT bits. -/
  | setfmt (f : LFields)
  /-- GETFMT (R126): Reads fmt into a scalar. -/
  | getfmt (f : LFields)
  /-- XWIN (R127): Sets the window of an index register. -/
  | xwin (f : LFields)
  /-- XSET (R128): Writes or adds to index registers per thread. -/
  | xset (f : LFields)
  /-- SFADD (R130): Scalar floating-point addition. -/
  | sfadd (f : LFields)
  /-- SFMUL (R130): Scalar floating-point multiplication. -/
  | sfmul (f : LFields)
  /-- SFFMA (R130): Scalar fused multiply-add. -/
  | sffma (f : LFields)
  /-- SFCVT (R131): Converts one scalar value between types. -/
  | sfcvt (f : LFields)
  /-- BRA (R139): Branches all active threads if any is admitted. -/
  | bra (f : LFields)
  /-- BRX (R142): Jumps to a scalar address or diverges on per-thread offsets. -/
  | brx (f : LFields)
  /-- DIV (R141): Splits active threads on a condition into divergent paths. -/
  | divT (f : LFields)
  /-- RCV (R140): Sets the pending reconvergence PC. -/
  | rcv (f : LFields)
  /-- CALL (R146): Writes the return address to a link pair and jumps. -/
  | call (f : LFields)
  /-- RET (R146): Continues at the address in a link pair. -/
  | ret (f : LFields)
  /-- EXIT (R148): Removes admitted threads and ends the run. -/
  | exit (f : LFields)
  /-- NOP (R149): Does nothing. -/
  | nop (f : LFields)
  /-- YIELD (R149): Ends the run and returns the strand to Ready. -/
  | yield (f : LFields)
  /-- LOOP (R147): Decrements a counter and branches while non-zero. -/
  | loop (f : LFields)
  /-- TRAP (R150): Raises the TRAP cause with an immediate detail. -/
  | trap (f : LFields)
  /-- BKPT (R150): Raises the BKPT cause with an immediate detail. -/
  | bkpt (f : LFields)
  /-- LD (R196): Issues a per-thread global or window load counted in c0. -/
  | ld (f : LFields)
  /-- ST (R197): Issues a per-thread store counted in c1. -/
  | st (f : LFields)
  /-- LDS (R200): Loads from the item's scratchpad. -/
  | lds (f : LFields)
  /-- STS (R200): Stores to the item's scratchpad. -/
  | sts (f : LFields)
  /-- LDT (R201): Loads a rectangle from scratchpad through the transposing path. -/
  | ldt (f : LFields)
  /-- STT (R201): Stores a rectangle to scratchpad through the transposing path. -/
  | stt (f : LFields)
  /-- ATOM (R203): Issues an atomic update performed at the home slice. -/
  | atom (f : LFields)
  /-- ATOMS (R202): Performs an atomic update on scratchpad. -/
  | atoms (f : LFields)
  /-- SUMX (R204): Sends contributions to an exact-sum cell. -/
  | sumx (f : LFields)
  /-- SUMRD (R205): Reads exact-sum cells as values or raw bytes. -/
  | sumrd (f : LFields)
  /-- SUMCLR (R206): Clears exact-sum cells. -/
  | sumclr (f : LFields)
  /-- PREF (R207): Prefetches a line under a retention hint. -/
  | pref (f : LFields)
  /-- WAITC (R208): Waits until an in-flight counter falls to a threshold. -/
  | waitc (f : LFields)
  /-- FENCE (R209): Orders the strand's accesses at a scope with cache actions. -/
  | fence (f : LFields)
  /-- SHUT (R214): Starts a shuttle rectangle copy counted in c2. -/
  | shut (f : LFields)
  /-- SHUTX (R216): Starts a multi-plane shuttle copy with conversion. -/
  | shutx (f : LFields)
  /-- DTLD (R218): Starts loading a decode table slot. -/
  | dtld (f : LFields)
  /-- DECODE (R219): Starts decoding a symbol stream into scratchpad. -/
  | decode (f : LFields)
  /-- FETCHF (R220): Starts a filtered texture fetch counted in c0. -/
  | fetchf (f : LFields)
  /-- DARN (R467): Reads and checks a darning job record and queues the job. -/
  | darn (f : LFields)
  /-- DISPQ (R477): Queues a phase frame on a display port. -/
  | dispq (f : LFields)
  /-- DISPQ_QUERY (R478): Returns the last retired frame number of a port. -/
  | dispqQuery (f : LFields)
  /-- MCLR (R351): Claims and queues the clearing of an accumulator tile. -/
  | mclr (f : LFields)
  /-- MLOOP (R352): Checks and queues a matrix loop, raising c3. -/
  | mloop (f : LFields)
  /-- MRD (R360): Queues conversion of tile entries to registers or scratchpad. -/
  | mrd (f : LFields)
  /-- MBLD (R363): Queues a copy from scratchpad into the B-slice. -/
  | mbld (f : LFields)
  /-- MTWID (R364): Queues writing a DFT B fragment into the B-slice. -/
  | mtwid (f : LFields)
  /-- SEEDLD (R380): Reads a seed tile record and places it in a seed-table slot. -/
  | seedld (f : LFields)
  /-- SEEDSCAN (R382): Queues scoring of candidate seeds against a target. -/
  | seedscan (f : LFields)
  /-- SEEDDROP (R381): Queues retirement of a seed-table slot. -/
  | seeddrop (f : LFields)
  /-- JOIN (R311): Joins or creates the group of a key in a slot. -/
  | join (f : LFields)
  /-- LEAVE (R312): Leaves the group named by a slot. -/
  | leave (f : LFields)
  /-- BAR (R329): Arrives at the group barrier and waits for the phase. -/
  | bar (f : LFields)
  /-- BARA (R329): Arrives at the group barrier and returns a token. -/
  | bara (f : LFields)
  /-- BARW (R331): Waits until a token's phase has completed. -/
  | barw (f : LFields)
  /-- RINGP (R338): Sets a ring stage full, waiting while it is full. -/
  | ringp (f : LFields)
  /-- RINGP_AFTER (R339): Records a completion mark that fills a stage when a path's operations complete. -/
  | ringpAfter (f : LFields)
  /-- RINGW (R340): Waits for a ring stage to be full or empty. -/
  | ringw (f : LFields)
  /-- RINGF (R341): Frees a ring stage. -/
  | ringf (f : LFields)
  /-- LAUNCH (R283): Requests acceptance of a kernel from a launch record. -/
  | launch (f : LFields)
  /-- EMIT (R302): Offers one record per thread to a queue. -/
  | emit (f : LFields)
  /-- TAKE (R302): Removes deliverable records from a queue. -/
  | take (f : LFields)
  /-- QCLOSE (R302): Moves an Open queue to Closed. -/
  | qclose (f : LFields)
  /-- GROW (R319): Requests a larger vector allocation. -/
  | grow (f : LFields)
  /-- SHRINK (R322): Lowers the vector allocation. -/
  | shrink (f : LFields)
  /-- CHSEND (R439): Offers a slot to a channel ring. -/
  | chsend (f : LFields)
  /-- CHRECV (R440): Receives the oldest accepted slot of a channel. -/
  | chrecv (f : LFields)
  /-- REDX (R445): Sends contributions to a reduction object. -/
  | redx (f : LFields)
  /-- REDW (R446): Polls a reduction object for its result. -/
  | redw (f : LFields)
  /-- RDSR (R277): Reads a special register. -/
  | rdsr (f : LFields)
  /-- WRSR (R278): Writes a special register. -/
  | wrsr (f : LFields)
  /-- TRET (R276): Returns from the trap handler. -/
  | tret (f : LFields)
  /-- TMSET (R268): Sets or disarms the strand's timer compare. -/
  | tmset (f : LFields)
  /-- BALLOON_GIVE (R415): Donates consecutive pages as zero to the Tension engine. -/
  | balloonGive (f : LFields)
  /-- BALLOON_QUERY (R415): Returns GFREE of the strand's die. -/
  | balloonQuery (f : LFields)
  /-- DIESET (R448): Requests a die-set mode. -/
  | dieset (f : LFields)
  /-- MEMFSP (R422): Requests an LPDRAM set-point switch. -/
  | memfsp (f : LFields)
  /-- MOV_H (R83): H-format MOV. -/
  | movH (f : HFields)
  /-- IADD_H (R83): H-format IADD d := d + b. -/
  | iaddH (f : HFields)
  /-- ISUB_H (R83): H-format ISUB. -/
  | isubH (f : HFields)
  /-- IAND_H (R83): H-format IAND. -/
  | iandH (f : HFields)
  /-- IOR_H (R83): H-format IOR. -/
  | iorH (f : HFields)
  /-- IXOR_H (R83): H-format IXOR. -/
  | ixorH (f : HFields)
  /-- ISHL_H (R83): H-format ISHL. -/
  | ishlH (f : HFields)
  /-- ISHR_H (R83): H-format ISHR. -/
  | ishrH (f : HFields)
  /-- FADD_H (R83): H-format FADD.f32. -/
  | faddH (f : HFields)
  /-- FSUB_H (R83): H-format FSUB.f32. -/
  | fsubH (f : HFields)
  /-- FMUL_H (R83): H-format FMUL.f32. -/
  | fmulH (f : HFields)
  /-- FMAX_H (R83): H-format FMAX.f32. -/
  | fmaxH (f : HFields)
  /-- FMIN_H (R83): H-format FMIN.f32. -/
  | fminH (f : HFields)
  /-- CADD_H (R83): H-format CADD.c16. -/
  | caddH (f : HFields)
  /-- CMUL_H (R83): H-format CMUL.c16. -/
  | cmulH (f : HFields)
  /-- IMUL_H (R83): H-format IMUL. -/
  | imulH (f : HFields)
  /-- MOV_W (R87): W-R MOV.b32 d, a. -/
  | movW (f : WRFields)
  /-- IADD_W (R87): W-R IADD.i32. -/
  | iaddW (f : WRFields)
  /-- ISUB_W (R87): W-R ISUB.i32. -/
  | isubW (f : WRFields)
  /-- IMUL_W (R87): W-R IMUL.i32. -/
  | imulW (f : WRFields)
  /-- IAND_W (R87): W-R IAND.b32. -/
  | iandW (f : WRFields)
  /-- IOR_W (R87): W-R IOR.b32. -/
  | iorW (f : WRFields)
  /-- IXOR_W (R87): W-R IXOR.b32. -/
  | ixorW (f : WRFields)
  /-- ISHL_W (R87): W-R ISHL.b32. -/
  | ishlW (f : WRFields)
  /-- ISHR_W (R87): W-R ISHR.b32. -/
  | ishrW (f : WRFields)
  /-- IMIN_W (R87): W-R IMIN.i32. -/
  | iminW (f : WRFields)
  /-- IMAX_W (R87): W-R IMAX.i32. -/
  | imaxW (f : WRFields)
  /-- ICMP_W (R87): W-R ICMP.lt.i32 into a predicate. -/
  | icmpW (f : WRFields)
  /-- FADD_W (R87): W-R FADD.f32. -/
  | faddW (f : WRFields)
  /-- FSUB_W (R87): W-R FSUB.f32. -/
  | fsubW (f : WRFields)
  /-- FMUL_W (R87): W-R FMUL.f32. -/
  | fmulW (f : WRFields)
  /-- FFMA_W (R87): W-R FFMA.f32 d := a*b + d. -/
  | ffmaW (f : WRFields)
  /-- FMIN_W (R87): W-R FMIN.f32. -/
  | fminW (f : WRFields)
  /-- FMAX_W (R87): W-R FMAX.f32. -/
  | fmaxW (f : WRFields)
  /-- FCMP_W (R87): W-R FCMP.lt.f32 into a predicate. -/
  | fcmpW (f : WRFields)
  /-- CADD_W (R87): W-R CADD.c16. -/
  | caddW (f : WRFields)
  /-- CSUB_W (R87): W-R CSUB.c16. -/
  | csubW (f : WRFields)
  /-- CMUL_W (R87): W-R CMUL.c16. -/
  | cmulW (f : WRFields)
  /-- CFMA_W (R87): W-R CFMA.c16 with d as accumulator. -/
  | cfmaW (f : WRFields)
  /-- BFLY_W (R87): W-R BFLY.c16. -/
  | bflyW (f : WRFields)
  /-- TWID_W (R87): W-R TWID.c16. -/
  | twidW (f : WRFields)
  /-- SHFL_W (R87): W-R SHFL.b32. -/
  | shflW (f : WRFields)
  /-- SHFLX_W (R87): W-R SHFLX.b32. -/
  | shflxW (f : WRFields)
  /-- LDS_W (R87): W-R LDS.b32 with a word offset. -/
  | ldsW (f : WRFields)
  /-- STS_W (R87): W-R STS.b32 with a word offset. -/
  | stsW (f : WRFields)
  /-- LD_W (R87): W-R LD.b32 through a vector pointer pair. -/
  | ldW (f : WRFields)
  /-- ST_W (R87): W-R ST.b32 through a vector pointer pair. -/
  | stW (f : WRFields)
  /-- SADD_W (R87): W-R SADD.i32. -/
  | saddW (f : WRFields)
  /-- SSUB_W (R87): W-R SSUB.i32. -/
  | ssubW (f : WRFields)
  /-- SMOV_W (R87): W-R SMOV.i32. -/
  | smovW (f : WRFields)
  /-- SCMP_W (R87): W-R SCMP.lt.i32. -/
  | scmpW (f : WRFields)
  /-- SAND_W (R87): W-R SAND.b32. -/
  | sandW (f : WRFields)
  /-- SOR_W (R87): W-R SOR.b32. -/
  | sorW (f : WRFields)
  /-- SSHL_W (R87): W-R SSHL.b32. -/
  | sshlW (f : WRFields)
  /-- SSHR_W (R87): W-R SSHR.b32. -/
  | sshrW (f : WRFields)
  /-- MOVI_W (R88): W-I MOVI writes a sign-extended 18-bit immediate. -/
  | moviW (f : WIFields)
  /-- SMOVI_W (R88): W-I SMOVI writes a sign-extended immediate to a scalar. -/
  | smoviW (f : WIFields)
  /-- IADDI (R88): Adds a sign-extended immediate to a vector register. -/
  | iaddi (f : WIFields)
  /-- SADDI (R88): Adds a sign-extended immediate to a scalar register. -/
  | saddi (f : WIFields)
  /-- MOVHI_W (R88): W-I MOVHI writes the upper half of a vector register. -/
  | movhiW (f : WIFields)
  /-- SMOVHI (R88): Writes the upper half of a scalar register. -/
  | smovhi (f : WIFields)
  /-- BRA_W (R89): W-B BRA guarded by q0 to q31. -/
  | braW (f : WIFields)
  /-- LOOP_W (R89): W-B LOOP on a scalar counter s0 to s31. -/
  | loopW (f : WIFields)
  /-- CALL_W (R89): W-B CALL with link pair s62. -/
  | callW (f : WIFields)
  /-- WAITC_W (R89): W-B WAITC with a path and a threshold of 0 to 63. -/
  | waitcW (f : WIFields)
  /-- EXIT_W (R89): W-B EXIT guarded by q0 to q31. -/
  | exitW (f : WIFields)
  /-- RCV_W (R89): W-B RCV setting the reconvergence PC. -/
  | rcvW (f : WIFields)
  /-- DIV_W (R89): W-B DIV on a predicate q0 to q31. -/
  | divW (f : WIFields)
  /-- HALT (R490): Halts the strand for the debugger or raises BKPT. Of its encoding only the stall count has an effect; the strand's instruction register holds it. -/
  | halt
  /-- YIELD_W (R89): W-B YIELD. Its encoding has no field with an effect: a YIELD ends the run whatever E holds. -/
  | yieldW
  /-- SPIN_DEMOTION_TIMEOUT (R317): Ends a demotion 4096 core cycles after it began. -/
  | spinDemotionTimeout (strand : Nat)
  /-- RUN_START (R314): A free lane picks the next Ready strand by the arbitration keys and starts its run. -/
  | runStart (die core lane : Nat)
  /-- TIMER_EXPIRY (R269): SR_TMR reaching the armed compare raises TIMER at the next boundary. -/
  | timerExpiry (strand : Nat)
  /-- ASYNC_TRAP_TAKE (R274): A pending asynchronous trap is taken at the next instruction boundary. -/
  | asyncTrapTake (strand : Nat)
  /-- REQUEST_ANSWER (R260): The serving unit answers a held request, releasing the strand's stall. -/
  | requestAnswer (strand : Nat)
  /-- ITEM_DISPATCH (R286): The dispatcher reserves resources and creates an item's strands. -/
  | itemDispatch (ctx kid : Nat) (places : List Loc)
  /-- ITEM_COMPLETE (R287): An item whose strands exited and whose accesses are performed completes and advances the count. -/
  | itemComplete (ctx kid item : Nat)
  /-- PREEMPTION (R257): The dispatcher pre-empts a lower-priority context on a core to place a strand. -/
  | preemption (die core forCtx : Nat)
  /-- STRAND_SAVE (R259): A stopped strand's state is saved into the core record. -/
  | strandSave (strand : Nat)
  /-- STRAND_RESTORE (R262): The dispatcher restores a saved core record and places its strands. -/
  | strandRestore (strand : Nat) (place : Restoring)
  /-- CREATE (R256): CTX_CMD CREATE moves a context to Building with zeroed registers. -/
  | createCtx (ctx : Nat)
  /-- START (R255): CTX_CMD START checks the fields and makes the context Active. -/
  | startCtx (ctx : Nat)
  /-- SUSPEND (R256): CTX_CMD SUSPEND saves every resident strand of the context. -/
  | suspendCtx (ctx : Nat)
  /-- RESUME (R256): CTX_CMD RESUME makes a Suspended or Stopped context Active. -/
  | resumeCtx (ctx : Nat)
  /-- RETIRE (R256): CTX_CMD RETIRE discards strands and moves the context to Retiring. -/
  | retireCtx (ctx : Nat)
  /-- ACK (R256): CTX_CMD ACK clears ELOVF. -/
  | ackCtx (ctx : Nat)
  /-- CTX_RETIRED (R256): A drained Retiring context sweeps its translations and becomes Retired. -/
  | ctxRetired (ctx : Nat)
  /-- CTX_CFG_WRITE (R254): Writes CTX_CFG subject to its state restrictions. -/
  | ctxCfgWrite (ctx : Nat) (value : BitVec 32)
  /-- EMB_WRITE (R265): Writes an emergency-area base, ignored when invalid or in use. -/
  | embWrite (die core : Nat) (value : BitVec 64)
  /-- REGISTER_WRITE (R250): Writes a window register that has no behaviour of its own, under its access rules. -/
  | registerWrite (addr size : Nat) (value : BitVec 64)
  /-- LAUNCHSLOT_WRITE (R303): Stages a word of a host launch; the eighth completes an append launched under R284. -/
  | launchslotWrite (ctx appCore word : Nat) (value : BitVec 64)
  /-- SWEEP_RANGE (R396): CTX_INV with ALL clear sweeps a range of the context's translations. -/
  | sweepRange (ctx : Nat) (value : BitVec 64)
  /-- SWEEP_ALL (R396): CTX_INV with ALL set sweeps every translation of the context. -/
  | sweepAll (ctx : Nat) (value : BitVec 64)
  /-- SWEEP_COMPLETE (R396): A sweep finishes, advancing CTX_INVCNT and restarting parked walks if MD. -/
  | sweepComplete (ctx : Nat)
  /-- ROLLBACK (R400): Run-ahead ends and the strand rolls back to its checkpoint. -/
  | rollback (strand : Nat)
  /-- BATCH_WRITE (R397): Writes a fault-batch record when the ring has room and sets BATCH. -/
  | batchWrite (ctx : Nat)
  /-- BATCH_RESOLVE (R402): CTX_FDONE resolves a batch and releases its source. -/
  | batchResolve (ctx : Nat) (seq : BitVec 32)
  /-- LOAD_DATA_RETURN (R196): A load thread's data returns; the counter falls when the operation's last thread is ready. -/
  | loadDataReturn (strand op thread : Nat) (victims : List Nat)
  /-- STORE_PERFORMED (R197): A store is performed and c1 falls in order. -/
  | storePerformed (strand op : Nat) (victims : List Nat)
  /-- ATOMIC_PERFORMED (R203): An atomic is applied at the home slice and returns its old value. -/
  | atomicPerformed (strand : Nat) (op : Applying)
  /-- EXACT_SUM_PERFORMED (R52): An exact-sum operation is applied indivisibly at the cell's home slice. -/
  | exactSumPerformed (strand : Nat) (op : Applying)
  /-- SHUTTLE_COMPLETE (R215): A SHUT or SHUTX operation finishes or ends with an engine error; c2 falls. -/
  | shuttleComplete (strand : Nat) (op : Working)
  /-- DTLD_COMPLETE (R218): A decode table load finishes and c4 falls. -/
  | dtldComplete (strand op : Nat)
  /-- DECODE_COMPLETE (R219): A decode operation writes its status record and c4 falls. -/
  | decodeComplete (strand : Nat) (op : Working)
  /-- FETCHF_COMPLETE (R221): A texture fetch writes its samples and c0 falls. -/
  | fetchfComplete (strand op : Nat)
  /-- PROMOTION_REQUEST (R241): A core receiving a .rmt promotion request releases if its filter matches and replies. -/
  | promotionRequest (strand die core : Nat)
  /-- SEQ_OP_START (R349): The matrix sequencer starts the next queued operation. -/
  | seqOpStart (die core : Nat)
  /-- MLOOP_STEP (R356): One matrix array step ends, applying its accumulation. -/
  | mloopStep (die core : Nat)
  /-- MATRIX_OP_COMPLETE (R365): A matrix or seed operation completes, setting flags and lowering c3. -/
  | matrixOpComplete (die core : Nat)
  /-- SEEDLD_REMOTE_LOAD (R380): A SEEDLD record becomes Valid on every other core of the kernel and c3 falls. -/
  | seedldRemoteLoad (strand op die core : Nat)
  /-- LINE_WRITEBACK (R409): A line written back to DRAM re-encodes its frame, taking or returning granules. -/
  | lineWriteback (line : Nat)
  /-- TENSION_RECLAIM (R413): The Tension engine reclaims granules from donated, zero and wasteful frames. -/
  | tensionReclaim (die : Nat) (frame : Nat)
  /-- PARK_LIMIT_EXPIRY (R412): A write parked for 50 µs raises MEMFULL for its writer's context. -/
  | parkLimitExpiry (die : Nat)
  /-- ARM (R417): TRCMD ARM reserves, zeroes and arms a transient region. -/
  | arm (die region : Nat)
  /-- DISARM (R417): TRCMD DISARM zeroes a transient region and returns its granules. -/
  | disarm (die region : Nat)
  /-- REGION_EXPIRE (R419): A transient region reaches its deadline and becomes Expired. -/
  | regionExpire (die region : Nat)
  /-- BUDGET_CHANGE (R418): A DRAM temperature change sets the retention budget and recomputes deadlines. -/
  | budgetChange (die : Nat) (celsius : Int)
  /-- MEMSP_WRITE (R408): A write of MEMSP on D0 requests an LPDRAM set point. -/
  | memspWrite (die : Nat) (value : BitVec 32)
  /-- MEMFSP_SWITCH (R423): A pending set-point switch takes place on all dies at D0's frame boundary. -/
  | memfspSwitch
  /-- DSCTL_WRITE (R447): A write of DSCTL.REQ requests a die-set mode. -/
  | dsctlWrite (value : BitVec 32)
  /-- DIESET_CHANGE (R449): A pending die-set request begins at D0's frame boundary, saving strands of leaving dies. -/
  | diesetChange
  /-- DIESET_COMMIT (R449): MODE and ISLAND change on all dies, CUR updates and restores begin. -/
  | diesetCommit
  /-- OPEN (R304): QCMD OPEN opens a Free queue. -/
  | openQ (queue : Nat)
  /-- CLOSE (R304): QCMD CLOSE closes an Open queue. -/
  | closeQ (queue : Nat)
  /-- RELEASE (R304): QCMD RELEASE frees a Drained queue. -/
  | releaseQ (queue : Nat)
  /-- QUEUE_APPEND_WRITE (R303): Stages a word of a queue append slot; the eighth appends the record. -/
  | queueAppendWrite (queue appCore word : Nat) (value : BitVec 64)
  /-- QUEUE_RECORD_ARRIVE (R300): A record crossing a link arrives at its target part. -/
  | queueRecordArrive (queue src die : Nat)
  /-- CHANNEL_SLOT_DELIVER (R435): An accepted channel slot is written to the kernel's ring. -/
  | channelSlotDeliver (ctx kid channel : Nat)
  /-- REDX_CONTRIBUTION_ARRIVE (R445): Reduction contributions reach the object's root or a combining router. -/
  | redxContributionArrive (ctx kid object : Nat)
  /-- MULTICAST_FORWARD (R433): A router forks a multicast on its outputs as credits allow. -/
  | multicastForward (message router : Nat)
  /-- RETRAIN (R430): LNKCMD RETRAIN moves an Active link to Retraining. -/
  | retrain (die port : Nat)
  /-- LINK_FAULT (R430): Exhausted retry or an unrepairable lane fault starts retraining. -/
  | linkFault (link : Nat)
  /-- FLIT_REPLAY (R428): Link-layer retry replays unacknowledged flits. -/
  | flitReplay (die port flits : Nat)
  /-- LINK_TRAINING_END (R430): A training attempt ends, activating, repeating or failing the link. -/
  | linkTrainingEnd (link : Nat) (trained : Bool)
  /-- HEARTBEAT_SEND (R451): A mesh tile sends a heartbeat to each neighbour every 2 µs. -/
  | heartbeatSend (die tile : Nat) (fatal : Bool)
  /-- HEARTBEAT_RECEIVE (R452): A neighbour receives a heartbeat and updates its vote. -/
  | heartbeatReceive (die tile side : Nat)
  /-- HEARTBEAT_MISS (R452): Three periods without a correct heartbeat cast a vote. -/
  | heartbeatMiss (die tile side : Nat)
  /-- BABBLE_DETECT (R452): A router monitor sees a flit without credit or too many malformed flits. -/
  | babbleDetect (die tile : Nat) (side : Flit)
  /-- TILE_FENCE (R454): A voted-out tile is fenced, detours installed and work recovered. -/
  | tileFence (die tile : Nat) (transit : List Nat)
  /-- FENCE_BROADCAST_RECEIVE (R455): A router or core receives the fence broadcast and drops or reissues messages. -/
  | fenceBroadcastReceive (die tile : Nat) (receiver : Discard)
  /-- TAG_QUERY (R456): A destination answers a tag query as applied or refused. -/
  | tagQuery (message : Nat)
  /-- TAG_ANSWER (R456): A source drops or resends its message on a tag answer. -/
  | tagAnswer (message : Nat)
  /-- SELF_TEST_START (R461): One millisecond after a fence the security controller tests the tile. -/
  | selfTestStart (die tile : Nat)
  /-- SELF_TEST_DONE (R461): A self-test passes into appeal or fails into Retired. -/
  | selfTestDone (die tile : Nat) (passed : Bool)
  /-- PROBATION_END (R462): After 100 ms in Probation the tile becomes Healthy. -/
  | probationEnd (die tile : Nat)
  /-- DARN_JOB_START (R468): The darning unit starts the next queued job by priority. -/
  | darnJobStart (die : Nat)
  /-- DARN_JOB_COMPLETE (R471): A darning job writes VOUT and HOLES and c4 falls. -/
  | darnJobComplete (die : Nat)
  /-- ENABLE (R479): DPCMD ENABLE starts a phase output port or refuses. -/
  | enable (die : Nat)
  /-- DISABLE (R479): DPCMD DISABLE stops a port and discards queued frames. -/
  | disable (die : Nat)
  /-- VBLANK_START (R478): At vertical blanking a port retires a frame and scans the oldest queued. -/
  | vblankStart (die : Nat)
  /-- SCANOUT_LINE (R475): A port reads and drives one line, substituting code 0 on errors. -/
  | scanoutLine (die : Nat)
  /-- PCIE_WRITE (R248): A PCI Express write is performed at its home slice. -/
  | pcieWrite (addr : Nat) (bytes : List Byte)
  /-- RESET (R481): Reset runs the boot ROM sequence on D0. -/
  | resetBoot (input : BootInput)
  /-- APERI_MODEL_LOAD (R483): The security controller verifies and copies an Aperi model. -/
  | aperiModelLoad (image : List Byte) (target : Nat)
  /-- QUOTE (R484): ATTCMD QUOTE starts an attestation quote. -/
  | quote
  /-- QUOTE_COMPLETE (R484): The quote is written and BUSY clears. -/
  | quoteComplete
  /-- CLKREQ_WRITE (R486): A write of CLKREQ sets the requested core clock. -/
  | clkreqWrite (die : Nat) (value : BitVec 32)
  /-- THERMAL_SAMPLE (R487): Junction sensors are sampled every 10 µs. -/
  | thermalSample (die : Nat) (sensors : List Int)
  /-- THERMAL_ACTION (R487): Every 100 µs the controller adjusts BUB and the clock. -/
  | thermalAction (die : Nat)
  /-- THERMAL_TRIP_RELEASE (R487): Reset is released once every sensor reads below 100 °C. -/
  | thermalTripRelease (die : Nat)
  /-- POWER_LIMIT_STEP (R487): Each ms over the power limit lowers every computing die's clock. -/
  | powerLimitStep (milliwatts : Nat)
  /-- SRAM_ERROR (R488): An SRAM ECC error is corrected and counted or reported by location. -/
  | sramError (place : ErrorPlace)
  /-- TAP_RESUME (R490): A TAP resume command satisfies a HALT wait. -/
  | tapResume (strand : Nat)
  /-- DEBUG_ACCESS (R489): A TAP access reads or writes die windows and strand state when DBG is 1. -/
  | debugAccess (access : TapAccess)
  /-- ENCODING_NOT_AN_INSTRUCTION (R101): An issued encoding that names no instruction (an unassigned op9, W op6 0, 46, 47 or 56 to 63) raises ILLOP at issue. -/
  | encodingNotAnInstruction
  /-- APPLICATION_CORE_STORE (R248): An application core's coherent store to module memory is performed under RVWMO and seen by system-scope acquires and by the walker. -/
  | applicationCoreStore (addr : AppAddr) (bytes : List Byte)
  /-- SLM_ATTACH (R23): Attaching or removing an SLM on a phase output port changes whether the port must be held in ULPS. -/
  | slmAttach (die : Nat) (attached : Bool)
  /-- WRITE_BACK_ACKNOWLEDGED (R210): The acknowledgement of the dirty L1 sectors that a wide release wrote back completes the fence, release or hold that was waiting for it. -/
  | writeBackAcknowledged (strand : Nat)
  deriving DecidableEq, Repr

end Sys2Proof
end

