-- ==== Sys2Proof/Machine/OpTable.lean ====
section
/-! DEFINITION. What each L instruction's entry says of its operand fields, types, extents, guard, role, privilege and
timing class (R91 to R101, R107, R116, R132, R136, R152, R179 and the entries), as one table. -/

namespace Sys2Proof.Machine

/-- What an 8-bit operand field may hold (R92). -/
inductive FldK where
  /-- unused: zero (R99) -/
  | zero
  /-- part of an immediate, or judged by the entry's own check -/
  | raw
  /-- vector register or indirect operand -/
  | vx
  /-- vector register -/
  | v
  /-- vector, indirect, scalar or constant -/
  | any
  /-- vector, scalar or constant -/
  | vsk
  /-- vector or scalar register -/
  | vs
  /-- vector, indirect or scalar -/
  | vxs
  /-- scalar register -/
  | s
  /-- scalar register or constant -/
  | sk
  /-- an index register by its number, 0 to 7 -/
  | x
  /-- predicate 0 to 47 -/
  | q
  /-- predicate 1 to 47 -/
  | q1
  /-- the index field of R193 -/
  | idx
  /-- a number from lo to hi -/
  | lit (lo hi : Nat)
  deriving DecidableEq, Repr

/-- A field's rule: class, count of consecutive registers, alignment of the base, and whether it is read or written. -/
structure Fld where
  k : FldK
  n : Nat
  al : Nat
  rd : Bool
  wr : Bool
  deriving DecidableEq, Repr

/-- The field's register forms a block under the instruction's extent (R59): a pair or a longer group does not, nor does a
scratchpad address or its index, which stand for every element (R200). -/
def Fld.block (r : Fld) : Bool := r.n == 1 && r.k != .vs && r.k != .idx

/-- When an instruction reads its sources (R103): per thread, all the slots of an element in its first cycle, all the slots of
the block in cycle P (R185), or once in cycle P. -/
inductive Mode where
  | perThread
  | cross
  | block
  | once
  deriving DecidableEq, Repr

/-- One instruction's row. `m3` is a mask of the accepted codes; `ext` 0 requires 1 x 1, 1 is a block, 2 gives w and h
the entry's own meaning; `u` 0 is uniform execution, 1 ignored, 2 ILLOP; `bexp` 1 reads AEXP, 2 AEXP and BEXP;
`cond` marks a guard field that is a condition and stops no thread (R141); `all` an instruction that reads the slots of all 16
threads (R128, R134, R302, R439), and `t0` one that reads thread 0's besides (R175). -/
structure OpSpec where
  d : Fld
  a : Fld
  b : Fld
  c : Fld
  m3 : Nat
  ext : Nat
  u : Nat
  q0 : Bool
  role : Option Nat
  priv : Bool
  mode : Mode
  o : Nat
  depth : Nat
  bexp : Nat
  extra : Bool
  cond : Bool
  all : Bool
  t0 : Bool
  deriving DecidableEq, Repr

def fz : Fld := { k := .zero, n := 1, al := 1, rd := false, wr := false }
def fraw : Fld := { k := .raw, n := 1, al := 1, rd := false, wr := false }
/-- A destination. -/
def fd (k : FldK) (n al : Nat) : Fld := { k := k, n := n, al := al, rd := false, wr := true }
/-- A destination that is read too. -/
def frw (k : FldK) (n al : Nat) : Fld := { k := k, n := n, al := al, rd := true, wr := true }
/-- A source. -/
def fs (k : FldK) (n al : Nat) : Fld := { k := k, n := n, al := al, rd := true, wr := false }
def fnum (lo hi : Nat) : Fld := { k := .lit lo hi, n := 1, al := 1, rd := false, wr := false }

/-- 2 for .b64 (m3 = 7), else 1. -/
def w64 (f : LFields) : Nat := if f.m3 == 7 then 2 else 1

/-- A row with every field unused, executed once. -/
def specBase : OpSpec :=
  { d := fz, a := fz, b := fz, c := fz, m3 := 1, ext := 0, u := 1, q0 := false, role := none, priv := false,
    mode := .once, o := 1, depth := 0, bexp := 0, extra := true, cond := false, all := false, t0 := false }

/-- A per-thread row of R152: depth and cycles per thread of R107. -/
def specVec (m3 depth : Nat) : OpSpec :=
  { specBase with m3 := m3, ext := 1, u := 0, mode := .perThread, depth := depth }

/-- Integer rows with one, two and three sources; under .b64 pairs, and then only 1 x 1. -/
def specInt1 (m3 : Nat) (f : LFields) : OpSpec :=
  { specVec m3 4 with d := fd .vx (w64 f) (w64 f), a := fs .any (w64 f) (w64 f), ext := if w64 f == 2 then 0 else 1 }
def specInt2 (m3 : Nat) (f : LFields) : OpSpec := { specInt1 m3 f with b := fs .any (w64 f) (w64 f) }
def specShift (m3 : Nat) (f : LFields) : OpSpec := { specInt1 m3 f with b := fs .any 1 1 }
def specInt3 (m3 : Nat) (f : LFields) : OpSpec := { specInt2 m3 f with c := fs .any 1 1 }

/-- FP rows of R162 with all five types: m3 0 to 4. -/
def specF1 (m3 depth : Nat) : OpSpec := { specVec m3 depth with d := fd .vx 1 1, a := fs .any 1 1 }
def specF2 (m3 depth : Nat) : OpSpec := { specF1 m3 depth with b := fs .any 1 1 }
def specF3 (m3 depth : Nat) : OpSpec := { specF2 m3 depth with c := fs .any 1 1 }
/-- Transcendental rows: 2 cycles per thread, depth 12. -/
def specTr (m3 : Nat) : OpSpec := { specF1 m3 12 with o := 2 }

/-- Two integer type codes of R131. -/
def bothInt (x y : Nat) : Bool := decide (x ≥ 3) && decide (y ≥ 3)

/-- Cross-thread rows (R179). -/
def specX (m3 : Nat) : OpSpec :=
  { specBase with m3 := m3, u := 2, mode := .cross, depth := 8 }
def specShfl (f : LFields) : OpSpec :=
  { specX 0xC0 with d := fd .v (w64 f) (w64 f), a := fs .vsk (w64 f) (w64 f), b := fs .vsk 1 1 }

/-- The operation and type code of SCAN and REDS (R181). -/
def scanOk (c : Nat) (reds : Bool) : Bool :=
  let ty := c / 16
  let op := c % 8
  decide (ty ≤ 9) && decide (op ≤ 5) && !(reds && c / 8 % 2 == 1) &&
    (if op ≥ 3 then decide (ty ≤ 3) || ty == 9 else decide (ty ≤ 8))

/-- Scalar rows (R116): depth 3. -/
def specS (m3 : Nat) : OpSpec := { specBase with m3 := m3, depth := 3 }
def specS1 (m3 : Nat) (f : LFields) : OpSpec :=
  { specS m3 with d := fd .s (w64 f) (w64 f), a := fs .sk (w64 f) (w64 f) }
def specS2 (m3 : Nat) (f : LFields) : OpSpec := { specS1 m3 f with b := fs .sk (w64 f) (w64 f) }
def specSSh (m3 : Nat) (f : LFields) : OpSpec := { specS1 m3 f with b := fs .sk 1 1 }
def specSF (f3 : Bool) : OpSpec :=
  { specS 7 with d := fd .s 1 1, a := fs .sk 1 1, b := fs .sk 1 1, c := if f3 then fs .sk 1 1 else fz }

/-- Predicate rows (R132). -/
def specQ2 : OpSpec := { specS 0xFF with d := fd .q 1 1, a := fs .q 1 1, b := fs .q 1 1 }

/-- L-J rows (R136): the offset spans a, b and c. -/
def specJ (q0 : Bool) : OpSpec := { specBase with a := fraw, b := fraw, c := fraw, q0 := q0 }

/-- Registers of one load or store element (R195). -/
def szRegs (m3 : Nat) : Nat := if m3 == 5 then 2 else if m3 == 6 then 4 else 1

/-- The rules of R194 for LD (0), ST (1) and ATOM (2). -/
def ordOk (c : Nat) (k : Nat) : Bool :=
  let ord := c / 64
  let scope := c / 8 % 8
  let rmt := c / 4 % 2 == 1
  decide (scope ≤ 5) && !(ord == 0 && (scope != 0 || rmt)) && !(ord == 2 && k == 0) && !(ord == 1 && k == 1) &&
    !(ord == 3 && k != 2) && !(rmt && !((ord == 1 || ord == 3) && scope == 2))

/-- An indirect operand is allowed in d8 only for sizes up to .b32 (R195). -/
def memDst (m3 : Nat) : FldK := if m3 ≤ 4 then .vx else .v

/-- A base pair of R193. -/
def fbase : Fld := fs .vs 2 2

/-- The operations and types of R202. -/
def atomOk (op ty : Nat) : Bool :=
  if op ≤ 2 then ty != 2 && decide (ty ≤ 5)
  else decide (op ≤ 7) && (ty == 2 || ty == 3)

def hw (f : LFields) : Nat := f.h.toNat * 4 + f.w.toNat

/-- ATOM and ATOMS: .b64 pairs; d is read by .cas. -/
def specAtom (f : LFields) (sp : Bool) : OpSpec :=
  let n := if f.m3 == 3 then 2 else 1
  { specBase with
    m3 := 0x3F, ext := 2, u := 0, mode := .perThread, depth := if sp then 24 else 0,
    d := { k := if n == 2 then .v else .vx, n := n, al := n, rd := hw f == 7, wr := true },
    a := if sp then fs .vs 1 1 else fbase, b := fs .vsk n n,
    c := if sp then fz else fraw,
    extra := atomOk (hw f) f.m3.toNat && (sp || ordOk f.c.toNat 2) }

/-- Engine rows (R212): role C. -/
def specEng : OpSpec := { specBase with role := some 2 }
/-- A descriptor of n consecutive scalar registers at an even base. -/
def fdesc (n : Nat) : Fld := fs .s n 2

/-- Matrix rows (R348): role M. -/
def specMat (m3 : Nat) : OpSpec := { specBase with role := some 1, m3 := m3 }

/-- The imm16 of L-I (R91). -/
def imm16 (f : LFields) : BitVec 16 := f.c ++ f.b
/-- The off24 of L-J (R136): a8 is the low byte. -/
def off24 (f : LFields) : BitVec 24 := f.c ++ f.b ++ f.a

/-- 2 for the special registers of 64 bits (R73). -/
def srRegs (n : Nat) : Nat := if 10 ≤ n ∧ n ≤ 13 then 2 else 1

/-- The row of each L instruction; `none` for every other constructor. -/
def specOf : Instr → Option OpSpec
  | .iadd f | .isub f => some (specInt2 0xBF f)
  | .imul f | .imin f | .imax f => some (specInt2 0x3F f)
  | .imulh f => some (specInt2 0x0F f)
  | .imad f => some (specInt3 0x0F f)
  | .iand f | .ior f | .ixor f => some (specInt2 0xC0 f)
  | .ishl f | .ishr f | .isra f => some (specShift 0xFC f)
  | .iabs f => some (specInt1 0x15 f)
  | .icmp f => some { specInt2 0x83 f with d := fd .q 1 1, c := fnum 0 5, ext := 0 }
  | .isel f => some { specInt2 0xC0 f with c := fs .q 1 1, ext := 0 }
  | .bfe f => some (specInt3 0x03 f)
  | .bfi f | .bgath f => some (specInt3 0x40 f)
  | .popc f | .clz f => some { specInt1 0xC0 f with d := fd .vx 1 1 }
  | .brev f => some (specInt1 0x40 f)
  | .lea _ => some { specVec 0x03 4 with d := fd .v 2 2, a := fs .vs 2 2, b := fs .any 1 1, c := fnum 0 7, ext := 0 }
  | .iaddc f => some { specInt2 0x02 f with c := frw .q1 1 1, ext := 0 }
  | .mov f => some (specInt1 0xC0 f)
  | .movi _ => some { specVec 0x07 4 with d := fd .vx 1 1, b := fraw, c := fraw }
  | .movhi _ => some { specVec 0x01 4 with d := frw .vx 1 1, b := fraw, c := fraw }
  | .idot4 f => some (specInt3 0x30 f)
  | .fadd _ | .fsub _ | .fmul _ | .fmin _ | .fmax _ => some (specF2 0x1F 6)
  | .ffma _ => some (specF3 0x1F 6)
  | .fcmp _ => some { specF2 0x07 6 with d := fd .q 1 1, c := fnum 0 7, ext := 0 }
  | .fclass _ | .ffrac _ => some (specF1 0x1F 6)
  | .frcp _ | .frsq _ | .fsqrt _ | .fexp2 _ | .flog2 _ | .fsint _ | .fcost _ => some (specTr 0x1F)
  | .fcvt f => some { specF1 0x1F 6 with b := fnum 0 4, c := fnum 0 4, extra := !bothInt f.m3.toNat f.c.toNat }
  | .frnd _ => some { specF1 0x1F 6 with b := fnum 0 4 }
  | .cadd _ | .csub _ | .cmul _ | .cscale _ => some (specF2 0x03 8)
  | .cfma _ => some (specF3 0x03 8)
  | .cmag2 _ => some (specF1 0x03 8)
  | .cexpi _ | .cphase _ => some (specTr 0x03)
  | .twid _ => some (specF2 0x0F 10)
  | .bfly _ => some { specF2 0x03 8 with d := fd .v 2 1, ext := 0 }
  | .ccvt f =>
    let m := f.m3.toNat
    some { specF1 0x3F 6 with
      d := (if m ≥ 4 then fd .v 2 2 else fd .vx 1 1),
      a := (if m == 2 || m == 3 then fs .vs 2 2 else fs .any 1 1),
      ext := if m ≥ 2 then 0 else 1 }
  | .bpack _ => some { specF2 0x7F 6 with bexp := 1 }
  | .bunpk _ => some { specF1 0x7F 6 with a := fs .vxs 1 1, bexp := 1, t0 := true }
  | .bexpm _ => some (specF1 0x7F 6)
  | .phq _ => some { specF1 0x03 8 with c := fnum 1 12 }
  | .edge _ => some { specVec 0x01 4 with d := fd .vx 1 1, a := fs .any 1 1, b := fs .vs 6 1, c := fnum 0 2, ext := 0 }
  | .trix _ => some { specVec 0x01 14 with
      d := fd .v 3 1, a := fs .vs 6 1, b := fs .vs 9 1, c := fd .q1 1 1, ext := 0, o := 2 }
  | .shfl f | .shflx f | .shfld f | .shflu f => some (specShfl f)
  | .bcast f => some { specShfl f with b := fs .sk 1 1 }
  | .scan f => some { specX 0x01 with d := fd .v 1 1, a := fs .vsk 1 1, c := fraw, extra := scanOk f.c.toNat false }
  | .reds f => some { specX 0x01 with d := fd .vs 1 1, a := fs .vsk 1 1, c := fraw, extra := scanOk f.c.toNat true }
  | .vote f => some { specX 0x0F with d := if f.m3 == 3 then fd .vs 1 1 else fd .q 1 1, a := fs .q 1 1 }
  | .matchT f => some { specX 0xC0 with d := fd .v 1 1, a := fs .vsk (w64 f) (w64 f) }
  | .lace f => some { specX 0x40 with
      d := fd .v 1 1, a := fs .v 1 1, c := fnum 0 15, ext := 1, mode := .block,
      extra := decide (f.h.toNat + f.w.toNat ≤ 3) }
  | .laceld _ => some { specX 0x01 with d := fnum 0 15, a := fs .s 1 1, depth := 0, mode := .once, o := 16 }
  | .qand _ | .qor _ | .qxor _ => some specQ2
  | .qtos _ => some { specS 0x03 with d := fd .s 1 1, a := fs .q 1 1, all := true }
  | .stoq _ => some { specS 0x01 with d := fd .q 1 1, a := fs .sk 1 1 }
  | .sadd f | .ssub f | .smul f => some (specS2 0x83 f)
  | .smulh f | .smin f | .smax f => some (specS2 0x03 f)
  | .sand f | .sor f | .sxor f => some (specS2 0xC0 f)
  | .sshl f | .sshr f | .ssra f => some (specSSh 0xC0 f)
  | .smov f => some { specS1 0xC3 f with a := fs .vsk (w64 f) (w64 f) }
  | .smovi f => some { specS 0x87 with
      d := if f.m3 == 2 then frw .s 1 1 else fd .s (w64 f) (w64 f), b := fraw, c := fraw }
  | .scmp f => some { specS2 0x83 f with d := fd .s 1 1, c := fnum 0 5 }
  | .ssel f => some { specS2 0xC0 f with c := fs .sk 1 1 }
  | .sbfe f => some { specS2 0x03 f with c := fs .sk 1 1 }
  | .spopc f | .sclz f => some { specS1 0xC0 f with d := fd .s 1 1 }
  | .sldk f => some { specS 0xC0 with
      d := fd .s (w64 f) (w64 f), a := fs .sk 1 1, b := fraw, c := fraw,
      extra := decide (f.a.toNat < 0xC0) || f.a == 0xE0 }
  | .setfmt _ => some { specS 0x03 with a := fs .sk 1 1 }
  | .getfmt _ => some { specS 0x01 with d := fd .s 1 1 }
  | .xwin _ => some { specS 0x01 with d := fnum 0 7, a := fs .sk 1 1, b := fs .sk 1 1 }
  | .xset f => some { specS 0x03 with
      d := if f.m3 == 1 then frw .x 1 1 else fd .x 1 1, a := fs .vsk 1 1, all := true }
  | .sfadd _ | .sfmul _ => some (specSF false)
  | .sffma _ => some (specSF true)
  | .sfcvt f => some { specS 0x1F with
      d := fd .s 1 1, a := fs .sk 1 1, c := fnum 0 4, ext := 2,
      extra := !bothInt f.m3.toNat f.c.toNat && (f.w == 1 || (f.w == 0 && f.h == 0)) }
  | .bra _ => some (specJ false)
  | .divT _ => some { specJ false with cond := true }
  | .brx f => some { specBase with a := if f.a.toNat < 128 then fs .v 1 1 else fs .s 2 2, q0 := true }
  | .rcv _ => some (specJ true)
  | .call _ => some { specJ true with d := fd .s 2 2 }
  | .ret _ => some { specBase with a := fs .s 2 2, q0 := true }
  | .exit _ => some specBase
  | .nop _ | .yield _ => some { specBase with q0 := true }
  | .loop _ => some { specJ true with d := frw .s 1 1 }
  | .trap _ | .bkpt _ => some { specBase with b := fraw, c := fraw, q0 := true }
  | .ld f => some { specVec 0x7F 0 with
      d := fd (memDst f.m3.toNat) (szRegs f.m3.toNat) (szRegs f.m3.toNat), a := fbase, b := fs .idx 1 1, c := fraw,
      ext := 2, extra := ordOk f.c.toNat 0 }
  | .st f => some { specVec 0x7F 0 with
      d := fs (memDst f.m3.toNat) (szRegs f.m3.toNat) (szRegs f.m3.toNat), a := fbase, b := fs .idx 1 1, c := fraw,
      ext := 2, extra := ordOk f.c.toNat 1 }
  | .lds f => some { specVec 0x7F 24 with
      d := fd (memDst f.m3.toNat) (szRegs f.m3.toNat) (szRegs f.m3.toNat), a := fs .vs 1 1, b := fs .idx 1 1,
      ext := if f.m3.toNat ≤ 4 then 1 else 0 }
  | .sts f => some { specVec 0x7F 0 with
      d := fs (memDst f.m3.toNat) (szRegs f.m3.toNat) (szRegs f.m3.toNat), a := fs .vs 1 1, b := fs .idx 1 1,
      ext := if f.m3.toNat ≤ 4 then 1 else 0 }
  | .ldt _ => some { specVec 0x10 24 with d := fd .v 1 1, a := fs .s 1 1, b := fs .sk 1 1 }
  | .stt _ => some { specVec 0x10 0 with d := fs .v 1 1, a := fs .s 1 1, b := fs .sk 1 1 }
  | .atom f => some (specAtom f false)
  | .atoms f => some (specAtom f true)
  | .sumx _ => some { specVec 0x1F 0 with a := fbase, b := fs .vsk 1 1, ext := 2 }
  | .sumrd f => some { specVec 0x87 0 with
      d := fd .vs (if f.m3 == 7 then 16 else 1) (if f.m3 == 7 then 16 else 1), a := fbase, ext := 2, mode := .once }
  | .sumclr _ => some { specVec 0x01 0 with a := fbase, ext := 2, mode := .once }
  | .pref f => some { specVec 0x03 0 with a := fbase, b := fs .idx 1 1, c := fraw, ext := 2, extra := decide (f.c.toNat < 4) }
  | .waitc f => some { specBase with
      m3 := 0x03, d := fnum 0 5, a := if f.m3 == 0 then fs .sk 1 1 else fz,
      b := if f.m3 == 0 then fz else fraw, c := if f.m3 == 0 then fz else fraw }
  | .fence f => some { specBase with
      m3 := 0x07, c := fraw,
      extra := f.c.toNat % 8 == 0 && decide (f.c.toNat / 8 ≤ 5) }
  | .shut _ | .decode _ => some { specEng with a := fdesc 8 }
  | .shutx _ => some { specEng with a := fdesc 12 }
  | .dtld _ => some { specEng with d := fnum 0 7, a := fs .s 2 2 }
  | .fetchf _ => some { specEng with
      m3 := 0x03, d := fd .v 4 1, a := fs .v 6 1, b := fdesc 8, u := 0, mode := .perThread }
  | .darn _ => some { specEng with a := fs .s 2 2 }
  | .dispq _ => some { specEng with d := fd .s 1 1, a := fs .s 2 2, b := fs .sk 1 1 }
  | .dispqQuery _ => some { specEng with m3 := 0x02, d := fd .s 1 1, b := fs .sk 1 1 }
  | .mclr f => some { specMat 0x07 with d := fnum 0 15, b := fraw, c := fraw, extra := f.m3 == 2 || imm16 f == 0 }
  | .mloop f => some { specMat 0x3F with
      d := fnum 0 15, a := fdesc 8, c := if f.y == 1 then fnum 0 1 else fz,
      bexp := if f.m3 == 4 then 2 else if f.m3 == 5 then 1 else 0 }
  | .mrd f =>
    let sp := f.c.toNat / 64 % 2 == 1
    some { specMat (if sp then 0x7F else 0x1F) with
      d := if sp then fz else fd .v 1 1, a := fs .s 1 1, b := if sp then fs .sk 1 1 else fz, c := fraw,
      ext := if sp then 0 else 1, u := 0, extra := f.c.toNat / 16 % 4 == 0 }
  | .mbld _ => some { specMat 0x01 with d := fs .s 1 1, a := fs .s 1 1, b := fs .sk 1 1 }
  | .mtwid _ => some { specMat 0x03 with d := fs .s 1 1, c := fnum 1 4 }
  | .seedld _ => some { specMat 0x01 with a := fs .s 2 2, b := fs .sk 1 1 }
  | .seedscan _ => some { specMat 0x01 with a := fdesc 4 }
  | .seeddrop _ => some { specMat 0x01 with a := fs .sk 1 1 }
  | .join _ => some { specBase with d := fd .s 1 1, a := fs .sk 1 1, c := fnum 0 3 }
  | .leave _ => some { specBase with c := fnum 0 3 }
  | .bar _ => some { specBase with a := fs .sk 1 1, c := fnum 0 3 }
  | .bara _ => some { specBase with d := fd .s 1 1, a := fs .sk 1 1, c := fnum 0 3 }
  | .barw _ => some { specBase with a := fs .s 1 1, c := fnum 0 3 }
  | .ringp _ | .ringf _ => some { specBase with a := fs .sk 1 1, b := fs .sk 1 1, c := fnum 0 15 }
  | .ringpAfter _ => some { specBase with m3 := 0x02, d := fnum 0 5, a := fs .sk 1 1, b := fs .sk 1 1, c := fnum 0 15 }
  | .ringw _ => some { specBase with m3 := 0x03, a := fs .sk 1 1, b := fs .sk 1 1, c := fnum 0 15 }
  | .launch _ => some { specBase with d := fd .s 1 1, a := fs .s 2 2 }
  | .emit _ => some { specBase with d := fd .s 1 1, a := fs .sk 1 1, b := fs .v 16 1, all := true }
  | .take _ => some { specBase with d := fd .v 16 1, a := fs .sk 1 1, c := fd .s 1 1 }
  | .qclose _ => some { specBase with a := fs .sk 1 1 }
  | .grow _ => some { specBase with d := fd .q 1 1, a := fs .sk 1 1 }
  | .shrink _ => some { specBase with a := fs .sk 1 1 }
  | .chsend _ => some { specBase with d := fd .s 1 1, a := fs .sk 1 1, b := fs .vs 1 1, all := true }
  | .chrecv _ => some { specBase with d := fd .vs 1 1, a := fs .sk 1 1 }
  | .redx _ => some { specBase with m3 := 0x3F, a := fs .sk 1 1, b := fs .vsk 1 1, u := 0 }
  | .redw _ => some { specBase with d := fd .vs 1 1, a := fs .sk 1 1, c := fd .q1 1 1 }
  | .rdsr f =>
    let n := (imm16 f).toNat
    some { specBase with
      d := fd .vs (srRegs n) (srRegs n), a := if n == 8 || n == 9 then fnum 0 3 else fz, b := fraw, c := fraw,
      depth := 3, extra := decide (n ≤ 16) }
  | .wrsr f =>
    let n := (imm16 f).toNat
    some { specBase with
      a := fs .sk (srRegs n) (srRegs n), b := fraw, c := fraw, extra := decide (n ≤ 16) }
  | .tret _ => some { specBase with q0 := true }
  | .tmset f => some { specBase with m3 := 0x07, a := if f.m3 == 2 then fz else fs .sk 2 2 }
  | .balloonGive _ => some { specBase with a := fs .s 2 2, b := fs .sk 1 1 }
  | .balloonQuery _ => some { specBase with m3 := 0x02, d := fd .s 1 1 }
  | .dieset _ | .memfsp _ => some { specBase with a := fs .sk 1 1, priv := true }
  | _ => none

/-- A field value is of the class (R92, R93). -/
def FldK.ok (k : FldK) (n x : Nat) : Bool :=
  let isV := decide (x < 0x80)
  let isS := decide (0x80 ≤ x) && decide (x < 0xC0)
  let isX := decide (0xC0 ≤ x) && decide (x < 0xC8) && n == 1
  let isK := decide (0xE0 ≤ x) && decide (x < 0xFF)
  match k with
  | .zero => x == 0
  | .raw => true
  | .vx => isV || isX
  | .v => isV
  | .any => isV || isS || isX || isK
  | .vsk => isV || isS || isK
  | .vs => isV || isS
  | .vxs => isV || isS || isX
  | .s => isS
  | .sk => isS || isK
  | .x => decide (x < 8)
  | .q => decide (x < 48)
  | .q1 => decide (1 ≤ x) && decide (x < 48)
  | .idx => true
  | .lit lo hi => decide (lo ≤ x) && decide (x ≤ hi)

/-- Class, alignment, and the reach of consecutive scalar registers (R61, R92, R118, R152). -/
def Fld.ok (r : Fld) (x : Nat) : Bool :=
  r.k.ok r.n x && (decide (x ≥ 0xC0) || match r.k with
    | .zero | .raw | .x | .q | .q1 | .idx | .lit _ _ => true
    | _ => x % 128 % 64 % r.al == 0 && (decide (x < 0x80) || decide (x - 0x80 + r.n ≤ 64)))

/-- The field holds an indirect operand. -/
def isInd (r : Fld) (x : Nat) : Bool :=
  decide (0xC0 ≤ x) && decide (x < 0xC8) && (r.k == .vx || r.k == .any || r.k == .vxs)

/-- R91 to R99 and the entry's own checks on the fields alone: everything that raises ILLOP with DETAIL 0 before the
state is looked at. -/
def OpSpec.ok (sp : OpSpec) (f : LFields) : Bool :=
  let ext1 := f.h == 0 && f.w == 0
  sp.d.ok f.d.toNat && sp.a.ok f.a.toNat && sp.b.ok f.b.toNat && sp.c.ok f.c.toNat &&
  sp.m3.testBit f.m3.toNat && sp.extra &&
  (match sp.ext with
    | 0 => ext1
    | 1 => ext1 || !(isInd sp.d f.d.toNat || isInd sp.a f.a.toNat || isInd sp.b f.b.toNat || isInd sp.c f.c.toNat)
    | _ => true) &&
  (match sp.u with
    | 0 => f.u == 0 || ext1 || sp.ext == 2
    | 1 => true
    | _ => f.u == 0) &&
  decide (f.g6.toNat < 48) && !(f.g6 == 0 && f.gn == 1) && (!sp.q0 || (f.g6 == 0 && f.gn == 0))

/-- A W-R or H instruction as the L instruction that R83 and R87 name. -/
def HFields.toL (h : HFields) : LFields :=
  { m3 := 0, h := 0, w := 0, c := 0, b := h.b.zeroExtend 8, a := h.d.zeroExtend 8, d := h.d.zeroExtend 8, gn := 0,
    g6 := 0, y := 0, u := 0, s4 := 0, e := h.e }
def WRFields.toL (r : WRFields) : LFields :=
  { m3 := 0, h := 0, w := 0, c := 0, b := r.b.zeroExtend 8, a := r.a.zeroExtend 8, d := r.d.zeroExtend 8, gn := 0,
    g6 := r.g.zeroExtend 6, y := 0, u := 0, s4 := r.s.zeroExtend 4, e := r.e }
/-- A scalar register number of a short format as an 8-bit field. -/
def sReg8 {n : Nat} (x : BitVec n) : BitVec 8 := x.zeroExtend 8 ||| 0x80
/-- The fields that a W-I or W-B instruction gives every L instruction: unguarded, no stall. -/
def WIFields.toL (r : WIFields) : LFields :=
  { m3 := 0, h := 0, w := 0, c := 0, b := 0, a := 0, d := 0, gn := 0, g6 := 0, y := 0, u := 0, s4 := 0, e := r.e }

end Sys2Proof.Machine
end

