-- ==== Sys2Proof/Machine/Sparse.lean ====
section
/-! DEFINITION. Sparse stores as plain data in one canonical form: keys strictly rising, and no entry equal to what an
unlisted key reads as. `Cells w` reads zero where nothing is listed; `Tab α` has no value there. -/

namespace Sys2Proof.Machine

/-- A sparse store of w-bit cells keyed by number; an unlisted key reads as zero. -/
abbrev Cells (w : Nat) := List (Nat × BitVec w)

/-- The value at a key. -/
def cget {w : Nat} : Cells w → Nat → BitVec w
  | [], _ => 0
  | (k, v) :: r, a => if k = a then v else cget r a

/-- Removes the entry of a key. -/
def cdel {w : Nat} (m : Cells w) (a : Nat) : Cells w := m.filter fun c => c.1 != a

/-- Puts an entry before the first higher key. -/
def cins {w : Nat} : Cells w → Nat → BitVec w → Cells w
  | [], a, x => [(a, x)]
  | (k, v) :: r, a, x => if a < k then (a, x) :: (k, v) :: r else (k, v) :: cins r a x

/-- Writes one cell, keeping the canonical form: writing zero removes the entry. -/
def cput {w : Nat} (m : Cells w) (a : Nat) (x : BitVec w) : Cells w :=
  if x = 0 then cdel m a else cins (cdel m a) a x

/-- Every listed key lies above `lo`, keys rise strictly, and no listed value is zero. -/
def cellsAbove {w : Nat} (lo : Nat) : Cells w → Bool
  | [] => true
  | (k, v) :: r => decide (lo ≤ k) && v != 0 && cellsAbove (k + 1) r

/-- The canonical form of a store of cells. -/
def cellsOk {w : Nat} (m : Cells w) : Bool := cellsAbove 0 m

/-- Clears every key from `lo` to `hi - 1`. -/
def cclear {w : Nat} (m : Cells w) (lo hi : Nat) : Cells w :=
  m.filter fun c => decide (c.1 < lo) || decide (hi ≤ c.1)

/-- A sparse table of records keyed by number. -/
abbrev Tab (α : Type) := List (Nat × α)

/-- The record at a key. -/
def tget {α : Type} : Tab α → Nat → Option α
  | [], _ => none
  | (k, v) :: r, a => if k = a then some v else tget r a

/-- Writes one record, keeping keys rising. -/
def tput {α : Type} : Tab α → Nat → α → Tab α
  | [], a, x => [(a, x)]
  | (k, v) :: r, a, x =>
    if a = k then (a, x) :: r else if a < k then (a, x) :: (k, v) :: r else (k, v) :: tput r a x

/-- Removes one record. -/
def tdel {α : Type} (m : Tab α) (a : Nat) : Tab α := m.filter fun c => c.1 != a

/-- Keys of a table rise strictly from `lo`. -/
def tabAbove {α : Type} (lo : Nat) : Tab α → Bool
  | [] => true
  | (k, _) :: r => decide (lo ≤ k) && tabAbove (k + 1) r

/-- The records of a table, in key order. -/
def tvals {α : Type} (m : Tab α) : List α := m.map (·.2)

/-- The smallest number that no key of a table uses. -/
def tfresh {α : Type} : Tab α → Nat → Nat
  | [], n => n
  | (k, _) :: r, n => if k = n then tfresh r (n + 1) else n

/-- The i-th element, or a default. -/
def nth {α : Type} (d : α) (l : List α) (i : Nat) : α := l.getD i d

/-- Replaces the i-th element where it exists. -/
def upd {α : Type} (l : List α) (i : Nat) (x : α) : List α := l.set i x

/-- Replaces the i-th element by its image where it exists. -/
def modAt {α : Type} (l : List α) (i : Nat) (f : α → α) : List α :=
  match l[i]? with
  | some x => l.set i (f x)
  | none => l

/-- The little-endian bytes of a value (R1). -/
def leBytes : Nat → Nat → List Byte
  | 0, _ => []
  | n + 1, v => BitVec.ofNat 8 v :: leBytes n (v / 256)

/-- The value of little-endian bytes (R1). -/
def leVal : List Byte → Nat
  | [] => 0
  | b :: r => b.toNat + 256 * leVal r

/-- The bytes of a store at consecutive addresses. -/
def cgets (m : Cells 8) (a : Nat) : Nat → List Byte
  | 0 => []
  | n + 1 => cget m a :: cgets m (a + 1) n

/-- Writes bytes at consecutive addresses. -/
def cputs (m : Cells 8) (a : Nat) : List Byte → Cells 8
  | [] => m
  | b :: r => cputs (cput m a b) (a + 1) r

/-- `n` rounded up to a multiple of `k`. -/
def roundUp (n k : Nat) : Nat := (n + k - 1) / k * k

/-- Bits [lo + n - 1 : lo] of a number. -/
def nbits (v lo n : Nat) : Nat := v / 2 ^ lo % 2 ^ n

end Sys2Proof.Machine
end

