-- ==== Sys2Proof/Machine/State.lean ====
section
/-! DEFINITION. The state of the module as plain data: every register, memory, queue, cache, engine and status bit that
the manual names, with the agenda of outside events and engine steps that the model adds. -/

namespace Sys2Proof.Machine

/-- Why a step stops with a fault. -/
inductive Fault where
  /-- An instruction was executed with no strand on a lane to execute it (`exec` alone can ask for this; `step` never
  does). Safe: the hardware has no such case. -/
  | noStrand
  /-- A coherent store of an application core, or a PCI Express write, names a physical address that the module does
  not advertise (R16). Safe: the manual gives such a store no effect. -/
  | noSuchAddress
  deriving DecidableEq, Repr

/-- Why a step is refused. -/
inductive Refusal where
  /-- The instruction has no meaning in this model yet (raised by Dispatch only). Safe: nothing is proved of it. -/
  | notModelled (mnemonic : String)
  deriving DecidableEq, Repr

/-- Trap causes and context-event causes (R271). -/
inductive Cause where
  | illop | role | stackovf | stall | bkpt | trap | index | window | align | seedro | scmerge | chorphan | timer
  | expired | uncorr | page | perm | tabl
  deriving DecidableEq, Repr

/-- A trap as R275 records it. -/
structure TrapInfo where
  cause : Cause
  epc : DWord
  emask : Mask
  detail : Nat
  /-- ENG and PATH of R270. -/
  eng : Option Nat
  deriving DecidableEq, Repr

/-- The windows of R189. -/
inductive Win where
  | glob | scr | bsl
  deriving DecidableEq, Repr

/-- One access of an issued operation: a thread's element, a cell or a single uniform access. -/
structure Acc where
  thread : Nat
  win : Win
  va : Nat
  /-- Physical address, scratchpad offset or B-slice offset. -/
  pa : Nat
  size : Nat
  /-- First destination register as a register number of `RegId`. -/
  reg : Nat
  /-- Store data, atomic operand or contribution. -/
  data : Nat
  /-- The comparand of .cas. -/
  data2 : Nat
  done : Bool
  deriving DecidableEq, Repr

/-- Ordering, scope, promotion and hint of an access (R194). -/
structure OrdInfo where
  acq : Bool
  rel : Bool
  /-- The write-backs of the release have been acknowledged (R210). -/
  acked : Bool
  scope : Nat
  rmt : Bool
  hint : Nat
  deriving DecidableEq, Repr

/-- The shuttle descriptor of R214 and R216. -/
structure ShutDesc where
  src : Nat
  dst : Nat
  rows : Nat
  cols : Nat
  spitch : Int
  dpitch : Int
  hint : Nat
  turn : Bool
  esz : Nat
  planes : Nat
  spp : Int
  dpp : Int
  conv : Nat
  deriving DecidableEq, Repr

/-- The decode descriptor of R219, with the slot version captured at issue (R218). -/
structure DecDesc where
  src : Nat
  boff : Nat
  doff : Nat
  n : Nat
  slot : Nat
  stat : Nat
  version : Nat
  deriving DecidableEq, Repr

/-- The texture descriptor of R220. -/
structure TexDesc where
  base : Nat
  ht : Nat
  wd : Nat
  amv : Nat
  amu : Nat
  levels : Nat
  tfmt : Nat
  pitch : Nat
  tri : Bool
  deriving DecidableEq, Repr

/-- What an operation in flight does when it is performed (R71). -/
inductive OpKind where
  | load (m3 : Nat) (uni : Bool) (ord : OrdInfo)
  | store (ord : OrdInfo)
  | atom (op ty : Nat) (uni : Bool) (ord : OrdInfo)
  | sumx (ty : Nat)
  | sumrd (fmt : Nat) (uni : Bool) (scalar : Bool)
  | sumclr
  | shut (d : ShutDesc)
  | dtld (slot version : Nat) (ptr : Nat)
  | decode (d : DecDesc)
  | fetchf (d : TexDesc) (dst src : Nat) (uni : Bool) (inputs : List (List Nat))
  | matrix
  | seedld (slot : Nat) (src : Nat) (bytes : List Byte)
  | darn
  deriving DecidableEq, Repr

/-- An engine error (R212): its path, its cause, the issuing instruction, the virtual address and the package time of its
detection (R208, R273). -/
structure EngErr where
  path : Nat
  cause : Cause
  pc : DWord
  va : Nat
  time : Nat
  deriving DecidableEq, Repr

/-- An operation in flight: it has raised its counter and has not yet lowered it (R71). -/
structure Op where
  id : Nat
  path : Nat
  pc : DWord
  /-- Die and core of the issue (R398). -/
  die : Nat
  core : Nat
  /-- The threads active and admitted at issue. -/
  mask : Mask
  kind : OpKind
  accs : List Acc
  /-- Registers outstanding until the counter falls past it (R106). -/
  dests : List Nat
  /-- Finished out of order; its decrement is held (R71). -/
  fin : Bool
  /-- The engine error that WAITC delivers (R208, R212). -/
  err : Option EngErr
  /-- Threads whose access met EXPIRED or UNCORR (R199). -/
  bad : Mask
  badCause : Cause
  /-- Cores (16 * die + core) that have answered the promotion requests of an .rmt acquire (R241). -/
  replies : List Nat
  /-- Its updates that slices have applied while their reply is still outstanding: thread, slice tile and tag (R456, R457). -/
  applied : List (Nat × Nat × Nat)
  /-- What an engine has done: a shuttle's elements; a decoder's symbols, with the stream bits that they took (R212). -/
  prog : Nat
  bits : Nat
  /-- Source elements in a shuttle's staging buffer (R215). -/
  staged : List (List Byte)
  /-- A walk of the engine is parked (R392). -/
  parked : Bool
  deriving DecidableEq, Repr

/-- When the result of one producer in a register may be read (R103, R104): for the threads in `mask`, thread t's slot is
ready at base + o * t + depth and is bypassed to the same thread when `own`, else at base + depth. -/
structure Ready where
  mask : Mask
  own : Bool
  base : Nat
  o : Nat
  depth : Nat
  deriving DecidableEq, Repr

/-- What belongs to one path (R65 to R67): the lowest-numbered thread with which it began (its place in the order of R66), its
version of the scalars, the scalars written since it began, when they are ready (R145), and the results of operations in
flight that are still to arrive in it, as operation and scalar number (R106). -/
structure PathSt where
  low : Nat
  s : Cells 32
  written : BitVec 64
  rdy : Tab (List Ready)
  due : List (Nat × Nat)
  deriving DecidableEq, Repr

/-- One path that has arrived at a reconvergence PC: its threads and its scalars (R67, R143). -/
structure Arrival where
  mask : Mask
  path : PathSt
  deriving DecidableEq, Repr

/-- An entry of the reconvergence stack (R65): a deferred path, or the record that closes a divergence with the path that
diverged, its scalars as the snapshot, and the paths that have arrived. -/
inductive StackEntry where
  | deferred (pc : DWord) (mask : Mask) (rpc : DWord) (fmt : Word) (path : PathSt)
  | closing (rpc : DWord) (fmt : Word) (outer : PathSt) (arrived : List Arrival)
  deriving DecidableEq, Repr

/-- Where an instruction resumes: the element and the threads that remain in it (R76), and for a re-issued load the
boundaries that were kept, each with its own element and threads, innermost first (R199, R274). `upto` stands only during a
turn that ends at an element boundary inside a block: the element before which it stops (R79). -/
structure Resume where
  elem : Nat
  mask : Mask
  kept : List (DWord × Nat × Mask)
  upto : Option Nat
  deriving DecidableEq, Repr

/-- The trap frame of R275; SR_EPC, SR_EMASK and SR_CAUSE themselves are strand registers. -/
structure Frame where
  epc0 : DWord
  emask0 : Mask
  depth : Nat
  rpc : DWord
  rpcv : Bool
  resume : Option Resume
  /-- Operations issued before the handler carry an identifier below this one (R274). -/
  firstOp : Nat
  deriving DecidableEq, Repr

/-- What a strand in Waiting waits for (R78); `len` is the length of the waiting instruction. -/
inductive Wait where
  | waitc (path thr : Nat)
  | fence (kind scope : Nat)
  | bar (slot : Nat) (phase : Nat)
  | barw (slot : Nat) (token : Nat)
  | ringw (off stage : Nat) (full : Bool)
  | ringp (off stage : Nat)
  | grow (want qd : Nat) (mask : Mask)
  | take (d q c : Nat) (mask : Mask)
  | chrecv (d ch : Nat) (mask : Mask)
  | halt
  deriving DecidableEq, Repr

/-- A request that its serving unit cannot yet answer (R260): the strand is held in a stall at the instruction. -/
inductive Request where
  | launch (f : LFields)
  | join (f : LFields)
  | leave (f : LFields)
  | emit (f : LFields)
  | take (f : LFields)
  | qclose (f : LFields)
  | redx (f : LFields)
  | dispq (f : LFields)
  | dispqQuery (f : LFields)
  | balloonGive (f : LFields)
  | balloonQuery (f : LFields)
  | memfsp (f : LFields)
  | dieset (f : LFields)
  | seedld (f : LFields)
  | darn (f : LFields)
  | mclr (f : LFields)
  | ringpAfter (f : LFields)
  | bar (f : LFields)
  | bara (f : LFields)
  | shrink (f : LFields)
  deriving DecidableEq, Repr

/-- The state of a strand in R78; Handler is the presence of a trap frame. -/
inductive RunState where
  | pending
  | ready
  | running
  | waiting (w : Wait) (len : Nat)
  | faulted
  | draining
  | exited
  deriving DecidableEq, Repr

/-- One entry of a fault batch (R398). -/
structure BatchEntry where
  page : Nat
  level : Nat
  cause : Cause
  kind : Nat
  deriving DecidableEq, Repr

/-- Where the run-ahead of a Faulted strand starts (R400): after the faulting thread of the instruction at the pc, after
the instruction itself (the record read of LAUNCH, SEEDLD and DARN), or nowhere (a fetch). -/
inductive AheadFrom where
  | thread
  | instr
  | fetch
  deriving DecidableEq, Repr

/-- Run-ahead of a Faulted strand (R400): the entries of its opening faults and its start. The checkpoint is the strand's
own state (R401); run-ahead takes place within ROLLBACK. -/
structure Ahead where
  entries : List BatchEntry
  start : AheadFrom
  deriving DecidableEq, Repr

/-- A completion mark of RINGP.after (R339): it fires when the listed operations have completed. -/
structure Mark where
  off : Nat
  stage : Nat
  ops : List Nat
  deriving DecidableEq, Repr

/-- The spin detector's record (R317): the branch and its target, its consecutive takings, what the last iteration wrote, and the
last 64 instructions, newest first, each with its address, the registers that it wrote and what it wrote to them. -/
structure Spin where
  branch : Nat
  target : Nat
  takings : Nat
  last : List Nat
  trace : List (Nat × List Nat × List Nat)
  demoted : Bool
  since : Nat
  deriving DecidableEq, Repr

/-- A pending asynchronous trap (R274). -/
structure Pend where
  info : TrapInfo
  /-- The load's element and threads, for UNCORR and EXPIRED (R199). -/
  reissue : Bool
  /-- The operation that raised it. -/
  op : Nat
  deriving DecidableEq, Repr

/-- A strand (R56, R61, R264). -/
structure Strand where
  ctx : Nat
  kid : Nat
  /-- SR_IID. -/
  iid : Nat
  sid : Nat
  /-- 0 V, 1 M, 2 C (R282). -/
  role : Nat
  loc : Option Loc
  /-- The strand place of the core record that holds the strand while it is saved (R258, R263). -/
  saved : Option Loc
  /-- The pages of that record which its save wrote (R263). -/
  savedPages : List Nat
  run : RunState
  alloc : Nat
  /-- v registers, slot of thread t of v n at key 16 n + t. -/
  v : Cells 32
  s : Cells 32
  /-- q registers as masks; q0 is never stored. -/
  q : Cells 16
  /-- x registers, thread t of x k at key 16 k + t. -/
  x : Cells 16
  xbase : Cells 7
  xsize : Cells 8
  fmt : Word
  sts : Word
  /-- c0 to c5 (R71). -/
  c : Cells 6
  pc : DWord
  /-- The instruction last fetched (the model's own): HALT reads its stall count here. -/
  ir : DWord
  mask : Mask
  rpc : DWord
  rpcv : Bool
  stack : List StackEntry
  /-- Scalar registers written since the current path began (R67). -/
  written : BitVec 64
  /-- The lowest-numbered thread with which the current path began, and the results still to arrive in it (`PathSt`). -/
  low : Nat
  due : List (Nat × Nat)
  /-- SR_TMR, its compare value and armed mark (R267, R268). -/
  tmr : DWord
  tcmp : DWord
  tarmed : Bool
  epc : DWord
  emask : Word
  cause : Word
  frame : Option Frame
  resume : Option Resume
  pend : List Pend
  ahead : Option Ahead
  hold : Option Request
  /-- Held in a stall that only re-issues the instruction (R71, R106). -/
  stalled : Bool
  /-- Pre-emption has been requested: the strand issues nothing and is to be saved (R259). -/
  stop : Bool
  /-- The strand is to be discarded unsaved where it would be saved (R256, R290). -/
  doomed : Bool
  /-- A walk of this strand is parked (R392). -/
  walkParked : Bool
  ops : List Op
  nextOp : Nat
  marks : List Mark
  /-- Engine errors whose counter fell and that no WAITC has delivered, in the order of their falls (R208). -/
  engErrs : List EngErr
  /-- Instructions executed in the current run (R102). -/
  runCount : Nat
  /-- The cycle of the executed instruction sequence, and what is not yet ready (R103 to R105). -/
  cyc : Nat
  rdy : Tab (List Ready)
  /-- The waiting count of R314. -/
  waitCount : Nat
  /-- When the present wait began, for the orders of R320, R330 and R342. -/
  waitSeq : Nat
  /-- When the strand was placed on its lane (R321). -/
  placedAt : Nat
  spin : Spin
  /-- The four group slots: group identifiers (R306). -/
  slots : List (Option Nat)
  /-- The batch that a Faulted strand waits for has been resolved while it was saved (R402). -/
  resolved : Bool
  /-- Cores (16 * die + core) on which the strand reached Exited or from which it issued. -/
  lastCore : Nat
  deriving DecidableEq, Repr

/-- An accumulator tile (R345, R346). -/
structure Tile where
  /-- The holding item as (context, kernel, SR_IID). -/
  held : Option (Nat × Nat × Nat)
  /-- 0 .f32, 1 .c32, 2 .i48. -/
  kind : Nat
  sx : Int
  ovm : Bool
  ixm : Bool
  entries : Cells 64
  deriving DecidableEq, Repr

/-- The MLOOP descriptor and captured values (R353, R355). -/
structure LoopDesc where
  mode : Nat
  aoff : Nat
  ainc : Int
  boff : Nat
  binc : Int
  apitch : Nat
  steps : Nat
  asoff : Nat
  asinc : Int
  bsinc : Int
  bsoff : Nat
  aw : Nat
  bw : Nat
  xa : Nat
  xb : Nat
  keep : Option Bool
  /-- Captured seed records, one per step, as bytes and slot (R378). -/
  recs : List (Nat × List Byte)
  deriving DecidableEq, Repr

/-- A matrix or seed operation in the sequencer queue, with what it captured at issue (R349). -/
inductive MatKind where
  | mclr (tile kind : Nat) (sx : Int)
  | mloop (tile kind : Nat) (sx : Int) (d : LoopDesc)
  | mrdReg (tile kind : Nat) (sx : Int) (fmtc row col dst n w : Nat) (free : Bool)
  | mrdSp (tile kind : Nat) (sx : Int) (fmtc doff pitch : Nat) (free : Bool)
  | mbld (dst src len : Nat)
  | mtwid (dst log2r : Nat) (bf : Bool)
  | seedscan (toff tpitch ji nc kc coff cnt roff : Nat)
  | seeddrop (slot : Nat)
  deriving DecidableEq, Repr

structure MatOp where
  strand : Nat
  opId : Nat
  ctx : Nat
  kid : Nat
  iid : Nat
  pc : DWord
  mask : Mask
  /-- Where the instruction resumed (R76). -/
  rs : Option Resume
  fmt : Word
  kind : MatKind
  /-- Started; then the next step and, in .seed, the next basis pass. -/
  started : Bool
  /-- Its first step uses the kept fragment (R359). -/
  hit : Bool
  step : Nat
  pass : Nat
  flags : BitVec 5
  err : Option Cause
  /-- Seed slots captured, on the core of its issue (16 * die + core), until it completes or is discarded (R378). -/
  caps : List Nat
  capCore : Nat
  deriving DecidableEq, Repr

/-- The fragment that the collector keeps (R359): whether it is B's, its item, mode, offset, row pitch and widths, and its bytes
from the offset on. -/
structure Kept where
  inB : Bool
  item : Nat × Nat × Nat
  mode : Nat
  off : Int
  pitch : Nat
  aw : Nat
  bw : Nat
  bytes : List Byte
  deriving DecidableEq, Repr

/-- A seed-table slot of a core (R384). -/
structure SeedSlot where
  /-- (context, kernel) of the owner. -/
  owner : Nat × Nat
  src : Nat
  retiring : Bool
  captures : Nat
  deriving DecidableEq, Repr

/-- A decode-table slot: its version at the last DTLD issued, and the version and image that it holds (R218). -/
structure DecSlot where
  issued : Nat
  loaded : Nat
  image : Option (List Byte)
  deriving DecidableEq, Repr

/-- A cached translation (R393). -/
structure Tlb where
  ctx : Nat
  page : Nat
  shift : Nat
  pbase : Nat
  perm : Nat
  deriving DecidableEq, Repr

/-- An entry of a die's walker node cache (R393): context, level, index path and entry. -/
structure NodeEnt where
  ctx : Nat
  level : Nat
  va : Nat
  entry : DWord
  deriving DecidableEq, Repr

/-- A byte of an L1 column: its value and whether it is dirty (R210). -/
structure CByte where
  val : Byte
  dirty : Bool
  /-- The context of the agent that wrote it (R409). -/
  ctx : Nat
  deriving DecidableEq, Repr

/-- The lines that a cache holds, most recently used first, the retention hints that are not default, and its sticky lines,
oldest first (R211). -/
structure CacheTags where
  order : List Nat
  hints : Tab Nat
  sticky : List Nat
  deriving DecidableEq, Repr

/-- One update in a slice's tag record (R456, R457): its sequence number, and the value that an atomic returned. -/
structure TagEnt where
  seq : Nat
  val : Option Nat
  deriving DecidableEq, Repr

/-- A slice tile (R8, R457): its lines; those it holds dirty, oldest first; the dirty lines of its buddy that it mirrors; and, with
that mirror, the last 256 updates of each requesting core tile, newest first (key: mesh tile m of die d at 24 d + m). -/
structure SliceSt where
  tags : CacheTags
  dirty : List Nat
  mirror : List Nat
  record : Tab (List TagEnt)
  deriving DecidableEq, Repr

/-- The lane-arbitration and register state of one lane (R314, R319). -/
structure Lane where
  /-- The strand whose run is in progress. -/
  running : Option Nat
  /-- The four last-page registers (R393). -/
  lastPage : List Tlb
  /-- The implicit-end performance counter (R102). -/
  implicitEnds : Nat
  deriving DecidableEq, Repr

/-- One core (R8, R10). -/
structure Core where
  /-- Lanes 0 to 191; an unlisted lane is idle. -/
  lanes : Tab Lane
  l1 : Tab CByte
  /-- The lines of the L1 column (R211). -/
  tags : CacheTags
  /-- The release filter's lines and its ANY mark (R241). -/
  filter : List Nat
  filterAny : Bool
  /-- The 16 lace tables as 2048 bytes (R184). -/
  lace : Cells 8
  dslots : List DecSlot
  /-- The kernel that owns the table set (R188). -/
  owner : Option (Nat × Nat)
  tiles : List Tile
  bslice : Cells 8
  seeds : Tab SeedSlot
  /-- SEEDLDs and reloads that wait for a slot, in the order in which they began (R384): the slot, and the strand, or the context,
  kernel, SR_IID and SR_SID of a placement. -/
  seedWait : List (Nat × List Nat)
  seq : List MatOp
  /-- Shuttle operations as strand and operation, in the order in which they were issued here (R215). -/
  shutq : List (Nat × Nat)
  /-- The fragment kept by the reuse hint (R359). -/
  kept : Option Kept
  /-- Array steps executed, and bubble cycles counted (R366). -/
  arraySteps : Nat
  bubbles : Nat
  tlb : List Tlb
  /-- The order in which contexts became resident, newest first (R257). -/
  residentOrder : List Nat
  /-- The core's emergency area holds this context's record (R266). -/
  embUse : Option Nat
  /-- Contexts whose matrix state here is to be saved with no M-role strand to take it (R258). -/
  saving : List Nat
  deriving DecidableEq, Repr

/-- A mesh tile (R451 to R464). -/
structure MeshTile where
  /-- 0 Healthy, 1 Suspect, 2 Fenced, 3 Self-test, 4 Probation, 5 Retired. -/
  state : Nat
  cause : Nat
  appeals : Nat
  /-- The sequence number of the next heartbeat, and the last health digest. -/
  seq : Nat
  fatal : Bool
  /-- Votes standing from N, E, S, W. -/
  votes : List Bool
  /-- What each neighbour last received: sequence number (65535 before number 0), consecutive correct periods, missed periods. -/
  seen : List Nat
  good : List Nat
  missed : List Nat
  /-- The self-test passed and the tile appeals (R461). -/
  appeal : Bool
  since : Nat
  /-- The vote that fences the tile has been cast (R453, R462). -/
  due : Bool
  /-- The tile has received the fence broadcast of these tiles (R455). -/
  fenceSeen : List Nat
  /-- The heartbeat on the wire to each neighbour: sequence number and FATAL (R451). -/
  wire : List (Option (Nat × Bool))
  /-- When each neighbour's monitor saw malformed flits in the last 2 µs (R452). -/
  mal : List (List Nat)
  deriving DecidableEq, Repr

/-- A group record (R305, R325). Members in rank order with their arrival counts. -/
structure Group where
  ctx : Nat
  key : Word
  members : List Nat
  phase : Nat
  arrived : List (Nat × Nat)
  deriving DecidableEq, Repr

/-- A frame of a die's memory (R424). An unlisted frame is Zero. -/
structure FrameSt where
  gran : Nat
  donated : Bool
  deriving DecidableEq, Repr

/-- A parked write, or one that waits for spill memory (R410). -/
structure Parked where
  line : Nat
  need : Nat
  ctx : Nat
  since : Nat
  waiting : Bool
  /-- MEMFULL has been raised for it since the last RESUME (R412). -/
  raised : Bool
  deriving DecidableEq, Repr

/-- A transient region register set (R416). -/
structure Region where
  base : DWord
  len : Word
  err : Bool
  /-- 0 Off, 1 Armed, 2 Expired. -/
  state : Nat
  deadline : Nat
  /-- The last arming write and the smallest budget since, in ns (R419). -/
  armedAt : Nat
  minBudget : Nat
  deriving DecidableEq, Repr

/-- A phase output port (R472, R479). -/
structure Port where
  ctl : Word
  geom : Word
  tim : Word
  cal : DWord
  /-- 0 Off, 1 ULPS, 2 Idle, 3 Scanning. -/
  state : Nat
  err : Bool
  ret : Nat
  vs : Nat
  derr : Nat
  slm : Bool
  /-- Queued frames: number, context and address. -/
  queue : List (Nat × Nat × Nat)
  cur : Option (Nat × Nat × Nat)
  last : Nat
  line : Nat
  /-- The drive codes of the last line sent (R473, R474). -/
  driven : List (BitVec 24)
  deriving DecidableEq, Repr

/-- A darning job (R466, R468). -/
structure Job where
  strand : Nat
  opId : Nat
  ctx : Nat
  pc : DWord
  bytes : List Byte
  core : Nat
  kid : Nat
  iid : Nat
  sid : Nat
  deriving DecidableEq, Repr

/-- One die (R8, R480). -/
structure Die where
  /-- The position strapped at reset (R5). -/
  pos : Nat
  clk : Nat
  cores : List Core
  /-- The die's slice copies of lines homed on other dies (R210, R239). -/
  copies : Tab CByte
  /-- Slices 0 to 7. -/
  slices : List SliceSt
  /-- Lines that are dirty in the die's slices, with the last writer's context (R409). -/
  dirty : Tab Nat
  /-- Lines whose contents are lost, until a write replaces the whole line (R459), and lines with an uncorrectable error. -/
  lost : List Nat
  tiles : List MeshTile
  tileDrop : Nat
  tileEvt : Word
  /-- Tile event messages that are owed, each with the fence broadcasts that it waits for (R464). -/
  tileOwed : List (List Nat)
  tlevAddr : DWord
  tlevData : Word
  groups : Tab Group
  frames : Tab FrameSt
  /-- The frame that the Tension engine is moving, and the granules that it is to hold (R413, R424). -/
  moving : Option (Nat × Nat)
  gfree : Nat
  parked : List Parked
  /-- Donated frames, oldest first (R413). -/
  donated : List Nat
  regions : List Region
  dramTemp : Int
  port : Port
  darn : List Job
  darnRun : Option Job
  clkReq : Nat
  clkCur : Nat
  /-- The latest junction readings and the hottest of them (R487). -/
  sensors : List Int
  therm : Int
  bub : Nat
  eccCnt : Nat
  emb : List DWord
  nodeCache : List NodeEnt
  /-- LNKRT and LNKRPL of ports A and B (R429). -/
  lnkRt : List Nat
  lnkRpl : List Nat
  deriving DecidableEq, Repr

/-- A fault batch (R398). -/
structure Batch where
  seq : Nat
  src : Nat
  die : Nat
  core : Nat
  pc : DWord
  kid : Nat
  iid : Nat
  sid : Nat
  /-- The Faulted strand of SRC 0, or the strand of an engine operation and that operation's identifier. -/
  strand : Option Nat
  op : Nat
  entries : List BatchEntry
  deriving DecidableEq, Repr

/-- An accepted channel slot (R439, R441): its sender with the operations it must wait for (those numbered below `before`),
the core of the send, whether it was sent while the channel was Unbound, and whether it has been written to the ring. -/
structure Slot where
  bytes : List Byte
  sender : Nat
  before : Nat
  core : Nat
  unbound : Bool
  there : Bool
  deriving DecidableEq, Repr

/-- A channel (R435, R436). -/
structure Chan where
  slots : Nat
  bytes : Nat
  /-- 0 Unbound, 1 Bound, 2 Orphaned, 3 Broken. -/
  state : Nat
  recv : Nat
  senders : List Nat
  /-- Accepted slots, oldest first. -/
  ring : List Slot
  deriving DecidableEq, Repr

/-- A reduction object (R443, R445). -/
structure Red where
  kind : Nat
  rfmt : Nat
  expect : Nat
  broken : Bool
  count : Nat
  /-- The exact-sum cell of R50, or the 32-bit combination. -/
  cell : List Byte
  val : Option Word
  /-- Contributions on their way to the root: the source core's mesh tile (24 * die + tile), type and value (R445). -/
  flight : List (Nat × Nat × Word)
  /-- The physical address of the state line as last translated; none while its page is missing (R445). -/
  root : Option Nat
  deriving DecidableEq, Repr

/-- An item (R293). -/
structure Item where
  iid : Nat
  /-- Strand identifiers of the item. -/
  strands : List Nat
  committed : Bool
  complete : Bool
  lost : Bool
  die : Nat
  cores : List Nat
  scr : Cells 8
  /-- Tiles and sequencer operations of the item that are saved (R347, R367). -/
  savedTiles : List (Nat × Tile)
  savedOps : List MatOp
  /-- The pages of a core record that hold them where no strand's save wrote them (R258). -/
  savedPages : List Nat
  deriving DecidableEq, Repr

/-- A kernel (R292). -/
structure Kernel where
  /-- The launch record as copied (R284). -/
  record : List Byte
  params : List Byte
  /-- 0 Running, 1 Draining, 2 Done, 3 Lost. -/
  state : Nat
  /-- Index (from 0) of the next item never dispatched, and items returned by R290. -/
  next : Nat
  returned : List Nat
  /-- The in-order completion count, and completed items above it. -/
  count : Nat
  completed : List Nat
  items : Tab Item
  chans : List Chan
  reds : List Red
  /-- The seed list: slot and source pointer (R376). -/
  seeds : Tab Nat
  launchDie : Nat
  deriving DecidableEq, Repr

/-- A sweep in progress (R395, R396). -/
structure Sweep where
  va : Nat
  shift : Nat
  all : Bool
  md : Bool
  deriving DecidableEq, Repr

/-- A launch or device write that waits for its batch (R284, R287, R399). -/
inductive Retry where
  | append (rec : List Byte)
  | done (kid : Nat)
  /-- The last count of a kernel that has ended: where, and its value. -/
  | doneAt (addr count : Nat)
  /-- An error-log record, from the unit of this core (16 * die + core). -/
  | elog (unit : Nat) (rec : List Byte)
  | reload (strand slot : Nat)
  | save (core va : Nat)
  /-- A queue's consumer record (R304). -/
  | cons (ptr : Nat)
  /-- A quarantined record and its place (R295). -/
  | quar (addr : Nat) (rec : List Byte)
  deriving DecidableEq, Repr

/-- A context (R251, R256). -/
structure Ctx where
  /-- 0 Free to 6 Retired (R252). -/
  state : Nat
  cfg : Word
  root : DWord
  tvec : DWord
  save : DWord
  elog : DWord
  evtAddr : DWord
  evtData : Word
  event : Word
  err : Nat
  elovf : Bool
  spill : Bool
  fbase : DWord
  fseq : Nat
  invcnt : Nat
  elogSeq : Nat
  kernels : Tab Kernel
  sweeps : List Sweep
  /-- Batches formed and not yet written, and written and not yet resolved. -/
  forming : List Batch
  batches : List Batch
  retries : List (Nat × Retry)
  /-- Parked walks of sources that are no strand: SRC of R398 and the source's key (R392). -/
  parkedUnits : List (Nat × Nat)
  /-- LAUNCHSLOT words staged by each application core (R303). -/
  stage : List (Nat × List (Option DWord))
  /-- MEMFULL has been raised since the last RESUME (R412). -/
  memfull : Bool
  /-- Parked writes of the context replay before a restored strand issues: it was Stopped (R256). -/
  replay : Bool
  /-- Event messages owed once the saves that the event causes are done (R272). -/
  owed : Nat
  deriving DecidableEq, Repr

/-- A record in a queue part (R300): its bytes, the die that accepted it, its place in the part's buffer (the encoding is the
device's), and whether it is there (0), still to arrive over a link (1), or waits for a page of the buffer (2, R295). -/
structure QRec where
  bytes : List Byte
  src : Nat
  slot : Nat
  wait : Nat
  deriving DecidableEq, Repr

/-- A queue (R294). -/
structure Queue where
  ctl : Word
  state : Nat
  buf : DWord
  cons : DWord
  drop : Nat
  qcnt : Nat
  /-- The place of the next quarantined record in the ring (R295). -/
  ring : Nat
  parts : List (List QRec)
  /-- Expected numbers and bindings of regions (R299, R301). -/
  expect : Tab Nat
  bound : Tab Nat
  stage : List (Nat × List (Option DWord))
  deriving DecidableEq, Repr

/-- A Skovlink link (R430): 0 Down, 1 Training, 2 Active, 3 Retraining, 4 Failed. -/
structure Link where
  state : Nat
  fails : Nat
  deriving DecidableEq, Repr

/-- What a network message carries: a queue's record, a channel's slot, a contribution, the broadcast of a fence with the
tiles that its copies have not yet left for and those whose copy is under way (R433), or a slice's reply to an operation's updates
with the values that it returns by thread. -/
inductive MsgBody where
  | queueRec (queue src die : Nat)
  | slot (ctx kid channel : Nat)
  | redx (ctx kid object : Nat)
  | fence (die tile : Nat) (pending sent : List Nat)
  | reply (strand op : Nat) (vals : List (Nat × Nat))
  deriving DecidableEq, Repr

/-- A message in the network with its class and its tag (R425, R456): source and destination (mesh tile m of die d is 24 d + m,
the queue manager of die d 72 + d), sequence number, and whether it is in transit (0), lies lost in a fenced router (1), or
has been answered "refused" (2) or "applied" (3); `reissue` is the reissue mark and `id` its number in events. -/
structure Msg where
  id : Nat
  cls : Nat
  src : Nat
  dst : Nat
  seq : Nat
  body : MsgBody
  status : Nat
  reissue : Bool
  deriving DecidableEq, Repr

/-- The boot ROM and security controller (R480 to R485). -/
structure Boot where
  stage : Nat
  err : Nat
  dbg : Bool
  /-- Every die's compute is held in reset (R481), or the module is in a thermal trip (R487). -/
  held : Bool
  trip : Bool
  ovc : Nat
  fwHash : List Byte
  fwRollback : Nat
  aperiHash : List Byte
  identity : Bool
  attBuf : DWord
  attErr : Bool
  attBusy : Bool
  /-- The value that the debug port holds for its host after a read (R6, R489). -/
  tap : Nat
  deriving DecidableEq, Repr

/-- A write of a unit of the device on its way to memory (R272, R397): it waits for a parked frame, behind earlier ones of its
context (R410). -/
structure DevWr where
  pa : Nat
  bytes : List Byte
  ctx : Nat
  deriving DecidableEq, Repr

/-- What a turn of the agenda does. -/
inductive Act where
  | event (i : Instr)
  | issue (strand : Nat)
  /-- The strand's next instruction is a block, and the turn ends at the boundary before this element (R79). -/
  | part (strand elem : Nat)
  deriving DecidableEq, Repr

/-- One turn: the package time and the cycles of each die that pass before it, then its act. -/
structure Turn where
  ns : Nat
  clk : List Nat
  act : Act
  deriving DecidableEq, Repr

/-- The module. -/
structure State where
  /-- Package time in ns (R21). -/
  gtime : Nat
  dies : List Die
  /-- Memory at its home: DRAM with the home slices' dirty lines (R16, R239); an unlisted byte reads as zero. -/
  mem : Cells 8
  ctxs : Tab Ctx
  strands : Tab Strand
  queues : Tab Queue
  /-- L01, L12 and L02 (R13). -/
  links : List Link
  msgs : List Msg
  /-- DSCTL: ERR, PEND, REQ, CUR, and DSCNT (R447). -/
  dsErr : Bool
  dsPend : Bool
  dsReq : Nat
  dsCur : Nat
  dsCnt : Nat
  /-- A change is in progress to this mode (R449). -/
  dsBusy : Option Nat
  /-- MEMSP: PEND, REQ, CUR (R408). -/
  spPend : Bool
  spReq : Nat
  spCur : Nat
  /-- Module power averaged over 1 s, in mW (R487). -/
  power : Nat
  boot : Boot
  /-- Group records whose die has no free record (R324). -/
  heldGroups : List (Nat × Group)
  nextStrand : Nat
  nextGroup : Nat
  /-- Counts waits and placements, for their orders. -/
  seqNo : Nat
  /-- Contexts whose traffic a Failed link has lost since the last step's end (R432). -/
  lostCtx : List Nat
  /-- Writes of the device's units that wait (R410). -/
  devQ : List DevWr
  /-- The last sequence number of each source's messages to each destination (R456): key 128 * source + destination. -/
  tagNo : Tab Nat
  /-- The strand that the next instruction belongs to, and the turns to come (the model's own). -/
  cur : Option Nat
  agenda : List Turn
  /-- The argument of the free time values (the model's own). -/
  tick : Nat
  deriving DecidableEq, Repr

/-- A cache that holds nothing. -/
def CacheTags.empty : CacheTags := { order := [], hints := [], sticky := [] }
/-- A slice that holds nothing. -/
def SliceSt.empty : SliceSt := { tags := CacheTags.empty, dirty := [], mirror := [], record := [] }

/-- A lane on which nothing runs. -/
def Lane.idle : Lane := { running := none, lastPage := [], implicitEnds := 0 }

/-- A Free accumulator tile. -/
def Tile.free : Tile := { held := none, kind := 0, sx := 0, ovm := false, ixm := false, entries := [] }

/-- A core that runs nothing. -/
def Core.idle : Core :=
  { lanes := [], l1 := [], tags := CacheTags.empty, filter := [], filterAny := false, lace := [],
    dslots := List.replicate 8 { issued := 0, loaded := 0, image := none }, owner := none,
    tiles := List.replicate 16 Tile.free, bslice := [], seeds := [], seedWait := [], seq := [], shutq := [], kept := none, arraySteps := 0,
    bubbles := 0, tlb := [], residentOrder := [], embUse := none, saving := [] }

/-- A Healthy mesh tile. -/
def MeshTile.healthy : MeshTile :=
  { state := 0, cause := 0, appeals := 0, seq := 0, fatal := false, votes := List.replicate 4 false,
    seen := List.replicate 4 65535, good := List.replicate 4 3, missed := List.replicate 4 0, appeal := false, since := 0,
    due := false, fenceSeen := [], wire := List.replicate 4 none, mal := List.replicate 4 [] }

/-- A transient region register set in Off. -/
def Region.off : Region :=
  { base := 0, len := 0, err := false, state := 0, deadline := 0, armedAt := 0, minBudget := 0 }

/-- A phase output port in Off. -/
def Port.off : Port :=
  { ctl := 0, geom := 0, tim := 0, cal := 0, state := 0, err := false, ret := 0, vs := 0, derr := 0, slm := false,
    queue := [], cur := none, last := 0, line := 0, driven := [] }

/-- GPOOL of R407. -/
def gpool (ovc : Nat) : Nat := 2 ^ 25 - 2 ^ 15 * (16 + ovc) - 2 ^ 17 - 1

/-- A die after reset. -/
def Die.afterReset (pos : Nat) : Die :=
  { pos := pos, clk := 0, cores := List.replicate 16 Core.idle, copies := [],
    slices := List.replicate 8 SliceSt.empty, dirty := [], lost := [],
    tiles := List.replicate 24 MeshTile.healthy, tileDrop := 0, tileEvt := 0, tileOwed := [], tlevAddr := 0, tlevData := 0, groups := [],
    frames := [], moving := none, gfree := gpool 0, parked := [], donated := [], regions := List.replicate 16 Region.off, dramTemp := 0,
    port := Port.off, darn := [], darnRun := none, clkReq := 400, clkCur := 0, sensors := [], therm := 0, bub := 0,
    eccCnt := 0, emb := List.replicate 16 0, nodeCache := [], lnkRt := [0, 0], lnkRpl := [0, 0] }

/-- A context in Free, every register zero (R256). -/
def Ctx.free : Ctx :=
  { state := 0, cfg := 0, root := 0, tvec := 0, save := 0, elog := 0, evtAddr := 0, evtData := 0, event := 0, err := 0,
    elovf := false, spill := false, fbase := 0, fseq := 0, invcnt := 0, elogSeq := 0, kernels := [], sweeps := [],
    forming := [], batches := [], retries := [], parkedUnits := [], stage := [], memfull := false, replay := false, owed := 0 }

/-- A Free queue. -/
def Queue.free : Queue :=
  { ctl := 0, state := 0, buf := 0, cons := 0, drop := 0, qcnt := 0, ring := 0, parts := [[], [], []], expect := [], bound := [],
    stage := [] }

/-- The boot ROM before its first step. -/
def Boot.atReset : Boot :=
  { stage := 0, err := 0, dbg := false, held := true, trip := false, ovc := 0, fwHash := [], fwRollback := 0,
    aperiHash := [], identity := false, attBuf := 0, attErr := false, attBusy := false, tap := 0 }

/-- A spin detector that has seen nothing. -/
def Spin.empty : Spin :=
  { branch := 0, target := 0, takings := 0, last := [], trace := [], demoted := false, since := 0 }

/-- The module right after reset is released, before step 1 of R481. -/
def State.reset : State :=
  { gtime := 0, dies := [Die.afterReset 0, Die.afterReset 1, Die.afterReset 2], mem := [], ctxs := [], strands := [],
    queues := [], links := [{ state := 0, fails := 0 }, { state := 0, fails := 0 }, { state := 0, fails := 0 }],
    msgs := [], dsErr := false, dsPend := false, dsReq := 0, dsCur := 0, dsCnt := 0, dsBusy := none, spPend := false,
    spReq := 0, spCur := 0, power := 0, boot := Boot.atReset, heldGroups := [], nextStrand := 0, nextGroup := 0,
    seqNo := 0, lostCtx := [], devQ := [], tagNo := [], cur := none, agenda := [], tick := 0 }

end Sys2Proof.Machine
end

