-- ==== Sys2Proof/Machine/Operands.lean ====
section
/-! DEFINITION. The registers of a strand and the operand forms of every instruction: vector, scalar, predicate and
index registers, pairs, inline constants, indirect operands, block elements and guards (R57 to R62, R92 to R95). -/

namespace Sys2Proof.Machine

/-- Thread t's slot of v n (R61). -/
def Strand.vget (st : Strand) (n t : Nat) : Word := cget st.v (16 * n + t)
def Strand.vset (st : Strand) (n t : Nat) (x : Word) : Strand := { st with v := cput st.v (16 * n + t) x }

/-- s n (R61). -/
def Strand.sget (st : Strand) (n : Nat) : Word := cget st.s n
/-- A scalar write, which its path remembers for the merge (R67). -/
def Strand.sset (st : Strand) (n : Nat) (x : Word) : Strand :=
  { st with s := cput st.s n x, written := st.written ||| (1#64 <<< n) }

/-- An even-odd pair of scalars (R61). -/
def Strand.sget64 (st : Strand) (n : Nat) : DWord := st.sget (n + 1) ++ st.sget n
def Strand.sset64 (st : Strand) (n : Nat) (x : DWord) : Strand :=
  (st.sset n (x.truncate 32)).sset (n + 1) ((x >>> 32).truncate 32)

/-- q n over the 16 threads; q0 reads true (R61). -/
def Strand.qget (st : Strand) (n : Nat) : Mask := if n = 0 then 0xFFFF else cget st.q n
/-- Writes q n in the threads of m; a write to q0 is ignored (R61, R74). -/
def Strand.qset (st : Strand) (n : Nat) (m x : Mask) : Strand :=
  if n = 0 then st else { st with q := cput st.q n ((cget st.q n &&& ~~~m) ||| (x &&& m)) }

/-- Thread t of x k (R61). -/
def Strand.xget (st : Strand) (k t : Nat) : BitVec 16 := cget st.x (16 * k + t)
def Strand.xset (st : Strand) (k t : Nat) (x : BitVec 16) : Strand := { st with x := cput st.x (16 * k + t) x }

/-- ORs flags into STS (R72). -/
def Strand.addFlags (st : Strand) (fl : FpFlags) : Strand := { st with sts := stsAdd st.sts fl }

/-- The active threads that a guard admits (R95). -/
def Strand.admitted (st : Strand) (f : LFields) : Mask :=
  let g := st.qget f.g6.toNat
  st.mask &&& (if f.gn == 1 then ~~~g else g)

/-- Thread t is in a mask. -/
def mHas (m : Mask) (t : Nat) : Bool := m.getLsbD t

/-- The lowest-numbered thread of a mask; 16 when it is empty. -/
def mLow (m : Mask) : Nat := (List.range 16).find? (mHas m) |>.getD 16

/-- The threads of a mask from t up. -/
def mFrom (m : Mask) (t : Nat) : Mask := m &&& (0xFFFF#16 <<< t)

/-- The mask of the threads that satisfy a test. -/
def mOf (p : Nat → Bool) : Mask :=
  (List.range 16).foldl (fun m t => if p t then m ||| (1#16 <<< t) else m) 0

/-- How an instruction reads an operand field (R94). -/
inductive OTy where
  | i32
  | b64
  | i16
  | i8
  | fp (f : FFmt)
  | fp2 (f : FFmt)
  | cx (f : FFmt)
  deriving DecidableEq, Repr

/-- The integer value of inline constant c (R93). -/
def constInt (c : Nat) : Int :=
  if c ≤ 0xE8 then (c : Int) - 0xE0
  else if c ≤ 0xEC then 0xE8 - (c : Int)
  else nth 0 [16, 32, 64, 0x0000FFFF, 0xFFFF0000, 0x7FFFFFFF, 0x80000000, 0x00FF00FF, 0xFF00FF00, 0x0F0F0F0F,
    0x33333333, 0x55555555, 0xAAAAAAAA, 0x000000FF, 0x00000FFF, 0x000FFFFF, 0x00FFFFFF, 0x01010101] (c - 0xED)

/-- The floating-point value of inline constant c, rounded once under RNE to the format (R93, R94). The irrational
entries stand as their first 64 fraction bits and a half, which lie on no tie of any format. -/
def constFp (f : FFmt) (c : Nat) : Nat :=
  let r (neg : Bool) (n d : Nat) : Nat := (roundFrac0 f FEnv.plain neg n d 0).bits
  if c ≤ 0xE8 then r false (c - 0xE0) 1
  else if c ≤ 0xEC then r true (c - 0xE8) 1
  else match c - 0xED with
    | 0 => r false 16 1
    | 1 => r false 32 1
    | 2 => r false 64 1
    | 3 => r false 1 2
    | 4 => r true 1 2
    | 5 => r false 1 4
    | 6 => r false 1 8
    | 7 => r false 26087635650665564425 36893488147419103232
    | 8 => r true 26087635650665564425 36893488147419103232
    | 9 => r false 53226052391377289967 36893488147419103232
    | 10 => r false 25572617290405311319 36893488147419103232
    | 11 => f.maxBits
    | 12 => f.withSign true f.maxBits
    | 13 => f.infBits
    | 14 => f.withSign true f.infBits
    | 15 => f.minNormBits
    | 16 => f.nanBits
    | _ => r false 1 3

/-- Inline constant c as an operand of a type: one word, or two under .b64 (R94). -/
def constVal (c : Nat) : OTy → List Word
  | .i32 => [BitVec.ofInt 32 (constInt c)]
  | .b64 =>
    let x := BitVec.ofInt 64 (constInt c)
    [x.truncate 32, (x >>> 32).truncate 32]
  | .i16 => let x := BitVec.ofInt 16 (constInt c); [x ++ x]
  | .i8 => let x := BitVec.ofInt 8 (constInt c); [x ++ x ++ x ++ x]
  | .fp f => [BitVec.ofNat 32 (constFp f c)]
  | .fp2 f => let x := BitVec.ofNat 16 (constFp f c); [x ++ x]
  | .cx f => [BitVec.ofNat 32 (constFp f c)]

/-- A two-word list as a 64-bit value; a one-word list zero-extended. -/
def pair64 (l : List Word) : DWord := nth 0 l 1 ++ nth 0 l 0

/-- A 64-bit value as two words. -/
def words64 (x : DWord) : List Word := [x.truncate 32, (x >>> 32).truncate 32]

/-- The offset of element e from a block's base register (R59). -/
def blockOff (f : LFields) (e : Nat) : Nat :=
  let w := 2 ^ f.w.toNat
  8 * (e / w) + e % w

/-- Elements of a block (R59). -/
def blockLen (f : LFields) : Nat := 2 ^ f.h.toNat * 2 ^ f.w.toNat

/-- Offset of a block's highest register (R60). -/
def blockSpan (f : LFields) : Nat := 8 * (2 ^ f.h.toNat - 1) + 2 ^ f.w.toNat - 1

/-- The register that v[xk] names in thread t, if the window admits it (R62). -/
def Strand.resolve (st : Strand) (k t : Nat) : Option Nat :=
  let x := (st.xget k t).toNat
  let n := (cget st.xbase k).toNat + x
  if x ≥ (cget st.xsize k).toNat ∨ n ≥ st.alloc then none else some n

/-- The words of an operand for thread t in element e, or the index register whose window refuses (R62, R92). -/
def Strand.operand (st : Strand) (f : LFields) (r : Fld) (x : Nat) (ty : OTy) (e t : Nat) : Except Nat (List Word) :=
  match r.k with
  | .zero | .raw | .x | .lit _ _ | .idx => .ok []
  | .q | .q1 => .ok [if mHas (st.qget x) t then 1 else 0]
  | _ =>
    if x < 0x80 then
      let b := x + (if r.block then blockOff f e else 0)
      .ok ((List.range r.n).map fun i => st.vget (b + i) t)
    else if x < 0xC0 then .ok ((List.range r.n).map fun i => st.sget (x - 0x80 + i))
    else if x < 0xC8 then
      match st.resolve (x - 0xC0) t with
      | some n => .ok [st.vget n t]
      | none => .error (x - 0xC0)
    else .ok (constVal x ty)

/-- A scalar or constant operand of one word (R116). -/
def Strand.sval (st : Strand) (x : Nat) : Word :=
  if x < 0xC0 then st.sget (x - 0x80) else nth 0 (constVal x .i32) 0

/-- A scalar pair or constant operand of 64 bits (R118). -/
def Strand.sval64 (st : Strand) (x : Nat) : DWord :=
  if x < 0xC0 then st.sget64 (x - 0x80) else pair64 (constVal x .b64)

/-- Register numbers of the scoreboard: v n, then s n at 128, q n at 192, x k at 240. -/
def regS (n : Nat) : Nat := 128 + n
def regQ (n : Nat) : Nat := 192 + n
def regX (n : Nat) : Nat := 240 + n

/-- The registers that a field names in element e: with the index register of an indirect operand, whose threads are
those of the mask (R59, R62). -/
def Strand.fieldRegs (st : Strand) (f : LFields) (r : Fld) (x : Nat) (m : Mask) (e : Nat) : List Nat :=
  match r.k with
  | .zero | .raw | .lit _ _ => []
  | .x => [regX x]
  | .q | .q1 => if x = 0 then [] else [regQ x]
  | _ =>
    if x < 0x80 then
      let b := x + (if r.block then blockOff f e else 0)
      (List.range r.n).map (b + ·)
    else if x < 0xC0 then (List.range r.n).map fun i => regS (x - 0x80 + i)
    else if x < 0xC8 && r.k != .idx then
      ((List.range 16).filter (mHas m)).foldl (fun l t =>
        match st.resolve (x - 0xC0) t with
        | some n => if l.contains n then l else l ++ [n]
        | none => l) []
    else []

end Sys2Proof.Machine
end

