-- ==== Sys2Proof/Config.lean ====
section
/-! DEFINITION. What one module fixes at manufacture, and the values the manual leaves open: opaque constants with no
body, so that nothing can be proved of them beyond the bounds that the manual gives. -/

namespace Sys2Proof.Config

/-- The spin detector's hash of one iteration's register writes (R317 names the inputs and leaves the hash open). -/
opaque spinHash : List Nat → Nat

/-- The re-encoded size of a frame's contents before the bounds of R406 are applied. -/
opaque frameSize : List Byte → Nat

/-- Granules that a frame with these contents needs: none for all zero, else 1 to 8 (R406). -/
def granules (bytes : List Byte) : Nat :=
  if bytes.all (· == 0) then 0 else max 1 (min 8 (frameSize bytes))

/-- The place that a queue manager gives a record in its part's buffer, beside the places in use (R295 leaves the encoding of a
part to the device). -/
opaque queueSlot : List Nat → Nat

/-- Package time and core cycles that pass before a step that no turn of the agenda times (the manual fixes no rate). -/
opaque freeNs : Nat → Nat
opaque freeCycles : Nat → Nat

/-- The phase output port of a die is C-PHY, else D-PHY (R22 supports either, and each port on its own). -/
opaque cPhy : Nat → Bool

/-- The code that a display engine drives for a pixel whose address does not translate, by time, row and column (R475 names
EXPIRED and UNCORR alone). -/
opaque scanCode : Nat → Nat → Nat → Nat

/-- The SHA-384 of the firmware key, fused at manufacture (R483). -/
opaque fusedKeyHash : List Byte

/-- The number of blown rollback fuses, at most 64 (R483). -/
opaque rollbackFuses : Nat

/-- The debug fuse is blown (R483). -/
opaque debugFuseBlown : Bool

/-- The module's identity public key, x then y, byte by byte (R485). -/
opaque identityPublic : Nat → Byte

/-- Byte i of the identity key's signature over a quote (R484, R485). -/
opaque identitySign : List Byte → Nat → Byte

/-- DIEINFO.SIREV (R6). -/
def sirev : Nat := 1

/-- The IDCODE that every die's TAP returns (R489). -/
def idcode : Word := 0x04831C6B

end Sys2Proof.Config
end

