-- ==== Sys2Proof/Machine/Phys.lean ====
section
/-! DEFINITION. Physical memory below translation: the advertised spaces (R16), frames and their granules (R406 to R410), the
home, the slices of the field cache with their mirrors and tag records (R457 to R459), each core's L1 column, replacement
(R211), the scoped release and acquire actions (R210), and transient regions (R416 to R420). -/

namespace Sys2Proof.Machine

/-- A die of the module by position. -/
def State.die (s : State) (d : Nat) : Die := nth (Die.afterReset d) s.dies d
def State.putDie (s : State) (d : Nat) (x : Die) : State := { s with dies := upd s.dies d x }
def State.modDie (s : State) (d : Nat) (g : Die → Die) : State := { s with dies := modAt s.dies d g }
/-- A core of a die. -/
def State.core (s : State) (d c : Nat) : Core := nth Core.idle (s.die d).cores c
def State.modCore (s : State) (d c : Nat) (g : Core → Core) : State :=
  s.modDie d fun x => { x with cores := modAt x.cores c g }

/-- The owner of writes that no context makes: beyond the 4096 contexts of R249. -/
def noCtx : Nat := 4096

/-- The home die of a physical address (R16). -/
def homeDie (pa : Nat) : Nat := pa / 2 ^ 44

/-- Bytes that each die advertises (R16, R17). -/
def State.advertised (s : State) : Nat := 2 ^ 30 * (16 + s.boot.ovc)

/-- A physical address that some die advertises (R16). -/
def State.paOk (s : State) (pa : Nat) : Bool :=
  decide (pa < 2 ^ 46) && decide (homeDie pa < 3) && decide (pa % 2 ^ 44 < s.advertised)

/-- The line of an address, the unit of the caches and of write-back: 128 bytes. -/
def lineOf (pa : Nat) : Nat := pa / 128
/-- The frame of a line (R406). -/
def frameOfLine (line : Nat) : Nat := line / 32

/-- The home slice of an address (R222). -/
def sliceOf (pa : Nat) : Nat := (nbits pa 7 3).xor ((nbits pa 10 3).xor (nbits pa 13 3))

/-- First byte and length of a region, as physical addresses (R416). -/
def Region.first (r : Region) : Nat := r.base.toNat / 2 ^ 21 * 2 ^ 21 % 2 ^ 44
def Region.size (r : Region) : Nat := r.len.toNat % 2 ^ 16 * 2 ^ 21
def Region.holds (r : Region) (off : Nat) : Bool :=
  r.state != 0 && decide (r.first ≤ off) && decide (off < r.first + r.size)

/-- The transient region, if any, that holds an address: its index on its home die. -/
def State.regionOf (s : State) (pa : Nat) : Option Nat :=
  (s.die (homeDie pa)).regions.findIdx? (·.holds (pa % 2 ^ 44))

/-- The retention budget in ns (R418). -/
def Die.budget (x : Die) : Nat :=
  if x.dramTemp ≤ 45 then 64000000 else if x.dramTemp ≤ 85 then 32000000
  else if x.dramTemp ≤ 105 then 16000000 else 4000000

/-- An arming write moves an Armed region's deadline (R419). -/
def Region.arming (r : Region) (now budget : Nat) : Region :=
  if r.state = 1 ∧ now < r.deadline then { r with armedAt := now, minBudget := budget, deadline := now + budget } else r

/-- The budget has fallen (or risen): the smallest since the arming write governs (R419). -/
def Region.rebudget (r : Region) (budget : Nat) : Region :=
  if r.state = 1 then
    let b := min r.minBudget budget
    { r with minBudget := b, deadline := r.armedAt + b }
  else r

/-- What a read of an address at its home meets: EXPIRED (R420) or the UNCORR of a lost line (R459). -/
def State.readBad (s : State) (pa : Nat) : Option Cause :=
  let x := s.die (homeDie pa)
  match s.regionOf pa with
  | some n =>
    let r := nth Region.off x.regions n
    if r.state = 1 ∧ s.gtime < r.deadline then none else some .expired
  | none => if x.lost.contains (lineOf pa) then some .uncorr else none

/-- Accesses to the frame of this address wait: for parked writes to replay (R410), or for a move to end (R413). -/
def State.frameParked (s : State) (pa : Nat) : Bool :=
  let x := s.die (homeDie pa)
  (x.parked.any fun p => frameOfLine p.line == pa / 4096) || x.moving.any fun m => m.1 == pa / 4096

/-- The link that joins two dies: L01, L12 or L02 (R13). -/
def linkOf (a b : Nat) : Nat := if a + b = 1 then 0 else if a + b = 3 then 1 else 2
/-- The STATE of the link between two dies; 2 where none is needed. A unit of no one die is numbered 3. -/
def State.linkState (s : State) (a b : Nat) : Nat :=
  if a = b ∨ 3 ≤ a ∨ 3 ≤ b then 2 else (nth { state := 0, fails := 0 } s.links (linkOf a b)).state
/-- Traffic between two dies passes, is lost, or waits (R14, R430 to R432). -/
def State.linkUp (s : State) (a b : Nat) : Bool := s.linkState a b == 2
def State.linkDead (s : State) (a b : Nat) : Bool := s.linkState a b == 4
def State.linkSlow (s : State) (a b : Nat) : Bool := !s.linkUp a b && !s.linkDead a b

/-- What a read from a die meets at the home: UNCORR across a Failed link (R432), or what the home holds. -/
def State.readBadFrom (s : State) (d pa : Nat) : Option Cause :=
  if s.linkDead d (homeDie pa) then some .uncorr else s.readBad pa

/-- An access from a die waits: its frame has parked writes (R410), or its link retrains (R431). -/
def State.heldFrom (s : State) (d pa : Nat) : Bool := s.frameParked pa || s.linkSlow d (homeDie pa)

/-- An access of n bytes from a die waits. -/
def State.heldFroms (s : State) (d pa n : Nat) : Bool := (List.range n).any fun i => s.heldFrom d (pa + i)

/-! Mesh positions and the slices that serve (R10, R222, R458, R459, R464). -/

/-- The mesh tile of a core and of a slice: column plus six times row. -/
def coreTile (n : Nat) : Nat := 6 * (n % 4) + nth 0 [0, 1, 4, 5] (n / 4)
def sliceTile (n : Nat) : Nat := 6 * (n % 4) + 2 + n / 4

/-- The core or the slice of a mesh tile. -/
def tileCore (m : Nat) : Option Nat := (List.range 16).find? fun n => coreTile n == m
def tileSlice (m : Nat) : Option Nat := (List.range 8).find? fun n => sliceTile n == m

def Die.tile (x : Die) (m : Nat) : MeshTile := nth MeshTile.healthy x.tiles m
def State.modTile (s : State) (d m : Nat) (g : MeshTile → MeshTile) : State :=
  s.modDie d fun x => { x with tiles := modAt x.tiles m g }

/-- The tile's router works: Healthy, Suspect or Probation. -/
def MeshTile.up (t : MeshTile) : Bool := t.state == 0 || t.state == 1 || t.state == 4
/-- The tile serves no lines: it is neither Healthy nor Suspect (R462). -/
def MeshTile.down (t : MeshTile) : Bool := decide (2 ≤ t.state)

def Die.slice (x : Die) (n : Nat) : SliceSt := nth SliceSt.empty x.slices n
def Die.modSlice (x : Die) (n : Nat) (g : SliceSt → SliceSt) : Die := { x with slices := modAt x.slices n g }

/-- The other slice of a row. -/
def buddy (n : Nat) : Nat := (n + 4) % 8
def Die.sliceDown (x : Die) (n : Nat) : Bool := (x.tile (sliceTile n)).down
/-- The slice that is home for the lines of slice n (R222): itself, its buddy (R458), or the pair of the next healthy row
(R459). -/
def Die.serving (x : Die) (n : Nat) : Nat :=
  match ([0, 1, 2, 3].flatMap fun k => let m := n / 4 * 4 + (n % 4 + k) % 4; [m, buddy m]).find? fun m => !x.sliceDown m with
  | some m => m
  | none => n
/-- The slice of a die that serves a line. -/
def State.servingAt (s : State) (d line : Nat) : Nat := (s.die d).serving (sliceOf (128 * line))
/-- The slice and its buddy both serve, so that each mirrors the other's dirty lines (R457, R458). -/
def Die.mirrored (x : Die) (n : Nat) : Bool := !x.sliceDown n && !x.sliceDown (buddy n)

/-! The lines of a cache (R211). -/

/-- Sets of the L1 column: 1024 of 16 ways. -/
def l1Set (line : Nat) : Nat := line % 1024
/-- Sets of a slice: 8192 of 16 ways. -/
def sliceSet (line : Nat) : Nat := line / 8 % 8192

/-- The lines of a set in the order in which replacement chooses them. -/
def CacheTags.victims (set : Nat → Nat) (t : CacheTags) (n : Nat) : List Nat :=
  let l := (t.order.filter fun x => set x == n).reverse
  l.filter (fun x => !t.sticky.contains x) ++ l.filter t.sticky.contains

/-- An access gives its line its hint; a ninth sticky line of a set makes the oldest sticky one default. -/
def CacheTags.mark (set : Nat → Nat) (t : CacheTags) (line hint : Nat) : CacheTags :=
  let t := { t with
    hints := if hint = 0 then tdel t.hints line else tput t.hints line hint,
    sticky := if hint = 2 then (if t.sticky.contains line then t.sticky else t.sticky ++ [line])
      else t.sticky.filter (· != line) }
  match t.sticky.filter fun x => set x == set line with
  | old :: r => if 8 ≤ r.length then
      { t with hints := tdel t.hints old, sticky := t.sticky.filter (· != old) }
    else t
  | [] => t

/-- An access makes its line the most recently used; a new .stream line goes before the next victim of a full set, or last. -/
def CacheTags.touch (set : Nat → Nat) (t : CacheTags) (line hint : Nat) : CacheTags :=
  if t.order.contains line || hint != 1 then { t with order := line :: t.order.filter (· != line) }
  else
    let vs := t.victims set (set line)
    match vs with
    | v :: _ =>
      if 16 ≤ vs.length then
        { t with order := t.order.takeWhile (· != v) ++ line :: t.order.dropWhile (· != v) }
      else { t with order := t.order ++ [line] }
    | [] => { t with order := t.order ++ [line] }

/-- A line's access in a cache. -/
def CacheTags.use (set : Nat → Nat) (t : CacheTags) (line hint : Nat) : CacheTags :=
  (t.touch set line hint).mark set line hint

/-- A line leaves a cache. -/
def CacheTags.drop (t : CacheTags) (line : Nat) : CacheTags :=
  { order := t.order.filter (· != line), hints := tdel t.hints line, sticky := t.sticky.filter (· != line) }

/-- The lines by which sets exceed their 16 ways. -/
def CacheTags.excess (set : Nat → Nat) (t : CacheTags) : List Nat :=
  if t.order.length ≤ 16 then []
  else ((t.order.map set).eraseDups).flatMap fun n =>
    let l := t.victims set n
    l.take (l.length - 16)

/-- A line is used in the slice of a die that serves it; a .bypass access allocates there as default. -/
def State.sliceUse (s : State) (d line hint : Nat) : State :=
  s.modDie d fun x => x.modSlice (x.serving (sliceOf (128 * line))) fun y =>
    { y with tags := y.tags.use sliceSet line (if hint = 3 then 0 else hint) }
/-- A line is used in a column. -/
def State.l1Use (s : State) (d c line hint : Nat) : State :=
  s.modCore d c fun x => { x with tags := x.tags.use l1Set line hint }

/-! Dirty lines of a slice (R409, R457 to R459). -/

/-- A die's slice holds dirty data of a line: one homed there, or copied bytes of one homed elsewhere. -/
def Die.dirtyLine (x : Die) (d line : Nat) : Bool :=
  if homeDie (128 * line) = d then (tget x.dirty line).isSome
  else x.copies.any fun e => e.2.dirty && lineOf e.1 == line

/-- Lines that have been written back leave the slices' dirty lists and the mirrors. -/
def State.tidy (s : State) (d : Nat) : State :=
  s.modDie d fun x => { x with
    dirty := x.dirty.filter fun e => x.dirtyLine d e.1,
    slices := x.slices.map fun y => { y with
    dirty := y.dirty.filter (x.dirtyLine d), mirror := y.mirror.filter (x.dirtyLine d) } }

/-- Adds a line to a list of lines, oldest first. -/
def addLine (l : List Nat) (line : Nat) : List Nat := if l.contains line then l else l ++ [line]

/-- A line that has been written in a slice of a die is dirty there, and its buddy mirrors it. -/
def State.noteDirty (s : State) (d line : Nat) : State :=
  s.modDie d fun x =>
    if !x.dirtyLine d line then x
    else
      let n := x.serving (sliceOf (128 * line))
      let x := x.modSlice n fun y => { y with dirty := addLine y.dirty line, tags := y.tags.touch sliceSet line 0 }
      if x.mirrored n then x.modSlice (buddy n) fun y => { y with mirror := addLine y.mirror line } else x

/-- The lines that a range meets. -/
def linesOf (pa n : Nat) : List Nat :=
  if n = 0 then [] else (List.range ((pa + n - 1) / 128 - pa / 128 + 1)).map (pa / 128 + ·)

/-- One write has replaced the whole of these lines: they are lost no longer (R459). -/
def State.found (s : State) (lines : List Nat) : State :=
  lines.foldl (fun s l => s.modDie (homeDie (128 * l)) fun x => { x with lost := x.lost.filter (· != l) }) s

/-- A write of a range has been performed at the home. -/
def State.noteHome (s : State) (pa n : Nat) : State :=
  let ls := linesOf pa n
  let s := ls.foldl (fun s l => s.noteDirty (homeDie (128 * l)) l) s
  s.found (ls.filter fun l => decide (pa ≤ 128 * l) && decide (128 * l + 128 ≤ pa + n))

/-- The next sequence number of messages from a source to a destination (R456). -/
def State.nextTag (s : State) (src dst : Nat) : Nat := ((tget s.tagNo (128 * src + dst)).getD 0) + 1

/-- An update of a line by a core at the slice of a die that serves it: it takes the next tag of that core tile's messages to
that slice tile, and the slice's record, at its buddy while that mirrors it, keeps the tag with the value that an atomic returns
(R456, R457). -/
def State.update (s : State) (d c e line : Nat) (val : Option Nat) : State :=
  let n := s.servingAt e line
  let src := 24 * d + coreTile c
  let dst := 24 * e + sliceTile n
  let seq := s.nextTag src dst
  let s := { s with tagNo := tput s.tagNo (128 * src + dst) seq }
  s.modDie e fun x => x.modSlice (if x.mirrored n then buddy n else n) fun y => { y with
    record := tput y.record src (({ seq := seq, val := val } :: (tget y.record src).getD []).take 256) }

/-! Frames (R406 to R410). -/

/-- A frame lies in a region that is not Off. -/
def Die.inRegion (x : Die) (frame : Nat) : Bool := x.regions.any fun r => r.holds (frame * 4096 % 2 ^ 44)

/-- Granules that a frame holds (R406); a frame of a region holds 8 (R417). -/
def Die.gran (x : Die) (frame : Nat) : Nat :=
  match tget x.frames frame with
  | some f => f.gran
  | none => if x.inRegion frame then 8 else 0

/-- A frame's present record. -/
def Die.frame (x : Die) (frame : Nat) : FrameSt := { gran := x.gran frame, donated := match tget x.frames frame with
  | some f => f.donated
  | none => false }

/-- Gives a frame j granules, from or to the pool (R409). -/
def Die.regrain (x : Die) (frame j : Nat) : Die :=
  { x with gfree := x.gfree + x.gran frame - j, frames := tput x.frames frame { gran := j, donated := false },
           donated := x.donated.filter (· != frame) }

/-- The bytes of a frame. -/
def State.frameBytes (s : State) (frame : Nat) : List Byte := cgets s.mem (4096 * frame) 4096

/-- Granules that a frame's re-encoding needs (R406, R417). -/
def State.frameNeed (s : State) (frame : Nat) : Nat :=
  if (s.die (homeDie (4096 * frame))).inRegion frame then 8 else Config.granules (s.frameBytes frame)

/-- Lines that spill memory holds (R407). -/
def spillLines : Nat := 524288

/-- A write-back can be made now: the frame keeps its granules or the pool has what is missing (R409). -/
def Die.fits (x : Die) (frame j : Nat) : Bool := decide (j ≤ x.gran frame + x.gfree)

/-- A dirty line leaves its home slice for DRAM (R409, R410): it waits while its frame is being moved (R413). -/
def State.lineBack (s : State) (line : Nat) : State :=
  let d := homeDie (128 * line)
  let x := s.die d
  let frame := frameOfLine line
  match tget x.dirty line with
  | none => s
  | some ctx =>
    if (x.parked.any fun p => p.waiting && p.line == line) || x.moving.any (fun m => m.1 == frame) then s
    else
      let j := s.frameNeed frame
      if !x.parked.any (fun p => frameOfLine p.line == frame) && x.fits frame j then
        (s.modDie d fun x => { x.regrain frame j with dirty := tdel x.dirty line }).tidy d
      else
        let wait := decide (spillLines ≤ (x.parked.filter fun p => !p.waiting).length)
        let p : Parked := { line := line, need := j, ctx := ctx, since := s.gtime, waiting := wait, raised := false }
        (s.modDie d fun x => { x with
          parked := x.parked ++ [p], dirty := if wait then x.dirty else tdel x.dirty line }).tidy d

/-! The home, a die's copies, and a column. -/

/-- One byte performed at its home: the line is dirty in the home slice for its writer (R239, R409), and an Armed region is
re-armed (R419). -/
def State.homePut (s : State) (pa : Nat) (b : Byte) (ctx : Nat) : State :=
  let now := s.gtime
  let s := { s with mem := cput s.mem pa b }
  s.modDie (homeDie pa) fun x =>
    let bud := x.budget
    { x with
      dirty := tput x.dirty (lineOf pa) ctx,
      regions := x.regions.map fun r => if r.holds (pa % 2 ^ 44) then r.arming now bud else r }

/-- A byte that a die sends to its home: a Failed link loses it, and the context that owned it is told (R432). -/
def State.sendPut (s : State) (d pa : Nat) (b : Byte) (ctx : Nat) : State :=
  if s.linkDead d (homeDie pa) then
    (if s.lostCtx.contains ctx then s else { s with lostCtx := s.lostCtx ++ [ctx] })
  else s.homePut pa b ctx

/-- Bytes performed at their home. -/
def State.homeBytes (s : State) (pa : Nat) (bs : List Byte) (ctx : Nat) : State :=
  match bs with
  | [] => s
  | b :: r => (s.homePut pa b ctx).homeBytes (pa + 1) r ctx
/-- A write performed at its home. -/
def State.homePuts (s : State) (pa : Nat) (bs : List Byte) (ctx : Nat) : State :=
  (s.homeBytes pa bs ctx).noteHome pa bs.length

/-- A byte at the single point of die d: the home, or d's copy of a line homed elsewhere (R239). -/
def State.dieGet (s : State) (d pa : Nat) : Byte :=
  if homeDie pa = d then cget s.mem pa
  else match tget (s.die d).copies pa with
    | some c => c.val
    | none => cget s.mem pa

def State.diePut (s : State) (d pa : Nat) (b : Byte) (ctx : Nat) : State :=
  if homeDie pa = d ∨ (s.regionOf pa).isSome then s.sendPut d pa b ctx
  else s.modDie d fun x => { x with
    copies := tput x.copies pa { val := b, dirty := true, ctx := ctx }, dirty := tput x.dirty (lineOf pa) ctx }

/-- A byte as an agent of a core reads it: its L1 column, else its die (R237, R242). -/
def State.coreGet (s : State) (d c pa : Nat) : Byte :=
  match tget (s.core d c).l1 pa with
  | some b => b.val
  | none => s.dieGet d pa

def State.coreGets (s : State) (d c pa : Nat) : Nat → List Byte
  | 0 => []
  | n + 1 => s.coreGet d c pa :: s.coreGets d c (pa + 1) n

/-- A die answers a read of a byte from its copies. -/
def State.dieHas (s : State) (d pa : Nat) : Bool :=
  homeDie pa != d && (tget (s.die d).copies pa).isSome
/-- A core's column answers a read of a byte. -/
def State.l1Has (s : State) (d c pa : Nat) : Bool := (tget (s.core d c).l1 pa).isSome
/-- A read of a core needs nothing from below its die's copies. -/
def State.coreHas (s : State) (d c pa : Nat) : Bool := s.l1Has d c pa || s.dieHas d pa

/-- A read of n bytes by a core waits: its frame has parked writes, or bytes that it needs lie behind a retraining link. -/
def State.readHeld (s : State) (d c pa n : Nat) : Bool :=
  (List.range n).any fun i => s.frameParked (pa + i) || (s.heldFrom d (pa + i) && !s.coreHas d c (pa + i))

/-- What a core's read of a byte meets below its L1 column (R199, R420, R459). -/
def State.coreBad (s : State) (d c pa : Nat) : Option Cause :=
  if s.coreHas d c pa then none else s.readBadFrom d pa

def State.coreBads (s : State) (d c pa n : Nat) : Option Cause :=
  (List.range n).findSome? fun i => s.coreBad d c (pa + i)

/-- A performed byte of an agent of a core: into its L1 column, or below it for .bypass lines and for regions (R197, R211,
R420). -/
def State.corePut (s : State) (d c pa : Nat) (b : Byte) (ctx hint : Nat) : State :=
  if (s.regionOf pa).isSome then s.sendPut d pa b ctx
  else if hint = 3 ∧ (s.core d c).tags.order.contains (lineOf pa) = false then s.diePut d pa b ctx
  else s.modCore d c fun x => { x with l1 := tput x.l1 pa { val := b, dirty := true, ctx := ctx } }

/-- A write of an agent of a core waits: it goes to its home at once, and its frame is Parked or its link retrains (R410, R431). -/
def State.putHeld (s : State) (d c pa hint : Nat) : Bool :=
  if (s.regionOf pa).isSome then s.heldFrom d pa
  else hint == 3 && !(s.core d c).tags.order.contains (lineOf pa) && homeDie pa == d && s.frameParked pa

def State.coreBytes (s : State) (d c pa : Nat) (bs : List Byte) (ctx hint : Nat) : State :=
  match bs with
  | [] => s
  | b :: r => (s.corePut d c pa b ctx hint).coreBytes d c (pa + 1) r ctx hint

/-- A write's lines as the caches see them: in a column, or at its die's slice and the home. -/
def State.notePut (s0 s : State) (d c pa n hint : Nat) : State :=
  (linesOf pa n).foldl (fun s l =>
    if (s0.regionOf (128 * l)).isNone && !(hint == 3 && !(s0.core d c).tags.order.contains l) then s.l1Use d c l hint
    else if homeDie (128 * l) = d ∨ (s0.regionOf (128 * l)).isSome then (s.noteDirty (homeDie (128 * l)) l).update d c (homeDie (128 * l)) l none
    else (s.noteDirty d l).update d c d l none) s

/-- A performed write of an agent of a core (R197). -/
def State.corePuts (s : State) (d c pa : Nat) (bs : List Byte) (ctx hint : Nat) : State :=
  s.notePut (s.coreBytes d c pa bs ctx hint) d c pa bs.length hint

/-- A clean byte where a column or a die's copies hold none. -/
def freshByte (m : Tab CByte) (pa : Nat) (v : Byte) : Tab CByte :=
  match tget m pa with
  | some _ => m
  | none => tput m pa { val := v, dirty := false, ctx := 0 }

/-- Brings one byte into the column as a clean byte where it holds none, and into the die's copies when it is homed elsewhere. -/
def State.fillByte (s : State) (d c a : Nat) : State :=
  if (s.coreBad d c a).isSome then s
  else
    let v := s.dieGet d a
    let s := if homeDie a = d then s else s.modDie d fun x => { x with copies := freshByte x.copies a v }
    s.modCore d c fun x => { x with l1 := freshByte x.l1 a v }

/-- Brings the 16-byte sector of an address into the column (R211, R237). -/
def State.fillSector (s : State) (d c pa : Nat) : State :=
  (List.range 16).foldl (fun s i => s.fillByte d c (pa / 16 * 16 + i)) s

/-- Brings the line of an address into the die's copies alone (R207). -/
def State.fillSlice (s : State) (d pa hint : Nat) : State :=
  let s := if homeDie pa = d then s
    else (List.range 128).foldl (fun s i =>
      let a := 128 * lineOf pa + i
      if (s.readBadFrom d a).isSome then s
      else
        let v := s.dieGet d a
        s.modDie d fun x => { x with copies := freshByte x.copies a v }) s
  s.sliceUse d (lineOf pa) hint

/-- The cache effects of a read: the sector and the hints; a .bypass read allocates in the slice alone (R211), and a line of a
region in neither (R420). -/
def State.touch (s : State) (d c pa hint : Nat) : State :=
  if (s.regionOf pa).isSome then s
  else if hint = 3 && !(s.core d c).tags.order.contains (lineOf pa) then s.fillSlice d pa hint
  else ((s.fillSector d c pa).sliceUse d (lineOf pa) hint).l1Use d c (lineOf pa) hint

/-- Lines of which a list of bytes holds all 128. -/
def wholeLines (l : List (Nat × CByte)) : List Nat :=
  ((l.map fun e => lineOf e.1).eraseDups).filter fun n => (l.filter fun e => lineOf e.1 == n).length == 128

/-- The bytes that satisfy a test are clean; one that was dirty stays only in an 8-byte unit that is there whole, so that a later read
of the unit never joins it with bytes of another write (R227). -/
def cleaned (p : Nat → Bool) (m : Tab CByte) : Tab CByte :=
  let keep (a : Nat) : Bool := (List.range 8).all fun i => (tget m (a / 8 * 8 + i)).isSome
  (m.filter fun e => !(p e.1 && (tget m e.1).any (·.dirty)) || keep e.1).map fun e => if p e.1 then (e.1, { e.2 with dirty := false }) else e

/-- Writes back the column's dirty bytes that satisfy a test and leaves them clean (R210). -/
def State.writeBackL1 (s : State) (d c : Nat) (p : Nat → Bool) : State :=
  let ds := (s.core d c).l1.filter fun e => e.2.dirty && p e.1
  let s := ds.foldr (fun e s => s.diePut d e.1 e.2.val e.2.ctx) s
  let s := (ds.map fun e => lineOf e.1).eraseDups.foldl (fun s l => (s.noteDirty d l).update d c d l none) s
  let s := s.found ((wholeLines ds).filter fun l => homeDie (128 * l) == d)
  s.modCore d c fun x => { x with l1 := cleaned p x.l1 }

/-- Writes back a die's dirty copies of lines homed elsewhere (R210); what needs a link that retrains stays dirty (R431). -/
def State.writeBackDie (s : State) (d : Nat) (p : Nat → Bool) : State :=
  let go (a : Nat) : Bool := p a && !s.linkSlow d (homeDie a)
  let x := s.die d
  let ds := x.copies.filter fun e => e.2.dirty && go e.1
  let s := ds.foldr (fun e s => s.sendPut d e.1 e.2.val ((tget x.dirty (lineOf e.1)).getD e.2.ctx)) s
  let s := (ds.map fun e => lineOf e.1).eraseDups.foldl (fun s l => s.noteDirty (homeDie (128 * l)) l) s
  let s := s.found ((wholeLines ds).filter fun l => !s.linkDead d (homeDie (128 * l)))
  (s.modDie d fun x => { x with copies := cleaned go x.copies }).tidy d

/-- Data of the die still waits for a link. -/
def State.copiesWait (s : State) (d : Nat) : Bool :=
  (s.die d).copies.any fun e => e.2.dirty && s.linkSlow d (homeDie e.1)

/-- The release actions of R210: 0 strand, 1 group, 2 core, 3 die, 4 package, 5 system. `wide` judges group scope. A
release at package scope or wider empties the release filter (R241), once nothing of it waits for a link. -/
def State.release (s : State) (d c scope : Nat) (wide : Bool) : State :=
  if scope ≥ 3 ∨ (scope = 1 ∧ wide) then
    let s := s.writeBackL1 d c fun _ => true
    if scope ≥ 4 then
      let s := s.writeBackDie d fun _ => true
      if s.copiesWait d then s else s.modCore d c fun x => { x with filter := [], filterAny := false }
    else s
  else s

/-- The acquire actions of R210. -/
def State.acquire (s : State) (d c scope : Nat) (wide : Bool) : State :=
  if scope ≥ 3 ∨ (scope = 1 ∧ wide) then
    let s := if scope ≥ 4 then s.modDie d fun x => { x with copies := x.copies.filter fun e => e.2.dirty } else s
    s.modCore d c fun x => { x with l1 := x.l1.filter fun e => e.2.dirty }
  else s

/-- A core-scope release records its line; a 33rd entry first causes a release at package scope (R241). -/
def State.recordRelease (s : State) (d c : Nat) (line : Option Nat) : State :=
  match line with
  | none => s.modCore d c fun x => { x with filterAny := true }
  | some l =>
    if (s.core d c).filter.contains l then s
    else
      let s := if (s.core d c).filter.length ≥ 32 then s.release d c 4 true else s
      s.modCore d c fun x => { x with filter := x.filter ++ [l] }

/-- The promotion request that one core receives (R241). -/
def State.promote (s : State) (d c line : Nat) : State :=
  let x := s.core d c
  if x.filterAny || x.filter.contains line then s.release d c 4 true else s

/-- Drops a line from a column: dirty bytes are written back first (R203, R211). -/
def State.evictL1 (s : State) (d c line : Nat) : State :=
  let s := s.writeBackL1 d c fun a => lineOf a == line
  s.modCore d c fun x => { x with l1 := x.l1.filter fun e => lineOf e.1 != line, tags := x.tags.drop line }

/-- The line is the one that replacement chooses in its set (R211). -/
def Core.victimOk (x : Core) (line : Nat) : Bool := (x.tags.victims l1Set (l1Set line)).head? == some line

/-- Replacement in a column of the lines that an event names. -/
def State.evictAll (s : State) (d c : Nat) (lines : List Nat) : State :=
  lines.foldl (fun s l => if (s.core d c).victimOk l then s.evictL1 d c l else s) s

/-- A slice writes back a line that it holds dirty: to DRAM, or to its home on another die. -/
def State.cleanLine (s : State) (d line : Nat) : State :=
  if homeDie (128 * line) = d then s.lineBack line else s.writeBackDie d fun a => lineOf a == line

/-- A line leaves a slice for another; one that cannot be written back now stays. -/
def State.evictSlice (s : State) (d n line : Nat) : State :=
  let s := s.cleanLine d line
  if (s.die d).dirtyLine d line then s
  else s.modDie d fun x =>
    { x.modSlice n fun y => { y with tags := y.tags.drop line } with
      copies := x.copies.filter fun e => lineOf e.1 != line }

/-- Lines that a slice holds dirty beyond what it may: 4 MiB of them, or none while its buddy does not mirror it (R457, R458). -/
def Die.mustClean (x : Die) (n : Nat) : List Nat :=
  let l := (x.slice n).dirty
  if x.mirrored n then l.take (l.length - 32768) else l

/-- Replacement where a set of a column or a slice holds more lines than it has ways (R211), and the write-backs that slices
owe (R457, R458). -/
def State.replace (s : State) : State :=
  let s := ([0, 1, 2] : List Nat).foldl (fun s d => (List.range 16).foldl (fun s c =>
    ((s.core d c).tags.excess l1Set).foldl (fun s l => s.evictL1 d c l) s) s) s
  ([0, 1, 2] : List Nat).foldl (fun s d => (List.range 8).foldl (fun s n =>
    let s := ((s.die d).mustClean n).foldl (fun s l => s.cleanLine d l) s
    (((s.die d).slice n).tags.excess sliceSet).foldl (fun s l => s.evictSlice d n l) s) s) s

/-- Before an operation at the home slice: the issuing core's column and its die give up what they hold of a range
(R203, R239). -/
def State.flushRange (s : State) (d c pa n : Nat) : State :=
  let p (a : Nat) : Bool := decide (pa / 16 * 16 ≤ a) && decide (a < roundUp (pa + n) 16)
  let s := s.writeBackL1 d c p
  let s := s.modCore d c fun x => { x with l1 := x.l1.filter fun e => !p e.1 }
  let s := s.writeBackDie d p
  s.modDie d fun x => { x with copies := x.copies.filter fun e => e.2.dirty || !p e.1 }

/-! Writes of the device's units (R272, R397). -/

/-- A system-scope write of the device to a physical address, as event messages, fault batches and completion counters
are: 0x0 to the advertised spaces; an address outside the module's memory belongs to the application cores (R272). -/
def State.devNow (s : State) (w : DevWr) : State :=
  if s.paOk w.pa && s.paOk (w.pa + w.bytes.length - 1) then s.homePuts w.pa w.bytes w.ctx else s

/-- The write must wait: a frame that it meets has parked writes, or an earlier write of its context waits (R410). -/
def State.devHeld (s : State) (ahead : List DevWr) (w : DevWr) : Bool :=
  ahead.any (fun q => q.ctx == w.ctx) || (List.range w.bytes.length).any fun i => s.frameParked (w.pa + i)

/-- A write of the device: performed, or put behind those that wait. -/
def State.devPuts (s : State) (pa : Nat) (bs : List Byte) (ctx : Nat) : State :=
  let w : DevWr := { pa := pa, bytes := bs, ctx := ctx }
  if s.devHeld s.devQ w then { s with devQ := s.devQ ++ [w] } else s.devNow w

/-- The writes that wait are performed, in order, where nothing holds them any longer. -/
def State.devFlush (s : State) : State :=
  s.devQ.foldl (fun s w => if s.devHeld s.devQ w then { s with devQ := s.devQ ++ [w] } else s.devNow w) { s with devQ := [] }

end Sys2Proof.Machine
end

