-- ==== Sys2Proof/Machine/Xlat.lean ====
section
/-! DEFINITION. Translation: the tables (R385 to R389), the walk (R390, R391), parking on T = 1 (R392) and the caches
of lane, core and die (R393). -/

namespace Sys2Proof.Machine

/-- A context's record. -/
def State.ctx (s : State) (n : Nat) : Ctx := (tget s.ctxs n).getD Ctx.free
def State.putCtx (s : State) (n : Nat) (x : Ctx) : State := { s with ctxs := tput s.ctxs n x }
def State.modCtx (s : State) (n : Nat) (g : Ctx → Ctx) : State := s.putCtx n (g (s.ctx n))

/-- What a translation gives: a physical address, a parked walk, one that waits for a Parked frame or a retraining link (R410,
R431), or a fault with its cause and level (R390, R392). -/
inductive Xl where
  | ok (pa : Nat)
  | park
  | wait
  | fault (c : Cause) (level : Nat)
  deriving DecidableEq, Repr

/-- The kinds of access as R398 codes them: fetch 4, write 2, read 1. -/
def kFetch : Nat := 4
def kWrite : Nat := 2
def kRead : Nat := 1

/-- log2 of the page size at a level (R386). -/
def levelShift (lvl : Nat) : Nat := nth 39 [12, 16, 21, 30, 39] lvl
/-- Index bits of a level (R386). -/
def levelBits (lvl : Nat) : Nat := nth 9 [4, 5, 9, 9, 9] lvl
/-- Size of a node of a level (R386). -/
def nodeSize (lvl : Nat) : Nat := 8 * 2 ^ levelBits lvl

/-- Bits [45:7] of an entry as an address (R387). -/
def entryPa (e : Nat) : Nat := nbits e 7 39 * 128

/-- A present entry that R388 calls malformed at its level. -/
def State.malformed (s : State) (e lvl : Nat) : Bool :=
  let leaf := nbits e 2 1 == 1
  nbits e 46 10 != 0 || nbits e 6 1 != 0 || (leaf && lvl == 4) || (!leaf && lvl == 0) ||
  (!leaf && nbits e 3 3 != 0) ||
  entryPa e % (if leaf then 2 ^ levelShift lvl else nodeSize (lvl - 1)) != 0 || !s.paOk (entryPa e)

/-- A table entry as the walker reads it at its home (R391). -/
inductive EntryRead where
  /-- An UNCORR, or a transient deadline that has passed. -/
  | bad
  /-- Its frame is Parked or moves, or its link retrains (R410, R431). -/
  | wait
  | val (e : Nat)
  deriving DecidableEq, Repr

/-- Reads an entry for the walker of a die. -/
def State.readEntry (s : State) (d pa : Nat) : EntryRead :=
  if s.heldFroms d pa 8 then .wait
  else if ((List.range 8).findSome? fun i => s.readBadFrom d (pa + i)).isSome then .bad
  else .val (leVal (cgets s.mem pa 8))

/-- The result of a walk, with the entries it read at L4 to L2 for the node cache: (level, path, entry). -/
structure WalkRes where
  res : Xl
  shift : Nat
  perm : Nat
  nodes : List NodeEnt
  deriving DecidableEq, Repr

/-- One entry of a walk (R390): the walk's result, or the next node with the entries read so far. Node entries of L4 to L2
come from the cache where it holds them. -/
def State.walkEntry (s : State) (d : Nat) (cache : List NodeEnt) (ctx va need lvl node : Nat) (seen : List NodeEnt) :
    WalkRes ⊕ (Nat × List NodeEnt) :=
  let bad (c : Cause) : WalkRes := { res := .fault c lvl, shift := 0, perm := 0, nodes := seen }
  let path := va / 2 ^ levelShift lvl
  let hit := if lvl ≥ 2 then cache.find? fun n => n.ctx == ctx && n.level == lvl && n.va == path else none
  let read : EntryRead := match hit with
    | some n => .val n.entry.toNat
    | none => s.readEntry d (node + 8 * (path % 2 ^ levelBits lvl))
  match read with
  | .bad => .inl (bad .tabl)
  | .wait => .inl { res := .wait, shift := 0, perm := 0, nodes := seen }
  | .val e =>
    let leaf := nbits e 2 1 == 1
    if nbits e 1 1 == 1 then .inl { res := .park, shift := 0, perm := 0, nodes := seen }
    else if nbits e 0 1 == 0 then .inl (bad (if lvl == 0 || (lvl != 4 && leaf) then .page else .tabl))
    else if s.malformed e lvl then .inl (bad .tabl)
    else if leaf then
      let sh := levelShift lvl
      if nbits e 3 3 &&& need != need then .inl (bad .perm)
      else .inl { res := .ok (entryPa e + va % 2 ^ sh), shift := sh, perm := nbits e 3 3, nodes := seen }
    else
      .inr (entryPa e,
        if lvl ≥ 2 then { ctx := ctx, level := lvl, va := path, entry := BitVec.ofNat 64 e } :: seen else seen)

/-- The walk from a level down (R390). -/
def State.walkFrom (s : State) (d : Nat) (cache : List NodeEnt) (ctx va need : Nat) : Nat → Nat → List NodeEnt → WalkRes
  | 0, node, seen => match s.walkEntry d cache ctx va need 0 node seen with
    | .inl r => r
    | .inr _ => { res := .fault .tabl 0, shift := 0, perm := 0, nodes := seen }
  | l + 1, node, seen => match s.walkEntry d cache ctx va need (l + 1) node seen with
    | .inl r => r
    | .inr n => s.walkFrom d cache ctx va need l n.1 n.2

/-- The level of a page size. -/
def shiftLevel (sh : Nat) : Nat := if sh = 12 then 0 else if sh = 16 then 1 else if sh = 21 then 2 else 3

/-- A cached translation for an address (R393). -/
def tlbFind (l : List Tlb) (ctx va : Nat) : Option Tlb :=
  l.find? fun t => t.ctx == ctx && va / 2 ^ t.shift == t.page

/-- What a cached translation answers. -/
def Tlb.answer (t : Tlb) (va need : Nat) : Xl :=
  if t.perm &&& need != need then .fault .perm (shiftLevel t.shift) else .ok (t.pbase + va % 2 ^ t.shift)

/-- Puts an entry first in a cache of n entries. -/
def cacheFill {α : Type} [DecidableEq α] (l : List α) (x : α) (n : Nat) : List α :=
  (x :: l.filter (· != x)).take n

/-- Translates a virtual address for an access from a core, through the lane's last-page registers where the access is a
strand's, the core's TLB and the die's walker (R390 to R393). -/
def State.translate (s : State) (ctx d c : Nat) (lane : Option Nat) (va need : Nat) : State × Xl :=
  let x := s.core d c
  let last := match lane with
    | some l => ((tget x.lanes l).getD Lane.idle).lastPage
    | none => []
  let fillLast (s : State) (t : Tlb) : State :=
    match lane with
    | none => s
    | some l => s.modCore d c fun x =>
        let ln := (tget x.lanes l).getD Lane.idle
        { x with lanes := tput x.lanes l { ln with lastPage := cacheFill ln.lastPage t 4 } }
  match tlbFind last ctx va with
  | some t => (fillLast s t, t.answer va need)
  | none =>
    match tlbFind x.tlb ctx va with
    | some t => (fillLast (s.modCore d c fun x => { x with tlb := cacheFill x.tlb t 2048 }) t, t.answer va need)
    | none =>
      let root := (s.ctx ctx).root.toNat
      let w := s.walkFrom d (s.die d).nodeCache ctx va need 4 (nbits root 12 34 * 4096) []
      let s := s.modDie d fun y => { y with nodeCache := w.nodes.foldl (fun l n => cacheFill l n 64) y.nodeCache }
      match w.res with
      | .ok pa =>
        let t : Tlb := { ctx := ctx, page := va / 2 ^ w.shift, shift := w.shift,
                         pbase := pa - va % 2 ^ w.shift, perm := w.perm }
        (fillLast (s.modCore d c fun x => { x with tlb := cacheFill x.tlb t 2048 }) t, .ok pa)
      | r => (s, r)

end Sys2Proof.Machine
end

