-- ==== Sys2Proof/WellFormed.lean ====
section
/-! DEFINITION. Which instructions pass every check on their encoding alone (R84, R86, R89, R90, R92 to R99 and the
entries' own field checks). An instruction that does not raises ILLOP with DETAIL 0 when it issues. -/

namespace Sys2Proof

open Sys2Proof.Machine

/-- A guard or predicate field of 6 bits names q0 to q47 (R86). -/
def q6Ok (x : BitVec 6) : Bool := decide (x.toNat < 48)

/-- The W-R instructions: classes of d, a and b in R87. -/
def wrOk : Instr → WRFields → Bool
  | .icmpW _, r | .fcmpW _, r => q6Ok r.d
  | .movW _, r | .smovW _, r => r.b == 0
  | .ldW _, r | .stW _, r => r.a.getLsbD 0 == false
  | _, _ => true

/-- W-I and W-B checks of R88 and R89. -/
def moveHiOk (r : WIFields) : Bool := r.imm.extractLsb' 16 2 == 0
def waitcWOk (r : WIFields) : Bool :=
  decide (r.d5.toNat ≤ 5) && decide (r.imm.toNat ≤ 63)

/-- The encoding checks of an L instruction. -/
def lOk (i : Instr) (f : LFields) : Bool :=
  match specOf i with
  | some sp => sp.ok f
  | none => false

/-- Every encoding check. -/
def wellFormed (i : Instr) : Bool :=
  match i with
  | .iadd f => lOk (.iadd f) f
  | .isub f => lOk (.isub f) f
  | .imul f => lOk (.imul f) f
  | .imulh f => lOk (.imulh f) f
  | .imad f => lOk (.imad f) f
  | .iand f => lOk (.iand f) f
  | .ior f => lOk (.ior f) f
  | .ixor f => lOk (.ixor f) f
  | .ishl f => lOk (.ishl f) f
  | .ishr f => lOk (.ishr f) f
  | .isra f => lOk (.isra f) f
  | .imin f => lOk (.imin f) f
  | .imax f => lOk (.imax f) f
  | .iabs f => lOk (.iabs f) f
  | .icmp f => lOk (.icmp f) f
  | .isel f => lOk (.isel f) f
  | .bfe f => lOk (.bfe f) f
  | .bfi f => lOk (.bfi f) f
  | .popc f => lOk (.popc f) f
  | .clz f => lOk (.clz f) f
  | .brev f => lOk (.brev f) f
  | .bgath f => lOk (.bgath f) f
  | .lea f => lOk (.lea f) f
  | .iaddc f => lOk (.iaddc f) f
  | .mov f => lOk (.mov f) f
  | .movi f => lOk (.movi f) f
  | .movhi f => lOk (.movhi f) f
  | .idot4 f => lOk (.idot4 f) f
  | .fadd f => lOk (.fadd f) f
  | .fsub f => lOk (.fsub f) f
  | .fmul f => lOk (.fmul f) f
  | .ffma f => lOk (.ffma f) f
  | .fmin f => lOk (.fmin f) f
  | .fmax f => lOk (.fmax f) f
  | .fcmp f => lOk (.fcmp f) f
  | .fclass f => lOk (.fclass f) f
  | .frcp f => lOk (.frcp f) f
  | .frsq f => lOk (.frsq f) f
  | .fsqrt f => lOk (.fsqrt f) f
  | .fexp2 f => lOk (.fexp2 f) f
  | .flog2 f => lOk (.flog2 f) f
  | .fsint f => lOk (.fsint f) f
  | .fcost f => lOk (.fcost f) f
  | .fcvt f => lOk (.fcvt f) f
  | .frnd f => lOk (.frnd f) f
  | .ffrac f => lOk (.ffrac f) f
  | .cadd f => lOk (.cadd f) f
  | .csub f => lOk (.csub f) f
  | .cmul f => lOk (.cmul f) f
  | .cfma f => lOk (.cfma f) f
  | .cmag2 f => lOk (.cmag2 f) f
  | .cscale f => lOk (.cscale f) f
  | .cexpi f => lOk (.cexpi f) f
  | .cphase f => lOk (.cphase f) f
  | .twid f => lOk (.twid f) f
  | .bfly f => lOk (.bfly f) f
  | .ccvt f => lOk (.ccvt f) f
  | .bpack f => lOk (.bpack f) f
  | .bunpk f => lOk (.bunpk f) f
  | .bexpm f => lOk (.bexpm f) f
  | .phq f => lOk (.phq f) f
  | .edge f => lOk (.edge f) f
  | .trix f => lOk (.trix f) f
  | .shfl f => lOk (.shfl f) f
  | .shflx f => lOk (.shflx f) f
  | .shfld f => lOk (.shfld f) f
  | .shflu f => lOk (.shflu f) f
  | .scan f => lOk (.scan f) f
  | .reds f => lOk (.reds f) f
  | .vote f => lOk (.vote f) f
  | .matchT f => lOk (.matchT f) f
  | .lace f => lOk (.lace f) f
  | .laceld f => lOk (.laceld f) f
  | .bcast f => lOk (.bcast f) f
  | .qand f => lOk (.qand f) f
  | .qor f => lOk (.qor f) f
  | .qxor f => lOk (.qxor f) f
  | .qtos f => lOk (.qtos f) f
  | .stoq f => lOk (.stoq f) f
  | .sadd f => lOk (.sadd f) f
  | .ssub f => lOk (.ssub f) f
  | .smul f => lOk (.smul f) f
  | .smulh f => lOk (.smulh f) f
  | .sand f => lOk (.sand f) f
  | .sor f => lOk (.sor f) f
  | .sxor f => lOk (.sxor f) f
  | .sshl f => lOk (.sshl f) f
  | .sshr f => lOk (.sshr f) f
  | .ssra f => lOk (.ssra f) f
  | .smin f => lOk (.smin f) f
  | .smax f => lOk (.smax f) f
  | .smov f => lOk (.smov f) f
  | .smovi f => lOk (.smovi f) f
  | .scmp f => lOk (.scmp f) f
  | .ssel f => lOk (.ssel f) f
  | .sbfe f => lOk (.sbfe f) f
  | .spopc f => lOk (.spopc f) f
  | .sclz f => lOk (.sclz f) f
  | .sldk f => lOk (.sldk f) f
  | .setfmt f => lOk (.setfmt f) f
  | .getfmt f => lOk (.getfmt f) f
  | .xwin f => lOk (.xwin f) f
  | .xset f => lOk (.xset f) f
  | .sfadd f => lOk (.sfadd f) f
  | .sfmul f => lOk (.sfmul f) f
  | .sffma f => lOk (.sffma f) f
  | .sfcvt f => lOk (.sfcvt f) f
  | .bra f => lOk (.bra f) f
  | .brx f => lOk (.brx f) f
  | .divT f => lOk (.divT f) f
  | .rcv f => lOk (.rcv f) f
  | .call f => lOk (.call f) f
  | .ret f => lOk (.ret f) f
  | .exit f => lOk (.exit f) f
  | .nop f => lOk (.nop f) f
  | .yield f => lOk (.yield f) f
  | .loop f => lOk (.loop f) f
  | .trap f => lOk (.trap f) f
  | .bkpt f => lOk (.bkpt f) f
  | .ld f => lOk (.ld f) f
  | .st f => lOk (.st f) f
  | .lds f => lOk (.lds f) f
  | .sts f => lOk (.sts f) f
  | .ldt f => lOk (.ldt f) f
  | .stt f => lOk (.stt f) f
  | .atom f => lOk (.atom f) f
  | .atoms f => lOk (.atoms f) f
  | .sumx f => lOk (.sumx f) f
  | .sumrd f => lOk (.sumrd f) f
  | .sumclr f => lOk (.sumclr f) f
  | .pref f => lOk (.pref f) f
  | .waitc f => lOk (.waitc f) f
  | .fence f => lOk (.fence f) f
  | .shut f => lOk (.shut f) f
  | .shutx f => lOk (.shutx f) f
  | .dtld f => lOk (.dtld f) f
  | .decode f => lOk (.decode f) f
  | .fetchf f => lOk (.fetchf f) f
  | .darn f => lOk (.darn f) f
  | .dispq f => lOk (.dispq f) f
  | .dispqQuery f => lOk (.dispqQuery f) f
  | .mclr f => lOk (.mclr f) f
  | .mloop f => lOk (.mloop f) f
  | .mrd f => lOk (.mrd f) f
  | .mbld f => lOk (.mbld f) f
  | .mtwid f => lOk (.mtwid f) f
  | .seedld f => lOk (.seedld f) f
  | .seedscan f => lOk (.seedscan f) f
  | .seeddrop f => lOk (.seeddrop f) f
  | .join f => lOk (.join f) f
  | .leave f => lOk (.leave f) f
  | .bar f => lOk (.bar f) f
  | .bara f => lOk (.bara f) f
  | .barw f => lOk (.barw f) f
  | .ringp f => lOk (.ringp f) f
  | .ringpAfter f => lOk (.ringpAfter f) f
  | .ringw f => lOk (.ringw f) f
  | .ringf f => lOk (.ringf f) f
  | .launch f => lOk (.launch f) f
  | .emit f => lOk (.emit f) f
  | .take f => lOk (.take f) f
  | .qclose f => lOk (.qclose f) f
  | .grow f => lOk (.grow f) f
  | .shrink f => lOk (.shrink f) f
  | .chsend f => lOk (.chsend f) f
  | .chrecv f => lOk (.chrecv f) f
  | .redx f => lOk (.redx f) f
  | .redw f => lOk (.redw f) f
  | .rdsr f => lOk (.rdsr f) f
  | .wrsr f => lOk (.wrsr f) f
  | .tret f => lOk (.tret f) f
  | .tmset f => lOk (.tmset f) f
  | .balloonGive f => lOk (.balloonGive f) f
  | .balloonQuery f => lOk (.balloonQuery f) f
  | .dieset f => lOk (.dieset f) f
  | .memfsp f => lOk (.memfsp f) f
  | .halt => true
  | .movH h => !(h.b == 0 && h.d == 0 && h.e == 0)
  | .iaddH _ | .isubH _ | .iandH _ | .iorH _ | .ixorH _ | .ishlH _ | .ishrH _ | .faddH _
  | .fsubH _ | .fmulH _ | .fmaxH _ | .fminH _ | .caddH _ | .cmulH _ | .imulH _ => true
  | .movW r => wrOk (.movW r) r
  | .iaddW r => wrOk (.iaddW r) r
  | .isubW r => wrOk (.isubW r) r
  | .imulW r => wrOk (.imulW r) r
  | .iandW r => wrOk (.iandW r) r
  | .iorW r => wrOk (.iorW r) r
  | .ixorW r => wrOk (.ixorW r) r
  | .ishlW r => wrOk (.ishlW r) r
  | .ishrW r => wrOk (.ishrW r) r
  | .iminW r => wrOk (.iminW r) r
  | .imaxW r => wrOk (.imaxW r) r
  | .icmpW r => wrOk (.icmpW r) r
  | .faddW r => wrOk (.faddW r) r
  | .fsubW r => wrOk (.fsubW r) r
  | .fmulW r => wrOk (.fmulW r) r
  | .ffmaW r => wrOk (.ffmaW r) r
  | .fminW r => wrOk (.fminW r) r
  | .fmaxW r => wrOk (.fmaxW r) r
  | .fcmpW r => wrOk (.fcmpW r) r
  | .caddW r => wrOk (.caddW r) r
  | .csubW r => wrOk (.csubW r) r
  | .cmulW r => wrOk (.cmulW r) r
  | .cfmaW r => wrOk (.cfmaW r) r
  | .bflyW r => wrOk (.bflyW r) r
  | .twidW r => wrOk (.twidW r) r
  | .shflW r => wrOk (.shflW r) r
  | .shflxW r => wrOk (.shflxW r) r
  | .ldsW r => wrOk (.ldsW r) r
  | .stsW r => wrOk (.stsW r) r
  | .ldW r => wrOk (.ldW r) r
  | .stW r => wrOk (.stW r) r
  | .saddW r => wrOk (.saddW r) r
  | .ssubW r => wrOk (.ssubW r) r
  | .smovW r => wrOk (.smovW r) r
  | .scmpW r => wrOk (.scmpW r) r
  | .sandW r => wrOk (.sandW r) r
  | .sorW r => wrOk (.sorW r) r
  | .sshlW r => wrOk (.sshlW r) r
  | .sshrW r => wrOk (.sshrW r) r
  | .moviW _ | .smoviW _ | .iaddi _ | .saddi _ => true
  | .movhiW r | .smovhi r => moveHiOk r
  | .braW _ | .loopW _ | .divW _ => true
  | .callW r | .rcvW r => r.d5 == 0
  | .waitcW r => waitcWOk r
  | .exitW r => r.imm == 0
  | .encodingNotAnInstruction => false
  | _ => true

end Sys2Proof
end

