-- ==== Sys2Proof/Machine/Ops.lean ====
section
/-! DEFINITION. The named operations that instructions share: context events, taking a trap and returning from it,
divergence and reconvergence, the checking scoreboard, the checks of issue and the end of an instruction. -/

namespace Sys2Proof.Machine

/-- A strand's record, and its replacement. -/
def State.strand (s : State) (id : Nat) : Option Strand := tget s.strands id
def State.putStrand (s : State) (id : Nat) (st : Strand) : State := { s with strands := tput s.strands id st }
/-- A change of one strand. -/
def State.modStrand (s : State) (id : Nat) (g : Strand → Strand) : State :=
  match s.strand id with
  | some st => s.putStrand id (g st)
  | none => s

/-- Die, core and lane of a resident strand. -/
def Strand.d (st : Strand) : Nat := match st.loc with
  | some l => l.die
  | none => 0
def Strand.k (st : Strand) : Nat := match st.loc with
  | some l => l.core
  | none => 0
def Strand.ln (st : Strand) : Nat := match st.loc with
  | some l => l.lane
  | none => 0

/-- The strand is placed on a lane. -/
def Strand.resident (st : Strand) : Bool := st.loc.isSome && st.run != .exited && st.run != .pending

/-- The cause codes of R271. -/
def Cause.code : Cause → Nat
  | .illop => 0x01
  | .role => 0x02
  | .stackovf => 0x03
  | .stall => 0x04
  | .bkpt => 0x05
  | .trap => 0x06
  | .index => 0x07
  | .window => 0x08
  | .align => 0x09
  | .seedro => 0x0A
  | .scmerge => 0x0B
  | .chorphan => 0x0C
  | .timer => 0x0D
  | .expired => 0x10
  | .uncorr => 0x11
  | .page => 0x20
  | .perm => 0x21
  | .tabl => 0x22

/-- SR_CAUSE (R270). -/
def causeWord (c : Cause) (detail : Nat) (eng : Option Nat) : Word :=
  BitVec.ofNat 32 (c.code + 2 ^ 8 * (detail % 2 ^ 16) + match eng with
    | some p => 2 ^ 28 * (p % 8) + 2 ^ 31
    | none => 0)

/-- Marks every resident strand of a context to be saved (R259). -/
def State.stopStrands (s : State) (n : Nat) : State :=
  { s with strands := s.strands.map fun e => if e.2.ctx == n && e.2.resident then (e.1, { e.2 with stop := true }) else e }

/-- Writes the event messages that a context owes, once no strand waits to be saved (R272). -/
def State.payOwed (s : State) (n : Nat) : State :=
  let x := s.ctx n
  if x.owed = 0 ∨ s.strands.any (fun e => e.2.ctx == n && e.2.stop && e.2.resident) then s
  else
    let s := s.devPuts x.evtAddr.toNat (leBytes 4 x.evtData.toNat) n
    s.modCtx n fun x => { x with owed := 0 }

/-- A context event (R272): bits 0 to 2 stop an Active or Suspended context (R256); a bit that was clear sends the
message. -/
def State.ctxEvent (s : State) (n bit : Nat) : State :=
  if noCtx ≤ n then s
  else
    let x := s.ctx n
    let fresh := !x.event.getLsbD bit
    let s := s.modCtx n fun x => { x with
      event := x.event ||| (1#32 <<< bit), owed := if fresh then x.owed + 1 else x.owed }
    let s := if bit ≤ 2 ∧ (x.state = 2 ∨ x.state = 3) then
        (s.modCtx n fun x => { x with state := 4 }).stopStrands n
      else s
    s.payOwed n

/-- A pending asynchronous trap's place in the order of R274. -/
def Cause.rank : Cause → Nat
  | .uncorr => 0
  | .expired => 1
  | .scmerge => 2
  | .chorphan => 3
  | _ => 4

/-- A demotion ends; a strand that is not demoted keeps its record (R317). -/
def Spin.leave (sp : Spin) : Spin := if sp.demoted then Spin.empty else sp

/-- A PC has bit 0 clear, whatever CTX_TVEC holds (R80). -/
def evenPc (t : DWord) : DWord := t &&& ~~~1#64

/-- Takes a trap of the class "handler" (R275): the frame, SR_EPC, SR_EMASK and SR_CAUSE are written, RPC is made invalid
and the pc goes to the context's trap vector. A nested trap, or a context without a vector, raises HFAULT instead: the
strand stays as it stood before the trapping instruction, in `s0`. `s1` and `st` hold what that instruction has done. -/
def State.takeTrap (s0 s1 : State) (id : Nat) (st : Strand) (t : TrapInfo) (rs : Option Resume) : State :=
  let x := s0.ctx st.ctx
  if st.frame.isSome ∨ x.tvec = 0 then s0.ctxEvent st.ctx 2
  else
    let fr : Frame :=
      { epc0 := t.epc, emask0 := t.emask, depth := st.stack.length, rpc := st.rpc, rpcv := st.rpcv, resume := rs,
        firstOp := st.nextOp }
    s1.putStrand id { st with
      epc := t.epc, emask := t.emask.zeroExtend 32, cause := causeWord t.cause t.detail t.eng, frame := some fr,
      rpcv := false, pc := evenPc x.tvec, resume := none, runCount := 0, spin := st.spin.leave, run := .running,
      hold := none, stalled := false }

/-- The element at which the strand's instruction resumes, and the boundaries that are kept under it (R76, R199). -/
def Strand.elemNow (st : Strand) : Nat := match st.resume with
  | some r => r.elem
  | none => 0
def Strand.keptNow (st : Strand) : List (DWord × Nat × Mask) := match st.resume with
  | some r => r.kept
  | none => []

/-- A trap raised at issue (R76): no state of the instruction has changed. -/
def State.trapAtIssue (s : State) (id : Nat) (st : Strand) (c : Cause) (detail : Nat) (emask : Mask) : State :=
  s.takeTrap s id st { cause := c, epc := st.pc, emask := emask, detail := detail, eng := none }
    (some { elem := st.elemNow, mask := emask, kept := st.keptNow, upto := none })

/-- A per-thread trap (R76): element e, the threads not yet done. -/
def State.trapAtThread (s0 s1 : State) (id : Nat) (st : Strand) (c : Cause) (detail e : Nat) (emask : Mask) : State :=
  s0.takeTrap s1 id st { cause := c, epc := st.pc, emask := emask, detail := detail, eng := none }
    (some { elem := e, mask := emask, kept := st.keptNow, upto := none })

/-- The strand takes this pending trap at the present boundary: in Handler only those that the handler itself has raised
(R274). -/
def Strand.pendNow (st : Strand) (p : Pend) : Bool :=
  match st.frame with
  | none => true
  | some fr => (p.info.cause == .scmerge || p.reissue) && decide (fr.firstOp ≤ p.op)

/-- The pending trap that the boundary takes first (R274). -/
def Strand.firstPend (st : Strand) : Option Pend :=
  (st.pend.filter st.pendNow).foldl (fun b p => match b with
    | none => some p
    | some q => if p.info.cause.rank < q.info.cause.rank then some p else b) none

/-- Takes the pending asynchronous trap that comes first (R274): the boundary is kept in the frame, and a load that is
re-issued returns to it (R199). A trap that raises HFAULT stays pending (R275). -/
def State.takePend (s : State) (id : Nat) : State :=
  match s.strand id with
  | none => s
  | some st =>
    match st.firstPend with
    | none => s
    | some p =>
      let here : Resume := match st.resume with
        | some r => r
        | none => { elem := 0, mask := 0xFFFF, kept := [], upto := none }
      let rs : Resume := if p.reissue then
          { elem := 0, mask := p.info.emask, kept := (st.pc, here.elem, here.mask) :: here.kept, upto := none }
        else here
      let info := match p.info.cause with
        | .scmerge => p.info
        | _ => if p.reissue then p.info else { p.info with epc := st.pc, emask := st.mask &&& here.mask }
      s.takeTrap s id { st with pend := st.pend.erase p } info (some rs)

/-- When armed and due, TIMER becomes pending outside Handler and Faulted; a Waiting strand is made Ready (R269). -/
def State.timerDue (s : State) (id : Nat) : State :=
  match s.strand id with
  | none => s
  | some st =>
    if st.resident && st.tarmed && decide (st.tcmp.toNat ≤ st.tmr.toNat) && st.frame.isNone && st.run != .faulted &&
        st.run != .draining then
      let run := match st.run with
        | .waiting _ _ => .ready
        | r => r
      s.putStrand id { st with
        tarmed := false, run := run,
        pend := st.pend ++ [{ info := { cause := .timer, epc := st.pc, emask := st.mask, detail := 0, eng := none },
                              reissue := false, op := 0 }] }
    else s

/-! Divergence and reconvergence (R65 to R70, R143 to R145). -/

/-- The scoreboard's scalar part, which belongs to a path (R145). -/
def rdyScalars (r : Tab (List Ready)) : Tab (List Ready) := r.filter fun e => decide (128 ≤ e.1) && decide (e.1 < 192)
/-- Replaces the scalar part. -/
def rdyWith (r sc : Tab (List Ready)) : Tab (List Ready) :=
  sc.foldl (fun l e => tput l e.1 e.2) (r.filter fun e => decide (e.1 < 128) || decide (192 ≤ e.1))

/-- The state of the running path. -/
def Strand.path (st : Strand) : PathSt :=
  { low := st.low, s := st.s, written := st.written, rdy := rdyScalars st.rdy, due := st.due }
/-- The strand on another path. -/
def Strand.onPath (st : Strand) (p : PathSt) : Strand :=
  { st with low := p.low, s := p.s, written := p.written, rdy := rdyWith st.rdy p.rdy, due := p.due }

/-- The deferred entries above the innermost closing record, that record and the rest. -/
def splitStack : List StackEntry → List StackEntry × Option StackEntry × List StackEntry
  | [] => ([], none, [])
  | .deferred a b c d e :: r =>
    let (x, y, z) := splitStack r
    (.deferred a b c d e :: x, y, z)
  | .closing a b c d :: r => ([], some (.closing a b c d), r)

/-- The reconvergence PC of the innermost closing record (R143). -/
def innerRpc (stk : List StackEntry) : Option DWord :=
  match (splitStack stk).2.1 with
  | some (.closing rpc _ _ _) => some rpc
  | _ => none

/-- The mask of a stack entry. -/
def StackEntry.mask : StackEntry → Mask
  | .deferred _ m _ _ _ => m
  | .closing _ _ _ ar => ar.foldl (fun a x => a ||| x.mask) 0

/-- EXIT removes threads from every stack entry (R70). -/
def StackEntry.remove (m : Mask) : StackEntry → StackEntry
  | .deferred pc k rpc fmt p => .deferred pc (k &&& ~~~m) rpc fmt p
  | .closing rpc fmt o ar => .closing rpc fmt o (ar.map fun a => { a with mask := a.mask &&& ~~~m })

/-- A change of every path that a stack entry holds. -/
def StackEntry.mapPaths (g : PathSt → PathSt) : StackEntry → StackEntry
  | .deferred pc k rpc fmt p => .deferred pc k rpc fmt (g p)
  | .closing rpc fmt o ar => .closing rpc fmt (g o) (ar.map fun a => { a with path := g a.path })

/-- Every earlier result counts as ready, on every path (R105). -/
def Strand.allReady (st : Strand) : Strand :=
  { st with rdy := [], stack := st.stack.map (·.mapPaths fun p => { p with rdy := [] }) }

/-- The deferred path that runs next: the one with the lowest-numbered thread (R66). -/
def nextPath (l : List StackEntry) : Option StackEntry :=
  match l with
  | [] => none
  | e :: r => some (r.foldl (fun a b => if mLow b.mask < mLow a.mask then b else a) e)

/-- Arrived paths in the order of R66: by the lowest-numbered threads with which they began (R143). -/
def insertArrival (a : Arrival) : List Arrival → List Arrival
  | [] => [a]
  | b :: r => if a.path.low ≤ b.path.low then a :: b :: r else b :: insertArrival a r

/-- A scalar of a merged path (R67, R145): its value, its readiness and the results that are still to arrive in it; `some` of
the writers differ. -/
structure Merged where
  val : Word
  differ : Bool
  rdy : Option (List Ready)
  due : List (Nat × Nat)

/-- What a path holds in scalar n. -/
def PathSt.scalar (p : PathSt) (n : Nat) (differ : Bool) : Merged :=
  { val := cget p.s n, differ := differ, rdy := tget p.rdy (regS n), due := p.due.filter fun d => d.2 == n }

/-- The merged value of scalar n (R67). -/
def mergeOne (outer : PathSt) (ar : List Arrival) (n : Nat) : Merged :=
  match ar.filter fun a => a.path.written.getLsbD n with
  | [] => outer.scalar n false
  | a :: r => a.path.scalar n (r.any fun b => cget b.path.s n != cget a.path.s n)

/-- The merge at a reconvergence PC (R67, R68): the strand goes on there, on the path that diverged, with the threads of every
arrived path. The second part is the lowest register whose writers differed. -/
def Strand.merge (st : Strand) (rpc : DWord) (fmt : Word) (outer : PathSt) (ar : List Arrival) (rest : List StackEntry) :
    Strand × Option Nat :=
  let ms := (List.range 64).map fun n => (n, mergeOne outer ar n)
  let diff := (ms.find? fun m => m.2.differ).map (·.1)
  let st := st.onPath
    { low := outer.low, s := ms.foldl (fun c m => cput c m.1 m.2.val) [],
      written := ar.foldl (fun a x => a ||| x.path.written) outer.written,
      rdy := ms.filterMap fun m => m.2.rdy.map fun r => (regS m.1, r), due := ms.flatMap fun m => m.2.due }
  ({ st with
      pc := rpc, mask := ar.foldl (fun a x => a ||| x.mask) 0, fmt := fmt, stack := rest,
      sts := if diff.isSome then st.sts ||| stsSC else st.sts, cyc := st.cyc + 2 }, diff)

/-- Ends paths at reconvergence PCs, pops deferred paths and merges, until the strand stands at an instruction to issue
(R66, R70, R143, R145); `fuel` bounds the stack's entries. Differing merges are gathered. -/
def Strand.settleGo : Nat → Strand → List Nat → Strand × List Nat
  | 0, st, df => (st, df)
  | fuel + 1, st, df =>
    match splitStack st.stack with
    | (dfr, some (.closing rpc fmt outer ar), rest) =>
      if st.mask != 0 && st.pc != rpc then (st, df)
      else
        let ar := if st.mask = 0 then ar else insertArrival { mask := st.mask, path := st.path } ar
        match nextPath (dfr.filter fun e => e.mask != 0) with
        | some (.deferred pc m r f p) =>
          let left := dfr.filter fun e => e.mask != 0 && e != .deferred pc m r f p
          let st := st.onPath p
          Strand.settleGo fuel { st with
            pc := pc, mask := m, fmt := fmt, stack := left ++ .closing rpc fmt outer ar :: rest, cyc := st.cyc + 2 } df
        | _ =>
          let ar := ar.filter fun a => a.mask != 0
          if ar.isEmpty then
            Strand.settleGo fuel { st.onPath outer with mask := 0, stack := rest } df
          else
            let (st, d) := st.merge rpc fmt outer ar rest
            Strand.settleGo fuel st (match d with
              | some n => df ++ [n]
              | none => df)
    | _ => (st, df)

/-- The context's scalar-conflict trap is enabled (R254). -/
def State.scTrap (s : State) (n : Nat) : Bool := (s.ctx n).cfg.getLsbD 5
/-- The context's checking scoreboard is enabled (R254). -/
def State.score (s : State) (n : Nat) : Bool := (s.ctx n).cfg.getLsbD 4
/-- The context may execute privileged instructions (R254). -/
def State.priv (s : State) (n : Nat) : Bool := (s.ctx n).cfg.getLsbD 6

/-- A pending SCMERGE at the merged strand's boundary (R67). -/
def Strand.pendMerge (st : Strand) (n : Nat) : Strand :=
  { st with
    nextOp := st.nextOp + 1,
    pend := st.pend ++ [{
      info := { cause := .scmerge, epc := st.pc, emask := st.mask, detail := n, eng := none }, reissue := false,
      op := st.nextOp }] }

/-- Settles a strand; a differing merge raises SCMERGE where the context enables it (R67). -/
def State.settle (s : State) (st : Strand) : Strand :=
  let (st, df) := Strand.settleGo 64 st []
  if s.scTrap st.ctx then df.foldl (fun st n => st.pendMerge n) st else st

/-- The strand on the first path that runs, or with none running (R143); `none` when the stack would exceed 24 entries (R69). -/
def Strand.firstOf (st : Strand) (go : List (DWord × Mask)) (w : BitVec 64) (fmt : Word) (stack : List StackEntry) : Option Strand :=
  if stack.length > 24 then none
  else
    match go with
    | p :: _ => some { st with
        pc := p.1, mask := p.2, low := mLow p.2, written := w, fmt := fmt, stack := stack, rpcv := false }
    | [] => some { st with pc := st.rpc, mask := 0, written := w, fmt := fmt, stack := stack, rpcv := false }

/-- A divergence of the active threads into paths in ascending order of lowest thread (R65, R66, R143, R144); `none` when
the stack would exceed 24 entries (R69). -/
def Strand.diverge (st : Strand) (paths : List (DWord × Mask)) : Option Strand :=
  let rpc := st.rpc
  let arrive := paths.filter fun p => p.1 == rpc
  let go := paths.filter fun p => p.1 != rpc
  let (dfr, rc, rest) := splitStack st.stack
  let join := match rc with
    | some (.closing r _ _ _) => r == rpc
    | _ => false
  let w := if join then st.written else 0
  let sub (m : Mask) : PathSt := { st.path with low := mLow m, written := w }
  let newArr (ar : List Arrival) : List Arrival :=
    arrive.foldl (fun a p => insertArrival { mask := p.2, path := sub p.2 } a) ar
  let fmt := match rc with
    | some (.closing _ f _ _) => if join then f else st.fmt
    | _ => st.fmt
  let dpaths := (go.drop 1).map fun p => StackEntry.deferred p.1 p.2 rpc fmt (sub p.2)
  let stack := if join then
      match rc with
      | some (.closing r f o ar) => dfr ++ dpaths ++ .closing r f o (newArr ar) :: rest
      | _ => st.stack
    else dpaths ++ .closing rpc fmt st.path (newArr []) :: st.stack
  st.firstOf go w fmt stack

/-! The checking scoreboard (R103 to R106). -/

/-- The read of thread t's slot by the same thread at cycle c sees the result (R104). -/
def Ready.seenOwn (r : Ready) (t c : Nat) : Bool :=
  if r.own then decide (r.base + r.o * t + r.depth ≤ c) else decide (r.base + r.depth + 1 ≤ c)
/-- Any other read at cycle c sees the result (R104). -/
def Ready.seen (r : Ready) (c : Nat) : Bool :=
  if r.own then decide (r.base + r.o * 15 + r.depth + 1 ≤ c) else decide (r.base + r.depth + 1 ≤ c)

/-- Earlier producers of a register no longer stand for these threads. -/
def rdyDrop (l : Tab (List Ready)) (reg : Nat) (m : Mask) : Tab (List Ready) :=
  match tget l reg with
  | none => l
  | some old =>
    let left := (old.map fun q => { q with mask := q.mask &&& ~~~m }).filter fun q => q.mask != 0
    if left.isEmpty then tdel l reg else tput l reg left

/-- Records a producer for a register, in place of earlier ones of the same threads. -/
def rdyPut (l : Tab (List Ready)) (reg : Nat) (r : Ready) : Tab (List Ready) :=
  let l := rdyDrop l reg r.mask
  tput l reg (r :: (tget l reg).getD [])

/-- The instruction executes once for the strand, on behalf of all threads (R58). -/
def uniform (sp : OpSpec) (f : LFields) : Bool := sp.u == 0 && f.u == 1 && sp.mode == .perThread

/-- How the fields are read: per thread, per element, or once (R103). -/
def readMode (sp : OpSpec) (f : LFields) : Mode := if uniform sp f then .once else sp.mode

/-- Elements that the instruction processes (R59). -/
def elems (sp : OpSpec) (f : LFields) : Nat := if sp.ext = 1 then blockLen f else 1

/-- Occupancy (R59, R103, R107). -/
def occupancy (sp : OpSpec) (f : LFields) : Nat :=
  match readMode sp f with
  | .once => if uniform sp f then 1 else sp.o
  | _ => sp.o * 16 * elems sp f

/-- Depth (R107): 0 where a result has no depth, because it follows the counters of R71 or is ready with no stall count. -/
def depthOf (sp : OpSpec) (f : LFields) : Nat := if uniform sp f && sp.depth != 0 then 3 else sp.depth

/-- The four operand fields with their rules, numbered as STALL's DETAIL numbers them (R271). -/
def fields (sp : OpSpec) (f : LFields) : List (Nat × Fld × Nat) :=
  [(0, sp.d, f.d.toNat), (1, sp.a, f.a.toNat), (2, sp.b, f.b.toNat), (3, sp.c, f.c.toNat)]

/-- The index register of an indirect operand. -/
def indexReg (r : Fld) (x : Nat) : List Nat := if isInd r x then [regX (x - 0xC0)] else []

/-- Every register that a field names, over all elements. -/
def Strand.allRegs (st : Strand) (sp : OpSpec) (f : LFields) (r : Fld) (x : Nat) (m : Mask) : List Nat :=
  indexReg r x ++ (List.range (elems sp f)).flatMap fun e => st.fieldRegs f r x m e

/-- The threads whose slots the instruction's fields read: those admitted, of a uniform execution the lowest of them (R58), of
an instruction that reads all 16 slots every one, and with them thread 0 where the row says so (R175). -/
def readMask (sp : OpSpec) (f : LFields) (adm : Mask) : Mask :=
  if adm = 0 then 0
  else if sp.all then 0xFFFF
  else (if uniform sp f then 1#16 <<< mLow adm else adm) ||| (if sp.t0 then 1 else 0)

/-- A read, other than a thread's own of its slot, of these threads' slots in cycle c sees its results (R104). -/
def Strand.seenAt (st : Strand) (m : Mask) (c reg : Nat) : Bool :=
  ((tget st.rdy reg).getD []).all fun q => (q.mask &&& m) == 0 || q.seen c

/-- One field's reads see their results (R104): `m` are the threads whose slots it reads. -/
def Strand.fieldReady (st : Strand) (sp : OpSpec) (f : LFields) (m : Mask) (r : Fld) (x : Nat) : Bool :=
  let p := st.cyc
  (indexReg r x).all (st.seenAt m p) &&
  (List.range (elems sp f)).all fun e =>
    (st.fieldRegs f r x m e).all fun reg =>
      if 128 ≤ reg ∧ reg < 192 then st.seenAt 0xFFFF p reg
      else match readMode sp f with
        | .perThread => ((tget st.rdy reg).getD []).all fun q =>
            (List.range 16).all fun t => !mHas (q.mask &&& m) t || q.seenOwn t (p + sp.o * (16 * e + t))
        | .cross => st.seenAt 0xFFFF (p + sp.o * 16 * e) reg
        | .block => st.seenAt 0xFFFF p reg
        | .once => st.seenAt m p reg

/-- The guard's rule as a field. -/
def fguard : Fld := fs .q 1 1

/-- The first operand field whose requirement is not met (R105, R271). -/
def Strand.stallField (st : Strand) (sp : OpSpec) (f : LFields) (adm : Mask) : Option Nat :=
  let spG := { sp with ext := 0 }
  match (fields sp f).find? fun q => q.2.1.rd && !st.fieldReady sp f (readMask sp f adm) q.2.1 q.2.2 with
  | some q => some q.1
  | none =>
    if !st.fieldReady spG f st.mask fguard f.g6.toNat then some 4
    else
      let be := (if sp.bexp ≥ 1 then [fmtAEXP st.fmt] else []) ++ (if sp.bexp ≥ 2 then [fmtBEXP st.fmt] else [])
      if be.all fun n => ((tget st.rdy (regS n)).getD []).all fun q => q.seen st.cyc then none else some 6

/-- Registers of operations in flight (R106). -/
def Strand.outstanding (st : Strand) : List Nat := st.ops.flatMap (·.dests)

/-- Every register that an instruction reads or writes through its fields, its guard and fmt. -/
def Strand.usedRegs (st : Strand) (sp : OpSpec) (f : LFields) (adm : Mask) : List Nat :=
  (fields sp f).flatMap (fun q =>
    (if q.2.1.rd then st.allRegs sp f q.2.1 q.2.2 (readMask sp f adm) else []) ++
    (if q.2.1.wr then st.allRegs sp f q.2.1 q.2.2 adm else [])) ++
  st.fieldRegs f fguard f.g6.toNat adm 0 ++
  (if sp.bexp ≥ 1 then [regS (fmtAEXP st.fmt)] else []) ++ (if sp.bexp ≥ 2 then [regS (fmtBEXP st.fmt)] else [])

/-- The registers that an instruction writes through its fields. -/
def Strand.writtenRegs (st : Strand) (sp : OpSpec) (f : LFields) (adm : Mask) : List Nat :=
  (fields sp f).flatMap fun q => if q.2.1.wr then
    (List.range (elems sp f)).flatMap fun e => st.fieldRegs f q.2.1 q.2.2 adm e else []

/-- When the results that the instruction leaves in a register in element e are ready (R103). -/
def Strand.resultAt (st : Strand) (sp : OpSpec) (f : LFields) (adm : Mask) (e reg : Nat) : Ready :=
  let p := st.cyc
  let dep := depthOf sp f
  let sc := decide (128 ≤ reg) && decide (reg < 192)
  match readMode sp f with
  | .once => { mask := if sc then 0xFFFF else adm, own := false, base := p, o := 0, depth := dep }
  | _ =>
    if sc then { mask := 0xFFFF, own := false, base := p + 15 * sp.o, o := 0, depth := dep }
    else { mask := adm, own := true, base := p + sp.o * 16 * e, o := sp.o, depth := dep }

/-- The scoreboard after the instruction's results (R103): a result without a depth only ends its register's earlier
producers. -/
def Strand.score (st : Strand) (sp : OpSpec) (f : LFields) (adm : Mask) : Tab (List Ready) :=
  if adm = 0 then st.rdy
  else
    (fields sp f).foldl (fun l q =>
      if !q.2.1.wr then l
      else (List.range (elems sp f)).foldl (fun l e =>
        (st.fieldRegs f q.2.1 q.2.2 adm e).foldl (fun l reg =>
          let r := st.resultAt sp f adm e reg
          if r.depth = 0 then rdyDrop l reg r.mask else rdyPut l reg r) l) l) st.rdy

/-! Issue. -/

/-- An instruction that has passed the checks of issue: its strand, the threads that its guard admits and its length. -/
structure Issued where
  id : Nat
  st : Strand
  adm : Mask
  deriving DecidableEq, Repr

/-- The outcome of the checks of issue. -/
inductive Issue where
  | out (o : Host.Outcome State Fault Refusal)
  | go (x : Issued)

/-- SR_EMASK of a trap raised at issue: the active, guard-admitted threads (R76). -/
def Strand.issueMask (st : Strand) (f : LFields) : Mask := if f.g6.toNat < 48 then st.admitted f else st.mask

/-- The strand's role may execute the instruction (R274, R282). -/
def OpSpec.roleOk (sp : OpSpec) (role : Nat) : Bool := match sp.role with
  | some r => r == role
  | none => true

/-- The threads at the strand's boundary for which its instruction still stands (R76). -/
def Strand.left (st : Strand) (m : Mask) : Mask := match st.resume with
  | some r => m &&& r.mask
  | none => m
/-- The threads of the instruction at the strand's boundary: active and admitted; a condition admits every thread (R95, R141). -/
def Strand.allNow (st : Strand) (sp : OpSpec) (f : LFields) : Mask := if sp.cond then st.mask else st.issueMask f
/-- The threads for which it executes: with one element, those not yet done (R57, R76). -/
def Strand.nowAdm (st : Strand) (sp : OpSpec) (f : LFields) : Mask :=
  if elems sp f = 1 then st.left (st.allNow sp f) else st.allNow sp f

/-- R60 and R61: every vector register that a field names lies below the allocation. -/
def Strand.allocOk (st : Strand) (sp : OpSpec) (f : LFields) : Bool :=
  let sp1 := if sp.ext = 1 then blockSpan f else 0
  (fields sp f).all fun q => match q.2.1.k with
    | .vx | .v | .any | .vsk | .vs | .vxs | .idx =>
      decide (0x80 ≤ q.2.2) || decide (q.2.2 + (if q.2.1.block then sp1 else q.2.1.n - 1) < st.alloc)
    | _ => true

/-- R60: no source block shares a register with the destination block at another element. -/
def overlapOk (sp : OpSpec) (f : LFields) : Bool :=
  let n := elems sp f
  let d := f.d.toNat
  if n = 1 ∨ !sp.d.wr ∨ d ≥ 0x80 then true
  else
    [(sp.a, f.a.toNat), (sp.b, f.b.toNat), (sp.c, f.c.toNat)].all fun q =>
      !q.1.rd || (q.1.n == 1 && !q.1.block) || decide (0x80 ≤ q.2) || (match q.1.k with
        | .q | .q1 | .raw | .lit _ _ => true
        | _ => (List.range n).all fun e => (List.range n).all fun g =>
            e == g || q.2 + blockOff f e != d + blockOff f g)

/-- The checks that precede execution, in the order of R274: encoding (ILLOP, DETAIL 0), privilege (1), allocation (2),
the entry's own ILLOP checks, role, then the scoreboard (R105) and outstanding registers (R106). An instruction resumed
with no thread left does nothing (R76). -/
def issue (i : Instr) (sp : OpSpec) (f : LFields) (pre : Strand → Mask → Option Nat) (s : State) : Issue :=
  match s.cur with
  | none => .out (.fault .noStrand)
  | some id =>
    match s.strand id with
    | none => .out (.fault .noStrand)
    | some st =>
      let em := st.left (st.allNow sp f)
      let adm := st.nowAdm sp f
      let trap (c : Cause) (n : Nat) : Issue := .out (.next (s.trapAtIssue id st c n em))
      if st.resume.isSome && em == 0 && elems sp f == 1 then .go { id := id, st := st, adm := 0 }
      else if !wellFormed i then trap .illop 0
      else if sp.priv && !s.priv st.ctx then trap .illop 1
      else if !st.allocOk sp f then trap .illop 2
      else if !overlapOk sp f then trap .illop 0
      else match pre st adm with
        | some n => trap .illop n
        | none =>
          if !sp.roleOk st.role then trap .role 0
          else
            let out := st.outstanding
            let busy := (st.usedRegs sp f adm).any fun r => out.contains r
            if s.score st.ctx then
              match st.stallField sp f adm with
              | some n => trap .stall n
              | none => if busy then trap .stall 5 else .go { id := id, st := st, adm := adm }
            else if busy then .out (.next (s.putStrand id { st with stalled := true }))
            else .go { id := id, st := st, adm := adm }

/-- No check beyond the common ones. -/
def noPre (_ : Strand) (_ : Mask) : Option Nat := none

/-! The end of an instruction. -/

/-- What the spin detector hashes: the registers written in the iteration with the values in the active threads (R317). -/
def Strand.spinValues (st : Strand) (regs : List Nat) : List Nat :=
  regs.flatMap fun r =>
    r :: (if r < 128 then ((List.range 16).filter (mHas st.mask)).map fun t => (st.vget r t).toNat
      else if r < 192 then [(st.sget (r - 128)).toNat]
      else if r < 240 then [(st.qget (r - 192) &&& st.mask).toNat]
      else ((List.range 16).filter (mHas st.mask)).map fun t => (st.xget (r - 240) t).toNat)

/-- A transfer of control: the target, and whether the spin detector counts it as a branch (BRA, LOOP, BRX). -/
structure Xfer where
  target : DWord
  branch : Bool
  deriving DecidableEq, Repr

/-- What the iteration behind a branch wrote, newest instruction first, back to the latest execution of the target (R317); none
when that is more than 64 instructions. -/
def iteration (target : Nat) : List (Nat × List Nat × List Nat) → Option (List (Nat × List Nat × List Nat))
  | [] => none
  | e :: r => if e.1 = target then some [e] else (iteration target r).map (e :: ·)

/-- The spin detector's step at the end of an instruction (R317); `st` is the strand after the instruction, still at its
pc, and `now` the cycle of its core's clock. -/
def Strand.spinStep (st : Strand) (now : Nat) (wr : List Nat) (tr : Option Xfer) : Spin :=
  let pc := st.pc.toNat
  let sp := if st.spin.demoted && (decide (pc < st.spin.target) || decide (st.spin.branch < pc)) then Spin.empty else st.spin
  let trace := ((pc, wr, st.spinValues wr) :: sp.trace).take 64
  match tr with
  | none => { sp with trace := trace }
  | some x =>
    let same := decide (1 ≤ sp.takings) && sp.branch == pc && sp.target == x.target.toNat
    if !x.branch || decide (pc < x.target.toNat) then { sp.leave with trace := trace }
    else
      match iteration x.target.toNat trace with
      | none => { Spin.empty with trace := trace }
      | some es =>
        let regs := es.foldl (fun l e => e.2.1.foldl (fun l r => if l.contains r then l else l ++ [r]) l) []
        let vals := es.flatMap (·.2.2) ++ st.spinValues regs
        let held := same && (vals == sp.last || Config.spinHash vals == Config.spinHash sp.last)
        let n := if held then sp.takings + 1 else 1
        { branch := pc, target := x.target.toNat, takings := n, last := vals, trace := trace,
          demoted := decide (17 ≤ n), since := if sp.demoted && held then sp.since else now }

/-- The lane stops running the strand. -/
def State.freeLane (s : State) (st : Strand) (id : Nat) (implicit : Bool) : State :=
  s.modCore st.d st.k fun x => match tget x.lanes st.ln with
    | some l => { x with lanes := tput x.lanes st.ln { l with
        running := if l.running == some id then none else l.running,
        implicitEnds := l.implicitEnds + if implicit then 1 else 0 } }
    | none => x

/-- How an instruction ends: length, E, stall count, occupancy, registers written, transfer, and whether the run ends with
it (R102, R103, R108). -/
structure Done where
  len : Nat
  e : Bool
  stall : Nat
  occ : Nat
  wr : List Nat
  xfer : Option Xfer
  ends : Bool
  deriving DecidableEq, Repr

/-- Where a strand stands after the instruction at its pc: past it, at the target, at the boundary kept for a re-issued load
(R199), or still at it, before the element at which the turn ends (R79). -/
def Strand.advance (st : Strand) (len : Nat) (xfer : Option Xfer) : Strand :=
  match xfer with
  | some x => { st with pc := x.target, resume := none }
  | none =>
    match st.resume with
    | some { kept := (pc, e, m) :: r, .. } =>
      { st with pc := pc, resume := some { elem := e, mask := m, kept := r, upto := none } }
    | _ => { st with pc := st.pc + BitVec.ofNat 64 len, resume := none }

/-- The run ends with the instruction: by E, by what the instruction is, or as the 24th of the run (R102). -/
def Strand.runOver (st : Strand) (dn : Done) : Bool := decide (24 ≤ st.runCount + 1) || dn.e || dn.ends
/-- The run ends by its length alone (R102). -/
def Strand.runFull (st : Strand) (dn : Done) : Bool := decide (24 ≤ st.runCount + 1) && !dn.e && !dn.ends

/-- The strand behind an instruction: the pc as `adv` moves it, the run, the scoreboard's cycle and the spin detector; `now` is
the cycle of the core's clock. -/
def Strand.behind (st : Strand) (now : Nat) (dn : Done) (adv : Strand → Strand) : Strand :=
  { adv st with
    spin := st.spinStep now dn.wr dn.xfer, hold := none, stalled := false,
    cyc := st.cyc + dn.occ + dn.stall + (if dn.xfer.isSome then 2 else 0),
    runCount := if st.runOver dn then 0 else st.runCount + 1,
    run := if st.runOver dn then .ready else st.run, waitCount := if st.runOver dn then 0 else st.waitCount,
    sts := if st.runFull dn then st.sts ||| stsRE else st.sts }

/-- The instruction ends: the pc moves on as `adv` says, the scoreboard's cycle advances, the run ends where R102 says, and
the strand settles at a reconvergence PC. `st` is the strand with the instruction's effects, still at its pc. -/
def State.retireWith (s : State) (id : Nat) (st : Strand) (dn : Done) (adv : Strand → Strand) : State :=
  let s1 := if st.runOver dn then s.freeLane st id (st.runFull dn) else s
  s1.putStrand id (s.settle (st.behind (s.die st.d).clk dn adv))

/-- The instruction ends at its ordinary successor or its target. -/
def State.retire (s : State) (id : Nat) (st : Strand) (dn : Done) : State :=
  s.retireWith id st dn fun st => st.advance dn.len dn.xfer

/-- The end of an L instruction with the row's timing. -/
def doneOf (sp : OpSpec) (f : LFields) (len : Nat) (wr : List Nat) : Done :=
  { len := len, e := f.e == 1, stall := f.s4.toNat, occ := occupancy sp f, wr := wr, xfer := none, ends := false }

/-- The element before which the turn ends, inside the block at the strand's boundary (R79). -/
def Strand.cutAt (st : Strand) : Option Nat := st.resume.bind (·.upto)

/-- A strand that a turn leaves at the boundary before element e of the block at its pc (R79). -/
def Strand.atElem (st : Strand) (e : Nat) : Strand :=
  { st with resume := some { elem := e, mask := 0xFFFF, kept := st.keptNow, upto := none } }

/-- Retires an instruction whose fields name its results: `st` holds its effects. A turn that ends inside a block leaves the
strand at the element boundary (R79). -/
def State.finish (s : State) (x : Issued) (sp : OpSpec) (f : LFields) (len : Nat) (st : Strand) : State :=
  match x.st.cutAt with
  | some e => s.putStrand x.id (st.atElem e)
  | none => s.retire x.id { st with rdy := x.st.score sp f x.adm } (doneOf sp f len (x.st.writtenRegs sp f x.adm))

/-- A strand-once instruction: `g` gives the strand with its effects, unless no active thread is admitted (R95). -/
def execOnce (i : Instr) (sp : OpSpec) (f : LFields) (len : Nat) (pre : Strand → Mask → Option Nat)
    (g : Issued → Strand) (s : State) : Host.Outcome State Fault Refusal :=
  match issue i sp f pre s with
  | .out o => o
  | .go x => .next (s.finish x sp f len (if x.adm = 0 then x.st else g x))

/-- Enters Waiting (R78): the run ends; the waiting instruction completes when its condition holds. -/
def State.enterWait (s : State) (x : Issued) (st : Strand) (sp : OpSpec) (f : LFields) (len : Nat) (w : Wait) : State :=
  let s := s.freeLane st x.id false
  let s := { s with seqNo := s.seqNo + 1 }
  s.putStrand x.id { st with
    run := .waiting w len, waitSeq := s.seqNo, runCount := 0, spin := st.spin.leave, hold := none, stalled := false,
    cyc := st.cyc + occupancy sp f + f.s4.toNat, rdy := x.st.score sp f x.adm, resume := none }

/-- A waiting instruction completes: the strand stands after it and is Ready (R78). -/
def State.wakeAt (s : State) (id : Nat) (st : Strand) (len : Nat) : State :=
  s.putStrand id (s.settle { st with pc := st.pc + BitVec.ofNat 64 len, run := .ready, waitCount := 0, resume := none })

/-! Return from a trap (R276). -/

/-- A target taken from a register (R138): WINDOW, then ALIGN. -/
def badTarget (t : DWord) : Option Cause :=
  if t.toNat / 2 ^ 48 != 0 then some .window else if t.toNat % 2 == 1 then some .align else none

/-- The strand after TRET: RPC restored, and the point at which it resumes (R276). -/
def Strand.tret (st : Strand) (fr : Frame) : Strand :=
  let st := { st.allReady with rpc := fr.rpc, rpcv := fr.rpcv, frame := none }
  if st.epc = fr.epc0 then
    let m := st.emask.truncate 16 &&& fr.emask0
    let elem := match fr.resume with
      | some r => r.elem
      | none => 0
    let kept := match fr.resume with
      | some r => r.kept
      | none => []
    { st with pc := fr.epc0, resume := some { elem := elem, mask := m, kept := kept, upto := none } }
  else { st with pc := st.epc, resume := none }

end Sys2Proof.Machine
end

