-- ==== Sys2Proof/Machine/Vec.lean ====
section
/-! DEFINITION. The pass of a per-thread instruction through the lane: elements in order, threads in order, uniform
execution, masked writes and precise per-thread traps (R57 to R59, R62, R74, R76). -/

namespace Sys2Proof.Machine

/-- What one thread sees in one element: its number, the element and the words of its operands; `d` holds the destination's old words
where the row reads them. -/
structure VIn where
  t : Nat
  e : Nat
  a : List Word
  b : List Word
  c : List Word
  d : List Word
  deriving DecidableEq, Repr

/-- What one thread writes: words of consecutive registers at d (none: nothing written), a predicate bit, and flags. -/
structure VOut where
  d : List Word
  q : Option Bool
  flags : FpFlags
  deriving DecidableEq, Repr

/-- The meaning of a per-thread instruction: the types that select its constants, and its function. -/
structure VecDef where
  ta : OTy
  tb : OTy
  tc : OTy
  fn : FEnv → VIn → VOut

/-- One word written. -/
def out1 (x : Word) (fl : FpFlags) : VOut := { d := [x], q := none, flags := fl }
/-- A predicate bit written. -/
def outQ (b : Bool) (fl : FpFlags) : VOut := { d := [], q := some b, flags := fl }

/-- The operands of thread t in element e, or the index register whose window refuses (R62). -/
def Strand.inputs (st : Strand) (sp : OpSpec) (f : LFields) (vd : VecDef) (e t : Nat) : Except Nat VIn := do
  let a ← st.operand f sp.a f.a.toNat vd.ta e t
  let b ← st.operand f sp.b f.b.toNat vd.tb e t
  let c ← if sp.c.rd then st.operand f sp.c f.c.toNat vd.tc e t else .ok []
  let d ← if sp.d.rd then st.operand f sp.d f.d.toNat vd.ta e t else .ok []
  .ok { t := t, e := e, a := a, b := b, c := c, d := d }

/-- The destination register of thread t in element e, or the index register whose window refuses (R59, R62). -/
def Strand.destReg (st : Strand) (sp : OpSpec) (f : LFields) (e t : Nat) : Except Nat Nat :=
  let x := f.d.toNat
  if isInd sp.d x then
    match st.resolve (x - 0xC0) t with
    | some n => .ok n
    | none => .error (x - 0xC0)
  else .ok (x + (if sp.d.n = 1 then blockOff f e else 0))

/-- The predicate that a per-thread result's bit goes to: d, or c of the rows whose d is a register. -/
def predReg (sp : OpSpec) (f : LFields) : Nat := match sp.d.k with
  | .q | .q1 => f.d.toNat
  | _ => f.c.toNat

/-- Writes one thread's results. -/
def Strand.writeOut (st : Strand) (sp : OpSpec) (f : LFields) (o : VOut) (n t : Nat) : Strand :=
  let st := (o.d.zipIdx).foldl (fun st p => st.vset (n + p.2) t p.1) st
  match o.q with
  | some b => st.qset (predReg sp f) (1#16 <<< t) (if b then 0xFFFF else 0)
  | none => st

/-- Where a pass stopped at a per-thread trap: the strand so far, the index register, the element and the threads not yet
done. -/
structure VStop where
  st : Strand
  k : Nat
  e : Nat
  mask : Mask

/-- Threads t, t + 1, ... of one element, from the list given (R57, R76). -/
def passThreads (sp : OpSpec) (f : LFields) (vd : VecDef) (env : FEnv) (e : Nat) (m : Mask) :
    List Nat → Strand → Except VStop Strand
  | [], st => .ok st
  | t :: r, st =>
    if !mHas m t then passThreads sp f vd env e m r st
    else
      match st.inputs sp f vd e t, st.destReg sp f e t with
      | .ok x, .ok n =>
        let o := vd.fn env x
        passThreads sp f vd env e m r ((st.writeOut sp f o n t).addFlags o.flags)
      | .error k, _ => .error { st := st, k := k, e := e, mask := mFrom m t }
      | _, .error k => .error { st := st, k := k, e := e, mask := mFrom m t }

/-- The threads that element e executes for: none before the resumed element, the remaining ones in it, and none from the
element at which the turn ends (R59, R76, R79). -/
def elemMask (rs : Option Resume) (adm : Mask) (e : Nat) : Mask := match rs with
  | some q => if e < q.elem ∨ q.upto.any (· ≤ e) then 0 else if e = q.elem then adm &&& q.mask else adm
  | none => adm

/-- The elements from a list, the resumed one with its remaining threads (R59, R76). -/
def passElems (sp : OpSpec) (f : LFields) (vd : VecDef) (env : FEnv) (adm : Mask) (rs : Option Resume) :
    List Nat → Strand → Except VStop Strand
  | [], st => .ok st
  | e :: r, st =>
    match passThreads sp f vd env e (elemMask rs adm e) (List.range 16) st with
    | .ok st => passElems sp f vd env adm rs r st
    | .error x => .error x

/-- Writes a uniform result to every admitted thread, and its flags with the first of them (R58, R76). -/
def bcastOut (sp : OpSpec) (f : LFields) (o : VOut) (m : Mask) : List Nat → Strand → Except VStop Strand
  | [], st => .ok st
  | t :: r, st =>
    if !mHas m t then bcastOut sp f o m r st
    else
      match st.destReg sp f 0 t with
      | .ok n => bcastOut sp f o m r ((st.writeOut sp f o n t).addFlags o.flags)
      | .error k => .error { st := st, k := k, e := 0, mask := mFrom m t }

/-- The whole pass (R57 to R59). -/
def vecPass (sp : OpSpec) (f : LFields) (vd : VecDef) (st : Strand) (adm : Mask) : Except VStop Strand :=
  let env := FEnv.ofFmt st.fmt
  if uniform sp f then
    if adm = 0 then .ok st
    else
      match st.inputs sp f vd 0 (mLow adm) with
      | .ok x =>
        let o := vd.fn env x
        bcastOut sp f o adm (List.range 16) st
      | .error k => .error { st := st, k := k, e := 0, mask := adm }
  else passElems sp f vd env adm st.resume (List.range (elems sp f)) st

/-- A per-thread instruction of the integer, FP and complex families: the checks of issue, the pass, and its end or the
INDEX trap of its first failing thread (R76, R271). -/
def execVec (i : Instr) (sp : OpSpec) (f : LFields) (len : Nat) (mk : Strand → VecDef) (s : State) :
    Host.Outcome State Fault Refusal :=
  match issue i sp f noPre s with
  | .out o => o
  | .go x =>
    match vecPass sp f (mk x.st) x.st x.adm with
    | .ok st => .next (s.finish x sp f len st)
    | .error p => .next (s.trapAtThread s x.id p.st .index (p.k + 8 * p.e) p.e p.mask)

/-- The row of an L instruction. -/
def rowOf (i : Instr) : OpSpec := (specOf i).getD specBase

/-- The outcome of an instruction. -/
abbrev Result := Host.Outcome State Fault Refusal

/-- An L instruction by its row. -/
def execL (i : Instr) (f : LFields) (mk : Strand → VecDef) (s : State) : Result := execVec i (rowOf i) f 8 mk s

end Sys2Proof.Machine
end

