-- ==== Sys2Proof/Machine/Integer.lean ====
section
/-! DEFINITION. The integer family (R152 to R161). Element values are read as integers, the result is formed exactly and
wrapped to the element's width at the end (R29, R153). -/

namespace Sys2Proof.Machine

/-- Element width of an integer type code (R98). -/
def intW (m3 : Nat) : Nat := nth 32 [32, 32, 16, 16, 8, 8, 32, 64] m3
/-- The type is signed. -/
def intS (m3 : Nat) : Bool := m3 == 0 || m3 == 2 || m3 == 4

/-- A w-bit pattern as a signed integer. -/
def sx (w x : Nat) : Int := if x < 2 ^ (w - 1) then (x : Int) else (x : Int) - 2 ^ w
/-- An integer modulo 2^w (R29). -/
def wrapN (w : Nat) (v : Int) : Nat := (v % 2 ^ w).toNat
/-- A w-bit element as the type reads it. -/
def ival (m3 x : Nat) : Int := if intS m3 then sx (intW m3) x else x

/-- The words of an operand as one number. -/
def wv (l : List Word) : Nat := (pair64 l).toNat

/-- Applies a function to corresponding elements of width w of 32-bit values (R153). -/
def lanes (w : Nat) (g : Nat → Nat → Nat → Nat) (a b c : Nat) : Nat :=
  (List.range (32 / w)).foldl (fun r i => r + (g (nbits a (w * i) w) (nbits b (w * i) w) (nbits c (w * i) w) % 2 ^ w) *
    2 ^ (w * i)) 0

/-- Applies a function element by element under a type code; .b64 works on pairs. -/
def intMap (m3 : Nat) (g : Nat → Nat → Nat → Nat) (a b c : List Word) : List Word :=
  let w := intW m3
  if w = 64 then words64 (BitVec.ofNat 64 (g (wv a) (wv b) (wv c)))
  else [BitVec.ofNat 32 (lanes w g (wv a) (wv b) (wv c))]

/-- How a type's operands select constants (R94). -/
def intTy (m3 : Nat) : OTy :=
  match intW m3 with
  | 64 => .b64
  | 16 => .i16
  | 8 => .i8
  | _ => .i32

/-- A meaning on elements of one type. -/
def intDef (m3 : Nat) (g : Nat → Nat → Nat → Nat) : VecDef :=
  { ta := intTy m3, tb := intTy m3, tc := intTy m3,
    fn := fun _ x => { d := intMap m3 g x.a x.b x.c, q := none, flags := flagNone } }

/-- A shift: under .b32 and .b64 the count is one 32-bit b, else b's element; it is taken modulo w (R154). -/
def shiftDef (m3 : Nat) (g : Nat → Nat → Nat) : VecDef :=
  { intDef m3 (fun a b _ => g a (b % intW m3)) with tb := if intW m3 = 64 then .i32 else intTy m3 }

/-- A meaning that gives one word. -/
def wordDef (ta tb tc : OTy) (g : VIn → Word) : VecDef :=
  { ta := ta, tb := tb, tc := tc, fn := fun _ x => out1 (g x) flagNone }

/-- A meaning that gives one predicate bit. -/
def predDef (ta tb : OTy) (g : VIn → Bool) : VecDef :=
  { ta := ta, tb := tb, tc := .i32, fn := fun _ x => outQ (g x) flagNone }

def iAdd (a b : Nat) : Nat := a + b
def iSub (w a b : Nat) : Nat := wrapN w ((a : Int) - b)
def iMulh (m3 a b : Nat) : Nat := wrapN (intW m3) (ival m3 a * ival m3 b / 2 ^ intW m3)
def iShl (a n : Nat) : Nat := a * 2 ^ n
def iShr (a n : Nat) : Nat := a / 2 ^ n
def iSra (w a n : Nat) : Nat := wrapN w (sx w a / 2 ^ n)
def iMinMax (m3 : Nat) (max : Bool) (a b : Nat) : Nat := if decide (ival m3 a ≤ ival m3 b) != max then a else b
def iAbs (w a : Nat) : Nat := wrapN w (sx w a).natAbs

/-- The conditions of R120. -/
def intCond (c : Nat) (a b : Int) : Bool :=
  match c with
  | 0 => decide (a < b)
  | 1 => decide (a ≤ b)
  | 2 => decide (a > b)
  | 3 => decide (a ≥ b)
  | 4 => decide (a = b)
  | _ => decide (a ≠ b)

/-- A comparison of the type's values: signed under .i32 only (R120, R155). -/
def intCompare (m3 c a b : Nat) : Bool := if m3 == 0 then intCond c (sx 32 a) (sx 32 b) else intCond c a b

/-- The field of R121: position [4:0] of b, length of c, sign-extended when `signed`. -/
def bitField (signed : Bool) (a b c : Word) : Word :=
  let pos := b.toNat % 32
  let len := min (c.toNat % 64) 32
  let f := a.toNat / 2 ^ pos % 2 ^ len
  if signed && decide (0 < len) && decide (len < 32) then BitVec.ofInt 32 (sx len f) else BitVec.ofNat 32 f

/-- BFI (R157). -/
def bitInsert (a b c : Word) : Word :=
  let pos := c.toNat % 32
  let len := min (c.toNat / 256 % 64) 32
  let m : Word := BitVec.ofNat 32 ((2 ^ len - 1) * 2 ^ pos)
  (a &&& ~~~m) ||| ((b <<< pos) &&& m)

/-- Number of one bits. -/
def popCount (w x : Nat) : Nat := (List.range w).foldl (fun n i => n + nbits x i 1) 0
/-- Number of leading zero bits of w. -/
def leadZeros (w x : Nat) : Nat := if x = 0 then w else w - 1 - Nat.log2 x
/-- Bit i moved to bit w - 1 - i. -/
def revBits (w x : Nat) : Nat := (List.range w).foldl (fun n i => n + nbits x i 1 * 2 ^ (w - 1 - i)) 0

/-- BGATH (R158). -/
def byteGather (a b c : Word) : Word :=
  let pool := b.toNat * 2 ^ 32 + a.toNat
  BitVec.ofNat 32 ((List.range 4).foldl (fun r i =>
    let ctl := nbits c.toNat (8 * i) 8
    let x := nbits pool (8 * (ctl % 8)) 8
    r + (match ctl / 64 with
      | 0 => x
      | 1 => revBits 8 x
      | 2 => 0
      | _ => 255) * 2 ^ (8 * i)) 0)

/-- The i-th word of an operand. -/
def wd (l : List Word) (i : Nat) : Word := nth 0 l i

/-- IDOT4 (R161). -/
def dot4 (signed : Bool) (a b c : Word) : Word :=
  let v (x : Nat) : Int := if signed then sx 8 x else x
  BitVec.ofInt 32 ((List.range 4).foldl (fun r i => r + v (nbits a.toNat (8 * i) 8) * v (nbits b.toNat (8 * i) 8))
    (c.toNat : Int))

def defIadd (m : Nat) : VecDef := intDef m fun a b _ => iAdd a b
def defIsub (m : Nat) : VecDef := intDef m fun a b _ => iSub (intW m) a b
def defImul (m : Nat) : VecDef := intDef m fun a b _ => a * b
def defIand (m : Nat) : VecDef := intDef m fun a b _ => a.land b
def defIor (m : Nat) : VecDef := intDef m fun a b _ => a.lor b
def defIxor (m : Nat) : VecDef := intDef m fun a b _ => a.xor b
def defIshl (m : Nat) : VecDef := shiftDef m iShl
def defIshr (m : Nat) : VecDef := shiftDef m iShr
def defImin (m : Nat) : VecDef := intDef m fun a b _ => iMinMax m false a b
def defImax (m : Nat) : VecDef := intDef m fun a b _ => iMinMax m true a b
def defIcmp (m c : Nat) : VecDef := predDef (intTy m) (intTy m) fun x => intCompare m c (wv x.a) (wv x.b)
def defMov (m : Nat) : VecDef := intDef m fun a _ _ => a

/-- LEA (R159). -/
def defLea (m sh : Nat) : VecDef :=
  { ta := .b64, tb := .i32, tc := .i32,
    fn := fun _ x =>
      let ix : DWord := if m == 0 then (wd x.b 0).signExtend 64 else (wd x.b 0).zeroExtend 64
      { d := words64 (pair64 x.a + (ix <<< sh)), q := none, flags := flagNone } }

/-- IADDC (R156). -/
def defIaddc : VecDef :=
  { ta := .i32, tb := .i32, tc := .i32,
    fn := fun _ x =>
      let v := wv x.a + wv x.b + wv x.c
      { d := [BitVec.ofNat 32 v], q := some (decide (2 ^ 32 ≤ v)), flags := flagNone } }

/-- MOVI (R160). -/
def moviWord (m : Nat) (imm : BitVec 16) : Word :=
  match m with
  | 0 => imm.signExtend 32
  | 1 => imm.zeroExtend 32
  | _ => imm ++ imm

/-- Replaces bits [31:16]. -/
def highWord (imm : BitVec 16) (x : Word) : Word := imm ++ x.extractLsb' 0 16

def execIadd (f : LFields) (s : State) : Result := execL (.iadd f) f (fun _ => defIadd f.m3.toNat) s
def execIsub (f : LFields) (s : State) : Result := execL (.isub f) f (fun _ => defIsub f.m3.toNat) s
def execImul (f : LFields) (s : State) : Result := execL (.imul f) f (fun _ => defImul f.m3.toNat) s
/-- IMULH on one thread's operands (R154). -/
def vdImulh (f : LFields) : VecDef :=
  intDef f.m3.toNat fun a b _ => iMulh f.m3.toNat a b
def execImulh (f : LFields) (s : State) : Result := execL (.imulh f) f (fun _ => vdImulh f) s
/-- IMAD on one thread's operands (R154). -/
def vdImad (f : LFields) : VecDef :=
  intDef f.m3.toNat fun a b c => a * b + c
def execImad (f : LFields) (s : State) : Result := execL (.imad f) f (fun _ => vdImad f) s
def execIand (f : LFields) (s : State) : Result := execL (.iand f) f (fun _ => defIand f.m3.toNat) s
def execIor (f : LFields) (s : State) : Result := execL (.ior f) f (fun _ => defIor f.m3.toNat) s
def execIxor (f : LFields) (s : State) : Result := execL (.ixor f) f (fun _ => defIxor f.m3.toNat) s
def execIshl (f : LFields) (s : State) : Result := execL (.ishl f) f (fun _ => defIshl f.m3.toNat) s
def execIshr (f : LFields) (s : State) : Result := execL (.ishr f) f (fun _ => defIshr f.m3.toNat) s
/-- ISRA on one thread's operands (R154). -/
def vdIsra (f : LFields) : VecDef :=
  shiftDef f.m3.toNat (iSra (intW f.m3.toNat))
def execIsra (f : LFields) (s : State) : Result := execL (.isra f) f (fun _ => vdIsra f) s
def execImin (f : LFields) (s : State) : Result := execL (.imin f) f (fun _ => defImin f.m3.toNat) s
def execImax (f : LFields) (s : State) : Result := execL (.imax f) f (fun _ => defImax f.m3.toNat) s
/-- IABS on one thread's operands (R154). -/
def vdIabs (f : LFields) : VecDef :=
  intDef f.m3.toNat fun a _ _ => iAbs (intW f.m3.toNat) a
def execIabs (f : LFields) (s : State) : Result := execL (.iabs f) f (fun _ => vdIabs f) s
def execIcmp (f : LFields) (s : State) : Result :=
  execL (.icmp f) f (fun _ => defIcmp f.m3.toNat f.c.toNat) s
/-- ISEL on one thread's operands (R154). -/
def vdIsel (f : LFields) : VecDef :=
  { ta := intTy f.m3.toNat, tb := intTy f.m3.toNat, tc := .i32,
      fn := fun _ x => { d := if wd x.c 0 == 1 then x.a else x.b, q := none, flags := flagNone } }
def execIsel (f : LFields) (s : State) : Result := execL (.isel f) f (fun _ => vdIsel f) s
/-- BFE on one thread's operands (R157). -/
def vdBfe (f : LFields) : VecDef :=
  wordDef .i32 .i32 .i32 fun x => bitField (f.m3 == 0) (wd x.a 0) (wd x.b 0) (wd x.c 0)
def execBfe (f : LFields) (s : State) : Result := execL (.bfe f) f (fun _ => vdBfe f) s
/-- BFI on one thread's operands (R157). -/
def vdBfi (_ : LFields) : VecDef :=
  wordDef .i32 .i32 .i32 fun x => bitInsert (wd x.a 0) (wd x.b 0) (wd x.c 0)
def execBfi (f : LFields) (s : State) : Result := execL (.bfi f) f (fun _ => vdBfi f) s
/-- POPC on one thread's operands (R154). -/
def vdPopc (f : LFields) : VecDef :=
  wordDef (intTy f.m3.toNat) .i32 .i32 fun x =>
    BitVec.ofNat 32 (popCount (intW f.m3.toNat) (wv x.a))
def execPopc (f : LFields) (s : State) : Result := execL (.popc f) f (fun _ => vdPopc f) s
/-- CLZ on one thread's operands (R154). -/
def vdClz (f : LFields) : VecDef :=
  wordDef (intTy f.m3.toNat) .i32 .i32 fun x =>
    BitVec.ofNat 32 (leadZeros (intW f.m3.toNat) (wv x.a))
def execClz (f : LFields) (s : State) : Result := execL (.clz f) f (fun _ => vdClz f) s
/-- BREV on one thread's operands (R154). -/
def vdBrev (_ : LFields) : VecDef :=
  wordDef .i32 .i32 .i32 fun x =>
    BitVec.ofNat 32 (revBits 32 (wv x.a))
def execBrev (f : LFields) (s : State) : Result := execL (.brev f) f (fun _ => vdBrev f) s
/-- BGATH on one thread's operands (R158). -/
def vdBgath (_ : LFields) : VecDef :=
  wordDef .i32 .i32 .i32 fun x => byteGather (wd x.a 0) (wd x.b 0) (wd x.c 0)
def execBgath (f : LFields) (s : State) : Result := execL (.bgath f) f (fun _ => vdBgath f) s
def execLea (f : LFields) (s : State) : Result :=
  execL (.lea f) f (fun _ => defLea f.m3.toNat f.c.toNat) s
def execIaddc (f : LFields) (s : State) : Result := execL (.iaddc f) f (fun _ => defIaddc) s
def execMov (f : LFields) (s : State) : Result := execL (.mov f) f (fun _ => defMov f.m3.toNat) s
/-- MOVI on one thread's operands (R160). -/
def vdMovi (f : LFields) : VecDef :=
  wordDef .i32 .i32 .i32 fun _ => moviWord f.m3.toNat (imm16 f)
def execMovi (f : LFields) (s : State) : Result := execL (.movi f) f (fun _ => vdMovi f) s
/-- MOVHI on one thread's operands (R160). -/
def vdMovhi (f : LFields) : VecDef :=
  wordDef .i32 .i32 .i32 fun x => highWord (imm16 f) (wd x.d 0)
def execMovhi (f : LFields) (s : State) : Result := execL (.movhi f) f (fun _ => vdMovhi f) s
/-- IDOT4 on one thread's operands (R161). -/
def vdIdot4 (f : LFields) : VecDef :=
  wordDef .i8 .i8 .i32 fun x => dot4 (f.m3 == 4) (wd x.a 0) (wd x.b 0) (wd x.c 0)
def execIdot4 (f : LFields) (s : State) : Result := execL (.idot4 f) f (fun _ => vdIdot4 f) s

end Sys2Proof.Machine
end

