-- ==== Sys2Proof/Machine/Transc.lean ====
section
/-! DEFINITION. The functions of R38, correctly rounded (R31). A value that is not exact is enclosed between two
fixed-point numbers; both ends round alike, or the enclosure is narrowed. -/

namespace Sys2Proof.Machine

/-- Newton's iteration for the integer square root, from above. -/
def isqrtGo (n : Nat) : Nat → Nat → Nat
  | 0, x => x
  | fuel + 1, x =>
    let y := (x + n / x) / 2
    if y < x then isqrtGo n fuel y else x

/-- The integer square root. -/
def isqrt (n : Nat) : Nat :=
  if n == 0 then 0 else isqrtGo n (Nat.log2 n + 2) (2 ^ (Nat.log2 n / 2 + 1))

/-- The sum of z^(2k+1)/(2k+1) with signs alternating when `alt`: atan for alternating signs, atanh otherwise; `pw` is
the current power and `z2` the square of z, at `p` fraction bits. -/
def oddSeries (p : Nat) (alt : Bool) (z2 : Nat) : Nat → Nat → Int → Nat → Int
  | 0, _, acc, _ => acc
  | fuel + 1, pw, acc, k =>
    if pw == 0 then acc
    else
      let t : Int := ((pw / (2 * k + 1) : Nat) : Int)
      oddSeries p alt z2 fuel (pw * z2 / 2 ^ p) (if alt && k % 2 == 1 then acc - t else acc + t) (k + 1)

/-- atan(n/d) at p fraction bits, n < d. -/
def atanFrac (p n d : Nat) : Int :=
  let z := n * 2 ^ p / d
  oddSeries p true (z * z / 2 ^ p) (p + 4) z 0 0

/-- pi at p fraction bits (Machin). -/
def piFix (p : Nat) : Nat := (16 * atanFrac p 1 5 - 4 * atanFrac p 1 239).toNat

/-- ln 2 at p fraction bits. -/
def ln2Fix (p : Nat) : Nat :=
  let z := 2 ^ p / 3
  2 * (oddSeries p false (z * z / 2 ^ p) (p + 4) z 0 0).toNat

/-- ln(r) for r = n/d in [1, 2). -/
def lnFix (p n d : Nat) : Nat :=
  let z := (n - d) * 2 ^ p / (n + d)
  2 * (oddSeries p false (z * z / 2 ^ p) (p + 4) z 0 0).toNat

/-- The series of exp, from the term t with index k. -/
def expGo (p x : Nat) : Nat → Nat → Nat → Nat → Nat
  | 0, _, _, acc => acc
  | fuel + 1, t, k, acc =>
    if t == 0 then acc else expGo p x fuel (t * x / 2 ^ p / (k + 1)) (k + 1) (acc + t)

/-- exp(x) for x in [0, 1) at p fraction bits. -/
def expFix (p x : Nat) : Nat := expGo p x (p + 4) (2 ^ p) 0 0

/-- The alternating series of sine (from term x, index 1) or cosine (from term 1, index 0). -/
def trigGo (p x2 : Nat) : Nat → Nat → Nat → Bool → Int → Int
  | 0, _, _, _, acc => acc
  | fuel + 1, t, k, neg, acc =>
    if t == 0 then acc
    else trigGo p x2 fuel (t * x2 / 2 ^ p / ((k + 1) * (k + 2))) (k + 2) (!neg) (if neg then acc - (t : Int) else acc + (t : Int))

def sinFix (p x : Nat) : Int := trigGo p (x * x / 2 ^ p) (p + 4) x 1 false 0
def cosFix (p x : Nat) : Int := trigGo p (x * x / 2 ^ p) (p + 4) (2 ^ p) 0 false 0

/-- t / (1 + sqrt(1 + t^2)): halves the angle of a tangent. -/
def halfTan (p t : Nat) : Nat := t * 2 ^ p / (2 ^ p + isqrt (2 ^ (2 * p) + t * t))

/-- atan(n/d) for 0 < n < d, at p fraction bits. -/
def atanFix (p n d : Nat) : Int :=
  let t := halfTan p (halfTan p (n * 2 ^ p / d))
  4 * oddSeries p true (t * t / 2 ^ p) (p + 4) t 0 0

/-- The working precision and the bound, in units of the last place, on the error of every series here. -/
def fixBits : Nat := 448
def fixErr : Nat := 2 ^ 20

/-- Rounds the value that `v` gives at any precision, narrowing twice if the first enclosure does not decide. -/
def roundBy (f : FFmt) (env : FEnv) (neg : Bool) (e : Int) (v : Nat → Nat) : FRes :=
  let go (p : Nat) : FRes × Bool :=
    let x := v p
    let lo := roundFrac f env neg (2 * (x - fixErr) + 1) 1 (e - ((p : Int) + 1))
    let hi := roundFrac f env neg (2 * (x + fixErr) - 1) 1 (e - ((p : Int) + 1))
    (lo, lo == hi)
  let (r1, ok1) := go fixBits
  if ok1 then r1
  else
    let (r2, ok2) := go (2 * fixBits)
    if ok2 then r2 else (go (4 * fixBits)).1

/-- FRCP (R33, R35, R38). -/
def fpRcp (f : FFmt) (env : FEnv) (a : Nat) : FRes :=
  match f.decIn env a with
  | .nan => f.nanRes flagNone
  | .inf n => { bits := f.withSign n 0, flags := flagNone }
  | .fin n m e => if m == 0 then f.infRes n flagDZ else roundFrac f env n 1 m (-e)

/-- m * 2^e with an even exponent. -/
def evenExp (m : Nat) (e : Int) : Nat × Int := if e % 2 == 0 then (m, e) else (2 * m, e - 1)

/-- FSQRT (R38). -/
def fpSqrt (f : FFmt) (env : FEnv) (a : Nat) : FRes :=
  match f.decIn env a with
  | .nan => f.nanRes flagNone
  | .inf n => if n then f.nanRes flagNV else f.infRes false flagNone
  | .fin n m e =>
    if m == 0 then { bits := f.withSign n 0, flags := flagNone }
    else if n then f.nanRes flagNV
    else
      let (k, g) := evenExp m e
      let x := k * 2 ^ 512
      let r := isqrt x
      if r * r == x then roundFrac f env false r 1 (g / 2 - 256)
      else roundFrac f env false (2 * r + 1) 1 (g / 2 - 257)

/-- FRSQ (R38): 1/sqrt(m * 2^e). -/
def fpRsq (f : FFmt) (env : FEnv) (a : Nat) : FRes :=
  match f.decIn env a with
  | .nan => f.nanRes flagNone
  | .inf n => if n then f.nanRes flagNV else { bits := 0, flags := flagNone }
  | .fin n m e =>
    if m == 0 then f.infRes n flagDZ
    else if n then f.nanRes flagNV
    else
      let (k, g) := evenExp m e
      let r := isqrt (2 ^ 512 / k)
      if r * r * k == 2 ^ 512 then roundFrac f env false r 1 (-(g / 2) - 256)
      else roundFrac f env false (2 * r + 1) 1 (-(g / 2) - 257)

/-- FEXP2 (R38). A magnitude of 2^12 and beyond is taken at 2^12, where every format overflows or underflows. -/
def fpExp2 (f : FFmt) (env : FEnv) (a : Nat) : FRes :=
  match f.decIn env a with
  | .nan => f.nanRes flagNone
  | .inf n => if n then { bits := 0, flags := flagNone } else f.infRes false flagNone
  | .fin n m e =>
    if m == 0 then roundFrac f env false 1 1 0
    else if fracLog2 m 1 e ≥ 12 then roundFrac f env false 1 1 (if n then -4096 else 4096)
    else
      -- the argument as v * 2^q with q at most 0
      let q := min e 0
      let v := sgn n (m * 2 ^ (e - q).toNat)
      let d : Nat := 2 ^ (-q).toNat
      let k := v / (d : Int)
      let r := (v % (d : Int)).toNat
      if r == 0 then roundFrac f env false 1 1 k
      else roundBy f env false k fun p => expFix p (r * ln2Fix p / d)

/-- FLOG2 (R33, R35, R38). -/
def fpLog2 (f : FFmt) (env : FEnv) (a : Nat) : FRes :=
  match f.decIn env a with
  | .nan => f.nanRes flagNone
  | .inf n => if n then f.nanRes flagNV else f.infRes false flagNone
  | .fin n m e =>
    if m == 0 then f.infRes true flagDZ
    else if n then f.nanRes flagNV
    else
      let l := Nat.log2 m
      let k : Int := (l : Int) + e
      if m == 2 ^ l then roundDyadic f env k 0 false
      else
        let v (p : Nat) : Int := k * 2 ^ p + ((lnFix p m (2 ^ l) * 2 ^ p / ln2Fix p : Nat) : Int)
        roundBy f env (decide (v fixBits < 0)) 0 fun p => (v p).natAbs

/-- The magnitude of sin(2 pi g) for a fraction of a turn g = n/d below 1/4. -/
def sinTurn (p n d : Nat) : Nat := (sinFix p (2 * piFix p * n / d)).toNat
def cosTurn (p n d : Nat) : Nat := (cosFix p (2 * piFix p * n / d)).toNat

/-- sin(2 pi n/d) for a turn n/d, rounded; `zneg` is the sign of a zero, `neg0` a sign to apply (R38). -/
def roundSin (f : FFmt) (env : FEnv) (neg0 zneg : Bool) (n d : Nat) : FRes :=
  let t := n % d
  let q := 4 * t / d
  -- g = (4t - q d) / (4 d)
  let g := 4 * t - q * d
  let neg := (decide (q ≥ 2)) != neg0
  if g == 0 then
    (if q % 2 == 0 then { bits := f.withSign zneg 0, flags := flagNone } else roundFrac f env neg 1 1 0)
  else if q % 2 == 0 then roundBy f env neg 0 fun p => sinTurn p g (4 * d)
  else roundBy f env neg 0 fun p => cosTurn p g (4 * d)

/-- A dyadic magnitude as a fraction of a turn with a denominator of at least 4. -/
def turnFrac (m : Nat) (e : Int) : Nat × Nat := if 0 ≤ e then (0, 4) else (4 * m, 4 * 2 ^ (-e).toNat)

/-- FSINT (R38): a zero result has the sign of x. -/
def fpSint (f : FFmt) (env : FEnv) (src : FFmt) (a : Nat) : FRes :=
  match src.decIn env a with
  | .nan => f.nanRes flagNone
  | .inf _ => f.nanRes flagNV
  | .fin n m e =>
    let (t, d) := turnFrac m e
    roundSin f env n n t d

/-- FCOST (R38): a zero result is +0. -/
def fpCost (f : FFmt) (env : FEnv) (src : FFmt) (a : Nat) : FRes :=
  match src.decIn env a with
  | .nan => f.nanRes flagNone
  | .inf _ => f.nanRes flagNV
  | .fin _ m e =>
    let (t, d) := turnFrac m e
    roundSin f env false false (t + d / 4) d

/-- One component of e^(i 2 pi k/2^n), zero components +0 (R38, R170). -/
def twidPart (f : FFmt) (env : FEnv) (inv im : Bool) (k n : Nat) : FRes :=
  let d := 4 * 2 ^ n
  let t := 4 * (k % 2 ^ n)
  if im then roundSin f env (!inv) false t d else roundSin f env false false (t + d / 4) d

/-- An angle in turns: exact dyadic v * 2^e with a sign for zero, or a magnitude known at any precision. -/
inductive Angle where
  | nan
  | exact (neg : Bool) (num den : Nat)
  | approx (neg : Bool) (v : Nat → Nat)

/-- arg(re + i im) in turns with the special cases of IEEE atan2Pi halved (R38). -/
def argTurn (re im : Fp) : Angle :=
  match re, im with
  | .nan, _ => .nan
  | _, .nan => .nan
  | .inf r, .inf i => .exact i (if r then 3 else 1) 8
  | .inf r, .fin i _ _ => .exact i (if r then 1 else 0) 2
  | .fin _ _ _, .inf i => .exact i 1 4
  | .fin r mr er, .fin i mi ei =>
    if mi == 0 then .exact i (if r then 1 else 0) 2
    else if mr == 0 then .exact i 1 4
    else
      let q := min er ei
      let x := mr * 2 ^ (er - q).toNat
      let y := mi * 2 ^ (ei - q).toNat
      if x == y then .exact i (if r then 3 else 1) 8
      else .approx i fun p =>
        let lo := min x y
        let hi := max x y
        let at1 : Nat := ((atanFix p lo hi) * 2 ^ p / (2 * (piFix p : Int))).toNat
        let ph := if y < x then at1 else 2 ^ p / 4 - at1
        if r then 2 ^ p / 2 - ph else ph

/-- CPHASE (R38, R168): the argument in turns as FP32. -/
def fpPhase (src : FFmt) (env : FEnv) (re im : Nat) : FRes :=
  match argTurn (src.decIn env re) (src.decIn env im) with
  | .nan => fmtF32.nanRes flagNone
  | .exact n num den =>
    if num == 0 then { bits := fmtF32.withSign n 0, flags := flagNone } else roundFrac fmtF32 env n num den 0
  | .approx n v => roundBy fmtF32 env n 0 v

/-- PHQ's code of n bits (R176): the exact angle modulo one turn times 2^n, to nearest, ties to even. -/
def phaseCode (re im : Fp) (n : Nat) : Option Nat :=
  match argTurn re im with
  | .nan => none
  | .exact neg num den =>
    let v : Int := if neg then (den : Int) - num else num
    some ((roundDiv .rne false (v.toNat * 2 ^ n) den).1 % 2 ^ n)
  | .approx neg v =>
    let p := fixBits
    let t : Nat := if neg then 2 ^ p - v p else v p
    -- an angle that is no dyadic fraction lies on no tie
    some ((roundDiv .rne false (2 * t * 2 ^ n + 1) (2 ^ (p + 1))).1 % 2 ^ n)

end Sys2Proof.Machine
end

