-- ==== Sys2Proof/Machine/Float.lean ====
section
/-! DEFINITION. The floating-point family (R162 to R167): each element's result is formed exactly and rounded once. -/

namespace Sys2Proof.Machine

/-- The format of an FP type code: .f32 .f16 .bf16 .f16x2 .bf16x2 (R98). -/
def fpFmt (m3 : Nat) : FFmt := if m3 = 0 then fmtF32 else if m3 = 1 ∨ m3 = 3 then fmtF16 else fmtBF16
/-- How a type's operands select constants (R94). -/
def fpTy (m3 : Nat) : OTy := if m3 ≥ 3 then .fp2 (fpFmt m3) else .fp (fpFmt m3)

/-- The low bits of a slot that a format occupies. -/
def FFmt.slot (f : FFmt) (x : Nat) : Nat := x % (2 * f.signBit)

/-- Applies a function to each element of an FP type; flags are joined (R28, R153). -/
def fpMap (m3 : Nat) (g : Nat → Nat → Nat → FRes) (a b c : Word) : Word × FpFlags :=
  let f := fpFmt m3
  if m3 < 3 then
    let r := g (f.slot a.toNat) (f.slot b.toNat) (f.slot c.toNat)
    (BitVec.ofNat 32 r.bits, r.flags)
  else
    let lo := g (a.toNat % 2 ^ 16) (b.toNat % 2 ^ 16) (c.toNat % 2 ^ 16)
    let hi := g (a.toNat / 2 ^ 16) (b.toNat / 2 ^ 16) (c.toNat / 2 ^ 16)
    (BitVec.ofNat 32 (hi.bits * 2 ^ 16 + lo.bits), lo.flags ||| hi.flags)

/-- A meaning on the elements of an FP type. -/
def fpDef (m3 : Nat) (g : FFmt → FEnv → Nat → Nat → Nat → FRes) : VecDef :=
  { ta := fpTy m3, tb := fpTy m3, tc := fpTy m3,
    fn := fun env x =>
      let r := fpMap m3 (g (fpFmt m3) env) (wd x.a 0) (wd x.b 0) (wd x.c 0)
      out1 r.1 r.2 }

/-- A result without flags. -/
def quiet (bits : Nat) : FRes := { bits := bits, flags := flagNone }

def defFadd (m : Nat) : VecDef := fpDef m fun f env a b _ => fpAdd f env a b
def defFsub (m : Nat) : VecDef := fpDef m fun f env a b _ => fpSub f env a b
def defFmul (m : Nat) : VecDef := fpDef m fun f env a b _ => fpMul f env a b
def defFfma (m : Nat) : VecDef := fpDef m fun f env a b c => fpFma f env a b c
def defFmin (m : Nat) : VecDef := fpDef m fun f env a b _ => quiet (fpMinMax f env false a b)
def defFmax (m : Nat) : VecDef := fpDef m fun f env a b _ => quiet (fpMinMax f env true a b)

/-- FCMP (R164). -/
def defFcmp (m c : Nat) : VecDef :=
  { ta := fpTy m, tb := fpTy m, tc := .i32,
    fn := fun env x =>
      let f := fpFmt m
      outQ (fpCond c (fpCompare f env (f.slot (wd x.a 0).toNat) (f.slot (wd x.b 0).toNat))) flagNone }

/-- The rounding mode that b8 selects for FCVT and FRND (R166). -/
def modeOf (b8 : Nat) (rm : RMode) : RMode := if b8 = 0 then rm else RMode.ofBits (BitVec.ofNat 2 (b8 - 1))

/-- The format of a type code of R131 below 3. -/
def cvtFmt (code : Nat) : FFmt := nth fmtF32 [fmtF32, fmtF16, fmtBF16] code

/-- The conversions of R131 between type codes: same type canonicalises and applies FTZ. -/
def convert (dst src : Nat) (env : FEnv) (x : Word) : Word × FpFlags :=
  if src ≥ 3 then
    let r := intToFp (cvtFmt dst) env (src == 3) x
    (BitVec.ofNat 32 r.bits, r.flags)
  else
    let f := cvtFmt src
    let a := f.slot x.toNat
    if dst ≥ 3 then fpToInt f env (dst == 3) a
    else
      let r := fpCvt f (cvtFmt dst) env a
      (BitVec.ofNat 32 r.bits, r.flags)

/-- How a conversion source selects constants. -/
def cvtTy (src : Nat) : OTy := if src ≥ 3 then .i32 else .fp (cvtFmt src)

def execFadd (f : LFields) (s : State) : Result := execL (.fadd f) f (fun _ => defFadd f.m3.toNat) s
def execFsub (f : LFields) (s : State) : Result := execL (.fsub f) f (fun _ => defFsub f.m3.toNat) s
def execFmul (f : LFields) (s : State) : Result := execL (.fmul f) f (fun _ => defFmul f.m3.toNat) s
def execFfma (f : LFields) (s : State) : Result := execL (.ffma f) f (fun _ => defFfma f.m3.toNat) s
def execFmin (f : LFields) (s : State) : Result := execL (.fmin f) f (fun _ => defFmin f.m3.toNat) s
def execFmax (f : LFields) (s : State) : Result := execL (.fmax f) f (fun _ => defFmax f.m3.toNat) s
def execFcmp (f : LFields) (s : State) : Result := execL (.fcmp f) f (fun _ => defFcmp f.m3.toNat f.c.toNat) s
/-- FCLASS on one thread's operands (R165). -/
def vdFclass (f : LFields) : VecDef :=
  fpDef f.m3.toNat fun g env a _ _ => quiet (fpClass g env a)
def execFclass (f : LFields) (s : State) : Result := execL (.fclass f) f (fun _ => vdFclass f) s
/-- FRCP on one thread's operands (R162). -/
def vdFrcp (f : LFields) : VecDef :=
  fpDef f.m3.toNat fun g env a _ _ => fpRcp g env a
def execFrcp (f : LFields) (s : State) : Result := execL (.frcp f) f (fun _ => vdFrcp f) s
/-- FRSQ on one thread's operands (R162). -/
def vdFrsq (f : LFields) : VecDef :=
  fpDef f.m3.toNat fun g env a _ _ => fpRsq g env a
def execFrsq (f : LFields) (s : State) : Result := execL (.frsq f) f (fun _ => vdFrsq f) s
/-- FSQRT on one thread's operands (R162). -/
def vdFsqrt (f : LFields) : VecDef :=
  fpDef f.m3.toNat fun g env a _ _ => fpSqrt g env a
def execFsqrt (f : LFields) (s : State) : Result := execL (.fsqrt f) f (fun _ => vdFsqrt f) s
/-- FEXP2 on one thread's operands (R162). -/
def vdFexp2 (f : LFields) : VecDef :=
  fpDef f.m3.toNat fun g env a _ _ => fpExp2 g env a
def execFexp2 (f : LFields) (s : State) : Result := execL (.fexp2 f) f (fun _ => vdFexp2 f) s
/-- FLOG2 on one thread's operands (R162). -/
def vdFlog2 (f : LFields) : VecDef :=
  fpDef f.m3.toNat fun g env a _ _ => fpLog2 g env a
def execFlog2 (f : LFields) (s : State) : Result := execL (.flog2 f) f (fun _ => vdFlog2 f) s
/-- FSINT on one thread's operands (R162). -/
def vdFsint (f : LFields) : VecDef :=
  fpDef f.m3.toNat fun g env a _ _ => fpSint g env g a
def execFsint (f : LFields) (s : State) : Result := execL (.fsint f) f (fun _ => vdFsint f) s
/-- FCOST on one thread's operands (R162). -/
def vdFcost (f : LFields) : VecDef :=
  fpDef f.m3.toNat fun g env a _ _ => fpCost g env g a
def execFcost (f : LFields) (s : State) : Result := execL (.fcost f) f (fun _ => vdFcost f) s
/-- FCVT on one thread's operands (R166). -/
def vdFcvt (f : LFields) : VecDef :=
  { ta := cvtTy f.c.toNat, tb := .i32, tc := .i32,
      fn := fun env x =>
        let r := convert f.m3.toNat f.c.toNat { env with rm := modeOf f.b.toNat env.rm } (wd x.a 0)
        out1 r.1 r.2 }
def execFcvt (f : LFields) (s : State) : Result := execL (.fcvt f) f (fun _ => vdFcvt f) s
/-- FRND on one thread's operands (R166). -/
def vdFrnd (f : LFields) : VecDef :=
  fpDef f.m3.toNat fun g env a _ _ =>
    quiet (fpRnd g env (modeOf f.b.toNat env.rm) a)
def execFrnd (f : LFields) (s : State) : Result := execL (.frnd f) f (fun _ => vdFrnd f) s
/-- FFRAC on one thread's operands (R167). -/
def vdFfrac (f : LFields) : VecDef :=
  fpDef f.m3.toNat fun g env a _ _ => fpFrac g env a
def execFfrac (f : LFields) (s : State) : Result := execL (.ffrac f) f (fun _ => vdFfrac f) s

end Sys2Proof.Machine
end

