-- ==== Sys2Proof/Machine/Exact.lean ====
section
/-! DEFINITION. Exact-sum cells (R50 to R53) and the arithmetic of atomics (R202). -/

namespace Sys2Proof.Machine

/-- A cell as its fields; bytes 49 to 51 and 56 to 63 are kept as they are (R50). -/
structure Cell where
  value : Int
  flags : Nat
  mid : List Byte
  count : Nat
  top : List Byte
  deriving DecidableEq, Repr

/-- Half the modulus of VALUE. -/
def cellHalf : Nat := 2 ^ 383

/-- A number as a 384-bit two's complement value. -/
def cellWrap (v : Int) : Int := (v + cellHalf) % (2 ^ 384 : Nat) - cellHalf

/-- A cell from its 64 bytes. -/
def Cell.ofBytes (bs : List Byte) : Cell :=
  { value := cellWrap (leVal (bs.take 48)), flags := leVal ((bs.drop 48).take 1), mid := (bs.drop 49).take 3,
    count := leVal ((bs.drop 52).take 4), top := (bs.drop 56).take 8 }

/-- A cell's 64 bytes. -/
def Cell.bytes (c : Cell) : List Byte :=
  leBytes 48 (c.value % (2 ^ 384 : Nat)).toNat ++ leBytes 1 c.flags ++ c.mid ++ leBytes 4 c.count ++ c.top

/-- The type codes of SUMX: 0 .f32, 1 .f16, 2 .bf16, 3 .i32, 4 .n32 (R204). -/
def contribution (ty : Nat) (x : Word) : Fp :=
  match ty with
  | 0 => fmtF32.dec x.toNat
  | 1 => fmtF16.dec (x.toNat % 2 ^ 16)
  | 2 => fmtBF16.dec (x.toNat % 2 ^ 16)
  | 3 => .fin (decide (x.toInt < 0)) x.toInt.natAbs 0
  | _ => .fin false x.toNat 0

/-- One contribution added to a cell (R51). -/
def Cell.add (c : Cell) (x : Fp) : Cell :=
  let c := { c with count := min (c.count + 1) (2 ^ 32 - 1) }
  match x with
  | .nan => { c with flags := c.flags ||| 1 }
  | .inf false => { c with flags := c.flags ||| 2 }
  | .inf true => { c with flags := c.flags ||| 4 }
  | .fin n m e =>
    let v := c.value + sgn n m * (2 : Int) ^ (e + 160).toNat
    let w := cellWrap v
    { c with value := w, flags := if w = v then c.flags else c.flags ||| 8 }

/-- The value of a cell in a format (R53): 0 .f32, 1 .f16, 2 .bf16. -/
def Cell.read (c : Cell) (fmt : Nat) : Word :=
  let f := fpFmt fmt
  let has (n : Nat) : Bool := c.flags.testBit n
  let bits :=
    if has 0 || (has 1 && has 2) then f.nanBits
    else if has 1 then f.infBits
    else if has 2 then f.withSign true f.infBits
    else if has 3 then f.nanBits
    else (roundDyadic f FEnv.plain c.value (-160) false).bits
  BitVec.ofNat 32 bits

/-- Bytes of an atomic's operand (R202). -/
def atomSize (ty : Nat) : Nat := if ty = 3 then 8 else 4

/-- Applies a floating-point operation to one or two values of 16 bits, or one of 32 (R202). -/
def atomFp (ty : Nat) (g : FFmt → Nat → Nat → Nat) (a b : Nat) : Nat :=
  if ty = 4 then g fmtF32 a b
  else g fmtF16 (a % 2 ^ 16) (b % 2 ^ 16) + 2 ^ 16 * g fmtF16 (a / 2 ^ 16) (b / 2 ^ 16)

/-- The new value of an atomic (R202): operation and type codes, the old value, the operand and the comparand. -/
def atomNew (op ty old b cmp : Nat) : Nat :=
  let w := 8 * atomSize ty
  let fp := decide (4 ≤ ty)
  let less (x y : Nat) : Bool :=
    if ty = 0 then decide ((BitVec.ofNat 32 x).toInt < (BitVec.ofNat 32 y).toInt) else decide (x < y)
  match op with
  | 0 => if fp then atomFp ty (fun f x y => (fpAdd f FEnv.plain x y).bits) old b else (old + b) % 2 ^ w
  | 1 => if fp then atomFp ty (fun f x y => fpMinMax f FEnv.plain false x y) old b else if less b old then b else old
  | 2 => if fp then atomFp ty (fun f x y => fpMinMax f FEnv.plain true x y) old b else if less old b then b else old
  | 3 => old.land b
  | 4 => old.lor b
  | 5 => old.xor b
  | 6 => b
  | _ => if old = cmp then b else old

end Sys2Proof.Machine
end

