-- ==== Sys2Proof/Machine/Kern.lean ====
section
/-! DEFINITION. What a strand sees of its kernel and item: the launch record's fields (R279), the item's scratchpad and
its bounds (R189, R286), commitment (R289) and the per-thread checks of the scratchpad. -/

namespace Sys2Proof.Machine

/-- A field of a launch record: n bytes at an offset (R279). -/
def recField (r : List Byte) (off n : Nat) : Nat := leVal ((r.drop off).take n)

def recCode (r : List Byte) : Nat := recField r 0 8
def recParam (r : List Byte) : Nat := recField r 8 8
def recObj (r : List Byte) : Nat := recField r 16 8
def recDone (r : List Byte) : Nat := recField r 24 8
def recItems (r : List Byte) : Nat := recField r 32 4
def recFmt (r : List Byte) : Nat := recField r 36 4
def recStrands (r : List Byte) : Nat := recField r 40 2
def recNv (r : List Byte) : Nat := recField r 42 2
def recNm (r : List Byte) : Nat := recField r 44 2
def recNc (r : List Byte) : Nat := recField r 46 2
def recPlen (r : List Byte) : Nat := recField r 48 2
def recScr (r : List Byte) : Nat := recField r 50 2
def recRegs (r : List Byte) : Nat := recField r 52 1
def recAttr (r : List Byte) : Nat := recField r 53 1
def recNch (r : List Byte) : Nat := recField r 54 1
def recNred (r : List Byte) : Nat := recField r 55 1
def recIbase (r : List Byte) : Nat := recField r 56 4
/-- The bits of ATTR (R279). -/
def attrRpl (r : List Byte) : Bool := nbits (recAttr r) 0 1 == 1
def attrSpan (r : List Byte) : Bool := nbits (recAttr r) 1 1 == 1
def attrLocal (r : List Byte) : Bool := nbits (recAttr r) 2 1 == 1
def attrTbl (r : List Byte) : Bool := nbits (recAttr r) 3 1 == 1
def attrSpri (r : List Byte) : Nat := nbits (recAttr r) 4 2

/-- A kernel of a context, and its replacement. -/
def State.kernel (s : State) (ctx kid : Nat) : Option Kernel := tget (s.ctx ctx).kernels kid
def State.modKernel (s : State) (ctx kid : Nat) (g : Kernel → Kernel) : State :=
  match s.kernel ctx kid with
  | some k => s.modCtx ctx fun x => { x with kernels := tput x.kernels kid (g k) }
  | none => s

/-- The index of an item from 0 (R286). -/
def Kernel.idx (k : Kernel) (iid : Nat) : Nat := iid - recIbase k.record

/-- The kernel and the item of a strand. -/
def State.kernelOf (s : State) (st : Strand) : Option Kernel := s.kernel st.ctx st.kid
def State.itemOf (s : State) (st : Strand) : Option Item :=
  (s.kernelOf st).bind fun k => tget k.items (k.idx st.iid)
def State.modItem (s : State) (ctx kid iid : Nat) (g : Item → Item) : State :=
  s.modKernel ctx kid fun k => match tget k.items (k.idx iid) with
    | some it => { k with items := tput k.items (k.idx iid) (g it) }
    | none => k

/-- Bytes of the item's scratchpad (R189, R279). -/
def State.scrSize (s : State) (st : Strand) : Nat :=
  match s.kernelOf st with
  | some k => recScr k.record * 256
  | none => 0

def State.scrGet (s : State) (st : Strand) (off : Nat) : Byte :=
  match s.itemOf st with
  | some it => cget it.scr off
  | none => 0
def State.scrGets (s : State) (st : Strand) (off : Nat) : Nat → List Byte
  | 0 => []
  | n + 1 => s.scrGet st off :: s.scrGets st (off + 1) n
def State.scrPuts (s : State) (st : Strand) (off : Nat) (bs : List Byte) : State :=
  s.modItem st.ctx st.kid st.iid fun it => { it with scr := cputs it.scr off bs }

/-- The kernel uses its cores' tables (R188). -/
def State.usesTables (s : State) (st : Strand) : Bool :=
  match s.kernelOf st with
  | some k => attrTbl k.record
  | none => false

/-- LACE, LACELD, DTLD and DECODE of a kernel with TBL clear raise ILLOP (R188). -/
def tablePre (s : State) (st : Strand) (_ : Mask) : Option Nat := if s.usesTables st then none else some 0

/-- The item of a replayable kernel becomes committed (R289). -/
def State.commit (s : State) (st : Strand) : State :=
  match s.kernelOf st with
  | some k => if attrRpl k.record then s.modItem st.ctx st.kid st.iid fun it => { it with committed := true } else s
  | none => s

/-- Applies a step for each thread of a mask in ascending order. -/
def eachThread {α : Type} (m : Mask) (g : Nat → α → α) (x : α) : α :=
  ((List.range 16).filter (mHas m)).foldl (fun a t => g t a) x

/-- A thread's words of a field that is not indirect. -/
def Strand.words (st : Strand) (f : LFields) (r : Fld) (x : Nat) (ty : OTy) (t : Nat) : List Word :=
  match st.operand f r x ty 0 t with
  | .ok l => l
  | .error _ => []

/-- Writes consecutive registers of one thread. -/
def Strand.vputs (st : Strand) (n t : Nat) (ws : List Word) : Strand :=
  (ws.zipIdx).foldl (fun st p => st.vset (n + p.2) t p.1) st
/-- Writes consecutive scalar registers. -/
def Strand.sputs (st : Strand) (n : Nat) (ws : List Word) : Strand :=
  (ws.zipIdx).foldl (fun st p => st.sset (n + p.2) p.1) st

/-- Writes words to the class that a destination field names: a vector register in every thread of the mask, or scalars
once. -/
def Strand.putDest (st : Strand) (x : Nat) (m : Mask) (ws : Nat → List Word) : Strand :=
  if x < 0x80 then eachThread m (fun t st => st.vputs x t (ws t)) st else st.sputs (x - 0x80) (ws (mLow m))

end Sys2Proof.Machine
end

