-- ==== Sys2Proof/Machine/Flight.lean ====
section
/-! DEFINITION. What is in flight: fault batches (R397 to R400), the error log (R273), operations with their counters
(R71) and completion marks (R339), the order of a strand's own accesses (R197, R198, R209), write-backs of wide
releases (R210), group records (R305 to R313, R325 to R327) and the end of a strand (R70, R309). -/

namespace Sys2Proof.Machine

/-! Fault batches and device writes. -/

/-- The cause code of a batch entry (R398). -/
def batchCause : Cause → Nat
  | .perm => 1
  | .tabl => 2
  | _ => 0

/-- Adds a fault to a batch: the same page and cause share one entry (R398). -/
def addEntry (l : List BatchEntry) (e : BatchEntry) : List BatchEntry :=
  match l with
  | [] => [e]
  | x :: r => if x.page = e.page ∧ x.cause = e.cause then { x with kind := x.kind ||| e.kind } :: r else x :: addEntry r e

/-- A batch entry for a fault at an address. -/
def faultEntry (va : Nat) (c : Cause) (lvl kind : Nat) : BatchEntry :=
  { page := va / 4096, level := lvl, cause := c, kind := kind }

/-- Forms a batch of a context: it takes the next sequence number and waits to be written (R397). -/
def State.openBatch (s : State) (ctx : Nat) (b : Batch) : State :=
  s.modCtx ctx fun x => { x with
    forming := x.forming ++ [{ b with seq := (x.fseq + x.forming.length) % 2 ^ 32 }] }

/-- A one-entry batch of a source that is no strand (R398, R399). -/
def State.openDeviceBatch (s : State) (ctx src die core : Nat) (kid : Nat) (e : BatchEntry) : State :=
  s.openBatch ctx
    { seq := 0, src := src, die := die, core := core, pc := 0, kid := kid, iid := 0, sid := 0, strand := none, op := 0,
      entries := [e] }

/-- A translation for a unit of a die, walked from the root (R390); a unit of no one die is numbered 3. -/
def State.devXlate (s : State) (d ctx va need : Nat) : Xl :=
  (s.walkFrom d [] ctx va need 4 (nbits (s.ctx ctx).root.toNat 12 34 * 4096) []).res

/-- The source, which `key` names, waits for its batch or for a parked walk (R392, R399). -/
def State.unitWaits (s : State) (ctx src key : Nat) : Bool :=
  let x := s.ctx ctx
  ((x.forming ++ x.batches).any fun b => b.src == src && b.op == key) || x.parkedUnits.contains (src, key)

/-- A batch of one entry for a source that is no strand: who it is, and its key (R399). -/
structure Source where
  src : Nat
  die : Nat
  core : Nat
  kid : Nat
  iid : Nat
  sid : Nat
  key : Nat
  deriving DecidableEq, Repr

/-- Numbers as one key. -/
def keyOf (l : List Nat) : Nat := l.foldl (fun n x => 2 ^ 40 * n + x) 1

/-- A source's walk has parked, or has met a fault, which opens its batch of one entry (R392, R399). -/
def State.unitPark (s : State) (ctx : Nat) (u : Source) : State :=
  s.modCtx ctx fun x => { x with parkedUnits := x.parkedUnits ++ [(u.src, u.key)] }
def State.unitBatch (s : State) (ctx : Nat) (u : Source) (e : BatchEntry) : State :=
  s.openBatch ctx
    { seq := 0, src := u.src, die := u.die, core := u.core, pc := 0, kid := u.kid, iid := u.iid, sid := u.sid, strand := none,
      op := u.key, entries := [e] }

/-- The page of an address is there for a unit of the device; else it goes to a batch of the source, or the source's walk is
parked (R392, R399). A source that waits for its batch or its walk makes no access. -/
def State.pageReady (s : State) (ctx : Nat) (u : Source) (va need : Nat) : State × Bool :=
  if s.unitWaits ctx u.src u.key then (s, false)
  else match s.devXlate u.die ctx va need with
    | .ok _ => (s, true)
    | .wait => (s, false)
    | .park => (s.unitPark ctx u, false)
    | .fault c lvl => (s.unitBatch ctx u (faultEntry va c lvl need), false)

/-- The sequence number of the batch that a context formed last. -/
def Ctx.lastBatch (x : Ctx) : Nat := (x.fseq + x.forming.length + 2 ^ 32 - 1) % 2 ^ 32

/-- The keys of a retry whose walk is parked until a sweep with MD completes (R392), and of one whose walk waits for a frame or a
link. -/
def parkedRetry : Nat := 2 ^ 32
def slowRetry : Nat := 2 ^ 32 + 1

/-- A write of a unit of a die and core to a context's virtual memory: done, or to be retried under a key; a fault opens a batch
with SRC 7 (R398, R399). -/
def State.devWrite (s : State) (die core ctx va : Nat) (bs : List Byte) (kid : Nat) (r : Retry) : State :=
  let again (s : State) (key : Nat) : State := s.modCtx ctx fun x => { x with retries := x.retries ++ [(key, r)] }
  match s.devXlate die ctx va kWrite with
  | .ok pa => s.devPuts pa bs ctx
  | .park => again s parkedRetry
  | .wait => again s slowRetry
  | .fault c lvl =>
    let s := s.openDeviceBatch ctx 7 die core kid (faultEntry va c lvl kWrite)
    again s (s.ctx ctx).lastBatch

/-! The error log. -/

/-- The 64 bytes of a record (R273). -/
def logBytes (cause : Word) (seq : Nat) (pc : DWord) (va kid iid sid time : Nat) : List Byte :=
  leBytes 4 cause.toNat ++ leBytes 4 seq ++ leBytes 8 pc.toNat ++ leBytes 8 va ++ leBytes 4 kid ++ leBytes 4 iid ++
  leBytes 4 sid ++ leBytes 8 time ++ leBytes 20 0

/-- Writes an already numbered record at its place in the ring; a record that is written raises the event (R272, R273). -/
def State.putLog (s : State) (ctx unit : Nat) (bs : List Byte) : State :=
  let seq := leVal ((bs.drop 4).take 4)
  let va := (s.ctx ctx).elog.toNat + 64 * (seq % 64)
  let t := s.devWrite (unit / 16) (unit % 16) ctx va bs (leVal ((bs.drop 24).take 4)) (.elog unit bs)
  match s.devXlate (unit / 16) ctx va kWrite with
  | .ok _ => t.ctxEvent ctx 5
  | _ => t

/-- Logs one error of the unit of a core (16 * die + core): its sequence number, and ELOVF when it overwrites a record (R273). -/
def State.logError (s : State) (ctx unit : Nat) (cause : Word) (pc : DWord) (va kid iid sid time : Nat) : State :=
  let x := s.ctx ctx
  let s := s.modCtx ctx fun x => { x with
    elogSeq := (x.elogSeq + 1) % 2 ^ 32, elovf := x.elovf || decide (64 ≤ x.elogSeq) }
  s.putLog ctx unit (logBytes cause x.elogSeq pc va kid iid sid time)

/-- Logs an engine error or a store's UNCORR of a strand (R199, R212). -/
def State.logEng (s : State) (st : Strand) (e : EngErr) : State :=
  s.logError st.ctx (16 * st.d + st.k) (causeWord e.cause 0 (some e.path)) e.pc e.va st.kid st.iid st.sid e.time

/-! A strand's translation faults and parked walks. -/

/-- The strand's lane lets go of it outside an instruction's end. -/
def State.leaveLane (s : State) (id : Nat) (st : Strand) : State := s.freeLane st id false

/-- A strand's access faults in translation at element e with the threads of m not yet done: the strand enters Faulted with
its checkpoint (R76, R400). `s1` and `st` hold what the earlier threads have done. -/
def State.xlFault (s1 : State) (id : Nat) (st : Strand) (e : Nat) (m : Mask) (ent : List BatchEntry) (a : AheadFrom) : State :=
  let s := s1.leaveLane id st
  s.putStrand id { st with
    run := .faulted, resume := some { elem := e, mask := m, kept := st.keptNow, upto := none }, ahead := some { entries := ent, start := a },
    runCount := 0, spin := st.spin.leave, hold := none, stalled := false, walkParked := false }

/-- A strand's walk parks: the strand is held at the parked thread (R392). -/
def State.xlPark (s1 : State) (id : Nat) (st : Strand) (e : Nat) (m : Mask) : State :=
  s1.putStrand id { st with
    walkParked := true, resume := some { elem := e, mask := m, kept := st.keptNow, upto := none } }

/-! Operations in flight. -/

/-- c p (R71). -/
def Strand.cnt (st : Strand) (p : Nat) : Nat := (cget st.c p).toNat
/-- An instruction that would raise the counter to 64 stalls (R71). -/
def Strand.full (st : Strand) (p : Nat) : Bool := decide (63 ≤ st.cnt p)

/-- The scalars that an operation is to write count as written by the path that issues it, and are due in it (R67, R106). -/
def Strand.expects (st : Strand) (op : Nat) (dests : List Nat) : Strand :=
  let ns := (dests.filter fun r => decide (128 ≤ r) && decide (r < 192)).map (· - 128)
  { st with
    due := st.due ++ ns.map fun n => (op, n), written := ns.foldl (fun w n => w ||| (1#64 <<< n)) st.written }

/-- A result due in scalar n arrives in a path, if it is one that issued the operation or came of it (R67). -/
def PathSt.arrive (p : PathSt) (op n : Nat) (x : Word) : PathSt :=
  if p.due.contains (op, n) then { p with s := cput p.s n x, due := p.due.filter (· != (op, n)) } else p
/-- It arrives in every path of the strand. -/
def Strand.arrive (st : Strand) (op n : Nat) (x : Word) : Strand :=
  let p := st.path.arrive op n x
  { st with s := p.s, due := p.due, stack := st.stack.map (·.mapPaths (·.arrive op n x)) }

/-- Starts an operation: its counter rises (R71). -/
def Strand.startOp (st : Strand) (path : Nat) (m : Mask) (k : OpKind) (accs : List Acc) (dests : List Nat) : Strand :=
  let st := st.expects st.nextOp dests
  { st with
    ops := st.ops ++ [{ id := st.nextOp, path := path, pc := st.pc, die := st.d, core := st.k, mask := m, kind := k, accs := accs, dests := dests,
                        fin := false, err := none, bad := 0, badCause := .uncorr, replies := [], applied := [], prog := 0, bits := 0, staged := [], parked := false }],
    nextOp := st.nextOp + 1, c := cput st.c path (cget st.c path + 1) }

/-- The strand is held in a stall: the instruction has had no effect and issues again (R71, R260). -/
def State.stallOn (s : State) (x : Issued) : State := s.putStrand x.id { x.st with stalled := true }

/-- The strand is held at the instruction with its request not yet accepted (R260). -/
def State.holdOn (s : State) (x : Issued) (r : Request) : State :=
  let s := { s with seqNo := s.seqNo + 1 }
  s.putStrand x.id { x.st with hold := some r, waitSeq := if x.st.hold.isSome then x.st.waitSeq else s.seqNo }

def Strand.op (st : Strand) (n : Nat) : Option Op := st.ops.find? (·.id == n)
def Strand.modOp (st : Strand) (n : Nat) (g : Op → Op) : Strand :=
  { st with ops := st.ops.map fun o => if o.id == n then g o else o }

/-- The operation is one of the strand's own accesses: a load, a store or an atomic (R225, R243). -/
def Op.isAccess (o : Op) : Bool :=
  match o.kind with
  | .load _ _ _ | .store _ | .atom _ _ _ _ => true
  | _ => false

/-- An access of the operation has not been performed. -/
def Op.unperformed (o : Op) : Bool := !o.fin && o.accs.any fun a => !a.done

/-- An earlier load, store or atomic of the strand has not been performed (R209). -/
def Strand.accPending (st : Strand) : Bool := st.ops.any fun o => o.isAccess && o.unperformed

/-- Two accesses share a byte. -/
def Acc.overlaps (a b : Acc) : Bool :=
  a.win == b.win && decide (a.pa < b.pa + b.size) && decide (b.pa < a.pa + a.size)

/-- An access of the scratchpad's bytes [lo, lo + n) stands before an unperformed access of the strand through its window
(R198). -/
def Strand.scrBusy (st : Strand) (lo n : Nat) : Bool :=
  st.ops.any fun o => o.isAccess && !o.fin && o.accs.any fun a =>
    !a.done && a.win == .scr && decide (a.pa < lo + n) && decide (lo < a.pa + a.size)

/-! Stage-ring control words (R334). -/

/-- The control word at a scratchpad offset. -/
def State.ringWord (s : State) (st : Strand) (off : Nat) : Nat := leVal (s.scrGets st off 8)
def State.ringPut (s : State) (st : Strand) (off w : Nat) : State := s.scrPuts st off (leBytes 8 w)
/-- PH, PEND and FERR of a control word. -/
def ringPh (w stage : Nat) : Bool := w.testBit stage
def ringPend (w stage : Nat) : Bool := w.testBit (16 + stage)
/-- Sets or clears one bit of a word. -/
def setBit (w n : Nat) (b : Bool) : Nat :=
  if w.testBit n then (if b then w else w - 2 ^ n) else (if b then w + 2 ^ n else w)

/-- A completion mark fires (R339). -/
def ringFire (w stage : Nat) : Nat :=
  if !ringPh w stage then setBit w stage true
  else if !ringPend w stage then setBit w (16 + stage) true
  else setBit w 32 true

/-- A stage is freed (R341). -/
def ringFree (w stage : Nat) : Nat :=
  if !ringPh w stage then setBit w 32 true
  else if ringPend w stage then setBit w (16 + stage) false
  else setBit w stage false

/-- A mark's operations have all completed. -/
def Strand.markReady (st : Strand) (m : Mark) : Bool := m.ops.all fun n =>
  match st.op n with
  | some o => o.fin
  | none => true

/-- Fires every mark whose operations have completed (R339). -/
def State.fireMarks (s : State) (id : Nat) : State :=
  match s.strand id with
  | none => s
  | some st =>
    let go := st.marks.filter st.markReady
    let s := s.putStrand id { st with marks := st.marks.filter fun m => !st.markReady m }
    go.foldl (fun s m => s.ringPut st m.off (ringFire (s.ringWord st m.off) m.stage)) s

/-- The operations whose counter may fall: completed, with every earlier one of their path completed, and with no unfired
mark that lists them (R71, R339). First the rest, then the fallen. -/
def fallen (held : List Nat) : List Nat → List Op → List Op × List Op
  | _, [] => ([], [])
  | bl, o :: r =>
    if o.fin && !bl.contains o.path && !held.contains o.id then
      let (x, y) := fallen held bl r
      (x, o :: y)
    else
      let (x, y) := fallen held (o.path :: bl) r
      (o :: x, y)

/-- The strand's stores to lines whose write-back waits for spill memory hold c1 (R410). -/
def Strand.spillHeld (st : Strand) (wait : List Nat) : List Nat :=
  (st.ops.filter fun o => (match o.kind with
    | .store _ => true
    | _ => false) && o.accs.any fun a => a.win == .glob && wait.contains (lineOf a.pa)).map (·.id)

/-- Counters fall in issue order, and the errors of what fell become pending on their paths (R71, R208); `wait` are the lines
whose write-back waits (R410). -/
def Strand.fall (st : Strand) (wait : List Nat) : Strand :=
  let (rest, gone) := fallen (st.spillHeld wait ++ st.marks.flatMap (·.ops)) [] st.ops
  { st with
    ops := rest, c := gone.foldl (fun c o => cput c o.path (cget c o.path - 1)) st.c,
    engErrs := st.engErrs ++ gone.filterMap (·.err) }

/-! Write-backs of wide releases (R210). -/

/-- Cores of the resident members of every group that a strand holds. -/
def State.groupOf (s : State) (g : Nat) : Option Group :=
  match (s.dies.findSome? fun d => tget d.groups g) with
  | some x => some x
  | none => (s.heldGroups.find? (·.1 == g)).map (·.2)

/-- The position of a strand as (die, core), while it is resident. -/
def State.posOf (s : State) (id : Nat) : Option (Nat × Nat) :=
  (s.strand id).bind fun st => if st.resident then some (st.d, st.k) else none

/-- Distinct elements in order. -/
def distinct {α : Type} [DecidableEq α] (l : List α) : List α :=
  l.foldl (fun r x => if r.contains x then r else r ++ [x]) []

/-- Cores that the resident members of the groups occupy. -/
def State.groupCores (s : State) (gs : List Nat) : List (Nat × Nat) :=
  distinct ((gs.flatMap fun g => match s.groupOf g with
    | some x => x.members
    | none => []).filterMap s.posOf)

/-- Group scope is wide for the strand: a member of its groups is not on its core, or is saved and may be restored on another
(R210, R324, R328). -/
def State.groupWide (s : State) (st : Strand) : Bool :=
  (st.slots.filterMap id).any fun g => match s.groupOf g with
    | some x => x.members.any fun m => s.posOf m != some (st.d, st.k)
    | none => false

/-- A release at a scope still has data to write back. -/
def State.needsWb (s : State) (d c scope : Nat) (wide : Bool) : Bool :=
  (decide (3 ≤ scope) || (scope == 1 && wide)) &&
  ((s.core d c).l1.any (fun e => e.2.dirty) || (decide (4 ≤ scope) && (s.die d).copies.any fun e => e.2.dirty))

/-- Everything that a release of the strand at this scope waits for has come about: its earlier accesses are performed and
nothing is left to write back (R209, R210). -/
def State.relReady (s : State) (st : Strand) (scope : Nat) : Bool :=
  !st.accPending && !s.needsWb st.d st.k scope (s.groupWide st)

/-- A request that a release at package scope precedes must wait: earlier accesses are unperformed, or data of the die waits
for a link (R209, R431). -/
def State.relBlocked (s : State) (st : Strand) : Bool :=
  st.accPending || (s.die st.d).copies.any fun e => e.2.dirty && s.linkSlow st.d (homeDie e.1)

/-- The release and acquire actions of a strand at a scope (R210). -/
def State.relAct (s : State) (st : Strand) (scope : Nat) : State := s.release st.d st.k scope (s.groupWide st)
def State.acqAct (s : State) (st : Strand) (scope : Nat) : State := s.acquire st.d st.k scope (s.groupWide st)

/-! Waits that end (R78). -/

/-- A strand that may complete its wait: resident, in an Active context, and not marked to be saved. -/
def State.canWake (s : State) (st : Strand) : Bool := st.resident && !st.stop && (s.ctx st.ctx).state == 2

/-- The strand whose wait began first, of those whose wait can end: when it began, and the state after it (R330, R342). -/
def firstDue (g : Nat → Strand → Option State) : List (Nat × Strand) → Option (Nat × State)
  | [] => none
  | (id, st) :: r =>
    match firstDue g r with
    | none => (g id st).map fun u => (st.waitSeq, u)
    | some (q, t) =>
      if q < st.waitSeq then some (q, t)
      else match g id st with
        | some u => some (st.waitSeq, u)
        | none => some (q, t)

/-- Ends waits, the earliest first, until none can end; each pass ends one. -/
def State.runDue (g : State → Nat → Strand → Option State) : Nat → State → State
  | 0, s => s
  | n + 1, s => match firstDue (g s) s.strands with
    | some (_, t) => State.runDue g n t
    | none => s

/-- A RINGW or RINGP whose stage has come completes (R338, R340). -/
def State.ringWake (s : State) (id : Nat) (st : Strand) : Option State :=
  if !s.canWake st then none
  else match st.run with
    | .waiting (.ringw off k full) len =>
      if ringPh (s.ringWord st off) k == full then some ((s.acqAct st 2).wakeAt id st len) else none
    | .waiting (.ringp off k) len =>
      let w := s.ringWord st off
      if ringPh w k || st.accPending then none else some ((s.ringPut st off (setBit w k true)).wakeAt id st len)
    | _ => none

/-- The strand waits at a stage ring. -/
def Strand.atRing (st : Strand) : Bool :=
  match st.run with
  | .waiting (.ringw _ _ _) _ | .waiting (.ringp _ _) _ => true
  | _ => false

/-- A store into the scratchpad: the ring's waiters are evaluated after the change (R336, R342). -/
def State.padPuts (s : State) (st : Strand) (off : Nat) (bs : List Byte) : State :=
  let s := s.scrPuts st off bs
  if s.strands.any fun e => e.2.atRing then State.runDue State.ringWake s.strands.length s else s

/-! Group records. -/

/-- Changes one group record wherever it lies. -/
def State.modGroup (s : State) (g : Nat) (h : Group → Group) : State :=
  { s with
    dies := s.dies.map fun d => match tget d.groups g with
      | some x => { d with groups := tput d.groups g (h x) }
      | none => d,
    heldGroups := s.heldGroups.map fun e => if e.1 == g then (e.1, h e.2) else e }

/-- Frees a group record. -/
def State.dropGroup (s : State) (g : Nat) : State :=
  { s with dies := s.dies.map fun d => { d with groups := tdel d.groups g },
           heldGroups := s.heldGroups.filter fun e => e.1 != g }

/-- The largest count that the phase's arrivals carried; 0 stands for the member count (R326). -/
def Group.need (g : Group) : Nat :=
  g.arrived.foldl (fun n a => max n (if a.2 = 0 then g.members.length else a.2)) 0

/-- The phase completes when every member has arrived and the count is reached (R326). -/
def Group.check (g : Group) : Group :=
  if !g.members.isEmpty && g.members.all (fun m => g.arrived.any fun a => a.1 == m) && decide (g.need ≤ g.members.length)
  then { g with phase := (g.phase + 1) % 2 ^ 32, arrived := [] }
  else g

/-- A member leaves: ranks above it fall, its arrival is withdrawn, and the phase is evaluated again (R307, R327). -/
def Group.leave (g : Group) (id : Nat) : Group :=
  Group.check { g with members := g.members.filter (· != id), arrived := g.arrived.filter fun a => a.1 != id }

/-- The strand leaves the group of one slot (R312). -/
def State.leaveSlot (s : State) (id slot : Nat) : State :=
  match s.strand id with
  | none => s
  | some st =>
    match nth none st.slots slot with
    | none => s
    | some g =>
      let s := s.putStrand id { st with slots := upd st.slots slot none }
      match s.groupOf g with
      | none => s
      | some x => if x.members.all (· == id) then s.dropGroup g else s.modGroup g fun x => x.leave id

/-- The strand leaves every group it holds, in slot order (R309). -/
def State.leaveGroups (s : State) (id : Nat) : State :=
  [0, 1, 2, 3].foldl (fun s k => s.leaveSlot id k) s

/-! The end of a strand. -/

/-- A change of every channel of a strand's kernel. -/
def State.modChans (s : State) (st : Strand) (g : Chan → Chan) : State :=
  s.modKernel st.ctx st.kid fun k => { k with chans := k.chans.map g }

/-- The receiver of a channel enters Draining or is discarded: the channel is Unbound again (R436). -/
def Chan.unbind (id : Nat) (c : Chan) : Chan := if c.state = 1 ∧ c.recv = id then { c with state := 0, recv := 0 } else c
/-- The strand is no endpoint any more (R435). -/
def Chan.unsend (id : Nat) (c : Chan) : Chan := { c with senders := c.senders.filter (· != id) }

/-- A Draining strand whose counters are zero reaches Exited: its place is released and its undelivered engine errors go to
the error log (R70, R212). -/
def State.drained (s : State) (id : Nat) : State :=
  match s.strand id with
  | none => s
  | some st =>
    if st.run == .draining && st.ops.isEmpty && st.loc.isSome then
      let s := st.engErrs.foldl (fun s e => s.logEng st e) s
      let s := (s.leaveLane id st).modChans st (Chan.unsend id)
      s.putStrand id { st with run := .exited, loc := none, lastCore := 16 * st.d + st.k, engErrs := [], v := [], pend := [] }
    else s

/-- Lines whose write-back waits for spill memory (R410). -/
def State.waitLines (s : State) : List Nat := s.dies.flatMap fun x => (x.parked.filter (·.waiting)).map (·.line)

/-- The pending trap that a completed operation leaves (R199). -/
def opPends (q : Option Op) (n : Nat) : List Pend :=
  match q with
  | some o => if o.bad = 0 then [] else [{
      info := { cause := o.badCause, epc := o.pc, emask := o.bad, detail := 0, eng := none }, reissue := true, op := n }]
  | none => []

/-- An operation completes: a load or atomic that met EXPIRED or UNCORR leaves a pending trap (R199), marks fire,
counters fall, and a Draining strand may end. -/
def State.completeOp (s : State) (id n : Nat) : State :=
  match s.strand id with
  | none => s
  | some st =>
    let st := st.modOp n fun o => { o with fin := true }
    let s := (s.putStrand id { st with pend := st.pend ++ opPends (st.op n) n }).fireMarks id
    (s.modStrand id fun st => st.fall s.waitLines).drained id

/-- No thread remains: the strand leaves its groups and drains (R70, R309). -/
def State.drain (s : State) (id : Nat) : State :=
  let s := s.leaveGroups id
  let s := match s.strand id with
    | some st => s.modChans st (Chan.unbind id)
    | none => s
  let s := s.modStrand id fun st => { st with
    run := .draining, frame := none, resume := none, hold := none, stalled := false, runCount := 0, spin := Spin.empty }
  s.drained id

end Sys2Proof.Machine
end

