-- ==== Sys2Proof/Machine/Seed.lean ====
section
/-! DEFINITION. Seed records, the basis stream and the seed table of a core (R371 to R378, R381, R384). -/

namespace Sys2Proof.Machine

/-! The record. -/

/-- First byte of the seed table in the B-slice (R375); it reaches to the slice's end. -/
def seedBase : Nat := 0xA0000

def seedK (r : List Byte) : Nat := 16 * 2 ^ nbits (recField r 0 1) 0 2
def seedN (r : List Byte) : Nat := 16 * 2 ^ nbits (recField r 0 1) 2 2
def seedJ (r : List Byte) : Nat := recField r 1 1
/-- A signed byte of a record. -/
def seedInt (r : List Byte) (off : Nat) : Int := (nth 0 r off).toInt
def seedE (r : List Byte) : Int := seedInt r 2
def seedSigma (r : List Byte) : BitVec 64 := BitVec.ofNat 64 (recField r 8 8)
def seedCoef (r : List Byte) (j : Nat) : Int := seedInt r (16 + j)

/-- A well-formed record (R371, R372). -/
def seedOk (r : List Byte) : Bool :=
  let sh := recField r 0 1
  let j := seedJ r
  r.length == 96 && sh / 16 == 0 && sh % 4 != 3 && sh / 4 % 4 != 3 && recField r 3 1 == 0 && decide (1 ≤ j) &&
    decide (j ≤ 64) && (r.drop (16 + j)).all (· == 0)

/-- One step of the Galois register (R374). -/
def lfsrStep (s : BitVec 64) : BitVec 64 :=
  let t := s >>> 1
  if s.getLsbD 0 then t ^^^ 0xD800000000000000 else t

/-- The register after n steps. -/
def lfsrAt (s : BitVec 64) : Nat → BitVec 64
  | 0 => s
  | n + 1 => lfsrAt (lfsrStep s) n

/-- Stream bit i of a seed (R374). -/
def lfsrBit (s : BitVec 64) (i : Nat) : Bool := (lfsrAt s i).getLsbD 0

/-- The sign of basis j at (k, n) for K x N: 1, -1, or 0 for a zero seed (R357, R373). -/
def basisSign (s : BitVec 64) (kk nn j k n : Nat) : Int :=
  if s = 0 then 0 else if lfsrBit s ((j * nn + n) * kk + k) then 1 else -1

/-! The table of one core. -/

/-- Offset of a slot (R375). -/
def seedOff (slot : Nat) : Nat := seedBase + 96 * slot
/-- The bytes of a slot. -/
def Core.seedBytes (x : Core) (slot : Nat) : List Byte := cgets x.bslice (seedOff slot) 96

/-- The slot is Valid for this kernel (R376, R384). -/
def Core.seedValid (x : Core) (owner : Nat × Nat) (slot : Nat) : Bool :=
  match tget x.seeds slot with
  | some q => q.owner == owner && !q.retiring
  | none => false

/-- Some strand of a kernel is resident on a core. -/
def State.kernelOn (s : State) (owner : Nat × Nat) (d c : Nat) : Bool :=
  s.strands.any fun e => e.2.resident && e.2.ctx == owner.1 && e.2.kid == owner.2 && e.2.d == d && e.2.k == c

/-- The slot is not to be written for this kernel: Retiring, captured, or of another kernel resident on the core (R377,
R378, R380). -/
def State.seedHeld (s : State) (d c : Nat) (owner : Nat × Nat) (slot : Nat) : Bool :=
  match tget (s.core d c).seeds slot with
  | some q => q.retiring || decide (0 < q.captures) || (q.owner != owner && s.kernelOn q.owner d c)
  | none => false

/-- Writes a record into a slot: Valid for the kernel (R380, R384). -/
def State.seedPut (s : State) (d c : Nat) (owner : Nat × Nat) (slot src : Nat) (bs : List Byte) : State :=
  s.modCore d c fun x => { x with
    seeds := tput x.seeds slot { owner := owner, src := src, retiring := false, captures := 0 },
    bslice := cputs x.bslice (seedOff slot) bs }

/-- One core's slot is dropped for its owner: Free, or Retiring while captured (R381). -/
def Core.seedDrop (x : Core) (owner : Nat × Nat) (slot : Nat) : Core :=
  match tget x.seeds slot with
  | some q =>
    if q.owner == owner && !q.retiring then
      { x with
        seeds := if q.captures = 0 then tdel x.seeds slot else tput x.seeds slot { q with retiring := true },
        bslice := cclear x.bslice (seedOff slot) (seedOff slot + 96) }
    else x
  | none => x

/-- A change of every core. -/
def State.allCoresMod (s : State) (g : Core → Core) : State :=
  { s with dies := s.dies.map fun d => { d with cores := d.cores.map g } }

/-- Drops a slot of the kernel's seed list everywhere; a slot that is not in the list stays (R381). -/
def State.seedDropAll (s : State) (owner : Nat × Nat) (slot : Nat) : State :=
  match (s.kernel owner.1 owner.2).bind fun k => tget k.seeds slot with
  | some _ =>
    (s.modKernel owner.1 owner.2 fun k => { k with seeds := tdel k.seeds slot }).allCoresMod fun x => x.seedDrop owner slot
  | none => s

/-- A kernel that is Done or Lost, or whose context is Retired, drops its whole list (R381). -/
def State.seedDropKernel (s : State) (owner : Nat × Nat) : State :=
  match s.kernel owner.1 owner.2 with
  | some k => k.seeds.foldl (fun s e => s.seedDropAll owner e.1) s
  | none => s

/-- An operation captures slots, or lets go of them (R378, R381). -/
def Core.capture (x : Core) (slots : List Nat) : Core :=
  { x with seeds := slots.foldl (fun t n => match tget t n with
    | some q => tput t n { q with captures := q.captures + 1 }
    | none => t) x.seeds }
def Core.uncapture (x : Core) (slots : List Nat) : Core :=
  { x with seeds := slots.foldl (fun t n => match tget t n with
    | some q => if q.retiring && decide (q.captures ≤ 1) then tdel t n else tput t n { q with captures := q.captures - 1 }
    | none => t) x.seeds }

/-! Waits for a slot (R384). -/

/-- What waits for a slot of the core still waits: the strand holds its SEEDLD of the slot here, the SEEDLD still loads its record
on further cores, or the placement has not been made. -/
def State.seedLive (s : State) (d c slot : Nat) : List Nat → Bool
  | [id] => (s.strand id).any fun st => st.resident && st.d == d && st.k == c && match st.hold with
      | some (.seedld f) => (st.sval f.b.toNat).toNat == slot
      | _ => false
  | [id, n] => (s.strand id).any fun st => (st.op n).any fun o => !o.fin
  | [ctx, kid, iid, sid] => (s.ctx ctx).state == 2 && match s.kernel ctx kid with
      | some k => (match tget k.items (k.idx iid) with
          | some _ => s.strands.any fun e => e.2.ctx == ctx && e.2.kid == kid && e.2.iid == iid && e.2.sid == sid && e.2.loc.isNone
          | none => decide (k.count ≤ k.idx iid) && !k.completed.contains (k.idx iid))
      | none => false
  | _ => false

/-- It is the turn of this waiter at the slot: none that began before it still waits. -/
def State.seedTurn (s : State) (d c slot : Nat) (who : List Nat) : Bool :=
  match (s.core d c).seedWait.find? fun e => e.1 == slot && (e.2 == who || s.seedLive d c slot e.2) with
  | some e => e.2 == who
  | none => true

/-- It waits for the slot from now on, if it does not yet. -/
def State.seedQueue (s : State) (d c slot : Nat) (who : List Nat) : State :=
  s.modCore d c fun x => { x with
    seedWait := if x.seedWait.contains (slot, who) then x.seedWait else x.seedWait ++ [(slot, who)] }
/-- What waits no longer leaves every core's list. -/
def State.seedTidy (s : State) : State :=
  if s.dies.all fun d => d.cores.all fun c => c.seedWait.isEmpty then s
  else ([0, 1, 2] : List Nat).foldl (fun s d => (List.range 16).foldl (fun s c =>
    s.modCore d c fun x => { x with seedWait := x.seedWait.filter fun e => s.seedLive d c e.1 e.2 }) s) s
/-- It waits no longer. -/
def State.seedUnqueue (s : State) (d c slot : Nat) (who : List Nat) : State :=
  s.modCore d c fun x => { x with seedWait := x.seedWait.filter (· != (slot, who)) }

/-! Reloads (R377). -/

/-- What the read of a record gives: its bytes, a wait, a parked walk, a missing page, or a cause that counts as malformed. -/
inductive RecRead where
  | ok (bs : List Byte)
  | wait
  | park
  | page (va lvl : Nat)
  | bad (c : Cause)

/-- Reads n pieces of 16 bytes of a context's virtual memory for a unit of die d. -/
def State.devRead (s : State) (d ctx va : Nat) : Nat → RecRead
  | 0 => .ok []
  | n + 1 =>
    match s.devXlate d ctx va kRead with
    | .park => .park
    | .wait => .wait
    | .fault .page lvl => .page va lvl
    | .fault c _ => .bad c
    | .ok pa =>
      if s.heldFroms d pa 16 then .wait
      else match (List.range 16).findSome? fun i => s.readBadFrom d (pa + i) with
        | some c => .bad c
        | none => match s.devRead d ctx (va + 16) n with
          | .ok bs => .ok (cgets s.mem pa 16 ++ bs)
          | r => r

/-- The placement of a strand on a core, for which records are reloaded, or the SEEDLD of the strand, as strand and operation, that
loads its record there (R380). -/
structure Placing where
  load : Option (Nat × Nat)
  ctx : Nat
  kid : Nat
  iid : Nat
  sid : Nat
  die : Nat
  core : Nat
  deriving DecidableEq, Repr

def Placing.owner (p : Placing) : Nat × Nat := (p.ctx, p.kid)
def Placing.who (p : Placing) : List Nat := match p.load with
  | some q => [q.1, q.2]
  | none => [p.ctx, p.kid, p.iid, p.sid]
/-- The reload of a slot for a placement as a source of batches (R398). -/
def Placing.source (p : Placing) (slot : Nat) : Source :=
  { src := 6, die := p.die, core := p.core, kid := p.kid, iid := p.iid, sid := p.sid,
    key := keyOf [p.die, p.core, p.kid, p.iid, p.sid, slot] }

/-- What a reload of one listed record comes to: nothing to do, a wait, or its bytes or a cause that leaves the slot Free. -/
inductive Reload where
  | none
  | wait
  | park
  | page (va lvl : Nat)
  | held
  | put (bs : List Byte)
  | free (c : Option Cause)

/-- The record's source is read again as memory then stands (R377). -/
def State.reloadRead (s : State) (p : Placing) (slot src : Nat) : Reload :=
  if (s.core p.die p.core).seedValid p.owner slot then .none
  else if s.unitWaits p.ctx 6 (p.source slot).key then .wait
  else match s.devRead p.die p.ctx src 6 with
    | .wait => .wait
    | .park => .park
    | .page va lvl => .page va lvl
    | .bad c => .free (some c)
    | .ok bs =>
      if !seedOk bs then .free none
      else if s.seedHeld p.die p.core p.owner slot || !s.seedTurn p.die p.core slot p.who then .held
      else .put bs

/-- One record may be reloaded now, or what it waits for is begun (R377, R399). -/
def State.reloadReady (s : State) (p : Placing) (slot src : Nat) : State × Bool :=
  match s.reloadRead p slot src with
  | .none | .put _ | .free _ => (s, true)
  | .wait => (s, false)
  | .held => (s.seedQueue p.die p.core slot p.who, false)
  | .park => (s.unitPark p.ctx (p.source slot), false)
  | .page va lvl => (s.unitBatch p.ctx (p.source slot) (faultEntry va .page lvl kRead), false)

/-- The reload itself: the slot is Valid with the bytes read, or left Free, with a log record where its source could not be read
(R377). -/
def State.reloadDo (s : State) (p : Placing) (slot src : Nat) : State :=
  match s.reloadRead p slot src with
  | .put bs => (s.seedPut p.die p.core p.owner slot src bs).seedUnqueue p.die p.core slot p.who
  | .free c =>
    let s := if s.seedHeld p.die p.core p.owner slot then s else s.modCore p.die p.core fun x => x.seedDrop p.owner slot
    match c with
    | some c => s.logError p.ctx (16 * p.die + p.core) (causeWord c slot none) 0 src p.kid p.iid p.sid s.gtime
    | none => s
  | _ => s

/-- The seed list of a placement's kernel. -/
def State.seedList (s : State) (p : Placing) : List (Nat × Nat) := match s.kernel p.ctx p.kid with
  | some k => k.seeds.map fun e => (e.1, e.2)
  | none => []

/-- Every listed record can be reloaded now (R377). -/
def State.seedsReady (s : State) (p : Placing) : State × Bool :=
  (s.seedList p).foldl (fun q e =>
    let r := q.1.reloadReady p e.1 e.2
    (r.1, q.2 && r.2)) (s, true)

/-- Every listed record is Valid on the core, or Free for good, before the strand is placed there (R377). -/
def State.seedsLoad (s : State) (p : Placing) : State := (s.seedList p).foldl (fun s e => s.reloadDo p e.1 e.2) s

end Sys2Proof.Machine
end

