-- ==== Sys2Proof/Machine/Access.lean ====
section
/-! DEFINITION. How an access is formed and performed: addresses and windows (R189 to R195), the checks of each thread
(R76, R190, R191), translation at issue, and what a load, a store, an atomic or an exact-sum operation does when it is
performed (R196 to R206, R210, R211, R237 to R241). -/

namespace Sys2Proof.Machine

/-- Why a thread's access stops at issue. -/
inductive MStop where
  | trap (c : Cause) (detail : Nat)
  | fault (c : Cause) (level va : Nat)
  | park
  /-- The walk waits for a Parked frame or a retraining link. -/
  | wait
  deriving DecidableEq, Repr

/-- Bytes of the B-slice (R189). -/
def bsliceSize : Nat := 2 ^ 20

/-- disp4 of R193. -/
def disp4 (f : LFields) : Int := (f.h ++ f.w).toInt

/-- The index of thread t (R193). -/
def Strand.memIndex (st : Strand) (f : LFields) (t : Nat) : Int :=
  let x := f.b.toNat
  if x < 0x80 then (st.vget x t).toInt else if x < 0xC0 then (st.sget (x - 0x80)).toInt else (x : Int) - 0xC0

/-- The base pointer of thread t (R193). -/
def Strand.memBase (st : Strand) (f : LFields) (t : Nat) : Nat :=
  let x := f.a.toNat
  if x < 0x80 then (st.vget (x + 1) t ++ st.vget x t).toNat else (st.sget64 (x - 0x80)).toNat

/-- The generic address of thread t (R193). -/
def Strand.memAddr (st : Strand) (f : LFields) (size : Nat) (index : Int) (t : Nat) : Nat :=
  (((st.memBase f t : Int) + index * size + disp4 f * size) % (2 ^ 64 : Nat)).toNat

/-- What an access does at its window: a read, a write, or an exact-sum operation, which has the global window only. -/
inductive AKind where
  | read
  | write
  | exact
  deriving DecidableEq, Repr

/-- The window and the offset of an access, in the order WINDOW, ALIGN, SEEDRO (R189 to R191, R274). -/
def windowOf (scr : Nat) (k : AKind) (n al va : Nat) : Except Cause (Win × Nat) :=
  let off := va % 2 ^ 48
  let align (r : Except Cause (Win × Nat)) : Except Cause (Win × Nat) := if va % al ≠ 0 then .error .align else r
  match va / 2 ^ 48 with
  | 0 => if off + n > 2 ^ 48 then .error .window else align (.ok (.glob, off))
  | 0xFFFE => if k == .exact || decide (off + n > scr) then .error .window else align (.ok (.scr, off))
  | 0xFFFD =>
    if k == .exact || decide (off + n > bsliceSize) then .error .window
    else if k == .write then (if seedBase ≤ off then align (.error .seedro) else .error .window)
    else align (.ok (.bsl, off))
  | _ => .error .window

/-- A strand's access at one address: the checks and the translation (R190, R191, R390). -/
def State.formAcc (s : State) (st : Strand) (k : AKind) (need n al va t : Nat) : State × Except MStop Acc :=
  match windowOf (s.scrSize st) k n al va with
  | .error c => (s, .error (.trap c 0))
  | .ok (w, off) =>
    let acc (pa : Nat) : Acc :=
      { thread := t, win := w, va := va, pa := pa, size := n, reg := 0, data := 0, data2 := 0, done := false }
    match w with
    | .glob =>
      match s.translate st.ctx st.d st.k (some st.ln) off need with
      | (s, .ok pa) => (s, .ok (acc pa))
      | (s, .park) => (s, .error .park)
      | (s, .wait) => (s, .error .wait)
      | (s, .fault c lvl) => (s, .error (.fault c lvl off))
    | _ => (s, .ok (acc off))

/-- The destination register of a thread: an indirect one through its window (R62). -/
def Strand.destOf (st : Strand) (r : Fld) (x t : Nat) : Except MStop Nat :=
  if isInd r x then
    match st.resolve (x - 0xC0) t with
    | some n => .ok n
    | none => .error (.trap .index (x - 0xC0))
  else .ok x

/-- Forms the accesses of threads in order until one stops (R76). -/
def scanAccs (g : Nat → State → State × Except MStop Acc) :
    List Nat → State → List Acc → State × List Acc × Option (Nat × MStop)
  | [], s, l => (s, l, none)
  | t :: r, s, l =>
    match g t s with
    | (s, .ok a) => scanAccs g r s (l ++ [a])
    | (s, .error e) => (s, l, some (t, e))

/-- Threads of a mask in order. -/
def threads (m : Mask) : List Nat := (List.range 16).filter (mHas m)

/-! Performing. -/

/-- Bytes as the registers of a load (R195). -/
def loadWords (m3 : Nat) (bs : List Byte) : List Word :=
  let v := leVal bs
  match m3 with
  | 0 => [(BitVec.ofNat 8 v).signExtend 32]
  | 1 => [BitVec.ofNat 32 v]
  | 2 => [(BitVec.ofNat 16 v).signExtend 32]
  | 3 | 4 => [BitVec.ofNat 32 v]
  | 5 => (List.range 2).map fun i => BitVec.ofNat 32 (v / 2 ^ (32 * i))
  | _ => (List.range 4).map fun i => BitVec.ofNat 32 (v / 2 ^ (32 * i))

/-- Bytes of an access size (R195). -/
def sizeOf3 (m3 : Nat) : Nat := nth 4 [1, 1, 2, 2, 4, 8, 16] m3
/-- Registers of an access size (R195). -/
def regsOf3 (m3 : Nat) : Nat := if m3 = 5 then 2 else if m3 = 6 then 4 else 1

/-- The bytes an access reads in its window. -/
def State.accBytes (s : State) (st : Strand) (a : Acc) : List Byte :=
  match a.win with
  | .glob => s.coreGets st.d st.k a.pa a.size
  | .scr => s.scrGets st a.pa a.size
  | .bsl => cgets (s.core st.d st.k).bslice a.pa a.size

/-- A computing die in the present mode (R18). -/
def State.computing (s : State) (d : Nat) : Bool := decide (d ≤ s.dsCur)
/-- Every computing core as (die, core). -/
def State.allCores (s : State) : List (Nat × Nat) :=
  ((List.range 3).filter s.computing).flatMap fun d => (List.range 16).map fun c => (d, c)

/-- Every computing core that die d reaches answers the promotion request for a line (R241). -/
def State.promoteAll (s : State) (d line : Nat) : State :=
  s.allCores.foldl (fun s c => if s.linkUp d c.1 then s.promote c.1 c.2 line else s) s
/-- No core that die d can reach holds a release of the line back (R240): nothing of it waits for a link. -/
def State.promoted (s : State) (d line : Nat) : Bool :=
  s.allCores.all fun c => s.linkDead d c.1 || !((s.core c.1 c.2).filterAny || (s.core c.1 c.2).filter.contains line)
/-- The promotion of the lines that an .rmt acquire names. -/
def State.promoteAccs (s : State) (d : Nat) (o : OrdInfo) (as : List Acc) : State :=
  if o.rmt then as.foldl (fun s a => if a.win == .glob then s.promoteAll d (lineOf a.pa) else s) s else s
def State.promotedAccs (s : State) (d : Nat) (o : OrdInfo) (as : List Acc) : Bool :=
  !o.rmt || as.all fun a => a.win != .glob || s.promoted d (lineOf a.pa)

/-- The acquire actions of an access: an .rmt acquire is performed at package scope (R210, R241). -/
def State.accAcquire (s : State) (st : Strand) (o : OrdInfo) : State :=
  if !o.acq then s
  else if o.rmt then s.acqAct st 4
  else s.acqAct st o.scope

/-- A core-scope release records its line (R241). -/
def State.accRelease (s : State) (st : Strand) (o : OrdInfo) (a : Acc) : State :=
  if o.rel && o.scope == 2 && a.win == .glob then s.recordRelease st.d st.k (some (lineOf a.pa)) else s

/-- What performing gives: the state, the strand with what it received, and the failure met (R199). -/
structure Perf where
  s : State
  st : Strand
  bad : Option Cause

/-- A load at one address performed for the accesses listed, which share it (R196); none while its frame's parked writes
have not replayed (R410) or its link retrains (R431). -/
def State.performLoad (s : State) (st : Strand) (m3 : Nat) (o : OrdInfo) (as : List Acc) : Option Perf :=
  match as with
  | [] => some { s := s, st := st, bad := none }
  | a :: _ =>
    if a.win == .glob && s.readHeld st.d st.k a.pa a.size then none
    else
      let s := s.accAcquire st o
      let bad := if a.win == .glob then s.coreBads st.d st.k a.pa a.size else none
      match bad with
      | some c => some { s := s, st := st, bad := some c }
      | none =>
        let ws := loadWords m3 (s.accBytes st a)
        let s := if a.win == .glob then s.touch st.d st.k a.pa o.hint else s
        some { s := s, st := as.foldl (fun st a => st.vputs a.reg a.thread ws) st, bad := none }

/-- A store performed (R197); `bad` is UNCORR when a lost line was met and not replaced whole (R199, R459). -/
def State.performStore (s : State) (st : Strand) (o : OrdInfo) (a : Acc) : State :=
  let bs := leBytes a.size a.data
  let s := s.accRelease st o a
  match a.win with
  | .glob => s.corePuts st.d st.k a.pa bs st.ctx o.hint
  | .scr => s.scrPuts st a.pa bs
  | .bsl => s

/-- The first access of a store to a lost line that the store does not replace whole (R199). -/
def State.lostStore (s : State) (as : List Acc) : Option Acc :=
  as.find? fun a => a.win == .glob && (s.die (homeDie a.pa)).lost.contains (lineOf a.pa) &&
    !((List.range 128).all fun i => as.any fun b =>
        b.win == .glob && decide (b.pa ≤ 128 * lineOf a.pa + i) && decide (128 * lineOf a.pa + i < b.pa + b.size))

/-- Logs a store's UNCORR (R199, R273). -/
def State.storeUncorr (s : State) (st : Strand) (pc : DWord) (as : List Acc) : State :=
  match s.lostStore as with
  | some a => s.logEng st { path := 1, cause := .uncorr, pc := pc, va := a.va, time := s.gtime }
  | none => s

/-- A thread's result of an atomic whose location held this value (R202). -/
def atomWords (ty old : Nat) : List Word :=
  (List.range (if ty = 3 then 2 else 1)).map fun i => BitVec.ofNat 32 (old / 2 ^ (32 * i))
/-- The old value goes to every access listed. -/
def Strand.atomGive (st : Strand) (ty : Nat) (as : List Acc) (old : Nat) : Strand :=
  as.foldl (fun st a => st.vputs a.reg a.thread (atomWords ty old)) st

/-- What one update gives: the state, the value that its location held, and the failure met. -/
structure AtomRes where
  s : State
  old : Nat
  bad : Option Cause

/-- An atomic at one location (R202, R203): one update, at the home slice or the scratchpad; none while its access waits
(R410, R431). -/
def State.atomOne (s : State) (st : Strand) (op ty : Nat) (o : OrdInfo) (a : Acc) : Option AtomRes :=
  match a.win with
  | .glob =>
    if s.heldFrom st.d a.pa then none
    else
      let s := s.accAcquire st o
      let s := s.flushRange st.d st.k a.pa a.size
      match (List.range a.size).findSome? fun i => s.readBadFrom st.d (a.pa + i) with
      | some c => some { s := s, old := 0, bad := some c }
      | none =>
        let old := leVal (cgets s.mem a.pa a.size)
        let s := s.homePuts a.pa (leBytes a.size (atomNew op ty old a.data a.data2)) st.ctx
        let s := (s.sliceUse (homeDie a.pa) (lineOf a.pa) o.hint).update st.d st.k (homeDie a.pa) (lineOf a.pa) (some old)
        some { s := s.accRelease st o a, old := old, bad := none }
  | .scr =>
    let old := leVal (s.scrGets st a.pa a.size)
    some { s := s.scrPuts st a.pa (leBytes a.size (atomNew op ty old a.data a.data2)), old := old, bad := none }
  | .bsl => some { s := s, old := 0, bad := none }

/-- An atomic at one location performed: one update, its old value to every access listed (R202, R203). -/
def State.performAtom (s : State) (st : Strand) (op ty : Nat) (o : OrdInfo) (as : List Acc) : Option Perf :=
  match as with
  | [] => some { s := s, st := st, bad := none }
  | a :: _ => (s.atomOne st op ty o a).map fun r =>
    { s := r.s, st := if r.bad.isSome || a.win == .bsl then st else st.atomGive ty as r.old, bad := r.bad }

/-- What an exact-sum operation finds at its cell (R420, R459). -/
def State.cellBad (s : State) (d pa : Nat) : Option Cause := (List.range 64).findSome? fun i => s.readBadFrom d (pa + i)

/-- A cell at its home (R50). -/
def State.cellAt (s : State) (pa : Nat) : List Byte := cgets s.mem pa 64

/-- Writes a result to a vector register of a thread, or to the scalars of the path that issued the operation (R67). -/
def Strand.putRegs (st : Strand) (op reg t : Nat) (ws : List Word) : Strand :=
  if reg < 0x80 then st.vputs reg t ws
  else (ws.zipIdx).foldl (fun st p => st.arrive op (reg - 0x80 + p.2) p.1) st

/-- One access of exact-sum operation `op` (R51 to R53, R204 to R206): the state, the strand and a failure. -/
def State.performSum (s : State) (st : Strand) (op : Nat) (k : OpKind) (a : Acc) : Perf :=
  let s1 := s.flushRange st.d st.k a.pa 64
  match k with
  | .sumclr =>
    if s1.linkDead st.d (homeDie a.pa) then { s := s1.sendPut st.d a.pa 0 st.ctx, st := st, bad := none }
    else
      let s2 := s1.homePuts a.pa (leBytes 64 0) st.ctx
      { s := s2.update st.d st.k (homeDie a.pa) (lineOf a.pa) none, st := st, bad := none }
  | .sumx ty =>
    match s1.cellBad st.d a.pa with
    | some c => { s := s1, st := st, bad := some c }
    | none =>
      let c := (Cell.ofBytes (s1.cellAt a.pa)).add (contribution ty (BitVec.ofNat 32 a.data))
      let s2 := s1.homePuts a.pa c.bytes st.ctx
      { s := s2.update st.d st.k (homeDie a.pa) (lineOf a.pa) none, st := st, bad := none }
  | .sumrd fmt _ _ =>
    match s1.cellBad st.d a.pa with
    | some c => { s := s1, st := st, bad := some c }
    | none =>
      let bs := s1.cellAt a.pa
      let ws := if fmt = 7 then (List.range 16).map fun i => BitVec.ofNat 32 (leVal ((bs.drop (4 * i)).take 4))
        else [(Cell.ofBytes bs).read fmt]
      { s := s1, st := st.putRegs op a.reg a.thread ws, bad := none }
  | _ => { s := s, st := st, bad := none }

/-! The order of a strand's own accesses. -/

/-- An operation that orders every later access of its strand (R196, R230). -/
def OpKind.acquires : OpKind → Bool
  | .load _ _ o | .atom _ _ _ o => o.acq
  | _ => false
/-- An operation that waits for every earlier access (R197). -/
def OpKind.releases : OpKind → Bool
  | .store o | .atom _ _ _ o => o.rel
  | _ => false

/-- The operation is one of the strand's own accesses (R225). -/
def OpKind.isAccess : OpKind → Bool
  | .load _ _ _ | .store _ | .atom _ _ _ _ => true
  | _ => false

/-- Operations of the strand issued before this one. -/
def Strand.earlier (st : Strand) (n : Nat) : List Op := st.ops.takeWhile fun o => o.id != n

/-- The access must wait for an earlier one of its strand: one to the same bytes, an unperformed acquire, or, for a release
and for an engine or exact-sum operation, any (R197, R198, R206, R242). -/
def waitsFor (before : List Op) (k : OpKind) (acc : Bool) (a : Acc) : Bool :=
  before.any fun e =>
    if e.isAccess then
      e.unperformed && (!acc || k.releases || e.kind.acquires || e.accs.any fun b => !b.done && b.overlaps a)
    else
      -- exact-sum operations of one strand on one cell are applied in issue order
      !acc && !e.fin && e.path == 5 && e.accs.any fun b => !b.done && b.overlaps a

/-- The operation's write-back, if its release needs one, has been acknowledged (R210). -/
def State.relWaits (s : State) (st : Strand) (k : OpKind) : Bool :=
  match k with
  | .store o | .atom _ _ _ o => o.rel && !o.acked && s.needsWb st.d st.k o.scope (s.groupWide st)
  | _ => false

/-- The release actions of a store or atomic whose waits are over (R197). -/
def State.relDo (s : State) (st : Strand) (k : OpKind) : State :=
  match k with
  | .store o | .atom _ _ _ o => if o.rel && !o.acked then s.relAct st o.scope else s
  | _ => s

/-- A releasing store's own write reaches the single point of its scope (R239). -/
def State.ownDo (s : State) (st : Strand) (k : OpKind) : State :=
  match k with
  | .store o => if o.rel then s.relAct st o.scope else s
  | _ => s

/-- A store below the L1 column waits: its frame has parked writes, or a link that it needs retrains (R410, R431). A releasing
store at package scope or wider needs the link to its home (R239). -/
def State.storeHeld (s : State) (st : Strand) (o : OrdInfo) (a : Acc) : Bool :=
  a.win == .glob &&
  (s.putHeld st.d st.k a.pa o.hint || (o.rel && decide (4 ≤ o.scope) && s.linkSlow st.d (homeDie a.pa)))

/-- An earlier acquire of the strand has not been performed: no later access, through whatever window, goes before it (R196,
R230). -/
def Strand.acqBusy (st : Strand) : Bool := st.ops.any fun o => o.unperformed && o.kind.acquires

/-! Issue of a memory instruction. -/

/-- The threads whose accesses are formed: with U the lowest admitted one alone (R58). -/
def accThreads (f : LFields) (m : Mask) : List Nat := if f.u == 1 then (threads m).take 1 else threads m

/-- Takes what stopped a thread: a trap, a translation fault or a parked walk, at element e with the threads of m left.
`s0` stands before the instruction. -/
def State.stopAt (s0 s1 : State) (id : Nat) (st : Strand) (e kind : Nat) (m : Mask) : MStop → State
  | .trap .index d => s0.trapAtThread s1 id st .index (d + 8 * e) e m
  | .trap c _ => s0.trapAtThread s1 id st c e e m
  | .fault c lvl va => s1.xlFault id st e m [faultEntry va c lvl kind] .thread
  | .park => s1.xlPark id st e m
  | .wait => s0.putStrand id { st with stalled := true }

/-- A load or an atomic of the threads before one that stops left these threads without data: a pending trap of its own (R199). -/
def Strand.pendNowBad (st : Strand) (c : Cause) (m : Mask) : Strand :=
  if m = 0 then st
  else { st with
    nextOp := st.nextOp + 1,
    pend := st.pend ++ [{
      info := { cause := c, epc := st.pc, emask := m, detail := 0, eng := none }, reissue := true, op := st.nextOp }] }

/-- Accesses performed one after another, with the threads that met a failure and the first cause; none where one waits. -/
def foldPerf (p : State → Strand → Acc → Option Perf) :
    List Acc → State → Strand → Mask → Cause → Option (State × Strand × Mask × Cause)
  | [], s, st, m, c => some (s, st, m, c)
  | a :: r, s, st, m, c =>
    match p s st a with
    | none => none
    | some q => match q.bad with
      | some b => foldPerf p r q.s q.st (m ||| (1#16 <<< a.thread)) (if m = 0 then b else c)
      | none => foldPerf p r q.s q.st m c

/-- Performs at once the accesses of the threads before one that stops (R76, R392), when nothing earlier of the strand
holds them; none otherwise. -/
def State.performNow (s : State) (st : Strand) (k : OpKind) (as : List Acc) : Option (State × Strand) :=
  if as.isEmpty then some (s, st)
  else if as.any (fun a => waitsFor st.ops k k.isAccess a) then none
  else
    let s := s.relDo st k
    if s.relWaits st k then none
    else
      match k with
      | .load m3 _ o =>
        let s := s.promoteAccs st.d o as
        if !s.promotedAccs st.d o as then none
        else (foldPerf (fun s st a => s.performLoad st m3 o [a]) as s st 0 .uncorr).map fun r => (r.1, r.2.1.pendNowBad r.2.2.2 r.2.2.1)
      | .atom op ty _ o =>
        let s := s.promoteAccs st.d o as
        if !s.promotedAccs st.d o as then none
        else (foldPerf (fun s st a => s.performAtom st op ty o [a]) as s st 0 .uncorr).map fun r => (r.1, r.2.1.pendNowBad r.2.2.2 r.2.2.1)
      | .store o =>
        if as.any (s.storeHeld st o) then none
        else some (((as.foldl (fun s a => s.performStore st o a) s).storeUncorr st st.pc as).ownDo st k, st)
      | .sumrd _ _ _ =>
        if as.any fun a => s.heldFrom st.d a.pa then none
        else (foldPerf (fun s st a => some (s.performSum st st.nextOp k a)) as s st 0 .uncorr).map fun r => (r.1, r.2.1.pendNowBad r.2.2.2 r.2.2.1)
      | .sumx _ | .sumclr =>
        if as.any fun a => s.heldFrom st.d a.pa then none
        else some (as.foldl (fun (q : State × Strand) a =>
          let p := q.1.performSum q.2 q.2.nextOp k a
          match p.bad with
          | some c =>
            (p.s, { p.st with engErrs := p.st.engErrs ++ [{ path := 5, cause := c, pc := st.pc, va := a.va, time := s.gtime }] })
          | none => (p.s, p.st)) (s, st))
      | _ => some (s, st)

/-- Issues a counted memory instruction: forms the accesses of its threads, and starts the operation or takes what stopped
a thread (R71, R76, R196). `mk` completes an access with its register and its data. -/
def State.issueAcc (s : State) (x : Issued) (sp : OpSpec) (f : LFields) (len path kind : Nat) (k : OpKind)
    (form : Strand → Nat → State → State × Except MStop Acc) (spread : Strand → List Acc → Except MStop (List Acc))
    (dests : List Acc → List Nat) (commits : List Acc → Bool) : Result :=
  if x.adm = 0 then .next (s.finish x sp f len x.st)
  else if x.st.full path then .next (s.stallOn x)
  else
    let st := { x.st with walkParked := false }
    match scanAccs (form st) (accThreads f x.adm) s [] with
    | (s1, as, none) =>
      match spread st as with
      | .error e => .next (s.stopAt s1 x.id st 0 kind x.adm e)
      | .ok as =>
        let s2 := if commits as then s1.commit st else s1
        let st := st.startOp path x.adm k as (dests as)
        .next (s2.finish { x with st := x.st } sp f len st)
    | (_, _, some (_, .wait)) => .next (s.stallOn x)
    | (s1, as, some (t, e)) =>
      match s1.performNow st k as with
      | none => .next (s.stallOn x)
      | some (s2, st2) =>
        let s2 := if commits as then s2.commit st else s2
        .next (s.stopAt s2 x.id st2 0 kind (mFrom x.adm t) e)

/-- With U the one access stands for every admitted thread, each with its own destination (R58). -/
def spreadUni (f : LFields) (m : Mask) (dest : Nat → Except MStop Nat) (as : List Acc) : Except MStop (List Acc) :=
  if f.u == 1 then
    match as with
    | a :: _ => (threads m).mapM fun t => do
        let n ← dest t
        .ok { a with thread := t, reg := n }
    | [] => .ok []
  else .ok as

/-- Registers that the accesses will write, n each. -/
def accDests (n : Nat) (as : List Acc) : List Nat :=
  distinct (as.flatMap fun a => (List.range n).map (a.reg + ·))

end Sys2Proof.Machine
end

