-- ==== Sys2Proof/Machine/Complex.lean ====
section
/-! DEFINITION. The complex, block floating point, phase and geometry family (R39 to R44, R168 to R178). -/

namespace Sys2Proof.Machine

/-- .c16 or .cb16 (R168). -/
def cxFmt (m3 : Nat) : FFmt := if m3 % 2 = 0 then fmtF16 else fmtBF16
/-- Real and imaginary parts of a complex slot (R28). -/
def reOf (x : Word) : Nat := x.toNat % 2 ^ 16
def imOf (x : Word) : Nat := x.toNat / 2 ^ 16
/-- A complex slot from two rounded components; their flags are joined (R40). -/
def cxOut (re im : FRes) : VOut := out1 (BitVec.ofNat 32 (im.bits * 2 ^ 16 + re.bits)) (re.flags ||| im.flags)

/-- A meaning on complex operands of one type. -/
def cxDef (m3 : Nat) (g : FFmt → FEnv → Word → Word → Word → VOut) : VecDef :=
  let f := cxFmt m3
  { ta := .cx f, tb := .cx f, tc := .cx f, fn := fun env x => g f env (wd x.a 0) (wd x.b 0) (wd x.c 0) }

/-- Minus a term. -/
def Term.neg : Term → Term
  | .nan => .nan
  | .nv => .nv
  | .inf n => .inf (!n)
  | .fin n m e => .fin (!n) m e

/-- The products of a complex multiplication: terms of the real and of the imaginary part (R39). -/
def cxTerms (f : FFmt) (env : FEnv) (a b : Word) : List Term × List Term :=
  let ar := f.decIn env (reOf a)
  let ai := f.decIn env (imOf a)
  let br := f.decIn env (reOf b)
  let bi := f.decIn env (imOf b)
  ([ar.prod br, (ai.prod bi).neg], [ar.prod bi, ai.prod br])

def cxAdd (f : FFmt) (env : FEnv) (a b : Word) : VOut :=
  cxOut (fpAdd f env (reOf a) (reOf b)) (fpAdd f env (imOf a) (imOf b))
def cxSub (f : FFmt) (env : FEnv) (a b : Word) : VOut :=
  cxOut (fpSub f env (reOf a) (reOf b)) (fpSub f env (imOf a) (imOf b))
def cxMul (f : FFmt) (env : FEnv) (a b : Word) : VOut :=
  let t := cxTerms f env a b
  cxOut (sumTerms f env t.1) (sumTerms f env t.2)
def cxFma (f : FFmt) (env : FEnv) (a b c : Word) : VOut :=
  let t := cxTerms f env a b
  cxOut (sumTerms f env (t.1 ++ [(f.decIn env (reOf c)).term])) (sumTerms f env (t.2 ++ [(f.decIn env (imOf c)).term]))

def defCadd (m : Nat) : VecDef := cxDef m fun f env a b _ => cxAdd f env a b
def defCsub (m : Nat) : VecDef := cxDef m fun f env a b _ => cxSub f env a b
def defCmul (m : Nat) : VecDef := cxDef m fun f env a b _ => cxMul f env a b
def defCfma (m : Nat) : VecDef := cxDef m cxFma

/-- CMAG2 (R169): an infinite component wins over a NaN. -/
def cxMag2 (f : FFmt) (env : FEnv) (a : Word) : FRes :=
  let re := f.decIn env (reOf a)
  let im := f.decIn env (imOf a)
  match re, im with
  | .inf _, _ => fmtF32.infRes false flagNone
  | _, .inf _ => fmtF32.infRes false flagNone
  | _, _ => sumTerms fmtF32 env [re.prod re, im.prod im]

/-- CSCALE (R169): each exact product, rounded once. -/
def cxScale (f : FFmt) (env : FEnv) (a b : Word) : VOut :=
  let k := fmtF32.decIn env b.toNat
  cxOut (sumTerms f env [(f.decIn env (reOf a)).prod k]) (sumTerms f env [(f.decIn env (imOf a)).prod k])

/-- TWID (R170): FTZ is not read. -/
def twiddle (m3 : Nat) (env : FEnv) (a b : Word) : VOut :=
  let f := cxFmt m3
  let env := { env with ftz := false }
  let n := b.toNat % 256
  if n > 16 then cxOut (f.nanRes flagNV) (f.nanRes flagNV)
  else
    let k := a.toNat % 2 ^ 16
    cxOut (twidPart f env (decide (2 ≤ m3)) false k n) (twidPart f env (decide (2 ≤ m3)) true k n)
def defTwid (m3 : Nat) : VecDef :=
  { ta := .i32, tb := .i32, tc := .i32, fn := fun env x => twiddle m3 env (wd x.a 0) (wd x.b 0) }

/-- BFLY (R171): sum and difference to d and d + 1. -/
def defBfly (m3 : Nat) : VecDef := cxDef m3 fun f env a b _ =>
  let x := cxAdd f env a b
  let y := cxSub f env a b
  { d := x.d ++ y.d, q := none, flags := x.flags ||| y.flags }

/-- CCVT (R172). -/
def cxConvert (m3 : Nat) (env : FEnv) (a : List Word) : VOut :=
  let dst := cxFmt m3
  match m3 with
  | 0 | 1 =>
    let src := cxFmt (m3 + 1)
    cxOut (fpCvt src dst env (reOf (wd a 0))) (fpCvt src dst env (imOf (wd a 0)))
  | 2 | 3 => cxOut (fpCvt fmtF32 dst env (wd a 0).toNat) (fpCvt fmtF32 dst env (wd a 1).toNat)
  | _ =>
    let re := fpCvt dst fmtF32 env (reOf (wd a 0))
    let im := fpCvt dst fmtF32 env (imOf (wd a 0))
    { d := [BitVec.ofNat 32 re.bits, BitVec.ofNat 32 im.bits], q := none, flags := re.flags ||| im.flags }

/-! Block floating point. -/

/-- The bound (2^(bw-1) - 1) as a natural number. -/
def bfpTop (bw : Nat) : Nat := 2 ^ (bw - 1) - 1

/-- BEXPM (R173). -/
def bexpm (bw : Nat) (env : FEnv) (a : Word) : Nat :=
  match fmtF32.decIn env a.toNat with
  | .nan => 255
  | .inf _ => 255
  | .fin _ m e =>
    if m = 0 then 0
    else
      -- |a| at most top * 2^(E - 127 - (bw - 1)), in units of 2^-300
      let lim (k : Nat) : Bool :=
        decide (m * 2 ^ (e + 300).toNat ≤ bfpTop bw * 2 ^ ((k : Int) - 127 - (bw - 1) + 300).toNat)
      ((List.range 254).find? fun i => lim (i + 1)).elim 255 (· + 1)

/-- BPACK (R174) of a value at block exponent base + delta. -/
def bpack (bw base : Nat) (env : FEnv) (a b : Word) : VOut :=
  let dl := b.toNat % 16
  let e := base + dl
  let res (m : Int) (fl : FpFlags) : VOut :=
    out1 (BitVec.ofNat 32 (dl * 2 ^ 8 + wrapN 8 m)) fl
  let top : Int := bfpTop bw
  let bot : Int := -(2 ^ (bw - 1) : Nat)
  match fmtF32.decIn env a.toNat with
  | .nan => res 0 flagNV
  | .inf n =>
    if e = 0 then res 0 flagIX
    else if e ≥ 255 then res (if n then -top else top) flagOF
    else res (if n then bot else top) (flagOF ||| flagIX)
  | .fin n m q =>
    if e = 0 then res 0 (flagIf (m != 0) flagIX)
    else if e ≥ 255 then (if m = 0 then res 0 flagNone else res (if n then -top else top) flagOF)
    else
      let (r, ex) := roundToInt env.rm n m (q - ((e : Int) - 127 - (bw - 1)))
      let c := if r < bot then bot else if r > top then top else r
      res c (flagIf (c != r) flagOF ||| flagIf (!ex || c != r) flagIX)

/-- The value of a mantissa at block exponent E as FP32 (R44, R175): FTZ acts on a subnormal result. -/
def bfpValue (bw e : Nat) (env : FEnv) (m : Int) : FRes :=
  if e = 0 ∨ m = 0 then quiet 0
  else if e ≥ 255 then
    let r := roundDyadic fmtF32 FEnv.plain (if m < 0 then -(bfpTop bw : Int) else bfpTop bw) (128 - (bw : Int)) false
    { r with flags := flagOF }
  else roundDyadic fmtF32 env m ((e : Int) - 127 - (bw - 1)) false

/-- The base exponent of operand A (R41, R64). -/
def baseExpA (st : Strand) : Nat := (st.sget (fmtAEXP st.fmt)).toNat % 256

/-- Thread 0's slot of BUNPK's block in an element (R43, R175). -/
def bunpkHead (st : Strand) (f : LFields) (e : Nat) : Option Word :=
  let x := f.a.toNat
  if x < 0x80 then some (st.vget (x + blockOff f e) 0)
  else if x < 0xC0 then some (st.sget (x - 0x80))
  else (st.resolve (x - 0xC0) 0).map fun n => st.vget n 0

/-! Geometry. -/

/-- EDGE (R177). -/
def edgeTest (cull : Nat) (a : Word) (b : List Word) : Word :=
  let v (i : Nat) : Int := (wd b i).toInt
  let px : Int := (a.toNat % 2 ^ 16) * 256 + 128
  let py : Int := (a.toNat / 2 ^ 16) * 256 + 128
  let ar := (v 2 - v 0) * (v 5 - v 1) - (v 3 - v 1) * (v 4 - v 0)
  let sg : Int := if ar < 0 then -1 else 1
  let culled := (cull == 1 && decide (ar < 0)) || (cull == 2 && decide (0 < ar))
  let bit (i : Nat) : Bool :=
    let j := (i + 1) % 3
    let dx := sg * (v (2 * j) - v (2 * i))
    let dy := sg * (v (2 * j + 1) - v (2 * i + 1))
    let e := dx * (py - v (2 * i + 1)) - dy * (px - v (2 * i))
    decide (0 < e) || (e == 0 && (decide (dy < 0) || (dy == 0 && decide (0 < dx))))
  let n (c : Bool) (k : Nat) : Nat := if c then k else 0
  let r := if ar == 0 || culled then 0
    else n (bit 0) 1 + n (bit 1) 2 + n (bit 2) 4 + n (bit 0 && bit 1 && bit 2) 8
  BitVec.ofNat 32 (r + n (decide (ar < 0)) 16)

/-- A finite FP32 value in units of 2^-149. -/
def fixF32 (env : FEnv) (x : Word) : Option Int :=
  match fmtF32.decIn env x.toNat with
  | .fin n m e => some (sgn n (m * 2 ^ (e + 149).toNat))
  | _ => none

def det3 (a b c : List Int) : Int :=
  let g (l : List Int) (i : Nat) : Int := nth 0 l i
  g a 0 * (g b 1 * g c 2 - g b 2 * g c 1) - g a 1 * (g b 0 * g c 2 - g b 2 * g c 0) +
    g a 2 * (g b 0 * g c 1 - g b 1 * g c 0)

def vsub3 (a b : List Int) : List Int := (List.range 3).map fun i => nth 0 a i - nth 0 b i

/-- A quotient of exact values rounded once to FP32; a zero takes the sign that R37 gives a zero sum. -/
def roundQuot (env : FEnv) (n d : Int) : FRes :=
  if n = 0 then quiet (fmtF32.withSign (zeroSumNeg env) 0)
  else roundFrac fmtF32 env (decide (n < 0) != decide (d < 0)) n.natAbs d.natAbs 0

/-- TRIX (R178). -/
def triTest (env : FEnv) (a b : List Word) : VOut :=
  match (a ++ b).mapM (fixF32 env) with
  | none => outQ false flagNV
  | some xs =>
    let at3 (i : Nat) : List Int := [nth 0 xs i, nth 0 xs (i + 1), nth 0 xs (i + 2)]
    let o := at3 0
    let dir := at3 3
    let p (i : Nat) : List Int := at3 (6 + 3 * (i % 3))
    let q (i : Nat) : List Int := vsub3 (p i) o
    let u (i : Nat) : Int := det3 dir (q (i + 1)) (q (i + 2))
    let sm := u 0 + u 1 + u 2
    let ab (i : Nat) : Nat := (nth 0 dir i).natAbs
    let kz := if ab 0 ≥ ab 1 ∧ ab 0 ≥ ab 2 then 0 else if ab 1 ≥ ab 2 then 1 else 2
    let kx := (kz + 1) % 3
    let ky := (kz + 2) % 3
    let sg : Int := if sm < 0 then -1 else if sm = 0 then 0 else 1
    let inside (i : Nat) : Bool :=
      let ui := sg * u i
      let fx := sg * (nth 0 (p (i + 2)) kx - nth 0 (p (i + 1)) kx)
      let fy := sg * (nth 0 (p (i + 2)) ky - nth 0 (p (i + 1)) ky)
      !(decide (ui < 0) || (ui == 0 && !(decide (fy < 0) || (fy == 0 && decide (0 < fx)))))
    let tn := det3 (q 0) (vsub3 (p 1) (p 0)) (vsub3 (p 2) (p 0))
    let hit := sm != 0 && inside 0 && inside 1 && inside 2 && tn != 0 && decide (tn < 0) == decide (sm < 0)
    if hit then
      let t := roundQuot env tn sm
      let u1 := roundQuot env (u 1) sm
      let u2 := roundQuot env (u 2) sm
      { d := [BitVec.ofNat 32 t.bits, BitVec.ofNat 32 u1.bits, BitVec.ofNat 32 u2.bits], q := some true,
        flags := t.flags ||| u1.flags ||| u2.flags }
    else outQ false flagNone

def execCadd (f : LFields) (s : State) : Result := execL (.cadd f) f (fun _ => defCadd f.m3.toNat) s
def execCsub (f : LFields) (s : State) : Result := execL (.csub f) f (fun _ => defCsub f.m3.toNat) s
def execCmul (f : LFields) (s : State) : Result := execL (.cmul f) f (fun _ => defCmul f.m3.toNat) s
def execCfma (f : LFields) (s : State) : Result := execL (.cfma f) f (fun _ => defCfma f.m3.toNat) s
/-- CMAG2 on one thread's operands (R169). -/
def vdCmag2 (f : LFields) : VecDef :=
  cxDef f.m3.toNat fun g env a _ _ =>
    let r := cxMag2 g env a
    out1 (BitVec.ofNat 32 r.bits) r.flags
def execCmag2 (f : LFields) (s : State) : Result := execL (.cmag2 f) f (fun _ => vdCmag2 f) s
/-- CSCALE on one thread's operands (R169). -/
def vdCscale (f : LFields) : VecDef :=
  { cxDef f.m3.toNat (fun g env a b _ => cxScale g env a b) with tb := .fp fmtF32 }
def execCscale (f : LFields) (s : State) : Result := execL (.cscale f) f (fun _ => vdCscale f) s
/-- CEXPI on one thread's operands (R169). -/
def vdCexpi (f : LFields) : VecDef :=
  { ta := .fp fmtF32, tb := .i32, tc := .i32,
      fn := fun env x =>
        let a := (wd x.a 0).toNat
        let g := cxFmt f.m3.toNat
        cxOut (fpCost g env fmtF32 a) (fpSint g env fmtF32 a) }
def execCexpi (f : LFields) (s : State) : Result := execL (.cexpi f) f (fun _ => vdCexpi f) s
/-- CPHASE on one thread's operands (R168). -/
def vdCphase (f : LFields) : VecDef :=
  cxDef f.m3.toNat fun g env a _ _ =>
    let r := fpPhase g env (reOf a) (imOf a)
    out1 (BitVec.ofNat 32 r.bits) r.flags
def execCphase (f : LFields) (s : State) : Result := execL (.cphase f) f (fun _ => vdCphase f) s
def execTwid (f : LFields) (s : State) : Result := execL (.twid f) f (fun _ => defTwid f.m3.toNat) s
def execBfly (f : LFields) (s : State) : Result := execL (.bfly f) f (fun _ => defBfly f.m3.toNat) s
/-- CCVT on one thread's operands (R172). -/
def vdCcvt (f : LFields) : VecDef :=
  { ta := if f.m3 == 2 || f.m3 == 3 then .fp fmtF32 else .cx (cxFmt (if f.m3.toNat < 2 then f.m3.toNat + 1 else f.m3.toNat)),
      tb := .i32, tc := .i32, fn := fun env x => cxConvert f.m3.toNat env x.a }
def execCcvt (f : LFields) (s : State) : Result := execL (.ccvt f) f (fun _ => vdCcvt f) s
/-- BPACK on one thread's operands (R174). -/
def vdBpack (f : LFields) (st : Strand) : VecDef :=
  { ta := .fp fmtF32, tb := .i32, tc := .i32,
      fn := fun env x => bpack (f.m3.toNat + 2) (baseExpA st) env (wd x.a 0) (wd x.b 0) }
def execBpack (f : LFields) (s : State) : Result := execL (.bpack f) f (vdBpack f) s
/-- BUNPK on one thread's operands: its mantissa under the header in thread 0's operand (R175). -/
def vdBunpk (f : LFields) (st : Strand) : VecDef :=
  { ta := .i32, tb := .i32, tc := .i32,
    fn := fun env v =>
      let bw := f.m3.toNat + 2
      let e := baseExpA st + nbits ((bunpkHead st f v.e).getD 0).toNat 8 4
      let r := bfpValue bw e env (sx bw ((wd v.a 0).toNat % 2 ^ bw))
      out1 (BitVec.ofNat 32 r.bits) r.flags }
/-- BUNPK's OF for an exponent of 255 and beyond is one flag whichever threads raise it (R175). An indirect block whose
thread 0 does not resolve raises INDEX at issue. -/
def execBunpk (f : LFields) (s : State) : Result :=
  let i : Instr := .bunpk f
  match issue i (rowOf i) f noPre s with
  | .out o => o
  | .go x =>
    if x.adm != 0 && (bunpkHead x.st f 0).isNone then
      .next (s.trapAtIssue x.id x.st .index (f.a.toNat - 0xC0) (x.st.issueMask f))
    else
      execL i f (vdBunpk f) s
/-- BEXPM on one thread's operands (R173). -/
def vdBexpm (f : LFields) : VecDef :=
  { ta := .fp fmtF32, tb := .i32, tc := .i32,
      fn := fun env x => out1 (BitVec.ofNat 32 (bexpm (f.m3.toNat + 2) env (wd x.a 0))) flagNone }
def execBexpm (f : LFields) (s : State) : Result := execL (.bexpm f) f (fun _ => vdBexpm f) s
/-- PHQ on one thread's operands (R176). -/
def vdPhq (f : LFields) : VecDef :=
  cxDef f.m3.toNat fun g _ a _ _ =>
    match phaseCode (g.dec (reOf a)) (g.dec (imOf a)) f.c.toNat with
    | some n => out1 (BitVec.ofNat 32 n) flagNone
    | none => out1 0 flagNV
def execPhq (f : LFields) (s : State) : Result := execL (.phq f) f (fun _ => vdPhq f) s
/-- EDGE on one thread's operands (R177). -/
def vdEdge (f : LFields) : VecDef :=
  wordDef .i32 .i32 .i32 fun x => edgeTest f.c.toNat (wd x.a 0) x.b
def execEdge (f : LFields) (s : State) : Result := execL (.edge f) f (fun _ => vdEdge f) s
/-- TRIX on one thread's operands (R178). -/
def vdTrix (_ : LFields) : VecDef :=
  { ta := .fp fmtF32, tb := .fp fmtF32, tc := .i32, fn := fun env x => triTest env x.a x.b }
def execTrix (f : LFields) (s : State) : Result := execL (.trix f) f (fun _ => vdTrix f) s

end Sys2Proof.Machine
end

