-- ==== Sys2Proof/Machine/Cross.lean ====
section
/-! DEFINITION. The cross-thread family (R179 to R186): every source slot is read before any destination is written. -/

namespace Sys2Proof.Machine

/-- How a .b32 or .b64 source selects constants. -/
def bTy (m3 : BitVec 3) : OTy := if m3 == 7 then .b64 else .i32

/-- A cross-thread instruction: `g` sees the strand, the contributing threads and gives the strand after it. -/
def execCross (i : Instr) (sp : OpSpec) (f : LFields) (len : Nat) (g : Strand → Mask → Strand) (s : State) : Result :=
  execOnce i sp f len noPre (fun x => g x.st x.adm) s

/-- d[t] := a[src(t)] (R180). -/
def shuffle (sp : OpSpec) (f : LFields) (src : Nat → Nat → Nat) (st : Strand) (m : Mask) : Strand :=
  eachThread m (fun t r =>
    let b := (wd (st.words f sp.b f.b.toNat .i32 t) 0).toNat
    r.vputs f.d.toNat t (st.words f sp.a f.a.toNat (bTy f.m3) (src t b))) st

def srcShfl (_ b : Nat) : Nat := b % 16
def srcShflx (t b : Nat) : Nat := t.xor (b % 16)
def srcShfld (t b : Nat) : Nat := if t + b % 32 ≤ 15 then t + b % 32 else t
def srcShflu (t b : Nat) : Nat := if b % 32 ≤ t then t - b % 32 else t

def execShfl (f : LFields) (s : State) : Result :=
  execCross (.shfl f) (rowOf (.shfl f)) f 8 (shuffle (rowOf (.shfl f)) f srcShfl) s
def execShflx (f : LFields) (s : State) : Result :=
  execCross (.shflx f) (rowOf (.shflx f)) f 8 (shuffle (rowOf (.shflx f)) f srcShflx) s
def execShfld (f : LFields) (s : State) : Result :=
  execCross (.shfld f) (rowOf (.shfld f)) f 8 (shuffle (rowOf (.shfld f)) f srcShfld) s
def execShflu (f : LFields) (s : State) : Result :=
  execCross (.shflu f) (rowOf (.shflu f)) f 8 (shuffle (rowOf (.shflu f)) f srcShflu) s
def execBcast (f : LFields) (s : State) : Result :=
  execCross (.bcast f) (rowOf (.bcast f)) f 8 (shuffle (rowOf (.bcast f)) f srcShfl) s

/-- The type of SCAN, REDS as an integer code of R98, for types 0 to 3 and 9. -/
def scanInt (ty : Nat) : Nat := if ty = 9 then 6 else ty
def scanIsFp (ty : Nat) : Bool := decide (4 ≤ ty) && decide (ty ≤ 8)

/-- One combining step (R181, R47). -/
def scanStep (ty op : Nat) (env : FEnv) (x y : Word) : Word × FpFlags :=
  if scanIsFp ty then
    fpMap (ty - 4) (fun a b _ => match op with
      | 0 => fpAdd (fpFmt (ty - 4)) env a b
      | 1 => quiet (fpMinMax (fpFmt (ty - 4)) env false a b)
      | _ => quiet (fpMinMax (fpFmt (ty - 4)) env true a b)) x y 0
  else
    let m := scanInt ty
    let g (a b : Nat) : Nat := match op with
      | 0 => a + b
      | 1 => iMinMax m false a b
      | 2 => iMinMax m true a b
      | 3 => a.land b
      | 4 => a.lor b
      | _ => a.xor b
    (BitVec.ofNat 32 (lanes (intW m) (fun a b _ => g a b) x.toNat y.toNat 0), flagNone)

/-- The value with which the lowest contributing thread enters (R47). -/
def scanFirst (ty : Nat) (env : FEnv) (x : Word) : Word :=
  if scanIsFp ty then (fpMap (ty - 4) (fun a _ _ => quiet (fpCanon (fpFmt (ty - 4)) env a)) x 0 0).1 else x

/-- The identity of an operation (R181). -/
def scanIdentity (ty op : Nat) : Word :=
  if scanIsFp ty then
    let f := fpFmt (ty - 4)
    let v := match op with
      | 0 => 0
      | 1 => f.infBits
      | _ => f.withSign true f.infBits
    BitVec.ofNat 32 (if ty ≥ 7 then v * 2 ^ 16 + v else v)
  else
    let m := scanInt ty
    let w := intW m
    let v := match op with
      | 1 => if intS m then 2 ^ (w - 1) - 1 else 2 ^ w - 1
      | 2 => if intS m then 2 ^ (w - 1) else 0
      | 3 => 2 ^ w - 1
      | _ => 0
    BitVec.ofNat 32 (lanes w (fun _ _ _ => v) 0 0 0)

/-- The inclusive prefixes of the contributing threads with the flags of the steps (R47). -/
def scanPrefixes (ty op : Nat) (env : FEnv) (xs : List (Nat × Word)) : List (Nat × Word) × FpFlags :=
  match xs with
  | [] => ([], flagNone)
  | (t, x) :: r =>
    let a := scanFirst ty env x
    let res := r.foldl (fun (acc : List (Nat × Word) × Word × FpFlags) p =>
      let y := scanStep ty op env acc.2.1 p.2
      (acc.1 ++ [(p.1, y.1)], y.1, acc.2.2 ||| y.2)) ([(t, a)], a, flagNone)
    (res.1, res.2.2)

/-- How the types of SCAN and REDS select constants. -/
def scanTy (ty : Nat) : OTy := if scanIsFp ty then fpTy (ty - 4) else intTy (scanInt ty)

/-- The contributing threads' values. -/
def scanInputs (sp : OpSpec) (f : LFields) (st : Strand) (m : Mask) : List (Nat × Word) :=
  let ty := f.c.toNat / 16
  ((List.range 16).filter (mHas m)).map fun t =>
    let x := wd (st.words f sp.a f.a.toNat (scanTy ty) t) 0
    (t, if ty = 5 ∨ ty = 6 then x &&& 0xFFFF else x)

def scanExec (sp : OpSpec) (f : LFields) (st : Strand) (m : Mask) : Strand :=
  let ty := f.c.toNat / 16
  let op := f.c.toNat % 8
  let (ps, fl) := scanPrefixes ty op (FEnv.ofFmt st.fmt) (scanInputs sp f st m)
  let outs := if f.c.toNat / 8 % 2 = 1 then
      (ps.zip ((0, scanIdentity ty op) :: ps)).map fun p => (p.1.1, p.2.2)
    else ps
  (outs.foldl (fun st p => st.vset f.d.toNat p.1 p.2) st).addFlags fl

def redsExec (sp : OpSpec) (f : LFields) (st : Strand) (m : Mask) : Strand :=
  let ty := f.c.toNat / 16
  let (ps, fl) := scanPrefixes ty (f.c.toNat % 8) (FEnv.ofFmt st.fmt) (scanInputs sp f st m)
  match ps.getLast? with
  | some p => (st.putDest f.d.toNat m fun _ => [p.2]).addFlags fl
  | none => st

def execScan (f : LFields) (s : State) : Result :=
  execCross (.scan f) (rowOf (.scan f)) f 8 (scanExec (rowOf (.scan f)) f) s
def execReds (f : LFields) (s : State) : Result :=
  execCross (.reds f) (rowOf (.reds f)) f 8 (redsExec (rowOf (.reds f)) f) s

/-- VOTE (R182). -/
def voteExec (f : LFields) (st : Strand) (m : Mask) : Strand :=
  let q := st.qget f.a.toNat
  let bits := q &&& m
  let all (b : Bool) : Mask := if b then 0xFFFF else 0
  match f.m3.toNat with
  | 0 => st.qset f.d.toNat m (all (bits != 0))
  | 1 => st.qset f.d.toNat m (all (bits == m))
  | 2 => st.qset f.d.toNat m (all (bits == m || bits == 0))
  | _ => st.putDest f.d.toNat m fun _ => [bits.zeroExtend 32]
def execVote (f : LFields) (s : State) : Result := execCross (.vote f) (rowOf (.vote f)) f 8 (voteExec f) s

/-- MATCH (R183). -/
def matchExec (sp : OpSpec) (f : LFields) (st : Strand) (m : Mask) : Strand :=
  let v (t : Nat) : List Word := st.words f sp.a f.a.toNat (bTy f.m3) t
  eachThread m (fun t r => r.vset f.d.toNat t ((mOf fun u => mHas m u && v u == v t).zeroExtend 32)) st
def execMatchT (f : LFields) (s : State) : Result :=
  execCross (.matchT f) (rowOf (.matchT f)) f 8 (matchExec (rowOf (.matchT f)) f) s

/-- LACE (R184, R185): the source block is copied before any slot is written. -/
def laceExec (f : LFields) (tab : Nat → Byte) (st : Strand) (adm : Mask) : Strand :=
  let n := blockLen f
  (List.range n).foldl (fun r e =>
    eachThread (elemMask st.resume adm e) (fun t r =>
      let ent := (tab (16 * e + t)).toNat
      let sel := nbits ent 4 3
      let x := if ent ≥ 128 ∨ sel ≥ n then 0 else st.vget (f.a.toNat + blockOff f sel) (ent % 16)
      r.vset (f.d.toNat + blockOff f e) t x) r) st

def execLace (f : LFields) (s : State) : Result :=
  let i : Instr := .lace f
  match issue i (rowOf i) f (tablePre s) s with
  | .out o => o
  | .go x =>
    let tab (k : Nat) : Byte := cget (s.core x.st.d x.st.k).lace (128 * f.c.toNat + k)
    .next (s.finish x (rowOf i) f 8 (laceExec f tab x.st x.adm))

/-- LACELD (R186): it reads the scratchpad after what the strand accessed there before, and after its acquires (R196, R509). -/
def execLaceld (f : LFields) (s : State) : Result :=
  let i : Instr := .laceld f
  match issue i (rowOf i) f (tablePre s) s with
  | .out o => o
  | .go x =>
    if x.adm = 0 then .next (s.finish x (rowOf i) f 8 x.st)
    else
      let off := (x.st.sval f.a.toNat).toNat
      if off + 128 > s.scrSize x.st then .next (s.trapAtIssue x.id x.st .window 0 x.adm)
      else if off % 128 ≠ 0 then .next (s.trapAtIssue x.id x.st .align 0 x.adm)
      else if x.st.scrBusy off 128 || x.st.acqBusy then .next (s.stallOn x)
      else
        let bs := s.scrGets x.st off 128
        let s := s.modCore x.st.d x.st.k fun c => { c with lace := cputs c.lace (128 * f.d.toNat) bs }
        .next (s.finish x (rowOf i) f 8 x.st)

end Sys2Proof.Machine
end

