-- ==== Sys2Proof/Machine/Control.lean ====
section
/-! DEFINITION. The control family (R136 to R151): branches, divergence, calls, loops, exits, TRAP and BKPT. Every meaning
takes the length of its form, so that the W-B forms share it (R89). -/

namespace Sys2Proof.Machine

/-- The target of an L-J instruction (R136). -/
def ljTarget (st : Strand) (f : LFields) : DWord := st.pc + ((off24 f).signExtend 64 <<< 1)

/-- A taken transfer that the spin detector counts as a branch or not. -/
def jump (t : DWord) (branch : Bool) : Option Xfer := some { target := t, branch := branch }

/-- The instruction ends; a transfer goes to its target (R108). -/
def State.endAt (s : State) (x : Issued) (sp : OpSpec) (f : LFields) (len : Nat) (st : Strand) (t : Option Xfer) : State :=
  s.retire x.id { st with rdy := x.st.score sp f x.adm }
    { doneOf sp f len (x.st.writtenRegs sp f x.adm) with xfer := t }

/-- BRA (R139): all active threads together. -/
def braExec (i : Instr) (sp : OpSpec) (f : LFields) (len : Nat) (s : State) : Result :=
  match issue i sp f noPre s with
  | .out o => o
  | .go x => .next (s.endAt x sp f len x.st (if x.adm = 0 then none else jump (ljTarget x.st f) true))
def execBra (f : LFields) (s : State) : Result := braExec (.bra f) (rowOf (.bra f)) f 8 s

/-- RCV (R140). -/
def rcvExec (i : Instr) (sp : OpSpec) (f : LFields) (len : Nat) (s : State) : Result :=
  match issue i sp f noPre s with
  | .out o => o
  | .go x =>
    .next (s.finish x sp f len (if x.adm = 0 then x.st else { x.st with rpc := ljTarget x.st f, rpcv := true }))
def execRcv (f : LFields) (s : State) : Result := rcvExec (.rcv f) (rowOf (.rcv f)) f 8 s

/-- Ends a diverging instruction: the strand stands on the first path that runs; a first path elsewhere than behind the
instruction is a taken transfer (R66, R108, R143). -/
def State.endDiverged (s : State) (x : Issued) (sp : OpSpec) (f : LFields) (len : Nat) (st : Strand) (branch : Bool) : State :=
  let next := x.st.pc + BitVec.ofNat 64 len
  let dn := { doneOf sp f len [] with xfer := if st.pc = next ∨ st.mask = 0 then none else jump st.pc branch }
  s.retireWith x.id { st with pc := x.st.pc, resume := none } dn fun r => { r with pc := st.pc }

/-- The active threads of T go to `pc1` and the others to `pc2`, in the order of R66. -/
def splitPaths (t : Mask) (pc1 : DWord) (f : Mask) (pc2 : DWord) : List (DWord × Mask) :=
  if mLow t < mLow f then [(pc1, t), (pc2, f)] else [(pc2, f), (pc1, t)]

/-- A split needs a valid RPC (R141, R142). -/
def divPre (f : LFields) (st : Strand) (m : Mask) : Option Nat :=
  let t := st.admitted f &&& m
  if m = 0 ∨ t = 0 ∨ t = st.mask ∨ st.rpcv then none else some 0

/-- DIV (R141): threads that a handler took out of the instruction go on behind it (R76). -/
def divExec (i : Instr) (sp : OpSpec) (f : LFields) (len : Nat) (s : State) : Result :=
  match issue i sp f (divPre f) s with
  | .out o => o
  | .go x =>
    if x.adm = 0 then .next (s.finish x sp f len x.st)
    else
      let st := x.st
      let t := st.admitted f &&& x.adm
      if t = 0 then .next (s.finish x sp f len { st with rpcv := false })
      else if t = st.mask then .next (s.endAt x sp f len { st with rpcv := false } (jump (ljTarget st f) false))
      else
        match st.diverge (splitPaths t (ljTarget st f) (st.mask &&& ~~~t) (st.pc + BitVec.ofNat 64 len)) with
        | none => .next (s.trapAtIssue x.id st .stackovf 0 x.adm)
        | some r => .next (s.endDiverged x sp f len r false)
def execDivT (f : LFields) (s : State) : Result := divExec (.divT f) (rowOf (.divT f)) f 8 s

/-- The target that each active thread of a vector BRX names (R142); threads that a handler took out of the instruction go on
behind it (R76). -/
def brxTarget (st : Strand) (m : Mask) (n t : Nat) : DWord :=
  st.pc + if mHas m t then (st.vget n t).signExtend 64 else 8

/-- The paths of a vector BRX: the distinct targets in the order of their lowest-numbered threads (R66, R142). -/
def brxPaths (st : Strand) (m : Mask) (n : Nat) : List (DWord × Mask) :=
  let ts := (List.range 16).filter (mHas st.mask)
  (distinct (ts.map (brxTarget st m n))).map fun p => (p, mOf fun t => mHas st.mask t && brxTarget st m n t == p)

def brxPre (f : LFields) (st : Strand) (m : Mask) : Option Nat :=
  let n := f.a.toNat
  if m = 0 ∨ 0x80 ≤ n ∨ (brxPaths st m n).length ≤ 1 ∨ st.rpcv then none else some 0

/-- BRX (R142). -/
def execBrx (f : LFields) (s : State) : Result :=
  let i : Instr := .brx f
  let sp := rowOf i
  match issue i sp f (brxPre f) s with
  | .out o => o
  | .go x =>
    let st := x.st
    let n := f.a.toNat
    if x.adm = 0 then .next (s.finish x sp f 8 st)
    else if 0x80 ≤ n then
      let t := st.sget64 (n - 0x80)
      match badTarget t with
      | some c => .next (s.trapAtIssue x.id st c 0 x.adm)
      | none => .next (s.endAt x sp f 8 st (jump t true))
    else
      let ps := brxPaths st x.adm n
      let odd := ps.any fun p => p.1.toNat % 2 == 1
      match ps with
      | [p] =>
        if odd then .next (s.trapAtIssue x.id st .align 0 x.adm)
        else .next (s.endAt x sp f 8 { st with rpcv := false } (jump p.1 true))
      | _ =>
        match st.diverge ps with
        | none => .next (s.trapAtIssue x.id st .stackovf 0 x.adm)
        | some r =>
          if odd then .next (s.trapAtIssue x.id st .align 0 x.adm)
          else .next (s.endDiverged x sp f 8 r true)

/-- CALL (R146). -/
def callExec (i : Instr) (sp : OpSpec) (f : LFields) (len : Nat) (s : State) : Result :=
  match issue i sp f noPre s with
  | .out o => o
  | .go x =>
    if x.adm = 0 then .next (s.finish x sp f len x.st)
    else
      let st := x.st.sset64 (f.d.toNat - 0x80) (x.st.pc + BitVec.ofNat 64 len)
      .next (s.endAt x sp f len st (jump (ljTarget x.st f) false))
def execCall (f : LFields) (s : State) : Result := callExec (.call f) (rowOf (.call f)) f 8 s

/-- RET (R146). -/
def execRet (f : LFields) (s : State) : Result :=
  let i : Instr := .ret f
  let sp := rowOf i
  match issue i sp f noPre s with
  | .out o => o
  | .go x =>
    if x.adm = 0 then .next (s.finish x sp f 8 x.st)
    else
      let t := x.st.sget64 (f.a.toNat - 0x80)
      match badTarget t with
      | some c => .next (s.trapAtIssue x.id x.st c 0 x.adm)
      | none => .next (s.endAt x sp f 8 x.st (jump t false))

/-- LOOP (R147). -/
def loopExec (i : Instr) (sp : OpSpec) (f : LFields) (len : Nat) (s : State) : Result :=
  match issue i sp f noPre s with
  | .out o => o
  | .go x =>
    if x.adm = 0 then .next (s.finish x sp f len x.st)
    else
      let n := f.d.toNat - 0x80
      let c := x.st.sget n - 1
      .next (s.endAt x sp f len (x.st.sset n c) (if c = 0 then none else jump (ljTarget x.st f) true))
def execLoop (f : LFields) (s : State) : Result := loopExec (.loop f) (rowOf (.loop f)) f 8 s

/-- EXIT (R70, R148): the admitted threads leave the active mask and every stack entry; with none left the strand drains. -/
def exitExec (i : Instr) (sp : OpSpec) (f : LFields) (len : Nat) (s : State) : Result :=
  match issue i sp f noPre s with
  | .out o => o
  | .go x =>
    let st := { x.st with mask := x.st.mask &&& ~~~x.adm, stack := x.st.stack.map (·.remove x.adm) }
    let s := s.retire x.id st { doneOf sp f len [] with ends := true }
    match s.strand x.id with
    | some r => if r.mask = 0 then .next (s.drain x.id) else .next s
    | none => .next s
def execExit (f : LFields) (s : State) : Result := exitExec (.exit f) (rowOf (.exit f)) f 8 s

/-- NOP (R149). -/
def execNop (f : LFields) (s : State) : Result :=
  execOnce (.nop f) (rowOf (.nop f)) f 8 noPre (fun x => x.st) s

/-- YIELD (R149): the run ends and the strand is Ready. -/
def yieldExec (i : Instr) (sp : OpSpec) (f : LFields) (len : Nat) (s : State) : Result :=
  match issue i sp f noPre s with
  | .out o => o
  | .go x => .next (s.retire x.id x.st { doneOf sp f len [] with ends := true })
def execYield (f : LFields) (s : State) : Result := yieldExec (.yield f) (rowOf (.yield f)) f 8 s

/-- TRAP and BKPT (R150): the trap is the effect. -/
def trapExec (i : Instr) (c : Cause) (f : LFields) (s : State) : Result :=
  match issue i (rowOf i) f noPre s with
  | .out o => o
  | .go x =>
    if x.adm = 0 then .next (s.finish x (rowOf i) f 8 x.st)
    else .next (s.trapAtIssue x.id x.st c (imm16 f).toNat x.adm)
def execTrap (f : LFields) (s : State) : Result := trapExec (.trap f) .trap f s
def execBkpt (f : LFields) (s : State) : Result := trapExec (.bkpt f) .bkpt f s

end Sys2Proof.Machine
end

