-- ==== Sys2Proof/Machine/System.lean ====
section
/-! DEFINITION. Special registers, return from a trap, the timer, HALT and what is no instruction (R101, R267 to R269,
R274 to R278, R490), with the events that only touch a strand's own timers and traps. -/

namespace Sys2Proof.Machine

/-- The group of a slot, and the strand's rank in it (R307). -/
def State.slotGroup (s : State) (st : Strand) (slot : Nat) : Option Group :=
  match nth none st.slots slot with
  | some g => s.groupOf g
  | none => none

/-- The value of special register n for thread t (R73). -/
def State.srVal (s : State) (id : Nat) (st : Strand) (n slot t : Nat) : DWord :=
  match n with
  | 0 => BitVec.ofNat 64 t
  | 1 => BitVec.ofNat 64 st.sid
  | 2 => BitVec.ofNat 64 st.iid
  | 3 => BitVec.ofNat 64 st.kid
  | 4 => BitVec.ofNat 64 st.role
  | 5 => BitVec.ofNat 64 st.k
  | 6 => BitVec.ofNat 64 st.d
  | 7 => BitVec.ofNat 64 st.ln
  | 8 => match s.slotGroup st slot with
    | some g => BitVec.ofNat 64 (g.members.idxOf id)
    | none => 0xFFFFFFFF
  | 9 => match s.slotGroup st slot with
    | some g => BitVec.ofNat 64 g.members.length
    | none => 0
  | 10 => BitVec.ofNat 64 (s.die st.d).clk
  | 11 => BitVec.ofNat 64 s.gtime
  | 12 => st.tmr
  | 13 => st.epc
  | 14 => st.emask.zeroExtend 64
  | 15 => st.cause.zeroExtend 64
  | _ => st.sts.zeroExtend 64

/-- RDSR (R277). -/
def execRdsr (f : LFields) (s : State) : Result :=
  let i : Instr := .rdsr f
  match issue i (rowOf i) f noPre s with
  | .out o => o
  | .go x =>
    let n := (imm16 f).toNat
    let ws (t : Nat) : List Word := (words64 (s.srVal x.id x.st n f.a.toNat t)).take (srRegs n)
    .next (s.finish x (rowOf i) f 8 (if x.adm = 0 then x.st else x.st.putDest f.d.toNat x.adm ws))

/-- The trap registers may be written only in Handler (R278). -/
def wrsrPre (f : LFields) (st : Strand) (m : Mask) : Option Nat :=
  let n := (imm16 f).toNat
  if m ≠ 0 ∧ 13 ≤ n ∧ n ≤ 15 ∧ st.frame.isNone then some 0 else none

/-- WRSR (R278). -/
def wrsrExec (f : LFields) (st : Strand) : Strand :=
  let a := st.sval f.a.toNat
  match (imm16 f).toNat with
  | 13 => { st with epc := st.sval64 f.a.toNat }
  | 14 => { st with emask := a &&& 0xFFFF }
  | 15 => { st with cause := a &&& 0xF0FFFFFF }
  | 16 => { st with sts := st.sts &&& ~~~a }
  | _ => st
def execWrsr (f : LFields) (s : State) : Result :=
  execOnce (.wrsr f) (rowOf (.wrsr f)) f 8 (wrsrPre f) (fun x => wrsrExec f x.st) s

/-- TRET outside Handler, or at another stack depth (R276). -/
def tretPre (st : Strand) (_ : Mask) : Option Nat :=
  match st.frame with
  | some fr => if st.stack.length = fr.depth then none else some 3
  | none => some 3

/-- TRET (R276). -/
def execTret (f : LFields) (s : State) : Result :=
  let i : Instr := .tret f
  match issue i (rowOf i) f tretPre s with
  | .out o => o
  | .go x =>
    match x.st.frame with
    | none => .next (s.finish x (rowOf i) f 8 x.st)
    | some fr =>
      if x.adm = 0 then .next (s.finish x (rowOf i) f 8 x.st)
      else
        match badTarget x.st.epc with
        | some c => .next (s.trapAtIssue x.id x.st c 0 x.adm)
        | none =>
          let dn := { doneOf (rowOf i) f 8 [] with xfer := jump x.st.epc false }
          .next (s.retireWith x.id x.st dn fun st => st.tret fr)

/-- TMSET (R268). -/
def tmsetExec (f : LFields) (st : Strand) : Strand :=
  match f.m3.toNat with
  | 0 => { st with tcmp := st.sval64 f.a.toNat, tarmed := true }
  | 1 => { st with tcmp := st.tmr + st.sval64 f.a.toNat, tarmed := true }
  | _ => { st with tarmed := false }
def execTmset (f : LFields) (s : State) : Result :=
  execOnce (.tmset f) (rowOf (.tmset f)) f 8 noPre (fun x => tmsetExec f x.st) s

/-- The fields of an L instruction whose operand fields are all zero: E and S4 as fetched (R91). -/
def bareFields (ir : DWord) : LFields :=
  { m3 := 0, h := 0, w := 0, c := 0, b := 0, a := 0, d := 0, gn := 0, g6 := 0, y := 0, u := 0,
    s4 := (ir >>> 3).truncate 4, e := (ir >>> 2).truncate 1 }

/-- The instruction word that the current strand last fetched. -/
def State.curIr (s : State) : DWord :=
  match s.cur.bind s.strand with
  | some st => st.ir
  | none => 0

/-- HALT's row (R490). -/
def specHalt : OpSpec := { specBase with q0 := true, priv := true }

/-- HALT (R490). -/
def execHalt (s : State) : Result :=
  let f := bareFields s.curIr
  match issue .halt specHalt f noPre s with
  | .out o => o
  | .go x =>
    if x.adm = 0 then .next (s.finish x specHalt f 8 x.st)
    else if s.boot.dbg then .next (s.enterWait x x.st specHalt f 8 .halt)
    else .next (s.trapAtIssue x.id x.st .bkpt 0xFFFF x.adm)

/-- TAP_RESUME (R490): only with DBG 1. -/
def execTapResume (strand : Nat) (s : State) : Result :=
  match s.strand strand with
  | some st =>
    match st.run with
    | .waiting .halt len => .next (if s.boot.dbg then s.wakeAt strand st len else s)
    | _ => .next s
  | none => .next s

/-- An encoding that is no instruction raises ILLOP (R101). -/
def execEncodingNotAnInstruction (s : State) : Result :=
  match s.cur with
  | none => .fault .noStrand
  | some id =>
    match s.strand id with
    | none => .fault .noStrand
    | some st =>
      let em := match st.resume with
        | some r => st.mask &&& r.mask
        | none => st.mask
      .next (s.trapAtIssue id st .illop 0 em)

/-- SPIN_DEMOTION_TIMEOUT (R317): the demotion ends 4096 core cycles after it. -/
def execSpinDemotionTimeout (strand : Nat) (s : State) : Result :=
  match s.strand strand with
  | some st =>
    if st.resident && st.spin.demoted && decide (st.spin.since + 4096 ≤ (s.die st.d).clk) then
      .next (s.putStrand strand { st with spin := Spin.empty })
    else .next s
  | none => .next s

/-- TIMER_EXPIRY (R269). -/
def execTimerExpiry (strand : Nat) (s : State) : Result := .next (s.timerDue strand)

/-- The strand stands at an instruction boundary at which it may take a trap. -/
def Strand.atBoundary (st : Strand) : Bool :=
  st.resident && !st.stop && (st.run == .running || st.run == .ready)

/-- ASYNC_TRAP_TAKE (R274): a strand that is Running, or Ready at its next boundary, takes its pending trap. -/
def execAsyncTrapTake (strand : Nat) (s : State) : Result :=
  match s.strand strand with
  | some st => .next (if st.run == .running && st.atBoundary then s.takePend strand else s)
  | none => .next s

end Sys2Proof.Machine
end

