-- ==== Sys2Proof/Machine/Memory.lean ====
section
/-! DEFINITION. The memory family (R193 to R211): loads, stores, scratchpad access, atomics, exact sums, prefetch, WAITC and
FENCE, and the events that perform what is in flight. -/

namespace Sys2Proof.Machine

/-! LD and ST. -/

/-- The words of a data field of thread t as one number of n bytes. -/
def Strand.storeData (st : Strand) (reg regs t n : Nat) : Nat :=
  (List.range regs).foldl (fun v i => v + (st.vget (reg + i) t).toNat * 2 ^ (32 * i)) 0 % 2 ^ (8 * n)

/-- LD (R196). -/
def ldExec (i : Instr) (sp : OpSpec) (f : LFields) (len : Nat) (s : State) : Result :=
  match issue i sp f noPre s with
  | .out o => o
  | .go x =>
    let m3 := f.m3.toNat
    let n := sizeOf3 m3
    let c := f.c.toNat
    let o : OrdInfo :=
      { acq := c / 64 == 1, rel := false, acked := false, scope := c / 8 % 8, rmt := c / 4 % 2 == 1, hint := c % 4 }
    let dest (st : Strand) (t : Nat) := st.destOf sp.d f.d.toNat t
    s.issueAcc x sp f len 0 kRead (.load m3 (f.u == 1) o)
      (fun st t s => match dest st t with
        | .error e => (s, .error e)
        | .ok r => match s.formAcc st .read kRead n n (st.memAddr f n (st.memIndex f t) t) t with
          | (s, .ok a) => (s, .ok { a with reg := r })
          | q => q)
      (fun st as => spreadUni f x.adm (dest st) as) (accDests (regsOf3 m3)) (fun _ => false)
def execLd (f : LFields) (s : State) : Result := ldExec (.ld f) (rowOf (.ld f)) f 8 s

/-- ST (R197). -/
def stExec (i : Instr) (sp : OpSpec) (f : LFields) (len : Nat) (s : State) : Result :=
  match issue i sp f noPre s with
  | .out o => o
  | .go x =>
    let m3 := f.m3.toNat
    let n := sizeOf3 m3
    let c := f.c.toNat
    let o : OrdInfo := { acq := false, rel := c / 64 == 2, acked := false, scope := c / 8 % 8, rmt := false, hint := c % 4 }
    s.issueAcc x sp f len 1 kWrite (.store o)
      (fun st t s => match st.destOf sp.d f.d.toNat t with
        | .error e => (s, .error e)
        | .ok r => match s.formAcc st .write kWrite n n (st.memAddr f n (st.memIndex f t) t) t with
          | (s, .ok a) => (s, .ok { a with data := st.storeData r (regsOf3 m3) t n })
          | q => q)
      (fun _ as => .ok as) (fun _ => []) (fun _ => false)
def execSt (f : LFields) (s : State) : Result := stExec (.st f) (rowOf (.st f)) f 8 s

/-! The scratchpad. -/

/-- Where a scratchpad pass stopped: why, the element, the threads left, and what was done. -/
structure SStop where
  why : MStop
  e : Nat
  m : Mask
  s : State
  st : Strand

/-- What one thread of a scratchpad instruction does: element, thread and the threads that receive a result. -/
abbrev ScrStep := Nat → Nat → List Nat → State → Strand → Except MStop (State × Strand)

/-- The threads of one element in order (R76). -/
def scrThreads (g : ScrStep) (e : Nat) (m : Mask) : List Nat → State → Strand → Except SStop (State × Strand)
  | [], s, st => .ok (s, st)
  | t :: r, s, st =>
    match g e t [t] s st with
    | .ok (s, st) => scrThreads g e m r s st
    | .error w => .error { why := w, e := e, m := mFrom m t, s := s, st := st }

/-- The elements of the block, the resumed one with its remaining threads (R59, R76). -/
def scrElems (g : ScrStep) (adm : Mask) (rs : Option Resume) : List Nat → State → Strand → Except SStop (State × Strand)
  | [], s, st => .ok (s, st)
  | e :: r, s, st =>
    let m := elemMask rs adm e
    match scrThreads g e m (threads m) s st with
    | .ok (s, st) => scrElems g adm rs r s st
    | .error w => .error w

/-- The steps of a scratchpad instruction with n elements: with U one step, for the lowest admitted thread (R58, R59). -/
def scrPass (g : ScrStep) (f : LFields) (n : Nat) (adm : Mask) (s : State) (st : Strand) : Except SStop (State × Strand) :=
  if f.u == 1 then
    match g 0 (mLow adm) (threads adm) s st with
    | .ok q => .ok q
    | .error w => .error { why := w, e := 0, m := adm, s := s, st := st }
  else scrElems g adm st.resume (List.range n) s st

/-- A scratchpad instruction (R58, R200, R203). It waits for the strand's own unperformed accesses through the scratchpad
window (R198) and for its earlier acquires (R196). -/
def scrRun (i : Instr) (sp : OpSpec) (f : LFields) (len kind : Nat) (g : ScrStep) (s : State) : Result :=
  match issue i sp f noPre s with
  | .out o => o
  | .go x =>
    if x.adm = 0 then .next (s.finish x sp f len x.st)
    else if x.st.scrBusy 0 (2 ^ 32) || x.st.acqBusy then .next (s.stallOn x)
    else
      match scrPass g f (elems sp f) x.adm s x.st with
      | .ok (s, st) => .next (s.finish x sp f len st)
      | .error w => .next (s.stopAt w.s x.id w.st w.e kind w.m w.why)

/-- The registers of an element for the threads that receive a result. -/
def Strand.dests (st : Strand) (r : Fld) (f : LFields) (e : Nat) (ts : List Nat) : Except MStop (List (Nat × Nat)) :=
  ts.mapM fun t => do
    let n ← st.destOf r f.d.toNat t
    .ok (t, if f.d.toNat < 0x80 && r.n == 1 then n + blockOff f e else n)

/-- The 32-bit offset of a scratchpad access (R200), checked for WINDOW and ALIGN. -/
def State.scrOffset (s : State) (st : Strand) (f : LFields) (n : Nat) (index : Int) (e t : Nat) : Except MStop Nat :=
  let x := f.a.toNat
  let a : Nat := if x < 0x80 then (st.vget x t).toNat else (st.sget (x - 0x80)).toNat
  let off := (((a : Int) + index * n + e * n) % (2 ^ 32 : Nat)).toNat
  if off + n > s.scrSize st then .error (.trap .window e)
  else if off % n ≠ 0 then .error (.trap .align e)
  else .ok off

/-- LDS (R200). -/
def ldsStep (sp : OpSpec) (f : LFields) : ScrStep := fun e t ts s st => do
  let n := sizeOf3 f.m3.toNat
  let ds ← st.dests sp.d f e ts
  let off ← s.scrOffset st f n (st.memIndex f t) e t
  let ws := loadWords f.m3.toNat (s.scrGets st off n)
  .ok (s, ds.foldl (fun st d => st.vputs d.2 d.1 ws) st)
def ldsExec (i : Instr) (sp : OpSpec) (f : LFields) (len : Nat) (s : State) : Result :=
  scrRun i sp f len kRead (ldsStep sp f) s
def execLds (f : LFields) (s : State) : Result := ldsExec (.lds f) (rowOf (.lds f)) f 8 s

/-- STS (R200). -/
def stsStep (sp : OpSpec) (f : LFields) : ScrStep := fun e t _ s st => do
  let n := sizeOf3 f.m3.toNat
  let ds ← st.dests sp.d f e [t]
  let off ← s.scrOffset st f n (st.memIndex f t) e t
  let r := match ds with
    | d :: _ => d.2
    | [] => 0
  .ok (s.padPuts st off (leBytes n (st.storeData r (regsOf3 f.m3.toNat) t n)), st)
def stsExec (i : Instr) (sp : OpSpec) (f : LFields) (len : Nat) (s : State) : Result :=
  scrRun i sp f len kWrite (stsStep sp f) s
def execSts (f : LFields) (s : State) : Result := stsExec (.sts f) (rowOf (.sts f)) f 8 s

/-- How an atomic's type selects its operand's constant (R94, R202). -/
def atomTy (ty : Nat) : OTy := if ty = 3 then .b64 else if ty = 4 then .fp fmtF32 else if ty = 5 then .fp2 fmtF16 else .i32

/-- A thread's operand of an atomic as a number. -/
def Strand.atomArg (st : Strand) (sp : OpSpec) (f : LFields) (t : Nat) : Nat :=
  let ws := st.words f sp.b f.b.toNat (atomTy f.m3.toNat) t
  if f.m3 == 3 then (pair64 ws).toNat else (nth 0 ws 0).toNat

/-- ATOMS (R202, R203). -/
def atomsStep (sp : OpSpec) (f : LFields) : ScrStep := fun e t ts s st => do
  let ty := f.m3.toNat
  let n := atomSize ty
  let ds ← st.dests sp.d f e ts
  let own ← st.destOf sp.d f.d.toNat t
  let off ← s.scrOffset st f n 0 0 t
  let old := leVal (s.scrGets st off n)
  let new := atomNew (hw f) ty old (st.atomArg sp f t) (st.storeData own (n / 4) t n)
  let ws : List Word := (List.range (n / 4)).map fun i => BitVec.ofNat 32 (old / 2 ^ (32 * i))
  .ok (s.padPuts st off (leBytes n new), ds.foldl (fun st d => st.vputs d.2 d.1 ws) st)
def execAtoms (f : LFields) (s : State) : Result :=
  scrRun (.atoms f) (rowOf (.atoms f)) f 8 3 (atomsStep (rowOf (.atoms f)) f) s

/-- A pitch above 65532 raises ILLOP (R201). -/
def pitchPre (f : LFields) (st : Strand) (m : Mask) : Option Nat :=
  if m ≠ 0 ∧ 65532 < (st.sval f.b.toNat).toNat then some 0 else none

/-- LDT and STT (R201): the whole rectangle is checked at issue; `g` moves the word at an offset for an element and a
thread, with U the lowest admitted thread's (R58). -/
def rectRun (i : Instr) (f : LFields) (g : Nat → Nat → Nat → List Nat → State → Strand → State × Strand) (s : State) : Result :=
  match issue i (rowOf i) f (pitchPre f) s with
  | .out o => o
  | .go x =>
    if x.adm = 0 then .next (s.finish x (rowOf i) f 8 x.st)
    else if x.st.scrBusy 0 (2 ^ 32) || x.st.acqBusy then .next (s.stallOn x)
    else
      let a := (x.st.sval f.a.toNat).toNat
      let p := (x.st.sval f.b.toNat).toNat
      let n := blockLen f
      if a + 15 * p + 4 * n > s.scrSize x.st then .next (s.trapAtIssue x.id x.st .window 0 x.adm)
      else if a % 4 ≠ 0 ∨ p % 4 ≠ 0 then .next (s.trapAtIssue x.id x.st .align 0 x.adm)
      else
        match scrPass (fun e t ts s st => .ok (g (a + t * p + 4 * e) e t ts s st)) f n x.adm s x.st with
        | .ok (s, st) => .next (s.finish x (rowOf i) f 8 st)
        | .error w => .next (s.stopAt w.s x.id w.st w.e kRead w.m w.why)

def execLdt (f : LFields) (s : State) : Result :=
  rectRun (.ldt f) f (fun off e _ ts s st =>
    (s, ts.foldl (fun st t => st.vset (f.d.toNat + blockOff f e) t (BitVec.ofNat 32 (leVal (s.scrGets st off 4)))) st)) s
def execStt (f : LFields) (s : State) : Result :=
  rectRun (.stt f) f (fun off e t _ s st =>
    (s.padPuts st off (leBytes 4 (st.vget (f.d.toNat + blockOff f e) t).toNat), st)) s

/-! ATOM and the exact-sum instructions. -/

/-- ATOM (R202, R203). -/
def execAtom (f : LFields) (s : State) : Result :=
  let i : Instr := .atom f
  let sp := rowOf i
  match issue i sp f noPre s with
  | .out o => o
  | .go x =>
    let ty := f.m3.toNat
    let n := atomSize ty
    let c := f.c.toNat
    let o : OrdInfo :=
      { acq := c / 64 % 2 == 1, rel := decide (2 ≤ c / 64), acked := false, scope := c / 8 % 8, rmt := c / 4 % 2 == 1, hint := c % 4 }
    let dest (st : Strand) (t : Nat) := st.destOf sp.d f.d.toNat t
    s.issueAcc x sp f 8 1 3 (.atom (hw f) ty (f.u == 1) o)
      (fun st t s => match dest st t with
        | .error e => (s, .error e)
        | .ok r => match s.formAcc st .write 3 n n (st.memBase f t) t with
          | (s, .ok a) => (s, .ok { a with reg := r, data := st.atomArg sp f t, data2 := st.storeData r (n / 4) t n })
          | q => q)
      (fun st as => spreadUni f x.adm (dest st) as) (accDests (n / 4)) (fun as => as.any fun a => a.win == .glob)

/-- The address of an exact-sum cell (R204). -/
def Strand.cellAddr (st : Strand) (f : LFields) (t : Nat) : Nat := st.memAddr f 64 0 t

/-- SUMX (R204). -/
def execSumx (f : LFields) (s : State) : Result :=
  let i : Instr := .sumx f
  let sp := rowOf i
  match issue i sp f noPre s with
  | .out o => o
  | .go x =>
    let ty := f.m3.toNat
    s.issueAcc x sp f 8 5 3 (.sumx ty)
      (fun st t s => match s.formAcc st .exact 3 64 64 (st.cellAddr f t) t with
        | (s, .ok a) =>
          (s, .ok { a with data := (nth 0 (st.words f sp.b f.b.toNat (if ty ≤ 2 then fpTy ty else .i32) t) 0).toNat })
        | q => q)
      (fun _ as => .ok as) (fun _ => []) (fun as => !as.isEmpty)

/-- SUMCLR (R206). -/
def execSumclr (f : LFields) (s : State) : Result :=
  let i : Instr := .sumclr f
  let sp := rowOf i
  match issue i sp f noPre s with
  | .out o => o
  | .go x =>
    s.issueAcc x sp f 8 5 3 .sumclr (fun st t s => s.formAcc st .exact 3 64 64 (st.cellAddr f t) t)
      (fun _ as => .ok as) (fun _ => []) (fun as => !as.isEmpty)

/-- SUMRD (R205): a vector destination reads each admitted thread's cell, a scalar one the lowest thread's. -/
def execSumrd (f : LFields) (s : State) : Result :=
  let i : Instr := .sumrd f
  let sp := rowOf i
  match issue i sp f noPre s with
  | .out o => o
  | .go x =>
    let fmt := f.m3.toNat
    let n := if fmt = 7 then 16 else 1
    let scalar := decide (0x80 ≤ f.d.toNat)
    let f1 := if scalar then { f with u := 1 } else f
    s.issueAcc x sp f1 8 5 kRead (.sumrd fmt (f.u == 1) scalar)
      (fun st t s => match s.formAcc st .exact kRead 64 64 (st.cellAddr f t) t with
        | (s, .ok a) => (s, .ok { a with reg := f.d.toNat })
        | q => q)
      (fun _ as => if scalar then .ok as else spreadUni f x.adm (fun _ => .ok f.d.toNat) as)
      (accDests n) (fun _ => false)

/-! PREF. -/

/-- PREF (R207): what would fault, leave its window or reach a transient region is dropped. -/
def execPref (f : LFields) (s : State) : Result :=
  let i : Instr := .pref f
  let sp := rowOf i
  match issue i sp f noPre s with
  | .out o => o
  | .go x =>
    let st := x.st
    let hint := f.c.toNat % 4
    let one (s : State) (t : Nat) : State :=
      let va := st.memAddr f 128 (st.memIndex f t) t
      if va / 2 ^ 48 ≠ 0 then s
      else match s.translate st.ctx st.d st.k (some st.ln) va kRead with
        | (s, .ok pa) =>
          if (s.regionOf pa).isSome || s.heldFrom st.d pa then s
          else if f.m3 == 0 then
            (List.range 8).foldl (fun s j => s.touch st.d st.k (128 * lineOf pa + 16 * j) hint) s
          else s.fillSlice st.d pa hint
        | (s, _) => s
    .next (((accThreads f x.adm).foldl one s).finish x sp f 8 st)

/-! WAITC and FENCE. -/

/-- The first engine error that a WAITC of the path delivers (R208). -/
def Strand.pathErr (st : Strand) (p : Nat) : Option EngErr := st.engErrs.find? fun e => e.path == p

/-- The trap of an engine error at a WAITC (R208, R274): the error is delivered. -/
def State.deliverErr (s : State) (id : Nat) (st : Strand) (e : EngErr) (m : Mask) : State :=
  s.takeTrap s id { st with engErrs := st.engErrs.erase e }
    { cause := e.cause, epc := st.pc, emask := m, detail := 0, eng := some e.path }
    (some { elem := 0, mask := m, kept := [], upto := none })

/-- WAITC (R208). -/
def waitcExec (i : Instr) (sp : OpSpec) (f : LFields) (len thr : Nat) (s : State) : Result :=
  match issue i sp f noPre s with
  | .out o => o
  | .go x =>
    let p := f.d.toNat
    if x.adm = 0 then .next (s.finish x sp f len x.st)
    else if x.st.cnt p ≤ thr then
      match x.st.pathErr p with
      | some e => .next (s.deliverErr x.id x.st e x.adm)
      | none => .next (s.finish x sp f len x.st)
    else .next (s.enterWait x x.st sp f len (.waitc p thr))

/-- The threshold of an L-form WAITC. -/
def waitcThr (f : LFields) (s : State) : Nat :=
  if f.m3 == 1 then (imm16 f).toNat
  else match s.cur.bind s.strand with
    | some st => (st.sval f.a.toNat).toNat
    | none => 0
def execWaitc (f : LFields) (s : State) : Result := waitcExec (.waitc f) (rowOf (.waitc f)) f 8 (waitcThr f s) s

/-- A fence may complete: its strand's earlier accesses are performed, and a release side has nothing to write back
(R209). -/
def State.fenceReady (s : State) (st : Strand) (kind scope : Nat) : Bool :=
  if kind = 0 then !st.accPending else s.relReady st scope

/-- The actions of a fence, the release side first (R209, R210, R241). -/
def State.fenceAct (s : State) (st : Strand) (kind scope : Nat) : State :=
  let s := if kind = 0 then s
    else
      let s := s.relAct st scope
      if scope = 2 then s.recordRelease st.d st.k none else s
  if kind = 1 then s else s.acqAct st scope

/-- FENCE (R209). -/
def execFence (f : LFields) (s : State) : Result :=
  let i : Instr := .fence f
  let sp := rowOf i
  match issue i sp f noPre s with
  | .out o => o
  | .go x =>
    let kind := f.m3.toNat
    let scope := f.c.toNat / 8
    if x.adm = 0 then .next (s.finish x sp f 8 x.st)
    else if s.fenceReady x.st kind scope then .next ((s.fenceAct x.st kind scope).finish x sp f 8 x.st)
    else .next (s.enterWait x x.st sp f 8 (.fence kind scope))

/-! The events that perform operations in flight. -/

/-- Every computing core has answered an .rmt acquire's request (R241); one whose tile is fenced counts as having received it
(R433). -/
def State.answered (s : State) (o : Op) : Bool :=
  s.allCores.all fun c => o.replies.contains (16 * c.1 + c.2) || !((s.die c.1).tile (coreTile c.2)).up

/-- The ordering of a load or an atomic. -/
def OpKind.ordInfo : OpKind → OrdInfo
  | .load _ _ o | .store o | .atom _ _ _ o => o
  | _ => { acq := false, rel := false, acked := false, scope := 0, rmt := false, hint := 0 }

/-- Marks accesses performed and failed, and completes the operation with its last (R71, R199). -/
def State.markDone (s : State) (id n : Nat) (ts : Mask) (bad : Option Cause) : State :=
  let s := s.modStrand id fun st => st.modOp n fun o => { o with
    accs := o.accs.map fun a => if mHas ts a.thread then { a with done := true } else a,
    bad := if bad.isSome then o.bad ||| ts else o.bad,
    badCause := match bad with
      | some c => if o.bad = 0 then c else o.badCause
      | none => o.badCause }
  match (s.strand id).bind fun st => st.op n with
  | some o => if o.unperformed then s else s.completeOp id n
  | none => s

/-- LOAD_DATA_RETURN (R196, R199): one thread's data returns; with U the one access returns for every thread. -/
def execLoadDataReturn (strand op thread : Nat) (victims : List Nat) (s : State) : Result :=
  match s.strand strand with
  | none => .next s
  | some st =>
    match st.op op with
    | none => .next s
    | some o =>
      match o.kind with
      | .load m3 uni ord =>
        let as := o.accs.filter fun a => !a.done && (uni || a.thread == thread)
        if as.isEmpty || !st.resident || as.any (fun a => waitsFor (st.earlier op) o.kind true a) ||
            (ord.rmt && !s.answered o) then .next s
        else
          let s := (s.evictAll st.d st.k victims).promoteAccs st.d ord as
          if !s.promotedAccs st.d ord as then .next s
          else match s.performLoad st m3 ord as with
          | none => .next s
          | some r => .next ((r.s.putStrand strand r.st).markDone strand op (mOf fun t => as.any fun a => a.thread == t) r.bad)
      | _ => .next s

/-- STORE_PERFORMED (R197): every thread's write, in thread order (R75). -/
def execStorePerformed (strand op : Nat) (victims : List Nat) (s : State) : Result :=
  match s.strand strand with
  | none => .next s
  | some st =>
    match st.op op with
    | none => .next s
    | some o =>
      match o.kind with
      | .store ord =>
        if o.fin || !st.resident || o.accs.any (fun a => waitsFor (st.earlier op) o.kind true a) ||
            (ord.rel && (st.earlier op).any fun e => e.isAccess && e.unperformed) || s.relWaits st o.kind ||
            o.accs.any (s.storeHeld st ord) then .next s
        else
          let s := s.evictAll st.d st.k victims
          let s := s.relDo st o.kind
          let s := o.accs.foldl (fun s a => s.performStore st ord a) s
          let s := (s.storeUncorr st o.pc o.accs).ownDo st o.kind
          .next (s.markDone strand op 0xFFFF none)
      | _ => .next s

/-! Replies on their way (R455 to R458). -/

/-- The tag of the last update that a core made at the slice of a die that serves a line: the slice's mesh tile and the sequence
number. -/
def State.lastTag (s : State) (d c e line : Nat) : Nat × Nat :=
  let dst := 24 * e + sliceTile (s.servingAt e line)
  (dst, (tget s.tagNo (128 * (24 * d + coreTile c) + dst)).getD 0)

/-- A message with a number of its own and the next sequence number of its source to its destination (R425, R456). -/
def State.send (s : State) (cls src dst : Nat) (b : MsgBody) : State :=
  let n := s.nextTag src dst
  let s := { s with seqNo := s.seqNo + 1, tagNo := tput s.tagNo (128 * src + dst) n }
  { s with msgs := s.msgs ++ [{ id := s.seqNo, cls := cls, src := src, dst := dst, seq := n, body := b, status := 0, reissue := false }] }

/-- The reply to an operation that is on its way to its core. -/
def Msg.repliesTo (strand op : Nat) (m : Msg) : Bool := match m.body with
  | .reply a b _ => a == strand && b == op
  | _ => false

/-- The record of tags that answers for a slice tile: at its buddy where the buddy mirrors it or serves for it, else its own
(R456, R457). -/
def State.recorded (s : State) (e n src seq : Nat) : Option TagEnt :=
  let has (m : Nat) : Option TagEnt := ((tget ((s.die e).slice m).record src).getD []).find? (·.seq == seq)
  match has (buddy n) with
  | some r => some r
  | none => has n

/-- The values that a slice returns again for updates that it has applied; none when its record holds one of them no longer
(R456, R458). -/
def State.recordedVals (s : State) (st : Strand) (l : List (Nat × Nat × Nat)) : Option (List (Nat × Nat)) :=
  l.mapM fun q => match (s.recorded (q.2.1 / 24) ((tileSlice (q.2.1 % 24)).getD 0) (24 * st.d + coreTile st.k) q.2.2) with
    | some r => some (q.1, r.val.getD 0)
    | none => none

/-- A reply leaves a slice for the operation's core: the core waits for it (R456). -/
def State.replySend (s : State) (id : Nat) (st : Strand) (o : Op) (vals : List (Nat × Nat)) : State :=
  match o.applied with
  | [] => s
  | q :: _ => s.send 4 q.2.1 (24 * st.d + coreTile st.k) (.reply id o.id vals)

/-- What became of an operation whose updates are applied and whose reply is outstanding: the values of the reply that arrives, or
those that the slice's record returns for the reissued request (R455, R456, R458); none where it must be applied after all. -/
def State.answer (s : State) (id : Nat) (st : Strand) (o : Op) : Option (List (Nat × Nat)) :=
  match s.msgs.find? (Msg.repliesTo id o.id) with
  | some m => match m.body with
    | .reply _ _ vals => some vals
    | _ => none
  | none => s.recordedVals st o.applied

/-- Its reply lies in a fenced router (R456), or waits for a link (R431). -/
def State.replyLost (s : State) (id n : Nat) : Bool := s.msgs.any fun m => m.repliesTo id n &&
  (m.status != 0 || s.linkSlow (m.src / 24) (m.dst / 24))

/-- The old values go to the registers of an atomic's threads. -/
def Strand.atomReply (st : Strand) (ty : Nat) (accs : List Acc) (vals : List (Nat × Nat)) : Strand :=
  vals.foldl (fun st v => st.atomGive ty (accs.filter (·.thread == v.1)) v.2) st

/-- The reply has arrived: its message has gone. -/
def State.replyIn (s : State) (id n : Nat) : State := { s with msgs := s.msgs.filter fun m => !m.repliesTo id n }

/-- Applies the updates of an atomic in thread order (R75) without giving their values: the state, and each update's thread, slice
tile and tag with its value; none where one waits or fails. -/
def State.atomApply (s : State) (st : Strand) (op ty : Nat) (ord : OrdInfo) :
    List Acc → Option (State × List (Nat × Nat × Nat) × List (Nat × Nat))
  | [] => some (s, [], [])
  | a :: r =>
    match s.atomOne st op ty ord a with
    | none => none
    | some q =>
      if q.bad.isSome || a.win != .glob then none
      else
        match q.s.atomApply st op ty ord r with
        | none => none
        | some (s2, ts, vs) => some (s2, (a.thread, q.s.lastTag st.d st.k (homeDie a.pa) (lineOf a.pa)) :: ts, (a.thread, q.old) :: vs)

/-- Performs the accesses of an atomic in thread order (R75); none when a parked frame holds one. -/
def State.atomAll (s : State) (st : Strand) (op ty : Nat) (ord : OrdInfo) :
    List (List Acc) → Option (State × Strand × Mask × Cause)
  | [] => some (s, st, 0, .uncorr)
  | as :: r =>
    match s.performAtom st op ty ord as with
    | none => none
    | some p =>
      match p.s.atomAll p.st op ty ord r with
      | none => none
      | some (s, st, m, c) =>
        match p.bad with
        | some b => some (s, st, m ||| mOf fun t => as.any fun a => a.thread == t, b)
        | none => some (s, st, m, c)

/-- The atomic may be performed now. -/
def State.atomReady (s : State) (st : Strand) (o : Op) (ord : OrdInfo) : Bool :=
  !(o.accs.any (fun a => waitsFor (st.earlier o.id) o.kind true a) ||
    (ord.rel && (st.earlier o.id).any fun e => e.isAccess && e.unperformed) || s.relWaits st o.kind || (ord.rmt && !s.answered o))

/-- An atomic performed and answered in one step. -/
def State.atomBoth (s : State) (id : Nat) (st : Strand) (o : Op) (k ty : Nat) (uni : Bool) (ord : OrdInfo) : State :=
  let s1 := (s.relDo st o.kind).promoteAccs st.d ord o.accs
  if !s1.promotedAccs st.d ord o.accs then s
  else match s1.atomAll st k ty ord (if uni then [o.accs] else o.accs.map fun a => [a]) with
    | none => s
    | some (s2, st2, m, c) =>
      (s2.putStrand id (st2.modOp o.id fun o => { o with bad := m, badCause := c })).markDone id o.id 0xFFFF none

/-- An atomic performed at the slices with its reply on the way; where that cannot be, it is performed and answered at once. -/
def State.atomFar (s : State) (id : Nat) (st : Strand) (o : Op) (k ty : Nat) (uni : Bool) (ord : OrdInfo) : State :=
  let s1 := (s.relDo st o.kind).promoteAccs st.d ord o.accs
  if !s1.promotedAccs st.d ord o.accs then s
  else match s1.atomApply st k ty ord (if uni then o.accs.take 1 else o.accs) with
    | none => s.atomBoth id st o k ty uni ord
    | some (s2, ts, vs) =>
      let o2 := { o with applied := ts }
      (s2.modStrand id fun st => st.modOp o.id fun _ => o2).replySend id st o2
        (if uni then o.accs.filterMap fun a => vs.head?.map fun v => (a.thread, v.2) else vs)

/-- ATOMIC_PERFORMED (R203): applied at the home slice, with the reply back in the same step or on its way. An operation that has
been applied receives its reply, or the recorded value for its reissued request (R456, R458). -/
def execAtomicPerformed (strand : Nat) (op : Applying) (s : State) : Result :=
  match s.strand strand with
  | none => .next s
  | some st =>
    match st.op op.id with
    | none => .next s
    | some o =>
      match o.kind with
      | .atom k ty uni ord =>
        if o.fin || !st.resident || s.replyLost strand op.id then .next s
        else
          match (if o.applied.isEmpty then none else s.answer strand st o) with
          | some vals =>
            let s := (s.replyIn strand op.id).putStrand strand (st.atomReply ty o.accs vals)
            .next (s.markDone strand op.id 0xFFFF none)
          | none =>
            if !s.atomReady st o ord then .next s
            else .next (if op.back then s.atomBoth strand st o k ty uni ord else s.atomFar strand st o k ty uni ord)
      | _ => .next s

/-- The operation is an exact-sum operation. -/
def OpKind.isSum : OpKind → Bool
  | .sumx _ | .sumclr | .sumrd _ _ _ => true
  | _ => false

/-- The accesses of an exact-sum operation performed (R204 to R206): a failing read re-issues its threads (R432); a failing
contribution is an engine error on path 5. -/
def State.sumAll (s : State) (st : Strand) (o : Op) : State × Strand × Op :=
  o.accs.foldl (fun (q : State × Strand × Op) a =>
    let p := q.1.performSum q.2.1 o.id o.kind a
    let o2 : Op := match p.bad, o.kind with
      | some c, .sumrd _ _ _ =>
        { q.2.2 with bad := q.2.2.bad ||| (1#16 <<< a.thread), badCause := if q.2.2.bad = 0 then c else q.2.2.badCause }
      | some c, _ =>
        if q.2.2.err.isSome then q.2.2
        else { q.2.2 with err := some { path := 5, cause := c, pc := o.pc, va := a.va, time := s.gtime } }
      | none, _ => { q.2.2 with
        applied := q.2.2.applied ++ [(a.thread, p.s.lastTag st.d st.k (homeDie a.pa) (lineOf a.pa))] }
    (p.s, p.st, o2)) (s, st, o)

/-- EXACT_SUM_PERFORMED (R52, R204 to R206): with the reply back in the same step, or, for a contribution or a clear, on its way. -/
def execExactSumPerformed (strand : Nat) (op : Applying) (s : State) : Result :=
  match s.strand strand with
  | none => .next s
  | some st =>
    match st.op op.id with
    | none => .next s
    | some o =>
      if !o.kind.isSum || o.fin || !st.resident || s.replyLost strand op.id then .next s
      else
        match (if o.applied.isEmpty then none else s.answer strand st o) with
        | some _ => .next ((s.replyIn strand op.id).markDone strand op.id 0xFFFF none)
        | none =>
          if o.accs.any (fun a => waitsFor (st.earlier op.id) o.kind false a) || o.accs.any (fun a => s.heldFrom st.d a.pa) then .next s
          else
            let r := s.sumAll st { o with applied := [] }
            let read := match o.kind with
              | .sumrd _ _ _ => true
              | _ => false
            if op.back || read || r.2.2.err.isSome then
              .next ((r.1.putStrand strand (r.2.1.modOp op.id fun _ => { r.2.2 with applied := [] })).markDone strand op.id 0xFFFF none)
            else .next ((r.1.putStrand strand (r.2.1.modOp op.id fun _ => r.2.2)).replySend strand st r.2.2 [])

/-- PROMOTION_REQUEST (R241): a core receives the request of a strand's oldest unperformed .rmt acquire and answers it once its
release actions are complete. A link that retrains holds the request (R431); a Failed one loses it, and the context that sent it is
told (R432). -/
def execPromotionRequest (strand die core : Nat) (s : State) : Result :=
  match s.strand strand with
  | none => .next s
  | some st =>
    match st.ops.find? fun o => o.isAccess && o.unperformed && o.kind.ordInfo.rmt with
    | none => .next s
    | some o =>
      if !s.computing die || decide (16 ≤ core) || o.replies.contains (16 * die + core) || s.linkSlow st.d die then .next s
      else
        let dead := s.linkDead st.d die
        let lines := (o.accs.filter fun a => a.win == .glob).map fun a => lineOf a.pa
        let s := if dead then s.ctxEvent st.ctx 1 else lines.foldl (fun s l => s.promote die core l) s
        let x := s.core die core
        if !dead && lines.any (fun l => x.filterAny || x.filter.contains l) then .next s
        else .next (s.modStrand strand fun st => st.modOp o.id fun o => { o with replies := (16 * die + core) :: o.replies })

/-- The release's write-backs have been acknowledged. -/
def OpKind.ack : OpKind → OpKind
  | .store r => .store { r with acked := true }
  | .atom a b c r => .atom a b c { r with acked := true }
  | k => k

/-- The scope of the release that a held request makes. -/
def Request.scope : Request → Nat
  | .bar _ | .bara _ => 1
  | _ => 4

/-- WRITE_BACK_ACKNOWLEDGED (R210): the write-back of the wide release that a strand waits for, its fence, its held
instruction or its oldest unperformed .rel access, is done. -/
def execWriteBackAcknowledged (strand : Nat) (s : State) : Result :=
  match s.strand strand with
  | none => .next s
  | some st =>
    if !st.resident then .next s
    else
      let held := st.hold.isSome || st.stalled
      match st.run with
      | .waiting (.fence kind scope) _ => .next (if kind = 0 || st.accPending then s else s.relAct st scope)
      | _ =>
        if held && !st.accPending then
          .next (s.relAct st (match st.hold with
            | some r => r.scope
            | none => 4))
        else
          match st.ops.find? fun o => o.isAccess && o.unperformed && o.kind.releases && !o.kind.ordInfo.acked with
          | none => .next s
          | some o =>
            if (st.earlier o.id).any fun e => e.isAccess && e.unperformed then .next s
            else
              let s := s.relDo st o.kind
              if s.relWaits st o.kind then .next s
              else .next (s.modStrand strand fun st => st.modOp o.id fun o => { o with kind := o.kind.ack })

end Sys2Proof.Machine
end

