-- ==== Sys2Proof/Machine/Engine.lean ====
section
/-! DEFINITION. The engine commands (R212 to R221): SHUT, SHUTX, DTLD, DECODE and FETCHF, and the events in which the
shuttle, the table loader, the decoder and the sampler do their work. -/

namespace Sys2Proof.Machine

/-! Accesses of an engine. -/

/-- Why an engine stops: an error with its address, a missing page, a parked walk, or another wait. -/
inductive EStop where
  | err (c : Cause) (va : Nat)
  | page (e : BatchEntry)
  | park
  | wait
  deriving DecidableEq, Repr

/-- One access of an engine: its window and its translation (R190, R212, R392). -/
def State.engAddr (s : State) (st : Strand) (k : AKind) (need n va : Nat) : State × Except EStop (Win × Nat) :=
  match windowOf (s.scrSize st) k n 1 va with
  | .error c => (s, .error (.err c va))
  | .ok (w, off) =>
    match w with
    | .glob =>
      match s.translate st.ctx st.d st.k none off need with
      | (s, .ok pa) => (s, .ok (w, pa))
      | (s, .park) => (s, .error .park)
      | (s, .wait) => (s, .error .wait)
      | (s, .fault .page lvl) => (s, .error (.page (faultEntry off .page lvl need)))
      | (s, .fault c _) => (s, .error (.err c va))
    | _ => (s, .ok (w, off))

/-- Reads n bytes through the core's L1 column (R212). -/
def State.engRead (s : State) (st : Strand) (n va hint : Nat) : State × Except EStop (List Byte) :=
  match s.engAddr st .read kRead n va with
  | (s, .error e) => (s, .error e)
  | (s, .ok (.glob, pa)) =>
    if s.readHeld st.d st.k pa n then (s, .error .wait)
    else match s.coreBads st.d st.k pa n with
    | some c => (s, .error (.err c va))
    | none =>
      let bs := s.coreGets st.d st.k pa n
      (s.touch st.d st.k pa hint, .ok bs)
  | (s, .ok (.scr, off)) => (s, .ok (s.scrGets st off n))
  | (s, .ok (.bsl, off)) => (s, .ok (cgets (s.core st.d st.k).bslice off n))

/-- Writes bytes through the core's L1 column (R212). -/
def State.engWrite (s : State) (st : Strand) (va : Nat) (bs : List Byte) (hint : Nat) : State × Except EStop Unit :=
  match s.engAddr st .write kWrite bs.length va with
  | (s, .error e) => (s, .error e)
  | (s, .ok (.glob, pa)) =>
    if s.putHeld st.d st.k pa hint then (s, .error .wait) else (s.corePuts st.d st.k pa bs st.ctx hint, .ok ())
  | (s, .ok (_, off)) => (s.scrPuts st off bs, .ok ())

/-! Issue and completion. -/

/-- The operation waits for a page that it has reported (R212, R399). -/
def State.engWaits (s : State) (ctx id n : Nat) : Bool :=
  let x := s.ctx ctx
  (x.forming ++ x.batches).any fun b => b.src == 1 && b.strand == some id && b.op == n

/-- An engine command's issue: what the descriptor forbids (ILLOP), what traps at issue, then its counter (R71, R212). -/
def engIssue (i : Instr) (f : LFields) (pre : Strand → Option Nat) (path : Nat) (stop : State → Strand → Option Cause)
    (go : Issued → State → State × Strand) (s : State) : Result :=
  match issue i (rowOf i) f (fun st m => if m = 0 then none else pre st) s with
  | .out o => o
  | .go x =>
    if x.adm = 0 then .next (s.finish x (rowOf i) f 8 x.st)
    else match stop s x.st with
      | some c => .next (s.trapAtIssue x.id x.st c 0 x.adm)
      | none =>
        if x.st.full path then .next (s.stallOn x)
        else
          let (s, st) := go x s
          .next (s.finish x (rowOf i) f 8 st)

/-- An engine operation that may make its accesses: its strand is resident, the strand's earlier accesses are performed
(R212), no walk of it is parked (R392), and no page that it has reported is outstanding. -/
def State.engReady (s : State) (id n : Nat) : Option (Strand × Op) :=
  match s.strand id with
  | none => none
  | some st =>
    match st.op n with
    | none => none
    | some o =>
      if !o.fin && !o.parked && st.resident && !(st.earlier n).any (fun e => e.isAccess && e.unperformed) && !s.engWaits st.ctx id n
      then some (st, o) else none

/-- The operation ends; an error stays with it until its counter falls (R208, R212). -/
def State.engDone (s : State) (id n : Nat) (err : Option EngErr) : State :=
  (s.modStrand id fun st => st.modOp n fun o => { o with err := err }).completeOp id n

/-- An engine's missing page forms a batch of its own (R212, R398, R399); in a Retiring context batches are void, and the
operation ends (R402). -/
def State.engPage (s : State) (id : Nat) (st : Strand) (o : Op) (e : BatchEntry) : State :=
  if (s.ctx st.ctx).state = 5 then s.engDone id o.id none
  else s.openBatch st.ctx
    { seq := 0, src := 1, die := o.die, core := o.core, pc := o.pc, kid := st.kid, iid := st.iid, sid := st.sid,
      strand := some id, op := o.id, entries := [e] }

/-- The end of an engine's pass: `s1` holds what it did, and `s0` what stays when it must wait. -/
def State.engEnd (s0 s1 : State) (id : Nat) (st : Strand) (o : Op) (r : Option EStop) : State :=
  match r with
  | none => s1.engDone id o.id none
  | some (.err c va) => s1.engDone id o.id (some { path := o.path, cause := c, pc := o.pc, va := va, time := s1.gtime })
  | some (.page e) => s0.engPage id st o e
  | some .park => s0.modStrand id fun st => st.modOp o.id fun o => { o with parked := true }
  | some .wait => s0

/-- What an engine has done so far stays with its operation (R212). -/
def State.engKeep (s : State) (id n prog bits : Nat) (staged : List (List Byte)) : State :=
  s.modStrand id fun st => st.modOp n fun o => { o with prog := prog, bits := bits, staged := staged }

/-! The shuttle. -/

/-- A signed 32-bit field. -/
def Strand.sInt (st : Strand) (n : Nat) : Int := (st.sget n).toInt

/-- Element size of the destination (R216). -/
def ShutDesc.dsz (d : ShutDesc) : Nat := nth d.esz [d.esz, 2, 2, 4, 4] d.conv

/-- The descriptor of R214, and with `x` that of R216. -/
def shutDesc (x : Bool) (st : Strand) (b : Nat) : ShutDesc :=
  let w7 := (st.sget (b + 7)).toNat
  let w4 := (st.sget (b + 4)).toNat
  { src := (st.sget64 b).toNat, dst := (st.sget64 (b + 2)).toNat, rows := w4 / 2 ^ 16, cols := w4 % 2 ^ 16,
    spitch := st.sInt (b + 5), dpitch := st.sInt (b + 6), hint := nbits w7 3 2, turn := nbits w7 2 1 == 1,
    esz := 2 ^ (w7 % 4), planes := if x then (st.sget (b + 8)).toNat % 2 ^ 16 else 1,
    spp := if x then st.sInt (b + 9) else 0, dpp := if x then st.sInt (b + 10) else 0,
    conv := if x then (st.sget (b + 11)).toNat % 8 else 0 }

/-- Reserved bits of s+7, and a CONV that its ESZ does not fit (R214, R216); reserved bits of the further registers have no effect
(R2). -/
def shutPre (x : Bool) (b : Nat) (st : Strand) : Option Nat :=
  let d := shutDesc x st b
  if (st.sget (b + 7)).toNat / 2 ^ 5 ≠ 0 then some 0
  else if 5 ≤ d.conv ∨ (1 ≤ d.conv ∧ d.esz ≠ nth 0 [0, 4, 4, 2, 2] d.conv) then some 0
  else none

/-- A destination in the B-slice, then an address or pitch that is no multiple of its element size (R214, R216). -/
def shutStop (d : ShutDesc) : Option Cause :=
  let off (v : Int) (n : Nat) : Bool := v % n != 0
  if d.dst / 2 ^ 48 = 0xFFFD then some .window
  else if off d.src d.esz || off d.spitch d.esz || off d.spp d.esz || off d.dst d.dsz || off d.dpitch d.dsz ||
      off d.dpp d.dsz then some .align
  else none

/-- The source address of an element (R214, R216). -/
def ShutDesc.sAt (d : ShutDesc) (p r c : Nat) : Int := d.src + p * d.spp + r * d.spitch + c * d.esz
/-- The destination address of an element. -/
def ShutDesc.dAt (d : ShutDesc) (p r c : Nat) : Int :=
  if d.turn then d.dst + p * d.dpp + c * d.dpitch + r * d.dsz else d.dst + p * d.dpp + r * d.dpitch + c * d.dsz

/-- Some destination byte lies within the source's address range (R215). -/
def ShutDesc.overlaps (d : ShutDesc) : Bool :=
  let ends (n : Nat) : List Nat := [0, n - 1]
  let at0 := (ends d.planes).flatMap fun p => (ends d.rows).flatMap fun r => (ends d.cols).map fun c => d.sAt p r c
  let lo := at0.foldl min (d.sAt 0 0 0)
  let hi := at0.foldl max (d.sAt 0 0 0) + d.esz
  (List.range d.planes).any fun p => (List.range d.rows).any fun r => (List.range d.cols).any fun c =>
    let a := d.dAt p r c
    decide (lo < a + d.dsz) && decide (a < hi)

/-- The conversion of one element (R216). -/
def ShutDesc.convert (d : ShutDesc) (bs : List Byte) : List Byte :=
  let v := leVal bs
  match d.conv with
  | 1 => leBytes 2 (fpCvt fmtF32 fmtF16 FEnv.plain v).bits
  | 2 => leBytes 2 (fpCvt fmtF32 fmtBF16 FEnv.plain v).bits
  | 3 => leBytes 4 (fpCvt fmtF16 fmtF32 FEnv.plain v).bits
  | 4 => leBytes 4 (fpCvt fmtBF16 fmtF32 FEnv.plain v).bits
  | _ => bs

/-- Plane, row and column of the n-th element, in the order in which they move. -/
def ShutDesc.place (d : ShutDesc) (n : Nat) : Nat × Nat × Nat := (n / (d.rows * d.cols), n / d.cols % d.rows, n % d.cols)
/-- All elements. -/
def ShutDesc.count (d : ShutDesc) : Nat := d.planes * d.rows * d.cols
/-- An address modulo 2^64. -/
def wrapVa (v : Int) : Nat := (v % (2 ^ 64 : Nat)).toNat

/-- Reads the n-th source element. -/
def State.shutRead (s : State) (st : Strand) (d : ShutDesc) (n : Nat) : State × Except EStop (List Byte) :=
  let (p, r, c) := d.place n
  s.engRead st d.esz (wrapVa (d.sAt p r c)) d.hint

/-- The n-th element moves; its value comes from the staging buffer where that holds it (R215). -/
def State.shutElem (s : State) (st : Strand) (d : ShutDesc) (staged : List (List Byte)) (n : Nat) : State × Option EStop :=
  let (p, r, c) := d.place n
  match (match staged[n]? with
    | some bs => (s, Except.ok bs)
    | none => s.shutRead st d n) with
  | (s, .error e) => (s, some e)
  | (s, .ok bs) =>
    match s.engWrite st (wrapVa (d.dAt p r c)) (d.convert bs) d.hint with
    | (s, .error e) => (s, some e)
    | (s, .ok _) => (s, none)

/-- Moves k elements from the n-th on, until one stops: the state, the elements done and why it stopped. -/
def State.shutMove (s : State) (st : Strand) (d : ShutDesc) (staged : List (List Byte)) : Nat → Nat → State × Nat × Option EStop
  | 0, n => (s, n, none)
  | k + 1, n =>
    match s.shutElem st d staged n with
    | (s, none) => s.shutMove st d staged k (n + 1)
    | (s, some e) => (s, n, some e)

/-- Reads k further source elements into the staging buffer, until one stops (R215). -/
def State.shutStage (s : State) (st : Strand) (d : ShutDesc) : Nat → List (List Byte) → State × List (List Byte) × Option EStop
  | 0, l => (s, l, none)
  | k + 1, l =>
    match s.shutRead st d l.length with
    | (s, .ok bs) => s.shutStage st d k (l ++ [bs])
    | (s, .error e) => (s, l, some e)

/-- A part of an operation, from what is done to the end of so many further rows (R212, R214 to R216): the state, the staging
buffer, the elements done and why it stopped. An operation that overlaps itself is staged whole before anything moves; a source
that fails in the middle of it fails where its element is to move. -/
def State.shutRun (s : State) (st : Strand) (d : ShutDesc) (o : Op) (rows : Nat) : State × List (List Byte) × Nat × Option EStop :=
  let upto := min d.count ((o.prog / d.cols + rows) * d.cols)
  match (if d.overlaps && o.prog == 0 then s.shutStage st d (d.count - o.staged.length) o.staged else (s, o.staged, none)) with
  | (s, l, some (.page e)) => (s, l, o.prog, some (.page e))
  | (s, l, some .park) => (s, l, o.prog, some .park)
  | (s, l, some .wait) => (s, l, o.prog, some .wait)
  | (s, l, _) =>
    match s.shutMove st d l (upto - o.prog) o.prog with
    | (s, n, e) => (s, l, n, e)

/-- SHUT and SHUTX. -/
def shutExec (i : Instr) (x : Bool) (f : LFields) (s : State) : Result :=
  let b := f.a.toNat - 0x80
  engIssue i f (shutPre x b) 2 (fun _ st => shutStop (shutDesc x st b))
    (fun y s =>
      (s.modCore y.st.d y.st.k fun c => { c with shutq := c.shutq ++ [(y.id, y.st.nextOp)] },
        y.st.startOp 2 y.adm (.shut (shutDesc x y.st b)) [] [])) s
/-- SHUT (R214). -/
def execShut (f : LFields) (s : State) : Result := shutExec (.shut f) false f s
/-- SHUTX (R216). -/
def execShutx (f : LFields) (s : State) : Result := shutExec (.shutx f) true f s

/-- The operation waits here for a shuttle: it is not finished and its strand is resident on the core. -/
def State.shutLive (s : State) (d c : Nat) (q : Nat × Nat) : Bool :=
  match s.strand q.1 with
  | some st => st.resident && st.d == d && st.k == c && ((st.op q.2).any fun o => !o.fin)
  | none => false
/-- The operations that the core's two shuttles hold: the first two in issue order (R215). -/
def State.inShuttles (s : State) (d c : Nat) : List (Nat × Nat) := ((s.core d c).shutq.filter (s.shutLive d c)).take 2

/-- SHUTTLE_COMPLETE (R212, R214 to R216): a shuttle works through so many further rows; with the last the operation ends. -/
def execShuttleComplete (strand : Nat) (op : Working) (s : State) : Result :=
  match s.engReady strand op.id with
  | some (st, o) =>
    match o.kind with
    | .shut d =>
      if !(s.inShuttles st.d st.k).contains (strand, op.id) then .next s
      else
        match s.shutRun st d o op.units with
        | (s1, l, n, r) =>
          let s2 := s1.engKeep strand op.id n 0 l
          if r.isNone && decide (n < d.count) then .next s2
          else
            let s3 := if r.isNone then s2.modCore st.d st.k fun c => { c with shutq := c.shutq.filter (· != (strand, op.id)) } else s2
            .next (s3.engEnd s3 strand st o r)
    | _ => .next s
  | none => .next s

/-! Decode tables. -/

/-- A table image that R217 calls malformed. -/
def imageOk (im : List Byte) : Bool :=
  let kind := leVal (im.take 1)
  let l := recField im 1 1
  let n := recField im 2 2
  let cnt (i : Nat) : Nat := recField im (16 + 2 * (i - 1)) 2
  let ls := (List.range 16).map (· + 1)
  (im.drop 560).all (· == 0) && ((im.drop 4).take 12).all (· == 0) && decide (kind ≤ 1) &&
    decide (1 ≤ l) && decide (l ≤ 16) && decide (1 ≤ n) && decide (n ≤ 256) &&
    (kind == 1 || ((ls.foldl (fun a i => a + cnt i) 0) == n &&
      decide (ls.foldl (fun a i => a + cnt i * 2 ^ (16 - i)) 0 ≤ 2 ^ 16)))

/-- A slot of the core's decode tables. -/
def Core.dslot (x : Core) (k : Nat) : DecSlot := nth { issued := 0, loaded := 0, image := none } x.dslots k

/-- DTLD (R218): the slot's version advances at issue. -/
def execDtld (f : LFields) (s : State) : Result :=
  let k := f.d.toNat
  let b := f.a.toNat - 0x80
  engIssue (.dtld f) f (fun st => tablePre s st 0) 4
    (fun _ st => if (st.sget64 b).toNat % 256 ≠ 0 then some .align else none)
    (fun x s =>
      let v := ((s.core x.st.d x.st.k).dslot k).issued + 1
      let s := s.modCore x.st.d x.st.k fun c => { c with dslots := modAt c.dslots k fun q => { q with issued := v } }
      (s, x.st.startOp 4 x.adm (.dtld k v (x.st.sget64 b).toNat) [] [])) s

/-- Strands resident on a core. -/
def State.onCore (s : State) (d c : Nat) : List (Nat × Strand) :=
  s.strands.filter fun e => e.2.resident && e.2.d == d && e.2.k == c

/-- A DECODE on the core that captured an earlier version of the slot is not complete (R218). -/
def State.olderDecode (s : State) (d c slot v : Nat) : Bool :=
  (s.onCore d c).any fun e => e.2.ops.any fun o => match o.kind with
    | .decode x => !o.fin && x.slot == slot && decide (x.version < v)
    | _ => false

/-- Reads a table image, 256 bytes at a time; its pointer is a global or a scratchpad one (R218). -/
def State.imageRead (s : State) (st : Strand) (ptr : Nat) : State × Except EStop (List Byte) :=
  if ptr / 2 ^ 48 = 0xFFFD then (s, .error (.err .window ptr))
  else (List.range 4).foldl (fun q i => match q with
    | (s, .error e) => (s, .error e)
    | (s, .ok bs) => match s.engRead st 256 (ptr + 256 * i) 0 with
      | (s, .ok b) => (s, .ok (bs ++ b))
      | (s, .error e) => (s, .error e)) (s, .ok [])

/-- DTLD_COMPLETE (R217, R218): a failed load and a malformed image leave the slot invalid. -/
def execDtldComplete (strand op : Nat) (s : State) : Result :=
  match s.engReady strand op with
  | some (st, o) =>
    match o.kind with
    | .dtld k v ptr =>
      if ((s.core st.d st.k).dslot k).loaded + 1 ≠ v ∨ s.olderDecode st.d st.k k v then .next s
      else
        let load (s : State) (im : Option (List Byte)) : State := s.modCore st.d st.k fun c =>
          { c with dslots := modAt c.dslots k fun q => { q with loaded := v, image := im } }
        match s.imageRead st ptr with
        | (s1, .ok im) => .next (s.engEnd (load s1 (if imageOk im then some im else none)) strand st o none)
        | (s1, .error e) => .next (s.engEnd (load s1 none) strand st o (some e))
    | _ => .next s
  | none => .next s

/-! DECODE. -/

/-- The descriptor of R219 with the slot's version at issue. -/
def decDesc (s : State) (st : Strand) (b : Nat) : DecDesc :=
  let w (i : Nat) : Nat := (st.sget (b + i)).toNat
  let k := w 5 % 8
  { src := (st.sget64 b).toNat, boff := w 2, doff := w 3, n := w 4, slot := k, stat := w 6,
    version := ((s.core st.d st.k).dslot k).issued }

/-- DECODE (R219); reserved bits of its descriptor have no effect (R2). -/
def execDecode (f : LFields) (s : State) : Result :=
  let b := f.a.toNat - 0x80
  engIssue (.decode f) f
    (fun st => tablePre s st 0) 4
    (fun s st =>
      let d := decDesc s st b
      let z := s.scrSize st
      if z < d.doff + 2 * d.n ∨ z < d.stat + 8 then some .window
      else if d.doff % 2 ≠ 0 ∨ d.stat % 8 ≠ 0 then some .align else none)
    (fun x s => (s, x.st.startOp 4 x.adm (.decode (decDesc s x.st b)) [] [])) s

/-- Where a decoder stands: the next bit, and the symbols written. -/
structure DecPos where
  bit : Nat
  count : Nat
  invalid : Bool
  deriving DecidableEq, Repr

/-- Reads one bit of the stream (R217). -/
def State.streamBit (s : State) (st : Strand) (src bit : Nat) : State × Except EStop Nat :=
  let va := (src + bit / 8) % 2 ^ 64
  if va / 2 ^ 48 = 0xFFFD then (s, .error (.err .window va))
  else match s.engRead st 1 va 0 with
    | (s, .ok bs) => (s, .ok (leVal bs / 2 ^ (bit % 8) % 2))
    | (s, .error e) => (s, .error e)

/-- KIND 0: the bits of a code from length l on; `code` and `first` are the code so far and the first code of this length,
`idx` the symbols before it. Gives the symbol's index and the next bit, or nothing for an invalid code (R217). -/
def State.prefixCode (s : State) (st : Strand) (im : List Byte) (src : Nat) (maxL : Nat) :
    Nat → Nat → Nat → Nat → Nat → Nat → State × Except EStop (Option (Nat × Nat))
  | 0, _, _, _, _, _ => (s, .ok none)
  | n + 1, l, bit, code, first, idx =>
    if maxL < l then (s, .ok none)
    else match s.streamBit st src bit with
      | (s, .error e) => (s, .error e)
      | (s, .ok b) =>
        let code := 2 * code + b
        let cnt := recField im (16 + 2 * (l - 1)) 2
        if code < first + cnt then (s, .ok (some (idx + (code - first), bit + 1)))
        else s.prefixCode st im src maxL n (l + 1) (bit + 1) code (2 * (first + cnt)) (idx + cnt)

/-- KIND 1: L bits, the first one bit 0 of the index (R217). -/
def State.fixedCode (s : State) (st : Strand) (src bit l : Nat) : State × Except EStop Nat :=
  (List.range l).foldl (fun q i => match q with
    | (s, .error e) => (s, .error e)
    | (s, .ok v) => match s.streamBit st src (bit + i) with
      | (s, .ok b) => (s, .ok (v + b * 2 ^ i))
      | (s, .error e) => (s, .error e)) (s, .ok 0)

/-- The next symbol's index and the bit after it; nothing for an invalid code. -/
def State.nextSymbol (s : State) (st : Strand) (im : List Byte) (src bit : Nat) :
    State × Except EStop (Option (Nat × Nat)) :=
  let l := recField im 1 1
  if recField im 0 1 = 0 then s.prefixCode st im src l 16 1 bit 0 0 0
  else match s.fixedCode st src bit l with
    | (s, .error e) => (s, .error e)
    | (s, .ok v) => (s, .ok (if v < recField im 2 2 then some (v, bit + l) else none))

/-- Decodes up to n further symbols (R217, R219): where the decoder then stands, and why it stopped. -/
def State.decodeRun (s : State) (st : Strand) (im : List Byte) (d : DecDesc) : Nat → DecPos → State × DecPos × Option EStop
  | 0, p => (s, p, none)
  | n + 1, p =>
    match s.nextSymbol st im d.src p.bit with
    | (s, .error e) => (s, p, some e)
    | (s, .ok none) => (s, { p with invalid := true }, none)
    | (s, .ok (some (i, bit))) =>
      let s := s.scrPuts st (d.doff + 2 * p.count) ((im.drop (48 + 2 * i)).take 2)
      s.decodeRun st im d n { p with bit := bit, count := p.count + 1 }

/-- DECODE_COMPLETE (R212, R218, R219): the decoder waits for its table, and works through so many further blocks of 16 symbols;
with the last symbol, or at an invalid one, it writes the status record. -/
def execDecodeComplete (strand : Nat) (op : Working) (s : State) : Result :=
  match s.engReady strand op.id with
  | some (st, o) =>
    match o.kind with
    | .decode d =>
      let q := (s.core st.d st.k).dslot d.slot
      if q.loaded < d.version then .next s
      else
        let p0 : DecPos := { bit := d.boff + o.bits, count := o.prog, invalid := false }
        let r := match q.image with
          | some im => s.decodeRun st im d (min (16 * op.units) (d.n - o.prog)) p0
          | none => (s, { p0 with invalid := true }, none)
        match r with
        | (s1, p, stop) =>
          let s2 := s1.engKeep strand op.id p.count (p.bit - d.boff) []
          if stop.isNone && !p.invalid && decide (p.count < d.n) then .next s2
          else
            let w1 := p.count % 2 ^ 31 + if p.invalid then 2 ^ 31 else 0
            .next (s2.engEnd (if stop.isNone then s2.scrPuts st d.stat (leBytes 4 (p.bit - d.boff) ++ leBytes 4 w1) else s2)
              strand st o stop)
    | _ => .next s
  | none => .next s

/-! FETCHF. -/

/-- Texel size of a format (R220). -/
def texSize (fmt : Nat) : Nat := nth 4 [4, 8, 2, 4] fmt

/-- The descriptor of R220. -/
def texDesc (f : LFields) (st : Strand) : TexDesc :=
  let b := f.b.toNat - 0x80
  let w2 := (st.sget (b + 2)).toNat
  let w3 := (st.sget (b + 3)).toNat
  { base := (st.sget64 b).toNat, ht := w2 / 2 ^ 16, wd := w2 % 2 ^ 16, amv := nbits w3 10 2, amu := nbits w3 8 2,
    levels := nbits w3 4 4, tfmt := w3 % 16, pitch := (st.sget (b + 4)).toNat, tri := f.m3 == 1 }

/-- A descriptor field out of range or reserved (R220). -/
def texPre (f : LFields) (st : Strand) : Option Nat :=
  let b := f.b.toNat - 0x80
  let d := texDesc f st
  if d.ht < 1 ∨ 16384 < d.ht ∨ d.wd < 1 ∨ 16384 < d.wd ∨ (st.sget (b + 3)).toNat / 2 ^ 12 ≠ 0 ∨ d.amv = 3 ∨ d.amu = 3 ∨
      d.levels < 1 ∨ 3 < d.tfmt ∨ d.pitch % texSize d.tfmt ≠ 0 ∨ st.sget (b + 5) ≠ 0 ∨ st.sget (b + 6) ≠ 0 ∨
      st.sget (b + 7) ≠ 0 then some 0
  else none

/-- FETCHF (R220): the inputs are read at issue. -/
def execFetchf (f : LFields) (s : State) : Result :=
  let a := f.a.toNat
  let d := f.d.toNat
  engIssue (.fetchf f) f (texPre f) 0
    (fun _ st =>
      let x := texDesc f st
      if x.base / 2 ^ 48 ≠ 0 then some .window else if x.base % 256 ≠ 0 then some .align else none)
    (fun x s =>
      let inputs := (List.range 16).map fun t => (List.range 6).map fun i => (x.st.vget (a + i) t).toNat
      let k : OpKind := .fetchf (texDesc f x.st) d a (f.u == 1) inputs
      (s, x.st.startOp 0 x.adm k [] ((List.range 4).map (d + ·)))) s

/-- Width, height, pitch and start of a level (R220). -/
structure TexLevel where
  wd : Nat
  ht : Nat
  pitch : Nat
  start : Nat
  deriving DecidableEq, Repr

/-- Level l. -/
def TexDesc.level (d : TexDesc) : Nat → TexLevel
  | 0 => { wd := d.wd, ht := d.ht, pitch := d.pitch, start := d.base }
  | l + 1 =>
    let p := d.level l
    let w := max 1 (d.wd / 2 ^ (l + 1))
    { wd := w, ht := max 1 (d.ht / 2 ^ (l + 1)), pitch := roundUp (w * texSize d.tfmt) 256,
      start := roundUp (p.start + p.pitch * p.ht) 256 }

/-- A texel coordinate brought into its level (R221). -/
def texWrap (am n : Nat) (i : Int) : Nat :=
  match am with
  | 0 => (i % n).toNat
  | 1 => (max 0 (min i ((n : Int) - 1))).toNat
  | _ =>
    let m := (i % (2 * n : Nat)).toNat
    if m < n then m else 2 * n - 1 - m

/-- x = u * W - 1/2 as its texel and its weight in 256ths (R221). -/
def texPos (u : Nat) (w : Nat) : Int × Nat :=
  match fmtF32.dec u with
  | .fin neg m e =>
    let q := (-e).toNat
    let num := 2 * sgn neg m * w * 2 ^ e.toNat - 2 ^ q
    let den : Int := 2 ^ (q + 1)
    let i := num / den
    let fx := (roundDiv .rne false ((num % den).toNat * 256) den.toNat).1
    if fx = 256 then (i + 1, 0) else (i, fx)
  | _ => (0, 0)

/-- rho squared, scaled by 2^298 (R221). -/
def texRho2 (d : TexDesc) (inp : List Nat) : Nat :=
  let v (i : Nat) : Nat := match fmtF32.dec (nth 0 inp i) with
    | .fin _ m e => m * 2 ^ (e + 149).toNat
    | _ => 0
  let sq (n : Nat) : Nat := n * n
  max (sq (v 2 * d.wd) + sq (v 3 * d.ht)) (sq (v 4 * d.wd) + sq (v 5 * d.ht))

/-- lq in 256ths (R221): 128 log2(rho2) rounded, which no dyadic rho2 makes a tie. -/
def texLq (d : TexDesc) (inp : List Nat) : Nat :=
  let r := texRho2 d inp
  if r = 0 then 0
  else
    let n := (Nat.log2 (r ^ 256) + 1 - 298 * 256) / 2
    min n (256 * (d.levels - 1))

/-- Reads one texel (R220). -/
def State.texel (s : State) (st : Strand) (d : TexDesc) (l : TexLevel) (i j : Int) : State × Except EStop (List Byte) :=
  let x := texWrap d.amu l.wd i
  let y := texWrap d.amv l.ht j
  s.engRead st (texSize d.tfmt) (l.start + y * l.pitch + x * texSize d.tfmt) 0

/-- The weighted texels of one level, those of weight 0 omitted: weights in 2^24ths (R221). -/
def State.texTaps (s : State) (st : Strand) (d : TexDesc) (inp : List Nat) (l wt : Nat) :
    State × Except EStop (List (Nat × List Byte)) :=
  if wt = 0 then (s, .ok [])
  else
    let lv := d.level l
    let (i, fx) := texPos (nth 0 inp 0) lv.wd
    let (j, fy) := texPos (nth 0 inp 1) lv.ht
    let taps : List (Int × Int × Nat) :=
      [(i, j, (256 - fx) * (256 - fy)), (i + 1, j, fx * (256 - fy)), (i, j + 1, (256 - fx) * fy), (i + 1, j + 1, fx * fy)]
    (taps.filter fun t => t.2.2 != 0).foldl (fun q t => match q with
      | (s, .error e) => (s, .error e)
      | (s, .ok acc) => match s.texel st d lv t.1 t.2.1 with
        | (s, .ok bs) => (s, .ok (acc ++ [(wt * t.2.2, bs)]))
        | (s, .error e) => (s, .error e)) (s, .ok [])

/-- One component of the weighted texels, rounded once (R221). -/
def texComp (d : TexDesc) (taps : List (Nat × List Byte)) (k : Nat) : Nat :=
  let two := decide (2 ≤ d.tfmt)
  if two && k == 2 then 0
  else if two && k == 3 then 0x3F800000
  else if d.tfmt % 2 = 0 then
    (roundFrac0 fmtF32 FEnv.plain false (taps.foldl (fun n t => n + t.1 * recField t.2 k 1) 0) (255 * 2 ^ 24) 0).bits
  else
    (sumTerms fmtF32 FEnv.plain (taps.map fun t =>
      ((Fp.fin false t.1 (-24)).prod (fmtF16.dec (recField t.2 (2 * k) 2))))).bits

/-- The four components that one thread receives (R221). -/
def State.sample (s : State) (st : Strand) (d : TexDesc) (inp : List Nat) : State × Except EStop (List Word) :=
  if inp.any fun b => fmtF32.isNan b || fmtF32.isInf b then (s, .ok (List.replicate 4 (BitVec.ofNat 32 fmtF32.nanBits)))
  else
    let lq := texLq d inp
    let l0 := if d.tri then lq / 256 else (lq + 128) / 256
    let f := if d.tri then lq % 256 else 0
    match s.texTaps st d inp l0 (256 - f) with
    | (s, .error e) => (s, .error e)
    | (s, .ok t0) =>
      match s.texTaps st d inp (min (l0 + 1) (d.levels - 1)) f with
      | (s, .error e) => (s, .error e)
      | (s, .ok t1) => (s, .ok ((List.range 4).map fun k => BitVec.ofNat 32 (texComp d (t0 ++ t1) k)))

/-- FETCHF_COMPLETE (R221): threads in order; with U the one sample goes to every thread. -/
def execFetchfComplete (strand op : Nat) (s : State) : Result :=
  match s.engReady strand op with
  | some (st, o) =>
    match o.kind with
    | .fetchf d dst _ uni inputs =>
      let ts := threads o.mask
      let groups : List (Nat × List Nat) := if uni then [(mLow o.mask, ts)] else ts.map fun t => (t, [t])
      let r := groups.foldl (fun (q : State × Strand × Option EStop) g => match q with
        | (s, st, some e) => (s, st, some e)
        | (s, st, none) => match s.sample st d (nth [] inputs g.1) with
          | (s, .ok ws) => (s, g.2.foldl (fun st t => st.vputs dst t ws) st, none)
          | (s, .error e) => (s, st, some e)) (s, st, none)
      .next (s.engEnd (r.1.putStrand strand r.2.1) strand st o r.2.2)
    | _ => .next s
  | none => .next s

end Sys2Proof.Machine
end

