-- ==== Sys2Proof/Machine/Group.lean ====
section
/-! DEFINITION. Groups (R305 to R313), barriers (R325 to R333), stage rings (R334 to R343) and register growth (R318 to
R323). -/

namespace Sys2Proof.Machine

/-! JOIN and LEAVE. -/

/-- A value operand of a once-per-strand instruction as an unsigned number. -/
def Strand.arg (st : Strand) (x : BitVec 8) : Nat := (st.sval x.toNat).toNat

/-- The group of a context and key, with its die (R305); a held record lives on no die, 3 (R324). -/
def State.findGroup (s : State) (ctx : Nat) (key : Word) : Option (Nat × Nat × Group) :=
  [0, 1, 2, 3].findSome? fun d =>
    ((if d = 3 then s.heldGroups else (s.die d).groups).find? fun e => e.2.ctx == ctx && e.2.key == key).map fun e =>
      (d, e.1, e.2)

/-- JOIN's result and effect (R311): the checks in the order of the table. -/
def State.join (s : State) (id : Nat) (st : Strand) (key : Word) (slot : Nat) : State × Word :=
  let found := s.findGroup st.ctx key
  let held := match found with
    | some (_, g, _) => st.slots.contains (some g)
    | none => false
  if (match found with
      | some (_, _, g) => decide (512 ≤ g.members.length)
      | none => false) then (s, 0xFFFF0001)
  else if (nth none st.slots slot).isSome || held then (s, 0xFFFF0002)
  else
    match found with
    | some (d, g, x) =>
      if d != st.d || decide (4 < (distinct ((st.d, st.k) :: s.groupCores [g])).length) then (s, 0xFFFF0003)
      else
        let s := s.modGroup g fun x => { x with members := x.members ++ [id] }
        (s.modStrand id fun st => { st with slots := upd st.slots slot (some g) }, BitVec.ofNat 32 x.members.length)
    | none =>
      if 2048 ≤ (s.die st.d).groups.length then (s, 0xFFFF0004)
      else
        let g := s.nextGroup
        let r : Group := { ctx := st.ctx, key := key, members := [id], phase := 0, arrived := [] }
        let s := { s with nextGroup := g + 1 }
        let s := s.modDie st.d fun x => { x with groups := tput x.groups g r }
        (s.modStrand id fun st => { st with slots := upd st.slots slot (some g) }, 0)

/-- JOIN (R310, R311). -/
def execJoin (f : LFields) (s : State) : Result :=
  let i : Instr := .join f
  match issue i (rowOf i) f noPre s with
  | .out o => o
  | .go x =>
    if x.adm = 0 then .next (s.finish x (rowOf i) f 8 x.st)
    else
      let (s, r) := s.join x.id x.st (x.st.sval f.a.toNat) f.c.toNat
      match s.strand x.id with
      | some st => .next (s.finish x (rowOf i) f 8 (st.sset (f.d.toNat - 0x80) r))
      | none => .next s

/-- LEAVE (R312). -/
def execLeave (f : LFields) (s : State) : Result :=
  let i : Instr := .leave f
  match issue i (rowOf i) f noPre s with
  | .out o => o
  | .go x =>
    let s := if x.adm = 0 then s else s.leaveSlot x.id f.c.toNat
    match s.strand x.id with
    | some st => .next (s.finish x (rowOf i) f 8 st)
    | none => .next s

/-! Barriers. -/

/-- An empty slot, or a count above 512 (R329). -/
def barPre (count : Bool) (f : LFields) (st : Strand) (m : Mask) : Option Nat :=
  if m ≠ 0 ∧ ((nth none st.slots f.c.toNat).isNone ∨ (count ∧ 512 < st.arg f.a)) then some 0 else none

/-- The group of a strand's slot. -/
def State.barGroup (s : State) (st : Strand) (slot : Nat) : Option (Nat × Group) :=
  (nth none st.slots slot).bind fun g => (s.groupOf g).map fun x => (g, x)

/-- The arrival may be recorded: the strand's accesses are performed at group scope (R328), and it is not already marked
arrived in the open phase (R330). -/
def State.mayArrive (s : State) (id : Nat) (st : Strand) (g : Group) : Bool :=
  s.relReady st 1 && !g.arrived.any fun a => a.1 == id

/-- An arrival: the release actions at group scope, the mark with its count, and the phase's check (R326, R328). -/
def State.arrive (s : State) (id : Nat) (st : Strand) (g count : Nat) : State :=
  (s.relAct st 1).modGroup g fun x => Group.check { x with arrived := x.arrived ++ [(id, count)] }

/-- A phase that a token names has completed (R331). -/
def phasePast (now token : Nat) : Bool :=
  let d := (now + 2 ^ 32 - token % 2 ^ 32) % 2 ^ 32
  decide (1 ≤ d) && decide (d ≤ 2 ^ 31)

/-- The phase that a strand's token waits for has completed. -/
def State.phaseDone (s : State) (st : Strand) (slot token : Nat) : Bool :=
  match s.barGroup st slot with
  | some (_, g) => phasePast g.phase token
  | none => true

/-- BAR (R329 to R331). -/
def execBar (f : LFields) (s : State) : Result :=
  let i : Instr := .bar f
  let sp := rowOf i
  match issue i sp f (barPre true f) s with
  | .out o => o
  | .go x =>
    match s.barGroup x.st f.c.toNat with
    | none => .next (s.finish x sp f 8 x.st)
    | some (g, r) =>
      if x.adm = 0 then .next (s.finish x sp f 8 x.st)
      else if !s.mayArrive x.id x.st r then .next (s.holdOn x (.bar f))
      else
        let s := s.arrive x.id x.st g (x.st.arg f.a)
        if s.phaseDone x.st f.c.toNat r.phase then .next ((s.acqAct x.st 1).finish x sp f 8 x.st)
        else .next (s.enterWait x x.st sp f 8 (.bar f.c.toNat r.phase))

/-- BARA (R329, R330). -/
def execBara (f : LFields) (s : State) : Result :=
  let i : Instr := .bara f
  let sp := rowOf i
  match issue i sp f (barPre true f) s with
  | .out o => o
  | .go x =>
    match s.barGroup x.st f.c.toNat with
    | none => .next (s.finish x sp f 8 x.st)
    | some (g, r) =>
      if x.adm = 0 then .next (s.finish x sp f 8 x.st)
      else if !s.mayArrive x.id x.st r then .next (s.holdOn x (.bara f))
      else
        let s := s.arrive x.id x.st g (x.st.arg f.a)
        .next (s.finish x sp f 8 (x.st.sset (f.d.toNat - 0x80) (BitVec.ofNat 32 r.phase)))

/-- BARW (R331). -/
def execBarw (f : LFields) (s : State) : Result :=
  let i : Instr := .barw f
  let sp := rowOf i
  match issue i sp f (barPre false f) s with
  | .out o => o
  | .go x =>
    if x.adm = 0 then .next (s.finish x sp f 8 x.st)
    else if s.phaseDone x.st f.c.toNat (x.st.arg f.a) then .next ((s.acqAct x.st 1).finish x sp f 8 x.st)
    else .next (s.enterWait x x.st sp f 8 (.barw f.c.toNat (x.st.arg f.a)))

/-! Stage rings. -/

/-- The stage used (R337). -/
def ringStage (f : LFields) (st : Strand) : Nat := st.arg f.b % (f.c.toNat % 16 + 1)

/-- A ring instruction: the checks of R337, then its effect. -/
def ringRun (i : Instr) (f : LFields) (g : Issued → Nat → Nat → State → State) (s : State) : Result :=
  match issue i (rowOf i) f noPre s with
  | .out o => o
  | .go x =>
    let off := x.st.arg f.a
    if x.adm = 0 then .next (s.finish x (rowOf i) f 8 x.st)
    else if off + 8 > s.scrSize x.st then .next (s.trapAtIssue x.id x.st .window 0 x.adm)
    else if off % 8 ≠ 0 then .next (s.trapAtIssue x.id x.st .align 0 x.adm)
    else .next (g x off (ringStage f x.st) s)

/-- RINGP (R338): it waits for an empty stage, and for its strand's earlier accesses. -/
def execRingp (f : LFields) (s : State) : Result :=
  let i : Instr := .ringp f
  ringRun i f (fun x off k s =>
    let w := s.ringWord x.st off
    if ringPh w k || x.st.accPending then s.enterWait x x.st (rowOf i) f 8 (.ringp off k)
    else (s.ringPut x.st off (setBit w k true)).finish x (rowOf i) f 8 x.st) s

/-- An access of another path has not been performed. -/
def Strand.otherPending (st : Strand) (path : Nat) : Bool := st.ops.any fun o => o.isAccess && o.unperformed && o.path != path

/-- RINGP.after (R339): the mark holds the path's operations in flight. It is issued once the accesses of the other paths are
performed, since its phase carries the strand's program order. -/
def execRingpAfter (f : LFields) (s : State) : Result :=
  let i : Instr := .ringpAfter f
  ringRun i f (fun x off k s =>
    if x.st.marks.length ≥ 4 then s.holdOn x (.ringpAfter f)
    else if x.st.otherPending f.d.toNat then s.stallOn x
    else
      let ops := x.st.ops.filter fun o => !o.fin && o.path == f.d.toNat
      let m : Mark := { off := off, stage := k, ops := ops.map (·.id) }
      if m.ops.isEmpty then (s.ringPut x.st off (ringFire (s.ringWord x.st off) k)).finish x (rowOf i) f 8 x.st
      else s.finish x (rowOf i) f 8 { x.st with marks := x.st.marks ++ [m] }) s

/-- RINGW (R340): .full with m3 = 1, .empty with m3 = 0. -/
def execRingw (f : LFields) (s : State) : Result :=
  let i : Instr := .ringw f
  ringRun i f (fun x off k s =>
    if ringPh (s.ringWord x.st off) k == (f.m3 == 1) then (s.acqAct x.st 2).finish x (rowOf i) f 8 x.st
    else s.enterWait x x.st (rowOf i) f 8 (.ringw off k (f.m3 == 1))) s

/-- RINGF (R341): a release, held while the strand's earlier accesses are performed. -/
def execRingf (f : LFields) (s : State) : Result :=
  let i : Instr := .ringf f
  ringRun i f (fun x off k s =>
    if x.st.accPending then s.stallOn x
    else (s.ringPut x.st off (ringFree (s.ringWord x.st off) k)).finish x (rowOf i) f 8 x.st) s

/-! Register growth. -/

/-- A new allocation that is not 16 to 128 in steps of 16 (R318). -/
def allocPre (f : LFields) (st : Strand) (m : Mask) : Option Nat :=
  let n := st.arg f.a
  if m ≠ 0 ∧ (n % 16 ≠ 0 ∨ n < 16 ∨ 128 < n) then some 0 else none

/-- The strands resident on a lane, with their identifiers. -/
def State.onLane (s : State) (d c l : Nat) : List (Nat × Strand) :=
  s.strands.filter fun e => e.2.resident && e.2.d == d && e.2.k == c && e.2.ln == l

/-- A lane's free registers, counted uncompressed (R56). -/
def State.laneFree (s : State) (d c l : Nat) : Nat :=
  512 - (s.onLane d c l).foldl (fun n e => n + e.2.alloc) 0

/-- The strand waits in GROW. -/
def Strand.growing (st : Strand) : Bool :=
  match st.run with
  | .waiting (.grow _ _ _) _ => true
  | _ => false

/-- GROW (R318, R319). -/
def execGrow (f : LFields) (s : State) : Result :=
  let i : Instr := .grow f
  let sp := rowOf i
  match issue i sp f (allocPre f) s with
  | .out o => o
  | .go x =>
    let st := x.st
    let n := st.arg f.a
    let d := f.d.toNat
    if x.adm = 0 then .next (s.finish x sp f 8 st)
    else if n ≤ st.alloc then .next (s.finish x sp f 8 (st.qset d x.adm 0xFFFF))
    else if (s.onLane st.d st.k st.ln).any (fun e => e.2.growing) || decide (s.laneFree st.d st.k st.ln < n - st.alloc) then
      .next (s.enterWait x st sp f 8 (.grow n d x.adm))
    else .next (s.finish x sp f 8 ({ st with alloc := n }.qset d x.adm 0xFFFF))

/-- SHRINK (R322): held while a register at or above the new allocation is outstanding. -/
def execShrink (f : LFields) (s : State) : Result :=
  let i : Instr := .shrink f
  let sp := rowOf i
  match issue i sp f (allocPre f) s with
  | .out o => o
  | .go x =>
    let st := x.st
    let n := st.arg f.a
    if x.adm = 0 ∨ st.alloc ≤ n then .next (s.finish x sp f 8 st)
    else if st.outstanding.any fun r => decide (n ≤ r) && decide (r < 128) then .next (s.holdOn x (.shrink f))
    else .next (s.finish x sp f 8 { st with alloc := n, v := cclear st.v (16 * n) (16 * 128) })

/-- A waiting GROW completes with its result (R319, R321). -/
def State.growDone (s : State) (id : Nat) (ok : Bool) : State :=
  match s.strand id with
  | some st =>
    match st.run with
    | .waiting (.grow n d m) len =>
      let st := if ok then { st with alloc := max st.alloc n } else st
      s.wakeAt id (st.qset d m (if ok then 0xFFFF else 0)) len
    | _ => s
  | none => s

/-- The strand whose GROW R321 releases: the one placed most recently, with the higher place on a tie. -/
def youngest (l : List (Nat × Strand)) : Option (Nat × Strand) :=
  l.foldl (fun b e => match b with
    | none => some e
    | some x =>
      let pl (st : Strand) : Nat := match st.loc with
        | some q => q.place
        | none => 0
      if x.2.placedAt < e.2.placedAt ∨ (x.2.placedAt = e.2.placedAt ∧ pl x.2 < pl e.2) then some e else some x) none

/-- The oldest waiting GROW of a lane (R320). -/
def oldestGrow (l : List (Nat × Strand)) : Option (Nat × Strand) :=
  (l.filter fun e => e.2.growing).foldl (fun b e => match b with
    | none => some e
    | some x => if e.2.waitSeq < x.2.waitSeq then some e else some x) none

/-- One step of R320 and R321 on a lane: the oldest waiting GROW is served from the free registers, or the youngest is
released when nothing else can free any; none when neither applies. -/
def State.growStep (s : State) (d c l : Nat) : Option State :=
  let on := s.onLane d c l
  match oldestGrow on with
  | none => none
  | some (id, st) =>
    match st.run with
    | .waiting (.grow n _ _) _ =>
      if n - st.alloc ≤ s.laneFree d c l then some (s.growDone id true)
      else if on.all fun e => e.2.growing || e.2.run == .draining then
        match youngest (on.filter fun e => e.2.growing) with
        | some y => some (s.growDone y.1 false)
        | none => none
      else none
    | _ => none

/-- R320 and R321 until neither applies; a lane holds at most eight strands. -/
def State.growLane (d c l : Nat) : Nat → State → State
  | 0, s => s
  | n + 1, s => match s.growStep d c l with
    | some s => State.growLane d c l n s
    | none => s

/-! Held records (R324). -/

/-- A held record moves to the lowest-numbered computing die with a free record. -/
def State.placeHeld (s : State) (e : Nat × Group) : State :=
  match [0, 1, 2].find? fun d => decide (d ≤ s.dsCur) && decide ((s.die d).groups.length < 2048) with
  | some d => { s.modDie d fun x => { x with groups := tput x.groups e.1 e.2 } with
      heldGroups := s.heldGroups.filter fun h => h.1 != e.1 }
  | none => s
def State.placeHeldGroups (s : State) : State := s.heldGroups.foldl State.placeHeld s

end Sys2Proof.Machine
end

