-- ==== Sys2Proof/Machine/Launch.lean ====
section
/-! DEFINITION. Launch records (R279 to R281), LAUNCH and host launches (R283, R284, R303), the opening of channels and
reduction objects (R434, R443), the completion counter (R287) and the end of a kernel (R292). -/

namespace Sys2Proof.Machine

/-! Records. -/

/-- The record is accepted (R280). -/
def launchOk (r : List Byte) : Bool :=
  let ptr (v al : Nat) : Bool := decide (v < 2 ^ 48) && v % al == 0
  let n := recStrands r
  ptr (recCode r) 8 && ptr (recObj r) 256 && ptr (recDone r) 8 && (recPlen r == 0 || ptr (recParam r) 8) &&
    decide (1 ≤ recItems r) && decide (recIbase r + recItems r ≤ 2 ^ 32) && decide (1 ≤ n) && decide (n ≤ 512) &&
    n == recNv r + recNm r + recNc r && decide (1 ≤ recRegs r % 16) && decide (recRegs r % 16 ≤ 8) &&
    decide (recScr r ≤ 6144) && decide (recPlen r ≤ 4096) && decide (recNch r ≤ 64) && decide (recNred r % 32 ≤ 16) &&
    fmtLegal (BitVec.ofNat 32 (recFmt r)) && !(attrSpan r && recScr r != 0) && recField r 60 4 == 0 &&
    recNred r / 32 == 0 && recAttr r / 64 == 0 && recRegs r / 16 == 0

/-- A channel as its declaration opens it (R434, R436). -/
def openChan (b : List Byte) : Chan :=
  let slots := recField b 0 1
  let bytes := recField b 2 2
  let ok := decide (1 ≤ slots) && decide (slots ≤ 64) && decide (16 ≤ bytes) && decide (bytes ≤ 256) && bytes % 16 == 0 &&
    recField b 1 1 == 0 && (b.drop 4).all (· == 0)
  { slots := slots, bytes := bytes, state := if ok then 0 else 3, recv := 0, senders := [], ring := [] }

/-- A reduction object as its declaration opens it (R443); an EXPECT of 0 stands for ITEMS x STRANDS. -/
def openRed (all : Nat) (b : List Byte) : Red :=
  let kind := recField b 0 1
  let fmt := recField b 1 1
  let ok := decide (kind ≤ 9) && (if kind = 0 then decide (fmt ≤ 2) else fmt == 0) && recField b 2 2 == 0 &&
    (b.drop 8).all (· == 0)
  let e := recField b 4 4
  { kind := kind, rfmt := fmt, expect := if e = 0 then all else e, broken := !ok, count := 0,
    cell := List.replicate 64 0, val := none, flight := [], root := none }

/-! Reads of a launch. -/

/-- What a read of memory at its home gives. -/
inductive MemRead where
  | ok (bs : List Byte)
  | wait
  | park
  | fault (c : Cause) (lvl va : Nat)
  | bad (c : Cause)

/-- Reads n 8-byte pieces at their home, with the translation of the reader (R284). -/
def State.homeRead (d : Nat) (tr : State → Nat → State × Xl) (s : State) (va : Nat) : Nat → State × MemRead
  | 0 => (s, .ok [])
  | n + 1 =>
    match tr s va with
    | (s, .park) => (s, .park)
    | (s, .wait) => (s, .wait)
    | (s, .fault c lvl) => (s, .fault c lvl va)
    | (s, .ok pa) =>
      if s.heldFroms d pa 8 then (s, .wait)
      else match (List.range 8).findSome? fun i => s.readBadFrom d (pa + i) with
        | some c => (s, .bad c)
        | none => match s.homeRead d tr (va + 8) n with
          | (s, .ok bs) => (s, .ok (cgets s.mem pa 8 ++ bs))
          | r => r

/-- The translation of a unit of die d, walked from the root. -/
def devTr (d ctx : Nat) (s : State) (va : Nat) : State × Xl := (s, s.devXlate d ctx va kRead)

/-- What the reads of a launch give: everything it needs, a rejected record, or why it waits or fails. -/
inductive LaunchRead where
  | ok (rec par : List Byte) (chans : List Chan) (reds : List Red)
  | rejected
  | stop (r : MemRead)

/-- Reads PARAM and the declarations of an accepted record (R284). -/
def State.launchRest (d : Nat) (tr : State → Nat → State × Xl) (s : State) (r : List Byte) : State × LaunchRead :=
  match s.homeRead d tr (recParam r) ((recPlen r + 7) / 8) with
  | (s, .ok par) =>
    let nc := recNch r
    match s.homeRead d tr (recObj r + 0x840) (8 * (nc + recNred r % 32)) with
    | (s, .ok b) =>
      let at' (k : Nat) : List Byte := (b.drop (64 * k)).take 64
      (s, .ok r (par.take (recPlen r)) ((List.range nc).map fun k => openChan (at' k))
        ((List.range (recNred r % 32)).map fun k => openRed (recItems r * recStrands r) (at' (nc + k))))
    | (s, e) => (s, .stop e)
  | (s, e) => (s, .stop e)

/-- Reads and checks a whole launch (R280, R284). -/
def State.launchRead (d : Nat) (tr : State → Nat → State × Xl) (s : State) (ptr : Nat) : State × LaunchRead :=
  match s.homeRead d tr ptr 8 with
  | (s, .ok r) => if launchOk r then s.launchRest d tr r else (s, .rejected)
  | (s, e) => (s, .stop e)

/-! The completion counter. -/

/-- The die of the unit that serves a kernel: that of its launch, or D0 once that die has left the die set. -/
def State.unitDie (s : State) (k : Kernel) : Nat := if k.launchDie ≤ s.dsCur then k.launchDie else 0

/-- Writes the count to DONE; while an earlier write waits for its page no later one is made (R284, R287). -/
def State.writeDone (s : State) (ctx kid : Nat) : State :=
  match s.kernel ctx kid with
  | some k =>
    let a := recDone k.record
    if a = 0 ∨ (s.ctx ctx).retries.any (fun r => r.2 == .done kid) then s
    else s.devWrite (s.unitDie k) 0 ctx a (leBytes 8 k.count) kid (.done kid)
  | none => s

/-! Acceptance. -/

/-- First byte of a kernel state area (R263). -/
def State.kernelArea (s : State) (ctx kid : Nat) : Nat := (s.ctx ctx).save.toNat + 0x200000 + kid * 0x200000

/-- The state line of a reduction object (R263, R445). -/
def State.redLine (s : State) (ctx kid n : Nat) : Nat := s.kernelArea ctx kid + 0x4000 + 512 * n

/-- The state line of an object as a source of batches: its die and core, and its key (R398, R445). -/
def State.redSource (s : State) (ctx kid n d c : Nat) : Source :=
  { src := 7, die := d, core := c, kid := kid, iid := 0, sid := 0, key := keyOf [s.redLine ctx kid n] }

/-- Translates an object's state line: its root, where contributions then go, or a batch, for which they wait (R445). -/
def State.reroot (s : State) (ctx kid n : Nat) : State :=
  match s.kernel ctx kid with
  | none => s
  | some k =>
    let d := s.unitDie k
    let va := s.redLine ctx kid n
    let put (s : State) (r : Option Nat) : State :=
      s.modKernel ctx kid fun k => { k with reds := modAt k.reds n fun o => { o with root := r } }
    match s.pageReady ctx (s.redSource ctx kid n d 0) va kWrite with
    | (s, false) => put s none
    | (s, true) => match s.devXlate d ctx va kWrite with
      | .ok pa =>
        let dst := 24 * homeDie pa + sliceTile (s.servingAt (homeDie pa) (lineOf pa))
        let s := put s (some pa)
        { s with msgs := s.msgs.map fun m => if m.body = .redx ctx kid n then { m with dst := dst } else m }
      | _ => put s none

/-- Accepts a kernel under the lowest free identifier (R284): the state, and the result of R283. -/
def State.acceptKernel (s : State) (ctx : Nat) (r par : List Byte) (chans : List Chan) (reds : List Red) (die : Nat) :
    State × Nat :=
  let kid := tfresh (s.ctx ctx).kernels 0
  if 1024 ≤ kid then (s, 0xFFFF0002)
  else
    let k : Kernel :=
      { record := r, params := par, state := 0, next := 0, returned := [], count := 0, completed := [], items := [],
        chans := chans, reds := reds, seeds := [], launchDie := die }
    let s := s.modCtx ctx fun x => { x with kernels := tput x.kernels kid k }
    let s := s.writeDone ctx kid
    ((List.range reds.length).foldl (fun s n => s.reroot ctx kid n) s, kid)

/-- LAUNCH (R283, R284): a release at package scope orders what the strand did before the kernel's items (R232). -/
def execLaunch (f : LFields) (s : State) : Result :=
  let i : Instr := .launch f
  match issue i (rowOf i) f noPre s with
  | .out o => o
  | .go x =>
    let st := x.st
    let ptr := (st.sget64 (f.a.toNat - 0x80)).toNat
    let trap (c : Cause) : Result := .next (s.trapAtIssue x.id st c 0 x.adm)
    let st1 := { st with walkParked := false }
    let done (s : State) (r : Nat) : Result :=
      .next ((s.commit st).finish x (rowOf i) f 8 (st1.sset (f.d.toNat - 0x80) (BitVec.ofNat 32 r)))
    if x.adm = 0 then .next (s.finish x (rowOf i) f 8 st)
    else if ptr / 2 ^ 48 ≠ 0 then trap .window
    else if ptr % 64 ≠ 0 then trap .align
    else if s.relBlocked st then .next (s.holdOn x (.launch f))
    else
      let tr (s : State) (va : Nat) : State × Xl := s.translate st.ctx st.d st.k (some st.ln) va kRead
      match (s.relAct st 4).launchRead st.d tr ptr with
      | (s1, .stop .park) => .next (s1.xlPark x.id st 0 x.adm)
      | (s1, .stop .wait) => .next (s1.holdOn x (.launch f))
      | (s1, .stop (.fault c lvl va)) => .next (s1.xlFault x.id st1 0 x.adm [faultEntry va c lvl kRead] .instr)
      | (_, .stop (.bad c)) => trap c
      | (s1, .stop (.ok _)) => done s1 0xFFFF0001
      | (s1, .rejected) => done s1 0xFFFF0001
      | (s1, .ok r par cs rs) =>
        let (s2, n) := s1.acceptKernel st.ctx r par cs rs st.d
        done s2 n

/-! Host launches. -/

/-- A rejected append is logged: CODE 0x01 with the low byte of the result, or the cause that its reads met (R273,
R284). -/
def State.logAppend (s : State) (ctx : Nat) (c : Cause) (detail : Nat) : State :=
  s.logError ctx 0 (causeWord c detail none) 0 0 0xFFFFFFFF 0xFFFFFFFF 0xFFFFFFFF s.gtime

/-- The 64 bytes of an appended launch record are launched (R284, R303). -/
def State.appendLaunch (s : State) (ctx : Nat) (r : List Byte) : State :=
  if !launchOk r then s.logAppend ctx .illop 1
  else match s.launchRest 0 (devTr 0 ctx) r with
    | (s, .ok r par cs rs) =>
      let (s, n) := s.acceptKernel ctx r par cs rs 0
      if n = 0xFFFF0002 then s.logAppend ctx .illop 2 else s
    | (s, .rejected) => s.logAppend ctx .illop 1
    | (s, .stop (.bad c)) => s.logAppend ctx c 0
    | (s, .stop (.fault c lvl va)) =>
      let s := s.openDeviceBatch ctx 5 0 0 0 (faultEntry va c lvl kRead)
      s.modCtx ctx fun x => { x with retries := x.retries ++ [(x.lastBatch, .append r)] }
    | (s, .stop .park) => s.modCtx ctx fun x => { x with retries := x.retries ++ [(parkedRetry, .append r)] }
    | (s, .stop _) => s.modCtx ctx fun x => { x with retries := x.retries ++ [(slowRetry, .append r)] }

/-- One word written to a staged slot of an application core: the slots, and the 64 bytes when all eight words are there
(R303). -/
def stagePut (l : List (Nat × List (Option DWord))) (core word : Nat) (v : DWord) :
    List (Nat × List (Option DWord)) × Option (List Byte) :=
  let old := match l.find? fun e => e.1 == core with
    | some e => e.2
    | none => List.replicate 8 none
  let new := upd old word (some v)
  let rest := l.filter fun e => e.1 != core
  match new.mapM id with
  | some ws => (rest, some (ws.flatMap fun w => leBytes 8 w.toNat))
  | none => ((core, new) :: rest, none)

/-- A write of one word of LAUNCHSLOT (R303). -/
def State.launchSlot (s : State) (ctx appCore word : Nat) (v : DWord) : State :=
  if 4096 ≤ ctx ∨ 8 ≤ word then s
  else
    let (l, r) := stagePut (s.ctx ctx).stage appCore word v
    let s := s.modCtx ctx fun x => { x with stage := l }
    match r with
    | none => s
    | some bs =>
      let n := (s.ctx ctx).state
      if n = 2 ∨ n = 3 ∨ n = 4 then s.appendLaunch ctx bs else s.modCtx ctx fun x => { x with err := 1 }

/-- An application core is powered: four of each die, numbered 4 * die and up, on the dies of the die set (R8, R19). -/
def State.appUp (s : State) (appCore : Nat) : Bool := decide (appCore / 4 ≤ min s.dsCur 2)

/-- LAUNCHSLOT_WRITE (R303): one 8-byte write of an application core. -/
def execLaunchslotWrite (ctx appCore word : Nat) (value : BitVec 64) (s : State) : Result :=
  .next (if s.appUp appCore then s.launchSlot ctx appCore word value else s)

/-! The end of a kernel. -/

/-- The table set of every core that this kernel owned has no owner. -/
def State.disown (s : State) (owner : Nat × Nat) : State :=
  s.allCoresMod fun x => if x.owner = some owner then { x with owner := none } else x

/-- A kernel's identifier is freed: its channels and objects close with its record, its seed records are dropped, and a
DONE write that still waits keeps its address and count (R287, R292, R381). -/
def State.freeKernel (s : State) (ctx kid : Nat) : State :=
  let s := (s.seedDropKernel (ctx, kid)).disown (ctx, kid)
  match s.kernel ctx kid with
  | some k =>
    let mine (m : Msg) : Bool := match m.body with
      | .slot c n _ => c == ctx && n == kid
      | .redx c n _ => c == ctx && n == kid
      | _ => false
    let s := { s with msgs := s.msgs.filter fun m => !mine m }
    s.modCtx ctx fun x => { x with
      kernels := tdel x.kernels kid,
      retries := x.retries.map fun r => if r.2 = .done kid then (r.1, .doneAt (recDone k.record) k.count) else r }
  | none => s

/-- No engine operation of the kernel's items is left, in a core's queue or with a saved item (R292). -/
def State.engDrained (s : State) (ctx kid : Nat) : Bool := s.dies.all fun d => d.cores.all fun c => c.seq.all fun o => o.ctx != ctx || o.kid != kid

/-- A kernel that has nothing left to run ends: Done when its count reaches ITEMS, Lost when its last dispatched item has
gone, both with its engine operations drained (R292). -/
def State.endKernel (s : State) (ctx kid : Nat) : State :=
  match s.kernel ctx kid with
  | some k =>
    if (s.ctx ctx).state = 5 ∨ !s.engDrained ctx kid then s
    else if k.state ≤ 1 ∧ k.count = recItems k.record ∧ k.items.isEmpty then s.freeKernel ctx kid
    else if k.state = 3 ∧ k.items.isEmpty then s.freeKernel ctx kid
    else s
  | none => s

/-- Every kernel that can end does. -/
def State.endKernels (s : State) : State := s.ctxs.foldl (fun s e => e.2.kernels.foldl (fun s q =>
  if q.2.items.isEmpty then s.endKernel e.1 q.1 else s) s) s

/-- The first number from n on that the list does not hold. -/
def countRun (l : List Nat) : Nat → Nat → Nat
  | 0, n => n
  | fuel + 1, n => if l.contains n then countRun l fuel (n + 1) else n

/-- The in-order count after item `idx` completes (R287). -/
def Kernel.advance (k : Kernel) (idx : Nat) : Kernel :=
  let go := if k.completed.contains idx then k.completed else idx :: k.completed
  let n := countRun go (go.length + 1) k.count
  { k with count := n, completed := go.filter fun x => decide (n ≤ x) }

end Sys2Proof.Machine
end

