-- ==== Sys2Proof/Machine/Matrix.lean ====
section
/-! DEFINITION. The matrix engine and the seed instructions (R344 to R370, R379 to R383): the checks of issue, the
sequencer's queue, loop steps, conversions, and SEEDLD. -/

namespace Sys2Proof.Machine

/-! Tiles and the queue. -/

/-- The item of a strand as a tile names it (R346). -/
def Strand.itemKey (st : Strand) : Nat × Nat × Nat := (st.ctx, st.kid, st.iid)

/-- A tile of the strand's core. -/
def State.tile (s : State) (st : Strand) (t : Nat) : Tile := nth Tile.free (s.core st.d st.k).tiles t

def Core.modTile (x : Core) (t : Nat) (g : Tile → Tile) : Core := { x with tiles := modAt x.tiles t g }

/-- Rows and columns of a kind (R345). -/
def tileRows (kind : Nat) : Nat := if kind = 1 then 16 else 32
def tileCols (kind : Nat) : Nat := if kind = 1 then 32 else 64
/-- Entry (i, n) of a kind (R345). -/
def tileIdx (kind i n : Nat) : Nat := tileCols kind * i + n

/-- The queue holds its 16 operations (R349). -/
def State.seqFull (s : State) (st : Strand) : Bool := decide (16 ≤ (s.core st.d st.k).seq.length)

/-- Slots that an operation captures at issue (R378). -/
def MatKind.slots : MatKind → List Nat
  | .mloop _ _ _ d => distinct (d.recs.map (·.1))
  | _ => []

/-- An operation that has completed or is discarded lets go of what it captured (R378, R381). -/
def State.letGo (s : State) (o : MatOp) : State := s.modCore (o.capCore / 16) (o.capCore % 16) (·.uncapture o.caps)

/-- A tile is Free again: its contents stay until the MCLR of its next holder (R346, R370). -/
def Tile.release (t : Tile) : Tile := { t with held := none }

/-- Enters the sequencer queue, raising c3 when counted (R349, R381). -/
def State.enqueue (s : State) (x : Issued) (counted : Bool) (k : MatKind) (dests : List Nat) : State × Strand :=
  let st := x.st
  let op : MatOp :=
    { strand := x.id, opId := st.nextOp, ctx := st.ctx, kid := st.kid, iid := st.iid, pc := st.pc, mask := x.adm,
      rs := st.resume, fmt := st.fmt, kind := k, started := false, hit := false, step := 0, pass := 0, flags := flagNone,
      err := none, caps := k.slots, capCore := 16 * st.d + st.k }
  let s := s.modCore st.d st.k fun c => { c.capture op.caps with seq := c.seq ++ [op] }
  (s, if counted then st.startOp 3 x.adm .matrix [] dests else { st with nextOp := st.nextOp + 1 })

/-- The issue of a matrix operation: the checks of issue in order, then the queue and the counter (R348, R349). -/
def matIssue (i : Instr) (f : LFields) (pre : State → Strand → Option Nat) (stop : State → Strand → Option Cause)
    (counted : Bool) (mk : Issued → State → MatKind) (dests : Strand → List Nat) (s : State) : Result :=
  match issue i (rowOf i) f (fun st m => if m = 0 then none else pre s st) s with
  | .out o => o
  | .go x =>
    if x.adm = 0 then .next (s.finish x (rowOf i) f 8 x.st)
    else match stop s x.st with
      | some c => .next (s.trapAtIssue x.id x.st c 0 x.adm)
      | none =>
        if s.seqFull x.st || (counted && x.st.full 3) then .next (s.stallOn x)
        else
          let (s, st) := s.enqueue x counted (mk x s) (dests x.st)
          .next (s.finish x (rowOf i) f 8 st)

/-! MCLR. -/

/-- SX of an MCLR (R351). -/
def mclrSx (f : LFields) : Int := if f.m3 == 2 then (imm16 f).toInt else 0

/-- MCLR (R351): held while another item holds the tile. -/
def execMclr (f : LFields) (s : State) : Result :=
  let i : Instr := .mclr f
  match issue i (rowOf i) f noPre s with
  | .out o => o
  | .go x =>
    if x.adm = 0 then .next (s.finish x (rowOf i) f 8 x.st)
    else
      let t := f.d.toNat
      match (s.tile x.st t).held with
      | some k =>
        if k ≠ x.st.itemKey then .next (s.holdOn x (.mclr f)) else mclrGo i f x s t
      | none => mclrGo i f x s t
where
  /-- Claims the tile and enters the queue. -/
  mclrGo (i : Instr) (f : LFields) (x : Issued) (s : State) (t : Nat) : Result :=
    if s.seqFull x.st then .next (s.stallOn x)
    else
      let kind := f.m3.toNat
      let s := s.modCore x.st.d x.st.k fun c => c.modTile t fun q =>
        { q with held := some x.st.itemKey, kind := kind, sx := mclrSx f }
      let (s, st) := s.enqueue x false (.mclr t kind (mclrSx f)) []
      .next (s.finish x (rowOf i) f 8 st)

/-! MLOOP. -/

/-- The tile kind of a mode (R354). -/
def modeKind (mode : Nat) : Nat := nth 2 [0, 0, 1, 1, 2, 2] mode

/-- A signed half of a register. -/
def half16 (w : Word) (hi : Bool) : Int := if hi then (w.extractLsb' 16 16).toInt else (w.extractLsb' 0 16).toInt

/-- The descriptor with what the loop captures (R353, R355); the records are captured apart. -/
def loopDesc (f : LFields) (st : Strand) : LoopDesc :=
  let b := f.a.toNat - 0x80
  let w (i : Nat) : Word := st.sget (b + i)
  { mode := f.m3.toNat, aoff := (w 0).toNat, ainc := (w 1).toInt, boff := (w 2).toNat, binc := (w 3).toInt,
    apitch := (w 4).toNat / 2 ^ 16, steps := (w 4).toNat % 2 ^ 16, asoff := (w 5).toNat, asinc := half16 (w 6) true,
    bsinc := half16 (w 6) false, bsoff := (w 7).toNat, aw := fmtAW st.fmt, bw := fmtBW st.fmt,
    xa := (st.sget (fmtAEXP st.fmt)).toNat % 256, xb := (st.sget (fmtBEXP st.fmt)).toNat % 256,
    keep := if f.y == 1 then some (f.c.toNat % 2 == 1) else none, recs := [] }

/-- The record index of a step (R353). -/
def LoopDesc.slotAt (d : LoopDesc) (k : Nat) : Int := d.boff + d.binc * k

/-- The tile is not held by the item, or its kind does not fit (R346, R355). -/
def mloopPre (f : LFields) (s : State) (st : Strand) : Option Nat :=
  let t := s.tile st f.d.toNat
  if t.held ≠ some st.itemKey ∨ t.kind ≠ modeKind f.m3.toNat then some 0 else none

/-- The alignment rules of R355. -/
def LoopDesc.aligned (d : LoopDesc) : Bool :=
  let by' (n : Nat) (v : Int) : Bool := v % n == 0
  let a (n : Nat) : Bool := by' n d.aoff && by' n d.ainc && by' n d.apitch
  let b (n : Nat) : Bool := by' n d.boff && by' n d.binc
  match d.mode with
  | 0 | 1 => a 32 && b 256
  | 2 | 3 => a 64 && b 256
  | 4 => a 8 && by' 2 d.asoff && by' 2 d.asinc && b 64 && by' 2 d.bsoff && by' 2 d.bsinc
  | _ => a 8 && by' 2 d.asoff && by' 2 d.asinc

/-- Every record of every step is Valid for the kernel (R355, R376). -/
def State.loopRecs (s : State) (st : Strand) (d : LoopDesc) : Option (List (Nat × List Byte)) :=
  (List.range d.steps).mapM fun k =>
    let n := d.slotAt k
    let x := s.core st.d st.k
    if 0 ≤ n ∧ n ≤ 4095 ∧ x.seedValid (st.ctx, st.kid) n.toNat then some (n.toNat, x.seedBytes n.toNat) else none

/-- The extents that a step reads: whether in the B-slice, first byte and length (R354). -/
def LoopDesc.spans (d : LoopDesc) (k : Nat) (blocks : Nat) : List (Bool × Int × Int) :=
  let ao : Int := d.aoff + d.ainc * k
  let bo : Int := d.boff + d.binc * k
  let so : Int := d.asoff + d.asinc * k
  let p : Int := d.apitch
  match d.mode with
  | 0 | 1 => [(false, ao, 31 * p + 32), (true, bo, 2048)]
  | 2 | 3 => [(false, ao, 15 * p + 64), (true, bo, 2048)]
  | 4 => [(false, ao, 31 * p + 8 * d.aw), (false, so, 64), (true, bo, 512 * d.bw), (true, d.bsoff + d.bsinc * k, 128)]
  | _ => [(false, ao, 31 * p + 2 * d.aw * blocks), (false, so, 16 * blocks)]

/-- Every byte that any step reads is in range (R355). -/
def LoopDesc.inRange (d : LoopDesc) (scr : Nat) : Bool :=
  let ok (q : Bool × Int × Int) : Bool :=
    decide (0 ≤ q.2.1) && decide (q.2.1 + q.2.2 ≤ if q.1 then (bsliceSize : Int) else (scr : Int))
  let ks := if d.mode = 5 then List.range d.steps else if d.steps = 0 then [] else [0, d.steps - 1]
  ks.all fun k => (d.spans k (seedK (nth (0, []) d.recs k).2 / 16)).all ok

/-- MLOOP (R352 to R355). -/
def execMloop (f : LFields) (s : State) : Result :=
  let i : Instr := .mloop f
  match issue i (rowOf i) f (fun st m => if m = 0 then none else mloopPre f s st) s with
  | .out o => o
  | .go x =>
    let trap (c : Cause) : Result := .next (s.trapAtIssue x.id x.st c 0 x.adm)
    if x.adm = 0 then .next (s.finish x (rowOf i) f 8 x.st)
    else
      let d := loopDesc f x.st
      if !d.aligned then trap .align
      else match (if d.mode = 5 then s.loopRecs x.st d else some []) with
        | none => trap .illop
        | some rs =>
          let d := { d with recs := rs }
          if !d.inRange (s.scrSize x.st) then trap .window
          else if s.seqFull x.st || x.st.full 3 then .next (s.stallOn x)
          else
            let t := s.tile x.st f.d.toNat
            let (s, st) := s.enqueue x true (.mloop f.d.toNat t.kind t.sx d) []
            .next (s.finish x (rowOf i) f 8 st)

/-! MRD. -/

/-- Bytes of an entry in a destination format (R360). -/
def mrdSize (fm : Nat) : Nat := nth 8 [4, 2, 2, 4, 4, 8, 8] fm

/-- The format suits the tile's kind (R360). -/
def mrdFits (fm kind : Nat) : Bool :=
  match fm with
  | 0 | 1 | 2 => kind == 0 || kind == 2
  | 3 | 4 | 5 => kind == 1
  | 6 => kind == 2
  | _ => false

/-- What MRD finds wrong with its tile and its block (R346, R360). -/
def mrdPre (f : LFields) (s : State) (st : Strand) : Option Nat :=
  let c := f.c.toNat
  let t := s.tile st (c % 16)
  let w := (st.sget (f.a.toNat - 0x80)).toNat
  if t.held ≠ some st.itemKey ∨ !mrdFits f.m3.toNat t.kind then some 0
  else if c / 64 % 2 = 0 ∧
      (tileRows t.kind ≤ w % 2 ^ 16 + 15 ∨ tileCols t.kind ≤ w / 2 ^ 16 + blockLen f - 1) then some 0
  else none

/-- The scratchpad form's range and alignment (R360). -/
def mrdStop (f : LFields) (s : State) (st : Strand) : Option Cause :=
  let c := f.c.toNat
  if c / 64 % 2 = 0 then none
  else
    let kind := (s.tile st (c % 16)).kind
    let n := mrdSize f.m3.toNat
    let off := (st.sget (f.a.toNat - 0x80)).toNat
    let p := (st.sval f.b.toNat).toNat
    if s.scrSize st < off + (tileRows kind - 1) * p + tileCols kind * n then some .window
    else if off % n ≠ 0 ∨ p % n ≠ 0 then some .align else none

/-- MRD (R360 to R362). -/
def execMrd (f : LFields) (s : State) : Result :=
  let c := f.c.toNat
  let sp := c / 64 % 2 = 1
  matIssue (.mrd f) f (mrdPre f) (mrdStop f) true
    (fun x s =>
      let t := s.tile x.st (c % 16)
      let a := (x.st.sget (f.a.toNat - 0x80)).toNat
      if sp then .mrdSp (c % 16) t.kind t.sx f.m3.toNat a (x.st.sval f.b.toNat).toNat (decide (128 ≤ c))
      else .mrdReg (c % 16) t.kind t.sx f.m3.toNat (a % 2 ^ 16) (a / 2 ^ 16) f.d.toNat (blockLen f) (2 ^ f.w.toNat)
        (decide (128 ≤ c)))
    (fun _ => if sp then [] else (List.range (blockLen f)).map fun e => f.d.toNat + blockOff f e) s

/-! MBLD and MTWID. -/

/-- A B-slice range [lo, lo + n) that the instruction may not write (R363, R364). -/
def bRange (lo n : Nat) (more : Bool) (al : Bool) : Option Cause :=
  if more ∨ bsliceSize < lo + n then some .window
  else if !al then some .align
  else if 0 < n ∧ seedBase < lo + n then some .seedro
  else none

/-- MBLD (R363). -/
def execMbld (f : LFields) (s : State) : Result :=
  let dst (st : Strand) : Nat := (st.sget (f.d.toNat - 0x80)).toNat
  let src (st : Strand) : Nat := (st.sget (f.a.toNat - 0x80)).toNat
  let len (st : Strand) : Nat := (st.sval f.b.toNat).toNat
  matIssue (.mbld f) f (fun _ _ => none)
    (fun s st => bRange (dst st) (len st) (decide (s.scrSize st < src st + len st))
      (dst st % 64 == 0 && src st % 64 == 0 && len st % 64 == 0)) true
    (fun x _ => .mbld (dst x.st) (src x.st) (len x.st)) (fun _ => []) s

/-- MTWID (R364). -/
def execMtwid (f : LFields) (s : State) : Result :=
  let dst (st : Strand) : Nat := (st.sget (f.d.toNat - 0x80)).toNat
  matIssue (.mtwid f) f (fun _ _ => none) (fun _ st => bRange (dst st) 2048 false (dst st % 256 == 0)) true
    (fun x _ => .mtwid (dst x.st) f.c.toNat (f.m3 == 1)) (fun _ => []) s

/-! SEEDSCAN and SEEDDROP. -/

/-- The fields of the descriptor of R382. -/
def scanDesc (f : LFields) (st : Strand) : MatKind :=
  let b := f.a.toNat - 0x80
  let w (i : Nat) : Nat := (st.sget (b + i)).toNat
  .seedscan (w 0) (w 1 / 2 ^ 16) (nbits (w 1) 10 6) (nbits (w 1) 2 2) (nbits (w 1) 0 2) (w 2 / 2 ^ 8 * 2 ^ 8)
    (w 2 % 2 ^ 8) (w 3)

/-- Reserved bits, codes of 3 and the candidate count (R382). -/
def scanPre (f : LFields) (_ : State) (st : Strand) : Option Nat :=
  let b := f.a.toNat - 0x80
  let w1 := (st.sget (b + 1)).toNat
  let cnt := (st.sget (b + 2)).toNat % 256
  if nbits w1 4 6 ≠ 0 ∨ w1 % 4 = 3 ∨ w1 / 4 % 4 = 3 ∨ cnt = 0 ∨ 64 < cnt then some 0 else none

/-- Range, then alignment (R382). -/
def scanStop (f : LFields) (s : State) (st : Strand) : Option Cause :=
  match scanDesc f st with
  | .seedscan toff tp _ nc kc coff cnt roff =>
    let z := s.scrSize st
    if z < toff + (16 * 2 ^ kc - 1) * tp + 4 * (16 * 2 ^ nc) ∨ z < coff + 8 * cnt ∨ z < roff + 16 * cnt then some .window
    else if toff % 4 ≠ 0 ∨ tp % 4 ≠ 0 ∨ roff % 16 ≠ 0 then some .align else none
  | _ => none

/-- SEEDSCAN (R382). -/
def execSeedscan (f : LFields) (s : State) : Result :=
  matIssue (.seedscan f) f (scanPre f) (scanStop f) true (fun x _ => scanDesc f x.st) (fun _ => []) s

/-- A slot number above 4095 (R379). -/
def slotPre (x : BitVec 8) (st : Strand) : Option Nat := if 4095 < (st.sval x.toNat).toNat then some 0 else none

/-- SEEDDROP (R381). -/
def execSeeddrop (f : LFields) (s : State) : Result :=
  matIssue (.seeddrop f) f (fun _ st => slotPre f.a st) (fun _ _ => none) false
    (fun x _ => .seeddrop (x.st.sval f.a.toNat).toNat) (fun _ => []) s

/-! SEEDLD. -/

/-- What SEEDLD's read of the record meets: the bytes, a fault, a parked walk or a failed read (R380). -/
inductive SeedRead where
  | ok (bs : List Byte)
  | fault (c : Cause) (lvl va : Nat)
  | park
  | wait
  | bad (c : Cause)

/-- Reads n 16-byte pieces for a strand (R380). -/
def State.seedRead (s : State) (st : Strand) (va : Nat) : Nat → State × SeedRead
  | 0 => (s, .ok [])
  | n + 1 =>
    match s.translate st.ctx st.d st.k (some st.ln) va kRead with
    | (s, .park) => (s, .park)
    | (s, .wait) => (s, .wait)
    | (s, .fault c lvl) => (s, .fault c lvl va)
    | (s, .ok pa) =>
      if s.readHeld st.d st.k pa 16 then (s, .wait)
      else match s.coreBads st.d st.k pa 16 with
        | some c => (s, .bad c)
        | none => match s.seedRead st (va + 16) n with
          | (s, .ok bs) => (s, .ok (s.coreGets st.d st.k pa 16 ++ bs))
          | r => r

/-- Cores on which some strand of the kernel is resident. -/
def State.kernelCores (s : State) (owner : Nat × Nat) : List (Nat × Nat) :=
  ((List.range 3).flatMap fun d => (List.range 16).map fun c => (d, c)).filter fun p => s.kernelOn owner p.1 p.2

/-- SEEDLD (R380). -/
def execSeedld (f : LFields) (s : State) : Result :=
  let i : Instr := .seedld f
  match issue i (rowOf i) f (fun st m => if m = 0 then none else slotPre f.b st) s with
  | .out o => o
  | .go x =>
    let st := x.st
    let slot := (st.sval f.b.toNat).toNat
    let trap (s : State) (c : Cause) : Result :=
      .next ((s.seedUnqueue st.d st.k slot [x.id]).trapAtIssue x.id st c 0 x.adm)
    let ptr := (st.sget64 (f.a.toNat - 0x80)).toNat
    let own := (st.ctx, st.kid)
    if x.adm = 0 then .next (s.finish x (rowOf i) f 8 st)
    else if ptr / 2 ^ 48 ≠ 0 then trap s .window
    else if ptr % 16 ≠ 0 then trap s .align
    else if st.full 3 then .next (s.stallOn x)
    else if st.accPending then .next (s.holdOn x (.seedld f))
    else match s.seedRead { st with walkParked := false } ptr 6 with
      | (s1, .park) => .next (s1.xlPark x.id st 0 x.adm)
      | (s1, .wait) => .next (s1.holdOn x (.seedld f))
      | (s1, .fault c lvl va) => .next (s1.xlFault x.id st 0 x.adm [faultEntry va c lvl kRead] .instr)
      | (_, .bad c) => trap s c
      | (s1, .ok bs) =>
        if !seedOk bs then trap s .illop
        else
          let c := s1.core st.d st.k
          let go (s : State) : Result :=
            .next ((s.seedUnqueue st.d st.k slot [x.id]).finish x (rowOf i) f 8
              ({ st with walkParked := false }.startOp 3 x.adm (.seedld slot ptr bs) [] []))
          if c.seedValid own slot then
            if c.seedBytes slot = bs ∧ ((tget c.seeds slot).map (·.src)) = some ptr then go s1 else trap s .seedro
          else if s1.seedHeld st.d st.k own slot || !s1.seedTurn st.d st.k slot [x.id] then
            .next ((s1.seedQueue st.d st.k slot [x.id]).holdOn x (.seedld f))
          else
            go ((s1.seedPut st.d st.k own slot ptr bs).modKernel st.ctx st.kid fun k =>
              { k with seeds := tput k.seeds slot ptr })

/-- The cores of the kernel that a SEEDLD has still to load: its record is not Valid there, and the load there has not ended
(R380). -/
def State.seedLeft (s : State) (own : Nat × Nat) (slot : Nat) (ended : List Nat) : List (Nat × Nat) :=
  (s.kernelCores own).filter fun p => !(s.core p.1 p.2).seedValid own slot && !ended.contains (16 * p.1 + p.2)

/-- SEEDLD_REMOTE_LOAD (R380): the record is loaded on one more core of the kernel as a reload is (R377); a load that leaves the
slot Free, or that a Failed link loses (R432), has ended too. c3 falls when no core is left. -/
def execSeedldRemoteLoad (strand op die core : Nat) (s : State) : Result :=
  match s.strand strand with
  | none => .next s
  | some st =>
    match st.op op with
    | none => .next s
    | some o =>
      match o.kind with
      | .seedld slot src _ =>
        let own := (st.ctx, st.kid)
        let p : Placing := { load := some (strand, op), ctx := st.ctx, kid := st.kid, iid := st.iid, sid := st.sid, die := die, core := core }
        let ended (s : State) : State := s.modStrand strand fun st => st.modOp op fun o => { o with
          replies := if o.replies.contains (16 * die + core) then o.replies else (16 * die + core) :: o.replies }
        let fall (s : State) : State := match (s.strand strand).bind fun st => st.op op with
          | some o => if (s.seedLeft own slot o.replies).isEmpty then s.completeOp strand op else s
          | none => s
        if o.fin then .next s
        else if !(s.seedLeft own slot o.replies).contains (die, core) then .next (fall s)
        else if s.linkSlow o.die die then .next s
        else if s.linkDead o.die die then .next (fall (ended (s.ctxEvent st.ctx 1)))
        else match s.reloadReady p slot src with
          | (s, true) => .next (fall (ended (s.reloadDo p slot src)))
          | (s, false) => .next s
      | _ => .next s

/-! Loop steps. -/

/-- A 16-bit operand at a byte of a buffer. -/
def half (f : FFmt) (env : FEnv) (bs : List Byte) : Fp := f.decIn env (leVal bs)

/-- The exact sum of an entry's products and its accumulator, rounded once (R48, R356). -/
def stepEntry (env : FEnv) (acc : Nat) (prods : List Term) : FRes :=
  sumTerms fmtF32 env ((fmtF32.decIn env acc).term :: prods)

/-- What a step does to a tile: its entries and the flags raised. -/
abbrev StepOut := Cells 64 × FpFlags

/-- Every entry of a tile in order. -/
def eachEntry (kind cols : Nat) (g : Nat → Nat → BitVec 64 → BitVec 64 × FpFlags) (e : Cells 64) : StepOut :=
  (List.range (tileRows kind)).foldl (fun q i => (List.range cols).foldl (fun q n =>
    let (v, fl) := g i n (cget q.1 (tileIdx kind i n))
    (cput q.1 (tileIdx kind i n) v, q.2 ||| fl)) q) (e, flagNone)

/-- A real-mode step (R48, R354): `a` and `b` read two bytes at an offset of A's and B's memory. -/
def realStep (bf : Bool) (env : FEnv) (d : LoopDesc) (k : Nat) (a b : Nat → List Byte) (e : Cells 64) : StepOut :=
  let f := if bf then fmtBF16 else fmtF16
  let ao := ((d.aoff : Int) + d.ainc * k).toNat
  let bo := ((d.boff : Int) + d.binc * k).toNat
  eachEntry 0 64 (fun i n v =>
    let r := stepEntry env (v.toNat % 2 ^ 32) ((List.range 16).map fun j =>
      (half f env (a (ao + i * d.apitch + 2 * j))).prod (half f env (b (bo + 32 * n + 2 * j))))
    (BitVec.ofNat 64 r.bits, r.flags)) e

/-- A complex-mode step (R39, R48, R354). -/
def cplxStep (bf : Bool) (env : FEnv) (d : LoopDesc) (k : Nat) (a b : Nat → List Byte) (e : Cells 64) : StepOut :=
  let f := if bf then fmtBF16 else fmtF16
  let ao := ((d.aoff : Int) + d.ainc * k).toNat
  let bo := ((d.boff : Int) + d.binc * k).toNat
  eachEntry 1 32 (fun i n v =>
    let x (j o : Nat) : Fp := half f env (a (ao + i * d.apitch + 4 * j + o))
    let y (j o : Nat) : Fp := half f env (b (bo + 64 * n + 4 * j + o))
    let re := stepEntry env (v.toNat % 2 ^ 32) ((List.range 16).flatMap fun j =>
      [(x j 0).prod (y j 0), (x j 2).neg.prod (y j 2)])
    let im := stepEntry env (v.toNat / 2 ^ 32) ((List.range 16).flatMap fun j =>
      [(x j 0).prod (y j 2), (x j 2).prod (y j 0)])
    (BitVec.ofNat 64 (re.bits + 2 ^ 32 * im.bits), re.flags ||| im.flags)) e

/-- An .i48 tile in the making: entries, OVM, IXM, and OF for the strand (R44, R345). -/
structure IntTile where
  e : Cells 64
  ovm : Bool
  ixm : Bool
  ovf : Bool

/-- A 48-bit entry as an integer. -/
def ent48 (v : BitVec 64) : Int := (v.truncate 48).toInt

/-- acc_add of R358. -/
def IntTile.add (t : IntTile) (idx : Nat) (p sh : Int) : IntTile :=
  let term : Int := if 0 ≤ sh then p * 2 ^ sh.toNat else p / 2 ^ (-sh).toNat
  let inexact := decide (sh < 0) && term * 2 ^ (-sh).toNat != p
  let v := ent48 (cget t.e idx) + term
  let w : Int := max (-(2 ^ 47 : Nat)) (min v ((2 ^ 47 : Nat) - 1))
  { t with e := cput t.e idx ((BitVec.ofInt 48 w).zeroExtend 64), ovm := t.ovm || v != w, ixm := t.ixm || inexact }

/-- Mantissa i of the block at an offset (R42). -/
def mantissa (b : Nat) (blk : List Byte) (i : Nat) : Int := sx b (leVal blk / 2 ^ (b * i) % 2 ^ b)

/-- dec of R357, with the mark of R44. -/
def bfpDec (e b : Nat) (m : Int) : Int × Bool :=
  if e = 0 then (0, false)
  else if 255 ≤ e then (if m = 0 then 0 else if m < 0 then -(bfpTop b : Int) else bfpTop b, m != 0)
  else (m, false)

/-- A decoded block of 16 elements, and whether OF is due. -/
def bfpBlock (e b : Nat) (blk : List Byte) : List Int × Bool :=
  let l := (List.range 16).map fun i => bfpDec e b (mantissa b blk i)
  (l.map (·.1), l.any (·.2))

/-- A block's delta: nibble `blk` of a scale plane (R42). -/
def nibble (g : Nat → List Byte) (off blk : Nat) : Nat := leVal ((g (off + blk / 2)).take 1) / 16 ^ (blk % 2) % 16

/-- The exponent part of a term's shift (R357). -/
def expShift (e b : Nat) : Int := (min e 254 : Nat) - 127 - ((b : Int) - 1)

/-- A .bfp step (R357); `a` and `b` read a block at an offset. -/
def bfpStep (sx : Int) (d : LoopDesc) (k : Nat) (a b : Nat → List Byte) (t : IntTile) : IntTile :=
  let ao := ((d.aoff : Int) + d.ainc * k).toNat
  let bo := ((d.boff : Int) + d.binc * k).toNat
  let so := ((d.asoff : Int) + d.asinc * k).toNat
  let sb := ((d.bsoff : Int) + d.bsinc * k).toNat
  (List.range 32).foldl (fun t i => (List.range 64).foldl (fun t n => (List.range 4).foldl (fun t j =>
    let ea := d.xa + nibble a so (4 * i + j)
    let eb := d.xb + nibble b sb (4 * n + j)
    let (x, ox) := bfpBlock ea d.aw ((a (ao + i * d.apitch + 2 * d.aw * j)).take (2 * d.aw))
    let (y, oy) := bfpBlock eb d.bw ((b (bo + 2 * d.bw * (4 * n + j))).take (2 * d.bw))
    let p := (x.zip y).foldl (fun p q => p + q.1 * q.2) 0
    { t with ovf := t.ovf || ox || oy }.add (tileIdx 2 i n) p (expShift ea d.aw + expShift eb d.bw - sx)) t) t) t

/-- One basis pass of a .seed step (R357). -/
def seedPass (sx : Int) (d : LoopDesc) (k j : Nat) (r : List Byte) (a : Nat → List Byte) (t : IntTile) : IntTile :=
  let ao := ((d.aoff : Int) + d.ainc * k).toNat
  let so := ((d.asoff : Int) + d.asinc * k).toNat
  let kk := seedK r
  let nn := seedN r
  let nb := kk / 16
  (List.range 32).foldl (fun t i => (List.range nn).foldl (fun t n => (List.range nb).foldl (fun t jb =>
    let ea := d.xa + nibble a so (nb * i + jb)
    let (x, ox) := bfpBlock ea d.aw ((a (ao + i * d.apitch + 2 * d.aw * jb)).take (2 * d.aw))
    let p := (x.zipIdx).foldl (fun p q => p + q.1 * basisSign (seedSigma r) kk nn j (16 * jb + q.2) n) 0
    { t with ovf := t.ovf || ox }.add (tileIdx 2 i n) (seedCoef r j * p) (expShift ea d.aw + seedE r - sx)) t) t) t

/-- Changes the head of a core's queue. -/
def Core.modHead (x : Core) (g : MatOp → MatOp) : Core := { x with seq := modAt x.seq 0 g }

/-! The fragment that the collector keeps (R359). -/

/-- The fragment of one operand that a loop reads in step k. -/
def State.fragmentAt (s : State) (x : Core) (st : Strand) (d : LoopDesc) (inB : Bool) (k : Nat) : Kept :=
  let off : Int := if inB then d.boff + d.binc * k else d.aoff + d.ainc * k
  let n : Int := match (d.spans k (seedK (nth (0, []) d.recs k).2 / 16)).find? fun q => q.1 == inB with
    | some q => q.2.2
    | none => 0
  { inB := inB, item := st.itemKey, mode := d.mode, off := off, pitch := if inB then 0 else d.apitch, aw := d.aw, bw := d.bw,
    bytes := if inB then cgets x.bslice off.toNat n.toNat else s.scrGets st off.toNat n.toNat }

/-- A loop that starts uses the kept fragment for its first step: same offset, mode and widths, and bytes that no write has
changed. -/
def State.keptHit (s : State) (x : Core) (st : Strand) (d : LoopDesc) : Bool := match x.kept with
  | some q => decide (0 < d.steps) && s.fragmentAt x st d q.inB 0 == q
  | none => false

/-- Bytes of an operand as the step reads them: the kept fragment's in the first step of a loop that uses it. -/
def MatOp.fragment (o : MatOp) (x : Core) (inB : Bool) (off n : Nat) (mem : List Byte) : List Byte := match x.kept with
  | some q => if o.hit && o.step == 0 && q.inB == inB then (q.bytes.drop (off - q.off.toNat)).take n else mem
  | none => mem

/-- What the collector keeps after a loop's step: with Y = 1 the fragment of the last step. -/
def State.keepStep (s : State) (die core : Nat) (st : Strand) (d : LoopDesc) (k : Nat) : State :=
  s.modCore die core fun x => { x with kept := match d.keep with
    | some inB => if k + 1 = d.steps then some (s.fragmentAt x st d inB k) else none
    | none => none }

/-- One step, or one basis pass, of the loop at the head of a core's queue (R350, R356, R357, R367). -/
def State.loopStep (s : State) (die core : Nat) (st : Strand) (o : MatOp) (tn : Nat) (sxv : Int) (d : LoopDesc) : State :=
  let c := s.core die core
  let tile := nth Tile.free c.tiles tn
  let env := FEnv.ofFmt o.fmt
  let a (off n : Nat) : List Byte := o.fragment c false off n (s.scrGets st off n)
  let b (off n : Nat) : List Byte := o.fragment c true off n (cgets c.bslice off n)
  let a2 (off : Nat) : List Byte := a off 2
  let b2 (off : Nat) : List Byte := b off 2
  let ab (off : Nat) : List Byte := a off 16
  let bb (off : Nat) : List Byte := b off 16
  let it : IntTile := { e := tile.entries, ovm := tile.ovm, ixm := tile.ixm, ovf := false }
  let real (r : StepOut) : State := s.modCore die core fun c =>
    { (c.modTile tn fun q => { q with entries := r.1 }).modHead
        (fun o => { o with step := o.step + 1, flags := o.flags ||| r.2 }) with arraySteps := c.arraySteps + 1 }
  let int (r : IntTile) (next : MatOp → MatOp) : State := s.modCore die core fun c =>
    { (c.modTile tn fun q => { q with entries := r.e, ovm := r.ovm, ixm := r.ixm }).modHead
        (fun o => next { o with flags := o.flags ||| flagIf r.ovf flagOF }) with arraySteps := c.arraySteps + 1 }
  match d.mode with
  | 0 => real (realStep false env d o.step a2 b2 tile.entries)
  | 1 => real (realStep true env d o.step a2 b2 tile.entries)
  | 2 => real (cplxStep false env d o.step a2 b2 tile.entries)
  | 3 => real (cplxStep true env d o.step a2 b2 tile.entries)
  | 4 => int (bfpStep sxv d o.step ab bb it) fun o => { o with step := o.step + 1 }
  | _ =>
    let r := (nth (0, []) d.recs o.step).2
    int (seedPass sxv d o.step o.pass r ab it) fun o =>
      if seedJ r ≤ o.pass + 1 then { o with step := o.step + 1, pass := 0 } else { o with pass := o.pass + 1 }

/-! The sequencer's events. -/

/-- An operation that has started reads fragments or a tile from now on, so that an uncorrectable error ends it (R368). -/
def MatOp.reads (o : MatOp) : Bool := o.started && match o.kind with
  | .mloop _ _ _ d => decide (o.step < d.steps)
  | .mrdReg _ _ _ _ _ _ _ _ _ _ | .mrdSp _ _ _ _ _ _ _ => true
  | _ => false

/-- Bubbles are counted after every 16th array step (R366). -/
def State.bubble (s : State) (die core : Nat) : State :=
  let b := (s.die die).bub
  s.modCore die core fun c => if c.arraySteps % 16 = 0 then { c with bubbles := c.bubbles + b } else c

/-- The strand of an operation has an access in flight that it issued before the operation (R232, R242). -/
def State.opHeld (s : State) (o : MatOp) : Bool := match s.strand o.strand with
  | some st => (st.earlier o.opId).any fun e => e.isAccess && e.unperformed
  | none => false

/-- SEQ_OP_START (R349): the head of the queue starts, once what its strand accessed before it has been performed (R232); SEEDDROP
acts there and leaves (R381). -/
def execSeqOpStart (die core : Nat) (s : State) : Result :=
  match (s.core die core).seq with
  | [] => .next s
  | o :: _ =>
    if o.started || s.opHeld o then .next s
    else match o.kind with
      | .seeddrop slot =>
        let s := s.modCore die core fun c => { c with seq := c.seq.drop 1, kept := none }
        .next (s.seedDropAll (o.ctx, o.kid) slot)
      | .mloop _ _ _ d =>
        let hit := o.step == 0 && o.pass == 0 && match s.strand o.strand with
          | some st => s.keptHit (s.core die core) st d
          | none => false
        .next (s.modCore die core fun c =>
          { c.modHead (fun o => { o with started := true, hit := hit }) with kept := if hit then c.kept else none })
      | _ => .next (s.modCore die core fun c => { c.modHead (fun o => { o with started := true, hit := false }) with kept := none })

/-- MLOOP_STEP (R356 to R358, R366). -/
def execMloopStep (die core : Nat) (s : State) : Result :=
  match (s.core die core).seq with
  | [] => .next s
  | o :: _ =>
    match o.kind, s.strand o.strand with
    | .mloop t _ sx d, some st =>
      if !o.started || o.err.isSome || decide (d.steps ≤ o.step) then .next s
      else
        let s1 := s.loopStep die core st o t sx d
        let ended := (s1.core die core).seq.head?.any fun p => p.step != o.step
        .next ((if ended then s1.keepStep die core st d o.step else s1).bubble die core)
    | _, _ => .next s

/-- One entry converted with the flags of the rounding (R362): its bytes as a number. -/
def mrdConv (kind : Nat) (sx : Int) (fm : Nat) (env : FEnv) (v : BitVec 64) : Nat × FpFlags :=
  let f := nth fmtF32 [fmtF32, fmtF16, fmtBF16, fmtF16, fmtBF16, fmtF32] fm
  let one (b : Nat) : FRes := fpCvt fmtF32 f env b
  if kind = 2 then
    if fm = 6 then ((BitVec.ofInt 64 (ent48 v)).toNat, flagNone)
    else
      let r := roundDyadic f env (ent48 v) sx false
      (r.bits, r.flags)
  else if kind = 1 then
    let re := one (v.toNat % 2 ^ 32)
    let im := one (v.toNat / 2 ^ 32)
    (re.bits + (if fm = 5 then 2 ^ 32 else 2 ^ 16) * im.bits, re.flags ||| im.flags)
  else
    let r := one (v.toNat % 2 ^ 32)
    (r.bits, r.flags)

/-- The marks of an .i48 tile as flags (R362). -/
def Tile.marks (t : Tile) (kind : Nat) : FpFlags :=
  if kind = 2 then flagIf t.ovm flagOF ||| flagIf t.ixm flagIX else flagNone

/-- SEEDSCAN's three values for one candidate (R383); the target's elements are given with their signs in units of
2^-149. -/
def scanOne (sg : BitVec 64) (kk nn ji : Nat) (ts : List (Nat × Nat × Bool × Nat)) : List Nat :=
  let terms := ts.map fun t =>
    let w := basisSign sg kk nn ji t.1 t.2.1
    (sgn t.2.2.1 t.2.2.2 * w, (if w < 0 then !t.2.2.1 else t.2.2.1), decide (t.2.2.2 = 0 ∨ w = 0))
  let rho := terms.foldl (fun a t => a + t.1) 0
  let neg := terms.all fun t => t.2.2 && t.2.1
  let sq := ts.foldl (fun a t => a + (t.2.2.2 : Int) * t.2.2.2) 0
  let lg : Int := (Nat.log2 (kk * nn) : Nat)
  [(roundDyadic fmtF32 FEnv.plain rho (-149) neg).bits, (roundDyadic fmtF32 FEnv.plain rho (-149 - lg) false).bits,
   (roundDyadic fmtF32 FEnv.plain (sq * (kk * nn : Nat) - rho * rho) (-298 - lg) false).bits, 0]

/-- SEEDSCAN's effect (R383). -/
def State.scanRun (s : State) (st : Strand) (toff tp ji nc kc coff cnt roff : Nat) : State :=
  let kk := 16 * 2 ^ kc
  let nn := 16 * 2 ^ nc
  let els := (List.range kk).flatMap fun k => (List.range nn).map fun n =>
    (k, n, fmtF32.dec (leVal (s.scrGets st (toff + k * tp + 4 * n) 4)))
  let fin := els.mapM fun e => match e.2.2 with
    | .fin neg m q => some (e.1, e.2.1, neg, m * 2 ^ (q + 149).toNat)
    | _ => none
  (List.range cnt).foldl (fun (q : State) c =>
    let sg : BitVec 64 := BitVec.ofNat 64 (leVal (s.scrGets st (coff + 8 * c) 8))
    let vs := match fin with
      | some ts => scanOne sg kk nn ji ts
      | none => [fmtF32.nanBits, fmtF32.nanBits, fmtF32.nanBits, 0]
    q.scrPuts st (roff + 16 * c) (vs.flatMap fun v => leBytes 4 v)) s

/-- What the operation at the head does when it completes without an error, and the flags it raises. -/
def State.matEffect (s : State) (die core : Nat) (st : Strand) (o : MatOp) : State × FpFlags :=
  let env := FEnv.ofFmt o.fmt
  let tile (t : Nat) : Tile := nth Tile.free (s.core die core).tiles t
  let free (t : Nat) (b : Bool) (s : State) : State :=
    if b then s.modCore die core fun c => c.modTile t Tile.release else s
  match o.kind with
  | .mclr t kind _ =>
    (s.modCore die core fun c => c.modTile t fun q =>
      { q with entries := [], ovm := if kind = 2 then false else q.ovm, ixm := if kind = 2 then false else q.ixm }, flagNone)
  | .mloop _ _ _ _ => (s, o.flags)
  | .mrdReg t kind sx fm row col dst n w fr =>
    let es := (List.range n).flatMap fun e => (threads (if n = 1 then o.mask else elemMask o.rs o.mask e)).map fun th =>
      (dst + 8 * (e / w) + e % w, th, mrdConv kind sx fm env (cget (tile t).entries (tileIdx kind (row + th) (col + e))))
    let s := s.modStrand o.strand fun st => es.foldl (fun st x => st.vset x.1 x.2.1 (BitVec.ofNat 32 x.2.2.1)) st
    (free t fr s, es.foldl (fun a x => a ||| x.2.2.2) ((tile t).marks kind))
  | .mrdSp t kind sx fm doff pitch fr =>
    let es := (List.range (tileRows kind)).flatMap fun i => (List.range (tileCols kind)).map fun n =>
      (doff + i * pitch + n * mrdSize fm, mrdConv kind sx fm env (cget (tile t).entries (tileIdx kind i n)))
    let s := es.foldl (fun s x => s.scrPuts st x.1 (leBytes (mrdSize fm) x.2.1)) s
    (free t fr s, es.foldl (fun a x => a ||| x.2.2) ((tile t).marks kind))
  | .mbld dst src len =>
    let bs := s.scrGets st src len
    (s.modCore die core fun c => { c with bslice := cputs c.bslice dst bs }, flagNone)
  | .mtwid dst lg bf =>
    let r := 2 ^ lg
    let m3 := if bf then 1 else 0
    let el (k n : Nat) : Word :=
      if k / r = n % 16 / r then
        nth 0 (twiddle (if n < 16 then m3 else m3 + 2) FEnv.plain (BitVec.ofNat 32 (k % r * (n % r))) (BitVec.ofNat 32 lg)).d 0
      else 0
    let bs := (List.range 32).flatMap fun n => (List.range 16).flatMap fun k => leBytes 4 (el k n).toNat
    (s.modCore die core fun c => { c with bslice := cputs c.bslice dst bs }, flagNone)
  | .seedscan toff tp ji nc kc coff cnt roff => (s.scanRun st toff tp ji nc kc coff cnt roff, flagNone)
  | .seeddrop _ => (s, flagNone)

/-- MATRIX_OP_COMPLETE (R349, R356, R361 to R364, R368, R383): the head leaves the queue, its flags reach STS before c3
falls, and its captures end. -/
def State.matComplete (s : State) (die core : Nat) : State :=
  match (s.core die core).seq with
  | [] => s
  | o :: _ =>
    match s.strand o.strand with
    | none => (s.letGo o).modCore die core fun c => { c with seq := c.seq.drop 1 }
    | some st =>
      let left := match o.kind with
        | .mloop _ _ _ d => decide (o.step < d.steps)
        | _ => false
      if !o.started || (o.err.isNone && left) then s
      else
        let (s, fl) := match o.err with
          | some _ => (s, o.flags)
          | none => s.matEffect die core st o
        let s := (s.letGo o).modCore die core fun c => { c with seq := c.seq.drop 1 }
        let s := s.modStrand o.strand fun st => (st.addFlags fl).modOp o.opId fun p => { p with
          err := o.err.map fun c => { path := 3, cause := c, pc := o.pc, va := 0, time := s.gtime } }
        s.completeOp o.strand o.opId
def execMatrixOpComplete (die core : Nat) (s : State) : Result := .next (s.matComplete die core)

end Sys2Proof.Machine
end

