-- ==== Sys2Proof/Machine/Place.lean ====
section
/-! DEFINITION. Placement: residency (R249, R257), table sets (R187, R188), the dispatch and completion of items (R285 to
R293), pre-emption, saves and restores (R258 to R266, R324, R347, R367) and the discarding of strands. -/

namespace Sys2Proof.Machine

/-! Residency. -/

/-- The core may receive strands: its die computes and does not leave the die set, its mesh tile is Healthy or Suspect, and
compute is not held in reset (R286, R449, R462, R481). -/
def State.coreUp (s : State) (d c : Nat) : Bool :=
  decide (d < 3) && decide (c < 16) && s.computing d && !s.boot.held && (match s.dsBusy with
    | some m => decide (d ≤ m)
    | none => true) &&
    decide ((nth MeshTile.healthy (s.die d).tiles (coreTile c)).state ≤ 1)

/-- Contexts resident on a core, by a strand or by a Held tile (R249). -/
def State.residents (s : State) (d c : Nat) : List Nat :=
  distinct ((s.onCore d c).map (·.2.ctx) ++ (s.core d c).tiles.filterMap fun t => t.held.map (·.1))

/-- Cores on which a context is resident: RESC of R252. -/
def State.coreCount (s : State) (ctx : Nat) : Nat :=
  (((List.range 3).flatMap fun d => (List.range 16).map fun c => (d, c)).filter fun p =>
    (s.residents p.1 p.2).contains ctx).length

/-- A context becomes resident on a core (R257). -/
def Core.arrive (x : Core) (ctx : Nat) (was : Bool) : Core :=
  if was then x else { x with residentOrder := ctx :: x.residentOrder.filter (· != ctx) }

/-- Scratchpad bytes that the items resident on a core hold (R286). -/
def State.scrUsed (s : State) (d c : Nat) : Nat :=
  (distinct ((s.onCore d c).map fun e => (e.2.ctx, e.2.kid, e.2.iid))).foldl (fun n k =>
    n + match s.kernel k.1 k.2.1 with
      | some x => recScr x.record * 256
      | none => 0) 0

/-- Bytes of a core's scratchpad (R8). -/
def scratchSize : Nat := 1536 * 1024

/-- The places exist, are distinct and free, and their lanes hold the registers, with no GROW waiting (R56, R286, R320). -/
def State.placesFree (s : State) (ps : List (Loc × Nat)) : Bool :=
  decide ((distinct (ps.map (·.1))).length = ps.length) &&
  ps.all fun p =>
    let l := p.1
    s.coreUp l.die l.core && decide (l.lane < 192) && decide (l.place < 8) &&
    !(s.onLane l.die l.core l.lane).any (fun e => e.2.loc == some l || e.2.growing) &&
    decide ((ps.filter fun q => q.1.die == l.die && q.1.core == l.core && q.1.lane == l.lane).foldl
      (fun n q => n + q.2) 0 ≤ s.laneFree l.die l.core l.lane)

/-- The core takes one more context, if it must (R249). -/
def State.contextRoom (s : State) (ctx d c : Nat) : Bool :=
  let r := s.residents d c
  r.contains ctx || decide (r.length < 4)

/-- A core record of the context from this core has not been restored (R258). -/
def State.recordOf (s : State) (ctx d c : Nat) : Bool :=
  s.strands.any fun e => e.2.ctx == ctx && match e.2.saved with
    | some l => l.die == d && l.core == c
    | none => false

/-! The table set (R187, R188, R218). -/

/-- A decode image as a slot holds it: none for a zero pointer, and for what R217 calls malformed. -/
def State.decodeImage (s : State) (d ctx ptr : Nat) : MemRead :=
  if ptr = 0 ∨ ptr % 256 ≠ 0 ∨ 2 ^ 48 ≤ ptr then .ok [] else (s.homeRead d (devTr d ctx) ptr 128).2

/-- The decode images of the eight slots, read in order. -/
def State.decodeImages (s : State) (d ctx : Nat) : List Nat → Except MemRead (List (Option (List Byte)))
  | [] => .ok []
  | p :: r =>
    match s.decodeImage d ctx p with
    | .ok bs => (s.decodeImages d ctx r).map fun l => (if bs.length = 1024 ∧ imageOk bs then some bs else none) :: l
    | .bad _ => (s.decodeImages d ctx r).map fun l => none :: l
    | e => .error e

/-- What a placement on a core comes to for the core's table set: it stays as it is, or is loaded, or is held by another kernel, or
its images cannot be read yet (R188). -/
inductive TableRead where
  | keep
  | load (lace : List Byte) (images : List (Option (List Byte)))
  | held
  | stop (r : MemRead)

/-- The reads of a core for a restore or its tables, as a source of batches (R262, R398). -/
def readSource (kid iid sid d c : Nat) (key : List Nat) : Source :=
  { src := 3, die := d, core := c, kid := kid, iid := iid, sid := sid, key := keyOf (d :: c :: key) }

/-- The source of a core's table loads. -/
def Placing.tableSource (p : Placing) : Source := readSource p.kid p.iid p.sid p.die p.core [p.kid]

/-- The table set of the placement's core (R187, R188, R218). -/
def State.tableRead (s : State) (p : Placing) : TableRead :=
  match s.kernel p.ctx p.kid with
  | none => .held
  | some k =>
    let x := s.core p.die p.core
    if !attrTbl k.record ∨ x.owner = some p.owner then .keep
    else if x.owner.any (fun o => s.kernelOn o p.die p.core) || s.unitWaits p.ctx 3 p.tableSource.key then .held
    else match (s.homeRead p.die (devTr p.die p.ctx) (recObj k.record) 264).2 with
      | .ok bs => match s.decodeImages p.die p.ctx ((List.range 8).map fun i => recField bs (0x800 + 8 * i) 8) with
        | .ok ims => .load (bs.take 2048) ims
        | .error e => .stop e
      | e => .stop e

/-- The placement's core may be taken, or what it waits for is begun (R188, R262, R399). -/
def State.tablesReady (s : State) (p : Placing) : State × Bool :=
  match s.tableRead p with
  | .keep | .load _ _ => (s, true)
  | .stop .park => (s.unitPark p.ctx p.tableSource, false)
  | .stop (.fault c lvl va) => (s.unitBatch p.ctx p.tableSource (faultEntry va c lvl kRead), false)
  | _ => (s, false)

/-- The kernel takes the core's table set and loads its images (R188). -/
def State.tablesLoad (s : State) (p : Placing) : State :=
  match s.tableRead p with
  | .load lace ims => s.modCore p.die p.core fun x => { x with
      owner := some p.owner, lace := cputs [] 0 lace,
      dslots := (x.dslots.zip ims).map fun q => { q.1 with loaded := q.1.issued, image := q.2 } }
  | _ => s

/-- Everything each core must give before strands of the kernel are placed there: the table set, then the seed records; nothing
changes hands until every core is ready (R188, R286, R377). -/
def State.prepareCores (s : State) (ps : List Placing) : State × Bool :=
  let q := ps.foldl (fun q p =>
    let a := q.1.tablesReady p
    let b := a.1.seedsReady p
    (b.1, q.2 && a.2 && b.2)) (s, true)
  if q.2 then (ps.foldl (fun s p => (s.tablesLoad p).seedsLoad p) q.1, true) else q

/-! Dispatch. -/

/-- Item `i` is complete (R286). -/
def Kernel.isComplete (k : Kernel) (i : Nat) : Bool := decide (i < k.count) || k.completed.contains i

/-- The item that is dispatched next: a returned one first, in index order (R286, R290). -/
def Kernel.nextItem (k : Kernel) : Option Nat :=
  match k.returned with
  | i :: r => some (r.foldl min i)
  | [] => if k.next < recItems k.record then some k.next else none

/-- The dispatch window (R286). -/
def Kernel.inWindow (k : Kernel) (i : Nat) : Bool := decide (i < 256) || k.isComplete (i - 256)

/-- The role of a strand (R282). -/
def roleOf (r : List Byte) (sid : Nat) : Nat := if sid < recNv r then 0 else if sid < recNv r + recNm r then 1 else 2

/-- Cores that a list of places uses. -/
def coresOf (ps : List Loc) : List (Nat × Nat) := distinct (ps.map fun l => (l.die, l.core))

/-- The cores suit the item: one core with SPAN clear, else at most four of one die with the M-role strands on one (R286,
R347). -/
def spanOk (r : List Byte) (ps : List Loc) : Bool :=
  let cs := coresOf ps
  let ms := coresOf ((ps.drop (recNv r)).take (recNm r))
  decide ((distinct (cs.map (·.1))).length ≤ 1) && decide (cs.length ≤ if attrSpan r then 4 else 1) && decide (ms.length ≤ 1)

/-- A strand as it is created (R63, R285). -/
def newStrand (k : Kernel) (ctx kid iid sid : Nat) (l : Loc) (seq : Nat) : Strand :=
  let r := k.record
  let s0 : Cells 32 := cput (cput (cput (cput [] 0 (BitVec.ofNat 32 (recParam r))) 1 (BitVec.ofNat 32 (recParam r / 2 ^ 32)))
    2 (BitVec.ofNat 32 iid)) 3 (BitVec.ofNat 32 sid)
  { ctx := ctx, kid := kid, iid := iid, sid := sid, role := roleOf r sid, loc := some l, saved := none, savedPages := [], run := .ready,
    alloc := 16 * (recRegs r % 16), v := [], s := s0, q := [], x := [], xbase := [], xsize := [],
    fmt := BitVec.ofNat 32 (recFmt r), sts := 0, c := [], pc := BitVec.ofNat 64 (recCode r), ir := 0, mask := 0xFFFF,
    rpc := 0, rpcv := false, stack := [], written := 0, low := 0, due := [], tmr := 0, tcmp := 0, tarmed := false, epc := 0, emask := 0,
    cause := 0, frame := none, resume := none, pend := [], ahead := none, hold := none, stalled := false, stop := false,
    doomed := false, walkParked := false, ops := [], nextOp := 0, marks := [], engErrs := [], runCount := 0, cyc := 0,
    rdy := [], waitCount := 0, waitSeq := 0, placedAt := seq, spin := Spin.empty, slots := List.replicate 4 none,
    resolved := false, lastCore := 16 * l.die + l.core }

/-- Strands of an allocation that a core's lanes can still take (R56, R320). -/
def State.placesLeft (s : State) (d c alloc : Nat) : Nat :=
  (List.range 192).foldl (fun n l =>
    if (s.onLane d c l).any fun e => e.2.growing then n
    else n + min (8 - (s.onLane d c l).length) (s.laneFree d c l / alloc)) 0

/-- One core has room for a whole item of the kernel (R286). -/
def State.oneCoreFits (s : State) (ctx : Nat) (k : Kernel) (d c : Nat) : Bool :=
  let r := k.record
  s.coreUp d c && (!attrLocal r || d == k.launchDie) && s.contextRoom ctx d c && !s.recordOf ctx d c &&
    decide (s.scrUsed d c + recScr r * 256 ≤ scratchSize) && decide (recStrands r ≤ s.placesLeft d c (16 * (recRegs r % 16))) &&
    (!attrTbl r || (s.core d c).owner.all fun o => (s.kernel o.1 o.2).isNone || !s.kernelOn o d c)

/-- A strand is put on a lane: the lane exists, and the context is resident on the core (R257). -/
def State.settleIn (s : State) (ctx : Nat) (l : Loc) : State :=
  let was := (s.residents l.die l.core).contains ctx
  s.modCore l.die l.core fun x =>
    { x.arrive ctx was with lanes := tput x.lanes l.lane ((tget x.lanes l.lane).getD Lane.idle) }

/-- ITEM_DISPATCH (R286): the next item of a kernel goes to the places given. -/
def execItemDispatch (ctx kid : Nat) (places : List Loc) (s : State) : Result :=
  match s.kernel ctx kid with
  | none => .next s
  | some k =>
    let r := k.record
    match k.nextItem with
    | none => .next s
    | some i =>
      let cs := coresOf places
      let ok := (s.ctx ctx).state == 2 && k.state == 0 && k.inWindow i && decide (places.length = recStrands r) &&
        spanOk r places && (!attrLocal r || places.all fun l => l.die == k.launchDie) &&
        s.placesFree (places.map fun l => (l, 16 * (recRegs r % 16))) &&
        cs.all fun p => s.contextRoom ctx p.1 p.2 && !s.recordOf ctx p.1 p.2 &&
          decide (s.scrUsed p.1 p.2 + recScr r * 256 ≤ scratchSize)
      if !ok || (decide (1 < cs.length) && s.allCores.any fun p => s.oneCoreFits ctx k p.1 p.2) then .next s
      else
        let iid := recIbase r + i
        let sidOn (p : Nat × Nat) : Nat := match (places.zipIdx).find? fun q => (q.1.die, q.1.core) == p with
          | some q => q.2
          | none => 0
        let (s, ready) := s.prepareCores (cs.map fun p =>
          { load := none, ctx := ctx, kid := kid, iid := iid, sid := sidOn p, die := p.1, core := p.2 })
        if !ready then .next s
        else
          let s := { s with seqNo := s.seqNo + 1 }
          let id0 := s.nextStrand
          let s := (places.zipIdx).foldl (fun s p =>
            let s := s.settleIn ctx p.1
            { s with strands := tput s.strands (id0 + p.2) (newStrand k ctx kid iid p.2 p.1 s.seqNo) }) s
          let s := { s with nextStrand := id0 + places.length }
          let s := cs.foldl (fun s p => s.acquire p.1 p.2 4 true) s
          let it : Item :=
            { iid := iid, strands := (List.range places.length).map (id0 + ·), committed := !attrRpl r, complete := false,
              lost := false, die := (match places with
                | l :: _ => l.die
                | [] => 0), cores := cs.map fun p => 16 * p.1 + p.2, scr := [], savedTiles := [], savedOps := [], savedPages := [] }
          .next (s.modKernel ctx kid fun k =>
            let next := if k.returned.contains i then k.next else k.next + 1
            let ret := k.returned.filter (· != i)
            { k with
              next := next, returned := ret, items := tput k.items i it,
              state := if ret.isEmpty ∧ next = recItems r then 1 else 0 })

/-! Completion. -/

/-- Frees every tile that an item holds (R346, R370). -/
def State.freeTiles (s : State) (key : Nat × Nat × Nat) : State :=
  s.allCoresMod fun x => { x with tiles := x.tiles.map fun t => if t.held = some key then t.release else t }

/-- What became of an item's saved matrix operations once no strand of it is left: its captures end, and when it has completed its
SEEDDROPs act (R378, R381). -/
def State.endOps (s : State) (ctx kid : Nat) (complete : Bool) (ops : List MatOp) : State :=
  ops.foldl (fun s o =>
    let s := s.letGo o
    match o.kind with
    | .seeddrop slot => if complete then s.seedDropAll (ctx, kid) slot else s
    | _ => s) s

/-- ITEM_COMPLETE (R287): every strand has Exited, and each core on which one exited has released at package scope. -/
def execItemComplete (ctx kid item : Nat) (s : State) : Result :=
  match s.kernel ctx kid with
  | none => .next s
  | some k =>
    match tget k.items item with
    | none => .next s
    | some it =>
      let sts := it.strands.filterMap fun id => (s.strand id).map fun st => (id, st)
      if it.lost || sts.length != it.strands.length || sts.any (fun e => e.2.run != .exited || e.2.doomed) ||
          (s.ctx ctx).state == 5 then .next s
      else
        let on := distinct (sts.map (·.2.lastCore))
        let s := on.foldl (fun s n => s.release (n / 16) (n % 16) 4 true) s
        if on.any fun n => s.copiesWait (n / 16) then .next s
        else
        let s := (s.freeTiles (ctx, kid, it.iid)).endOps ctx kid true it.savedOps
        let s := { s with strands := sts.foldl (fun (m : Tab Strand) (e : Nat × Strand) => tdel m e.1) s.strands }
        let s := s.modKernel ctx kid fun k => { k.advance item with items := tdel k.items item }
        let rose := match s.kernel ctx kid with
          | some k2 => k2.count != k.count
          | none => false
        let s := if rose then s.writeDone ctx kid else s
        .next (s.endKernel ctx kid)

/-! Discarding. -/

/-- What becomes of an item whose strands are all discarded: lost, or returned to be dispatched again (R290). -/
def State.itemGone (s : State) (ctx kid iid : Nat) : State :=
  match s.kernel ctx kid with
  | none => s
  | some k =>
    let i := k.idx iid
    match tget k.items i with
    | none => s
    | some it =>
      let s := (s.freeTiles (ctx, kid, iid)).endOps ctx kid false it.savedOps
      let s := s.modKernel ctx kid fun k =>
        let k := { k with items := tdel k.items i }
        if it.lost || (s.ctx ctx).state == 5 then k
        else { k with returned := i :: k.returned, state := if k.state = 1 then 0 else k.state }
      s.endKernel ctx kid

/-- A strand is discarded unsaved (R256, R290, R460): it leaves its groups and channels, and its queued matrix operations
go. -/
def State.discard (s : State) (id : Nat) : State :=
  match s.strand id with
  | none => s
  | some st =>
    let s := s.leaveGroups id
    let s := s.modChans st fun c => (c.unbind id).unsend id
    let s := if st.loc.isSome then s.leaveLane id st else s
    let s := (s.dies.flatMap fun d => d.cores.flatMap fun c => c.seq.filter fun o => o.strand == id).foldl (fun s o => s.letGo o) s
    let s := s.allCoresMod fun x => { x with
      seq := x.seq.filter fun o => o.strand != id, shutq := x.shutq.filter fun q => q.1 != id }
    let s := { s with strands := tdel s.strands id }
    let left := s.strands.any fun e => e.2.ctx == st.ctx && e.2.kid == st.kid && e.2.iid == st.iid
    if left then s else s.itemGone st.ctx st.kid st.iid

/-! Pre-emption. -/

/-- The PRIO of a context (R254). -/
def State.prio (s : State) (ctx : Nat) : Nat := (s.ctx ctx).cfg.toNat % 4

/-- The victim on a core for a strand of `forCtx` (R257). -/
def State.victim (s : State) (d c forCtx : Nat) : Option Nat :=
  let x := s.core d c
  let rs := (s.residents d c).filter fun n => decide (s.prio forCtx < s.prio n)
  let top := rs.foldl (fun m n => max m (s.prio n)) 0
  let at0 := rs.filter fun n => s.prio n == top
  match x.residentOrder.find? fun n => at0.contains n with
  | some n => some n
  | none => at0.head?

/-- Allocations that a context waits to place: its saved strands', and its next items' (R257). -/
def State.wants (s : State) (ctx : Nat) : List Nat :=
  (s.strands.filterMap fun e =>
    if e.2.ctx == ctx && e.2.loc.isNone && e.2.run != .exited then some e.2.alloc else none) ++
  (s.ctx ctx).kernels.filterMap fun k =>
    match k.2.state, k.2.nextItem with
    | 0, some i => if k.2.inWindow i then some (16 * (recRegs k.2.record % 16)) else none
    | _, _ => none

/-- No lane of the core has a free place and the registers (R257). -/
def State.noLane (s : State) (d c need : Nat) : Bool :=
  (List.range 192).all fun l =>
    decide (8 ≤ (s.onLane d c l).length) || decide (s.laneFree d c l < need) || (s.onLane d c l).any fun e => e.2.growing

/-- The strands of a context on a core stop and are to be saved, with its matrix state there (R258, R259). -/
def State.stopCore (s : State) (n d c : Nat) : State :=
  let stop (e : Nat × Strand) : Nat × Strand :=
    if e.2.ctx == n && e.2.resident && e.2.d == d && e.2.k == c then (e.1, { e.2 with stop := true }) else e
  let s := { s with strands := s.strands.map stop }
  s.modCore d c fun x => { x with saving := if x.saving.contains n then x.saving else x.saving ++ [n] }

/-- PREEMPTION (R257, R259, R266): the dispatcher pre-empts a context on a core to place a strand of another. -/
def execPreemption (die core forCtx : Nat) (s : State) : Result :=
  let need := s.wants forCtx
  let short := !s.contextRoom forCtx die core || need.any fun n => s.noLane die core n
  if (s.ctx forCtx).state != 2 || !s.coreUp die core || need.isEmpty || !short || (s.core die core).embUse.isSome then .next s
  else match s.victim die core forCtx with
    | none => .next s
    | some n => .next (s.stopCore n die core)

/-! Saves. -/

/-- First byte of core record i in the save area (R263). -/
def State.recBase (s : State) (ctx i : Nat) : Nat := (s.ctx ctx).save.toNat + 0x80200000 + i * 0x02000000

/-- The pages of a range. -/
def pagesOf (lo n : Nat) : List Nat := if n = 0 then [] else (List.range ((lo + n - 1) / 4096 - lo / 4096 + 1)).map fun i => (lo / 4096 + i) * 4096

/-- The item holds matrix state on a core. -/
def State.matrixOn (s : State) (d c : Nat) (key : Nat × Nat × Nat) : Bool :=
  let x := s.core d c
  (x.tiles.any fun t => t.held == some key) || x.seq.any fun o => o.ctx == key.1 && o.kid == key.2.1 && o.iid == key.2.2

/-- The pages of a core's record for an item's matrix state: the header, and the item's tiles in the accumulator store (R263, R347,
R367). -/
def State.matrixPages (s : State) (d c : Nat) (key : Nat × Nat × Nat) : List Nat :=
  let b := s.recBase key.1 (16 * d + c)
  b :: ((s.core d c).tiles.zipIdx).flatMap fun t => if t.1.held == some key then pagesOf (b + 0x1990000 + 0x4000 * t.2) 0x4000 else []

/-- Where an item's scratchpad lies in the scratchpad region of its core's record: behind those of the items before it. -/
def State.scrPlace (s : State) (d c : Nat) (key : Nat × Nat × Nat) : Nat :=
  (distinct ((s.onCore d c).map fun e => e.2.itemKey)).foldl (fun n k =>
    if keyOf [k.1, k.2.1, k.2.2] < keyOf [key.1, key.2.1, key.2.2] then n + (match s.kernel k.1 k.2.1 with
      | some x => recScr x.record * 256
      | none => 0) else n) 0

/-- The pages of the core record that a strand's save writes (R263): the header, its control record and registers, with the last
strand of its item on the core the item's scratchpad, and with the first the item's matrix state. -/
def State.recPages (s : State) (id : Nat) (st : Strand) (l : Loc) : List Nat :=
  let b := s.recBase st.ctx (16 * l.die + l.core)
  let p := 8 * l.lane + l.place
  let last := !(s.onCore l.die l.core).any fun e => e.1 != id && e.2.itemKey == st.itemKey
  distinct (b :: pagesOf (b + 0x10000 + 8192 * p) 8192 ++ pagesOf (b + 0xC10000 + 8192 * p) (64 * st.alloc) ++
    (if last then pagesOf (b + 0x1810000 + s.scrPlace l.die l.core st.itemKey) (s.scrSize st) else []) ++
    (if s.matrixOn l.die l.core st.itemKey then s.matrixPages l.die l.core st.itemKey else []))

/-- What the writing or reading of pages of the save area by a unit of die d meets. -/
inductive PageStop where
  | ok
  | wait
  | park
  /-- The page lies behind a Failed link (R432). -/
  | lost
  | fault (c : Cause) (lvl va : Nat)

/-- The first page of a list that stops the access. -/
def State.pagesStop (s : State) (d ctx need : Nat) : List Nat → PageStop
  | [] => .ok
  | va :: r => match s.devXlate d ctx va need with
    | .ok pa => if s.linkDead d (homeDie pa) then .lost else if s.heldFrom d pa then .wait else s.pagesStop d ctx need r
    | .park => .park
    | .wait => .wait
    | .fault c lvl => .fault c lvl va

/-- The save of a core's record as a source of batches (R398). -/
def saveSource (kid iid sid d c : Nat) : Source :=
  { src := 2, die := d, core := c, kid := kid, iid := iid, sid := sid, key := keyOf [d, c] }

/-- Writes a part of a context's record of a core, and says whether it is written (R266): once a part has faulted, it and every later
part go to the core's emergency area, which no other record may then use; with the area disabled, the save waits in the fault
batch. -/
def State.saveWrite (s : State) (ctx : Nat) (u : Source) (pages : List Nat) : State × Bool :=
  let x := s.core u.die u.core
  if x.embUse = some ctx then (s, true)
  else if x.embUse.isSome || s.unitWaits ctx 2 u.key then (s, false)
  else match s.pagesStop u.die ctx kWrite pages with
    | .ok => (s, true)
    | .lost => (s.ctxEvent ctx 1, true)
    | .wait => (s, false)
    | .park => (s.unitPark ctx u, false)
    | .fault c lvl va =>
      let s := s.unitBatch ctx u (faultEntry va c lvl kWrite)
      if nth 0 (s.die u.die).emb u.core = 0 then (s, false)
      else
        let s := s.modCtx ctx fun x => { x with
          spill := true, retries := x.retries ++ [(x.lastBatch, .save (16 * u.die + u.core) va)] }
        (s.modCore u.die u.core fun x => { x with embUse := some ctx }, true)

/-- An item's matrix operations and tiles leave a core (R347, R367); what the operations have captured stays captured (R378). -/
def State.saveItem (s : State) (d c : Nat) (key : Nat × Nat × Nat) (pages : List Nat) : State :=
  if !s.matrixOn d c key then s
  else
    let x := s.core d c
    let mine (o : MatOp) : Bool := o.ctx == key.1 && o.kid == key.2.1 && o.iid == key.2.2
    let ops := x.seq.filter mine
    let tiles := (x.tiles.zipIdx).filterMap fun t => if t.1.held = some key then some (t.2, t.1) else none
    let s := s.modCore d c fun x => { x with
      seq := x.seq.filter fun o => !mine o, tiles := x.tiles.map fun t => if t.held = some key then t.release else t }
    s.modItem key.1 key.2.1 key.2.2 fun it => { it with
      savedTiles := it.savedTiles ++ tiles, savedPages := it.savedPages ++ pages,
      savedOps := it.savedOps ++ ops.map fun o => { o with started := false, hit := false } }

/-- A matrix operation of the item that is no loop runs on the core: a save waits for it (R367). -/
def State.matrixRuns (s : State) (d c : Nat) (key : Nat × Nat × Nat) : Bool :=
  match (s.core d c).seq with
  | o :: _ => o.started && o.ctx == key.1 && o.kid == key.2.1 && o.iid == key.2.2 && (match o.kind with
    | .mloop _ _ _ _ => false
    | _ => true)
  | [] => false

/-- Contexts whose matrix state on a core is to be saved: those that a pre-emption names, and those that do not run. -/
def State.savingOn (s : State) (d c : Nat) : List Nat :=
  distinct ((s.core d c).saving ++ ((s.core d c).tiles.filterMap fun t => t.held.map (·.1)).filter fun n =>
    decide ((s.ctx n).state = 3) || decide ((s.ctx n).state = 4))

/-- The matrix state that items of a context hold on a core with no strand of theirs there is saved (R258). -/
def State.saveTiles (s : State) (d c n : Nat) : State :=
  let here := s.onCore d c
  let keys := distinct ((s.core d c).tiles.filterMap (·.held) ++ (s.core d c).seq.map fun o => (o.ctx, o.kid, o.iid))
  let s := (keys.filter fun k => k.1 == n && !here.any (fun e => e.2.itemKey == k)).foldl (fun s k =>
    if s.matrixRuns d c k then s
    else
      let ps := s.matrixPages d c k
      match s.saveWrite n (saveSource k.2.1 k.2.2 0 d c) ps with
      | (s, true) => s.saveItem d c k ps
      | (s, false) => s) s
  if (s.onCore d c).any (fun e => e.2.ctx == n) || (s.residents d c).contains n then s
  else s.modCore d c fun x => { x with saving := x.saving.filter (· != n) }

/-- Saves of matrix state that are due (R258). -/
def State.saveMatrix (s : State) : State :=
  if s.dies.all fun d => d.cores.all fun c => c.saving.isEmpty && c.tiles.all fun t => t.held.isNone then s
  else ([0, 1, 2] : List Nat).foldl (fun s d => (List.range 16).foldl (fun s c =>
    (s.savingOn d c).foldl (fun s n => s.saveTiles d c n) s) s) s

/-- What a strand's save waits for: its accesses, exact sums, samples and table loads (R212, R213), a matrix operation of its
item that is running and is no loop (R367), and, in a discard, everything in flight. -/
def State.saveWaits (s : State) (st : Strand) : Bool :=
  decide (0 < st.cnt 0) || decide (0 < st.cnt 1) || decide (0 < st.cnt 5) ||
  st.ops.any (fun o => match o.kind with
    | .dtld _ _ _ => !o.fin
    | _ => false) ||
  s.matrixRuns st.d st.k st.itemKey ||
  (st.doomed && !st.ops.isEmpty)

/-- The strand as its record holds it (R79, R259, R260, R264): its lane lets go of it and a held request is withdrawn. -/
def Strand.packed (st : Strand) (l : Loc) (pages : List Nat) : Strand :=
  { st.allReady with
    loc := none, saved := some l, savedPages := pages, stop := false, hold := none, stalled := false, walkParked := false,
    spin := Spin.empty, runCount := 0, lastCore := 16 * l.die + l.core,
    run := match st.run with
      | .running => .ready
      | r => r }

/-- STRAND_SAVE (R258, R259, R262, R266): a stopped strand is saved, or discarded where it is doomed. The save is complete when all
that the strand wrote is performed at package scope (R246, R259). -/
def execStrandSave (strand : Nat) (s : State) : Result :=
  match s.strand strand with
  | none => .next s
  | some st =>
    match st.loc with
    | none => if st.doomed then .next (s.discard strand) else .next s
    | some l =>
      if !st.stop || st.ahead.isSome || s.saveWaits st then .next s
      else if st.doomed then .next ((s.discard strand).payOwed st.ctx)
      else
        let s := s.release l.die l.core 4 true
        if s.copiesWait l.die then .next s
        else
          let pages := s.recPages strand st l
          match s.saveWrite st.ctx (saveSource st.kid st.iid st.sid l.die l.core) pages with
          | (s, false) => .next s
          | (s, true) =>
            let s := (s.leaveLane strand st).putStrand strand (st.packed l pages)
            let s := s.modCore l.die l.core fun x => { x with shutq := x.shutq.filter fun q => q.1 != strand }
            .next ((s.saveItem l.die l.core st.itemKey []).payOwed st.ctx)

/-- A core's emergency area holds nothing more of a context: SPILL clears with the last one (R266). -/
def State.freeEmb (s : State) (ctx i : Nat) : State :=
  let s := s.modCore (i / 16) (i % 16) fun x => if x.embUse = some ctx then { x with embUse := none } else x
  let any := s.dies.any fun d => d.cores.any fun x => x.embUse == some ctx
  s.modCtx ctx fun x => { x with spill := any }

/-! Restores. -/

/-- The group rule of R324 for strands that are placed together on a core: with a resident member, its die and at most four cores;
otherwise room on the new die for every record that comes with them. -/
def State.groupsAllow (s : State) (ids : List (Nat × Strand)) (d c : Nat) : Bool :=
  let gs := distinct (ids.flatMap fun e => e.2.slots.filterMap id)
  let others (g : Nat) : List (Nat × Nat) := match s.groupOf g with
    | some x => (x.members.filter fun m => !ids.any fun e => e.1 == m).filterMap s.posOf
    | none => []
  let come := gs.filter fun g => (s.groupOf g).isSome && (tget (s.die d).groups g).isNone
  (gs.all fun g => (others g).isEmpty ||
    (others g).all (fun p => p.1 == d) && decide ((distinct ((d, c) :: others g)).length ≤ 4)) &&
  decide (come.length + (s.die d).groups.length ≤ 2048)

/-- The records of a restored strand's groups move to its die (R324). -/
def State.moveGroups (s : State) (st : Strand) (d : Nat) : State :=
  (st.slots.filterMap (·)).foldl (fun s g =>
    match s.groupOf g with
    | none => s
    | some x =>
      if (tget (s.die d).groups g).isSome then s
      else (s.dropGroup g).modDie d fun y => { y with groups := tput y.groups g x }) s

/-- The item's rule for a restored strand: with a resident strand of an item that does not span, that core; of one that spans,
that die and at most four cores; an M-role strand joins its item's M-role strands (R262, R286, R347). -/
def State.itemAllows (s : State) (id : Nat) (st : Strand) (d c : Nat) : Bool :=
  let mates := s.strands.filter fun e => e.1 != id && e.2.itemKey == st.itemKey && e.2.resident
  let cs := distinct ((d, c) :: mates.map fun e => (e.2.d, e.2.k))
  let span := match s.kernelOf st with
    | some k => attrSpan k.record
    | none => false
  decide ((distinct (cs.map (·.1))).length = 1) && decide (cs.length ≤ if span then 4 else 1) &&
  (st.role != 1 || mates.all fun e => e.2.role != 1 || (e.2.d == d && e.2.k == c))

/-- The strand takes its item's saved matrix state with it: the M-role strands do, or any strand when the item has no M-role strand
left to run (R347, R367). -/
def State.takesItem (s : State) (st : Strand) : Bool :=
  st.role == 1 || !s.strands.any fun e => e.2.itemKey == st.itemKey && e.2.role == 1 && e.2.run != .exited

/-- The core has the item's tile numbers free and room in its queue (R347). -/
def State.tilesAllow (s : State) (st : Strand) (d c : Nat) : Bool :=
  match s.itemOf st with
  | some it =>
    !s.takesItem st || (it.savedTiles.all (fun t => (nth Tile.free (s.core d c).tiles t.1).held.isNone) &&
      decide ((s.core d c).seq.length + it.savedOps.length ≤ 16))
  | none => false

/-- The item's saved tiles and matrix operations go to a core with its M-role strands (R347, R367). -/
def State.restoreItem (s : State) (st : Strand) (d c : Nat) : State :=
  match s.itemOf st with
  | some it =>
    if !s.takesItem st || (it.savedTiles.isEmpty && it.savedOps.isEmpty) then s
    else
      let s := s.modCore d c fun x => { x with
        tiles := it.savedTiles.foldl (fun l t => upd l t.1 t.2) x.tiles, seq := x.seq ++ it.savedOps }
      s.modItem st.ctx st.kid st.iid fun it => { it with savedTiles := [], savedOps := [], savedPages := [] }
  | none => s

/-- The strand lies in this core record of the context. -/
def Strand.inRecord (st : Strand) (ctx : Nat) (l : Loc) : Bool := st.ctx == ctx && match st.saved with
  | some p => p.die == l.die && p.core == l.core
  | none => false

/-- The record that holds a strand is read: every strand in it is then held by the dispatcher, and an emergency area that
holds it is free (R262, R266). -/
def State.readRecord (s : State) (ctx : Nat) (l : Loc) : State :=
  let i := 16 * l.die + l.core
  let unsaved (e : Nat × Strand) : Nat × Strand :=
    if e.2.inRecord ctx l then (e.1, { e.2 with saved := none, savedPages := [] }) else e
  let s := { s with strands := s.strands.map unsaved }
  let s := s.modCtx ctx fun x => { x with retries := x.retries.filter fun r => match r.2 with
    | .save j _ => j != i
    | _ => true }
  s.freeEmb ctx i

/-- The pages that the restore of a strand reads on a core: its record whole, and its item's matrix state where that was saved
apart; an emergency area is read directly (R262, R266). -/
def State.restorePages (s : State) (st : Strand) : List Nat :=
  (match st.saved with
    | some l => if (s.core l.die l.core).embUse = some st.ctx then []
      else distinct (s.strands.flatMap fun e => if e.2.inRecord st.ctx l then e.2.savedPages else [])
    | none => []) ++
  (match s.itemOf st with
    | some it => if s.takesItem st then it.savedPages else []
    | none => [])

/-- The reads of a restore, and whether they have been made (R262, R399). -/
def State.restoreRead (s : State) (st : Strand) (d c : Nat) : State × Bool :=
  let u := readSource st.kid st.iid st.sid d c []
  if s.unitWaits st.ctx 3 u.key then (s, false)
  else match s.pagesStop d st.ctx kRead (s.restorePages st) with
    | .ok => (s, true)
    | .lost => (s.ctxEvent st.ctx 1, false)
    | .wait => (s, false)
    | .park => (s.unitPark st.ctx u, false)
    | .fault ca lvl va => (s.unitBatch st.ctx u (faultEntry va ca lvl kRead), false)

/-- A decode operation takes the slot version of the core on which it goes on (R218, R262). -/
def Op.rebase (o : Op) (x : Core) : Op :=
  match o.kind with
  | .decode d => { o with kind := .decode { d with version := (x.dslot d.slot).issued } }
  | _ => o

/-- One strand of a restore is on its lane (R262, R342): a wait keeps its place in the orders of waits, and shuttle operations join
their new core's. -/
def State.restoreOne (s : State) (id : Nat) (st : Strand) (l : Loc) : State :=
  let d := l.die
  let c := l.core
  let s := (s.settleIn st.ctx l).moveGroups st d
  let s := if st.lastCore = 16 * d + c then s else s.acquire d c (if st.lastCore / 16 = d then 3 else 4) true
  let x := s.core d c
  let shuts := st.ops.filterMap fun o => match o.kind with
    | .shut _ => if o.fin then none else some (id, o.id)
    | _ => none
  let s := s.putStrand id { st with
    loc := some l, saved := none, savedPages := [], placedAt := s.seqNo, waitCount := 0, ops := st.ops.map fun o => o.rebase x,
    run := if st.run = .faulted ∧ st.resolved then .ready else st.run,
    resolved := if st.run = .faulted then false else st.resolved }
  (s.modCore d c fun x => { x with shutq := x.shutq ++ shuts }).drained id

/-- The strands that a restore places together are right: one alone, or with an M-role strand every M-role strand of its item, on one
core (R262, R347). -/
def State.matesOk (s : State) (st : Strand) (all : List (Nat × Strand × Loc)) : Bool :=
  decide ((distinct (all.map (·.1))).length = all.length) &&
  if st.role != 1 then decide (all.length = 1)
  else
    all.all (fun e => e.2.1.role == 1 && e.2.1.itemKey == st.itemKey && some (e.2.2.die, e.2.2.core) == all.head?.map fun p => (p.2.2.die, p.2.2.core)) &&
    s.strands.all fun e => e.2.itemKey != st.itemKey || e.2.role != 1 || e.2.run == .exited || all.any fun p => p.1 == e.1

/-- The strand may be restored. -/
def Strand.restorable (st : Strand) : Bool := st.loc.isNone && st.run != .exited && st.run != .pending && !st.doomed

/-- STRAND_RESTORE (R262): the dispatcher places a saved strand, an M-role strand together with its mates (R347). -/
def execStrandRestore (strand : Nat) (place : Restoring) (s : State) : Result :=
  match s.strand strand, (((strand, place.loc) :: place.mates).mapM fun p => (s.strand p.1).map fun st => (p.1, st, p.2)) with
  | some st, some all =>
    let d := place.loc.die
    let c := place.loc.core
    let first := !(s.onCore d c).any fun e => e.2.itemKey == st.itemKey
    let scr := match s.kernelOf st with
      | some k => recScr k.record * 256
      | none => 0
    let ok := (s.ctx st.ctx).state == 2 && all.all (fun e => e.2.1.restorable && s.itemAllows e.1 e.2.1 d c) && s.matesOk st all &&
      !((s.ctx st.ctx).replay && s.dies.any fun x => x.parked.any fun p => p.ctx == st.ctx) &&
      s.placesFree (all.map fun e => (e.2.2, e.2.1.alloc)) && s.contextRoom st.ctx d c &&
      s.groupsAllow (all.map fun e => (e.1, e.2.1)) d c && s.tilesAllow st d c && (!first || decide (s.scrUsed d c + scr ≤ scratchSize))
    if !ok then .next s
    else
      let r := all.foldl (fun q e =>
        let a := q.1.restoreRead e.2.1 d c
        (a.1, q.2 && a.2)) (s, true)
      if !r.2 then .next r.1
      else
        let (s, ready) := r.1.prepareCores
          [{ load := none, ctx := st.ctx, kid := st.kid, iid := st.iid, sid := st.sid, die := d, core := c }]
        if !ready then .next s
        else
          let s := all.foldl (fun s e => match e.2.1.saved with
            | some l => s.readRecord st.ctx l
            | none => s) s
          let s := s.modCtx st.ctx fun x => { x with replay := false }
          let s := { s with seqNo := s.seqNo + 1 }
          let s := s.restoreItem st d c
          .next (all.foldl (fun s e => s.restoreOne e.1 e.2.1 e.2.2) s)
  | _, _ => .next s

end Sys2Proof.Machine
end

