-- ==== Sys2Proof/Machine/Net.lean ====
section
/-! DEFINITION. The network (R10 to R14, R425 to R427, R433, R454 to R456): where units join the mesh, routes, the modules of a
link, messages with their tags and their order. -/

namespace Sys2Proof.Machine

/-! Positions. -/

/-- The neighbour of mesh tile m on a side: North 0, East 1, South 2, West 3 (R451). -/
def nbr (m side : Nat) : Option Nat :=
  match side with
  | 0 => if m / 6 < 3 then some (m + 6) else none
  | 1 => if m % 6 < 5 then some (m + 1) else none
  | 2 => if 1 ≤ m / 6 then some (m - 6) else none
  | _ => if 1 ≤ m % 6 then some (m - 1) else none

/-- What joins the mesh at its edge (R11). -/
inductive Attach where
  /-- The application cores and the coherent host interface. -/
  | host
  /-- The darning unit and the display engine. -/
  | darning
  | tension
  /-- The queue manager and the security controller. -/
  | manager
  /-- Memory controllers 0 to 3. -/
  | memory (n : Nat)
  /-- A module of a Skovlink port: A 0, B 1. -/
  | skovlink (port module : Nat)
  deriving DecidableEq, Repr

/-- The router of an attachment (R11). -/
def Attach.router : Attach → Nat
  | .host => 0
  | .darning => 1
  | .tension => 4
  | .manager => 5
  | .memory n => 2 + n / 2 % 2 + 18 * (n % 2)
  | .skovlink p m => 5 * p + 12 * m

/-- The router of its second port: beside the first, towards column 2 or 3 (R454). -/
def Attach.second (a : Attach) : Option Nat := match a with
  | .skovlink _ _ => none
  | _ => let r := a.router
    some (if r % 6 < 3 then r + 1 else r - 1)

/-- The router by which an attachment reaches the mesh now (R454). -/
def Die.attach (x : Die) (a : Attach) : Option Nat := (a.router :: a.second.toList).find? fun m => (x.tile m).up

/-! Links. -/

/-- The link at a die's port A or B (R13). -/
def portLink (die port : Nat) : Nat :=
  match die, port with
  | 0, 0 => 0
  | 0, _ => 2
  | 1, 0 => 0
  | 1, _ => 1
  | _, 0 => 2
  | _, _ => 1

/-- The two ends of a link, as die and port (R13). -/
def linkEnds (link : Nat) : List (Nat × Nat) :=
  match link with
  | 0 => [(0, 0), (1, 0)]
  | 1 => [(1, 1), (2, 1)]
  | _ => [(0, 1), (2, 0)]

/-- A module of a link works: the routers at both its ends do (R454). -/
def State.moduleUp (s : State) (link k : Nat) : Bool :=
  (linkEnds link).all fun e => ((s.die e.1).tile (Attach.skovlink e.2 k).router).up

/-- The port of a die that faces another. -/
def portTo (d e : Nat) : Nat := if portLink d 0 = linkOf d e then 0 else 1

/-! Routes. -/

/-- The numbers from a to b. -/
def fromTo (a b : Nat) : List Nat := if a ≤ b then (List.range (b - a + 1)).map (a + ·) else (List.range (a - b + 1)).map (a - ·)
/-- The tiles of a route along the row and then along the column (R426), and of one along the column first (R454). -/
def rowFirst (a b : Nat) : List Nat :=
  (fromTo (a % 6) (b % 6)).map (fun c => 6 * (a / 6) + c) ++ (fromTo (a / 6) (b / 6)).map fun r => 6 * r + b % 6
def columnFirst (a b : Nat) : List Nat :=
  (fromTo (a / 6) (b / 6)).map (fun r => 6 * r + a % 6) ++ (fromTo (a % 6) (b % 6)).map fun c => 6 * (b / 6) + c

/-- The route between two tiles of a die: the first of the two that crosses no fenced tile; with none of them the detour table
decides, whose routes the manual does not give (R426, R454). -/
def Die.route (x : Die) (a b : Nat) : Option (List Nat) :=
  [rowFirst a b, columnFirst a b].find? fun l => l.all fun m => m == a || m == b || (x.tile m).up

/-- The die of an address, and its tile there: a mesh tile, or the router of a queue manager. -/
def addrDie (n : Nat) : Nat := if n < 72 then n / 24 else (n - 72) % 3
def State.addrTile (s : State) (n : Nat) : Nat := if n < 72 then n % 24 else ((s.die (addrDie n)).attach .manager).getD 5

/-- The module that a message between dies uses (R426): that of its source's number, or the other one while its routers do not both
work (R454). -/
def State.moduleFor (s : State) (m : Msg) : Nat :=
  let n := match tileCore (m.src % 24), tileSlice (m.src % 24) with
    | some c, _ => c
    | none, some k => k
    | none, none => 0
  let k := if m.src < 72 then n % 2 else 0
  if s.moduleUp (linkOf (addrDie m.src) (addrDie m.dst)) k then k else 1 - k

/-- The parts of a message's way on the dies that it crosses: die, first and last tile. -/
def State.legs (s : State) (m : Msg) : List (Nat × Nat × Nat) :=
  let d := addrDie m.src
  let e := addrDie m.dst
  if d = e then [(d, s.addrTile m.src, s.addrTile m.dst)]
  else
    let k := s.moduleFor m
    [(d, s.addrTile m.src, (Attach.skovlink (portTo d e) k).router), (e, (Attach.skovlink (portTo e d) k).router, s.addrTile m.dst)]

/-- The message's route passes the router of a tile; one that the detour table gives may pass any. -/
def State.passes (s : State) (d t : Nat) (m : Msg) : Bool :=
  (s.legs m).any fun g => g.1 == d && match (s.die d).route g.2.1 g.2.2 with
    | some l => l.contains t
    | none => (s.die d).tile t |>.up

/-- The message's route without detours passes a router that does not work. -/
def State.crossesFenced (s : State) (m : Msg) : Bool :=
  (s.legs m).any fun g => (rowFirst g.2.1 g.2.2).any fun t => !((s.die g.1).tile t).up

/-! Order (R427). -/

/-- Two messages of one class from one source to one destination. -/
def Msg.sameWay (a b : Msg) : Bool := a.cls == b.cls && a.src == b.src && a.dst == b.dst

/-- No message of its class, source and destination is older. -/
def State.isOldest (s : State) (m : Msg) : Bool := match s.msgs.find? m.sameWay with
  | some q => q.id == m.id
  | none => false

/-- The mesh ports to a fenced destination are closed (R454). -/
def State.portOpen (s : State) (m : Msg) : Bool := decide (72 ≤ m.dst) || ((s.die (m.dst / 24)).tile (m.dst % 24)).up

/-- The message with this content that may arrive: in transit, the oldest of its way, over a link that is Active. -/
def State.arriving (s : State) (b : MsgBody) : Option Msg := s.msgs.find? fun m =>
  m.body == b && m.status == 0 && s.isOldest m && s.portOpen m && (m.dst == 75 || s.linkUp (addrDie m.src) (addrDie m.dst))

/-- The message has been applied and acknowledged (R456). -/
def State.gone (s : State) (m : Msg) : State := { s with msgs := s.msgs.filter fun q => q.id != m.id }

/-- A context is told of what a Failed link lost (R432). -/
def State.loseFor (s : State) (ctx : Nat) : State :=
  if s.lostCtx.contains ctx then s else { s with lostCtx := s.lostCtx ++ [ctx] }

/-- The mesh tile of the slice that serves a virtual address; no tile where it has no translation. -/
def State.sliceOfVa (s : State) (d ctx va : Nat) : Nat :=
  match s.devXlate d ctx va kWrite with
  | .ok pa => 24 * homeDie pa + sliceTile (s.servingAt (homeDie pa) (lineOf pa))
  | _ => 75

end Sys2Proof.Machine
end

