-- ==== Sys2Proof/Machine/Queue.lean ====
section
/-! DEFINITION. Queues (R294 to R304): records, their placement and delivery, EMIT, TAKE, QCLOSE, host appends and the
queue commands. -/

namespace Sys2Proof.Machine

/-- A queue's record, and a change of it. -/
def State.queue (s : State) (q : Nat) : Queue := (tget s.queues q).getD Queue.free
def State.modQueue (s : State) (q : Nat) (g : Queue → Queue) : State :=
  { s with queues := tput s.queues q (g (s.queue q)) }

/-- CAPLOG as a capacity, M and the owner of QCTL (R294). -/
def Queue.cap (q : Queue) : Nat := 2 ^ (nbits q.ctl.toNat 16 3 + 6)
def Queue.weight (q : Queue) : Nat := nbits q.ctl.toNat 12 4
def Queue.owner (q : Queue) : Nat := nbits q.ctl.toNat 0 12
/-- The part of a die. -/
def Queue.part (q : Queue) (d : Nat) : List QRec := nth [] q.parts d
/-- No part holds a record. -/
def Queue.isEmpty (q : Queue) : Bool := q.parts.all (·.isEmpty)

/-- The fields of a record (R296). -/
def qHome (r : List Byte) : Nat := recField r 0 8
def qRegion (r : List Byte) : Nat := recField r 8 2
def qSeq (r : List Byte) : Nat := recField r 10 2
def qRv (r : List Byte) : Bool := nbits (recField r 12 1) 4 1 == 1
def qFoot (r : List Byte) : Nat := nbits (recField r 12 1) 0 4

/-- How far a region record lies ahead of its region's expected number (R301). -/
def Queue.ahead (q : Queue) (r : List Byte) : Nat := (qSeq r + 65536 - (tget q.expect (qRegion r)).getD 0) % 65536

/-- A malformed record (R297). -/
def Queue.badRec (q : Queue) (r : List Byte) : Bool :=
  decide (32 ≤ recField r 12 1) || recField r 13 3 != 0 || decide (2 ^ 48 ≤ qHome r) ||
    (qRv r && decide (32768 ≤ q.ahead r))

/-! Placement. -/

/-- The home die of a record (R298): none without a present translation. -/
def State.qHomeDie (s : State) (ctx : Nat) (r : List Byte) : Option Nat :=
  if qHome r = 0 then none
  else match s.devXlate 3 ctx (qHome r) 0 with
    | .ok pa => some (homeDie pa)
    | _ => none

/-- The cost of a die (R298). -/
def Queue.cost (q : Queue) (home : Option Nat) (r : List Byte) (d : Nat) : Nat :=
  (q.part d).length + match home with
    | some h => if h = d then 0 else q.weight * qFoot r
    | none => 0

/-- The cheapest of the dies that a test admits: ties go to the home die, then to the lowest (R298). -/
def Queue.cheapest (q : Queue) (home : Option Nat) (r : List Byte) (p : Nat → Bool) : Option Nat :=
  let ds := match home with
    | some h => h :: [0, 1, 2].filter (· != h)
    | none => [0, 1, 2]
  (ds.filter p).foldl (fun b d => match b with
    | none => some d
    | some e => if q.cost home r d < q.cost home r e then some d else some e) none

/-- The part that takes a record; none where it is refused (R298). -/
def State.qChoose (s : State) (q : Queue) (r : List Byte) : Option Nat :=
  let room (d : Nat) : Bool := s.computing d && decide ((q.part d).length < q.cap)
  match (if qRv r then tget q.bound (qRegion r) else none) with
  | some d => if (q.part d).length < q.cap then some d else none
  | none => q.cheapest (s.qHomeDie q.owner r) r room

/-! The record buffer (R295). -/

/-- First byte of a record's place in its part. -/
def Queue.place (q : Queue) (d slot : Nat) : Nat := q.buf.toNat + (d * q.cap + slot) * 64

/-- The page of a record's place as a source of batches (R295, R398). -/
def Queue.source (q : Queue) (qn d slot : Nat) : Source :=
  { src := 4, die := d, core := 0, kid := 0, iid := 0, sid := 0, key := keyOf [qn, q.place d slot / 4096] }

/-- A record that a die may now store: it is there, or waits for its page. -/
def State.qStore (s : State) (qn d : Nat) (r : QRec) : State × QRec :=
  let q := s.queue qn
  let (s, ok) := s.pageReady q.owner (q.source qn d r.slot) (q.place d r.slot) kWrite
  (s, { r with wait := if ok then 0 else 2 })

/-- Every record of a part that waits for its page is tried again. -/
def State.qRetry (s : State) (qn d : Nat) : State :=
  let (s, l) := ((s.queue qn).part d).foldl (fun (a : State × List QRec) r =>
    if r.wait = 2 then
      let (s, r) := a.1.qStore qn d r
      (s, a.2 ++ [r])
    else (a.1, a.2 ++ [r])) (s, [])
  s.modQueue qn fun q => { q with parts := upd q.parts d l }

/-- The queues of a context try their waiting records again; one whose source waits for its batch or a parked walk goes on waiting
(R295, R399). -/
def State.qRetryAll (s : State) (ctx : Nat) : State :=
  s.queues.foldl (fun s e => if e.2.owner = ctx then ((s.qRetry e.1 0).qRetry e.1 1).qRetry e.1 2 else s) s

/-- Writes a quarantined record (R295). -/
def State.qPutBad (s : State) (ctx va : Nat) (r : List Byte) : State :=
  match s.devXlate 3 ctx va kWrite with
  | .ok pa => s.devPuts pa r ctx
  | .wait => s.modCtx ctx fun x => { x with retries := x.retries ++ [(slowRetry, .quar va r)] }
  | .park => s.modCtx ctx fun x => { x with retries := x.retries ++ [(parkedRetry, .quar va r)] }
  | .fault c lvl =>
    let s := s.openDeviceBatch ctx 4 0 0 0 (faultEntry va c lvl kWrite)
    s.modCtx ctx fun x => { x with retries := x.retries ++ [(x.lastBatch, .quar va r)] }

/-- A count that holds at its maximum (R294). -/
def holdInc (n : Nat) : Nat := min (n + 1) 0xFFFFFFFF

/-- One record is offered by a source die (R297, R298, R299): 0 queued, 1 quarantined, 2 refused. -/
def State.qOffer (s : State) (qn src : Nat) (r : List Byte) : State × Nat :=
  let q := s.queue qn
  if q.state ≠ 1 then (s, 2)
  else if q.badRec r then
    let va := q.buf.toNat + 3 * q.cap * 64 + 64 * q.ring
    ((s.qPutBad q.owner va r).modQueue qn fun q => { q with qcnt := holdInc q.qcnt, ring := (q.ring + 1) % 16 }, 1)
  else match s.qChoose q r with
    | none => (s, 2)
    | some d =>
      let rec0 : QRec :=
        { bytes := r, src := src, slot := Config.queueSlot ((q.part d).map (·.slot)) % q.cap, wait := 1 }
      let (s, e) := if d = src then s.qStore qn d rec0
        else (s.send 3 (72 + src) (72 + d) (.queueRec qn src d), rec0)
      (s.modQueue qn fun q => { q with
        parts := modAt q.parts d (· ++ [e]),
        bound := if qRv r then tput q.bound (qRegion r) d else q.bound }, 0)

/-! Delivery. -/

/-- The record may be delivered (R301). -/
def Queue.deliverable (q : Queue) (r : QRec) : Bool := r.wait == 0 && (!qRv r.bytes || q.ahead r.bytes == 0)

/-- The first deliverable record of a part whose page can be read: its position. A record whose page is gone waits. -/
def State.qFirst (s : State) (qn d : Nat) : State × Option Nat :=
  ((s.queue qn).part d).zipIdx.foldl (fun (a : State × Option Nat) p =>
    match a.2 with
    | some _ => a
    | none =>
      let q := a.1.queue qn
      if !q.deliverable p.1 then a
      else
        let (s, ok) := a.1.pageReady q.owner (q.source qn d p.1.slot) (q.place d p.1.slot) kRead
        if ok then (s, some p.2)
        else (s.modQueue qn fun q => { q with parts := modAt q.parts d fun l => upd l p.2 { p.1 with wait := 2 } }, none))
    (s, none)

/-- A region has no record in any part (R299). -/
def Queue.regionGone (q : Queue) (region : Nat) : Bool :=
  q.parts.all fun l => l.all fun r => !qRv r.bytes || qRegion r.bytes != region

/-- A record leaves its part by delivery: the region's expected number advances, an empty region is unbound, and the last
record of a Closed queue drains it (R299, R301, R304). -/
def Queue.deliver (q : Queue) (d i : Nat) : Queue :=
  match (q.part d)[i]? with
  | none => q
  | some r =>
    let q := { q with parts := modAt q.parts d fun l => l.eraseIdx i }
    let g := qRegion r.bytes
    let q := if qRv r.bytes then
        { q with
          expect := tput q.expect g (((tget q.expect g).getD 0 + 1) % 65536),
          bound := if q.regionGone g then tdel q.bound g else q.bound }
      else q
    if q.state = 2 ∧ q.isEmpty then { q with state := 3 } else q

/-- The record that a TAKE of die d receives next: its own die's part first, then the others that its links reach (R14, R302). -/
def State.qNext (s : State) (qn d : Nat) : State × Option (List Byte) :=
  (d :: [0, 1, 2].filter fun e => e != d && s.computing e && s.linkUp d e).foldl (fun (a : State × Option (List Byte)) e =>
    match a.2 with
    | some _ => a
    | none => match a.1.qFirst qn e with
      | (s, none) => (s, none)
      | (s, some i) =>
        let r := match ((s.queue qn).part e)[i]? with
          | some r => r.bytes
          | none => []
        (s.modQueue qn fun q => q.deliver e i, some r)) (s, none)

/-- The queue, as a strand's context sees it, is Open (R302). -/
def State.qOpen (s : State) (qn ctx : Nat) : Bool := (s.queue qn).state == 1 && (s.queue qn).owner == ctx

/-- A deliverable record lies behind a link that retrains (R14). -/
def State.takeSlow (s : State) (qn d : Nat) : Bool :=
  [0, 1, 2].any fun e => s.computing e && s.linkSlow d e && ((s.queue qn).part e).any (s.queue qn).deliverable

/-- TAKE's deliveries to the threads of m in ascending order; none while it must wait (R302). -/
def State.takeTry (s : State) (st : Strand) (d qn c : Nat) (m : Mask) : State × Option Strand :=
  let own := (s.queue qn).owner == st.ctx
  let (s1, st1, got) := if !own then (s, st, (0 : Mask)) else
    (threads m).foldl (fun (a : State × Strand × Mask) t =>
      match a.1.qNext qn st.d with
      | (s, some r) =>
        (s, a.2.1.vputs d t ((List.range 16).map fun k => BitVec.ofNat 32 (recField r (4 * k) 4)), a.2.2 ||| (1#16 <<< t))
      | (s, none) => (s, a.2.1, a.2.2)) (s, st, 0)
  let q := s1.queue qn
  if got = 0 ∧ own ∧ (q.state = 1 ∨ s1.takeSlow qn st.d) then (s1, none)
  else
    let ended := own && decide (2 ≤ q.state) && q.isEmpty
    (s1, some (st1.sset c (got.zeroExtend 32 ||| (if ended then 0x10000 else 0))))

/-! Instructions. -/

/-- A queue number above 255 (R302). -/
def queuePre (f : LFields) (st : Strand) (m : Mask) : Option Nat := if m ≠ 0 ∧ 255 < st.arg f.a then some 0 else none

/-- The 64-byte record of a thread in 16 registers (R302). -/
def Strand.record (st : Strand) (b t : Nat) : List Byte :=
  (List.range 16).flatMap fun k => leBytes 4 (st.vget (b + k) t).toNat

/-- EMIT (R302): a release at package scope orders the strand's accesses before the records (R232). -/
def execEmit (f : LFields) (s : State) : Result :=
  let i : Instr := .emit f
  let sp := rowOf i
  match issue i sp f (queuePre f) s with
  | .out o => o
  | .go x =>
    let st := x.st
    if x.adm = 0 then .next (s.finish x sp f 8 st)
    else if s.relBlocked st then .next (s.holdOn x (.emit f))
    else
      let qn := st.arg f.a
      let s := (s.relAct st 4).commit st
      let (s, d) := (threads x.adm).foldl (fun (a : State × Word) t =>
        if !a.1.qOpen qn st.ctx then a
        else match a.1.qOffer qn st.d (st.record f.b.toNat t) with
          | (s, 0) => (s, a.2 ||| (1#32 <<< t))
          | (s, 1) => (s, a.2 ||| (1#32 <<< (16 + t)))
          | (s, _) => (s, a.2)) (s, 0)
      .next (s.finish x sp f 8 (st.sset (f.d.toNat - 0x80) d))

/-- TAKE (R302): an acquire at package scope. -/
def execTake (f : LFields) (s : State) : Result :=
  let i : Instr := .take f
  let sp := rowOf i
  match issue i sp f (queuePre f) s with
  | .out o => o
  | .go x =>
    let st := x.st
    if x.adm = 0 then .next (s.finish x sp f 8 st)
    else
      let qn := st.arg f.a
      let c := f.c.toNat - 0x80
      match (s.commit st).takeTry st f.d.toNat qn c x.adm with
      | (s, some st) => .next ((s.acqAct st 4).finish x sp f 8 st)
      | (s, none) =>
        if (s.queue qn).state = 1 then .next (s.enterWait x st sp f 8 (.take f.d.toNat qn c x.adm))
        else .next (s.holdOn x (.take f))

/-- Closes an Open queue; the delivery of its last record will drain it (R304). -/
def Queue.close (q : Queue) : Queue := if q.state = 1 then { q with state := 2 } else q

/-- QCLOSE (R302). -/
def execQclose (f : LFields) (s : State) : Result :=
  let i : Instr := .qclose f
  let sp := rowOf i
  match issue i sp f (queuePre f) s with
  | .out o => o
  | .go x =>
    if x.adm = 0 then .next (s.finish x sp f 8 x.st)
    else
      let qn := x.st.arg f.a
      let s := s.commit x.st
      .next ((if s.qOpen qn x.st.ctx then s.modQueue qn Queue.close else s).finish x sp f 8 x.st)

/-! Commands, appends and arrivals. -/

/-- A queue's consumer is launched as an append of its owner (R304). -/
def State.launchCons (s : State) (ctx ptr : Nat) : State :=
  match s.homeRead 0 (devTr 0 ctx) ptr 8 with
  | (s, .ok r) => s.appendLaunch ctx r
  | (s, .bad c) => s.logAppend ctx c 0
  | (s, .fault c lvl va) =>
    let s := s.openDeviceBatch ctx 5 0 0 0 (faultEntry va c lvl kRead)
    s.modCtx ctx fun x => { x with retries := x.retries ++ [(x.lastBatch, .cons ptr)] }
  | (s, .park) => s.modCtx ctx fun x => { x with retries := x.retries ++ [(parkedRetry, .cons ptr)] }
  | (s, .wait) => s.modCtx ctx fun x => { x with retries := x.retries ++ [(slowRetry, .cons ptr)] }

/-- QCMD (R294, R304). -/
def State.qcmd (s : State) (qn code : Nat) : State :=
  let q := s.queue qn
  if 256 ≤ qn then s
  else if code = 1 then
    let n := (s.ctx q.owner).state
    if q.state ≠ 0 ∨ (n ≠ 1 ∧ n ≠ 2) ∨ q.buf = 0 then s
    else
      let s := s.modQueue qn fun q => { q with state := 1, expect := [], bound := [] }
      if q.cons = 0 then s else s.launchCons q.owner q.cons.toNat
  else if code = 2 then (if q.state = 1 then s.modQueue qn Queue.close else s)
  else if code = 3 then
    (if q.state = 3 then s.modQueue qn fun q => { q with state := 0, drop := 0, qcnt := 0, ring := 0 } else s)
  else s

/-- OPEN, CLOSE and RELEASE (R304). -/
def execOpenQ (queue : Nat) (s : State) : Result := .next (s.qcmd queue 1)
def execCloseQ (queue : Nat) (s : State) : Result := .next (s.qcmd queue 2)
def execReleaseQ (queue : Nat) (s : State) : Result := .next (s.qcmd queue 3)

/-- The queues of a context that enters Retiring are Drained, their records discarded (R304). -/
def State.qRetire (s : State) (ctx : Nat) : State :=
  { s with queues := s.queues.map fun e =>
      if e.2.owner = ctx ∧ (e.2.state = 1 ∨ e.2.state = 2) then
        (e.1, { e.2 with state := 3, parts := [[], [], []], bound := [] })
      else e }

/-- A write of one word of a queue's append slot (R303). -/
def State.appendSlot (s : State) (queue appCore word : Nat) (value : DWord) : State :=
  if 256 ≤ queue ∨ 8 ≤ word then s
  else
    let (l, r) := stagePut (s.queue queue).stage appCore word value
    let s := s.modQueue queue fun q => { q with stage := l }
    match r with
    | none => s
    | some bs => match s.qOffer queue 0 bs with
      | (s, 2) => s.modQueue queue fun q => { q with drop := holdInc q.drop }
      | (s, _) => s
/-- QUEUE_APPEND_WRITE (R303): one 8-byte write of an application core. -/
def execQueueAppendWrite (queue appCore word : Nat) (value : BitVec 64) (s : State) : Result :=
  .next (if s.appUp appCore then s.appendSlot queue appCore word value else s)

/-- QUEUE_RECORD_ARRIVE (R300): the oldest record that crosses from one die to another arrives. -/
def execQueueRecordArrive (queue src die : Nat) (s : State) : Result :=
  let l := (s.queue queue).part die
  match l.find? fun r => r.wait == 1 && r.src == src with
  | none => .next s
  | some r =>
    match s.arriving (.queueRec queue src die) with
    | none => .next s
    | some m =>
      let s := s.gone m
      let (s, r2) := s.qStore queue die r
      .next (s.modQueue queue fun q => { q with parts := modAt q.parts die fun l => l.erase r ++ [r2] })

/-- The records of a leaving die's part move to the dies that stay (R303). -/
def State.qMigrate (s : State) (stay : Nat → Bool) (d : Nat) : State :=
  s.queues.foldl (fun s e =>
    let l := (s.queue e.1).part d
    let s := s.modQueue e.1 fun q => { q with parts := upd q.parts d [] }
    let mine (m : Msg) : Bool := match m.body with
      | .queueRec q _ t => q == e.1 && t == d
      | _ => false
    let s := { s with msgs := s.msgs.filter fun m => !mine m }
    l.foldl (fun s r =>
      let q := s.queue e.1
      let room (d : Nat) : Bool := stay d && decide ((q.part d).length < q.cap)
      let home := s.qHomeDie q.owner r.bytes
      let fresh := match q.cheapest home r.bytes room with
        | some x => some x
        | none => q.cheapest home r.bytes stay
      let dest := match (if qRv r.bytes then tget q.bound (qRegion r.bytes) else none) with
        | some b => if b = d then fresh else some b
        | none => fresh
      match dest with
      | none => s
      | some x =>
        if s.linkDead d x then s.loseFor q.owner
        else
        let (s, r2) := s.qStore e.1 x { r with slot := Config.queueSlot ((q.part x).map (·.slot)) % q.cap, wait := 0 }
        s.modQueue e.1 fun q => { q with
          parts := modAt q.parts x (· ++ [r2]),
          bound := if qRv r.bytes then tput q.bound (qRegion r.bytes) x else q.bound }) s) s

end Sys2Proof.Machine
end

