-- ==== Sys2Proof/Machine/Channel.lean ====
section
/-! DEFINITION. Channels (R434 to R442) and reductions (R443 to R446): CHSEND, CHRECV, REDX, REDW and their messages. -/

namespace Sys2Proof.Machine

/-! Channels. -/

/-- A channel of a strand's kernel. -/
def State.chan (s : State) (st : Strand) (n : Nat) : Option Chan := (s.kernelOf st).bind fun k => k.chans[n]?
def State.modChan (s : State) (ctx kid n : Nat) (g : Chan → Chan) : State :=
  s.modKernel ctx kid fun k => { k with chans := modAt k.chans n g }

/-- The number of registers that a slot occupies from a base field (R438). -/
def slotRegs (base bytes : Nat) : Nat := if base < 0x80 then (bytes + 63) / 64 else bytes / 4

/-- Registers of the channel that the current strand names, from a base field. -/
def State.chanRegs (s : State) (f : LFields) (base : Nat) : Nat :=
  match s.cur.bind s.strand with
  | none => 1
  | some st => match s.chan st (st.arg f.a) with
    | some c => slotRegs base c.bytes
    | none => 1

/-- The checks that depend on the channel (R436 to R438): its number, Broken, the scalar range, and another receiver. -/
def chanPre (s : State) (f : LFields) (base : Nat) (recv : Bool) (st : Strand) (m : Mask) : Option Nat :=
  if m = 0 then none
  else match s.chan st (st.arg f.a) with
    | none => some 0
    | some c =>
      let me := match s.cur with
        | some id => id
        | none => 0
      if c.state = 3 ∨ (0x80 ≤ base ∧ 0xC0 < base + slotRegs base c.bytes) ∨ (recv ∧ c.state = 1 ∧ c.recv ≠ me) then some 0
      else none

/-- The bytes of a slot in its registers (R438). -/
def Strand.slotBytes (st : Strand) (base n : Nat) : List Byte :=
  (List.range (n / 4)).flatMap fun k =>
    leBytes 4 (if base < 0x80 then st.vget (base + k / 16) (k % 16) else st.sget (base - 0x80 + k)).toNat

/-- Writes a slot to its destination (R438, R440). -/
def Strand.slotPut (st : Strand) (base : Nat) (m : Mask) (bs : List Byte) : Strand :=
  (List.range (bs.length / 4)).foldl (fun st k =>
    let w := BitVec.ofNat 32 (recField bs (4 * k) 4)
    if base < 0x80 then (if mHas m (k % 16) then st.vset (base + k / 16) (k % 16) w else st)
    else st.sset (base - 0x80 + k) w) st

/-- The narrowest scope that holds a core and a strand's place; package while the strand is saved (R441). -/
def State.slotScope (s : State) (core recv : Nat) : Nat :=
  match s.posOf recv with
  | some (d, c) => if 16 * d + c = core then 2 else if d = core / 16 then 3 else 4
  | none => 4

/-- First byte of a channel's ring (R263). -/
def State.ringVa (s : State) (ctx kid n : Nat) : Nat := s.kernelArea ctx kid + 0x80000 + 0x4000 * n

/-- CHSEND (R439). -/
def execChsend (f : LFields) (s : State) : Result :=
  let i : Instr := .chsend f
  let base := f.b.toNat
  let r := rowOf i
  let sp := { r with b := { r.b with n := s.chanRegs f base } }
  match issue i sp f (chanPre s f base false) s with
  | .out o => o
  | .go x =>
    let st := x.st
    let n := st.arg f.a
    if x.adm = 0 then .next (s.finish x sp f 8 st)
    else match s.chan st n with
      | none => .next (s.trapAtIssue x.id st .illop 0 x.adm)
      | some c =>
        let put (v : Word) : Strand := st.sset (f.d.toNat - 0x80) v
        if c.state = 2 then .next (s.trapAtIssue x.id st .chorphan n x.adm)
        else if c.slots ≤ c.ring.length then .next ((s.commit st).finish x sp f 8 (put 0))
        else
          let q : Slot :=
            { bytes := st.slotBytes base c.bytes, sender := x.id, before := st.nextOp, core := 16 * st.d + st.k,
              unbound := c.state == 0, there := false }
          let s := (s.commit st).modChan st.ctx st.kid n fun c => { c with
            ring := c.ring ++ [q], senders := if c.senders.contains x.id then c.senders else c.senders ++ [x.id] }
          let s := s.send 0 (24 * st.d + coreTile st.k) (s.sliceOfVa st.d st.ctx (s.ringVa st.ctx st.kid n)) (.slot st.ctx st.kid n)
          .next (s.finish x sp f 8 (put 1))

/-- CHRECV's receipt: the oldest slot of the ring, when it has been written there; the edge has the scope that holds the sender's core
at the send and the receiver's now (R440, R441). -/
def State.recvTry (s : State) (st : Strand) (id base n : Nat) (m : Mask) : Option (State × Strand) :=
  match s.chan st n with
  | none => none
  | some c => match c.ring with
    | [] => none
    | q :: _ =>
      if !q.there then none
      else
        let scope := if q.unbound then 4 else s.slotScope q.core id
        let s := s.release (q.core / 16) (q.core % 16) scope false
        if 4 ≤ scope && s.copiesWait (q.core / 16) then none
        else
        let s := s.modChan st.ctx st.kid n fun c => { c with ring := c.ring.drop 1 }
        some (s.acqAct st scope, st.slotPut base m q.bytes)

/-- CHRECV (R440). -/
def execChrecv (f : LFields) (s : State) : Result :=
  let i : Instr := .chrecv f
  let base := f.d.toNat
  let r := rowOf i
  let sp := { r with d := { r.d with n := s.chanRegs f base } }
  match issue i sp f (chanPre s f base true) s with
  | .out o => o
  | .go x =>
    let st := x.st
    let n := st.arg f.a
    if x.adm = 0 then .next (s.finish x sp f 8 st)
    else match s.chan st n with
      | none => .next (s.trapAtIssue x.id st .illop 0 x.adm)
      | some c =>
        if c.state = 2 then .next (s.trapAtIssue x.id st .chorphan n x.adm)
        else
          let s := (s.commit st).modChan st.ctx st.kid n fun c => { c with state := 1, recv := x.id }
          match s.recvTry st x.id base n x.adm with
          | some (s, st) => .next (s.finish x sp f 8 st)
          | none => .next (s.enterWait x st sp f 8 (.chrecv base n x.adm))

/-- Every access that a slot's sender issued before it has been performed (R439). -/
def State.slotReady (s : State) (q : Slot) : Bool :=
  match s.strand q.sender with
  | some st => st.ops.all fun o => decide (q.before ≤ o.id) || !o.isAccess || !o.unperformed
  | none => true

/-- The slot is on its way from a mesh tile to its ring. -/
def Slot.onWay (q : Slot) (src : Nat) : Bool := !q.there && 24 * (q.core / 16) + coreTile (q.core % 16) == src

/-- Marks a source's first slot that has not been written to its ring. -/
def markThere (src : Nat) : List Slot → List Slot
  | [] => []
  | q :: r => if q.onWay src then { q with there := true } :: r else q :: markThere src r
/-- It is gone. -/
def dropSlot (src : Nat) : List Slot → List Slot
  | [] => []
  | q :: r => if q.onWay src then r else q :: dropSlot src r

/-- CHANNEL_SLOT_DELIVER (R435, R439): the oldest slot on its way leaves, with the release actions of its scope at the
sender's core, and is written to the ring. -/
def execChannelSlotDeliver (ctx kid channel : Nat) (s : State) : Result :=
  match (s.kernel ctx kid).bind fun k => k.chans[channel]? with
  | none => .next s
  | some c => match s.arriving (.slot ctx kid channel) with
    | none => .next s
    | some m =>
      match c.ring.find? fun q => q.onWay m.src with
      | none => .next (s.gone m)
      | some q =>
        if !s.slotReady q then .next s
        else
          let scope := if q.unbound || c.state != 1 then 4 else s.slotScope q.core c.recv
          let s := s.release (q.core / 16) (q.core % 16) scope false
          if 4 ≤ scope && s.copiesWait (q.core / 16) then .next s
          else .next ((s.gone m).modChan ctx kid channel fun c => { c with ring := markThere m.src c.ring })

/-! Reductions. -/

/-- A reduction object of a strand's kernel. -/
def State.red (s : State) (st : Strand) (n : Nat) : Option Red := (s.kernelOf st).bind fun k => k.reds[n]?
def State.modRed (s : State) (ctx kid n : Nat) (g : Red → Red) : State :=
  s.modKernel ctx kid fun k => { k with reds := modAt k.reds n g }

/-- The contribution type suits the kind (R443). -/
def redTypeOk (kind ty : Nat) : Bool :=
  if kind = 0 then decide (ty ≤ 4) else if kind ≤ 2 then ty == 3 else if kind ≤ 4 then ty == 4
  else if kind ≤ 6 then ty == 0 else ty == 5

/-- The checks that depend on the object (R443, R444). -/
def redPre (s : State) (f : LFields) (ty : Option Nat) (st : Strand) (m : Mask) : Option Nat :=
  if m = 0 then none
  else match s.red st (st.arg f.a) with
    | none => some 0
    | some o =>
      let bad := match ty with
        | some t => !redTypeOk o.kind t
        | none => false
      if o.broken || bad then some 0 else none

/-- How REDX reads its value (R444). -/
def redOTy (ty : Nat) : OTy :=
  match ty with
  | 0 => .fp fmtF32
  | 1 => .fp fmtF16
  | 2 => .fp fmtBF16
  | _ => .i32

/-- The values that REDX contributes (R445). -/
def redValues (st : Strand) (sp : OpSpec) (f : LFields) (m : Mask) : List Word :=
  let ts := if f.b.toNat < 0x80 ∧ f.u = 0 then threads m else [mLow m]
  ts.map fun t => match st.operand f sp.b f.b.toNat (redOTy f.m3.toNat) 0 t with
    | .ok (w :: _) => w
    | _ => 0

/-- REDX (R445): a release at package scope, then the contributions leave for the object's root. -/
def execRedx (f : LFields) (s : State) : Result :=
  let i : Instr := .redx f
  let sp := rowOf i
  match issue i sp f (redPre s f (some f.m3.toNat)) s with
  | .out o => o
  | .go x =>
    let st := x.st
    if x.adm = 0 then .next (s.finish x sp f 8 st)
    else if s.relBlocked st then .next (s.holdOn x (.redx f))
    else
      let me := 24 * st.d + coreTile st.k
      let vs := (redValues st sp f x.adm).map fun w => (me, f.m3.toNat, w)
      let s := ((s.relAct st 4).commit st).modRed st.ctx st.kid (st.arg f.a) fun o => { o with flight := o.flight ++ vs }
      let root := match (s.red st (st.arg f.a)).bind (·.root) with
        | some pa => 24 * homeDie pa + sliceTile (s.servingAt (homeDie pa) (lineOf pa))
        | none => 75
      let s := vs.foldl (fun s _ =>
        s.send 5 me root (.redx st.ctx st.kid (st.arg f.a))) s
      .next (s.finish x sp f 8 st)

/-- Combines two values of a kind other than .sum (R443). -/
def redCombine (kind : Nat) (a b : Word) : Word :=
  match kind with
  | 1 => if b.toInt < a.toInt then b else a
  | 2 => if a.toInt < b.toInt then b else a
  | 3 => if b.toNat < a.toNat then b else a
  | 4 => if a.toNat < b.toNat then b else a
  | 5 => BitVec.ofNat 32 (fpMinMax fmtF32 FEnv.plain false a.toNat b.toNat)
  | 6 => BitVec.ofNat 32 (fpMinMax fmtF32 FEnv.plain true a.toNat b.toNat)
  | 7 => a &&& b
  | 8 => a ||| b
  | _ => a ^^^ b

/-- A contribution reaches the root: one after completion is discarded (R446). -/
def Red.take (o : Red) (ty : Nat) (w : Word) : Red :=
  if o.expect ≤ o.count then o
  else if o.kind = 0 then
    { o with count := o.count + 1, cell := ((Cell.ofBytes o.cell).add (contribution ty w)).bytes }
  else
    { o with
      count := o.count + 1,
      val := some (match o.val with
        | some v => redCombine o.kind v w
        | none => if o.kind = 5 ∨ o.kind = 6 then redCombine o.kind w w else w) }

/-- The result of a complete object (R446). -/
def Red.result (o : Red) : Word :=
  if o.kind = 0 then (Cell.ofBytes o.cell).read o.rfmt
  else match o.val with
    | some v => v
    | none => 0

/-- The first contribution of a source leaves an object's list. -/
def dropFlight (src : Nat) : List (Nat × Nat × Word) → List (Nat × Nat × Word)
  | [] => []
  | v :: r => if v.1 = src then r else v :: dropFlight src r

/-- REDX_CONTRIBUTION_ARRIVE (R445): the oldest contribution that may arrive reaches the object's root; while the page of its state
line is missing, it waits for the batch. -/
def execRedxContributionArrive (ctx kid object : Nat) (s : State) : Result :=
  match (s.kernel ctx kid).bind fun k => k.reds[object]? with
  | none => .next s
  | some o =>
    if o.root.isNone then .next (s.reroot ctx kid object)
    else match s.arriving (.redx ctx kid object) with
      | none => .next s
      | some m => match o.flight.find? fun v => v.1 == m.src with
        | none => .next (s.gone m)
        | some v => .next ((s.gone m).modRed ctx kid object fun o => { o.take v.2.1 v.2.2 with flight := dropFlight m.src o.flight })

/-- REDW (R446): a complete object's result, with the acquire actions at package scope, or the predicate alone. -/
def execRedw (f : LFields) (s : State) : Result :=
  let i : Instr := .redw f
  let sp := rowOf i
  match issue i sp f (redPre s f none) s with
  | .out o => o
  | .go x =>
    let st := x.st
    if x.adm = 0 then .next (s.finish x sp f 8 st)
    else match s.red st (st.arg f.a) with
      | none => .next (s.trapAtIssue x.id st .illop 0 x.adm)
      | some o =>
        if o.count < o.expect then .next (s.finish x sp f 8 (st.qset f.c.toNat x.adm 0))
        else
          let st2 := (st.putDest f.d.toNat x.adm fun _ => [o.result]).qset f.c.toNat x.adm 0xFFFF
          .next ((s.acqAct st 4).finish x sp f 8 st2)

/-! Lost messages (R432, R455). -/

/-- A message is dropped for good, and what it carries with it. -/
def State.dropMsg (s : State) (m : Msg) : State :=
  let s := s.gone m
  match m.body with
  | .redx ctx kid n => s.modRed ctx kid n fun o => { o with flight := dropFlight m.src o.flight }
  | .slot ctx kid n => s.modChan ctx kid n fun c => { c with ring := dropSlot m.src c.ring }
  | .queueRec qn src die => s.modQueue qn fun q =>
      let q := { q with parts := modAt q.parts die fun l => l.eraseP fun r => r.wait == 1 && r.src == src }
      { q with bound := q.bound.filter fun e => !q.regionGone e.1 }
  | .fence _ _ _ _ | .reply _ _ _ => s

/-- The context that a message belongs to. -/
def State.ownerOf (s : State) (m : Msg) : Option Nat :=
  match m.body with
  | .redx ctx _ _ | .slot ctx _ _ => some ctx
  | .queueRec qn _ _ => some (s.queue qn).owner
  | .reply id _ _ => (s.strand id).map (·.ctx)
  | .fence _ _ _ _ => none

end Sys2Proof.Machine
end

