-- ==== Sys2Proof/Machine/Frame.lean ====
section
/-! DEFINITION. Frames of physical memory (R406 to R415, R424), transient regions (R416 to R420) and the LPDRAM set points
(R421 to R423). -/

namespace Sys2Proof.Machine

/-! Frames. -/

/-- LINE_WRITEBACK (R409). -/
def execLineWriteback (line : Nat) (s : State) : Result := .next (s.lineBack line)

/-- Parked writes replay, oldest first, while the pool has room, each into the granules that its encoding takes (R410, R413, R424). -/
def Die.replay : List Parked → Die → Die
  | [], x => x
  | p :: r, x =>
    let frame := frameOfLine p.line
    if x.fits frame p.need then
      Die.replay r { x.regrain frame p.need with
        parked := x.parked.drop 1, dirty := if p.waiting then tdel x.dirty p.line else x.dirty }
    else x

/-- Writes that wait for spill memory take what has become free of it, oldest first (R410). -/
def Die.takeSpill : List Parked → Nat → Die → Die
  | [], _, x => x
  | p :: r, room, x =>
    if p.waiting && decide (0 < room) then
      Die.takeSpill r (room - 1) { x with
        dirty := tdel x.dirty p.line, parked := x.parked.map fun q => if q = p then { p with waiting := false } else q }
    else Die.takeSpill r room x

/-- The parked and waiting writes go on as far as the pool and spill memory allow. -/
def State.replayAt (s : State) (d : Nat) : State :=
  (s.modDie d fun x =>
    let x := x.replay x.parked
    x.takeSpill x.parked (spillLines - (x.parked.filter fun p => !p.waiting).length)).tidy d

/-- Granules that the parked and waiting writes need: for each frame, what the largest of its writes lacks (R413). -/
def Die.parkedNeed (x : Die) : Nat :=
  ((x.parked.map fun p => frameOfLine p.line).eraseDups).foldl (fun n f =>
    n + ((x.parked.filter fun p => frameOfLine p.line == f).foldl (fun m p => max m p.need) 0 - x.gran f)) 0

/-- What TENSION_RECLAIM does on a die whose pool is short (R413): the oldest donated frame is released; else the frame named is moved
to the shared zero granule; else, where no zero frame holds granules, it is moved to be packed. -/
def State.reclaim (s : State) (d frame : Nat) : State :=
  let x := s.die d
  let free (n : Nat) : Bool := homeDie (4096 * n) == d && !(x.parked.any fun p => frameOfLine p.line == n) && !x.inRegion n
  let zero (n : Nat) : Bool := free n && (s.frameBytes n).all (· == 0)
  match x.donated with
  | f :: _ => s.putDie d (x.regrain f 0)
  | [] =>
    if zero frame then s.putDie d { x with moving := some (frame, 0) }
    else if free frame && !(x.frames.any fun e => decide (0 < e.2.gran) && zero e.1) then
      s.putDie d { x with moving := some (frame, min (x.gran frame) (s.frameNeed frame)) }
    else s

/-- TENSION_RECLAIM (R413, R424): a move that is under way ends; otherwise, when the pool lacks what the parked writes need, the
engine reclaims. Then the writes that fit are replayed. -/
def execTensionReclaim (die frame : Nat) (s : State) : Result :=
  if 3 ≤ die then .next s
  else
    let x := s.die die
    .next ((match x.moving with
      | some (f, j) => s.putDie die { x.regrain f j with moving := none }
      | none => if x.parkedNeed ≤ x.gfree then s else s.reclaim die frame).replayAt die)

/-- Every write of a die that has waited 50 µs raises MEMFULL for its writer's context, once until that context's RESUME (R412). -/
def State.parkLimit (s : State) (die : Nat) : State :=
  let due := (s.die die).parked.filter fun p => !p.raised && decide (p.since + 50000 ≤ s.gtime)
  if due.isEmpty then s
  else
    let late (p : Parked) : Parked := if p.since + 50000 ≤ s.gtime then { p with raised := true } else p
    let s := s.modDie die fun x => { x with parked := x.parked.map late }
    (distinct (due.map (·.ctx))).foldl (fun s n =>
      if noCtx ≤ n ∨ (s.ctx n).memfull then s else (s.modCtx n fun x => { x with memfull := true }).ctxEvent n 0) s

/-- PARK_LIMIT_EXPIRY (R412). -/
def execParkLimitExpiry (die : Nat) (s : State) : Result := .next (s.parkLimit die)

/-! BALLOON. -/

/-- Translates count pages for a write: the pages' addresses, the faults, and whether a walk is parked (2) or waits for a frame or a
link (1) (R415). -/
def State.balloonPages (s : State) (st : Strand) (va : Nat) : Nat → State × List Nat × List BatchEntry × Nat
  | 0 => (s, [], [], 0)
  | n + 1 =>
    match s.translate st.ctx st.d st.k (some st.ln) va kWrite with
    | (s, r) =>
      let (s, ps, es, w) := s.balloonPages st (va + 4096) n
      match r with
      | .ok pa => (s, pa :: ps, es, w)
      | .park => (s, ps, es, 2)
      | .wait => (s, ps, es, max w 1)
      | .fault c lvl => (s, ps, faultEntry va c lvl kWrite :: es, w)

/-- A range of physical bytes becomes zero at its home and lost lines of it are replaced. -/
def State.zeroRange (s : State) (pa n : Nat) : State :=
  let s := { s with mem := cclear s.mem pa (pa + n) }
  (s.modDie (homeDie pa) fun x =>
    let out (l : Nat) : Bool := decide (l < lineOf pa) || decide (lineOf (pa + n - 1) < l)
    { x with dirty := x.dirty.filter fun e => out e.1, lost := x.lost.filter out }).tidy (homeDie pa)

/-- Only the lines of a cache that satisfy a test stay in it. -/
def CacheTags.keepOnly (p : Nat → Bool) (t : CacheTags) : CacheTags :=
  { order := t.order.filter p, hints := t.hints.filter fun e => p e.1, sticky := t.sticky.filter p }

/-- One page of BALLOON.give (R415): copies in the issuing core and die are discarded, and the frame is zeroed. -/
def State.givePage (s : State) (d c pa : Nat) : State :=
  let frame := pa / 4096
  let base := 4096 * frame
  let out (a : Nat) : Bool := decide (a < base) || decide (base + 4096 ≤ a)
  let lines (l : Nat) : Bool := out (128 * l)
  let s := s.modCore d c fun x => { x with l1 := x.l1.filter fun e => out e.1, tags := x.tags.keepOnly lines }
  let s := s.modDie d fun x => { x with copies := x.copies.filter fun e => out e.1 }
  let s := s.zeroRange base 4096
  let s := s.modDie (homeDie pa) fun x => { x with slices := x.slices.map fun y => { y with tags := y.tags.keepOnly lines } }
  let now := s.gtime
  s.modDie (homeDie pa) fun x =>
    let armed := x.regions.any fun r => r.holds (base % 2 ^ 44) && r.state == 1 && decide (now < r.deadline)
    if armed then
      { x with regions := x.regions.map fun r => if r.holds (base % 2 ^ 44) then r.arming now x.budget else r }
    else
      { x with
        frames := tput x.frames frame { x.frame frame with donated := true },
        donated := if x.donated.contains frame then x.donated else x.donated ++ [frame] }

/-- A count of 0 or above 512 (R414). -/
def balloonPre (f : LFields) (st : Strand) (m : Mask) : Option Nat :=
  if m ≠ 0 ∧ (st.arg f.b = 0 ∨ 512 < st.arg f.b) then some 0 else none

/-- BALLOON.give (R414, R415). -/
def execBalloonGive (f : LFields) (s : State) : Result :=
  let i : Instr := .balloonGive f
  let sp := rowOf i
  match issue i sp f (balloonPre f) s with
  | .out o => o
  | .go x =>
    let st := x.st
    let va := (st.sget64 (f.a.toNat - 0x80)).toNat
    if x.adm = 0 then .next (s.finish x sp f 8 st)
    else if va / 2 ^ 48 ≠ 0 then .next (s.trapAtIssue x.id st .window 0 x.adm)
    else if va % 4096 ≠ 0 then .next (s.trapAtIssue x.id st .align 0 x.adm)
    else
      let st1 := { st with walkParked := false }
      match s.balloonPages st va (st.arg f.b) with
      | (s1, _, e :: es, _) => .next (s1.xlFault x.id st1 0 x.adm ((e :: es).take 32) .instr)
      | (s1, _, [], 2) => .next (s1.xlPark x.id st 0 x.adm)
      | (s1, ps, [], w) =>
        if w = 1 || s1.relBlocked st || ps.any (fun pa => s1.heldFrom st.d pa) then .next (s1.holdOn { x with st := st1 } (.balloonGive f))
        else
          let s2 := ps.foldl (fun s pa => s.givePage st.d st.k pa) (s1.relAct st 4)
          .next (s2.finish x sp f 8 st1)

/-- BALLOON.query (R415). -/
def execBalloonQuery (f : LFields) (s : State) : Result :=
  let i : Instr := .balloonQuery f
  execOnce i (rowOf i) f 8 noPre
    (fun x => x.st.sset (f.d.toNat - 0x80) (BitVec.ofNat 32 (s.die x.st.d).gfree)) s

/-! Transient regions. -/

/-- Frames of a region. -/
def Region.frames (r : Region) : Nat := r.size / 4096
/-- A frame of the die that holds a region belongs to it. -/
def Region.hasFrame (r : Region) (frame : Nat) : Bool :=
  let off := frame * 4096 % 2 ^ 44
  decide (r.first ≤ off) && decide (off < r.first + r.size)

/-- Two regions overlap. -/
def Region.meets (a b : Region) : Bool := decide (a.first < b.first + b.size) && decide (b.first < a.first + a.size)

/-- Granules that the frames of a region hold. -/
def Die.heldBy (x : Die) (r : Region) : Nat :=
  let l := x.frames.filter fun e => r.hasFrame e.1
  l.foldl (fun n e => n + e.2.gran) 0 + if r.state = 0 then 0 else 8 * (r.frames - l.length)

/-- ARM is refused (R417, R424). -/
def State.armBad (s : State) (d n : Nat) : Bool :=
  let x := s.die d
  let r := nth Region.off x.regions n
  r.len.toNat % 2 ^ 16 == 0 || decide (s.advertised < r.first + r.size) ||
    (x.regions.zipIdx).any (fun e => e.2 != n && e.1.state != 0 && e.1.meets r) ||
    decide (x.gfree + x.heldBy r < 8 * r.frames) || x.parked.any fun p => r.hasFrame (frameOfLine p.line)

/-- No column and no copy of another die holds a line of a region (R420). -/
def State.dropRegion (s : State) (d : Nat) (r : Region) : State :=
  let out (a : Nat) : Bool := homeDie a != d || !r.hasFrame (a / 4096)
  { s with dies := s.dies.map fun x => { x with
      copies := x.copies.filter fun e => out e.1,
      cores := x.cores.map fun y => { y with
        l1 := y.l1.filter fun e => out e.1, tags := y.tags.keepOnly fun l => out (128 * l) } } }

/-- TRCMD ARM (R417): the region's frames hold 8 granules each and every byte is zero. -/
def State.armRegion (s : State) (d n : Nat) : State :=
  let set (g : Region → Region) (s : State) : State := s.modDie d fun x => { x with regions := modAt x.regions n g }
  if s.armBad d n then set (fun r => { r with err := true }) s
  else
    let x := s.die d
    let r := nth Region.off x.regions n
    let free := x.gfree + x.heldBy r - 8 * r.frames
    let s := (s.dropRegion d r).zeroRange (d * 2 ^ 44 + r.first) r.size
    let s := s.modDie d fun x => { x with
      gfree := free, frames := x.frames.filter fun e => !r.hasFrame e.1,
      moving := x.moving.filter fun m => !r.hasFrame m.1,
      donated := x.donated.filter fun f => !r.hasFrame f }
    set (fun r => { r with
      err := false, state := 1, armedAt := s.gtime, minBudget := x.budget, deadline := s.gtime + x.budget }) s

/-- TRCMD DISARM (R417): the frames are zero frames and return their granules. -/
def State.disarmRegion (s : State) (d n : Nat) : State :=
  let x := s.die d
  let r := nth Region.off x.regions n
  let s := if r.state = 0 then s
    else (s.zeroRange (d * 2 ^ 44 + r.first) r.size).modDie d fun x => { x with
      gfree := x.gfree + x.heldBy r, frames := x.frames.filter fun e => !r.hasFrame e.1,
      donated := x.donated.filter fun f => !r.hasFrame f }
  s.modDie d fun x => { x with regions := modAt x.regions n fun r => { r with err := false, state := 0, deadline := 0 } }

/-- ARM and DISARM (R417). -/
def execArm (die region : Nat) (s : State) : Result := .next (if 3 ≤ die ∨ 16 ≤ region then s else s.armRegion die region)
def execDisarm (die region : Nat) (s : State) : Result :=
  .next (if 3 ≤ die ∨ 16 ≤ region then s else s.disarmRegion die region)

/-- An Armed region whose deadline has come is Expired (R419). -/
def Region.expire (r : Region) (now : Nat) : Region := if r.state = 1 ∧ r.deadline ≤ now then { r with state := 2 } else r

/-- REGION_EXPIRE (R419). -/
def execRegionExpire (die region : Nat) (s : State) : Result :=
  .next (s.modDie die fun x => { x with regions := modAt x.regions region fun r => r.expire s.gtime })

/-- What package time brings of itself: regions expire (R419), and parked writes reach their limit (R412). -/
def State.deadlines (s : State) : State :=
  let due (r : Region) : Bool := r.state == 1 && decide (r.deadline ≤ s.gtime)
  let s := if s.dies.any fun x => x.regions.any due then
      { s with dies := s.dies.map fun x => { x with regions := x.regions.map fun r => r.expire s.gtime } }
    else s
  [0, 1, 2].foldl (fun s d => s.parkLimit d) s

/-- BUDGET_CHANGE (R418, R419): the hottest DRAM device of a die has another temperature. -/
def execBudgetChange (die : Nat) (celsius : Int) (s : State) : Result :=
  .next (s.modDie die fun x =>
    let y := { x with dramTemp := celsius }
    { y with regions := x.regions.map fun r => r.rebudget y.budget })

/-! Set points. -/

/-- D0's timing generator is stopped (R423, R479). -/
def State.timingStopped (s : State) : Bool := decide ((s.die 0).port.state ≤ 1)

/-- A pending set-point switch takes place (R423). -/
def State.memSwitch (s : State) : State := if s.spPend then { s with spCur := s.spReq, spPend := false } else s

/-- A request for a set point; with D0's timing generator stopped it is made at once (R422, R423). -/
def State.memRequest (s : State) (v : Nat) : State :=
  let s := { s with spReq := v, spPend := true }
  if s.timingStopped then s.memSwitch else s

/-- MEMFSP (R422): held while the link to D0 trains; a Failed one loses the request, and the context is told (R432). -/
def execMemfsp (f : LFields) (s : State) : Result :=
  let i : Instr := .memfsp f
  let sp := rowOf i
  match issue i sp f (fun st m => if m ≠ 0 ∧ 3 < st.arg f.a then some 0 else none) s with
  | .out o => o
  | .go x =>
    if x.adm = 0 then .next (s.finish x sp f 8 x.st)
    else if s.linkDead x.st.d 0 then .next ((s.finish x sp f 8 x.st).ctxEvent x.st.ctx 1)
    else if s.linkSlow x.st.d 0 then .next (s.holdOn x (.memfsp f))
    else .next ((s.memRequest (x.st.arg f.a)).finish x sp f 8 x.st)

/-- MEMSP_WRITE (R408): only a write to D0's window counts. -/
def execMemspWrite (die : Nat) (value : BitVec 32) (s : State) : Result :=
  .next (if die = 0 then s.memRequest (nbits value.toNat 4 2) else s)

/-- MEMFSP_SWITCH (R423), away from a frame boundary: while D0's timing generator is stopped. The boundary itself is
VBLANK_START of D0's port. -/
def execMemfspSwitch (s : State) : Result := .next (if s.timingStopped then s.memSwitch else s)

end Sys2Proof.Machine
end

