-- ==== Sys2Proof/Machine/DieSet.lean ====
section
/-! DEFINITION. Skovlink (R428 to R432) and the die set (R18 to R20, R447 to R450). -/

namespace Sys2Proof.Machine

/-! Links. -/

/-- Adds to a count that holds at its maximum. -/
def holdAdd (n k : Nat) : Nat := min (n + k) 0xFFFFFFFF

def State.modLink (s : State) (l : Nat) (g : Link → Link) : State := { s with links := modAt s.links l g }
def State.link (s : State) (l : Nat) : Link := nth { state := 0, fails := 0 } s.links l

/-- A message waits for a Failed link. The broadcasts of a fence stay on their die. -/
def State.deadMsg (s : State) (m : Msg) : Bool := m.dst != 75 && s.linkDead (addrDie m.src) (addrDie m.dst)

/-- A message that needs a Failed link is lost, and its context told; an atomic whose reply it was ends with UNCORR (R432). -/
def State.loseMsg (s : State) (m : Msg) : State :=
  match m.body with
  | .reply id n _ =>
    let s := s.gone m
    match (s.strand id).bind fun st => st.op n with
    | some o => s.markDone id n 0xFFFF (match o.kind with
        | .atom _ _ _ _ => some .uncorr
        | _ => none)
    | none => s
  | _ => match s.ownerOf m with
    | some ctx => (s.dropMsg m).loseFor ctx
    | none => s.dropMsg m

/-- What needs a Failed link is lost, now and later (R432). -/
def State.dropDead (s : State) : State :=
  if !s.links.any fun l => l.state == 4 then s
  else (s.msgs.filter s.deadMsg).foldl State.loseMsg s

/-- A link goes from Active to Retraining, counted at both ends (R429, R430). -/
def State.retrainLink (s : State) (l : Nat) : State :=
  if (s.link l).state ≠ 2 then s
  else
    let s := s.modLink l fun x => { x with state := 3 }
    (linkEnds l).foldl (fun s e => s.modDie e.1 fun x => { x with lnkRt := modAt x.lnkRt e.2 holdInc }) s

/-- RETRAIN and LINK_FAULT (R430). -/
def execRetrain (die port : Nat) (s : State) : Result :=
  .next (if 3 ≤ die ∨ 2 ≤ port then s else s.retrainLink (portLink die port))
def execLinkFault (link : Nat) (s : State) : Result := .next (s.retrainLink link)

/-- FLIT_REPLAY (R428, R429): flits replayed at a port of an Active link. -/
def execFlitReplay (die port flits : Nat) (s : State) : Result :=
  .next (if (s.link (portLink die port)).state ≠ 2 then s
    else s.modDie die fun x => { x with lnkRpl := modAt x.lnkRpl port fun n => holdAdd n flits })

/-- A link becomes Failed (R430, R432, R454). -/
def State.failLink (s : State) (l : Nat) : State := (s.modLink l fun x => { x with state := 4 }).dropDead

/-- An attempt at training ends (R430). -/
def State.trainEnd (s : State) (l : Nat) (trained : Bool) : State :=
  let x := s.link l
  if x.state ≠ 1 ∧ x.state ≠ 3 then s
  else if trained then s.modLink l fun x => { x with state := 2, fails := 0 }
  else if 3 ≤ x.fails + 1 then s.failLink l
  else s.modLink l fun x => { x with fails := x.fails + 1 }

/-- LINK_TRAINING_END (R430). -/
def execLinkTrainingEnd (link : Nat) (trained : Bool) (s : State) : Result := .next (s.trainEnd link trained)

/-! The die set. -/

/-- The clock limit of a mode in MHz (R18). -/
def modeLimit (mode : Nat) : Nat := nth 1600 [1000, 1400, 1600] mode

/-- A joining die cannot be reached (R449). -/
def State.joinBad (s : State) (mode : Nat) : Bool :=
  [1, 2].any fun d => decide (s.dsCur < d) && decide (d ≤ mode) && s.linkDead 0 d

/-- Steps 1 to 4 of R449: the change to a mode begins. -/
def State.diesetBegin (s : State) (mode : Nat) : State :=
  if mode = s.dsCur then { s with dsPend := false }
  else if s.joinBad mode then { s with dsErr := true, dsPend := false }
  else
    let s := { s.memSwitch with dsErr := false, dsBusy := some mode }
    (s.allCores.filter fun p => decide (mode < p.1)).foldl (fun s p =>
      (s.residents p.1 p.2).foldl (fun s n => s.stopCore n p.1 p.2) s) s

/-- A request for a mode; with D0's timing generator stopped and no change in progress it begins at once (R447, R449,
R450). -/
def State.diesetRequest (s : State) (v : Nat) : State :=
  let s := { s with dsReq := v, dsPend := true }
  if s.timingStopped && s.dsBusy.isNone then s.diesetBegin v else s

/-- A frame boundary of D0: the pending set point, then the pending die set (R423, R449). -/
def State.frameBoundary (s : State) : State :=
  let s := s.memSwitch
  if s.dsPend && s.dsBusy.isNone then s.diesetBegin s.dsReq else s

/-- DIESET (R448): held while the link to D0 trains; a Failed one loses the request, and the context is told (R432). -/
def execDieset (f : LFields) (s : State) : Result :=
  let i : Instr := .dieset f
  let sp := rowOf i
  match issue i sp f (fun st m => if m ≠ 0 ∧ 2 < st.arg f.a then some 0 else none) s with
  | .out o => o
  | .go x =>
    if x.adm = 0 then .next (s.finish x sp f 8 x.st)
    else if s.linkDead x.st.d 0 then .next ((s.finish x sp f 8 x.st).ctxEvent x.st.ctx 1)
    else if s.linkSlow x.st.d 0 then .next (s.holdOn x (.dieset f))
    else
      let s := s.finish x sp f 8 x.st
      .next (s.diesetRequest (x.st.arg f.a))

/-- DSCTL_WRITE (R447). -/
def execDsctlWrite (value : BitVec 32) (s : State) : Result :=
  let v := nbits value.toNat 4 2
  .next (if v = 3 then s else s.diesetRequest v)

/-- DIESET_CHANGE (R449), away from a frame boundary: while D0's timing generator is stopped. The boundary itself is
VBLANK_START of D0's port. -/
def execDiesetChange (s : State) : Result :=
  .next (if s.timingStopped && s.dsPend && s.dsBusy.isNone then s.diesetBegin s.dsReq else s)

/-- The groups of a leaving die move to the lowest remaining die with room, or are held (R324). -/
def State.moveDieGroups (s : State) (d mode : Nat) : State :=
  (s.die d).groups.foldl (fun s e =>
    let s := s.modDie d fun x => { x with groups := tdel x.groups e.1 }
    match [0, 1, 2].find? fun n => decide (n ≤ mode) && decide ((s.die n).groups.length < 2048) with
    | some n => s.modDie n fun x => { x with groups := tput x.groups e.1 e.2 }
    | none => { s with heldGroups := s.heldGroups ++ [e] }) s

/-- Steps 5 to 9 wait: for a strand or matrix state of a leaving die to be saved, for its darning unit, and for links that retrain,
which carry its dirty lines, its queue records and groups, or the change itself (R449, R450). -/
def State.diesetWaits (s : State) (mode : Nat) (leaving joining : List Nat) : Bool :=
  s.strands.any (fun e => e.2.resident && decide (mode < e.2.d)) ||
  leaving.any (fun d => !(s.die d).darn.isEmpty || (s.die d).darnRun.isSome || s.copiesWait d ||
    (s.die d).cores.any (fun x => x.tiles.any fun t => t.held.isSome) ||
    [0, 1, 2].any fun n => decide (n ≤ mode) && s.linkSlow d n) ||
  joining.any fun d => s.linkSlow 0 d

/-- The change ends with the mode whose joining dies can all still be reached (R450). -/
def State.reached (s : State) (mode : Nat) : Nat :=
  if s.joinBad mode then (if mode = 2 ∧ !s.joinBad 1 then max 1 s.dsCur else s.dsCur) else mode

/-- Steps 5 to 9 of R449, from mode `old` to the mode reached of the one asked for. -/
def State.diesetMove (s : State) (goal mode : Nat) (leaving : List Nat) : State :=
  let old := s.dsCur
  let s := leaving.foldl (fun s d =>
    let s := (List.range 16).foldl (fun s c => s.release d c 4 true) s
    (s.qMigrate (fun n => decide (n ≤ mode)) d).moveDieGroups d mode) s
  let reset (d : Nat) (x : Die) : Die :=
    if (decide (mode < d) && decide (d ≤ old)) || (decide (old < d) && decide (d ≤ mode)) then
      { x with cores := x.cores.map fun c => { Core.idle with embUse := c.embUse }, nodeCache := [] }
    else x
  let clock (d : Nat) (x : Die) : Die :=
    if d ≤ mode then
      let q := min x.clkReq (modeLimit mode)
      { x with clkReq := q, clkCur := if decide (d ≤ old) then min x.clkCur q else q }
    else { x with clkCur := 0 }
  { s with
    dies := (s.dies.zipIdx).map fun e => clock e.2 (reset e.2 e.1),
    dsCur := mode, dsCnt := (s.dsCnt + 1) % 2 ^ 32, dsBusy := some mode, dsPend := s.dsReq != goal }

/-- A strand that a change has saved is still to be restored (R449). -/
def State.restoring (s : State) : Bool :=
  s.strands.any fun e => (s.ctx e.2.ctx).state == 2 && e.2.loc.isNone && match e.2.saved with
    | some l => decide (s.dsCur < l.die)
    | none => false

/-- DIESET_COMMIT (R449): steps 5 to 9, once every strand of the leaving dies is saved and their darning units are done; then step
10, which ends with the last saved strand's restore. Only behind it does another change begin (R450). -/
def execDiesetCommit (s : State) : Result :=
  match s.dsBusy with
  | none => .next s
  | some goal =>
    if goal = s.dsCur then
      if s.restoring then .next s
      else
        let s := { s with dsBusy := none }
        .next (if s.dsPend && s.timingStopped then s.diesetBegin s.dsReq else s)
    else
      let mode := s.reached goal
      let leaving := [0, 1, 2].filter fun d => decide (mode < d) && decide (d ≤ s.dsCur)
      let joining := [0, 1, 2].filter fun d => decide (s.dsCur < d) && decide (d ≤ mode)
      .next (if s.diesetWaits mode leaving joining then s else s.diesetMove goal mode leaving)

end Sys2Proof.Machine
end

