-- ==== Sys2Proof/Machine/Tile.lean ====
section
/-! DEFINITION. Mesh tiles (R451 to R465): heartbeats and votes, the fence of a core tile and of a slice tile, the fence
broadcast, the recovery of messages, self-test, probation and retirement. -/

namespace Sys2Proof.Machine

/-! Neighbours and votes. -/

/-- The neighbour on a side is a voter (R453). -/
def Die.voter (x : Die) (m side : Nat) : Bool :=
  match nbr m side with
  | some n => (x.tile n).up
  | none => false

/-- The votes against a tile reach the majority of its voters (R453). -/
def Die.majority (x : Die) (m : Nat) : Bool :=
  let vs := [0, 1, 2, 3].filter (x.voter m)
  decide (1 ≤ vs.length) && decide (vs.length / 2 + 1 ≤ (vs.filter fun k => nth false (x.tile m).votes k).length)

/-- Working tiles that a set of tiles reaches. -/
def Die.spread (x : Die) : Nat → List Nat → List Nat
  | 0, l => l
  | n + 1, l => x.spread n (distinct (l ++ l.flatMap fun m =>
      [0, 1, 2, 3].filterMap fun k => (nbr m k).bind fun t => if (x.tile t).up then some t else none))

/-- The tile has no voter, or reaches neither both controllers of column 2 nor both of column 3 (R453). -/
def Die.isolated (x : Die) (m : Nat) : Bool :=
  let l := x.spread 24 [m]
  let has (n : Nat) : Bool := match x.attach (.memory n) with
    | some r => l.contains r
    | none => false
  !([0, 1, 2, 3] : List Nat).any (x.voter m) || (!(has 0 && has 1) && !(has 2 && has 3))

/-- A vote is cast against a tile (R452, R453). -/
def Die.vote (x : Die) (m side cause : Nat) : Die :=
  let t := x.tile m
  if !t.up || !x.voter m side then x
  else
    let x := { x with tiles := modAt x.tiles m fun t => { t with
      votes := upd t.votes side true, good := upd t.good side 0, cause := cause,
      state := if t.state = 0 then 1 else t.state } }
    if x.majority m then { x with tiles := modAt x.tiles m fun t => { t with due := true } } else x

/-- A missed period or babbling seen in Probation fences at once (R462). -/
def Die.probationMiss (x : Die) (m : Nat) : Die :=
  if (x.tile m).state = 4 then { x with tiles := modAt x.tiles m fun t => { t with due := true, cause := 6 } } else x

/-- A vote that no longer stands (R452): with the last one the tile is Healthy again. -/
def MeshTile.unvote (t : MeshTile) (side : Nat) : MeshTile :=
  let v := upd t.votes side false
  let clear := !v.any id && t.state == 1 && !t.due
  { t with votes := v, state := if clear then 0 else t.state, cause := if clear then 0 else t.cause }

/-! The tile event (R464). -/

/-- Writes the tile event messages whose fence broadcasts have completed. -/
def State.payTile (s : State) (d : Nat) : State :=
  let x := s.die d
  if x.tileOwed.isEmpty then s
  else
    let waits (l : List Nat) : Bool := l.any fun n => s.msgs.any fun m => m.id == n
    let s := s.modDie d fun x => { x with tileOwed := x.tileOwed.filter waits }
    (x.tileOwed.filter fun l => !waits l).foldl (fun s _ => s.devPuts x.tlevAddr.toNat (leBytes 4 x.tlevData.toNat) noCtx) s

/-- The broadcasts about a tile that are under way. -/
def State.broadcastsOf (s : State) (d m : Nat) : List Nat :=
  (s.msgs.filter fun q => match q.body with
    | .fence e t _ _ => e == d && t == m
    | _ => false).map (·.id)

/-- Sets a tile's bit of TILEEVT: where the register was zero, a message is owed behind the tile's broadcast. -/
def State.tileEvent (s : State) (d m : Nat) : State :=
  (s.modDie d fun x => { x with
    tileEvt := x.tileEvt ||| (1#32 <<< m),
    tileOwed := if x.tileEvt = 0 then x.tileOwed ++ [s.broadcastsOf d m] else x.tileOwed }).payTile d

/-! Heartbeats. -/

/-- The side of a tile's neighbour, as the neighbour sees the tile. -/
def sides : List Nat := [0, 1, 2, 3]

/-- HEARTBEAT_SEND (R451): the tile's next heartbeat leaves on its sideband wires to every neighbour. FATAL stays once the tile's own
fault has set it. -/
def execHeartbeatSend (die tile : Nat) (fatal : Bool) (s : State) : Result :=
  let t := (s.die die).tile tile
  .next (if !t.up && !(t.state == 3 && t.appeal) then s
    else s.modTile die tile fun t => { t with
      seq := (t.seq + 1) % 65536, fatal := t.fatal || fatal,
      wire := sides.map fun k => if (nbr tile k).isSome then some (t.seq, t.fatal || fatal) else none })

/-- A tile that has passed its self-test and that all its voters have heard in three periods enters Probation (R461). -/
def State.appealDone (s : State) (d m : Nat) : State :=
  let x := s.die d
  let t := x.tile m
  let vs := [0, 1, 2, 3].filter (x.voter m)
  if t.state = 3 ∧ t.appeal ∧ vs.all (fun k => 3 ≤ nth 0 t.good k) ∧ !vs.isEmpty then
    (s.modTile d m fun t => { t with
      state := 4, appeal := false, appeals := t.appeals + 1, since := s.gtime, cause := 0, due := false,
      missed := List.replicate 4 0 }).tileEvent d m
  else s

/-- HEARTBEAT_RECEIVE (R452): the neighbour on a side receives the heartbeat that is on its wire. -/
def execHeartbeatReceive (die tile side : Nat) (s : State) : Result :=
  let x := s.die die
  let t := x.tile tile
  match nth none t.wire side with
  | none => .next s
  | some (seq, fatal) =>
    let s := s.modTile die tile fun t => { t with wire := upd t.wire side none }
    if !x.voter tile side then .next s
    else
      let right := seq == (nth 0 t.seen side + 1) % 65536
      let g := if right then min 3 (nth 0 t.good side + 1) else 0
      let s := s.modTile die tile fun t =>
        let t := { t with
          seen := upd t.seen side seq, good := upd t.good side g,
          missed := if right then upd t.missed side 0 else t.missed }
        if g = 3 ∧ nth false t.votes side ∧ !fatal then t.unvote side else t
      let s := if fatal then s.modDie die fun x => x.vote tile side 3 else s
      .next (s.appealDone die tile)

/-- HEARTBEAT_MISS (R452, R462): a period has passed in which the neighbour on a side received no correct heartbeat. -/
def execHeartbeatMiss (die tile side : Nat) (s : State) : Result :=
  if !(s.die die).voter tile side then .next s
  else
    let s := s.modTile die tile fun t => { t with
      missed := upd t.missed side (nth 0 t.missed side + 1), good := upd t.good side 0 }
    let s := s.modDie die fun x => x.probationMiss tile
    .next (if 3 ≤ nth 0 ((s.die die).tile tile).missed side then s.modDie die fun x => x.vote tile side 1 else s)

/-- A flit that R425 and R426 do not allow: its class, its destination or its length. -/
def badFlit (cls dst bits : Nat) : Bool := decide (5 < cls) || decide (72 ≤ dst) || bits != if cls ≤ 2 then 128 else 512

/-- BABBLE_DETECT (R452, R462): the monitor of the neighbour on a side sees a flit of the tile, sent without a credit or, more than 8
times within 2 µs, malformed. -/
def execBabbleDetect (die tile : Nat) (side : Flit) (s : State) : Result :=
  if !(s.die die).voter tile side.side || (side.credit && !badFlit side.cls side.dst side.bits) then .next s
  else
    let late := (nth [] ((s.die die).tile tile).mal side.side).filter fun g => decide (s.gtime < g + 2000)
    let mal := if badFlit side.cls side.dst side.bits then late ++ [s.gtime] else late
    let s := s.modTile die tile fun t => { t with mal := upd t.mal side.side mal }
    if side.credit && decide (mal.length ≤ 8) then .next s
    else
      let s := s.modTile die tile fun t => { t with good := upd t.good side.side 0 }
      let s := s.modDie die fun x => x.probationMiss tile
      .next (if ((s.die die).tile tile).state = 4 then s else s.modDie die fun x => x.vote tile side.side 2)

/-! The fence of a core tile (R290, R442, R460). -/

/-- A strand is resident on a core. -/
def State.isOn (s : State) (id d c : Nat) : Bool := s.posOf id == some (d, c)

/-- A surviving endpoint of an Orphaned channel receives CHORPHAN; a CHRECV that waits ends (R442). -/
def Strand.orphan (st : Strand) (ch : Nat) : Strand :=
  { st with
    pend := st.pend ++ [{
      info := { cause := .chorphan, epc := st.pc, emask := st.mask, detail := ch, eng := none }, reissue := false, op := 0 }],
    run := match st.run with
      | .waiting (.chrecv _ n _) _ => if n = ch then .ready else st.run
      | r => r }

/-- The endpoints of a channel (R435). -/
def Chan.ends (c : Chan) : List Nat := if c.state = 1 then distinct (c.recv :: c.senders) else c.senders

/-- Channels of one kernel with an endpoint on the core become Orphaned (R442). -/
def State.orphanKernel (s : State) (ctx kid d c : Nat) (k : Kernel) : State :=
  (k.chans.zipIdx).foldl (fun s p =>
    let es := p.1.ends
    if p.1.state ≤ 1 ∧ es.any (fun id => s.isOn id d c) then
      let s := s.modChan ctx kid p.2 fun x => { x with state := 2 }
      es.foldl (fun s id => if s.isOn id d c then s else s.modStrand id fun st => st.orphan p.2) s
    else s) s

/-- Items not yet completed that a core tile's fence touches: a strand is resident there or reached Exited there (R290). -/
def State.hitItems (s : State) (d c : Nat) : List (Nat × Nat × Nat) :=
  distinct (s.strands.filterMap fun e =>
    if (e.2.resident && e.2.d == d && e.2.k == c) || (e.2.run == .exited && e.2.lastCore == 16 * d + c) then
      some e.2.itemKey else none)

/-- A committed item takes its kernel with it when it is hit (R290). -/
def State.losesKernel (s : State) (key : Nat × Nat × Nat) : Bool :=
  match s.kernel key.1 key.2.1 with
  | some k => decide (k.state ≤ 1) && match tget k.items (k.idx key.2.2) with
    | some it => it.committed
    | none => false
  | none => false

/-- One item is lost or returned: its strands elsewhere are to be stopped and discarded, its exited ones are gone (R290). A kernel that
is lost drops its seeds (R381). -/
def State.hitItem (s : State) (key : Nat × Nat × Nat) : State :=
  let doom (e : Nat × Strand) : Nat × Strand :=
    if e.2.itemKey == key then (e.1, { e.2 with doomed := true, stop := e.2.stop || e.2.resident }) else e
  let left (e : Nat × Strand) : Bool := !(e.2.itemKey == key && e.2.run == .exited)
  let s := { s with strands := (s.strands.filter left).map doom }
  let s := if s.losesKernel key then s.seedDropKernel (key.1, key.2.1) else s
  s.modKernel key.1 key.2.1 fun k => match tget k.items (k.idx key.2.2) with
    | some it => if it.committed then
        { k with items := tput k.items (k.idx key.2.2) { it with lost := true }, state := if k.state ≤ 1 then 3 else k.state }
      else k
    | none => k

/-- The item is lost. -/
def State.isLost (s : State) (key : Nat × Nat × Nat) : Bool :=
  match (s.kernel key.1 key.2.1).bind fun k => tget k.items (k.idx key.2.2) with
  | some it => it.lost
  | none => false

/-- The fence of a core tile. -/
def State.fenceCore (s : State) (d c : Nat) : State :=
  let s := s.ctxs.foldl (fun s e => e.2.kernels.foldl (fun s k => s.orphanKernel e.1 k.1 d c k.2) s) s
  let hit := s.hitItems d c
  let s := hit.foldl State.hitItem s
  let told := distinct ((hit.filter s.isLost).map (·.1))
  let gone := (s.strands.filter fun e => e.2.doomed && ((e.2.resident && e.2.d == d && e.2.k == c) ||
    e.2.loc.isNone)).map (·.1)
  let s := gone.foldl State.discard s
  let s := hit.foldl (fun s key =>
    if s.strands.any fun e => e.2.itemKey == key then s else s.itemGone key.1 key.2.1 key.2.2) s
  let s := (s.core d c).seq.foldl State.letGo s
  let s := s.modCore d c fun x => { Core.idle with embUse := x.embUse }
  told.foldl (fun s n => s.ctxEvent n 1) s

/-! The fence of a slice tile (R458, R459). -/

/-- A line's bytes are lost (R459): a later write of the whole line alone brings it back. -/
def State.loseLine (s : State) (line : Nat) : State :=
  s.modDie (homeDie (128 * line)) fun x => { x with lost := addLine x.lost line }

/-- Lines leave the slices of a die unwritten: its copies of them and their dirt are gone. -/
def Die.forget (x : Die) (lines : List Nat) : Die :=
  { x with
    dirty := x.dirty.filter fun e => !lines.contains e.1, copies := x.copies.filter fun e => !lines.contains (lineOf e.1) }

/-- The fence of slice n. With its buddy up, the buddy holds its dirty lines in its mirror and serves them (R458); otherwise the dirty
lines that the slice held are lost, and their last writers are told (R459). What it held clean is gone. -/
def State.fenceSlice (s : State) (d n : Nat) : State :=
  let x := s.die d
  let y := x.slice n
  let clean := y.tags.order.filter fun l => !y.dirty.contains l
  let s := s.modDie d fun x => { x.modSlice n fun _ => SliceSt.empty with
    copies := x.copies.filter fun e => !(clean.contains (lineOf e.1)) || e.2.dirty }
  if !x.sliceDown (buddy n) then
    s.modDie d fun x => x.modSlice (buddy n) fun z => { z with dirty := y.dirty.foldl addLine z.dirty, mirror := [] }
  else
    let told := distinct (y.dirty.filterMap fun l => tget x.dirty l)
    let s := y.dirty.foldl State.loseLine (s.modDie d fun x => x.forget y.dirty)
    told.foldl (fun s c => s.ctxEvent c 1) s

/-! The fence. -/

/-- A broadcast about a tile, of its fence or of its return, leaves for every working tile of the die, and no copy of another is owed to
that tile (R433, R454, R462). -/
def State.broadcast (s : State) (d m : Nat) : State :=
  let cut (q : Msg) : Msg := match q.body with
    | .fence e t p r => if e == d then { q with body := .fence e t (p.filter (· != m)) (r.filter (· != m)) } else q
    | _ => q
  let s := { s with msgs := (s.msgs.map cut).filter fun q => match q.body with
    | .fence _ _ [] [] => false
    | _ => true }
  let ups := (List.range 24).filter fun n => n != m && ((s.die d).tile n).up
  if ups.isEmpty then s else s.send 5 (72 + d) (78 + d) (.fence d m ups [])

/-- Messages that lie in the fenced router between other parties are lost there (R456): of those named, the ones whose route passes it
in `s0`, the state before the fence. -/
def State.loseTransit (s s0 : State) (d m : Nat) (transit : List Nat) : State :=
  let hit (q : Msg) : Msg :=
    if transit.contains q.id && q.status == 0 && q.src != 24 * d + m && q.dst != 24 * d + m && s0.passes d m q && (match q.body with
        | .fence _ _ _ _ => false
        | _ => true) then { q with status := 1 } else q
  { s with msgs := s.msgs.map hit }

/-- A link neither of whose modules has working routers at both ends becomes Failed (R11, R454). -/
def State.fenceLinks (s : State) : State :=
  [0, 1, 2].foldl (fun s l =>
    if !s.moduleUp l 0 && !s.moduleUp l 1 && (s.link l).state != 4 then s.failLink l else s) s

/-- TILE_FENCE (R453, R454): a tile that has been voted out, or is isolated, is fenced; one whose appeals are spent is
retired. `transit` names the messages that lie in its router. -/
def execTileFence (die tile : Nat) (transit : List Nat) (s : State) : Result :=
  let x := s.die die
  let t := x.tile tile
  let iso := x.isolated tile
  if 3 ≤ die ∨ 24 ≤ tile ∨ !t.up ∨ !(t.due || (t.state != 4 && x.majority tile) || iso) then .next s
  else
    let cause := if t.due || x.majority tile then t.cause else 4
    let s0 := s
    let s := s.modTile die tile fun t => { t with
      state := if 3 ≤ t.appeals then 5 else 2, cause := cause, votes := List.replicate 4 false, due := false,
      appeal := false, since := s.gtime, fenceSeen := [], wire := List.replicate 4 none, mal := List.replicate 4 [] }
    let s := ((s.loseTransit s0 die tile transit).broadcast die tile).fenceLinks
    let s := match tileCore tile, tileSlice tile with
      | some c, _ => s.fenceCore die c
      | none, some n => s.fenceSlice die n
      | none, none => s
    .next (s.tileEvent die tile)

/-- MULTICAST_FORWARD (R433): a copy of a broadcast leaves on the output for a destination. -/
def execMulticastForward (message router : Nat) (s : State) : Result :=
  let go (q : Msg) : Msg :=
    if q.id != message then q
    else match q.body with
      | .fence d t p r => if p.contains router then { q with body := .fence d t (p.filter (· != router)) (r ++ [router]) } else q
      | _ => q
  .next { s with msgs := s.msgs.map go }

/-- The tile of the slice that serves the lines of a slice tile now. -/
def State.redirect (s : State) (d m : Nat) : Nat := match tileSlice m with
  | some n => 24 * d + sliceTile ((s.die d).serving n)
  | none => 24 * d + m

/-- Counts discarded messages in TILEDROP (R464). -/
def State.tileDropped (s : State) (d n : Nat) : State := s.modDie d fun x => { x with tileDrop := holdAdd x.tileDrop n }

/-- The message is addressed to a fenced tile and still counts as in transit; a broadcast is not. -/
def Msg.owedTo (q : Msg) (a : Nat) : Bool := q.dst == a && q.status == 0 && match q.body with
  | .fence _ _ _ _ => false
  | _ => true

/-- A router has received the broadcast of a tile's fence (R455): it drops the tile's own messages that pass it and discards those
for the tile, counted; a core tile then issues its own to the serving slice again. Sources of other dies do so at once. -/
def State.fenceMsgs (s : State) (d m r : Nat) : State :=
  let a := 24 * d + m
  let s := (s.msgs.filter fun q => q.src == a && s.passes d r q).foldl State.dropMsg s
  let away (q : Msg) : Bool := q.src / 24 != d
  let owed := s.msgs.filter fun q => q.owedTo a && (s.passes d r q || q.src == 24 * d + r || away q)
  let s := s.tileDropped d owed.length
  if (tileSlice m).isNone then owed.foldl State.dropMsg s
  else
    let out (q : Msg) : Msg :=
      if owed.contains q then { q with status := 1 } else q
    let again (q : Msg) : Msg :=
      if q.dst == a && q.status == 1 && (q.src == 24 * d + r || away q) then
        { q with dst := s.redirect d m, status := 0, reissue := true }
      else q
    { s with msgs := (s.msgs.map out).map again }

/-- Accesses in flight to the lines of a fenced slice: the requests that may be on their way to it (R455). -/
def State.toSlice (s : State) (d m : Nat) : Nat :=
  let here (a : Acc) : Bool := !a.done && a.win == .glob && homeDie a.pa == d && tileSlice m == some (sliceOf a.pa)
  s.strands.foldl (fun k e => k + (e.2.ops.filter fun o => !o.fin).foldl (fun k o => k + (o.accs.filter here).length) 0) 0

/-- FENCE_BROADCAST_RECEIVE (R455, R462): a tile receives its copy of the broadcast of a fence, or of a tile's return. The count of `receiver` of the
memory requests that are under way to a fenced slice are discarded at this router and counted; their cores issue them again. -/
def execFenceBroadcastReceive (die tile : Nat) (receiver : Discard) (s : State) : Result :=
  match s.msgs.find? fun q => match q.body with
    | .fence d t _ r => d == die && t == tile && r.contains receiver.tile
    | _ => false with
  | none => .next s
  | some q =>
    let got (m : Msg) : Msg := if m != q then m
      else match m.body with
        | .fence d t p r => { m with body := .fence d t p (r.filter (· != receiver.tile)) }
        | _ => m
    let s := { s with msgs := (s.msgs.map got).filter fun m => match m.body with
      | .fence _ _ [] [] => false
      | _ => true }
    if !((s.die die).tile tile).down then
      .next ((s.modTile die receiver.tile fun t => { t with fenceSeen := t.fenceSeen.filter (· != tile) }).payTile die)
    else
      let s := s.modTile die receiver.tile fun t => { t with fenceSeen := distinct (t.fenceSeen ++ [tile]) }
      let s := s.tileDropped die (min receiver.count (s.toSlice die tile))
      .next ((s.fenceMsgs die tile receiver.tile).payTile die)

/-! Tags (R456). -/

/-- The source of a message still waits for a fence broadcast. -/
def State.unaware (s : State) (src : Nat) : Bool :=
  s.msgs.any fun q => match q.body with
    | .fence d _ p r => decide (src < 72) && src / 24 == d && (p.contains (src % 24) || r.contains (src % 24))
    | _ => false

/-- A message about which its source sends a tag query: it lies lost in a router, or its way crossed one that is fenced (R456). A
reply's query comes from the core whose request it answers. -/
def State.queried (s : State) (q : Msg) : Bool :=
  (q.status == 1 || (q.status == 0 && s.crossesFenced q)) && s.portOpen q && match q.body with
    | .fence _ _ _ _ => false
    | .reply _ _ _ => !s.unaware q.dst
    | _ => !s.unaware q.src

/-- What the destination answers: "applied" (3) where it has the tags of the request on record, else "refused" (2). -/
def State.tagAnswer (s : State) (q : Msg) : Nat :=
  match q.body with
  | .reply id n _ => match s.strand id with
    | some st => match st.op n with
      | some o => if (s.recordedVals st o.applied).isSome then 3 else 2
      | none => 2
    | none => 2
  | _ => 2

/-- TAG_QUERY (R456): the destination answers the query about a message; a tag that it has not applied it records as refused. -/
def execTagQuery (message : Nat) (s : State) : Result :=
  let go (q : Msg) : Msg := if q.id == message && s.queried q then { q with status := s.tagAnswer q } else q
  .next { s with msgs := s.msgs.map go }

/-- TAG_ANSWER (R456): on "applied" the reply is sent again; on "refused" the source sends the message again with the reissue mark, or
the request whose reply was lost. -/
def execTagAnswer (message : Nat) (s : State) : Result :=
  match s.msgs.find? fun q => q.id == message && decide (2 ≤ q.status) with
  | none => .next s
  | some q =>
    let again : State := { s with msgs := s.msgs.map fun m =>
      if m.id == message then { m with status := 0, reissue := m.reissue || q.status == 2 } else m }
    match q.body with
    | .reply id n _ =>
      if q.status = 3 then .next again
      else .next ((s.gone q).modStrand id fun st => st.modOp n fun o => { o with applied := [] })
    | _ => .next again

/-! Self-test, appeal and probation. -/

/-- SELF_TEST_START (R461): one millisecond after the fence. -/
def execSelfTestStart (die tile : Nat) (s : State) : Result :=
  .next (s.modTile die tile fun t => if t.state = 2 ∧ t.since + 1000000 ≤ s.gtime then { t with state := 3 } else t)

/-- SELF_TEST_DONE (R461): a tile that passes sends heartbeats from 0; one that fails is retired. -/
def execSelfTestDone (die tile : Nat) (passed : Bool) (s : State) : Result :=
  let t := (s.die die).tile tile
  if t.state ≠ 3 ∨ t.appeal then .next s
  else if passed then
    .next (s.modTile die tile fun t => { t with
      appeal := true, seq := 0, fatal := false, seen := List.replicate 4 65535, good := List.replicate 4 0,
      missed := List.replicate 4 0 })
  else .next ((s.modTile die tile fun t => { t with state := 5, cause := 5 }).tileEvent die tile)

/-- A tile is Healthy again. -/
def Die.healed (x : Die) (m : Nat) : Die := { x with tiles := modAt x.tiles m fun t => { t with state := 0, cause := 0 } }
/-- Another slice serves a line once the tile is Healthy. -/
def Die.moves (x : Die) (m line : Nat) : Bool := x.serving (sliceOf (128 * line)) != (x.healed m).serving (sliceOf (128 * line))
/-- Dirty lines that are to move with the tile's return (R462). -/
def Die.owes (x : Die) (m : Nat) : List Nat := (x.slices.flatMap (·.dirty)).filter (x.moves m)

/-- The tile is Healthy: a slice has its lines back, of which the slice that served them keeps nothing, and the mirrors of the pair
start empty (R462). -/
def Die.handBack (x : Die) (m n : Nat) : Die :=
  let y := (x.healed m).modSlice n fun _ => SliceSt.empty
  let y := y.modSlice (buddy n) fun z => { z with mirror := [] }
  { y with
    slices := y.slices.map fun z => { z with tags := (z.tags.order.filter (x.moves m)).foldl CacheTags.drop z.tags },
    copies := x.copies.filter fun e => e.2.dirty || !x.moves m (lineOf e.1) }

/-- PROBATION_END (R462): after 100 ms the tile is Healthy. The slice that served the lines of a slice tile first writes back what it
holds dirty of them, and hands the home back with a broadcast. -/
def execProbationEnd (die tile : Nat) (s : State) : Result :=
  let t := (s.die die).tile tile
  if t.state ≠ 4 ∨ t.due ∨ s.gtime < t.since + 100000000 then .next s
  else
    match tileSlice tile with
    | none => .next ((s.modDie die (·.healed tile)).tileEvent die tile)
    | some n =>
      let s := ((s.die die).owes tile).foldl (fun s l => s.cleanLine die l) s
      if !((s.die die).owes tile).isEmpty then .next s
      else .next (((s.modDie die (·.handBack tile n)).tileEvent die tile).broadcast die tile)

end Sys2Proof.Machine
end

