-- ==== Sys2Proof/Machine/Darn.lean ====
section
/-! DEFINITION. The darning unit (R466 to R471) and the phase output port (R472 to R479). -/

namespace Sys2Proof.Machine

/-! The job record (R466). -/

def jobVin (r : List Byte) : Nat := recField r 0 8
def jobDin (r : List Byte) : Nat := recField r 8 8
def jobMot (r : List Byte) : Nat := recField r 16 8
def jobFov (r : List Byte) : Nat := recField r 24 8
def jobVout (r : List Byte) : Nat := recField r 32 8
def jobHoles (r : List Byte) : Nat := recField r 40 8
def jobW (r : List Byte) : Nat := recField r 52 2
def jobH (r : List Byte) : Nat := recField r 54 2
def jobHcap (r : List Byte) : Nat := recField r 56 4
def jobMode (r : List Byte) : Nat := recField r 60 1
def jobTol (r : List Byte) : Nat := recField r 61 1

/-- The ranges of a record as first byte and length: VIN, DIN, MOT, FOV, VOUT, HOLES. -/
def jobRanges (r : List Byte) : List (Nat × Nat) :=
  let n := jobW r * jobH r
  [(jobVin r, 4 * n), (jobDin r, 4 * n), (jobMot r, if jobMode r = 0 then 64 else 8 * n), (jobFov r, n / 256),
    (jobVout r, 8 * n), (jobHoles r, 16 + 4 * jobHcap r)]

/-- A well-formed record (R466). -/
def jobOk (r : List Byte) : Bool :=
  let size (v hi : Nat) : Bool := decide (16 ≤ v) && decide (v ≤ hi) && v % 16 == 0
  let rs := jobRanges r
  let meets (a b : Nat × Nat) : Bool := decide (a.1 < b.1 + b.2) && decide (b.1 < a.1 + a.2)
  let clear (i : Nat) : Bool := (rs.zipIdx).all fun e => e.2 == i || !meets e.1 (nth (0, 0) rs i)
  rs.all (fun e => decide (e.1 < 2 ^ 48) && e.1 % 256 == 0) && size (jobW r) 4096 && size (jobH r) 2048 &&
    decide (jobHcap r ≤ 2 ^ 23) && decide (jobMode r ≤ 1) && decide (4 ≤ jobTol r) && decide (jobTol r ≤ 16) &&
    recField r 48 4 == 0 && recField r 62 2 == 0 && clear 4 && clear 5

/-! DARN. -/

/-- Jobs that a die's darning unit holds. -/
def Die.jobs (x : Die) : Nat := x.darn.length + if x.darnRun.isSome then 1 else 0

/-- DARN (R467, R468): the record, and later the buffers, are read once the strand's earlier accesses are performed (R232, R242). -/
def execDarn (f : LFields) (s : State) : Result :=
  let i : Instr := .darn f
  let sp := rowOf i
  match issue i sp f noPre s with
  | .out o => o
  | .go x =>
    let st := x.st
    let st1 := { st with walkParked := false }
    let va := (st.sget64 (f.a.toNat - 0x80)).toNat
    let trap (c : Cause) : Result := .next (s.trapAtIssue x.id st c 0 x.adm)
    if x.adm = 0 then .next (s.finish x sp f 8 st)
    else if va / 2 ^ 48 ≠ 0 then trap .window
    else if va % 64 ≠ 0 then trap .align
    else if st.accPending then .next (s.holdOn x (.darn f))
    else
      match s.seedRead st va 4 with
      | (s1, .park) => .next (s1.xlPark x.id st 0 x.adm)
      | (s1, .wait) => .next (s1.holdOn { x with st := st1 } (.darn f))
      | (s1, .fault c lvl va) => .next (s1.xlFault x.id st1 0 x.adm [faultEntry va c lvl kRead] .instr)
      | (_, .bad c) => trap c
      | (s1, .ok r) =>
        if !jobOk r then trap .illop
        else if 8 ≤ (s1.die st.d).jobs then .next (s1.holdOn { x with st := st1 } (.darn f))
        else if st.full 4 then .next (s1.stallOn { x with st := st1 })
        else
          let j : Job :=
            { strand := x.id, opId := st.nextOp, ctx := st.ctx, pc := st.pc, bytes := r, core := st.k, kid := st.kid,
              iid := st.iid, sid := st.sid }
          let s2 := (s1.commit st).modDie st.d fun y => { y with darn := y.darn ++ [j] }
          .next (s2.finish x sp f 8 (st1.startOp 4 x.adm .darn [] []))

/-- DARN_JOB_START (R468): the lowest context PRIO, then the earliest. -/
def execDarnJobStart (die : Nat) (s : State) : Result :=
  let x := s.die die
  match x.darnRun, x.darn with
  | none, j :: r =>
    let best := r.foldl (fun (a b : Job) => if s.prio b.ctx < s.prio a.ctx then b else a) j
    .next (s.modDie die fun y => { y with darn := y.darn.erase best, darnRun := some best })
  | _, _ => .next s

/-! The job (R469 to R471). -/

/-- A finite value as an exact fraction n / d with d positive; none for NaN and infinity. -/
def realOf (bits : Nat) : Option (Int × Nat) :=
  match fmtF32.dec bits with
  | .fin n m e => if 0 ≤ e then some (sgn n m * (2 : Int) ^ e.toNat, 1) else some (sgn n m, 2 ^ (-e).toNat)
  | _ => none

/-- Sum and product of exact fractions. -/
def fAdd (a b : Int × Nat) : Int × Nat := (a.1 * b.2 + b.1 * a.2, a.2 * b.2)
def fMul (a b : Int × Nat) : Int × Nat := (a.1 * b.1, a.2 * b.2)

/-- A fraction rounded to FP32 under RNE (R469). -/
def fRound (a : Int × Nat) : Nat :=
  if a.1 = 0 then 0 else (roundFrac fmtF32 FEnv.plain (decide (a.1 < 0)) a.1.natAbs a.2 0).bits

/-- A rounded coordinate as a pixel, when it is finite and lies in [0, n). -/
def pixelOf (bits n : Nat) : Option Nat :=
  match realOf bits with
  | some (a, d) => if a < 0 ∨ (n : Int) * d ≤ a then none else some (a.toNat / d)
  | none => none

/-- The inputs of a job as read. -/
structure JobIn where
  w : Nat
  h : Nat
  mode : Nat
  tol : Nat
  hcap : Nat
  vin : List Nat
  din : List Nat
  mot : List Nat
  fov : List Nat

/-- Where a source pixel lands and with what depth (R469). -/
def JobIn.project (j : JobIn) (x y : Nat) (dep : Nat) : Option (Nat × Nat × Nat) :=
  let half (n : Nat) : Int × Nat := (2 * (n : Int) + 1, 2)
  let land (xn yn dn : Nat) : Option (Nat × Nat × Nat) :=
    match pixelOf xn j.w, pixelOf yn j.h, realOf dn with
    | some a, some b, some (v, _) => if 0 < v then some (a, b, dn) else none
    | _, _, _ => none
  match realOf dep with
  | none => none
  | some d =>
    if d.1 ≤ 0 then none
    else if j.mode = 0 then
      let vec := [fMul (half x) d, fMul (half y) d, d, (1, 1)]
      match (List.range 4).mapM fun r => (List.range 4).mapM fun c => realOf (nth 0 j.mot (4 * r + c)) with
      | none => none
      | some m =>
        let row (r : Nat) : Int × Nat := ((nth [] m r).zip vec).foldl (fun a p => fAdd a (fMul p.1 p.2)) (0, 1)
        let wh := row 3
        if wh.1 ≤ 0 then none
        else
          let perW (a : Int × Nat) : Int × Nat := (a.1 * wh.2, a.2 * wh.1.toNat)
          land (fRound (perW (row 0))) (fRound (perW (row 1))) (fRound (row 2))
    else
      let k := 2 * (y * j.w + x)
      match realOf (nth 0 j.mot k), realOf (nth 0 j.mot (k + 1)) with
      | some dx, some dy => land (fRound (fAdd (half x) dx)) (fRound (fAdd (half y) dy)) dep
      | _, _ => none

/-- The rate code of the cell of a pixel (R470). -/
def JobIn.code (j : JobIn) (x y : Nat) : Nat :=
  let c := nth 0 j.fov (y / 16 * (j.w / 16) + x / 16)
  if 3 < c then 0 else c

/-- The block that holds a pixel, by its top-left pixel's index; none in a skipped cell (R470). -/
def JobIn.block (j : JobIn) (x y : Nat) : Option Nat :=
  let c := j.code x y
  let z := 2 ^ c
  if c = 3 then none else some (y / z * z * j.w + x / z * z)

/-- Pass 1: the smallest key of every block (R469). -/
def JobIn.scatter (j : JobIn) : Tab Nat :=
  (List.range (j.w * j.h)).foldl (fun m k =>
    let v := nth 0 j.vin k
    if v = 0xFFFFFFFF then m
    else match j.project (k % j.w) (k / j.w) (nth 0 j.din k) with
      | none => m
      | some (a, b, dn) => match j.block a b with
        | none => m
        | some t =>
          let key := dn * 2 ^ 32 + v
          match tget m t with
          | some o => if key < o then tput m t key else m
          | none => tput m t key) []

/-- Pass 2: a block fails (R469, R470). -/
def JobIn.fails (j : JobIn) (m : Tab Nat) (t : Nat) : Bool :=
  match tget m t with
  | none => true
  | some key =>
    let x := t % j.w
    let y := t / j.w
    let z := 2 ^ j.code x y
    let near := (if x = 0 then [] else [(x - 1, y)]) ++ (if x + z < j.w then [(x + z, y)] else []) ++
      (if y = 0 then [] else [(x, y - 1)]) ++ (if y + z < j.h then [(x, y + z)] else [])
    let dep (k : Nat) : Int × Nat := (realOf (k / 2 ^ 32)).getD (0, 1)
    near.any fun p => match (j.block p.1 p.2).bind (tget m) with
      | none => false
      | some k =>
        let a := dep key
        let b := fMul (dep k) (2 ^ j.tol + 1, 2 ^ j.tol)
        decide (b.1 * a.2 < a.1 * b.2)

/-- The bytes of VOUT and of HOLES (R471). -/
def JobIn.outputs (j : JobIn) : List Byte × List Byte :=
  let m := j.scatter
  let bad := ((List.range (j.w * j.h)).filter fun k => j.block (k % j.w) (k / j.w) == some k).filter (j.fails m)
  let vout := (List.range (j.w * j.h)).flatMap fun k =>
    leBytes 8 (match j.block (k % j.w) (k / j.w) with
      | some t => if bad.contains t then 0x7F800000FFFFFFFF else (tget m t).getD 0
      | none => 0x7F800000FFFFFFFF)
  let entry (t : Nat) : Nat := t % j.w + 2 ^ 12 * (t / j.w) + 2 ^ 23 * j.code (t % j.w) (t / j.w)
  (vout, leBytes 4 bad.length ++ leBytes 12 (if j.hcap < bad.length then 1 else 0) ++
    (bad.take j.hcap).flatMap fun t => leBytes 4 (entry t))

/-! Its memory accesses. -/

/-- One access of the darning unit of a die for a job of a core (R212, R468). -/
def State.jobAddr (s : State) (d : Nat) (j : Job) (need va : Nat) : State × Except EStop Nat :=
  if 2 ^ 48 ≤ va then (s, .error (.err .window va))
  else match s.translate j.ctx d j.core none va need with
    | (s, .ok pa) => (s, .ok pa)
    | (s, .park) => (s, .error .park)
    | (s, .wait) => (s, .error .wait)
    | (s, .fault .page lvl) => (s, .error (.page (faultEntry va .page lvl need)))
    | (s, .fault c _) => (s, .error (.err c va))

/-- Reads n items of k bytes through the issuing core's column (R242). -/
def State.jobRead (s : State) (d : Nat) (j : Job) (k va : Nat) : Nat → State × Except EStop (List Nat)
  | 0 => (s, .ok [])
  | n + 1 =>
    match s.jobAddr d j kRead va with
    | (s, .error e) => (s, .error e)
    | (s, .ok pa) =>
      if s.readHeld d j.core pa k then (s, .error .wait)
      else match s.coreBads d j.core pa k with
      | some c => (s, .error (.err c va))
      | none => match s.jobRead d j k (va + k) n with
        | (s, .ok l) => (s, .ok (leVal (s.coreGets d j.core pa k) :: l))
        | r => r

/-- The job's strand is on another core than that of its issue. -/
def State.jobAway (s : State) (d : Nat) (j : Job) : Bool := s.posOf j.strand != some (d, j.core)

/-- Writes words of 4 bytes in the issuing core's column (R242). When the strand has left the core they wait for links that retrain, since
they are then to be written back. -/
def State.jobWrite (s : State) (d : Nat) (j : Job) (va : Nat) : List (List Byte) → State × Except EStop Unit
  | [] => (s, .ok ())
  | w :: r =>
    match s.jobAddr d j kWrite va with
    | (s, .error e) => (s, .error e)
    | (s, .ok pa) =>
      if s.putHeld d j.core pa 0 || (s.jobAway d j && s.linkSlow d (homeDie pa)) then (s, .error .wait)
      else (s.corePuts d j.core pa w j.ctx 0).jobWrite d j (va + 4) r

/-- What a job has written is seen by its strand behind the join (R232): where the strand is no longer on the core of the issue, that core
releases, and the strand's last core acquires. -/
def State.jobJoin (s : State) (d : Nat) (j : Job) : State :=
  if !s.jobAway d j then s
  else
    let s := s.release d j.core 4 true
    match s.strand j.strand with
    | some st => if st.resident then s.acquire st.d st.k 4 true else s.acquire (st.lastCore / 16) (st.lastCore % 16) 4 true
    | none => s

/-- Bytes in words of 4. -/
def words4 (bs : List Byte) : List (List Byte) := (List.range (bs.length / 4)).map fun k => (bs.drop (4 * k)).take 4

/-- The whole job: its inputs, then VOUT, then HOLES. -/
def State.jobRun (s : State) (d : Nat) (j : Job) : State × Option EStop :=
  let r := j.bytes
  let n := jobW r * jobH r
  match s.jobRead d j 4 (jobVin r) n with
  | (s, .error e) => (s, some e)
  | (s, .ok vin) =>
    match s.jobRead d j 4 (jobDin r) n with
    | (s, .error e) => (s, some e)
    | (s, .ok din) =>
      match s.jobRead d j 4 (jobMot r) (if jobMode r = 0 then 16 else 2 * n) with
      | (s, .error e) => (s, some e)
      | (s, .ok mot) =>
        match s.jobRead d j 1 (jobFov r) (n / 256) with
        | (s, .error e) => (s, some e)
        | (s, .ok fov) =>
          let o := JobIn.outputs
            { w := jobW r, h := jobH r, mode := jobMode r, tol := jobTol r, hcap := jobHcap r, vin := vin, din := din,
              mot := mot, fov := fov }
          match s.jobWrite d j (jobVout r) (words4 o.1) with
          | (s, .error e) => (s, some e)
          | (s, .ok ()) =>
            match s.jobWrite d j (jobHoles r) (words4 o.2) with
            | (s, .error e) => (s, some e)
            | (s, .ok ()) => (s.jobJoin d j, none)

/-- The job ends: its counter falls, and an error goes to its strand, or to the log when the strand is gone (R212, R468). -/
def State.jobEnd (s : State) (d : Nat) (j : Job) (e : Option EngErr) : State :=
  let s := s.modDie d fun x => { x with darnRun := none }
  match s.strand j.strand with
  | some _ => s.engDone j.strand j.opId e
  | none => match e with
    | some e => s.logError j.ctx (16 * d + j.core) (causeWord e.cause 0 (some 4)) j.pc e.va j.kid j.iid j.sid e.time
    | none => s

/-- DARN_JOB_COMPLETE (R471): the running job does its work and ends; a missing page makes it wait for its batch. -/
def execDarnJobComplete (die : Nat) (s : State) : Result :=
  match (s.die die).darnRun with
  | none => .next s
  | some j =>
    let key := keyOf [j.strand, j.opId]
    if s.engWaits j.ctx j.strand j.opId || (s.ctx j.ctx).parkedUnits.contains (1, key) then .next s
    else match s.jobRun die j with
      | (s1, none) => .next (s1.jobEnd die j none)
      | (s1, some (.err c va)) =>
        .next (s1.jobEnd die j (some { path := 4, cause := c, pc := j.pc, va := va, time := s.gtime }))
      | (_, some (.page e)) =>
        .next (if (s.ctx j.ctx).state = 5 then s.jobEnd die j none else s.openBatch j.ctx
          { seq := 0, src := 1, die := die, core := j.core, pc := j.pc, kid := j.kid, iid := j.iid, sid := j.sid,
            strand := some j.strand, op := j.opId, entries := [e] })
      | (_, some .park) => .next (s.unitPark j.ctx
          { src := 1, die := die, core := j.core, kid := j.kid, iid := j.iid, sid := j.sid, key := key })
      | (_, some .wait) => .next s

/-! The phase output port. -/

def Port.owner (p : Port) : Nat := nbits p.ctl.toNat 0 12
def Port.codeBits (p : Port) : Nat := nbits p.ctl.toNat 16 4
def Port.driveBits (p : Port) : Nat := nbits p.ctl.toNat 20 4
def Port.hact (p : Port) : Nat := p.geom.toNat / 2 ^ 16
def Port.vact (p : Port) : Nat := p.geom.toNat % 2 ^ 16
def Port.vbl (p : Port) : Nat := p.tim.toNat / 2 ^ 16
def Port.lineNs (p : Port) : Nat := p.tim.toNat % 2 ^ 16
/-- The timing generator runs: Idle or Scanning (R479). -/
def Port.runs (p : Port) : Bool := decide (2 ≤ p.state)

/-- Codes in a 24-bit slot (R474), and the slots of a line. -/
def Port.perSlot (p : Port) : Nat := if p.driveBits = 8 then 3 else 2
def Port.slots (p : Port) : Nat := (p.hact + p.perSlot - 1) / p.perSlot

/-- ENABLE is accepted (R22, R472). -/
def Port.enableOk (p : Port) (die : Nat) : Bool :=
  let dw := p.driveBits
  let dim (v hi : Nat) : Bool := decide (64 ≤ v) && decide (v ≤ hi) && v % 64 == 0
  (dw == 8 || dw == 10 || dw == 12) && decide (1 ≤ p.codeBits) && decide (p.codeBits ≤ 12) && dim p.hact 4096 &&
    dim p.vact 2048 && decide (1 ≤ p.vbl) && decide (p.vbl ≤ 1023) && decide (1 ≤ p.lineNs) &&
    p.ctl.toNat / 2 ^ 24 == 0 && nbits p.ctl.toNat 12 4 == 0 && p.cal.toNat % 4096 == 0 &&
    decide (8300000 ≤ (p.vact + p.vbl) * p.lineNs) &&
    (if Config.cPhy die then decide (24 * p.slots * 7 ≤ p.lineNs * 288) else decide (24 * p.slots ≤ p.lineNs * 18))

def State.modPort (s : State) (d : Nat) (g : Port → Port) : State := s.modDie d fun x => { x with port := g x.port }

/-- What waits for a frame boundary takes place when D0's timing generator stops (R423, R449). -/
def State.afterStop (s : State) (d : Nat) : State := if d = 0 ∧ s.timingStopped then s.frameBoundary else s

/-- ENABLE (R479): only an Off port takes it. -/
def State.portEnable (s : State) (d : Nat) : State :=
  s.modPort d fun p =>
    if p.state ≠ 0 then p
    else if !p.enableOk d then { p with err := true }
    else { p with err := false, state := if p.slm then 2 else 1, line := p.vact, cur := none }

/-- DISABLE (R479). -/
def State.portDisable (s : State) (d : Nat) : State :=
  (s.modPort d fun p => { p with state := 0, queue := [], cur := none, ret := p.last }).afterStop d

def execEnable (die : Nat) (s : State) : Result := .next (s.portEnable die)
def execDisable (die : Nat) (s : State) : Result := .next (s.portDisable die)

/-- SLM_ATTACH (R23): a port without an SLM is held in ULPS. -/
def execSlmAttach (die : Nat) (attached : Bool) (s : State) : Result :=
  .next ((s.modPort die fun p => { p with
    slm := attached,
    state := if p.state = 1 ∧ attached then 2 else if 2 ≤ p.state ∧ !attached then 1 else p.state }).afterStop die)

/-- VBLANK_START (R478, R479): the oldest queued frame replaces the scanned one, which retires. On D0 it is the frame boundary
of R423 and R449. -/
def execVblankStart (die : Nat) (s : State) : Result :=
  let p := (s.die die).port
  if !p.runs || (p.state == 3 && decide (p.line < p.vact)) then .next s
  else
    let s := s.modPort die fun p =>
      let p := { p with vs := s.gtime, line := 0 }
      match p.queue with
      | q :: r => { p with
          state := 3, queue := r, cur := some q,
          ret := match p.cur with
            | some o => o.1
            | none => p.ret }
      | [] => p
    .next (if die = 0 then s.frameBoundary else s)

/-- A pixel's code from the scanned frame, read at its home, the point of the package scope of R477, and whether it was substituted
(R475); none while the read must wait. -/
def State.scanPixel (s : State) (d : Nat) (p : Port) (x : Nat) : Option (Nat × Bool) :=
  match p.cur with
  | none => some (0, false)
  | some (_, ctx, va) =>
    match s.devXlate d ctx (va + 2 * (p.line * p.hact + x)) kRead with
    | .park | .wait => none
    | .fault _ _ => some (Config.scanCode s.gtime p.line x % 2 ^ 12, false)
    | .ok pa =>
      if s.heldFrom d pa then none
      else if ((List.range 2).findSome? fun i => s.readBadFrom d (pa + i)).isSome then some (0, true)
      else some (leVal (cgets s.mem pa 2) % 2 ^ 12, false)

/-- The drive code of a pixel (R473). -/
def State.driveCode (s : State) (p : Port) (x code : Nat) : Nat :=
  let n := 2 ^ p.codeBits
  let wz := p.hact / 64
  let z := p.line / 64 * wz + x / 64
  let word (a : Nat) : Nat := leVal (cgets s.mem a 2)
  let off := word (p.cal.toNat + p.vact / 64 * wz * 2 * n + 2 * (p.line * p.hact + x))
  word (p.cal.toNat + 2 * n * z + 2 * ((code % n + off % n) % n)) % 2 ^ p.driveBits

/-- Packs drive codes into slots (R474). -/
def packSlots (per step : Nat) (l : List Nat) : Nat → List (BitVec 24)
  | 0 => []
  | n + 1 => BitVec.ofNat 24 ((l.take per).zipIdx.foldl (fun v e => v + e.1 * 2 ^ (step * e.2)) 0) ::
      packSlots per step (l.drop per) n

/-- SCANOUT_LINE (R475): the next line of the active period is read and sent. -/
def execScanoutLine (die : Nat) (s : State) : Result :=
  let p := (s.die die).port
  if !p.runs || decide (p.vact ≤ p.line) then .next s
  else match (List.range p.hact).mapM (s.scanPixel die p) with
    | none => .next s
    | some l =>
      let codes := (l.zipIdx).map fun e => s.driveCode p e.2 e.1.1
      let n := (l.filter (·.2)).length
      .next (s.modPort die fun p => { p with
        line := p.line + 1, derr := holdAdd p.derr n,
        driven := packSlots p.perSlot (24 / p.perSlot) codes p.slots })

/-! DISPQ. -/

/-- A port number above 2 (R476). -/
def portPre (f : LFields) (st : Strand) (m : Mask) : Option Nat := if m ≠ 0 ∧ 2 < st.arg f.b then some 0 else none

/-- DISPQ's result and effect (R477). -/
def State.queueFrame (s : State) (d ctx va : Nat) : State × Nat :=
  let p := (s.die d).port
  if !p.runs then (s, 0xFFFF0001)
  else if 3 ≤ p.queue.length then (s, 0xFFFF0002)
  else if p.owner ≠ ctx then (s, 0xFFFF0003)
  else
    let n := p.last % 0xFFFEFFFF + 1
    (s.modPort d fun p => { p with last := n, queue := p.queue ++ [(n, ctx, va)] }, n)

/-- DISPQ, the queue form (R476, R477): held while the link to the port's die trains; a Failed one loses the request, and the context is
told (R432). -/
def execDispq (f : LFields) (s : State) : Result :=
  let i : Instr := .dispq f
  let sp := rowOf i
  match issue i sp f (portPre f) s with
  | .out o => o
  | .go x =>
    let st := x.st
    let va := (st.sget64 (f.a.toNat - 0x80)).toNat
    if x.adm = 0 then .next (s.finish x sp f 8 st)
    else if va / 2 ^ 48 ≠ 0 then .next (s.trapAtIssue x.id st .window 0 x.adm)
    else if va % 256 ≠ 0 then .next (s.trapAtIssue x.id st .align 0 x.adm)
    else if s.linkDead st.d (st.arg f.b) then .next ((s.holdOn x (.dispq f)).ctxEvent st.ctx 1)
    else if s.relBlocked st || s.linkSlow st.d (st.arg f.b) then .next (s.holdOn x (.dispq f))
    else
      let (s, n) := ((s.relAct st 4).commit st).queueFrame (st.arg f.b) st.ctx va
      .next (s.finish x sp f 8 (st.sset (f.d.toNat - 0x80) (BitVec.ofNat 32 n)))

/-- DISPQ.query (R478). -/
def execDispqQuery (f : LFields) (s : State) : Result :=
  let i : Instr := .dispqQuery f
  let sp := rowOf i
  match issue i sp f (portPre f) s with
  | .out o => o
  | .go x =>
    let st := x.st
    if x.adm = 0 then .next (s.finish x sp f 8 st)
    else if s.linkDead st.d (st.arg f.b) then .next ((s.holdOn x (.dispqQuery f)).ctxEvent st.ctx 1)
    else if s.linkSlow st.d (st.arg f.b) then .next (s.holdOn x (.dispqQuery f))
    else .next (s.finish x sp f 8 (st.sset (f.d.toNat - 0x80) (BitVec.ofNat 32 (s.die (st.arg f.b)).port.ret)))

end Sys2Proof.Machine
end

