-- ==== Sys2Proof/Machine/Context.lean ====
section
/-! DEFINITION. Contexts (R249 to R256, R265), sweeps (R395, R396) and the writing and resolution of fault batches (R397 to
R402). -/

namespace Sys2Proof.Machine

/-! Commands (R253, R255, R256). -/

/-- CTX_ERR takes the result of a command or a refused write (R251). -/
def State.ctxErr (s : State) (n e : Nat) : State := s.modCtx n fun x => { x with err := e }

/-- A command carried out: CTX_ERR 0. -/
def State.ctxDo (s : State) (n : Nat) (ok : Bool) (g : State → State) : State :=
  if 4096 ≤ n then s else if ok then (g s).ctxErr n 0 else s.ctxErr n 1

/-- CREATE: every register of the window is zero. -/
def State.create (s : State) (n : Nat) : State :=
  let k := (s.ctx n).state
  s.ctxDo n (k == 0 || k == 6) fun s => s.putCtx n { Ctx.free with state := 1 }

/-- The checks of START (R255, R389, R395). -/
def State.startOk (s : State) (x : Ctx) : Bool :=
  let low (v : DWord) : Bool := decide (v.toNat < 2 ^ 48)
  let r := x.root.toNat
  x.save != 0 && x.save.toNat % 2 ^ 21 == 0 && low x.save && (x.tvec == 0 || (x.tvec.toNat % 2 == 0 && low x.tvec)) &&
    x.elog.toNat % 4096 == 0 && low x.elog && r % 2 == 1 && nbits r 1 11 == 0 && decide (r < 2 ^ 46) &&
    s.paOk (nbits r 12 34 * 4096) && x.fbase != 0 && x.fbase.toNat % 2 ^ 14 == 0

/-- START. -/
def State.start (s : State) (n : Nat) : State :=
  if 4096 ≤ n then s
  else if (s.ctx n).state ≠ 1 then s.ctxErr n 1
  else if !s.startOk (s.ctx n) then s.ctxErr n 2
  else s.modCtx n fun x => { x with state := 2, elogSeq := 0, err := 0 }

/-- SUSPEND: every resident strand is to be saved. -/
def State.suspend (s : State) (n : Nat) : State :=
  s.ctxDo n ((s.ctx n).state == 2) fun s => (s.modCtx n fun x => { x with state := 3 }).stopStrands n

/-- RESUME: each limit of R412 starts anew; parked writes that a Stopped context still had to replay come first even after a
SUSPEND (R256). -/
def State.resumeCtx (s : State) (n : Nat) : State :=
  let x := s.ctx n
  s.ctxDo n ((x.state == 3 || x.state == 4) && nbits x.event.toNat 0 3 == 0) fun s =>
    let again (p : Parked) : Parked := if p.ctx = n then { p with since := s.gtime, raised := false } else p
    let s := { s with dies := s.dies.map fun (d : Die) => { d with parked := d.parked.map again } }
    s.modCtx n fun x => { x with replay := x.replay || x.state == 4, state := 2, memfull := false }

/-- RETIRE: strands stop and are discarded unsaved, queues are closed, kernels are Lost and drop their seed records, and batches
are void (R256, R292, R304, R381, R402). -/
def State.retireCtx (s : State) (n : Nat) : State :=
  let k := (s.ctx n).state
  s.ctxDo n (1 ≤ k && k ≤ 4) fun s =>
    let s := (s.ctx n).kernels.foldl (fun s e => s.seedDropKernel (n, e.1)) s
    let s := s.modCtx n fun x => { x with
      state := 5, forming := [], batches := [], retries := [], parkedUnits := [],
      kernels := x.kernels.map fun e => (e.1, { e.2 with state := 3 }) }
    let doom (e : Nat × Strand) : Nat × Strand :=
      if e.2.ctx == n then
        (e.1, { e.2 with
          doomed := true, stop := e.2.stop || e.2.resident, ahead := none, hold := none, walkParked := false })
      else e
    let s := (s.qRetire n)
    let s := { s with strands := s.strands.map doom }
    let gone := (s.strands.filter fun e => e.2.ctx == n && e.2.loc.isNone).map (·.1)
    gone.foldl State.discard s

/-- ACK. -/
def State.ack (s : State) (n : Nat) : State :=
  let k := (s.ctx n).state
  s.ctxDo n (1 ≤ k && k ≤ 4) fun s => s.modCtx n fun x => { x with elovf := false }

/-- A write of CTX_CMD (R253). -/
def State.ctxCmd (s : State) (n v : Nat) : State :=
  match v with
  | 1 => s.create n
  | 2 => s.start n
  | 3 => s.suspend n
  | 4 => s.resumeCtx n
  | 5 => s.retireCtx n
  | 6 => s.ack n
  | _ => if n < 4096 then s.ctxErr n 2 else s

def execCreateCtx (ctx : Nat) (s : State) : Result := .next (s.create ctx)
def execStartCtx (ctx : Nat) (s : State) : Result := .next (s.start ctx)
def execSuspendCtx (ctx : Nat) (s : State) : Result := .next (s.suspend ctx)
def execResumeCtx (ctx : Nat) (s : State) : Result := .next (s.resumeCtx ctx)
def execRetireCtx (ctx : Nat) (s : State) : Result := .next (s.retireCtx ctx)
def execAckCtx (ctx : Nat) (s : State) : Result := .next (s.ack ctx)

/-- The bits of CTX_CFG that a write holds (R254). -/
def cfgMask : Word := 0x73

/-- A write of CTX_CFG (R254): PRIV changes only in Building, the rest in Building and Suspended. -/
def State.writeCfg (s : State) (n : Nat) (v : Word) : State :=
  let x := s.ctx n
  let w := v &&& cfgMask
  if 4096 ≤ n then s
  else if w = x.cfg ∨ x.state = 1 ∨ (x.state = 3 ∧ w.getLsbD 6 = x.cfg.getLsbD 6) then s.modCtx n fun x => { x with cfg := w }
  else s.ctxErr n 1

/-- CTX_CFG_WRITE (R254). -/
def execCtxCfgWrite (ctx : Nat) (value : BitVec 32) (s : State) : Result := .next (s.writeCfg ctx value)

/-- A write of EMB (R265): a 32 MiB area of the die's own memory, or 0, while no context has SPILL set. -/
def State.writeEmb (s : State) (d c : Nat) (v : DWord) : State :=
  let a := v.toNat
  let ok := a % 2 ^ 25 == 0 && (a == 0 || (homeDie a == d && decide (a % 2 ^ 44 + 2 ^ 25 ≤ s.advertised))) &&
    !s.ctxs.any fun e => e.2.spill
  if ok then s.modDie d fun x => { x with emb := upd x.emb c v } else s

/-- EMB_WRITE (R265). -/
def execEmbWrite (die core : Nat) (value : BitVec 64) (s : State) : Result := .next (s.writeEmb die core value)

/-! Sweeps (R395, R396). -/

/-- Translations overlap a sweep: an entry of the given size at a page number. -/
def Sweep.covers (w : Sweep) (page shift : Nat) : Bool :=
  w.all || (decide (page * 2 ^ shift < w.va + 2 ^ w.shift) && decide (w.va < (page + 1) * 2 ^ shift))

/-- A write of CTX_INV. -/
def State.writeInv (s : State) (n : Nat) (v : DWord) : State :=
  let a := v.toNat
  if 4096 ≤ n then s
  else if a / 2 ^ 48 ≠ 0 ∨ nbits a 6 6 ≠ 0 ∨ a % 4 ≠ 0 then s.ctxErr n 2
  else
    let sh := nth 12 [12, 16, 21, 30] (nbits a 2 2)
    let va := a / 2 ^ sh * 2 ^ sh
    s.modCtx n fun x => { x with
      sweeps := x.sweeps ++ [{ va := va, shift := sh, all := nbits a 4 1 == 1, md := nbits a 5 1 == 1 }] }

/-- SWEEP_RANGE and SWEEP_ALL (R396): a write of CTX_INV with ALL clear, and with ALL set. -/
def execSweepRange (ctx : Nat) (value : BitVec 64) (s : State) : Result :=
  .next (if value.getLsbD 4 then s else s.writeInv ctx value)
def execSweepAll (ctx : Nat) (value : BitVec 64) (s : State) : Result :=
  .next (if value.getLsbD 4 then s.writeInv ctx value else s)

/-- Removes from the caches of the dies that a sweep reaches what it covers. -/
def State.sweepCaches (s : State) (n : Nat) (w : Sweep) (at_ : Nat → Bool) : State :=
  let keep (t : Tlb) : Bool := t.ctx != n || !w.covers t.page t.shift
  let keepNode (t : NodeEnt) : Bool := t.ctx != n || !w.covers t.va (levelShift t.level)
  let lane (l : Nat × Lane) : Nat × Lane := (l.1, { l.2 with lastPage := l.2.lastPage.filter keep })
  ([0, 1, 2] : List Nat).foldl (fun s d => if !at_ d then s else s.modDie d fun x => { x with
      nodeCache := x.nodeCache.filter keepNode,
      cores := x.cores.map fun c => { c with tlb := c.tlb.filter keep, lanes := c.lanes.map lane } }) s

/-- A die caches translations of a context. -/
def Die.cachesOf (x : Die) (n : Nat) : Bool :=
  (x.nodeCache.any fun t => t.ctx == n) || x.cores.any fun c =>
    (c.tlb.any fun t => t.ctx == n) || c.lanes.any fun l => l.2.lastPage.any fun t => t.ctx == n

/-- An access of the context that may have translated through an entry that overlaps the sweep, a leaf of 1 GiB being the largest,
has not been performed. -/
def State.sweepWaits (s : State) (n : Nat) (w : Sweep) : Bool :=
  s.strands.any fun e => e.2.ctx == n && e.2.ops.any fun o => !o.fin && o.accs.any fun a =>
    !a.done && a.win == .glob && w.covers (a.va / 2 ^ 30) 30

/-- Everything that a context has written is performed at system scope. -/
def State.flushCtx (s : State) (n : Nat) : State :=
  let own (l : Tab CByte) (a : Nat) : Bool := match tget l a with
    | some b => b.ctx == n
    | none => false
  let s := s.allCores.foldl (fun s p => s.writeBackL1 p.1 p.2 (own (s.core p.1 p.2).l1)) s
  [0, 1, 2].foldl (fun s d => s.writeBackDie d (own (s.die d).copies)) s

/-- Data that the context has written still waits for a link. -/
def State.ctxDirty (s : State) (n : Nat) : Bool :=
  [0, 1, 2].any fun d => (s.die d).copies.any fun e => e.2.dirty && e.2.ctx == n && s.linkSlow d (homeDie e.1)

/-! Retries of units of the device (R399, R402). -/

/-- A core's record in the emergency area is copied to the save area, and the area is freed (R266). -/
def State.retrySave (s : State) (n i va : Nat) : State :=
  let at_ : Loc := { die := i / 16, core := i % 16, lane := 0, place := 0 }
  let b := s.recBase n i
  let ofStrands := s.strands.flatMap fun e => if e.2.inRecord n at_ then e.2.savedPages else []
  let ofItems := (s.ctx n).kernels.flatMap fun k => k.2.items.flatMap fun it => it.2.savedPages
  let again (s : State) (key va : Nat) : State := s.modCtx n fun x => { x with retries := x.retries ++ [(key, .save i va)] }
  match s.pagesStop (i / 16) n kWrite (distinct (ofStrands ++ ofItems.filter fun a => decide (b ≤ a) && decide (a < b + 0x02000000))) with
  | .ok => s.freeEmb n i
  | .lost => (s.ctxEvent n 1).freeEmb n i
  | .wait => again s slowRetry va
  | .park => again s parkedRetry va
  | .fault c lvl a =>
    let s := s.unitBatch n (saveSource 0 0 0 (i / 16) (i % 16)) (faultEntry a c lvl kWrite)
    again s (s.ctx n).lastBatch a

/-- One retry. -/
def State.retryOne (s : State) (n : Nat) : Retry → State
  | .append r => s.appendLaunch n r
  | .done kid => s.writeDone n kid
  | .doneAt a c => s.devWrite 0 0 n a (leBytes 8 c) 0 (.doneAt a c)
  | .elog u bs => s.putLog n u bs
  | .reload _ _ => s
  | .save i va => s.retrySave n i va
  | .cons ptr => s.launchCons n ptr
  | .quar va r => s.qPutBad n va r

/-- The retries that wait under a key are made, in order. -/
def State.runRetries (s : State) (n key : Nat) : State :=
  let go := (s.ctx n).retries.filter fun r => r.1 == key
  let s := s.modCtx n fun x => { x with retries := x.retries.filter fun r => r.1 != key }
  go.foldl (fun s r => s.retryOne n r.2) s

/-- The computing dies that a sweep must still reach: it is broadcast from D0 (R426, R433). -/
def State.sweepTo (s : State) (p : Nat → Bool) : Bool := [0, 1, 2].any fun e => s.computing e && p e

/-- Parked walks of a context restart (R392). -/
def State.unpark (s : State) (ctx : Nat) : State :=
  let free (e : Nat × Strand) : Nat × Strand :=
    if e.2.ctx == ctx then (e.1, { e.2 with walkParked := false, ops := e.2.ops.map fun o => { o with parked := false } }) else e
  let s := { s with strands := s.strands.map free }
  let s := s.modCtx ctx fun x => { x with parkedUnits := [] }
  (s.runRetries ctx parkedRetry).qRetryAll ctx

/-- The state lines that a sweep covers are translated again (R445). -/
def State.rerootAll (s : State) (ctx : Nat) (w : Sweep) : State :=
  (s.ctx ctx).kernels.foldl (fun s k => (List.range k.2.reds.length).foldl (fun s n =>
    if w.covers (s.redLine ctx k.1 n / 4096) 12 then s.reroot ctx k.1 n else s) s) s

/-- SWEEP_COMPLETE (R396): the context's oldest sweep ends; with MD its parked walks restart (R392). It waits for a link that
retrains; over a Failed link it is lost, and the context told, while the die behind holds translations (R432). -/
def execSweepComplete (ctx : Nat) (s : State) : Result :=
  match (s.ctx ctx).sweeps with
  | [] => .next s
  | w :: r =>
    if s.sweepWaits ctx w || s.sweepTo (s.linkSlow 0) then .next s
    else
      let s := (s.sweepCaches ctx w fun e => !s.linkDead 0 e).flushCtx ctx
      if s.ctxDirty ctx then .next s
      else if s.sweepTo fun e => s.linkDead 0 e && (s.die e).cachesOf ctx then .next (s.ctxEvent ctx 1)
      else
        let s := s.modCtx ctx fun x => { x with sweeps := r, invcnt := (x.invcnt + 1) % 2 ^ 32 }
        let s := s.rerootAll ctx w
        .next (if w.md then s.unpark ctx else s)

/-! Batches (R397, R398, R402). -/

/-- One entry of a record. -/
def BatchEntry.word (e : BatchEntry) : Nat := e.page * 4096 + e.level * 2 ^ 8 + batchCause e.cause * 2 ^ 4 + e.kind

/-- The 512 bytes of a batch record (R398). -/
def Batch.bytes (b : Batch) : List Byte :=
  let es := b.entries.flatMap fun e => leBytes 8 e.word
  leBytes 4 b.seq ++ leBytes 1 b.entries.length ++ leBytes 1 b.src ++ leBytes 1 b.die ++ leBytes 1 b.core ++
    leBytes 8 b.pc.toNat ++ leBytes 4 b.kid ++ leBytes 4 b.iid ++ leBytes 4 b.sid ++ leBytes 36 0 ++ es ++
    leBytes (448 - es.length) 0

/-- BATCH_WRITE (R397): the oldest batch formed is written where the ring has room. -/
def execBatchWrite (ctx : Nat) (s : State) : Result :=
  let x := s.ctx ctx
  match x.forming with
  | [] => .next s
  | b :: r =>
    if x.batches.any fun o => o.seq % 32 == b.seq % 32 then .next s
    else
      let s := s.devPuts (x.fbase.toNat + 512 * (b.seq % 32)) b.bytes ctx
      let s := s.modCtx ctx fun x => { x with
        forming := r, batches := x.batches ++ [b], fseq := (x.fseq + 1) % 2 ^ 32 }
      .next (s.ctxEvent ctx 3)

/-- A Faulted strand's batch is resolved: Ready, at once or when it is restored (R402). -/
def Strand.resolve402 (st : Strand) : Strand :=
  if st.run != .faulted then st
  else if st.loc.isSome then { st with run := .ready, waitCount := 0 }
  else { st with resolved := true }

/-- A write of CTX_FDONE (R402): the batch's source alone is released and retries its access. -/
def State.fdone (s : State) (n seq : Nat) : State :=
  let x := s.ctx n
  if x.state < 1 ∨ 4 < x.state then s
  else match x.batches.find? fun b => b.seq == seq with
    | none => s.ctxErr n 2
    | some b =>
      let s := s.modCtx n fun x => { x with batches := x.batches.erase b }
      let s := match b.src, b.strand with
        | 0, some id => s.modStrand id Strand.resolve402
        | _, _ => s
      let s := s.runRetries n seq
      if b.src = 4 then s.qRetryAll n else s

/-- BATCH_RESOLVE (R402). -/
def execBatchResolve (ctx : Nat) (seq : BitVec 32) (s : State) : Result := .next (s.fdone ctx seq.toNat)

/-! Retirement. -/

/-- Nothing of a Retiring context is left to complete (R256). -/
def State.retired (s : State) (n : Nat) : Bool :=
  !s.strands.any (fun e => e.2.ctx == n) &&
  s.dies.all fun d => !d.parked.any (fun p => p.ctx == n) && !d.darn.any (fun j => j.ctx == n) &&
    match d.darnRun with
    | some j => j.ctx != n
    | none => true

/-- CTX_RETIRED (R256, R292, R309): translations are swept, groups dissolved and kernel identifiers freed. -/
def execCtxRetired (ctx : Nat) (s : State) : Result :=
  if (s.ctx ctx).state ≠ 5 ∨ !s.retired ctx then .next s
  else
    let s := (s.sweepCaches ctx { va := 0, shift := 48, all := true, md := false } fun _ => true).flushCtx ctx
    let s := (s.ctx ctx).kernels.foldl (fun s k => s.freeKernel ctx k.1) s
    let s := { s with
      dies := s.dies.map fun (d : Die) => { d with
        groups := d.groups.filter fun g => g.2.ctx != ctx,
        cores := d.cores.map fun (c : Core) => if c.embUse = some ctx then { c with embUse := none } else c },
      heldGroups := s.heldGroups.filter fun g => g.2.ctx != ctx }
    let s := s.modCtx ctx fun x => { x with state := 6, kernels := [], sweeps := [], retries := [], parkedUnits := [], spill := false }
    .next (s.ctxEvent ctx 4)

end Sys2Proof.Machine
end

