-- ==== Sys2Proof/Machine/Crypto.lean ====
section
/-! DEFINITION. SHA-384 and the verification of ECDSA signatures over P-384, which R483 and R484 name. PRESUMED: the manual
names the algorithms, and they are those of FIPS 180-4 and FIPS 186-4 (log entry on cryptography). -/

namespace Sys2Proof.Machine

/-! SHA-384. -/

/-- The greatest x below 2^n with x^k at most v, built bit by bit. -/
def rootFloor (k v : Nat) : Nat → Nat → Nat
  | 0, x => x
  | n + 1, x => rootFloor k v n (if (x + 2 ^ n) ^ k ≤ v then x + 2 ^ n else x)

/-- The first primes, those below 410: 80 of them. -/
def primes80 : List Nat :=
  (List.range 410).filter fun p => decide (2 ≤ p) && (List.range 21).all fun q => decide (q < 2) || q == p || p % q != 0

/-- The round constants: the first 64 bits of the fractional parts of the cube roots of the first 80 primes. -/
def shaK : List Nat := primes80.map fun p => rootFloor 3 (p * 2 ^ 192) 67 0 % 2 ^ 64

/-- The initial hash value: the first 64 bits of the fractional parts of the square roots of the ninth to sixteenth primes. -/
def shaInit : List Nat := ((primes80.drop 8).take 8).map fun p => rootFloor 2 (p * 2 ^ 128) 67 0 % 2 ^ 64

/-- Rotation right of a 64-bit value. -/
def rotr64 (x n : Nat) : Nat := x / 2 ^ n + x % 2 ^ n * 2 ^ (64 - n)

/-- The value of big-endian bytes. -/
def beVal (bs : List Byte) : Nat := leVal bs.reverse
/-- The big-endian bytes of a value. -/
def beBytes (n v : Nat) : List Byte := (leBytes n v).reverse

/-- The message schedule, newest word first. -/
def shaSched : Nat → List Nat → List Nat
  | 0, w => w
  | n + 1, w =>
    let a := nth 0 w 1
    let b := nth 0 w 14
    let s1 := ((rotr64 a 19).xor (rotr64 a 61)).xor (a / 2 ^ 6)
    let s0 := ((rotr64 b 1).xor (rotr64 b 8)).xor (b / 2 ^ 7)
    shaSched n ((s1 + nth 0 w 6 + s0 + nth 0 w 15) % 2 ^ 64 :: w)

/-- One round on the eight working values. -/
def shaRound (h : List Nat) (kw : Nat) : List Nat :=
  let a := nth 0 h 0
  let e := nth 0 h 4
  let s1 := ((rotr64 e 14).xor (rotr64 e 18)).xor (rotr64 e 41)
  let ch := (e.land (nth 0 h 5)).xor ((2 ^ 64 - 1 - e).land (nth 0 h 6))
  let t1 := nth 0 h 7 + s1 + ch + kw
  let s0 := ((rotr64 a 28).xor (rotr64 a 34)).xor (rotr64 a 39)
  let mj := ((a.land (nth 0 h 1)).xor (a.land (nth 0 h 2))).xor ((nth 0 h 1).land (nth 0 h 2))
  [(t1 + s0 + mj) % 2 ^ 64, a, nth 0 h 1, nth 0 h 2, (nth 0 h 3 + t1) % 2 ^ 64, e, nth 0 h 5, nth 0 h 6]

/-- One 128-byte block. -/
def shaBlock (ks h : List Nat) (bs : List Byte) : List Nat :=
  let w0 := (List.range 16).map fun i => beVal ((bs.drop (8 * i)).take 8)
  let ws := (shaSched 64 w0.reverse).reverse
  List.zipWith (fun x y => (x + y) % 2 ^ 64) h ((List.zipWith (· + ·) ks ws).foldl shaRound h)

/-- The blocks of a padded message. -/
def shaBlocks (ks : List Nat) : Nat → List Nat → List Byte → List Nat
  | 0, h, _ => h
  | n + 1, h, bs => shaBlocks ks n (shaBlock ks h bs) (bs.drop 128)

/-- SHA-384 of a byte string: 48 bytes. -/
def sha384 (m : List Byte) : List Byte :=
  let total := roundUp (m.length + 17) 128
  let padded := m ++ [0x80#8] ++ List.replicate (total - m.length - 17) 0#8 ++ beBytes 16 (8 * m.length)
  ((shaBlocks shaK (total / 128) shaInit padded).take 6).flatMap (beBytes 8)

/-! ECDSA over P-384. -/

def p384P : Nat := 2 ^ 384 - 2 ^ 128 - 2 ^ 96 + 2 ^ 32 - 1
def p384N : Nat := 0xffffffffffffffffffffffffffffffffffffffffffffffffc7634d81f4372ddf581a0db248b0a77aecec196accc52973
def p384B : Nat := 0xb3312fa7e23ee7e4988e056be3f82d19181d9c6efe8141120314088f5013875ac656398d8a2ed19d2a85c8edd3ec2aef
def p384G : Nat × Nat :=
  (0xaa87ca22be8b05378eb1c71ef320ad746e1d3b628ba79b9859f741e082542a385502f25dbf55296c3a545e3872760ab7,
   0x3617de4a96262c6f5d9e98bf9292dc29f8f41dbd289a147ce9da3113b5f0b8c00a60b1ce1d7e819d7a431d7c90ea0e5f)

/-- b^e mod m, by the low n bits of e from bit 0. -/
def powMod (m : Nat) : Nat → Nat → Nat → Nat → Nat
  | 0, _, _, r => r
  | n + 1, b, e, r => powMod m n (b * b % m) (e / 2) (if e % 2 = 1 then r * b % m else r)

/-- The inverse modulo a prime. -/
def invMod (m a : Nat) : Nat := powMod m 384 (a % m) (m - 2) 1

/-- a − b modulo the field prime. -/
def subP (a b : Nat) : Nat := (a + p384P - b % p384P) % p384P

/-- The sum of two points of the curve; `none` is the point at infinity. -/
def curveAdd : Option (Nat × Nat) → Option (Nat × Nat) → Option (Nat × Nat)
  | none, b => b
  | a, none => a
  | some (x, y), some (u, v) =>
    let chord (m : Nat) : Option (Nat × Nat) :=
      let w := subP (subP (m * m % p384P) x) u
      some (w, subP (m * subP x w % p384P) y)
    if x = u then
      if (y + v) % p384P = 0 then none
      else chord ((3 * x * x + p384P - 3) * invMod p384P (2 * y) % p384P)
    else chord (subP v y * invMod p384P (subP u x) % p384P)

/-- The multiple of a point by the low n bits of a number. -/
def curveMul : Nat → Nat → Option (Nat × Nat) → Option (Nat × Nat) → Option (Nat × Nat)
  | 0, _, _, acc => acc
  | n + 1, k, p, acc => curveMul n (k / 2) (curveAdd p p) (if k % 2 = 1 then curveAdd acc p else acc)

/-- ECDSA verification of (r, s) over a SHA-384 hash with a public key (R483). -/
def ecdsaOk (key : Nat × Nat) (hash : List Byte) (r s : Nat) : Bool :=
  let x := key.1
  let y := key.2
  let onCurve := decide (x < p384P) && decide (y < p384P) &&
    y * y % p384P == (x * x * x + (p384P - 3) * x + p384B) % p384P
  if !onCurve || r == 0 || s == 0 || decide (p384N ≤ r) || decide (p384N ≤ s) then false
  else
    let w := invMod p384N s
    let a := curveMul 384 (beVal hash * w % p384N) (some p384G) none
    let b := curveMul 384 (r * w % p384N) (some key) none
    match curveAdd a b with
    | none => false
    | some p => p.1 % p384N == r

end Sys2Proof.Machine
end

