-- ==== Sys2Proof/Machine/Board.lean ====
section
/-! DEFINITION. The control windows of R250, and what lies below every context: the boot ROM, the security controller, the
clock, power and thermal controllers, soft errors and debug access (R480 to R489). -/

namespace Sys2Proof.Machine

/-! Clocks (R486). -/

/-- A write of CLKREQ: a multiple of 25 MHz from 400 to the mode's limit; CLKCUR is brought down to it. -/
def State.writeClk (s : State) (d : Nat) (v : Word) : State :=
  let q := nbits v.toNat 0 11
  if q % 25 = 0 ∧ 400 ≤ q ∧ q ≤ modeLimit s.dsCur then
    s.modDie d fun x => { x with clkReq := q, clkCur := min x.clkCur q }
  else s

/-- CLKREQ_WRITE (R486). -/
def execClkreqWrite (die : Nat) (value : BitVec 32) (s : State) : Result :=
  .next (if 3 ≤ die then s else s.writeClk die value)

/-! Attestation (R484). -/

/-- A write of ATTCMD with code 1. -/
def State.startQuote (s : State) : State :=
  let b := s.boot
  if b.attBusy || b.attBuf == 0 then { s with boot := { b with attErr := true } }
  else { s with boot := { b with attErr := false, attBusy := true } }

/-- QUOTE (R484). -/
def execQuote (s : State) : Result := .next s.startQuote

/-- The quote buffer: a 512-byte line of addresses. -/
def Boot.quoteAt (b : Boot) : Nat := b.attBuf.toNat / 512 * 512

/-- Bytes 48 to 415 of a quote. -/
def Boot.quoteBody (b : Boot) : List Byte :=
  let hash48 (l : List Byte) : List Byte := (l ++ List.replicate 48 0#8).take 48
  hash48 b.fwHash ++ hash48 b.aperiHash ++ (List.range 96).map Config.identityPublic ++
    leBytes 4 (if b.dbg then 1 else 0) ++ leBytes 4 b.fwRollback ++ List.replicate 168 0#8

/-- QUOTE_COMPLETE (R484): bytes 48 to 511 are written at system scope and BUSY clears. -/
def execQuoteComplete (s : State) : Result :=
  let b := s.boot
  if !b.attBusy then .next s
  else
    let a := b.quoteAt
    let body := b.quoteBody
    let sig := (List.range 96).map (Config.identitySign (sha384 (cgets s.mem a 48 ++ body)))
    let s := s.devPuts (a + 48) (body ++ sig) noCtx
    .next { s with boot := { b with attBusy := false } }

/-! Writes of the windows (R250). -/

/-- One half of a 64-bit register replaced; `hi` is the upper one. -/
def setHalf (old : DWord) (hi : Bool) (v : Word) : DWord :=
  if hi then v ++ old.extractLsb' 0 32 else old.extractLsb' 32 32 ++ v
def getHalf (x : DWord) (hi : Bool) : Word := if hi then x.extractLsb' 32 32 else x.extractLsb' 0 32

/-- The number of an element of a register array, where an offset lies in it. -/
def slotAt (off base step n : Nat) : Option (Nat × Nat) :=
  if base ≤ off ∧ off < base + step * n then some ((off - base) / step, (off - base) % step) else none

/-- The 64-bit registers of a die window at an offset that is a multiple of 8. -/
def State.dieReg64 (s : State) (d off : Nat) : Option DWord :=
  let x := s.die d
  match slotAt off 0x100 8 16, slotAt off 0x300 32 16, slotAt off 0x10000 64 256 with
  | some (c, _), _, _ => some (nth 0 x.emb c)
  | _, some (n, 0), _ => some (nth Region.off x.regions n).base
  | _, some (n, 0x10), _ => some (BitVec.ofNat 64 (nth Region.off x.regions n).deadline)
  | _, _, some (q, 0x10) => if d = 0 then some (s.queue q).buf else none
  | _, _, some (q, 0x18) => if d = 0 then some (s.queue q).cons else none
  | _, _, _ =>
    if off = 0x8C8 then some x.tlevAddr
    else if off = 0xA10 then some x.port.cal
    else if off = 0xA20 then some (BitVec.ofNat 64 x.port.vs)
    else if off = 0xC18 ∧ d = 0 then some s.boot.attBuf
    else none

/-- A write of a whole 64-bit register of a die window; the RO ones ignore it. -/
def State.setDie64 (s : State) (d off : Nat) (v : DWord) : State :=
  match slotAt off 0x100 8 16, slotAt off 0x300 32 16, slotAt off 0x10000 64 256 with
  | some (c, _), _, _ => s.writeEmb d c v
  | _, some (n, 0), _ => s.modDie d fun x => { x with regions := modAt x.regions n fun r =>
      if r.state = 0 then { r with base := v &&& 0xFFFFFE00000 } else r }
  | _, _, some (q, 0x10) => if d = 0 ∧ (s.queue q).state = 0 then s.modQueue q fun x => { x with buf := v } else s
  | _, _, some (q, 0x18) => if d = 0 ∧ (s.queue q).state = 0 then s.modQueue q fun x => { x with cons := v } else s
  | _, _, _ =>
    if off = 0x8C8 then s.modDie d fun x => { x with tlevAddr := v }
    else if off = 0xA10 then s.modPort d fun p => if p.state = 0 then { p with cal := v } else p
    else if off = 0xC18 ∧ d = 0 then { s with boot := { s.boot with attBuf := v } }
    else s

/-- A write of a 32-bit register of a queue's set (R294). -/
def State.setQueue32 (s : State) (q r : Nat) (v : Word) : State :=
  if r = 0 then (if (s.queue q).state = 0 then s.modQueue q fun x => { x with ctl := v &&& 0x7FFFF } else s)
  else if r = 4 then s.qcmd q v.toNat
  else s

/-- A write of a 32-bit register of a port's set (R472). -/
def State.setPort32 (s : State) (d off : Nat) (v : Word) : State :=
  let off' (g : Port → Port) : State := s.modPort d fun p => if p.state = 0 then g p else p
  if off = 0xA00 then off' fun p => { p with ctl := v &&& 0xFF0FFF }
  else if off = 0xA04 then
    (if v = 1 then s.portEnable d else if v = 2 then s.portDisable d else s)
  else if off = 0xA08 then off' fun p => { p with geom := v }
  else if off = 0xA0C then off' fun p => { p with tim := v }
  else s

/-- A write of a 32-bit register of a transient region's set (R416). -/
def State.setRegion32 (s : State) (d n r : Nat) (v : Word) : State :=
  if r = 8 then s.modDie d fun x => { x with regions := modAt x.regions n fun g =>
    if g.state = 0 then { g with len := v &&& 0xFFFF } else g }
  else if r = 0xC then (if v = 1 then s.armRegion d n else if v = 2 then s.disarmRegion d n else s)
  else s

/-- A 4-byte write at an offset of a die window. -/
def State.setDie32 (s : State) (d off : Nat) (v : Word) : State :=
  match s.dieReg64 d (off / 8 * 8) with
  | some old => s.setDie64 d (off / 8 * 8) (setHalf old (off % 8 == 4) v)
  | none =>
    match slotAt off 0x300 32 16, slotAt off 0x600 32 2, slotAt off 0x10000 64 256 with
    | some (n, r), _, _ => s.setRegion32 d n r v
    | _, some (p, r), _ => if r = 4 ∧ v = 1 then s.retrainLink (portLink d p) else s
    | _, _, some (q, r) => if d = 0 then s.setQueue32 q r v else s
    | _, _, _ =>
      if 0xA00 ≤ off ∧ off < 0xB00 then s.setPort32 d off v
      else if off = 0x200 then (if d = 0 then s.memRequest (nbits v.toNat 4 2) else s)
      else if off = 0x220 then
        (if d = 0 ∧ nbits v.toNat 4 2 ≠ 3 then s.diesetRequest (nbits v.toNat 4 2) else s)
      else if off = 0x8C4 then s.modDie d fun x => { x with tileEvt := x.tileEvt &&& ~~~v }
      else if off = 0x8D0 then s.modDie d fun x => { x with tlevData := v }
      else if off = 0xC04 then s.writeClk d v
      else if off = 0xC20 then (if d = 0 ∧ v = 1 then s.startQuote else s)
      else s

/-- The 64-bit RW registers of a context window (R251, R395). -/
def State.ctxReg64 (s : State) (n off : Nat) : Option DWord :=
  let x := s.ctx n
  match off with
  | 0x018 => some x.root
  | 0x020 => some x.tvec
  | 0x028 => some x.save
  | 0x030 => some x.elog
  | 0x038 => some x.evtAddr
  | 0x060 => some x.fbase
  | _ => none

/-- A write of a whole 64-bit register of a context window: in Building and Suspended only, CTX_TVEC in Stopped too. -/
def State.setCtx64 (s : State) (n off : Nat) (v : DWord) : State :=
  let k := (s.ctx n).state
  if k = 1 ∨ k = 3 ∨ (k = 4 ∧ off = 0x020) then
    s.modCtx n fun x => match off with
      | 0x018 => { x with root := v }
      | 0x020 => { x with tvec := v }
      | 0x028 => { x with save := v }
      | 0x030 => { x with elog := v }
      | 0x038 => { x with evtAddr := v }
      | _ => { x with fbase := v }
  else s.ctxErr n 1

/-- A 4-byte write at an offset of a context window; LAUNCHSLOT and CTX_INV take 8-byte writes only. -/
def State.setCtx32 (s : State) (n off : Nat) (v : Word) : State :=
  match s.ctxReg64 n (off / 8 * 8) with
  | some old => s.setCtx64 n (off / 8 * 8) (setHalf old (off % 8 == 4) v)
  | none =>
    if off = 0x008 then s.ctxCmd n v.toNat
    else if off = 0x010 then s.writeCfg n v
    else if off = 0x040 then
      (if (s.ctx n).state = 1 ∨ (s.ctx n).state = 3 then s.modCtx n fun x => { x with evtData := v } else s.ctxErr n 1)
    else if off = 0x048 then s.modCtx n fun x => { x with event := x.event &&& ~~~v }
    else if off = 0x070 then s.fdone n v.toNat
    else s

/-- The die window or context window that an address lies in, with the offset (R250). -/
def dieWindowOf (addr : Nat) : Option (Nat × Nat) := slotAt addr 0x3F0000000000 0x1000000 3
def ctxWindowOf (addr : Nat) : Option (Nat × Nat) := slotAt addr 0x3F4000000000 0x1000 4096

/-- A write to a window (R250): 4 or 8 bytes, naturally aligned; each half of an 8-byte write acts on what lies at its own offset.
The slots of R303 take the 8-byte writes of an application core, each staged for that core. -/
def State.writeWindow (s : State) (appCore : Option Nat) (addr size : Nat) (v : DWord) : State :=
  if (size ≠ 4 ∧ size ≠ 8) ∨ addr % size ≠ 0 then s
  else match dieWindowOf addr, ctxWindowOf addr with
    | some (d, off), _ =>
      if size = 4 then s.setDie32 d off (getHalf v false)
      else match slotAt off 0x800000 64 256, appCore with
      | some (q, r), some a => if d = 0 then s.appendSlot q a (r / 8) v else s
      | _, _ =>
      if (s.dieReg64 d off).isSome then s.setDie64 d off v
      else (s.setDie32 d off (getHalf v false)).setDie32 d (off + 4) (getHalf v true)
    | _, some (n, off) =>
      if size = 4 then s.setCtx32 n off (getHalf v false)
      else if off = 0x068 then s.writeInv n v
      else match slotAt off 0x100 8 8, appCore with
      | some (w, _), some a => s.launchSlot n a w v
      | _, _ =>
      if (s.ctxReg64 n off).isSome then s.setCtx64 n off v
      else (s.setCtx32 n off (getHalf v false)).setCtx32 n (off + 4) (getHalf v true)
    | _, _ => s

/-- REGISTER_WRITE (R250), of application core 0 of D0. -/
def execRegisterWrite (addr size : Nat) (value : BitVec 64) (s : State) : Result :=
  .next (s.writeWindow (some 0) addr size value)

/-! Reads of the windows: what each register holds (R6, R250 to R254, R294, R395, R408, R416, R429, R447, R464, R472, R480). -/

/-- DIEINFO (R6). -/
def State.dieInfo (s : State) (d : Nat) : Nat :=
  Config.sirev * 2 ^ 24 + s.boot.ovc * 2 ^ 16 + s.dsCur * 2 ^ 10 + (if s.dsCur < d then 2 ^ 9 else 0) + (s.die d).pos

/-- TILESTS (R464). -/
def MeshTile.status (t : MeshTile) : Nat :=
  let vote (i : Nat) : Nat := if nth false t.votes i then 2 ^ (15 - i) else 0
  vote 0 + vote 1 + vote 2 + vote 3 + t.cause * 2 ^ 8 + t.appeals * 2 ^ 4 + t.state

def bit (b : Bool) (n : Nat) : Nat := if b then 2 ^ n else 0

/-- A 32-bit register of a queue's set (R294). -/
def Queue.reg32 (q : Queue) (r : Nat) : Nat :=
  match r with
  | 0x00 => q.ctl.toNat
  | 0x08 => q.state
  | 0x20 => (q.part 0).length
  | 0x24 => (q.part 1).length
  | 0x28 => (q.part 2).length
  | 0x2C => q.drop
  | 0x30 => q.qcnt
  | _ => 0

/-- A 32-bit register of a port's set (R472). -/
def Port.reg32 (p : Port) (off : Nat) : Nat :=
  match off with
  | 0xA00 => p.ctl.toNat
  | 0xA08 => p.geom.toNat
  | 0xA0C => p.tim.toNat
  | 0xA18 => p.queue.length * 2 ^ 4 + bit p.err 3 + p.state
  | 0xA1C => p.ret
  | 0xA28 => p.derr
  | _ => 0

/-- The die at the far end of a port (R13, R429). -/
def linkPeer (d p : Nat) : Nat := (linkEnds (portLink d p)).foldl (fun n e => if e.1 = d then n else e.1) 0

/-- A 32-bit register of a link port's set (R429). -/
def State.linkReg32 (s : State) (d p r : Nat) : Nat :=
  match r with
  | 0 => linkPeer d p * 2 ^ 4 + (s.link (portLink d p)).state
  | 8 => nth 0 (s.die d).lnkRt p
  | 0xC => nth 0 (s.die d).lnkRpl p
  | _ => 0

/-- A register of R408, R447 or R480. -/
def State.plainReg32 (s : State) (d off : Nat) : Nat :=
  let x := s.die d
  match off with
  | 0x000 => s.dieInfo d
  | 0x200 => bit s.spPend 8 + s.spReq * 2 ^ 4 + s.spCur
  | 0x208 => gpool s.boot.ovc
  | 0x20C => x.gfree
  | 0x210 => (x.parked.filter fun p => !p.waiting).length
  | 0x214 => x.budget / 1000
  | 0x220 => if d = 0 then bit s.dsErr 31 + bit s.dsPend 8 + s.dsReq * 2 ^ 4 + s.dsCur else 0
  | 0x224 => if d = 0 then s.dsCnt else 0
  | 0x8C0 => x.tileDrop
  | 0x8C4 => x.tileEvt.toNat
  | 0x8D0 => x.tlevData.toNat
  | 0xC00 => bit s.boot.dbg 8 + s.boot.stage * 2 ^ 4 + s.boot.err
  | 0xC04 => x.clkReq
  | 0xC08 => x.clkCur
  | 0xC0C => (BitVec.ofInt 8 x.therm).toNat * 2 ^ 16 + x.bub * 2 ^ 8
  | 0xC10 => x.eccCnt
  | 0xC24 => if d = 0 then bit s.boot.attErr 1 + bit s.boot.attBusy 0 else 0
  | _ => 0

/-- A 4-byte read at an offset of a die window. -/
def State.getDie32 (s : State) (d off : Nat) : Word :=
  match s.dieReg64 d (off / 8 * 8) with
  | some x => getHalf x (off % 8 == 4)
  | none =>
    let x := s.die d
    BitVec.ofNat 32 (match slotAt off 0x300 32 16, slotAt off 0x600 32 2, slotAt off 0x800 8 24, slotAt off 0x10000 64 256 with
      | some (n, r), _, _, _ =>
        let g := nth Region.off x.regions n
        if r = 8 then g.len.toNat else if r = 0x18 then bit g.err 31 + g.state else 0
      | _, some (p, r), _, _ => s.linkReg32 d p r
      | _, _, some (m, r), _ => if r = 0 then (x.tile m).status else 0
      | _, _, _, some (q, r) => if d = 0 then (s.queue q).reg32 r else 0
      | _, _, _, _ => if 0xA00 ≤ off ∧ off < 0xB00 then x.port.reg32 off else s.plainReg32 d off)

/-- CTX_STATE (R252). -/
def State.ctxStateReg (s : State) (n : Nat) : Nat :=
  let x := s.ctx n
  s.coreCount n * 2 ^ 8 + bit x.elovf 4 + bit x.spill 3 + x.state

/-- A 4-byte read at an offset of a context window. -/
def State.getCtx32 (s : State) (n off : Nat) : Word :=
  match s.ctxReg64 n (off / 8 * 8) with
  | some x => getHalf x (off % 8 == 4)
  | none =>
    let x := s.ctx n
    match off with
    | 0x000 => BitVec.ofNat 32 (s.ctxStateReg n)
    | 0x010 => x.cfg
    | 0x040 => x.evtData
    | 0x048 => x.event
    | 0x050 => BitVec.ofNat 32 x.err
    | 0x074 => BitVec.ofNat 32 x.fseq
    | 0x078 => BitVec.ofNat 32 x.invcnt
    | _ => 0

/-- A read of a window (R250). It changes nothing. -/
def State.readWindow (s : State) (addr size : Nat) : DWord :=
  if (size ≠ 4 ∧ size ≠ 8) ∨ addr % size ≠ 0 then 0
  else
    let at4 (a : Nat) : Word := match dieWindowOf a, ctxWindowOf a with
      | some (d, off), _ => s.getDie32 d off
      | _, some (n, off) => s.getCtx32 n off
      | _, _ => 0
    if size = 4 then (at4 addr).zeroExtend 64 else at4 (addr + 4) ++ at4 addr

/-! Stores from outside (R248). -/

/-- A store of an application core or of PCI Express: bytes of module memory are performed at their home, and wait while their
frame has parked writes (R410); the rest of the space below bits [45:44] = 0b11 does not exist (R16). -/
def State.outsideStore (s : State) (addr : Nat) (bytes : List Byte) : Result :=
  let as := (List.range bytes.length).map (addr + ·)
  if as.any fun a => !s.paOk a then .fault .noSuchAddress
  else if as.any fun a => s.frameParked a then .next s
  else .next (s.homePuts addr bytes noCtx)

/-- PCIE_WRITE (R248). -/
def execPcieWrite (addr : Nat) (bytes : List Byte) (s : State) : Result := s.outsideStore addr bytes

/-- APPLICATION_CORE_STORE (R248); a store to a window is a register write (R250). Application cores off the die set are off (R19). -/
def execApplicationCoreStore (addr : AppAddr) (bytes : List Byte) (s : State) : Result :=
  if !s.appUp addr.core then .next s
  else if 3 * 2 ^ 44 ≤ addr.addr ∧ addr.addr < 2 ^ 46 then .next (s.writeWindow (some addr.core) addr.addr bytes.length (BitVec.ofNat 64 (leVal bytes)))
  else s.outsideStore addr.addr bytes

/-! Boot (R481 to R485). -/

/-- The fields of an image's header (R482). -/
def imgField (img : List Byte) (lo n : Nat) : Nat := leVal ((img.drop lo).take n)
def imgRollback (img : List Byte) : Nat := imgField img 4 4
def imgOvc (img : List Byte) : Nat := imgField img 8 1
def imgDebug (img : List Byte) : Nat := imgField img 9 1
def imgClk (img : List Byte) : Nat := imgField img 10 2
def imgEmb (img : List Byte) : Nat := imgField img 12 4
def imgLoad (img : List Byte) : Nat := imgField img 16 8
def imgLength (img : List Byte) : Nat := imgField img 24 4

/-- Bytes 0 to 415 of the header and the payload: what the hash covers. -/
def imgSigned (img : List Byte) : List Byte := img.take 416 ++ (img.drop 512).take (imgLength img)
def imgPayload (img : List Byte) : List Byte := (img.drop 512).take (imgLength img)

/-- The container is all there. -/
def imgWhole (img : List Byte) : Bool := decide (512 ≤ img.length) && decide (512 + imgLength img ≤ img.length)

/-- The three checks of R483: 0, or the error code. -/
def imgTrust (img : List Byte) : Nat :=
  let key := ((img.drop 28).take 96)
  if sha384 key ≠ Config.fusedKeyHash then 2
  else if !ecdsaOk (imgField img 28 48, imgField img 76 48) (sha384 (imgSigned img)) (imgField img 416 48)
      (imgField img 464 48) then 2
  else if imgRollback img < Config.rollbackFuses then 3
  else 0

/-- The sixteen emergency areas lie within the advertised space (R483). -/
def embOk (emb ovc : Nat) : Bool := emb == 0 || decide (emb * 2 ^ 25 + 16 * 2 ^ 25 ≤ 2 ^ 30 * (16 + ovc))

/-- The reserved bytes and the ranges of R482. -/
def imgFields (img : List Byte) : Bool :=
  imgField img 0 4 == 0x48314E4F && decide (imgOvc img ≤ 16) && decide (imgDebug img < 2) && imgClk img % 25 == 0 &&
    decide (400 ≤ imgClk img) && decide (imgClk img ≤ 1000) && decide (imgEmb img < 2 ^ 19) &&
    embOk (imgEmb img) (imgOvc img) && decide (imgLength img ≤ 2 ^ 26) && ((img.drop 124).take 292).all (· == 0)

/-- Step 3 of R481 on one copy: 0, or the error code. -/
def imgCheck : Option (List Byte) → Nat
  | none => 5
  | some img =>
    if img.length < 512 then 5
    else if !imgFields img then 4
    else if !imgWhole img then 5
    else imgTrust img

/-- The module at reset: unless the power has come on, package time runs on, retired tiles stay retired and the always-on store
keeps every tile's appeal count (R21, R461, R463). -/
def State.resetFrom (s : State) (powerOn : Bool) : State :=
  if powerOn then State.reset
  else
    let keep (t : MeshTile) : MeshTile :=
      if t.state = 5 then { MeshTile.healthy with state := 5, cause := t.cause, appeals := t.appeals }
      else { MeshTile.healthy with appeals := t.appeals }
    let die (e : Die × Nat) : Die :=
      { Die.afterReset e.2 with
        tiles := e.1.tiles.map keep, sensors := e.1.sensors, therm := e.1.therm, dramTemp := e.1.dramTemp,
        port := { Port.off with slm := e.1.port.slm } }
    { State.reset with gtime := s.gtime, dies := s.dies.zipIdx.map die, power := s.power, agenda := s.agenda, tick := s.tick }

/-- A step of the boot sequence fails: ERR is set and compute stays in reset. -/
def State.bootFail (s : State) (stage err : Nat) : State := { s with boot := { s.boot with stage := stage, err := err } }

/-- Steps 4 to 6 of R481 with a verified image. -/
def State.bootRun (s : State) (img : List Byte) : State :=
  let area (d c : Nat) : DWord :=
    if imgEmb img = 0 then 0 else BitVec.ofNat 64 (d * 2 ^ 44 + imgEmb img * 2 ^ 25 + c * 2 ^ 25)
  let clk := imgClk img
  let cfg (e : Die × Nat) : Die :=
    { e.1 with
      gfree := gpool (imgOvc img), emb := (List.range 16).map (area e.2), clkReq := clk,
      clkCur := if e.2 = 0 then clk else 0 }
  let s := { s with
    dies := s.dies.zipIdx.map cfg,
    boot := { s.boot with
      stage := 6, held := false, ovc := imgOvc img, dbg := imgDebug img == 1 && !Config.debugFuseBlown,
      fwHash := sha384 (imgSigned img), fwRollback := imgRollback img, identity := true } }
  if homeDie (imgLoad img) = 0 then s.devPuts (imgLoad img) (imgPayload img) noCtx else s

/-- RESET (R481). -/
def execResetBoot (input : BootInput) (s : State) : Result :=
  if s.boot.trip && !input.powerOn then .next s
  else
    let s := s.resetFrom input.powerOn
    let st := input.straps
    if st.length ≠ 3 ∨ st.any (fun p => decide (3 ≤ p)) ∨ (distinct st).length ≠ 3 then .next (s.bootFail 1 1)
    else
      let s := { s with links := (List.range 3).map fun l =>
        { state := if nth false input.linksUp l then 2 else 4, fails := if nth false input.linksUp l then 0 else 3 } }
      let e1 := imgCheck input.image
      let e2 := imgCheck input.backup
      let go (img : Option (List Byte)) : State := match img with
        | some img => s.bootRun img
        | none => s
      .next (if e1 = 0 then go input.image else if e2 = 0 then go input.backup else s.bootFail 3 e1)

/-- APERI_MODEL_LOAD (R483): a verified model's payload is copied to the address that firmware names. -/
def execAperiModelLoad (image : List Byte) (target : Nat) (s : State) : Result :=
  if s.boot.held || !imgWhole image || imgField image 0 4 != 0x49524550 || imgTrust image != 0 then .next s
  else
    let s := s.devPuts target (imgPayload image) noCtx
    .next { s with boot := { s.boot with aperiHash := sha384 (imgSigned image) } }

/-! Temperature and power (R487). -/

/-- The hottest of a die's readings. -/
def hottest : List Int → Int
  | [] => 0
  | [t] => t
  | t :: r => max t (hottest r)

/-- THERMAL_SAMPLE (R487). -/
def execThermalSample (die : Nat) (sensors : List Int) (s : State) : Result :=
  .next (if sensors.isEmpty then s else s.modDie die fun x => { x with sensors := sensors, therm := hottest sensors })

/-- One action of the table on a computing die. -/
def Die.thermal (x : Die) (computes : Bool) : Die :=
  let clk (v : Nat) : Nat := if computes then v else 0
  if x.therm < 95 then
    (if 0 < x.bub then { x with bub := x.bub - 1 } else { x with clkCur := clk (min (x.clkCur + 25) x.clkReq) })
  else if x.therm ≤ 105 then { x with bub := min (x.bub + 1) 15 }
  else { x with bub := 15, clkCur := clk (if x.clkCur < 425 then min x.clkCur 400 else x.clkCur - 25) }

/-- THERMAL_ACTION (R487): above 120 °C every die is reset and stays in reset. -/
def execThermalAction (die : Nat) (s : State) : Result :=
  if 3 ≤ die ∨ s.boot.trip then .next s
  else if 120 < (s.die die).therm then
    let s := s.resetFrom false
    .next { s with boot := { s.boot with trip := true } }
  else .next (s.modDie die fun x => x.thermal (decide (die ≤ s.dsCur) && !s.boot.held))

/-- THERMAL_TRIP_RELEASE (R487): every sensor reads below 100 °C. -/
def execThermalTripRelease (die : Nat) (s : State) : Result :=
  if s.boot.trip ∧ die < 3 ∧ s.dies.all (fun x => x.sensors.all fun t => decide (t < 100)) then
    .next { s with boot := { s.boot with trip := false } }
  else .next s

/-- The sustained limit of a mode in mW (R18). -/
def powerLimit (mode : Nat) : Nat := nth 48000 [7000, 26000, 48000] mode

/-- POWER_LIMIT_STEP (R487): the power averaged over the last second, once each ms. -/
def execPowerLimitStep (milliwatts : Nat) (s : State) : Result :=
  let s := { s with power := milliwatts }
  if milliwatts ≤ powerLimit s.dsCur ∨ s.boot.held then .next s
  else
    let slow (e : Die × Nat) : Die :=
      if s.dsCur < e.2 then e.1
      else { e.1 with clkCur := if e.1.clkCur < 425 then min e.1.clkCur 400 else e.1.clkCur - 25 }
    .next { s with dies := s.dies.zipIdx.map slow }

/-! Soft errors and debug (R488, R489). -/

/-- SRAM_ERROR (R488). -/
def execSramError (place : ErrorPlace) (s : State) : Result :=
  match place with
  | .corrected die => .next (s.modDie die fun x => { x with eccCnt := holdInc x.eccCnt })
  | .memory line =>
    .next (s.modDie (homeDie (128 * line)) fun x => { x with lost := addLine x.lost line })
  | .strandState die core => .next (s.modTile die (coreTile core) fun t => { t with fatal := true })
  | .matrixRead die core =>
    .next (s.modCore die core fun c => { c with seq := modAt c.seq 0 fun o =>
      if o.reads then { o with err := some .uncorr } else o })

/-- IDCODE of every die (R489). -/
def idcode : Nat := 0x04831C6B

/-- A value shifted out of the TAP. -/
def State.tapOut (s : State) (n : Nat) : State := { s with boot := { s.boot with tap := n } }
/-- A piece of a strand's state shifted out of the TAP. -/
def State.tapStrand (s : State) (id : Nat) (g : Strand → Nat) : State := match s.strand id with
  | some st => s.tapOut (g st)
  | none => s

/-- DEBUG_ACCESS (R489): the identification registers are readable in every case (R6); die windows and strand state only while DBG
is 1. -/
def execDebugAccess (access : TapAccess) (s : State) : Result :=
  let dbg (t : State) : Result := .next (if s.boot.dbg then t else s)
  match access with
    | .readIdcode _ => .next (s.tapOut idcode)
    | .readDieInfo d => .next (if d < 3 then s.tapOut (s.dieInfo d) else s)
    | .readWindow a n => dbg (if (dieWindowOf a).isSome then s.tapOut (s.readWindow a n).toNat else s)
    | .readScalar id r => dbg (s.tapStrand id fun st => (st.sget (r % 64)).toNat)
    | .readVector id r t => dbg (s.tapStrand id fun st => (st.vget (r % 128) (t % 16)).toNat)
    | .readPredicate id r => dbg (s.tapStrand id fun st => (st.qget (r % 48)).toNat)
    | .readIndex id r t => dbg (s.tapStrand id fun st => (st.xget (r % 8) (t % 16)).toNat)
    | .readFmt id => dbg (s.tapStrand id fun st => st.fmt.toNat)
    | .readPc id => dbg (s.tapStrand id fun st => st.pc.toNat)
    | .writeWindow a n v => dbg (if (dieWindowOf a).isSome then s.writeWindow none a n v else s)
    | .writeScalar id r v => dbg (s.modStrand id fun st => { st with s := cput st.s (r % 64) v })
    | .writeVector id r t v => dbg (s.modStrand id fun st => st.vset (r % 128) (t % 16) v)
    | .writePredicate id r v => dbg (s.modStrand id fun st =>
        if r % 48 = 0 then st else { st with q := cput st.q (r % 48) v })
    | .writeIndex id r t v => dbg (s.modStrand id fun st => st.xset (r % 8) (t % 16) v)
    | .writeFmt id v => dbg (s.modStrand id fun st => { st with fmt := v })
    | .writePc id v => dbg (s.modStrand id fun st => { st with pc := evenPc v })

end Sys2Proof.Machine
end

