-- ==== Sys2Proof/Decode.lean ====
section
/-! DEFINITION. The decoder of H, W and L instructions (R80, R82, R85, R91), total on any bytes, and the encoder written
from the same layouts. An encoding that names no instruction decodes to `encodingNotAnInstruction`, which raises ILLOP
(R90, R101), and so do a W-B YIELD or a HALT
with a field that R89 or R490 forbids; bytes are refused only when they end inside an instruction. -/

namespace Sys2Proof

/-- Why bytes are refused: they end before the instruction does. -/
inductive DecodeError where
  | truncated (have_ need : Nat)
  deriving DecidableEq, Repr

/-- The length in bytes that the first halfword gives (R80). -/
def instrLen (first : BitVec 16) : Nat :=
  if first.getLsbD 0 == false then 2 else if first.getLsbD 1 then 8 else 4

/-- The fields of an H halfword (R82). -/
def hFields (x : BitVec 16) : HFields :=
  { b := x.extractLsb' 11 5, d := x.extractLsb' 6 5, e := x.extractLsb' 1 1 }

/-- The fields of a W-R word (R85). -/
def wrFields (x : BitVec 32) : WRFields :=
  { b := x.extractLsb' 26 6, a := x.extractLsb' 20 6, d := x.extractLsb' 14 6, g := x.extractLsb' 5 3,
    s := x.extractLsb' 3 2, e := x.extractLsb' 2 1 }

/-- The fields of a W-I or W-B word (R85). -/
def wiFields (x : BitVec 32) : WIFields :=
  { imm := x.extractLsb' 14 18, d5 := x.extractLsb' 3 5, e := x.extractLsb' 2 1 }

/-- The fields of an L doubleword (R91). -/
def lFields (x : BitVec 64) : LFields :=
  { m3 := x.extractLsb' 61 3, h := x.extractLsb' 59 2, w := x.extractLsb' 57 2, c := x.extractLsb' 49 8,
    b := x.extractLsb' 41 8, a := x.extractLsb' 33 8, d := x.extractLsb' 25 8, gn := x.extractLsb' 15 1,
    g6 := x.extractLsb' 9 6, y := x.extractLsb' 8 1, u := x.extractLsb' 7 1, s4 := x.extractLsb' 3 4,
    e := x.extractLsb' 2 1 }

/-- The H operations by op4 (R83). -/
def hTable : List (Nat × (HFields → Instr)) :=
  [(0, .movH), (1, .iaddH), (2, .isubH), (3, .iandH), (4, .iorH), (5, .ixorH),
   (6, .ishlH), (7, .ishrH), (8, .faddH), (9, .fsubH), (10, .fmulH), (11, .fmaxH),
   (12, .fminH), (13, .caddH), (14, .cmulH), (15, .imulH)]

/-- The W-R operations by op6 (R87). -/
def wrTable : List (Nat × (WRFields → Instr)) :=
  [(1, .movW), (2, .iaddW), (3, .isubW), (4, .imulW), (5, .iandW), (6, .iorW),
   (7, .ixorW), (8, .ishlW), (9, .ishrW), (10, .iminW), (11, .imaxW), (12, .icmpW),
   (13, .faddW), (14, .fsubW), (15, .fmulW), (16, .ffmaW), (17, .fminW), (18, .fmaxW),
   (19, .fcmpW), (20, .caddW), (21, .csubW), (22, .cmulW), (23, .cfmaW), (24, .bflyW),
   (25, .twidW), (26, .shflW), (27, .shflxW), (28, .ldsW), (29, .stsW), (30, .ldW),
   (31, .stW), (32, .saddW), (33, .ssubW), (34, .smovW), (35, .scmpW), (36, .sandW),
   (37, .sorW), (38, .sshlW), (39, .sshrW)]

/-- The W-I and W-B operations by op6 (R88, R89). -/
def wiTable : List (Nat × (WIFields → Instr)) :=
  [(40, .moviW), (41, .smoviW), (42, .iaddi), (43, .saddi), (44, .movhiW), (45, .smovhi),
   (48, .braW), (49, .loopW), (50, .callW), (51, .waitcW), (53, .exitW), (54, .rcvW),
   (55, .divW)]

/-- The L operations by op9, part 1 (R100). -/
def lTable1 : List (Nat × (LFields → Instr)) :=
  [(0x000, .iadd), (0x001, .isub), (0x002, .imul), (0x003, .imulh), (0x004, .imad),
   (0x005, .iand), (0x006, .ior), (0x007, .ixor), (0x008, .ishl), (0x009, .ishr),
   (0x00A, .isra), (0x00B, .imin), (0x00C, .imax), (0x00D, .iabs), (0x00E, .icmp),
   (0x00F, .isel), (0x010, .bfe), (0x011, .bfi), (0x012, .popc), (0x013, .clz),
   (0x014, .brev), (0x015, .bgath), (0x016, .lea), (0x017, .iaddc), (0x018, .mov),
   (0x019, .movi), (0x01A, .movhi), (0x01B, .idot4), (0x040, .fadd), (0x041, .fsub),
   (0x042, .fmul), (0x043, .ffma), (0x044, .fmin), (0x045, .fmax), (0x046, .fcmp),
   (0x047, .fclass), (0x048, .frcp), (0x049, .frsq), (0x04A, .fsqrt), (0x04B, .fexp2),
   (0x04C, .flog2), (0x04D, .fsint), (0x04E, .fcost), (0x04F, .fcvt)]

/-- The L operations by op9, part 2 (R100). -/
def lTable2 : List (Nat × (LFields → Instr)) :=
  [(0x050, .frnd), (0x051, .ffrac), (0x080, .cadd), (0x081, .csub), (0x082, .cmul),
   (0x083, .cfma), (0x084, .cmag2), (0x085, .cscale), (0x086, .cexpi), (0x087, .cphase),
   (0x088, .twid), (0x089, .bfly), (0x08A, .ccvt), (0x08B, .bpack), (0x08C, .bunpk),
   (0x08D, .bexpm), (0x08E, .phq), (0x08F, .edge), (0x090, .trix), (0x0B0, .shfl),
   (0x0B1, .shflx), (0x0B2, .shfld), (0x0B3, .shflu), (0x0B4, .scan), (0x0B5, .reds),
   (0x0B6, .vote), (0x0B7, .matchT), (0x0B8, .lace), (0x0B9, .laceld), (0x0BA, .bcast),
   (0x0D0, .qand), (0x0D1, .qor), (0x0D2, .qxor), (0x0D3, .qtos), (0x0D4, .stoq),
   (0x0E0, .sadd), (0x0E1, .ssub), (0x0E2, .smul), (0x0E3, .smulh), (0x0E4, .sand),
   (0x0E5, .sor), (0x0E6, .sxor), (0x0E7, .sshl), (0x0E8, .sshr)]

/-- The L operations by op9, part 3 (R100). -/
def lTable3 : List (Nat × (LFields → Instr)) :=
  [(0x0E9, .ssra), (0x0EA, .smin), (0x0EB, .smax), (0x0EC, .smov), (0x0ED, .smovi),
   (0x0EE, .scmp), (0x0EF, .ssel), (0x0F0, .sbfe), (0x0F1, .spopc), (0x0F2, .sclz),
   (0x0F3, .sldk), (0x0F4, .setfmt), (0x0F5, .getfmt), (0x0F6, .xwin), (0x0F7, .xset),
   (0x0F8, .sfadd), (0x0F9, .sfmul), (0x0FA, .sffma), (0x0FB, .sfcvt), (0x110, .bra),
   (0x111, .brx), (0x112, .divT), (0x113, .rcv), (0x114, .call), (0x115, .ret),
   (0x116, .exit), (0x117, .nop), (0x118, .yield), (0x119, .loop), (0x11A, .trap),
   (0x11B, .bkpt), (0x130, .ld), (0x131, .st), (0x132, .lds), (0x133, .sts),
   (0x134, .ldt), (0x135, .stt), (0x136, .atom), (0x137, .atoms), (0x138, .sumx),
   (0x139, .sumrd), (0x13A, .sumclr), (0x13B, .pref), (0x13C, .waitc)]

/-- The L operations by op9, part 4 (R100). -/
def lTable4 : List (Nat × (LFields → Instr)) :=
  [(0x13D, .fence), (0x170, .shut), (0x171, .shutx), (0x172, .dtld), (0x173, .decode),
   (0x174, .fetchf), (0x175, .darn), (0x176, .dispq), (0x190, .mclr), (0x191, .mloop),
   (0x192, .mrd), (0x193, .mbld), (0x194, .mtwid), (0x195, .seedld), (0x196, .seedscan),
   (0x197, .seeddrop), (0x1B0, .join), (0x1B1, .leave), (0x1B2, .bar), (0x1B3, .bara),
   (0x1B4, .barw), (0x1B5, .ringp), (0x1B6, .ringw), (0x1B7, .ringf), (0x1B8, .launch),
   (0x1B9, .emit), (0x1BA, .take), (0x1BB, .qclose), (0x1BC, .grow), (0x1BD, .shrink),
   (0x1BE, .chsend), (0x1BF, .chrecv), (0x1C0, .redx), (0x1C1, .redw), (0x1D0, .rdsr),
   (0x1D1, .wrsr), (0x1D2, .tret), (0x1D3, .tmset), (0x1D4, .balloonGive), (0x1D5, .dieset),
   (0x1D6, .memfsp)]

/-- The L operations by op9 (R100). -/
def lTable : List (Nat × (LFields → Instr)) := lTable1 ++ lTable2 ++ lTable3 ++ lTable4

/-- The entry of a table with the key. -/
def lookupOp {α : Type} : List (Nat × α) → Nat → Option α
  | [], _ => none
  | (k, v) :: r, n => if k = n then some v else lookupOp r n

/-- RINGP, DISPQ and BALLOON carry a second operation at m3 = 1 (R337, R414, R476). -/
def byForm (i : Instr) : Instr :=
  match i with
  | .ringp f => if f.m3 = 1 then .ringpAfter f else .ringp f
  | .dispq f => if f.m3 = 1 then .dispqQuery f else .dispq f
  | .balloonGive f => if f.m3 = 1 then .balloonQuery f else .balloonGive f
  | j => j

/-- Decodes an H halfword (R82, R83). -/
def decodeH (x : BitVec 16) : Instr :=
  match lookupOp hTable (x.extractLsb' 2 4).toNat with
  | some k => k (hFields x)
  | none => .movH (hFields x)

/-- Decodes a W word (R85 to R90). -/
def decodeW (x : BitVec 32) : Instr :=
  match lookupOp wrTable (x.extractLsb' 8 6).toNat with
  | some k => k (wrFields x)
  | none =>
    match lookupOp wiTable (x.extractLsb' 8 6).toNat with
    | some k => k (wiFields x)
    | none =>
      if x.extractLsb' 8 6 = 52 && x.extractLsb' 3 5 = 0 && x.extractLsb' 14 18 = 0 then .yieldW
      else .encodingNotAnInstruction

/-- Decodes an L doubleword (R91, R100, R101). -/
def decodeL (x : BitVec 64) : Instr :=
  match lookupOp lTable (x.extractLsb' 16 9).toNat with
  | some k => byForm (k (lFields x))
  | none =>
    if x.extractLsb' 16 9 = 0x1D7 && x.extractLsb' 9 7 = 0 && x.extractLsb' 25 39 = 0 then .halt
    else .encodingNotAnInstruction

/-- A halfword from two bytes (R1). -/
def half (b0 b1 : Byte) : BitVec 16 := b1 ++ b0

/-- Decodes the instruction at the front of a stream, with its length in bytes (R80). -/
def decode (bs : List Byte) : Except DecodeError (Instr × Nat) :=
  match bs with
  | b0 :: b1 :: r =>
    if b0.getLsbD 0 == false then .ok (decodeH (half b0 b1), 2)
    else
      match b0.getLsbD 1, r with
      | false, b2 :: b3 :: _ => .ok (decodeW (half b2 b3 ++ half b0 b1), 4)
      | true, b2 :: b3 :: b4 :: b5 :: b6 :: b7 :: _ =>
        .ok (decodeL (half b6 b7 ++ half b4 b5 ++ half b2 b3 ++ half b0 b1), 8)
      | false, _ => .error (.truncated bs.length 4)
      | true, _ => .error (.truncated bs.length 8)
  | _ => .error (.truncated bs.length 2)

/-- The encodings of the four layouts (R82, R85, R91). -/
def encH (op4 : Nat) (f : HFields) : BitVec 16 := f.b ++ f.d ++ BitVec.ofNat 4 op4 ++ f.e ++ 0#1
def encWR (op6 : Nat) (f : WRFields) : BitVec 32 := f.b ++ f.a ++ f.d ++ BitVec.ofNat 6 op6 ++ f.g ++ f.s ++ f.e ++ 1#2
def encWI (op6 : Nat) (f : WIFields) : BitVec 32 := f.imm ++ BitVec.ofNat 6 op6 ++ f.d5 ++ f.e ++ 1#2
def encL (op9 : Nat) (f : LFields) : BitVec 64 :=
  f.m3 ++ f.h ++ f.w ++ f.c ++ f.b ++ f.a ++ f.d ++ BitVec.ofNat 9 op9 ++ f.gn ++ f.g6 ++ f.y ++ f.u ++ f.s4 ++ f.e ++ 3#2

/-- The word of an instruction. -/
inductive Enc where
  | h (x : BitVec 16)
  | w (x : BitVec 32)
  | l (x : BitVec 64)
  deriving DecidableEq, Repr

/-- The encoding of an instruction; events have none. -/
def encodeWord : Instr → Option Enc
  | .movH f => some (.h (encH 0 f))
  | .iaddH f => some (.h (encH 1 f))
  | .isubH f => some (.h (encH 2 f))
  | .iandH f => some (.h (encH 3 f))
  | .iorH f => some (.h (encH 4 f))
  | .ixorH f => some (.h (encH 5 f))
  | .ishlH f => some (.h (encH 6 f))
  | .ishrH f => some (.h (encH 7 f))
  | .faddH f => some (.h (encH 8 f))
  | .fsubH f => some (.h (encH 9 f))
  | .fmulH f => some (.h (encH 10 f))
  | .fmaxH f => some (.h (encH 11 f))
  | .fminH f => some (.h (encH 12 f))
  | .caddH f => some (.h (encH 13 f))
  | .cmulH f => some (.h (encH 14 f))
  | .imulH f => some (.h (encH 15 f))
  | .movW f => some (.w (encWR 1 f))
  | .iaddW f => some (.w (encWR 2 f))
  | .isubW f => some (.w (encWR 3 f))
  | .imulW f => some (.w (encWR 4 f))
  | .iandW f => some (.w (encWR 5 f))
  | .iorW f => some (.w (encWR 6 f))
  | .ixorW f => some (.w (encWR 7 f))
  | .ishlW f => some (.w (encWR 8 f))
  | .ishrW f => some (.w (encWR 9 f))
  | .iminW f => some (.w (encWR 10 f))
  | .imaxW f => some (.w (encWR 11 f))
  | .icmpW f => some (.w (encWR 12 f))
  | .faddW f => some (.w (encWR 13 f))
  | .fsubW f => some (.w (encWR 14 f))
  | .fmulW f => some (.w (encWR 15 f))
  | .ffmaW f => some (.w (encWR 16 f))
  | .fminW f => some (.w (encWR 17 f))
  | .fmaxW f => some (.w (encWR 18 f))
  | .fcmpW f => some (.w (encWR 19 f))
  | .caddW f => some (.w (encWR 20 f))
  | .csubW f => some (.w (encWR 21 f))
  | .cmulW f => some (.w (encWR 22 f))
  | .cfmaW f => some (.w (encWR 23 f))
  | .bflyW f => some (.w (encWR 24 f))
  | .twidW f => some (.w (encWR 25 f))
  | .shflW f => some (.w (encWR 26 f))
  | .shflxW f => some (.w (encWR 27 f))
  | .ldsW f => some (.w (encWR 28 f))
  | .stsW f => some (.w (encWR 29 f))
  | .ldW f => some (.w (encWR 30 f))
  | .stW f => some (.w (encWR 31 f))
  | .saddW f => some (.w (encWR 32 f))
  | .ssubW f => some (.w (encWR 33 f))
  | .smovW f => some (.w (encWR 34 f))
  | .scmpW f => some (.w (encWR 35 f))
  | .sandW f => some (.w (encWR 36 f))
  | .sorW f => some (.w (encWR 37 f))
  | .sshlW f => some (.w (encWR 38 f))
  | .sshrW f => some (.w (encWR 39 f))
  | .moviW f => some (.w (encWI 40 f))
  | .smoviW f => some (.w (encWI 41 f))
  | .iaddi f => some (.w (encWI 42 f))
  | .saddi f => some (.w (encWI 43 f))
  | .movhiW f => some (.w (encWI 44 f))
  | .smovhi f => some (.w (encWI 45 f))
  | .braW f => some (.w (encWI 48 f))
  | .loopW f => some (.w (encWI 49 f))
  | .callW f => some (.w (encWI 50 f))
  | .waitcW f => some (.w (encWI 51 f))
  | .exitW f => some (.w (encWI 53 f))
  | .rcvW f => some (.w (encWI 54 f))
  | .divW f => some (.w (encWI 55 f))
  | .iadd f => some (.l (encL 0x000 f))
  | .isub f => some (.l (encL 0x001 f))
  | .imul f => some (.l (encL 0x002 f))
  | .imulh f => some (.l (encL 0x003 f))
  | .imad f => some (.l (encL 0x004 f))
  | .iand f => some (.l (encL 0x005 f))
  | .ior f => some (.l (encL 0x006 f))
  | .ixor f => some (.l (encL 0x007 f))
  | .ishl f => some (.l (encL 0x008 f))
  | .ishr f => some (.l (encL 0x009 f))
  | .isra f => some (.l (encL 0x00A f))
  | .imin f => some (.l (encL 0x00B f))
  | .imax f => some (.l (encL 0x00C f))
  | .iabs f => some (.l (encL 0x00D f))
  | .icmp f => some (.l (encL 0x00E f))
  | .isel f => some (.l (encL 0x00F f))
  | .bfe f => some (.l (encL 0x010 f))
  | .bfi f => some (.l (encL 0x011 f))
  | .popc f => some (.l (encL 0x012 f))
  | .clz f => some (.l (encL 0x013 f))
  | .brev f => some (.l (encL 0x014 f))
  | .bgath f => some (.l (encL 0x015 f))
  | .lea f => some (.l (encL 0x016 f))
  | .iaddc f => some (.l (encL 0x017 f))
  | .mov f => some (.l (encL 0x018 f))
  | .movi f => some (.l (encL 0x019 f))
  | .movhi f => some (.l (encL 0x01A f))
  | .idot4 f => some (.l (encL 0x01B f))
  | .fadd f => some (.l (encL 0x040 f))
  | .fsub f => some (.l (encL 0x041 f))
  | .fmul f => some (.l (encL 0x042 f))
  | .ffma f => some (.l (encL 0x043 f))
  | .fmin f => some (.l (encL 0x044 f))
  | .fmax f => some (.l (encL 0x045 f))
  | .fcmp f => some (.l (encL 0x046 f))
  | .fclass f => some (.l (encL 0x047 f))
  | .frcp f => some (.l (encL 0x048 f))
  | .frsq f => some (.l (encL 0x049 f))
  | .fsqrt f => some (.l (encL 0x04A f))
  | .fexp2 f => some (.l (encL 0x04B f))
  | .flog2 f => some (.l (encL 0x04C f))
  | .fsint f => some (.l (encL 0x04D f))
  | .fcost f => some (.l (encL 0x04E f))
  | .fcvt f => some (.l (encL 0x04F f))
  | .frnd f => some (.l (encL 0x050 f))
  | .ffrac f => some (.l (encL 0x051 f))
  | .cadd f => some (.l (encL 0x080 f))
  | .csub f => some (.l (encL 0x081 f))
  | .cmul f => some (.l (encL 0x082 f))
  | .cfma f => some (.l (encL 0x083 f))
  | .cmag2 f => some (.l (encL 0x084 f))
  | .cscale f => some (.l (encL 0x085 f))
  | .cexpi f => some (.l (encL 0x086 f))
  | .cphase f => some (.l (encL 0x087 f))
  | .twid f => some (.l (encL 0x088 f))
  | .bfly f => some (.l (encL 0x089 f))
  | .ccvt f => some (.l (encL 0x08A f))
  | .bpack f => some (.l (encL 0x08B f))
  | .bunpk f => some (.l (encL 0x08C f))
  | .bexpm f => some (.l (encL 0x08D f))
  | .phq f => some (.l (encL 0x08E f))
  | .edge f => some (.l (encL 0x08F f))
  | .trix f => some (.l (encL 0x090 f))
  | .shfl f => some (.l (encL 0x0B0 f))
  | .shflx f => some (.l (encL 0x0B1 f))
  | .shfld f => some (.l (encL 0x0B2 f))
  | .shflu f => some (.l (encL 0x0B3 f))
  | .scan f => some (.l (encL 0x0B4 f))
  | .reds f => some (.l (encL 0x0B5 f))
  | .vote f => some (.l (encL 0x0B6 f))
  | .matchT f => some (.l (encL 0x0B7 f))
  | .lace f => some (.l (encL 0x0B8 f))
  | .laceld f => some (.l (encL 0x0B9 f))
  | .bcast f => some (.l (encL 0x0BA f))
  | .qand f => some (.l (encL 0x0D0 f))
  | .qor f => some (.l (encL 0x0D1 f))
  | .qxor f => some (.l (encL 0x0D2 f))
  | .qtos f => some (.l (encL 0x0D3 f))
  | .stoq f => some (.l (encL 0x0D4 f))
  | .sadd f => some (.l (encL 0x0E0 f))
  | .ssub f => some (.l (encL 0x0E1 f))
  | .smul f => some (.l (encL 0x0E2 f))
  | .smulh f => some (.l (encL 0x0E3 f))
  | .sand f => some (.l (encL 0x0E4 f))
  | .sor f => some (.l (encL 0x0E5 f))
  | .sxor f => some (.l (encL 0x0E6 f))
  | .sshl f => some (.l (encL 0x0E7 f))
  | .sshr f => some (.l (encL 0x0E8 f))
  | .ssra f => some (.l (encL 0x0E9 f))
  | .smin f => some (.l (encL 0x0EA f))
  | .smax f => some (.l (encL 0x0EB f))
  | .smov f => some (.l (encL 0x0EC f))
  | .smovi f => some (.l (encL 0x0ED f))
  | .scmp f => some (.l (encL 0x0EE f))
  | .ssel f => some (.l (encL 0x0EF f))
  | .sbfe f => some (.l (encL 0x0F0 f))
  | .spopc f => some (.l (encL 0x0F1 f))
  | .sclz f => some (.l (encL 0x0F2 f))
  | .sldk f => some (.l (encL 0x0F3 f))
  | .setfmt f => some (.l (encL 0x0F4 f))
  | .getfmt f => some (.l (encL 0x0F5 f))
  | .xwin f => some (.l (encL 0x0F6 f))
  | .xset f => some (.l (encL 0x0F7 f))
  | .sfadd f => some (.l (encL 0x0F8 f))
  | .sfmul f => some (.l (encL 0x0F9 f))
  | .sffma f => some (.l (encL 0x0FA f))
  | .sfcvt f => some (.l (encL 0x0FB f))
  | .bra f => some (.l (encL 0x110 f))
  | .brx f => some (.l (encL 0x111 f))
  | .divT f => some (.l (encL 0x112 f))
  | .rcv f => some (.l (encL 0x113 f))
  | .call f => some (.l (encL 0x114 f))
  | .ret f => some (.l (encL 0x115 f))
  | .exit f => some (.l (encL 0x116 f))
  | .nop f => some (.l (encL 0x117 f))
  | .yield f => some (.l (encL 0x118 f))
  | .loop f => some (.l (encL 0x119 f))
  | .trap f => some (.l (encL 0x11A f))
  | .bkpt f => some (.l (encL 0x11B f))
  | .ld f => some (.l (encL 0x130 f))
  | .st f => some (.l (encL 0x131 f))
  | .lds f => some (.l (encL 0x132 f))
  | .sts f => some (.l (encL 0x133 f))
  | .ldt f => some (.l (encL 0x134 f))
  | .stt f => some (.l (encL 0x135 f))
  | .atom f => some (.l (encL 0x136 f))
  | .atoms f => some (.l (encL 0x137 f))
  | .sumx f => some (.l (encL 0x138 f))
  | .sumrd f => some (.l (encL 0x139 f))
  | .sumclr f => some (.l (encL 0x13A f))
  | .pref f => some (.l (encL 0x13B f))
  | .waitc f => some (.l (encL 0x13C f))
  | .fence f => some (.l (encL 0x13D f))
  | .shut f => some (.l (encL 0x170 f))
  | .shutx f => some (.l (encL 0x171 f))
  | .dtld f => some (.l (encL 0x172 f))
  | .decode f => some (.l (encL 0x173 f))
  | .fetchf f => some (.l (encL 0x174 f))
  | .darn f => some (.l (encL 0x175 f))
  | .dispq f => some (.l (encL 0x176 f))
  | .mclr f => some (.l (encL 0x190 f))
  | .mloop f => some (.l (encL 0x191 f))
  | .mrd f => some (.l (encL 0x192 f))
  | .mbld f => some (.l (encL 0x193 f))
  | .mtwid f => some (.l (encL 0x194 f))
  | .seedld f => some (.l (encL 0x195 f))
  | .seedscan f => some (.l (encL 0x196 f))
  | .seeddrop f => some (.l (encL 0x197 f))
  | .join f => some (.l (encL 0x1B0 f))
  | .leave f => some (.l (encL 0x1B1 f))
  | .bar f => some (.l (encL 0x1B2 f))
  | .bara f => some (.l (encL 0x1B3 f))
  | .barw f => some (.l (encL 0x1B4 f))
  | .ringp f => some (.l (encL 0x1B5 f))
  | .ringw f => some (.l (encL 0x1B6 f))
  | .ringf f => some (.l (encL 0x1B7 f))
  | .launch f => some (.l (encL 0x1B8 f))
  | .emit f => some (.l (encL 0x1B9 f))
  | .take f => some (.l (encL 0x1BA f))
  | .qclose f => some (.l (encL 0x1BB f))
  | .grow f => some (.l (encL 0x1BC f))
  | .shrink f => some (.l (encL 0x1BD f))
  | .chsend f => some (.l (encL 0x1BE f))
  | .chrecv f => some (.l (encL 0x1BF f))
  | .redx f => some (.l (encL 0x1C0 f))
  | .redw f => some (.l (encL 0x1C1 f))
  | .rdsr f => some (.l (encL 0x1D0 f))
  | .wrsr f => some (.l (encL 0x1D1 f))
  | .tret f => some (.l (encL 0x1D2 f))
  | .tmset f => some (.l (encL 0x1D3 f))
  | .balloonGive f => some (.l (encL 0x1D4 f))
  | .dieset f => some (.l (encL 0x1D5 f))
  | .memfsp f => some (.l (encL 0x1D6 f))
  | .ringpAfter f => some (.l (encL 0x1B5 f))
  | .dispqQuery f => some (.l (encL 0x176 f))
  | .balloonQuery f => some (.l (encL 0x1D4 f))
  | .halt => some (.l 0x0000000001D70003)
  | .yieldW => some (.w (encWI 52 { imm := 0, d5 := 0, e := 0 }))
  | _ => none

/-- The low n bytes of a word, first byte at the lowest address (R1, R80). -/
def wordBytes : Nat → Nat → List Byte
  | 0, _ => []
  | n + 1, x => BitVec.ofNat 8 x :: wordBytes n (x / 256)

/-- The bytes of an encoding. -/
def Enc.bytes : Enc → List Byte
  | .h x => wordBytes 2 x.toNat
  | .w x => wordBytes 4 x.toNat
  | .l x => wordBytes 8 x.toNat

/-- The bytes of an instruction, in stream order. -/
def encode (i : Instr) : List Byte :=
  match encodeWord i with
  | some e => e.bytes
  | none => []

/-- The instruction that the decoder reads from the bits w of an opcode-table row of nbits bits; every bit above nbits
is zero. -/
def decodeTableWord (nbits w : Nat) : Option Instr :=
  match decode (wordBytes 8 (w % 2 ^ nbits)) with
  | .ok (i, _) => some i
  | .error _ => none

end Sys2Proof
end

