-- ==== Sys2Proof/Machine/Fetch.lean ====
section
/-! DEFINITION. Instruction fetch (R80, R81): translation for execution, the bytes, and their decoding. -/

namespace Sys2Proof.Machine

/-- What a fetch gives: an instruction with its bits and its length, a trap, translation faults, a parked walk, or a wait for a
frame or a link (R410, R431). -/
inductive Fetched where
  | ok (i : Instr) (ir : DWord) (len : Nat)
  | trap (c : Cause)
  | fault (es : List BatchEntry)
  | park
  | wait
  deriving DecidableEq, Repr

/-- A byte of code: what the core or its die holds dirty, else the home, so that every store performed there is seen
(R81, R232). -/
def State.codeByte (s : State) (d c pa : Nat) : Byte :=
  let home := match tget (s.die d).copies pa with
    | some b => if b.dirty then b.val else cget s.mem pa
    | none => cget s.mem pa
  match tget (s.core d c).l1 pa with
  | some b => if b.dirty then b.val else home
  | none => home

def State.codeBytes (s : State) (d c pa : Nat) : Nat → List Byte
  | 0 => []
  | n + 1 => s.codeByte d c pa :: s.codeBytes d c (pa + 1) n

/-- Bytes of one page from a virtual address, at most n: the bytes and what a read of them meets. -/
def State.fetchPart (s : State) (st : Strand) (va n : Nat) : State × Except Fetched (List Byte) :=
  match s.translate st.ctx st.d st.k (some st.ln) va kFetch with
  | (s, .ok pa) =>
    if s.heldFroms st.d pa n then (s, .error .wait)
    else match (List.range n).findSome? fun i => s.readBadFrom st.d (pa + i) with
    | some c => (s, .error (.trap c))
    | none => (s, .ok (s.codeBytes st.d st.k pa n))
  | (s, .park) => (s, .error .park)
  | (s, .wait) => (s, .error .wait)
  | (s, .fault c lvl) => (s, .error (.fault [faultEntry va c lvl kFetch]))

/-- Fetches the instruction at a strand's pc. A pc, or an instruction's end, beyond the 48-bit space raises WINDOW. -/
def State.fetch (s : State) (st : Strand) : State × Fetched :=
  let va := st.pc.toNat
  if 2 ^ 48 ≤ va + 1 then (s, .trap .window)
  else
    match s.fetchPart st va 2 with
    | (s, .error e) => (s, e)
    | (s, .ok bs) =>
      let n := instrLen (Sys2Proof.half (nth 0 bs 0) (nth 0 bs 1))
      let first := min n (4096 - va % 4096)
      if 2 ^ 48 < va + n then (s, .trap .window)
      else
        match s.fetchPart st va first with
        | (s, .error e) => (s, e)
        | (s, .ok b1) =>
          let two := if first < n then s.fetchPart st (va + first) (n - first) else (s, .ok [])
          match two with
          | (s, .error e) => (s, e)
          | (s, .ok b2) =>
            match decode (b1 ++ b2) with
            | .ok (i, len) => (s, .ok i (BitVec.ofNat 64 (leVal (b1 ++ b2))) len)
            | .error _ => (s, .trap .window)

end Sys2Proof.Machine
end

