-- ==== Sys2Proof/Machine/Scalar.lean ====
section
/-! DEFINITION. The predicate and scalar families (R116 to R135): each executes once per strand. -/

namespace Sys2Proof.Machine

/-- A strand-once instruction by its row. -/
def execS (i : Instr) (f : LFields) (pre : Strand → Mask → Option Nat) (g : Strand → Mask → Strand) (s : State) : Result :=
  execOnce i (rowOf i) f 8 pre (fun x => g x.st x.adm) s

/-! Predicates. -/

/-- QAND, QOR, QXOR with the inversions of m3 (R133). -/
def qLogic (op : Mask → Mask → Mask) (f : LFields) (st : Strand) (m : Mask) : Strand :=
  let inv (k : Nat) (x : Mask) : Mask := if f.m3.getLsbD k then ~~~x else x
  st.qset f.d.toNat m (inv 2 (op (inv 0 (st.qget f.a.toNat)) (inv 1 (st.qget f.b.toNat))))
def execQand (f : LFields) (s : State) : Result := execS (.qand f) f noPre (qLogic (· &&& ·) f) s
def execQor (f : LFields) (s : State) : Result := execS (.qor f) f noPre (qLogic (· ||| ·) f) s
def execQxor (f : LFields) (s : State) : Result := execS (.qxor f) f noPre (qLogic (· ^^^ ·) f) s

/-- QTOS (R134). -/
def qtosExec (f : LFields) (st : Strand) (m : Mask) : Strand :=
  let q := st.qget f.a.toNat
  st.sset (f.d.toNat - 0x80) ((if f.m3 == 1 then q &&& m else q).zeroExtend 32)
def execQtos (f : LFields) (s : State) : Result := execS (.qtos f) f noPre (qtosExec f) s

/-- STOQ (R135). -/
def stoqExec (f : LFields) (st : Strand) (m : Mask) : Strand :=
  st.qset f.d.toNat m ((st.sval f.a.toNat).truncate 16)
def execStoq (f : LFields) (s : State) : Result := execS (.stoq f) f noPre (stoqExec f) s

/-! Scalar integers. -/

/-- Writes a scalar result: a pair under .b64 (R118). -/
def scalarOut (f : LFields) (x : DWord) (st : Strand) : Strand :=
  if f.m3 == 7 then st.sset64 (f.d.toNat - 0x80) x else st.sset (f.d.toNat - 0x80) (x.truncate 32)

/-- A scalar operand of the type: a pair under .b64. -/
def Strand.sarg (st : Strand) (m3 : BitVec 3) (x : Nat) : DWord :=
  if m3 == 7 then st.sval64 x else (st.sval x).zeroExtend 64

/-- A two-source scalar operation on the type's width (R119). -/
def scalar2 (f : LFields) (g : Nat → Nat → Nat → Nat) (st : Strand) (_ : Mask) : Strand :=
  let w := intW f.m3.toNat
  scalarOut f (BitVec.ofNat 64 (g w (st.sarg f.m3 f.a.toNat).toNat (st.sarg f.m3 f.b.toNat).toNat % 2 ^ w)) st
/-- A scalar shift: b is one 32-bit register (R119). -/
def scalarShift (f : LFields) (g : Nat → Nat → Nat → Nat) (st : Strand) (_ : Mask) : Strand :=
  let w := intW f.m3.toNat
  scalarOut f (BitVec.ofNat 64 (g w (st.sarg f.m3 f.a.toNat).toNat ((st.sval f.b.toNat).toNat % w) % 2 ^ w)) st

def sAddFn (_ a b : Nat) : Nat := a + b
def sAndFn (_ a b : Nat) : Nat := a.land b
def sOrFn (_ a b : Nat) : Nat := a.lor b
def sXorFn (_ a b : Nat) : Nat := a.xor b
def sShlFn (_ a n : Nat) : Nat := iShl a n
def sShrFn (_ a n : Nat) : Nat := iShr a n

def execSadd (f : LFields) (s : State) : Result := execS (.sadd f) f noPre (scalar2 f sAddFn) s
def execSsub (f : LFields) (s : State) : Result := execS (.ssub f) f noPre (scalar2 f iSub) s
def execSmul (f : LFields) (s : State) : Result := execS (.smul f) f noPre (scalar2 f fun _ a b => a * b) s
def execSmulh (f : LFields) (s : State) : Result :=
  execS (.smulh f) f noPre (scalar2 f fun _ a b => iMulh f.m3.toNat a b) s
def execSand (f : LFields) (s : State) : Result := execS (.sand f) f noPre (scalar2 f sAndFn) s
def execSor (f : LFields) (s : State) : Result := execS (.sor f) f noPre (scalar2 f sOrFn) s
def execSxor (f : LFields) (s : State) : Result := execS (.sxor f) f noPre (scalar2 f sXorFn) s
def execSshl (f : LFields) (s : State) : Result := execS (.sshl f) f noPre (scalarShift f sShlFn) s
def execSshr (f : LFields) (s : State) : Result := execS (.sshr f) f noPre (scalarShift f sShrFn) s
def execSsra (f : LFields) (s : State) : Result := execS (.ssra f) f noPre (scalarShift f iSra) s
def execSmin (f : LFields) (s : State) : Result :=
  execS (.smin f) f noPre (scalar2 f fun _ a b => iMinMax f.m3.toNat false a b) s
def execSmax (f : LFields) (s : State) : Result :=
  execS (.smax f) f noPre (scalar2 f fun _ a b => iMinMax f.m3.toNat true a b) s

/-- SMOV (R119, R122): a vector source gives the lowest admitted thread's slot. -/
def smovExec (f : LFields) (st : Strand) (m : Mask) : Strand :=
  let x := f.a.toNat
  if x < 0x80 then
    let t := mLow m
    scalarOut f (if f.m3 == 7 then st.vget (x + 1) t ++ st.vget x t else (st.vget x t).zeroExtend 64) st
  else scalarOut f (st.sarg f.m3 x) st
def execSmov (f : LFields) (s : State) : Result := execS (.smov f) f noPre (smovExec f) s

/-- SMOVI (R123). -/
def smoviExec (f : LFields) (st : Strand) (_ : Mask) : Strand :=
  let n := f.d.toNat - 0x80
  match f.m3.toNat with
  | 0 => st.sset n ((imm16 f).signExtend 32)
  | 1 => st.sset n ((imm16 f).zeroExtend 32)
  | 2 => st.sset n (highWord (imm16 f) (st.sget n))
  | _ => st.sset64 n ((imm16 f).signExtend 64)
def execSmovi (f : LFields) (s : State) : Result := execS (.smovi f) f noPre (smoviExec f) s

/-- SCMP (R120): unsigned under .n32 and .b64. -/
def scmpFn (f : LFields) (st : Strand) : Bool :=
  intCompare f.m3.toNat f.c.toNat (st.sarg f.m3 f.a.toNat).toNat (st.sarg f.m3 f.b.toNat).toNat
def scmpExec (f : LFields) (st : Strand) (_ : Mask) : Strand :=
  st.sset (f.d.toNat - 0x80) (if scmpFn f st then 1 else 0)
def execScmp (f : LFields) (s : State) : Result := execS (.scmp f) f noPre (scmpExec f) s

def sselExec (f : LFields) (st : Strand) (_ : Mask) : Strand :=
  scalarOut f (if st.sval f.c.toNat != 0 then st.sarg f.m3 f.a.toNat else st.sarg f.m3 f.b.toNat) st
def execSsel (f : LFields) (s : State) : Result := execS (.ssel f) f noPre (sselExec f) s

def sbfeExec (f : LFields) (st : Strand) (_ : Mask) : Strand :=
  st.sset (f.d.toNat - 0x80) (bitField (f.m3 == 0) (st.sval f.a.toNat) (st.sval f.b.toNat) (st.sval f.c.toNat))
def execSbfe (f : LFields) (s : State) : Result := execS (.sbfe f) f noPre (sbfeExec f) s

def sCount (g : Nat → Nat → Nat) (f : LFields) (st : Strand) (_ : Mask) : Strand :=
  st.sset (f.d.toNat - 0x80) (BitVec.ofNat 32 (g (intW f.m3.toNat) (st.sarg f.m3 f.a.toNat).toNat))
def execSpopc (f : LFields) (s : State) : Result := execS (.spopc f) f noPre (sCount popCount f) s
def execSclz (f : LFields) (s : State) : Result := execS (.sclz f) f noPre (sCount leadZeros f) s

/-- SLDK (R124): the parameter block as copied at acceptance; bytes beyond PLEN read as zero. -/
def execSldk (f : LFields) (s : State) : Result :=
  let i : Instr := .sldk f
  match issue i (rowOf i) f noPre s with
  | .out o => o
  | .go x =>
    if x.adm = 0 then .next (s.finish x (rowOf i) f 8 x.st)
    else
      let n := if f.m3 == 7 then 8 else 4
      let off := ((x.st.sval f.a.toNat) + (imm16 f).zeroExtend 32).toNat
      if off % n ≠ 0 then .next (s.trapAtIssue x.id x.st .align 0 x.adm)
      else
        let ps := match s.kernelOf x.st with
          | some k => k.params
          | none => []
        let v := leVal ((List.range n).map fun j => nth 0 ps (off + j))
        .next (s.finish x (rowOf i) f 8 (scalarOut f (BitVec.ofNat 64 v) x.st))

/-! The numeric environment and the index registers. -/

/-- The fmt that SETFMT would write (R125). -/
def setfmtVal (f : LFields) (st : Strand) : Word :=
  let a := st.sval f.a.toNat
  if f.m3 == 0 then a else (st.fmt &&& ~~~0xF#32) ||| (a &&& 0xF)
def setfmtPre (f : LFields) (st : Strand) (m : Mask) : Option Nat :=
  if m = 0 then none
  else
    let a := st.sval f.a.toNat
    if (if f.m3 == 0 then fmtLegal a else a.toNat < 16) then none else some 0
def execSetfmt (f : LFields) (s : State) : Result :=
  execS (.setfmt f) f (setfmtPre f) (fun st _ => { st with fmt := setfmtVal f st }) s

def execGetfmt (f : LFields) (s : State) : Result :=
  execS (.getfmt f) f noPre (fun st _ => st.sset (f.d.toNat - 0x80) (st.fmt &&& 0x003FFFFF)) s

/-- XWIN (R127). -/
def xwinPre (f : LFields) (st : Strand) (m : Mask) : Option Nat :=
  if m = 0 ∨ ((st.sval f.a.toNat).toNat ≤ 127 ∧ (st.sval f.b.toNat).toNat ≤ 128) then none else some 0
def execXwin (f : LFields) (s : State) : Result :=
  execS (.xwin f) f (xwinPre f) (fun st _ => { st with
    xbase := cput st.xbase f.d.toNat ((st.sval f.a.toNat).truncate 7),
    xsize := cput st.xsize f.d.toNat ((st.sval f.b.toNat).truncate 8) }) s

/-- XSET (R128): all slots of a vector source are read first. -/
def xsetExec (f : LFields) (st : Strand) (m : Mask) : Strand :=
  let k := f.d.toNat
  let val (t : Nat) : BitVec 16 :=
    let x := f.a.toNat
    (if x < 0x80 then st.vget x t else st.sval x).truncate 16
  eachThread m (fun t r => r.xset k t (if f.m3 == 0 then val t else st.xget k t + val t)) st
def execXset (f : LFields) (s : State) : Result := execS (.xset f) f noPre (xsetExec f) s

/-! Scalar floating point (R130, R131). -/

def sfExec (g : FFmt → FEnv → Nat → Nat → Nat → FRes) (f : LFields) (st : Strand) (_ : Mask) : Strand :=
  let fm := fpFmt f.m3.toNat
  let v (x : Nat) : Nat := if x < 0xC0 then fm.slot (st.sget (x - 0x80)).toNat else constFp fm x
  let r := g fm (FEnv.ofFmt st.fmt) (v f.a.toNat) (v f.b.toNat) (if f.c = 0 then 0 else v f.c.toNat)
  (st.sset (f.d.toNat - 0x80) (BitVec.ofNat 32 r.bits)).addFlags r.flags
def execSfadd (f : LFields) (s : State) : Result :=
  execS (.sfadd f) f noPre (sfExec (fun g e a b _ => fpAdd g e a b) f) s
def execSfmul (f : LFields) (s : State) : Result :=
  execS (.sfmul f) f noPre (sfExec (fun g e a b _ => fpMul g e a b) f) s
def execSffma (f : LFields) (s : State) : Result := execS (.sffma f) f noPre (sfExec fpFma f) s

/-- SFCVT (R131): w = 1 takes the rounding mode from h. -/
def sfcvtExec (f : LFields) (st : Strand) (_ : Mask) : Strand :=
  let env := FEnv.ofFmt st.fmt
  let env := if f.w == 1 then { env with rm := RMode.ofBits f.h } else env
  let x := f.a.toNat
  let a := if x < 0xC0 then st.sget (x - 0x80) else wd (constVal x (cvtTy f.c.toNat)) 0
  let r := convert f.m3.toNat f.c.toNat env a
  (st.sset (f.d.toNat - 0x80) r.1).addFlags r.2
def execSfcvt (f : LFields) (s : State) : Result := execS (.sfcvt f) f noPre (sfcvtExec f) s

end Sys2Proof.Machine
end

