-- ==== Sys2Proof/Machine/ShortForms.lean ====
section
/-! DEFINITION. The H and W forms (R82 to R90): each names the L instruction that its table gives and shares that
instruction's operation, with its own length and fields. -/

namespace Sys2Proof.Machine

/-- An H instruction as the L instruction of R83 with type code m3. -/
def HFields.toM (h : HFields) (m3 : Nat) : LFields := { HFields.toL h with m3 := BitVec.ofNat 3 m3 }
/-- An H instruction (R83). -/
def execH (i : Instr) (row : LFields → Instr) (h : HFields) (m3 : Nat) (vd : VecDef) (s : State) : Result :=
  let f := HFields.toM h m3
  execVec i (rowOf (row f)) f 2 (fun _ => vd) s

/-- MOV of R83: its source is b, where the others have d as their first source. -/
def HFields.toMov (h : HFields) : LFields := { HFields.toM h 6 with a := h.b.zeroExtend 8, b := 0 }
def execMovH (h : HFields) (s : State) : Result :=
  execVec (.movH h) (rowOf (.mov (HFields.toMov h))) (HFields.toMov h) 2 (fun _ => defMov 6) s
def execIaddH (h : HFields) (s : State) : Result := execH (.iaddH h) .iadd h 0 (defIadd 0) s
def execIsubH (h : HFields) (s : State) : Result := execH (.isubH h) .isub h 0 (defIsub 0) s
def execIandH (h : HFields) (s : State) : Result := execH (.iandH h) .iand h 6 (defIand 6) s
def execIorH (h : HFields) (s : State) : Result := execH (.iorH h) .ior h 6 (defIor 6) s
def execIxorH (h : HFields) (s : State) : Result := execH (.ixorH h) .ixor h 6 (defIxor 6) s
def execIshlH (h : HFields) (s : State) : Result := execH (.ishlH h) .ishl h 6 (defIshl 6) s
def execIshrH (h : HFields) (s : State) : Result := execH (.ishrH h) .ishr h 6 (defIshr 6) s
def execFaddH (h : HFields) (s : State) : Result := execH (.faddH h) .fadd h 0 (defFadd 0) s
def execFsubH (h : HFields) (s : State) : Result := execH (.fsubH h) .fsub h 0 (defFsub 0) s
def execFmulH (h : HFields) (s : State) : Result := execH (.fmulH h) .fmul h 0 (defFmul 0) s
def execFmaxH (h : HFields) (s : State) : Result := execH (.fmaxH h) .fmax h 0 (defFmax 0) s
def execFminH (h : HFields) (s : State) : Result := execH (.fminH h) .fmin h 0 (defFmin 0) s
def execCaddH (h : HFields) (s : State) : Result := execH (.caddH h) .cadd h 0 (defCadd 0) s
def execCmulH (h : HFields) (s : State) : Result := execH (.cmulH h) .cmul h 0 (defCmul 0) s
def execImulH (h : HFields) (s : State) : Result := execH (.imulH h) .imul h 0 (defImul 0) s

/-- A W-R instruction as the L instruction of R87 with type code m3. -/
def WRFields.toM (r : WRFields) (m3 : Nat) : LFields := { WRFields.toL r with m3 := BitVec.ofNat 3 m3 }
/-- A vector W-R instruction (R87). -/
def execWV (i : Instr) (row : LFields → Instr) (r : WRFields) (m3 : Nat) (vd : VecDef) (s : State) : Result :=
  let f := WRFields.toM r m3
  execVec i (rowOf (row f)) f 4 (fun _ => vd) s

def execMovW (r : WRFields) (s : State) : Result := execWV (.movW r) .mov r 6 (defMov 6) s
def execIaddW (r : WRFields) (s : State) : Result := execWV (.iaddW r) .iadd r 0 (defIadd 0) s
def execIsubW (r : WRFields) (s : State) : Result := execWV (.isubW r) .isub r 0 (defIsub 0) s
def execImulW (r : WRFields) (s : State) : Result := execWV (.imulW r) .imul r 0 (defImul 0) s
def execIandW (r : WRFields) (s : State) : Result := execWV (.iandW r) .iand r 6 (defIand 6) s
def execIorW (r : WRFields) (s : State) : Result := execWV (.iorW r) .ior r 6 (defIor 6) s
def execIxorW (r : WRFields) (s : State) : Result := execWV (.ixorW r) .ixor r 6 (defIxor 6) s
def execIshlW (r : WRFields) (s : State) : Result := execWV (.ishlW r) .ishl r 6 (defIshl 6) s
def execIshrW (r : WRFields) (s : State) : Result := execWV (.ishrW r) .ishr r 6 (defIshr 6) s
def execIminW (r : WRFields) (s : State) : Result := execWV (.iminW r) .imin r 0 (defImin 0) s
def execImaxW (r : WRFields) (s : State) : Result := execWV (.imaxW r) .imax r 0 (defImax 0) s
def execIcmpW (r : WRFields) (s : State) : Result := execWV (.icmpW r) .icmp r 0 (defIcmp 0 0) s
def execFaddW (r : WRFields) (s : State) : Result := execWV (.faddW r) .fadd r 0 (defFadd 0) s
def execFsubW (r : WRFields) (s : State) : Result := execWV (.fsubW r) .fsub r 0 (defFsub 0) s
def execFmulW (r : WRFields) (s : State) : Result := execWV (.fmulW r) .fmul r 0 (defFmul 0) s
def execFminW (r : WRFields) (s : State) : Result := execWV (.fminW r) .fmin r 0 (defFmin 0) s
def execFmaxW (r : WRFields) (s : State) : Result := execWV (.fmaxW r) .fmax r 0 (defFmax 0) s
def execFcmpW (r : WRFields) (s : State) : Result := execWV (.fcmpW r) .fcmp r 0 (defFcmp 0 0) s
def execCaddW (r : WRFields) (s : State) : Result := execWV (.caddW r) .cadd r 0 (defCadd 0) s
def execCsubW (r : WRFields) (s : State) : Result := execWV (.csubW r) .csub r 0 (defCsub 0) s
def execCmulW (r : WRFields) (s : State) : Result := execWV (.cmulW r) .cmul r 0 (defCmul 0) s
def execBflyW (r : WRFields) (s : State) : Result := execWV (.bflyW r) .bfly r 0 (defBfly 0) s
def execTwidW (r : WRFields) (s : State) : Result := execWV (.twidW r) .twid r 0 (defTwid 0) s

/-- FFMA and CFMA of R87 read their destination as the addend. -/
def WRFields.acc (r : WRFields) : LFields := { WRFields.toL r with c := r.d.zeroExtend 8 }
def execWAcc (i : Instr) (row : LFields → Instr) (r : WRFields) (vd : VecDef) (s : State) : Result :=
  let f := WRFields.acc r
  execVec i (rowOf (row f)) f 4 (fun _ => vd) s
def execFfmaW (r : WRFields) (s : State) : Result := execWAcc (.ffmaW r) .ffma r (defFfma 0) s
def execCfmaW (r : WRFields) (s : State) : Result := execWAcc (.cfmaW r) .cfma r (defCfma 0) s

/-- SHFL and SHFLX of R87. -/
def execWX (i : Instr) (row : LFields → Instr) (r : WRFields) (src : Nat → Nat → Nat) (s : State) : Result :=
  let f := WRFields.toM r 6
  execCross i (rowOf (row f)) f 4 (shuffle (rowOf (row f)) f src) s
def execShflW (r : WRFields) (s : State) : Result := execWX (.shflW r) .shfl r srcShfl s
def execShflxW (r : WRFields) (s : State) : Result := execWX (.shflxW r) .shflx r srcShflx s

/-- The .b32 access of R87 at base plus four times the offset field. -/
def WRFields.mem (r : WRFields) : LFields := { WRFields.toM r 4 with b := r.b.zeroExtend 8 + 0xC0 }
def execLdsW (r : WRFields) (s : State) : Result := ldsExec (.ldsW r) (rowOf (.lds (WRFields.mem r))) (WRFields.mem r) 4 s
def execStsW (r : WRFields) (s : State) : Result := stsExec (.stsW r) (rowOf (.sts (WRFields.mem r))) (WRFields.mem r) 4 s
def execLdW (r : WRFields) (s : State) : Result := ldExec (.ldW r) (rowOf (.ld (WRFields.mem r))) (WRFields.mem r) 4 s
def execStW (r : WRFields) (s : State) : Result := stExec (.stW r) (rowOf (.st (WRFields.mem r))) (WRFields.mem r) 4 s

/-- A scalar W-R instruction: its fields name scalar registers (R87); SMOV has no second source. -/
def WRFields.scal (r : WRFields) (m3 : Nat) (two : Bool) : LFields :=
  { WRFields.toM r m3 with d := sReg8 r.d, a := sReg8 r.a, b := if two then sReg8 r.b else 0 }
def execWS (i : Instr) (row : LFields → Instr) (f : LFields) (g : LFields → Strand → Mask → Strand) (s : State) : Result :=
  execOnce i (rowOf (row f)) f 4 noPre (fun x => g f x.st x.adm) s
def execSaddW (r : WRFields) (s : State) : Result :=
  execWS (.saddW r) .sadd (WRFields.scal r 0 true) (fun f => scalar2 f sAddFn) s
def execSsubW (r : WRFields) (s : State) : Result :=
  execWS (.ssubW r) .ssub (WRFields.scal r 0 true) (fun f => scalar2 f iSub) s
def execSmovW (r : WRFields) (s : State) : Result :=
  execWS (.smovW r) .smov (WRFields.scal r 0 false) smovExec s
def execScmpW (r : WRFields) (s : State) : Result :=
  execWS (.scmpW r) .scmp (WRFields.scal r 0 true) scmpExec s
def execSandW (r : WRFields) (s : State) : Result :=
  execWS (.sandW r) .sand (WRFields.scal r 6 true) (fun f => scalar2 f sAndFn) s
def execSorW (r : WRFields) (s : State) : Result :=
  execWS (.sorW r) .sor (WRFields.scal r 6 true) (fun f => scalar2 f sOrFn) s
def execSshlW (r : WRFields) (s : State) : Result :=
  execWS (.sshlW r) .sshl (WRFields.scal r 6 true) (fun f => scalarShift f sShlFn) s
def execSshrW (r : WRFields) (s : State) : Result :=
  execWS (.sshrW r) .sshr (WRFields.scal r 6 true) (fun f => scalarShift f sShrFn) s

/-! W-I (R88). -/

/-- The fields of a W-I instruction on a vector or a scalar register. -/
def WIFields.vec (r : WIFields) : LFields :=
  { WIFields.toL r with d := r.d5.zeroExtend 8, a := r.d5.zeroExtend 8 }
def WIFields.scal (r : WIFields) (m3 : Nat) : LFields :=
  { WIFields.toL r with m3 := BitVec.ofNat 3 m3, d := sReg8 r.d5, a := sReg8 r.d5 }

/-- MOVI, IADDI and MOVHI of R88 on one thread's operands. -/
def vdMoviW (r : WIFields) : VecDef := wordDef .i32 .i32 .i32 fun _ => r.imm.signExtend 32
def vdIaddi (r : WIFields) : VecDef := wordDef .i32 .i32 .i32 fun x => wd x.a 0 + r.imm.signExtend 32
def vdMovhiW (r : WIFields) : VecDef := wordDef .i32 .i32 .i32 fun x => highWord (r.imm.truncate 16) (wd x.d 0)

def execMoviW (r : WIFields) (s : State) : Result :=
  let f := WIFields.vec r
  execVec (.moviW r) (rowOf (.movi f)) f 4 (fun _ => vdMoviW r) s
def execIaddi (r : WIFields) (s : State) : Result :=
  let f := WIFields.vec r
  execVec (.iaddi r) (specInt1 1 f) f 4 (fun _ => vdIaddi r) s
def execMovhiW (r : WIFields) (s : State) : Result :=
  let f := WIFields.vec r
  execVec (.movhiW r) (rowOf (.movhi f)) f 4 (fun _ => vdMovhiW r) s
def execSmoviW (r : WIFields) (s : State) : Result :=
  let f := WIFields.scal r 0
  execOnce (.smoviW r) (rowOf (.smovi f)) f 4 noPre (fun x => x.st.sset r.d5.toNat (r.imm.signExtend 32)) s
def execSaddi (r : WIFields) (s : State) : Result :=
  let f := WIFields.scal r 0
  execOnce (.saddi r) (specS1 1 f) f 4 noPre
    (fun x => x.st.sset r.d5.toNat (x.st.sget r.d5.toNat + r.imm.signExtend 32)) s
def execSmovhi (r : WIFields) (s : State) : Result :=
  let f := WIFields.scal r 2
  execOnce (.smovhi r) (rowOf (.smovi f)) f 4 noPre
    (fun x => x.st.sset r.d5.toNat (highWord (r.imm.truncate 16) (x.st.sget r.d5.toNat))) s

/-! W-B (R89). -/

/-- A W-B instruction as the L-J instruction with the same target (R136). -/
def WIFields.target (r : WIFields) : LFields :=
  let o : BitVec 24 := r.imm.signExtend 24
  { WIFields.toL r with a := o.extractLsb' 0 8, b := o.extractLsb' 8 8, c := o.extractLsb' 16 8 }
/-- With d5 as the guard or the condition. -/
def WIFields.cond (r : WIFields) : LFields := { WIFields.target r with g6 := r.d5.zeroExtend 6 }

def execBraW (r : WIFields) (s : State) : Result :=
  let f := WIFields.cond r
  braExec (.braW r) (rowOf (.bra f)) f 4 s
def execLoopW (r : WIFields) (s : State) : Result :=
  let f := { WIFields.target r with d := sReg8 r.d5 }
  loopExec (.loopW r) (rowOf (.loop f)) f 4 s
def execCallW (r : WIFields) (s : State) : Result :=
  let f := { WIFields.target r with d := 0xBE }
  callExec (.callW r) (rowOf (.call f)) f 4 s
def execWaitcW (r : WIFields) (s : State) : Result :=
  let f := { WIFields.toL r with m3 := 1, d := r.d5.zeroExtend 8, b := r.imm.truncate 8 }
  waitcExec (.waitcW r) (rowOf (.waitc f)) f 4 r.imm.toNat s
/-- A W-B YIELD's fields: E as fetched (R85). -/
def execYieldW (s : State) : Result :=
  let f : LFields := { bareFields s.curIr with s4 := 0 }
  yieldExec .yieldW (rowOf (.yield f)) f 4 s
def execExitW (r : WIFields) (s : State) : Result :=
  let f := { WIFields.toL r with g6 := r.d5.zeroExtend 6 }
  exitExec (.exitW r) (rowOf (.exit f)) f 4 s
def execRcvW (r : WIFields) (s : State) : Result :=
  let f := WIFields.target r
  rcvExec (.rcvW r) (rowOf (.rcv f)) f 4 s
def execDivW (r : WIFields) (s : State) : Result :=
  let f := WIFields.cond r
  divExec (.divW r) (rowOf (.divT f)) f 4 s

end Sys2Proof.Machine
end

