-- ==== Sys2Proof/Machine/RunAhead.lean ====
section
/-! DEFINITION. Run-ahead of a Faulted strand and its rollback (R400, R401). The whole of it takes place in ROLLBACK: the
strand's own state is the checkpoint, and only translations and the batch persist. -/

namespace Sys2Proof.Machine

/-- An instruction of the vector, scalar, predicate and control families as run-ahead sees it: its row, its fields, its length
and its meaning. -/
structure AheadOp where
  sp : OpSpec
  f : LFields
  len : Nat
  run : State → Result

def aheadL (i : Instr) (f : LFields) (run : State → Result) : Option AheadOp :=
  some { sp := rowOf i, f := f, len := 8, run := run }
def aheadS (row : LFields → Instr) (f : LFields) (len : Nat) (run : State → Result) : Option AheadOp :=
  some { sp := rowOf (row f), f := f, len := len, run := run }

/-- The instructions that run-ahead executes as arithmetic; TRAP and BKPT would trap. -/
def aheadOp : Instr → Option AheadOp
  | .iadd f => aheadL (.iadd f) f (execIadd f)
  | .isub f => aheadL (.isub f) f (execIsub f)
  | .imul f => aheadL (.imul f) f (execImul f)
  | .imulh f => aheadL (.imulh f) f (execImulh f)
  | .imad f => aheadL (.imad f) f (execImad f)
  | .iand f => aheadL (.iand f) f (execIand f)
  | .ior f => aheadL (.ior f) f (execIor f)
  | .ixor f => aheadL (.ixor f) f (execIxor f)
  | .ishl f => aheadL (.ishl f) f (execIshl f)
  | .ishr f => aheadL (.ishr f) f (execIshr f)
  | .isra f => aheadL (.isra f) f (execIsra f)
  | .imin f => aheadL (.imin f) f (execImin f)
  | .imax f => aheadL (.imax f) f (execImax f)
  | .iabs f => aheadL (.iabs f) f (execIabs f)
  | .icmp f => aheadL (.icmp f) f (execIcmp f)
  | .isel f => aheadL (.isel f) f (execIsel f)
  | .bfe f => aheadL (.bfe f) f (execBfe f)
  | .bfi f => aheadL (.bfi f) f (execBfi f)
  | .popc f => aheadL (.popc f) f (execPopc f)
  | .clz f => aheadL (.clz f) f (execClz f)
  | .brev f => aheadL (.brev f) f (execBrev f)
  | .bgath f => aheadL (.bgath f) f (execBgath f)
  | .lea f => aheadL (.lea f) f (execLea f)
  | .iaddc f => aheadL (.iaddc f) f (execIaddc f)
  | .mov f => aheadL (.mov f) f (execMov f)
  | .movi f => aheadL (.movi f) f (execMovi f)
  | .movhi f => aheadL (.movhi f) f (execMovhi f)
  | .idot4 f => aheadL (.idot4 f) f (execIdot4 f)
  | .fadd f => aheadL (.fadd f) f (execFadd f)
  | .fsub f => aheadL (.fsub f) f (execFsub f)
  | .fmul f => aheadL (.fmul f) f (execFmul f)
  | .ffma f => aheadL (.ffma f) f (execFfma f)
  | .fmin f => aheadL (.fmin f) f (execFmin f)
  | .fmax f => aheadL (.fmax f) f (execFmax f)
  | .fcmp f => aheadL (.fcmp f) f (execFcmp f)
  | .fclass f => aheadL (.fclass f) f (execFclass f)
  | .frcp f => aheadL (.frcp f) f (execFrcp f)
  | .frsq f => aheadL (.frsq f) f (execFrsq f)
  | .fsqrt f => aheadL (.fsqrt f) f (execFsqrt f)
  | .fexp2 f => aheadL (.fexp2 f) f (execFexp2 f)
  | .flog2 f => aheadL (.flog2 f) f (execFlog2 f)
  | .fsint f => aheadL (.fsint f) f (execFsint f)
  | .fcost f => aheadL (.fcost f) f (execFcost f)
  | .fcvt f => aheadL (.fcvt f) f (execFcvt f)
  | .frnd f => aheadL (.frnd f) f (execFrnd f)
  | .ffrac f => aheadL (.ffrac f) f (execFfrac f)
  | .cadd f => aheadL (.cadd f) f (execCadd f)
  | .csub f => aheadL (.csub f) f (execCsub f)
  | .cmul f => aheadL (.cmul f) f (execCmul f)
  | .cfma f => aheadL (.cfma f) f (execCfma f)
  | .cmag2 f => aheadL (.cmag2 f) f (execCmag2 f)
  | .cscale f => aheadL (.cscale f) f (execCscale f)
  | .cexpi f => aheadL (.cexpi f) f (execCexpi f)
  | .cphase f => aheadL (.cphase f) f (execCphase f)
  | .twid f => aheadL (.twid f) f (execTwid f)
  | .bfly f => aheadL (.bfly f) f (execBfly f)
  | .ccvt f => aheadL (.ccvt f) f (execCcvt f)
  | .bpack f => aheadL (.bpack f) f (execBpack f)
  | .bunpk f => aheadL (.bunpk f) f (execBunpk f)
  | .bexpm f => aheadL (.bexpm f) f (execBexpm f)
  | .phq f => aheadL (.phq f) f (execPhq f)
  | .edge f => aheadL (.edge f) f (execEdge f)
  | .trix f => aheadL (.trix f) f (execTrix f)
  | .shfl f => aheadL (.shfl f) f (execShfl f)
  | .shflx f => aheadL (.shflx f) f (execShflx f)
  | .shfld f => aheadL (.shfld f) f (execShfld f)
  | .shflu f => aheadL (.shflu f) f (execShflu f)
  | .scan f => aheadL (.scan f) f (execScan f)
  | .reds f => aheadL (.reds f) f (execReds f)
  | .vote f => aheadL (.vote f) f (execVote f)
  | .matchT f => aheadL (.matchT f) f (execMatchT f)
  | .lace f => aheadL (.lace f) f (execLace f)
  | .laceld f => aheadL (.laceld f) f (execLaceld f)
  | .bcast f => aheadL (.bcast f) f (execBcast f)
  | .qand f => aheadL (.qand f) f (execQand f)
  | .qor f => aheadL (.qor f) f (execQor f)
  | .qxor f => aheadL (.qxor f) f (execQxor f)
  | .qtos f => aheadL (.qtos f) f (execQtos f)
  | .stoq f => aheadL (.stoq f) f (execStoq f)
  | .sadd f => aheadL (.sadd f) f (execSadd f)
  | .ssub f => aheadL (.ssub f) f (execSsub f)
  | .smul f => aheadL (.smul f) f (execSmul f)
  | .smulh f => aheadL (.smulh f) f (execSmulh f)
  | .sand f => aheadL (.sand f) f (execSand f)
  | .sor f => aheadL (.sor f) f (execSor f)
  | .sxor f => aheadL (.sxor f) f (execSxor f)
  | .sshl f => aheadL (.sshl f) f (execSshl f)
  | .sshr f => aheadL (.sshr f) f (execSshr f)
  | .ssra f => aheadL (.ssra f) f (execSsra f)
  | .smin f => aheadL (.smin f) f (execSmin f)
  | .smax f => aheadL (.smax f) f (execSmax f)
  | .smov f => aheadL (.smov f) f (execSmov f)
  | .smovi f => aheadL (.smovi f) f (execSmovi f)
  | .scmp f => aheadL (.scmp f) f (execScmp f)
  | .ssel f => aheadL (.ssel f) f (execSsel f)
  | .sbfe f => aheadL (.sbfe f) f (execSbfe f)
  | .spopc f => aheadL (.spopc f) f (execSpopc f)
  | .sclz f => aheadL (.sclz f) f (execSclz f)
  | .sldk f => aheadL (.sldk f) f (execSldk f)
  | .setfmt f => aheadL (.setfmt f) f (execSetfmt f)
  | .getfmt f => aheadL (.getfmt f) f (execGetfmt f)
  | .xwin f => aheadL (.xwin f) f (execXwin f)
  | .xset f => aheadL (.xset f) f (execXset f)
  | .sfadd f => aheadL (.sfadd f) f (execSfadd f)
  | .sfmul f => aheadL (.sfmul f) f (execSfmul f)
  | .sffma f => aheadL (.sffma f) f (execSffma f)
  | .sfcvt f => aheadL (.sfcvt f) f (execSfcvt f)
  | .bra f => aheadL (.bra f) f (execBra f)
  | .brx f => aheadL (.brx f) f (execBrx f)
  | .divT f => aheadL (.divT f) f (execDivT f)
  | .rcv f => aheadL (.rcv f) f (execRcv f)
  | .call f => aheadL (.call f) f (execCall f)
  | .ret f => aheadL (.ret f) f (execRet f)
  | .exit f => aheadL (.exit f) f (execExit f)
  | .nop f => aheadL (.nop f) f (execNop f)
  | .yield f => aheadL (.yield f) f (execYield f)
  | .loop f => aheadL (.loop f) f (execLoop f)
  | .movH h => aheadS .mov (HFields.toMov h) 2 (execMovH h)
  | .iaddH h => aheadS (.iadd) (HFields.toM h 0) 2 (execIaddH h)
  | .isubH h => aheadS (.isub) (HFields.toM h 0) 2 (execIsubH h)
  | .iandH h => aheadS (.iand) (HFields.toM h 6) 2 (execIandH h)
  | .iorH h => aheadS (.ior) (HFields.toM h 6) 2 (execIorH h)
  | .ixorH h => aheadS (.ixor) (HFields.toM h 6) 2 (execIxorH h)
  | .ishlH h => aheadS (.ishl) (HFields.toM h 6) 2 (execIshlH h)
  | .ishrH h => aheadS (.ishr) (HFields.toM h 6) 2 (execIshrH h)
  | .faddH h => aheadS (.fadd) (HFields.toM h 0) 2 (execFaddH h)
  | .fsubH h => aheadS (.fsub) (HFields.toM h 0) 2 (execFsubH h)
  | .fmulH h => aheadS (.fmul) (HFields.toM h 0) 2 (execFmulH h)
  | .fmaxH h => aheadS (.fmax) (HFields.toM h 0) 2 (execFmaxH h)
  | .fminH h => aheadS (.fmin) (HFields.toM h 0) 2 (execFminH h)
  | .caddH h => aheadS (.cadd) (HFields.toM h 0) 2 (execCaddH h)
  | .cmulH h => aheadS (.cmul) (HFields.toM h 0) 2 (execCmulH h)
  | .imulH h => aheadS (.imul) (HFields.toM h 0) 2 (execImulH h)
  | .movW r => aheadS .mov (WRFields.toM r 6) 4 (execMovW r)
  | .iaddW r => aheadS .iadd (WRFields.toM r 0) 4 (execIaddW r)
  | .isubW r => aheadS .isub (WRFields.toM r 0) 4 (execIsubW r)
  | .imulW r => aheadS .imul (WRFields.toM r 0) 4 (execImulW r)
  | .iandW r => aheadS .iand (WRFields.toM r 6) 4 (execIandW r)
  | .iorW r => aheadS .ior (WRFields.toM r 6) 4 (execIorW r)
  | .ixorW r => aheadS .ixor (WRFields.toM r 6) 4 (execIxorW r)
  | .ishlW r => aheadS .ishl (WRFields.toM r 6) 4 (execIshlW r)
  | .ishrW r => aheadS .ishr (WRFields.toM r 6) 4 (execIshrW r)
  | .iminW r => aheadS .imin (WRFields.toM r 0) 4 (execIminW r)
  | .imaxW r => aheadS .imax (WRFields.toM r 0) 4 (execImaxW r)
  | .icmpW r => aheadS .icmp (WRFields.toM r 0) 4 (execIcmpW r)
  | .faddW r => aheadS .fadd (WRFields.toM r 0) 4 (execFaddW r)
  | .fsubW r => aheadS .fsub (WRFields.toM r 0) 4 (execFsubW r)
  | .fmulW r => aheadS .fmul (WRFields.toM r 0) 4 (execFmulW r)
  | .ffmaW r => aheadS .ffma { WRFields.toL r with c := r.d.zeroExtend 8 } 4 (execFfmaW r)
  | .fminW r => aheadS .fmin (WRFields.toM r 0) 4 (execFminW r)
  | .fmaxW r => aheadS .fmax (WRFields.toM r 0) 4 (execFmaxW r)
  | .fcmpW r => aheadS .fcmp (WRFields.toM r 0) 4 (execFcmpW r)
  | .caddW r => aheadS .cadd (WRFields.toM r 0) 4 (execCaddW r)
  | .csubW r => aheadS .csub (WRFields.toM r 0) 4 (execCsubW r)
  | .cmulW r => aheadS .cmul (WRFields.toM r 0) 4 (execCmulW r)
  | .cfmaW r => aheadS .cfma { WRFields.toL r with c := r.d.zeroExtend 8 } 4 (execCfmaW r)
  | .bflyW r => aheadS .bfly (WRFields.toM r 0) 4 (execBflyW r)
  | .twidW r => aheadS .twid (WRFields.toM r 0) 4 (execTwidW r)
  | .shflW r => aheadS .shfl (WRFields.toM r 6) 4 (execShflW r)
  | .shflxW r => aheadS .shflx (WRFields.toM r 6) 4 (execShflxW r)
  | .saddW r => aheadS .sadd (WRFields.scal r 0 true) 4 (execSaddW r)
  | .ssubW r => aheadS .ssub (WRFields.scal r 0 true) 4 (execSsubW r)
  | .smovW r => aheadS .smov (WRFields.scal r 0 false) 4 (execSmovW r)
  | .scmpW r => aheadS .scmp (WRFields.scal r 0 true) 4 (execScmpW r)
  | .sandW r => aheadS .sand (WRFields.scal r 6 true) 4 (execSandW r)
  | .sorW r => aheadS .sor (WRFields.scal r 6 true) 4 (execSorW r)
  | .sshlW r => aheadS .sshl (WRFields.scal r 6 true) 4 (execSshlW r)
  | .sshrW r => aheadS .sshr (WRFields.scal r 6 true) 4 (execSshrW r)
  | .moviW r => aheadS .movi (WIFields.vec r) 4 (execMoviW r)
  | .movhiW r => aheadS .movhi (WIFields.vec r) 4 (execMovhiW r)
  | .smoviW r => aheadS .smovi (WIFields.scal r 0) 4 (execSmoviW r)
  | .smovhi r => aheadS .smovi (WIFields.scal r 2) 4 (execSmovhi r)
  | .braW r => aheadS .bra (WIFields.cond r) 4 (execBraW r)
  | .loopW r => aheadS .loop { WIFields.target r with d := sReg8 r.d5 } 4 (execLoopW r)
  | .callW r => aheadS .call { WIFields.target r with d := 0xBE } 4 (execCallW r)
  | .exitW r => aheadS .exit { WIFields.toL r with g6 := r.d5.zeroExtend 6 } 4 (execExitW r)
  | .rcvW r => aheadS .rcv (WIFields.target r) 4 (execRcvW r)
  | .divW r => aheadS .divT (WIFields.cond r) 4 (execDivW r)
  | .iaddi r => some { sp := specInt1 1 (WIFields.vec r), f := WIFields.vec r, len := 4, run := execIaddi r }
  | .saddi r => some { sp := specS1 1 (WIFields.scal r 0), f := WIFields.scal r 0, len := 4, run := execSaddi r }
  | .yieldW => aheadS .yield (bareFields 0) 4 execYieldW
  | _ => none

/-- How a memory instruction of run-ahead forms its addresses (R193, R200 to R207). -/
inductive AheadAcc where
  /-- A translated access: bytes, kinds needed, window use, and whether the index field is part of the address. -/
  | glob (n need : Nat) (k : AKind) (index : Bool)
  /-- LDS: bytes of the scratchpad. -/
  | scr (n : Nat)
  | rect
  | pref
  deriving DecidableEq, Repr

structure AheadMem where
  sp : OpSpec
  f : LFields
  len : Nat
  acc : AheadAcc

/-- The lowest thread alone makes the access: uniform execution, and SUMRD of a scalar (R58, R206). -/
def AheadMem.lone (x : AheadMem) : Bool := x.f.u == 1 || (x.acc == .glob 64 kRead .exact false && decide (0x80 ≤ x.f.d.toNat))

/-- LD, ST, ATOM, LDS, LDT, PREF, SUMX, SUMRD and SUMCLR. -/
def aheadMem : Instr → Option AheadMem
  | .ld f => some { sp := rowOf (.ld f), f := f, len := 8, acc := .glob (sizeOf3 f.m3.toNat) kRead .read true }
  | .ldW r => some { sp := rowOf (.ld (WRFields.mem r)), f := WRFields.mem r, len := 4, acc := .glob 4 kRead .read true }
  | .st f => some { sp := rowOf (.st f), f := f, len := 8, acc := .glob (sizeOf3 f.m3.toNat) kWrite .write true }
  | .stW r => some { sp := rowOf (.st (WRFields.mem r)), f := WRFields.mem r, len := 4, acc := .glob 4 kWrite .write true }
  | .atom f => some { sp := rowOf (.atom f), f := f, len := 8, acc := .glob (atomSize f.m3.toNat) 3 .write false }
  | .sumx f => some { sp := rowOf (.sumx f), f := f, len := 8, acc := .glob 64 3 .exact false }
  | .sumclr f => some { sp := rowOf (.sumclr f), f := f, len := 8, acc := .glob 64 3 .exact false }
  | .sumrd f => some { sp := rowOf (.sumrd f), f := f, len := 8, acc := .glob 64 kRead .exact false }
  | .lds f => some { sp := rowOf (.lds f), f := f, len := 8, acc := .scr (sizeOf3 f.m3.toNat) }
  | .ldsW r => some { sp := rowOf (.lds (WRFields.mem r)), f := WRFields.mem r, len := 4, acc := .scr 4 }
  | .ldt f => some { sp := rowOf (.ldt f), f := f, len := 8, acc := .rect }
  | .pref f => some { sp := rowOf (.pref f), f := f, len := 8, acc := .pref }
  | _ => none

/-! Poison. -/

/-- The poisoned threads of each register; a poisoned scalar has every bit, fmt is register 256, and lace table n is register
257 + n. -/
abbrev Poison := Tab Mask

def regFmt : Nat := 256
def regLace (n : Nat) : Nat := 257 + n
def poisonOf (p : Poison) (r : Nat) : Mask := (tget p r).getD 0
/-- Sets or clears a register's poison for the threads of a mask. -/
def poisonSet (p : Poison) (r : Nat) (m : Mask) (bad : Bool) : Poison :=
  let m := if (128 ≤ r ∧ r < 192) ∨ regFmt ≤ r then 0xFFFF else m
  let v := if bad then poisonOf p r ||| m else poisonOf p r &&& ~~~m
  if v = 0 then tdel p r else tput p r v

/-- A field's registers are poisoned in a thread of the mask. -/
def Strand.fieldBad (st : Strand) (p : Poison) (f : LFields) (r : Fld) (x e : Nat) (m : Mask) : Bool :=
  (indexReg r x ++ st.fieldRegs f r x m e).any fun reg => (poisonOf p reg &&& m) != 0

/-- A source of the instruction is poisoned for an element and the threads of a mask. -/
def Strand.srcBad (st : Strand) (p : Poison) (sp : OpSpec) (f : LFields) (e : Nat) (m : Mask) : Bool :=
  ((fields sp f).any fun q => q.2.1.rd && st.fieldBad p f q.2.1 q.2.2 e m) ||
    (decide (1 ≤ sp.bexp) && poisonOf p (regS (fmtAEXP st.fmt)) != 0) ||
    (decide (2 ≤ sp.bexp) && poisonOf p (regS (fmtBEXP st.fmt)) != 0) || poisonOf p regFmt != 0

/-- Marks the destinations of an element for the threads of a mask. -/
def Strand.markDests (st : Strand) (p : Poison) (sp : OpSpec) (f : LFields) (e : Nat) (m : Mask) (bad : Bool) : Poison :=
  (fields sp f).foldl (fun p q =>
    if !q.2.1.wr then p
    else (st.fieldRegs f q.2.1 q.2.2 m e).foldl (fun p r => poisonSet p r m bad) p) p

/-- The poison after an arithmetic instruction: per thread where it reads per thread, else as a whole. -/
def Strand.flow (st : Strand) (p : Poison) (sp : OpSpec) (f : LFields) (adm : Mask) : Poison :=
  match readMode sp f with
  | .perThread =>
    (List.range (elems sp f)).foldl (fun p e => (threads adm).foldl (fun p t =>
      let m : Mask := 1#16 <<< t
      st.markDests p sp f e m (st.srcBad p sp f e m)) p) p
  | mode =>
    let m : Mask := if mode = .cross then 0xFFFF else adm
    let bad := (List.range (elems sp f)).any fun e => st.srcBad p sp f e m
    (List.range (elems sp f)).foldl (fun p e => st.markDests p sp f e adm bad) p

/-- The guard, or an indirect destination's index, is poisoned. -/
def Strand.guardBad (st : Strand) (p : Poison) (f : LFields) : Bool := st.fieldBad p f fguard f.g6.toNat 0 st.mask
def Strand.destBad (st : Strand) (p : Poison) (sp : OpSpec) (f : LFields) : Bool :=
  isInd sp.d f.d.toNat && sp.d.wr && (poisonOf p (regX (f.d.toNat - 0xC0)) &&& st.mask) != 0

/-- A transfer of control: it ends run-ahead where it reads a poisoned value (R400). -/
def isBranch : Instr → Bool
  | .bra _ | .brx _ | .divT _ | .rcv _ | .call _ | .ret _ | .loop _ | .exit _ => true
  | .braW _ | .loopW _ | .callW _ | .exitW _ | .rcvW _ | .divW _ => true
  | _ => false

/-! One instruction of run-ahead. -/

/-- Run-ahead in progress: the machine with the translations made, the strand ahead of its checkpoint, the lace tables as it sees
them, the poison, the batch's entries, and whether it stands at an instruction that an operation in flight holds (R106). -/
structure RunSt where
  s : State
  st : Strand
  lace : Cells 8
  p : Poison
  es : List BatchEntry
  held : Bool

/-- The address fields are not poisoned for a thread. -/
def Strand.addrOk (st : Strand) (p : Poison) (sp : OpSpec) (f : LFields) (index : Bool) (t : Nat) : Bool :=
  let m : Mask := 1#16 <<< t
  !st.fieldBad p f sp.a f.a.toNat 0 m && (!index || !st.fieldBad p f sp.b f.b.toNat 0 m)

/-- The address checks of one thread: an updated run, or none where the instruction would trap for another cause. -/
def RunSt.access (q : RunSt) (x : AheadMem) (t : Nat) : Option RunSt :=
  let st := q.st
  let f := x.f
  match x.acc with
  | .glob n need k index =>
    if !st.addrOk q.p x.sp f index t then some q
    else match st.destOf x.sp.d f.d.toNat t with
      | .error _ => none
      | .ok _ =>
        let ix := if index then st.memIndex f t else 0
        let va := if x.acc == .glob n 3 .write false then st.memBase f t else st.memAddr f n ix t
        match q.s.formAcc st k need n n va t with
        | (s, .ok _) => some { q with s := s }
        | (s, .error .park) => some { q with s := s }
        | (s, .error .wait) => some { q with s := s }
        | (s, .error (.fault c lvl a)) => some { q with s := s, es := addEntry q.es (faultEntry a c lvl need) }
        | (_, .error (.trap _ _)) => none
  | .scr n =>
    if !st.addrOk q.p x.sp f true t then some q
    else if (List.range (elems x.sp f)).all fun e => match q.s.scrOffset st f n (st.memIndex f t) e t with
      | .ok _ => true
      | .error _ => false
    then some q else none
  | .rect =>
    if st.fieldBad q.p f x.sp.a f.a.toNat 0 0xFFFF || st.fieldBad q.p f x.sp.b f.b.toNat 0 0xFFFF then some q
    else
      let a := (st.sval f.a.toNat).toNat
      let w := (st.sval f.b.toNat).toNat
      if 65532 < w ∨ a + 15 * w + 4 * blockLen f > q.s.scrSize st ∨ a % 4 ≠ 0 ∨ w % 4 ≠ 0 then none else some q
  | .pref => some q

def RunSt.accesses (x : AheadMem) : List Nat → RunSt → RunSt × Bool
  | [], q => (q, true)
  | t :: r, q => match q.access x t with
    | some q2 => if 32 ≤ q2.es.length then (q2, false) else RunSt.accesses x r q2
    | none => (q, false)

/-- The strand goes to the next instruction; a merge that would trap ends run-ahead. -/
def RunSt.move (q : RunSt) (len : Nat) : RunSt × Bool :=
  let st := q.s.settle { q.st.advance len none with resume := none }
  ({ q with st := { st with run := .running } }, decide (st.pend.length = q.st.pend.length) && st.run != .draining)

/-- The strand ahead stands in the machine as the current one. -/
def RunSt.box (q : RunSt) (id : Nat) (ir : DWord) : State :=
  { (q.s.putStrand id { q.st with ir := ir }).modCore q.st.d q.st.k fun c => { c with lace := q.lace } with cur := some id }

/-- Run-ahead ends at an instruction that did not run, or waits there for an operation in flight. -/
def RunSt.stop (q : RunSt) (id : Nat) (r : Result) : RunSt × Bool :=
  ({ q with held := match r with
      | .next t => (t.strand id).any (·.stalled)
      | _ => false }, false)

/-- The threads that make an access. -/
def AheadMem.threads (x : AheadMem) (adm : Mask) : List Nat :=
  if adm = 0 then [] else if x.lone then [mLow adm] else Sys2Proof.Machine.threads adm

/-- A memory instruction; of the faulting one, `first` has its fault already, and the threads after it remain. -/
def RunSt.memory (q : RunSt) (id : Nat) (i : Instr) (ir : DWord) (x : AheadMem) (first : Bool) : RunSt × Bool :=
  if q.st.guardBad q.p x.f || q.st.destBad q.p x.sp x.f then (q, false)
  else match issue i x.sp x.f noPre (q.box id ir) with
    | .out r => q.stop id r
    | .go g =>
      let ts := x.threads g.adm
      match RunSt.accesses x (if first then ts.drop 1 else ts) q with
      | (q, false) => (q, false)
      | (q, true) =>
        let p := (List.range (elems x.sp x.f)).foldl (fun p e => q.st.markDests p x.sp x.f e g.adm true) q.p
        { q with p := p }.move x.len

/-- What an instruction makes of the poison. LACELD and LACE carry it through their table. -/
def RunSt.poison (q : RunSt) (i : Instr) (x : AheadOp) (adm : Mask) (src : Bool) : Poison :=
  match i with
  | .setfmt _ => poisonSet (q.st.flow q.p x.sp x.f adm) regFmt 0 src
  | .laceld f => if adm = 0 then q.p else poisonSet q.p (regLace f.d.toNat) 0 src
  | .lace f =>
    if poisonOf q.p (regLace f.c.toNat) = 0 then q.st.flow q.p x.sp x.f adm
    else (List.range (elems x.sp x.f)).foldl (fun p e => q.st.markDests p x.sp x.f e adm true) q.p
  | _ => q.st.flow q.p x.sp x.f adm

/-- An arithmetic or control instruction runs normally; one that would trap or wait ends run-ahead. -/
def RunSt.arith (q : RunSt) (id : Nat) (i : Instr) (ir : DWord) (x : AheadOp) : RunSt × Bool :=
  let st := q.st
  let adm := if x.sp.cond then st.mask else st.admitted x.f
  let src := (List.range (elems x.sp x.f)).any fun e => st.srcBad q.p x.sp x.f e adm
  if st.guardBad q.p x.f || st.destBad q.p x.sp x.f || (isBranch i && src) then (q, false)
  else match x.run (q.box id ir) with
    | .next s2 => match s2.strand id with
      | none => (q, false)
      | some st2 =>
        let trapped := st2.frame != st.frame || (s2.ctx st.ctx).state != (q.s.ctx st.ctx).state ||
          decide (st2.pend.length ≠ st.pend.length) || (st2.run != .running && st2.run != .ready)
        if st2.stalled then q.stop id (.next s2)
        else if trapped then (q, false)
        else
          ({ q with st := { st2 with run := .running }, lace := (s2.core st.d st.k).lace, p := q.poison i x adm src }, true)
    | _ => (q, false)

/-- At most n instructions from the strand's pc. -/
def RunSt.ahead (id : Nat) : Nat → RunSt → RunSt
  | 0, q => q
  | n + 1, q =>
    match q.s.fetch q.st with
    | (s, .fault es) => { q with s := s, es := es.foldl addEntry q.es }
    | (s, .ok i ir _) =>
      let q := { q with s := s }
      let r := match aheadMem i with
        | some x => q.memory id i ir x false
        | none => match aheadOp i with
          | some x => q.arith id i ir x
          | none => (q, false)
      if r.2 && decide (r.1.es.length < 32) then RunSt.ahead id n r.1 else r.1
    | (s, _) => { q with s := s }

/-- The rest of the faulting instruction, then run-ahead proper (R400). -/
def RunSt.start (q : RunSt) (id : Nat) (a : AheadFrom) : RunSt :=
  match a with
  | .fetch => q
  | .thread =>
    match q.s.fetch q.st with
    | (s, .ok i ir _) => match aheadMem i with
      | some x =>
        let r := { q with s := s }.memory id i ir x true
        let left := if (x.threads (q.st.nowAdm x.sp x.f)).length ≤ 1 then 256 else 255
        if r.2 && decide (r.1.es.length < 32) then RunSt.ahead id left r.1 else r.1
      | none => q
    | _ => q
  | .instr =>
    match q.s.fetch q.st with
    | (s, .ok i _ len) =>
      let p := match i with
        | .launch f | .seedld f | .darn f | .balloonGive f =>
          q.st.markDests q.p (rowOf i) f 0 (q.st.admitted f) true
        | _ => q.p
      let r := { q with s := s, p := p }.move len
      if r.2 then RunSt.ahead id 256 r.1 else r.1
    | _ => q

/-- ROLLBACK (R400): run-ahead, then the strand stands at its checkpoint and its batch is formed; while run-ahead is held at an
instruction, nothing happens yet. -/
def execRollback (strand : Nat) (s : State) : Result :=
  match s.strand strand with
  | none => .next s
  | some st =>
    match st.ahead with
    | none => .next s
    | some a =>
      if !st.resident then .next s
      else
        let q0 : RunSt :=
          { s := s, st := { st with run := .running, ahead := none }, lace := (s.core st.d st.k).lace, p := [], es := a.entries,
            held := false }
        let q := if 32 ≤ a.entries.length then q0 else q0.start strand a.start
        if q.held then .next s else
        let s := q.s.putStrand strand { st with ahead := none }
        .next (s.openBatch st.ctx
          { seq := 0, src := 0, die := st.d, core := st.k, pc := st.pc, kid := st.kid, iid := st.iid, sid := st.sid,
            strand := some strand, op := 0, entries := q.es.take 32 })

end Sys2Proof.Machine
end

