-- ==== Sys2Proof/Machine/Sched.lean ====
section
/-! DEFINITION. Lane arbitration (R314 to R316) and the answers to held requests (R260). -/

namespace Sys2Proof.Machine

/-- A strand that its lane may choose: Ready, in an Active context, and not marked to be saved (R259, R314). -/
def State.canRun (s : State) (st : Strand) : Bool :=
  st.run == .ready && st.resident && !st.stop && (s.ctx st.ctx).state == 2

/-- SPRI of a strand's kernel (R279). -/
def State.spri (s : State) (st : Strand) : Nat := match s.kernelOf st with
  | some k => attrSpri k.record
  | none => 0

/-- The keys of R314 as one number: the smaller wins. -/
def State.arbKey (s : State) (st : Strand) : Nat :=
  let overdue := if 56 ≤ st.waitCount then 0 else 1
  let demoted := if st.spin.demoted then 1 else 0
  let prio := nbits (s.ctx st.ctx).cfg.toNat 0 2
  let place := match st.loc with
    | some l => l.place
    | none => 0
  let wait := 2 ^ 32 - min st.waitCount (2 ^ 32)
  ((((overdue * 2 + demoted) * 4 + prio) * 4 + s.spri st) * 2 ^ 40 + wait) * 8 + place

/-- The strand of smallest key. -/
def State.arbBest (s : State) : List (Nat × Strand) → Option (Nat × Strand)
  | [] => none
  | e :: r => match s.arbBest r with
    | none => some e
    | some b => if s.arbKey b.2 < s.arbKey e.2 then some b else some e

/-- A lane starts a run (R314): every other Ready strand of the lane counts it. -/
def State.startRun (s : State) (d c l : Nat) : State :=
  let lane := (tget (s.core d c).lanes l).getD Lane.idle
  let ready := (s.onLane d c l).filter fun (e : Nat × Strand) => s.canRun e.2
  match lane.running, s.arbBest ready with
  | none, some (id, _) =>
    let step (e : Nat × Strand) : Nat × Strand :=
      if e.1 = id then (e.1, { e.2 with run := .running, waitCount := 0, runCount := 0 })
      else if e.2.run == .ready && ready.any (fun r => r.1 == e.1) then (e.1, { e.2 with waitCount := e.2.waitCount + 1 })
      else e
    let s := s.modCore d c fun x => { x with lanes := tput x.lanes l { lane with running := some id } }
    { s with strands := s.strands.map step }
  | _, _ => s

/-- RUN_START (R314). -/
def execRunStart (die core lane : Nat) (s : State) : Result :=
  .next (if 3 ≤ die ∨ 16 ≤ core ∨ 192 ≤ lane then s else s.startRun die core lane)

/-- The instruction whose request a strand has made. -/
def Request.exec : Request → State → Result
  | .launch f => execLaunch f
  | .join f => execJoin f
  | .leave f => execLeave f
  | .emit f => execEmit f
  | .take f => execTake f
  | .qclose f => execQclose f
  | .redx f => execRedx f
  | .dispq f => execDispq f
  | .dispqQuery f => execDispqQuery f
  | .balloonGive f => execBalloonGive f
  | .balloonQuery f => execBalloonQuery f
  | .memfsp f => execMemfsp f
  | .dieset f => execDieset f
  | .seedld f => execSeedld f
  | .darn f => execDarn f
  | .mclr f => execMclr f
  | .ringpAfter f => execRingpAfter f
  | .bar f => execBar f
  | .bara f => execBara f
  | .shrink f => execShrink f

/-- A strand that may issue: Running, resident, in an Active context, not marked to be saved, and held at no parked walk. -/
def State.mayIssue (s : State) (st : Strand) : Bool :=
  st.run == .running && st.resident && !st.stop && !st.walkParked && (s.ctx st.ctx).state == 2

/-- The strand named is the one whose instruction the next act belongs to; `cur` is put back afterwards. -/
def State.asStrand (s : State) (id : Nat) (g : State → Result) : Result :=
  match g { s with cur := some id } with
  | .next t => .next { t with cur := s.cur }
  | .fault f => .fault f
  | .refused r => .refused r

/-- REQUEST_ANSWER (R260): the unit that serves a held request answers it, if it now can. -/
def execRequestAnswer (strand : Nat) (s : State) : Result :=
  match s.strand strand with
  | some st => match st.hold with
    | some r => if s.mayIssue st then s.asStrand strand r.exec else .next s
    | none => .next s
  | none => .next s

end Sys2Proof.Machine
end

