-- ==== Sys2Proof/Machine/Dispatch.lean ====
section
/-! DEFINITION. The meaning of every step of the part: one arm per constructor of Instr, in the order of the table of
operations and events. -/

namespace Sys2Proof.Machine

/-- The outcome of one instruction or event in a state. -/
def exec (i : Instr) (s : State) : Host.Outcome State Fault Refusal :=
  match i with
  | .iadd f => Sys2Proof.Machine.execIadd f s
  | .isub f => Sys2Proof.Machine.execIsub f s
  | .imul f => Sys2Proof.Machine.execImul f s
  | .imulh f => Sys2Proof.Machine.execImulh f s
  | .imad f => Sys2Proof.Machine.execImad f s
  | .iand f => Sys2Proof.Machine.execIand f s
  | .ior f => Sys2Proof.Machine.execIor f s
  | .ixor f => Sys2Proof.Machine.execIxor f s
  | .ishl f => Sys2Proof.Machine.execIshl f s
  | .ishr f => Sys2Proof.Machine.execIshr f s
  | .isra f => Sys2Proof.Machine.execIsra f s
  | .imin f => Sys2Proof.Machine.execImin f s
  | .imax f => Sys2Proof.Machine.execImax f s
  | .iabs f => Sys2Proof.Machine.execIabs f s
  | .icmp f => Sys2Proof.Machine.execIcmp f s
  | .isel f => Sys2Proof.Machine.execIsel f s
  | .bfe f => Sys2Proof.Machine.execBfe f s
  | .bfi f => Sys2Proof.Machine.execBfi f s
  | .popc f => Sys2Proof.Machine.execPopc f s
  | .clz f => Sys2Proof.Machine.execClz f s
  | .brev f => Sys2Proof.Machine.execBrev f s
  | .bgath f => Sys2Proof.Machine.execBgath f s
  | .lea f => Sys2Proof.Machine.execLea f s
  | .iaddc f => Sys2Proof.Machine.execIaddc f s
  | .mov f => Sys2Proof.Machine.execMov f s
  | .movi f => Sys2Proof.Machine.execMovi f s
  | .movhi f => Sys2Proof.Machine.execMovhi f s
  | .idot4 f => Sys2Proof.Machine.execIdot4 f s
  | .fadd f => Sys2Proof.Machine.execFadd f s
  | .fsub f => Sys2Proof.Machine.execFsub f s
  | .fmul f => Sys2Proof.Machine.execFmul f s
  | .ffma f => Sys2Proof.Machine.execFfma f s
  | .fmin f => Sys2Proof.Machine.execFmin f s
  | .fmax f => Sys2Proof.Machine.execFmax f s
  | .fcmp f => Sys2Proof.Machine.execFcmp f s
  | .fclass f => Sys2Proof.Machine.execFclass f s
  | .frcp f => Sys2Proof.Machine.execFrcp f s
  | .frsq f => Sys2Proof.Machine.execFrsq f s
  | .fsqrt f => Sys2Proof.Machine.execFsqrt f s
  | .fexp2 f => Sys2Proof.Machine.execFexp2 f s
  | .flog2 f => Sys2Proof.Machine.execFlog2 f s
  | .fsint f => Sys2Proof.Machine.execFsint f s
  | .fcost f => Sys2Proof.Machine.execFcost f s
  | .fcvt f => Sys2Proof.Machine.execFcvt f s
  | .frnd f => Sys2Proof.Machine.execFrnd f s
  | .ffrac f => Sys2Proof.Machine.execFfrac f s
  | .cadd f => Sys2Proof.Machine.execCadd f s
  | .csub f => Sys2Proof.Machine.execCsub f s
  | .cmul f => Sys2Proof.Machine.execCmul f s
  | .cfma f => Sys2Proof.Machine.execCfma f s
  | .cmag2 f => Sys2Proof.Machine.execCmag2 f s
  | .cscale f => Sys2Proof.Machine.execCscale f s
  | .cexpi f => Sys2Proof.Machine.execCexpi f s
  | .cphase f => Sys2Proof.Machine.execCphase f s
  | .twid f => Sys2Proof.Machine.execTwid f s
  | .bfly f => Sys2Proof.Machine.execBfly f s
  | .ccvt f => Sys2Proof.Machine.execCcvt f s
  | .bpack f => Sys2Proof.Machine.execBpack f s
  | .bunpk f => Sys2Proof.Machine.execBunpk f s
  | .bexpm f => Sys2Proof.Machine.execBexpm f s
  | .phq f => Sys2Proof.Machine.execPhq f s
  | .edge f => Sys2Proof.Machine.execEdge f s
  | .trix f => Sys2Proof.Machine.execTrix f s
  | .shfl f => Sys2Proof.Machine.execShfl f s
  | .shflx f => Sys2Proof.Machine.execShflx f s
  | .shfld f => Sys2Proof.Machine.execShfld f s
  | .shflu f => Sys2Proof.Machine.execShflu f s
  | .scan f => Sys2Proof.Machine.execScan f s
  | .reds f => Sys2Proof.Machine.execReds f s
  | .vote f => Sys2Proof.Machine.execVote f s
  | .matchT f => Sys2Proof.Machine.execMatchT f s
  | .lace f => Sys2Proof.Machine.execLace f s
  | .laceld f => Sys2Proof.Machine.execLaceld f s
  | .bcast f => Sys2Proof.Machine.execBcast f s
  | .qand f => Sys2Proof.Machine.execQand f s
  | .qor f => Sys2Proof.Machine.execQor f s
  | .qxor f => Sys2Proof.Machine.execQxor f s
  | .qtos f => Sys2Proof.Machine.execQtos f s
  | .stoq f => Sys2Proof.Machine.execStoq f s
  | .sadd f => Sys2Proof.Machine.execSadd f s
  | .ssub f => Sys2Proof.Machine.execSsub f s
  | .smul f => Sys2Proof.Machine.execSmul f s
  | .smulh f => Sys2Proof.Machine.execSmulh f s
  | .sand f => Sys2Proof.Machine.execSand f s
  | .sor f => Sys2Proof.Machine.execSor f s
  | .sxor f => Sys2Proof.Machine.execSxor f s
  | .sshl f => Sys2Proof.Machine.execSshl f s
  | .sshr f => Sys2Proof.Machine.execSshr f s
  | .ssra f => Sys2Proof.Machine.execSsra f s
  | .smin f => Sys2Proof.Machine.execSmin f s
  | .smax f => Sys2Proof.Machine.execSmax f s
  | .smov f => Sys2Proof.Machine.execSmov f s
  | .smovi f => Sys2Proof.Machine.execSmovi f s
  | .scmp f => Sys2Proof.Machine.execScmp f s
  | .ssel f => Sys2Proof.Machine.execSsel f s
  | .sbfe f => Sys2Proof.Machine.execSbfe f s
  | .spopc f => Sys2Proof.Machine.execSpopc f s
  | .sclz f => Sys2Proof.Machine.execSclz f s
  | .sldk f => Sys2Proof.Machine.execSldk f s
  | .setfmt f => Sys2Proof.Machine.execSetfmt f s
  | .getfmt f => Sys2Proof.Machine.execGetfmt f s
  | .xwin f => Sys2Proof.Machine.execXwin f s
  | .xset f => Sys2Proof.Machine.execXset f s
  | .sfadd f => Sys2Proof.Machine.execSfadd f s
  | .sfmul f => Sys2Proof.Machine.execSfmul f s
  | .sffma f => Sys2Proof.Machine.execSffma f s
  | .sfcvt f => Sys2Proof.Machine.execSfcvt f s
  | .bra f => Sys2Proof.Machine.execBra f s
  | .brx f => Sys2Proof.Machine.execBrx f s
  | .divT f => Sys2Proof.Machine.execDivT f s
  | .rcv f => Sys2Proof.Machine.execRcv f s
  | .call f => Sys2Proof.Machine.execCall f s
  | .ret f => Sys2Proof.Machine.execRet f s
  | .exit f => Sys2Proof.Machine.execExit f s
  | .nop f => Sys2Proof.Machine.execNop f s
  | .yield f => Sys2Proof.Machine.execYield f s
  | .loop f => Sys2Proof.Machine.execLoop f s
  | .trap f => Sys2Proof.Machine.execTrap f s
  | .bkpt f => Sys2Proof.Machine.execBkpt f s
  | .ld f => Sys2Proof.Machine.execLd f s
  | .st f => Sys2Proof.Machine.execSt f s
  | .lds f => Sys2Proof.Machine.execLds f s
  | .sts f => Sys2Proof.Machine.execSts f s
  | .ldt f => Sys2Proof.Machine.execLdt f s
  | .stt f => Sys2Proof.Machine.execStt f s
  | .atom f => Sys2Proof.Machine.execAtom f s
  | .atoms f => Sys2Proof.Machine.execAtoms f s
  | .sumx f => Sys2Proof.Machine.execSumx f s
  | .sumrd f => Sys2Proof.Machine.execSumrd f s
  | .sumclr f => Sys2Proof.Machine.execSumclr f s
  | .pref f => Sys2Proof.Machine.execPref f s
  | .waitc f => Sys2Proof.Machine.execWaitc f s
  | .fence f => Sys2Proof.Machine.execFence f s
  | .shut f => Sys2Proof.Machine.execShut f s
  | .shutx f => Sys2Proof.Machine.execShutx f s
  | .dtld f => Sys2Proof.Machine.execDtld f s
  | .decode f => Sys2Proof.Machine.execDecode f s
  | .fetchf f => Sys2Proof.Machine.execFetchf f s
  | .darn f => Sys2Proof.Machine.execDarn f s
  | .dispq f => Sys2Proof.Machine.execDispq f s
  | .dispqQuery f => Sys2Proof.Machine.execDispqQuery f s
  | .mclr f => Sys2Proof.Machine.execMclr f s
  | .mloop f => Sys2Proof.Machine.execMloop f s
  | .mrd f => Sys2Proof.Machine.execMrd f s
  | .mbld f => Sys2Proof.Machine.execMbld f s
  | .mtwid f => Sys2Proof.Machine.execMtwid f s
  | .seedld f => Sys2Proof.Machine.execSeedld f s
  | .seedscan f => Sys2Proof.Machine.execSeedscan f s
  | .seeddrop f => Sys2Proof.Machine.execSeeddrop f s
  | .join f => Sys2Proof.Machine.execJoin f s
  | .leave f => Sys2Proof.Machine.execLeave f s
  | .bar f => Sys2Proof.Machine.execBar f s
  | .bara f => Sys2Proof.Machine.execBara f s
  | .barw f => Sys2Proof.Machine.execBarw f s
  | .ringp f => Sys2Proof.Machine.execRingp f s
  | .ringpAfter f => Sys2Proof.Machine.execRingpAfter f s
  | .ringw f => Sys2Proof.Machine.execRingw f s
  | .ringf f => Sys2Proof.Machine.execRingf f s
  | .launch f => Sys2Proof.Machine.execLaunch f s
  | .emit f => Sys2Proof.Machine.execEmit f s
  | .take f => Sys2Proof.Machine.execTake f s
  | .qclose f => Sys2Proof.Machine.execQclose f s
  | .grow f => Sys2Proof.Machine.execGrow f s
  | .shrink f => Sys2Proof.Machine.execShrink f s
  | .chsend f => Sys2Proof.Machine.execChsend f s
  | .chrecv f => Sys2Proof.Machine.execChrecv f s
  | .redx f => Sys2Proof.Machine.execRedx f s
  | .redw f => Sys2Proof.Machine.execRedw f s
  | .rdsr f => Sys2Proof.Machine.execRdsr f s
  | .wrsr f => Sys2Proof.Machine.execWrsr f s
  | .tret f => Sys2Proof.Machine.execTret f s
  | .tmset f => Sys2Proof.Machine.execTmset f s
  | .balloonGive f => Sys2Proof.Machine.execBalloonGive f s
  | .balloonQuery f => Sys2Proof.Machine.execBalloonQuery f s
  | .dieset f => Sys2Proof.Machine.execDieset f s
  | .memfsp f => Sys2Proof.Machine.execMemfsp f s
  | .movH f => Sys2Proof.Machine.execMovH f s
  | .iaddH f => Sys2Proof.Machine.execIaddH f s
  | .isubH f => Sys2Proof.Machine.execIsubH f s
  | .iandH f => Sys2Proof.Machine.execIandH f s
  | .iorH f => Sys2Proof.Machine.execIorH f s
  | .ixorH f => Sys2Proof.Machine.execIxorH f s
  | .ishlH f => Sys2Proof.Machine.execIshlH f s
  | .ishrH f => Sys2Proof.Machine.execIshrH f s
  | .faddH f => Sys2Proof.Machine.execFaddH f s
  | .fsubH f => Sys2Proof.Machine.execFsubH f s
  | .fmulH f => Sys2Proof.Machine.execFmulH f s
  | .fmaxH f => Sys2Proof.Machine.execFmaxH f s
  | .fminH f => Sys2Proof.Machine.execFminH f s
  | .caddH f => Sys2Proof.Machine.execCaddH f s
  | .cmulH f => Sys2Proof.Machine.execCmulH f s
  | .imulH f => Sys2Proof.Machine.execImulH f s
  | .movW f => Sys2Proof.Machine.execMovW f s
  | .iaddW f => Sys2Proof.Machine.execIaddW f s
  | .isubW f => Sys2Proof.Machine.execIsubW f s
  | .imulW f => Sys2Proof.Machine.execImulW f s
  | .iandW f => Sys2Proof.Machine.execIandW f s
  | .iorW f => Sys2Proof.Machine.execIorW f s
  | .ixorW f => Sys2Proof.Machine.execIxorW f s
  | .ishlW f => Sys2Proof.Machine.execIshlW f s
  | .ishrW f => Sys2Proof.Machine.execIshrW f s
  | .iminW f => Sys2Proof.Machine.execIminW f s
  | .imaxW f => Sys2Proof.Machine.execImaxW f s
  | .icmpW f => Sys2Proof.Machine.execIcmpW f s
  | .faddW f => Sys2Proof.Machine.execFaddW f s
  | .fsubW f => Sys2Proof.Machine.execFsubW f s
  | .fmulW f => Sys2Proof.Machine.execFmulW f s
  | .ffmaW f => Sys2Proof.Machine.execFfmaW f s
  | .fminW f => Sys2Proof.Machine.execFminW f s
  | .fmaxW f => Sys2Proof.Machine.execFmaxW f s
  | .fcmpW f => Sys2Proof.Machine.execFcmpW f s
  | .caddW f => Sys2Proof.Machine.execCaddW f s
  | .csubW f => Sys2Proof.Machine.execCsubW f s
  | .cmulW f => Sys2Proof.Machine.execCmulW f s
  | .cfmaW f => Sys2Proof.Machine.execCfmaW f s
  | .bflyW f => Sys2Proof.Machine.execBflyW f s
  | .twidW f => Sys2Proof.Machine.execTwidW f s
  | .shflW f => Sys2Proof.Machine.execShflW f s
  | .shflxW f => Sys2Proof.Machine.execShflxW f s
  | .ldsW f => Sys2Proof.Machine.execLdsW f s
  | .stsW f => Sys2Proof.Machine.execStsW f s
  | .ldW f => Sys2Proof.Machine.execLdW f s
  | .stW f => Sys2Proof.Machine.execStW f s
  | .saddW f => Sys2Proof.Machine.execSaddW f s
  | .ssubW f => Sys2Proof.Machine.execSsubW f s
  | .smovW f => Sys2Proof.Machine.execSmovW f s
  | .scmpW f => Sys2Proof.Machine.execScmpW f s
  | .sandW f => Sys2Proof.Machine.execSandW f s
  | .sorW f => Sys2Proof.Machine.execSorW f s
  | .sshlW f => Sys2Proof.Machine.execSshlW f s
  | .sshrW f => Sys2Proof.Machine.execSshrW f s
  | .moviW f => Sys2Proof.Machine.execMoviW f s
  | .smoviW f => Sys2Proof.Machine.execSmoviW f s
  | .iaddi f => Sys2Proof.Machine.execIaddi f s
  | .saddi f => Sys2Proof.Machine.execSaddi f s
  | .movhiW f => Sys2Proof.Machine.execMovhiW f s
  | .smovhi f => Sys2Proof.Machine.execSmovhi f s
  | .braW f => Sys2Proof.Machine.execBraW f s
  | .loopW f => Sys2Proof.Machine.execLoopW f s
  | .callW f => Sys2Proof.Machine.execCallW f s
  | .waitcW f => Sys2Proof.Machine.execWaitcW f s
  | .exitW f => Sys2Proof.Machine.execExitW f s
  | .rcvW f => Sys2Proof.Machine.execRcvW f s
  | .divW f => Sys2Proof.Machine.execDivW f s
  | .halt => Sys2Proof.Machine.execHalt s
  | .yieldW => Sys2Proof.Machine.execYieldW s
  | .spinDemotionTimeout strand => Sys2Proof.Machine.execSpinDemotionTimeout strand s
  | .runStart die core lane => Sys2Proof.Machine.execRunStart die core lane s
  | .timerExpiry strand => Sys2Proof.Machine.execTimerExpiry strand s
  | .asyncTrapTake strand => Sys2Proof.Machine.execAsyncTrapTake strand s
  | .requestAnswer strand => Sys2Proof.Machine.execRequestAnswer strand s
  | .itemDispatch ctx kid places => Sys2Proof.Machine.execItemDispatch ctx kid places s
  | .itemComplete ctx kid item => Sys2Proof.Machine.execItemComplete ctx kid item s
  | .preemption die core forCtx => Sys2Proof.Machine.execPreemption die core forCtx s
  | .strandSave strand => Sys2Proof.Machine.execStrandSave strand s
  | .strandRestore strand place => Sys2Proof.Machine.execStrandRestore strand place s
  | .createCtx ctx => Sys2Proof.Machine.execCreateCtx ctx s
  | .startCtx ctx => Sys2Proof.Machine.execStartCtx ctx s
  | .suspendCtx ctx => Sys2Proof.Machine.execSuspendCtx ctx s
  | .resumeCtx ctx => Sys2Proof.Machine.execResumeCtx ctx s
  | .retireCtx ctx => Sys2Proof.Machine.execRetireCtx ctx s
  | .ackCtx ctx => Sys2Proof.Machine.execAckCtx ctx s
  | .ctxRetired ctx => Sys2Proof.Machine.execCtxRetired ctx s
  | .ctxCfgWrite ctx value => Sys2Proof.Machine.execCtxCfgWrite ctx value s
  | .embWrite die core value => Sys2Proof.Machine.execEmbWrite die core value s
  | .registerWrite addr size value => Sys2Proof.Machine.execRegisterWrite addr size value s
  | .launchslotWrite ctx appCore word value => Sys2Proof.Machine.execLaunchslotWrite ctx appCore word value s
  | .sweepRange ctx value => Sys2Proof.Machine.execSweepRange ctx value s
  | .sweepAll ctx value => Sys2Proof.Machine.execSweepAll ctx value s
  | .sweepComplete ctx => Sys2Proof.Machine.execSweepComplete ctx s
  | .rollback strand => Sys2Proof.Machine.execRollback strand s
  | .batchWrite ctx => Sys2Proof.Machine.execBatchWrite ctx s
  | .batchResolve ctx seq => Sys2Proof.Machine.execBatchResolve ctx seq s
  | .loadDataReturn strand op thread victims => Sys2Proof.Machine.execLoadDataReturn strand op thread victims s
  | .storePerformed strand op victims => Sys2Proof.Machine.execStorePerformed strand op victims s
  | .atomicPerformed strand op => Sys2Proof.Machine.execAtomicPerformed strand op s
  | .exactSumPerformed strand op => Sys2Proof.Machine.execExactSumPerformed strand op s
  | .shuttleComplete strand op => Sys2Proof.Machine.execShuttleComplete strand op s
  | .dtldComplete strand op => Sys2Proof.Machine.execDtldComplete strand op s
  | .decodeComplete strand op => Sys2Proof.Machine.execDecodeComplete strand op s
  | .fetchfComplete strand op => Sys2Proof.Machine.execFetchfComplete strand op s
  | .promotionRequest strand die core => Sys2Proof.Machine.execPromotionRequest strand die core s
  | .seqOpStart die core => Sys2Proof.Machine.execSeqOpStart die core s
  | .mloopStep die core => Sys2Proof.Machine.execMloopStep die core s
  | .matrixOpComplete die core => Sys2Proof.Machine.execMatrixOpComplete die core s
  | .seedldRemoteLoad strand op die core => Sys2Proof.Machine.execSeedldRemoteLoad strand op die core s
  | .lineWriteback line => Sys2Proof.Machine.execLineWriteback line s
  | .tensionReclaim die frame => Sys2Proof.Machine.execTensionReclaim die frame s
  | .parkLimitExpiry die => Sys2Proof.Machine.execParkLimitExpiry die s
  | .arm die region => Sys2Proof.Machine.execArm die region s
  | .disarm die region => Sys2Proof.Machine.execDisarm die region s
  | .regionExpire die region => Sys2Proof.Machine.execRegionExpire die region s
  | .budgetChange die celsius => Sys2Proof.Machine.execBudgetChange die celsius s
  | .memspWrite die value => Sys2Proof.Machine.execMemspWrite die value s
  | .memfspSwitch => Sys2Proof.Machine.execMemfspSwitch s
  | .dsctlWrite value => Sys2Proof.Machine.execDsctlWrite value s
  | .diesetChange => Sys2Proof.Machine.execDiesetChange s
  | .diesetCommit => Sys2Proof.Machine.execDiesetCommit s
  | .openQ queue => Sys2Proof.Machine.execOpenQ queue s
  | .closeQ queue => Sys2Proof.Machine.execCloseQ queue s
  | .releaseQ queue => Sys2Proof.Machine.execReleaseQ queue s
  | .queueAppendWrite queue appCore word value => Sys2Proof.Machine.execQueueAppendWrite queue appCore word value s
  | .queueRecordArrive queue src die => Sys2Proof.Machine.execQueueRecordArrive queue src die s
  | .channelSlotDeliver ctx kid channel => Sys2Proof.Machine.execChannelSlotDeliver ctx kid channel s
  | .redxContributionArrive ctx kid object => Sys2Proof.Machine.execRedxContributionArrive ctx kid object s
  | .multicastForward message router => Sys2Proof.Machine.execMulticastForward message router s
  | .retrain die port => Sys2Proof.Machine.execRetrain die port s
  | .linkFault link => Sys2Proof.Machine.execLinkFault link s
  | .flitReplay die port flits => Sys2Proof.Machine.execFlitReplay die port flits s
  | .linkTrainingEnd link trained => Sys2Proof.Machine.execLinkTrainingEnd link trained s
  | .heartbeatSend die tile fatal => Sys2Proof.Machine.execHeartbeatSend die tile fatal s
  | .heartbeatReceive die tile side => Sys2Proof.Machine.execHeartbeatReceive die tile side s
  | .heartbeatMiss die tile side => Sys2Proof.Machine.execHeartbeatMiss die tile side s
  | .babbleDetect die tile side => Sys2Proof.Machine.execBabbleDetect die tile side s
  | .tileFence die tile transit => Sys2Proof.Machine.execTileFence die tile transit s
  | .fenceBroadcastReceive die tile receiver => Sys2Proof.Machine.execFenceBroadcastReceive die tile receiver s
  | .tagQuery message => Sys2Proof.Machine.execTagQuery message s
  | .tagAnswer message => Sys2Proof.Machine.execTagAnswer message s
  | .selfTestStart die tile => Sys2Proof.Machine.execSelfTestStart die tile s
  | .selfTestDone die tile passed => Sys2Proof.Machine.execSelfTestDone die tile passed s
  | .probationEnd die tile => Sys2Proof.Machine.execProbationEnd die tile s
  | .darnJobStart die => Sys2Proof.Machine.execDarnJobStart die s
  | .darnJobComplete die => Sys2Proof.Machine.execDarnJobComplete die s
  | .enable die => Sys2Proof.Machine.execEnable die s
  | .disable die => Sys2Proof.Machine.execDisable die s
  | .vblankStart die => Sys2Proof.Machine.execVblankStart die s
  | .scanoutLine die => Sys2Proof.Machine.execScanoutLine die s
  | .pcieWrite addr bytes => Sys2Proof.Machine.execPcieWrite addr bytes s
  | .resetBoot input => Sys2Proof.Machine.execResetBoot input s
  | .aperiModelLoad image target => Sys2Proof.Machine.execAperiModelLoad image target s
  | .quote => Sys2Proof.Machine.execQuote s
  | .quoteComplete => Sys2Proof.Machine.execQuoteComplete s
  | .clkreqWrite die value => Sys2Proof.Machine.execClkreqWrite die value s
  | .thermalSample die sensors => Sys2Proof.Machine.execThermalSample die sensors s
  | .thermalAction die => Sys2Proof.Machine.execThermalAction die s
  | .thermalTripRelease die => Sys2Proof.Machine.execThermalTripRelease die s
  | .powerLimitStep milliwatts => Sys2Proof.Machine.execPowerLimitStep milliwatts s
  | .sramError place => Sys2Proof.Machine.execSramError place s
  | .tapResume strand => Sys2Proof.Machine.execTapResume strand s
  | .debugAccess access => Sys2Proof.Machine.execDebugAccess access s
  | .encodingNotAnInstruction => Sys2Proof.Machine.execEncodingNotAnInstruction s
  | .applicationCoreStore addr bytes => Sys2Proof.Machine.execApplicationCoreStore addr bytes s
  | .slmAttach die attached => Sys2Proof.Machine.execSlmAttach die attached s
  | .writeBackAcknowledged strand => Sys2Proof.Machine.execWriteBackAcknowledged strand s

end Sys2Proof.Machine
end

