-- ==== Sys2Proof/Machine/Wake.lean ====
section
/-! DEFINITION. What follows from a step without an event of its own: waits that are satisfied (R78), lanes' waiting GROWs (R320,
R321), timers (R269), what a Failed link loses (R432) and event messages that are owed (R272, R464). -/

namespace Sys2Proof.Machine

/-- A Waiting strand's wait is satisfied: the state after the waiting instruction has completed, or has delivered its engine
error (R78, R208). HALT waits for the TAP, and GROW is its lane's affair. -/
def State.wakeWait (s : State) (id : Nat) (st : Strand) (w : Wait) (len : Nat) : Option State :=
  match w with
  | .waitc p thr =>
    if thr < st.cnt p then none
    else match st.pathErr p with
      | none => some (s.wakeAt id st len)
      | some e => some ((s.deliverErr id st e st.mask).modStrand id fun x =>
          if x.run == .running then { x with run := .ready, waitCount := 0 } else x)
  | .fence kind scope =>
    if s.fenceReady st kind scope then some ((s.fenceAct st kind scope).wakeAt id st len) else none
  | .bar slot token | .barw slot token =>
    if s.phaseDone st slot token then some ((s.acqAct st 1).wakeAt id st len) else none
  | .ringw _ _ _ | .ringp _ _ => s.ringWake id st
  | .take d q c m =>
    match s.takeTry st d q c m with
    | (s, some st) => some ((s.acqAct st 4).wakeAt id st len)
    | (_, none) => none
  | .chrecv base n m =>
    match s.recvTry st id base n m with
    | some (s, st) => some (s.wakeAt id st len)
    | none => none
  | .grow _ _ _ => none
  | .halt => none

/-- A held arrival is made, where it now can be (R330, R333). -/
def State.arriveHeld (s : State) (id : Nat) (st : Strand) (r : Request) : Option State :=
  if !s.mayIssue st then none
  else match s.asStrand id r.exec with
    | .next t => if (t.strand id).all fun x => x.hold.isNone then some t else none
    | _ => none

/-- What a strand waits for has come: a wait that is satisfied, or a held arrival that is due. -/
def State.wake (s : State) (id : Nat) (st : Strand) : Option State :=
  match st.hold with
  | some (.bar f) => s.arriveHeld id st (.bar f)
  | some (.bara f) => s.arriveHeld id st (.bara f)
  | _ => match st.run with
    | .waiting w len => if s.canWake st then s.wakeWait id st w len else none
    | _ => none

/-- A TAKE that goes on waiting has met records whose pages cannot be read: they form their batches (R295). -/
def State.takeProbe (s : State) : State := s.strands.foldl (fun s e => match e.2.run with
  | .waiting (.take d q c m) _ =>
    if !s.canWake e.2 then s
    else match s.takeTry e.2 d q c m with
      | (t, none) => t
      | (_, some _) => s
  | _ => s) s

/-- Satisfied waits complete and held arrivals are made, in the order in which they began, until none is left (R330, R333, R342). -/
def State.wakeAll (s : State) : State := State.runDue State.wake (2 * s.strands.length) s

/-- The lanes on which a strand waits in GROW are served. -/
def State.growAll (s : State) : State :=
  let ls := distinct ((s.strands.filter fun e => e.2.resident && e.2.growing).map fun e => (e.2.d, e.2.k, e.2.ln))
  ls.foldl (fun s l => State.growLane l.1 l.2.1 l.2.2 9 s) s

/-- Counters that were held for a line's write-back fall (R71, R410). -/
def State.refall (s : State) : State := s.strands.foldl (fun s e =>
  if e.2.ops.any (·.fin) then (s.modStrand e.1 fun st => st.fall s.waitLines).drained e.1 else s) s

/-- What waited for a frame or a link is tried again (R410, R431). -/
def State.retrySlow (s : State) : State :=
  let s := s.ctxs.foldl (fun s e => if e.2.retries.any (·.1 == slowRetry) then s.runRetries e.1 slowRetry else s) s
  s.queues.foldl (fun s e => ([0, 1, 2] : List Nat).foldl (fun s d =>
    if (e.2.part d).any (·.wait == 2) then s.qRetry e.1 d else s) s) s

/-- Contexts are told of what Failed links have lost (R432). -/
def State.tellLost (s : State) : State := { s.lostCtx.foldl (fun s n => s.ctxEvent n 1) s with lostCtx := [] }

/-- No cache holds more than it may. -/
def State.cachesFit (s : State) : Bool := s.dies.all fun x =>
  (x.cores.all fun c => decide (c.tags.order.length ≤ 16)) && x.slices.all fun y => y.dirty.isEmpty && decide (y.tags.order.length ≤ 16)

/-- The caches, the writes of the device and the counters that they hold. -/
def State.settleMemory (s : State) : State :=
  let s := if s.cachesFit then s else s.replace
  (if s.devQ.isEmpty then s else s.devFlush).refall

/-- What follows from a step. -/
def State.consequences (s : State) : State :=
  let s := s.dropDead.settleMemory.tellLost
  let s := s.retrySlow.seedTidy.saveMatrix
  let s := s.takeProbe.wakeAll.growAll
  let s := s.strands.foldl (fun s e => s.timerDue e.1) s
  let s := s.endKernels.placeHeldGroups
  let s := s.ctxs.foldl (fun s e => if e.2.owed = 0 then s else s.payOwed e.1) s
  [0, 1, 2].foldl (fun s d => s.payTile d) s

/-! Time. -/

/-- Package time and each die's cycles pass; SR_TMR counts for resident strands of Active contexts (R21, R267). -/
def State.elapse (s : State) (ns : Nat) (clk : List Nat) : State :=
  let tick (e : Nat × Strand) : Nat × Strand :=
    if e.2.resident && (s.ctx e.2.ctx).state == 2 then (e.1, { e.2 with tmr := e.2.tmr + BitVec.ofNat 64 ns }) else e
  { s with
    gtime := s.gtime + ns, dies := s.dies.zipIdx.map fun e => { e.1 with clk := e.1.clk + nth 0 clk e.2 },
    strands := s.strands.map tick }

end Sys2Proof.Machine
end

