-- ==== Sys2Proof/Machine/Cycle.lean ====
section
/-! DEFINITION. One turn of the machine: an event of the agenda, or one strand's next instruction with its fetch (R81), its
pending trap (R274) or its held request (R260). -/

namespace Sys2Proof.Machine

/-- A step of the table that is no instruction: it stands in no instruction stream. -/
def isEvent (i : Instr) : Bool := (encodeWord i).isNone && i != .encodingNotAnInstruction

/-- The threads that an instruction at the strand's boundary stands for (R76). -/
def Strand.nowMask (st : Strand) : Mask := match st.resume with
  | some r => st.mask &&& r.mask
  | none => st.mask

/-- The element at the strand's boundary. -/
def Strand.nowElem (st : Strand) : Nat := match st.resume with
  | some r => r.elem
  | none => 0

/-- The fetched instruction is executed for the strand (R73, R81). -/
def State.execFetched (s : State) (id : Nat) (st : Strand) : Fetched → Result
  | .ok i ir _ => exec i { s.putStrand id { st with ir := ir } with cur := some id }
  | .trap c => .next (s.trapAtIssue id st c 0 st.nowMask)
  | .fault es => .next (s.xlFault id st st.nowElem st.nowMask es .fetch)
  | .park => .next (s.xlPark id st st.nowElem st.nowMask)
  | .wait => .next s

/-- A Running strand's turn: its held request is tried again, its pending trap is taken, or its next instruction is fetched
and executed. A strand that may not issue leaves the machine as it is. -/
def State.issueTurn (s : State) (id : Nat) : Result :=
  match s.strand id with
  | none => .next s
  | some st =>
    if !s.mayIssue st then .next s
    else match st.hold with
      | some r => r.exec { s with cur := some id }
      | none =>
        if st.firstPend.isSome then .next ({ s with cur := some id }.takePend id)
        else
          let r := s.fetch st
          r.1.execFetched id st r.2

/-- The instruction is a block whose passes can stop at an element boundary: not LACE, whose source block is read whole first (R185),
nor MRD, which the sequencer carries out (R79). -/
def canCut (i : Instr) (ir : DWord) (elem now : Nat) : Bool := match specOf i with
  | some sp => decide (sp.ext = 1) && sp.mode == .perThread && (lFields ir).u == 0 && decide (now < elem) &&
      decide (elem < blockLen (lFields ir))
  | none => false

/-- The block position with an end before element n. -/
def Strand.cutBefore (st : Strand) (n : Nat) : Strand :=
  { st with resume := some (match st.resume with
    | some r => { r with upto := some n }
    | none => { elem := 0, mask := 0xFFFF, kept := [], upto := some n }) }
/-- The end is taken away from a strand that has not come to it. -/
def Strand.uncut (old st : Strand) : Strand := if st.cutAt.isSome then { st with resume := old.resume } else st

/-- A Running strand's turn that ends at the boundary before an element of its block (R79, R259). -/
def State.partTurn (s : State) (id elem : Nat) : Result :=
  match s.strand id with
  | none => .next s
  | some st =>
    if !s.mayIssue st || st.hold.isSome || st.firstPend.isSome then .next s
    else match s.fetch st with
      | (s, .ok i ir len) =>
        if !canCut i ir elem st.nowElem then .next s
        else match s.execFetched id (st.cutBefore elem) (.ok i ir len) with
          | .next t => .next (t.modStrand id st.uncut)
          | r => r
      | (s, _) => .next s

/-- The current strand's turn when no turn of the agenda comes first: a Ready strand's lane starts a run. -/
def State.idleTurn (s : State) : Result :=
  match s.cur with
  | none => .next s
  | some id =>
    match s.strand id with
    | none => .next s
    | some st =>
      if s.canRun st then .next (s.startRun st.d st.k st.ln) else s.issueTurn id

/-- What follows an act. -/
def settleTurn : Result → Result
  | .next s => .next s.consequences
  | .fault f => .fault f
  | .refused r => .refused r

/-- One turn: the first of the agenda at its time, or the current strand's after a free time. -/
def State.turn (s : State) : Result :=
  match s.agenda with
  | t :: r =>
    let s := ({ s with agenda := r }.elapse t.ns t.clk).deadlines
    settleTurn (match t.act with
      | .event i => if isEvent i then exec i s else .next s
      | .issue id => s.issueTurn id
      | .part id n => s.partTurn id n)
  | [] =>
    let s := { s with tick := s.tick + 1 }.elapse (Config.freeNs s.tick)
      [Config.freeCycles (3 * s.tick), Config.freeCycles (3 * s.tick + 1), Config.freeCycles (3 * s.tick + 2)]
    settleTurn s.deadlines.idleTurn

end Sys2Proof.Machine
end

