-- ==== Sys2Proof/Machine/Step.lean ====
section
/-! DEFINITION. The step of the machine, and a machine that is about to execute a given instruction. -/

namespace Sys2Proof.Machine

/-- One step: one turn of the machine. -/
def step (s : State) : Host.Outcome State Fault Refusal := s.turn

/-- Where the placed instruction stands, and the two nodes of the table that maps it. -/
def placedAt : Nat := 0x10000
def placedL4 : Nat := 0x1000
def placedL3 : Nat := 0x2000

/-- The launch record of the placed program (R279): its code, one item of one V-role strand, 128 registers, and 4 KiB of
scratchpad. -/
def placedRecord : List Byte :=
  leBytes 8 placedAt ++ leBytes 24 0 ++ leBytes 4 1 ++ leBytes 4 0 ++ leBytes 2 1 ++ leBytes 2 1 ++ leBytes 2 0 ++
    leBytes 2 0 ++ leBytes 2 0 ++ leBytes 2 16 ++ leBytes 1 8 ++ leBytes 1 0 ++ leBytes 1 0 ++ leBytes 1 0 ++ leBytes 8 0

/-- Its kernel, with its one item on lane 0 of core 0 of D0. -/
def placedKernel : Kernel :=
  { record := placedRecord, params := [], state := 0, next := 1, returned := [], count := 0, completed := [],
    items := [(0, { iid := 0, strands := [0], committed := true, complete := false, lost := false, die := 0, cores := [0],
                    scr := [], savedTiles := [], savedOps := [], savedPages := [] })],
    chans := [], reds := [], seeds := [], launchDie := 0 }

/-- Its strand, Running. -/
def placedStrand : Strand :=
  { newStrand placedKernel 0 0 0 0 { die := 0, core := 0, lane := 0, place := 0 } 0 with run := .running }

/-- Its context: Active, privileged, with a table that maps the first 1 GiB to itself for every use (R388, R389). -/
def placedCtx : Ctx :=
  { Ctx.free with
    state := 2, cfg := 0x40, root := BitVec.ofNat 64 (placedL4 + 1), tvec := 0x20000, save := 0x200000,
    kernels := [(0, placedKernel)] }

/-- The state with the instruction whose bits are w placed where the next step fetches, by a strand that runs on lane 0 of
core 0 of D0. It stands for the boot, the creation of a context and the launch of a kernel (see the log). -/
def State.withFetchWord (s : State) (nbits w : Nat) : State :=
  let m := cputs s.mem placedL4 (leBytes 8 (placedL3 + 1))
  let m := cputs m placedL3 (leBytes 8 0x3D)
  let m := cputs m placedAt (wordBytes 8 (w % 2 ^ nbits))
  let core : Core := { Core.idle with lanes := [(0, { Lane.idle with running := some 0 })], residentOrder := [0] }
  { s with
    dies := upd s.dies 0 { Die.afterReset 0 with cores := core :: List.replicate 15 Core.idle },
    mem := m, ctxs := tput s.ctxs 0 placedCtx, strands := tput s.strands 0 placedStrand,
    nextStrand := max s.nextStrand 1, boot := { s.boot with held := false }, cur := some 0,
    agenda := [{ ns := 0, clk := [], act := .issue 0 }] }

end Sys2Proof.Machine
end

