-- ==== Sys2Proof/Safety.lean ====
section
/-! DEFINITION. What counts as a safe state and a safe run, in the terms that claims use. -/

namespace Sys2Proof.Machine

/-- The canonical form of memory: addresses strictly rising, and no entry that reads as an unlisted address does. -/
abbrev Memory.wf (m : Cells 8) : Prop := cellsOk m = true

/-- The registers of a strand are in canonical form. -/
def Strand.wf (st : Strand) : Bool := cellsOk st.v && cellsOk st.s && cellsOk st.q && cellsOk st.x && cellsOk st.c

/-- The module's shape: three dies of sixteen cores, three links, and a mode that is one of the three. -/
def State.shaped (s : State) : Bool :=
  s.dies.length == 3 && s.dies.all (fun d => d.cores.length == 16 && d.tiles.length == 24 && d.regions.length == 16) &&
    s.links.length == 3 && decide (s.dsCur ≤ 2)

/-- A state that the machine should always be in. -/
def State.good (s : State) : Bool :=
  cellsOk s.mem && tabAbove 0 s.strands && tabAbove 0 s.ctxs && s.shaped && s.strands.all fun e => e.2.wf

/-- An outcome that goes on. -/
def goesOn : Host.Outcome State Fault Refusal → Bool
  | .next _ => true
  | .fault _ => false
  | .refused _ => false

/-- A state is reached by steps that all go on. -/
inductive Reaches : State → State → Prop where
  | refl (s : State) : Reaches s s
  | step {s t u : State} : Reaches s t → step t = .next u → Reaches s u

/-- A run is safe from a state when every state it reaches is good. -/
def Safe (s : State) : Prop := ∀ t, Reaches s t → t.good = true

/-! What statements about instructions are made of. -/

/-- The current strand stands at an instruction that passes every check of issue (R274): its encoding, its privilege, its
registers' allocation and overlap, its entry's own checks, its role, and the registers that its fields name (R105, R106); the
turn is not one that ends inside its block (R79). -/
structure Passes (i : Instr) (sp : OpSpec) (f : LFields) (pre : Strand → Mask → Option Nat) (s : State) (id : Nat)
    (st : Strand) : Prop where
  cur : s.cur = some id
  here : s.strand id = some st
  whole : st.cutAt = none
  encoding : wellFormed i = true
  privilege : sp.priv = true → s.priv st.ctx = true
  allocated : st.allocOk sp f = true
  apart : overlapOk sp f = true
  entry : pre st (st.nowAdm sp f) = none
  role : sp.roleOk st.role = true
  ready : s.score st.ctx = true → st.stallField sp f (st.nowAdm sp f) = none
  free : ∀ r ∈ st.usedRegs sp f (st.nowAdm sp f), r ∉ st.outstanding

/-- A die without its cores, and a core without the runs of its lanes. -/
def Die.bare (x : Die) : Die := { x with cores := [] }
def Core.bare (x : Core) : Core := { x with lanes := [] }

/-- Two states differ in nothing but one strand and the run of a lane: every byte reads the same for every core, at home
and in every die, and so does every other part of the machine. -/
structure OnlyStrand (s t : State) (id : Nat) : Prop where
  mem : ∀ a, cget t.mem a = cget s.mem a
  view : ∀ d c a, t.coreGet d c a = s.coreGet d c a
  strands : ∀ j, j ≠ id → t.strand j = s.strand j
  dies : t.dies.length = s.dies.length ∧ ∀ d, (t.die d).bare = (s.die d).bare
  cores : ∀ d c, (t.core d c).bare = (s.core d c).bare
  rest : { t with dies := [], strands := [] } = { s with dies := [], strands := [] }

/-- A strand without what times and schedules it: the scoreboard, the run, the spin detector and the hold. -/
def Strand.plain (st : Strand) : Strand :=
  { st with
    run := .running, hold := none, stalled := false, runCount := 0, cyc := 0, rdy := [], waitCount := 0,
    spin := Spin.empty }

/-- The run ends after this instruction: E, an instruction that ends it, or the 24th of the run (R102). -/
def Strand.runEnds (st : Strand) (e ends : Bool) : Bool := decide (24 ≤ st.runCount + 1) || e || ends

/-- STS after an instruction of strand `st`: RE is set where the run ends by its length alone (R102). -/
def Strand.endSts (st : Strand) (e ends : Bool) (sts : Word) : Word :=
  if 24 ≤ st.runCount + 1 ∧ e = false ∧ ends = false then sts ||| stsRE else sts

/-- The instruction of strand `st` has ended, with `u` its effects: from s the machine goes to t, in which nothing but that strand and
its lane's run differs, and the strand is u behind the instruction or at the target, joined with other paths where it stands
at a reconvergence PC (R66, R67), and Ready where the run ends. -/
structure Ends (s t : State) (id : Nat) (st u : Strand) (len : Nat) (xfer : Option Xfer) (e ends : Bool) : Prop where
  only : OnlyStrand s t id
  strand : ∃ w, t.strand id = some (s.settle w) ∧
    w.plain = ({ u.advance len xfer with sts := st.endSts e ends u.sts } : Strand).plain ∧
    w.run = if st.runEnds e ends then .ready else u.run

/-! The pass of a per-thread instruction, thread by thread. -/

/-- Elements, threads of an element, and the thread whose operands a thread's result comes from: its own, or under uniform execution the
lowest admitted one (R58, R59). -/
def vecElems (sp : OpSpec) (f : LFields) : Nat := if uniform sp f then 1 else elems sp f
def Strand.vecMask (st : Strand) (sp : OpSpec) (f : LFields) (adm : Mask) (e : Nat) : Mask :=
  if uniform sp f then adm else elemMask st.resume adm e
def vecFrom (sp : OpSpec) (f : LFields) (adm : Mask) (t : Nat) : Nat := if uniform sp f then mLow adm else t

/-- The result of thread t in element e as the strand's operands stand, and the first register that receives it; none where
the thread does not execute or a window refuses. -/
def Strand.vecOut (st : Strand) (sp : OpSpec) (f : LFields) (vd : VecDef) (adm : Mask) (e t : Nat) : Option (VOut × Nat) :=
  if e < vecElems sp f ∧ t < 16 ∧ mHas (st.vecMask sp f adm e) t then
    match st.inputs sp f vd e (vecFrom sp f adm t), st.destReg sp f e t with
    | .ok x, .ok n => some (vd.fn (FEnv.ofFmt st.fmt) x, n)
    | _, _ => none
  else none

/-- No index register's window refuses a thread that executes (R62). -/
def Strand.vecInside (st : Strand) (sp : OpSpec) (f : LFields) (vd : VecDef) (adm : Mask) : Prop :=
  ∀ e t, e < vecElems sp f → t < 16 → mHas (st.vecMask sp f adm e) t = true → (st.vecOut sp f vd adm e t).isSome = true

/-- What a per-thread instruction does to its strand (R57 to R59, R72, R74): each thread that executes has its result's words in
the registers from its destination on and its predicate bit, STS has every flag raised, and no other slot, bit or
register differs. -/
structure VecResult (sp : OpSpec) (f : LFields) (vd : VecDef) (adm : Mask) (st u : Strand) : Prop where
  words : ∀ e t o n, st.vecOut sp f vd adm e t = some (o, n) → ∀ j, j < o.d.length → u.vget (n + j) t = nth 0 o.d j
  kept : ∀ n t, t < 16 → (∀ e o k, st.vecOut sp f vd adm e t = some (o, k) → n < k ∨ k + o.d.length ≤ n) →
    u.vget n t = st.vget n t
  bit : ∀ e t o n b, st.vecOut sp f vd adm e t = some (o, n) → o.q = some b → predReg sp f ≠ 0 →
    mHas (u.qget (predReg sp f)) t = b
  bits : ∀ k t, t < 16 → (k = predReg sp f → k = 0 ∨ ∀ e o n, st.vecOut sp f vd adm e t = some (o, n) → o.q = none) →
    mHas (u.qget k) t = mHas (st.qget k) t
  flags : ∀ k, u.sts.getLsbD k = true ↔ st.sts.getLsbD k = true ∨
    ∃ e t o n, st.vecOut sp f vd adm e t = some (o, n) ∧ (o.flags.zeroExtend 32 : Word).getLsbD k = true
  rest : u = { st with v := u.v, q := u.q, sts := u.sts }

/-- A per-thread instruction: its row, its fields as an L instruction, its length and its meaning on one thread's operands. -/
structure VecRow where
  sp : OpSpec
  f : LFields
  len : Nat
  vd : Strand → VecDef
  /-- Thread 0's header resolves, where the instruction reads one (R175). -/
  ready : Strand → Bool := fun _ => true

/-- The per-thread instructions of the integer, FP and complex families, in every format (R82 to R88, R152). -/
def vecRow : Instr → Option VecRow
  | .iadd f => some { sp := rowOf (.iadd f), f := f, len := 8, vd := fun _ => defIadd f.m3.toNat }
  | .isub f => some { sp := rowOf (.isub f), f := f, len := 8, vd := fun _ => defIsub f.m3.toNat }
  | .imul f => some { sp := rowOf (.imul f), f := f, len := 8, vd := fun _ => defImul f.m3.toNat }
  | .imulh f => some { sp := rowOf (.imulh f), f := f, len := 8, vd := fun _ => vdImulh f }
  | .imad f => some { sp := rowOf (.imad f), f := f, len := 8, vd := fun _ => vdImad f }
  | .iand f => some { sp := rowOf (.iand f), f := f, len := 8, vd := fun _ => defIand f.m3.toNat }
  | .ior f => some { sp := rowOf (.ior f), f := f, len := 8, vd := fun _ => defIor f.m3.toNat }
  | .ixor f => some { sp := rowOf (.ixor f), f := f, len := 8, vd := fun _ => defIxor f.m3.toNat }
  | .ishl f => some { sp := rowOf (.ishl f), f := f, len := 8, vd := fun _ => defIshl f.m3.toNat }
  | .ishr f => some { sp := rowOf (.ishr f), f := f, len := 8, vd := fun _ => defIshr f.m3.toNat }
  | .isra f => some { sp := rowOf (.isra f), f := f, len := 8, vd := fun _ => vdIsra f }
  | .imin f => some { sp := rowOf (.imin f), f := f, len := 8, vd := fun _ => defImin f.m3.toNat }
  | .imax f => some { sp := rowOf (.imax f), f := f, len := 8, vd := fun _ => defImax f.m3.toNat }
  | .iabs f => some { sp := rowOf (.iabs f), f := f, len := 8, vd := fun _ => vdIabs f }
  | .icmp f => some { sp := rowOf (.icmp f), f := f, len := 8, vd := fun _ => defIcmp f.m3.toNat f.c.toNat }
  | .isel f => some { sp := rowOf (.isel f), f := f, len := 8, vd := fun _ => vdIsel f }
  | .bfe f => some { sp := rowOf (.bfe f), f := f, len := 8, vd := fun _ => vdBfe f }
  | .bfi f => some { sp := rowOf (.bfi f), f := f, len := 8, vd := fun _ => vdBfi f }
  | .popc f => some { sp := rowOf (.popc f), f := f, len := 8, vd := fun _ => vdPopc f }
  | .clz f => some { sp := rowOf (.clz f), f := f, len := 8, vd := fun _ => vdClz f }
  | .brev f => some { sp := rowOf (.brev f), f := f, len := 8, vd := fun _ => vdBrev f }
  | .bgath f => some { sp := rowOf (.bgath f), f := f, len := 8, vd := fun _ => vdBgath f }
  | .lea f => some { sp := rowOf (.lea f), f := f, len := 8, vd := fun _ => defLea f.m3.toNat f.c.toNat }
  | .iaddc f => some { sp := rowOf (.iaddc f), f := f, len := 8, vd := fun _ => defIaddc }
  | .mov f => some { sp := rowOf (.mov f), f := f, len := 8, vd := fun _ => defMov f.m3.toNat }
  | .movi f => some { sp := rowOf (.movi f), f := f, len := 8, vd := fun _ => vdMovi f }
  | .movhi f => some { sp := rowOf (.movhi f), f := f, len := 8, vd := fun _ => vdMovhi f }
  | .idot4 f => some { sp := rowOf (.idot4 f), f := f, len := 8, vd := fun _ => vdIdot4 f }
  | .fadd f => some { sp := rowOf (.fadd f), f := f, len := 8, vd := fun _ => defFadd f.m3.toNat }
  | .fsub f => some { sp := rowOf (.fsub f), f := f, len := 8, vd := fun _ => defFsub f.m3.toNat }
  | .fmul f => some { sp := rowOf (.fmul f), f := f, len := 8, vd := fun _ => defFmul f.m3.toNat }
  | .ffma f => some { sp := rowOf (.ffma f), f := f, len := 8, vd := fun _ => defFfma f.m3.toNat }
  | .fmin f => some { sp := rowOf (.fmin f), f := f, len := 8, vd := fun _ => defFmin f.m3.toNat }
  | .fmax f => some { sp := rowOf (.fmax f), f := f, len := 8, vd := fun _ => defFmax f.m3.toNat }
  | .fcmp f => some { sp := rowOf (.fcmp f), f := f, len := 8, vd := fun _ => defFcmp f.m3.toNat f.c.toNat }
  | .fclass f => some { sp := rowOf (.fclass f), f := f, len := 8, vd := fun _ => vdFclass f }
  | .frcp f => some { sp := rowOf (.frcp f), f := f, len := 8, vd := fun _ => vdFrcp f }
  | .frsq f => some { sp := rowOf (.frsq f), f := f, len := 8, vd := fun _ => vdFrsq f }
  | .fsqrt f => some { sp := rowOf (.fsqrt f), f := f, len := 8, vd := fun _ => vdFsqrt f }
  | .fexp2 f => some { sp := rowOf (.fexp2 f), f := f, len := 8, vd := fun _ => vdFexp2 f }
  | .flog2 f => some { sp := rowOf (.flog2 f), f := f, len := 8, vd := fun _ => vdFlog2 f }
  | .fsint f => some { sp := rowOf (.fsint f), f := f, len := 8, vd := fun _ => vdFsint f }
  | .fcost f => some { sp := rowOf (.fcost f), f := f, len := 8, vd := fun _ => vdFcost f }
  | .fcvt f => some { sp := rowOf (.fcvt f), f := f, len := 8, vd := fun _ => vdFcvt f }
  | .frnd f => some { sp := rowOf (.frnd f), f := f, len := 8, vd := fun _ => vdFrnd f }
  | .ffrac f => some { sp := rowOf (.ffrac f), f := f, len := 8, vd := fun _ => vdFfrac f }
  | .cadd f => some { sp := rowOf (.cadd f), f := f, len := 8, vd := fun _ => defCadd f.m3.toNat }
  | .csub f => some { sp := rowOf (.csub f), f := f, len := 8, vd := fun _ => defCsub f.m3.toNat }
  | .cmul f => some { sp := rowOf (.cmul f), f := f, len := 8, vd := fun _ => defCmul f.m3.toNat }
  | .cfma f => some { sp := rowOf (.cfma f), f := f, len := 8, vd := fun _ => defCfma f.m3.toNat }
  | .cmag2 f => some { sp := rowOf (.cmag2 f), f := f, len := 8, vd := fun _ => vdCmag2 f }
  | .cscale f => some { sp := rowOf (.cscale f), f := f, len := 8, vd := fun _ => vdCscale f }
  | .cexpi f => some { sp := rowOf (.cexpi f), f := f, len := 8, vd := fun _ => vdCexpi f }
  | .cphase f => some { sp := rowOf (.cphase f), f := f, len := 8, vd := fun _ => vdCphase f }
  | .twid f => some { sp := rowOf (.twid f), f := f, len := 8, vd := fun _ => defTwid f.m3.toNat }
  | .bfly f => some { sp := rowOf (.bfly f), f := f, len := 8, vd := fun _ => defBfly f.m3.toNat }
  | .ccvt f => some { sp := rowOf (.ccvt f), f := f, len := 8, vd := fun _ => vdCcvt f }
  | .bpack f => some { sp := rowOf (.bpack f), f := f, len := 8, vd := vdBpack f }
  | .bunpk f => some { sp := rowOf (.bunpk f), f := f, len := 8, vd := vdBunpk f, ready := fun st => (bunpkHead st f 0).isSome }
  | .bexpm f => some { sp := rowOf (.bexpm f), f := f, len := 8, vd := fun _ => vdBexpm f }
  | .phq f => some { sp := rowOf (.phq f), f := f, len := 8, vd := fun _ => vdPhq f }
  | .edge f => some { sp := rowOf (.edge f), f := f, len := 8, vd := fun _ => vdEdge f }
  | .trix f => some { sp := rowOf (.trix f), f := f, len := 8, vd := fun _ => vdTrix f }
  | .movH h => some { sp := rowOf (.mov (HFields.toMov h)), f := HFields.toMov h, len := 2, vd := fun _ => defMov 6 }
  | .iaddH h => some { sp := rowOf (.iadd (HFields.toM h 0)), f := HFields.toM h 0, len := 2, vd := fun _ => defIadd 0 }
  | .isubH h => some { sp := rowOf (.isub (HFields.toM h 0)), f := HFields.toM h 0, len := 2, vd := fun _ => defIsub 0 }
  | .iandH h => some { sp := rowOf (.iand (HFields.toM h 6)), f := HFields.toM h 6, len := 2, vd := fun _ => defIand 6 }
  | .iorH h => some { sp := rowOf (.ior (HFields.toM h 6)), f := HFields.toM h 6, len := 2, vd := fun _ => defIor 6 }
  | .ixorH h => some { sp := rowOf (.ixor (HFields.toM h 6)), f := HFields.toM h 6, len := 2, vd := fun _ => defIxor 6 }
  | .ishlH h => some { sp := rowOf (.ishl (HFields.toM h 6)), f := HFields.toM h 6, len := 2, vd := fun _ => defIshl 6 }
  | .ishrH h => some { sp := rowOf (.ishr (HFields.toM h 6)), f := HFields.toM h 6, len := 2, vd := fun _ => defIshr 6 }
  | .faddH h => some { sp := rowOf (.fadd (HFields.toM h 0)), f := HFields.toM h 0, len := 2, vd := fun _ => defFadd 0 }
  | .fsubH h => some { sp := rowOf (.fsub (HFields.toM h 0)), f := HFields.toM h 0, len := 2, vd := fun _ => defFsub 0 }
  | .fmulH h => some { sp := rowOf (.fmul (HFields.toM h 0)), f := HFields.toM h 0, len := 2, vd := fun _ => defFmul 0 }
  | .fmaxH h => some { sp := rowOf (.fmax (HFields.toM h 0)), f := HFields.toM h 0, len := 2, vd := fun _ => defFmax 0 }
  | .fminH h => some { sp := rowOf (.fmin (HFields.toM h 0)), f := HFields.toM h 0, len := 2, vd := fun _ => defFmin 0 }
  | .caddH h => some { sp := rowOf (.cadd (HFields.toM h 0)), f := HFields.toM h 0, len := 2, vd := fun _ => defCadd 0 }
  | .cmulH h => some { sp := rowOf (.cmul (HFields.toM h 0)), f := HFields.toM h 0, len := 2, vd := fun _ => defCmul 0 }
  | .imulH h => some { sp := rowOf (.imul (HFields.toM h 0)), f := HFields.toM h 0, len := 2, vd := fun _ => defImul 0 }
  | .movW r => some { sp := rowOf (.mov (WRFields.toM r 6)), f := WRFields.toM r 6, len := 4, vd := fun _ => defMov 6 }
  | .iaddW r => some { sp := rowOf (.iadd (WRFields.toM r 0)), f := WRFields.toM r 0, len := 4, vd := fun _ => defIadd 0 }
  | .isubW r => some { sp := rowOf (.isub (WRFields.toM r 0)), f := WRFields.toM r 0, len := 4, vd := fun _ => defIsub 0 }
  | .imulW r => some { sp := rowOf (.imul (WRFields.toM r 0)), f := WRFields.toM r 0, len := 4, vd := fun _ => defImul 0 }
  | .iandW r => some { sp := rowOf (.iand (WRFields.toM r 6)), f := WRFields.toM r 6, len := 4, vd := fun _ => defIand 6 }
  | .iorW r => some { sp := rowOf (.ior (WRFields.toM r 6)), f := WRFields.toM r 6, len := 4, vd := fun _ => defIor 6 }
  | .ixorW r => some { sp := rowOf (.ixor (WRFields.toM r 6)), f := WRFields.toM r 6, len := 4, vd := fun _ => defIxor 6 }
  | .ishlW r => some { sp := rowOf (.ishl (WRFields.toM r 6)), f := WRFields.toM r 6, len := 4, vd := fun _ => defIshl 6 }
  | .ishrW r => some { sp := rowOf (.ishr (WRFields.toM r 6)), f := WRFields.toM r 6, len := 4, vd := fun _ => defIshr 6 }
  | .iminW r => some { sp := rowOf (.imin (WRFields.toM r 0)), f := WRFields.toM r 0, len := 4, vd := fun _ => defImin 0 }
  | .imaxW r => some { sp := rowOf (.imax (WRFields.toM r 0)), f := WRFields.toM r 0, len := 4, vd := fun _ => defImax 0 }
  | .icmpW r => some { sp := rowOf (.icmp (WRFields.toM r 0)), f := WRFields.toM r 0, len := 4, vd := fun _ => defIcmp 0 0 }
  | .faddW r => some { sp := rowOf (.fadd (WRFields.toM r 0)), f := WRFields.toM r 0, len := 4, vd := fun _ => defFadd 0 }
  | .fsubW r => some { sp := rowOf (.fsub (WRFields.toM r 0)), f := WRFields.toM r 0, len := 4, vd := fun _ => defFsub 0 }
  | .fmulW r => some { sp := rowOf (.fmul (WRFields.toM r 0)), f := WRFields.toM r 0, len := 4, vd := fun _ => defFmul 0 }
  | .fminW r => some { sp := rowOf (.fmin (WRFields.toM r 0)), f := WRFields.toM r 0, len := 4, vd := fun _ => defFmin 0 }
  | .fmaxW r => some { sp := rowOf (.fmax (WRFields.toM r 0)), f := WRFields.toM r 0, len := 4, vd := fun _ => defFmax 0 }
  | .fcmpW r => some { sp := rowOf (.fcmp (WRFields.toM r 0)), f := WRFields.toM r 0, len := 4, vd := fun _ => defFcmp 0 0 }
  | .caddW r => some { sp := rowOf (.cadd (WRFields.toM r 0)), f := WRFields.toM r 0, len := 4, vd := fun _ => defCadd 0 }
  | .csubW r => some { sp := rowOf (.csub (WRFields.toM r 0)), f := WRFields.toM r 0, len := 4, vd := fun _ => defCsub 0 }
  | .cmulW r => some { sp := rowOf (.cmul (WRFields.toM r 0)), f := WRFields.toM r 0, len := 4, vd := fun _ => defCmul 0 }
  | .bflyW r => some { sp := rowOf (.bfly (WRFields.toM r 0)), f := WRFields.toM r 0, len := 4, vd := fun _ => defBfly 0 }
  | .twidW r => some { sp := rowOf (.twid (WRFields.toM r 0)), f := WRFields.toM r 0, len := 4, vd := fun _ => defTwid 0 }
  | .ffmaW r => some { sp := rowOf (.ffma (WRFields.acc r)), f := WRFields.acc r, len := 4, vd := fun _ => defFfma 0 }
  | .cfmaW r => some { sp := rowOf (.cfma (WRFields.acc r)), f := WRFields.acc r, len := 4, vd := fun _ => defCfma 0 }
  | .moviW r => some { sp := rowOf (.movi (WIFields.vec r)), f := WIFields.vec r, len := 4, vd := fun _ => vdMoviW r }
  | .iaddi r => some { sp := specInt1 1 (WIFields.vec r), f := WIFields.vec r, len := 4, vd := fun _ => vdIaddi r }
  | .movhiW r => some { sp := rowOf (.movhi (WIFields.vec r)), f := WIFields.vec r, len := 4, vd := fun _ => vdMovhiW r }
  | _ => none

end Sys2Proof.Machine
end

