-- ==== Sys2Proof/Safety/Once.lean ====
section
/-! DEFINITION. What the rules of the predicate, scalar and cross-thread families give a strand, written from the rules and
apart from the meanings in Machine (R116 to R135, R179 to R186): for each instruction the strand after it, or a relation
between the strand before and after. -/

namespace Sys2Proof.Machine

/-- A strand-once instruction: its row, its fields as an L instruction, its length, the checks of its own entry, what its
entry asks of the state before it may execute, and what it does for the threads it executes for. -/
structure OnceRow where
  sp : OpSpec
  f : LFields
  len : Nat
  pre : State → Strand → Mask → Option Nat := fun _ => noPre
  ok : State → Strand → Mask → Prop := fun _ _ _ => True
  effect : State → Strand → Mask → Strand → Prop

/-- An effect given as the strand after it. -/
def becomes (g : Strand → Mask → Strand) : State → Strand → Mask → Strand → Prop := fun _ st m u => u = g st m

/-! Scalars (R116 to R124). -/

/-- d receives a word, or under .b64 a pair (R118). -/
def outRef (f : LFields) (x : Word) (y : DWord) (st : Strand) : Strand :=
  if f.m3 = 7 then st.sset64 (f.d.toNat - 0x80) y else st.sset (f.d.toNat - 0x80) x

/-- A function of two words, or under .b64 of two pairs. -/
def binRef (f : LFields) (g : Word → Word → Word) (h : DWord → DWord → DWord) (st : Strand) (_ : Mask) : Strand :=
  outRef f (g (st.sval f.a.toNat) (st.sval f.b.toNat)) (h (st.sval64 f.a.toNat) (st.sval64 f.b.toNat)) st

/-- A function of two words, signed under .i32 and unsigned under .n32 (R117). -/
def typedRef (f : LFields) (g : Bool → Word → Word → Word) (st : Strand) (_ : Mask) : Strand :=
  st.sset (f.d.toNat - 0x80) (g (f.m3 = 0) (st.sval f.a.toNat) (st.sval f.b.toNat))

/-- A shift by the 32-bit b modulo the width (R119). -/
def shiftRef (f : LFields) (g : Word → Nat → Word) (h : DWord → Nat → DWord) (st : Strand) (_ : Mask) : Strand :=
  outRef f (g (st.sval f.a.toNat) ((st.sval f.b.toNat).toNat % 32)) (h (st.sval64 f.a.toNat) ((st.sval f.b.toNat).toNat % 64)) st

/-- Bits [63:32] of the product of two words, signed or unsigned. -/
def highProduct (signed : Bool) (a b : Word) : Word :=
  ((if signed then a.signExtend 64 * b.signExtend 64 else a.zeroExtend 64 * b.zeroExtend 64) >>> 32).truncate 32
def lesser (signed : Bool) (a b : Word) : Word := if signed then (if a.sle b then a else b) else if a.ule b then a else b
def greater (signed : Bool) (a b : Word) : Word := if signed then (if a.sle b then b else a) else if a.ule b then b else a

/-- The conditions of R120. -/
def holds {n : Nat} (signed : Bool) (c : Nat) (a b : BitVec n) : Bool :=
  let lt : Bool := if signed then a.slt b else a.ult b
  match c with
  | 0 => lt
  | 1 => lt || a == b
  | 2 => !lt && a != b
  | 3 => !lt
  | 4 => a == b
  | _ => a != b

/-- The field of R121: `len` bits of a from `pos` up, zeros from beyond bit 31, sign-extended under .i32. -/
def fieldRef (signed : Bool) (a b c : Word) : Word :=
  let pos := (b.extractLsb' 0 5).toNat
  let len := min (c.extractLsb' 0 6).toNat 32
  let f := a >>> pos &&& ~~~(BitVec.allOnes 32 <<< len)
  if signed = true ∧ 0 < len ∧ len < 32 ∧ f.getLsbD (len - 1) = true then f ||| BitVec.allOnes 32 <<< len else f

/-- One bits, and leading zero bits, of an n-bit value. -/
def onesOf {n : Nat} (x : BitVec n) : Nat := (List.range n).countP fun i => x.getLsbD i
def zerosAbove {n : Nat} (x : BitVec n) : Nat := ((List.range n).takeWhile fun i => !x.getLsbD (n - 1 - i)).length

/-- A scalar W-R row: register numbers for fields, d written and a read, and b where it has two sources (R87). -/
def wsRow (i : Instr) (f : LFields) (g : LFields → Strand → Mask → Strand) : OnceRow :=
  { sp := rowOf i, f := f, len := 4, effect := becomes (g f) }
def sRow (i : Instr) (f : LFields) (g : Strand → Mask → Strand) : OnceRow :=
  { sp := rowOf i, f := f, len := 8, effect := becomes g }

def addRef (f : LFields) : Strand → Mask → Strand := binRef f (· + ·) (· + ·)
def subRef (f : LFields) : Strand → Mask → Strand := binRef f (· - ·) (· - ·)
def andRef (f : LFields) : Strand → Mask → Strand := binRef f (· &&& ·) (· &&& ·)
def orRef (f : LFields) : Strand → Mask → Strand := binRef f (· ||| ·) (· ||| ·)
def xorRef (f : LFields) : Strand → Mask → Strand := binRef f (· ^^^ ·) (· ^^^ ·)
def shlRef (f : LFields) : Strand → Mask → Strand := shiftRef f (· <<< ·) (· <<< ·)
def shrRef (f : LFields) : Strand → Mask → Strand := shiftRef f (· >>> ·) (· >>> ·)
def cmpRef (f : LFields) (st : Strand) (_ : Mask) : Strand :=
  st.sset (f.d.toNat - 0x80) (if (if f.m3 = 7 then holds false f.c.toNat (st.sval64 f.a.toNat) (st.sval64 f.b.toNat)
    else holds (f.m3 == 0) f.c.toNat (st.sval f.a.toNat) (st.sval f.b.toNat)) then 1 else 0)
/-- SMOV (R122): a vector source gives the slot of the lowest active, admitted thread. -/
def movRef (f : LFields) (st : Strand) (m : Mask) : Strand :=
  if f.a.toNat < 128 then
    outRef f (st.vget f.a.toNat (mLow m)) (st.vget (f.a.toNat + 1) (mLow m) ++ st.vget f.a.toNat (mLow m)) st
  else outRef f (st.sval f.a.toNat) (st.sval64 f.a.toNat) st

/-- SMOVI (R123). -/
def moviRef (f : LFields) (st : Strand) (_ : Mask) : Strand :=
  let n := f.d.toNat - 0x80
  if f.m3 = 0 then st.sset n ((imm16 f).signExtend 32)
  else if f.m3 = 1 then st.sset n ((imm16 f).zeroExtend 32)
  else if f.m3 = 2 then st.sset n (imm16 f ++ (st.sget n).truncate 16)
  else st.sset64 n ((imm16 f).signExtend 64)
/-- SSEL, SBFE, SPOPC and SCLZ (R119, R121). -/
def selRef (f : LFields) (st : Strand) (_ : Mask) : Strand :=
  if st.sval f.c.toNat ≠ 0 then outRef f (st.sval f.a.toNat) (st.sval64 f.a.toNat) st
  else outRef f (st.sval f.b.toNat) (st.sval64 f.b.toNat) st
def bfeRef (f : LFields) (st : Strand) (_ : Mask) : Strand :=
  st.sset (f.d.toNat - 0x80) (fieldRef (f.m3 = 0) (st.sval f.a.toNat) (st.sval f.b.toNat) (st.sval f.c.toNat))
def popcRef (f : LFields) (st : Strand) (_ : Mask) : Strand :=
  st.sset (f.d.toNat - 0x80)
    (BitVec.ofNat 32 (if f.m3 = 7 then onesOf (st.sval64 f.a.toNat) else onesOf (st.sval f.a.toNat)))
def clzRef (f : LFields) (st : Strand) (_ : Mask) : Strand :=
  st.sset (f.d.toNat - 0x80)
    (BitVec.ofNat 32 (if f.m3 = 7 then zerosAbove (st.sval64 f.a.toNat) else zerosAbove (st.sval f.a.toNat)))
/-- SMOVI, SADDI and SMOVHI of R88. -/
def moviWRef (r : WIFields) (st : Strand) (_ : Mask) : Strand := st.sset r.d5.toNat (r.imm.signExtend 32)
def addiRef (r : WIFields) (st : Strand) (_ : Mask) : Strand :=
  st.sset r.d5.toNat (st.sget r.d5.toNat + r.imm.signExtend 32)
def movhiRef (r : WIFields) (st : Strand) (_ : Mask) : Strand :=
  st.sset r.d5.toNat (r.imm.truncate 16 ++ (st.sget r.d5.toNat).truncate 16)

/-- The scalar integer instructions and the scalar moves (R119 to R123) with their W forms (R87, R88). -/
def scalarRow : Instr → Option OnceRow
  | .sadd f => some (sRow (.sadd f) f (addRef f))
  | .ssub f => some (sRow (.ssub f) f (subRef f))
  | .smul f => some (sRow (.smul f) f (binRef f (· * ·) (· * ·)))
  | .smulh f => some (sRow (.smulh f) f (typedRef f highProduct))
  | .sand f => some (sRow (.sand f) f (andRef f))
  | .sor f => some (sRow (.sor f) f (orRef f))
  | .sxor f => some (sRow (.sxor f) f (xorRef f))
  | .sshl f => some (sRow (.sshl f) f (shlRef f))
  | .sshr f => some (sRow (.sshr f) f (shrRef f))
  | .ssra f => some (sRow (.ssra f) f (shiftRef f (·.sshiftRight ·) (·.sshiftRight ·)))
  | .smin f => some (sRow (.smin f) f (typedRef f lesser))
  | .smax f => some (sRow (.smax f) f (typedRef f greater))
  | .smov f => some (sRow (.smov f) f (movRef f))
  | .smovi f => some (sRow (.smovi f) f (moviRef f))
  | .scmp f => some (sRow (.scmp f) f (cmpRef f))
  | .ssel f => some (sRow (.ssel f) f (selRef f))
  | .sbfe f => some (sRow (.sbfe f) f (bfeRef f))
  | .spopc f => some (sRow (.spopc f) f (popcRef f))
  | .sclz f => some (sRow (.sclz f) f (clzRef f))
  | .saddW r => some (wsRow (.sadd (WRFields.scal r 0 true)) (WRFields.scal r 0 true) addRef)
  | .ssubW r => some (wsRow (.ssub (WRFields.scal r 0 true)) (WRFields.scal r 0 true) subRef)
  | .smovW r => some (wsRow (.smov (WRFields.scal r 0 false)) (WRFields.scal r 0 false) movRef)
  | .scmpW r => some (wsRow (.scmp (WRFields.scal r 0 true)) (WRFields.scal r 0 true) cmpRef)
  | .sandW r => some (wsRow (.sand (WRFields.scal r 6 true)) (WRFields.scal r 6 true) andRef)
  | .sorW r => some (wsRow (.sor (WRFields.scal r 6 true)) (WRFields.scal r 6 true) orRef)
  | .sshlW r => some (wsRow (.sshl (WRFields.scal r 6 true)) (WRFields.scal r 6 true) shlRef)
  | .sshrW r => some (wsRow (.sshr (WRFields.scal r 6 true)) (WRFields.scal r 6 true) shrRef)
  | .smoviW r => some (wsRow (.smovi (WIFields.scal r 0)) (WIFields.scal r 0) fun _ => moviWRef r)
  | .saddi r => some { wsRow (.smovi (WIFields.scal r 0)) (WIFields.scal r 0) (fun _ => addiRef r) with
      sp := specS1 1 (WIFields.scal r 0) }
  | .smovhi r => some (wsRow (.smovi (WIFields.scal r 2)) (WIFields.scal r 2) fun _ => movhiRef r)
  | _ => none

/-! Predicates (R132 to R135): d's bit of every thread executed for, and no other bit; q0 is not written. -/

/-- q d holds `val t` in each thread of m and is unchanged elsewhere; nothing else of the strand differs. -/
structure BitsResult (d : Nat) (m : Mask) (val : Nat → Bool) (st u : Strand) : Prop where
  written : ∀ t, t < 16 → mHas m t = true → d ≠ 0 → mHas (u.qget d) t = val t
  kept : ∀ k t, t < 16 → (mHas m t = false ∨ k ≠ d) → mHas (u.qget k) t = mHas (st.qget k) t
  rest : u = { st with q := u.q }

def bitsRow (i : Instr) (f : LFields) (val : Strand → Mask → Nat → Bool) : OnceRow :=
  { sp := rowOf i, f := f, len := 8, effect := fun _ st m u => BitsResult f.d.toNat m (val st m) st u }

/-- Bit t of a source predicate, inverted where the bit of m3 is set. -/
def Strand.qbit (st : Strand) (f : LFields) (k x t : Nat) : Bool := mHas (st.qget x) t ^^ f.m3.getLsbD k

/-- QTOS (R134): the bits of every thread, or under .act of the threads executed for. -/
def qtosRef (f : LFields) (st : Strand) (m : Mask) : Strand :=
  st.sset (f.d.toNat - 0x80) ((st.qget f.a.toNat &&& if f.m3 = 1 then m else 0xFFFF).zeroExtend 32)

def predRow : Instr → Option OnceRow
  | .qand f => some (bitsRow (.qand f) f fun st _ t => (st.qbit f 0 f.a.toNat t && st.qbit f 1 f.b.toNat t) ^^ f.m3.getLsbD 2)
  | .qor f => some (bitsRow (.qor f) f fun st _ t => (st.qbit f 0 f.a.toNat t || st.qbit f 1 f.b.toNat t) ^^ f.m3.getLsbD 2)
  | .qxor f => some (bitsRow (.qxor f) f fun st _ t => (st.qbit f 0 f.a.toNat t ^^ st.qbit f 1 f.b.toNat t) ^^ f.m3.getLsbD 2)
  | .stoq f => some (bitsRow (.stoq f) f fun st _ t => (st.sval f.a.toNat).getLsbD t)
  | .qtos f => some (sRow (.qtos f) f (qtosRef f))
  | _ => none

/-! The numeric environment, the index registers and the parameter block (R124 to R128). -/

/-- x k receives `val t` in each thread of m; nothing else of the strand differs but the time at which it may be read. -/
structure IndexResult (k : Nat) (m : Mask) (val : Nat → BitVec 16) (st u : Strand) : Prop where
  written : ∀ t, t < 16 → mHas m t = true → u.xget k t = val t
  kept : ∀ j t, t < 16 → (mHas m t = false ∨ j ≠ k) → u.xget j t = st.xget j t
  rest : u = { st with x := u.x }

/-- Thread t's 16 bits of XSET's source (R128). -/
def Strand.indexSource (st : Strand) (f : LFields) (t : Nat) : BitVec 16 :=
  (if f.a.toNat < 128 then st.vget f.a.toNat t else st.sval f.a.toNat).truncate 16

/-- The bytes of SLDK's access, and its offset (R124). -/
def sldkBytes (f : LFields) : Nat := if f.m3 = 7 then 8 else 4
def Strand.sldkOffset (st : Strand) (f : LFields) : Nat := (st.sval f.a.toNat + (imm16 f).zeroExtend 32).toNat

/-- SLDK: the bytes of the parameter block from the offset on, zero beyond its end. -/
def sldkRef (f : LFields) (s : State) (st u : Strand) : Prop :=
  ∃ x : DWord, (∀ j, j < sldkBytes f → x.extractLsb' (8 * j) 8 =
    nth 0 ((s.kernelOf st).elim [] Kernel.params) (st.sldkOffset f + j)) ∧ u = outRef f (x.truncate 32) x st

/-- SETFMT (R125), GETFMT (R126) and XWIN (R127). -/
def setfmtRef (f : LFields) (st : Strand) (_ : Mask) : Strand :=
  { st with
    fmt := if f.m3 = 0 then st.sval f.a.toNat else st.fmt.extractLsb' 4 28 ++ (st.sval f.a.toNat).extractLsb' 0 4 }
def getfmtRef (f : LFields) (st : Strand) (_ : Mask) : Strand :=
  st.sset (f.d.toNat - 0x80) ((st.fmt.extractLsb' 0 22).zeroExtend 32)
def windowRef (f : LFields) (st u : Strand) : Prop :=
  cget u.xbase f.d.toNat = (st.sval f.a.toNat).truncate 7 ∧ cget u.xsize f.d.toNat = (st.sval f.b.toNat).truncate 8 ∧
    (∀ k, k ≠ f.d.toNat → cget u.xbase k = cget st.xbase k ∧ cget u.xsize k = cget st.xsize k) ∧
    u = { st with xbase := u.xbase, xsize := u.xsize }

def envRow : Instr → Option OnceRow
  | .setfmt f => some
      { sp := rowOf (.setfmt f), f := f, len := 8, pre := fun _ => setfmtPre f,
        effect := becomes (setfmtRef f) }
  | .getfmt f => some (sRow (.getfmt f) f (getfmtRef f))
  | .xwin f => some
      { sp := rowOf (.xwin f), f := f, len := 8, pre := fun _ => xwinPre f,
        effect := fun _ st _ u => windowRef f st u }
  | .xset f => some
      { sp := rowOf (.xset f), f := f, len := 8,
        effect := fun _ st m u => IndexResult f.d.toNat m
          (fun t => if f.m3 = 0 then st.indexSource f t else st.xget f.d.toNat t + st.indexSource f t) st u }
  | .sldk f => some
      { sp := rowOf (.sldk f), f := f, len := 8, ok := fun _ st _ => st.sldkOffset f % sldkBytes f = 0,
        effect := fun s st _ u => sldkRef f s st u }
  | _ => none

/-! Scalar floating point (R130, R131): the value and the flags are those of the number rules. -/

/-- A source of a scalar floating-point instruction: the format's low bits of a register, or an inline constant (R28, R94). -/
def Strand.fpArg (st : Strand) (f : LFields) (x : Nat) : Nat :=
  if x < 0xC0 then (fpFmt f.m3.toNat).slot (st.sget (x - 0x80)).toNat else constFp (fpFmt f.m3.toNat) x

/-- d receives the result's pattern and STS its flags. -/
def fpOut (f : LFields) (r : FRes) (st : Strand) : Strand :=
  (st.sset (f.d.toNat - 0x80) (BitVec.ofNat 32 r.bits)).addFlags r.flags

/-- SFADD, SFMUL, SFFMA and SFCVT (R130, R131). -/
def faddRef (f : LFields) (st : Strand) (_ : Mask) : Strand :=
  fpOut f (fpAdd (fpFmt f.m3.toNat) (FEnv.ofFmt st.fmt) (st.fpArg f f.a.toNat) (st.fpArg f f.b.toNat)) st
def fmulRef (f : LFields) (st : Strand) (_ : Mask) : Strand :=
  fpOut f (fpMul (fpFmt f.m3.toNat) (FEnv.ofFmt st.fmt) (st.fpArg f f.a.toNat) (st.fpArg f f.b.toNat)) st
def ffmaRef (f : LFields) (st : Strand) (_ : Mask) : Strand :=
  fpOut f (fpFma (fpFmt f.m3.toNat) (FEnv.ofFmt st.fmt) (st.fpArg f f.a.toNat) (st.fpArg f f.b.toNat)
    (st.fpArg f f.c.toNat)) st
def fcvtRef (f : LFields) (st : Strand) (_ : Mask) : Strand :=
  let env : FEnv := { FEnv.ofFmt st.fmt with rm := if f.w = 1 then RMode.ofBits f.h else (FEnv.ofFmt st.fmt).rm }
  let a := if f.a.toNat < 0xC0 then st.sget (f.a.toNat - 0x80) else nth 0 (constVal f.a.toNat (cvtTy f.c.toNat)) 0
  let r := convert f.m3.toNat f.c.toNat env a
  (st.sset (f.d.toNat - 0x80) r.1).addFlags r.2

def scalarFpRow : Instr → Option OnceRow
  | .sfadd f => some (sRow (.sfadd f) f (faddRef f))
  | .sfmul f => some (sRow (.sfmul f) f (fmulRef f))
  | .sffma f => some (sRow (.sffma f) f (ffmaRef f))
  | .sfcvt f => some (sRow (.sfcvt f) f (fcvtRef f))
  | _ => none

/-! The cross-thread instructions (R179 to R185): every source is read before any destination is written. -/

/-- Registers d, d + 1, ... hold `val t` in each thread of m and are unchanged elsewhere, and nothing else differs. -/
structure SlotsResult (d n : Nat) (m : Mask) (val : Nat → Nat → Word) (st u : Strand) : Prop where
  written : ∀ t j, t < 16 → mHas m t = true → j < n → u.vget (d + j) t = val t j
  kept : ∀ k t, t < 16 → (mHas m t = false ∨ k < d ∨ d + n ≤ k) → u.vget k t = st.vget k t
  rest : u = { st with v := u.v }

/-- Words of a cross-thread operand: one, or two under .b64. -/
def crossLen (f : LFields) : Nat := if f.m3 = 7 then 2 else 1
/-- Word j of thread t's operand a, and b. -/
def Strand.crossA (st : Strand) (f : LFields) (t j : Nat) : Word :=
  if f.a.toNat < 128 then st.vget (f.a.toNat + j) t
  else if f.a.toNat < 192 then st.sget (f.a.toNat - 128 + j)
  else nth 0 (constVal f.a.toNat (if f.m3 = 7 then .b64 else .i32)) j
def Strand.crossB (st : Strand) (f : LFields) (t : Nat) : Word :=
  if f.b.toNat < 128 then st.vget f.b.toNat t else st.sval f.b.toNat

def shuffleRow (i : Instr) (f : LFields) (len : Nat) (src : Nat → Word → Nat) : OnceRow :=
  { sp := rowOf i, f := f, len := len,
    effect := fun _ st m u => SlotsResult f.d.toNat (crossLen f) m (fun t j => st.crossA f (src t (st.crossB f t)) j) st u }

/-- The inclusive prefixes of R181 over the threads of m: the lowest takes its own value, and each next one combines the
previous one's with its own (R47). -/
def Prefixes (ty op : Nat) (env : FEnv) (m : Mask) (x p : Nat → Word) : Prop :=
  (∀ t, mHas m t = true → t = mLow m → p t = scanFirst ty env (x t)) ∧
  ∀ t v, t < v → mHas m t = true → mHas m v = true → (∀ w, t < w → w < v → mHas m w = false) →
    p v = (scanStep ty op env (p t) (x v)).1

/-- The flags of the steps (R35, R47). -/
def PrefixFlags (ty op : Nat) (env : FEnv) (m : Mask) (x p : Nat → Word) (st u : Strand) : Prop :=
  ∀ k, u.sts.getLsbD k = true ↔ st.sts.getLsbD k = true ∨
    ∃ t v, t < v ∧ mHas m t = true ∧ mHas m v = true ∧ (∀ w, t < w → w < v → mHas m w = false) ∧
      ((scanStep ty op env (p t) (x v)).2.zeroExtend 32 : Word).getLsbD k = true

/-- Thread t's value in SCAN and REDS: the low half alone for .f16 and .bf16 (R28). -/
def Strand.scanArg (st : Strand) (f : LFields) (t : Nat) : Word :=
  let ty := f.c.toNat / 16
  let x := if f.a.toNat < 128 then st.vget f.a.toNat t
    else if f.a.toNat < 192 then st.sget (f.a.toNat - 128) else nth 0 (constVal f.a.toNat (scanTy ty)) 0
  if ty = 5 ∨ ty = 6 then x &&& 0xFFFF else x

/-- The thread of m before t. -/
def mBefore (m : Mask) (t : Nat) : Option Nat := ((List.range t).filter (mHas m)).getLast?
/-- The highest thread of m. -/
def mHigh (m : Mask) : Nat := (((List.range 16).filter (mHas m)).getLast?).getD 0

def scanSays (f : LFields) (_ : State) (st : Strand) (m : Mask) (u : Strand) : Prop :=
  let ty := f.c.toNat / 16
  let op := f.c.toNat % 8
  let env := FEnv.ofFmt st.fmt
  ∃ p, Prefixes ty op env m (st.scanArg f) p ∧
    SlotsResult f.d.toNat 1 m (fun t _ => if f.c.getLsbD 3 then
      match mBefore m t with
      | some v => p v
      | none => scanIdentity ty op
      else p t) st { u with sts := st.sts } ∧
    PrefixFlags ty op env m (st.scanArg f) p st u

/-- A word goes to d's register in every thread of m, or to the scalar d once. -/
def WordResult (f : LFields) (m : Mask) (x : Word) (st u : Strand) : Prop :=
  if f.d.toNat < 128 then SlotsResult f.d.toNat 1 m (fun _ _ => x) st u
  else u = st.sset (f.d.toNat - 128) x

def redsSays (f : LFields) (_ : State) (st : Strand) (m : Mask) (u : Strand) : Prop :=
  let ty := f.c.toNat / 16
  let op := f.c.toNat % 8
  let env := FEnv.ofFmt st.fmt
  ∃ p, Prefixes ty op env m (st.scanArg f) p ∧ WordResult f m (p (mHigh m)) st { u with sts := st.sts } ∧
    PrefixFlags ty op env m (st.scanArg f) p st u

/-- VOTE (R182) over the bits of q a in the threads of m. -/
def voteSays (f : LFields) (_ : State) (st : Strand) (m : Mask) (u : Strand) : Prop :=
  let q (t : Nat) : Bool := mHas (st.qget f.a.toNat) t
  if f.m3 = 3 then WordResult f m ((st.qget f.a.toNat &&& m).zeroExtend 32) st u
  else ∃ b : Bool, BitsResult f.d.toNat m (fun _ => b) st u ∧
    (f.m3 = 0 → (b = true ↔ ∃ t, t < 16 ∧ mHas m t = true ∧ q t = true)) ∧
    (f.m3 = 1 → (b = true ↔ ∀ t, t < 16 → mHas m t = true → q t = true)) ∧
    (f.m3 = 2 → (b = true ↔ ∀ t v, t < 16 → v < 16 → mHas m t = true → mHas m v = true → q t = q v))

/-- MATCH (R183): bit v of thread t's word tells that v contributes and its operand is t's. -/
def matchSays (f : LFields) (_ : State) (st : Strand) (m : Mask) (u : Strand) : Prop :=
  ∃ x : Nat → Word, SlotsResult f.d.toNat 1 m (fun t _ => x t) st u ∧
    ∀ t v, t < 16 → v < 32 → ((x t).getLsbD v = true ↔
      v < 16 ∧ mHas m v = true ∧ ∀ j, j < crossLen f → st.crossA f v j = st.crossA f t j)

/-- Element e's slot of thread t after LACE (R184, R185): the slot that the table names, as it stood before. -/
def Strand.laced (st : Strand) (f : LFields) (tab : Nat → Byte) (e t : Nat) : Word :=
  let ent := tab (16 * e + t)
  let sel := (ent.extractLsb' 4 3).toNat
  if ent.getLsbD 7 = true ∨ blockLen f ≤ sel then 0
  else st.vget (f.a.toNat + blockOff f sel) (ent.extractLsb' 0 4).toNat

/-- LACE: every element's slots in the threads that remain, and no other slot. -/
def laceSays (f : LFields) (s : State) (st : Strand) (m : Mask) (u : Strand) : Prop :=
  let tab (k : Nat) : Byte := cget (s.core st.d st.k).lace (128 * f.c.toNat + k)
  (∀ e t, e < blockLen f → t < 16 → mHas (elemMask st.resume m e) t = true →
    u.vget (f.d.toNat + blockOff f e) t = st.laced f tab e t) ∧
  (∀ k t, t < 16 → (∀ e, e < blockLen f → mHas (elemMask st.resume m e) t = true → k ≠ f.d.toNat + blockOff f e) →
    u.vget k t = st.vget k t) ∧
  u = { st with v := u.v }

def crossRow : Instr → Option OnceRow
  | .shfl f => some (shuffleRow (.shfl f) f 8 fun _ b => (b.extractLsb' 0 4).toNat)
  | .shflx f => some (shuffleRow (.shflx f) f 8 fun t b => (BitVec.ofNat 4 t ^^^ b.extractLsb' 0 4).toNat)
  | .shfld f => some (shuffleRow (.shfld f) f 8 fun t b =>
      if t + (b.extractLsb' 0 5).toNat ≤ 15 then t + (b.extractLsb' 0 5).toNat else t)
  | .shflu f => some (shuffleRow (.shflu f) f 8 fun t b =>
      if (b.extractLsb' 0 5).toNat ≤ t then t - (b.extractLsb' 0 5).toNat else t)
  | .bcast f => some (shuffleRow (.bcast f) f 8 fun _ b => (b.extractLsb' 0 4).toNat)
  | .shflW r => some (shuffleRow (.shfl (WRFields.toM r 6)) (WRFields.toM r 6) 4 fun _ b => (b.extractLsb' 0 4).toNat)
  | .shflxW r => some (shuffleRow (.shflx (WRFields.toM r 6)) (WRFields.toM r 6) 4 fun t b => (BitVec.ofNat 4 t ^^^ b.extractLsb' 0 4).toNat)
  | .scan f => some { sp := rowOf (.scan f), f := f, len := 8, effect := scanSays f }
  | .reds f => some { sp := rowOf (.reds f), f := f, len := 8, effect := redsSays f }
  | .vote f => some { sp := rowOf (.vote f), f := f, len := 8, effect := voteSays f }
  | .matchT f => some { sp := rowOf (.matchT f), f := f, len := 8, effect := matchSays f }
  | .lace f => some { sp := rowOf (.lace f), f := f, len := 8, pre := tablePre, effect := laceSays f }
  | _ => none

/-- What the strand-once instructions share: an instruction that passes its checks and its entry's conditions answers a
state in which only its strand and its lane's run differ, and the strand is as its entry says, behind the instruction; with
no active thread admitted nothing but the pc differs (R95). -/
def OnceSays (row : Instr → Option OnceRow) : Prop :=
  ∀ i r s id st, row i = some r → Passes i r.sp r.f (r.pre s) s id st →
    (st.nowAdm r.sp r.f ≠ 0 → r.ok s st (st.nowAdm r.sp r.f)) →
    ∃ t u, exec i s = .next t ∧
      (st.nowAdm r.sp r.f = 0 → u = st) ∧ (st.nowAdm r.sp r.f ≠ 0 → r.effect s st (st.nowAdm r.sp r.f) u) ∧
      Ends s t id st u r.len none (r.f.e == 1) false

end Sys2Proof.Machine
end

