-- ==== Sys2Proof/Safety/Control.lean ====
section
/-! DEFINITION. What the rules of the control family do to a strand (R65 to R70, R136 to R151), written from the rules:
where the strand stands after each instruction, and what taking a trap leaves (R270, R275). -/

namespace Sys2Proof.Machine

/-- The instruction of strand `st` has ended and the strand stands as `v`: `Ends` with the place given. -/
structure Stands (s t : State) (id : Nat) (st v : Strand) (e ends : Bool) : Prop where
  only : OnlyStrand s t id
  strand : ∃ w, t.strand id = some (s.settle w) ∧
    w.plain = ({ v with sts := st.endSts e ends v.sts } : Strand).plain ∧
    w.run = if st.runEnds e ends then .ready else v.run

/-- A control instruction: its row, its fields as an L instruction, its length, the checks of its own entry, whether it ends
the run, what its entry asks of the strand, and where the strand stands behind it when there are threads for which it executes. -/
structure ControlRow where
  sp : OpSpec
  f : LFields
  len : Nat
  pre : Strand → Mask → Option Nat := noPre
  ends : Bool := false
  ok : Strand → Mask → Prop := fun _ _ => True
  goes : Strand → Mask → Strand

/-- The next instruction of a strand. -/
def Strand.past (st : Strand) (len : Nat) : DWord := st.pc + BitVec.ofNat 64 len
/-- The target of off24 (R136). -/
def Strand.ahead24 (st : Strand) (f : LFields) : DWord := st.pc + 2 * (f.c ++ f.b ++ f.a).signExtend 64
/-- The strand goes on elsewhere. -/
def Strand.goTo (st : Strand) (pc : DWord) : Strand := { st with pc := pc, resume := none }
/-- The threads of m, for which DIV executes, that its condition admits, and the other active threads (R76, R141). -/
def Strand.taken (st : Strand) (f : LFields) (m : Mask) : Mask :=
  m &&& (if f.gn = 1 then ~~~st.qget f.g6.toNat else st.qget f.g6.toNat)
def Strand.notTaken (st : Strand) (f : LFields) (m : Mask) : Mask := st.mask &&& ~~~st.taken f m

/-- The paths of a DIV that diverges, the one with the lowest-numbered thread first (R66, R141). -/
def Strand.divPaths (st : Strand) (f : LFields) (len : Nat) (m : Mask) : List (DWord × Mask) :=
  if mLow (st.taken f m) < mLow (st.notTaken f m) then [(st.ahead24 f, st.taken f m), (st.past len, st.notTaken f m)]
  else [(st.past len, st.notTaken f m), (st.ahead24 f, st.taken f m)]

/-- The strand on the first path of a divergence (R143). -/
def Strand.parted (st : Strand) (paths : List (DWord × Mask)) : Strand :=
  match st.diverge paths with
  | some r => { r with resume := none }
  | none => st

/-- DIV (R140, R141). -/
def Strand.divGoes (st : Strand) (f : LFields) (len : Nat) (m : Mask) : Strand :=
  if st.taken f m = 0 then ({ st with rpcv := false } : Strand).advance len none
  else if st.taken f m = st.mask then ({ st with rpcv := false } : Strand).goTo (st.ahead24 f)
  else st.parted (st.divPaths f len m)

/-- BRX (R142): a pair's address, or the paths of the distinct targets. -/
def Strand.brxGoes (st : Strand) (f : LFields) (m : Mask) : Strand :=
  if 128 ≤ f.a.toNat then st.goTo (st.sget64 (f.a.toNat - 128))
  else match brxPaths st m f.a.toNat with
    | [p] => ({ st with rpcv := false } : Strand).goTo p.1
    | ps => st.parted ps

/-- A register's address is a target (R138). -/
def goodTarget (t : DWord) : Prop := t.toNat < 2 ^ 48 ∧ t.toNat % 2 = 0

/-- What BRX asks: a good address, or even offsets and, where it diverges, room on the stack (R138, R142, R143). -/
def Strand.brxOk (st : Strand) (f : LFields) (m : Mask) : Prop :=
  if 128 ≤ f.a.toNat then goodTarget (st.sget64 (f.a.toNat - 128))
  else (∀ p, p ∈ brxPaths st m f.a.toNat → p.1.toNat % 2 = 0) ∧
    ((brxPaths st m f.a.toNat).length ≠ 1 → (st.diverge (brxPaths st m f.a.toNat)).isSome = true)

/-- What DIV asks: where it diverges, room on the stack (R143). -/
def Strand.divOk (st : Strand) (f : LFields) (len : Nat) (m : Mask) : Prop :=
  st.taken f m ≠ 0 → st.taken f m ≠ st.mask → (st.diverge (st.divPaths f len m)).isSome = true

def braRow (i : Instr) (f : LFields) (len : Nat) : ControlRow :=
  { sp := rowOf i, f := f, len := len, goes := fun st _ => st.goTo (st.ahead24 f) }
def rcvRow (i : Instr) (f : LFields) (len : Nat) : ControlRow :=
  { sp := rowOf i, f := f, len := len,
    goes := fun st _ => ({ st with rpc := st.ahead24 f, rpcv := true } : Strand).advance len none }
def divRow (i : Instr) (f : LFields) (len : Nat) : ControlRow :=
  { sp := rowOf i, f := f, len := len, pre := divPre f, ok := fun st m => st.divOk f len m, goes := fun st m => st.divGoes f len m }
def callRow (i : Instr) (f : LFields) (len : Nat) : ControlRow :=
  { sp := rowOf i, f := f, len := len,
    goes := fun st _ => (st.sset64 (f.d.toNat - 128) (st.past len)).goTo (st.ahead24 f) }
def loopRow (i : Instr) (f : LFields) (len : Nat) : ControlRow :=
  { sp := rowOf i, f := f, len := len,
    goes := fun st _ =>
      let u := st.sset (f.d.toNat - 128) (st.sget (f.d.toNat - 128) - 1)
      if st.sget (f.d.toNat - 128) - 1 = 0 then u.advance len none else u.goTo (st.ahead24 f) }

/-- The fields of a W-B instruction as the L instruction that R89 names: its offset is imm18 in halfwords, d5 the guard or the
condition of BRA and DIV, and the counter of LOOP. -/
def wbJump (r : WIFields) : LFields :=
  { WIFields.toL r with
    a := (r.imm.signExtend 24).extractLsb' 0 8, b := (r.imm.signExtend 24).extractLsb' 8 8,
    c := (r.imm.signExtend 24).extractLsb' 16 8 }
def wbGuard (r : WIFields) : LFields := { wbJump r with g6 := r.d5.zeroExtend 6 }
def wbLoop (r : WIFields) : LFields := { wbJump r with d := sReg8 r.d5 }
def wbCall (r : WIFields) : LFields := { wbJump r with d := 128 + 62 }
/-- The fields of the YIELD of W-B, whose E stands in the word that was fetched (R85). -/
def wbYield (s : State) : LFields := { bareFields s.curIr with s4 := 0 }

/-- The control instructions that leave the strand with its threads (R139 to R149), and their W-B forms (R89). -/
def controlRow (s : State) : Instr → Option ControlRow
  | .bra f => some (braRow (.bra f) f 8)
  | .rcv f => some (rcvRow (.rcv f) f 8)
  | .divT f => some (divRow (.divT f) f 8)
  | .call f => some (callRow (.call f) f 8)
  | .loop f => some (loopRow (.loop f) f 8)
  | .brx f => some
      { sp := rowOf (.brx f), f := f, len := 8, pre := brxPre f, ok := fun st m => st.brxOk f m, goes := fun st m => st.brxGoes f m }
  | .ret f => some
      { sp := rowOf (.ret f), f := f, len := 8, ok := fun st _ => goodTarget (st.sget64 (f.a.toNat - 128)),
        goes := fun st _ => st.goTo (st.sget64 (f.a.toNat - 128)) }
  | .nop f => some { sp := rowOf (.nop f), f := f, len := 8, goes := fun st _ => st.advance 8 none }
  | .yield f => some { sp := rowOf (.yield f), f := f, len := 8, ends := true, goes := fun st _ => st.advance 8 none }
  | .braW r => some (braRow (.bra (wbGuard r)) (wbGuard r) 4)
  | .rcvW r => some (rcvRow (.rcv (wbJump r)) (wbJump r) 4)
  | .divW r => some (divRow (.divT (wbGuard r)) (wbGuard r) 4)
  | .callW r => some (callRow (.call (wbCall r)) (wbCall r) 4)
  | .loopW r => some (loopRow (.loop (wbLoop r)) (wbLoop r) 4)
  | .yieldW => some
      { sp := rowOf (.yield (wbYield s)), f := wbYield s, len := 4, ends := true, goes := fun st _ => st.advance 4 none }
  | _ => none

/-- What those instructions share: one that passes its checks and its entry's conditions answers a state in which only its
strand and its lane's run differ, and the strand stands where its entry says; where no active thread is admitted nothing but
the pc differs (R95). -/
def ControlSays : Prop :=
  ∀ i r s id st, controlRow s i = some r → Passes i r.sp r.f r.pre s id st →
    (st.nowAdm r.sp r.f ≠ 0 → r.ok st (st.nowAdm r.sp r.f)) →
    ∃ t, exec i s = .next t ∧
      Stands s t id st (if st.nowAdm r.sp r.f = 0 then st.advance r.len none else r.goes st (st.nowAdm r.sp r.f)) (r.f.e == 1) r.ends

/-! Divergence and reconvergence. -/

/-- The paths that run, and the threads that arrive at once (R143). -/
def Strand.runs (st : Strand) (paths : List (DWord × Mask)) : List (DWord × Mask) := paths.filter fun p => p.1 != st.rpc
/-- The divergence joins the innermost closing record (R144). -/
def Strand.joins (st : Strand) : Bool := innerRpc st.stack == some st.rpc
/-- Stack entries after a divergence into these paths (R143, R144). -/
def Strand.depthAfter (st : Strand) (paths : List (DWord × Mask)) : Nat :=
  st.stack.length + ((st.runs paths).length - 1) + if st.joins then 0 else 1

/-- The fmt that every path of a divergence starts with (R68, R144). -/
def Strand.pathFmt (st : Strand) : Word :=
  match (splitStack st.stack).2.1 with
  | some (.closing rpc fmt _ _) => if rpc = st.rpc then fmt else st.fmt
  | _ => st.fmt

/-! EXIT (R70, R148). -/

/-- Threads leave the active mask and every stack entry. -/
def Strand.without (st : Strand) (m : Mask) : Strand :=
  { st with mask := st.mask &&& ~~~m, stack := st.stack.map fun e => e.remove m }

/-- A strand with no thread left: it has left its groups and its handler, and it is Exited where no operation of it is in
flight (R70, R309). -/
structure Gone (st w : Strand) : Prop where
  mask : w.mask = 0
  frame : w.frame = none
  groups : ∀ k, k < 4 → nth none w.slots k = none
  done : st.ops = [] → st.loc.isSome = true → w.run = .exited ∧ w.loc = none
  waits : st.ops ≠ [] → w.run = .draining ∧ w.loc = st.loc
  scalars : w.s = st.s ∧ w.q = st.q ∧ w.x = st.x ∧ w.ops = st.ops ∧ w.c = st.c

/-- EXIT and its W-B form. -/
def exitRow : Instr → Option (LFields × Nat)
  | .exit f => some (f, 8)
  | .exitW r => some ({ WIFields.toL r with g6 := r.d5.zeroExtend 6 }, 4)
  | _ => none

/-- The threads that EXIT admits leave, and the strand stands behind it with the others or at the path that runs next; with
no thread left it is gone. -/
def ExitSays : Prop :=
  ∀ i f len s id st, exitRow i = some (f, len) → Passes i (rowOf (.exit f)) f noPre s id st →
    ∃ t w, exec i s = .next t ∧
      let v := (st.without (st.nowAdm (rowOf (.exit f)) f)).advance len none
      w.plain = ({ v with sts := st.endSts (f.e == 1) true v.sts } : Strand).plain ∧
      ((s.settle w).mask ≠ 0 → OnlyStrand s t id ∧ t.strand id = some (s.settle w) ∧ w.run = .ready) ∧
      ((s.settle w).mask = 0 → ∃ g, t.strand id = some g ∧ Gone (s.settle w) g ∧
        (st.engErrs = [] → ∀ d c a, t.coreGet d c a = s.coreGet d c a) ∧ ∀ j, j ≠ id → t.strand j = s.strand j)

/-! Traps. -/

/-- SR_CAUSE of a trap that no engine raised: CODE and DETAIL (R270). -/
def causeRef (c : Cause) (detail : Nat) : Word := 0#8 ++ BitVec.ofNat 16 detail ++ BitVec.ofNat 8 c.code

/-- The strand has taken a trap (R275): SR_EPC, SR_EMASK and SR_CAUSE, the frame, and the context's trap vector with bit 0 clear
(R80); RPC is invalid, and neither another strand nor memory differs. -/
structure Trapped (s t : State) (id : Nat) (st : Strand) (c : Cause) (detail : Nat) (emask : Mask) : Prop where
  only : OnlyStrand s t id
  strand : ∃ w fr, t.strand id = some w ∧ w.run = .running ∧
    fr.epc0 = st.pc ∧ fr.emask0 = emask ∧ fr.depth = st.stack.length ∧ fr.rpc = st.rpc ∧ fr.rpcv = st.rpcv ∧
    w.plain = ({ st with
      epc := st.pc, emask := emask.zeroExtend 32, cause := causeRef c detail, frame := some fr, rpcv := false,
      pc := (s.ctx st.ctx).tvec &&& ~~~1#64, resume := none } : Strand).plain

/-- The strand can take a trap: it is outside Handler and its context has a trap vector (R275). -/
def Strand.canTrap (st : Strand) (s : State) : Prop := st.frame = none ∧ (s.ctx st.ctx).tvec ≠ 0

/-- TRAP and BKPT take their trap with imm16 in DETAIL (R150). -/
def TrapSays (mk : LFields → Instr) (c : Cause) : Prop :=
  ∀ f s id st, Passes (mk f) (rowOf (mk f)) f noPre s id st → st.nowAdm (rowOf (mk f)) f ≠ 0 → st.canTrap s →
    ∃ t, exec (mk f) s = .next t ∧
      Trapped s t id st c (f.c ++ f.b).toNat (st.nowAdm (rowOf (mk f)) f)

end Sys2Proof.Machine
end

