-- ==== Sys2Proof/Safety/Access.lean ====
section
/-! DEFINITION. What issuing a counted memory instruction does (R71, R189 to R206): which bytes each thread's access names,
written from the rules, and the operation that the strand then has in flight. -/

namespace Sys2Proof.Machine

/-- A die and a core without what translation caches in them. -/
def Die.uncached (x : Die) : Die := { x.bare with nodeCache := [] }
def Core.uncached (x : Core) : Core := { x.bare with tlb := [] }

/-- Two states differ in nothing but one strand, the run of a lane and the caches of translations (R393). -/
structure OnlyCaches (s t : State) (id : Nat) : Prop where
  mem : ∀ a, cget t.mem a = cget s.mem a
  view : ∀ d c a, t.coreGet d c a = s.coreGet d c a
  strands : ∀ j, j ≠ id → t.strand j = s.strand j
  dies : t.dies.length = s.dies.length ∧ ∀ d, (t.die d).uncached = (s.die d).uncached
  cores : ∀ d c, (t.core d c).uncached = (s.core d c).uncached
  rest : { t with dies := [], strands := [] } = { s with dies := [], strands := [] }

/-- An access of n bytes at a generic address is accepted by its window at an offset (R189 to R191). -/
inductive InWindow (scr : Nat) (k : AKind) (n : Nat) (va : DWord) : Win → Nat → Prop where
  | glob : va.toNat + n ≤ 2 ^ 48 → va.toNat % n = 0 → va.toNat < 2 ^ 48 → InWindow scr k n va .glob va.toNat
  | scr : va.toNat / 2 ^ 48 = 0xFFFE → k ≠ .exact → va.toNat % 2 ^ 48 + n ≤ scr → va.toNat % n = 0 →
      InWindow scr k n va .scr (va.toNat % 2 ^ 48)
  | bsl : va.toNat / 2 ^ 48 = 0xFFFD → k = .read → va.toNat % 2 ^ 48 + n ≤ 2 ^ 20 → va.toNat % n = 0 →
      InWindow scr k n va .bsl (va.toNat % 2 ^ 48)

/-- Thread t's base pointer and index, and the address of R193 for accesses of n bytes. -/
def Strand.baseRef (st : Strand) (f : LFields) (t : Nat) : DWord :=
  if f.a.toNat < 128 then st.vget (f.a.toNat + 1) t ++ st.vget f.a.toNat t else st.sget64 (f.a.toNat - 128)
def Strand.indexRef (st : Strand) (f : LFields) (t : Nat) : DWord :=
  if f.b.toNat < 128 then (st.vget f.b.toNat t).signExtend 64
  else if f.b.toNat < 192 then (st.sget (f.b.toNat - 128)).signExtend 64
  else BitVec.ofNat 64 (f.b.toNat - 192)
def Strand.addressRef (st : Strand) (f : LFields) (n t : Nat) : DWord :=
  st.baseRef f t + st.indexRef f t * BitVec.ofNat 64 n + (f.h ++ f.w).signExtend 64 * BitVec.ofNat 64 n
/-- The address of an exact-sum cell (R204): base plus disp4 in units of 64 bytes. -/
def Strand.cellRef (st : Strand) (f : LFields) (t : Nat) : DWord :=
  st.baseRef f t + (f.h ++ f.w).signExtend 64 * 64

/-- A counted memory instruction: its row, fields and length, its counter, what each thread's access needs and names, the
register that the access reads or writes, its data, and what the operation does when it is performed. -/
structure AccRow where
  sp : OpSpec
  f : LFields
  len : Nat
  path : Nat
  kind : AKind
  need : Nat
  size : Nat
  op : OpKind
  addr : Strand → Nat → DWord
  reg : Strand → Nat → Option Nat := fun _ _ => some 0
  data : Strand → Nat → Nat := fun _ _ => 0
  data2 : Strand → Nat → Nat := fun _ _ => 0
  /-- Only the lowest thread's access is made (R58, R205), and whether its value goes to every thread. -/
  one : Bool
  spread : Bool
  /-- Registers that each access writes. -/
  dests : Nat
  /-- The item becomes committed (R289). -/
  commits : List Acc → Bool := fun _ => false

/-- Thread t's access in state s: the address is accepted by its window, and a global one translates to a physical
address; s1 has the translation cached. -/
structure AccRow.Forms (r : AccRow) (st : Strand) (s : State) (t : Nat) (s1 : State) (a : Acc) : Prop where
  thread : a.thread = t
  va : a.va = (r.addr st t).toNat
  size : a.size = r.size
  reg : r.reg st t = some a.reg
  data : a.data = r.data st t ∧ a.data2 = r.data2 st t ∧ a.done = false
  place : ∃ off, InWindow (s.scrSize st) r.kind r.size (r.addr st t) a.win off ∧
    (a.win = .glob → s.translate st.ctx st.d st.k (some st.ln) off r.need = (s1, .ok a.pa)) ∧
    (a.win ≠ .glob → s1 = s ∧ a.pa = off)

/-- The accesses of the threads in order. -/
inductive AccRow.Formed (r : AccRow) (st : Strand) : List Nat → State → State → List Acc → Prop where
  | none (s : State) : r.Formed st [] s s []
  | one {t : Nat} {ts : List Nat} {s s1 s2 : State} {a : Acc} {as : List Acc} :
      r.Forms st s t s1 a → r.Formed st ts s1 s2 as → r.Formed st (t :: ts) s s2 (a :: as)

/-- The threads whose accesses are made. -/
def AccRow.accessors (r : AccRow) (m : Mask) : List Nat :=
  if r.one then [mLow m] else (List.range 16).filter fun t => mHas m t

/-- The accesses of the operation: under uniform execution the lowest thread's, once for every thread's register. -/
def AccRow.all (r : AccRow) (st : Strand) (m : Mask) (as : List Acc) : List Acc :=
  if r.spread then
    match as with
    | a :: _ => ((List.range 16).filter fun t => mHas m t).map fun t => { a with thread := t, reg := (r.reg st t).getD 0 }
    | [] => []
  else as

/-- The operation that strand st starts in threads m with these accesses (R71, R106). -/
structure AccRow.Starts (r : AccRow) (st : Strand) (m : Mask) (as : List Acc) (o : Op) : Prop where
  name : o.id = st.nextOp ∧ o.path = r.path ∧ o.pc = st.pc ∧ o.mask = m ∧ o.kind = r.op
  accs : o.accs = as
  place : o.die = st.d ∧ o.core = st.k
  fresh : o.fin = false ∧ o.err = none ∧ o.bad = 0 ∧ o.replies = [] ∧ o.applied = [] ∧ o.prog = 0 ∧ o.parked = false
  dests : ∀ n, n ∈ o.dests ↔ ∃ a, a ∈ as ∧ a.reg ≤ n ∧ n < a.reg + r.dests

/-- Issuing a counted memory instruction whose threads' accesses all form: the strand has one more operation in flight, its
counter has risen by one, the scalars that it is to write are due in the path that issues it (R67), and nothing else of the
machine differs but the caches of translations, and where the entry says
so the item's commitment. With no active thread admitted nothing but the pc differs (R95). -/
def AccessSays (row : Instr → Option AccRow) : Prop :=
  ∀ i r s id st, row i = some r → Passes i r.sp r.f noPre s id st →
    (st.nowAdm r.sp r.f = 0 → ∃ t, exec i s = .next t ∧ Ends s t id st st r.len none (r.f.e == 1) false) ∧
    (st.nowAdm r.sp r.f ≠ 0 → st.cnt r.path < 63 →
      (∀ t, t < 16 → mHas (st.nowAdm r.sp r.f) t = true → (r.reg st t).isSome = true) →
      ∀ s1 as, r.Formed st (r.accessors (st.nowAdm r.sp r.f)) s s1 as →
      ∃ (t : State) (o : Op) (u w : Strand), exec i s = .next t ∧ r.Starts st (st.nowAdm r.sp r.f) (r.all st (st.nowAdm r.sp r.f) as) o ∧
        u = { st.expects st.nextOp o.dests with walkParked := false, ops := st.ops ++ [o], nextOp := st.nextOp + 1, c := u.c } ∧
        (∀ p, u.cnt p = st.cnt p + if p = r.path then 1 else 0) ∧
        OnlyCaches (if r.commits (r.all st (st.nowAdm r.sp r.f) as) then s.commit st else s) t id ∧
        t.strand id = some (t.settle w) ∧
        w.plain = ({ u.advance r.len none with sts := st.endSts (r.f.e == 1) false u.sts } : Strand).plain ∧
        w.run = if st.runEnds (r.f.e == 1) false then .ready else st.run)

/-- The ordering fields of c8 (R194). -/
def ordRef (f : LFields) (acq rel rmt : Bool) : OrdInfo :=
  { acq := acq, rel := rel, acked := false, scope := (f.c.extractLsb' 3 3).toNat, rmt := rmt,
    hint := (f.c.extractLsb' 0 2).toNat }
/-- Bytes and registers of an access size (R195). -/
def sizeRef (f : LFields) : Nat := nth 0 [1, 1, 2, 2, 4, 8, 16] f.m3.toNat
def wordsRef (f : LFields) : Nat := nth 1 [1, 1, 1, 1, 1, 2, 4] f.m3.toNat
/-- The register that d8 names for thread t: itself, or the one that an index register gives through its window (R62). -/
def Strand.regRef (st : Strand) (sp : OpSpec) (f : LFields) (t : Nat) : Option Nat :=
  if isInd sp.d f.d.toNat then st.resolve (f.d.toNat - 192) t else some f.d.toNat

def ldRow (f : LFields) (len : Nat) : AccRow :=
  { sp := rowOf (.ld f), f := f, len := len, path := 0, kind := .read, need := 1, size := sizeRef f,
    op := .load f.m3.toNat (f.u == 1) (ordRef f (f.c.extractLsb' 6 2 == 1) false (f.c.getLsbD 2)),
    addr := fun st t => st.addressRef f (sizeRef f) t, reg := fun st t => st.regRef (rowOf (.ld f)) f t,
    one := f.u == 1, spread := f.u == 1, dests := wordsRef f }
def stRow (f : LFields) (len : Nat) : AccRow :=
  { sp := rowOf (.st f), f := f, len := len, path := 1, kind := .write, need := 2, size := sizeRef f,
    op := .store (ordRef f false (f.c.extractLsb' 6 2 == 2) false),
    addr := fun st t => st.addressRef f (sizeRef f) t, reg := fun st t => (st.regRef (rowOf (.st f)) f t).map fun _ => 0,
    data := fun st t => st.storeData ((st.regRef (rowOf (.st f)) f t).getD 0) (wordsRef f) t (sizeRef f),
    one := f.u == 1, spread := false, dests := 0 }
def atomRow (f : LFields) : AccRow :=
  let n := if f.m3 = 3 then 8 else 4
  { sp := rowOf (.atom f), f := f, len := 8, path := 1, kind := .write, need := 3, size := n,
    op := .atom (f.h ++ f.w).toNat f.m3.toNat (f.u == 1) (ordRef f (f.c.getLsbD 6) (f.c.getLsbD 7) (f.c.getLsbD 2)),
    addr := fun st t => st.baseRef f t, reg := fun st t => st.regRef (rowOf (.atom f)) f t,
    data := fun st t => st.atomArg (rowOf (.atom f)) f t,
    data2 := fun st t => st.storeData ((st.regRef (rowOf (.atom f)) f t).getD 0) (n / 4) t n,
    one := f.u == 1, spread := f.u == 1, dests := n / 4, commits := fun as => as.any fun a => a.win == .glob }
/-- Thread t's contribution (R204). -/
def Strand.sumArg (st : Strand) (f : LFields) (t : Nat) : Nat :=
  (nth 0 (st.words f (rowOf (.sumx f)).b f.b.toNat (if f.m3.toNat ≤ 2 then fpTy f.m3.toNat else .i32) t) 0).toNat
def sumxRow (f : LFields) : AccRow :=
  { sp := rowOf (.sumx f), f := f, len := 8, path := 5, kind := .exact, need := 3, size := 64,
    op := .sumx f.m3.toNat, addr := fun st t => st.cellRef f t, data := fun st t => st.sumArg f t,
    one := f.u == 1, spread := false, dests := 0, commits := fun as => !as.isEmpty }
def sumclrRow (f : LFields) : AccRow :=
  { sp := rowOf (.sumclr f), f := f, len := 8, path := 5, kind := .exact, need := 3, size := 64,
    op := .sumclr, addr := fun st t => st.cellRef f t, one := f.u == 1, spread := false, dests := 0, commits := fun as => !as.isEmpty }
def sumrdRow (f : LFields) : AccRow :=
  { sp := rowOf (.sumrd f), f := f, len := 8, path := 5, kind := .exact, need := 1, size := 64,
    op := .sumrd f.m3.toNat (f.u == 1) (decide (128 ≤ f.d.toNat)), addr := fun st t => st.cellRef f t,
    reg := fun _ _ => some f.d.toNat, one := f.u == 1 || decide (128 ≤ f.d.toNat),
    spread := f.u == 1 && decide (f.d.toNat < 128), dests := if f.m3 = 7 then 16 else 1 }

/-- LD and ST of W-R as the L instruction that R87 names: .b32, at base plus four times the offset field. -/
def wrMem (r : WRFields) : LFields := { WRFields.toM r 4 with b := r.b.zeroExtend 8 + 192 }

/-- The counted memory instructions (R196, R197, R202 to R206, R87). -/
def accRow : Instr → Option AccRow
  | .ld f => some (ldRow f 8)
  | .st f => some (stRow f 8)
  | .atom f => some (atomRow f)
  | .sumx f => some (sumxRow f)
  | .sumrd f => some (sumrdRow f)
  | .sumclr f => some (sumclrRow f)
  | .ldW r => some (ldRow (wrMem r) 4)
  | .stW r => some (stRow (wrMem r) 4)
  | _ => none

end Sys2Proof.Machine
end

