-- ==== Sys2Proof/Safety/Scratch.lean ====
section
/-! DEFINITION. The scratchpad instructions, the placement tables, prefetches, WAITC and FENCE (R186, R198, R200 to R203,
R207 to R210), as relations between the machine before and after. -/

namespace Sys2Proof.Machine

/-- One thread's step of a scratchpad instruction: its element, itself, the threads that receive its result, and the
state with the strand as the earlier steps leave them; the first argument is the strand at issue. -/
abbrev PadStep := Strand → Nat → Nat → List Nat → State × Strand → State × Strand

/-- A scratchpad instruction: its row, fields and length, the checks of its own entry, whether a step's access is accepted,
and what the step does. -/
structure PadRow where
  sp : OpSpec
  f : LFields
  len : Nat
  pre : Strand → Mask → Option Nat := noPre
  /-- What is checked of the whole instruction before its first step. -/
  whole : State → Strand → Prop := fun _ _ => True
  fits : Nat → Nat → List Nat → State × Strand → Prop
  step : PadStep

/-- The steps in order: element by element, thread by thread; under uniform execution one step for every thread (R58, R59). -/
def PadRow.steps (r : PadRow) (st : Strand) (m : Mask) (n : Nat) : List (Nat × Nat × List Nat) :=
  if r.f.u = 1 then [(0, mLow m, (List.range 16).filter fun t => mHas m t)]
  else (List.range n).flatMap fun e =>
    ((List.range 16).filter fun t => mHas (elemMask st.resume m e) t).map fun t => (e, t, [t])

/-- Every step's access is accepted where the earlier steps have left the machine. -/
def PadRow.AllFit (r : PadRow) (st : Strand) : List (Nat × Nat × List Nat) → State × Strand → Prop
  | [], _ => True
  | p :: ps, x => r.fits p.1 p.2.1 p.2.2 x ∧ r.AllFit st ps (r.step st p.1 p.2.1 p.2.2 x)
/-- The machine behind the steps. -/
def PadRow.after (r : PadRow) (st : Strand) (ps : List (Nat × Nat × List Nat)) (x : State × Strand) : State × Strand :=
  ps.foldl (fun x p => r.step st p.1 p.2.1 p.2.2 x) x

/-- The 32-bit offset of thread t's access of element e with n bytes (R200). -/
def Strand.padOffset (st : Strand) (f : LFields) (n e t : Nat) : Word :=
  (if f.a.toNat < 128 then st.vget f.a.toNat t else st.sget (f.a.toNat - 128)) +
    (st.indexRef f t).truncate 32 * BitVec.ofNat 32 n + BitVec.ofNat 32 (e * n)
/-- The offset of ATOMS, which has no index (R202). -/
def Strand.atomOffset (st : Strand) (f : LFields) (t : Nat) : Word :=
  if f.a.toNat < 128 then st.vget f.a.toNat t else st.sget (f.a.toNat - 128)

/-- The bytes of an access lie in the item's scratchpad, at a multiple of their number (R190, R191, R200). -/
def State.padFits (s : State) (st : Strand) (n : Nat) (off : Word) : Prop :=
  off.toNat + n ≤ s.scrSize st ∧ off.toNat % n = 0

/-- The register of a thread for an element: an indirect one through its window, else the block's (R59, R62). -/
def Strand.padReg (st : Strand) (sp : OpSpec) (f : LFields) (e t : Nat) : Option Nat :=
  (st.regRef sp f t).map fun n => if f.d.toNat < 128 ∧ sp.d.n = 1 then n + blockOff f e else n

/-- Words go to each receiving thread's registers. -/
def Strand.giveAll (st : Strand) (sp : OpSpec) (f : LFields) (e : Nat) (ts : List Nat) (ws : List Word) : Strand :=
  (ts.map fun t => (t, (st.padReg sp f e t).getD 0)).foldl (fun u p => u.vputs p.2 p.1 ws) st
def Strand.padRegs (st : Strand) (sp : OpSpec) (f : LFields) (e : Nat) (ts : List Nat) : Prop :=
  ∀ t, t ∈ ts → (st.padReg sp f e t).isSome = true

def ldsRow (f : LFields) (len : Nat) : PadRow :=
  { sp := rowOf (.lds f), f := f, len := len,
    fits := fun e t ts x => x.2.padRegs (rowOf (.lds f)) f e ts ∧ x.1.padFits x.2 (sizeRef f) (x.2.padOffset f (sizeRef f) e t),
    step := fun _ e t ts x => (x.1, x.2.giveAll (rowOf (.lds f)) f e ts
      (loadWords f.m3.toNat (x.1.scrGets x.2 (x.2.padOffset f (sizeRef f) e t).toNat (sizeRef f)))) }
def stsRow (f : LFields) (len : Nat) : PadRow :=
  { sp := rowOf (.sts f), f := f, len := len,
    fits := fun e t _ x => x.2.padRegs (rowOf (.sts f)) f e [t] ∧ x.1.padFits x.2 (sizeRef f) (x.2.padOffset f (sizeRef f) e t),
    step := fun _ e t _ x => (x.1.padPuts x.2 (x.2.padOffset f (sizeRef f) e t).toNat
      (leBytes (sizeRef f) (x.2.storeData ((x.2.padReg (rowOf (.sts f)) f e t).getD 0) (wordsRef f) t (sizeRef f))), x.2) }
/-- ATOMS: the old value goes to the registers and the new value to the scratchpad (R202, R203). -/
def atomsRow (f : LFields) : PadRow :=
  let n := if f.m3 = 3 then 8 else 4
  { sp := rowOf (.atoms f), f := f, len := 8,
    fits := fun e t ts x => x.2.padRegs (rowOf (.atoms f)) f e (t :: ts) ∧ x.1.padFits x.2 n (x.2.atomOffset f t),
    step := fun _ e t ts x =>
      let off := (x.2.atomOffset f t).toNat
      let old := leVal (x.1.scrGets x.2 off n)
      let new := atomNew (f.h ++ f.w).toNat f.m3.toNat old (x.2.atomArg (rowOf (.atoms f)) f t)
        (x.2.storeData ((x.2.regRef (rowOf (.atoms f)) f t).getD 0) (n / 4) t n)
      (x.1.padPuts x.2 off (leBytes n new), x.2.giveAll (rowOf (.atoms f)) f e ts
        ((List.range (n / 4)).map fun i => BitVec.ofNat 32 (old / 2 ^ (32 * i)))) }

/-- The rectangle of LDT and STT lies in the scratchpad and is aligned (R201). -/
def rectFits (f : LFields) (s : State) (st : Strand) : Prop :=
  (st.sval f.a.toNat).toNat + 15 * (st.sval f.b.toNat).toNat + 4 * blockLen f ≤ s.scrSize st ∧
    (st.sval f.a.toNat).toNat % 4 = 0 ∧ (st.sval f.b.toNat).toNat % 4 = 0
/-- Element e of thread t lies at a + t pitch + 4 e, in the registers as they stood at issue. -/
def rectOffset (f : LFields) (st : Strand) (e t : Nat) : Nat :=
  (st.sval f.a.toNat).toNat + t * (st.sval f.b.toNat).toNat + 4 * e
def ldtRow (f : LFields) : PadRow :=
  { sp := rowOf (.ldt f), f := f, len := 8, pre := pitchPre f, whole := rectFits f, fits := fun _ _ _ _ => True,
    step := fun st e t ts x => (x.1, ts.foldl (fun u v => u.vset (f.d.toNat + blockOff f e) v
      (BitVec.ofNat 32 (leVal (x.1.scrGets u (rectOffset f st e t) 4)))) x.2) }
def sttRow (f : LFields) : PadRow :=
  { sp := rowOf (.stt f), f := f, len := 8, pre := pitchPre f, whole := rectFits f, fits := fun _ _ _ _ => True,
    step := fun st e t _ x => (x.1.padPuts x.2 (rectOffset f st e t)
      (leBytes 4 (x.2.vget (f.d.toNat + blockOff f e) t).toNat), x.2) }

/-- The scratchpad instructions (R200 to R203, R87). -/
def padRow : Instr → Option PadRow
  | .lds f => some (ldsRow f 8)
  | .sts f => some (stsRow f 8)
  | .atoms f => some (atomsRow f)
  | .ldt f => some (ldtRow f)
  | .stt f => some (sttRow f)
  | .ldsW r => some (ldsRow (wrMem r) 4)
  | .stsW r => some (stsRow (wrMem r) 4)
  | _ => none

/-- A scratchpad instruction all of whose accesses are accepted, with none of the strand's own accesses to the scratchpad and no
acquire of it outstanding, completes as its steps say, and ends. -/
def PadSays : Prop :=
  ∀ i r s id st, padRow i = some r → Passes i r.sp r.f r.pre s id st →
    let m := st.nowAdm r.sp r.f
    (m = 0 → ∃ t, exec i s = .next t ∧ Ends s t id st st r.len none (r.f.e == 1) false) ∧
    (m ≠ 0 → st.scrBusy 0 (2 ^ 32) = false → st.acqBusy = false → r.whole s st → r.AllFit st (r.steps st m (elems r.sp r.f)) (s, st) →
      ∃ t, exec i s = .next t ∧
        let x := r.after st (r.steps st m (elems r.sp r.f)) (s, st)
        Ends x.1 t id st x.2 r.len none (r.f.e == 1) false)

/-- LACELD (R186): the table of the strand's core receives 128 bytes of the scratchpad. -/
def LaceldSays : Prop :=
  ∀ f s id st, Passes (.laceld f) (rowOf (.laceld f)) f (tablePre s) s id st → st.nowAdm (rowOf (.laceld f)) f ≠ 0 →
    (st.sval f.a.toNat).toNat + 128 ≤ s.scrSize st → (st.sval f.a.toNat).toNat % 128 = 0 →
    st.scrBusy (st.sval f.a.toNat).toNat 128 = false → st.acqBusy = false →
    ∃ s1 t, exec (.laceld f) s = .next t ∧ Ends s1 t id st st 8 none (f.e == 1) false ∧
      s1 = s.modCore st.d st.k (fun c => { c with lace := (s1.core st.d st.k).lace }) ∧
      (st.d < s.dies.length → st.k < (s.die st.d).cores.length → ∀ k, cget (s1.core st.d st.k).lace k =
        if 128 * f.d.toNat ≤ k ∧ k < 128 * f.d.toNat + 128
          then s.scrGet st ((st.sval f.a.toNat).toNat + (k - 128 * f.d.toNat))
          else cget (s.core st.d st.k).lace k)

/-- PREF (R207): whatever its addresses, the strand goes on and no byte reads differently for any core. -/
def PrefSays : Prop :=
  ∀ f s id st, Passes (.pref f) (rowOf (.pref f)) f noPre s id st →
    ∃ t w, exec (.pref f) s = .next t ∧ (∀ a, cget t.mem a = cget s.mem a) ∧
      (∀ d c a, t.coreGet d c a = s.coreGet d c a) ∧ (∀ j, j ≠ id → t.strand j = s.strand j) ∧
      { t with dies := [], strands := [] } = { s with dies := [], strands := [] } ∧
      t.strand id = some (s.settle w) ∧
      w.plain = ({ st.advance 8 none with sts := st.endSts (f.e == 1) false st.sts } : Strand).plain

/-- A WAITC: its fields as an L instruction, its length and its threshold (R208). -/
def waitcRow (st : Strand) : Instr → Option (LFields × Nat × Nat)
  | .waitc f => some (f, 8, if f.m3 = 1 then (f.c ++ f.b).toNat else (st.sval f.a.toNat).toNat)
  | .waitcW r => some ({ WIFields.toL r with m3 := 1, d := r.d5.zeroExtend 8, b := r.imm.truncate 8 }, 4, r.imm.toNat)
  | _ => none

/-- SR_CAUSE of an engine error: CODE, PATH and ENG (R208, R270). -/
def engineRef (c : Cause) (path : Nat) : Word := 1#1 ++ BitVec.ofNat 3 path ++ 0#20 ++ BitVec.ofNat 8 c.code

/-- WAITC (R208): at or below the threshold it completes, with the first engine error of its path as a trap; above it the
strand waits. -/
def WaitcSays : Prop :=
  ∀ i f len thr s id st, waitcRow st i = some (f, len, thr) → Passes i (rowOf (.waitc f)) f noPre s id st →
    let m := st.nowAdm (rowOf (.waitc f)) f
    (m = 0 ∨ (st.cnt f.d.toNat ≤ thr ∧ ∀ e, e ∈ st.engErrs → e.path ≠ f.d.toNat) →
      ∃ t, exec i s = .next t ∧ Ends s t id st st len none (f.e == 1) false) ∧
    (m ≠ 0 → st.cnt f.d.toNat ≤ thr → st.canTrap s → ∀ l1 e l2, st.engErrs = l1 ++ e :: l2 → e.path = f.d.toNat →
      (∀ x, x ∈ l1 → x.path ≠ f.d.toNat) →
      ∃ t w, exec i s = .next t ∧ OnlyStrand s t id ∧ t.strand id = some w ∧
        w.pc = (s.ctx st.ctx).tvec &&& ~~~1#64 ∧ w.epc = st.pc ∧ w.emask = m.zeroExtend 32 ∧
        w.cause = engineRef e.cause f.d.toNat ∧ w.frame.isSome = true ∧ w.engErrs = l1 ++ l2 ∧
        w.s = st.s ∧ w.v = st.v ∧ w.q = st.q ∧ w.x = st.x ∧ w.sts = st.sts) ∧
    (m ≠ 0 → thr < st.cnt f.d.toNat →
      ∃ t w, exec i s = .next t ∧ OnlyStrand { s with seqNo := s.seqNo + 1 } t id ∧ t.strand id = some w ∧
        w.run = .waiting (.waitc f.d.toNat thr) len ∧ w.pc = st.pc ∧
        w.s = st.s ∧ w.v = st.v ∧ w.q = st.q ∧ w.x = st.x ∧ w.sts = st.sts ∧ w.ops = st.ops ∧ w.c = st.c)

/-- FENCE (R209): when it may complete at once the strand goes on behind it with no register changed; a wide release leaves
no dirty byte in the column, a wide acquire no clean one, and what its core reads does not change with a release, where no Failed
link loses it; where it may not complete, the strand waits. -/
def FenceSays : Prop :=
  ∀ f s id st, Passes (.fence f) (rowOf (.fence f)) f noPre s id st →
    let m := st.nowAdm (rowOf (.fence f)) f
    let kind := f.m3.toNat
    let scope := (f.c.extractLsb' 3 3).toNat
    let wide := decide (3 ≤ scope) || (scope == 1 && s.groupWide st)
    (m = 0 → ∃ t, exec (.fence f) s = .next t ∧ Ends s t id st st 8 none (f.e == 1) false) ∧
    (m ≠ 0 → s.fenceReady st kind scope = true →
      ∃ s1 t, exec (.fence f) s = .next t ∧ Ends s1 t id st st 8 none (f.e == 1) false ∧
        s1.strands = s.strands ∧ s1.ctxs = s.ctxs ∧
        (kind = 1 → st.d < s.dies.length → ∀ a, homeDie a ≠ st.d ∨ tget (s.die st.d).copies a = none →
          s.linkDead st.d (homeDie a) = false →
          s1.coreGet st.d st.k a = s.coreGet st.d st.k a) ∧
        (wide = true → kind = 1 → ∀ a b, tget (s1.core st.d st.k).l1 a = some b → b.dirty = false) ∧
        (wide = true → kind = 0 → ∀ a b, tget (s1.core st.d st.k).l1 a = some b → b.dirty = true) ∧
        (wide = true → kind = 2 → (s1.core st.d st.k).l1 = [])) ∧
    (m ≠ 0 → s.fenceReady st kind scope = false →
      ∃ t w, exec (.fence f) s = .next t ∧ OnlyStrand { s with seqNo := s.seqNo + 1 } t id ∧ t.strand id = some w ∧
        w.run = .waiting (.fence kind scope) 8 ∧ w.pc = st.pc ∧
        w.s = st.s ∧ w.v = st.v ∧ w.q = st.q ∧ w.x = st.x ∧ w.sts = st.sts ∧ w.ops = st.ops ∧ w.c = st.c)

end Sys2Proof.Machine
end

