-- ==== Sys2Proof/Safety/Engine.lean ====
section
/-! DEFINITION. The engine commands, the sequencer and the seeds (R71, R212 to R221, R344 to R384): issuing, and the events
in which the engines do their work, as relations between the machine before and after. -/

namespace Sys2Proof.Machine

/-! Operations in flight. -/

/-- In t the strand is `w`, and nothing else differs from s. -/
structure Puts (s t : State) (id : Nat) (w : Strand) : Prop where
  here : t.strand id = some w
  others : ∀ j, j ≠ id → t.strand j = s.strand j
  rest : { t with strands := [] } = { s with strands := [] }

/-- The strand with one more operation, the last of its path, whose counter is one higher (R71). -/
def Strand.posted (st : Strand) (o : Op) : Strand :=
  { st.expects o.id o.dests with
    ops := st.ops ++ [o], nextOp := st.nextOp + 1, c := cput st.c o.path (cget st.c o.path + 1) }

/-- A new operation of the strand at its instruction. -/
def Strand.newOp (st : Strand) (path : Nat) (m : Mask) (k : OpKind) (dests : List Nat) : Op :=
  { id := st.nextOp, path := path, pc := st.pc, die := st.d, core := st.k, mask := m, kind := k, accs := [],
    dests := dests, fin := false, err := none, bad := 0, badCause := .uncorr, replies := [], applied := [], prog := 0, bits := 0,
    staged := [], parked := false }

/-- The strand when one of its operations has ended, with the engine's error if there is one; `wait` are the lines whose
write-back waits for spill memory. -/
def Strand.finishes (st : Strand) (n : Nat) (err : Option EngErr) (wait : List Nat) : Strand :=
  (st.modOp n fun o => { o with err := err, fin := true }).fall wait

/-- Counters fall in issue order within a path: an operation leaves when it and all before it on its path have ended (R71),
where no completion mark and no line without spill memory holds it. -/
def FallSays : Prop :=
  ∀ (st : Strand) wait, st.marks = [] → st.spillHeld wait = [] → ∀ p,
    ((st.fall wait).ops.filter fun o => o.path == p) = (st.ops.filter fun o => o.path == p).dropWhile (·.fin) ∧
    cget (st.fall wait).c p = cget st.c p - BitVec.ofNat 6 (((st.ops.filter fun o => o.path == p).takeWhile (·.fin)).length)

/-- A strand whose operation may end with no effect beyond its own: no completion mark waits and it is not draining. -/
def Strand.simple (st : Strand) (o : Op) : Prop := st.marks = [] ∧ st.run ≠ .draining ∧ o.bad = 0

/-- An operation is at work: its strand is resident, the strand's earlier accesses are performed, no walk of it is parked, and no
page that it has reported is outstanding (R212, R392). -/
structure Works (s : State) (id n : Nat) (st : Strand) (o : Op) : Prop where
  here : s.strand id = some st
  op : st.op n = some o
  going : o.fin = false
  unparked : o.parked = false
  resident : st.resident = true
  earlier : ∀ e, e ∈ st.earlier n → e.isAccess = true → e.unperformed = false
  pages : s.engWaits st.ctx id n = false
  simple : st.simple o

/-! The engine commands. -/

/-- An engine command: what its descriptor forbids, its path, what traps at issue, its operation and the registers it will
write. -/
structure EngRow where
  f : LFields
  pre : State → Strand → Option Nat
  path : Nat
  stop : State → Strand → Option Cause
  kind : State → Strand → OpKind
  dests : List Nat := []
  /-- What becomes of the core when the strand issues. -/
  core : Nat → Strand → Core → Core := fun _ _ x => x

/-- SHUT, SHUTX, DTLD, DECODE and FETCHF (R214, R216, R218 to R220). -/
def engRow : Instr → Option EngRow
  | .shut f => some {
      f := f, pre := fun _ => shutPre false (f.a.toNat - 128), path := 2,
      stop := fun _ st => shutStop (shutDesc false st (f.a.toNat - 128)),
      kind := fun _ st => .shut (shutDesc false st (f.a.toNat - 128)),
      core := fun id st x => { x with shutq := x.shutq ++ [(id, st.nextOp)] } }
  | .shutx f => some {
      f := f, pre := fun _ => shutPre true (f.a.toNat - 128), path := 2,
      stop := fun _ st => shutStop (shutDesc true st (f.a.toNat - 128)),
      kind := fun _ st => .shut (shutDesc true st (f.a.toNat - 128)),
      core := fun id st x => { x with shutq := x.shutq ++ [(id, st.nextOp)] } }
  | .dtld f => some {
      f := f, pre := fun s st => tablePre s st 0, path := 4,
      stop := fun _ st => if (st.sget64 (f.a.toNat - 128)).toNat % 256 = 0 then none else some .align,
      kind := fun s st => .dtld f.d.toNat (((s.core st.d st.k).dslot f.d.toNat).issued + 1)
        (st.sget64 (f.a.toNat - 128)).toNat,
      core := fun _ _ x => { x with
        dslots := modAt x.dslots f.d.toNat fun q => { q with issued := (x.dslot f.d.toNat).issued + 1 } } }
  | .decode f => some {
      f := f, pre := fun s st => tablePre s st 0, path := 4,
      stop := fun s st =>
        let d := decDesc s st (f.a.toNat - 128)
        if d.doff + 2 * d.n ≤ s.scrSize st ∧ d.stat + 8 ≤ s.scrSize st
          then (if d.doff % 2 = 0 ∧ d.stat % 8 = 0 then none else some .align) else some .window,
      kind := fun s st => .decode (decDesc s st (f.a.toNat - 128)) }
  | .fetchf f => some {
      f := f, pre := fun _ => texPre f, path := 0,
      stop := fun _ st =>
        if (texDesc f st).base < 2 ^ 48 then (if (texDesc f st).base % 256 = 0 then none else some .align)
        else some .window,
      kind := fun _ st => .fetchf (texDesc f st) f.d.toNat f.a.toNat (f.u == 1)
        ((List.range 16).map fun t => (List.range 6).map fun i => (st.vget (f.a.toNat + i) t).toNat),
      dests := [f.d.toNat, f.d.toNat + 1, f.d.toNat + 2, f.d.toNat + 3] }
  | _ => none

/-- The descriptor of SHUT in R[b + 7 : b] and of SHUTX in R[b + 11 : b], field by field (R214, R216). -/
def ShutDescSays : Prop :=
  ∀ (x : Bool) (st : Strand) (b : Nat),
    let d := shutDesc x st b
    let w (n lo len : Nat) : Nat := ((st.sget (b + n)).extractLsb' lo len).toNat
    d.src = w 0 0 32 + 2 ^ 32 * w 1 0 32 ∧ d.dst = w 2 0 32 + 2 ^ 32 * w 3 0 32 ∧ d.rows = w 4 16 16 ∧ d.cols = w 4 0 16 ∧
    d.spitch = (st.sget (b + 5)).toInt ∧ d.dpitch = (st.sget (b + 6)).toInt ∧ d.esz = 2 ^ w 7 0 2 ∧
    (d.turn = true ↔ w 7 2 1 = 1) ∧ d.hint = w 7 3 2 ∧
    (x = false → d.planes = 1 ∧ d.spp = 0 ∧ d.dpp = 0 ∧ d.conv = 0) ∧
    (x = true → d.planes = w 8 0 16 ∧ d.spp = (st.sget (b + 9)).toInt ∧ d.dpp = (st.sget (b + 10)).toInt ∧ d.conv = w 11 0 3)

/-- An engine command whose descriptor is accepted enters its path: one operation more, its counter one higher, and the
strand goes on; one that its addresses make trap takes that trap instead. -/
def EngineSays : Prop :=
  ∀ i r s id st, engRow i = some r → Passes i (rowOf i) r.f (fun u m => if m = 0 then none else r.pre s u) s id st →
    let m := st.nowAdm (rowOf i) r.f
    (m = 0 → ∃ t, exec i s = .next t ∧ Ends s t id st st 8 none (r.f.e == 1) false) ∧
    (∀ c, m ≠ 0 → r.stop s st = some c → st.canTrap s → ∃ t, exec i s = .next t ∧ Trapped s t id st c 0 m) ∧
    (m ≠ 0 → r.stop s st = none → st.full r.path = false →
      ∃ t, exec i s = .next t ∧
        Ends (s.modCore st.d st.k (r.core id st)) t id st (st.posted (st.newOp r.path m (r.kind s st) r.dests)) 8 none
          (r.f.e == 1) false)

/-- What an engine's pass that stops leaves, when s1 is what it did: an error stays with the operation, which falls; a missing page
makes a batch; a parked walk parks the operation; and else it waits (R212, R392). -/
def EngineStops (s s1 : State) (i : Instr) (id n : Nat) (st u : Strand) (o : Op) (r : EStop) : Prop :=
  (∀ c va, r = .err c va → ∃ t, exec i s = .next t ∧
    Puts s1 t id (u.finishes n (some { path := o.path, cause := c, pc := o.pc, va := va, time := s1.gtime }) s1.waitLines)) ∧
  (∀ e, r = .page e → (s.ctx st.ctx).state ≠ 5 → exec i s = .next (s1.openBatch st.ctx
    { seq := 0, src := 1, die := o.die, core := o.core, pc := o.pc, kid := st.kid, iid := st.iid, sid := st.sid,
      strand := some id, op := n, entries := [e] })) ∧
  (r = .park → exec i s = .next (s1.modStrand id fun w => w.modOp n fun p => { p with parked := true })) ∧
  (r = .wait → exec i s = .next s1)

/-- The strand of a state whose operation n may end with no effect beyond its own. -/
def State.endsAs (s : State) (id n : Nat) (u : Strand) : Prop :=
  s.strand id = some u ∧ u.marks = [] ∧ u.run ≠ .draining ∧ ∀ p, u.op n = some p → p.bad = 0

/-- SHUTTLE_COMPLETE: of the core's SHUT operations the two issued first are in its shuttles. So many further rows move; what is done
stays with the operation, and with the last row it falls and leaves its shuttle (R212 to R216). -/
def ShuttleSays : Prop :=
  ∀ s id n rows st o d, Works s id n st o → o.kind = .shut d → (id, n) ∈ s.inShuttles st.d st.k →
    ∀ s1 l k r, s.shutRun st d o rows = (s1, l, k, r) →
    let s2 := s1.engKeep id n k 0 l
    let i : Instr := .shuttleComplete id ⟨n, rows⟩
    (r = none → k < d.count → exec i s = .next s2) ∧
    (∀ u, s2.endsAs id n u →
      (r = none → d.count ≤ k → ∃ t, exec i s = .next t ∧
        Puts (s2.modCore st.d st.k fun c => { c with shutq := c.shutq.filter (· != (id, n)) }) t id
          (u.finishes n none s2.waitLines)) ∧
      (∀ e, r = some e → EngineStops s s2 i id n st u o e))

/-- Only the two operations issued first of those that wait for a core's shuttles are in them (R215). -/
def ShuttleOrderSays : Prop :=
  ∀ (s : State) (d c : Nat), (s.inShuttles d c).length ≤ 2 ∧ ∀ q, q ∈ s.inShuttles d c →
    ∃ xs ys, (s.core d c).shutq = xs ++ q :: ys ∧ (xs.filter fun p => s.shutLive d c p).length < 2

/-- DTLD_COMPLETE: the image is read, and its slot is loaded with it when it is well-formed; a load that meets an error leaves the
slot invalid (R217, R218). -/
def DtldSays : Prop :=
  ∀ s id n st o k v ptr, Works s id n st o → o.kind = .dtld k v ptr → ((s.core st.d st.k).dslot k).loaded + 1 = v →
    s.olderDecode st.d st.k k v = false →
    let load (s1 : State) (im : Option (List Byte)) : State := s1.modCore st.d st.k fun c => { c with
      dslots := modAt c.dslots k fun q => { q with loaded := v, image := im } }
    (∀ s1 im, s.imageRead st ptr = (s1, .ok im) → s1.strand id = some st →
      ∃ t, exec (.dtldComplete id n) s = .next t ∧
        Puts (load s1 (if imageOk im then some im else none)) t id (st.finishes n none s1.waitLines)) ∧
    (∀ s1 c va, s.imageRead st ptr = (s1, .error (.err c va)) → s1.strand id = some st →
      ∃ t, exec (.dtldComplete id n) s = .next t ∧ Puts (load s1 none) t id
        (st.finishes n (some { path := o.path, cause := c, pc := o.pc, va := va, time := s1.gtime }) s1.waitLines))

/-- DECODE_COMPLETE: up to so many blocks of 16 further symbols go to the scratchpad; with the last one, or at an invalid code, the
status record follows: bits consumed, and the symbols written with bit 31 set when the stream held an invalid code or the
table is invalid (R217, R219). -/
def DecodeSays : Prop :=
  ∀ s id n blocks st o d, Works s id n st o → o.kind = .decode d →
    d.version ≤ ((s.core st.d st.k).dslot d.slot).loaded →
    let p0 : DecPos := { bit := d.boff + o.bits, count := o.prog, invalid := false }
    ∀ s1 p r, (match ((s.core st.d st.k).dslot d.slot).image with
      | some im => s.decodeRun st im d (min (16 * blocks) (d.n - o.prog)) p0
      | none => (s, { p0 with invalid := true }, none)) = (s1, p, r) →
    let s2 := s1.engKeep id n p.count (p.bit - d.boff) []
    let i : Instr := .decodeComplete id ⟨n, blocks⟩
    (r = none → p.invalid = false → p.count < d.n → exec i s = .next s2) ∧
    (∀ u, s2.endsAs id n u →
      (r = none → p.invalid = true ∨ d.n ≤ p.count → ∃ t, exec i s = .next t ∧
        Puts (s2.scrPuts st d.stat (leBytes 4 (p.bit - d.boff) ++
          leBytes 4 (if p.invalid then p.count % 2 ^ 31 + 2 ^ 31 else p.count % 2 ^ 31))) t id (u.finishes n none s2.waitLines)) ∧
      (∀ e, r = some e → EngineStops s s2 i id n st u o e))

/-- The samples of threads in order, each written to its thread's four registers (R221). -/
def sampleAll (d : TexDesc) (dst : Nat) (inputs : List (List Nat)) :
    List Nat → State → Strand → State × Except EStop Strand
  | [], s, st => (s, .ok st)
  | t :: ts, s, st => match s.sample st d (nth [] inputs t) with
    | (s1, .error e) => (s1, .error e)
    | (s1, .ok ws) => sampleAll d dst inputs ts s1 (st.vputs dst t ws)

/-- FETCHF_COMPLETE: each thread of the operation receives its four components; with U every thread those of the lowest
(R221). -/
def FetchfSays : Prop :=
  ∀ s id n st o d dst a uni inputs, Works s id n st o → o.kind = .fetchf d dst a uni inputs →
    let ts := (List.range 16).filter fun t => mHas o.mask t
    (uni = true → ∀ s1 ws, s.sample st d (nth [] inputs (mLow o.mask)) = (s1, .ok ws) →
      ∃ t, exec (.fetchfComplete id n) s = .next t ∧
        Puts s1 t id ((ts.foldl (fun u v => u.vputs dst v ws) st).finishes n none s1.waitLines)) ∧
    (uni = false → ∀ s1 u, sampleAll d dst inputs ts s st = (s1, .ok u) →
      ∃ t, exec (.fetchfComplete id n) s = .next t ∧ Puts s1 t id (u.finishes n none s1.waitLines))

/-! The sequencer. -/

/-- A sequencer operation: its checks and issue-time trap, whether c3 counts it, its operation, what it will write, and what
becomes of the tiles at issue. -/
structure SeqRow where
  f : LFields
  pre : State → Strand → Option Nat := fun _ _ => none
  stop : State → Strand → Option Cause := fun _ _ => none
  /-- The tile is free or this item's (R346). -/
  mine : State → Strand → Prop := fun _ _ => True
  counted : Bool := true
  kind : State → Strand → Mask → MatKind
  dests : List Nat := []
  core : Strand → Core → Core := fun _ x => x

/-- What MLOOP finds wrong after its tile, in order: ALIGN, a record that is not Valid, and a byte out of range (R355). -/
def mloopStop (f : LFields) (s : State) (st : Strand) : Option Cause :=
  let d := loopDesc f st
  if d.aligned = false then some .align
  else match (if d.mode = 5 then s.loopRecs st d else some []) with
    | none => some .illop
    | some rs => if ({ d with recs := rs } : LoopDesc).inRange (s.scrSize st) then none else some .window

/-- MCLR, MLOOP, MRD, MBLD, MTWID, SEEDSCAN and SEEDDROP (R351 to R355, R360 to R364, R381, R382). -/
def seqRow : Instr → Option SeqRow
  | .mclr f => some {
      f := f, counted := false,
      mine := fun s st => ∀ k, (s.tile st f.d.toNat).held = some k → k = (st.ctx, st.kid, st.iid),
      kind := fun _ _ _ => .mclr f.d.toNat f.m3.toNat (mclrSx f),
      core := fun st x => { x with tiles := modAt x.tiles f.d.toNat fun q => { q with
        held := some (st.ctx, st.kid, st.iid), kind := f.m3.toNat, sx := mclrSx f } } }
  | .mloop f => some {
      f := f, pre := mloopPre f, stop := mloopStop f,
      kind := fun s st _ => .mloop f.d.toNat (s.tile st f.d.toNat).kind (s.tile st f.d.toNat).sx { loopDesc f st with
        recs := ((if f.m3 = 5 then s.loopRecs st (loopDesc f st) else some []).getD []) } }
  | .mrd f => some {
      f := f, pre := mrdPre f, stop := mrdStop f,
      kind := fun s st _ =>
        let c := f.c.toNat
        let q := s.tile st (c % 16)
        let a := (st.sget (f.a.toNat - 128)).toNat
        if c / 64 % 2 = 1 then .mrdSp (c % 16) q.kind q.sx f.m3.toNat a (st.sval f.b.toNat).toNat (decide (128 ≤ c))
        else .mrdReg (c % 16) q.kind q.sx f.m3.toNat (a % 2 ^ 16) (a / 2 ^ 16) f.d.toNat (blockLen f) (2 ^ f.w.toNat)
          (decide (128 ≤ c)),
      dests := if f.c.toNat / 64 % 2 = 1 then [] else (List.range (blockLen f)).map fun e => f.d.toNat + blockOff f e }
  | .mbld f => some {
      f := f,
      stop := fun s st =>
        let dst := (st.sget (f.d.toNat - 128)).toNat
        let src := (st.sget (f.a.toNat - 128)).toNat
        let len := (st.sval f.b.toNat).toNat
        if s.scrSize st < src + len ∨ 0x100000 < dst + len then some .window
        else if dst % 64 ≠ 0 ∨ src % 64 ≠ 0 ∨ len % 64 ≠ 0 then some .align
        else if 0 < len ∧ 0xA0000 < dst + len then some .seedro else none,
      kind := fun _ st _ => .mbld (st.sget (f.d.toNat - 128)).toNat (st.sget (f.a.toNat - 128)).toNat
        (st.sval f.b.toNat).toNat }
  | .mtwid f => some {
      f := f,
      stop := fun _ st =>
        let dst := (st.sget (f.d.toNat - 128)).toNat
        if 0x100000 < dst + 2048 then some .window
        else if dst % 256 ≠ 0 then some .align
        else if 0xA0000 < dst + 2048 then some .seedro else none,
      kind := fun _ st _ => .mtwid (st.sget (f.d.toNat - 128)).toNat f.c.toNat (f.m3 == 1) }
  | .seedscan f => some {
      f := f, pre := scanPre f, stop := scanStop f, kind := fun _ st _ => scanDesc f st }
  | .seeddrop f => some {
      f := f, counted := false, pre := fun _ st => slotPre f.a st,
      kind := fun _ st _ => .seeddrop (st.sval f.a.toNat).toNat }
  | _ => none

/-- The new operation at the queue's end. -/
def Strand.newSeq (st : Strand) (id : Nat) (m : Mask) (k : MatKind) : MatOp :=
  { strand := id, opId := st.nextOp, ctx := st.ctx, kid := st.kid, iid := st.iid, pc := st.pc, mask := m, rs := st.resume,
    fmt := st.fmt, kind := k, started := false, hit := false, step := 0, pass := 0, flags := flagNone, err := none,
    caps := k.slots, capCore := 16 * st.d + st.k }

/-- A sequencer operation whose checks pass enters the queue of its core, with c3 one higher where it is counted; one that
its operands make trap takes that trap instead. -/
def SeqSays : Prop :=
  ∀ i r s id st, seqRow i = some r → Passes i (rowOf i) r.f (fun u m => if m = 0 then none else r.pre s u) s id st →
    let m := st.nowAdm (rowOf i) r.f
    (m = 0 → ∃ t, exec i s = .next t ∧ Ends s t id st st 8 none (r.f.e == 1) false) ∧
    (∀ c, m ≠ 0 → r.stop s st = some c → st.canTrap s → ∃ t, exec i s = .next t ∧ Trapped s t id st c 0 m) ∧
    (m ≠ 0 → r.stop s st = none → r.mine s st → (s.core st.d st.k).seq.length < 16 →
      (r.counted = true → st.full 3 = false) →
      ∃ t, exec i s = .next t ∧
        let o := st.newSeq id m (r.kind s st m)
        Ends (s.modCore st.d st.k fun x => { (r.core st x).capture o.caps with seq := x.seq ++ [o] }) t id st
          (if r.counted then st.posted (st.newOp 3 m .matrix r.dests) else { st with nextOp := st.nextOp + 1 }) 8 none
          (r.f.e == 1) false)

/-- An engine command in a strand that is not of role C, and a sequencer operation in one that is not of role M, trap with ROLE
once the checks of the encoding have passed (R212, R274, R348). -/
def RoleSays : Prop :=
  ∀ i f (pre : State → Strand → Option Nat) role s id st,
    ((∃ r, engRow i = some r ∧ f = r.f ∧ pre = r.pre ∧ role = 2) ∨
      ∃ r, seqRow i = some r ∧ f = r.f ∧ pre = r.pre ∧ role = 1) →
    s.cur = some id → s.strand id = some st → st.resume = none → st.canTrap s → wellFormed i = true →
    st.allocOk (rowOf i) f = true → overlapOk (rowOf i) f = true →
    st.nowAdm (rowOf i) f = 0 ∨ pre s st = none → st.role ≠ role →
    ∃ t, exec i s = .next t ∧ Trapped s t id st .role 0 (st.nowAdm (rowOf i) f)

/-- SEQ_OP_START: the head of a queue starts, alone, once what its strand accessed before it is performed (R232); a SEEDDROP acts
there and leaves (R349, R350, R381). A loop that starts uses the kept fragment only where that is what its first step reads, and any
other operation loses it (R359). -/
def SeqStartSays : Prop :=
  ∀ s d c o r, (s.core d c).seq = o :: r → o.started = false → s.opHeld o = false →
    (∀ slot, o.kind = .seeddrop slot → exec (.seqOpStart d c) s =
      .next ((s.modCore d c fun x => { x with seq := x.seq.drop 1, kept := none }).seedDropAll (o.ctx, o.kid) slot)) ∧
    ((∀ slot, o.kind ≠ .seeddrop slot) →
      ∃ t g hit, exec (.seqOpStart d c) s = .next t ∧ t = s.modCore d c g ∧
        (g (s.core d c)).seq = { o with started := true, hit := hit } :: r ∧ (g (s.core d c)).tiles = (s.core d c).tiles ∧
        (g (s.core d c)).seeds = (s.core d c).seeds ∧ (g (s.core d c)).bslice = (s.core d c).bslice ∧
        (g (s.core d c)).kept = (if hit then (s.core d c).kept else none) ∧
        ((∀ n kind sx x, o.kind ≠ .mloop n kind sx x) → hit = false) ∧
        (∀ n kind sx x, o.kind = .mloop n kind sx x → (hit = true ↔ o.step = 0 ∧ o.pass = 0 ∧
          ∃ st, s.strand o.strand = some st ∧ s.keptHit (s.core d c) st x = true)))

/-- What a loop reads of a fragment that it uses is what the scratchpad or the B-slice holds (R359). -/
def FragmentSays : Prop :=
  ∀ (s : State) (x : Core) (st : Strand) (d : LoopDesc) (o : MatOp) (q : Kept) off n, x.kept = some q →
    s.keptHit x st d = true → q.off.toNat ≤ off → off + n ≤ q.off.toNat + q.bytes.length →
    let bs := if q.inB then cgets x.bslice off n else s.scrGets st off n
    o.fragment x q.inB off n bs = bs

/-- A seed slot of the kernel is dropped on every core: Free, or Retiring while an operation has it captured; its bytes
read zero (R381). -/
def SeedDropSays : Prop :=
  ∀ (s : State) own slot k src, s.kernel own.1 own.2 = some k → tget k.seeds slot = some src →
    ∀ d c q, d < s.dies.length → c < (s.die d).cores.length → tget (s.core d c).seeds slot = some q → q.owner = own →
      q.retiring = false →
      let t := s.seedDropAll own slot
      tget (t.core d c).seeds slot = (if q.captures = 0 then none else some { q with retiring := true }) ∧
      ∀ a, cget (t.core d c).bslice a =
        if 0xA0000 + 96 * slot ≤ a ∧ a < 0xA0000 + 96 * slot + 96 then 0 else cget (s.core d c).bslice a

/-- MLOOP_STEP: one step, or one basis pass, of the loop at the head; no tile but its own differs, no register and no
memory (R356 to R358). -/
def LoopStepSays : Prop :=
  ∀ s d c o r st n kind sx x, (s.core d c).seq = o :: r → o.kind = .mloop n kind sx x → s.strand o.strand = some st →
    o.started = true → o.err = none → o.step < x.steps → d < s.dies.length → c < (s.die d).cores.length →
    ∃ t, exec (.mloopStep d c) s = .next t ∧ t.strands = s.strands ∧ t.mem = s.mem ∧
      (∃ p, (t.core d c).seq = p :: r ∧ p.kind = o.kind ∧ p.strand = o.strand ∧
        (x.mode < 5 → p.step = o.step + 1) ∧
        (5 ≤ x.mode → p.step = (if seedJ (nth (0, []) x.recs o.step).2 ≤ o.pass + 1 then o.step + 1 else o.step))) ∧
      (∀ k, k ≠ n → nth Tile.free (t.core d c).tiles k = nth Tile.free (s.core d c).tiles k) ∧
      (∀ a, cget (t.core d c).bslice a = cget (s.core d c).bslice a) ∧
      (n < (s.core d c).tiles.length →
        nth Tile.free (t.core d c).tiles n = { nth Tile.free (s.core d c).tiles n with
          entries := (nth Tile.free (t.core d c).tiles n).entries, ovm := (nth Tile.free (t.core d c).tiles n).ovm,
          ixm := (nth Tile.free (t.core d c).tiles n).ixm }) ∧
      (x.mode < 5 → (t.core d c).kept = match x.keep with
        | some inB => if o.step + 1 = x.steps then some (s.fragmentAt (s.core d c) st x inB o.step) else none
        | none => none)

/-- The sum of entry (i, n) in a real mode: the entry and the sixteen exact products, rounded once (R48, R356). -/
def realEntry (s : State) (st : Strand) (o : MatOp) (c : Core) (f : FFmt) (env : FEnv) (x : LoopDesc) (k : Nat) (i n : Nat)
    (v : BitVec 64) : FRes :=
  let ao := ((x.aoff : Int) + x.ainc * k).toNat
  let bo := ((x.boff : Int) + x.binc * k).toNat
  sumTerms fmtF32 env ((fmtF32.decIn env (v.toNat % 2 ^ 32)).term :: (List.range 16).map fun j =>
    let p := ao + i * x.apitch + 2 * j
    let q := bo + 32 * n + 2 * j
    (f.decIn env (leVal (o.fragment c false p 2 (s.scrGets st p 2)))).prod
      (f.decIn env (leVal (o.fragment c true q 2 (cgets c.bslice q 2)))))

/-- A step of .f16 or .bf16: every entry of the 32 by 64 tile (R354, R356). -/
def RealStepSays : Prop :=
  ∀ s d c o r st n kind sx x, (s.core d c).seq = o :: r → o.kind = .mloop n kind sx x → s.strand o.strand = some st →
    o.started = true → o.err = none → o.step < x.steps → d < s.dies.length → c < (s.die d).cores.length →
    x.mode < 2 → n < (s.core d c).tiles.length →
    ∃ t, exec (.mloopStep d c) s = .next t ∧ ∀ i j, i < 32 → j < 64 →
      cget (nth Tile.free (t.core d c).tiles n).entries (64 * i + j) =
        BitVec.ofNat 64 (realEntry s st o (s.core d c) (if x.mode = 1 then fmtBF16 else fmtF16) (FEnv.ofFmt o.fmt) x
          o.step i j (cget (nth Tile.free (s.core d c).tiles n).entries (64 * i + j))).bits

/-- MATRIX_OP_COMPLETE: the head has its effect and leaves, its captures end, its flags reach STS and then c3 falls
(R349, R350, R356, R361 to R364, R383); one whose operands had met an error leaves it to WAITC and has no effect (R368). -/
def MatrixDoneSays : Prop :=
  ∀ s d c o r st, (s.core d c).seq = o :: r → s.strand o.strand = some st → o.started = true → st.marks = [] →
    st.run ≠ .draining → (∀ p, st.op o.opId = some p → p.bad = 0) →
    (o.err = none → (∀ n kind sx x, o.kind = .mloop n kind sx x → x.steps ≤ o.step) →
      ∀ s1 fl u, s.matEffect d c st o = (s1, fl) → s1.strand o.strand = some u → u.marks = [] → u.run ≠ .draining →
      (∀ p, u.op o.opId = some p → p.bad = 0) →
      ∃ t, exec (.matrixOpComplete d c) s = .next t ∧
        Puts ((s1.letGo o).modCore d c fun x => { x with seq := x.seq.drop 1 }) t o.strand
          ((u.addFlags fl).finishes o.opId none s1.waitLines)) ∧
    (∀ e, o.err = some e → ∃ t, exec (.matrixOpComplete d c) s = .next t ∧
      Puts ((s.letGo o).modCore d c fun x => { x with seq := x.seq.drop 1 }) t o.strand
        ((st.addFlags o.flags).finishes o.opId
          (some { path := 3, cause := e, pc := o.pc, va := 0, time := s.gtime }) s.waitLines))

/-- Where element e of a block of width w lies, from its first register on (R59). -/
def blockAt (w e : Nat) : Nat := 8 * (e / w) + e % w

/-- MRD to registers: each thread that executes an element (R76) receives the converted entries of its row; with .free the tile is
Free, and its contents stay until the next MCLR (R361, R362, R370). -/
def MrdRegSays : Prop :=
  ∀ (s : State) (d c : Nat) (st : Strand) (o : MatOp) n kind sx fm row col dst len w fr,
    o.kind = .mrdReg n kind sx fm row col dst len w fr → s.strand o.strand = some st → 1 ≤ w → w ≤ 8 →
    let m (e : Nat) : Mask := if len = 1 then o.mask else elemMask o.rs o.mask e
    ∃ s1 fl u, s.matEffect d c st o = (s1, fl) ∧ s1.strand o.strand = some u ∧
      (∀ e th, e < len → th < 16 → mHas (m e) th = true → u.vget (dst + blockAt w e) th =
        BitVec.ofNat 32 (mrdConv kind sx fm (FEnv.ofFmt o.fmt)
          (cget (nth Tile.free (s.core d c).tiles n).entries (tileIdx kind (row + th) (col + e)))).1) ∧
      (∀ k th, th < 16 → (∀ e, e < len → k = dst + blockAt w e → mHas (m e) th = false) → u.vget k th = st.vget k th) ∧
      (d < s.dies.length → c < (s.die d).cores.length → n < (s.core d c).tiles.length →
        nth Tile.free (s1.core d c).tiles n = { nth Tile.free (s.core d c).tiles n with
          held := if fr then none else (nth Tile.free (s.core d c).tiles n).held })

/-- What MBLD leaves in the B-slice (R363): the scratchpad's bytes. -/
def MbldSays : Prop :=
  ∀ (s : State) (d c : Nat) (st : Strand) (o : MatOp) dst src len, o.kind = .mbld dst src len → d < s.dies.length → c < (s.die d).cores.length →
    ∃ s1, s.matEffect d c st o = (s1, flagNone) ∧ ∀ a, cget (s1.core d c).bslice a =
      if dst ≤ a ∧ a < dst + len then s.scrGet st (src + (a - dst)) else cget (s.core d c).bslice a

/-- SEEDLD (R380): a well-formed record whose slot may be written is Valid on the issuing core at once and in the kernel's
list; one already Valid with the same bytes from the same place changes nothing, and with others traps; c3 counts the load until
every core of the kernel holds it. What began before it at the slot comes first (R384). -/
def SeedldSays : Prop :=
  ∀ f s id st, Passes (.seedld f) (rowOf (.seedld f)) f (fun u m => if m = 0 then none else slotPre f.b u) s id st →
    let m := st.nowAdm (rowOf (.seedld f)) f
    let ptr := (st.sget64 (f.a.toNat - 128)).toNat
    let slot := (st.sval f.b.toNat).toNat
    let own := (st.ctx, st.kid)
    let off (u : State) : State := u.seedUnqueue st.d st.k slot [id]
    let post (bs : List Byte) : Strand := { st with walkParked := false }.posted (st.newOp 3 m (.seedld slot ptr bs) [])
    (m = 0 → ∃ t, exec (.seedld f) s = .next t ∧ Ends s t id st st 8 none (f.e == 1) false) ∧
    (m ≠ 0 → 2 ^ 48 ≤ ptr → st.canTrap s → ∃ t, exec (.seedld f) s = .next t ∧ Trapped (off s) t id st .window 0 m) ∧
    (m ≠ 0 → ptr < 2 ^ 48 → ptr % 16 ≠ 0 → st.canTrap s →
      ∃ t, exec (.seedld f) s = .next t ∧ Trapped (off s) t id st .align 0 m) ∧
    (m ≠ 0 → ptr < 2 ^ 48 → ptr % 16 = 0 → st.full 3 = false → st.accPending = false →
      ∀ s1 bs, s.seedRead { st with walkParked := false } ptr 6 = (s1, .ok bs) →
      (seedOk bs = false → st.canTrap s → ∃ t, exec (.seedld f) s = .next t ∧ Trapped (off s) t id st .illop 0 m) ∧
      (seedOk bs = true → (s1.core st.d st.k).seedValid own slot = false → s1.seedHeld st.d st.k own slot = false →
        s1.seedTurn st.d st.k slot [id] = true →
        ∃ t, exec (.seedld f) s = .next t ∧
          Ends (off ((s1.seedPut st.d st.k own slot ptr bs).modKernel st.ctx st.kid fun k => { k with
            seeds := tput k.seeds slot ptr })) t id st (post bs) 8 none (f.e == 1) false) ∧
      (seedOk bs = true → (s1.core st.d st.k).seedValid own slot = true →
        ((s1.core st.d st.k).seedBytes slot = bs ∧ ((tget (s1.core st.d st.k).seeds slot).map (·.src)) = some ptr →
          ∃ t, exec (.seedld f) s = .next t ∧ Ends (off s1) t id st (post bs) 8 none (f.e == 1) false) ∧
        (¬ ((s1.core st.d st.k).seedBytes slot = bs ∧ ((tget (s1.core st.d st.k).seeds slot).map (·.src)) = some ptr) →
          st.canTrap s → ∃ t, exec (.seedld f) s = .next t ∧ Trapped (off s) t id st .seedro 0 m)))

/-- SEEDLD_REMOTE_LOAD: one more core of the kernel loads the record from its place in memory, as a reload does, and with the last
the operation falls (R377, R380). -/
def SeedRemoteSays : Prop :=
  ∀ s id n st o slot src b0 d c, s.strand id = some st → st.op n = some o → o.kind = .seedld slot src b0 → o.fin = false →
    st.simple o → (d, c) ∈ s.seedLeft (st.ctx, st.kid) slot o.replies → s.linkSlow o.die d = false →
    s.linkDead o.die d = false → d < s.dies.length → c < (s.die d).cores.length →
    ∀ bs, s.reloadRead { load := some (id, n), ctx := st.ctx, kid := st.kid, iid := st.iid, sid := st.sid, die := d, core := c }
      slot src = .put bs → bs.length = 96 →
    let s1 := (s.seedPut d c (st.ctx, st.kid) slot src bs).seedUnqueue d c slot [id, n]
    let rs := if o.replies.contains (16 * d + c) then o.replies else (16 * d + c) :: o.replies
    (s1.core d c).seedValid (st.ctx, st.kid) slot = true ∧ (s1.core d c).seedBytes slot = bs ∧
    ∃ t, exec (.seedldRemoteLoad id n d c) s = .next t ∧
      (s1.seedLeft (st.ctx, st.kid) slot rs = [] →
        Puts s1 t id ((st.modOp n fun p => { p with replies := rs, fin := true }).fall s.waitLines)) ∧
      (s1.seedLeft (st.ctx, st.kid) slot rs ≠ [] → Puts s1 t id (st.modOp n fun p => { p with replies := rs }))

end Sys2Proof.Machine
end

