-- ==== Sys2Proof/Safety/Flight.lean ====
section
/-! DEFINITION. The events in which loads, stores, atomics and exact-sum operations are performed (R71, R195 to R206, R210,
R239, R241), and what each does to the bytes of memory, as relations between the machine before and after. -/

namespace Sys2Proof.Machine

/-! Data in memory and in registers. -/

/-- The words that a load puts in its registers, by its size (R195): bytes and half words extended by their sign or by
zeros, words, and 2 or 4 words in ascending order. -/
def loadRef (m3 : Nat) (bs : List Byte) : List Word :=
  let w (i : Nat) : Word := nth 0 bs (4 * i + 3) ++ nth 0 bs (4 * i + 2) ++ nth 0 bs (4 * i + 1) ++ nth 0 bs (4 * i)
  match m3 with
  | 0 => [(nth 0 bs 0).signExtend 32]
  | 1 => [(nth 0 bs 0).zeroExtend 32]
  | 2 => [(nth 0 bs 1 ++ nth 0 bs 0).signExtend 32]
  | 3 => [(nth 0 bs 1 ++ nth 0 bs 0).zeroExtend 32]
  | 4 => [w 0]
  | 5 => [w 0, w 1]
  | _ => [w 0, w 1, w 2, w 3]
/-- Bytes of a size code (R195). -/
def loadSize (m3 : Nat) : Nat := match m3 with
  | 0 | 1 => 1
  | 2 | 3 => 2
  | 4 => 4
  | 5 => 8
  | _ => 16
def LoadWordsSays : Prop :=
  ∀ m3 (bs : List Byte), m3 < 7 → bs.length = loadSize m3 → loadWords m3 bs = loadRef m3 bs ∧ sizeOf3 m3 = loadSize m3

/-- The integer atomics at 32 and 64 bits (R202): the new value from the old one, the operand and the comparand. -/
def AtomNewSays : Prop :=
  ∀ op ty (old b cmp : Nat), ty = 0 ∨ ty = 1 ∨ ty = 3 →
    let w := if ty = 3 then 64 else 32
    old < 2 ^ w → b < 2 ^ w → cmp < 2 ^ w →
    let x : BitVec w := BitVec.ofNat w old
    let y : BitVec w := BitVec.ofNat w b
    let less (p q : BitVec w) : Prop := if ty = 0 then p.toInt < q.toInt else p.toNat < q.toNat
    (op = 0 → atomNew op ty old b cmp = (x + y).toNat) ∧
    (op = 1 → (less y x → atomNew op ty old b cmp = b) ∧ (¬ less y x → atomNew op ty old b cmp = old)) ∧
    (op = 2 → (less x y → atomNew op ty old b cmp = b) ∧ (¬ less x y → atomNew op ty old b cmp = old)) ∧
    (op = 3 → atomNew op ty old b cmp = (x &&& y).toNat) ∧
    (op = 4 → atomNew op ty old b cmp = (x ||| y).toNat) ∧
    (op = 5 → atomNew op ty old b cmp = (x ^^^ y).toNat) ∧
    (op = 6 → atomNew op ty old b cmp = b) ∧
    (op = 7 → (old = cmp → atomNew op ty old b cmp = b) ∧ (old ≠ cmp → atomNew op ty old b cmp = old))

/-! Performing. -/

/-- The strand with its operation n performed: every access done, the operation ended; `wait` are the lines whose write-back waits for
spill memory. -/
def Strand.performed (st : Strand) (n : Nat) (wait : List Nat) : Strand :=
  (st.modOp n fun o => { o with
    accs := o.accs.map (fun a => if a.thread < 16 then { a with done := true } else a), fin := true }).fall wait

/-- A strand's access operation that may be performed: the strand is resident, the operation going, and no earlier access of
the strand stands before any of its accesses (R197, R198, R206). -/
structure MayPerform (s : State) (id n : Nat) (st : Strand) (o : Op) : Prop where
  here : s.strand id = some st
  op : st.op n = some o
  going : o.fin = false
  resident : st.resident = true
  clear : ∀ a, a ∈ o.accs → waitsFor (st.earlier n) o.kind o.kind.isAccess a = false
  threads : ∀ a, a ∈ o.accs → a.thread < 16
  simple : st.simple o

/-- LOAD_DATA_RETURN (R196, R199): the words at the access's address go to the registers of its thread, and with U to those
of every thread; nothing but the strand differs from the machine once the lines that the event names are replaced, the cores that
an .rmt acquire asks have answered again (R240) and the acquire is performed, and every core reads every byte as then. -/
def LoadReturnSays : Prop :=
  ∀ s id n th victims st o m3 uni ord, s.strand id = some st → st.op n = some o → o.kind = .load m3 uni ord →
    st.resident = true → st.marks = [] → st.run ≠ .draining → (ord.rmt = true → s.answered o = true) →
    let as := o.accs.filter fun a => !a.done && (uni || a.thread == th)
    let s1 := (s.evictAll st.d st.k victims).promoteAccs st.d ord as
    let s2 := s1.accAcquire st ord
    ∀ a r, as = a :: r → (∀ x, x ∈ as → waitsFor (st.earlier n) o.kind true x = false) → s1.promotedAccs st.d ord as = true →
      (a.win = .glob → s1.readHeld st.d st.k a.pa a.size = false) →
      (a.win = .glob → s2.coreBads st.d st.k a.pa a.size = none) →
      ∃ t w, exec (.loadDataReturn id n th victims) s = .next t ∧ t.strand id = some w ∧
        w.v = (as.foldl (fun u x => u.vputs x.reg x.thread (loadWords m3 (s2.accBytes st a))) st).v ∧
        w.s = st.s ∧ w.q = st.q ∧ w.x = st.x ∧ w.sts = st.sts ∧ w.pc = st.pc ∧ w.mask = st.mask ∧
        ((∀ x, x ∈ o.accs → x.done = true ∨ x ∈ as) → (∀ x, x ∈ o.accs → x.thread < 16) →
          ∀ p, w.op n = some p → p.fin = true) ∧
        (∀ j, j ≠ id → t.strand j = s2.strand j) ∧ (∀ p, cget t.mem p = cget s2.mem p) ∧
        ∀ d c p, t.coreGet d c p = s2.coreGet d c p

/-- STORE_PERFORMED (R197): the release actions of the store, its threads' writes in thread order, and the actions that
bring its own bytes to the point of its scope; its operation ends. -/
def StoreDoneSays : Prop :=
  ∀ s id n victims st o ord, MayPerform s id n st o → o.kind = .store ord →
    (ord.rel = true → ∀ e, e ∈ st.earlier n → e.isAccess = true → e.unperformed = false) → s.relWaits st o.kind = false →
    (∀ a, a ∈ o.accs → s.storeHeld st ord a = false) →
    let s1 := (s.evictAll st.d st.k victims).relDo st o.kind
    let s2 := o.accs.foldl (fun x a => x.performStore st ord a) s1
    let s3 := (s2.storeUncorr st o.pc o.accs).ownDo st o.kind
    ∃ t, exec (.storePerformed id n victims) s = .next t ∧ Puts s3 t id (st.performed n s3.waitLines)

/-- The last access of a list that covers a byte. -/
def lastOver (as : List Acc) (p : Nat) : Option Acc :=
  (as.filter fun a => decide (a.pa ≤ p) && decide (p < a.pa + a.size)).getLast?

/-- A plain store (neither a release nor one that allocates nothing) to memory outside the exact regions: its core reads in
every stored byte the byte of the last thread that stored there, and every other byte as before; no other core reads any
byte differently, and home memory does not change (R75, R197, R211, R239). -/
def StoreBytesSays : Prop :=
  ∀ s id n st o ord, MayPerform s id n st o → o.kind = .store ord → ord.rel = false → ord.hint ≠ 3 →
    (∀ a, a ∈ o.accs → a.win = .glob ∧ ∀ i, i < a.size → s.regionOf (a.pa + i) = none) → s.lostStore o.accs = none →
    st.d < s.dies.length → st.k < (s.die st.d).cores.length →
    ∃ t, exec (.storePerformed id n []) s = .next t ∧
      (∀ p, t.coreGet st.d st.k p = match lastOver o.accs p with
        | some a => BitVec.ofNat 8 (a.data / 2 ^ (8 * (p - a.pa)))
        | none => s.coreGet st.d st.k p) ∧
      (∀ d c p, ¬ (d = st.d ∧ c = st.k) → t.coreGet d c p = s.coreGet d c p) ∧
      (∀ p, cget t.mem p = cget s.mem p) ∧ (∀ j, j ≠ id → t.strand j = s.strand j)

/-- An operation below the L1 column whose request goes now: none of its updates is applied, and no reply of it is lost. -/
structure Fresh (s : State) (id n : Nat) (st : Strand) (o : Op) : Prop where
  may : MayPerform s id n st o
  unapplied : o.applied = []
  replied : s.replyLost id n = false

/-- ATOMIC_PERFORMED (R203): the accesses in thread order, one at a location. With its reply at once the operation ends with the
failures it met, which leave a pending trap that re-issues their threads (R199). With its reply on the way the locations have
their new values, and the operation holds the tags of its updates until the reply comes (R456). -/
def AtomDoneSays : Prop :=
  ∀ s id n st o k ty uni ord, Fresh s id n st o → o.kind = .atom k ty uni ord →
    (ord.rel = true → ∀ e, e ∈ st.earlier n → e.isAccess = true → e.unperformed = false) → s.relWaits st o.kind = false →
    (ord.rmt = true → s.answered o = true) →
    let s1 := (s.relDo st o.kind).promoteAccs st.d ord o.accs
    s1.promotedAccs st.d ord o.accs = true →
    (∀ s2 u c, s1.atomAll st k ty ord (if uni then [o.accs] else o.accs.map fun a => [a]) = some (s2, u, 0, c) →
      ∃ t w, exec (.atomicPerformed id ⟨n, true⟩) s = .next t ∧ Puts s2 t id w ∧ w.v = u.v ∧ w.s = u.s ∧ w.pend = u.pend ∧
        ∀ p, w.op n = some p → p.fin = true) ∧
    (∀ s2 ts vs, s1.atomApply st k ty ord (if uni then o.accs.take 1 else o.accs) = some (s2, ts, vs) → ts ≠ [] →
      ∃ t, exec (.atomicPerformed id ⟨n, false⟩) s = .next t ∧ t.mem = s2.mem ∧
        t.strand id = some (st.modOp n fun _ => { o with applied := ts }) ∧
        (∃ m, t.msgs = s2.msgs ++ [m] ∧ m.repliesTo id n = true ∧ m.cls = 4 ∧ m.dst = 24 * st.d + coreTile st.k) ∧
        ∀ j, j ≠ id → t.strand j = s2.strand j)

/-- ATOMIC_PERFORMED of an operation that slices have applied: the values of its reply, or those that the slices' records return for
its reissued request, go to the registers, and the operation ends without a second update (R455 to R458). -/
def AtomReplySays : Prop :=
  ∀ s id n st o k ty uni ord back vals, s.strand id = some st → st.op n = some o → o.kind = .atom k ty uni ord → o.fin = false →
    st.resident = true → st.simple o → s.replyLost id n = false → o.applied ≠ [] → s.answer id st o = some vals →
    ∃ t w, exec (.atomicPerformed id ⟨n, back⟩) s = .next t ∧ Puts (s.replyIn id n) t id w ∧
      w.v = (st.atomReply ty o.accs vals).v ∧ w.s = st.s ∧ t.mem = s.mem ∧
      ((∀ a, a ∈ o.accs → a.thread < 16) → ∀ p, w.op n = some p → p.fin = true)

/-- One atomic access of memory without ordering (R202, R203, R239): what the column and the die held of its sectors is
written back and given up, the registers receive the old value, and its bytes at home become the new one. -/
def AtomBytesSays : Prop :=
  ∀ (s : State) st op ty ord a, a.win = .glob → ord.acq = false → ord.rel = false → s.heldFrom st.d a.pa = false →
    let s1 := s.flushRange st.d st.k a.pa a.size
    let old := leVal (cgets s1.mem a.pa a.size)
    ((List.range a.size).findSome? fun i => s1.readBadFrom st.d (a.pa + i)) = none →
    ∃ r, s.performAtom st op ty ord [a] = some r ∧ r.bad = none ∧
      r.st = st.vputs a.reg a.thread (if ty = 3 then [BitVec.ofNat 32 old, BitVec.ofNat 32 (old / 2 ^ 32)] else [BitVec.ofNat 32 old]) ∧
      (∀ p, cget r.s.mem p = if a.pa ≤ p ∧ p < a.pa + a.size
        then BitVec.ofNat 8 (atomNew op ty old a.data a.data2 / 2 ^ (8 * (p - a.pa))) else cget s1.mem p) ∧
      r.s.strands = s.strands

/-- The accesses of exact-sum operation n in thread order, none of which fails. -/
def sumSteps (n : Nat) (k : OpKind) : List Acc → State × Strand → Option (State × Strand)
  | [], x => some x
  | a :: r, x =>
    let p := x.1.performSum x.2 n k a
    match p.bad with
    | some _ => none
    | none => sumSteps n k r (p.s, p.st)

/-- EXACT_SUM_PERFORMED (R52, R204 to R206): the cells take their contributions, give their values or become zero in thread order.
With its reply at once, as a read always has it, the operation ends; with its reply on the way it holds its tags (R456). -/
def SumDoneSays : Prop :=
  ∀ s id n st o, Fresh s id n st o →
    ((∃ ty, o.kind = .sumx ty) ∨ o.kind = .sumclr ∨ ∃ a b c, o.kind = .sumrd a b c) →
    (∀ a, a ∈ o.accs → s.heldFrom st.d a.pa = false) →
    ∀ s1 u, sumSteps n o.kind o.accs (s, st) = some (s1, u) → u.op n = some o → u.marks = [] → u.run ≠ .draining →
      (∀ back, back = true ∨ (∃ a b c, o.kind = .sumrd a b c) →
        ∃ t w, exec (.exactSumPerformed id ⟨n, back⟩) s = .next t ∧ Puts s1 t id w ∧ w.v = u.v ∧ w.s = u.s ∧
          ∀ p, w.op n = some p → p.fin = true) ∧
      ((∃ ty, o.kind = .sumx ty) ∨ o.kind = .sumclr → o.accs ≠ [] → o.err = none →
        ∃ t ts, exec (.exactSumPerformed id ⟨n, false⟩) s = .next t ∧ t.mem = s1.mem ∧
          t.strand id = some (u.modOp n fun _ => { o with applied := ts }) ∧ ts.map (·.1) = o.accs.map (·.thread) ∧
          ∀ j, j ≠ id → t.strand j = s1.strand j)

/-- EXACT_SUM_PERFORMED of an operation that slices have applied: it ends, and no cell changes again (R456, R458). -/
def SumReplySays : Prop :=
  ∀ s id n st o back vals, s.strand id = some st → st.op n = some o → o.kind.isSum = true → o.fin = false →
    st.resident = true → st.simple o → s.replyLost id n = false → o.applied ≠ [] → s.answer id st o = some vals →
    ∃ t w, exec (.exactSumPerformed id ⟨n, back⟩) s = .next t ∧ Puts (s.replyIn id n) t id w ∧ w.v = st.v ∧ w.s = st.s ∧
      t.mem = s.mem ∧ ((∀ a, a ∈ o.accs → a.thread < 16) → ∀ p, w.op n = some p → p.fin = true)

/-- A contribution to a cell and a cell's clearing, at its home (R50 to R52, R204, R206). -/
def SumBytesSays : Prop :=
  ∀ (s : State) st n a,
    let s1 := s.flushRange st.d st.k a.pa 64
    (∀ ty, s1.cellBad st.d a.pa = none → ∀ p,
      cget (s.performSum st n (.sumx ty) a).s.mem p = if a.pa ≤ p ∧ p < a.pa + 64
        then nth 0 ((Cell.ofBytes (cgets s1.mem a.pa 64)).add (contribution ty (BitVec.ofNat 32 a.data))).bytes (p - a.pa)
        else cget s1.mem p) ∧
    (s1.linkDead st.d (homeDie a.pa) = false → ∀ p,
      cget (s.performSum st n .sumclr a).s.mem p = if a.pa ≤ p ∧ p < a.pa + 64 then 0 else cget s1.mem p)

/-- PROMOTION_REQUEST (R241): a core answers a strand's oldest unperformed .rmt acquire; where its release filter has seen a line, it
first makes a release at package scope, and answers when nothing of that waits. A request that a Failed link loses counts as
answered, and its context is told (R432); over a link that retrains it waits (R431). -/
def PromotionSays : Prop :=
  ∀ s id d c st o, s.strand id = some st →
    (st.ops.find? fun o => o.isAccess && o.unperformed && o.kind.ordInfo.rmt) = some o →
    s.computing d = true → c < 16 → o.replies.contains (16 * d + c) = false →
    let u := st.modOp o.id fun p => { p with replies := (16 * d + c) :: p.replies }
    let ls := (o.accs.filter fun a => a.win == .glob).map fun a => lineOf a.pa
    let s1 := ls.foldl (fun x l => x.promote d c l) s
    (s.linkSlow st.d d = true → exec (.promotionRequest id d c) s = .next s) ∧
    (s.linkSlow st.d d = false → s.linkDead st.d d = true →
      ∃ t, exec (.promotionRequest id d c) s = .next t ∧ Puts (s.ctxEvent st.ctx 1) t id u) ∧
    (s.linkSlow st.d d = false → s.linkDead st.d d = false →
      (∀ l, l ∈ ls → (s1.core d c).filterAny = false ∧ (s1.core d c).filter.contains l = false) →
      ∃ t, exec (.promotionRequest id d c) s = .next t ∧ Puts s1 t id u)

/-- A core's promotion for a line: the release at package scope when its filter has the line or has overflowed; then the column holds no
dirty byte, and, where nothing waits for a link that retrains, the die no dirty copy, and the filter nothing (R241). -/
def PromoteSays : Prop :=
  ∀ (s : State) d c line,
    (((s.core d c).filterAny = false ∧ (s.core d c).filter.contains line = false) → s.promote d c line = s) ∧
    (((s.core d c).filterAny = true ∨ (s.core d c).filter.contains line = true) →
      let t := s.promote d c line
      (∀ a b, tget (t.core d c).l1 a = some b → b.dirty = false) ∧
      (t.copiesWait d = false → (t.core d c).filterAny = false ∧ (t.core d c).filter = [] ∧
        ∀ a b, tget (t.die d).copies a = some b → b.dirty = false))

/-- WRITE_BACK_ACKNOWLEDGED (R210): the write-back that a fence, a held request or the oldest releasing access waits for. -/
def WriteBackSays : Prop :=
  ∀ s id st, s.strand id = some st → st.resident = true →
    (∀ kind scope len, st.run = .waiting (.fence kind scope) len → kind ≠ 0 → st.accPending = false →
      exec (.writeBackAcknowledged id) s = .next (s.relAct st scope)) ∧
    (st.run = .running → st.hold.isSome = true → st.accPending = false →
      exec (.writeBackAcknowledged id) s = .next (s.relAct st (match st.hold with
        | some (.bar _) | some (.bara _) => 1
        | _ => 4))) ∧
    (∀ o ord, st.run = .running → st.hold = none → st.stalled = false → o.kind = .store ord → ord.rel = true →
      (st.ops.find? fun o => o.isAccess && o.unperformed && o.kind.releases && !o.kind.ordInfo.acked) = some o →
      (∀ e, e ∈ st.earlier o.id → e.isAccess = true → e.unperformed = false) →
      (s.relAct st ord.scope).relWaits st o.kind = false →
      ∃ t, exec (.writeBackAcknowledged id) s = .next t ∧
        Puts (s.relAct st ord.scope) t id (st.modOp o.id fun p => { p with kind := .store { ord with acked := true } }))

/-! What the acquire and release actions do to a core's column (R210). -/

/-- A release at die scope or wider leaves no dirty byte in the column, one at package scope or wider no dirty copy in the
die but for what waits for a link that retrains; an acquire leaves no clean byte in the column, and at package scope or wider no clean copy in the die. -/
def ScopeSays : Prop :=
  ∀ (s : State) d c scope wide, 3 ≤ scope ∨ (scope = 1 ∧ wide = true) →
    (∀ a b, tget ((s.release d c scope wide).core d c).l1 a = some b → b.dirty = false) ∧
    (4 ≤ scope → (s.release d c scope wide).copiesWait d = false →
      ∀ a b, tget ((s.release d c scope wide).die d).copies a = some b → b.dirty = false) ∧
    (∀ a b, tget ((s.acquire d c scope wide).core d c).l1 a = some b → b.dirty = true) ∧
    (4 ≤ scope → ∀ a b, tget ((s.acquire d c scope wide).die d).copies a = some b → b.dirty = true) ∧
    (∀ a, cget (s.acquire d c scope wide).mem a = cget s.mem a)

end Sys2Proof.Machine
end

