-- ==== Sys2Proof/Safety/Team.lean ====
section
/-! DEFINITION. Special registers, TRET, HALT and what touches only a strand's traps and timers (R73, R101, R267 to R278,
R317, R490), groups and barriers (R305 to R312, R325 to R331), stage rings (R334 to R341) and register growth (R318 to
R322), as relations between the machine before and after. -/

namespace Sys2Proof.Machine

/-- The instruction of strand `st` has entered Waiting (R78): its lane is free for others, and neither a register, nor the pc,
nor another part of the machine differs but the order of the waits. -/
structure Waits (s t : State) (id : Nat) (st : Strand) (wt : Wait) (len : Nat) : Prop where
  only : OnlyStrand { s with seqNo := s.seqNo + 1 } t id
  strand : ∃ w, t.strand id = some w ∧ w.run = .waiting wt len ∧ w.pc = st.pc ∧ w.mask = st.mask ∧
    w.s = st.s ∧ w.v = st.v ∧ w.q = st.q ∧ w.x = st.x ∧ w.sts = st.sts ∧ w.ops = st.ops ∧ w.c = st.c ∧ w.slots = st.slots

/-- The instruction is held (R260): it has had no effect and issues again. -/
structure Holds (s t : State) (id : Nat) (st : Strand) (r : Request) : Prop where
  others : ∀ j, j ≠ id → t.strand j = s.strand j
  rest : { t with strands := [], seqNo := 0 } = { s with strands := [], seqNo := 0 }
  strand : ∃ n, t.strand id = some { st with hold := some r, waitSeq := n }

/-! Special registers. -/

/-- The group in a slot of the strand. -/
def groupRef (s : State) (st : Strand) (slot : Nat) : Option Group := (nth none st.slots slot).bind fun g => s.groupOf g

/-- Special register n as thread t reads it (R73). -/
def srRef (s : State) (st : Strand) (n slot t : Nat) : DWord :=
  nth (st.sts.zeroExtend 64)
    [BitVec.ofNat 64 t, BitVec.ofNat 64 st.sid, BitVec.ofNat 64 st.iid, BitVec.ofNat 64 st.kid, BitVec.ofNat 64 st.role,
     BitVec.ofNat 64 st.k, BitVec.ofNat 64 st.d, BitVec.ofNat 64 st.ln,
     ((groupRef s st slot).map fun g => BitVec.ofNat 64 (g.members.idxOf (s.cur.getD 0))).getD 0xFFFFFFFF,
     ((groupRef s st slot).map fun g => BitVec.ofNat 64 g.members.length).getD 0,
     BitVec.ofNat 64 (s.die st.d).clk, BitVec.ofNat 64 s.gtime, st.tmr, st.epc, st.emask.zeroExtend 64,
     st.cause.zeroExtend 64] n

/-- RDSR, WRSR and TMSET (R268, R277, R278). -/
def sysRow : Instr → Option OnceRow
  | .rdsr f => some {
      sp := rowOf (.rdsr f), f := f, len := 8,
      effect := fun s st m u => u = st.putDest f.d.toNat m fun t =>
        let n := (f.c ++ f.b).toNat
        let x := srRef s st n f.a.toNat t
        if 10 ≤ n ∧ n ≤ 13 then [x.truncate 32, x.extractLsb' 32 32] else [x.truncate 32] }
  | .wrsr f => some {
      sp := rowOf (.wrsr f), f := f, len := 8, pre := fun _ => wrsrPre f,
      effect := fun _ st _ u =>
        let n := (f.c ++ f.b).toNat
        (n = 13 → u = { st with epc := st.sval64 f.a.toNat }) ∧
        (n = 14 → u = { st with emask := st.sval f.a.toNat &&& 0xFFFF }) ∧
        (n = 15 → u = { st with cause := st.sval f.a.toNat &&& 0xF0FFFFFF }) ∧
        (n = 16 → u = { st with sts := st.sts &&& ~~~st.sval f.a.toNat }) }
  | .tmset f => some {
      sp := rowOf (.tmset f), f := f, len := 8,
      effect := fun _ st _ u =>
        (f.m3 = 0 → u = { st with tcmp := st.sval64 f.a.toNat, tarmed := true }) ∧
        (f.m3 = 1 → u = { st with tcmp := st.tmr + st.sval64 f.a.toNat, tarmed := true }) ∧
        (f.m3 = 2 → u = { st with tarmed := false }) }
  | _ => none

/-- TRET (R276): RPC and its validity come back from the frame, which is no more; with SR_EPC unchanged since the entry the
strand goes on where the trap left it, with the threads of SR_EMASK; else at SR_EPC, with every thread. -/
def TretSays : Prop :=
  ∀ f s id st fr, Passes (.tret f) (rowOf (.tret f)) f tretPre s id st → st.nowAdm (rowOf (.tret f)) f ≠ 0 →
    st.frame = some fr → st.epc.toNat < 2 ^ 48 → st.epc.toNat % 2 = 0 →
    ∃ t, exec (.tret f) s = .next t ∧
      Stands s t id st
        (if st.epc = fr.epc0 then { st.allReady with
            rpc := fr.rpc, rpcv := fr.rpcv, frame := none, pc := fr.epc0,
            resume := some { elem := (fr.resume.map (·.elem)).getD 0, mask := st.emask.truncate 16 &&& fr.emask0,
                             kept := (fr.resume.map (·.kept)).getD [], upto := none } }
         else { st.allReady with rpc := fr.rpc, rpcv := fr.rpcv, frame := none, pc := st.epc, resume := none })
        (f.e == 1) false

/-- HALT (R490): the strand waits for the TAP where debugging is enabled, and takes BKPT where it is not. -/
def HaltSays : Prop :=
  ∀ s id st, Passes .halt specHalt (bareFields s.curIr) noPre s id st →
    st.nowAdm specHalt (bareFields s.curIr) ≠ 0 →
    (s.boot.dbg = true → ∃ t, exec .halt s = .next t ∧ Waits s t id st .halt 8) ∧
    (s.boot.dbg = false → st.canTrap s → ∃ t, exec .halt s = .next t ∧
      Trapped s t id st .bkpt 0xFFFF (st.nowAdm specHalt (bareFields s.curIr)))

/-- TAP_RESUME (R490): the halted strand stands behind its HALT and is Ready. -/
def TapResumeSays : Prop :=
  ∀ s id st len, s.strand id = some st → st.run = .waiting .halt len →
    (s.boot.dbg = true → ∃ t, exec (.tapResume id) s = .next t ∧
      Puts s t id (s.settle { st with pc := st.past len, run := .ready, waitCount := 0, resume := none })) ∧
    (s.boot.dbg = false → exec (.tapResume id) s = .next s)

/-- An encoding that is no instruction raises ILLOP with DETAIL 0; SR_EMASK holds the active threads not yet done (R101). -/
def IllegalSays : Prop :=
  ∀ s id st, s.cur = some id → s.strand id = some st → st.canTrap s →
    ∃ t, exec .encodingNotAnInstruction s = .next t ∧
      Trapped s t id st .illop 0 (st.mask &&& ((st.resume.map (·.mask)).getD 0xFFFF))

/-- A trap in Handler, or in a context without a trap vector, raises HFAULT instead: the strand stays as it was, and its
context is told (R275). -/
def NestedSays : Prop :=
  ∀ (s : State) id st c detail m, s.strand id = some st → st.frame.isSome = true ∨ (s.ctx st.ctx).tvec = 0 →
    s.trapAtIssue id st c detail m = s.ctxEvent st.ctx 2

/-- TIMER_EXPIRY (R269): an armed timer whose time has come is disarmed, and TIMER is pending; a waiting strand is Ready. -/
def TimerSays : Prop :=
  ∀ s id st, s.strand id = some st →
    (st.resident = true → st.tarmed = true → st.tcmp.toNat ≤ st.tmr.toNat → st.frame = none → st.run ≠ .faulted →
      st.run ≠ .draining → ∃ t w p, exec (.timerExpiry id) s = .next t ∧ Puts s t id w ∧
        w = { st with tarmed := false, run := w.run, pend := st.pend ++ [p] } ∧ p.info.cause = .timer ∧
        p.info.detail = 0 ∧ p.info.eng = none ∧
        ((∃ wt len, st.run = .waiting wt len) → w.run = .ready) ∧ ((∀ wt len, st.run ≠ .waiting wt len) → w.run = st.run)) ∧
    (st.tarmed = false ∨ st.tmr.toNat < st.tcmp.toNat → exec (.timerExpiry id) s = .next s)

/-- ASYNC_TRAP_TAKE (R274): at its boundary a strand takes its first pending trap, which is pending no more: one that is
re-issued at its instruction and threads, any other at the boundary. -/
def AsyncTrapSays : Prop :=
  ∀ s id st p, s.strand id = some st → st.run = .running → st.resident = true → st.stop = false → st.canTrap s →
    st.firstPend = some p → p.info.eng = none →
    ∃ t w fr, exec (.asyncTrapTake id) s = .next t ∧ OnlyStrand s t id ∧ t.strand id = some w ∧
      w.pc = (s.ctx st.ctx).tvec &&& ~~~1#64 ∧ w.frame = some fr ∧ w.cause = causeRef p.info.cause p.info.detail ∧
      w.pend = st.pend.erase p ∧ w.rpcv = false ∧ fr.rpc = st.rpc ∧ fr.rpcv = st.rpcv ∧ fr.depth = st.stack.length ∧
      w.s = st.s ∧ w.v = st.v ∧ w.q = st.q ∧ w.x = st.x ∧ w.sts = st.sts ∧ w.mask = st.mask ∧
      (p.reissue = true → w.epc = p.info.epc ∧ w.emask = p.info.emask.zeroExtend 32) ∧
      (p.reissue = false → p.info.cause ≠ .scmerge → w.epc = st.pc ∧
        w.emask = (st.mask &&& ((st.resume.map (·.mask)).getD 0xFFFF)).zeroExtend 32)

/-- SPIN_DEMOTION_TIMEOUT (R317): 4096 core cycles after it the demotion ends. -/
def SpinSays : Prop :=
  ∀ s id st, s.strand id = some st →
    (st.resident = true → st.spin.demoted = true → st.spin.since + 4096 ≤ (s.die st.d).clk →
      ∃ t, exec (.spinDemotionTimeout id) s = .next t ∧ Puts s t id { st with spin := Spin.empty }) ∧
    (st.spin.demoted = false ∨ (s.die st.d).clk < st.spin.since + 4096 → exec (.spinDemotionTimeout id) s = .next s)

/-! Groups. -/

/-- The record of a context and key is found where one stands on a die; a record whose members are all saved (R324) is found as on die
3, so that on no die may a strand join it (R305, R311). -/
def FindSays : Prop :=
  ∀ (s : State) ctx key,
    (∀ d g x, s.findGroup ctx key = some (d, g, x) → x.ctx = ctx ∧ x.key = key ∧
      (d < 3 → (g, x) ∈ (s.die d).groups) ∧ (3 ≤ d → (g, x) ∈ s.heldGroups)) ∧
    (s.findGroup ctx key = none → (∀ d e, d < 3 → e ∈ (s.die d).groups → ¬ (e.2.ctx = ctx ∧ e.2.key = key)) ∧
      ∀ e, e ∈ s.heldGroups → ¬ (e.2.ctx = ctx ∧ e.2.key = key))

/-- JOIN (R310, R311): a new group with the strand as its only member, or the strand as the last member of the group of its
context and key; or a result above 0xFFFF0000 and no group. -/
def JoinSays : Prop :=
  ∀ f s id st, Passes (.join f) (rowOf (.join f)) f noPre s id st →
    let m := st.nowAdm (rowOf (.join f)) f
    let key := st.sval f.a.toNat
    let slot := f.c.toNat
    let found := s.findGroup st.ctx key
    let fresh : Group := { ctx := st.ctx, key := key, members := [id], phase := 0, arrived := [] }
    let ends (s1 : State) (u : Strand) (r : Word) : Prop :=
      ∃ t, exec (.join f) s = .next t ∧ Ends s1 t id st (u.sset (f.d.toNat - 128) r) 8 none (f.e == 1) false
    (m = 0 → ∃ t, exec (.join f) s = .next t ∧ Ends s t id st st 8 none (f.e == 1) false) ∧
    (∀ d g x, m ≠ 0 → found = some (d, g, x) →
      (512 ≤ x.members.length → ends s st 0xFFFF0001) ∧
      (x.members.length < 512 → (nth none st.slots slot).isSome = true ∨ st.slots.contains (some g) = true →
        ends s st 0xFFFF0002) ∧
      (x.members.length < 512 → nth none st.slots slot = none → st.slots.contains (some g) = false →
        (d ≠ st.d ∨ 4 < (distinct ((st.d, st.k) :: s.groupCores [g])).length → ends s st 0xFFFF0003) ∧
        (d = st.d → (distinct ((st.d, st.k) :: s.groupCores [g])).length ≤ 4 →
          ends (s.modGroup g fun x => { x with members := x.members ++ [id] })
            { st with slots := upd st.slots slot (some g) } (BitVec.ofNat 32 x.members.length)))) ∧
    (m ≠ 0 → found = none →
      ((nth none st.slots slot).isSome = true → ends s st 0xFFFF0002) ∧
      (nth none st.slots slot = none →
        (2048 ≤ (s.die st.d).groups.length → ends s st 0xFFFF0004) ∧
        ((s.die st.d).groups.length < 2048 →
          ends ({ s with nextGroup := s.nextGroup + 1 }.modDie st.d fun x => { x with groups := tput x.groups s.nextGroup fresh })
            { st with slots := upd st.slots slot (some s.nextGroup) } 0)))

/-- LEAVE (R312): the slot is empty; the last member's going frees the record, any other's leaves the rest in order. -/
def LeaveSays : Prop :=
  ∀ f s id st, Passes (.leave f) (rowOf (.leave f)) f noPre s id st →
    let m := st.nowAdm (rowOf (.leave f)) f
    (m = 0 ∨ nth none st.slots f.c.toNat = none →
      ∃ t, exec (.leave f) s = .next t ∧ Ends s t id st st 8 none (f.e == 1) false) ∧
    (∀ g x, m ≠ 0 → nth none st.slots f.c.toNat = some g → s.groupOf g = some x →
      ((∀ j, j ∈ x.members → j = id) → ∃ t, exec (.leave f) s = .next t ∧
        Ends (s.dropGroup g) t id st { st with slots := upd st.slots f.c.toNat none } 8 none (f.e == 1) false) ∧
      ((∃ j, j ∈ x.members ∧ j ≠ id) → ∃ t, exec (.leave f) s = .next t ∧
        Ends (s.modGroup g fun y => y.leave id) t id st { st with slots := upd st.slots f.c.toNat none } 8 none
          (f.e == 1) false))

/-- A group's phase (R326, R327): it completes, and none is marked arrived, exactly when every member has arrived and the
greatest count that was asked for, the member count where it is 0, is reached. -/
def PhaseSays : Prop :=
  ∀ g : Group,
    let all := g.members ≠ [] ∧ (∀ j, j ∈ g.members → ∃ a, a ∈ g.arrived ∧ a.1 = j) ∧
      ∀ a, a ∈ g.arrived → a.2 ≤ g.members.length
    (all → g.check = { g with phase := (g.phase + 1) % 2 ^ 32, arrived := [] }) ∧ (¬ all → g.check = g)

/-- A token's phase has completed: the group stands 1 to 2^31 phases past it (R331). -/
def TokenSays : Prop :=
  ∀ now token, now < 2 ^ 32 → token < 2 ^ 32 →
    (phasePast now token = true ↔ 1 ≤ ((BitVec.ofNat 32 now) - (BitVec.ofNat 32 token)).toNat ∧
      ((BitVec.ofNat 32 now) - (BitVec.ofNat 32 token)).toNat ≤ 2 ^ 31)

/-- A barrier instruction that admits no active thread does nothing (R95). -/
def BarNoneSays : Prop :=
  ∀ i c f s id st g r, i = .bar f ∧ c = true ∨ i = .bara f ∧ c = true ∨ i = .barw f ∧ c = false →
    Passes i (rowOf i) f (barPre c f) s id st → st.nowAdm (rowOf i) f = 0 → nth none st.slots f.c.toNat = some g →
    s.groupOf g = some r → ∃ t, exec i s = .next t ∧ Ends s t id st st 8 none (f.e == 1) false

/-- BAR, BARA and BARW (R328 to R331): an arrival makes the release actions, is marked with its count, and is the strand's
only one in its phase; BARA gives the phase; BAR and BARW pass with the acquire actions or wait. -/
def BarSays : Prop :=
  ∀ f s id st g r,
    nth none st.slots f.c.toNat = some g → s.groupOf g = some r →
    let s1 := (s.relAct st 1).modGroup g fun x => Group.check { x with arrived := x.arrived ++ [(id, st.arg f.a)] }
    let may := s.relReady st 1 = true ∧ ∀ a, a ∈ r.arrived → a.1 ≠ id
    (Passes (.bar f) (rowOf (.bar f)) f (barPre true f) s id st → st.nowAdm (rowOf (.bar f)) f ≠ 0 →
      (may → s1.phaseDone st f.c.toNat r.phase = true →
        ∃ t, exec (.bar f) s = .next t ∧ Ends (s1.acqAct st 1) t id st st 8 none (f.e == 1) false) ∧
      (may → s1.phaseDone st f.c.toNat r.phase = false →
        ∃ t, exec (.bar f) s = .next t ∧ Waits s1 t id st (.bar f.c.toNat r.phase) 8) ∧
      (¬ may → ∃ t, exec (.bar f) s = .next t ∧ Holds s t id st (.bar f))) ∧
    (Passes (.bara f) (rowOf (.bara f)) f (barPre true f) s id st → st.nowAdm (rowOf (.bara f)) f ≠ 0 →
      (may → ∃ t, exec (.bara f) s = .next t ∧
        Ends s1 t id st (st.sset (f.d.toNat - 128) (BitVec.ofNat 32 r.phase)) 8 none (f.e == 1) false) ∧
      (¬ may → ∃ t, exec (.bara f) s = .next t ∧ Holds s t id st (.bara f))) ∧
    (Passes (.barw f) (rowOf (.barw f)) f (barPre false f) s id st → st.nowAdm (rowOf (.barw f)) f ≠ 0 →
      (phasePast r.phase (st.arg f.a) = true →
        ∃ t, exec (.barw f) s = .next t ∧ Ends (s.acqAct st 1) t id st st 8 none (f.e == 1) false) ∧
      (phasePast r.phase (st.arg f.a) = false →
        ∃ t, exec (.barw f) s = .next t ∧ Waits s t id st (.barw f.c.toNat (st.arg f.a)) 8))

/-! Stage rings. -/

/-- Bits of a control word: PH of a stage, PEND of a stage, FERR (R334). -/
def wordSet (w n : Nat) : Nat := if w.testBit n then w else w + 2 ^ n
def wordClear (w n : Nat) : Nat := if w.testBit n then w - 2 ^ n else w

/-- A mark fires: PH of an empty stage, else PEND, else FERR (R339). -/
def fireRef (w k : Nat) : Nat :=
  if w.testBit k = false then wordSet w k else if w.testBit (16 + k) = false then wordSet w (16 + k) else wordSet w 32
/-- A stage is freed: PEND of a full stage, else PH; FERR of an empty one (R341). -/
def freeRef (w k : Nat) : Nat :=
  if w.testBit k = false then wordSet w 32 else if w.testBit (16 + k) then wordClear w (16 + k) else wordClear w k

/-- The fields of a ring instruction. -/
def ringFields : Instr → Option LFields
  | .ringp f | .ringpAfter f | .ringw f | .ringf f => some f
  | _ => none

/-- The ring instructions (R337 to R341). -/
def RingSays : Prop :=
  ∀ i f s id st, ringFields i = some f → Passes i (rowOf i) f noPre s id st →
    let m := st.nowAdm (rowOf i) f
    let off := (st.sval f.a.toNat).toNat
    let k := (st.sval f.b.toNat).toNat % (f.c.toNat % 16 + 1)
    let w := leVal (s.scrGets st off 8)
    let put (v : Nat) : State := s.scrPuts st off (leBytes 8 v)
    let ends (s1 : State) (u : Strand) : Prop := ∃ t, exec i s = .next t ∧ Ends s1 t id st u 8 none (f.e == 1) false
    (m = 0 → ends s st) ∧
    (m ≠ 0 → s.scrSize st < off + 8 → st.canTrap s → ∃ t, exec i s = .next t ∧ Trapped s t id st .window 0 m) ∧
    (m ≠ 0 → off + 8 ≤ s.scrSize st → off % 8 ≠ 0 → st.canTrap s → ∃ t, exec i s = .next t ∧ Trapped s t id st .align 0 m) ∧
    (m ≠ 0 → off + 8 ≤ s.scrSize st → off % 8 = 0 →
      (i = .ringp f →
        (w.testBit k = false → st.accPending = false → ends (put (wordSet w k)) st) ∧
        (w.testBit k = true ∨ st.accPending = true → ∃ t, exec i s = .next t ∧ Waits s t id st (.ringp off k) 8)) ∧
      (i = .ringpAfter f → st.marks.length < 4 →
        let l := (st.ops.filter fun o => !o.fin && o.path == f.d.toNat).map (·.id)
        (st.otherPending f.d.toNat = true → ∃ t, exec i s = .next t ∧ Puts s t id { st with stalled := true }) ∧
        (st.otherPending f.d.toNat = false → l = [] → ends (put (fireRef w k)) st) ∧
        (st.otherPending f.d.toNat = false → l ≠ [] → ends s { st with marks := st.marks ++ [{ off := off, stage := k, ops := l }] })) ∧
      (i = .ringw f →
        (w.testBit k = (f.m3 == 1) → ends (s.acqAct st 2) st) ∧
        (w.testBit k ≠ (f.m3 == 1) → ∃ t, exec i s = .next t ∧ Waits s t id st (.ringw off k (f.m3 == 1)) 8)) ∧
      (i = .ringf f →
        (st.accPending = false → ends (put (freeRef w k)) st) ∧
        (st.accPending = true → ∃ t, exec i s = .next t ∧ Puts s t id { st with stalled := true })))

/-! Register growth. -/

/-- A lane's free registers: 512 less those of its resident strands (R56). -/
def freeRef512 (s : State) (d c l : Nat) : Nat :=
  512 - (((s.strands.filter fun e => e.2.resident && e.2.d == d && e.2.k == c && e.2.ln == l).map (·.2.alloc)).sum)

/-- GROW (R318, R319): the allocation, and the predicate of the admitted threads set; it waits behind another GROW of its
lane, and while the lane has too few registers. -/
def GrowSays : Prop :=
  ∀ f s id st, Passes (.grow f) (rowOf (.grow f)) f (allocPre f) s id st →
    let m := st.nowAdm (rowOf (.grow f)) f
    let n := (st.sval f.a.toNat).toNat
    let ends (u : Strand) : Prop := ∃ t, exec (.grow f) s = .next t ∧ Ends s t id st u 8 none (f.e == 1) false
    let other := ∃ j u a b c len, s.strand j = some u ∧ u.resident = true ∧ u.d = st.d ∧ u.k = st.k ∧ u.ln = st.ln ∧
      u.run = .waiting (.grow a b c) len
    tabAbove 0 s.strands = true →
    (m = 0 → ends st) ∧
    (m ≠ 0 → n ≤ st.alloc → ends (st.qset f.d.toNat m 0xFFFF)) ∧
    (m ≠ 0 → st.alloc < n → ¬ other → n - st.alloc ≤ freeRef512 s st.d st.k st.ln →
      ends ({ st with alloc := n }.qset f.d.toNat m 0xFFFF)) ∧
    (m ≠ 0 → st.alloc < n → other ∨ freeRef512 s st.d st.k st.ln < n - st.alloc →
      ∃ t, exec (.grow f) s = .next t ∧ Waits s t id st (.grow n f.d.toNat m) 8)

/-- SHRINK (R322): the registers from the new allocation on are given up. -/
def ShrinkSays : Prop :=
  ∀ f s id st, Passes (.shrink f) (rowOf (.shrink f)) f (allocPre f) s id st →
    let m := st.nowAdm (rowOf (.shrink f)) f
    let n := (st.sval f.a.toNat).toNat
    (m = 0 ∨ st.alloc ≤ n → ∃ t, exec (.shrink f) s = .next t ∧ Ends s t id st st 8 none (f.e == 1) false) ∧
    (m ≠ 0 → n < st.alloc → (∀ r, r ∈ st.outstanding → r < n ∨ 128 ≤ r) →
      ∃ t u, exec (.shrink f) s = .next t ∧ Ends s t id st u 8 none (f.e == 1) false ∧
        u = { st with alloc := n, v := u.v } ∧
        ∀ r t, t < 16 → r < 128 → u.vget r t = if r < n then st.vget r t else 0)

end Sys2Proof.Machine
end

