-- ==== Sys2Proof/Safety/Kernel.lean ====
section
/-! DEFINITION. LAUNCH, queues, channels, reductions, DISPQ, DARN, BALLOON, DIESET and MEMFSP (R279 to R284, R294 to R304,
R414 to R424, R434 to R450, R466 to R479), and the events of queues, channels, reductions, darning units and ports, as
relations between the machine before and after. -/

namespace Sys2Proof.Machine

/-! LAUNCH. -/

/-- The reads that a LAUNCH makes (R284). -/
def launchReads (s : State) (st : Strand) (ptr : Nat) : State × LaunchRead :=
  (s.relAct st 4).launchRead st.d (fun x va => x.translate st.ctx st.d st.k (some st.ln) va kRead) ptr

/-- LAUNCH (R283, R284): WINDOW and ALIGN; an accepted record's kernel with its identifier in d; a rejected one's
0xFFFF0001; it is held while its release waits. -/
def LaunchSays : Prop :=
  ∀ f s id st, Passes (.launch f) (rowOf (.launch f)) f noPre s id st → st.nowAdm (rowOf (.launch f)) f ≠ 0 →
    let m := st.nowAdm (rowOf (.launch f)) f
    let ptr := (st.sget64 (f.a.toNat - 128)).toNat
    let ends (s1 : State) (r : Nat) : Prop := ∃ t, exec (.launch f) s = .next t ∧
      Ends (s1.commit st) t id st ({ st with walkParked := false }.sset (f.d.toNat - 128) (BitVec.ofNat 32 r)) 8 none
        (f.e == 1) false
    (2 ^ 48 ≤ ptr → st.canTrap s → ∃ t, exec (.launch f) s = .next t ∧ Trapped s t id st .window 0 m) ∧
    (ptr < 2 ^ 48 → ptr % 64 ≠ 0 → st.canTrap s → ∃ t, exec (.launch f) s = .next t ∧ Trapped s t id st .align 0 m) ∧
    (ptr < 2 ^ 48 → ptr % 64 = 0 →
      (s.relBlocked st = true → ∃ t, exec (.launch f) s = .next t ∧ Holds s t id st (.launch f)) ∧
      (s.relBlocked st = false → ∀ s1 r par cs rs, launchReads s st ptr = (s1, .ok r par cs rs) →
        ends (s1.acceptKernel st.ctx r par cs rs st.d).1 (s1.acceptKernel st.ctx r par cs rs st.d).2) ∧
      (s.relBlocked st = false → ∀ s1, launchReads s st ptr = (s1, .rejected) → ends s1 0xFFFF0001))

/-- An accepted kernel (R284): the lowest free identifier of its context, Ready with its count zero, nothing dispatched, its
record and parameters as read; with 1024 kernels none is accepted and the result is 0xFFFF0002. -/
def AcceptSays : Prop :=
  ∀ (s : State) ctx r par chans reds die,
    let kid := tfresh (s.ctx ctx).kernels 0
    (1024 ≤ kid → s.acceptKernel ctx r par chans reds die = (s, 0xFFFF0002)) ∧
    (kid < 1024 → recDone r = 0 → reds = [] →
      ∃ k, s.acceptKernel ctx r par chans reds die = (s.modCtx ctx fun x => { x with kernels := tput x.kernels kid k }, kid) ∧
        k.record = r ∧ k.params = par ∧ k.state = 0 ∧ k.count = 0 ∧ k.next = 0 ∧ k.items = [] ∧ k.chans = chans ∧
        k.launchDie = die ∧ k.seeds = [])

/-- What makes a launch record acceptable, field by field (R279, R280). -/
def LaunchOkSays : Prop :=
  ∀ r : List Byte, launchOk r = true →
    recCode r < 2 ^ 48 ∧ recCode r % 8 = 0 ∧ recObj r < 2 ^ 48 ∧ recObj r % 256 = 0 ∧ recDone r < 2 ^ 48 ∧
    recDone r % 8 = 0 ∧ 1 ≤ recItems r ∧ recIbase r + recItems r ≤ 2 ^ 32 ∧ 1 ≤ recStrands r ∧ recStrands r ≤ 512 ∧
    recStrands r = recNv r + recNm r + recNc r ∧ recScr r ≤ 6144 ∧ recPlen r ≤ 4096 ∧ recNch r ≤ 64 ∧
    (attrSpan r = true → recScr r = 0)

/-! Queues. -/

/-- The records of an EMIT's threads are offered in order: the result bits with each (R302). -/
def emitAll (qn : Nat) (st : Strand) (b : Nat) : List Nat → State × Word → State × Word
  | [], x => x
  | t :: ts, x =>
    if (x.1.queue qn).state = 1 ∧ (x.1.queue qn).owner = st.ctx then
      let o := x.1.qOffer qn st.d (st.record b t)
      emitAll qn st b ts (o.1, x.2 ||| (if o.2 = 0 then 1#32 <<< t else if o.2 = 1 then 1#32 <<< (16 + t) else 0))
    else emitAll qn st b ts x

/-- EMIT (R302). -/
def EmitSays : Prop :=
  ∀ f s id st, Passes (.emit f) (rowOf (.emit f)) f (queuePre f) s id st → st.nowAdm (rowOf (.emit f)) f ≠ 0 →
    let m := st.nowAdm (rowOf (.emit f)) f
    (s.relBlocked st = true → ∃ t, exec (.emit f) s = .next t ∧ Holds s t id st (.emit f)) ∧
    (s.relBlocked st = false →
      let x := emitAll (st.arg f.a) st f.b.toNat ((List.range 16).filter fun t => mHas m t) ((s.relAct st 4).commit st, 0)
      ∃ t, exec (.emit f) s = .next t ∧ Ends x.1 t id st (st.sset (f.d.toNat - 128) x.2) 8 none (f.e == 1) false)

/-- An offered record (R297 to R299): refused by a queue that is not Open and by one without a part that can take it;
quarantined when malformed, and counted; else the last record of its part, with a region record's part bound to its region. -/
def OfferSays : Prop :=
  ∀ (s : State) qn src (r : List Byte),
    ((s.queue qn).state ≠ 1 → s.qOffer qn src r = (s, 2)) ∧
    ((s.queue qn).state = 1 → (s.queue qn).badRec r = true → (s.qOffer qn src r).2 = 1 ∧
      ((s.qOffer qn src r).1.queue qn).parts = (s.queue qn).parts) ∧
    ((s.queue qn).state = 1 → (s.queue qn).badRec r = false → s.qChoose (s.queue qn) r = none →
      s.qOffer qn src r = (s, 2)) ∧
    (∀ d, (s.queue qn).state = 1 → (s.queue qn).badRec r = false → s.qChoose (s.queue qn) r = some d → d ≠ src →
      d < (s.queue qn).parts.length →
      (s.qOffer qn src r).2 = 0 ∧
      ∃ e, ((s.qOffer qn src r).1.queue qn).part d = (s.queue qn).part d ++ [e] ∧ e.bytes = r ∧ e.src = src ∧ e.wait = 1 ∧
        (qRv r = true → tget ((s.qOffer qn src r).1.queue qn).bound (qRegion r) = some d))

/-- TAKE (R302): what its threads receive, with the acquire actions at package scope, or a wait; a queue that is Closed with a record
behind a link that retrains holds it (R14). -/
def TakeSays : Prop :=
  ∀ f s id st, Passes (.take f) (rowOf (.take f)) f (queuePre f) s id st → st.nowAdm (rowOf (.take f)) f ≠ 0 →
    let m := st.nowAdm (rowOf (.take f)) f
    let c := f.c.toNat - 128
    (∀ s1 u, (s.commit st).takeTry st f.d.toNat (st.arg f.a) c m = (s1, some u) →
      ∃ t, exec (.take f) s = .next t ∧ Ends (s1.acqAct u 4) t id st u 8 none (f.e == 1) false) ∧
    (∀ s1, (s.commit st).takeTry st f.d.toNat (st.arg f.a) c m = (s1, none) →
      ((s1.queue (st.arg f.a)).state = 1 →
        ∃ t, exec (.take f) s = .next t ∧ Waits s1 t id st (.take f.d.toNat (st.arg f.a) c m) 8) ∧
      ((s1.queue (st.arg f.a)).state ≠ 1 → ∃ t, exec (.take f) s = .next t ∧ Holds s1 t id st (.take f)))

/-- A TAKE of a queue that the context does not own gets nothing and does not wait; one of an Open queue with no record
anywhere waits; one of a Drained queue is told so in bit 16 (R302). -/
def TakeEmptySays : Prop :=
  ∀ (s : State) st d qn c m,
    ((s.queue qn).owner ≠ st.ctx → s.takeTry st d qn c m = (s, some (st.sset c 0))) ∧
    ((s.queue qn).owner = st.ctx → (s.queue qn).parts = [[], [], []] → (s.queue qn).state = 1 → s.takeTry st d qn c m = (s, none)) ∧
    ((s.queue qn).owner = st.ctx → (s.queue qn).parts = [[], [], []] → 2 ≤ (s.queue qn).state →
      s.takeTry st d qn c m = (s, some (st.sset c 0x10000)))

/-- QCLOSE (R302, R304): an Open queue of the context is Closed. -/
def QcloseSays : Prop :=
  ∀ f s id st, Passes (.qclose f) (rowOf (.qclose f)) f (queuePre f) s id st → st.nowAdm (rowOf (.qclose f)) f ≠ 0 →
    let q := s.queue (st.arg f.a)
    (q.state = 1 → q.owner = st.ctx →
      ∃ t, exec (.qclose f) s = .next t ∧
        Ends ((s.commit st).modQueue (st.arg f.a) fun x => { x with state := 2 })
          t id st st 8 none (f.e == 1) false) ∧
    (q.state ≠ 1 ∨ q.owner ≠ st.ctx →
      ∃ t, exec (.qclose f) s = .next t ∧ Ends (s.commit st) t id st st 8 none (f.e == 1) false)

/-- OPEN_Q, CLOSE_Q and RELEASE_Q (R304). -/
def QueueCommandSays : Prop :=
  ∀ (s : State) qn, qn < 256 →
    let q := s.queue qn
    (q.state = 0 → (s.ctx q.owner).state = 1 ∨ (s.ctx q.owner).state = 2 → q.buf ≠ 0 → q.cons = 0 →
      exec (.openQ qn) s = .next (s.modQueue qn fun x => { x with state := 1, expect := [], bound := [] })) ∧
    (q.state = 1 → exec (.closeQ qn) s =
      .next (s.modQueue qn fun x => { x with state := 2 })) ∧
    (q.state = 3 → exec (.releaseQ qn) s = .next (s.modQueue qn fun x => { x with state := 0, drop := 0, qcnt := 0, ring := 0 })) ∧
    (q.state ≠ 0 → exec (.openQ qn) s = .next s) ∧ (q.state ≠ 1 → exec (.closeQ qn) s = .next s) ∧
    (q.state ≠ 3 → exec (.releaseQ qn) s = .next s)

/-- A staged slot after one word: with the eighth word the 64 bytes are complete and the slot is empty again (R303). -/
def StageSays : Prop :=
  ∀ l core word (v : DWord), word < 8 → (∀ e ∈ l, e.2.length = 8) →
    let old := ((l.find? fun e => e.1 == core).map (·.2)).getD (List.replicate 8 none)
    let new : List (Option DWord) := old.set word (some v)
    ((∃ x, x ∈ new ∧ x = none) → (stagePut l core word v).2 = none ∧
      ((stagePut l core word v).1.find? fun e => e.1 == core) = some (core, new)) ∧
    ((∀ x, x ∈ new → x ≠ none) → (stagePut l core word v).2 = some (new.flatMap fun w => leBytes 8 (w.getD 0).toNat) ∧
      ((stagePut l core word v).1.find? fun e => e.1 == core) = none)

/-- QUEUE_APPEND_WRITE and LAUNCHSLOT_WRITE (R303): a word that does not complete its slot changes the slot alone; the
complete record is offered, a refused one counted, and a complete launch record is launched where the context runs. A core of a die
that is not in the die set writes nothing (R19). -/
def AppendSays : Prop :=
  (∀ (s : State) qn core word v, qn < 256 → word < 8 → s.appUp core = true →
    let p := stagePut (s.queue qn).stage core word v
    let s1 := s.modQueue qn fun q => { q with stage := p.1 }
    (p.2 = none → exec (.queueAppendWrite qn core word v) s = .next s1) ∧
    (∀ bs s2, p.2 = some bs → s1.qOffer qn 0 bs = (s2, 2) → exec (.queueAppendWrite qn core word v) s =
      .next (s2.modQueue qn fun q => { q with drop := min (q.drop + 1) 0xFFFFFFFF })) ∧
    (∀ bs s2 n, p.2 = some bs → s1.qOffer qn 0 bs = (s2, n) → n < 2 → exec (.queueAppendWrite qn core word v) s = .next s2)) ∧
  (∀ (s : State) n core word v, n < 4096 → word < 8 → s.appUp core = true →
    let p := stagePut (s.ctx n).stage core word v
    let s1 := s.modCtx n fun x => { x with stage := p.1 }
    (p.2 = none → exec (.launchslotWrite n core word v) s = .next s1) ∧
    (∀ bs, p.2 = some bs → 2 ≤ (s1.ctx n).state → (s1.ctx n).state ≤ 4 →
      exec (.launchslotWrite n core word v) s = .next (s1.appendLaunch n bs)) ∧
    (∀ bs, p.2 = some bs → (s1.ctx n).state < 2 ∨ 4 < (s1.ctx n).state →
      exec (.launchslotWrite n core word v) s = .next (s1.modCtx n fun x => { x with err := 1 }))) ∧
  (∀ (s : State) n core word v, s.appUp core = false → exec (.queueAppendWrite n core word v) s = .next s ∧
    exec (.launchslotWrite n core word v) s = .next s)

/-- A message that may arrive is in transit over a link that is Active, and no message of its class, source and destination that left
before it is still under way (R427). -/
def ArrivesSays : Prop :=
  ∀ (s : State) b m, s.arriving b = some m →
    m ∈ s.msgs ∧ m.body = b ∧ m.status = 0 ∧ (m.dst = 75 ∨ s.linkUp (addrDie m.src) (addrDie m.dst) = true) ∧
    ∃ l1 q l2, s.msgs = l1 ++ q :: l2 ∧ q.id = m.id ∧ m.sameWay q = true ∧ ∀ x, x ∈ l1 → m.sameWay x = false

/-- QUEUE_RECORD_ARRIVE (R300): the oldest record that crosses from a die is its part's last, and may be stored. -/
def QueueArriveSays : Prop :=
  ∀ s qn src d r m, ((s.queue qn).part d).find? (fun r => r.wait == 1 && r.src == src) = some r →
    s.arriving (.queueRec qn src d) = some m →
    ∀ s2 r2, (s.gone m).qStore qn d r = (s2, r2) →
      exec (.queueRecordArrive qn src d) s =
        .next (s2.modQueue qn fun q => { q with parts := modAt q.parts d fun l => l.erase r ++ [r2] })

/-! Channels. -/

/-- The row of CHSEND and CHRECV with the registers of their channel's slot (R438). -/
def chanRow (i : Instr) (f : LFields) (s : State) (recv : Bool) : OpSpec :=
  let r := rowOf i
  if recv then { r with d := { r.d with n := s.chanRegs f f.d.toNat } }
  else { r with b := { r.b with n := s.chanRegs f f.b.toNat } }

/-- CHSEND (R439): with room the slot is the ring's last, its message leaves, and d is 1; without, d is 0; an orphaned
channel traps. -/
def ChsendSays : Prop :=
  ∀ f s id st n c,
    Passes (.chsend f) (chanRow (.chsend f) f s false) f (chanPre s f f.b.toNat false) s id st →
    st.nowAdm (chanRow (.chsend f) f s false) f ≠ 0 → n = st.arg f.a → s.chan st n = some c →
    let m := st.nowAdm (chanRow (.chsend f) f s false) f
    let slot : Slot := { bytes := st.slotBytes f.b.toNat c.bytes, sender := id, before := st.nextOp, core := 16 * st.d + st.k,
                         unbound := c.state == 0, there := false }
    (c.state = 2 → st.canTrap s → ∃ t, exec (.chsend f) s = .next t ∧ Trapped s t id st .chorphan n m) ∧
    (c.state ≠ 2 → c.slots ≤ c.ring.length → ∃ t, exec (.chsend f) s = .next t ∧
      Ends (s.commit st) t id st (st.sset (f.d.toNat - 128) 0) 8 none (f.e == 1) false) ∧
    (c.state ≠ 2 → c.ring.length < c.slots → ∃ t, exec (.chsend f) s = .next t ∧
      let s1 := (s.commit st).modChan st.ctx st.kid n fun c => { c with
        ring := c.ring ++ [slot], senders := if c.senders.contains id then c.senders else c.senders ++ [id] }
      Ends (s1.send 0 (24 * st.d + coreTile st.k) (s1.sliceOfVa st.d st.ctx (s1.ringVa st.ctx st.kid n)) (.slot st.ctx st.kid n))
        t id st (st.sset (f.d.toNat - 128) 1) 8 none (f.e == 1) false)

/-- CHRECV (R440): the strand is the channel's receiver; the oldest slot that is there goes to its registers, with the
acquire actions; with none it waits. -/
def ChrecvSays : Prop :=
  ∀ f s id st n c,
    Passes (.chrecv f) (chanRow (.chrecv f) f s true) f (chanPre s f f.d.toNat true) s id st →
    st.nowAdm (chanRow (.chrecv f) f s true) f ≠ 0 → n = st.arg f.a → s.chan st n = some c →
    let m := st.nowAdm (chanRow (.chrecv f) f s true) f
    let s1 := (s.commit st).modChan st.ctx st.kid n fun c => { c with state := 1, recv := id }
    (c.state = 2 → st.canTrap s → ∃ t, exec (.chrecv f) s = .next t ∧ Trapped s t id st .chorphan n m) ∧
    (c.state ≠ 2 → ∀ s2 u, s1.recvTry st id f.d.toNat n m = some (s2, u) → ∃ t, exec (.chrecv f) s = .next t ∧
      Ends s2 t id st u 8 none (f.e == 1) false) ∧
    (c.state ≠ 2 → s1.recvTry st id f.d.toNat n m = none → ∃ t, exec (.chrecv f) s = .next t ∧
      Waits s1 t id st (.chrecv f.d.toNat n m) 8)

/-- What a receipt takes: the oldest slot, once it is there, and once what its sender's core releases waits for no link (R440,
R441). -/
def ReceiptSays : Prop :=
  ∀ (s : State) st id base n m c q r, s.chan st n = some c → c.ring = q :: r →
    (q.there = false → s.recvTry st id base n m = none) ∧
    let scope := if q.unbound then 4 else s.slotScope q.core id
    (q.there = true → (4 ≤ scope → (s.release (q.core / 16) (q.core % 16) scope false).copiesWait (q.core / 16) = false) →
      ∃ s1, s.recvTry st id base n m = some (s1, st.slotPut base m q.bytes) ∧
      (s1.chan st n).map (·.ring) = some r)

/-- CHANNEL_SLOT_DELIVER (R435, R439): with its sender's earlier accesses performed, the oldest slot on its way from a core is there,
after the release actions of its scope at that core, once nothing of them waits for a link. -/
def SlotDeliverSays : Prop :=
  ∀ s ctx kid n k c m l1 q l2, s.kernel ctx kid = some k → k.chans[n]? = some c →
    s.arriving (.slot ctx kid n) = some m → c.ring = l1 ++ q :: l2 → (∀ x, x ∈ l1 → x.onWay m.src = false) →
    q.onWay m.src = true → s.slotReady q = true →
    let scope := if q.unbound = true ∨ c.state ≠ 1 then 4 else s.slotScope q.core c.recv
    let s1 := s.release (q.core / 16) (q.core % 16) scope false
    (4 ≤ scope → s1.copiesWait (q.core / 16) = true → exec (.channelSlotDeliver ctx kid n) s = .next s1) ∧
    ((4 ≤ scope → s1.copiesWait (q.core / 16) = false) → exec (.channelSlotDeliver ctx kid n) s =
      .next ((s1.gone m).modChan ctx kid n fun x => { x with ring := markThere m.src x.ring })) ∧
    markThere m.src c.ring = l1 ++ { q with there := true } :: l2

/-! Reductions. -/

/-- REDX (R445): the release actions at package scope; its values leave for the object's root, one message each. -/
def RedxSays : Prop :=
  ∀ f s id st, Passes (.redx f) (rowOf (.redx f)) f (redPre s f (some f.m3.toNat)) s id st →
    st.nowAdm (rowOf (.redx f)) f ≠ 0 →
    let m := st.nowAdm (rowOf (.redx f)) f
    let n := st.arg f.a
    let me := 24 * st.d + coreTile st.k
    let vs := (redValues st (rowOf (.redx f)) f m).map fun w => (me, f.m3.toNat, w)
    let root := match (s.red st n).bind (·.root) with
      | some pa => 24 * homeDie pa + sliceTile (s.servingAt (homeDie pa) (lineOf pa))
      | none => 75
    (s.relBlocked st = true → ∃ t, exec (.redx f) s = .next t ∧ Holds s t id st (.redx f)) ∧
    (s.relBlocked st = false → ∃ t, exec (.redx f) s = .next t ∧
      let s1 := ((s.relAct st 4).commit st).modRed st.ctx st.kid n fun o => { o with flight := o.flight ++ vs }
      Ends (vs.foldl (fun x _ => x.send 5 me root (.redx st.ctx st.kid n)) s1) t id st st 8 none (f.e == 1) false)

/-- The values that REDX takes from a scalar or under U: the one of its lowest thread; from vector registers one for each
thread (R445). -/
def RedValuesSays : Prop :=
  ∀ st f m, f.b.toNat < 128 → (f.m3 = 3 ∨ f.m3 = 4) →
    (f.u = 0 → redValues st (rowOf (.redx f)) f m = ((List.range 16).filter fun t => mHas m t).map fun t => st.vget f.b.toNat t) ∧
    (f.u = 1 → redValues st (rowOf (.redx f)) f m = [st.vget f.b.toNat (mLow m)])

/-- A contribution at its root (R443, R446): the first is the value, a NaN in its canonical form (R36), a later one is combined by the
kind, and one beyond the expected count is discarded. -/
def RedTakeSays : Prop :=
  ∀ (o : Red) ty (w v : Word),
    (o.expect ≤ o.count → o.take ty w = o) ∧
    (o.count < o.expect → o.kind ≠ 0 → o.val = none →
      (o.kind ≠ 5 → o.kind ≠ 6 → o.take ty w = { o with count := o.count + 1, val := some w }) ∧
      (o.kind = 5 ∨ o.kind = 6 → fmtF32.isNan w.toNat = true →
        o.take ty w = { o with count := o.count + 1, val := some 0x7FC00000 })) ∧
    (o.count < o.expect → o.val = some v →
      (o.kind = 1 → (o.take ty w).val = some (if w.slt v then w else v)) ∧
      (o.kind = 2 → (o.take ty w).val = some (if v.slt w then w else v)) ∧
      (o.kind = 3 → (o.take ty w).val = some (if w.ult v then w else v)) ∧
      (o.kind = 4 → (o.take ty w).val = some (if v.ult w then w else v)) ∧
      (o.kind = 7 → (o.take ty w).val = some (v &&& w)) ∧ (o.kind = 8 → (o.take ty w).val = some (v ||| w)) ∧
      (o.kind = 9 → (o.take ty w).val = some (v ^^^ w)))

/-- REDX_CONTRIBUTION_ARRIVE (R445): the oldest contribution that may arrive is taken by its object; while the object has no root its
state line is translated again and nothing is taken, and where the page is missing a batch of SRC 7 opens, for which it waits. -/
def RedArriveSays : Prop :=
  ∀ s ctx kid n k o, s.kernel ctx kid = some k → k.reds[n]? = some o →
    (∀ pa m v, o.root = some pa → s.arriving (.redx ctx kid n) = some m → (o.flight.find? fun v => v.1 == m.src) = some v →
      exec (.redxContributionArrive ctx kid n) s =
        .next ((s.gone m).modRed ctx kid n fun x => { x.take v.2.1 v.2.2 with flight := dropFlight m.src x.flight })) ∧
    (o.root = none → exec (.redxContributionArrive ctx kid n) s = .next (s.reroot ctx kid n) ∧
      ∀ c lvl, s.unitWaits ctx 7 (s.redSource ctx kid n (s.unitDie k) 0).key = false →
        s.devXlate (s.unitDie k) ctx (s.redLine ctx kid n) kWrite = .fault c lvl →
        ∃ b, ((s.reroot ctx kid n).ctx ctx).forming = (s.ctx ctx).forming ++ [b] ∧ b.src = 7 ∧ b.kid = kid ∧
          b.entries = [faultEntry (s.redLine ctx kid n) c lvl kWrite])

/-- REDW (R446): a complete object's result and its predicate set, with the acquire actions at package scope; an
incomplete one clears the predicate alone. -/
def RedwSays : Prop :=
  ∀ f s id st o, Passes (.redw f) (rowOf (.redw f)) f (redPre s f none) s id st → st.nowAdm (rowOf (.redw f)) f ≠ 0 →
    s.red st (st.arg f.a) = some o →
    let m := st.nowAdm (rowOf (.redw f)) f
    (o.count < o.expect → ∃ t, exec (.redw f) s = .next t ∧
      Ends s t id st (st.qset f.c.toNat m 0) 8 none (f.e == 1) false) ∧
    (o.expect ≤ o.count → ∃ t, exec (.redw f) s = .next t ∧
      Ends (s.acqAct st 4) t id st ((st.putDest f.d.toNat m fun _ => [o.result]).qset f.c.toNat m 0xFFFF) 8 none
        (f.e == 1) false)

/-! Ports and darning units. -/

/-- DISPQ and DISPQ.query (R476 to R478): a link that retrains holds the request, and a Failed one loses it, of which the context is
told (R431, R432). -/
def DispqSays : Prop :=
  (∀ f s id st, Passes (.dispq f) (rowOf (.dispq f)) f (portPre f) s id st → st.nowAdm (rowOf (.dispq f)) f ≠ 0 →
    let m := st.nowAdm (rowOf (.dispq f)) f
    let va := (st.sget64 (f.a.toNat - 128)).toNat
    let s1 := (s.relAct st 4).commit st
    let p := (s1.die (st.arg f.b)).port
    let n := p.last % 0xFFFEFFFF + 1
    let ends (s2 : State) (r : Nat) : Prop := ∃ t, exec (.dispq f) s = .next t ∧
      Ends s2 t id st (st.sset (f.d.toNat - 128) (BitVec.ofNat 32 r)) 8 none (f.e == 1) false
    (2 ^ 48 ≤ va → st.canTrap s → ∃ t, exec (.dispq f) s = .next t ∧ Trapped s t id st .window 0 m) ∧
    (va < 2 ^ 48 → va % 256 ≠ 0 → st.canTrap s → ∃ t, exec (.dispq f) s = .next t ∧ Trapped s t id st .align 0 m) ∧
    (va < 2 ^ 48 → va % 256 = 0 → s.linkDead st.d (st.arg f.b) = true →
      ∃ t, exec (.dispq f) s = .next (t.ctxEvent st.ctx 1) ∧ Holds s t id st (.dispq f)) ∧
    (va < 2 ^ 48 → va % 256 = 0 → s.linkDead st.d (st.arg f.b) = false →
      s.relBlocked st = true ∨ s.linkSlow st.d (st.arg f.b) = true →
      ∃ t, exec (.dispq f) s = .next t ∧ Holds s t id st (.dispq f)) ∧
    (va < 2 ^ 48 → va % 256 = 0 → s.relBlocked st = false → s.linkDead st.d (st.arg f.b) = false →
      s.linkSlow st.d (st.arg f.b) = false →
      (p.state < 2 → ends s1 0xFFFF0001) ∧
      (2 ≤ p.state → 3 ≤ p.queue.length → ends s1 0xFFFF0002) ∧
      (2 ≤ p.state → p.queue.length < 3 → p.owner ≠ st.ctx → ends s1 0xFFFF0003) ∧
      (2 ≤ p.state → p.queue.length < 3 → p.owner = st.ctx →
        ends (s1.modDie (st.arg f.b) fun x => { x with
          port := { x.port with last := n, queue := x.port.queue ++ [(n, st.ctx, va)] } }) n))) ∧
  (∀ f s id st, Passes (.dispqQuery f) (rowOf (.dispqQuery f)) f (portPre f) s id st →
    st.nowAdm (rowOf (.dispqQuery f)) f ≠ 0 →
    (s.linkDead st.d (st.arg f.b) = false → s.linkSlow st.d (st.arg f.b) = false → ∃ t, exec (.dispqQuery f) s = .next t ∧
      Ends s t id st (st.sset (f.d.toNat - 128) (BitVec.ofNat 32 (s.die (st.arg f.b)).port.ret)) 8 none (f.e == 1) false) ∧
    (s.linkDead st.d (st.arg f.b) = true →
      ∃ t, exec (.dispqQuery f) s = .next (t.ctxEvent st.ctx 1) ∧ Holds s t id st (.dispqQuery f)) ∧
    (s.linkDead st.d (st.arg f.b) = false → s.linkSlow st.d (st.arg f.b) = true →
      ∃ t, exec (.dispqQuery f) s = .next t ∧ Holds s t id st (.dispqQuery f)))

/-- DARN (R467, R468): a well-formed record that is read is the last job of its die's unit, and c4 counts it; a malformed
one raises ILLOP; with eight jobs it is held, and while the strand's earlier accesses are unperformed (R232). -/
def DarnSays : Prop :=
  ∀ f s id st, Passes (.darn f) (rowOf (.darn f)) f noPre s id st → st.nowAdm (rowOf (.darn f)) f ≠ 0 →
    let m := st.nowAdm (rowOf (.darn f)) f
    let va := (st.sget64 (f.a.toNat - 128)).toNat
    (2 ^ 48 ≤ va → st.canTrap s → ∃ t, exec (.darn f) s = .next t ∧ Trapped s t id st .window 0 m) ∧
    (va < 2 ^ 48 → va % 64 ≠ 0 → st.canTrap s → ∃ t, exec (.darn f) s = .next t ∧ Trapped s t id st .align 0 m) ∧
    (va < 2 ^ 48 → va % 64 = 0 → st.accPending = true → ∃ t, exec (.darn f) s = .next t ∧ Holds s t id st (.darn f)) ∧
    (va < 2 ^ 48 → va % 64 = 0 → st.accPending = false → ∀ s1 r, s.seedRead st va 4 = (s1, .ok r) →
      (jobOk r = false → st.canTrap s → ∃ t, exec (.darn f) s = .next t ∧ Trapped s t id st .illop 0 m) ∧
      (jobOk r = true → 8 ≤ (s1.die st.d).jobs → ∃ t, exec (.darn f) s = .next t ∧
        Holds s1 t id { st with walkParked := false } (.darn f)) ∧
      (jobOk r = true → (s1.die st.d).jobs < 8 → st.full 4 = false → ∃ t, exec (.darn f) s = .next t ∧
        Ends ((s1.commit st).modDie st.d fun y => { y with darn := y.darn ++ [
          { strand := id, opId := st.nextOp, ctx := st.ctx, pc := st.pc, bytes := r, core := st.k, kid := st.kid,
            iid := st.iid, sid := st.sid }] }) t id st
          ({ st with walkParked := false }.posted (st.newOp 4 m .darn [])) 8 none (f.e == 1) false))

/-- DARN_JOB_START (R468): an idle unit runs the first of its waiting jobs whose context's PRIO is lowest. -/
def DarnStartSays : Prop :=
  ∀ (s : State) d l1 j l2, (s.die d).darnRun = none → (s.die d).darn = l1 ++ j :: l2 → d < s.dies.length →
    (∀ x, x ∈ l1 → s.prio j.ctx < s.prio x.ctx) → (∀ x, x ∈ l2 → s.prio j.ctx ≤ s.prio x.ctx) →
    ∃ t, exec (.darnJobStart d) s = .next t ∧ (t.die d).darnRun = some j ∧ (t.die d).darn = l1 ++ l2 ∧
      t.strands = s.strands ∧ t.mem = s.mem

/-- DARN_JOB_COMPLETE (R471): a job that meets no error ends, and its operation falls. -/
def DarnDoneSays : Prop :=
  ∀ s d j st, (s.die d).darnRun = some j → s.engWaits j.ctx j.strand j.opId = false →
    (s.ctx j.ctx).parkedUnits.contains (1, keyOf [j.strand, j.opId]) = false → s.strand j.strand = some st →
    st.marks = [] → st.run ≠ .draining → (∀ o, st.op j.opId = some o → o.bad = 0) →
    (∀ s1, s.jobRun d j = (s1, none) → s1.strand j.strand = some st →
      ∃ t, exec (.darnJobComplete d) s = .next t ∧
        Puts (s1.modDie d fun x => { x with darnRun := none }) t j.strand (st.finishes j.opId none s1.waitLines)) ∧
    (∀ s1 c va, s.jobRun d j = (s1, some (.err c va)) → s1.strand j.strand = some st →
      ∃ t, exec (.darnJobComplete d) s = .next t ∧
        Puts (s1.modDie d fun x => { x with darnRun := none }) t j.strand
          (st.finishes j.opId (some { path := 4, cause := c, pc := j.pc, va := va, time := s.gtime }) s1.waitLines))

/-- Where D0's timing generator stands still, what waits for a frame boundary takes place (R423, R449). -/
def boundaryAt (d : Nat) (s : State) : State := if d = 0 ∧ (s.die 0).port.state ≤ 1 then s.frameBoundary else s

/-- ENABLE, DISABLE and SLM_ATTACH (R23, R472, R479): the port's states 0 Off, 1 ULPS, 2 Idle, 3 Scanning. -/
def PortSays : Prop :=
  ∀ (s : State) d, d < s.dies.length →
    let p := (s.die d).port
    let set (q : Port) : State := s.modDie d fun x => { x with port := q }
    (p.state = 0 → p.enableOk d = true → exec (.enable d) s =
      .next (set { p with err := false, state := if p.slm then 2 else 1, line := p.vact, cur := none })) ∧
    (p.state = 0 → p.enableOk d = false → exec (.enable d) s = .next (set { p with err := true })) ∧
    (p.state ≠ 0 → exec (.enable d) s = .next s) ∧
    exec (.disable d) s = .next (boundaryAt d (set { p with state := 0, queue := [], cur := none, ret := p.last })) ∧
    ∀ b, exec (.slmAttach d b) s = .next (boundaryAt d (set { p with
      slm := b, state := if b then (if p.state = 1 then 2 else p.state) else if p.state < 2 then p.state else 1 }))

/-- VBLANK_START (R478, R479): at a frame boundary the oldest queued frame is scanned from now on, and the one before it is
retired; with none queued the scanned one stays. -/
def VblankSays : Prop :=
  ∀ (s : State) d, d < s.dies.length → 2 ≤ (s.die d).port.state →
    ((s.die d).port.state = 2 ∨ (s.die d).port.vact ≤ (s.die d).port.line) →
    ∃ t, exec (.vblankStart d) s = .next t ∧ (t.die d).port.vs = s.gtime ∧ (t.die d).port.line = 0 ∧
      (∀ q r, (s.die d).port.queue = q :: r → (t.die d).port.state = 3 ∧ (t.die d).port.cur = some q ∧
        (t.die d).port.queue = r ∧
        (t.die d).port.ret = match (s.die d).port.cur with
          | some o => o.1
          | none => (s.die d).port.ret) ∧
      ((s.die d).port.queue = [] → (t.die d).port.state = (s.die d).port.state ∧ (t.die d).port.cur = (s.die d).port.cur ∧
        (t.die d).port.ret = (s.die d).port.ret)

/-- SCANOUT_LINE (R473 to R475): the line's pixels are read and driven, those that met an error counted, and the next line
is due. -/
def ScanoutSays : Prop :=
  ∀ (s : State) d l, d < s.dies.length → 2 ≤ (s.die d).port.state → (s.die d).port.line < (s.die d).port.vact →
    (List.range (s.die d).port.hact).mapM (s.scanPixel d (s.die d).port) = some l →
    let p := (s.die d).port
    let codes := (List.range l.length).map fun x => s.driveCode p x (nth (0, false) l x).1
    ∃ t, exec (.scanoutLine d) s = .next t ∧ t = s.modDie d fun x => { x with
      port := { p with
        line := p.line + 1, derr := min (p.derr + (l.filter (·.2)).length) 0xFFFFFFFF,
        driven := packSlots p.perSlot (24 / p.perSlot) codes p.slots } }

/-! BALLOON, set points and the die set. -/

/-- BALLOON.give and BALLOON.query (R414, R415). -/
def BalloonSays : Prop :=
  (∀ f s id st, Passes (.balloonGive f) (rowOf (.balloonGive f)) f (balloonPre f) s id st →
    st.nowAdm (rowOf (.balloonGive f)) f ≠ 0 →
    let m := st.nowAdm (rowOf (.balloonGive f)) f
    let va := (st.sget64 (f.a.toNat - 128)).toNat
    let u := { st with walkParked := false }
    (2 ^ 48 ≤ va → st.canTrap s → ∃ t, exec (.balloonGive f) s = .next t ∧ Trapped s t id st .window 0 m) ∧
    (va < 2 ^ 48 → va % 4096 ≠ 0 → st.canTrap s → ∃ t, exec (.balloonGive f) s = .next t ∧ Trapped s t id st .align 0 m) ∧
    (va < 2 ^ 48 → va % 4096 = 0 → ∀ s1 ps, s.balloonPages st va (st.arg f.b) = (s1, ps, [], 0) →
      (s1.relBlocked st = false → (∀ pa, pa ∈ ps → s1.heldFrom st.d pa = false) → ∃ t, exec (.balloonGive f) s = .next t ∧
        Ends (ps.foldl (fun x pa => x.givePage st.d st.k pa) (s1.relAct st 4)) t id st u 8 none (f.e == 1) false) ∧
      (s1.relBlocked st = true ∨ (∃ pa, pa ∈ ps ∧ s1.heldFrom st.d pa = true) → ∃ t, exec (.balloonGive f) s = .next t ∧
        Holds s1 t id u (.balloonGive f)))) ∧
  (∀ f s id st, Passes (.balloonQuery f) (rowOf (.balloonQuery f)) f noPre s id st →
    st.nowAdm (rowOf (.balloonQuery f)) f ≠ 0 → ∃ t, exec (.balloonQuery f) s = .next t ∧
      Ends s t id st (st.sset (f.d.toNat - 128) (BitVec.ofNat 32 (s.die st.d).gfree)) 8 none (f.e == 1) false)

/-- A page that is given (an Armed region's before its deadline is re-armed instead of donated): every byte of its frame is zero for the giving core and at home, every other byte at home is as
before, and outside an armed region the frame is donated once (R415). -/
def GivePageSays : Prop :=
  ∀ (s : State) d c pa, homeDie pa < s.dies.length → homeDie (pa / 4096 * 4096) = homeDie pa →
    let t := s.givePage d c pa
    (∀ a, cget t.mem a = if pa / 4096 * 4096 ≤ a ∧ a < pa / 4096 * 4096 + 4096 then 0 else cget s.mem a) ∧
    (∀ a, pa / 4096 * 4096 ≤ a → a < pa / 4096 * 4096 + 4096 → t.coreGet d c a = 0) ∧
    ((∀ r, r ∈ (s.die (homeDie pa)).regions → ¬ (r.holds (pa / 4096 * 4096 % 2 ^ 44) = true ∧ r.state = 1 ∧
        s.gtime < r.deadline)) →
      ((tget (t.die (homeDie pa)).frames (pa / 4096)).map (·.donated)) = some true ∧
      pa / 4096 ∈ (t.die (homeDie pa)).donated)

/-- DIESET and MEMFSP (R422, R423, R447, R448): the request is made, at once where D0's timing generator is stopped; held while the
link to D0 trains; over a Failed one it is lost, and the context is told (R432). -/
def SetPointSays : Prop :=
  (∀ f s id st, Passes (.dieset f) (rowOf (.dieset f)) f (fun u m => if m ≠ 0 ∧ 2 < u.arg f.a then some 0 else none) s id st →
    (st.nowAdm (rowOf (.dieset f)) f = 0 → ∃ t, exec (.dieset f) s = .next t ∧ Ends s t id st st 8 none (f.e == 1) false) ∧
    (st.nowAdm (rowOf (.dieset f)) f ≠ 0 → s.linkDead st.d 0 = true →
      ∃ t, exec (.dieset f) s = .next (t.ctxEvent st.ctx 1) ∧ Ends s t id st st 8 none (f.e == 1) false) ∧
    (st.nowAdm (rowOf (.dieset f)) f ≠ 0 → s.linkDead st.d 0 = false → s.linkSlow st.d 0 = true →
      ∃ t, exec (.dieset f) s = .next t ∧ Holds s t id st (.dieset f)) ∧
    (st.nowAdm (rowOf (.dieset f)) f ≠ 0 → s.linkDead st.d 0 = false → s.linkSlow st.d 0 = false →
      ∃ s1, exec (.dieset f) s = .next (s1.diesetRequest (st.arg f.a)) ∧ Ends s s1 id st st 8 none (f.e == 1) false)) ∧
  (∀ f s id st, Passes (.memfsp f) (rowOf (.memfsp f)) f (fun u m => if m ≠ 0 ∧ 3 < u.arg f.a then some 0 else none) s id st →
    (st.nowAdm (rowOf (.memfsp f)) f = 0 → ∃ t, exec (.memfsp f) s = .next t ∧ Ends s t id st st 8 none (f.e == 1) false) ∧
    (st.nowAdm (rowOf (.memfsp f)) f ≠ 0 → s.linkDead st.d 0 = true →
      ∃ t, exec (.memfsp f) s = .next (t.ctxEvent st.ctx 1) ∧ Ends s t id st st 8 none (f.e == 1) false) ∧
    (st.nowAdm (rowOf (.memfsp f)) f ≠ 0 → s.linkDead st.d 0 = false → s.linkSlow st.d 0 = true →
      ∃ t, exec (.memfsp f) s = .next t ∧ Holds s t id st (.memfsp f)) ∧
    (st.nowAdm (rowOf (.memfsp f)) f ≠ 0 → s.linkDead st.d 0 = false → s.linkSlow st.d 0 = false →
      ∃ t, exec (.memfsp f) s = .next t ∧ Ends (s.memRequest (st.arg f.a)) t id st st 8 none (f.e == 1) false))

/-- An instruction that admits no active thread does nothing but end (R95). -/
def NoneSays : Prop :=
  ∀ i f sp pre s id st,
    i = .launch f ∧ sp = rowOf i ∧ pre = noPre ∨ i = .emit f ∧ sp = rowOf i ∧ pre = queuePre f ∨
      i = .take f ∧ sp = rowOf i ∧ pre = queuePre f ∨ i = .qclose f ∧ sp = rowOf i ∧ pre = queuePre f ∨
      i = .redx f ∧ sp = rowOf i ∧ pre = redPre s f (some f.m3.toNat) ∨ i = .redw f ∧ sp = rowOf i ∧ pre = redPre s f none ∨
      i = .dispq f ∧ sp = rowOf i ∧ pre = portPre f ∨ i = .dispqQuery f ∧ sp = rowOf i ∧ pre = portPre f ∨
      i = .darn f ∧ sp = rowOf i ∧ pre = noPre ∨ i = .balloonGive f ∧ sp = rowOf i ∧ pre = balloonPre f ∨
      i = .balloonQuery f ∧ sp = rowOf i ∧ pre = noPre ∨
      i = .chsend f ∧ sp = chanRow i f s false ∧ pre = chanPre s f f.b.toNat false ∨
      i = .chrecv f ∧ sp = chanRow i f s true ∧ pre = chanPre s f f.d.toNat true →
    Passes i sp f pre s id st → st.nowAdm sp f = 0 →
      ∃ t, exec i s = .next t ∧ Ends s t id st st 8 none (f.e == 1) false

end Sys2Proof.Machine
end

