-- ==== Sys2Proof/Safety/Context.lean ====
section
/-! DEFINITION. Lane arbitration, dispatch, pre-emption, saves and restores (R257 to R266, R285 to R290, R314), contexts,
their windows, sweeps and batches (R249 to R256, R265, R395 to R402), as relations between the machine before and after. -/

namespace Sys2Proof.Machine

/-! Arbitration and answers. -/

/-- The keys of R314 in their order, each so that the smaller wins. -/
def State.arbKeys (s : State) (st : Strand) : List Nat :=
  [if 56 ≤ st.waitCount then 0 else 1, if st.spin.demoted then 1 else 0, nbits (s.ctx st.ctx).cfg.toNat 0 2, s.spri st,
   2 ^ 32 - min st.waitCount (2 ^ 32), (st.loc.map (·.place)).getD 0]

/-- The winner is the strand that the keys of R314 put first, each key deciding only among strands that the earlier keys leave
tied. -/
def ArbSays : Prop :=
  ∀ (s : State) (a b : Strand) (p q : Loc), a.loc = some p → b.loc = some q → p.place < 8 → q.place < 8 →
    (s.arbKey a < s.arbKey b ↔ s.arbKeys a < s.arbKeys b)

/-- RUN_START (R314): on an idle lane the strand that comes first by the keys is Running with a new run; every other strand
that could have been chosen counts the run. -/
def RunStartSays : Prop :=
  ∀ s d c l id st, d < s.dies.length → c < (s.die d).cores.length → d < 3 → c < 16 → l < 192 → tabAbove 0 s.strands = true →
    ((tget (s.core d c).lanes l).getD Lane.idle).running = none → (id, st) ∈ s.onLane d c l → s.canRun st = true →
    (∀ e, e ∈ s.onLane d c l → s.canRun e.2 = true → e.1 ≠ id → s.arbKey st < s.arbKey e.2) →
    ∃ t, exec (.runStart d c l) s = .next t ∧ t.mem = s.mem ∧ t.ctxs = s.ctxs ∧
      ((tget (t.core d c).lanes l).map (·.running)) = some (some id) ∧
      t.strand id = some { st with run := .running, waitCount := 0, runCount := 0 } ∧
      (∀ j u, (j, u) ∈ s.onLane d c l → j ≠ id → s.canRun u = true →
        t.strand j = some { u with waitCount := u.waitCount + 1 }) ∧
      ∀ j u, s.strand j = some u → (j, u) ∉ s.onLane d c l → t.strand j = some u

/-- REQUEST_ANSWER (R260): the held instruction is executed again, for the strand that it holds. -/
def RequestSays : Prop :=
  ∀ s id st r, s.strand id = some st → st.hold = some r → s.mayIssue st = true →
    ∃ t, r.exec { s with cur := some id } = .next t ∧ exec (.requestAnswer id) s = .next { t with cur := s.cur }

/-! Items. -/

/-- A strand as it is created (R63, R285): the launch record's code, fmt and registers, s0 to s3 with PARAM, SR_IID and
SR_SID, every thread active, and all else zero. -/
def NewStrandSays : Prop :=
  ∀ k ctx kid iid sid l seq,
    let st := newStrand k ctx kid iid sid l seq
    st.pc = BitVec.ofNat 64 (recCode k.record) ∧ st.fmt = BitVec.ofNat 32 (recFmt k.record) ∧ st.mask = 0xFFFF ∧
      st.alloc = 16 * (recRegs k.record % 16) ∧ st.run = .ready ∧ st.frame = none ∧ st.stack = [] ∧ st.rpcv = false ∧
      st.sget 0 = BitVec.ofNat 32 (recParam k.record) ∧ st.sget 1 = BitVec.ofNat 32 (recParam k.record / 2 ^ 32) ∧
      st.sget 2 = BitVec.ofNat 32 iid ∧ st.sget 3 = BitVec.ofNat 32 sid ∧
      (∀ n, 4 ≤ n → st.sget n = 0) ∧ (∀ n t, st.vget n t = 0) ∧ st.sts = 0 ∧ st.tarmed = false ∧ st.ops = [] ∧
      st.role = if sid < recNv k.record then 0 else if sid < recNv k.record + recNm k.record then 1 else 2

/-- What the places for an item must offer (R56, R249, R258, R286, R347); more than one core only where no core has room for the
whole item (R286). -/
def State.suits (s : State) (ctx kid : Nat) (k : Kernel) (i : Nat) (places : List Loc) : Prop :=
  s.kernel ctx kid = some k ∧ k.nextItem = some i ∧ (s.ctx ctx).state = 2 ∧ k.state = 0 ∧ k.inWindow i = true ∧
    places.length = recStrands k.record ∧ spanOk k.record places = true ∧
    (attrLocal k.record = true → ∀ l, l ∈ places → l.die = k.launchDie) ∧
    s.placesFree (places.map fun l => (l, 16 * (recRegs k.record % 16))) = true ∧
    ((coresOf places).length ≤ 1 ∨ ∀ p, p ∈ s.allCores → s.oneCoreFits ctx k p.1 p.2 = false) ∧
    ∀ p, p ∈ coresOf places → s.contextRoom ctx p.1 p.2 = true ∧ s.recordOf ctx p.1 p.2 = false ∧
      s.scrUsed p.1 p.2 + recScr k.record * 256 ≤ scratchSize

/-- ITEM_DISPATCH (R188, R286, R377): the kernel's next item gets one strand on each place, once every core's tables and seeds are
ready, and the kernel goes on to the item after it. Each core is prepared for the first strand that it is to receive; where one
is not ready, no strand is placed and no core's tables change hands. -/
def DispatchSays : Prop :=
  ∀ s ctx kid k i places (on : List Placing), s.suits ctx kid k i places →
    on.map (fun p => (p.die, p.core)) = coresOf places →
    (∀ p, p ∈ on → p.load = none ∧ p.ctx = ctx ∧ p.kid = kid ∧ p.iid = recIbase k.record + i ∧
      (places.map fun l => (l.die, l.core))[p.sid]? = some (p.die, p.core) ∧
      ∀ n, n < p.sid → (places.map fun l => (l.die, l.core))[n]? ≠ some (p.die, p.core)) →
    (∀ s1, s.prepareCores on = (s1, false) → exec (.itemDispatch ctx kid places) s = .next s1) ∧
    ∀ s1, s.prepareCores on = (s1, true) → s1.kernel ctx kid = some k →
      ∃ t k2 it, exec (.itemDispatch ctx kid places) s = .next t ∧
        t.nextStrand = s1.nextStrand + places.length ∧
        (∀ n l, places[n]? = some l → t.strand (s1.nextStrand + n) =
          some (newStrand k ctx kid (recIbase k.record + i) n l (s1.seqNo + 1))) ∧
        (∀ j, j < s1.nextStrand → t.strand j = s1.strand j) ∧
        t.kernel ctx kid = some k2 ∧ tget k2.items i = some it ∧ it.iid = recIbase k.record + i ∧
        it.strands = (List.range places.length).map (s1.nextStrand + ·) ∧ it.complete = false ∧ it.lost = false ∧
        (it.committed = !attrRpl k.record) ∧ k2.returned = k.returned.filter (· != i) ∧
        (k2.next = if k.returned.contains i then k.next else k.next + 1) ∧ k2.count = k.count ∧
        (k2.state = if k2.returned = [] ∧ k2.next = recItems k.record then 1 else 0)

/-- Readiness of cores comes before any change (R188): where a core is not ready, every core keeps its tables, its scratchpad and its
seed slots. -/
def PrepareSays : Prop :=
  ∀ (s : State) (on : List Placing) s1, s.prepareCores on = (s1, false) →
    (∀ d c, (s1.core d c).owner = (s.core d c).owner ∧ (s1.core d c).lace = (s.core d c).lace ∧
      (s1.core d c).dslots = (s.core d c).dslots ∧ (s1.core d c).seeds = (s.core d c).seeds) ∧
    s1.mem = s.mem ∧ s1.strands = s.strands

/-- The item that comes next (R286, R290): the least of those returned, else the first never dispatched. -/
def NextItemSays : Prop :=
  ∀ (k : Kernel) i, k.nextItem = some i →
    (k.returned = [] → i = k.next ∧ i < recItems k.record) ∧
    (k.returned ≠ [] → i ∈ k.returned ∧ ∀ j, j ∈ k.returned → i ≤ j)

/-- The cores on which an item's strands Exited, each once. -/
def State.lastCores (s : State) (it : Item) : List Nat :=
  distinct ((it.strands.filterMap fun id => s.strand id).map (·.lastCore))

/-- ITEM_COMPLETE (R286, R287): an item whose strands have all Exited is no more, its strands neither, once what its cores wrote is
performed at package scope; the in-order count takes it in, and its saved SEEDDROPs act. -/
def ItemDoneSays : Prop :=
  ∀ s ctx kid n k it, s.kernel ctx kid = some k → tget k.items n = some it → it.lost = false →
    (s.ctx ctx).state ≠ 5 →
    (∀ id, id ∈ it.strands → ∃ st, s.strand id = some st ∧ st.run = .exited ∧ st.doomed = false) →
    let s1 := (s.lastCores it).foldl (fun (s : State) (i : Nat) => s.release (i / 16) (i % 16) 4 true) s
    ((s.lastCores it).any (fun i => s1.copiesWait (i / 16)) = true → exec (.itemComplete ctx kid n) s = .next s1) ∧
    ((s.lastCores it).any (fun i => s1.copiesWait (i / 16)) = false →
      ∃ t, exec (.itemComplete ctx kid n) s = .next t ∧ (∀ id, id ∈ it.strands → t.strand id = none) ∧
        (t.kernel ctx kid = none ∨ ∃ k2, t.kernel ctx kid = some k2 ∧
          k2 = { k.advance n with items := tdel k.items n, seeds := k2.seeds } ∧ (it.savedOps = [] → k2.seeds = k.seeds)))

/-- The in-order completion count (R286): items up to the first that is not complete. -/
def CountSays : Prop :=
  ∀ (k : Kernel) n, k.count ≤ (k.advance n).count ∧
    (∀ i, k.count ≤ i → i < (k.advance n).count → i = n ∨ i ∈ k.completed) ∧
    ((k.advance n).count ≠ n ∧ (k.advance n).count ∉ k.completed) ∧
    ∀ i, (k.advance n).isComplete i = true ↔ k.isComplete i = true ∨ i = n

/-! Pre-emption, saves and restores. -/

/-- The victim (R257): a resident of the core whose PRIO is above the other context's, and none is higher; among equals the one
that became resident last. -/
def VictimSays : Prop :=
  ∀ (s : State) d c forCtx n, s.victim d c forCtx = some n →
    n ∈ s.residents d c ∧ s.prio forCtx < s.prio n ∧
    (∀ m, m ∈ s.residents d c → s.prio m ≤ s.prio n) ∧
    (n ∉ (s.core d c).residentOrder →
      ∀ m, m ∈ s.residents d c → s.prio m = s.prio n → m ∉ (s.core d c).residentOrder) ∧
    ∀ l1 l2, (s.core d c).residentOrder = l1 ++ n :: l2 → n ∉ l1 →
      ∀ m, m ∈ l1 → m ∈ s.residents d c → s.prio m ≠ s.prio n

/-- PREEMPTION (R257, R258, R259): every strand of the victim on the core is to be saved, and its matrix state there. -/
def PreemptSays : Prop :=
  ∀ s d c forCtx n, (s.ctx forCtx).state = 2 → s.coreUp d c = true → s.wants forCtx ≠ [] →
    (s.contextRoom forCtx d c = false ∨ ∃ r, r ∈ s.wants forCtx ∧ s.noLane d c r = true) → (s.core d c).embUse = none →
    s.victim d c forCtx = some n →
    ∃ t, exec (.preemption d c forCtx) s = .next t ∧ { t with strands := s.strands, dies := s.dies } = s ∧
      (∀ id st, s.strand id = some st → t.strand id = some
        (if st.ctx = n ∧ st.resident = true ∧ st.d = d ∧ st.k = c then { st with stop := true } else st)) ∧
      ∀ e j, { t.core e j with saving := (s.core e j).saving } = s.core e j ∧
        (∀ m, m ∈ (t.core e j).saving → m ∈ (s.core e j).saving ∨ m = n ∧ e = d ∧ j = c) ∧
        (d < s.dies.length → c < (s.die d).cores.length → n ∈ (t.core d c).saving)

/-- STRAND_SAVE (R258, R259, R262, R266): a stopped strand that waits for nothing leaves its lane with all its state, once what its
core wrote is performed at package scope and the pages of its record take it; a doomed one is no more; while a page of its
record is missing and the core has no emergency area it stays, and one batch of source 2 is formed. -/
def SaveSays : Prop :=
  ∀ s id st l, s.strand id = some st → st.loc = some l → st.ahead = none → s.saveWaits st = false →
    let s1 := s.release l.die l.core 4 true
    let pages := s.recPages id st l
    let u := saveSource st.kid st.iid st.sid l.die l.core
    (st.stop = false → exec (.strandSave id) s = .next s) ∧
    (st.stop = true → st.doomed = true → ∃ t, exec (.strandSave id) s = .next t ∧ t.strand id = none) ∧
    (st.stop = true → st.doomed = false → s1.copiesWait l.die = true → exec (.strandSave id) s = .next s1) ∧
    (st.stop = true → st.doomed = false → s1.copiesWait l.die = false →
      (s1.core l.die l.core).embUse = some st.ctx ∨
        (s1.core l.die l.core).embUse = none ∧ s1.unitWaits st.ctx 2 u.key = false ∧
          s1.pagesStop l.die st.ctx kWrite pages = .ok →
      ∃ t, exec (.strandSave id) s = .next t ∧ t.strand id = some (st.packed l pages) ∧
        (∀ j, j ≠ id → t.strand j = s.strand j) ∧
        ((tget (t.core l.die l.core).lanes l.lane).bind (·.running)) ≠ some id ∧
        ∀ q, q ∈ (t.core l.die l.core).shutq → q.1 ≠ id) ∧
    (∀ m, st.stop = true → st.doomed = false → s1.copiesWait l.die = false → (s1.core l.die l.core).embUse = some m →
      m ≠ st.ctx → exec (.strandSave id) s = .next s1) ∧
    (∀ c lvl va, st.stop = true → st.doomed = false → s1.copiesWait l.die = false →
      (s1.core l.die l.core).embUse = none → s1.unitWaits st.ctx 2 u.key = false →
      s1.pagesStop l.die st.ctx kWrite pages = .fault c lvl va →
      (nth 0 (s.die l.die).emb l.core = 0 → ∃ t b, exec (.strandSave id) s = .next t ∧ t.strands = s.strands ∧
        t.mem = s1.mem ∧ (t.ctx st.ctx).forming = (s.ctx st.ctx).forming ++ [b] ∧ b.src = 2 ∧ b.die = l.die ∧
        b.core = l.core ∧ b.kid = st.kid ∧ b.iid = st.iid ∧ b.sid = st.sid ∧ b.entries = [faultEntry va c lvl kWrite]) ∧
      (nth 0 (s.die l.die).emb l.core ≠ 0 → ∃ t, exec (.strandSave id) s = .next t ∧
        t.strand id = some (st.packed l pages) ∧ (t.ctx st.ctx).spill = true ∧
        (l.die < s.dies.length → l.core < (s.die l.die).cores.length →
          (t.core l.die l.core).embUse = some st.ctx)))

/-- What a save keeps (R259, R264): every register, the stack, the operations and the pending traps; a Running strand is
Ready. -/
def PackedSays : Prop :=
  ∀ (st : Strand) l pages,
    let u := st.packed l pages
    u.loc = none ∧ u.saved = some l ∧ u.savedPages = pages ∧ u.rdy = [] ∧ u.v = st.v ∧ u.s = st.s ∧ u.q = st.q ∧ u.x = st.x ∧ u.xbase = st.xbase ∧
      u.xsize = st.xsize ∧ u.fmt = st.fmt ∧ u.sts = st.sts ∧ u.c = st.c ∧ u.pc = st.pc ∧ u.mask = st.mask ∧
      u.rpc = st.rpc ∧ u.rpcv = st.rpcv ∧ u.stack = st.allReady.stack ∧ u.tmr = st.tmr ∧ u.tcmp = st.tcmp ∧
      u.tarmed = st.tarmed ∧ u.epc = st.epc ∧ u.emask = st.emask ∧ u.cause = st.cause ∧ u.frame = st.frame ∧
      u.resume = st.resume ∧ u.pend = st.pend ∧ u.ops = st.ops ∧ u.slots = st.slots ∧ u.engErrs = st.engErrs ∧
      (st.run = .running → u.run = .ready) ∧ (st.run ≠ .running → u.run = st.run)

/-- The strands that one restore places together (R262, R347): one that has no M role alone; one of the M role with every M-role
strand of its item that has not Exited, all on one core. -/
def State.together (s : State) (st : Strand) (d c : Nat) (all : List (Nat × Strand × Loc)) : Prop :=
  (st.role ≠ 1 → all.length = 1) ∧
  (st.role = 1 →
    (∀ e, e ∈ all → e.2.1.role = 1 ∧ e.2.1.itemKey = st.itemKey ∧ e.2.2.die = d ∧ e.2.2.core = c) ∧
    ∀ j u, (j, u) ∈ s.strands → u.itemKey = st.itemKey → u.role = 1 → u.run ≠ .exited → ∃ e, e ∈ all ∧ e.1 = j)

/-- STRAND_RESTORE (R262, R324, R347): saved strands of an Active context that fit are on their places with their state as it was;
one whose last operation ended while it was saved has Exited (R78). -/
def RestoreSays : Prop :=
  ∀ s id st (p : Loc) mates (all : List (Nat × Strand × Loc)) s1 s2,
    all.map (fun e => (e.1, e.2.2)) = (id, p) :: mates → (∀ e, e ∈ all → s.strand e.1 = some e.2.1) →
    s.strand id = some st → (all.map (·.1)).Nodup → s.together st p.die p.core all → (s.ctx st.ctx).state = 2 →
    (∀ e, e ∈ all → e.2.1.loc = none ∧ e.2.1.run ≠ .exited ∧ e.2.1.run ≠ .pending ∧ e.2.1.doomed = false ∧
      s.itemAllows e.1 e.2.1 p.die p.core = true) →
    ((s.ctx st.ctx).replay = true → ∀ x q, x ∈ s.dies → q ∈ x.parked → q.ctx ≠ st.ctx) →
    s.placesFree (all.map fun e => (e.2.2, e.2.1.alloc)) = true →
    s.contextRoom st.ctx p.die p.core = true → s.groupsAllow (all.map fun e => (e.1, e.2.1)) p.die p.core = true →
    s.tilesAllow st p.die p.core = true →
    ((∃ e, e ∈ s.onCore p.die p.core ∧ e.2.itemKey = st.itemKey) ∨ s.scrUsed p.die p.core + s.scrSize st ≤ scratchSize) →
    all.foldl (fun q e =>
      let a := q.1.restoreRead e.2.1 p.die p.core
      (a.1, q.2 && a.2)) (s, true) = (s1, true) →
    s1.prepareCores [{ load := none, ctx := st.ctx, kid := st.kid, iid := st.iid, sid := st.sid, die := p.die, core := p.core }] =
      (s2, true) →
    ∃ t, exec (.strandRestore id ⟨p, mates⟩) s = .next t ∧ ∀ e, e ∈ all → ∃ w, t.strand e.1 = some w ∧ w.saved = none ∧
      w.s = e.2.1.s ∧ w.q = e.2.1.q ∧ w.x = e.2.1.x ∧ w.pc = e.2.1.pc ∧ w.mask = e.2.1.mask ∧ w.stack = e.2.1.stack ∧
      w.fmt = e.2.1.fmt ∧ w.sts = e.2.1.sts ∧ w.c = e.2.1.c ∧ w.frame = e.2.1.frame ∧ w.slots = e.2.1.slots ∧
      w.ops.map (·.id) = e.2.1.ops.map (·.id) ∧
      (e.2.1.run ≠ .draining ∨ e.2.1.ops ≠ [] → w.loc = some e.2.2 ∧ w.v = e.2.1.v ∧
        w.run = if e.2.1.run = .faulted ∧ e.2.1.resolved = true then .ready else e.2.1.run) ∧
      (e.2.1.run = .draining → e.2.1.ops = [] → w.loc = none ∧ w.run = .exited)

/-! Commands of a context (R253, R255, R256). -/

/-- What START asks of a context's registers (R255, R389, R395). -/
def State.ready255 (s : State) (x : Ctx) : Prop :=
  x.save ≠ 0 ∧ x.save.toNat % 2 ^ 21 = 0 ∧ x.save.toNat < 2 ^ 48 ∧
    (x.tvec = 0 ∨ x.tvec.toNat % 2 = 0 ∧ x.tvec.toNat < 2 ^ 48) ∧
    x.elog.toNat % 4096 = 0 ∧ x.elog.toNat < 2 ^ 48 ∧
    x.root.toNat % 2 = 1 ∧ nbits x.root.toNat 1 11 = 0 ∧ x.root.toNat < 2 ^ 46 ∧
    s.paOk (nbits x.root.toNat 12 34 * 4096) = true ∧ x.fbase ≠ 0 ∧ x.fbase.toNat % 2 ^ 14 = 0

/-- The strands after every resident one of a context is stopped. -/
def Stopped (s t : State) (n : Nat) : Prop :=
  ∀ id st, s.strand id = some st → t.strand id = some
    (if st.ctx = n ∧ st.resident = true then { st with stop := true } else st)

/-- CREATE, START, SUSPEND, RESUME and ACK: the states in which each is carried out, and its effect; in any other state
CTX_ERR is 1 and nothing else differs. -/
def CommandSays : Prop :=
  ∀ (s : State) n, n < 4096 →
    let x := s.ctx n
    let refused : State := s.modCtx n fun x => { x with err := 1 }
    (x.state = 0 ∨ x.state = 6 → exec (.createCtx n) s = .next (s.putCtx n { Ctx.free with state := 1 })) ∧
    (x.state ≠ 0 → x.state ≠ 6 → exec (.createCtx n) s = .next refused) ∧
    (x.state = 1 → s.ready255 x → exec (.startCtx n) s =
      .next (s.modCtx n fun x => { x with state := 2, elogSeq := 0, err := 0 })) ∧
    (x.state = 1 → ¬ s.ready255 x → exec (.startCtx n) s = .next (s.modCtx n fun x => { x with err := 2 })) ∧
    (x.state ≠ 1 → exec (.startCtx n) s = .next refused) ∧
    (x.state = 2 → ∃ t, exec (.suspendCtx n) s = .next t ∧ t.ctx n = { x with state := 3, err := 0 } ∧ Stopped s t n ∧
      { t with ctxs := s.ctxs, strands := s.strands } = s) ∧
    (x.state ≠ 2 → exec (.suspendCtx n) s = .next refused) ∧
    ((x.state = 3 ∨ x.state = 4) ∧ nbits x.event.toNat 0 3 = 0 → ∃ (t : State), exec (.resumeCtx n) s = .next t ∧
      t.ctx n = { x with state := 2, err := 0, memfull := false, replay := x.replay || x.state == 4 } ∧
      t.strands = s.strands ∧ t.mem = s.mem ∧
      ∀ (d i : Nat) (p : Parked), (s.die d).parked[i]? = some p → (t.die d).parked[i]? =
        some (if p.ctx = n then { p with since := s.gtime, raised := false } else p)) ∧
    (¬ ((x.state = 3 ∨ x.state = 4) ∧ nbits x.event.toNat 0 3 = 0) → exec (.resumeCtx n) s = .next refused) ∧
    (1 ≤ x.state → x.state ≤ 4 → exec (.ackCtx n) s = .next (s.modCtx n fun x => { x with elovf := false, err := 0 })) ∧
    (x.state = 0 ∨ 4 < x.state → exec (.ackCtx n) s = .next refused)

/-- RETIRE (R256, R292, R304, R381, R402): the context is Retiring; its resident strands stop to be discarded, those that are saved
are no more, its kernels are Lost and list no seed record, its queues are closed and its batches are void. -/
def RetireSays : Prop :=
  ∀ (s : State) n, n < 4096 → tabAbove 0 s.strands = true →
    let x := s.ctx n
    (1 ≤ x.state → x.state ≤ 4 → ∃ t, exec (.retireCtx n) s = .next t ∧ (t.ctx n).state = 5 ∧ (t.ctx n).err = 0 ∧
      (t.ctx n).forming = [] ∧ (t.ctx n).batches = [] ∧ (t.ctx n).retries = [] ∧ (t.ctx n).parkedUnits = [] ∧
      (∀ kid k, t.kernel n kid = some k → k.state = 3 ∧ k.seeds = []) ∧
      (∀ id st, s.strand id = some st → st.ctx = n → st.loc = none → t.strand id = none) ∧
      (∀ id st, s.strand id = some st → st.ctx = n → st.resident = true → ∃ w, t.strand id = some w ∧ w.stop = true ∧
        w.doomed = true ∧ w.hold = none ∧ w.ahead = none) ∧
      (∀ id st, s.strand id = some st → st.ctx ≠ n → t.strand id = some st) ∧
      ∀ q, (s.queue q).owner = n → (s.queue q).state = 1 ∨ (s.queue q).state = 2 → (t.queue q).state = 3) ∧
    (x.state = 0 ∨ 4 < x.state → exec (.retireCtx n) s = .next (s.modCtx n fun x => { x with err := 1 }))

/-- CTX_RETIRED (R256, R292, R309): no translation, group or kernel of the context is left, and event RETIRED is set. -/
def RetiredSays : Prop :=
  ∀ (s : State) n, n < 4096 → (s.ctx n).state = 5 →
    (s.retired n = false → exec (.ctxRetired n) s = .next s) ∧
    (s.retired n = true → ∃ t, exec (.ctxRetired n) s = .next t ∧ (t.ctx n).state = 6 ∧ (t.ctx n).kernels = [] ∧
      (t.ctx n).event.getLsbD 4 = true ∧ (t.ctx n).spill = false ∧
      (∀ d c e, d < 3 → e ∈ (t.core d c).tlb → e.ctx ≠ n) ∧ (∀ d e, d < 3 → e ∈ (t.die d).nodeCache → e.ctx ≠ n) ∧
      ∀ d g, g ∈ (t.die d).groups → g.2.ctx ≠ n)

/-! Windows. -/

/-- CTX_CFG (R254): PRIV in Building only, the rest in Building and Suspended; else CTX_ERR is 1. -/
def CfgSays : Prop :=
  ∀ (s : State) n v, n < 4096 →
    let x := s.ctx n
    let w := v &&& 0x73#32
    (x.state = 1 ∨ x.state = 3 ∧ w.getLsbD 6 = x.cfg.getLsbD 6 →
      exec (.ctxCfgWrite n v) s = .next (s.modCtx n fun x => { x with cfg := w })) ∧
    (w ≠ x.cfg → x.state ≠ 1 → x.state ≠ 3 ∨ w.getLsbD 6 ≠ x.cfg.getLsbD 6 →
      exec (.ctxCfgWrite n v) s = .next (s.modCtx n fun x => { x with err := 1 }))

/-- EMB (R265): 0, or an aligned 32 MiB area of the die's own memory, while no context has SPILL set; any other write
changes nothing. -/
def EmbSays : Prop :=
  ∀ (s : State) d c (v : DWord),
    let good := v.toNat % 2 ^ 25 = 0 ∧
      (v = 0 ∨ homeDie v.toNat = d ∧ v.toNat % 2 ^ 44 + 2 ^ 25 ≤ s.advertised) ∧ ∀ e, e ∈ s.ctxs → e.2.spill = false
    (good → exec (.embWrite d c v) s = .next (s.modDie d fun x => { x with emb := upd x.emb c v })) ∧
    (¬ good → exec (.embWrite d c v) s = .next s)

/-- The first byte of a die's window and of a context's (R250). -/
def dieWindow (d : Nat) : Nat := 0x3F0000000000 + 0x1000000 * d
def ctxWindow (n : Nat) : Nat := 0x3F4000000000 + 0x1000 * n

/-- REGISTER_WRITE (R250 to R254, R303, R395, R464, R486): writes of a wrong size or place change nothing; commands act as their own
events; CTX_TVEC is written in Building, Suspended and Stopped, the other pointers in Building and Suspended, else CTX_ERR
is 1; CTX_EVENT and TILEEVT are cleared by ones. -/
def WindowSays : Prop :=
  (∀ (s : State) a n v, (n ≠ 4 ∧ n ≠ 8) ∨ a % n ≠ 0 ∨ a < 0x3F0000000000 → exec (.registerWrite a n v) s = .next s) ∧
  (∀ (s : State) n (v : DWord), n < 4096 →
    let at' := ctxWindow n
    let w := v.truncate 32
    let k := (s.ctx n).state
    let no : State := s.modCtx n fun x => { x with err := 1 }
    exec (.registerWrite (at' + 8) 4 1) s = exec (.createCtx n) s ∧
    exec (.registerWrite (at' + 8) 4 2) s = exec (.startCtx n) s ∧
    exec (.registerWrite (at' + 8) 4 3) s = exec (.suspendCtx n) s ∧
    exec (.registerWrite (at' + 8) 4 4) s = exec (.resumeCtx n) s ∧
    exec (.registerWrite (at' + 8) 4 5) s = exec (.retireCtx n) s ∧
    exec (.registerWrite (at' + 8) 4 6) s = exec (.ackCtx n) s ∧
    (w = 0 ∨ 6 < w.toNat → exec (.registerWrite (at' + 8) 4 v) s = .next (s.modCtx n fun x => { x with err := 2 })) ∧
    exec (.registerWrite (at' + 0x10) 4 v) s = exec (.ctxCfgWrite n w) s ∧
    (k = 1 ∨ k = 3 → exec (.registerWrite (at' + 0x18) 8 v) s = .next (s.modCtx n fun x => { x with root := v }) ∧
      exec (.registerWrite (at' + 0x28) 8 v) s = .next (s.modCtx n fun x => { x with save := v }) ∧
      exec (.registerWrite (at' + 0x30) 8 v) s = .next (s.modCtx n fun x => { x with elog := v }) ∧
      exec (.registerWrite (at' + 0x38) 8 v) s = .next (s.modCtx n fun x => { x with evtAddr := v }) ∧
      exec (.registerWrite (at' + 0x40) 4 v) s = .next (s.modCtx n fun x => { x with evtData := w }) ∧
      exec (.registerWrite (at' + 0x60) 8 v) s = .next (s.modCtx n fun x => { x with fbase := v })) ∧
    (k ≠ 1 → k ≠ 3 → exec (.registerWrite (at' + 0x18) 8 v) s = .next no ∧
      exec (.registerWrite (at' + 0x40) 4 v) s = .next no ∧ exec (.registerWrite (at' + 0x60) 8 v) s = .next no) ∧
    (k = 1 ∨ k = 3 ∨ k = 4 → exec (.registerWrite (at' + 0x20) 8 v) s = .next (s.modCtx n fun x => { x with tvec := v })) ∧
    exec (.registerWrite (at' + 0x48) 4 v) s = .next (s.modCtx n fun x => { x with event := x.event &&& ~~~w }) ∧
    exec (.registerWrite (at' + 0x70) 4 v) s = exec (.batchResolve n w) s ∧
    ∀ i, i < 8 → exec (.registerWrite (at' + 0x100 + 8 * i) 8 v) s = exec (.launchslotWrite n 0 i v) s) ∧
  (∀ (s : State) q i (v : DWord), q < 256 → i < 8 →
    exec (.registerWrite (dieWindow 0 + 0x800000 + 64 * q + 8 * i) 8 v) s = exec (.queueAppendWrite q 0 i v) s) ∧
  ∀ (s : State) d (v : DWord), d < 3 →
    let at' := dieWindow d
    let w := v.truncate 32
    exec (.registerWrite (at' + 0x8C4) 4 v) s = .next (s.modDie d fun x => { x with tileEvt := x.tileEvt &&& ~~~w }) ∧
    exec (.registerWrite (at' + 0x8C8) 8 v) s = .next (s.modDie d fun x => { x with tlevAddr := v }) ∧
    exec (.registerWrite (at' + 0x8D0) 4 v) s = .next (s.modDie d fun x => { x with tlevData := w }) ∧
    exec (.registerWrite (at' + 0xC04) 4 v) s = exec (.clkreqWrite d w) s ∧
    (∀ c, c < 16 → exec (.registerWrite (at' + 0x100 + 8 * c) 8 v) s = exec (.embWrite d c v) s) ∧
    exec (.registerWrite (at' + 0xA04) 4 1) s = exec (.enable d) s ∧
    exec (.registerWrite (at' + 0xA04) 4 2) s = exec (.disable d) s ∧
    (∀ p, p < 2 → exec (.registerWrite (at' + 0x600 + 32 * p + 4) 4 1) s = exec (.retrain d p) s) ∧
    ∀ r, r < 16 → exec (.registerWrite (at' + 0x300 + 32 * r + 0xC) 4 1) s = exec (.arm d r) s ∧
      exec (.registerWrite (at' + 0x300 + 32 * r + 0xC) 4 2) s = exec (.disarm d r) s

/-! Sweeps. -/

/-- SWEEP_RANGE and SWEEP_ALL (R395, R396): a well-formed write of CTX_INV asks for the sweep of a page of 4 KiB, 64 KiB, 2 MiB
or 1 GiB, or of all; a malformed one sets CTX_ERR to 2. -/
def SweepSays : Prop :=
  ∀ (s : State) n (v : DWord), n < 4096 →
    let a := v.toNat
    let sh := nth 12 [12, 16, 21, 30] (nbits a 2 2)
    let ok := a < 2 ^ 48 ∧ nbits a 6 6 = 0 ∧ a % 4 = 0
    let asked : State := s.modCtx n fun x => { x with
      sweeps := x.sweeps ++ [{ va := a / 2 ^ sh * 2 ^ sh, shift := sh, all := v.getLsbD 4, md := v.getLsbD 5 }] }
    let bad : State := s.modCtx n fun x => { x with err := 2 }
    (v.getLsbD 4 = false → (ok → exec (.sweepRange n v) s = .next asked) ∧ (¬ ok → exec (.sweepRange n v) s = .next bad) ∧
      exec (.sweepAll n v) s = .next s) ∧
    (v.getLsbD 4 = true → (ok → exec (.sweepAll n v) s = .next asked) ∧ (¬ ok → exec (.sweepAll n v) s = .next bad) ∧
      exec (.sweepRange n v) s = .next s)

/-- What a sweep leaves of the caches, once it reaches every computing die, and of the context's own data. -/
def State.swept (s : State) (n : Nat) (w : Sweep) : State := (s.sweepCaches n w fun e => !s.linkDead 0 e).flushCtx n

/-- SWEEP_COMPLETE (R392, R396, R431, R432): once no access waits and every link can carry it, no cache of a computing die holds a
translation of the context that the sweep covers, what the context wrote is dirty nowhere, and CTX_INVCNT counts the sweep; with
MD its parked walks go on. Behind a Failed link it is lost while that die holds translations of the context. -/
def SweepDoneSays : Prop :=
  ∀ (s : State) n w r, (s.ctx n).sweeps = w :: r →
    let reach := ∀ d, d < 3 → s.computing d = true → s.linkSlow 0 d = false
    (s.sweepWaits n w = true ∨ ¬ reach → exec (.sweepComplete n) s = .next s) ∧
    (s.sweepWaits n w = false → reach → (s.swept n w).ctxDirty n = true → exec (.sweepComplete n) s = .next (s.swept n w)) ∧
    (∀ d, s.sweepWaits n w = false → reach → (s.swept n w).ctxDirty n = false → d < 3 → s.computing d = true →
      (s.swept n w).linkDead 0 d = true → ((s.swept n w).die d).cachesOf n = true →
      exec (.sweepComplete n) s = .next ((s.swept n w).ctxEvent n 1)) ∧
    (s.sweepWaits n w = false → reach → (s.swept n w).ctxDirty n = false →
      (∀ d, d < 3 → s.computing d = true → (s.swept n w).linkDead 0 d = true → ((s.swept n w).die d).cachesOf n = false) →
      ∃ t, exec (.sweepComplete n) s = .next t ∧ (t.ctx n).sweeps = r ∧
        (t.ctx n).invcnt = ((s.ctx n).invcnt + 1) % 2 ^ 32 ∧
        (w.md = false → t.strands = s.strands) ∧
        (w.md = true → ∀ id st, s.strand id = some st → st.ctx = n → ∃ u, t.strand id = some u ∧ u.walkParked = false ∧
          ∀ o, o ∈ u.ops → o.parked = false) ∧
        ∀ d c, d < 3 → s.computing d = true →
          (∀ e, e ∈ (t.core d c).tlb → e.ctx = n → w.covers e.page e.shift = false) ∧
          (∀ l e, l ∈ (t.core d c).lanes → e ∈ l.2.lastPage → e.ctx = n → w.covers e.page e.shift = false) ∧
          (∀ e, e ∈ (t.die d).nodeCache → e.ctx = n → w.covers e.va (levelShift e.level) = false) ∧
          ∀ a b, c < 16 → tget (t.core d c).l1 a = some b → b.ctx = n → b.dirty = false)

/-- The accesses that a sweep waits for (R396): those of the context that may have used an entry that the sweep covers, the largest
leaf being 1 GiB. -/
def SweepWaitSays : Prop :=
  ∀ (s : State) n w, s.sweepWaits n w = true ↔
    ∃ id st o a, (id, st) ∈ s.strands ∧ st.ctx = n ∧ o ∈ st.ops ∧ o.fin = false ∧ a ∈ o.accs ∧ a.done = false ∧
      a.win = .glob ∧ (w.all = true ∨ a.va / 2 ^ 30 * 2 ^ 30 < w.va + 2 ^ w.shift ∧ w.va < (a.va / 2 ^ 30 + 1) * 2 ^ 30)

/-! Batches. -/

/-- Where run-ahead ends (R400): the faulting instruction's own entries alone where there are 32 or the fetch itself faulted; else the
rest of that instruction, then the instructions after it. -/
def State.aheadEnd (s : State) (id : Nat) (st : Strand) (a : Ahead) : RunSt :=
  let q : RunSt :=
    { s := s, st := { st with run := .running, ahead := none }, lace := (s.core st.d st.k).lace, p := [], es := a.entries,
      held := false }
  if 32 ≤ a.entries.length then q else q.start id a.start

/-- ROLLBACK (R400, R401): the strand stands at its faulting instruction as it did, memory and every other strand are as before,
and its batch is the last to be formed, with at most 32 entries. While run-ahead is held at an instruction, it does nothing. -/
def RollbackSays : Prop :=
  ∀ s id st a, s.strand id = some st → st.ahead = some a → st.resident = true →
    ((s.aheadEnd id st a).held = true → exec (.rollback id) s = .next s) ∧
    ((s.aheadEnd id st a).held = false →
      ∃ t b, exec (.rollback id) s = .next t ∧ t.strand id = some { st with ahead := none } ∧ t.mem = s.mem ∧
        (∀ j, j ≠ id → t.strand j = s.strand j) ∧
        (t.ctx st.ctx).forming = (s.ctx st.ctx).forming ++ [b] ∧ b.src = 0 ∧ b.strand = some id ∧ b.pc = st.pc ∧
        b.die = st.d ∧ b.core = st.k ∧ b.kid = st.kid ∧ b.iid = st.iid ∧ b.sid = st.sid ∧ b.entries.length ≤ 32 ∧
        b.entries = (s.aheadEnd id st a).es.take 32 ∧
        (32 ≤ a.entries.length ∨ a.start = .fetch → b.entries = a.entries.take 32))

/-- A record of a batch (R398). -/
def BatchBytesSays : Prop :=
  ∀ (b : Batch), b.entries.length ≤ 32 → b.seq < 2 ^ 32 → b.src < 256 → b.die < 256 → b.core < 256 → b.kid < 2 ^ 32 →
    b.iid < 2 ^ 32 → b.sid < 2 ^ 32 →
    let w (off n : Nat) : Nat := leVal ((b.bytes.drop off).take n)
    b.bytes.length = 512 ∧ w 0 4 = b.seq ∧ w 4 1 = b.entries.length ∧ w 5 1 = b.src ∧ w 6 1 = b.die ∧ w 7 1 = b.core ∧
      w 8 8 = b.pc.toNat ∧ w 16 4 = b.kid ∧ w 20 4 = b.iid ∧ w 24 4 = b.sid ∧
      ∀ i e, b.entries[i]? = some e → e.word < 2 ^ 64 → w (64 + 8 * i) 8 = e.word

/-- BATCH_WRITE (R397): the oldest batch formed is written to its place in the ring of 32, CTX_FSEQ counts it and event BATCH
is set; while the batch written 32 before it is unresolved it waits. -/
def BatchWriteSays : Prop :=
  ∀ (s : State) n b r, n < 4096 → (s.ctx n).forming = b :: r →
    ((∃ o, o ∈ (s.ctx n).batches ∧ o.seq % 32 = b.seq % 32) → exec (.batchWrite n) s = .next s) ∧
    ((∀ o, o ∈ (s.ctx n).batches → o.seq % 32 ≠ b.seq % 32) →
      exec (.batchWrite n) s = .next (((s.devPuts ((s.ctx n).fbase.toNat + 512 * (b.seq % 32)) b.bytes n).modCtx n fun x =>
        { x with forming := r, batches := x.batches ++ [b], fseq := (x.fseq + 1) % 2 ^ 32 }).ctxEvent n 3))

/-- BATCH_RESOLVE (R402): the batch that the write names is resolved, and its Faulted strand is Ready, or will be when it is
restored; no other strand becomes Ready for it; a number that names none sets CTX_ERR to 2. In a context that is Free, Retiring
or Retired the write does nothing. -/
def BatchResolveSays : Prop :=
  ∀ (s : State) n (q : BitVec 32),
    ((s.ctx n).state = 0 ∨ 4 < (s.ctx n).state → exec (.batchResolve n q) s = .next s) ∧
    (1 ≤ (s.ctx n).state → (s.ctx n).state ≤ 4 →
      ((∀ b, b ∈ (s.ctx n).batches → b.seq ≠ q.toNat) →
        exec (.batchResolve n q) s = .next (s.modCtx n fun x => { x with err := 2 })) ∧
      ∀ b, (s.ctx n).batches.find? (fun b => b.seq == q.toNat) = some b →
        ∃ t, exec (.batchResolve n q) s = .next t ∧ (t.ctx n).batches = (s.ctx n).batches.erase b ∧
          (∀ id st, b.src = 0 → b.strand = some id → s.strand id = some st → st.run = .faulted →
            ∃ w, t.strand id = some w ∧ (st.loc.isSome = true → w.run = .ready) ∧ (st.loc = none → w.resolved = true)) ∧
          ∀ id st, b.src ≠ 0 ∨ b.strand ≠ some id → s.strand id = some st →
            ∃ w, t.strand id = some w ∧ w.run = st.run ∧ w.resolved = st.resolved)

end Sys2Proof.Machine
end

