-- ==== Sys2Proof/Safety/Module.lean ====
section
/-! DEFINITION. Frames, parked writes, transient regions and set points (R406 to R424), links and the die set (R18 to R20,
R428 to R432, R447 to R450), as relations between the machine before and after. -/

namespace Sys2Proof.Machine

/-! Frames. -/

/-- The home die of a line as the event finds it, its frame, and the granules that the frame needs. -/
def lineDie (line : Nat) : Nat := homeDie (128 * line)

/-- LINE_WRITEBACK (R409, R410, R413): a dirty line whose frame can be re-encoded leaves its slice, its frame then holds the granules
that it needs, from or to the pool; with the pool short, or parked writes of its frame, the write is parked; with spill
memory full too it waits and the line stays dirty. A line of a frame that is being moved stays as it is. -/
def LineBackSays : Prop :=
  ∀ (s : State) line ctx, lineDie line < s.dies.length →
    let d := lineDie line
    let x := s.die d
    let n := frameOfLine line
    let j := s.frameNeed n
    (tget x.dirty line = none → exec (.lineWriteback line) s = .next s) ∧
    (∀ k, x.moving = some (n, k) → exec (.lineWriteback line) s = .next s) ∧
    (tget x.dirty line = some ctx → (∀ p, p ∈ x.parked → p.waiting = true → p.line ≠ line) →
      (∀ k, x.moving ≠ some (n, k)) →
      ((∀ p, p ∈ x.parked → frameOfLine p.line ≠ n) → j ≤ x.gran n + x.gfree →
        ∃ t, exec (.lineWriteback line) s = .next t ∧ tget (t.die d).dirty line = none ∧ t.mem = s.mem ∧
          t.strands = s.strands ∧ (t.die d).gran n = j ∧ (t.die d).gfree + j = x.gfree + x.gran n ∧
          (t.die d).parked = x.parked) ∧
      ((∃ p, p ∈ x.parked ∧ frameOfLine p.line = n) ∨ x.gran n + x.gfree < j →
        ∃ t, exec (.lineWriteback line) s = .next t ∧ t.mem = s.mem ∧ (t.die d).gfree = x.gfree ∧
          ((x.parked.filter fun p => !p.waiting).length < spillLines → tget (t.die d).dirty line = none ∧
            (t.die d).parked = x.parked ++
              [{ line := line, need := j, ctx := ctx, since := s.gtime, waiting := false, raised := false }]) ∧
          (spillLines ≤ (x.parked.filter fun p => !p.waiting).length → tget (t.die d).dirty line = some ctx ∧
            (t.die d).parked = x.parked ++
              [{ line := line, need := j, ctx := ctx, since := s.gtime, waiting := true, raised := false }])))

/-- What holds an access at its frame (R410, R413): a write of it that is parked, or its move. -/
def FrameHeldSays : Prop :=
  ∀ (s : State) pa, s.frameParked pa = true ↔
    (∃ p, p ∈ (s.die (homeDie pa)).parked ∧ frameOfLine p.line = pa / 4096) ∨
      ∃ k, (s.die (homeDie pa)).moving = some (pa / 4096, k)

/-- Replay (R410, R413, R424): the oldest parked write takes the granules that its frame's encoding needs and is parked no more, and
so on while the pool has room; the first that does not fit keeps its place and every one behind it too. -/
def ReplaySays : Prop :=
  ∀ (x : Die) p r, x.parked = p :: r →
    let n := frameOfLine p.line
    (p.need ≤ x.gran n + x.gfree → x.replay x.parked =
      Die.replay r { x.regrain n p.need with parked := r, dirty := if p.waiting then tdel x.dirty p.line else x.dirty }) ∧
    (x.gran n + x.gfree < p.need → x.replay x.parked = x)

/-- Granules that the parked writes need (R413): those of one frame need once what the largest of them lacks. -/
def NeedSays : Prop :=
  ∀ (x : Die) p, p ∈ x.parked → (∀ q, q ∈ x.parked → frameOfLine q.line = frameOfLine p.line ∧ q.need ≤ p.need) →
    x.parkedNeed = p.need - x.gran (frameOfLine p.line)

/-- TENSION_RECLAIM (R413, R424): while parked writes need more granules than the pool has, the oldest donated frame gives its own
back; with none donated, a zero frame of no parked write and no region begins to move to the shared zero granule; with none of
those either, such a frame that is not zero begins to move to be packed. A move that is under way ends. Then parked writes
replay. -/
def ReclaimSays : Prop :=
  ∀ (s : State) d n, d < 3 → d < s.dies.length →
    let x := s.die d
    (∀ f j, x.moving = some (f, j) →
      exec (.tensionReclaim d n) s = .next ((s.putDie d { x.regrain f j with moving := none }).replayAt d)) ∧
    (x.moving = none → x.parkedNeed ≤ x.gfree → exec (.tensionReclaim d n) s = .next (s.replayAt d)) ∧
    (x.moving = none → x.gfree < x.parkedNeed →
      (∀ f r, x.donated = f :: r → exec (.tensionReclaim d n) s = .next ((s.putDie d (x.regrain f 0)).replayAt d)) ∧
      (x.donated = [] → homeDie (4096 * n) = d → (∀ p, p ∈ x.parked → frameOfLine p.line ≠ n) → x.inRegion n = false →
        ((∀ a, 4096 * n ≤ a → a < 4096 * n + 4096 → cget s.mem a = 0) →
          exec (.tensionReclaim d n) s = .next ((s.putDie d { x with moving := some (n, 0) }).replayAt d)) ∧
        ((∃ a, 4096 * n ≤ a ∧ a < 4096 * n + 4096 ∧ cget s.mem a ≠ 0) →
          (∀ f g, (f, g) ∈ x.frames → 0 < g.gran → homeDie (4096 * f) = d → (∀ p, p ∈ x.parked → frameOfLine p.line ≠ f) →
            x.inRegion f = false → ∃ a, 4096 * f ≤ a ∧ a < 4096 * f + 4096 ∧ cget s.mem a ≠ 0) →
          exec (.tensionReclaim d n) s =
            .next ((s.putDie d { x with moving := some (n, min (x.gran n) (s.frameNeed n)) }).replayAt d))))

/-- PARK_LIMIT_EXPIRY (R412): a context one of whose writes has been parked for 50 µs meets event MEMFULL. -/
def ParkLimitSays : Prop :=
  ∀ (s : State) d p, p ∈ (s.die d).parked → p.raised = false → p.since + 50000 ≤ s.gtime → p.ctx < 4096 →
    (s.ctx p.ctx).memfull = false →
    ∃ t, exec (.parkLimitExpiry d) s = .next t ∧ (t.ctx p.ctx).event.getLsbD 0 = true ∧ (t.ctx p.ctx).memfull = true ∧
      ((s.ctx p.ctx).state = 2 ∨ (s.ctx p.ctx).state = 3 → (t.ctx p.ctx).state = 4)

/-- What package time brings before any event of a turn: a region whose deadline has come is Expired (R419). -/
def DeadlineSays : Prop :=
  ∀ (s : State) (d n : Nat) (r : Region), (s.die d).regions[n]? = some r → r.state = 1 → r.deadline ≤ s.gtime →
    (s.deadlines.die d).regions[n]? = some { r with state := 2 }

/-! Regions. -/

/-- ARM (R417, R420, R424) is refused for a region of no length, beyond the advertised space, that meets another region, whose
granules the pool cannot give, or with parked writes. -/
def State.armBad417 (s : State) (d n : Nat) : Prop :=
  let x := s.die d
  let r := nth Region.off x.regions n
  r.len.toNat % 2 ^ 16 = 0 ∨ s.advertised < r.first + r.size ∨
    (∃ i q, x.regions[i]? = some q ∧ i ≠ n ∧ q.state ≠ 0 ∧ q.meets r = true) ∨
    x.gfree + x.heldBy r < 8 * r.frames ∨ ∃ p, p ∈ x.parked ∧ r.hasFrame (frameOfLine p.line) = true

/-- The bytes of a region are zero, and no other byte at home differs. -/
def Zeroed (s t : State) (d : Nat) (r : Region) : Prop :=
  ∀ a, cget t.mem a = if d * 2 ^ 44 + r.first ≤ a ∧ a < d * 2 ^ 44 + r.first + r.size then 0 else cget s.mem a

/-- ARM and DISARM (R417). -/
def RegionSays : Prop :=
  ∀ (s : State) (d n : Nat) (r : Region), d < 3 → d < s.dies.length → n < 16 → (s.die d).regions[n]? = some r →
    let x := s.die d
    (s.armBad417 d n → exec (.arm d n) s =
      .next (s.modDie d fun x => { x with regions := modAt x.regions n fun r => { r with err := true } })) ∧
    (¬ s.armBad417 d n → ∃ t, exec (.arm d n) s = .next t ∧ Zeroed s t d r ∧
      (t.die d).regions[n]? = some { r with
        err := false, state := 1, armedAt := s.gtime, minBudget := x.budget, deadline := s.gtime + x.budget } ∧
      (t.die d).gfree + 8 * r.frames = x.gfree + x.heldBy r ∧ t.strands = s.strands ∧
      (∀ e c a, a / 4096 * 4096 % 2 ^ 44 < r.first + r.size → r.first ≤ a / 4096 * 4096 % 2 ^ 44 → homeDie a = d →
        tget (t.core e c).l1 a = none)) ∧
    (r.state ≠ 0 → ∃ t, exec (.disarm d n) s = .next t ∧ Zeroed s t d r ∧
      (t.die d).regions[n]? = some { r with err := false, state := 0, deadline := 0 } ∧
      (t.die d).gfree = x.gfree + x.heldBy r ∧ t.strands = s.strands) ∧
    (r.state = 0 → exec (.disarm d n) s = .next (s.modDie d fun x => { x with
      regions := modAt x.regions n fun r => { r with err := false, state := 0, deadline := 0 } }))

/-- REGION_EXPIRE (R419): an Armed region whose deadline has come is Expired; no other region differs. -/
def ExpireSays : Prop :=
  ∀ (s : State) (d n : Nat) (r : Region), d < s.dies.length → (s.die d).regions[n]? = some r →
    ∃ t, exec (.regionExpire d n) s = .next t ∧ t.mem = s.mem ∧ t.strands = s.strands ∧
      (r.state = 1 → r.deadline ≤ s.gtime → (t.die d).regions[n]? = some { r with state := 2 }) ∧
      (r.state ≠ 1 ∨ s.gtime < r.deadline → (t.die d).regions[n]? = some r) ∧
      ∀ i, i ≠ n → (t.die d).regions[i]? = (s.die d).regions[i]?

/-- The retention budget in ns (R418): 64 ms to 45 °C, 32 ms to 85 °C, 16 ms to 105 °C, and 4 ms above. -/
def budgetAt (celsius : Int) : Nat :=
  if celsius ≤ 45 then 64000000 else if celsius ≤ 85 then 32000000 else if celsius ≤ 105 then 16000000 else 4000000

/-- BUDGET_CHANGE (R418, R419): an Armed region's deadline follows the smallest budget since its last arming write. -/
def BudgetSays : Prop :=
  ∀ (s : State) d c, d < s.dies.length →
    ∃ t, exec (.budgetChange d c) s = .next t ∧ t.mem = s.mem ∧ t.strands = s.strands ∧ (t.die d).dramTemp = c ∧
      (t.die d).budget = budgetAt c ∧
      ∀ (n : Nat) (r : Region), (s.die d).regions[n]? = some r →
        (r.state = 1 → (t.die d).regions[n]? = some { r with
          minBudget := min r.minBudget (budgetAt c), deadline := r.armedAt + min r.minBudget (budgetAt c) }) ∧
        (r.state ≠ 1 → (t.die d).regions[n]? = some r)

/-! Set points. -/

/-- MEMSP_WRITE and MEMFSP_SWITCH (R408, R422, R423): a write to D0 requests a set point, which is taken at once while D0's
timing generator is stopped and at a frame boundary otherwise. -/
def MemspSays : Prop :=
  ∀ (s : State) (v : BitVec 32),
    let q := nbits v.toNat 4 2
    let stopped := (s.die 0).port.state ≤ 1
    (∀ d, d ≠ 0 → exec (.memspWrite d v) s = .next s) ∧
    (stopped → exec (.memspWrite 0 v) s = .next { s with spReq := q, spPend := false, spCur := q }) ∧
    (¬ stopped → exec (.memspWrite 0 v) s = .next { s with spReq := q, spPend := true }) ∧
    (stopped → s.spPend = true → exec .memfspSwitch s = .next { s with spCur := s.spReq, spPend := false }) ∧
    (¬ stopped ∨ s.spPend = false → exec .memfspSwitch s = .next s)

/-! Links. -/

/-- A link goes from Active to Retraining, counted at both of its ends. -/
def Retrained (s t : State) (l : Nat) : Prop :=
  (t.link l).state = 3 ∧ (∀ k, k ≠ l → t.link k = s.link k) ∧ t.mem = s.mem ∧ t.strands = s.strands ∧
    ∀ d p, (d, p) ∈ linkEnds l → nth 0 (t.die d).lnkRt p = min (nth 0 (s.die d).lnkRt p + 1) 0xFFFFFFFF

/-- RETRAIN, LINK_FAULT and FLIT_REPLAY (R428 to R430), of a link that is Active; else nothing differs. -/
def LinkSays : Prop :=
  (∀ (s : State) l, l < 3 → s.links.length = 3 → s.dies.length = 3 → (∀ d p, (d, p) ∈ linkEnds l →
      p < (s.die d).lnkRt.length) → (s.link l).state = 2 →
    (∃ t, exec (.linkFault l) s = .next t ∧ Retrained s t l) ∧
    ∀ d p, (d, p) ∈ linkEnds l → ∃ t, exec (.retrain d p) s = .next t ∧ Retrained s t l) ∧
  (∀ (s : State) l, (s.link l).state ≠ 2 → exec (.linkFault l) s = .next s ∧
    ∀ d p, portLink d p = l → exec (.retrain d p) s = .next s ∧ ∀ n, exec (.flitReplay d p n) s = .next s) ∧
  ∀ (s : State) d p n, (s.link (portLink d p)).state = 2 → exec (.flitReplay d p n) s =
    .next (s.modDie d fun x => { x with lnkRpl := modAt x.lnkRpl p fun k => min (k + n) 0xFFFFFFFF })

/-- LINK_TRAINING_END (R430, R432): Training and Retraining end in Active, or with the third failure in a row in Failed, and
then no message that needs the link is left. Where no reply is among them, memory and strands are as before. -/
def TrainingSays : Prop :=
  ∀ (s : State) l, l < s.links.length →
    let k := (s.link l).state
    (k = 1 ∨ k = 3 → exec (.linkTrainingEnd l true) s = .next (s.modLink l fun x => { x with state := 2, fails := 0 })) ∧
    (k = 1 ∨ k = 3 → (s.link l).fails < 2 → exec (.linkTrainingEnd l false) s =
      .next (s.modLink l fun x => { x with fails := x.fails + 1 })) ∧
    (k = 1 ∨ k = 3 → 2 ≤ (s.link l).fails → ∃ t, exec (.linkTrainingEnd l false) s = .next t ∧ (t.link l).state = 4 ∧
      (∀ m, m ∈ t.msgs → t.deadMsg m = false) ∧
      ((∀ m, m ∈ s.msgs → ∀ id n ts, m.body ≠ .reply id n ts) → t.mem = s.mem ∧ t.strands = s.strands)) ∧
    (k ≠ 1 → k ≠ 3 → ∀ b, exec (.linkTrainingEnd l b) s = .next s)

/-! The die set. -/

/-- DSCTL_WRITE (R447): 3 is ignored; while D0's timing generator runs, or a change is in progress, the request is pending. -/
def DsctlSays : Prop :=
  ∀ (s : State) (v : BitVec 32),
    let q := nbits v.toNat 4 2
    (q = 3 → exec (.dsctlWrite v) s = .next s) ∧
    (q ≠ 3 → 2 ≤ (s.die 0).port.state ∨ s.dsBusy.isSome = true →
      exec (.dsctlWrite v) s = .next { s with dsReq := q, dsPend := true }) ∧
    (q ≠ 3 → (s.die 0).port.state ≤ 1 → s.dsBusy = none → q = s.dsCur →
      exec (.dsctlWrite v) s = .next { s with dsReq := q, dsPend := false })

/-- DIESET_CHANGE (R449): a pending change to another mode begins. A joining die behind a Failed link refuses it with ERR; else
the pending set point is taken and every strand of a leaving die, and the matrix state there, is to be saved. -/
def ChangeSays : Prop :=
  ∀ (s : State), (s.die 0).port.state ≤ 1 → s.dsPend = true → s.dsBusy = none → s.dsReq ≠ s.dsCur →
    ((∃ d, (d = 1 ∨ d = 2) ∧ s.dsCur < d ∧ d ≤ s.dsReq ∧ s.linkDead 0 d = true) →
      exec .diesetChange s = .next { s with dsErr := true, dsPend := false }) ∧
    ((∀ d, d = 1 ∨ d = 2 → s.dsCur < d → d ≤ s.dsReq → s.linkDead 0 d = false) →
      ∃ t, exec .diesetChange s = .next t ∧ t.dsBusy = some s.dsReq ∧ t.dsErr = false ∧ t.dsCur = s.dsCur ∧
        t.mem = s.mem ∧ t.spPend = false ∧ (t.spCur = if s.spPend then s.spReq else s.spCur) ∧
        (∀ id st, s.strand id = some st → t.strand id = some
          (if st.resident = true ∧ s.dsReq < st.d ∧ st.d ≤ s.dsCur ∧ st.d < 3 ∧ st.k < 16 then { st with stop := true } else st)) ∧
        (∀ d c, { t.core d c with saving := (s.core d c).saving } = s.core d c) ∧
        ∀ d c m, s.dsReq < d → d ≤ s.dsCur → d < 3 → c < 16 → d < s.dies.length → c < (s.die d).cores.length →
          m ∈ s.residents d c → m ∈ (t.core d c).saving)

/-- The mode that a change reaches (R450): the one asked for while every joining die can be reached, else the largest of which all
can. -/
def ReachedSays : Prop :=
  ∀ (s : State) goal, goal ≤ 2 → s.dsCur ≤ 2 →
    let lost (d : Nat) : Prop := s.dsCur < d ∧ d ≤ goal ∧ s.linkDead 0 d = true
    (¬ lost 1 → ¬ lost 2 → s.reached goal = goal) ∧ (lost 1 → s.reached goal = s.dsCur) ∧
    (¬ lost 1 → lost 2 → s.reached goal = max 1 s.dsCur)

/-- DIESET_COMMIT (R18, R449, R450): with every strand and all matrix state of the leaving dies saved, their darning units idle and
every link that the change needs there, the mode is in force and DSCNT counts it; every computing die's CLKREQ and CLKCUR lie
within the mode's limit, a joining one's clock is its CLKREQ, and the others' clocks stand; the L1 columns of dies that leave
or join are empty. The change stays in progress until the strands that it has saved are restored; only then does a pending one
begin. -/
def CommitSays : Prop :=
  (∀ (s : State), s.dsBusy = none → exec .diesetCommit s = .next s) ∧
  (∀ (s : State), s.dsBusy = some s.dsCur →
    (s.restoring = true → exec .diesetCommit s = .next s) ∧
    (s.restoring = false → s.dsPend = false ∨ 2 ≤ (s.die 0).port.state →
      exec .diesetCommit s = .next { s with dsBusy := none }) ∧
    (s.restoring = false → s.dsPend = true → (s.die 0).port.state ≤ 1 →
      exec .diesetCommit s = exec .diesetChange { s with dsBusy := none })) ∧
  ∀ (s : State) goal, s.dsBusy = some goal → goal ≠ s.dsCur → s.dies.length = 3 →
    let mode := s.reached goal
    let leaves (d : Nat) : Prop := d < 3 ∧ mode < d ∧ d ≤ s.dsCur
    (∀ e, e ∈ s.strands → e.2.resident = true → e.2.d ≤ mode) →
    (∀ d, leaves d → (s.die d).darn = [] ∧ (s.die d).darnRun = none ∧ s.copiesWait d = false ∧
      (∀ x t, x ∈ (s.die d).cores → t ∈ x.tiles → t.held = none) ∧ ∀ n, n < 3 → n ≤ mode → s.linkSlow d n = false) →
    (∀ d, d < 3 → s.dsCur < d → d ≤ mode → s.linkSlow 0 d = false) →
    ∃ t, exec .diesetCommit s = .next t ∧ t.dsCur = mode ∧ t.dsCnt = (s.dsCnt + 1) % 2 ^ 32 ∧ t.dsBusy = some mode ∧
      (t.dsPend = decide (s.dsReq ≠ goal)) ∧ t.strands = s.strands ∧
      ∀ d, d < 3 →
        (mode < d → (t.die d).clkCur = 0) ∧
        (d ≤ mode → (t.die d).clkReq = min (s.die d).clkReq (nth 1600 [1000, 1400, 1600] mode) ∧
          ((t.die d).clkCur = if d ≤ s.dsCur then min (s.die d).clkCur (t.die d).clkReq else (t.die d).clkReq)) ∧
        ((mode < d ∧ d ≤ s.dsCur) ∨ (s.dsCur < d ∧ d ≤ mode) → ∀ c, (t.core d c).l1 = [] ∧ (t.core d c).tlb = [])

end Sys2Proof.Machine
end

