-- ==== Sys2Proof/Safety/Board.lean ====
section
/-! DEFINITION. Mesh tiles (R433, R451 to R463), and what lies below every context: stores from outside, the boot, attestation,
clocks, temperature, power, soft errors and debug access (R248, R481 to R490), as relations between the machine before
and after. -/

namespace Sys2Proof.Machine

/-! Tiles. -/

/-- Nothing but one tile of a die differs. -/
structure OnlyTile (s t : State) (d m : Nat) : Prop where
  rest : { t with dies := [] } = { s with dies := [] }
  die : { t.die d with tiles := [] } = { s.die d with tiles := [] }
  tiles : ∀ i, i ≠ m → (t.die d).tile i = (s.die d).tile i
  dies : ∀ e, e ≠ d → t.die e = s.die e

/-- The tile exists. -/
def State.hasTile (s : State) (d m : Nat) : Prop := d < s.dies.length ∧ m < (s.die d).tiles.length

/-- HEARTBEAT_SEND (R451): a tile that works, or appeals, sends the next number of 16 bits on the wires to its neighbours; FATAL
stays once it is set. -/
def BeatSendSays : Prop :=
  ∀ (s : State) d m b, s.hasTile d m →
    let x := (s.die d).tile m
    (x.up = true ∨ (x.state = 3 ∧ x.appeal = true) → ∃ t, exec (.heartbeatSend d m b) s = .next t ∧ OnlyTile s t d m ∧
      (t.die d).tile m = { x with seq := (x.seq + 1) % 65536, fatal := x.fatal || b, wire := ((t.die d).tile m).wire } ∧
      ∀ k, k < 4 → nth none ((t.die d).tile m).wire k =
        if (nbr m k).isSome = true then some (x.seq, x.fatal || b) else none) ∧
    (x.up = false → ¬ (x.state = 3 ∧ x.appeal = true) → exec (.heartbeatSend d m b) s = .next s)

/-- HEARTBEAT_RECEIVE (R452): a neighbour that is a voter receives what is on its wire. The next number is a period heard: none is
missed, and after three such in a row its vote no longer stands, unless the heartbeat has FATAL set; another number begins the
count again. A heartbeat with FATAL makes it vote. -/
def BeatHearSays : Prop :=
  ∀ (s : State) d m k, s.hasTile d m → k < 4 →
    let x := (s.die d).tile m
    (nth none x.wire k = none → exec (.heartbeatReceive d m k) s = .next s) ∧
    ∀ n f, nth none x.wire k = some (n, f) → (s.die d).voter m k = true →
      x.votes.length = 4 → x.seen.length = 4 → x.good.length = 4 → x.missed.length = 4 → x.wire.length = 4 → x.state ≠ 3 →
      ∃ t, exec (.heartbeatReceive d m k) s = .next t ∧ OnlyTile s t d m ∧
        let y := (t.die d).tile m
        nth none y.wire k = none ∧ nth 0 y.seen k = n ∧
        (n = (nth 0 x.seen k + 1) % 65536 → nth 0 y.missed k = 0 ∧
          (f = false → nth 0 y.good k = min 3 (nth 0 x.good k + 1) ∧
            (2 ≤ nth 0 x.good k → nth false y.votes k = false) ∧
            (nth 0 x.good k < 2 → y.votes = x.votes ∧ y.state = x.state))) ∧
        (n ≠ (nth 0 x.seen k + 1) % 65536 → y.missed = x.missed ∧ nth 0 y.good k = 0 ∧
          (f = false → y.votes = x.votes ∧ y.state = x.state)) ∧
        (f = true → x.up = true → nth false y.votes k = true ∧ y.cause = 3 ∧ y.state = if x.state = 0 then 1 else x.state)

/-- HEARTBEAT_MISS and BABBLE_DETECT (R425, R426, R452, R462): with the third period missed in a row, and on babbling at once, the
voter votes against a tile that is Healthy or Suspect, which is then Suspect; a tile in Probation is due to be fenced at once.
Babbling is a flit without a credit, or more than 8 malformed flits within 2 µs. -/
def BeatMissSays : Prop :=
  ∀ (s : State) d m k, s.hasTile d m → (s.die d).voter m k = true → k < 4 →
    let x := (s.die d).tile m
    let late := (nth [] x.mal k).filter fun g => decide (s.gtime < g + 2000)
    x.votes.length = 4 → x.good.length = 4 → x.missed.length = 4 → x.mal.length = 4 →
    (x.state ≤ 1 → nth 0 x.missed k < 2 → ∃ t, exec (.heartbeatMiss d m k) s = .next t ∧ OnlyTile s t d m ∧
      (t.die d).tile m = { x with
        missed := upd x.missed k (nth 0 x.missed k + 1), good := upd x.good k 0 }) ∧
    (x.state ≤ 1 → 2 ≤ nth 0 x.missed k → ∃ t, exec (.heartbeatMiss d m k) s = .next t ∧ OnlyTile s t d m ∧
      nth false ((t.die d).tile m).votes k = true ∧ ((t.die d).tile m).cause = 1 ∧ ((t.die d).tile m).state = 1) ∧
    (x.state = 4 → ∃ t, exec (.heartbeatMiss d m k) s = .next t ∧ OnlyTile s t d m ∧ ((t.die d).tile m).due = true) ∧
    ∀ credit cls dst bits,
      let bad := 5 < cls ∨ 72 ≤ dst ∨ bits ≠ if cls ≤ 2 then 128 else 512
      (credit = true → ¬ bad → exec (.babbleDetect d m ⟨k, credit, cls, dst, bits⟩) s = .next s) ∧
      (credit = true → bad → late.length < 8 → ∃ t, exec (.babbleDetect d m ⟨k, credit, cls, dst, bits⟩) s = .next t ∧
        OnlyTile s t d m ∧ (t.die d).tile m = { x with mal := upd x.mal k (late ++ [s.gtime]) }) ∧
      (credit = false ∨ bad ∧ 8 ≤ late.length → ∃ t, exec (.babbleDetect d m ⟨k, credit, cls, dst, bits⟩) s = .next t ∧
        OnlyTile s t d m ∧
        (x.state ≤ 1 → nth false ((t.die d).tile m).votes k = true ∧ ((t.die d).tile m).cause = 2 ∧
          ((t.die d).tile m).state = 1) ∧
        (x.state = 4 → ((t.die d).tile m).due = true ∧ ((t.die d).tile m).cause = 6))

/-- TILE_FENCE (R453, R454, R463): a tile whose voters' majority votes against it is Fenced with no vote left, and Retired
where it has appealed three times; its bit of TILEEVT is set. A tile that none votes against, and that is not isolated,
stays. -/
def FenceTileSays : Prop :=
  ∀ (s : State) d m l, d < 3 → m < 24 → s.hasTile d m →
    let x := (s.die d).tile m
    (x.up = true → x.due = true → ∃ t, exec (.tileFence d m l) s = .next t ∧
      ((t.die d).tile m).state = (if 3 ≤ x.appeals then 5 else 2) ∧ ((t.die d).tile m).cause = x.cause ∧
      ((t.die d).tile m).votes = List.replicate 4 false ∧ ((t.die d).tile m).appeals = x.appeals ∧
      (t.die d).tileEvt.getLsbD m = true) ∧
    (x.due = false → (s.die d).majority m = false → (s.die d).isolated m = false →
      exec (.tileFence d m l) s = .next s) ∧
    (x.up = false → exec (.tileFence d m l) s = .next s)

/-- What the fence of a core tile does to the core's items (R290): no strand is resident there any more, and the core runs
nothing. -/
def FenceCoreSays : Prop :=
  ∀ (s : State) d c, d < s.dies.length → c < (s.die d).cores.length → tabAbove 0 s.strands = true →
    (s.fenceCore d c).core d c = { Core.idle with embUse := (s.core d c).embUse } ∧
      ∀ id st, (s.fenceCore d c).strand id = some st → st.resident = true → ¬ (st.d = d ∧ st.k = c)

/-- The fence of a slice tile (R458, R459): while its buddy works, the buddy holds the slice's dirty lines, and no byte is lost and the
slice itself is empty; else the lines that the slice held dirty are lost. -/
def FenceSliceSays : Prop :=
  ∀ (s : State) d n, d < s.dies.length → n < (s.die d).slices.length → buddy n < (s.die d).slices.length → n ≠ buddy n →
    ((s.die d).sliceDown (buddy n) = false → (s.fenceSlice d n).mem = s.mem ∧ (s.fenceSlice d n).strands = s.strands ∧
      ((s.fenceSlice d n).die d).slice n = SliceSt.empty ∧
      (∀ e, ((s.fenceSlice d n).die e).lost = (s.die e).lost ∧ ((s.fenceSlice d n).die e).dirty = (s.die e).dirty) ∧
      ∀ l, l ∈ ((s.die d).slice n).dirty → l ∈ (((s.fenceSlice d n).die d).slice (buddy n)).dirty) ∧
    ((s.die d).sliceDown (buddy n) = true → ∀ l, l ∈ ((s.die d).slice n).dirty → lineDie l < s.dies.length →
      l ∈ ((s.fenceSlice d n).die (lineDie l)).lost)

/-- MULTICAST_FORWARD and FENCE_BROADCAST_RECEIVE (R433, R455, R462): a copy that is pending is under way; a tile that receives its
copy knows of the fence, or of the tile's return. -/
def BroadcastSays : Prop :=
  (∀ (s : State) m r, ∃ t, exec (.multicastForward m r) s = .next t ∧ { t with msgs := s.msgs } = s ∧
    t.msgs.length = s.msgs.length ∧
    ∀ (i : Nat) (q : Msg), s.msgs[i]? = some q →
      (q.id ≠ m → t.msgs[i]? = some q) ∧
      ∀ d e p l, q.id = m → q.body = .fence d e p l →
        (r ∈ p → t.msgs[i]? = some { q with body := .fence d e (p.filter (· != r)) (l ++ [r]) }) ∧
        (r ∉ p → t.msgs[i]? = some q)) ∧
  ∀ (s : State) d m r n q p l, s.hasTile d r → q ∈ s.msgs → q.body = .fence d m p l → r ∈ l →
    ∃ t, exec (.fenceBroadcastReceive d m ⟨r, n⟩) s = .next t ∧ t.strands = s.strands ∧
      (((s.die d).tile m).down = true → m ∈ ((t.die d).tile r).fenceSeen) ∧
      (((s.die d).tile m).down = false → m ∉ ((t.die d).tile r).fenceSeen)

/-- TAG_QUERY and TAG_ANSWER (R456): the destination answers "refused" about a lost message whose source knows of the fence, or
"applied" about a reply whose request it has on record; a refused message is in transit again with the reissue mark, an
applied one's reply too, and a request whose reply was refused is issued again. -/
def TagSays : Prop :=
  ∀ (s : State) m,
    (∃ t, exec (.tagQuery m) s = .next t ∧ { t with msgs := s.msgs } = s ∧ t.msgs.length = s.msgs.length ∧
      ∀ (i : Nat) (q : Msg), s.msgs[i]? = some q →
        (q.id = m → s.queried q = true → t.msgs[i]? = some { q with status := s.tagAnswer q }) ∧
        (q.id ≠ m ∨ s.queried q = false → t.msgs[i]? = some q)) ∧
    (∀ q, (s.tagAnswer q = 2 ∨ s.tagAnswer q = 3) ∧ ((∀ id n ts, q.body ≠ .reply id n ts) → s.tagAnswer q = 2)) ∧
    ((∀ q, q ∈ s.msgs → q.id = m → q.status < 2) → exec (.tagAnswer m) s = .next s) ∧
    ∀ q, s.msgs.find? (fun q => q.id == m && decide (2 ≤ q.status)) = some q →
      (q.status = 3 ∨ (∀ id n ts, q.body ≠ .reply id n ts) → ∃ t, exec (.tagAnswer m) s = .next t ∧
        { t with msgs := s.msgs } = s ∧ t.msgs.length = s.msgs.length ∧
        ∀ (i : Nat) (x : Msg), s.msgs[i]? = some x → t.msgs[i]? = some
          (if x.id = m then { x with status := 0, reissue := x.reissue || q.status == 2 } else x)) ∧
      ∀ id n ts, q.body = .reply id n ts → q.status = 2 → ∃ t, exec (.tagAnswer m) s = .next t ∧
        (∀ x, x ∈ t.msgs ↔ x ∈ s.msgs ∧ x.id ≠ m) ∧
        (∀ st, s.strand id = some st → t.strand id = some (st.modOp n fun o => { o with applied := [] })) ∧
        ∀ j, j ≠ id → t.strand j = s.strand j

/-- SELF_TEST_START, SELF_TEST_DONE and PROBATION_END (R461 to R463): 1 ms after its fence a tile tests itself; passed, it
sends heartbeats from 0 and appeals; failed, it is Retired; 100 ms after Probation began it is Healthy, a slice tile once the
slice that served its lines holds none of them dirty. -/
def SelfTestSays : Prop :=
  ∀ (s : State) d m, s.hasTile d m →
    let x := (s.die d).tile m
    (x.state = 2 → x.since + 1000000 ≤ s.gtime → ∃ t, exec (.selfTestStart d m) s = .next t ∧ OnlyTile s t d m ∧
      (t.die d).tile m = { x with state := 3 }) ∧
    (x.state = 3 → x.appeal = false →
      (∃ t, exec (.selfTestDone d m true) s = .next t ∧ OnlyTile s t d m ∧ ((t.die d).tile m).appeal = true ∧
        ((t.die d).tile m).seq = 0 ∧ ((t.die d).tile m).fatal = false ∧ ((t.die d).tile m).state = 3) ∧
      ∃ t, exec (.selfTestDone d m false) s = .next t ∧ ((t.die d).tile m).state = 5 ∧ ((t.die d).tile m).cause = 5) ∧
    (x.state ≠ 3 → ∀ b, exec (.selfTestDone d m b) s = .next s) ∧
    (x.state = 4 → x.due = false → x.since + 100000000 ≤ s.gtime →
      let s1 := ((s.die d).owes m).foldl (fun (s : State) l => s.cleanLine d l) s
      ((tileSlice m).isSome = true → (s1.die d).owes m ≠ [] → exec (.probationEnd d m) s = .next s1) ∧
      (tileSlice m = none ∨ (s1.die d).owes m = [] → ∃ t, exec (.probationEnd d m) s = .next t ∧
        ((t.die d).tile m).state = 0 ∧ ((t.die d).tile m).cause = 0 ∧ t.strands = s.strands)) ∧
    (x.state ≠ 4 ∨ s.gtime < x.since + 100000000 → exec (.probationEnd d m) s = .next s)

/-! Stores from outside. -/

/-- PCIE_WRITE and APPLICATION_CORE_STORE (R16, R19, R248, R250, R410): bytes that the module advertises are performed at their home, and
no other byte differs; while a frame has parked writes the store waits; any other address does not exist. An application core off the die
set stores nothing, and its stores to the windows are register writes. -/
def OutsideSays : Prop :=
  (∀ (s : State) c a bs, s.dsCur < c / 4 ∨ 12 ≤ c → s.dsCur ≤ 2 → exec (.applicationCoreStore ⟨c, a⟩ bs) s = .next s) ∧
  (∀ (s : State) a bs, 3 * 2 ^ 44 ≤ a → a < 2 ^ 46 →
    exec (.applicationCoreStore ⟨0, a⟩ bs) s = exec (.registerWrite a bs.length (BitVec.ofNat 64 (leVal bs))) s) ∧
  ∀ (s : State) c a (bs : List Byte), a + bs.length ≤ 3 * 2 ^ 44 → bs ≠ [] → c / 4 ≤ s.dsCur → c < 12 →
    ((∀ i, i < bs.length → s.paOk (a + i) = true) → (∀ i, i < bs.length → s.frameParked (a + i) = false) →
      ∃ t, exec (.pcieWrite a bs) s = .next t ∧ exec (.applicationCoreStore ⟨c, a⟩ bs) s = .next t ∧
        (∀ i, i < bs.length → cget t.mem (a + i) = nth 0 bs i) ∧
        (∀ b, b < a ∨ a + bs.length ≤ b → cget t.mem b = cget s.mem b) ∧ t.strands = s.strands) ∧
    ((∀ i, i < bs.length → s.paOk (a + i) = true) → (∃ i, i < bs.length ∧ s.frameParked (a + i) = true) →
      exec (.pcieWrite a bs) s = .next s ∧ exec (.applicationCoreStore ⟨c, a⟩ bs) s = .next s) ∧
    ((∃ i, i < bs.length ∧ s.paOk (a + i) = false) →
      exec (.pcieWrite a bs) s = .fault .noSuchAddress ∧ exec (.applicationCoreStore ⟨c, a⟩ bs) s = .fault .noSuchAddress)

/-! The boot. -/

/-- RESET (R481, R487): no boot while a thermal trip holds, unless the power has come on. Straps that are not three different
numbers fail step 1; with no image that passes, the boot fails in step 3 with the first copy's code; else step 6 is reached
with the first image that passes, compute is released, CLKREQ is the image's, and each link is Active or Failed as its training
ended. -/
def BootSays : Prop :=
  ∀ (s : State) (i : BootInput),
    let good (l : List Nat) : Prop := l.length = 3 ∧ (∀ p, p ∈ l → p < 3) ∧ distinct l = l
    (s.boot.trip = true → i.powerOn = false → exec (.resetBoot i) s = .next s) ∧
    (s.boot.trip = false ∨ i.powerOn = true → ¬ good i.straps →
      ∃ t, exec (.resetBoot i) s = .next t ∧ t.boot.err = 1 ∧ t.boot.stage = 1 ∧ t.boot.held = true ∧ t.strands = []) ∧
    (s.boot.trip = false ∨ i.powerOn = true → good i.straps → imgCheck i.image ≠ 0 → imgCheck i.backup ≠ 0 →
      ∃ t, exec (.resetBoot i) s = .next t ∧ t.boot.err = imgCheck i.image ∧ t.boot.stage = 3 ∧ t.boot.held = true ∧
        t.strands = []) ∧
    ∀ img, (i.image = some img ∧ imgCheck i.image = 0 ∨ i.backup = some img ∧ imgCheck i.image ≠ 0 ∧ imgCheck i.backup = 0) →
      (s.boot.trip = false ∨ i.powerOn = true) → good i.straps → s.dies.length = 3 →
      ∃ t, exec (.resetBoot i) s = .next t ∧ t.boot.err = 0 ∧ t.boot.stage = 6 ∧ t.boot.held = false ∧
        t.boot.ovc = imgOvc img ∧ t.strands = [] ∧ t.ctxs = [] ∧ t.dsCur = 0 ∧
        (∀ l, l < 3 → (t.link l).state = if nth false i.linksUp l = true then 2 else 4) ∧
        ∀ d, d < 3 → (t.die d).clkReq = imgClk img ∧ ((t.die d).clkCur = if d = 0 then imgClk img else 0)

/-- Image checks (R482, R483): an image that passes has its magic, its fields in range, and ROLLBACK at or above the fuses. -/
def ImageSays : Prop :=
  imgCheck none = 5 ∧
  ∀ img, imgCheck (some img) = 0 → 512 + imgLength img ≤ img.length ∧ leVal (img.take 4) = 0x48314E4F ∧ imgOvc img ≤ 16 ∧
    imgClk img % 25 = 0 ∧ 400 ≤ imgClk img ∧ imgClk img ≤ 1000 ∧ Config.rollbackFuses ≤ imgRollback img ∧
    sha384 ((img.drop 28).take 96) = Config.fusedKeyHash

/-- APERI_MODEL_LOAD (R483): a container that is whole, with its magic, and that passes the three checks is hashed and its
payload copied; any other changes nothing. -/
def ModelSays : Prop :=
  ∀ (s : State) img a, s.boot.held = false →
    (imgWhole img = true → leVal (img.take 4) = 0x49524550 → imgTrust img = 0 → ∃ t, exec (.aperiModelLoad img a) s = .next t ∧
      t.boot = { s.boot with aperiHash := sha384 (imgSigned img) } ∧ t.strands = s.strands ∧
      t.mem = (s.devPuts a (imgPayload img) noCtx).mem) ∧
    (imgWhole img = false ∨ leVal (img.take 4) ≠ 0x49524550 ∨ imgTrust img ≠ 0 → exec (.aperiModelLoad img a) s = .next s)

/-- QUOTE and its completion (R484): with a buffer and no quote in progress BUSY is set, else ERR; then bytes 48 to 415 are the
fields of the quote, bytes 416 to 511 the signature over what stands in the buffer before them, the nonce with it, and BUSY
is clear. Where a frame of theirs has parked writes, or an earlier write of the device waits, the bytes wait behind it (R410). -/
def QuoteSays : Prop :=
  ∀ (s : State),
    (s.boot.attBusy = false → s.boot.attBuf ≠ 0 →
      exec .quote s = .next { s with boot := { s.boot with attErr := false, attBusy := true } }) ∧
    (s.boot.attBusy = true ∨ s.boot.attBuf = 0 → exec .quote s = .next { s with boot := { s.boot with attErr := true } }) ∧
    (s.boot.attBusy = false → exec .quoteComplete s = .next s) ∧
    (s.boot.attBusy = true → s.paOk (s.boot.quoteAt + 48) = true → s.paOk (s.boot.quoteAt + 511) = true →
      (∀ i, i < 464 → s.frameParked (s.boot.quoteAt + 48 + i) = false) → (∀ w, w ∈ s.devQ → w.ctx ≠ noCtx) →
      ∃ t, exec .quoteComplete s = .next t ∧ t.boot = { s.boot with attBusy := false } ∧
        cgets t.mem (s.boot.quoteAt + 48) 368 = s.boot.quoteBody ∧
        (∀ i, i < 96 → cget t.mem (s.boot.quoteAt + 416 + i) =
          Config.identitySign (sha384 (cgets s.mem s.boot.quoteAt 48 ++ s.boot.quoteBody)) i) ∧
        ∀ a, a < s.boot.quoteAt + 48 ∨ s.boot.quoteAt + 512 ≤ a → cget t.mem a = cget s.mem a) ∧
    (s.boot.attBusy = true →
      (∃ i, i < 464 ∧ s.frameParked (s.boot.quoteAt + 48 + i) = true) ∨ (∃ w, w ∈ s.devQ ∧ w.ctx = noCtx) →
      ∃ t, exec .quoteComplete s = .next t ∧ t.boot = { s.boot with attBusy := false } ∧ t.mem = s.mem ∧
        t.devQ.length = s.devQ.length + 1 ∧ t.devQ.take s.devQ.length = s.devQ)

/-! Clocks, temperature and power. -/

/-- CLKREQ_WRITE (R18, R486): a multiple of 25 MHz from 400 to the mode's limit is taken, and CLKCUR lies at or below it; any
other value changes nothing. -/
def ClockSays : Prop :=
  ∀ (s : State) d (v : BitVec 32), d < 3 →
    let q := v.toNat % 2048
    let ok := q % 25 = 0 ∧ 400 ≤ q ∧ q ≤ nth 1600 [1000, 1400, 1600] s.dsCur
    (ok → exec (.clkreqWrite d v) s = .next (s.modDie d fun x => { x with clkReq := q, clkCur := min x.clkCur q })) ∧
    (¬ ok → exec (.clkreqWrite d v) s = .next s)

/-- THERMAL_SAMPLE, THERMAL_ACTION, THERMAL_TRIP_RELEASE and POWER_LIMIT_STEP (R487). -/
def ThermalSays : Prop :=
  ∀ (s : State) d,
    (∀ l, l ≠ [] → exec (.thermalSample d l) s = .next (s.modDie d fun x => { x with sensors := l, therm := hottest l })) ∧
    (s.boot.trip = false → d < 3 → s.dies.length = 3 → s.boot.held = false → d ≤ s.dsCur →
      let x := s.die d
      (120 < x.therm → ∃ t, exec (.thermalAction d) s = .next t ∧ t.boot.trip = true ∧ t.boot.held = true ∧ t.strands = []) ∧
      (105 < x.therm → x.therm ≤ 120 → ∃ t, exec (.thermalAction d) s = .next t ∧ (t.die d).bub = 15 ∧
        (425 ≤ x.clkCur → (t.die d).clkCur + 25 = x.clkCur) ∧ t.strands = s.strands ∧ t.mem = s.mem) ∧
      (95 ≤ x.therm → x.therm ≤ 105 → exec (.thermalAction d) s =
        .next (s.modDie d fun x => { x with bub := min (x.bub + 1) 15 })) ∧
      (x.therm < 95 → 0 < x.bub → exec (.thermalAction d) s = .next (s.modDie d fun x => { x with bub := x.bub - 1 })) ∧
      (x.therm < 95 → x.bub = 0 → exec (.thermalAction d) s =
        .next (s.modDie d fun x => { x with clkCur := min (x.clkCur + 25) x.clkReq }))) ∧
    (s.boot.trip = true → exec (.thermalAction d) s = .next s ∧
      ((∀ x, x ∈ s.dies → ∀ c, c ∈ x.sensors → c < 100) → d < 3 →
        exec (.thermalTripRelease d) s = .next { s with boot := { s.boot with trip := false } }) ∧
      ((∃ x, x ∈ s.dies ∧ ∃ c, c ∈ x.sensors ∧ 100 ≤ c) → exec (.thermalTripRelease d) s = .next s)) ∧
    (∀ p, p ≤ nth 48000 [7000, 26000, 48000] s.dsCur → exec (.powerLimitStep p) s = .next { s with power := p }) ∧
    (∀ p, nth 48000 [7000, 26000, 48000] s.dsCur < p → s.boot.held = false → d ≤ s.dsCur → d < s.dies.length →
      425 ≤ (s.die d).clkCur → ∃ t, exec (.powerLimitStep p) s = .next t ∧ t.power = p ∧
        (t.die d).clkCur + 25 = (s.die d).clkCur ∧ t.strands = s.strands ∧ t.mem = s.mem)

/-! Soft errors and debug. -/

/-- SRAM_ERROR (R368, R488): a corrected error is counted; an uncorrectable one of a line loses the line, of a strand's state sets its
core tile's FATAL, and of a read by the matrix operation that runs ends that operation with UNCORR; one that reads no fragment
and no tile is not touched. -/
def SramSays : Prop :=
  ∀ (s : State) d c line,
    exec (.sramError (.corrected d)) s = .next (s.modDie d fun x => { x with eccCnt := min (x.eccCnt + 1) 0xFFFFFFFF }) ∧
    (lineDie line < s.dies.length → ∃ t, exec (.sramError (.memory line)) s = .next t ∧ t.mem = s.mem ∧
      (s.regionOf (128 * line) = none → t.readBad (128 * line) = some .uncorr)) ∧
    (s.hasTile d (coreTile c) → ∃ t, exec (.sramError (.strandState d c)) s = .next t ∧ OnlyTile s t d (coreTile c) ∧
      ((t.die d).tile (coreTile c)).fatal = true) ∧
    (∀ o r, d < s.dies.length → c < (s.die d).cores.length → (s.core d c).seq = o :: r →
      (o.reads = true → ∃ t, exec (.sramError (.matrixRead d c)) s = .next t ∧
        (t.core d c).seq = { o with err := some .uncorr } :: r) ∧
      (o.reads = false → ∃ t, exec (.sramError (.matrixRead d c)) s = .next t ∧ (t.core d c).seq = (s.core d c).seq)) ∧
    ∀ (o : MatOp), (o.started = false → o.reads = false) ∧ (∀ t k n, o.kind = .mclr t k n → o.reads = false) ∧
      (∀ a b f, o.kind = .mtwid a b f → o.reads = false) ∧
      ∀ t k n x, o.kind = .mloop t k n x → o.started = true → (o.reads = true ↔ o.step < x.steps)

/-- A die's window has this address (R250). -/
def inDieWindow (a : Nat) : Prop := ∃ d, d < 3 ∧ dieWindow d ≤ a ∧ a < dieWindow d + 0x1000000

/-- DEBUG_ACCESS (R6, R489): the identification registers are read in every case; all else only where debugging is enabled. A read
gives the value to the TAP and changes nothing else; a write of a die window is a register write, and a strand's register alone
differs. -/
def DebugSays : Prop :=
  ∀ (s : State) x,
    let out (n : Nat) : State := { s with boot := { s.boot with tap := n } }
    (∀ d, x = .readIdcode d → exec (.debugAccess x) s = .next (out 0x04831C6B)) ∧
    (∀ d, x = .readDieInfo d → d < 3 → exec (.debugAccess x) s = .next (out (s.dieInfo d))) ∧
    (s.boot.dbg = false → (∀ d, x ≠ .readIdcode d) → (∀ d, x ≠ .readDieInfo d) → exec (.debugAccess x) s = .next s) ∧
    (s.boot.dbg = true →
      (∀ a n, x = .readWindow a n → inDieWindow a → exec (.debugAccess x) s = .next (out (s.readWindow a n).toNat)) ∧
      (∀ a n v, x = .writeWindow a n v → n = 4 → inDieWindow a →
        exec (.debugAccess x) s = exec (.registerWrite a n v) s) ∧
      (∀ a n, x = .readWindow a n → ¬ inDieWindow a → exec (.debugAccess x) s = .next s) ∧
      (∀ a n v, x = .writeWindow a n v → ¬ inDieWindow a → exec (.debugAccess x) s = .next s) ∧
      ∀ id st, s.strand id = some st →
        (∀ r, x = .readScalar id r → r < 64 → exec (.debugAccess x) s = .next (out (st.sget r).toNat)) ∧
        (∀ r e, x = .readVector id r e → r < 128 → e < 16 → exec (.debugAccess x) s = .next (out (st.vget r e).toNat)) ∧
        (∀ r, x = .readPredicate id r → r < 48 → exec (.debugAccess x) s = .next (out (st.qget r).toNat)) ∧
        (∀ r e, x = .readIndex id r e → r < 8 → e < 16 → exec (.debugAccess x) s = .next (out (st.xget r e).toNat)) ∧
        (x = .readFmt id → exec (.debugAccess x) s = .next (out st.fmt.toNat)) ∧
        (x = .readPc id → exec (.debugAccess x) s = .next (out st.pc.toNat)) ∧
        (∀ r v, x = .writeScalar id r v → r < 64 →
          exec (.debugAccess x) s = .next (s.putStrand id { st with s := cput st.s r v })) ∧
        (∀ r e v, x = .writeVector id r e v → r < 128 → e < 16 →
          exec (.debugAccess x) s = .next (s.putStrand id (st.vset r e v))) ∧
        (∀ r v, x = .writePredicate id r v → 0 < r → r < 48 →
          exec (.debugAccess x) s = .next (s.putStrand id { st with q := cput st.q r v })) ∧
        (∀ r e v, x = .writeIndex id r e v → r < 8 → e < 16 →
          exec (.debugAccess x) s = .next (s.putStrand id (st.xset r e v))) ∧
        (∀ v, x = .writeFmt id v → exec (.debugAccess x) s = .next (s.putStrand id { st with fmt := v })) ∧
        ∀ v, x = .writePc id v → exec (.debugAccess x) s = .next (s.putStrand id { st with pc := v &&& ~~~1#64 }))

end Sys2Proof.Machine
end

