-- ==== Sys2Proof/Safety/Base.lean ====
section
/-! DEFINITION. The machine after reset, encodings, fetch and one turn (R80 to R91, R101, R260, R274), the checks of issue,
and what elementary results are (R29, R36, R37, R39, R126, R139, R149, R153 to R171), written from the rules. -/

namespace Sys2Proof.Machine

/-! Reset. -/

/-- What the rules give for reset (R7, R252, R407, R416, R421, R430, R452, R472, R481). -/
def ResetSays : Prop :=
  let s := State.reset
  s.spCur = 0 ∧ s.spPend = false ∧ s.dsCur = 0 ∧ s.dsPend = false ∧ s.boot.held = true ∧ s.boot.err = 0 ∧
    s.strands = [] ∧ s.msgs = [] ∧ (∀ n, (s.ctx n).state = 0) ∧ (∀ l, (s.link l).state = 0) ∧
    gpool 0 = 32899071 ∧ gpool 8 = 32636927 ∧
    ∀ d, d < 3 → (s.die d).gfree = gpool 0 ∧ (s.die d).pos = d ∧ (s.die d).tileEvt = 0 ∧ (s.die d).port.state = 0 ∧
      (s.die d).groups = [] ∧ (∀ m, ((s.die d).tile m).state = 0) ∧
      ∀ (n : Nat) (r : Region), (s.die d).regions[n]? = some r → r.state = 0

/-! Encodings. -/

/-- Every H halfword, W word and L doubleword that decodes to an instruction with operands encodes back to itself. YIELD of W
and HALT are no exception but for bits that their entries leave without a meaning. -/
def WordsBack : Prop :=
  (∀ x, encodeWord (decodeH x) = some (.h x) ∨ x.getLsbD 0 = true) ∧
  (∀ x, x.extractLsb' 0 2 = 1#2 → decodeW x ≠ .encodingNotAnInstruction → decodeW x ≠ .yieldW →
    encodeWord (decodeW x) = some (.w x)) ∧
  ∀ x, x.extractLsb' 0 2 = 3#2 → decodeL x ≠ .encodingNotAnInstruction → decodeL x ≠ .halt →
    encodeWord (decodeL x) = some (.l x)

/-- The worked encodings of the manual: four instructions with every field given. -/
def WorkedWords : Prop :=
  decode [0x11, 0xE8, 0xFE, 0xFF] = .ok (.moviW { imm := 0x3FFFB, d5 := 2, e := 0 }, 4) ∧
  decode [0x41, 0x44, 0x61, 0x1C] = .ok (.imulW { e := 0, s := 0, g := 2, d := 5, a := 6, b := 7 }, 4) ∧
  decode [0x9B, 0x00, 0x40, 0x08, 0x02, 0x10, 0x00, 0x00] = .ok (.fadd {
    e := 0, s4 := 3, u := 1, y := 0, g6 := 0, gn := 0, d := 4, a := 1, b := 8, c := 0, w := 0, h := 0, m3 := 0 }, 8) ∧
  decode [0xE2, 0x20] = .ok (.faddH { e := 1, d := 3, b := 4 }, 2)

/-- W encodings that are no instruction (R89, R90). -/
def NoWordSays : Prop :=
  ∀ x : BitVec 32,
    let op := (x.extractLsb' 8 6).toNat
    (op = 0 ∨ op = 46 ∨ op = 47 ∨ 56 ≤ op → decodeW x = .encodingNotAnInstruction) ∧
    (op ≠ 0 → op ≠ 46 → op ≠ 47 → op ≠ 52 → op < 56 → decodeW x ≠ .encodingNotAnInstruction) ∧
    (op = 52 → x.extractLsb' 3 5 ≠ 0 ∨ x.extractLsb' 14 18 ≠ 0 → decodeW x = .encodingNotAnInstruction) ∧
    (op = 50 ∨ op = 54 → x.extractLsb' 3 5 ≠ 0 → wellFormed (decodeW x) = false) ∧
    (op = 53 → x.extractLsb' 14 18 ≠ 0 → wellFormed (decodeW x) = false)

/-! One turn. -/

/-- A fetch (R80, R81): where the page translates, and no byte meets an error or waits, the instruction is the one that the bytes at the
pc encode, with its length. -/
def FetchSays : Prop :=
  ∀ (s s1 s2 : State) st pa i n, st.pc.toNat + 8 ≤ 2 ^ 48 → st.pc.toNat % 4096 ≤ 4088 →
    s.translate st.ctx st.d st.k (some st.ln) st.pc.toNat kFetch = (s1, .ok pa) →
    s1.translate st.ctx st.d st.k (some st.ln) st.pc.toNat kFetch = (s2, .ok pa) →
    (∀ j, j < 8 → s.readBadFrom st.d (pa + j) = none ∧ s.heldFrom st.d (pa + j) = false) → decode (s.codeBytes st.d st.k pa 8) = .ok (i, n) →
    s.fetch st = (s2, .ok i (BitVec.ofNat 64 (leVal (s.codeBytes st.d st.k pa n))) n)

/-- One step (R81, R260, R274): the strand whose turn it is, with no held request and no trap pending, executes the
instruction that it fetches, and what follows from the act follows. -/
def StepSays : Prop :=
  ∀ s id st ns clk r i ir n s1, s.agenda = { ns := ns, clk := clk, act := .issue id } :: r →
    let s0 := ({ s with agenda := r }.elapse ns clk).deadlines
    s0.strand id = some st → s0.mayIssue st = true → st.hold = none → st.firstPend = none →
    s0.fetch st = (s1, .ok i ir n) →
    step s = settleTurn (exec i { s1.putStrand id { st with ir := ir } with cur := some id })

/-- Every instruction that a strand executes, and every event but a store from outside, answers a next state; and so does every
step that runs no such store. -/
def GoesOnSays : Prop :=
  (∀ (i : Instr) (s : State) id st, s.cur = some id → s.strand id = some st →
    (∀ c a l, i ≠ .pcieWrite a l ∧ i ≠ .applicationCoreStore c l) → ∃ t, exec i s = .next t) ∧
  ∀ s, (∀ t c a l, s.agenda.head? = some t → t.act ≠ .event (.pcieWrite a l) ∧ t.act ≠ .event (.applicationCoreStore c l)) →
    ∃ t, step s = .next t

/-- Memory keeps its canonical form in every step. -/
def MemoryStays : Prop := ∀ s t, Memory.wf s.mem → step s = .next t → Memory.wf t.mem

/-! The checks of issue. -/

/-- A per-thread instruction that fails a check raises its trap at issue (R61, R76, R84, R90, R105, R274, R282): the encoding
first, then the allocation, the overlap of blocks, and the scoreboard. SR_EMASK holds the active threads that the
guard admits; an encoding whose guard is no predicate admits all. -/
def IssueSays : Prop :=
  ∀ i r s id st, vecRow i = some r → s.cur = some id → s.strand id = some st → st.resume = none → st.canTrap s →
    r.sp.cond = false →
    let m := if r.f.g6.toNat < 48 then
        st.mask &&& (if r.f.gn = 1 then ~~~st.qget r.f.g6.toNat else st.qget r.f.g6.toNat) else st.mask
    let traps (c : Cause) (n : Nat) : Prop := ∃ t, exec i s = .next t ∧ Trapped s t id st c n m
    (wellFormed i = false → traps .illop 0) ∧
    (wellFormed i = true → st.allocOk r.sp r.f = false → traps .illop 2) ∧
    (wellFormed i = true → st.allocOk r.sp r.f = true → overlapOk r.sp r.f = false → traps .illop 0) ∧
    ∀ n, wellFormed i = true → st.allocOk r.sp r.f = true → overlapOk r.sp r.f = true → r.sp.roleOk st.role = true →
      s.score st.ctx = true → st.stallField r.sp r.f m = some n → traps .stall n

/-- A per-thread instruction of the integer, FP and complex families, in every format, that passes the checks of issue and whose
windows admit every thread that executes: each such thread has its result, nothing else of the strand differs, and the strand
stands behind the instruction (R57 to R59, R72, R74, R82 to R88). -/
def VecSays : Prop :=
  ∀ i r s id st, vecRow i = some r → Passes i r.sp r.f noPre s id st → r.ready st = true →
    st.vecInside r.sp r.f (r.vd st) (st.nowAdm r.sp r.f) →
    ∃ t u, exec i s = .next t ∧ VecResult r.sp r.f (r.vd st) (st.nowAdm r.sp r.f) st u ∧
      Ends s t id st u r.len none (r.f.e == 1) false

/-- A turn that stops before element n of a block (R79, R259): the elements from the strand's boundary up to that one have their
results, and the strand stands at the instruction, to go on with element n. -/
def PartSays : Prop :=
  ∀ i r s id st n, vecRow i = some r → Passes i r.sp r.f noPre s id st → r.ready st = true → uniform r.sp r.f = false →
    st.nowElem < n → n < elems r.sp r.f → (st.cutBefore n).vecInside r.sp r.f (r.vd st) (st.nowAdm r.sp r.f) →
    ∃ t u, exec i (s.putStrand id (st.cutBefore n)) = .next t ∧ OnlyStrand s t id ∧
      VecResult r.sp r.f (r.vd st) (st.nowAdm r.sp r.f) (st.cutBefore n) u ∧
      t.strand id = some { u with resume := some { elem := n, mask := 0xFFFF, kept := st.keptNow, upto := none } }

/-- An index register whose window refuses the lowest thread that executes (R62, R76): INDEX, with the register's number, before
any result. -/
def IndexSays : Prop :=
  ∀ i r s id st k, vecRow i = some r → Passes i r.sp r.f noPre s id st → r.ready st = true → elems r.sp r.f = 1 →
    uniform r.sp r.f = false → st.nowAdm r.sp r.f ≠ 0 → st.canTrap s →
    st.inputs r.sp r.f (r.vd st) 0 (mLow (st.nowAdm r.sp r.f)) = .error k →
    ∃ t, exec i s = .next t ∧ Trapped s t id st .index k (st.nowAdm r.sp r.f)

/-! Elementary results. -/

/-- A function on the halves and on the bytes of a word (R153). -/
def byHalf (g : BitVec 16 → BitVec 16 → BitVec 16) (a b : Word) : Word :=
  g (a.extractLsb' 16 16) (b.extractLsb' 16 16) ++ g (a.extractLsb' 0 16) (b.extractLsb' 0 16)
def byByte (g : Byte → Byte → Byte) (a b : Word) : Word :=
  g (a.extractLsb' 24 8) (b.extractLsb' 24 8) ++ g (a.extractLsb' 16 8) (b.extractLsb' 16 8) ++
    g (a.extractLsb' 8 8) (b.extractLsb' 8 8) ++ g (a.extractLsb' 0 8) (b.extractLsb' 0 8)

/-- One thread's operands of one word each. -/
def words1 (a b c : Word) : VIn := { t := 0, e := 0, a := [a], b := [b], c := [c], d := [] }

/-- Integer results of one thread (R29, R98, R120, R153 to R156): each element wraps, and no flag is raised. -/
def IntegerSays : Prop :=
  ∀ (env : FEnv) (a b c : Word),
    let x := words1 a b c
    let one (v : VecDef) (w : Word) : Prop := v.fn env x = { d := [w], q := none, flags := 0 }
    one (defIadd 0) (a + b) ∧ one (defIadd 1) (a + b) ∧ one (defIadd 2) (byHalf (· + ·) a b) ∧
    one (defIadd 3) (byHalf (· + ·) a b) ∧ one (defIadd 4) (byByte (· + ·) a b) ∧ one (defIadd 5) (byByte (· + ·) a b) ∧
    one (defIsub 0) (a - b) ∧ one (defIsub 2) (byHalf (· - ·) a b) ∧ one (defIsub 5) (byByte (· - ·) a b) ∧
    one (defImul 0) (a * b) ∧ one (defImul 3) (byHalf (· * ·) a b) ∧ one (defImul 4) (byByte (· * ·) a b) ∧
    one (defImin 0) (if a.slt b then a else b) ∧ one (defImin 1) (if a.ult b then a else b) ∧
    one (defImax 0) (if a.slt b then b else a) ∧ one (defImax 1) (if a.ult b then b else a) ∧
    one (defImin 2) (byHalf (fun a b => if a.slt b then a else b) a b) ∧
    one (defImax 5) (byByte (fun a b => if a.ult b then b else a) a b) ∧
    one (defIand 6) (a &&& b) ∧ one (defIor 6) (a ||| b) ∧ one (defIxor 6) (a ^^^ b) ∧
    one (defIshl 6) (a <<< (b.toNat % 32)) ∧ one (defIshr 6) (a >>> (b.toNat % 32)) ∧
    (defIaddc.fn env x).d = [a + b + c] ∧
    (defIaddc.fn env x).q = some (decide (2 ^ 32 ≤ a.toNat + b.toNat + c.toNat)) ∧
    (∀ k, (defIcmp 0 k).fn env x = { d := [], flags := 0, q := some (match k with
      | 0 => a.slt b
      | 1 => a.sle b
      | 2 => b.slt a
      | 3 => b.sle a
      | 4 => a == b
      | _ => a != b) }) ∧
    ∀ k, (defIcmp 1 k).fn env x = { d := [], flags := 0, q := some (match k with
      | 0 => a.ult b
      | 1 => a.ule b
      | 2 => b.ult a
      | 3 => b.ule a
      | 4 => a == b
      | _ => a != b) }

/-- The three formats. -/
def fpFormats : List FFmt := [fmtF32, fmtF16, fmtBF16]

/-- Floating-point results (R26, R36, R37, R163): a NaN gives the canonical NaN and no flag; sums and products commute;
subtraction adds the opposite; infinities of opposite signs give a NaN with NV; an exact zero difference is +0, and −0 when
rounding down. -/
def FloatSays : Prop :=
  ∀ f, f ∈ fpFormats → ∀ (env : FEnv) (a b : Nat), a < 2 * f.signBit → b < 2 * f.signBit →
    (f.isNan a = true ∨ f.isNan b = true → fpAdd f env a b = { bits := f.nanBits, flags := 0 } ∧
      fpMul f env a b = { bits := f.nanBits, flags := 0 }) ∧
    fpAdd f env a b = fpAdd f env b a ∧ fpMul f env a b = fpMul f env b a ∧
    (f.isNan b = false → fpSub f env a b = fpAdd f env a (if f.isNeg b then b - f.signBit else b + f.signBit)) ∧
    fpAdd f env f.infBits (f.signBit + f.infBits) = { bits := f.nanBits, flags := flagNV } ∧
    (f.isNan a = false → f.isInf a = false →
      fpAdd f env a f.infBits = { bits := f.infBits, flags := 0 } ∧
      (fpSub f env a a).bits = if env.rm = .rdn then f.signBit else 0)

/-- Complex results (R169, R171): BFLY is CADD and CSUB in two registers; CMAG2 of an infinite component is +∞ even beside a
NaN. -/
def ComplexSays : Prop :=
  ∀ (env : FEnv) (m : Nat) (x : VIn),
    ((defBfly m).fn env x).d = ((defCadd m).fn env x).d ++ ((defCsub m).fn env x).d ∧
    ((defBfly m).fn env x).flags = ((defCadd m).fn env x).flags ||| ((defCsub m).fn env x).flags ∧
    ∀ a : Word, (cxFmt m).isInf (reOf a) = true ∨ (cxFmt m).isInf (imOf a) = true →
      cxMag2 (cxFmt m) env a = { bits := fmtF32.infBits, flags := 0 }

/-! Some instructions whole. -/

/-- The four products of bytes, signed or not, added to c: exact, then 32 bits (R161). -/
def dotRef (signed : Bool) (a b c : Word) : Word :=
  let v (x : Word) (i : Nat) : Word := if signed then (x.extractLsb' (8 * i) 8).signExtend 32 else (x.extractLsb' (8 * i) 8).zeroExtend 32
  c + v a 0 * v b 0 + v a 1 * v b 1 + v a 2 * v b 2 + v a 3 * v b 3

/-- What a per-thread instruction's whole entry says of a thread's operands and result, for every thread that executes. -/
def WholeSays (i : Instr) (f : LFields) (rule : VIn → VOut → Prop) (vd : VecDef) : Prop :=
  ∀ s id st, Passes i (rowOf i) f noPre s id st → st.vecInside (rowOf i) f vd (st.nowAdm (rowOf i) f) →
    ∃ t u, exec i s = .next t ∧ Ends s t id st u 8 none (f.e == 1) false ∧
      VecResult (rowOf i) f vd (st.nowAdm (rowOf i) f) st u ∧
      ∀ e t o n x, st.vecOut (rowOf i) f vd (st.nowAdm (rowOf i) f) e t = some (o, n) →
        st.inputs (rowOf i) f vd e (vecFrom (rowOf i) f (st.nowAdm (rowOf i) f) t) = .ok x → rule x o

/-- An encoding that its entry does not admit raises ILLOP wherever it is executed (R101, R275). -/
def IllFormedSays (i : Instr) : Prop :=
  wellFormed i = false ∧ ∀ s id st, s.cur = some id → s.strand id = some st → st.resume = none → st.canTrap s →
    ∃ t m, exec i s = .next t ∧ Trapped s t id st .illop 0 m

/-- IDOT4 (R161). -/
def Idot4Says : Prop :=
  ∀ f, WholeSays (.idot4 f) f (fun x o => o.q = none ∧ o.flags = 0 ∧
    o.d = [dotRef (f.m3 == 4) (nth 0 x.a 0) (nth 0 x.b 0) (nth 0 x.c 0)]) (vdIdot4 f)

/-- LEA (R159). -/
def LeaSays : Prop :=
  (∀ f, WholeSays (.lea f) f (fun x o => o.q = none ∧ o.flags = 0 ∧
    let ix : DWord := if f.m3 = 0 then (nth 0 x.b 0).signExtend 64 else (nth 0 x.b 0).zeroExtend 64
    o.d = words64 (pair64 x.a + (ix <<< f.c.toNat))) (defLea f.m3.toNat f.c.toNat)) ∧
  ∀ f, 8 ≤ f.c.toNat ∨ (f.d.toNat < 128 ∧ f.d.toNat % 2 = 1) ∨ (f.a.toNat < 192 ∧ f.a.toNat % 2 = 1) →
    IllFormedSays (.lea f)

/-- ICMP (R155), with the conditions of R120. -/
def IcmpSays : Prop :=
  (∀ f, WholeSays (.icmp f) f (fun x o => o.d = [] ∧ o.flags = 0 ∧ o.q = some (
    let a := pair64 x.a
    let b := pair64 x.b
    let lt := if f.m3 = 0 then (nth 0 x.a 0).slt (nth 0 x.b 0) else a.ult b
    match f.c.toNat with
    | 0 => lt
    | 1 => lt || a == b
    | 2 => !lt && a != b
    | 3 => !lt
    | 4 => a == b
    | _ => a != b)) (defIcmp f.m3.toNat f.c.toNat)) ∧
  ∀ f, 6 ≤ f.c.toNat → IllFormedSays (.icmp f)

/-- GETFMT (R126). -/
def GetfmtSays : Prop :=
  (∀ f s id st, Passes (.getfmt f) (rowOf (.getfmt f)) f noPre s id st → st.nowAdm (rowOf (.getfmt f)) f ≠ 0 →
    ∃ t, exec (.getfmt f) s = .next t ∧
      Ends s t id st (st.sset (f.d.toNat - 128) ((st.fmt.extractLsb' 0 22).zeroExtend 32)) 8 none (f.e == 1) false) ∧
  ∀ f, f.a ≠ 0 ∨ f.b ≠ 0 ∨ f.c ≠ 0 ∨ f.m3 ≠ 0 → IllFormedSays (.getfmt f)

/-- NOP and YIELD (R149), where no reconvergence PC lies ahead: neither RPC nor the stack differs, nor any register; the strand
is Ready behind a YIELD. -/
def NopSays : Prop :=
  ∀ s id st, st.stack = [] →
    (∀ f, Passes (.nop f) (rowOf (.nop f)) f noPre s id st → ∃ t w, exec (.nop f) s = .next t ∧ OnlyStrand s t id ∧
      t.strand id = some w ∧ w.pc = st.past 8 ∧ w.rpc = st.rpc ∧ w.rpcv = st.rpcv ∧ w.stack = st.stack ∧ w.v = st.v ∧
      w.s = st.s ∧ w.q = st.q ∧ w.x = st.x ∧ w.fmt = st.fmt ∧ w.mask = st.mask) ∧
    ∀ f, Passes (.yield f) (rowOf (.yield f)) f noPre s id st → ∃ t w, exec (.yield f) s = .next t ∧ OnlyStrand s t id ∧
      t.strand id = some w ∧ w.pc = st.past 8 ∧ w.run = .ready ∧ w.rpc = st.rpc ∧ w.rpcv = st.rpcv ∧ w.stack = st.stack ∧
      w.v = st.v ∧ w.s = st.s ∧ w.q = st.q ∧ w.x = st.x ∧ w.fmt = st.fmt ∧ w.mask = st.mask

/-- BRA (R139): all active threads go to the target where the guard admits one of them, and fall through together where it
admits none; an unguarded BRA is always taken. -/
def BraSays : Prop :=
  ∀ f s id st, Passes (.bra f) (rowOf (.bra f)) f noPre s id st → st.resume = none →
    let some' := st.mask &&& (if f.gn = 1 then ~~~st.qget f.g6.toNat else st.qget f.g6.toNat)
    (some' ≠ 0 → ∃ t, exec (.bra f) s = .next t ∧ Stands s t id st (st.goTo (st.ahead24 f)) (f.e == 1) false) ∧
    (some' = 0 → ∃ t, exec (.bra f) s = .next t ∧ Stands s t id st (st.goTo (st.past 8)) (f.e == 1) false) ∧
    (f.g6 = 0 → f.gn = 0 → st.mask ≠ 0 → some' ≠ 0)

end Sys2Proof.Machine
end

