-- ==== Sys2Proof/Certificates/Slice0/Obligations.lean ====
section
/-! DEFINITION. The statements for the provers. Each names the statements of Safety that it joins; those say, over the
machine before and after, what the rules of the manual that they cite say. -/

open Sys2Proof Sys2Proof.Machine

/-- What reset leaves. After reset the set point is 0, the mode Solo, no change is pending, compute is held in reset
with no error, every context is Free, every link Down, every region and port Off, every tile Healthy, no group or
message exists, and each pool holds GPOOL granules; that tiles are Healthy rather than retired is the state after
power-on. -/
def Obligations.ResetValues : Prop :=
  ResetSays

/-- Reset is a good state. Memory is in its canonical form, the tables are sorted, the module has its three dies of
sixteen cores and three links, and the mode is legal, right after reset (the canonical form and the shape are the
model's own, log entry 1). -/
def Obligations.ResetIsGood : Prop :=
  State.good State.reset = true

/-- Every step keeps memory canonical. From every state whose memory is in canonical form, a step that answers a next
state gives one whose memory is too (the form is the model's own, log entry 1). -/
def Obligations.MemoryKept : Prop :=
  MemoryStays

/-- No instruction stops the machine. Every instruction that a strand executes, every event but a store from outside,
and every step without such a store answers a next state. -/
def Obligations.StepsGoOn : Prop :=
  GoesOnSays

/-- Decoding inverts encoding. For every well-formed instruction, with every operand at every value, the decoder reads
it back from the bytes that the encoder gives it, with its length, whatever bytes follow. -/
def Obligations.DecodeEncode : Prop :=
  ∀ i e, wellFormed i = true → encodeWord i = some e → ∀ rest, decode (e.bytes ++ rest) = .ok (i, e.bytes.length)

/-- Encoding inverts decoding. Every halfword, word and doubleword that decodes to an instruction encodes back to
itself: no bit of an encoding is dropped, but for the bits that YIELD of W and HALT do not give a meaning. -/
def Obligations.EncodeDecode : Prop :=
  WordsBack

/-- The worked encodings decode. The four instructions of the worked example of the encoding chapter, byte by byte,
decode to MOVI, IMUL, FADD.uni and FADD with their fields. -/
def Obligations.DecodedWords : Prop :=
  WorkedWords

/-- W encodings that are none. A W word with op6 0, 46, 47 or 56 to 63, and a malformed YIELD, is no instruction;
every other op6 is one; a CALL or RCV with a non-zero d5 and an EXIT with an offset fail their encoding check. -/
def Obligations.WordsRefused : Prop :=
  NoWordSays

/-- A fetch gives the instruction at the pc. Where the page translates for execution and no byte meets an error, the
instruction fetched is the one that the bytes at the pc encode. -/
def Obligations.Fetch : Prop :=
  FetchSays

/-- A step runs the decoded instruction. The strand whose turn it is, with nothing held and no trap pending, executes
the instruction that it has fetched; then what follows from an act follows. -/
def Obligations.StepRunsDecoded : Prop :=
  StepSays

/-- The checks of issue. A per-thread instruction that fails a check takes ILLOP or STALL with the detail and SR_EMASK
of the rules, in the order of R274; an engine command or sequencer operation in a strand of another role takes ROLE;
an index register whose window refuses the lowest thread raises INDEX before any result. -/
def Obligations.IssueChecks : Prop :=
  IssueSays ∧
    RoleSays ∧
    IndexSays

/-- Per-thread instructions complete. Every integer, FP, complex and short-form vector instruction that passes its
checks answers a next state in which each thread that executes has its result, the flags are joined to STS, and
nothing else of the machine differs but the strand's place; a turn that stops before an element of a block leaves the
earlier elements done and the strand at the boundary. -/
def Obligations.VectorResults : Prop :=
  VecSays ∧
    PartSays

/-- Integer elements wrap. Sums, differences, products, minima, maxima, logic, shifts, carries and comparisons of each
integer type are those of the type's bit vectors, element by element, without flags. -/
def Obligations.IntegerResults : Prop :=
  IntegerSays

/-- NaN, infinity and zero of FP sums. In each format a NaN operand gives the canonical NaN without a flag, sums and
products commute, subtraction adds the opposite, opposite infinities give NaN with NV, and an exact zero difference
has the sign of the rounding mode. -/
def Obligations.FloatResults : Prop :=
  FloatSays

/-- BFLY and CMAG2. BFLY gives CADD and CSUB in two registers with their flags joined; CMAG2 of an infinite component
is plus infinity even beside a NaN. -/
def Obligations.ComplexResults : Prop :=
  ComplexSays

/-- IDOT4. Each thread that executes IDOT4 has c plus the four products of its bytes, signed under .i8 and unsigned
under .n8, wrapped to 32 bits; the instruction completes and nothing else differs. -/
def Obligations.Idot4DotProduct : Prop :=
  Idot4Says

/-- LEA. Each thread that executes LEA has the 64-bit sum of its pair and its index, extended by the type and shifted
by c8; a c8 of 8 to 255 takes ILLOP, as does an odd register of a pair. -/
def Obligations.LeaPairAndIndex : Prop :=
  LeaSays

/-- ICMP. Each thread that executes ICMP has 1 in its predicate bit where the condition holds, signed under .i32 and
unsigned else, and 0 where it does not; a c8 of 6 to 255 takes ILLOP. -/
def Obligations.IcmpPredicateBits : Prop :=
  IcmpSays

/-- GETFMT. GETFMT writes fmt to its scalar register with bits 31 to 22 zero and completes; with a8, b8, c8 or m3
non-zero it takes ILLOP. -/
def Obligations.GetfmtReadsFmt : Prop :=
  GetfmtSays

/-- Scalar instructions. Each scalar integer and FP instruction, in the L format and in W, that passes its checks
completes with the register value its entry gives, and nothing else of the machine differs but the strand's place. -/
def Obligations.ScalarOps : Prop :=
  OnceSays (scalarRow) ∧
    OnceSays (scalarFpRow)

/-- Predicates, fmt and index windows. QAND, QOR, QXOR, QTOS, STOQ, SETFMT, GETFMT, XWIN and XSET complete with what
their entries give, and nothing else differs. -/
def Obligations.PredicateAndEnvironment : Prop :=
  OnceSays (predRow) ∧
    OnceSays (envRow)

/-- Cross-thread instructions. SHFL, SHFLX, SHFLD, SHFLU, SCAN, REDS, VOTE, MATCH, LACE, BCAST and the W forms
complete with every executing thread's result from the other threads' old values. -/
def Obligations.CrossThread : Prop :=
  OnceSays (crossRow)

/-- RDSR, WRSR, TMSET and TRET. RDSR reads each special register as the rules say; WRSR writes SR_EPC, SR_EMASK,
SR_CAUSE and clears STS by ones; TMSET arms and disarms; TRET restores RPC and goes on at the boundary or at SR_EPC.
-/
def Obligations.SpecialRegisters : Prop :=
  OnceSays (sysRow) ∧
    TretSays

/-- Branches, calls and divergences. BRA, BRX, DIV, RCV, CALL, RET, LOOP, NOP, YIELD and the W-B forms complete and
leave the strand where their entries say, diverged where DIV and BRX diverge; nothing else differs. -/
def Obligations.ControlFlow : Prop :=
  ControlSays

/-- BRA. Where the guard admits an active thread every active thread goes to the target, else all fall through; an
unguarded BRA is always taken; the active mask never changes. -/
def Obligations.BraAllOrNone : Prop :=
  BraSays

/-- NOP and YIELD. Where no reconvergence PC lies ahead, NOP and YIELD change no register, no RPC and no stack, and
behind YIELD the strand is Ready. -/
def Obligations.NopYield : Prop :=
  NopSays

/-- EXIT, TRAP, BKPT, HALT and illegal encodings. EXIT removes the admitted threads; TRAP, BKPT, HALT without debug
and an encoding that is none take their trap with the saved registers of R275; a trap in Handler or without a vector
raises HFAULT; a halted strand goes on at the TAP's word. -/
def Obligations.ExitAndTraps : Prop :=
  ExitSays ∧
    TrapSays Instr.trap .trap ∧
    TrapSays Instr.bkpt .bkpt ∧
    IllegalSays ∧
    NestedSays ∧
    HaltSays ∧
    TapResumeSays

/-- Timer, pending traps and the spin detector. A timer that has come makes TIMER pending and a waiting strand Ready;
the first pending trap is taken at the boundary; a demotion ends after 4096 cycles. -/
def Obligations.AsynchronousTraps : Prop :=
  TimerSays ∧
    AsyncTrapSays ∧
    SpinSays

/-- LD, ST, ATOM and the exact-sum accesses issue. Each access that passes its checks becomes one operation of its
path with its threads' addresses and data, the counter one higher, or takes the trap of the first thread that an
address check refuses. -/
def Obligations.GlobalAccesses : Prop :=
  AccessSays (accRow)

/-- Loads return and stores are performed. A load's bytes reach the registers of its thread, extended by its type, and
its counter falls in order; a store's bytes are what its core reads afterwards and no other byte differs; releases
wait for their write-backs. -/
def Obligations.AccessesPerformed : Prop :=
  LoadWordsSays ∧
    LoadReturnSays ∧
    StoreDoneSays ∧
    StoreBytesSays ∧
    WriteBackSays ∧
    ScopeSays

/-- Atomics, exact sums and promotions. An atomic puts the old value in its register and the new one at home, one
thread after another; exact sums add to their cell and read it; one that its slices have already applied ends without
a second update; a promotion request makes the core release. -/
def Obligations.AtomicsAndSums : Prop :=
  AtomNewSays ∧
    AtomDoneSays ∧
    AtomReplySays ∧
    AtomBytesSays ∧
    SumDoneSays ∧
    SumReplySays ∧
    SumBytesSays ∧
    PromotionSays ∧
    PromoteSays

/-- Scratchpad and lace table. LDS, STS, LDT, STT, ATOMS and the W forms move the item's scratchpad bytes; LACELD
loads the core's lace table; nothing else of the machine differs. -/
def Obligations.ScratchpadAccesses : Prop :=
  PadSays ∧
    LaceldSays

/-- PREF, WAITC and FENCE. PREF changes no value; WAITC goes on at its threshold, delivers the path's oldest error, or
waits; FENCE goes on with its scope's actions once the earlier accesses are performed, or waits. -/
def Obligations.CacheAndOrder : Prop :=
  PrefSays ∧
    WaitcSays ∧
    FenceSays

/-- Engine commands issue. SHUT, SHUTX, DTLD, DECODE and FETCHF read their descriptors, become one operation of their
path or take their trap, and completed operations fall in their path's order. -/
def Obligations.EngineCommands : Prop :=
  FallSays ∧
    ShutDescSays ∧
    EngineSays

/-- Shuttle, decode and texture operations complete. Each engine operation ends with its effect, with its error as its
path's, or with a batch for the page that is missing; two shuttle operations of a core, the first issued, are under
way at once. -/
def Obligations.EnginesComplete : Prop :=
  ShuttleSays ∧
    ShuttleOrderSays ∧
    DtldSays ∧
    DecodeSays ∧
    FetchfSays

/-- Matrix and seed instructions issue. MCLR, MLOOP, MRD, MBLD, MTWID, SEEDSCAN, SEEDDROP and SEEDLD enter the queue
or the seed table with what they capture, or take the trap that their operands raise. -/
def Obligations.SequencerOps : Prop :=
  SeqSays ∧
    SeqStartSays ∧
    SeedDropSays ∧
    SeedldSays ∧
    SeedRemoteSays

/-- Matrix operations run. A kept fragment is what its bytes are; a loop's step adds its products to the tile; MRD
converts the tile's entries into registers; MBLD copies into the B-slice; a finished operation leaves the queue and
its counter falls. -/
def Obligations.MatrixEffects : Prop :=
  FragmentSays ∧
    LoopStepSays ∧
    RealStepSays ∧
    MatrixDoneSays ∧
    MrdRegSays ∧
    MbldSays

/-- JOIN and LEAVE. JOIN makes or enters the group of its context and key, or answers why not; LEAVE empties its slot
and closes the ranks, and the last member dissolves the group. -/
def Obligations.Groups : Prop :=
  FindSays ∧
    JoinSays ∧
    LeaveSays

/-- BAR, BARA and BARW. A phase completes when every member has arrived and the count is reached; BARA gives its
token, BAR and BARW go on when their phase has completed and wait before; an arrival already made holds. -/
def Obligations.Barriers : Prop :=
  PhaseSays ∧
    TokenSays ∧
    BarNoneSays ∧
    BarSays

/-- Stage rings, GROW and SHRINK. RINGP, RINGP.after, RINGW and RINGF act on their phase bit or wait; GROW takes free
registers or waits, SHRINK gives them back. -/
def Obligations.RingsAndGrowth : Prop :=
  RingSays ∧
    GrowSays ∧
    ShrinkSays

/-- LAUNCH and LAUNCHSLOT. A record that passes makes a kernel and answers its identifier, and one that fails its
error; a record that is staged word by word is launched with its last word. -/
def Obligations.Kernels : Prop :=
  LaunchSays ∧
    AcceptSays ∧
    LaunchOkSays ∧
    StageSays ∧
    AppendSays

/-- EMIT, TAKE, QCLOSE and queue commands. Records are offered by thread in order and taken from the oldest; queues
open, close and are released in the states that the rules name; a record that arrives over a link is in its part. -/
def Obligations.Queues : Prop :=
  EmitSays ∧
    OfferSays ∧
    TakeSays ∧
    TakeEmptySays ∧
    QcloseSays ∧
    QueueCommandSays ∧
    QueueArriveSays

/-- CHSEND and CHRECV. Messages arrive in the order of their class, source and destination; a slot is accepted,
delivered in order and received whole with its predicate; a channel binds at its first receive; a full or broken
channel answers so. -/
def Obligations.Channels : Prop :=
  ArrivesSays ∧
    ChsendSays ∧
    ChrecvSays ∧
    ReceiptSays ∧
    SlotDeliverSays

/-- REDX and REDW. Each admitted thread contributes once; a contribution that arrives is combined by the kind; a
complete object gives its result. -/
def Obligations.Reductions : Prop :=
  RedxSays ∧
    RedValuesSays ∧
    RedTakeSays ∧
    RedArriveSays ∧
    RedwSays

/-- Ports and darning units. DISPQ queues a frame or answers why not; ports go through their states and frames at
frame boundaries; DARN queues a job, a unit runs the context of lowest PRIO first, and a job's operation falls with
its error if it met one. -/
def Obligations.DisplayAndDarning : Prop :=
  DispqSays ∧
    PortSays ∧
    VblankSays ∧
    ScanoutSays ∧
    DarnSays ∧
    DarnStartSays ∧
    DarnDoneSays

/-- BALLOON, MEMFSP, DIESET and requests without threads. BALLOON.give zeroes and donates its pages and query reads
GFREE; DIESET and MEMFSP make their request or are held; a request that admits no thread only ends. -/
def Obligations.PrivilegedRequests : Prop :=
  BalloonSays ∧
    GivePageSays ∧
    SetPointSays ∧
    NoneSays

/-- Lane arbitration. The winner is the first by the keys of R314, each deciding only where the earlier ones tie; it
starts a new run and the others count it; a held request is answered for its strand. -/
def Obligations.Arbitration : Prop :=
  ArbSays ∧
    RunStartSays ∧
    RequestSays

/-- Items are dispatched and completed. The next item gets its strands as R63 and R285 create them, once every core it
is to use is ready, and no core changes before; an item whose strands have all Exited is complete, once what its cores
wrote is performed at package scope, and the in-order count goes to the first that is not. -/
def Obligations.Items : Prop :=
  NewStrandSays ∧
    PrepareSays ∧
    DispatchSays ∧
    NextItemSays ∧
    ItemDoneSays ∧
    CountSays

/-- Pre-emption, saves and restores. The victim has the highest PRIO above the placing context's; a stopped strand is
saved with all its state, a doomed one is no more, and a restored one stands as it was. -/
def Obligations.Preemption : Prop :=
  VictimSays ∧
    PreemptSays ∧
    SaveSays ∧
    PackedSays ∧
    RestoreSays

/-- Commands of a context. CREATE, START, SUSPEND, RESUME, RETIRE and ACK act in the states that the rules name and
set CTX_ERR elsewhere; nothing of a Retired context is left. -/
def Obligations.ContextCommands : Prop :=
  CommandSays ∧
    RetireSays ∧
    RetiredSays

/-- Writes of the windows. A register write acts by the window and offset that it names; wrong sizes and places change
nothing; CTX_CFG and EMB take only the values and states of their rules. -/
def Obligations.ControlWindows : Prop :=
  WindowSays ∧
    CfgSays ∧
    EmbSays

/-- Sweeps and fault batches. A sweep waits for the accesses that may use what it covers, and leaves no translation it
covers; a rollback leaves the strand at its fault and a batch with its entries; batches are written in order, and
resolving one makes its strand Ready. -/
def Obligations.SweepsAndBatches : Prop :=
  SweepSays ∧
    SweepWaitSays ∧
    SweepDoneSays ∧
    RollbackSays ∧
    BatchBytesSays ∧
    BatchWriteSays ∧
    BatchResolveSays

/-- Frames, parked writes and Tension. A dirty line that leaves its slice takes or gives back granules, is parked, or
waits; parked writes replay in order while the pool has room; Tension reclaims donated frames at once and moves zero
frames, then others, while accesses to the frame wait; 50 µs raise MEMFULL. -/
def Obligations.FramesAndParking : Prop :=
  LineBackSays ∧
    FrameHeldSays ∧
    ReplaySays ∧
    NeedSays ∧
    ReclaimSays ∧
    ParkLimitSays

/-- The retention budget. A die's budget is 64 ms up to 45 °C, 32 ms up to 85 °C, 16 ms up to 105 °C and 4 ms above,
by the hottest of its DRAM devices. -/
def Obligations.RetentionBudget : Prop :=
  ∀ (x : Die), x.budget = budgetAt x.dramTemp

/-- Transient regions and set points. ARM zeroes a region and sets its deadline or is refused; DISARM gives its
granules back; a deadline that has come expires it; a set point is taken when D0's timing generator stands still. -/
def Obligations.RegionsAndSetPoints : Prop :=
  RegionSays ∧
    ExpireSays ∧
    DeadlineSays ∧
    BudgetSays ∧
    MemspSays

/-- Links and the die set. Links retrain, fail after three failures and then lose what needs them; a die-set change
begins at its boundary, stops the leaving strands, commits the mode that it can reach with its clock limits, and ends
with the last restore. -/
def Obligations.LinksAndDieSet : Prop :=
  LinkSays ∧
    TrainingSays ∧
    DsctlSays ∧
    ChangeSays ∧
    ReachedSays ∧
    CommitSays

/-- Mesh tiles. Heartbeats and votes, the fence of a tile, of its core and of its slice, the fence broadcast, the
recovery of messages, self-test and probation go as the rules say, and touch no other tile. -/
def Obligations.MeshTiles : Prop :=
  BeatSendSays ∧
    BeatHearSays ∧
    BeatMissSays ∧
    FenceTileSays ∧
    FenceCoreSays ∧
    FenceSliceSays ∧
    BroadcastSays ∧
    TagSays ∧
    SelfTestSays

/-- Stores from outside, boot and attestation. A store from outside writes its bytes and no other, waits on parked
frames, or faults outside the advertised space, and one of an application core that is off does nothing; the boot ends
in step 6 with an image that passes or in the failing step; quotes are written, or wait on parked frames, and BUSY
clears. -/
def Obligations.BoardAndBoot : Prop :=
  OutsideSays ∧
    BootSays ∧
    ImageSays ∧
    ModelSays ∧
    QuoteSays

/-- Clocks, temperature, soft errors and debug. CLKREQ takes the values of its rule; each band of temperature acts as
the table says; power above the limit slows the clocks; soft errors count, lose a line, set FATAL or end a matrix
operation; debug acts only where it is enabled, but for the identification registers. -/
def Obligations.PowerErrorsDebug : Prop :=
  ClockSays ∧
    ThermalSays ∧
    SramSays ∧
    DebugSays
end

