-- ==== Sys2Proof/Laws/Sparse.lean ====
section
/-! SUPPORT. What the sparse stores do: a read after a write, writes elsewhere, and the canonical form. -/

namespace Sys2Proof.Machine

theorem cget_cdel {w : Nat} (m : Cells w) (a b : Nat) : cget (cdel m a) b = if b = a then 0 else cget m b := by
  induction m with
  | nil => simp [cdel, cget]
  | cons c r ih =>
    obtain ⟨k, v⟩ := c
    simp only [cdel] at ih ⊢
    by_cases h : k = a
    · subst h
      rw [List.filter_cons_of_neg (by simp), ih]
      by_cases hb : b = k
      · simp [hb]
      · simp [hb, cget, Ne.symm hb]
    · rw [List.filter_cons_of_pos (by simp [h])]
      simp only [cget, ih]
      by_cases hb : k = b
      · subst hb; simp [h]
      · simp [hb]

theorem cget_cins {w : Nat} (m : Cells w) (a b : Nat) (x : BitVec w) (h : ∀ c ∈ m, c.1 ≠ a) :
    cget (cins m a x) b = if b = a then x else cget m b := by
  induction m with
  | nil => simp only [cins, cget, eq_comm]
  | cons c r ih =>
    obtain ⟨k, v⟩ := c
    have hk : k ≠ a := h (k, v) (by simp)
    have ih := ih (fun c hc => h c (by simp [hc]))
    by_cases hl : a < k
    · simp only [cins, hl, if_true, cget, eq_comm]
    · simp only [cins, hl, if_false, cget, ih]
      by_cases hb : k = b
      · subst hb; simp [hk]
      · simp [hb]

/-- A read after a write: the value written at its key, the old value elsewhere. -/
theorem cget_cput {w : Nat} (m : Cells w) (a b : Nat) (x : BitVec w) :
    cget (cput m a x) b = if b = a then x else cget m b := by
  by_cases hx : x = 0
  · simp [cput, hx, cget_cdel]
  · rw [cput, if_neg hx, cget_cins _ _ _ _ (by simp [cdel]), cget_cdel]
    by_cases hb : b = a <;> simp [hb]

@[simp] theorem cget_cput_same {w : Nat} (m : Cells w) (a : Nat) (x : BitVec w) : cget (cput m a x) a = x := by
  simp [cget_cput]

theorem cget_cput_ne {w : Nat} (m : Cells w) (a b : Nat) (x : BitVec w) (h : b ≠ a) :
    cget (cput m a x) b = cget m b := by
  simp [cget_cput, h]

theorem cellsAbove_mono {w : Nat} {lo lo' : Nat} (m : Cells w) (h : lo' ≤ lo) (hm : cellsAbove lo m = true) :
    cellsAbove lo' m = true := by
  cases m with
  | nil => rfl
  | cons c r =>
    obtain ⟨k, v⟩ := c
    simp only [cellsAbove, Bool.and_eq_true, decide_eq_true_eq] at hm ⊢
    exact ⟨⟨by omega, hm.1.2⟩, hm.2⟩

theorem cellsAbove_filter {w : Nat} (p : Nat × BitVec w → Bool) (m : Cells w) (lo : Nat)
    (hm : cellsAbove lo m = true) : cellsAbove lo (m.filter p) = true := by
  induction m generalizing lo with
  | nil => rfl
  | cons c r ih =>
    obtain ⟨k, v⟩ := c
    simp only [cellsAbove, Bool.and_eq_true, decide_eq_true_eq] at hm
    by_cases h : p (k, v)
    · rw [List.filter_cons_of_pos h]
      simp only [cellsAbove, Bool.and_eq_true, decide_eq_true_eq]
      exact ⟨hm.1, ih _ hm.2⟩
    · rw [List.filter_cons_of_neg h]
      exact cellsAbove_mono _ (by omega) (ih _ hm.2)

theorem cellsAbove_cins {w : Nat} (m : Cells w) (a : Nat) (x : BitVec w) (lo : Nat) (hx : x ≠ 0) (hlo : lo ≤ a)
    (h : ∀ c ∈ m, c.1 ≠ a) (hm : cellsAbove lo m = true) : cellsAbove lo (cins m a x) = true := by
  induction m generalizing lo with
  | nil => simpa [cins, cellsAbove, hlo] using hx
  | cons c r ih =>
    obtain ⟨k, v⟩ := c
    have hk : k ≠ a := h (k, v) (by simp)
    simp only [cellsAbove, Bool.and_eq_true, decide_eq_true_eq] at hm
    by_cases hl : a < k
    · simp only [cins, hl, if_true, cellsAbove, Bool.and_eq_true, decide_eq_true_eq]
      exact ⟨⟨hlo, by simpa using hx⟩, ⟨by omega, hm.1.2⟩, hm.2⟩
    · simp only [cins, hl, if_false, cellsAbove, Bool.and_eq_true, decide_eq_true_eq]
      exact ⟨hm.1, ih (k + 1) (by omega) (fun c hc => h c (by simp [hc])) hm.2⟩

/-- A write keeps the canonical form. -/
theorem cellsOk_cput {w : Nat} (m : Cells w) (a : Nat) (x : BitVec w) (hm : cellsOk m = true) :
    cellsOk (cput m a x) = true := by
  by_cases hx : x = 0
  · rw [cput, if_pos hx]
    exact cellsAbove_filter _ m 0 hm
  · rw [cput, if_neg hx]
    exact cellsAbove_cins _ _ _ 0 hx (by omega) (by simp [cdel]) (cellsAbove_filter _ m 0 hm)

theorem cellsOk_cclear {w : Nat} (m : Cells w) (lo hi : Nat) (hm : cellsOk m = true) :
    cellsOk (cclear m lo hi) = true := cellsAbove_filter _ m 0 hm

theorem cellsOk_nil {w : Nat} : cellsOk ([] : Cells w) = true := rfl

theorem cellsOk_cputs (m : Cells 8) (a : Nat) (bs : List Byte) (hm : cellsOk m = true) :
    cellsOk (cputs m a bs) = true := by
  induction bs generalizing m a with
  | nil => exact hm
  | cons b r ih => exact ih _ _ (cellsOk_cput m a b hm)

/-- Bytes written at consecutive addresses read back, and every other address reads as before. -/
theorem cget_cputs (m : Cells 8) (a : Nat) (bs : List Byte) (x : Nat) :
    cget (cputs m a bs) x = if a ≤ x ∧ x < a + bs.length then bs.getD (x - a) 0 else cget m x := by
  induction bs generalizing m a with
  | nil => rw [cputs, if_neg (by simp)]
  | cons b r ih =>
    rw [cputs, ih, cget_cput]
    by_cases h : x = a
    · subst h
      rw [if_neg (by omega), if_pos rfl, if_pos (by simp)]
      simp
    · by_cases h1 : a + 1 ≤ x ∧ x < a + 1 + r.length
      · have : x - a = (x - (a + 1)) + 1 := by omega
        rw [if_pos h1, if_pos ⟨by omega, by simp; omega⟩, this]
        simp
      · rw [if_neg h1, if_neg h, if_neg (by simp; omega)]

theorem tget_tput {α : Type} (m : Tab α) (a b : Nat) (x : α) :
    tget (tput m a x) b = if b = a then some x else tget m b := by
  induction m with
  | nil => simp only [tput, tget, eq_comm]
  | cons c r ih =>
    obtain ⟨k, v⟩ := c
    simp only [tput]
    split
    · next h => subst h; simp only [tget, eq_comm]; split <;> simp_all
    · split
      · simp only [tget, eq_comm]
      · simp only [tget, ih]
        split
        · next h => subst h; simp_all [eq_comm]
        · rfl

@[simp] theorem tget_tput_same {α : Type} (m : Tab α) (a : Nat) (x : α) : tget (tput m a x) a = some x := by
  simp [tget_tput]

theorem tget_tput_ne {α : Type} (m : Tab α) (a b : Nat) (x : α) (h : b ≠ a) : tget (tput m a x) b = tget m b := by
  simp [tget_tput, h]

theorem tget_tdel {α : Type} (m : Tab α) (a b : Nat) : tget (tdel m a) b = if b = a then none else tget m b := by
  induction m with
  | nil => simp [tdel, tget]
  | cons c r ih =>
    obtain ⟨k, v⟩ := c
    simp only [tdel] at ih ⊢
    by_cases h : k = a
    · subst h
      rw [List.filter_cons_of_neg (by simp), ih]
      by_cases hb : b = k
      · simp [hb]
      · simp [hb, tget, Ne.symm hb]
    · rw [List.filter_cons_of_pos (by simp [h])]
      simp only [tget, ih]
      by_cases hb : k = b
      · subst hb; simp [h]
      · simp [hb]

theorem tabAbove_tput {α : Type} (m : Tab α) (a : Nat) (x : α) (lo : Nat) (hlo : lo ≤ a) (hm : tabAbove lo m = true) :
    tabAbove lo (tput m a x) = true := by
  induction m generalizing lo with
  | nil => simp [tput, tabAbove, hlo]
  | cons c r ih =>
    obtain ⟨k, v⟩ := c
    simp only [tabAbove, Bool.and_eq_true, decide_eq_true_eq] at hm
    simp only [tput]
    split
    · next h => subst h; simp [tabAbove, hlo, hm.2]
    · split
      · simp only [tabAbove, Bool.and_eq_true, decide_eq_true_eq]
        exact ⟨hlo, by omega, hm.2⟩
      · simp only [tabAbove, Bool.and_eq_true, decide_eq_true_eq]
        exact ⟨hm.1, ih _ (by omega) hm.2⟩

theorem modAt_length {α : Type} (l : List α) (i : Nat) (f : α → α) : (modAt l i f).length = l.length := by
  unfold modAt; split <;> simp

theorem upd_length {α : Type} (l : List α) (i : Nat) (x : α) : (upd l i x).length = l.length := by
  simp [upd]

end Sys2Proof.Machine
end

