-- ==== Sys2Proof/Laws/State.lean ====
section
/-! SUPPORT. What the update operations of the machine and of a strand change, one lemma per field and update. -/

namespace Sys2Proof.Machine

@[simp] theorem State.putStrand_gtime (s : State) (i : Nat) (x : Strand) : (s.putStrand i x).gtime = s.gtime := rfl
@[simp] theorem State.putStrand_dies (s : State) (i : Nat) (x : Strand) : (s.putStrand i x).dies = s.dies := rfl
@[simp] theorem State.putStrand_mem (s : State) (i : Nat) (x : Strand) : (s.putStrand i x).mem = s.mem := rfl
@[simp] theorem State.putStrand_ctxs (s : State) (i : Nat) (x : Strand) : (s.putStrand i x).ctxs = s.ctxs := rfl
@[simp] theorem State.putStrand_queues (s : State) (i : Nat) (x : Strand) : (s.putStrand i x).queues = s.queues := rfl
@[simp] theorem State.putStrand_links (s : State) (i : Nat) (x : Strand) : (s.putStrand i x).links = s.links := rfl
@[simp] theorem State.putStrand_msgs (s : State) (i : Nat) (x : Strand) : (s.putStrand i x).msgs = s.msgs := rfl
@[simp] theorem State.putStrand_dsErr (s : State) (i : Nat) (x : Strand) : (s.putStrand i x).dsErr = s.dsErr := rfl
@[simp] theorem State.putStrand_dsPend (s : State) (i : Nat) (x : Strand) : (s.putStrand i x).dsPend = s.dsPend := rfl
@[simp] theorem State.putStrand_dsReq (s : State) (i : Nat) (x : Strand) : (s.putStrand i x).dsReq = s.dsReq := rfl
@[simp] theorem State.putStrand_dsCur (s : State) (i : Nat) (x : Strand) : (s.putStrand i x).dsCur = s.dsCur := rfl
@[simp] theorem State.putStrand_dsCnt (s : State) (i : Nat) (x : Strand) : (s.putStrand i x).dsCnt = s.dsCnt := rfl
@[simp] theorem State.putStrand_dsBusy (s : State) (i : Nat) (x : Strand) : (s.putStrand i x).dsBusy = s.dsBusy := rfl
@[simp] theorem State.putStrand_spPend (s : State) (i : Nat) (x : Strand) : (s.putStrand i x).spPend = s.spPend := rfl
@[simp] theorem State.putStrand_spReq (s : State) (i : Nat) (x : Strand) : (s.putStrand i x).spReq = s.spReq := rfl
@[simp] theorem State.putStrand_spCur (s : State) (i : Nat) (x : Strand) : (s.putStrand i x).spCur = s.spCur := rfl
@[simp] theorem State.putStrand_power (s : State) (i : Nat) (x : Strand) : (s.putStrand i x).power = s.power := rfl
@[simp] theorem State.putStrand_boot (s : State) (i : Nat) (x : Strand) : (s.putStrand i x).boot = s.boot := rfl
@[simp] theorem State.putStrand_heldGroups (s : State) (i : Nat) (x : Strand) : (s.putStrand i x).heldGroups = s.heldGroups := rfl
@[simp] theorem State.putStrand_nextStrand (s : State) (i : Nat) (x : Strand) : (s.putStrand i x).nextStrand = s.nextStrand := rfl
@[simp] theorem State.putStrand_nextGroup (s : State) (i : Nat) (x : Strand) : (s.putStrand i x).nextGroup = s.nextGroup := rfl
@[simp] theorem State.putStrand_seqNo (s : State) (i : Nat) (x : Strand) : (s.putStrand i x).seqNo = s.seqNo := rfl
@[simp] theorem State.putStrand_lostCtx (s : State) (i : Nat) (x : Strand) : (s.putStrand i x).lostCtx = s.lostCtx := rfl
@[simp] theorem State.putStrand_cur (s : State) (i : Nat) (x : Strand) : (s.putStrand i x).cur = s.cur := rfl
@[simp] theorem State.putStrand_agenda (s : State) (i : Nat) (x : Strand) : (s.putStrand i x).agenda = s.agenda := rfl
@[simp] theorem State.putStrand_tick (s : State) (i : Nat) (x : Strand) : (s.putStrand i x).tick = s.tick := rfl
@[simp] theorem State.putStrand_devQ (s : State) (i : Nat) (x : Strand) : (s.putStrand i x).devQ = s.devQ := rfl
@[simp] theorem State.putStrand_tagNo (s : State) (i : Nat) (x : Strand) : (s.putStrand i x).tagNo = s.tagNo := rfl
@[simp] theorem State.putStrand_strands (s : State) (i : Nat) (x : Strand) : (s.putStrand i x).strands = tput s.strands i x := rfl
@[simp] theorem State.putCtx_gtime (s : State) (n : Nat) (x : Ctx) : (s.putCtx n x).gtime = s.gtime := rfl
@[simp] theorem State.putCtx_dies (s : State) (n : Nat) (x : Ctx) : (s.putCtx n x).dies = s.dies := rfl
@[simp] theorem State.putCtx_mem (s : State) (n : Nat) (x : Ctx) : (s.putCtx n x).mem = s.mem := rfl
@[simp] theorem State.putCtx_strands (s : State) (n : Nat) (x : Ctx) : (s.putCtx n x).strands = s.strands := rfl
@[simp] theorem State.putCtx_queues (s : State) (n : Nat) (x : Ctx) : (s.putCtx n x).queues = s.queues := rfl
@[simp] theorem State.putCtx_links (s : State) (n : Nat) (x : Ctx) : (s.putCtx n x).links = s.links := rfl
@[simp] theorem State.putCtx_msgs (s : State) (n : Nat) (x : Ctx) : (s.putCtx n x).msgs = s.msgs := rfl
@[simp] theorem State.putCtx_dsErr (s : State) (n : Nat) (x : Ctx) : (s.putCtx n x).dsErr = s.dsErr := rfl
@[simp] theorem State.putCtx_dsPend (s : State) (n : Nat) (x : Ctx) : (s.putCtx n x).dsPend = s.dsPend := rfl
@[simp] theorem State.putCtx_dsReq (s : State) (n : Nat) (x : Ctx) : (s.putCtx n x).dsReq = s.dsReq := rfl
@[simp] theorem State.putCtx_dsCur (s : State) (n : Nat) (x : Ctx) : (s.putCtx n x).dsCur = s.dsCur := rfl
@[simp] theorem State.putCtx_dsCnt (s : State) (n : Nat) (x : Ctx) : (s.putCtx n x).dsCnt = s.dsCnt := rfl
@[simp] theorem State.putCtx_dsBusy (s : State) (n : Nat) (x : Ctx) : (s.putCtx n x).dsBusy = s.dsBusy := rfl
@[simp] theorem State.putCtx_spPend (s : State) (n : Nat) (x : Ctx) : (s.putCtx n x).spPend = s.spPend := rfl
@[simp] theorem State.putCtx_spReq (s : State) (n : Nat) (x : Ctx) : (s.putCtx n x).spReq = s.spReq := rfl
@[simp] theorem State.putCtx_spCur (s : State) (n : Nat) (x : Ctx) : (s.putCtx n x).spCur = s.spCur := rfl
@[simp] theorem State.putCtx_power (s : State) (n : Nat) (x : Ctx) : (s.putCtx n x).power = s.power := rfl
@[simp] theorem State.putCtx_boot (s : State) (n : Nat) (x : Ctx) : (s.putCtx n x).boot = s.boot := rfl
@[simp] theorem State.putCtx_heldGroups (s : State) (n : Nat) (x : Ctx) : (s.putCtx n x).heldGroups = s.heldGroups := rfl
@[simp] theorem State.putCtx_nextStrand (s : State) (n : Nat) (x : Ctx) : (s.putCtx n x).nextStrand = s.nextStrand := rfl
@[simp] theorem State.putCtx_nextGroup (s : State) (n : Nat) (x : Ctx) : (s.putCtx n x).nextGroup = s.nextGroup := rfl
@[simp] theorem State.putCtx_seqNo (s : State) (n : Nat) (x : Ctx) : (s.putCtx n x).seqNo = s.seqNo := rfl
@[simp] theorem State.putCtx_lostCtx (s : State) (n : Nat) (x : Ctx) : (s.putCtx n x).lostCtx = s.lostCtx := rfl
@[simp] theorem State.putCtx_cur (s : State) (n : Nat) (x : Ctx) : (s.putCtx n x).cur = s.cur := rfl
@[simp] theorem State.putCtx_agenda (s : State) (n : Nat) (x : Ctx) : (s.putCtx n x).agenda = s.agenda := rfl
@[simp] theorem State.putCtx_tick (s : State) (n : Nat) (x : Ctx) : (s.putCtx n x).tick = s.tick := rfl
@[simp] theorem State.putCtx_devQ (s : State) (n : Nat) (x : Ctx) : (s.putCtx n x).devQ = s.devQ := rfl
@[simp] theorem State.putCtx_tagNo (s : State) (n : Nat) (x : Ctx) : (s.putCtx n x).tagNo = s.tagNo := rfl
@[simp] theorem State.modCtx_gtime (s : State) (n : Nat) (g : Ctx → Ctx) : (s.modCtx n g).gtime = s.gtime := rfl
@[simp] theorem State.modCtx_dies (s : State) (n : Nat) (g : Ctx → Ctx) : (s.modCtx n g).dies = s.dies := rfl
@[simp] theorem State.modCtx_mem (s : State) (n : Nat) (g : Ctx → Ctx) : (s.modCtx n g).mem = s.mem := rfl
@[simp] theorem State.modCtx_strands (s : State) (n : Nat) (g : Ctx → Ctx) : (s.modCtx n g).strands = s.strands := rfl
@[simp] theorem State.modCtx_queues (s : State) (n : Nat) (g : Ctx → Ctx) : (s.modCtx n g).queues = s.queues := rfl
@[simp] theorem State.modCtx_links (s : State) (n : Nat) (g : Ctx → Ctx) : (s.modCtx n g).links = s.links := rfl
@[simp] theorem State.modCtx_msgs (s : State) (n : Nat) (g : Ctx → Ctx) : (s.modCtx n g).msgs = s.msgs := rfl
@[simp] theorem State.modCtx_dsErr (s : State) (n : Nat) (g : Ctx → Ctx) : (s.modCtx n g).dsErr = s.dsErr := rfl
@[simp] theorem State.modCtx_dsPend (s : State) (n : Nat) (g : Ctx → Ctx) : (s.modCtx n g).dsPend = s.dsPend := rfl
@[simp] theorem State.modCtx_dsReq (s : State) (n : Nat) (g : Ctx → Ctx) : (s.modCtx n g).dsReq = s.dsReq := rfl
@[simp] theorem State.modCtx_dsCur (s : State) (n : Nat) (g : Ctx → Ctx) : (s.modCtx n g).dsCur = s.dsCur := rfl
@[simp] theorem State.modCtx_dsCnt (s : State) (n : Nat) (g : Ctx → Ctx) : (s.modCtx n g).dsCnt = s.dsCnt := rfl
@[simp] theorem State.modCtx_dsBusy (s : State) (n : Nat) (g : Ctx → Ctx) : (s.modCtx n g).dsBusy = s.dsBusy := rfl
@[simp] theorem State.modCtx_spPend (s : State) (n : Nat) (g : Ctx → Ctx) : (s.modCtx n g).spPend = s.spPend := rfl
@[simp] theorem State.modCtx_spReq (s : State) (n : Nat) (g : Ctx → Ctx) : (s.modCtx n g).spReq = s.spReq := rfl
@[simp] theorem State.modCtx_spCur (s : State) (n : Nat) (g : Ctx → Ctx) : (s.modCtx n g).spCur = s.spCur := rfl
@[simp] theorem State.modCtx_power (s : State) (n : Nat) (g : Ctx → Ctx) : (s.modCtx n g).power = s.power := rfl
@[simp] theorem State.modCtx_boot (s : State) (n : Nat) (g : Ctx → Ctx) : (s.modCtx n g).boot = s.boot := rfl
@[simp] theorem State.modCtx_heldGroups (s : State) (n : Nat) (g : Ctx → Ctx) : (s.modCtx n g).heldGroups = s.heldGroups := rfl
@[simp] theorem State.modCtx_nextStrand (s : State) (n : Nat) (g : Ctx → Ctx) : (s.modCtx n g).nextStrand = s.nextStrand := rfl
@[simp] theorem State.modCtx_nextGroup (s : State) (n : Nat) (g : Ctx → Ctx) : (s.modCtx n g).nextGroup = s.nextGroup := rfl
@[simp] theorem State.modCtx_seqNo (s : State) (n : Nat) (g : Ctx → Ctx) : (s.modCtx n g).seqNo = s.seqNo := rfl
@[simp] theorem State.modCtx_lostCtx (s : State) (n : Nat) (g : Ctx → Ctx) : (s.modCtx n g).lostCtx = s.lostCtx := rfl
@[simp] theorem State.modCtx_cur (s : State) (n : Nat) (g : Ctx → Ctx) : (s.modCtx n g).cur = s.cur := rfl
@[simp] theorem State.modCtx_agenda (s : State) (n : Nat) (g : Ctx → Ctx) : (s.modCtx n g).agenda = s.agenda := rfl
@[simp] theorem State.modCtx_tick (s : State) (n : Nat) (g : Ctx → Ctx) : (s.modCtx n g).tick = s.tick := rfl
@[simp] theorem State.modCtx_devQ (s : State) (n : Nat) (g : Ctx → Ctx) : (s.modCtx n g).devQ = s.devQ := rfl
@[simp] theorem State.modCtx_tagNo (s : State) (n : Nat) (g : Ctx → Ctx) : (s.modCtx n g).tagNo = s.tagNo := rfl
@[simp] theorem State.putDie_gtime (s : State) (d : Nat) (x : Die) : (s.putDie d x).gtime = s.gtime := rfl
@[simp] theorem State.putDie_mem (s : State) (d : Nat) (x : Die) : (s.putDie d x).mem = s.mem := rfl
@[simp] theorem State.putDie_ctxs (s : State) (d : Nat) (x : Die) : (s.putDie d x).ctxs = s.ctxs := rfl
@[simp] theorem State.putDie_strands (s : State) (d : Nat) (x : Die) : (s.putDie d x).strands = s.strands := rfl
@[simp] theorem State.putDie_queues (s : State) (d : Nat) (x : Die) : (s.putDie d x).queues = s.queues := rfl
@[simp] theorem State.putDie_links (s : State) (d : Nat) (x : Die) : (s.putDie d x).links = s.links := rfl
@[simp] theorem State.putDie_msgs (s : State) (d : Nat) (x : Die) : (s.putDie d x).msgs = s.msgs := rfl
@[simp] theorem State.putDie_dsErr (s : State) (d : Nat) (x : Die) : (s.putDie d x).dsErr = s.dsErr := rfl
@[simp] theorem State.putDie_dsPend (s : State) (d : Nat) (x : Die) : (s.putDie d x).dsPend = s.dsPend := rfl
@[simp] theorem State.putDie_dsReq (s : State) (d : Nat) (x : Die) : (s.putDie d x).dsReq = s.dsReq := rfl
@[simp] theorem State.putDie_dsCur (s : State) (d : Nat) (x : Die) : (s.putDie d x).dsCur = s.dsCur := rfl
@[simp] theorem State.putDie_dsCnt (s : State) (d : Nat) (x : Die) : (s.putDie d x).dsCnt = s.dsCnt := rfl
@[simp] theorem State.putDie_dsBusy (s : State) (d : Nat) (x : Die) : (s.putDie d x).dsBusy = s.dsBusy := rfl
@[simp] theorem State.putDie_spPend (s : State) (d : Nat) (x : Die) : (s.putDie d x).spPend = s.spPend := rfl
@[simp] theorem State.putDie_spReq (s : State) (d : Nat) (x : Die) : (s.putDie d x).spReq = s.spReq := rfl
@[simp] theorem State.putDie_spCur (s : State) (d : Nat) (x : Die) : (s.putDie d x).spCur = s.spCur := rfl
@[simp] theorem State.putDie_power (s : State) (d : Nat) (x : Die) : (s.putDie d x).power = s.power := rfl
@[simp] theorem State.putDie_boot (s : State) (d : Nat) (x : Die) : (s.putDie d x).boot = s.boot := rfl
@[simp] theorem State.putDie_heldGroups (s : State) (d : Nat) (x : Die) : (s.putDie d x).heldGroups = s.heldGroups := rfl
@[simp] theorem State.putDie_nextStrand (s : State) (d : Nat) (x : Die) : (s.putDie d x).nextStrand = s.nextStrand := rfl
@[simp] theorem State.putDie_nextGroup (s : State) (d : Nat) (x : Die) : (s.putDie d x).nextGroup = s.nextGroup := rfl
@[simp] theorem State.putDie_seqNo (s : State) (d : Nat) (x : Die) : (s.putDie d x).seqNo = s.seqNo := rfl
@[simp] theorem State.putDie_lostCtx (s : State) (d : Nat) (x : Die) : (s.putDie d x).lostCtx = s.lostCtx := rfl
@[simp] theorem State.putDie_cur (s : State) (d : Nat) (x : Die) : (s.putDie d x).cur = s.cur := rfl
@[simp] theorem State.putDie_agenda (s : State) (d : Nat) (x : Die) : (s.putDie d x).agenda = s.agenda := rfl
@[simp] theorem State.putDie_tick (s : State) (d : Nat) (x : Die) : (s.putDie d x).tick = s.tick := rfl
@[simp] theorem State.putDie_devQ (s : State) (d : Nat) (x : Die) : (s.putDie d x).devQ = s.devQ := rfl
@[simp] theorem State.putDie_tagNo (s : State) (d : Nat) (x : Die) : (s.putDie d x).tagNo = s.tagNo := rfl
@[simp] theorem State.modDie_gtime (s : State) (d : Nat) (g : Die → Die) : (s.modDie d g).gtime = s.gtime := rfl
@[simp] theorem State.modDie_mem (s : State) (d : Nat) (g : Die → Die) : (s.modDie d g).mem = s.mem := rfl
@[simp] theorem State.modDie_ctxs (s : State) (d : Nat) (g : Die → Die) : (s.modDie d g).ctxs = s.ctxs := rfl
@[simp] theorem State.modDie_strands (s : State) (d : Nat) (g : Die → Die) : (s.modDie d g).strands = s.strands := rfl
@[simp] theorem State.modDie_queues (s : State) (d : Nat) (g : Die → Die) : (s.modDie d g).queues = s.queues := rfl
@[simp] theorem State.modDie_links (s : State) (d : Nat) (g : Die → Die) : (s.modDie d g).links = s.links := rfl
@[simp] theorem State.modDie_msgs (s : State) (d : Nat) (g : Die → Die) : (s.modDie d g).msgs = s.msgs := rfl
@[simp] theorem State.modDie_dsErr (s : State) (d : Nat) (g : Die → Die) : (s.modDie d g).dsErr = s.dsErr := rfl
@[simp] theorem State.modDie_dsPend (s : State) (d : Nat) (g : Die → Die) : (s.modDie d g).dsPend = s.dsPend := rfl
@[simp] theorem State.modDie_dsReq (s : State) (d : Nat) (g : Die → Die) : (s.modDie d g).dsReq = s.dsReq := rfl
@[simp] theorem State.modDie_dsCur (s : State) (d : Nat) (g : Die → Die) : (s.modDie d g).dsCur = s.dsCur := rfl
@[simp] theorem State.modDie_dsCnt (s : State) (d : Nat) (g : Die → Die) : (s.modDie d g).dsCnt = s.dsCnt := rfl
@[simp] theorem State.modDie_dsBusy (s : State) (d : Nat) (g : Die → Die) : (s.modDie d g).dsBusy = s.dsBusy := rfl
@[simp] theorem State.modDie_spPend (s : State) (d : Nat) (g : Die → Die) : (s.modDie d g).spPend = s.spPend := rfl
@[simp] theorem State.modDie_spReq (s : State) (d : Nat) (g : Die → Die) : (s.modDie d g).spReq = s.spReq := rfl
@[simp] theorem State.modDie_spCur (s : State) (d : Nat) (g : Die → Die) : (s.modDie d g).spCur = s.spCur := rfl
@[simp] theorem State.modDie_power (s : State) (d : Nat) (g : Die → Die) : (s.modDie d g).power = s.power := rfl
@[simp] theorem State.modDie_boot (s : State) (d : Nat) (g : Die → Die) : (s.modDie d g).boot = s.boot := rfl
@[simp] theorem State.modDie_heldGroups (s : State) (d : Nat) (g : Die → Die) : (s.modDie d g).heldGroups = s.heldGroups := rfl
@[simp] theorem State.modDie_nextStrand (s : State) (d : Nat) (g : Die → Die) : (s.modDie d g).nextStrand = s.nextStrand := rfl
@[simp] theorem State.modDie_nextGroup (s : State) (d : Nat) (g : Die → Die) : (s.modDie d g).nextGroup = s.nextGroup := rfl
@[simp] theorem State.modDie_seqNo (s : State) (d : Nat) (g : Die → Die) : (s.modDie d g).seqNo = s.seqNo := rfl
@[simp] theorem State.modDie_lostCtx (s : State) (d : Nat) (g : Die → Die) : (s.modDie d g).lostCtx = s.lostCtx := rfl
@[simp] theorem State.modDie_cur (s : State) (d : Nat) (g : Die → Die) : (s.modDie d g).cur = s.cur := rfl
@[simp] theorem State.modDie_agenda (s : State) (d : Nat) (g : Die → Die) : (s.modDie d g).agenda = s.agenda := rfl
@[simp] theorem State.modDie_tick (s : State) (d : Nat) (g : Die → Die) : (s.modDie d g).tick = s.tick := rfl
@[simp] theorem State.modDie_devQ (s : State) (d : Nat) (g : Die → Die) : (s.modDie d g).devQ = s.devQ := rfl
@[simp] theorem State.modDie_tagNo (s : State) (d : Nat) (g : Die → Die) : (s.modDie d g).tagNo = s.tagNo := rfl
@[simp] theorem State.modCore_gtime (s : State) (d c : Nat) (g : Core → Core) : (s.modCore d c g).gtime = s.gtime := rfl
@[simp] theorem State.modCore_mem (s : State) (d c : Nat) (g : Core → Core) : (s.modCore d c g).mem = s.mem := rfl
@[simp] theorem State.modCore_ctxs (s : State) (d c : Nat) (g : Core → Core) : (s.modCore d c g).ctxs = s.ctxs := rfl
@[simp] theorem State.modCore_strands (s : State) (d c : Nat) (g : Core → Core) : (s.modCore d c g).strands = s.strands := rfl
@[simp] theorem State.modCore_queues (s : State) (d c : Nat) (g : Core → Core) : (s.modCore d c g).queues = s.queues := rfl
@[simp] theorem State.modCore_links (s : State) (d c : Nat) (g : Core → Core) : (s.modCore d c g).links = s.links := rfl
@[simp] theorem State.modCore_msgs (s : State) (d c : Nat) (g : Core → Core) : (s.modCore d c g).msgs = s.msgs := rfl
@[simp] theorem State.modCore_dsErr (s : State) (d c : Nat) (g : Core → Core) : (s.modCore d c g).dsErr = s.dsErr := rfl
@[simp] theorem State.modCore_dsPend (s : State) (d c : Nat) (g : Core → Core) : (s.modCore d c g).dsPend = s.dsPend := rfl
@[simp] theorem State.modCore_dsReq (s : State) (d c : Nat) (g : Core → Core) : (s.modCore d c g).dsReq = s.dsReq := rfl
@[simp] theorem State.modCore_dsCur (s : State) (d c : Nat) (g : Core → Core) : (s.modCore d c g).dsCur = s.dsCur := rfl
@[simp] theorem State.modCore_dsCnt (s : State) (d c : Nat) (g : Core → Core) : (s.modCore d c g).dsCnt = s.dsCnt := rfl
@[simp] theorem State.modCore_dsBusy (s : State) (d c : Nat) (g : Core → Core) : (s.modCore d c g).dsBusy = s.dsBusy := rfl
@[simp] theorem State.modCore_spPend (s : State) (d c : Nat) (g : Core → Core) : (s.modCore d c g).spPend = s.spPend := rfl
@[simp] theorem State.modCore_spReq (s : State) (d c : Nat) (g : Core → Core) : (s.modCore d c g).spReq = s.spReq := rfl
@[simp] theorem State.modCore_spCur (s : State) (d c : Nat) (g : Core → Core) : (s.modCore d c g).spCur = s.spCur := rfl
@[simp] theorem State.modCore_power (s : State) (d c : Nat) (g : Core → Core) : (s.modCore d c g).power = s.power := rfl
@[simp] theorem State.modCore_boot (s : State) (d c : Nat) (g : Core → Core) : (s.modCore d c g).boot = s.boot := rfl
@[simp] theorem State.modCore_heldGroups (s : State) (d c : Nat) (g : Core → Core) : (s.modCore d c g).heldGroups = s.heldGroups := rfl
@[simp] theorem State.modCore_nextStrand (s : State) (d c : Nat) (g : Core → Core) : (s.modCore d c g).nextStrand = s.nextStrand := rfl
@[simp] theorem State.modCore_nextGroup (s : State) (d c : Nat) (g : Core → Core) : (s.modCore d c g).nextGroup = s.nextGroup := rfl
@[simp] theorem State.modCore_seqNo (s : State) (d c : Nat) (g : Core → Core) : (s.modCore d c g).seqNo = s.seqNo := rfl
@[simp] theorem State.modCore_lostCtx (s : State) (d c : Nat) (g : Core → Core) : (s.modCore d c g).lostCtx = s.lostCtx := rfl
@[simp] theorem State.modCore_cur (s : State) (d c : Nat) (g : Core → Core) : (s.modCore d c g).cur = s.cur := rfl
@[simp] theorem State.modCore_agenda (s : State) (d c : Nat) (g : Core → Core) : (s.modCore d c g).agenda = s.agenda := rfl
@[simp] theorem State.modCore_tick (s : State) (d c : Nat) (g : Core → Core) : (s.modCore d c g).tick = s.tick := rfl
@[simp] theorem State.modCore_devQ (s : State) (d c : Nat) (g : Core → Core) : (s.modCore d c g).devQ = s.devQ := rfl
@[simp] theorem State.modCore_tagNo (s : State) (d c : Nat) (g : Core → Core) : (s.modCore d c g).tagNo = s.tagNo := rfl
@[simp] theorem State.freeLane_gtime (s : State) (x : Strand) (i : Nat) (b : Bool) : (s.freeLane x i b).gtime = s.gtime := rfl
@[simp] theorem State.freeLane_mem (s : State) (x : Strand) (i : Nat) (b : Bool) : (s.freeLane x i b).mem = s.mem := rfl
@[simp] theorem State.freeLane_ctxs (s : State) (x : Strand) (i : Nat) (b : Bool) : (s.freeLane x i b).ctxs = s.ctxs := rfl
@[simp] theorem State.freeLane_strands (s : State) (x : Strand) (i : Nat) (b : Bool) : (s.freeLane x i b).strands = s.strands := rfl
@[simp] theorem State.freeLane_queues (s : State) (x : Strand) (i : Nat) (b : Bool) : (s.freeLane x i b).queues = s.queues := rfl
@[simp] theorem State.freeLane_links (s : State) (x : Strand) (i : Nat) (b : Bool) : (s.freeLane x i b).links = s.links := rfl
@[simp] theorem State.freeLane_msgs (s : State) (x : Strand) (i : Nat) (b : Bool) : (s.freeLane x i b).msgs = s.msgs := rfl
@[simp] theorem State.freeLane_dsErr (s : State) (x : Strand) (i : Nat) (b : Bool) : (s.freeLane x i b).dsErr = s.dsErr := rfl
@[simp] theorem State.freeLane_dsPend (s : State) (x : Strand) (i : Nat) (b : Bool) : (s.freeLane x i b).dsPend = s.dsPend := rfl
@[simp] theorem State.freeLane_dsReq (s : State) (x : Strand) (i : Nat) (b : Bool) : (s.freeLane x i b).dsReq = s.dsReq := rfl
@[simp] theorem State.freeLane_dsCur (s : State) (x : Strand) (i : Nat) (b : Bool) : (s.freeLane x i b).dsCur = s.dsCur := rfl
@[simp] theorem State.freeLane_dsCnt (s : State) (x : Strand) (i : Nat) (b : Bool) : (s.freeLane x i b).dsCnt = s.dsCnt := rfl
@[simp] theorem State.freeLane_dsBusy (s : State) (x : Strand) (i : Nat) (b : Bool) : (s.freeLane x i b).dsBusy = s.dsBusy := rfl
@[simp] theorem State.freeLane_spPend (s : State) (x : Strand) (i : Nat) (b : Bool) : (s.freeLane x i b).spPend = s.spPend := rfl
@[simp] theorem State.freeLane_spReq (s : State) (x : Strand) (i : Nat) (b : Bool) : (s.freeLane x i b).spReq = s.spReq := rfl
@[simp] theorem State.freeLane_spCur (s : State) (x : Strand) (i : Nat) (b : Bool) : (s.freeLane x i b).spCur = s.spCur := rfl
@[simp] theorem State.freeLane_power (s : State) (x : Strand) (i : Nat) (b : Bool) : (s.freeLane x i b).power = s.power := rfl
@[simp] theorem State.freeLane_boot (s : State) (x : Strand) (i : Nat) (b : Bool) : (s.freeLane x i b).boot = s.boot := rfl
@[simp] theorem State.freeLane_heldGroups (s : State) (x : Strand) (i : Nat) (b : Bool) : (s.freeLane x i b).heldGroups = s.heldGroups := rfl
@[simp] theorem State.freeLane_nextStrand (s : State) (x : Strand) (i : Nat) (b : Bool) : (s.freeLane x i b).nextStrand = s.nextStrand := rfl
@[simp] theorem State.freeLane_nextGroup (s : State) (x : Strand) (i : Nat) (b : Bool) : (s.freeLane x i b).nextGroup = s.nextGroup := rfl
@[simp] theorem State.freeLane_seqNo (s : State) (x : Strand) (i : Nat) (b : Bool) : (s.freeLane x i b).seqNo = s.seqNo := rfl
@[simp] theorem State.freeLane_lostCtx (s : State) (x : Strand) (i : Nat) (b : Bool) : (s.freeLane x i b).lostCtx = s.lostCtx := rfl
@[simp] theorem State.freeLane_cur (s : State) (x : Strand) (i : Nat) (b : Bool) : (s.freeLane x i b).cur = s.cur := rfl
@[simp] theorem State.freeLane_agenda (s : State) (x : Strand) (i : Nat) (b : Bool) : (s.freeLane x i b).agenda = s.agenda := rfl
@[simp] theorem State.freeLane_tick (s : State) (x : Strand) (i : Nat) (b : Bool) : (s.freeLane x i b).tick = s.tick := rfl
@[simp] theorem State.freeLane_devQ (s : State) (x : Strand) (i : Nat) (b : Bool) : (s.freeLane x i b).devQ = s.devQ := rfl
@[simp] theorem State.freeLane_tagNo (s : State) (x : Strand) (i : Nat) (b : Bool) : (s.freeLane x i b).tagNo = s.tagNo := rfl
@[simp] theorem State.modStrand_gtime (s : State) (i : Nat) (g : Strand → Strand) : (s.modStrand i g).gtime = s.gtime := by
  unfold State.modStrand; split <;> rfl
@[simp] theorem State.modStrand_dies (s : State) (i : Nat) (g : Strand → Strand) : (s.modStrand i g).dies = s.dies := by
  unfold State.modStrand; split <;> rfl
@[simp] theorem State.modStrand_mem (s : State) (i : Nat) (g : Strand → Strand) : (s.modStrand i g).mem = s.mem := by
  unfold State.modStrand; split <;> rfl
@[simp] theorem State.modStrand_ctxs (s : State) (i : Nat) (g : Strand → Strand) : (s.modStrand i g).ctxs = s.ctxs := by
  unfold State.modStrand; split <;> rfl
@[simp] theorem State.modStrand_queues (s : State) (i : Nat) (g : Strand → Strand) : (s.modStrand i g).queues = s.queues := by
  unfold State.modStrand; split <;> rfl
@[simp] theorem State.modStrand_links (s : State) (i : Nat) (g : Strand → Strand) : (s.modStrand i g).links = s.links := by
  unfold State.modStrand; split <;> rfl
@[simp] theorem State.modStrand_msgs (s : State) (i : Nat) (g : Strand → Strand) : (s.modStrand i g).msgs = s.msgs := by
  unfold State.modStrand; split <;> rfl
@[simp] theorem State.modStrand_dsErr (s : State) (i : Nat) (g : Strand → Strand) : (s.modStrand i g).dsErr = s.dsErr := by
  unfold State.modStrand; split <;> rfl
@[simp] theorem State.modStrand_dsPend (s : State) (i : Nat) (g : Strand → Strand) : (s.modStrand i g).dsPend = s.dsPend := by
  unfold State.modStrand; split <;> rfl
@[simp] theorem State.modStrand_dsReq (s : State) (i : Nat) (g : Strand → Strand) : (s.modStrand i g).dsReq = s.dsReq := by
  unfold State.modStrand; split <;> rfl
@[simp] theorem State.modStrand_dsCur (s : State) (i : Nat) (g : Strand → Strand) : (s.modStrand i g).dsCur = s.dsCur := by
  unfold State.modStrand; split <;> rfl
@[simp] theorem State.modStrand_dsCnt (s : State) (i : Nat) (g : Strand → Strand) : (s.modStrand i g).dsCnt = s.dsCnt := by
  unfold State.modStrand; split <;> rfl
@[simp] theorem State.modStrand_dsBusy (s : State) (i : Nat) (g : Strand → Strand) : (s.modStrand i g).dsBusy = s.dsBusy := by
  unfold State.modStrand; split <;> rfl
@[simp] theorem State.modStrand_spPend (s : State) (i : Nat) (g : Strand → Strand) : (s.modStrand i g).spPend = s.spPend := by
  unfold State.modStrand; split <;> rfl
@[simp] theorem State.modStrand_spReq (s : State) (i : Nat) (g : Strand → Strand) : (s.modStrand i g).spReq = s.spReq := by
  unfold State.modStrand; split <;> rfl
@[simp] theorem State.modStrand_spCur (s : State) (i : Nat) (g : Strand → Strand) : (s.modStrand i g).spCur = s.spCur := by
  unfold State.modStrand; split <;> rfl
@[simp] theorem State.modStrand_power (s : State) (i : Nat) (g : Strand → Strand) : (s.modStrand i g).power = s.power := by
  unfold State.modStrand; split <;> rfl
@[simp] theorem State.modStrand_boot (s : State) (i : Nat) (g : Strand → Strand) : (s.modStrand i g).boot = s.boot := by
  unfold State.modStrand; split <;> rfl
@[simp] theorem State.modStrand_heldGroups (s : State) (i : Nat) (g : Strand → Strand) : (s.modStrand i g).heldGroups = s.heldGroups := by
  unfold State.modStrand; split <;> rfl
@[simp] theorem State.modStrand_nextStrand (s : State) (i : Nat) (g : Strand → Strand) : (s.modStrand i g).nextStrand = s.nextStrand := by
  unfold State.modStrand; split <;> rfl
@[simp] theorem State.modStrand_nextGroup (s : State) (i : Nat) (g : Strand → Strand) : (s.modStrand i g).nextGroup = s.nextGroup := by
  unfold State.modStrand; split <;> rfl
@[simp] theorem State.modStrand_seqNo (s : State) (i : Nat) (g : Strand → Strand) : (s.modStrand i g).seqNo = s.seqNo := by
  unfold State.modStrand; split <;> rfl
@[simp] theorem State.modStrand_lostCtx (s : State) (i : Nat) (g : Strand → Strand) : (s.modStrand i g).lostCtx = s.lostCtx := by
  unfold State.modStrand; split <;> rfl
@[simp] theorem State.modStrand_cur (s : State) (i : Nat) (g : Strand → Strand) : (s.modStrand i g).cur = s.cur := by
  unfold State.modStrand; split <;> rfl
@[simp] theorem State.modStrand_agenda (s : State) (i : Nat) (g : Strand → Strand) : (s.modStrand i g).agenda = s.agenda := by
  unfold State.modStrand; split <;> rfl
@[simp] theorem State.modStrand_tick (s : State) (i : Nat) (g : Strand → Strand) : (s.modStrand i g).tick = s.tick := by
  unfold State.modStrand; split <;> rfl
@[simp] theorem State.modStrand_devQ (s : State) (i : Nat) (g : Strand → Strand) : (s.modStrand i g).devQ = s.devQ := by
  unfold State.modStrand; split <;> rfl
@[simp] theorem State.modStrand_tagNo (s : State) (i : Nat) (g : Strand → Strand) : (s.modStrand i g).tagNo = s.tagNo := by
  unfold State.modStrand; split <;> rfl
@[simp] theorem State.modKernel_gtime (s : State) (n k : Nat) (g : Kernel → Kernel) : (s.modKernel n k g).gtime = s.gtime := by
  unfold State.modKernel; split <;> rfl
@[simp] theorem State.modKernel_dies (s : State) (n k : Nat) (g : Kernel → Kernel) : (s.modKernel n k g).dies = s.dies := by
  unfold State.modKernel; split <;> rfl
@[simp] theorem State.modKernel_mem (s : State) (n k : Nat) (g : Kernel → Kernel) : (s.modKernel n k g).mem = s.mem := by
  unfold State.modKernel; split <;> rfl
@[simp] theorem State.modKernel_strands (s : State) (n k : Nat) (g : Kernel → Kernel) : (s.modKernel n k g).strands = s.strands := by
  unfold State.modKernel; split <;> rfl
@[simp] theorem State.modKernel_queues (s : State) (n k : Nat) (g : Kernel → Kernel) : (s.modKernel n k g).queues = s.queues := by
  unfold State.modKernel; split <;> rfl
@[simp] theorem State.modKernel_links (s : State) (n k : Nat) (g : Kernel → Kernel) : (s.modKernel n k g).links = s.links := by
  unfold State.modKernel; split <;> rfl
@[simp] theorem State.modKernel_msgs (s : State) (n k : Nat) (g : Kernel → Kernel) : (s.modKernel n k g).msgs = s.msgs := by
  unfold State.modKernel; split <;> rfl
@[simp] theorem State.modKernel_dsErr (s : State) (n k : Nat) (g : Kernel → Kernel) : (s.modKernel n k g).dsErr = s.dsErr := by
  unfold State.modKernel; split <;> rfl
@[simp] theorem State.modKernel_dsPend (s : State) (n k : Nat) (g : Kernel → Kernel) : (s.modKernel n k g).dsPend = s.dsPend := by
  unfold State.modKernel; split <;> rfl
@[simp] theorem State.modKernel_dsReq (s : State) (n k : Nat) (g : Kernel → Kernel) : (s.modKernel n k g).dsReq = s.dsReq := by
  unfold State.modKernel; split <;> rfl
@[simp] theorem State.modKernel_dsCur (s : State) (n k : Nat) (g : Kernel → Kernel) : (s.modKernel n k g).dsCur = s.dsCur := by
  unfold State.modKernel; split <;> rfl
@[simp] theorem State.modKernel_dsCnt (s : State) (n k : Nat) (g : Kernel → Kernel) : (s.modKernel n k g).dsCnt = s.dsCnt := by
  unfold State.modKernel; split <;> rfl
@[simp] theorem State.modKernel_dsBusy (s : State) (n k : Nat) (g : Kernel → Kernel) : (s.modKernel n k g).dsBusy = s.dsBusy := by
  unfold State.modKernel; split <;> rfl
@[simp] theorem State.modKernel_spPend (s : State) (n k : Nat) (g : Kernel → Kernel) : (s.modKernel n k g).spPend = s.spPend := by
  unfold State.modKernel; split <;> rfl
@[simp] theorem State.modKernel_spReq (s : State) (n k : Nat) (g : Kernel → Kernel) : (s.modKernel n k g).spReq = s.spReq := by
  unfold State.modKernel; split <;> rfl
@[simp] theorem State.modKernel_spCur (s : State) (n k : Nat) (g : Kernel → Kernel) : (s.modKernel n k g).spCur = s.spCur := by
  unfold State.modKernel; split <;> rfl
@[simp] theorem State.modKernel_power (s : State) (n k : Nat) (g : Kernel → Kernel) : (s.modKernel n k g).power = s.power := by
  unfold State.modKernel; split <;> rfl
@[simp] theorem State.modKernel_boot (s : State) (n k : Nat) (g : Kernel → Kernel) : (s.modKernel n k g).boot = s.boot := by
  unfold State.modKernel; split <;> rfl
@[simp] theorem State.modKernel_heldGroups (s : State) (n k : Nat) (g : Kernel → Kernel) : (s.modKernel n k g).heldGroups = s.heldGroups := by
  unfold State.modKernel; split <;> rfl
@[simp] theorem State.modKernel_nextStrand (s : State) (n k : Nat) (g : Kernel → Kernel) : (s.modKernel n k g).nextStrand = s.nextStrand := by
  unfold State.modKernel; split <;> rfl
@[simp] theorem State.modKernel_nextGroup (s : State) (n k : Nat) (g : Kernel → Kernel) : (s.modKernel n k g).nextGroup = s.nextGroup := by
  unfold State.modKernel; split <;> rfl
@[simp] theorem State.modKernel_seqNo (s : State) (n k : Nat) (g : Kernel → Kernel) : (s.modKernel n k g).seqNo = s.seqNo := by
  unfold State.modKernel; split <;> rfl
@[simp] theorem State.modKernel_lostCtx (s : State) (n k : Nat) (g : Kernel → Kernel) : (s.modKernel n k g).lostCtx = s.lostCtx := by
  unfold State.modKernel; split <;> rfl
@[simp] theorem State.modKernel_cur (s : State) (n k : Nat) (g : Kernel → Kernel) : (s.modKernel n k g).cur = s.cur := by
  unfold State.modKernel; split <;> rfl
@[simp] theorem State.modKernel_agenda (s : State) (n k : Nat) (g : Kernel → Kernel) : (s.modKernel n k g).agenda = s.agenda := by
  unfold State.modKernel; split <;> rfl
@[simp] theorem State.modKernel_tick (s : State) (n k : Nat) (g : Kernel → Kernel) : (s.modKernel n k g).tick = s.tick := by
  unfold State.modKernel; split <;> rfl
@[simp] theorem State.modKernel_devQ (s : State) (n k : Nat) (g : Kernel → Kernel) : (s.modKernel n k g).devQ = s.devQ := by
  unfold State.modKernel; split <;> rfl
@[simp] theorem State.modKernel_tagNo (s : State) (n k : Nat) (g : Kernel → Kernel) : (s.modKernel n k g).tagNo = s.tagNo := by
  unfold State.modKernel; split <;> rfl
@[simp] theorem State.modItem_gtime (s : State) (n k i : Nat) (g : Item → Item) : (s.modItem n k i g).gtime = s.gtime :=
  State.modKernel_gtime _ _ _ _
@[simp] theorem State.modItem_dies (s : State) (n k i : Nat) (g : Item → Item) : (s.modItem n k i g).dies = s.dies :=
  State.modKernel_dies _ _ _ _
@[simp] theorem State.modItem_mem (s : State) (n k i : Nat) (g : Item → Item) : (s.modItem n k i g).mem = s.mem :=
  State.modKernel_mem _ _ _ _
@[simp] theorem State.modItem_strands (s : State) (n k i : Nat) (g : Item → Item) : (s.modItem n k i g).strands = s.strands :=
  State.modKernel_strands _ _ _ _
@[simp] theorem State.modItem_queues (s : State) (n k i : Nat) (g : Item → Item) : (s.modItem n k i g).queues = s.queues :=
  State.modKernel_queues _ _ _ _
@[simp] theorem State.modItem_links (s : State) (n k i : Nat) (g : Item → Item) : (s.modItem n k i g).links = s.links :=
  State.modKernel_links _ _ _ _
@[simp] theorem State.modItem_msgs (s : State) (n k i : Nat) (g : Item → Item) : (s.modItem n k i g).msgs = s.msgs :=
  State.modKernel_msgs _ _ _ _
@[simp] theorem State.modItem_dsErr (s : State) (n k i : Nat) (g : Item → Item) : (s.modItem n k i g).dsErr = s.dsErr :=
  State.modKernel_dsErr _ _ _ _
@[simp] theorem State.modItem_dsPend (s : State) (n k i : Nat) (g : Item → Item) : (s.modItem n k i g).dsPend = s.dsPend :=
  State.modKernel_dsPend _ _ _ _
@[simp] theorem State.modItem_dsReq (s : State) (n k i : Nat) (g : Item → Item) : (s.modItem n k i g).dsReq = s.dsReq :=
  State.modKernel_dsReq _ _ _ _
@[simp] theorem State.modItem_dsCur (s : State) (n k i : Nat) (g : Item → Item) : (s.modItem n k i g).dsCur = s.dsCur :=
  State.modKernel_dsCur _ _ _ _
@[simp] theorem State.modItem_dsCnt (s : State) (n k i : Nat) (g : Item → Item) : (s.modItem n k i g).dsCnt = s.dsCnt :=
  State.modKernel_dsCnt _ _ _ _
@[simp] theorem State.modItem_dsBusy (s : State) (n k i : Nat) (g : Item → Item) : (s.modItem n k i g).dsBusy = s.dsBusy :=
  State.modKernel_dsBusy _ _ _ _
@[simp] theorem State.modItem_spPend (s : State) (n k i : Nat) (g : Item → Item) : (s.modItem n k i g).spPend = s.spPend :=
  State.modKernel_spPend _ _ _ _
@[simp] theorem State.modItem_spReq (s : State) (n k i : Nat) (g : Item → Item) : (s.modItem n k i g).spReq = s.spReq :=
  State.modKernel_spReq _ _ _ _
@[simp] theorem State.modItem_spCur (s : State) (n k i : Nat) (g : Item → Item) : (s.modItem n k i g).spCur = s.spCur :=
  State.modKernel_spCur _ _ _ _
@[simp] theorem State.modItem_power (s : State) (n k i : Nat) (g : Item → Item) : (s.modItem n k i g).power = s.power :=
  State.modKernel_power _ _ _ _
@[simp] theorem State.modItem_boot (s : State) (n k i : Nat) (g : Item → Item) : (s.modItem n k i g).boot = s.boot :=
  State.modKernel_boot _ _ _ _
@[simp] theorem State.modItem_heldGroups (s : State) (n k i : Nat) (g : Item → Item) : (s.modItem n k i g).heldGroups = s.heldGroups :=
  State.modKernel_heldGroups _ _ _ _
@[simp] theorem State.modItem_nextStrand (s : State) (n k i : Nat) (g : Item → Item) : (s.modItem n k i g).nextStrand = s.nextStrand :=
  State.modKernel_nextStrand _ _ _ _
@[simp] theorem State.modItem_nextGroup (s : State) (n k i : Nat) (g : Item → Item) : (s.modItem n k i g).nextGroup = s.nextGroup :=
  State.modKernel_nextGroup _ _ _ _
@[simp] theorem State.modItem_seqNo (s : State) (n k i : Nat) (g : Item → Item) : (s.modItem n k i g).seqNo = s.seqNo :=
  State.modKernel_seqNo _ _ _ _
@[simp] theorem State.modItem_lostCtx (s : State) (n k i : Nat) (g : Item → Item) : (s.modItem n k i g).lostCtx = s.lostCtx :=
  State.modKernel_lostCtx _ _ _ _
@[simp] theorem State.modItem_cur (s : State) (n k i : Nat) (g : Item → Item) : (s.modItem n k i g).cur = s.cur :=
  State.modKernel_cur _ _ _ _
@[simp] theorem State.modItem_agenda (s : State) (n k i : Nat) (g : Item → Item) : (s.modItem n k i g).agenda = s.agenda :=
  State.modKernel_agenda _ _ _ _
@[simp] theorem State.modItem_tick (s : State) (n k i : Nat) (g : Item → Item) : (s.modItem n k i g).tick = s.tick :=
  State.modKernel_tick _ _ _ _
@[simp] theorem State.modItem_devQ (s : State) (n k i : Nat) (g : Item → Item) : (s.modItem n k i g).devQ = s.devQ :=
  State.modKernel_devQ _ _ _ _
@[simp] theorem State.modItem_tagNo (s : State) (n k i : Nat) (g : Item → Item) : (s.modItem n k i g).tagNo = s.tagNo :=
  State.modKernel_tagNo _ _ _ _
@[simp] theorem State.scrPuts_gtime (s : State) (x : Strand) (a : Nat) (b : List Byte) : (s.scrPuts x a b).gtime = s.gtime :=
  State.modItem_gtime _ _ _ _ _
@[simp] theorem State.scrPuts_dies (s : State) (x : Strand) (a : Nat) (b : List Byte) : (s.scrPuts x a b).dies = s.dies :=
  State.modItem_dies _ _ _ _ _
@[simp] theorem State.scrPuts_mem (s : State) (x : Strand) (a : Nat) (b : List Byte) : (s.scrPuts x a b).mem = s.mem :=
  State.modItem_mem _ _ _ _ _
@[simp] theorem State.scrPuts_strands (s : State) (x : Strand) (a : Nat) (b : List Byte) : (s.scrPuts x a b).strands = s.strands :=
  State.modItem_strands _ _ _ _ _
@[simp] theorem State.scrPuts_queues (s : State) (x : Strand) (a : Nat) (b : List Byte) : (s.scrPuts x a b).queues = s.queues :=
  State.modItem_queues _ _ _ _ _
@[simp] theorem State.scrPuts_links (s : State) (x : Strand) (a : Nat) (b : List Byte) : (s.scrPuts x a b).links = s.links :=
  State.modItem_links _ _ _ _ _
@[simp] theorem State.scrPuts_msgs (s : State) (x : Strand) (a : Nat) (b : List Byte) : (s.scrPuts x a b).msgs = s.msgs :=
  State.modItem_msgs _ _ _ _ _
@[simp] theorem State.scrPuts_dsErr (s : State) (x : Strand) (a : Nat) (b : List Byte) : (s.scrPuts x a b).dsErr = s.dsErr :=
  State.modItem_dsErr _ _ _ _ _
@[simp] theorem State.scrPuts_dsPend (s : State) (x : Strand) (a : Nat) (b : List Byte) : (s.scrPuts x a b).dsPend = s.dsPend :=
  State.modItem_dsPend _ _ _ _ _
@[simp] theorem State.scrPuts_dsReq (s : State) (x : Strand) (a : Nat) (b : List Byte) : (s.scrPuts x a b).dsReq = s.dsReq :=
  State.modItem_dsReq _ _ _ _ _
@[simp] theorem State.scrPuts_dsCur (s : State) (x : Strand) (a : Nat) (b : List Byte) : (s.scrPuts x a b).dsCur = s.dsCur :=
  State.modItem_dsCur _ _ _ _ _
@[simp] theorem State.scrPuts_dsCnt (s : State) (x : Strand) (a : Nat) (b : List Byte) : (s.scrPuts x a b).dsCnt = s.dsCnt :=
  State.modItem_dsCnt _ _ _ _ _
@[simp] theorem State.scrPuts_dsBusy (s : State) (x : Strand) (a : Nat) (b : List Byte) : (s.scrPuts x a b).dsBusy = s.dsBusy :=
  State.modItem_dsBusy _ _ _ _ _
@[simp] theorem State.scrPuts_spPend (s : State) (x : Strand) (a : Nat) (b : List Byte) : (s.scrPuts x a b).spPend = s.spPend :=
  State.modItem_spPend _ _ _ _ _
@[simp] theorem State.scrPuts_spReq (s : State) (x : Strand) (a : Nat) (b : List Byte) : (s.scrPuts x a b).spReq = s.spReq :=
  State.modItem_spReq _ _ _ _ _
@[simp] theorem State.scrPuts_spCur (s : State) (x : Strand) (a : Nat) (b : List Byte) : (s.scrPuts x a b).spCur = s.spCur :=
  State.modItem_spCur _ _ _ _ _
@[simp] theorem State.scrPuts_power (s : State) (x : Strand) (a : Nat) (b : List Byte) : (s.scrPuts x a b).power = s.power :=
  State.modItem_power _ _ _ _ _
@[simp] theorem State.scrPuts_boot (s : State) (x : Strand) (a : Nat) (b : List Byte) : (s.scrPuts x a b).boot = s.boot :=
  State.modItem_boot _ _ _ _ _
@[simp] theorem State.scrPuts_heldGroups (s : State) (x : Strand) (a : Nat) (b : List Byte) : (s.scrPuts x a b).heldGroups = s.heldGroups :=
  State.modItem_heldGroups _ _ _ _ _
@[simp] theorem State.scrPuts_nextStrand (s : State) (x : Strand) (a : Nat) (b : List Byte) : (s.scrPuts x a b).nextStrand = s.nextStrand :=
  State.modItem_nextStrand _ _ _ _ _
@[simp] theorem State.scrPuts_nextGroup (s : State) (x : Strand) (a : Nat) (b : List Byte) : (s.scrPuts x a b).nextGroup = s.nextGroup :=
  State.modItem_nextGroup _ _ _ _ _
@[simp] theorem State.scrPuts_seqNo (s : State) (x : Strand) (a : Nat) (b : List Byte) : (s.scrPuts x a b).seqNo = s.seqNo :=
  State.modItem_seqNo _ _ _ _ _
@[simp] theorem State.scrPuts_lostCtx (s : State) (x : Strand) (a : Nat) (b : List Byte) : (s.scrPuts x a b).lostCtx = s.lostCtx :=
  State.modItem_lostCtx _ _ _ _ _
@[simp] theorem State.scrPuts_cur (s : State) (x : Strand) (a : Nat) (b : List Byte) : (s.scrPuts x a b).cur = s.cur :=
  State.modItem_cur _ _ _ _ _
@[simp] theorem State.scrPuts_agenda (s : State) (x : Strand) (a : Nat) (b : List Byte) : (s.scrPuts x a b).agenda = s.agenda :=
  State.modItem_agenda _ _ _ _ _
@[simp] theorem State.scrPuts_tick (s : State) (x : Strand) (a : Nat) (b : List Byte) : (s.scrPuts x a b).tick = s.tick :=
  State.modItem_tick _ _ _ _ _
@[simp] theorem State.scrPuts_devQ (s : State) (x : Strand) (a : Nat) (b : List Byte) : (s.scrPuts x a b).devQ = s.devQ :=
  State.modItem_devQ _ _ _ _ _
@[simp] theorem State.scrPuts_tagNo (s : State) (x : Strand) (a : Nat) (b : List Byte) : (s.scrPuts x a b).tagNo = s.tagNo :=
  State.modItem_tagNo _ _ _ _ _
@[simp] theorem Strand.vset_ctx (st : Strand) (n t : Nat) (x : Word) : (st.vset n t x).ctx = st.ctx := rfl
@[simp] theorem Strand.vset_kid (st : Strand) (n t : Nat) (x : Word) : (st.vset n t x).kid = st.kid := rfl
@[simp] theorem Strand.vset_iid (st : Strand) (n t : Nat) (x : Word) : (st.vset n t x).iid = st.iid := rfl
@[simp] theorem Strand.vset_sid (st : Strand) (n t : Nat) (x : Word) : (st.vset n t x).sid = st.sid := rfl
@[simp] theorem Strand.vset_role (st : Strand) (n t : Nat) (x : Word) : (st.vset n t x).role = st.role := rfl
@[simp] theorem Strand.vset_loc (st : Strand) (n t : Nat) (x : Word) : (st.vset n t x).loc = st.loc := rfl
@[simp] theorem Strand.vset_saved (st : Strand) (n t : Nat) (x : Word) : (st.vset n t x).saved = st.saved := rfl
@[simp] theorem Strand.vset_run (st : Strand) (n t : Nat) (x : Word) : (st.vset n t x).run = st.run := rfl
@[simp] theorem Strand.vset_alloc (st : Strand) (n t : Nat) (x : Word) : (st.vset n t x).alloc = st.alloc := rfl
@[simp] theorem Strand.vset_s (st : Strand) (n t : Nat) (x : Word) : (st.vset n t x).s = st.s := rfl
@[simp] theorem Strand.vset_q (st : Strand) (n t : Nat) (x : Word) : (st.vset n t x).q = st.q := rfl
@[simp] theorem Strand.vset_x (st : Strand) (n t : Nat) (x : Word) : (st.vset n t x).x = st.x := rfl
@[simp] theorem Strand.vset_xbase (st : Strand) (n t : Nat) (x : Word) : (st.vset n t x).xbase = st.xbase := rfl
@[simp] theorem Strand.vset_xsize (st : Strand) (n t : Nat) (x : Word) : (st.vset n t x).xsize = st.xsize := rfl
@[simp] theorem Strand.vset_fmt (st : Strand) (n t : Nat) (x : Word) : (st.vset n t x).fmt = st.fmt := rfl
@[simp] theorem Strand.vset_sts (st : Strand) (n t : Nat) (x : Word) : (st.vset n t x).sts = st.sts := rfl
@[simp] theorem Strand.vset_c (st : Strand) (n t : Nat) (x : Word) : (st.vset n t x).c = st.c := rfl
@[simp] theorem Strand.vset_pc (st : Strand) (n t : Nat) (x : Word) : (st.vset n t x).pc = st.pc := rfl
@[simp] theorem Strand.vset_ir (st : Strand) (n t : Nat) (x : Word) : (st.vset n t x).ir = st.ir := rfl
@[simp] theorem Strand.vset_mask (st : Strand) (n t : Nat) (x : Word) : (st.vset n t x).mask = st.mask := rfl
@[simp] theorem Strand.vset_rpc (st : Strand) (n t : Nat) (x : Word) : (st.vset n t x).rpc = st.rpc := rfl
@[simp] theorem Strand.vset_rpcv (st : Strand) (n t : Nat) (x : Word) : (st.vset n t x).rpcv = st.rpcv := rfl
@[simp] theorem Strand.vset_stack (st : Strand) (n t : Nat) (x : Word) : (st.vset n t x).stack = st.stack := rfl
@[simp] theorem Strand.vset_written (st : Strand) (n t : Nat) (x : Word) : (st.vset n t x).written = st.written := rfl
@[simp] theorem Strand.vset_tmr (st : Strand) (n t : Nat) (x : Word) : (st.vset n t x).tmr = st.tmr := rfl
@[simp] theorem Strand.vset_tcmp (st : Strand) (n t : Nat) (x : Word) : (st.vset n t x).tcmp = st.tcmp := rfl
@[simp] theorem Strand.vset_tarmed (st : Strand) (n t : Nat) (x : Word) : (st.vset n t x).tarmed = st.tarmed := rfl
@[simp] theorem Strand.vset_epc (st : Strand) (n t : Nat) (x : Word) : (st.vset n t x).epc = st.epc := rfl
@[simp] theorem Strand.vset_emask (st : Strand) (n t : Nat) (x : Word) : (st.vset n t x).emask = st.emask := rfl
@[simp] theorem Strand.vset_cause (st : Strand) (n t : Nat) (x : Word) : (st.vset n t x).cause = st.cause := rfl
@[simp] theorem Strand.vset_frame (st : Strand) (n t : Nat) (x : Word) : (st.vset n t x).frame = st.frame := rfl
@[simp] theorem Strand.vset_resume (st : Strand) (n t : Nat) (x : Word) : (st.vset n t x).resume = st.resume := rfl
@[simp] theorem Strand.vset_pend (st : Strand) (n t : Nat) (x : Word) : (st.vset n t x).pend = st.pend := rfl
@[simp] theorem Strand.vset_ahead (st : Strand) (n t : Nat) (x : Word) : (st.vset n t x).ahead = st.ahead := rfl
@[simp] theorem Strand.vset_hold (st : Strand) (n t : Nat) (x : Word) : (st.vset n t x).hold = st.hold := rfl
@[simp] theorem Strand.vset_stalled (st : Strand) (n t : Nat) (x : Word) : (st.vset n t x).stalled = st.stalled := rfl
@[simp] theorem Strand.vset_stop (st : Strand) (n t : Nat) (x : Word) : (st.vset n t x).stop = st.stop := rfl
@[simp] theorem Strand.vset_doomed (st : Strand) (n t : Nat) (x : Word) : (st.vset n t x).doomed = st.doomed := rfl
@[simp] theorem Strand.vset_walkParked (st : Strand) (n t : Nat) (x : Word) : (st.vset n t x).walkParked = st.walkParked := rfl
@[simp] theorem Strand.vset_ops (st : Strand) (n t : Nat) (x : Word) : (st.vset n t x).ops = st.ops := rfl
@[simp] theorem Strand.vset_nextOp (st : Strand) (n t : Nat) (x : Word) : (st.vset n t x).nextOp = st.nextOp := rfl
@[simp] theorem Strand.vset_marks (st : Strand) (n t : Nat) (x : Word) : (st.vset n t x).marks = st.marks := rfl
@[simp] theorem Strand.vset_engErrs (st : Strand) (n t : Nat) (x : Word) : (st.vset n t x).engErrs = st.engErrs := rfl
@[simp] theorem Strand.vset_runCount (st : Strand) (n t : Nat) (x : Word) : (st.vset n t x).runCount = st.runCount := rfl
@[simp] theorem Strand.vset_cyc (st : Strand) (n t : Nat) (x : Word) : (st.vset n t x).cyc = st.cyc := rfl
@[simp] theorem Strand.vset_rdy (st : Strand) (n t : Nat) (x : Word) : (st.vset n t x).rdy = st.rdy := rfl
@[simp] theorem Strand.vset_waitCount (st : Strand) (n t : Nat) (x : Word) : (st.vset n t x).waitCount = st.waitCount := rfl
@[simp] theorem Strand.vset_waitSeq (st : Strand) (n t : Nat) (x : Word) : (st.vset n t x).waitSeq = st.waitSeq := rfl
@[simp] theorem Strand.vset_placedAt (st : Strand) (n t : Nat) (x : Word) : (st.vset n t x).placedAt = st.placedAt := rfl
@[simp] theorem Strand.vset_spin (st : Strand) (n t : Nat) (x : Word) : (st.vset n t x).spin = st.spin := rfl
@[simp] theorem Strand.vset_low (st : Strand) (n t : Nat) (x : Word) : (st.vset n t x).low = st.low := rfl
@[simp] theorem Strand.vset_due (st : Strand) (n t : Nat) (x : Word) : (st.vset n t x).due = st.due := rfl
@[simp] theorem Strand.vset_savedPages (st : Strand) (n t : Nat) (x : Word) : (st.vset n t x).savedPages = st.savedPages := rfl
@[simp] theorem Strand.vset_slots (st : Strand) (n t : Nat) (x : Word) : (st.vset n t x).slots = st.slots := rfl
@[simp] theorem Strand.vset_resolved (st : Strand) (n t : Nat) (x : Word) : (st.vset n t x).resolved = st.resolved := rfl
@[simp] theorem Strand.vset_lastCore (st : Strand) (n t : Nat) (x : Word) : (st.vset n t x).lastCore = st.lastCore := rfl
@[simp] theorem Strand.sset_ctx (st : Strand) (n : Nat) (x : Word) : (st.sset n x).ctx = st.ctx := rfl
@[simp] theorem Strand.sset_kid (st : Strand) (n : Nat) (x : Word) : (st.sset n x).kid = st.kid := rfl
@[simp] theorem Strand.sset_iid (st : Strand) (n : Nat) (x : Word) : (st.sset n x).iid = st.iid := rfl
@[simp] theorem Strand.sset_sid (st : Strand) (n : Nat) (x : Word) : (st.sset n x).sid = st.sid := rfl
@[simp] theorem Strand.sset_role (st : Strand) (n : Nat) (x : Word) : (st.sset n x).role = st.role := rfl
@[simp] theorem Strand.sset_loc (st : Strand) (n : Nat) (x : Word) : (st.sset n x).loc = st.loc := rfl
@[simp] theorem Strand.sset_saved (st : Strand) (n : Nat) (x : Word) : (st.sset n x).saved = st.saved := rfl
@[simp] theorem Strand.sset_run (st : Strand) (n : Nat) (x : Word) : (st.sset n x).run = st.run := rfl
@[simp] theorem Strand.sset_alloc (st : Strand) (n : Nat) (x : Word) : (st.sset n x).alloc = st.alloc := rfl
@[simp] theorem Strand.sset_v (st : Strand) (n : Nat) (x : Word) : (st.sset n x).v = st.v := rfl
@[simp] theorem Strand.sset_q (st : Strand) (n : Nat) (x : Word) : (st.sset n x).q = st.q := rfl
@[simp] theorem Strand.sset_x (st : Strand) (n : Nat) (x : Word) : (st.sset n x).x = st.x := rfl
@[simp] theorem Strand.sset_xbase (st : Strand) (n : Nat) (x : Word) : (st.sset n x).xbase = st.xbase := rfl
@[simp] theorem Strand.sset_xsize (st : Strand) (n : Nat) (x : Word) : (st.sset n x).xsize = st.xsize := rfl
@[simp] theorem Strand.sset_fmt (st : Strand) (n : Nat) (x : Word) : (st.sset n x).fmt = st.fmt := rfl
@[simp] theorem Strand.sset_sts (st : Strand) (n : Nat) (x : Word) : (st.sset n x).sts = st.sts := rfl
@[simp] theorem Strand.sset_c (st : Strand) (n : Nat) (x : Word) : (st.sset n x).c = st.c := rfl
@[simp] theorem Strand.sset_pc (st : Strand) (n : Nat) (x : Word) : (st.sset n x).pc = st.pc := rfl
@[simp] theorem Strand.sset_ir (st : Strand) (n : Nat) (x : Word) : (st.sset n x).ir = st.ir := rfl
@[simp] theorem Strand.sset_mask (st : Strand) (n : Nat) (x : Word) : (st.sset n x).mask = st.mask := rfl
@[simp] theorem Strand.sset_rpc (st : Strand) (n : Nat) (x : Word) : (st.sset n x).rpc = st.rpc := rfl
@[simp] theorem Strand.sset_rpcv (st : Strand) (n : Nat) (x : Word) : (st.sset n x).rpcv = st.rpcv := rfl
@[simp] theorem Strand.sset_stack (st : Strand) (n : Nat) (x : Word) : (st.sset n x).stack = st.stack := rfl
@[simp] theorem Strand.sset_tmr (st : Strand) (n : Nat) (x : Word) : (st.sset n x).tmr = st.tmr := rfl
@[simp] theorem Strand.sset_tcmp (st : Strand) (n : Nat) (x : Word) : (st.sset n x).tcmp = st.tcmp := rfl
@[simp] theorem Strand.sset_tarmed (st : Strand) (n : Nat) (x : Word) : (st.sset n x).tarmed = st.tarmed := rfl
@[simp] theorem Strand.sset_epc (st : Strand) (n : Nat) (x : Word) : (st.sset n x).epc = st.epc := rfl
@[simp] theorem Strand.sset_emask (st : Strand) (n : Nat) (x : Word) : (st.sset n x).emask = st.emask := rfl
@[simp] theorem Strand.sset_cause (st : Strand) (n : Nat) (x : Word) : (st.sset n x).cause = st.cause := rfl
@[simp] theorem Strand.sset_frame (st : Strand) (n : Nat) (x : Word) : (st.sset n x).frame = st.frame := rfl
@[simp] theorem Strand.sset_resume (st : Strand) (n : Nat) (x : Word) : (st.sset n x).resume = st.resume := rfl
@[simp] theorem Strand.sset_pend (st : Strand) (n : Nat) (x : Word) : (st.sset n x).pend = st.pend := rfl
@[simp] theorem Strand.sset_ahead (st : Strand) (n : Nat) (x : Word) : (st.sset n x).ahead = st.ahead := rfl
@[simp] theorem Strand.sset_hold (st : Strand) (n : Nat) (x : Word) : (st.sset n x).hold = st.hold := rfl
@[simp] theorem Strand.sset_stalled (st : Strand) (n : Nat) (x : Word) : (st.sset n x).stalled = st.stalled := rfl
@[simp] theorem Strand.sset_stop (st : Strand) (n : Nat) (x : Word) : (st.sset n x).stop = st.stop := rfl
@[simp] theorem Strand.sset_doomed (st : Strand) (n : Nat) (x : Word) : (st.sset n x).doomed = st.doomed := rfl
@[simp] theorem Strand.sset_walkParked (st : Strand) (n : Nat) (x : Word) : (st.sset n x).walkParked = st.walkParked := rfl
@[simp] theorem Strand.sset_ops (st : Strand) (n : Nat) (x : Word) : (st.sset n x).ops = st.ops := rfl
@[simp] theorem Strand.sset_nextOp (st : Strand) (n : Nat) (x : Word) : (st.sset n x).nextOp = st.nextOp := rfl
@[simp] theorem Strand.sset_marks (st : Strand) (n : Nat) (x : Word) : (st.sset n x).marks = st.marks := rfl
@[simp] theorem Strand.sset_engErrs (st : Strand) (n : Nat) (x : Word) : (st.sset n x).engErrs = st.engErrs := rfl
@[simp] theorem Strand.sset_runCount (st : Strand) (n : Nat) (x : Word) : (st.sset n x).runCount = st.runCount := rfl
@[simp] theorem Strand.sset_cyc (st : Strand) (n : Nat) (x : Word) : (st.sset n x).cyc = st.cyc := rfl
@[simp] theorem Strand.sset_rdy (st : Strand) (n : Nat) (x : Word) : (st.sset n x).rdy = st.rdy := rfl
@[simp] theorem Strand.sset_waitCount (st : Strand) (n : Nat) (x : Word) : (st.sset n x).waitCount = st.waitCount := rfl
@[simp] theorem Strand.sset_waitSeq (st : Strand) (n : Nat) (x : Word) : (st.sset n x).waitSeq = st.waitSeq := rfl
@[simp] theorem Strand.sset_placedAt (st : Strand) (n : Nat) (x : Word) : (st.sset n x).placedAt = st.placedAt := rfl
@[simp] theorem Strand.sset_spin (st : Strand) (n : Nat) (x : Word) : (st.sset n x).spin = st.spin := rfl
@[simp] theorem Strand.sset_low (st : Strand) (n : Nat) (x : Word) : (st.sset n x).low = st.low := rfl
@[simp] theorem Strand.sset_due (st : Strand) (n : Nat) (x : Word) : (st.sset n x).due = st.due := rfl
@[simp] theorem Strand.sset_savedPages (st : Strand) (n : Nat) (x : Word) : (st.sset n x).savedPages = st.savedPages := rfl
@[simp] theorem Strand.sset_slots (st : Strand) (n : Nat) (x : Word) : (st.sset n x).slots = st.slots := rfl
@[simp] theorem Strand.sset_resolved (st : Strand) (n : Nat) (x : Word) : (st.sset n x).resolved = st.resolved := rfl
@[simp] theorem Strand.sset_lastCore (st : Strand) (n : Nat) (x : Word) : (st.sset n x).lastCore = st.lastCore := rfl
@[simp] theorem Strand.sset64_ctx (st : Strand) (n : Nat) (x : DWord) : (st.sset64 n x).ctx = st.ctx := rfl
@[simp] theorem Strand.sset64_kid (st : Strand) (n : Nat) (x : DWord) : (st.sset64 n x).kid = st.kid := rfl
@[simp] theorem Strand.sset64_iid (st : Strand) (n : Nat) (x : DWord) : (st.sset64 n x).iid = st.iid := rfl
@[simp] theorem Strand.sset64_sid (st : Strand) (n : Nat) (x : DWord) : (st.sset64 n x).sid = st.sid := rfl
@[simp] theorem Strand.sset64_role (st : Strand) (n : Nat) (x : DWord) : (st.sset64 n x).role = st.role := rfl
@[simp] theorem Strand.sset64_loc (st : Strand) (n : Nat) (x : DWord) : (st.sset64 n x).loc = st.loc := rfl
@[simp] theorem Strand.sset64_saved (st : Strand) (n : Nat) (x : DWord) : (st.sset64 n x).saved = st.saved := rfl
@[simp] theorem Strand.sset64_run (st : Strand) (n : Nat) (x : DWord) : (st.sset64 n x).run = st.run := rfl
@[simp] theorem Strand.sset64_alloc (st : Strand) (n : Nat) (x : DWord) : (st.sset64 n x).alloc = st.alloc := rfl
@[simp] theorem Strand.sset64_v (st : Strand) (n : Nat) (x : DWord) : (st.sset64 n x).v = st.v := rfl
@[simp] theorem Strand.sset64_q (st : Strand) (n : Nat) (x : DWord) : (st.sset64 n x).q = st.q := rfl
@[simp] theorem Strand.sset64_x (st : Strand) (n : Nat) (x : DWord) : (st.sset64 n x).x = st.x := rfl
@[simp] theorem Strand.sset64_xbase (st : Strand) (n : Nat) (x : DWord) : (st.sset64 n x).xbase = st.xbase := rfl
@[simp] theorem Strand.sset64_xsize (st : Strand) (n : Nat) (x : DWord) : (st.sset64 n x).xsize = st.xsize := rfl
@[simp] theorem Strand.sset64_fmt (st : Strand) (n : Nat) (x : DWord) : (st.sset64 n x).fmt = st.fmt := rfl
@[simp] theorem Strand.sset64_sts (st : Strand) (n : Nat) (x : DWord) : (st.sset64 n x).sts = st.sts := rfl
@[simp] theorem Strand.sset64_c (st : Strand) (n : Nat) (x : DWord) : (st.sset64 n x).c = st.c := rfl
@[simp] theorem Strand.sset64_pc (st : Strand) (n : Nat) (x : DWord) : (st.sset64 n x).pc = st.pc := rfl
@[simp] theorem Strand.sset64_ir (st : Strand) (n : Nat) (x : DWord) : (st.sset64 n x).ir = st.ir := rfl
@[simp] theorem Strand.sset64_mask (st : Strand) (n : Nat) (x : DWord) : (st.sset64 n x).mask = st.mask := rfl
@[simp] theorem Strand.sset64_rpc (st : Strand) (n : Nat) (x : DWord) : (st.sset64 n x).rpc = st.rpc := rfl
@[simp] theorem Strand.sset64_rpcv (st : Strand) (n : Nat) (x : DWord) : (st.sset64 n x).rpcv = st.rpcv := rfl
@[simp] theorem Strand.sset64_stack (st : Strand) (n : Nat) (x : DWord) : (st.sset64 n x).stack = st.stack := rfl
@[simp] theorem Strand.sset64_tmr (st : Strand) (n : Nat) (x : DWord) : (st.sset64 n x).tmr = st.tmr := rfl
@[simp] theorem Strand.sset64_tcmp (st : Strand) (n : Nat) (x : DWord) : (st.sset64 n x).tcmp = st.tcmp := rfl
@[simp] theorem Strand.sset64_tarmed (st : Strand) (n : Nat) (x : DWord) : (st.sset64 n x).tarmed = st.tarmed := rfl
@[simp] theorem Strand.sset64_epc (st : Strand) (n : Nat) (x : DWord) : (st.sset64 n x).epc = st.epc := rfl
@[simp] theorem Strand.sset64_emask (st : Strand) (n : Nat) (x : DWord) : (st.sset64 n x).emask = st.emask := rfl
@[simp] theorem Strand.sset64_cause (st : Strand) (n : Nat) (x : DWord) : (st.sset64 n x).cause = st.cause := rfl
@[simp] theorem Strand.sset64_frame (st : Strand) (n : Nat) (x : DWord) : (st.sset64 n x).frame = st.frame := rfl
@[simp] theorem Strand.sset64_resume (st : Strand) (n : Nat) (x : DWord) : (st.sset64 n x).resume = st.resume := rfl
@[simp] theorem Strand.sset64_pend (st : Strand) (n : Nat) (x : DWord) : (st.sset64 n x).pend = st.pend := rfl
@[simp] theorem Strand.sset64_ahead (st : Strand) (n : Nat) (x : DWord) : (st.sset64 n x).ahead = st.ahead := rfl
@[simp] theorem Strand.sset64_hold (st : Strand) (n : Nat) (x : DWord) : (st.sset64 n x).hold = st.hold := rfl
@[simp] theorem Strand.sset64_stalled (st : Strand) (n : Nat) (x : DWord) : (st.sset64 n x).stalled = st.stalled := rfl
@[simp] theorem Strand.sset64_stop (st : Strand) (n : Nat) (x : DWord) : (st.sset64 n x).stop = st.stop := rfl
@[simp] theorem Strand.sset64_doomed (st : Strand) (n : Nat) (x : DWord) : (st.sset64 n x).doomed = st.doomed := rfl
@[simp] theorem Strand.sset64_walkParked (st : Strand) (n : Nat) (x : DWord) : (st.sset64 n x).walkParked = st.walkParked := rfl
@[simp] theorem Strand.sset64_ops (st : Strand) (n : Nat) (x : DWord) : (st.sset64 n x).ops = st.ops := rfl
@[simp] theorem Strand.sset64_nextOp (st : Strand) (n : Nat) (x : DWord) : (st.sset64 n x).nextOp = st.nextOp := rfl
@[simp] theorem Strand.sset64_marks (st : Strand) (n : Nat) (x : DWord) : (st.sset64 n x).marks = st.marks := rfl
@[simp] theorem Strand.sset64_engErrs (st : Strand) (n : Nat) (x : DWord) : (st.sset64 n x).engErrs = st.engErrs := rfl
@[simp] theorem Strand.sset64_runCount (st : Strand) (n : Nat) (x : DWord) : (st.sset64 n x).runCount = st.runCount := rfl
@[simp] theorem Strand.sset64_cyc (st : Strand) (n : Nat) (x : DWord) : (st.sset64 n x).cyc = st.cyc := rfl
@[simp] theorem Strand.sset64_rdy (st : Strand) (n : Nat) (x : DWord) : (st.sset64 n x).rdy = st.rdy := rfl
@[simp] theorem Strand.sset64_waitCount (st : Strand) (n : Nat) (x : DWord) : (st.sset64 n x).waitCount = st.waitCount := rfl
@[simp] theorem Strand.sset64_waitSeq (st : Strand) (n : Nat) (x : DWord) : (st.sset64 n x).waitSeq = st.waitSeq := rfl
@[simp] theorem Strand.sset64_placedAt (st : Strand) (n : Nat) (x : DWord) : (st.sset64 n x).placedAt = st.placedAt := rfl
@[simp] theorem Strand.sset64_spin (st : Strand) (n : Nat) (x : DWord) : (st.sset64 n x).spin = st.spin := rfl
@[simp] theorem Strand.sset64_low (st : Strand) (n : Nat) (x : DWord) : (st.sset64 n x).low = st.low := rfl
@[simp] theorem Strand.sset64_due (st : Strand) (n : Nat) (x : DWord) : (st.sset64 n x).due = st.due := rfl
@[simp] theorem Strand.sset64_savedPages (st : Strand) (n : Nat) (x : DWord) : (st.sset64 n x).savedPages = st.savedPages := rfl
@[simp] theorem Strand.sset64_slots (st : Strand) (n : Nat) (x : DWord) : (st.sset64 n x).slots = st.slots := rfl
@[simp] theorem Strand.sset64_resolved (st : Strand) (n : Nat) (x : DWord) : (st.sset64 n x).resolved = st.resolved := rfl
@[simp] theorem Strand.sset64_lastCore (st : Strand) (n : Nat) (x : DWord) : (st.sset64 n x).lastCore = st.lastCore := rfl
@[simp] theorem Strand.xset_ctx (st : Strand) (k t : Nat) (x : BitVec 16) : (st.xset k t x).ctx = st.ctx := rfl
@[simp] theorem Strand.xset_kid (st : Strand) (k t : Nat) (x : BitVec 16) : (st.xset k t x).kid = st.kid := rfl
@[simp] theorem Strand.xset_iid (st : Strand) (k t : Nat) (x : BitVec 16) : (st.xset k t x).iid = st.iid := rfl
@[simp] theorem Strand.xset_sid (st : Strand) (k t : Nat) (x : BitVec 16) : (st.xset k t x).sid = st.sid := rfl
@[simp] theorem Strand.xset_role (st : Strand) (k t : Nat) (x : BitVec 16) : (st.xset k t x).role = st.role := rfl
@[simp] theorem Strand.xset_loc (st : Strand) (k t : Nat) (x : BitVec 16) : (st.xset k t x).loc = st.loc := rfl
@[simp] theorem Strand.xset_saved (st : Strand) (k t : Nat) (x : BitVec 16) : (st.xset k t x).saved = st.saved := rfl
@[simp] theorem Strand.xset_run (st : Strand) (k t : Nat) (x : BitVec 16) : (st.xset k t x).run = st.run := rfl
@[simp] theorem Strand.xset_alloc (st : Strand) (k t : Nat) (x : BitVec 16) : (st.xset k t x).alloc = st.alloc := rfl
@[simp] theorem Strand.xset_v (st : Strand) (k t : Nat) (x : BitVec 16) : (st.xset k t x).v = st.v := rfl
@[simp] theorem Strand.xset_s (st : Strand) (k t : Nat) (x : BitVec 16) : (st.xset k t x).s = st.s := rfl
@[simp] theorem Strand.xset_q (st : Strand) (k t : Nat) (x : BitVec 16) : (st.xset k t x).q = st.q := rfl
@[simp] theorem Strand.xset_xbase (st : Strand) (k t : Nat) (x : BitVec 16) : (st.xset k t x).xbase = st.xbase := rfl
@[simp] theorem Strand.xset_xsize (st : Strand) (k t : Nat) (x : BitVec 16) : (st.xset k t x).xsize = st.xsize := rfl
@[simp] theorem Strand.xset_fmt (st : Strand) (k t : Nat) (x : BitVec 16) : (st.xset k t x).fmt = st.fmt := rfl
@[simp] theorem Strand.xset_sts (st : Strand) (k t : Nat) (x : BitVec 16) : (st.xset k t x).sts = st.sts := rfl
@[simp] theorem Strand.xset_c (st : Strand) (k t : Nat) (x : BitVec 16) : (st.xset k t x).c = st.c := rfl
@[simp] theorem Strand.xset_pc (st : Strand) (k t : Nat) (x : BitVec 16) : (st.xset k t x).pc = st.pc := rfl
@[simp] theorem Strand.xset_ir (st : Strand) (k t : Nat) (x : BitVec 16) : (st.xset k t x).ir = st.ir := rfl
@[simp] theorem Strand.xset_mask (st : Strand) (k t : Nat) (x : BitVec 16) : (st.xset k t x).mask = st.mask := rfl
@[simp] theorem Strand.xset_rpc (st : Strand) (k t : Nat) (x : BitVec 16) : (st.xset k t x).rpc = st.rpc := rfl
@[simp] theorem Strand.xset_rpcv (st : Strand) (k t : Nat) (x : BitVec 16) : (st.xset k t x).rpcv = st.rpcv := rfl
@[simp] theorem Strand.xset_stack (st : Strand) (k t : Nat) (x : BitVec 16) : (st.xset k t x).stack = st.stack := rfl
@[simp] theorem Strand.xset_written (st : Strand) (k t : Nat) (x : BitVec 16) : (st.xset k t x).written = st.written := rfl
@[simp] theorem Strand.xset_tmr (st : Strand) (k t : Nat) (x : BitVec 16) : (st.xset k t x).tmr = st.tmr := rfl
@[simp] theorem Strand.xset_tcmp (st : Strand) (k t : Nat) (x : BitVec 16) : (st.xset k t x).tcmp = st.tcmp := rfl
@[simp] theorem Strand.xset_tarmed (st : Strand) (k t : Nat) (x : BitVec 16) : (st.xset k t x).tarmed = st.tarmed := rfl
@[simp] theorem Strand.xset_epc (st : Strand) (k t : Nat) (x : BitVec 16) : (st.xset k t x).epc = st.epc := rfl
@[simp] theorem Strand.xset_emask (st : Strand) (k t : Nat) (x : BitVec 16) : (st.xset k t x).emask = st.emask := rfl
@[simp] theorem Strand.xset_cause (st : Strand) (k t : Nat) (x : BitVec 16) : (st.xset k t x).cause = st.cause := rfl
@[simp] theorem Strand.xset_frame (st : Strand) (k t : Nat) (x : BitVec 16) : (st.xset k t x).frame = st.frame := rfl
@[simp] theorem Strand.xset_resume (st : Strand) (k t : Nat) (x : BitVec 16) : (st.xset k t x).resume = st.resume := rfl
@[simp] theorem Strand.xset_pend (st : Strand) (k t : Nat) (x : BitVec 16) : (st.xset k t x).pend = st.pend := rfl
@[simp] theorem Strand.xset_ahead (st : Strand) (k t : Nat) (x : BitVec 16) : (st.xset k t x).ahead = st.ahead := rfl
@[simp] theorem Strand.xset_hold (st : Strand) (k t : Nat) (x : BitVec 16) : (st.xset k t x).hold = st.hold := rfl
@[simp] theorem Strand.xset_stalled (st : Strand) (k t : Nat) (x : BitVec 16) : (st.xset k t x).stalled = st.stalled := rfl
@[simp] theorem Strand.xset_stop (st : Strand) (k t : Nat) (x : BitVec 16) : (st.xset k t x).stop = st.stop := rfl
@[simp] theorem Strand.xset_doomed (st : Strand) (k t : Nat) (x : BitVec 16) : (st.xset k t x).doomed = st.doomed := rfl
@[simp] theorem Strand.xset_walkParked (st : Strand) (k t : Nat) (x : BitVec 16) : (st.xset k t x).walkParked = st.walkParked := rfl
@[simp] theorem Strand.xset_ops (st : Strand) (k t : Nat) (x : BitVec 16) : (st.xset k t x).ops = st.ops := rfl
@[simp] theorem Strand.xset_nextOp (st : Strand) (k t : Nat) (x : BitVec 16) : (st.xset k t x).nextOp = st.nextOp := rfl
@[simp] theorem Strand.xset_marks (st : Strand) (k t : Nat) (x : BitVec 16) : (st.xset k t x).marks = st.marks := rfl
@[simp] theorem Strand.xset_engErrs (st : Strand) (k t : Nat) (x : BitVec 16) : (st.xset k t x).engErrs = st.engErrs := rfl
@[simp] theorem Strand.xset_runCount (st : Strand) (k t : Nat) (x : BitVec 16) : (st.xset k t x).runCount = st.runCount := rfl
@[simp] theorem Strand.xset_cyc (st : Strand) (k t : Nat) (x : BitVec 16) : (st.xset k t x).cyc = st.cyc := rfl
@[simp] theorem Strand.xset_rdy (st : Strand) (k t : Nat) (x : BitVec 16) : (st.xset k t x).rdy = st.rdy := rfl
@[simp] theorem Strand.xset_waitCount (st : Strand) (k t : Nat) (x : BitVec 16) : (st.xset k t x).waitCount = st.waitCount := rfl
@[simp] theorem Strand.xset_waitSeq (st : Strand) (k t : Nat) (x : BitVec 16) : (st.xset k t x).waitSeq = st.waitSeq := rfl
@[simp] theorem Strand.xset_placedAt (st : Strand) (k t : Nat) (x : BitVec 16) : (st.xset k t x).placedAt = st.placedAt := rfl
@[simp] theorem Strand.xset_spin (st : Strand) (k t : Nat) (x : BitVec 16) : (st.xset k t x).spin = st.spin := rfl
@[simp] theorem Strand.xset_low (st : Strand) (k t : Nat) (x : BitVec 16) : (st.xset k t x).low = st.low := rfl
@[simp] theorem Strand.xset_due (st : Strand) (k t : Nat) (x : BitVec 16) : (st.xset k t x).due = st.due := rfl
@[simp] theorem Strand.xset_savedPages (st : Strand) (k t : Nat) (x : BitVec 16) : (st.xset k t x).savedPages = st.savedPages := rfl
@[simp] theorem Strand.xset_slots (st : Strand) (k t : Nat) (x : BitVec 16) : (st.xset k t x).slots = st.slots := rfl
@[simp] theorem Strand.xset_resolved (st : Strand) (k t : Nat) (x : BitVec 16) : (st.xset k t x).resolved = st.resolved := rfl
@[simp] theorem Strand.xset_lastCore (st : Strand) (k t : Nat) (x : BitVec 16) : (st.xset k t x).lastCore = st.lastCore := rfl
@[simp] theorem Strand.addFlags_ctx (st : Strand) (fl : FpFlags) : (st.addFlags fl).ctx = st.ctx := rfl
@[simp] theorem Strand.addFlags_kid (st : Strand) (fl : FpFlags) : (st.addFlags fl).kid = st.kid := rfl
@[simp] theorem Strand.addFlags_iid (st : Strand) (fl : FpFlags) : (st.addFlags fl).iid = st.iid := rfl
@[simp] theorem Strand.addFlags_sid (st : Strand) (fl : FpFlags) : (st.addFlags fl).sid = st.sid := rfl
@[simp] theorem Strand.addFlags_role (st : Strand) (fl : FpFlags) : (st.addFlags fl).role = st.role := rfl
@[simp] theorem Strand.addFlags_loc (st : Strand) (fl : FpFlags) : (st.addFlags fl).loc = st.loc := rfl
@[simp] theorem Strand.addFlags_saved (st : Strand) (fl : FpFlags) : (st.addFlags fl).saved = st.saved := rfl
@[simp] theorem Strand.addFlags_run (st : Strand) (fl : FpFlags) : (st.addFlags fl).run = st.run := rfl
@[simp] theorem Strand.addFlags_alloc (st : Strand) (fl : FpFlags) : (st.addFlags fl).alloc = st.alloc := rfl
@[simp] theorem Strand.addFlags_v (st : Strand) (fl : FpFlags) : (st.addFlags fl).v = st.v := rfl
@[simp] theorem Strand.addFlags_s (st : Strand) (fl : FpFlags) : (st.addFlags fl).s = st.s := rfl
@[simp] theorem Strand.addFlags_q (st : Strand) (fl : FpFlags) : (st.addFlags fl).q = st.q := rfl
@[simp] theorem Strand.addFlags_x (st : Strand) (fl : FpFlags) : (st.addFlags fl).x = st.x := rfl
@[simp] theorem Strand.addFlags_xbase (st : Strand) (fl : FpFlags) : (st.addFlags fl).xbase = st.xbase := rfl
@[simp] theorem Strand.addFlags_xsize (st : Strand) (fl : FpFlags) : (st.addFlags fl).xsize = st.xsize := rfl
@[simp] theorem Strand.addFlags_fmt (st : Strand) (fl : FpFlags) : (st.addFlags fl).fmt = st.fmt := rfl
@[simp] theorem Strand.addFlags_c (st : Strand) (fl : FpFlags) : (st.addFlags fl).c = st.c := rfl
@[simp] theorem Strand.addFlags_pc (st : Strand) (fl : FpFlags) : (st.addFlags fl).pc = st.pc := rfl
@[simp] theorem Strand.addFlags_ir (st : Strand) (fl : FpFlags) : (st.addFlags fl).ir = st.ir := rfl
@[simp] theorem Strand.addFlags_mask (st : Strand) (fl : FpFlags) : (st.addFlags fl).mask = st.mask := rfl
@[simp] theorem Strand.addFlags_rpc (st : Strand) (fl : FpFlags) : (st.addFlags fl).rpc = st.rpc := rfl
@[simp] theorem Strand.addFlags_rpcv (st : Strand) (fl : FpFlags) : (st.addFlags fl).rpcv = st.rpcv := rfl
@[simp] theorem Strand.addFlags_stack (st : Strand) (fl : FpFlags) : (st.addFlags fl).stack = st.stack := rfl
@[simp] theorem Strand.addFlags_written (st : Strand) (fl : FpFlags) : (st.addFlags fl).written = st.written := rfl
@[simp] theorem Strand.addFlags_tmr (st : Strand) (fl : FpFlags) : (st.addFlags fl).tmr = st.tmr := rfl
@[simp] theorem Strand.addFlags_tcmp (st : Strand) (fl : FpFlags) : (st.addFlags fl).tcmp = st.tcmp := rfl
@[simp] theorem Strand.addFlags_tarmed (st : Strand) (fl : FpFlags) : (st.addFlags fl).tarmed = st.tarmed := rfl
@[simp] theorem Strand.addFlags_epc (st : Strand) (fl : FpFlags) : (st.addFlags fl).epc = st.epc := rfl
@[simp] theorem Strand.addFlags_emask (st : Strand) (fl : FpFlags) : (st.addFlags fl).emask = st.emask := rfl
@[simp] theorem Strand.addFlags_cause (st : Strand) (fl : FpFlags) : (st.addFlags fl).cause = st.cause := rfl
@[simp] theorem Strand.addFlags_frame (st : Strand) (fl : FpFlags) : (st.addFlags fl).frame = st.frame := rfl
@[simp] theorem Strand.addFlags_resume (st : Strand) (fl : FpFlags) : (st.addFlags fl).resume = st.resume := rfl
@[simp] theorem Strand.addFlags_pend (st : Strand) (fl : FpFlags) : (st.addFlags fl).pend = st.pend := rfl
@[simp] theorem Strand.addFlags_ahead (st : Strand) (fl : FpFlags) : (st.addFlags fl).ahead = st.ahead := rfl
@[simp] theorem Strand.addFlags_hold (st : Strand) (fl : FpFlags) : (st.addFlags fl).hold = st.hold := rfl
@[simp] theorem Strand.addFlags_stalled (st : Strand) (fl : FpFlags) : (st.addFlags fl).stalled = st.stalled := rfl
@[simp] theorem Strand.addFlags_stop (st : Strand) (fl : FpFlags) : (st.addFlags fl).stop = st.stop := rfl
@[simp] theorem Strand.addFlags_doomed (st : Strand) (fl : FpFlags) : (st.addFlags fl).doomed = st.doomed := rfl
@[simp] theorem Strand.addFlags_walkParked (st : Strand) (fl : FpFlags) : (st.addFlags fl).walkParked = st.walkParked := rfl
@[simp] theorem Strand.addFlags_ops (st : Strand) (fl : FpFlags) : (st.addFlags fl).ops = st.ops := rfl
@[simp] theorem Strand.addFlags_nextOp (st : Strand) (fl : FpFlags) : (st.addFlags fl).nextOp = st.nextOp := rfl
@[simp] theorem Strand.addFlags_marks (st : Strand) (fl : FpFlags) : (st.addFlags fl).marks = st.marks := rfl
@[simp] theorem Strand.addFlags_engErrs (st : Strand) (fl : FpFlags) : (st.addFlags fl).engErrs = st.engErrs := rfl
@[simp] theorem Strand.addFlags_runCount (st : Strand) (fl : FpFlags) : (st.addFlags fl).runCount = st.runCount := rfl
@[simp] theorem Strand.addFlags_cyc (st : Strand) (fl : FpFlags) : (st.addFlags fl).cyc = st.cyc := rfl
@[simp] theorem Strand.addFlags_rdy (st : Strand) (fl : FpFlags) : (st.addFlags fl).rdy = st.rdy := rfl
@[simp] theorem Strand.addFlags_waitCount (st : Strand) (fl : FpFlags) : (st.addFlags fl).waitCount = st.waitCount := rfl
@[simp] theorem Strand.addFlags_waitSeq (st : Strand) (fl : FpFlags) : (st.addFlags fl).waitSeq = st.waitSeq := rfl
@[simp] theorem Strand.addFlags_placedAt (st : Strand) (fl : FpFlags) : (st.addFlags fl).placedAt = st.placedAt := rfl
@[simp] theorem Strand.addFlags_spin (st : Strand) (fl : FpFlags) : (st.addFlags fl).spin = st.spin := rfl
@[simp] theorem Strand.addFlags_low (st : Strand) (fl : FpFlags) : (st.addFlags fl).low = st.low := rfl
@[simp] theorem Strand.addFlags_due (st : Strand) (fl : FpFlags) : (st.addFlags fl).due = st.due := rfl
@[simp] theorem Strand.addFlags_savedPages (st : Strand) (fl : FpFlags) : (st.addFlags fl).savedPages = st.savedPages := rfl
@[simp] theorem Strand.addFlags_slots (st : Strand) (fl : FpFlags) : (st.addFlags fl).slots = st.slots := rfl
@[simp] theorem Strand.addFlags_resolved (st : Strand) (fl : FpFlags) : (st.addFlags fl).resolved = st.resolved := rfl
@[simp] theorem Strand.addFlags_lastCore (st : Strand) (fl : FpFlags) : (st.addFlags fl).lastCore = st.lastCore := rfl
@[simp] theorem Strand.qset_ctx (st : Strand) (n : Nat) (m x : Mask) : (st.qset n m x).ctx = st.ctx := by
  unfold Strand.qset; split <;> rfl
@[simp] theorem Strand.qset_kid (st : Strand) (n : Nat) (m x : Mask) : (st.qset n m x).kid = st.kid := by
  unfold Strand.qset; split <;> rfl
@[simp] theorem Strand.qset_iid (st : Strand) (n : Nat) (m x : Mask) : (st.qset n m x).iid = st.iid := by
  unfold Strand.qset; split <;> rfl
@[simp] theorem Strand.qset_sid (st : Strand) (n : Nat) (m x : Mask) : (st.qset n m x).sid = st.sid := by
  unfold Strand.qset; split <;> rfl
@[simp] theorem Strand.qset_role (st : Strand) (n : Nat) (m x : Mask) : (st.qset n m x).role = st.role := by
  unfold Strand.qset; split <;> rfl
@[simp] theorem Strand.qset_loc (st : Strand) (n : Nat) (m x : Mask) : (st.qset n m x).loc = st.loc := by
  unfold Strand.qset; split <;> rfl
@[simp] theorem Strand.qset_saved (st : Strand) (n : Nat) (m x : Mask) : (st.qset n m x).saved = st.saved := by
  unfold Strand.qset; split <;> rfl
@[simp] theorem Strand.qset_run (st : Strand) (n : Nat) (m x : Mask) : (st.qset n m x).run = st.run := by
  unfold Strand.qset; split <;> rfl
@[simp] theorem Strand.qset_alloc (st : Strand) (n : Nat) (m x : Mask) : (st.qset n m x).alloc = st.alloc := by
  unfold Strand.qset; split <;> rfl
@[simp] theorem Strand.qset_v (st : Strand) (n : Nat) (m x : Mask) : (st.qset n m x).v = st.v := by
  unfold Strand.qset; split <;> rfl
@[simp] theorem Strand.qset_s (st : Strand) (n : Nat) (m x : Mask) : (st.qset n m x).s = st.s := by
  unfold Strand.qset; split <;> rfl
@[simp] theorem Strand.qset_x (st : Strand) (n : Nat) (m x : Mask) : (st.qset n m x).x = st.x := by
  unfold Strand.qset; split <;> rfl
@[simp] theorem Strand.qset_xbase (st : Strand) (n : Nat) (m x : Mask) : (st.qset n m x).xbase = st.xbase := by
  unfold Strand.qset; split <;> rfl
@[simp] theorem Strand.qset_xsize (st : Strand) (n : Nat) (m x : Mask) : (st.qset n m x).xsize = st.xsize := by
  unfold Strand.qset; split <;> rfl
@[simp] theorem Strand.qset_fmt (st : Strand) (n : Nat) (m x : Mask) : (st.qset n m x).fmt = st.fmt := by
  unfold Strand.qset; split <;> rfl
@[simp] theorem Strand.qset_sts (st : Strand) (n : Nat) (m x : Mask) : (st.qset n m x).sts = st.sts := by
  unfold Strand.qset; split <;> rfl
@[simp] theorem Strand.qset_c (st : Strand) (n : Nat) (m x : Mask) : (st.qset n m x).c = st.c := by
  unfold Strand.qset; split <;> rfl
@[simp] theorem Strand.qset_pc (st : Strand) (n : Nat) (m x : Mask) : (st.qset n m x).pc = st.pc := by
  unfold Strand.qset; split <;> rfl
@[simp] theorem Strand.qset_ir (st : Strand) (n : Nat) (m x : Mask) : (st.qset n m x).ir = st.ir := by
  unfold Strand.qset; split <;> rfl
@[simp] theorem Strand.qset_mask (st : Strand) (n : Nat) (m x : Mask) : (st.qset n m x).mask = st.mask := by
  unfold Strand.qset; split <;> rfl
@[simp] theorem Strand.qset_rpc (st : Strand) (n : Nat) (m x : Mask) : (st.qset n m x).rpc = st.rpc := by
  unfold Strand.qset; split <;> rfl
@[simp] theorem Strand.qset_rpcv (st : Strand) (n : Nat) (m x : Mask) : (st.qset n m x).rpcv = st.rpcv := by
  unfold Strand.qset; split <;> rfl
@[simp] theorem Strand.qset_stack (st : Strand) (n : Nat) (m x : Mask) : (st.qset n m x).stack = st.stack := by
  unfold Strand.qset; split <;> rfl
@[simp] theorem Strand.qset_written (st : Strand) (n : Nat) (m x : Mask) : (st.qset n m x).written = st.written := by
  unfold Strand.qset; split <;> rfl
@[simp] theorem Strand.qset_tmr (st : Strand) (n : Nat) (m x : Mask) : (st.qset n m x).tmr = st.tmr := by
  unfold Strand.qset; split <;> rfl
@[simp] theorem Strand.qset_tcmp (st : Strand) (n : Nat) (m x : Mask) : (st.qset n m x).tcmp = st.tcmp := by
  unfold Strand.qset; split <;> rfl
@[simp] theorem Strand.qset_tarmed (st : Strand) (n : Nat) (m x : Mask) : (st.qset n m x).tarmed = st.tarmed := by
  unfold Strand.qset; split <;> rfl
@[simp] theorem Strand.qset_epc (st : Strand) (n : Nat) (m x : Mask) : (st.qset n m x).epc = st.epc := by
  unfold Strand.qset; split <;> rfl
@[simp] theorem Strand.qset_emask (st : Strand) (n : Nat) (m x : Mask) : (st.qset n m x).emask = st.emask := by
  unfold Strand.qset; split <;> rfl
@[simp] theorem Strand.qset_cause (st : Strand) (n : Nat) (m x : Mask) : (st.qset n m x).cause = st.cause := by
  unfold Strand.qset; split <;> rfl
@[simp] theorem Strand.qset_frame (st : Strand) (n : Nat) (m x : Mask) : (st.qset n m x).frame = st.frame := by
  unfold Strand.qset; split <;> rfl
@[simp] theorem Strand.qset_resume (st : Strand) (n : Nat) (m x : Mask) : (st.qset n m x).resume = st.resume := by
  unfold Strand.qset; split <;> rfl
@[simp] theorem Strand.qset_pend (st : Strand) (n : Nat) (m x : Mask) : (st.qset n m x).pend = st.pend := by
  unfold Strand.qset; split <;> rfl
@[simp] theorem Strand.qset_ahead (st : Strand) (n : Nat) (m x : Mask) : (st.qset n m x).ahead = st.ahead := by
  unfold Strand.qset; split <;> rfl
@[simp] theorem Strand.qset_hold (st : Strand) (n : Nat) (m x : Mask) : (st.qset n m x).hold = st.hold := by
  unfold Strand.qset; split <;> rfl
@[simp] theorem Strand.qset_stalled (st : Strand) (n : Nat) (m x : Mask) : (st.qset n m x).stalled = st.stalled := by
  unfold Strand.qset; split <;> rfl
@[simp] theorem Strand.qset_stop (st : Strand) (n : Nat) (m x : Mask) : (st.qset n m x).stop = st.stop := by
  unfold Strand.qset; split <;> rfl
@[simp] theorem Strand.qset_doomed (st : Strand) (n : Nat) (m x : Mask) : (st.qset n m x).doomed = st.doomed := by
  unfold Strand.qset; split <;> rfl
@[simp] theorem Strand.qset_walkParked (st : Strand) (n : Nat) (m x : Mask) : (st.qset n m x).walkParked = st.walkParked := by
  unfold Strand.qset; split <;> rfl
@[simp] theorem Strand.qset_ops (st : Strand) (n : Nat) (m x : Mask) : (st.qset n m x).ops = st.ops := by
  unfold Strand.qset; split <;> rfl
@[simp] theorem Strand.qset_nextOp (st : Strand) (n : Nat) (m x : Mask) : (st.qset n m x).nextOp = st.nextOp := by
  unfold Strand.qset; split <;> rfl
@[simp] theorem Strand.qset_marks (st : Strand) (n : Nat) (m x : Mask) : (st.qset n m x).marks = st.marks := by
  unfold Strand.qset; split <;> rfl
@[simp] theorem Strand.qset_engErrs (st : Strand) (n : Nat) (m x : Mask) : (st.qset n m x).engErrs = st.engErrs := by
  unfold Strand.qset; split <;> rfl
@[simp] theorem Strand.qset_runCount (st : Strand) (n : Nat) (m x : Mask) : (st.qset n m x).runCount = st.runCount := by
  unfold Strand.qset; split <;> rfl
@[simp] theorem Strand.qset_cyc (st : Strand) (n : Nat) (m x : Mask) : (st.qset n m x).cyc = st.cyc := by
  unfold Strand.qset; split <;> rfl
@[simp] theorem Strand.qset_rdy (st : Strand) (n : Nat) (m x : Mask) : (st.qset n m x).rdy = st.rdy := by
  unfold Strand.qset; split <;> rfl
@[simp] theorem Strand.qset_waitCount (st : Strand) (n : Nat) (m x : Mask) : (st.qset n m x).waitCount = st.waitCount := by
  unfold Strand.qset; split <;> rfl
@[simp] theorem Strand.qset_waitSeq (st : Strand) (n : Nat) (m x : Mask) : (st.qset n m x).waitSeq = st.waitSeq := by
  unfold Strand.qset; split <;> rfl
@[simp] theorem Strand.qset_placedAt (st : Strand) (n : Nat) (m x : Mask) : (st.qset n m x).placedAt = st.placedAt := by
  unfold Strand.qset; split <;> rfl
@[simp] theorem Strand.qset_spin (st : Strand) (n : Nat) (m x : Mask) : (st.qset n m x).spin = st.spin := by
  unfold Strand.qset; split <;> rfl
@[simp] theorem Strand.qset_low (st : Strand) (n : Nat) (m x : Mask) : (st.qset n m x).low = st.low := by
  unfold Strand.qset; split <;> rfl
@[simp] theorem Strand.qset_due (st : Strand) (n : Nat) (m x : Mask) : (st.qset n m x).due = st.due := by
  unfold Strand.qset; split <;> rfl
@[simp] theorem Strand.qset_savedPages (st : Strand) (n : Nat) (m x : Mask) : (st.qset n m x).savedPages = st.savedPages := by
  unfold Strand.qset; split <;> rfl
@[simp] theorem Strand.qset_slots (st : Strand) (n : Nat) (m x : Mask) : (st.qset n m x).slots = st.slots := by
  unfold Strand.qset; split <;> rfl
@[simp] theorem Strand.qset_resolved (st : Strand) (n : Nat) (m x : Mask) : (st.qset n m x).resolved = st.resolved := by
  unfold Strand.qset; split <;> rfl
@[simp] theorem Strand.qset_lastCore (st : Strand) (n : Nat) (m x : Mask) : (st.qset n m x).lastCore = st.lastCore := by
  unfold Strand.qset; split <;> rfl

/-! Reads of registers after writes (R61). -/

theorem Strand.vget_vset (st : Strand) (n t n' t' : Nat) (x : Word) :
    (st.vset n t x).vget n' t' = if 16 * n' + t' = 16 * n + t then x else st.vget n' t' := cget_cput _ _ _ _
theorem Strand.sget_sset (st : Strand) (n n' : Nat) (x : Word) :
    (st.sset n x).sget n' = if n' = n then x else st.sget n' := cget_cput _ _ _ _
theorem Strand.xget_xset (st : Strand) (k t k' t' : Nat) (x : BitVec 16) :
    (st.xset k t x).xget k' t' = if 16 * k' + t' = 16 * k + t then x else st.xget k' t' := cget_cput _ _ _ _
theorem Strand.qget_qset (st : Strand) (n n' : Nat) (m x : Mask) :
    (st.qset n m x).qget n' = if n' = n ∧ n ≠ 0 then (st.qget n &&& ~~~m) ||| (x &&& m) else st.qget n' := by
  unfold Strand.qset
  by_cases h : n = 0
  · simp [h]
  · by_cases h' : n' = n
    · subst h'; simp [h, Strand.qget]
    · simp [h, h', Strand.qget, cget_cput]
@[simp] theorem Strand.qget_zero (st : Strand) : st.qget 0 = 0xFFFF := rfl
@[simp] theorem Strand.qset_zero (st : Strand) (m x : Mask) : st.qset 0 m x = st := rfl
@[simp] theorem Strand.vget_sset (st : Strand) (n a b : Nat) (x : Word) : (st.sset n x).vget a b = st.vget a b := rfl
@[simp] theorem Strand.vget_qset (st : Strand) (n a b : Nat) (m x : Mask) : (st.qset n m x).vget a b = st.vget a b := by
  simp [Strand.vget]
@[simp] theorem Strand.vget_addFlags (st : Strand) (fl : FpFlags) (a b : Nat) : (st.addFlags fl).vget a b = st.vget a b := rfl
@[simp] theorem Strand.sget_vset (st : Strand) (n t a : Nat) (x : Word) : (st.vset n t x).sget a = st.sget a := rfl
@[simp] theorem Strand.sget_qset (st : Strand) (n a : Nat) (m x : Mask) : (st.qset n m x).sget a = st.sget a := by
  simp [Strand.sget]
@[simp] theorem Strand.sget_addFlags (st : Strand) (fl : FpFlags) (a : Nat) : (st.addFlags fl).sget a = st.sget a := rfl
@[simp] theorem Strand.qget_vset (st : Strand) (n t a : Nat) (x : Word) : (st.vset n t x).qget a = st.qget a := rfl
@[simp] theorem Strand.qget_sset (st : Strand) (n a : Nat) (x : Word) : (st.sset n x).qget a = st.qget a := rfl
@[simp] theorem Strand.qget_addFlags (st : Strand) (fl : FpFlags) (a : Nat) : (st.addFlags fl).qget a = st.qget a := rfl
@[simp] theorem Strand.xget_vset (st : Strand) (n t a b : Nat) (x : Word) : (st.vset n t x).xget a b = st.xget a b := rfl
@[simp] theorem Strand.xget_sset (st : Strand) (n a b : Nat) (x : Word) : (st.sset n x).xget a b = st.xget a b := rfl
@[simp] theorem Strand.xget_addFlags (st : Strand) (fl : FpFlags) (a b : Nat) : (st.addFlags fl).xget a b = st.xget a b := rfl
@[simp] theorem Strand.xget_qset (st : Strand) (n a b : Nat) (m x : Mask) : (st.qset n m x).xget a b = st.xget a b := by
  simp [Strand.xget]

/-! Records after their replacement. -/

theorem State.strand_putStrand (s : State) (i j : Nat) (x : Strand) :
    (s.putStrand i x).strand j = if j = i then some x else s.strand j := tget_tput _ _ _ _
@[simp] theorem State.strand_putStrand_same (s : State) (i : Nat) (x : Strand) : (s.putStrand i x).strand i = some x :=
  tget_tput_same _ _ _
@[simp] theorem State.ctx_putStrand (s : State) (i n : Nat) (x : Strand) : (s.putStrand i x).ctx n = s.ctx n := rfl
@[simp] theorem State.die_putStrand (s : State) (i d : Nat) (x : Strand) : (s.putStrand i x).die d = s.die d := rfl
@[simp] theorem State.core_putStrand (s : State) (i d c : Nat) (x : Strand) : (s.putStrand i x).core d c = s.core d c := rfl
theorem State.ctx_putCtx (s : State) (i j : Nat) (x : Ctx) : (s.putCtx i x).ctx j = if j = i then x else s.ctx j := by
  simp only [State.ctx, State.putCtx, tget_tput]; split <;> rfl
theorem State.ctx_modCtx (s : State) (i j : Nat) (g : Ctx → Ctx) :
    (s.modCtx i g).ctx j = if j = i then g (s.ctx i) else s.ctx j := State.ctx_putCtx _ _ _ _
@[simp] theorem State.ctx_modCtx_same (s : State) (i : Nat) (g : Ctx → Ctx) : (s.modCtx i g).ctx i = g (s.ctx i) := by
  simp [State.ctx_modCtx]
@[simp] theorem State.strand_modCtx (s : State) (n i : Nat) (g : Ctx → Ctx) : (s.modCtx n g).strand i = s.strand i := rfl
@[simp] theorem State.strand_modDie (s : State) (d i : Nat) (g : Die → Die) : (s.modDie d g).strand i = s.strand i := rfl
@[simp] theorem State.strand_modCore (s : State) (d c i : Nat) (g : Core → Core) : (s.modCore d c g).strand i = s.strand i := rfl
@[simp] theorem State.strand_freeLane (s : State) (x : Strand) (i j : Nat) (b : Bool) :
    (s.freeLane x i b).strand j = s.strand j := rfl

theorem nth_modAt {α : Type} (d : α) (l : List α) (i j : Nat) (g : α → α) :
    nth d (modAt l i g) j = if j = i ∧ i < l.length then g (nth d l i) else nth d l j := by
  unfold modAt nth
  by_cases h : i < l.length
  · rw [List.getElem?_eq_getElem h]
    simp only [List.getD_eq_getElem?_getD, List.getElem?_set, h, and_true, if_true]
    by_cases hj : j = i
    · subst hj; simp [h]
    · simp [hj, Ne.symm hj]
  · rw [List.getElem?_eq_none (by omega)]
    simp [h]

theorem State.die_modDie (s : State) (d j : Nat) (g : Die → Die) :
    (s.modDie d g).die j = if j = d ∧ d < s.dies.length then g (s.die d) else s.die j := by
  simp only [State.die, State.modDie]
  by_cases h : j = d
  · subst h; rw [nth_modAt]
  · simp [nth_modAt, h]

theorem State.core_modCore (s : State) (d c j k : Nat) (g : Core → Core) :
    (s.modCore d c g).core j k =
      if j = d ∧ d < s.dies.length ∧ k = c ∧ c < (s.die d).cores.length then g (s.core d c) else s.core j k := by
  simp only [State.core, State.modCore, State.die_modDie]
  by_cases h : j = d ∧ d < s.dies.length
  · rw [if_pos h]
    simp only [nth_modAt]
    obtain ⟨rfl, h2⟩ := h
    by_cases hk : k = c ∧ c < (s.die j).cores.length
    · rw [if_pos hk, if_pos ⟨rfl, h2, hk⟩]
    · rw [if_neg hk, if_neg (fun x => hk x.2.2)]
  · rw [if_neg h, if_neg (fun x => h ⟨x.1, x.2.1⟩)]

@[simp] theorem State.modDie_length (s : State) (d : Nat) (g : Die → Die) : (s.modDie d g).dies.length = s.dies.length :=
  modAt_length _ _ _
@[simp] theorem State.modCore_length (s : State) (d c : Nat) (g : Core → Core) :
    (s.modCore d c g).dies.length = s.dies.length := modAt_length _ _ _

/-- A change of a core leaves the die as it is but for its cores. -/
theorem State.die_modCore (s : State) (d c j : Nat) (g : Core → Core) :
    { (s.modCore d c g).die j with cores := [] } = { s.die j with cores := [] } := by
  simp only [State.modCore, State.die_modDie]
  split
  · next h => rw [h.1]
  · rfl

end Sys2Proof.Machine
end

