-- ==== Sys2Proof/Laws/Issue.lean ====
section
/-! SUPPORT. What the checks of issue and the end of an instruction do. -/

namespace Sys2Proof.Machine

/-- An instruction that passes every check is executed for the threads of `nowAdm`. -/
theorem issue_go {i : Instr} {sp : OpSpec} {f : LFields} {pre : Strand → Mask → Option Nat} {s : State} {id : Nat}
    {st : Strand} (h : Passes i sp f pre s id st) :
    issue i sp f pre s = .go { id := id, st := st, adm := st.nowAdm sp f } := by
  have hpre := h.entry
  have hfree : ((st.usedRegs sp f (st.nowAdm sp f)).any fun r => st.outstanding.contains r) = false := by
    simpa using h.free
  have hsc := h.ready
  unfold issue
  simp only [h.cur, h.here]
  split
  · next hz =>
    simp only [Bool.and_eq_true, beq_iff_eq] at hz
    rw [Strand.nowAdm, if_pos hz.2, hz.1.2]
  · have hpriv : (sp.priv && !s.priv st.ctx) = false := by
      cases hp : sp.priv <;> simp [hp, h.privilege]
    simp only [h.encoding, hpriv, h.allocated, h.apart, hpre, h.role, hfree, Bool.not_true, Bool.false_eq_true, if_false]
    by_cases hs : s.score st.ctx = true
    · simp [hs, hsc hs]
    · simp [hs]

theorem core_freeLane (s : State) (st : Strand) (id d c : Nat) (b : Bool) :
    ((s.freeLane st id b).core d c).bare = (s.core d c).bare := by
  simp only [State.freeLane, State.core_modCore]
  split
  · next h =>
    obtain ⟨rfl, -, rfl, -⟩ := h
    split <;> rfl
  · rfl

theorem die_freeLane (s : State) (st : Strand) (id d : Nat) (b : Bool) :
    ((s.freeLane st id b).die d).bare = (s.die d).bare := State.die_modCore _ _ _ _ _

theorem onlyStrand_putStrand (s : State) (id : Nat) (w : Strand) : OnlyStrand s (s.putStrand id w) id where
  mem _ := rfl
  view _ _ _ := rfl
  strands j h := by simp [State.strand_putStrand, h]
  dies := ⟨rfl, fun _ => rfl⟩
  cores _ _ := rfl
  rest := rfl

theorem coreGet_congr {s t : State} (d c a : Nat) (hm : cget t.mem a = cget s.mem a)
    (hd : (t.die d).copies = (s.die d).copies) (hc : (t.core d c).l1 = (s.core d c).l1) :
    t.coreGet d c a = s.coreGet d c a := by
  simp only [State.coreGet, State.dieGet, hm, hd, hc]

theorem onlyStrand_freeLane (s : State) (st : Strand) (id : Nat) (b : Bool) : OnlyStrand s (s.freeLane st id b) id where
  mem _ := rfl
  view d c a := coreGet_congr d c a rfl
    (by have h := congrArg Die.copies (die_freeLane s st id d b); exact h)
    (by have h := congrArg Core.l1 (core_freeLane s st id d c b); exact h)
  strands _ _ := rfl
  dies := ⟨State.modCore_length _ _ _ _, fun d => die_freeLane s st id d b⟩
  cores d c := core_freeLane s st id d c b
  rest := rfl

theorem OnlyStrand.trans {s t u : State} {id : Nat} (h : OnlyStrand s t id) (k : OnlyStrand t u id) : OnlyStrand s u id where
  mem a := (k.mem a).trans (h.mem a)
  view d c a := (k.view d c a).trans (h.view d c a)
  strands j hj := (k.strands j hj).trans (h.strands j hj)
  dies := ⟨k.dies.1.trans h.dies.1, fun d => (k.dies.2 d).trans (h.dies.2 d)⟩
  cores d c := (k.cores d c).trans (h.cores d c)
  rest := k.rest.trans h.rest

theorem onlyStrand_refl (s : State) (id : Nat) : OnlyStrand s s id :=
  ⟨fun _ => rfl, fun _ _ _ => rfl, fun _ _ => rfl, ⟨rfl, fun _ => rfl⟩, fun _ _ => rfl, rfl⟩

/-- The end of an instruction: what `Ends` says. -/
theorem ends_retire (s : State) (id : Nat) (st u : Strand) (dn : Done) (hr : u.runCount = st.runCount) :
    Ends s (s.retire id u dn) id st u dn.len dn.xfer dn.e dn.ends := by
  unfold State.retire State.retireWith
  refine ⟨?_, u.behind (s.die u.d).clk dn fun st => st.advance dn.len dn.xfer, ?_, ?_, ?_⟩
  · refine OnlyStrand.trans ?_ (onlyStrand_putStrand _ _ _)
    split
    · exact onlyStrand_freeLane _ _ _ _
    · exact onlyStrand_refl _ _
  · exact State.strand_putStrand_same _ _ _
  · simp only [Strand.plain, Strand.behind, Strand.endSts, Strand.runFull, hr]
    cases dn.e <;> cases dn.ends <;> simp
  · simp only [Strand.runEnds, Strand.behind, Strand.runOver, hr]
    rfl

end Sys2Proof.Machine
end

