-- ==== Sys2Proof/Laws/Vec.lean ====
section
/-! SUPPORT. The pass of a per-thread instruction, thread by thread and element by element (R57 to R59). -/

namespace Sys2Proof.Machine

/-- The registers whose slots an operand field reads for thread t. -/
def Strand.opReads (st : Strand) (f : LFields) (r : Fld) (x e t : Nat) : List Nat :=
  match r.k with
  | .zero | .raw | .lit _ _ | .idx | .q | .q1 => []
  | _ =>
    if x < 0x80 then (List.range r.n).map fun i => x + (if r.block then blockOff f e else 0) + i
    else if x < 0xC0 then []
    else if x < 0xC8 then (st.resolve (x - 0xC0) t).toList
    else []

/-- The registers whose slots an instruction reads for thread t of element e. -/
def Strand.inReads (st : Strand) (sp : OpSpec) (f : LFields) (e t : Nat) : List Nat :=
  st.opReads f sp.a f.a.toNat e t ++ st.opReads f sp.b f.b.toNat e t ++
    (if sp.c.rd then st.opReads f sp.c f.c.toNat e t else []) ++
    (if sp.d.rd then st.opReads f sp.d f.d.toNat e t else [])

/-- Two strands agree on everything but vector slots, predicate bits and flags. -/
def Strand.SameCore (u st : Strand) : Prop := u = { st with v := u.v, q := u.q, sts := u.sts }

theorem Strand.SameCore.refl (st : Strand) : st.SameCore st := rfl

theorem Strand.SameCore.trans {a b c : Strand} (h : a.SameCore b) (k : b.SameCore c) : a.SameCore c := by
  unfold Strand.SameCore at *
  rw [h, k]

theorem Strand.SameCore.sget {u st : Strand} (h : u.SameCore st) (n : Nat) : u.sget n = st.sget n := by
  unfold Strand.SameCore at h; rw [h]; rfl
theorem Strand.SameCore.resolve {u st : Strand} (h : u.SameCore st) (k t : Nat) : u.resolve k t = st.resolve k t := by
  unfold Strand.SameCore at h; rw [h]; rfl
theorem Strand.SameCore.destReg {u st : Strand} (h : u.SameCore st) (sp : OpSpec) (f : LFields) (e t : Nat) :
    u.destReg sp f e t = st.destReg sp f e t := by
  unfold Strand.SameCore at h; rw [h]; rfl

/-- An operand depends on the slots it reads, on the thread's predicate bits and on nothing else that a pass changes. -/
theorem operand_congr {u st : Strand} (h : u.SameCore st) (f : LFields) (r : Fld) (x : Nat) (ty : OTy) (e t : Nat)
    (hv : ∀ n ∈ st.opReads f r x e t, u.vget n t = st.vget n t)
    (hq : ∀ k, mHas (u.qget k) t = mHas (st.qget k) t) :
    u.operand f r x ty e t = st.operand f r x ty e t := by
  unfold Strand.operand Strand.opReads at *
  have hs : ∀ n, u.sget n = st.sget n := h.sget
  have hr : ∀ k, u.resolve k t = st.resolve k t := fun k => h.resolve k t
  cases hk : r.k <;> simp only [hk, hs, hr, hq] at hv ⊢
  all_goals
    by_cases h1 : x < 0x80
    · simp only [h1, if_true, List.mem_map, List.mem_range, forall_exists_index, and_imp] at hv ⊢
      congr 1
      apply List.map_congr_left
      intro i hi
      exact hv _ i (List.mem_range.mp hi) rfl
    · simp only [h1, if_false] at hv ⊢
      by_cases h2 : x < 0xC0
      · simp only [h2, if_true]
      · simp only [h2, if_false] at hv ⊢
        by_cases h3 : x < 0xC8
        · simp only [h3, if_true] at hv ⊢
          cases hx : st.resolve (x - 192) t with
          | none => rfl
          | some n =>
            simp only [hx, Option.toList_some, List.mem_singleton, forall_eq] at hv
            simp only [hv]
        · simp only [h3, if_false]

theorem inputs_congr {u st : Strand} (h : u.SameCore st) (sp : OpSpec) (f : LFields) (vd : VecDef) (e t : Nat)
    (hv : ∀ n ∈ st.inReads sp f e t, u.vget n t = st.vget n t)
    (hq : ∀ k, mHas (u.qget k) t = mHas (st.qget k) t) :
    u.inputs sp f vd e t = st.inputs sp f vd e t := by
  unfold Strand.inputs
  unfold Strand.inReads at hv
  simp only [List.mem_append] at hv
  rw [operand_congr h f sp.a _ vd.ta e t (fun n hn => hv n (.inl (.inl (.inl hn)))) hq,
    operand_congr h f sp.b _ vd.tb e t (fun n hn => hv n (.inl (.inl (.inr hn)))) hq]
  by_cases hc : sp.c.rd = true
  · rw [operand_congr h f sp.c _ vd.tc e t (fun n hn => hv n (.inl (.inr (by simpa [hc] using hn)))) hq]
    by_cases hd : sp.d.rd = true
    · rw [operand_congr h f sp.d _ vd.ta e t (fun n hn => hv n (.inr (by simpa [hd] using hn))) hq]
    · simp only [hd]; rfl
  · simp only [hc]
    by_cases hd : sp.d.rd = true
    · rw [operand_congr h f sp.d _ vd.ta e t (fun n hn => hv n (.inr (by simpa [hd] using hn))) hq]
      rfl
    · simp only [hd]; rfl

/-- The words of a result in consecutive registers of one thread. -/
theorem vget_words (st : Strand) (l : List Word) (n t b a : Nat) (t' : Nat) (ht : t < 16) (ht' : t' < 16) :
    ((l.zipIdx b).foldl (fun st p => st.vset (n + p.2) t p.1) st).vget a t' =
      if t' = t ∧ n + b ≤ a ∧ a < n + b + l.length then nth 0 l (a - (n + b)) else st.vget a t' := by
  induction l generalizing st b with
  | nil => simp <;> intros <;> omega
  | cons x r ih =>
    rw [List.zipIdx_cons, List.foldl_cons, ih]
    simp only [Strand.vget_vset, List.length_cons]
    by_cases h : t' = t
    · subst h
      by_cases ha : a = n + b
      · subst ha
        rw [if_neg (by omega), if_pos (by omega), if_pos (by omega)]
        simp [nth]
      · by_cases h2 : n + (b + 1) ≤ a ∧ a < n + (b + 1) + r.length
        · rw [if_pos ⟨rfl, h2⟩, if_pos (by omega)]
          have : a - (n + b) = (a - (n + (b + 1))) + 1 := by omega
          rw [this]; simp [nth]
        · rw [if_neg (by omega), if_neg (by omega), if_neg (by omega)]
    · rw [if_neg (by omega), if_neg (by omega), if_neg (by omega)]

theorem sameCore_words (st : Strand) (l : List (Word × Nat)) (n t : Nat) :
    Strand.SameCore (l.foldl (fun st p => st.vset (n + p.2) t p.1) st) st ∧
    (l.foldl (fun st p => st.vset (n + p.2) t p.1) st).sts = st.sts ∧
    ∀ k, (l.foldl (fun st p => st.vset (n + p.2) t p.1) st).qget k = st.qget k := by
  induction l generalizing st with
  | nil => exact ⟨rfl, rfl, fun _ => rfl⟩
  | cons p r ih =>
    obtain ⟨h1, h2, h3⟩ := ih (st.vset (n + p.2) t p.1)
    exact ⟨h1.trans rfl, h2, fun k => h3 k⟩

theorem getLsbD_one_shift (t i : Nat) (hi : i < 16) : (1#16 <<< t).getLsbD i = decide (i = t) := by
  simp only [BitVec.getLsbD_shiftLeft, BitVec.getLsbD_one, hi]
  by_cases h : i = t
  · subst h; simp
  · by_cases h2 : i < t <;> simp [h, h2]; omega

/-- One bit written to one predicate. -/
theorem mHas_qset (st : Strand) (k n t t' : Nat) (b : Bool) (ht' : t' < 16) :
    mHas ((st.qset k (1#16 <<< t) (if b then 0xFFFF else 0)).qget n) t' =
      if n = k ∧ k ≠ 0 ∧ t' = t then b else mHas (st.qget n) t' := by
  rw [Strand.qget_qset]
  by_cases h : n = k ∧ k ≠ 0
  · rw [if_pos h]
    obtain ⟨rfl, hk⟩ := h
    simp only [mHas, BitVec.getLsbD_or, BitVec.getLsbD_and, BitVec.getLsbD_not, getLsbD_one_shift _ _ ht', ht']
    by_cases hx : t' = t
    · subst hx
      cases b
      · simp [hk]
      · have : (0xFFFF#16).getLsbD t' = true := by
          have : t' = 0 ∨ t' = 1 ∨ t' = 2 ∨ t' = 3 ∨ t' = 4 ∨ t' = 5 ∨ t' = 6 ∨ t' = 7 ∨ t' = 8 ∨ t' = 9 ∨ t' = 10 ∨
            t' = 11 ∨ t' = 12 ∨ t' = 13 ∨ t' = 14 ∨ t' = 15 := by omega
          rcases this with h | h | h | h | h | h | h | h | h | h | h | h | h | h | h | h <;> subst h <;> rfl
        simp [hk, this]
    · simp [hx]
  · rw [if_neg h, if_neg (fun x => h ⟨x.1, x.2.1⟩)]

theorem getLsbD_stsAdd (w : Word) (fl : FpFlags) (k : Nat) :
    (stsAdd w fl).getLsbD k = true ↔ w.getLsbD k = true ∨ (fl.zeroExtend 32 : Word).getLsbD k = true := by
  simp [stsAdd]

/-- What one thread's results do to a strand. -/
structure Wrote (sp : OpSpec) (f : LFields) (o : VOut) (n t : Nat) (st u : Strand) : Prop where
  core : u.SameCore st
  v : ∀ a t', t' < 16 → u.vget a t' =
    if t' = t ∧ n ≤ a ∧ a < n + o.d.length then nth 0 o.d (a - n) else st.vget a t'
  q : ∀ k t', t' < 16 → mHas (u.qget k) t' =
    if k = predReg sp f ∧ k ≠ 0 ∧ t' = t then (match o.q with
      | some b => b
      | none => mHas (st.qget k) t') else mHas (st.qget k) t'
  sts : ∀ k, u.sts.getLsbD k = true ↔ st.sts.getLsbD k = true ∨ (o.flags.zeroExtend 32 : Word).getLsbD k = true

theorem wrote (sp : OpSpec) (f : LFields) (o : VOut) (n t : Nat) (st : Strand) (ht : t < 16) :
    Wrote sp f o n t st ((st.writeOut sp f o n t).addFlags o.flags) := by
  obtain ⟨h1, h2, h3⟩ := sameCore_words st o.d.zipIdx n t
  have hv : ∀ a t', t' < 16 → (o.d.zipIdx.foldl (fun st p => st.vset (n + p.2) t p.1) st).vget a t' =
      if t' = t ∧ n ≤ a ∧ a < n + o.d.length then nth 0 o.d (a - n) else st.vget a t' :=
    fun a t' ht' => vget_words st o.d n t 0 a t' ht ht'
  generalize hw : o.d.zipIdx.foldl (fun st p => st.vset (n + p.2) t p.1) st = w at h1 h2 h3 hv
  unfold Strand.writeOut
  rw [hw]
  cases hq : o.q with
  | none =>
    refine ⟨?_, fun a t' ht' => hv a t' ht', fun k t' _ => ?_, fun k => ?_⟩
    · exact Strand.SameCore.trans rfl h1
    · simp only [Strand.qget_addFlags, h3, hq, ite_self]
    · rw [← h2]; exact getLsbD_stsAdd _ _ _
  | some b =>
    refine ⟨?_, fun a t' ht' => ?_, fun k t' ht' => ?_, fun k => ?_⟩
    · refine Strand.SameCore.trans (b := w) ?_ h1
      unfold Strand.SameCore
      simp only [Strand.qset]
      split <;> rfl
    · simp only [Strand.vget_addFlags, Strand.vget_qset]; exact hv a t' ht'
    · simp only [Strand.qget_addFlags, hq]
      rw [mHas_qset _ _ _ _ _ _ ht', h3]
      by_cases hk : k = predReg sp f ∧ predReg sp f ≠ 0 ∧ t' = t
      · rw [if_pos hk, if_pos ⟨hk.1, hk.1 ▸ hk.2.1, hk.2.2⟩]
      · rw [if_neg hk, if_neg (fun (x : k = predReg sp f ∧ k ≠ 0 ∧ t' = t) => hk ⟨x.1, x.1 ▸ x.2.1, x.2.2⟩)]
    · have : (w.qset (predReg sp f) (1#16 <<< t) (if b then 0xFFFF else 0)).sts = w.sts := Strand.qset_sts _ _ _ _
      rw [← h2, ← this]; exact getLsbD_stsAdd _ _ _

/-- The slot a of thread t after the results `O`. -/
def slotAfter (O : Nat → Option (VOut × Nat)) (st : Strand) (a t : Nat) : Word :=
  match O t with
  | some (o, n) => if n ≤ a ∧ a < n + o.d.length then nth 0 o.d (a - n) else st.vget a t
  | none => st.vget a t

/-- The bit of thread t in predicate k after the results `O`. -/
def bitAfter (O : Nat → Option (VOut × Nat)) (sp : OpSpec) (f : LFields) (st : Strand) (k t : Nat) : Bool :=
  if k = predReg sp f ∧ k ≠ 0 then
    match O t with
    | some (o, _) => o.q.getD (mHas (st.qget k) t)
    | none => mHas (st.qget k) t
  else mHas (st.qget k) t

/-- What the results `O` of the threads of one element do to a strand. -/
structure Written (O : Nat → Option (VOut × Nat)) (sp : OpSpec) (f : LFields) (st u : Strand) : Prop where
  core : u.SameCore st
  v : ∀ a t, t < 16 → u.vget a t = slotAfter O st a t
  q : ∀ k t, t < 16 → mHas (u.qget k) t = bitAfter O sp f st k t
  sts : ∀ k, u.sts.getLsbD k = true ↔ st.sts.getLsbD k = true ∨
    ∃ t o n, O t = some (o, n) ∧ (o.flags.zeroExtend 32 : Word).getLsbD k = true

theorem written_none {O : Nat → Option (VOut × Nat)} (h : ∀ t, O t = none) (sp : OpSpec) (f : LFields) (st : Strand) :
    Written O sp f st st where
  core := rfl
  v a t _ := by simp [slotAfter, h]
  q k t _ := by simp [bitAfter, h]
  sts k := by simp [h]

theorem written_cons {sp : OpSpec} {f : LFields} {st u w : Strand} {o : VOut} {n t : Nat}
    {O P : Nat → Option (VOut × Nat)} (h : Wrote sp f o n t st u) (k : Written P sp f u w) (hP : P t = none)
    (hO : O t = some (o, n)) (hOP : ∀ i, i ≠ t → O i = P i) : Written O sp f st w where
  core := k.core.trans h.core
  v a i hi := by
    rw [k.v a i hi]
    simp only [slotAfter, h.v a i hi]
    by_cases hit : i = t
    · subst hit; rw [hP, hO]; simp
    · rw [hOP i hit]; simp [hit]
  q j i hi := by
    rw [k.q j i hi]
    simp only [bitAfter, h.q j i hi]
    by_cases hit : i = t
    · subst hit; rw [hP, hO]
      by_cases hj : j = predReg sp f ∧ j ≠ 0
      · simp only [hj, true_and, and_true]
        cases o.q <;> simp [hj.1 ▸ hj.2]
      · rw [if_neg hj, if_neg (fun x => hj ⟨x.1, x.2.1⟩), if_neg hj]
    · rw [hOP i hit]; simp [hit]
  sts j := by
    rw [k.sts, h.sts]
    constructor
    · rintro ((h1 | h1) | ⟨i, p, q, hp, hb⟩)
      · exact .inl h1
      · exact .inr ⟨t, o, n, hO, h1⟩
      · refine .inr ⟨i, p, q, ?_, hb⟩
        rw [hOP i (fun hit => by rw [hit, hP] at hp; cases hp)]; exact hp
    · rintro (h1 | ⟨i, p, q, hp, hb⟩)
      · exact .inl (.inl h1)
      · by_cases hit : i = t
        · subst hit
          rw [hO] at hp
          cases hp
          exact .inl (.inr hb)
        · exact .inr ⟨i, p, q, hOP i hit ▸ hp, hb⟩

/-- The threads of one element from a list. -/
theorem passThreads_written (sp : OpSpec) (f : LFields) (vd : VecDef) (env : FEnv) (e : Nat) (m : Mask) (l : List Nat)
    (hn : l.Nodup) (h16 : ∀ t ∈ l, t < 16) (st : Strand) (O : Nat → Option (VOut × Nat))
    (hO : ∀ t, t ∉ l ∨ mHas m t = false → O t = none)
    (hin : ∀ t ∈ l, mHas m t = true → ∃ x n, st.inputs sp f vd e t = .ok x ∧ st.destReg sp f e t = .ok n ∧
      O t = some (vd.fn env x, n)) :
    ∃ u, passThreads sp f vd env e m l st = .ok u ∧ Written O sp f st u := by
  induction l generalizing st O with
  | nil => exact ⟨st, rfl, written_none (fun t => hO t (.inl (by simp))) sp f st⟩
  | cons t r ih =>
    have hn' := List.nodup_cons.mp hn
    unfold passThreads
    by_cases hm : mHas m t = true
    · obtain ⟨x, n, hx, hd, ho⟩ := hin t (by simp) hm
      simp only [hm, Bool.not_true, Bool.false_eq_true, if_false, hx, hd]
      have hw := wrote sp f (vd.fn env x) n t st (h16 t (by simp))
      obtain ⟨u, hu, hW⟩ := ih hn'.2 (fun i hi => h16 i (by simp [hi]))
        ((st.writeOut sp f (vd.fn env x) n t).addFlags (vd.fn env x).flags) (fun i => if i = t then none else O i)
        (fun i hi => by
          by_cases hit : i = t
          · simp [hit]
          · simp only [hit, if_false]
            refine hO i ?_
            rcases hi with hi | hi
            · exact .inl (by simp [hit, hi])
            · exact .inr hi)
        (fun i hi hmi => by
          have hit : i ≠ t := fun h => hn'.1 (h ▸ hi)
          obtain ⟨y, k, hy, hk, hok⟩ := hin i (by simp [hi]) hmi
          refine ⟨y, k, ?_, ?_, by simp [hit, hok]⟩
          · rw [← hy]
            exact inputs_congr hw.core sp f vd e i (fun a _ => by rw [hw.v a i (h16 i (by simp [hi]))]; simp [hit])
              (fun j => by rw [hw.q j i (h16 i (by simp [hi]))]; simp [hit])
          · rw [hw.core.destReg]; exact hk)
      exact ⟨u, hu, written_cons hw hW (by simp) ho (fun i hi => by simp [hi])⟩
    · have hm' : mHas m t = false := by simpa using hm
      simp only [hm', Bool.not_false, if_true]
      obtain ⟨u, hu, hW⟩ := ih hn'.2 (fun i hi => h16 i (by simp [hi])) st O
        (fun i hi => by
          by_cases hit : i = t
          · subst hit; exact hO i (.inr hm')
          · refine hO i ?_
            rcases hi with hi | hi
            · exact .inl (by simp [hit, hi])
            · exact .inr hi)
        (fun i hi => hin i (by simp [hi]))
      exact ⟨u, hu, hW⟩

theorem bcastOut_written (sp : OpSpec) (f : LFields) (w : VOut) (m : Mask) (l : List Nat) (hn : l.Nodup)
    (h16 : ∀ t ∈ l, t < 16) (st : Strand) (O : Nat → Option (VOut × Nat))
    (hO : ∀ t, t ∉ l ∨ mHas m t = false → O t = none)
    (hin : ∀ t ∈ l, mHas m t = true → ∃ n, st.destReg sp f 0 t = .ok n ∧ O t = some (w, n)) :
    ∃ u, bcastOut sp f w m l st = .ok u ∧ Written O sp f st u := by
  induction l generalizing st O with
  | nil => exact ⟨st, rfl, written_none (fun t => hO t (.inl (by simp))) sp f st⟩
  | cons t r ih =>
    have hn' := List.nodup_cons.mp hn
    unfold bcastOut
    by_cases hm : mHas m t = true
    · obtain ⟨n, hd, ho⟩ := hin t (by simp) hm
      simp only [hm, Bool.not_true, Bool.false_eq_true, if_false, hd]
      have hw := wrote sp f w n t st (h16 t (by simp))
      obtain ⟨u, hu, hW⟩ := ih hn'.2 (fun i hi => h16 i (by simp [hi]))
        ((st.writeOut sp f w n t).addFlags w.flags) (fun i => if i = t then none else O i)
        (fun i hi => by
          by_cases hit : i = t
          · simp [hit]
          · simp only [hit, if_false]
            refine hO i ?_
            rcases hi with hi | hi
            · exact .inl (by simp [hit, hi])
            · exact .inr hi)
        (fun i hi hmi => by
          have hit : i ≠ t := fun h => hn'.1 (h ▸ hi)
          obtain ⟨k, hk, hok⟩ := hin i (by simp [hi]) hmi
          exact ⟨k, by rw [hw.core.destReg]; exact hk, by simp [hit, hok]⟩)
      exact ⟨u, hu, written_cons hw hW (by simp) ho (fun i hi => by simp [hi])⟩
    · have hm' : mHas m t = false := by simpa using hm
      simp only [hm', Bool.not_false, if_true]
      obtain ⟨u, hu, hW⟩ := ih hn'.2 (fun i hi => h16 i (by simp [hi])) st O
        (fun i hi => by
          by_cases hit : i = t
          · subst hit; exact hO i (.inr hm')
          · refine hO i ?_
            rcases hi with hi | hi
            · exact .inl (by simp [hit, hi])
            · exact .inr hi)
        (fun i hi => hin i (by simp [hi]))
      exact ⟨u, hu, hW⟩

/-- What the results `O` of several elements and threads do to a strand. -/
structure Writes (O : Nat → Nat → Option (VOut × Nat)) (sp : OpSpec) (f : LFields) (st u : Strand) : Prop where
  core : u.SameCore st
  words : ∀ e t o n, O e t = some (o, n) → t < 16 → ∀ j, j < o.d.length → u.vget (n + j) t = nth 0 o.d j
  kept : ∀ n t, t < 16 → (∀ e o k, O e t = some (o, k) → n < k ∨ k + o.d.length ≤ n) → u.vget n t = st.vget n t
  bit : ∀ e t o n b, O e t = some (o, n) → t < 16 → o.q = some b → predReg sp f ≠ 0 → mHas (u.qget (predReg sp f)) t = b
  bits : ∀ k t, t < 16 → (k = predReg sp f → k = 0 ∨ ∀ e o n, O e t = some (o, n) → o.q = none) →
    mHas (u.qget k) t = mHas (st.qget k) t
  flags : ∀ k, u.sts.getLsbD k = true ↔ st.sts.getLsbD k = true ∨
    ∃ e t o n, O e t = some (o, n) ∧ (o.flags.zeroExtend 32 : Word).getLsbD k = true

/-- One element alone. -/
theorem writes_of_written {O : Nat → Nat → Option (VOut × Nat)} {P : Nat → Option (VOut × Nat)} {sp : OpSpec} {f : LFields}
    {st u : Strand} (h : Written P sp f st u) (e0 : Nat) (h0 : ∀ t, O e0 t = P t) (hO : ∀ e t, e ≠ e0 → O e t = none) :
    Writes O sp f st u := by
  have only : ∀ e t x, O e t = some x → e = e0 := fun e t x hx => by
    by_cases he : e = e0
    · exact he
    · rw [hO e t he] at hx; cases hx
  refine ⟨h.core, ?_, ?_, ?_, ?_, ?_⟩
  · intro e t o n ho ht j hj
    have he := only _ _ _ ho
    subst he
    rw [h0] at ho
    rw [h.v _ _ ht, slotAfter, ho]
    simp [hj]
  · intro n t ht hk
    rw [h.v _ _ ht, slotAfter]
    split
    · next o k ho =>
      have := hk e0 o k ((h0 t).trans ho)
      rw [if_neg (by omega)]
    · rfl
  · intro e t o n b ho ht hb hz
    have he := only _ _ _ ho
    subst he
    rw [h0] at ho
    rw [h.q _ _ ht, bitAfter, ho]
    simp [hz, hb]
  · intro k t ht hk
    rw [h.q _ _ ht, bitAfter]
    split
    · next hc =>
      split
      · next o n ho =>
        rcases hk hc.1 with hz | hz
        · exact absurd hz hc.2
        · rw [hz e0 o n ((h0 t).trans ho)]; rfl
      · rfl
    · rfl
  · intro k
    rw [h.sts]
    constructor
    · rintro (h1 | ⟨t, o, n, ho, hb⟩)
      · exact .inl h1
      · exact .inr ⟨e0, t, o, n, (h0 t).trans ho, hb⟩
    · rintro (h1 | ⟨e, t, o, n, ho, hb⟩)
      · exact .inl h1
      · have he := only _ _ _ ho
        subst he
        exact .inr ⟨t, o, n, (h0 t).symm.trans ho, hb⟩

theorem writes_none {O : Nat → Nat → Option (VOut × Nat)} (h : ∀ e t, O e t = none) (sp : OpSpec) (f : LFields)
    (st : Strand) : Writes O sp f st st := by
  refine ⟨rfl, ?_, fun _ _ _ _ => rfl, ?_, fun _ _ _ _ => rfl, ?_⟩
  · intro e t o n ho; rw [h] at ho; cases ho
  · intro e t o n b ho; rw [h] at ho; cases ho
  · intro k
    constructor
    · exact .inl
    · rintro (h1 | ⟨e, t, o, n, ho, -⟩)
      · exact h1
      · rw [h] at ho; cases ho

theorem inReads_congr {u st : Strand} (h : u.SameCore st) (sp : OpSpec) (f : LFields) (e t : Nat) :
    u.inReads sp f e t = st.inReads sp f e t := by
  unfold Strand.SameCore at h; rw [h]; rfl

/-- Elements that keep clear of each other: what one writes for a thread, no other reads or writes for it. -/
structure Apart (O : Nat → Nat → Option (VOut × Nat)) (sp : OpSpec) (f : LFields) (st : Strand) (es : List Nat) : Prop where
  reads : ∀ e ∈ es, ∀ g ∈ es, e ≠ g → ∀ t o n, O g t = some (o, n) → ∀ a ∈ st.inReads sp f e t, a < n ∨ n + o.d.length ≤ a
  writes : ∀ e ∈ es, ∀ g ∈ es, e ≠ g → ∀ t o n, O g t = some (o, n) → ∀ p k, O e t = some (p, k) →
    k + p.d.length ≤ n ∨ n + o.d.length ≤ k
  bits : ∀ g ∈ es, ∀ t o n, O g t = some (o, n) → o.q = none

theorem passElems_writes (sp : OpSpec) (f : LFields) (vd : VecDef) (env : FEnv) (adm : Mask) (rs : Option Resume)
    (es : List Nat) (hn : es.Nodup) (st : Strand) (O : Nat → Nat → Option (VOut × Nat))
    (hO : ∀ e t, e ∉ es ∨ ¬ t < 16 ∨ mHas (elemMask rs adm e) t = false → O e t = none)
    (hin : ∀ e ∈ es, ∀ t < 16, mHas (elemMask rs adm e) t = true → ∃ x n, st.inputs sp f vd e t = .ok x ∧
      st.destReg sp f e t = .ok n ∧ O e t = some (vd.fn env x, n))
    (hA : Apart O sp f st es) :
    ∃ u, passElems sp f vd env adm rs es st = .ok u ∧ Writes O sp f st u := by
  induction es generalizing st O with
  | nil => exact ⟨st, rfl, writes_none (fun e t => hO e t (.inl (by simp))) sp f st⟩
  | cons e r ih =>
    have hn' := List.nodup_cons.mp hn
    unfold passElems
    obtain ⟨w, hw, hW⟩ := passThreads_written sp f vd env e (elemMask rs adm e) (List.range 16) List.nodup_range
      (fun t ht => List.mem_range.mp ht) st (O e)
      (fun t ht => hO e t (by
        rcases ht with ht | ht
        · exact .inr (.inl (by simpa using ht))
        · exact .inr (.inr ht)))
      (fun t ht hm => hin e (by simp) t (List.mem_range.mp ht) hm)
    rw [hw]
    simp only
    -- the results of the later elements
    let P : Nat → Nat → Option (VOut × Nat) := fun g t => if g = e then none else O g t
    have hq : ∀ k t, t < 16 → mHas (w.qget k) t = mHas (st.qget k) t := fun k t ht => by
      rw [hW.q k t ht, bitAfter]
      split
      · split
        · next o n ho => rw [hA.bits e (by simp) t o n ho]; rfl
        · rfl
      · rfl
    have hv : ∀ g ∈ r, ∀ t < 16, ∀ a ∈ st.inReads sp f g t, w.vget a t = st.vget a t := fun g hg t ht a ha => by
      rw [hW.v a t ht, slotAfter]
      split
      · next o n ho =>
        have := hA.reads g (by simp [hg]) e (by simp) (fun h => hn'.1 (h ▸ hg)) t o n ho a ha
        rw [if_neg (by omega)]
      · rfl
    obtain ⟨u, hu, hU⟩ := ih hn'.2 w P
      (fun g t hg => by
        by_cases hge : g = e
        · simp [P, hge]
        · simp only [P, hge, if_false]
          refine hO g t ?_
          rcases hg with hg | hg
          · exact .inl (by simp [hge, hg])
          · exact .inr hg)
      (fun g hg t ht hm => by
        have hge : g ≠ e := fun h => hn'.1 (h ▸ hg)
        obtain ⟨x, n, hx, hd, ho⟩ := hin g (by simp [hg]) t ht hm
        refine ⟨x, n, ?_, ?_, by simp [P, hge, ho]⟩
        · rw [← hx]
          exact inputs_congr hW.core sp f vd g t (hv g hg t ht) (fun k => hq k t ht)
        · rw [hW.core.destReg]; exact hd)
      { reads := fun a ha g hg hag t o n ho x hx => by
          have hge : g ≠ e := fun h => hn'.1 (h ▸ hg)
          simp only [P, hge, if_false] at ho
          exact hA.reads a (by simp [ha]) g (by simp [hg]) hag t o n ho x (by rwa [inReads_congr hW.core] at hx)
        writes := fun a ha g hg hag t o n ho p k hp => by
          have hge : g ≠ e := fun h => hn'.1 (h ▸ hg)
          have hae : a ≠ e := fun h => hn'.1 (h ▸ ha)
          simp only [P, hge, hae, if_false] at ho hp
          exact hA.writes a (by simp [ha]) g (by simp [hg]) hag t o n ho p k hp
        bits := fun g hg t o n ho => by
          have hge : g ≠ e := fun h => hn'.1 (h ▸ hg)
          simp only [P, hge, if_false] at ho
          exact hA.bits g (by simp [hg]) t o n ho }
    refine ⟨u, hu, hU.core.trans hW.core, ?_, ?_, ?_, ?_, ?_⟩
    · intro g t o n ho ht j hj
      by_cases hge : g = e
      · subst hge
        rw [hU.kept (n + j) t ht (fun b p k hp => by
          by_cases hbe : b = g
          · simp [P, hbe] at hp
          · simp only [P, hbe, if_false] at hp
            by_cases hb : b ∈ r
            · have := hA.writes b (by simp [hb]) g (by simp) hbe t o n ho p k hp
              omega
            · rw [hO b t (.inl (by simp [hbe, hb]))] at hp; cases hp)]
        rw [hW.v _ _ ht, slotAfter, ho]
        simp [hj]
      · exact hU.words g t o n (by simp [P, hge, ho]) ht j hj
    · intro n t ht hk
      rw [hU.kept n t ht (fun b p k hp => by
        by_cases hbe : b = e
        · simp [P, hbe] at hp
        · simp only [P, hbe, if_false] at hp
          exact hk b p k hp)]
      rw [hW.v n t ht, slotAfter]
      split
      · next o k ho =>
        have := hk e o k ho
        rw [if_neg (by omega)]
      · rfl
    · intro g t o n b ho ht hb hz
      have : g ∈ e :: r := by
        by_cases hg : g ∈ e :: r
        · exact hg
        · rw [hO g t (.inl hg)] at ho; cases ho
      rw [hA.bits g this t o n ho] at hb; cases hb
    · intro k t ht hk
      rw [hU.bits k t ht (fun hkp => by
        rcases hk hkp with h | h
        · exact .inl h
        · refine .inr (fun b p n hp => ?_)
          by_cases hbe : b = e
          · simp [P, hbe] at hp
          · simp only [P, hbe, if_false] at hp
            exact h b p n hp)]
      exact hq k t ht
    · intro k
      rw [hU.flags, hW.sts]
      constructor
      · rintro ((h1 | ⟨t, o, n, ho, hb⟩) | ⟨g, t, o, n, ho, hb⟩)
        · exact .inl h1
        · exact .inr ⟨e, t, o, n, ho, hb⟩
        · by_cases hge : g = e
          · simp [P, hge] at ho
          · simp only [P, hge, if_false] at ho
            exact .inr ⟨g, t, o, n, ho, hb⟩
      · rintro (h1 | ⟨g, t, o, n, ho, hb⟩)
        · exact .inl (.inl h1)
        · by_cases hge : g = e
          · subst hge; exact .inl (.inr ⟨t, o, n, ho, hb⟩)
          · exact .inr ⟨g, t, o, n, by simp [P, hge, ho], hb⟩

theorem vecResult_of_writes {sp : OpSpec} {f : LFields} {vd : VecDef} {adm : Mask} {st u : Strand}
    (h : Writes (st.vecOut sp f vd adm) sp f st u) : VecResult sp f vd adm st u := by
  have h16 : ∀ e t x, st.vecOut sp f vd adm e t = some x → t < 16 := fun e t x hx => by
    unfold Strand.vecOut at hx
    by_cases hc : e < vecElems sp f ∧ t < 16 ∧ mHas (st.vecMask sp f adm e) t = true
    · exact hc.2.1
    · rw [if_neg hc] at hx; cases hx
  exact ⟨fun e t o n ho => h.words e t o n ho (h16 _ _ _ ho), h.kept, fun e t o n b ho => h.bit e t o n b ho (h16 _ _ _ ho),
    h.bits, h.flags, h.core⟩

theorem mLow_spec (m : Mask) (h : m ≠ 0) : mLow m < 16 ∧ mHas m (mLow m) = true := by
  unfold mLow
  cases hf : (List.range 16).find? (mHas m) with
  | none =>
    exfalso
    apply h
    apply BitVec.eq_of_getLsbD_eq
    intro i hi
    have := List.find?_eq_none.mp hf i (List.mem_range.mpr hi)
    simpa [mHas] using this
  | some t =>
    exact ⟨List.mem_range.mp (List.mem_of_find?_eq_some hf), by simpa using List.find?_some hf⟩

theorem vecOut_some {st : Strand} {sp : OpSpec} {f : LFields} {vd : VecDef} {adm : Mask} {e t : Nat}
    (hc : e < vecElems sp f ∧ t < 16 ∧ mHas (st.vecMask sp f adm e) t = true)
    (h : (st.vecOut sp f vd adm e t).isSome = true) :
    ∃ x n, st.inputs sp f vd e (vecFrom sp f adm t) = .ok x ∧ st.destReg sp f e t = .ok n ∧
      st.vecOut sp f vd adm e t = some (vd.fn (FEnv.ofFmt st.fmt) x, n) := by
  unfold Strand.vecOut at h ⊢
  rw [if_pos hc] at h ⊢
  cases hx : st.inputs sp f vd e (vecFrom sp f adm t) with
  | error k => simp [hx] at h
  | ok x =>
    cases hd : st.destReg sp f e t with
    | error k => simp [hx, hd] at h
    | ok n => exact ⟨x, n, rfl, rfl, rfl⟩

theorem vecOut_none {st : Strand} {sp : OpSpec} {f : LFields} {vd : VecDef} {adm : Mask} {e t : Nat}
    (hc : ¬ (e < vecElems sp f ∧ t < 16 ∧ mHas (st.vecMask sp f adm e) t = true)) :
    st.vecOut sp f vd adm e t = none := by
  unfold Strand.vecOut; rw [if_neg hc]

/-- The whole pass: what `VecResult` says, where no window refuses and the elements keep clear of each other. -/
theorem vecPass_result (sp : OpSpec) (f : LFields) (vd : VecDef) (st : Strand) (adm : Mask)
    (hin : st.vecInside sp f vd adm)
    (hA : uniform sp f = false → elems sp f ≠ 1 →
      Apart (st.vecOut sp f vd adm) sp f st (List.range (elems sp f))) :
    ∃ u, vecPass sp f vd st adm = .ok u ∧ VecResult sp f vd adm st u := by
  unfold vecPass
  by_cases hu : uniform sp f = true
  · simp only [hu, if_true]
    have hE : vecElems sp f = 1 := by simp [vecElems, hu]
    have hM : ∀ e, st.vecMask sp f adm e = adm := fun e => by simp [Strand.vecMask, hu]
    by_cases h0 : adm = 0
    · rw [if_pos h0]
      refine ⟨st, rfl, vecResult_of_writes (writes_none (fun e t => vecOut_none ?_) sp f st)⟩
      rw [hM, h0]; simp [mHas]
    · rw [if_neg h0]
      obtain ⟨hl, hm⟩ := mLow_spec adm h0
      have hF : ∀ t, vecFrom sp f adm t = mLow adm := fun t => by simp [vecFrom, hu]
      obtain ⟨x, n, hx, -, -⟩ := vecOut_some ⟨by omega, hl, by rw [hM]; exact hm⟩ (hin 0 (mLow adm) (by omega) hl (by rw [hM]; exact hm))
      rw [hF] at hx
      simp only [hx]
      obtain ⟨u, hb, hW⟩ := bcastOut_written sp f (vd.fn (FEnv.ofFmt st.fmt) x) adm (List.range 16) List.nodup_range
        (fun t ht => List.mem_range.mp ht) st (st.vecOut sp f vd adm 0)
        (fun t ht => vecOut_none (by
          rw [hM]
          rintro ⟨-, h2, h3⟩
          rcases ht with ht | ht
          · exact ht (List.mem_range.mpr h2)
          · rw [ht] at h3; cases h3))
        (fun t ht hmt => by
          have hc : 0 < vecElems sp f ∧ t < 16 ∧ mHas (st.vecMask sp f adm 0) t = true :=
            ⟨by omega, List.mem_range.mp ht, by rw [hM]; exact hmt⟩
          obtain ⟨y, k, hy, hk, ho⟩ := vecOut_some hc (hin 0 t hc.1 hc.2.1 hc.2.2)
          rw [hF, hx] at hy
          cases hy
          exact ⟨k, hk, ho⟩)
      exact ⟨u, hb, vecResult_of_writes (writes_of_written hW 0 (fun _ => rfl) (fun e t he => vecOut_none (by
        rintro ⟨h1, -, -⟩; omega)))⟩
  · have hu' : uniform sp f = false := by simpa using hu
    simp only [hu', Bool.false_eq_true, if_false]
    have hE : vecElems sp f = elems sp f := by simp [vecElems, hu']
    have hM : ∀ e, st.vecMask sp f adm e = elemMask st.resume adm e := fun e => by simp [Strand.vecMask, hu']
    have hF : ∀ t, vecFrom sp f adm t = t := fun t => by simp [vecFrom, hu']
    have hO : ∀ e t, e ∉ List.range (elems sp f) ∨ ¬ t < 16 ∨ mHas (elemMask st.resume adm e) t = false →
        st.vecOut sp f vd adm e t = none := fun e t h => vecOut_none (by
      rw [hE, hM]
      rintro ⟨h1, h2, h3⟩
      rcases h with h | h | h
      · exact h (List.mem_range.mpr h1)
      · exact h h2
      · rw [h] at h3; cases h3)
    have hI : ∀ e ∈ List.range (elems sp f), ∀ t < 16, mHas (elemMask st.resume adm e) t = true →
        ∃ x n, st.inputs sp f vd e t = .ok x ∧ st.destReg sp f e t = .ok n ∧
          st.vecOut sp f vd adm e t = some (vd.fn (FEnv.ofFmt st.fmt) x, n) := fun e he t ht hm => by
      have hc : e < vecElems sp f ∧ t < 16 ∧ mHas (st.vecMask sp f adm e) t = true :=
        ⟨by rw [hE]; exact List.mem_range.mp he, ht, by rw [hM]; exact hm⟩
      obtain ⟨x, n, hx, hd, ho⟩ := vecOut_some hc (hin e t hc.1 hc.2.1 hc.2.2)
      rw [hF] at hx
      exact ⟨x, n, hx, hd, ho⟩
    by_cases h1 : elems sp f = 1
    · rw [h1] at hO hI ⊢
      obtain ⟨u, hb, hW⟩ := passThreads_written sp f vd (FEnv.ofFmt st.fmt) 0 (elemMask st.resume adm 0) (List.range 16)
        List.nodup_range (fun t ht => List.mem_range.mp ht) st (st.vecOut sp f vd adm 0)
        (fun t ht => hO 0 t (by
          rcases ht with ht | ht
          · exact .inr (.inl (by simpa using ht))
          · exact .inr (.inr ht)))
        (fun t ht hm => hI 0 (by simp) t (List.mem_range.mp ht) hm)
      refine ⟨u, ?_, vecResult_of_writes (writes_of_written hW 0 (fun _ => rfl) (fun e t he => hO e t (.inl (by simp; omega))))⟩
      rw [show List.range 1 = [0] from rfl]
      simp only [passElems, hb]
    · obtain ⟨u, hb, hW⟩ := passElems_writes sp f vd (FEnv.ofFmt st.fmt) adm st.resume (List.range (elems sp f))
        List.nodup_range st (st.vecOut sp f vd adm) hO hI (hA hu' h1)
      exact ⟨u, hb, vecResult_of_writes hW⟩

end Sys2Proof.Machine
end

