-- ==== Sys2Proof/Laws/VecExec.lean ====
section
/-! SUPPORT. Every per-thread instruction of the integer, FP and complex families completes with its pass. -/

namespace Sys2Proof.Machine

/-- A row of more than one element: its destination is a vector register, and each source is one register of a block or no
register of a thread. -/
def plainRow (sp : OpSpec) (f : LFields) : Bool :=
  sp.d.wr && sp.d.n == 1 && sp.d.block && decide (f.d.toNat < 0x80) &&
  [(sp.a, f.a.toNat), (sp.b, f.b.toNat), (sp.c, f.c.toNat)].all fun q => match q.1.k with
    | .zero | .raw | .lit _ _ | .q | .q1 | .idx => true
    | _ => q.1.rd && q.1.n == 1 && q.1.block && (decide (q.2 < 0xC0) || decide (0xC8 ≤ q.2))

theorem exec_vecRow {i : Instr} {r : VecRow} (h : vecRow i = some r) {s : State} {id : Nat} {st : Strand}
    (hp : Passes i r.sp r.f noPre s id st) (hr : st.nowAdm r.sp r.f ≠ 0 → r.ready st = true) :
    exec i s = execVec i r.sp r.f r.len r.vd s := by
  unfold vecRow at h
  split at h
  all_goals first
    | (cases h; rfl)
    | (cases h; done)
    | skip
  next f =>
    cases h
    change execBunpk f s = _
    unfold execBunpk
    simp only
    rw [issue_go hp]
    simp only
    rw [if_neg]
    · rfl
    · intro hc
      simp only [Bool.and_eq_true, bne_iff_ne, ne_eq] at hc
      have hx := hr hc.1
      simp only [Option.isSome_iff_ne_none] at hx
      exact hx (Option.isNone_iff_eq_none.mp hc.2)

theorem blockOff_inj {f : LFields} {e g : Nat} (h : blockOff f e = blockOff f g) : e = g := by
  have hw : 2 ^ f.w.toNat ≤ 8 := by
    have : f.w.toNat < 4 := f.w.isLt
    have : f.w.toNat = 0 ∨ f.w.toNat = 1 ∨ f.w.toNat = 2 ∨ f.w.toNat = 3 := by omega
    rcases this with h | h | h | h <;> simp [h]
  have hpos : 0 < 2 ^ f.w.toNat := Nat.two_pow_pos _
  simp only [blockOff] at h
  have h1 := Nat.mod_lt e hpos
  have h2 := Nat.mod_lt g hpos
  have hd : e / 2 ^ f.w.toNat = g / 2 ^ f.w.toNat := by omega
  have hm : e % 2 ^ f.w.toNat = g % 2 ^ f.w.toNat := by omega
  rw [← Nat.div_add_mod e (2 ^ f.w.toNat), ← Nat.div_add_mod g (2 ^ f.w.toNat), hd, hm]

theorem vecOut_eq {st : Strand} {sp : OpSpec} {f : LFields} {vd : VecDef} {adm : Mask} {e t : Nat} {o : VOut} {n : Nat}
    (h : st.vecOut sp f vd adm e t = some (o, n)) :
    ∃ x, st.inputs sp f vd e (vecFrom sp f adm t) = .ok x ∧ o = vd.fn (FEnv.ofFmt st.fmt) x ∧
      st.destReg sp f e t = .ok n := by
  unfold Strand.vecOut at h
  split at h
  · split at h
    · next x k hx hk => cases h; exact ⟨x, hx, rfl, hk⟩
    · cases h
  · cases h

/-- The registers that a field of a plain row reads in an element. -/
theorem opReads_plain {st : Strand} {f : LFields} {r : Fld} {x e t a : Nat}
    (h : (match r.k with
      | .zero | .raw | .lit _ _ | .q | .q1 | .idx => true
      | _ => r.rd && r.n == 1 && r.block && (decide (x < 0xC0) || decide (0xC8 ≤ x))) = true)
    (ha : a ∈ st.opReads f r x e t) :
    x < 0x80 ∧ a = x + blockOff f e ∧ r.rd = true ∧ r.n = 1 ∧ r.block = true ∧ r.k ≠ .q ∧ r.k ≠ .q1 ∧ r.k ≠ .raw ∧
      ∀ lo hi, r.k ≠ .lit lo hi := by
  unfold Strand.opReads at ha
  have key : ∀ k, r.k = k → (k ≠ .q ∧ k ≠ .q1 ∧ k ≠ .raw ∧ ∀ lo hi, k ≠ .lit lo hi) →
      (r.rd && r.n == 1 && r.block && (decide (x < 0xC0) || decide (0xC8 ≤ x))) = true →
      (a ∈ (if x < 0x80 then (List.range r.n).map fun i => x + (if r.block then blockOff f e else 0) + i
        else if x < 0xC0 then [] else if x < 0xC8 then (st.resolve (x - 0xC0) t).toList else [])) →
      x < 0x80 ∧ a = x + blockOff f e ∧ r.rd = true ∧ r.n = 1 ∧ r.block = true ∧ r.k ≠ .q ∧ r.k ≠ .q1 ∧ r.k ≠ .raw ∧
        ∀ lo hi, r.k ≠ .lit lo hi := by
    intro k hk hne hh hm
    simp only [Bool.and_eq_true, Bool.or_eq_true, decide_eq_true_eq, beq_iff_eq] at hh
    obtain ⟨⟨⟨h1, h2⟩, h3⟩, h4⟩ := hh
    by_cases hx : x < 0x80
    · simp only [hx, if_true, h2, h3, List.mem_map, List.mem_range] at hm
      obtain ⟨i, hi, rfl⟩ := hm
      have : i = 0 := by omega
      subst this
      exact ⟨hx, by simp, h1, h2, h3, hk ▸ hne⟩
    · simp only [hx, if_false] at hm
      by_cases hc : x < 0xC0
      · simp [hc] at hm
      · simp only [hc, if_false] at hm
        rw [if_neg (by omega)] at hm
        cases hm
  cases hk : r.k <;> simp only [hk] at h ha
  all_goals first
    | cases ha
    | exact hk ▸ key _ hk (by simp) h ha

theorem apart_of_plain {sp : OpSpec} {f : LFields} {vd : VecDef} {st : Strand} {adm : Mask}
    (hp : plainRow sp f = true) (ho : overlapOk sp f = true) (h1 : elems sp f ≠ 1)
    (hf : ∀ env x, (vd.fn env x).q = none ∧ (vd.fn env x).d.length ≤ 1) :
    Apart (st.vecOut sp f vd adm) sp f st (List.range (elems sp f)) := by
  unfold plainRow at hp
  simp only [Bool.and_eq_true, beq_iff_eq, decide_eq_true_eq, List.all_cons, List.all_nil, and_true] at hp
  obtain ⟨⟨⟨⟨hwr, hn⟩, hb⟩, hd⟩, ha, hbb, hc⟩ := hp
  have hdest : ∀ e t o n, st.vecOut sp f vd adm e t = some (o, n) →
      n = f.d.toNat + blockOff f e ∧ o.q = none ∧ o.d.length ≤ 1 := by
    intro e t o n h
    obtain ⟨x, -, rfl, hk⟩ := vecOut_eq h
    refine ⟨?_, hf _ _⟩
    unfold Strand.destReg at hk
    have hi : isInd sp.d f.d.toNat = false := by
      unfold isInd
      have : ¬ 0xC0 ≤ f.d.toNat := by omega
      simp [this]
    simp only [hi, Bool.false_eq_true, if_false, hn, if_true] at hk
    cases hk; rfl
  have hover : ∀ q ∈ [(sp.a, f.a.toNat), (sp.b, f.b.toNat), (sp.c, f.c.toNat)], q.1.rd = true → q.1.block = true →
      q.2 < 0x80 → q.1.k ≠ .q → q.1.k ≠ .q1 → q.1.k ≠ .raw → (∀ lo hi, q.1.k ≠ .lit lo hi) →
      ∀ e < elems sp f, ∀ g < elems sp f, e ≠ g → q.2 + blockOff f e ≠ f.d.toNat + blockOff f g := by
    intro q hq hrd hbl hx k1 k2 k3 k4 e he g hg heg
    unfold overlapOk at ho
    have hnot : ¬ (elems sp f = 1 ∨ (!sp.d.wr) = true ∨ f.d.toNat ≥ 0x80) := by
      rintro (h | h | h)
      · exact h1 h
      · simp [hwr] at h
      · omega
    simp only [hnot, if_false] at ho
    have := List.all_eq_true.mp ho q hq
    have hx' : ¬ 0x80 ≤ q.2 := by omega
    simp only [hrd, hbl, Bool.not_true, Bool.and_false, Bool.false_or, hx', decide_false] at this
    have hall : ((List.range (elems sp f)).all fun e => (List.range (elems sp f)).all fun g =>
        e == g || q.2 + blockOff f e != f.d.toNat + blockOff f g) = true := by
      cases hk : q.1.k <;> simp only [hk] at this k1 k2 k3 k4
      all_goals first
        | exact this
        | exact absurd rfl k1
        | exact absurd rfl k2
        | exact absurd rfl k3
        | exact absurd rfl (k4 _ _)
    have h2 := List.all_eq_true.mp (List.all_eq_true.mp hall e (List.mem_range.mpr he)) g (List.mem_range.mpr hg)
    simpa [heg] using h2
  refine ⟨?_, ?_, ?_⟩
  · intro e he g hg heg t o n hog a hain
    obtain ⟨rfl, -, hl⟩ := hdest g t o n hog
    have he' := List.mem_range.mp he
    have hg' := List.mem_range.mp hg
    suffices a ≠ f.d.toNat + blockOff f g by omega
    unfold Strand.inReads at hain
    simp only [List.mem_append] at hain
    rcases hain with ((h | h) | h) | h
    · obtain ⟨x1, rfl, x3, -, x5, x6, x7, x8, x9⟩ := opReads_plain ha h
      exact hover (sp.a, f.a.toNat) (by simp) x3 x5 x1 x6 x7 x8 x9 e he' g hg' heg
    · obtain ⟨x1, rfl, x3, -, x5, x6, x7, x8, x9⟩ := opReads_plain hbb h
      exact hover (sp.b, f.b.toNat) (by simp) x3 x5 x1 x6 x7 x8 x9 e he' g hg' heg
    · split at h
      · obtain ⟨x1, rfl, x3, -, x5, x6, x7, x8, x9⟩ := opReads_plain hc h
        exact hover (sp.c, f.c.toNat) (by simp) x3 x5 x1 x6 x7 x8 x9 e he' g hg' heg
      · cases h
    · split at h
      · next hrd =>
        have hm : a = f.d.toNat + blockOff f e := by
          unfold Strand.opReads at h
          cases hk : sp.d.k <;> simp only [hk, hd, hb, hn, if_true, List.range_one, List.map_cons, List.map_nil,
            List.mem_singleton, Nat.add_zero, List.not_mem_nil] at h
          all_goals exact h
        rw [hm]
        intro hx
        exact heg (blockOff_inj (f := f) (by omega))
      · cases h
  · intro e he g hg heg t o n hog p k hpk
    obtain ⟨rfl, -, hl⟩ := hdest g t o n hog
    obtain ⟨rfl, -, hl2⟩ := hdest e t p k hpk
    have : blockOff f e ≠ blockOff f g := fun h => heg (blockOff_inj h)
    omega
  · intro g hg t o n hog
    exact (hdest g t o n hog).2.1

/-- A field whose rule makes a row plain. -/
def Fld.simple (r : Fld) : Bool := match r.k with
  | .zero | .raw | .lit _ _ | .q | .q1 | .idx => true
  | .vs => false
  | _ => r.rd && r.n == 1

theorem plain_field {r : Fld} {x : Nat} (h : r.simple = true) (hok : r.ok x = true) (hi : isInd r x = false) :
    (match r.k with
      | .zero | .raw | .lit _ _ | .q | .q1 | .idx => true
      | _ => r.rd && r.n == 1 && r.block && (decide (x < 0xC0) || decide (0xC8 ≤ x))) = true := by
  unfold Fld.ok FldK.ok at hok
  unfold isInd at hi
  unfold Fld.simple at h
  cases hk : r.k <;> simp only [hk] at h hok hi ⊢
  all_goals first
    | rfl
    | cases h
    | (simp only [Bool.and_eq_true, beq_iff_eq] at h
       simp [Fld.block, hk, h.1, h.2] at hok hi ⊢
       omega)

theorem plain_of_ok {sp : OpSpec} {f : LFields} (hok : sp.ok f = true) (h1 : elems sp f ≠ 1)
    (hd : sp.d.wr = true ∧ sp.d.n = 1 ∧ (sp.d.k = .vx ∨ sp.d.k = .v))
    (ha : sp.a.simple = true) (hb : sp.b.simple = true) (hc : sp.c.simple = true) : plainRow sp f = true := by
  have hext : sp.ext = 1 := by
    unfold elems at h1
    by_cases h : sp.ext = 1
    · exact h
    · simp [h] at h1
  have hne : (f.h == 0 && f.w == 0) = false := by
    unfold elems blockLen at h1
    simp only [hext, if_true] at h1
    by_cases h : (f.h == 0 && f.w == 0) = true
    · simp only [Bool.and_eq_true, beq_iff_eq] at h
      simp [h.1, h.2] at h1
    · simpa using h
  unfold OpSpec.ok at hok
  simp only [hext, hne, Bool.false_or, Bool.and_eq_true, Bool.not_eq_true'] at hok
  obtain ⟨⟨⟨⟨⟨⟨⟨⟨⟨⟨okd, oka⟩, okb⟩, okc⟩, -⟩, -⟩, hind⟩, -⟩, -⟩, -⟩, -⟩ := hok
  simp only [Bool.or_eq_false_iff] at hind
  obtain ⟨⟨⟨id, ia⟩, ib⟩, ic⟩ := hind
  unfold plainRow
  simp only [Bool.and_eq_true, beq_iff_eq, decide_eq_true_eq, List.all_cons, List.all_nil, and_true]
  refine ⟨⟨⟨⟨hd.1, hd.2.1⟩, ?_⟩, ?_⟩, plain_field ha oka ia, plain_field hb okb ib, plain_field hc okc ic⟩
  · rcases hd.2.2 with h | h <;> simp [Fld.block, hd.2.1, h]
  · unfold Fld.ok FldK.ok at okd
    unfold isInd at id
    rcases hd.2.2 with h | h <;> simp [h, hd.2.1] at okd id <;> omega

theorem intMap_length {m3 : Nat} (h : m3 ≠ 7) (g : Nat → Nat → Nat → Nat) (a b c : List Word) :
    (intMap m3 g a b c).length ≤ 1 := by
  have : intW m3 ≠ 64 := by
    unfold intW nth
    match m3, h with
    | 0, _ | 1, _ | 2, _ | 3, _ | 4, _ | 5, _ | 6, _ => decide
    | 7, h => exact absurd rfl h
    | n + 8, _ => simp
  simp [intMap, this]

theorem m3_ne_of_elems {f : LFields} (h : w64 f ≠ 2) : f.m3.toNat ≠ 7 := by
  intro hm
  apply h
  have : f.m3 = 7 := BitVec.eq_of_toNat_eq hm
  simp [w64, this]

theorem elems_ext {sp : OpSpec} {f : LFields} (h : sp.ext ≠ 1) : elems sp f = 1 := by simp [elems, h]

theorem elems_short {sp : OpSpec} {f : LFields} (hh : f.h = 0) (hw : f.w = 0) : elems sp f = 1 := by
  simp [elems, blockLen, hh, hw]

theorem w64_of_elems {sp : OpSpec} {f : LFields} (h : sp.ext = if w64 f == 2 then 0 else 1) (h1 : elems sp f ≠ 1) :
    w64 f = 1 ∧ f.m3.toNat ≠ 7 := by
  have h2 : w64 f ≠ 2 := by
    intro hh
    exact h1 (elems_ext (by simp [h, hh]))
  refine ⟨?_, m3_ne_of_elems h2⟩
  unfold w64 at h2 ⊢
  split <;> simp_all

/-- Integer rows with one to three sources: more than one element excludes pairs. -/
theorem plain_int {sp : OpSpec} {f : LFields} {a b c : Fld} (hok : sp.ok f = true) (h1 : elems sp f ≠ 1)
    (he : sp.ext = if w64 f == 2 then 0 else 1) (hd : sp.d = fd .vx (w64 f) (w64 f) ∨ sp.d = fd .vx 1 1)
    (ha : sp.a = a) (hb : sp.b = b) (hc : sp.c = c)
    (hs : w64 f = 1 → a.simple = true ∧ b.simple = true ∧ c.simple = true) :
    plainRow sp f = true ∧ f.m3.toNat ≠ 7 := by
  obtain ⟨hw, h7⟩ := w64_of_elems he h1
  obtain ⟨sa, sb, sc⟩ := hs hw
  refine ⟨plain_of_ok hok h1 ?_ (ha ▸ sa) (hb ▸ sb) (hc ▸ sc), h7⟩
  rcases hd with h | h <;> simp [h, fd, hw]

theorem cxConvert_plain (m3 : Nat) (env : FEnv) (a : List Word) (h : m3 < 2) :
    (cxConvert m3 env a).q = none ∧ (cxConvert m3 env a).d.length ≤ 1 := by
  match m3, h with
  | 0, _ => exact ⟨rfl, Nat.le_refl 1⟩
  | 1, _ => exact ⟨rfl, Nat.le_refl 1⟩

theorem bpack_plain (bw base : Nat) (env : FEnv) (a b : Word) :
    (bpack bw base env a b).q = none ∧ (bpack bw base env a b).d.length ≤ 1 := by
  unfold bpack
  simp only
  repeat' split
  all_goals exact ⟨rfl, Nat.le_refl 1⟩

theorem twiddle_plain (m3 : Nat) (env : FEnv) (a b : Word) :
    (twiddle m3 env a b).q = none ∧ (twiddle m3 env a b).d.length ≤ 1 := by
  unfold twiddle
  simp only
  split <;> exact ⟨rfl, Nat.le_refl 1⟩

set_option linter.unusedSimpArgs false in
/-- What every row of the per-thread families has: with more than one element it is plain and gives one word. -/
theorem vecRow_plain {i : Instr} {r : VecRow} (h : vecRow i = some r) (hw : wellFormed i = true) (h1 : elems r.sp r.f ≠ 1)
    (st : Strand) : plainRow r.sp r.f = true ∧ ∀ env x, ((r.vd st).fn env x).q = none ∧ ((r.vd st).fn env x).d.length ≤ 1 := by
  unfold vecRow at h
  split at h
  case h_1 f =>
    cases h
    obtain ⟨hp, h7⟩ := plain_int hw h1 rfl (.inl rfl) rfl rfl rfl (fun h => by
      show Fld.simple _ = true ∧ Fld.simple _ = true ∧ Fld.simple _ = true
      simp [rowOf, specOf, specInt1, specInt2, specInt3, specShift, fs, fz, specBase, specVec, Fld.simple, h])
    exact ⟨hp, fun env x => ⟨rfl, intMap_length h7 _ _ _ _⟩⟩
  case h_2 f =>
    cases h
    obtain ⟨hp, h7⟩ := plain_int hw h1 rfl (.inl rfl) rfl rfl rfl (fun h => by
      show Fld.simple _ = true ∧ Fld.simple _ = true ∧ Fld.simple _ = true
      simp [rowOf, specOf, specInt1, specInt2, specInt3, specShift, fs, fz, specBase, specVec, Fld.simple, h])
    exact ⟨hp, fun env x => ⟨rfl, intMap_length h7 _ _ _ _⟩⟩
  case h_3 f =>
    cases h
    obtain ⟨hp, h7⟩ := plain_int hw h1 rfl (.inl rfl) rfl rfl rfl (fun h => by
      show Fld.simple _ = true ∧ Fld.simple _ = true ∧ Fld.simple _ = true
      simp [rowOf, specOf, specInt1, specInt2, specInt3, specShift, fs, fz, specBase, specVec, Fld.simple, h])
    exact ⟨hp, fun env x => ⟨rfl, intMap_length h7 _ _ _ _⟩⟩
  case h_4 f =>
    cases h
    obtain ⟨hp, h7⟩ := plain_int hw h1 rfl (.inl rfl) rfl rfl rfl (fun h => by
      show Fld.simple _ = true ∧ Fld.simple _ = true ∧ Fld.simple _ = true
      simp [rowOf, specOf, specInt1, specInt2, specInt3, specShift, fs, fz, specBase, specVec, Fld.simple, h])
    exact ⟨hp, fun env x => ⟨rfl, intMap_length h7 _ _ _ _⟩⟩
  case h_5 f =>
    cases h
    obtain ⟨hp, h7⟩ := plain_int hw h1 rfl (.inl rfl) rfl rfl rfl (fun h => by
      show Fld.simple _ = true ∧ Fld.simple _ = true ∧ Fld.simple _ = true
      simp [rowOf, specOf, specInt1, specInt2, specInt3, specShift, fs, fz, specBase, specVec, Fld.simple, h])
    exact ⟨hp, fun env x => ⟨rfl, intMap_length h7 _ _ _ _⟩⟩
  case h_6 f =>
    cases h
    obtain ⟨hp, h7⟩ := plain_int hw h1 rfl (.inl rfl) rfl rfl rfl (fun h => by
      show Fld.simple _ = true ∧ Fld.simple _ = true ∧ Fld.simple _ = true
      simp [rowOf, specOf, specInt1, specInt2, specInt3, specShift, fs, fz, specBase, specVec, Fld.simple, h])
    exact ⟨hp, fun env x => ⟨rfl, intMap_length h7 _ _ _ _⟩⟩
  case h_7 f =>
    cases h
    obtain ⟨hp, h7⟩ := plain_int hw h1 rfl (.inl rfl) rfl rfl rfl (fun h => by
      show Fld.simple _ = true ∧ Fld.simple _ = true ∧ Fld.simple _ = true
      simp [rowOf, specOf, specInt1, specInt2, specInt3, specShift, fs, fz, specBase, specVec, Fld.simple, h])
    exact ⟨hp, fun env x => ⟨rfl, intMap_length h7 _ _ _ _⟩⟩
  case h_8 f =>
    cases h
    obtain ⟨hp, h7⟩ := plain_int hw h1 rfl (.inl rfl) rfl rfl rfl (fun h => by
      show Fld.simple _ = true ∧ Fld.simple _ = true ∧ Fld.simple _ = true
      simp [rowOf, specOf, specInt1, specInt2, specInt3, specShift, fs, fz, specBase, specVec, Fld.simple, h])
    exact ⟨hp, fun env x => ⟨rfl, intMap_length h7 _ _ _ _⟩⟩
  case h_9 f =>
    cases h
    obtain ⟨hp, h7⟩ := plain_int hw h1 rfl (.inl rfl) rfl rfl rfl (fun h => by
      show Fld.simple _ = true ∧ Fld.simple _ = true ∧ Fld.simple _ = true
      simp [rowOf, specOf, specInt1, specInt2, specInt3, specShift, fs, fz, specBase, specVec, Fld.simple, h])
    exact ⟨hp, fun env x => ⟨rfl, intMap_length h7 _ _ _ _⟩⟩
  case h_10 f =>
    cases h
    obtain ⟨hp, h7⟩ := plain_int hw h1 rfl (.inl rfl) rfl rfl rfl (fun h => by
      show Fld.simple _ = true ∧ Fld.simple _ = true ∧ Fld.simple _ = true
      simp [rowOf, specOf, specInt1, specInt2, specInt3, specShift, fs, fz, specBase, specVec, Fld.simple, h])
    exact ⟨hp, fun env x => ⟨rfl, intMap_length h7 _ _ _ _⟩⟩
  case h_11 f =>
    cases h
    obtain ⟨hp, h7⟩ := plain_int hw h1 rfl (.inl rfl) rfl rfl rfl (fun h => by
      show Fld.simple _ = true ∧ Fld.simple _ = true ∧ Fld.simple _ = true
      simp [rowOf, specOf, specInt1, specInt2, specInt3, specShift, fs, fz, specBase, specVec, Fld.simple, h])
    exact ⟨hp, fun env x => ⟨rfl, intMap_length h7 _ _ _ _⟩⟩
  case h_12 f =>
    cases h
    obtain ⟨hp, h7⟩ := plain_int hw h1 rfl (.inl rfl) rfl rfl rfl (fun h => by
      show Fld.simple _ = true ∧ Fld.simple _ = true ∧ Fld.simple _ = true
      simp [rowOf, specOf, specInt1, specInt2, specInt3, specShift, fs, fz, specBase, specVec, Fld.simple, h])
    exact ⟨hp, fun env x => ⟨rfl, intMap_length h7 _ _ _ _⟩⟩
  case h_13 f =>
    cases h
    obtain ⟨hp, h7⟩ := plain_int hw h1 rfl (.inl rfl) rfl rfl rfl (fun h => by
      show Fld.simple _ = true ∧ Fld.simple _ = true ∧ Fld.simple _ = true
      simp [rowOf, specOf, specInt1, specInt2, specInt3, specShift, fs, fz, specBase, specVec, Fld.simple, h])
    exact ⟨hp, fun env x => ⟨rfl, intMap_length h7 _ _ _ _⟩⟩
  case h_14 f =>
    cases h
    obtain ⟨hp, h7⟩ := plain_int hw h1 rfl (.inl rfl) rfl rfl rfl (fun h => by
      show Fld.simple _ = true ∧ Fld.simple _ = true ∧ Fld.simple _ = true
      simp [rowOf, specOf, specInt1, specInt2, specInt3, specShift, fs, fz, specBase, specVec, Fld.simple, h])
    exact ⟨hp, fun env x => ⟨rfl, intMap_length h7 _ _ _ _⟩⟩
  case h_15 f =>
    cases h
    exact absurd (elems_ext (by show (0 : Nat) ≠ 1; decide)) h1
  case h_16 f =>
    cases h
    exact absurd (elems_ext (by show (0 : Nat) ≠ 1; decide)) h1
  case h_17 f =>
    cases h
    obtain ⟨hp, h7⟩ := plain_int hw h1 rfl (.inl rfl) rfl rfl rfl (fun h => by
      show Fld.simple _ = true ∧ Fld.simple _ = true ∧ Fld.simple _ = true
      simp [rowOf, specOf, specInt1, specInt2, specInt3, specShift, fs, fz, specBase, specVec, Fld.simple, h])
    exact ⟨hp, fun env x => ⟨rfl, Nat.le_refl 1⟩⟩
  case h_18 f =>
    cases h
    obtain ⟨hp, h7⟩ := plain_int hw h1 rfl (.inl rfl) rfl rfl rfl (fun h => by
      show Fld.simple _ = true ∧ Fld.simple _ = true ∧ Fld.simple _ = true
      simp [rowOf, specOf, specInt1, specInt2, specInt3, specShift, fs, fz, specBase, specVec, Fld.simple, h])
    exact ⟨hp, fun env x => ⟨rfl, Nat.le_refl 1⟩⟩
  case h_19 f =>
    cases h
    obtain ⟨hp, h7⟩ := plain_int hw h1 rfl (.inr rfl) rfl rfl rfl (fun h => by
      show Fld.simple _ = true ∧ Fld.simple _ = true ∧ Fld.simple _ = true
      simp [rowOf, specOf, specInt1, specInt2, specInt3, specShift, fs, fz, specBase, specVec, Fld.simple, h])
    exact ⟨hp, fun env x => ⟨rfl, Nat.le_refl 1⟩⟩
  case h_20 f =>
    cases h
    obtain ⟨hp, h7⟩ := plain_int hw h1 rfl (.inr rfl) rfl rfl rfl (fun h => by
      show Fld.simple _ = true ∧ Fld.simple _ = true ∧ Fld.simple _ = true
      simp [rowOf, specOf, specInt1, specInt2, specInt3, specShift, fs, fz, specBase, specVec, Fld.simple, h])
    exact ⟨hp, fun env x => ⟨rfl, Nat.le_refl 1⟩⟩
  case h_21 f =>
    cases h
    obtain ⟨hp, h7⟩ := plain_int hw h1 rfl (.inl rfl) rfl rfl rfl (fun h => by
      show Fld.simple _ = true ∧ Fld.simple _ = true ∧ Fld.simple _ = true
      simp [rowOf, specOf, specInt1, specInt2, specInt3, specShift, fs, fz, specBase, specVec, Fld.simple, h])
    exact ⟨hp, fun env x => ⟨rfl, Nat.le_refl 1⟩⟩
  case h_22 f =>
    cases h
    obtain ⟨hp, h7⟩ := plain_int hw h1 rfl (.inl rfl) rfl rfl rfl (fun h => by
      show Fld.simple _ = true ∧ Fld.simple _ = true ∧ Fld.simple _ = true
      simp [rowOf, specOf, specInt1, specInt2, specInt3, specShift, fs, fz, specBase, specVec, Fld.simple, h])
    exact ⟨hp, fun env x => ⟨rfl, Nat.le_refl 1⟩⟩
  case h_23 f =>
    cases h
    exact absurd (elems_ext (by show (0 : Nat) ≠ 1; decide)) h1
  case h_24 f =>
    cases h
    exact absurd (elems_ext (by show (0 : Nat) ≠ 1; decide)) h1
  case h_25 f =>
    cases h
    obtain ⟨hp, h7⟩ := plain_int hw h1 rfl (.inl rfl) rfl rfl rfl (fun h => by
      show Fld.simple _ = true ∧ Fld.simple _ = true ∧ Fld.simple _ = true
      simp [rowOf, specOf, specInt1, specInt2, specInt3, specShift, fs, fz, specBase, specVec, Fld.simple, h])
    exact ⟨hp, fun env x => ⟨rfl, intMap_length h7 _ _ _ _⟩⟩
  case h_26 f =>
    cases h
    exact ⟨plain_of_ok hw h1 ⟨rfl, rfl, .inl rfl⟩ rfl rfl rfl, fun env x => ⟨rfl, Nat.le_refl 1⟩⟩
  case h_27 f =>
    cases h
    exact ⟨plain_of_ok hw h1 ⟨rfl, rfl, .inl rfl⟩ rfl rfl rfl, fun env x => ⟨rfl, Nat.le_refl 1⟩⟩
  case h_28 f =>
    cases h
    obtain ⟨hp, h7⟩ := plain_int hw h1 rfl (.inl rfl) rfl rfl rfl (fun h => by
      show Fld.simple _ = true ∧ Fld.simple _ = true ∧ Fld.simple _ = true
      simp [rowOf, specOf, specInt1, specInt2, specInt3, specShift, fs, fz, specBase, specVec, Fld.simple, h])
    exact ⟨hp, fun env x => ⟨rfl, Nat.le_refl 1⟩⟩
  case h_29 f =>
    cases h
    exact ⟨plain_of_ok hw h1 ⟨rfl, rfl, .inl rfl⟩ rfl rfl rfl, fun env x => ⟨rfl, Nat.le_refl 1⟩⟩
  case h_30 f =>
    cases h
    exact ⟨plain_of_ok hw h1 ⟨rfl, rfl, .inl rfl⟩ rfl rfl rfl, fun env x => ⟨rfl, Nat.le_refl 1⟩⟩
  case h_31 f =>
    cases h
    exact ⟨plain_of_ok hw h1 ⟨rfl, rfl, .inl rfl⟩ rfl rfl rfl, fun env x => ⟨rfl, Nat.le_refl 1⟩⟩
  case h_32 f =>
    cases h
    exact ⟨plain_of_ok hw h1 ⟨rfl, rfl, .inl rfl⟩ rfl rfl rfl, fun env x => ⟨rfl, Nat.le_refl 1⟩⟩
  case h_33 f =>
    cases h
    exact ⟨plain_of_ok hw h1 ⟨rfl, rfl, .inl rfl⟩ rfl rfl rfl, fun env x => ⟨rfl, Nat.le_refl 1⟩⟩
  case h_34 f =>
    cases h
    exact ⟨plain_of_ok hw h1 ⟨rfl, rfl, .inl rfl⟩ rfl rfl rfl, fun env x => ⟨rfl, Nat.le_refl 1⟩⟩
  case h_35 f =>
    cases h
    exact absurd (elems_ext (by show (0 : Nat) ≠ 1; decide)) h1
  case h_36 f =>
    cases h
    exact ⟨plain_of_ok hw h1 ⟨rfl, rfl, .inl rfl⟩ rfl rfl rfl, fun env x => ⟨rfl, Nat.le_refl 1⟩⟩
  case h_37 f =>
    cases h
    exact ⟨plain_of_ok hw h1 ⟨rfl, rfl, .inl rfl⟩ rfl rfl rfl, fun env x => ⟨rfl, Nat.le_refl 1⟩⟩
  case h_38 f =>
    cases h
    exact ⟨plain_of_ok hw h1 ⟨rfl, rfl, .inl rfl⟩ rfl rfl rfl, fun env x => ⟨rfl, Nat.le_refl 1⟩⟩
  case h_39 f =>
    cases h
    exact ⟨plain_of_ok hw h1 ⟨rfl, rfl, .inl rfl⟩ rfl rfl rfl, fun env x => ⟨rfl, Nat.le_refl 1⟩⟩
  case h_40 f =>
    cases h
    exact ⟨plain_of_ok hw h1 ⟨rfl, rfl, .inl rfl⟩ rfl rfl rfl, fun env x => ⟨rfl, Nat.le_refl 1⟩⟩
  case h_41 f =>
    cases h
    exact ⟨plain_of_ok hw h1 ⟨rfl, rfl, .inl rfl⟩ rfl rfl rfl, fun env x => ⟨rfl, Nat.le_refl 1⟩⟩
  case h_42 f =>
    cases h
    exact ⟨plain_of_ok hw h1 ⟨rfl, rfl, .inl rfl⟩ rfl rfl rfl, fun env x => ⟨rfl, Nat.le_refl 1⟩⟩
  case h_43 f =>
    cases h
    exact ⟨plain_of_ok hw h1 ⟨rfl, rfl, .inl rfl⟩ rfl rfl rfl, fun env x => ⟨rfl, Nat.le_refl 1⟩⟩
  case h_44 f =>
    cases h
    exact ⟨plain_of_ok hw h1 ⟨rfl, rfl, .inl rfl⟩ rfl rfl rfl, fun env x => ⟨rfl, Nat.le_refl 1⟩⟩
  case h_45 f =>
    cases h
    exact ⟨plain_of_ok hw h1 ⟨rfl, rfl, .inl rfl⟩ rfl rfl rfl, fun env x => ⟨rfl, Nat.le_refl 1⟩⟩
  case h_46 f =>
    cases h
    exact ⟨plain_of_ok hw h1 ⟨rfl, rfl, .inl rfl⟩ rfl rfl rfl, fun env x => ⟨rfl, Nat.le_refl 1⟩⟩
  case h_47 f =>
    cases h
    exact ⟨plain_of_ok hw h1 ⟨rfl, rfl, .inl rfl⟩ rfl rfl rfl, fun env x => ⟨rfl, Nat.le_refl 1⟩⟩
  case h_48 f =>
    cases h
    exact ⟨plain_of_ok hw h1 ⟨rfl, rfl, .inl rfl⟩ rfl rfl rfl, fun env x => ⟨rfl, Nat.le_refl 1⟩⟩
  case h_49 f =>
    cases h
    exact ⟨plain_of_ok hw h1 ⟨rfl, rfl, .inl rfl⟩ rfl rfl rfl, fun env x => ⟨rfl, Nat.le_refl 1⟩⟩
  case h_50 f =>
    cases h
    exact ⟨plain_of_ok hw h1 ⟨rfl, rfl, .inl rfl⟩ rfl rfl rfl, fun env x => ⟨rfl, Nat.le_refl 1⟩⟩
  case h_51 f =>
    cases h
    exact ⟨plain_of_ok hw h1 ⟨rfl, rfl, .inl rfl⟩ rfl rfl rfl, fun env x => ⟨rfl, Nat.le_refl 1⟩⟩
  case h_52 f =>
    cases h
    exact ⟨plain_of_ok hw h1 ⟨rfl, rfl, .inl rfl⟩ rfl rfl rfl, fun env x => ⟨rfl, Nat.le_refl 1⟩⟩
  case h_53 f =>
    cases h
    exact ⟨plain_of_ok hw h1 ⟨rfl, rfl, .inl rfl⟩ rfl rfl rfl, fun env x => ⟨rfl, Nat.le_refl 1⟩⟩
  case h_54 f =>
    cases h
    exact ⟨plain_of_ok hw h1 ⟨rfl, rfl, .inl rfl⟩ rfl rfl rfl, fun env x => ⟨rfl, Nat.le_refl 1⟩⟩
  case h_55 f =>
    cases h
    exact ⟨plain_of_ok hw h1 ⟨rfl, rfl, .inl rfl⟩ rfl rfl rfl, fun env x => twiddle_plain _ _ _ _⟩
  case h_56 f =>
    cases h
    exact absurd (elems_ext (by show (0 : Nat) ≠ 1; decide)) h1
  case h_57 f =>
    cases h
    have hm : f.m3.toNat < 2 := by
      by_cases hm : f.m3.toNat < 2
      · exact hm
      · refine absurd (elems_ext ?_) h1
        show (if f.m3.toNat ≥ 2 then 0 else 1) ≠ 1
        rw [if_pos (by omega)]; decide
    have h4 : ¬ f.m3.toNat ≥ 4 := by omega
    have h2 : (f.m3.toNat == 2 || f.m3.toNat == 3) = false := by
      simp only [Bool.or_eq_false_iff, beq_eq_false_iff_ne]; omega
    refine ⟨plain_of_ok hw h1 ?_ ?_ rfl rfl, fun env x => cxConvert_plain _ _ _ hm⟩
    · simp [rowOf, specOf, h4, fd]
    · show Fld.simple (if f.m3.toNat == 2 || f.m3.toNat == 3 then fs .vs 2 2 else fs .any 1 1) = true
      rw [h2]; rfl
  case h_58 f =>
    cases h
    exact ⟨plain_of_ok hw h1 ⟨rfl, rfl, .inl rfl⟩ rfl rfl rfl, fun env x => bpack_plain _ _ _ _ _⟩
  case h_59 f =>
    cases h
    exact ⟨plain_of_ok hw h1 ⟨rfl, rfl, .inl rfl⟩ rfl rfl rfl, fun env x => ⟨rfl, Nat.le_refl 1⟩⟩
  case h_60 f =>
    cases h
    exact ⟨plain_of_ok hw h1 ⟨rfl, rfl, .inl rfl⟩ rfl rfl rfl, fun env x => ⟨rfl, Nat.le_refl 1⟩⟩
  case h_61 f =>
    cases h
    refine ⟨plain_of_ok hw h1 ⟨rfl, rfl, .inl rfl⟩ rfl rfl rfl, fun env x => ?_⟩
    show (VOut.q (match phaseCode _ _ _ with | some n => _ | none => _)) = none ∧ (VOut.d (match phaseCode _ _ _ with | some n => _ | none => _)).length ≤ 1
    split <;> exact ⟨rfl, Nat.le_refl 1⟩
  case h_62 f =>
    cases h
    exact absurd (elems_ext (by show (0 : Nat) ≠ 1; decide)) h1
  case h_63 f =>
    cases h
    exact absurd (elems_ext (by show (0 : Nat) ≠ 1; decide)) h1
  case h_64 h =>
    cases h
    exact absurd (elems_short rfl rfl) h1
  case h_65 h =>
    cases h
    exact absurd (elems_short rfl rfl) h1
  case h_66 h =>
    cases h
    exact absurd (elems_short rfl rfl) h1
  case h_67 h =>
    cases h
    exact absurd (elems_short rfl rfl) h1
  case h_68 h =>
    cases h
    exact absurd (elems_short rfl rfl) h1
  case h_69 h =>
    cases h
    exact absurd (elems_short rfl rfl) h1
  case h_70 h =>
    cases h
    exact absurd (elems_short rfl rfl) h1
  case h_71 h =>
    cases h
    exact absurd (elems_short rfl rfl) h1
  case h_72 h =>
    cases h
    exact absurd (elems_short rfl rfl) h1
  case h_73 h =>
    cases h
    exact absurd (elems_short rfl rfl) h1
  case h_74 h =>
    cases h
    exact absurd (elems_short rfl rfl) h1
  case h_75 h =>
    cases h
    exact absurd (elems_short rfl rfl) h1
  case h_76 h =>
    cases h
    exact absurd (elems_short rfl rfl) h1
  case h_77 h =>
    cases h
    exact absurd (elems_short rfl rfl) h1
  case h_78 h =>
    cases h
    exact absurd (elems_short rfl rfl) h1
  case h_79 h =>
    cases h
    exact absurd (elems_short rfl rfl) h1
  case h_80 r =>
    cases h
    exact absurd (elems_short rfl rfl) h1
  case h_81 r =>
    cases h
    exact absurd (elems_short rfl rfl) h1
  case h_82 r =>
    cases h
    exact absurd (elems_short rfl rfl) h1
  case h_83 r =>
    cases h
    exact absurd (elems_short rfl rfl) h1
  case h_84 r =>
    cases h
    exact absurd (elems_short rfl rfl) h1
  case h_85 r =>
    cases h
    exact absurd (elems_short rfl rfl) h1
  case h_86 r =>
    cases h
    exact absurd (elems_short rfl rfl) h1
  case h_87 r =>
    cases h
    exact absurd (elems_short rfl rfl) h1
  case h_88 r =>
    cases h
    exact absurd (elems_short rfl rfl) h1
  case h_89 r =>
    cases h
    exact absurd (elems_short rfl rfl) h1
  case h_90 r =>
    cases h
    exact absurd (elems_short rfl rfl) h1
  case h_91 r =>
    cases h
    exact absurd (elems_short rfl rfl) h1
  case h_92 r =>
    cases h
    exact absurd (elems_short rfl rfl) h1
  case h_93 r =>
    cases h
    exact absurd (elems_short rfl rfl) h1
  case h_94 r =>
    cases h
    exact absurd (elems_short rfl rfl) h1
  case h_95 r =>
    cases h
    exact absurd (elems_short rfl rfl) h1
  case h_96 r =>
    cases h
    exact absurd (elems_short rfl rfl) h1
  case h_97 r =>
    cases h
    exact absurd (elems_short rfl rfl) h1
  case h_98 r =>
    cases h
    exact absurd (elems_short rfl rfl) h1
  case h_99 r =>
    cases h
    exact absurd (elems_short rfl rfl) h1
  case h_100 r =>
    cases h
    exact absurd (elems_short rfl rfl) h1
  case h_101 r =>
    cases h
    exact absurd (elems_short rfl rfl) h1
  case h_102 r =>
    cases h
    exact absurd (elems_short rfl rfl) h1
  case h_103 r =>
    cases h
    exact absurd (elems_short rfl rfl) h1
  case h_104 r =>
    cases h
    exact absurd (elems_short rfl rfl) h1
  case h_105 r =>
    cases h
    exact absurd (elems_short rfl rfl) h1
  case h_106 r =>
    cases h
    exact absurd (elems_short rfl rfl) h1
  case h_107 r =>
    cases h
    exact absurd (elems_short rfl rfl) h1
  case h_108 => cases h

/-- A per-thread instruction that passes the checks of issue, with no window refused, completes with what `VecResult` says. -/
theorem exec_vec {i : Instr} {r : VecRow} (h : vecRow i = some r) {s : State} {id : Nat} {st : Strand}
    (hp : Passes i r.sp r.f noPre s id st) (hr : st.nowAdm r.sp r.f ≠ 0 → r.ready st = true)
    (hin : st.vecInside r.sp r.f (r.vd st) (st.nowAdm r.sp r.f)) :
    ∃ u, exec i s = .next (s.finish { id := id, st := st, adm := st.nowAdm r.sp r.f } r.sp r.f r.len u) ∧
      VecResult r.sp r.f (r.vd st) (st.nowAdm r.sp r.f) st u := by
  obtain ⟨u, hu, hR⟩ := vecPass_result r.sp r.f (r.vd st) st (st.nowAdm r.sp r.f) hin
    (fun _ h1 => (vecRow_plain h hp.encoding h1 st).elim fun a b => apart_of_plain a hp.apart h1 b)
  refine ⟨u, ?_, hR⟩
  rw [exec_vecRow h hp hr]
  unfold execVec
  rw [issue_go hp]
  simp only [hu]

/-- A turn that is not to end inside its block retires its instruction. -/
theorem finish_whole (s : State) (x : Issued) (sp : OpSpec) (f : LFields) (len : Nat) (u : Strand) (h : x.st.cutAt = none) :
    s.finish x sp f len u =
      s.retire x.id { u with rdy := x.st.score sp f x.adm } (doneOf sp f len (x.st.writtenRegs sp f x.adm)) := by
  unfold State.finish
  rw [h]
/-- One that is leaves the strand at the element before which it ends (R79). -/
theorem finish_cut (s : State) (x : Issued) (sp : OpSpec) (f : LFields) (len : Nat) (u : Strand) (e : Nat)
    (h : x.st.cutAt = some e) : s.finish x sp f len u = s.putStrand x.id (u.atElem e) := by
  unfold State.finish
  rw [h]

/-- The end of an instruction that names its results in its fields. -/
theorem ends_finish (s : State) (id : Nat) (st u : Strand) (adm : Mask) (sp : OpSpec) (f : LFields) (len : Nat)
    (hr : u.runCount = st.runCount) (hw : st.cutAt = none) :
    Ends s (s.finish { id := id, st := st, adm := adm } sp f len u) id st u len none (f.e == 1) false := by
  rw [finish_whole _ _ _ _ _ _ hw]
  have h := ends_retire s id st { u with rdy := st.score sp f adm } (doneOf sp f len (st.writtenRegs sp f adm)) hr
  obtain ⟨h1, w, h2, h3, h4⟩ := h
  refine ⟨h1, w, h2, ?_, h4⟩
  rw [h3]
  unfold Strand.advance
  simp only [doneOf]
  split <;> rfl

end Sys2Proof.Machine
end

