-- ==== Sys2Proof/Laws/Once.lean ====
section
/-! SUPPORT. The strand-once instructions: what `execOnce` does, and what the scalar operations compute. -/

namespace Sys2Proof.Machine

/-- A strand-once instruction that passes its checks takes its effect and ends. -/
theorem exec_once {i : Instr} {sp : OpSpec} {f : LFields} {len : Nat} {pre : Strand → Mask → Option Nat}
    {g : Issued → Strand} {s : State} {id : Nat} {st : Strand} (hp : Passes i sp f pre s id st)
    (he : exec i s = execOnce i sp f len pre g s)
    (hr : st.nowAdm sp f ≠ 0 → (g { id := id, st := st, adm := st.nowAdm sp f }).runCount = st.runCount) :
    ∃ t u, exec i s = .next t ∧ (st.nowAdm sp f = 0 → u = st) ∧
      (st.nowAdm sp f ≠ 0 → u = g { id := id, st := st, adm := st.nowAdm sp f }) ∧
      Ends s t id st u len none (f.e == 1) false := by
  have hx : exec i s = .next (s.finish { id := id, st := st, adm := st.nowAdm sp f } sp f len
      (if st.nowAdm sp f = 0 then st else g { id := id, st := st, adm := st.nowAdm sp f })) := by
    rw [he]
    unfold execOnce
    rw [issue_go hp]
  refine ⟨_, _, hx, fun h => if_pos h, fun h => if_neg h, ends_finish _ _ _ _ _ _ _ _ ?_ hp.whole⟩
  split
  · rfl
  · next h => exact hr h

/-- The same for an entry that says what its effect is. -/
theorem exec_once_says {i : Instr} {sp : OpSpec} {f : LFields} {len : Nat} {pre : Strand → Mask → Option Nat}
    {g : Issued → Strand} {s : State} {id : Nat} {st : Strand} {P : Strand → Prop} (hp : Passes i sp f pre s id st)
    (he : exec i s = execOnce i sp f len pre g s)
    (hr : (g { id := id, st := st, adm := st.nowAdm sp f }).runCount = st.runCount)
    (hP : st.nowAdm sp f ≠ 0 → P (g { id := id, st := st, adm := st.nowAdm sp f })) :
    ∃ t u, exec i s = .next t ∧ (st.nowAdm sp f = 0 → u = st) ∧ (st.nowAdm sp f ≠ 0 → P u) ∧
      Ends s t id st u len none (f.e == 1) false := by
  obtain ⟨t, u, h1, h2, h3, h4⟩ := exec_once hp he fun _ => hr
  exact ⟨t, u, h1, h2, fun h => h3 h ▸ hP h, h4⟩

/-- The same where the effect is known only for the threads that execute. -/
theorem exec_once_rel {i : Instr} {sp : OpSpec} {f : LFields} {len : Nat} {pre : Strand → Mask → Option Nat}
    {g : Issued → Strand} {s : State} {id : Nat} {st : Strand} {P : Strand → Prop} (hp : Passes i sp f pre s id st)
    (he : exec i s = execOnce i sp f len pre g s) (hr : ∀ u, P u → u.runCount = st.runCount)
    (hP : st.nowAdm sp f ≠ 0 → P (g { id := id, st := st, adm := st.nowAdm sp f })) :
    ∃ t u, exec i s = .next t ∧ (st.nowAdm sp f = 0 → u = st) ∧ (st.nowAdm sp f ≠ 0 → P u) ∧
      Ends s t id st u len none (f.e == 1) false := by
  obtain ⟨t, u, h1, h2, h3, h4⟩ := exec_once hp he fun h => hr _ (hP h)
  exact ⟨t, u, h1, h2, fun h => h3 h ▸ hP h, h4⟩

@[simp] theorem runCount_sset (st : Strand) (n : Nat) (x : Word) : (st.sset n x).runCount = st.runCount := rfl
@[simp] theorem runCount_sset64 (st : Strand) (n : Nat) (x : DWord) : (st.sset64 n x).runCount = st.runCount := rfl
@[simp] theorem runCount_vset (st : Strand) (n t : Nat) (x : Word) : (st.vset n t x).runCount = st.runCount := rfl
@[simp] theorem runCount_addFlags (st : Strand) (fl : FpFlags) : (st.addFlags fl).runCount = st.runCount := rfl
@[simp] theorem runCount_qset (st : Strand) (k : Nat) (m x : Mask) : (st.qset k m x).runCount = st.runCount := by
  unfold Strand.qset
  split <;> rfl
@[simp] theorem runCount_scalarOut (f : LFields) (x : DWord) (st : Strand) : (scalarOut f x st).runCount = st.runCount := by
  unfold scalarOut
  split <;> rfl

/-! What the scalar integer operations compute, as words. -/

/-- Every accepted type but .b64 has 32 bits in the scalar family. -/
def scalarType (m3 : BitVec 3) : Bool := m3 == 0 || m3 == 1 || m3 == 6 || m3 == 7

theorem intW_scalar {m3 : BitVec 3} (h : scalarType m3 = true) : intW m3.toNat = if m3 = 7 then 64 else 32 := by
  revert h
  revert m3
  decide

theorem toNat_wide (x : Word) : (x.zeroExtend 64 : DWord).toNat = x.toNat := by
  simp only [BitVec.truncate_eq_setWidth, BitVec.toNat_setWidth]
  have := x.isLt
  omega

/-- A two-source operation computes `g` on words and `h` on pairs. -/
theorem scalar2_eq {f : LFields} (hm : scalarType f.m3 = true) (k : Nat → Nat → Nat → Nat) (g : Word → Word → Word)
    (h : DWord → DWord → DWord) (hg : f.m3 ≠ 7 → ∀ a b, BitVec.ofNat 32 (k 32 a.toNat b.toNat) = g a b)
    (hh : f.m3 = 7 → ∀ a b, BitVec.ofNat 64 (k 64 a.toNat b.toNat) = h a b) : scalar2 f k = binRef f g h := by
  funext st m
  unfold scalar2 binRef scalarOut outRef Strand.sarg
  rw [intW_scalar hm]
  by_cases h7 : f.m3 = 7
  · simp only [h7, beq_self_eq_true, if_true]
    rw [← hh h7]
    congr 1
    apply BitVec.eq_of_toNat_eq
    simp
  · simp only [h7, beq_iff_eq, if_false]
    rw [← hg h7, toNat_wide, toNat_wide]
    congr 1
    apply BitVec.eq_of_toNat_eq
    simp

theorem scalarShift_eq {f : LFields} (hm : scalarType f.m3 = true) (k : Nat → Nat → Nat → Nat) (g : Word → Nat → Word)
    (h : DWord → Nat → DWord) (hg : ∀ a n, n < 32 → BitVec.ofNat 32 (k 32 a.toNat n) = g a n)
    (hh : ∀ a n, n < 64 → BitVec.ofNat 64 (k 64 a.toNat n) = h a n) : scalarShift f k = shiftRef f g h := by
  funext st m
  unfold scalarShift shiftRef scalarOut outRef Strand.sarg
  rw [intW_scalar hm]
  by_cases h7 : f.m3 = 7
  · simp only [h7, beq_self_eq_true, if_true]
    rw [← hh _ _ (Nat.mod_lt _ (by decide))]
    congr 1
    apply BitVec.eq_of_toNat_eq
    simp
  · simp only [h7, beq_iff_eq, if_false]
    rw [← hg _ _ (Nat.mod_lt _ (by decide)), toNat_wide]
    congr 1
    apply BitVec.eq_of_toNat_eq
    simp

/-- The signed value of a word. -/
theorem sx_toInt {n : Nat} (x : BitVec (n + 1)) : sx (n + 1) x.toNat = x.toInt := by
  unfold sx
  rw [BitVec.toInt_eq_toNat_cond]
  have : x.toNat < 2 ^ (n + 1) := x.isLt
  have e : 2 ^ (n + 1) = 2 * 2 ^ n := by rw [Nat.pow_succ]; omega
  simp only [Nat.add_sub_cancel]
  split <;> split <;> push_cast <;> omega

theorem wrapN_ofNat (n : Nat) (v : Int) : BitVec.ofNat n (wrapN n v) = BitVec.ofInt n v := by
  have hp : (0 : Int) < 2 ^ n := Int.pow_pos (by decide)
  have h1 := Int.emod_lt_of_pos v hp
  have h2 := Int.emod_nonneg v (Int.ne_of_gt hp)
  apply BitVec.eq_of_toNat_eq
  unfold wrapN
  simp only [BitVec.toNat_ofNat, BitVec.toNat_ofInt, Int.natCast_pow, Int.cast_ofNat_Int]
  refine Nat.mod_eq_of_lt ?_
  have : ((2 ^ n : Nat) : Int) = 2 ^ n := by simp
  omega

theorem iSub_word {n : Nat} (a b : BitVec n) : BitVec.ofNat n (iSub n a.toNat b.toNat) = a - b := by
  unfold iSub
  rw [wrapN_ofNat]
  apply BitVec.eq_of_toInt_eq
  rw [BitVec.toInt_ofInt, BitVec.toInt_sub, BitVec.toInt_eq_toNat_bmod, BitVec.toInt_eq_toNat_bmod]
  simp

theorem iShl_word {n : Nat} (a : BitVec n) (k : Nat) : BitVec.ofNat n (iShl a.toNat k) = a <<< k := by
  apply BitVec.eq_of_toNat_eq
  simp [iShl, Nat.shiftLeft_eq]

theorem iShr_word {n : Nat} (a : BitVec n) (k : Nat) : BitVec.ofNat n (iShr a.toNat k) = a >>> k := by
  apply BitVec.eq_of_toNat_eq
  simp only [iShr, BitVec.toNat_ofNat, BitVec.toNat_ushiftRight, Nat.shiftRight_eq_div_pow]
  exact Nat.mod_eq_of_lt (Nat.lt_of_le_of_lt (Nat.div_le_self _ _) a.isLt)

theorem iSra_word {n : Nat} (a : BitVec (n + 1)) (k : Nat) :
    BitVec.ofNat (n + 1) (iSra (n + 1) a.toNat k) = a.sshiftRight k := by
  have e : a.toInt / 2 ^ k = a.toInt >>> k := by
    rw [Int.shiftRight_eq_div_pow]
    simp
  unfold iSra
  rw [wrapN_ofNat, sx_toInt, e, ← BitVec.toInt_sshiftRight, BitVec.ofInt_toInt]

/-- The value of a word as its type reads it. -/
theorem ival_word (m3 : BitVec 3) (hm : m3 = 0 ∨ m3 = 1) (a : Word) :
    ival m3.toNat a.toNat = if m3 = 0 then a.toInt else (a.toNat : Int) := by
  obtain rfl | rfl := hm
  · exact sx_toInt (n := 31) a
  · rfl

theorem iMinMax_word (m3 : BitVec 3) (hm : m3 = 0 ∨ m3 = 1) (mx : Bool) (a b : Word) :
    BitVec.ofNat 32 (iMinMax m3.toNat mx a.toNat b.toNat) = if mx then greater (m3 = 0) a b else lesser (m3 = 0) a b := by
  unfold iMinMax
  rw [ival_word m3 hm, ival_word m3 hm]
  obtain rfl | rfl := hm <;> cases mx <;>
    simp only [lesser, greater, BitVec.sle, BitVec.ule] <;> simp <;> split <;> simp_all

theorem high_ofInt (p : Int) : BitVec.ofInt 32 (p / 2 ^ 32) = ((BitVec.ofInt 64 p) >>> 32).truncate 32 := by
  apply BitVec.eq_of_toNat_eq
  simp only [BitVec.toNat_ofInt, BitVec.truncate_eq_setWidth, BitVec.toNat_setWidth, BitVec.toNat_ushiftRight,
    Nat.shiftRight_eq_div_pow]
  norm_num
  omega

theorem iMulh_word (m3 : BitVec 3) (hm : m3 = 0 ∨ m3 = 1) (a b : Word) :
    BitVec.ofNat 32 (iMulh m3.toNat a.toNat b.toNat) = highProduct (m3 = 0) a b := by
  unfold iMulh
  rw [ival_word m3 hm, ival_word m3 hm]
  have hw : intW m3.toNat = 32 := by obtain rfl | rfl := hm <;> rfl
  rw [hw, wrapN_ofNat, high_ofInt, BitVec.ofInt_mul]
  obtain rfl | rfl := hm
  · rfl
  · have e (x : Word) : BitVec.ofInt 64 (x.toNat : Int) = x.zeroExtend 64 := by
      apply BitVec.eq_of_toNat_eq
      have := x.isLt
      simp only [BitVec.toNat_ofInt, BitVec.truncate_eq_setWidth, BitVec.toNat_setWidth]
      norm_num
      omega
    simp only [highProduct]
    rw [if_neg (by decide), if_neg (by decide), e, e]
    rfl

theorem intCompare_word (m3 : BitVec 3) (hm : m3 = 0 ∨ m3 = 1) (c : Nat) (a b : Word) :
    intCompare m3.toNat c a.toNat b.toNat = holds (m3 == 0) c a b := by
  have ha : sx 32 a.toNat = a.toInt := sx_toInt (n := 31) a
  have hb : sx 32 b.toNat = b.toInt := sx_toInt (n := 31) b
  rw [Bool.eq_iff_iff]
  obtain rfl | rfl := hm
  · rw [show intCompare (BitVec.toNat (0 : BitVec 3)) c a.toNat b.toNat = intCond c a.toInt b.toInt by rw [← ha, ← hb]; rfl]
    rcases c with _ | _ | _ | _ | _ | c <;> simp [intCond, holds, BitVec.slt, ← BitVec.toInt_inj] <;> omega
  · rw [show intCompare (BitVec.toNat (1 : BitVec 3)) c a.toNat b.toNat = intCond c a.toNat b.toNat from rfl]
    rcases c with _ | _ | _ | _ | _ | c <;> simp [intCond, holds, BitVec.ult, ← BitVec.toNat_inj] <;> omega

theorem intCompare_pair (c : Nat) (a b : DWord) : intCompare 7 c a.toNat b.toNat = holds false c a b := by
  rw [Bool.eq_iff_iff, show intCompare 7 c a.toNat b.toNat = intCond c a.toNat b.toNat from rfl]
  rcases c with _ | _ | _ | _ | _ | c <;> simp [intCond, holds, BitVec.ult, ← BitVec.toNat_inj] <;> omega

theorem nbits_one {n : Nat} (x : BitVec n) (i : Nat) : nbits x.toNat i 1 = if x.getLsbD i then 1 else 0 := by
  simp only [nbits, BitVec.getLsbD, Nat.testBit_eq_decide_div_mod_eq]
  have := Nat.mod_two_eq_zero_or_one (x.toNat / 2 ^ i)
  obtain h | h := this <;> simp [h]

theorem popCount_onesOf {n : Nat} (x : BitVec n) : popCount n x.toNat = onesOf x := by
  unfold popCount onesOf
  simp only [nbits_one]
  suffices ∀ (l : List Nat) (k : Nat), l.foldl (fun m i => m + if x.getLsbD i then 1 else 0) k =
      k + l.countP fun i => x.getLsbD i by simpa using this (List.range n) 0
  intro l
  induction l with
  | nil => simp
  | cons a l ih =>
    intro k
    simp only [List.foldl_cons, ih, List.countP_cons]
    omega

theorem takeWhile_range (p : Nat → Bool) (n k : Nat) (hk : k ≤ n) (h1 : ∀ j, j < k → p j = true)
    (h2 : k < n → p k = false) : ((List.range n).takeWhile p).length = k := by
  obtain ⟨m, rfl⟩ := Nat.exists_eq_add_of_le hk
  rw [List.range_add, List.takeWhile_append_of_pos (by simpa using h1)]
  cases m with
  | zero => simp
  | succ m => simp [List.range_succ_eq_map, h2 (by omega)]

theorem leadZeros_zerosAbove {n : Nat} (x : BitVec n) : leadZeros n x.toNat = zerosAbove x := by
  unfold leadZeros zerosAbove
  symm
  split
  · next h =>
    refine takeWhile_range _ n n (Nat.le_refl _) ?_ (by omega)
    intro j _
    simp [BitVec.getLsbD, h]
  · next h =>
    have hl : Nat.log2 x.toNat < n := (Nat.log2_lt h).2 x.isLt
    refine takeWhile_range _ n _ (by omega) ?_ ?_
    · intro j hj
      simp only [BitVec.getLsbD, Bool.not_eq_true']
      apply Nat.testBit_lt_two_pow
      calc x.toNat < 2 ^ (Nat.log2 x.toNat + 1) := Nat.lt_log2_self
        _ ≤ _ := Nat.pow_le_pow_right (by decide) (by omega)
    · intro _
      rw [show n - 1 - (n - 1 - Nat.log2 x.toNat) = Nat.log2 x.toNat by omega]
      simp only [BitVec.getLsbD, Bool.not_eq_false']
      rw [Nat.testBit_eq_decide_div_mod_eq]
      have h1 := Nat.log2_self_le h
      have h2 := @Nat.lt_log2_self x.toNat
      have : x.toNat / 2 ^ Nat.log2 x.toNat = 1 := by
        apply Nat.div_eq_of_lt_le
        · simpa using h1
        · rw [Nat.pow_succ] at h2; omega
      simp [this]

theorem low_bits (a : Word) (pos len i : Nat) :
    (BitVec.ofNat 32 (a.toNat / 2 ^ pos % 2 ^ len)).getLsbD i =
      (a >>> pos &&& ~~~(BitVec.allOnes 32 <<< len)).getLsbD i := by
  simp only [BitVec.getLsbD_ofNat, Nat.testBit_mod_two_pow, Nat.testBit_div_two_pow, BitVec.getLsbD_and,
    BitVec.getLsbD_ushiftRight, BitVec.getLsbD_not, BitVec.getLsbD_shiftLeft, BitVec.getLsbD_allOnes]
  by_cases h : i < 32
  · by_cases h2 : i < len
    · simp [h, h2, BitVec.getLsbD, Nat.add_comm]
    · simp [h, h2, show i - len < 32 by omega]
  · simp [h]

theorem bitField_word (signed : Bool) (a b c : Word) : bitField signed a b c = fieldRef signed a b c := by
  unfold bitField fieldRef
  have hb : (b.extractLsb' 0 5).toNat = b.toNat % 32 := by simp [BitVec.extractLsb'_toNat]
  have hc : (c.extractLsb' 0 6).toNat = c.toNat % 64 := by simp [BitVec.extractLsb'_toNat]
  simp only [hb, hc]
  generalize b.toNat % 32 = pos
  generalize hl : min (c.toNat % 64) 32 = len
  have hlen : len ≤ 32 := by omega
  clear hl hb hc
  have hF : BitVec.ofNat 32 (a.toNat / 2 ^ pos % 2 ^ len) = a >>> pos &&& ~~~(BitVec.allOnes 32 <<< len) :=
    BitVec.eq_of_getLsbD_eq fun i _ => low_bits a pos len i
  rw [← hF]
  have hlt : a.toNat / 2 ^ pos % 2 ^ len < 2 ^ len := Nat.mod_lt _ (Nat.two_pow_pos _)
  generalize a.toNat / 2 ^ pos % 2 ^ len = f at hlt
  clear hF
  by_cases hc : signed = true ∧ 0 < len ∧ len < 32
  · obtain ⟨rfl, h0, h1⟩ := hc
    obtain ⟨n, rfl⟩ : ∃ n, len = n + 1 := ⟨len - 1, by omega⟩
    have hs : sx (n + 1) f = (BitVec.ofNat (n + 1) f).toInt := by
      rw [← sx_toInt, BitVec.toNat_ofNat, Nat.mod_eq_of_lt hlt]
    simp only [h0, h1, decide_true, Bool.and_self, if_true, true_and, hs, Nat.add_sub_cancel]
    apply BitVec.eq_of_getLsbD_eq
    intro i hi
    rw [show BitVec.ofInt 32 (BitVec.ofNat (n + 1) f).toInt = (BitVec.ofNat (n + 1) f).signExtend 32 from rfl,
      BitVec.getLsbD_signExtend]
    simp only [hi, decide_true, Bool.true_and, BitVec.msb_eq_getLsbD_last, Nat.add_sub_cancel, BitVec.getLsbD_ofNat,
      show n < n + 1 by omega, show n < 32 by omega]
    by_cases h2 : i < n + 1
    · by_cases h3 : f.testBit n <;> simp only [h2, h3, hi, if_true, if_false, decide_true, Bool.true_and, Bool.false_eq_true,
        BitVec.getLsbD_or, BitVec.getLsbD_shiftLeft, BitVec.getLsbD_allOnes, BitVec.getLsbD_ofNat, Bool.not_true,
        Bool.false_and, Bool.and_false, Bool.or_false]
    · have h4 : f.testBit i = false :=
        Nat.testBit_lt_two_pow (Nat.lt_of_lt_of_le hlt (Nat.pow_le_pow_right (by decide) (by omega)))
      by_cases h3 : f.testBit n <;> simp only [h2, h3, h4, hi, if_true, if_false, decide_true, decide_false, Bool.true_and,
        Bool.false_eq_true, BitVec.getLsbD_or, BitVec.getLsbD_shiftLeft, BitVec.getLsbD_allOnes, BitVec.getLsbD_ofNat,
        Bool.not_false, Bool.and_false, Bool.false_or, show i - (n + 1) < 32 by omega]
  · rw [if_neg, if_neg]
    · exact fun h => hc ⟨h.1, h.2.1, h.2.2.1⟩
    · simp only [Bool.and_eq_true, decide_eq_true_eq]
      exact fun h => hc ⟨h.1.1, h.1.2, h.2⟩

/-! The scalar instructions, one by one. -/

theorem m3_scalar {sp : OpSpec} {f : LFields} (k : Nat) (h : sp.ok f = true) (e : sp.m3 = k) (hm : ∀ x : BitVec 3, k.testBit x.toNat = true → scalarType x = true) :
    scalarType f.m3 = true := hm _ (by
  rw [← e]
  simp only [OpSpec.ok, Bool.and_eq_true] at h
  exact h.1.1.1.1.1.1.2)

theorem m3_01 {sp : OpSpec} {f : LFields} (k : Nat) (h : sp.ok f = true) (e : sp.m3 = k) (hm : ∀ x : BitVec 3, k.testBit x.toNat = true → x = 0 ∨ x = 1) :
    f.m3 = 0 ∨ f.m3 = 1 := hm _ (by
  rw [← e]
  simp only [OpSpec.ok, Bool.and_eq_true] at h
  exact h.1.1.1.1.1.1.2)

theorem m3_017 {sp : OpSpec} {f : LFields} (k : Nat) (h : sp.ok f = true) (e : sp.m3 = k) (hm : ∀ x : BitVec 3, k.testBit x.toNat = true → x = 0 ∨ x = 1 ∨ x = 7) :
    f.m3 = 0 ∨ f.m3 = 1 ∨ f.m3 = 7 := hm _ (by
  rw [← e]
  simp only [OpSpec.ok, Bool.and_eq_true] at h
  exact h.1.1.1.1.1.1.2)

theorem m3_movi {sp : OpSpec} {f : LFields} (k : Nat) (h : sp.ok f = true) (e : sp.m3 = k)
    (hm : ∀ x : BitVec 3, k.testBit x.toNat = true → x = 0 ∨ x = 1 ∨ x = 2 ∨ x = 7) :
    f.m3 = 0 ∨ f.m3 = 1 ∨ f.m3 = 2 ∨ f.m3 = 7 := hm _ (by
  rw [← e]
  simp only [OpSpec.ok, Bool.and_eq_true] at h
  exact h.1.1.1.1.1.1.2)

theorem scount_eq {f : LFields} (hm : scalarType f.m3 = true) (k : Nat → Nat → Nat) (g : {n : Nat} → BitVec n → Nat)
    (hk : ∀ {n : Nat} (x : BitVec n), k n x.toNat = g x) :
    sCount k f = fun st _ => st.sset (f.d.toNat - 0x80) (BitVec.ofNat 32
      (if f.m3 = 7 then g (st.sval64 f.a.toNat) else g (st.sval f.a.toNat))) := by
  funext st m
  unfold sCount Strand.sarg
  rw [intW_scalar hm]
  by_cases h : f.m3 = 7
  · simp [h, hk]
  · simp only [h, beq_iff_eq, if_false]
    rw [toNat_wide, hk]

theorem sadd_eq {f : LFields} (hm : scalarType f.m3 = true) : scalar2 f sAddFn = addRef f :=
  scalar2_eq hm _ _ _ (fun _ a b => by simp [sAddFn, BitVec.ofNat_add]) (fun _ a b => by simp [sAddFn, BitVec.ofNat_add])
theorem ssub_eq {f : LFields} (hm : scalarType f.m3 = true) : scalar2 f iSub = subRef f :=
  scalar2_eq hm _ _ _ (fun _ a b => iSub_word a b) (fun _ a b => iSub_word a b)
theorem smul_eq {f : LFields} (hm : scalarType f.m3 = true) : scalar2 f (fun _ a b => a * b) = binRef f (· * ·) (· * ·) :=
  scalar2_eq hm _ _ _ (fun _ a b => by simp [BitVec.ofNat_mul]) (fun _ a b => by simp [BitVec.ofNat_mul])
theorem sand_eq {f : LFields} (hm : scalarType f.m3 = true) : scalar2 f sAndFn = andRef f :=
  scalar2_eq hm _ _ _ (fun _ a b => by
    apply BitVec.eq_of_toNat_eq; simp only [BitVec.toNat_ofNat, sAndFn, BitVec.toNat_and]
    exact Nat.mod_eq_of_lt (a &&& b).isLt)
    (fun _ a b => by
    apply BitVec.eq_of_toNat_eq; simp only [BitVec.toNat_ofNat, sAndFn, BitVec.toNat_and]
    exact Nat.mod_eq_of_lt (a &&& b).isLt)
theorem sor_eq {f : LFields} (hm : scalarType f.m3 = true) : scalar2 f sOrFn = orRef f :=
  scalar2_eq hm _ _ _ (fun _ a b => by
    apply BitVec.eq_of_toNat_eq; simp only [BitVec.toNat_ofNat, sOrFn, BitVec.toNat_or]
    exact Nat.mod_eq_of_lt (a ||| b).isLt)
    (fun _ a b => by
    apply BitVec.eq_of_toNat_eq; simp only [BitVec.toNat_ofNat, sOrFn, BitVec.toNat_or]
    exact Nat.mod_eq_of_lt (a ||| b).isLt)
theorem sxor_eq {f : LFields} (hm : scalarType f.m3 = true) : scalar2 f sXorFn = xorRef f :=
  scalar2_eq hm _ _ _ (fun _ a b => by
    apply BitVec.eq_of_toNat_eq; simp only [BitVec.toNat_ofNat, sXorFn, BitVec.toNat_xor]
    exact Nat.mod_eq_of_lt (a ^^^ b).isLt)
    (fun _ a b => by
    apply BitVec.eq_of_toNat_eq; simp only [BitVec.toNat_ofNat, sXorFn, BitVec.toNat_xor]
    exact Nat.mod_eq_of_lt (a ^^^ b).isLt)
theorem sshl_eq {f : LFields} (hm : scalarType f.m3 = true) : scalarShift f sShlFn = shlRef f :=
  scalarShift_eq hm _ _ _ (fun a n _ => iShl_word a n) (fun a n _ => iShl_word a n)
theorem sshr_eq {f : LFields} (hm : scalarType f.m3 = true) : scalarShift f sShrFn = shrRef f :=
  scalarShift_eq hm _ _ _ (fun a n _ => iShr_word a n) (fun a n _ => iShr_word a n)
theorem ssra_eq {f : LFields} (hm : scalarType f.m3 = true) : scalarShift f iSra = shiftRef f (·.sshiftRight ·) (·.sshiftRight ·) :=
  scalarShift_eq hm _ _ _ (fun a n _ => iSra_word (n := 31) a n) (fun a n _ => iSra_word (n := 63) a n)

theorem typed_eq {f : LFields} (hm : f.m3 = 0 ∨ f.m3 = 1) (k : Nat → Nat → Nat) (g : Bool → Word → Word → Word)
    (hg : ∀ a b : Word, BitVec.ofNat 32 (k a.toNat b.toNat) = g (f.m3 = 0) a b) :
    scalar2 f (fun _ a b => k a b) = typedRef f g := by
  have h7 : f.m3 ≠ 7 := by obtain h | h := hm <;> rw [h] <;> decide
  have ht : scalarType f.m3 = true := by obtain h | h := hm <;> rw [h] <;> decide
  rw [scalar2_eq ht _ (g (f.m3 = 0)) (fun a _ => a) (fun _ a b => hg a b) (fun h => absurd h h7)]
  funext st m
  simp only [binRef, outRef, typedRef, if_neg h7]

theorem outRef_eq (f : LFields) (st' st : Strand) (x : Nat) :
    scalarOut f (st'.sarg f.m3 x) st = outRef f (st'.sval x) (st'.sval64 x) st := by
  unfold scalarOut outRef Strand.sarg
  by_cases h : f.m3 = 7
  · simp [h]
  · simp only [h, beq_iff_eq, if_false]
    congr 1
    simp

theorem smov_eq (f : LFields) : smovExec f = movRef f := by
  funext st m
  unfold smovExec movRef
  simp only
  split
  · unfold scalarOut outRef
    by_cases h : f.m3 = 7
    · simp [h]
    · simp only [h, beq_iff_eq, if_false]; congr 1; simp
  · exact outRef_eq f st st _

theorem scmp_eq {f : LFields} (hm : f.m3 = 0 ∨ f.m3 = 1 ∨ f.m3 = 7) : scmpExec f = cmpRef f := by
  funext st m
  unfold scmpExec cmpRef scmpFn Strand.sarg
  congr 2
  obtain h | h | h := hm
  · have := intCompare_word f.m3 (.inl h) f.c.toNat (st.sval f.a.toNat) (st.sval f.b.toNat)
    simp only [h] at this ⊢
    rw [if_neg (by decide), ← this, if_neg (by decide), if_neg (by decide), toNat_wide, toNat_wide]
  · have := intCompare_word f.m3 (.inr h) f.c.toNat (st.sval f.a.toNat) (st.sval f.b.toNat)
    simp only [h] at this ⊢
    rw [if_neg (by decide), ← this, if_neg (by decide), if_neg (by decide), toNat_wide, toNat_wide]
  · simp only [h]
    rw [← intCompare_pair]; simp

theorem extract_trunc (x : Word) : x.extractLsb' 0 16 = x.truncate 16 := by
  apply BitVec.eq_of_getLsbD_eq
  intro i hi
  simp [hi]

theorem movi_eq {f : LFields} (hm : f.m3 = 0 ∨ f.m3 = 1 ∨ f.m3 = 2 ∨ f.m3 = 7) : smoviExec f = moviRef f := by
  funext st m
  unfold smoviExec moviRef
  obtain h | h | h | h := hm <;> simp only [h] <;> simp [highWord, extract_trunc]

theorem sel_eq (f : LFields) : sselExec f = selRef f := by
  funext st m
  unfold sselExec selRef
  rw [apply_ite (fun x => scalarOut f x st), outRef_eq, outRef_eq]
  simp

theorem movhi_eq (r : WIFields) (s : State) : exec (.smovhi r) s =
    execOnce (.smovhi r) (rowOf (.smovi (WIFields.scal r 2))) (WIFields.scal r 2) 4 noPre (fun x => movhiRef r x.st x.adm) s := by
  change execSmovhi r s = _
  unfold execSmovhi
  simp only [movhiRef, highWord, extract_trunc]

@[simp] theorem runCount_outRef (f : LFields) (x : Word) (y : DWord) (st : Strand) : (outRef f x y st).runCount = st.runCount := by
  unfold outRef; split <;> rfl

theorem once_becomes {i : Instr} {sp : OpSpec} {f : LFields} {len : Nat} {pre : Strand → Mask → Option Nat}
    {g ref : Strand → Mask → Strand} {s : State} {id : Nat} {st : Strand} (hp : Passes i sp f pre s id st)
    (hg : g = ref) (hr : (ref st (st.nowAdm sp f)).runCount = st.runCount)
    (he : exec i s = execOnce i sp f len pre (fun x => g x.st x.adm) s) :
    ∃ t u, exec i s = .next t ∧ (st.nowAdm sp f = 0 → u = st) ∧
      (st.nowAdm sp f ≠ 0 → becomes ref s st (st.nowAdm sp f) u) ∧ Ends s t id st u len none (f.e == 1) false := by
  subst hg
  exact exec_once_says hp he hr (fun _ => rfl)

theorem bits_qset (st : Strand) (d : Nat) (m x : Mask) (val : Nat → Bool) (hv : ∀ t, t < 16 → x.getLsbD t = val t) :
    BitsResult d m val st (st.qset d m x) := by
  unfold Strand.qset
  refine ⟨fun t ht hm hd => ?_, fun k t ht h => ?_, ?_⟩
  · simp only [mHas] at hm ⊢
    rw [if_neg hd]
    simp only [Strand.qget, if_neg hd, cget_cput, if_true, BitVec.getLsbD_or, BitVec.getLsbD_and, BitVec.getLsbD_not, hm, ht]
    simp [hv t ht]
  · simp only [mHas] at h ⊢
    split
    · rfl
    · next hd =>
      simp only [Strand.qget]
      split
      · rfl
      · simp only [cget_cput]
        split
        · next he =>
          have hm : m.getLsbD t = false := h.resolve_right (fun hn => hn he)
          simp only [BitVec.getLsbD_or, BitVec.getLsbD_and, BitVec.getLsbD_not, hm, ht, he]
          simp
        · rfl
  · split
    · rfl
    · rfl

theorem qtos_eq (f : LFields) : qtosExec f = qtosRef f := by
  funext st m
  unfold qtosExec qtosRef
  simp only [beq_iff_eq]
  congr 2
  split
  · rfl
  · exact (BitVec.and_allOnes).symm

/-- A step for each thread of a mask, thread by thread. -/
theorem eachThread_ind {α : Type} (m : Mask) (g : Nat → α → α) (x : α) (P : (Nat → Prop) → α → Prop)
    (h0 : P (fun _ => False) x)
    (hs : ∀ D t a, t < 16 → mHas m t = true → ¬ D t → P D a → P (fun k => D k ∨ k = t) (g t a)) :
    ∃ D, (∀ t, t < 16 → mHas m t = true → D t) ∧ (∀ t, D t → t < 16 ∧ mHas m t = true) ∧ P D (eachThread m g x) := by
  unfold eachThread
  suffices ∀ (l : List Nat) (D : Nat → Prop) (a : α), l.Nodup → (∀ t ∈ l, t < 16 ∧ mHas m t = true ∧ ¬ D t) →
      (∀ t, D t → t < 16 ∧ mHas m t = true) → P D a →
      ∃ E, (∀ t, (D t ∨ t ∈ l) → E t) ∧ (∀ t, E t → t < 16 ∧ mHas m t = true) ∧ P E (l.foldl (fun a t => g t a) a) by
    obtain ⟨E, h1, h2, h3⟩ := this ((List.range 16).filter (mHas m)) (fun _ => False) x (List.nodup_range.filter _)
      (fun t ht => by simp at ht; exact ⟨ht.1, ht.2, not_false⟩) (fun t h => h.elim) h0
    exact ⟨E, fun t ht hm => h1 t (.inr (by simp [ht, hm])), h2, h3⟩
  intro l
  induction l with
  | nil => exact fun D a _ _ hD h => ⟨D, fun t ht => ht.elim id (by simp), hD, h⟩
  | cons t l ih =>
    intro D a hn hl hD h
    obtain ⟨h1, h2, h3⟩ := hl t (by simp)
    obtain ⟨E, e1, e2, e3⟩ := ih (fun k => D k ∨ k = t) (g t a) (List.nodup_cons.1 hn).2
      (fun k hk => ⟨(hl k (by simp [hk])).1, (hl k (by simp [hk])).2.1, fun h => h.elim (hl k (by simp [hk])).2.2
        (fun e => (List.nodup_cons.1 hn).1 (e ▸ hk))⟩)
      (fun k hk => hk.elim (hD k) (fun e => e ▸ ⟨h1, h2⟩)) (hs D t a h1 h2 h3 h)
    refine ⟨E, fun k hk => e1 k ?_, e2, e3⟩
    simp only [List.mem_cons] at hk
    tauto

/-- Index registers written thread by thread. -/
theorem eachThread_xset (k : Nat) (m : Mask) (val : Nat → BitVec 16) (g : Nat → Strand → Strand) (st : Strand)
    (hg : ∀ t u, t < 16 → u.xget k t = st.xget k t → g t u = u.xset k t (val t)) :
    IndexResult k m val st (eachThread m g st) := by
  obtain ⟨D, h1, h2, h3, h4, h5⟩ := eachThread_ind m g st
    (fun D u => (∀ t, t < 16 → D t → u.xget k t = val t) ∧
      (∀ j t, t < 16 → (¬ D t ∨ j ≠ k) → u.xget j t = st.xget j t) ∧ u = { st with x := u.x })
    ⟨fun _ _ h => h.elim, fun _ _ _ _ => rfl, rfl⟩ (by
      intro D t u ht hm hD ⟨h1, h2, h3⟩
      rw [hg t u ht (h2 k t ht (.inl hD))]
      refine ⟨fun v hv h => ?_, fun j v hv h => ?_, ?_⟩
      · simp only [Strand.xget, Strand.xset, cget_cput]
        split
        · next e => rw [show v = t by omega]
        · next e => exact h1 v hv (h.resolve_right (fun e2 => e (by rw [e2])))
      · simp only [Strand.xget, Strand.xset, cget_cput]
        rw [if_neg]
        · exact h2 j v hv (h.imp (fun n hd => n (.inl hd)) id)
        · intro e
          have : j = k ∧ v = t := by omega
          exact h.elim (fun n => n (.inr this.2)) (fun n => n this.1)
      · rw [h3]; rfl)
  exact ⟨fun t ht hm => h3 t ht (h1 t ht hm), fun j t ht h => h4 j t ht (h.imp (fun e hD => by
    have := (h2 t hD).2; rw [e] at this; exact absurd this (by decide)) id), h5⟩

theorem setfmt_word (a fmt : Word) :
    (fmt &&& ~~~0xF#32) ||| (a &&& 0xF) = fmt.extractLsb' 4 28 ++ a.extractLsb' 0 4 := by
  apply BitVec.eq_of_getLsbD_eq
  intro i hi
  have : (0xF#32).getLsbD i = decide (i < 4) := by
    revert i; decide
  have h0 : (0xF : Word) = 0xF#32 := rfl
  simp only [BitVec.getLsbD_append, BitVec.getLsbD_or, BitVec.getLsbD_and, BitVec.getLsbD_not, BitVec.getLsbD_extractLsb',
    h0, this]
  by_cases h4 : i < 4
  · simp only [h4, hi, decide_true, Bool.not_true, Bool.and_false, Bool.and_true, Bool.false_or, Bool.true_and, if_true,
      Nat.zero_add]
  · simp only [h4, hi, decide_false, decide_true, Bool.not_false, Bool.and_false, Bool.and_true, Bool.or_false, Bool.true_and,
      if_false, show i - 4 < 28 by omega, show 4 + (i - 4) = i by omega]

theorem m3_two {sp : OpSpec} {f : LFields} (h : sp.ok f = true) (e : sp.m3 = 3) : f.m3 = 0 ∨ f.m3 = 1 := m3_01 3 h e (by decide)

theorem getfmt_word (x : Word) : x &&& 0x003FFFFF = (x.extractLsb' 0 22).zeroExtend 32 := by
  apply BitVec.eq_of_toNat_eq
  have : x.toNat &&& 4194303 = x.toNat % 2 ^ 22 := Nat.and_two_pow_sub_one_eq_mod x.toNat 22
  simp [BitVec.extractLsb'_toNat, this]
  omega

theorem getfmt_eq (f : LFields) : (fun (st : Strand) (_ : Mask) => st.sset (f.d.toNat - 0x80) (st.fmt &&& 0x003FFFFF)) = getfmtRef f := by
  funext st m
  rw [getfmt_word]
  rfl

/-- The end of an instruction whose scoreboard is not its row's. -/
theorem ends_retire_rdy (s : State) (id : Nat) (st u v : Strand) (dn : Done) (hv : v = { u with rdy := v.rdy })
    (hr : u.runCount = st.runCount) : Ends s (s.retire id v dn) id st u dn.len dn.xfer dn.e dn.ends := by
  obtain ⟨h1, w, h2, h3, h4⟩ := ends_retire s id st v dn (by rw [hv]; exact hr)
  have e1 : v.run = u.run := by rw [hv]
  have e2 : v.sts = u.sts := by rw [hv]
  refine ⟨h1, w, h2, ?_, by rw [h4, e1]⟩
  rw [h3, e2, hv]
  unfold Strand.advance
  simp only
  split
  · rfl
  · split <;> rfl

theorem outOf_word (f : LFields) (x : DWord) (st : Strand) : scalarOut f x st = outRef f (x.truncate 32) x st := by
  unfold scalarOut outRef
  by_cases h : f.m3 = 7 <;> simp [h]

theorem leVal_lt (l : List Byte) : leVal l < 256 ^ l.length := by
  induction l with
  | nil => simp [leVal]
  | cons b l ih =>
    have := b.isLt
    simp only [leVal, List.length_cons, Nat.pow_succ]
    omega

/-- A byte of a little-endian value. -/
theorem leVal_byte (l : List Byte) (j : Nat) (hl : l.length ≤ 8) (hj : j < l.length) :
    (BitVec.ofNat 64 (leVal l)).extractLsb' (8 * j) 8 = l[j] := by
  suffices ∀ (l : List Byte) (j : Nat) (h : j < l.length), leVal l / 2 ^ (8 * j) % 256 = (l[j]).toNat by
    apply BitVec.eq_of_toNat_eq
    rw [BitVec.extractLsb'_toNat, BitVec.toNat_ofNat, Nat.shiftRight_eq_div_pow, ← this l j hj]
    have hlt := leVal_lt l
    have : leVal l < 2 ^ 64 := Nat.lt_of_lt_of_le hlt (by
      rw [show (256 : Nat) = 2 ^ 8 from rfl, ← Nat.pow_mul]
      exact Nat.pow_le_pow_right (by decide) (by omega))
    rw [Nat.mod_eq_of_lt this]
  intro l
  induction l with
  | nil => simp
  | cons b l ih =>
    intro j h
    have hb := b.isLt
    cases j with
    | zero => simp [leVal]; omega
    | succ j =>
      simp only [List.getElem_cons_succ]
      rw [← ih j (by simpa using h)]
      simp only [leVal]
      rw [show 8 * (j + 1) = 8 + 8 * j by omega, Nat.pow_add, ← Nat.div_div_eq_div_mul]
      congr 2
      omega

theorem xset_result (f : LFields) (st : Strand) (m : Mask) : IndexResult f.d.toNat m
    (fun t => if f.m3 = 0 then st.indexSource f t else st.xget f.d.toNat t + st.indexSource f t) st (xsetExec f st m) :=
  eachThread_xset _ _ _ _ _ fun t u _ _ => by
    simp only [Strand.indexSource, beq_iff_eq]

theorem exec_xset {f : LFields} {s : State} {id : Nat} {st : Strand}
    (hp : Passes (.xset f) (rowOf (.xset f)) f noPre s id st) :
    ∃ t u, exec (.xset f) s = .next t ∧ (st.nowAdm (rowOf (.xset f)) f = 0 → u = st) ∧
      (st.nowAdm (rowOf (.xset f)) f ≠ 0 → IndexResult f.d.toNat (st.nowAdm (rowOf (.xset f)) f)
        (fun t => if f.m3 = 0 then st.indexSource f t else st.xget f.d.toNat t + st.indexSource f t) st u) ∧
      Ends s t id st u 8 none (f.e == 1) false := by
  obtain ⟨t, u, h1, h2, h3, h4⟩ := exec_once hp rfl fun _ => by
    rw [(xset_result f st _).rest]
  exact ⟨t, u, h1, h2, fun h => h3 h ▸ xset_result f st _, h4⟩

theorem sfadd_eq (f : LFields) : sfExec (fun g e a b _ => fpAdd g e a b) f = faddRef f := rfl
theorem sfmul_eq (f : LFields) : sfExec (fun g e a b _ => fpMul g e a b) f = fmulRef f := rfl
theorem sffma_eq (f : LFields) (h : f.c ≠ 0) : sfExec fpFma f = ffmaRef f := by
  funext st m
  simp only [sfExec, ffmaRef, if_neg h]
  rfl
theorem sfcvt_eq (f : LFields) : sfcvtExec f = fcvtRef f := by
  funext st m
  have e : (if (f.w == 1) = true then ({ FEnv.ofFmt st.fmt with rm := RMode.ofBits f.h } : FEnv) else FEnv.ofFmt st.fmt) =
      { FEnv.ofFmt st.fmt with rm := if f.w = 1 then RMode.ofBits f.h else (FEnv.ofFmt st.fmt).rm } := by
    by_cases h : f.w = 1
    · simp [h]
    · simp only [beq_iff_eq, if_neg h]
  simp only [sfcvtExec, fcvtRef, e]
  rfl

theorem c_ne {sp : OpSpec} {f : LFields} (h : sp.ok f = true) (e : sp.c = fs .sk 1 1) : f.c ≠ 0 := by
  simp only [OpSpec.ok, Bool.and_eq_true] at h
  have := h.1.1.1.1.1.1.1.2
  rw [e] at this
  intro h0
  rw [h0] at this
  exact absurd this (by decide)

end Sys2Proof.Machine
end

