-- ==== Sys2Proof/Laws/Control.lean ====
section
/-! SUPPORT. Where the control instructions leave a strand, and what taking a trap does. -/

namespace Sys2Proof.Machine

@[simp] theorem advance_sts (u : Strand) (len : Nat) (x : Option Xfer) : (u.advance len x).sts = u.sts := by
  unfold Strand.advance; split
  · rfl
  · split <;> rfl
@[simp] theorem advance_run (u : Strand) (len : Nat) (x : Option Xfer) : (u.advance len x).run = u.run := by
  unfold Strand.advance; split
  · rfl
  · split <;> rfl
@[simp] theorem advance_runCount (u : Strand) (len : Nat) (x : Option Xfer) : (u.advance len x).runCount = u.runCount := by
  unfold Strand.advance; split
  · rfl
  · split <;> rfl

@[simp] theorem advance_engErrs (u : Strand) (len : Nat) (x : Option Xfer) : (u.advance len x).engErrs = u.engErrs := by
  unfold Strand.advance; split
  · rfl
  · split <;> rfl

theorem stands_of_ends {s t : State} {id : Nat} {st u : Strand} {len : Nat} {x : Option Xfer} {e ends : Bool}
    (h : Ends s t id st u len x e ends) : Stands s t id st (u.advance len x) e ends := by
  obtain ⟨h1, w, h2, h3, h4⟩ := h
  exact ⟨h1, w, h2, by rw [h3, advance_sts], by rw [h4, advance_run]⟩

theorem advance_jump (u : Strand) (len : Nat) (t : DWord) (b : Bool) : u.advance len (jump t b) = u.goTo t := rfl

theorem ljTarget_eq (st : Strand) (f : LFields) : ljTarget st f = st.ahead24 f := by
  unfold ljTarget Strand.ahead24 off24
  generalize (f.c ++ f.b ++ f.a).signExtend 64 = x
  congr 1

theorem stands_endAt (s : State) (id : Nat) (st u : Strand) (adm : Mask) (sp : OpSpec) (f : LFields) (len : Nat) (x : Option Xfer)
    (hr : u.runCount = st.runCount) :
    Stands s (s.endAt { id := id, st := st, adm := adm } sp f len u x) id st (u.advance len x) (f.e == 1) false := by
  unfold State.endAt
  exact stands_of_ends (ends_retire_rdy s id st u _ { doneOf sp f len (st.writtenRegs sp f adm) with xfer := x } rfl hr)

theorem stands_finish (s : State) (id : Nat) (st u : Strand) (adm : Mask) (sp : OpSpec) (f : LFields) (len : Nat)
    (hr : u.runCount = st.runCount) (hw : st.cutAt = none) :
    Stands s (s.finish { id := id, st := st, adm := adm } sp f len u) id st (u.advance len none) (f.e == 1) false :=
  stands_of_ends (ends_finish s id st u adm sp f len hr hw)

theorem bra_goes {i : Instr} {f : LFields} {sp : OpSpec} {len : Nat} {s : State} {id : Nat} {st : Strand}
    (hp : Passes i sp f noPre s id st) : ∃ t, braExec i sp f len s = .next t ∧
      Stands s t id st (if st.nowAdm sp f = 0 then st.advance len none else st.goTo (st.ahead24 f)) (f.e == 1) false := by
  refine ⟨_, by unfold braExec; rw [issue_go hp], ?_⟩
  have h := stands_endAt s id st st (st.nowAdm sp f) sp f len
    (if st.nowAdm sp f = 0 then none else jump (ljTarget st f) true) rfl
  convert h using 1
  split
  · rfl
  · rw [advance_jump, ljTarget_eq]

theorem rcv_goes {i : Instr} {f : LFields} {sp : OpSpec} {len : Nat} {s : State} {id : Nat} {st : Strand}
    (hp : Passes i sp f noPre s id st) : ∃ t, rcvExec i sp f len s = .next t ∧
      Stands s t id st (if st.nowAdm sp f = 0 then st.advance len none
        else ({ st with rpc := st.ahead24 f, rpcv := true } : Strand).advance len none) (f.e == 1) false := by
  refine ⟨_, by unfold rcvExec; rw [issue_go hp], ?_⟩
  split
  · exact stands_finish s id st st _ sp f len rfl hp.whole
  · simp only [ljTarget_eq]; exact stands_finish s id st _ _ sp f len rfl hp.whole

theorem call_goes {i : Instr} {f : LFields} {sp : OpSpec} {len : Nat} {s : State} {id : Nat} {st : Strand}
    (hp : Passes i sp f noPre s id st) : ∃ t, callExec i sp f len s = .next t ∧
      Stands s t id st (if st.nowAdm sp f = 0 then st.advance len none
        else (st.sset64 (f.d.toNat - 128) (st.past len)).goTo (st.ahead24 f)) (f.e == 1) false := by
  unfold callExec; rw [issue_go hp]
  by_cases h : st.nowAdm sp f = 0
  · simp only [if_pos h]; exact ⟨_, rfl, stands_finish s id st st _ sp f len rfl hp.whole⟩
  · simp only [if_neg h, ljTarget_eq]; exact ⟨_, rfl, stands_endAt s id st _ _ sp f len _ rfl⟩

theorem loop_goes {i : Instr} {f : LFields} {sp : OpSpec} {len : Nat} {s : State} {id : Nat} {st : Strand}
    (hp : Passes i sp f noPre s id st) : ∃ t, loopExec i sp f len s = .next t ∧
      Stands s t id st (if st.nowAdm sp f = 0 then st.advance len none else
        let u := st.sset (f.d.toNat - 128) (st.sget (f.d.toNat - 128) - 1)
        if st.sget (f.d.toNat - 128) - 1 = 0 then u.advance len none else u.goTo (st.ahead24 f)) (f.e == 1) false := by
  unfold loopExec; rw [issue_go hp]
  by_cases h : st.nowAdm sp f = 0
  · simp only [if_pos h]; exact ⟨_, rfl, stands_finish s id st st _ sp f len rfl hp.whole⟩
  · simp only [if_neg h, ljTarget_eq]
    by_cases hc : st.sget (f.d.toNat - 128) - 1 = 0
    · simp only [if_pos hc]; exact ⟨_, rfl, stands_endAt s id st _ _ sp f len none rfl⟩
    · simp only [if_neg hc]; exact ⟨_, rfl, stands_endAt s id st _ _ sp f len (jump _ true) rfl⟩

theorem yield_goes {i : Instr} {f : LFields} {sp : OpSpec} {len : Nat} {s : State} {id : Nat} {st : Strand}
    (hp : Passes i sp f noPre s id st) : ∃ t, yieldExec i sp f len s = .next t ∧
      Stands s t id st (st.advance len none) (f.e == 1) true := by
  unfold yieldExec; rw [issue_go hp]
  exact ⟨_, rfl, stands_of_ends (ends_retire s id st st { doneOf sp f len [] with ends := true } rfl)⟩

theorem badTarget_good {t : DWord} (h : goodTarget t) : badTarget t = none := by
  unfold goodTarget at h
  unfold badTarget
  rw [if_neg (by simp; omega), if_neg (by simp; omega)]

theorem stands_retireWith (s : State) (id : Nat) (st r v : Strand) (dn : Done) (adv : Strand → Strand)
    (hr : r.runCount = st.runCount) (hv : (adv r).plain = v.plain) (hs : v.sts = r.sts) (hk : v.run = r.run) :
    Stands s (s.retireWith id r dn adv) id st v dn.e dn.ends := by
  unfold State.retireWith
  refine ⟨?_, r.behind (s.die r.d).clk dn adv, State.strand_putStrand_same _ _ _, ?_, ?_⟩
  · refine OnlyStrand.trans ?_ (onlyStrand_putStrand _ _ _)
    split
    · exact onlyStrand_freeLane _ _ _ _
    · exact onlyStrand_refl _ _
  · have h1 : (r.behind (s.die r.d).clk dn adv).plain =
        { (adv r).plain with sts := st.endSts dn.e dn.ends r.sts } := by
      simp only [Strand.plain, Strand.behind, Strand.endSts, Strand.runFull, hr]
      cases dn.e <;> cases dn.ends <;> simp
    rw [h1, hv, ← hs]
    simp only [Strand.plain]
  · simp only [Strand.runEnds, Strand.behind, Strand.runOver, hr, hk]

theorem stands_endDiverged (s : State) (id : Nat) (st r : Strand) (adm : Mask) (sp : OpSpec) (f : LFields) (len : Nat) (b : Bool)
    (hr : r.runCount = st.runCount) :
    Stands s (s.endDiverged { id := id, st := st, adm := adm } sp f len r b) id st { r with resume := none } (f.e == 1) false := by
  unfold State.endDiverged
  exact stands_retireWith s id st _ _ _ _ hr rfl rfl rfl

theorem nowAdm_mask (st : Strand) (sp : OpSpec) (f : LFields) : st.nowAdm sp f &&& st.mask = st.nowAdm sp f := by
  have hi : st.issueMask f &&& st.mask = st.issueMask f := by
    unfold Strand.issueMask Strand.admitted
    split
    · rw [BitVec.and_comm, ← BitVec.and_assoc, BitVec.and_self]
    · exact BitVec.and_self
  have ha : st.allNow sp f &&& st.mask = st.allNow sp f := by
    unfold Strand.allNow
    split
    · exact BitVec.and_self
    · exact hi
  unfold Strand.nowAdm Strand.left
  split
  · split
    · rw [BitVec.and_assoc, BitVec.and_comm _ st.mask, ← BitVec.and_assoc, ha]
    · exact ha
  · exact ha

theorem admitted_taken (st : Strand) (sp : OpSpec) (f : LFields) :
    st.admitted f &&& st.nowAdm sp f = st.taken f (st.nowAdm sp f) := by
  have h := nowAdm_mask st sp f
  unfold Strand.admitted Strand.taken
  simp only [beq_iff_eq]
  generalize st.nowAdm sp f = m at *
  generalize (if f.gn = 1 then ~~~st.qget f.g6.toNat else st.qget f.g6.toNat) = g
  rw [BitVec.and_comm, ← BitVec.and_assoc, h]

theorem parted_eq {st r : Strand} {paths : List (DWord × Mask)} (h : st.diverge paths = some r) :
    st.parted paths = { r with resume := none } := by unfold Strand.parted; rw [h]

theorem firstOf_rest {st r : Strand} {go : List (DWord × Mask)} {w : BitVec 64} {fmt : Word} {stack : List StackEntry}
    (h : st.firstOf go w fmt stack = some r) :
    r = { st with pc := r.pc, mask := r.mask, low := r.low, written := w, fmt := fmt, stack := stack, rpcv := false } := by
  unfold Strand.firstOf at h
  split at h
  · cases h
  · split at h <;> cases h <;> rfl

theorem diverge_runCount {st r : Strand} {paths : List (DWord × Mask)} (h : st.diverge paths = some r) :
    r.runCount = st.runCount := by
  rw [firstOf_rest h]

theorem splitPaths_eq (st : Strand) (f : LFields) (len : Nat) (m : Mask) :
    splitPaths (st.taken f m) (ljTarget st f) (st.mask &&& ~~~st.taken f m) (st.pc + BitVec.ofNat 64 len) = st.divPaths f len m := by
  unfold splitPaths Strand.divPaths Strand.notTaken Strand.past
  rw [ljTarget_eq]

theorem div_goes {i : Instr} {f : LFields} {sp : OpSpec} {len : Nat} {s : State} {id : Nat} {st : Strand}
    (hp : Passes i sp f (divPre f) s id st) (hok : st.nowAdm sp f ≠ 0 → st.divOk f len (st.nowAdm sp f)) :
    ∃ t, divExec i sp f len s = .next t ∧ Stands s t id st
      (if st.nowAdm sp f = 0 then st.advance len none else st.divGoes f len (st.nowAdm sp f)) (f.e == 1) false := by
  unfold divExec; rw [issue_go hp]
  by_cases h : st.nowAdm sp f = 0
  · simp only [if_pos h]; exact ⟨_, rfl, stands_finish s id st st _ sp f len rfl hp.whole⟩
  · simp only [if_neg h, Strand.divGoes, admitted_taken]
    have hok := hok h
    by_cases ht : st.taken f (st.nowAdm sp f) = 0
    · simp only [if_pos ht]; exact ⟨_, rfl, stands_finish s id st _ _ sp f len rfl hp.whole⟩
    · simp only [if_neg ht]
      by_cases hm : st.taken f (st.nowAdm sp f) = st.mask
      · simp only [if_pos hm, ljTarget_eq]; exact ⟨_, rfl, stands_endAt s id st _ _ sp f len (jump _ false) rfl⟩
      · simp only [if_neg hm, splitPaths_eq]
        obtain ⟨r, hr⟩ := Option.isSome_iff_exists.mp (hok ht hm)
        rw [hr, parted_eq hr]
        exact ⟨_, rfl, stands_endDiverged s id st r _ sp f len false (diverge_runCount hr)⟩

theorem brx_goes {f : LFields} {s : State} {id : Nat} {st : Strand}
    (hp : Passes (.brx f) (rowOf (.brx f)) f (brxPre f) s id st) (hok : st.nowAdm (rowOf (.brx f)) f ≠ 0 → st.brxOk f (st.nowAdm (rowOf (.brx f)) f)) : ∃ t, execBrx f s = .next t ∧
      Stands s t id st (if st.nowAdm (rowOf (.brx f)) f = 0 then st.advance 8 none else st.brxGoes f (st.nowAdm (rowOf (.brx f)) f)) (f.e == 1) false := by
  unfold execBrx; simp only; rw [issue_go hp]
  by_cases h : st.nowAdm (rowOf (.brx f)) f = 0
  · simp only [if_pos h]; exact ⟨_, rfl, stands_finish s id st st _ _ f 8 rfl hp.whole⟩
  · have hk := hok h
    unfold Strand.brxOk at hk
    unfold Strand.brxGoes
    simp only [if_neg h]
    by_cases hn : 128 ≤ f.a.toNat
    · simp only [if_pos hn] at hk ⊢
      rw [badTarget_good hk]
      exact ⟨_, rfl, stands_endAt s id st _ _ _ f 8 (jump _ true) rfl⟩
    · simp only [if_neg hn] at hk ⊢
      have hodd : ((brxPaths st (st.nowAdm (rowOf (.brx f)) f) f.a.toNat).any fun p => p.1.toNat % 2 == 1) = false := by
        simp only [List.any_eq_false, beq_iff_eq]
        intro p hp
        have := hk.1 p hp
        omega
      rcases hps : brxPaths st (st.nowAdm (rowOf (.brx f)) f) f.a.toNat with _ | ⟨p, _ | ⟨q, l⟩⟩
      · rw [hps] at hk hodd
        obtain ⟨r, hr⟩ := Option.isSome_iff_exists.mp (hk.2 (by simp))
        simp only [hr, hodd, parted_eq hr]
        exact ⟨_, rfl, stands_endDiverged s id st r _ _ f 8 true (diverge_runCount hr)⟩
      · rw [hps] at hodd
        simp only [hodd]
        exact ⟨_, rfl, stands_endAt s id st _ _ _ f 8 (jump _ true) rfl⟩
      · rw [hps] at hk hodd
        obtain ⟨r, hr⟩ := Option.isSome_iff_exists.mp (hk.2 (by simp))
        simp only [hr, hodd, parted_eq hr]
        exact ⟨_, rfl, stands_endDiverged s id st r _ _ f 8 true (diverge_runCount hr)⟩

theorem ret_goes {f : LFields} {s : State} {id : Nat} {st : Strand}
    (hp : Passes (.ret f) (rowOf (.ret f)) f noPre s id st)
    (hok : st.nowAdm (rowOf (.ret f)) f ≠ 0 → goodTarget (st.sget64 (f.a.toNat - 128))) : ∃ t, execRet f s = .next t ∧
      Stands s t id st (if st.nowAdm (rowOf (.ret f)) f = 0 then st.advance 8 none
        else st.goTo (st.sget64 (f.a.toNat - 128))) (f.e == 1) false := by
  unfold execRet; simp only; rw [issue_go hp]
  by_cases h : st.nowAdm (rowOf (.ret f)) f = 0
  · simp only [if_pos h]; exact ⟨_, rfl, stands_finish s id st st _ _ f 8 rfl hp.whole⟩
  · simp only [if_neg h]
    rw [badTarget_good (hok h)]
    exact ⟨_, rfl, stands_endAt s id st _ _ _ f 8 (jump _ false) rfl⟩

theorem nop_goes {f : LFields} {s : State} {id : Nat} {st : Strand}
    (hp : Passes (.nop f) (rowOf (.nop f)) f noPre s id st) : ∃ t, execNop f s = .next t ∧
      Stands s t id st (st.advance 8 none) (f.e == 1) false := by
  unfold execNop execOnce; rw [issue_go hp]
  refine ⟨_, rfl, ?_⟩
  simp only [ite_self]
  exact stands_finish s id st st _ _ f 8 rfl hp.whole

theorem causeWord_ref (c : Cause) (n : Nat) : causeWord c n none = causeRef c n := by
  unfold causeWord causeRef
  apply BitVec.eq_of_toNat_eq
  simp only [BitVec.toNat_append, BitVec.toNat_ofNat, Nat.shiftLeft_eq]
  have h : c.code < 256 := by cases c <;> decide
  rw [Nat.mod_eq_of_lt (by omega : c.code < 2 ^ 8)]
  simp
  rw [Nat.mod_eq_of_lt (by omega)]
  rw [Nat.or_comm, show n % 65536 * 256 = n % 65536 * 2 ^ 8 from rfl, ← Nat.shiftLeft_eq, Nat.or_comm, ← Nat.shiftLeft_add_eq_or_of_lt (by simpa using h)]
  omega

/-- Taking a trap outside Handler, in a context with a vector: what `Trapped` says. -/
theorem trapped_takeTrap {s : State} {id : Nat} {st : Strand} {c : Cause} {detail : Nat} {emask : Mask}
    (h : st.canTrap s) : Trapped s (s.trapAtIssue id st c detail emask) id st c detail emask := by
  unfold State.trapAtIssue State.takeTrap
  simp only
  rw [if_neg (by rintro (a | a); · simp [h.1] at a
                 · exact h.2 a)]
  refine ⟨onlyStrand_putStrand _ _ _, _,
    { epc0 := st.pc, emask0 := emask, depth := st.stack.length, rpc := st.rpc, rpcv := st.rpcv,
      resume := some { elem := st.elemNow, mask := emask, kept := st.keptNow, upto := none }, firstOp := st.nextOp },
    State.strand_putStrand_same _ _ _, rfl, rfl, rfl, rfl, rfl, rfl, ?_⟩
  rw [causeWord_ref]
  rfl

end Sys2Proof.Machine
end

