-- ==== Sys2Proof/Laws/Memory.lean ====
section
/-! SUPPORT. What each operation over memory and the caches does, said once: memory keeps its canonical form, nothing but memory, the
dies, the device's waiting writes, the tag numbers and the list of contexts that lost a write differs, and a byte reads as it
was written. -/

namespace Sys2Proof.Machine

/-- Nothing but memory, the dies, the writes of the device that wait, the tag numbers and the contexts that lost a write differs. -/
def OnlyMemory (s t : State) : Prop :=
  { t with mem := [], dies := [], lostCtx := [], devQ := [], tagNo := [] } =
    { s with mem := [], dies := [], lostCtx := [], devQ := [], tagNo := [] }

/-- An operation over memory and the caches: memory keeps its canonical form, and nothing but what `OnlyMemory` names differs. -/
structure Stores (s t : State) : Prop where
  kept : cellsOk s.mem = true → cellsOk t.mem = true
  only : OnlyMemory s t

theorem Stores.refl (s : State) : Stores s s := ⟨id, rfl⟩
theorem Stores.trans {s t u : State} (h : Stores s t) (k : Stores t u) : Stores s u :=
  ⟨fun x => k.kept (h.kept x), Eq.trans k.only h.only⟩
theorem Stores.foldl {α : Type} (g : State → α → State) (h : ∀ s x, Stores s (g s x)) (l : List α) (s : State) :
    Stores s (l.foldl g s) := by
  induction l generalizing s with
  | nil => exact Stores.refl s
  | cons a l ih => exact (h s a).trans (ih _)
theorem Stores.foldr {α : Type} (g : α → State → State) (h : ∀ s x, Stores s (g x s)) (l : List α) (s : State) :
    Stores s (l.foldr g s) := by
  induction l with
  | nil => exact Stores.refl s
  | cons a l ih => exact ih.trans (h _ a)
theorem Stores.strands {s t : State} (h : Stores s t) : t.strands = s.strands := by
  have h2 := congrArg State.strands h.only; exact h2
theorem Stores.ctxs {s t : State} (h : Stores s t) : t.ctxs = s.ctxs := by
  have h2 := congrArg State.ctxs h.only; exact h2
theorem Stores.links {s t : State} (h : Stores s t) : t.links = s.links := by
  have h2 := congrArg State.links h.only; exact h2
theorem Stores.gtime {s t : State} (h : Stores s t) : t.gtime = s.gtime := by
  have h2 := congrArg State.gtime h.only; exact h2
theorem Stores.boot {s t : State} (h : Stores s t) : t.boot = s.boot := by
  have h2 := congrArg State.boot h.only; exact h2

/-! What keeps every byte at home: changes of the dies. -/

theorem modDie_stores (s : State) (d : Nat) (g : Die → Die) : Stores s (s.modDie d g) := ⟨id, rfl⟩
theorem modCore_stores (s : State) (d c : Nat) (g : Core → Core) : Stores s (s.modCore d c g) := ⟨id, rfl⟩
theorem putDie_stores (s : State) (d : Nat) (x : Die) : Stores s (s.putDie d x) := ⟨id, rfl⟩
theorem sliceUse_stores (s : State) (d line hint : Nat) : Stores s (s.sliceUse d line hint) := modDie_stores _ _ _
theorem l1Use_stores (s : State) (d c line hint : Nat) : Stores s (s.l1Use d c line hint) := modCore_stores _ _ _ _
theorem tidy_stores (s : State) (d : Nat) : Stores s (s.tidy d) := modDie_stores _ _ _
theorem noteDirty_stores (s : State) (d line : Nat) : Stores s (s.noteDirty d line) := modDie_stores _ _ _
theorem found_stores (s : State) (l : List Nat) : Stores s (s.found l) := Stores.foldl _ (fun s _ => modDie_stores s _ _) _ _
theorem update_stores (s : State) (d c e line : Nat) (v : Option Nat) : Stores s (s.update d c e line v) := ⟨id, rfl⟩
theorem noteHome_stores (s : State) (pa n : Nat) : Stores s (s.noteHome pa n) :=
  (Stores.foldl _ (fun s _ => noteDirty_stores s _ _) _ _).trans (found_stores _ _)

theorem mem_noteDirty (s : State) (d line : Nat) : (s.noteDirty d line).mem = s.mem := rfl
theorem mem_foldl {α : Type} (g : State → α → State) (h : ∀ s x, (g s x).mem = s.mem) (l : List α) (s : State) :
    (l.foldl g s).mem = s.mem := by
  induction l generalizing s with
  | nil => rfl
  | cons a l ih => exact (ih _).trans (h s a)
theorem mem_found (l : List Nat) (s : State) : (s.found l).mem = s.mem :=
  mem_foldl (fun (s : State) n => s.modDie (homeDie (128 * n)) fun x => { x with lost := x.lost.filter (· != n) })
    (fun _ _ => rfl) l s
theorem mem_noteHome (s : State) (pa n : Nat) : (s.noteHome pa n).mem = s.mem :=
  (mem_found _ _).trans (mem_foldl (fun (s : State) l => s.noteDirty (homeDie (128 * l)) l) (fun _ _ => rfl) _ s)

/-- A line that is written back, parked or held changes no byte (R409, R410). -/
theorem lineBack_stores (s : State) (line : Nat) : Stores s (s.lineBack line) := by
  unfold State.lineBack
  dsimp only
  split
  · exact Stores.refl s
  · split
    · exact Stores.refl s
    · split
      · exact (modDie_stores _ _ _).trans (tidy_stores _ _)
      · exact (modDie_stores _ _ _).trans (tidy_stores _ _)

/-! Bytes at home. -/

theorem homePut_stores (s : State) (a : Nat) (b : Byte) (n : Nat) : Stores s (s.homePut a b n) :=
  ⟨fun h => cellsOk_cput s.mem a b h, rfl⟩
@[simp] theorem homePut_mem (s : State) (a : Nat) (b : Byte) (n : Nat) : (s.homePut a b n).mem = cput s.mem a b := rfl

theorem homeBytes_stores (bs : List Byte) (s : State) (a n : Nat) : Stores s (s.homeBytes a bs n) := by
  induction bs generalizing s a with
  | nil => exact Stores.refl s
  | cons b r ih => exact (homePut_stores s a b n).trans (ih _ _)
theorem homePuts_stores (bs : List Byte) (s : State) (a n : Nat) : Stores s (s.homePuts a bs n) :=
  (homeBytes_stores bs s a n).trans (noteHome_stores _ _ _)
theorem cget_homeBytes (bs : List Byte) (s : State) (a n x : Nat) :
    cget (s.homeBytes a bs n).mem x = if a ≤ x ∧ x < a + bs.length then nth 0 bs (x - a) else cget s.mem x := by
  induction bs generalizing s a with
  | nil =>
    have : ¬ (a ≤ x ∧ x < a + ([] : List Byte).length) := by simp
    simp only [State.homeBytes, if_neg this]
  | cons b r ih =>
    simp only [State.homeBytes, ih, homePut_mem, List.length_cons]
    by_cases h1 : a + 1 ≤ x ∧ x < a + 1 + r.length
    · have e : x - a = (x - (a + 1)) + 1 := by omega
      rw [if_pos h1, if_pos (by omega), e]; rfl
    · rw [if_neg h1]
      by_cases h2 : x = a
      · subst h2
        rw [if_pos (by omega)]; simp [nth]
      · rw [cget_cput_ne _ _ _ _ h2, if_neg (by omega)]
/-- Bytes read as they were written, and every other byte as before. -/
theorem cget_homePuts (bs : List Byte) (s : State) (a n x : Nat) :
    cget (s.homePuts a bs n).mem x = if a ≤ x ∧ x < a + bs.length then nth 0 bs (x - a) else cget s.mem x := by
  unfold State.homePuts
  rw [mem_noteHome, cget_homeBytes]

theorem sendPut_stores (s : State) (d a : Nat) (b : Byte) (n : Nat) : Stores s (s.sendPut d a b n) := by
  unfold State.sendPut
  split
  · split <;> exact ⟨id, rfl⟩
  · exact homePut_stores s a b n
theorem zeroRange_stores (s : State) (a n : Nat) : Stores s (s.zeroRange a n) :=
  ⟨fun h => cellsOk_cclear s.mem a (a + n) h, rfl⟩

/-! A die's copies and a core's column. -/

theorem diePut_stores (s : State) (d a : Nat) (b : Byte) (n : Nat) : Stores s (s.diePut d a b n) := by
  unfold State.diePut
  split
  · exact sendPut_stores s d a b n
  · exact modDie_stores _ _ _
theorem corePut_stores (s : State) (d c a : Nat) (b : Byte) (n h : Nat) : Stores s (s.corePut d c a b n h) := by
  unfold State.corePut
  split
  · exact sendPut_stores s d a b n
  · split
    · exact diePut_stores s d a b n
    · exact modCore_stores _ _ _ _
theorem coreBytes_stores (bs : List Byte) (s : State) (d c a n h : Nat) : Stores s (s.coreBytes d c a bs n h) := by
  induction bs generalizing s a with
  | nil => exact Stores.refl s
  | cons b r ih => exact (corePut_stores s d c a b n h).trans (ih _ _)
theorem notePut_stores (s0 s : State) (d c a n h : Nat) : Stores s (State.notePut s0 s d c a n h) := by
  refine Stores.foldl _ (fun s l => ?_) _ _
  split
  · exact l1Use_stores _ _ _ _ _
  · split <;> exact (noteDirty_stores _ _ _).trans (update_stores _ _ _ _ _ _)
theorem corePuts_stores (bs : List Byte) (s : State) (d c a n h : Nat) : Stores s (s.corePuts d c a bs n h) :=
  (coreBytes_stores bs s d c a n h).trans (notePut_stores _ _ _ _ _ _ _)

theorem fillByte_stores (s : State) (d c a : Nat) : Stores s (s.fillByte d c a) := by
  unfold State.fillByte
  dsimp only
  split
  · exact Stores.refl s
  · split
    · exact modCore_stores _ _ _ _
    · exact (modDie_stores _ _ _).trans (modCore_stores _ _ _ _)
theorem fillSector_stores (s : State) (d c a : Nat) : Stores s (s.fillSector d c a) :=
  Stores.foldl _ (fun s _ => fillByte_stores s d c _) _ _
theorem fillSlice_stores (s : State) (d a h : Nat) : Stores s (s.fillSlice d a h) := by
  unfold State.fillSlice
  dsimp only
  split
  · exact sliceUse_stores _ _ _ _
  · refine Stores.trans (Stores.foldl _ (fun s i => ?_) _ _) (sliceUse_stores _ _ _ _)
    split
    · exact Stores.refl s
    · exact modDie_stores _ _ _
theorem touch_stores (s : State) (d c a h : Nat) : Stores s (s.touch d c a h) := by
  unfold State.touch
  split
  · exact Stores.refl s
  · split
    · exact fillSlice_stores s d a h
    · exact ((fillSector_stores s d c a).trans (sliceUse_stores _ _ _ _)).trans (l1Use_stores _ _ _ _ _)

/-! Write-backs, releases and acquires. -/

theorem writeBackL1_stores (s : State) (d c : Nat) (p : Nat → Bool) : Stores s (s.writeBackL1 d c p) :=
  (((Stores.foldr _ (fun s (e : Nat × CByte) => diePut_stores s d e.1 e.2.val e.2.ctx) _ _).trans
    (Stores.foldl _ (fun _ _ => (noteDirty_stores _ _ _).trans (update_stores _ _ _ _ _ _)) _ _)).trans
    (found_stores _ _)).trans (modCore_stores _ _ _ _)
theorem writeBackDie_stores (s : State) (d : Nat) (p : Nat → Bool) : Stores s (s.writeBackDie d p) :=
  ((((Stores.foldr _ (fun s (e : Nat × CByte) => sendPut_stores s d e.1 e.2.val _) _ _).trans
    (Stores.foldl _ (fun _ _ => noteDirty_stores _ _ _) _ _)).trans (found_stores _ _)).trans
    (modDie_stores _ _ _)).trans (tidy_stores _ _)
theorem release_stores (s : State) (d c scope : Nat) (w : Bool) : Stores s (s.release d c scope w) := by
  unfold State.release
  split
  · dsimp only
    split
    · split
      · exact (writeBackL1_stores s d c _).trans (writeBackDie_stores _ d _)
      · exact ((writeBackL1_stores s d c _).trans (writeBackDie_stores _ d _)).trans (modCore_stores _ _ _ _)
    · exact writeBackL1_stores s d c _
  · exact Stores.refl s
theorem acquire_mem (s : State) (d c scope : Nat) (w : Bool) : (s.acquire d c scope w).mem = s.mem := by
  unfold State.acquire
  split
  · dsimp only
    split <;> rfl
  · rfl
theorem acquire_stores (s : State) (d c scope : Nat) (w : Bool) : Stores s (s.acquire d c scope w) := by
  unfold State.acquire
  split
  · dsimp only
    split <;> exact ⟨id, rfl⟩
  · exact Stores.refl s
theorem recordRelease_stores (s : State) (d c : Nat) (l : Option Nat) : Stores s (s.recordRelease d c l) := by
  unfold State.recordRelease
  split
  · exact modCore_stores _ _ _ _
  · split
    · exact Stores.refl s
    · dsimp only
      split
      · exact (release_stores s d c 4 true).trans (modCore_stores _ _ _ _)
      · exact modCore_stores _ _ _ _
theorem promote_stores (s : State) (d c l : Nat) : Stores s (s.promote d c l) := by
  unfold State.promote
  dsimp only
  split
  · exact release_stores s d c 4 true
  · exact Stores.refl s

/-! Replacement. -/

theorem evictL1_stores (s : State) (d c l : Nat) : Stores s (s.evictL1 d c l) :=
  (writeBackL1_stores s d c _).trans (modCore_stores _ _ _ _)
theorem evictAll_stores (s : State) (d c : Nat) (ls : List Nat) : Stores s (s.evictAll d c ls) := by
  refine Stores.foldl _ (fun s l => ?_) _ _
  split
  · exact evictL1_stores s d c l
  · exact Stores.refl s
theorem cleanLine_stores (s : State) (d l : Nat) : Stores s (s.cleanLine d l) := by
  unfold State.cleanLine
  split
  · exact lineBack_stores s l
  · exact writeBackDie_stores s d _
theorem evictSlice_stores (s : State) (d n l : Nat) : Stores s (s.evictSlice d n l) := by
  unfold State.evictSlice
  dsimp only
  split
  · exact cleanLine_stores s d l
  · exact (cleanLine_stores s d l).trans (modDie_stores _ _ _)
theorem replace_stores (s : State) : Stores s s.replace :=
  (Stores.foldl _ (fun _ d => Stores.foldl _ (fun _ c => Stores.foldl _ (fun s l => evictL1_stores s d c l) _ _) _ _) _ _).trans
    (Stores.foldl _ (fun _ d => Stores.foldl _ (fun _ n =>
      (Stores.foldl _ (fun s l => cleanLine_stores s d l) _ _).trans
        (Stores.foldl _ (fun s l => evictSlice_stores s d n l) _ _)) _ _) _ _)
theorem flushRange_stores (s : State) (d c a n : Nat) : Stores s (s.flushRange d c a n) :=
  (((writeBackL1_stores s d c _).trans (modCore_stores _ _ _ _)).trans (writeBackDie_stores _ d _)).trans (modDie_stores _ _ _)
theorem givePage_stores (s : State) (d c a : Nat) : Stores s (s.givePage d c a) :=
  ((((modCore_stores s d c _).trans (modDie_stores _ d _)).trans (zeroRange_stores _ _ _)).trans (modDie_stores _ _ _)).trans
    (modDie_stores _ _ _)

/-! The device's writes. -/

theorem devNow_stores (s : State) (w : DevWr) : Stores s (s.devNow w) := by
  unfold State.devNow
  split
  · exact homePuts_stores _ s _ _
  · exact Stores.refl s
theorem devPuts_stores (s : State) (a : Nat) (bs : List Byte) (n : Nat) : Stores s (s.devPuts a bs n) := by
  unfold State.devPuts
  dsimp only
  split
  · exact ⟨id, rfl⟩
  · exact devNow_stores s _
theorem devFlush_stores (s : State) : Stores s s.devFlush := by
  refine Stores.trans (t := { s with devQ := [] }) ⟨id, rfl⟩ (Stores.foldl _ (fun s w => ?_) _ _)
  split
  · exact ⟨id, rfl⟩
  · exact devNow_stores s w

/-! What releases and acquires leave in a column and in a die. -/

theorem tget_mem {α : Type} (m : Tab α) (a : Nat) (x : α) (h : tget m a = some x) : (a, x) ∈ m := by
  induction m with
  | nil => cases h
  | cons e m ih =>
    obtain ⟨k, v⟩ := e
    simp only [tget] at h
    split at h
    · next hk => subst hk; cases h; exact List.mem_cons_self
    · exact List.mem_cons_of_mem _ (ih h)

/-- Reset's memory is in canonical form. -/
theorem reset_kept : cellsOk State.reset.mem = true := rfl

end Sys2Proof.Machine
end

