-- ==== Sys2Proof/Laws/Drain.lean ====
section
/-! SUPPORT. The end of a strand: what it keeps of the other strands and of memory. -/

namespace Sys2Proof.Machine

/-- Every byte reads the same for every core. -/
def SameView (s t : State) : Prop := ∀ d c a, t.coreGet d c a = s.coreGet d c a

theorem SameView.refl (s : State) : SameView s s := fun _ _ _ => rfl
theorem SameView.trans {s t u : State} (h : SameView s t) (k : SameView t u) : SameView s u :=
  fun d c a => (k d c a).trans (h d c a)

theorem view_of {s t : State} (hm : t.mem = s.mem) (hd : ∀ d, (t.die d).copies = (s.die d).copies)
    (hc : ∀ d c, (t.core d c).l1 = (s.core d c).l1) : SameView s t :=
  fun d c a => coreGet_congr d c a (by rw [hm]) (hd d) (hc d c)

theorem view_same {s t : State} (hm : t.mem = s.mem) (hd : t.dies = s.dies) : SameView s t :=
  view_of hm (fun d => by simp only [State.die, hd]) (fun d c => by simp only [State.core, State.die, hd])

theorem view_putStrand (s : State) (id : Nat) (st : Strand) : SameView s (s.putStrand id st) := view_same rfl rfl
theorem view_modStrand (s : State) (id : Nat) (g : Strand → Strand) : SameView s (s.modStrand id g) := by
  unfold State.modStrand
  split
  · exact view_putStrand _ _ _
  · exact SameView.refl _
theorem view_modCtx (s : State) (n : Nat) (g : Ctx → Ctx) : SameView s (s.modCtx n g) := view_same rfl rfl
theorem view_modKernel (s : State) (n k : Nat) (g : Kernel → Kernel) : SameView s (s.modKernel n k g) := by
  unfold State.modKernel
  split
  · exact view_modCtx _ _ _
  · exact SameView.refl _
theorem view_modChans (s : State) (st : Strand) (g : Chan → Chan) : SameView s (s.modChans st g) := view_modKernel _ _ _ _
theorem view_freeLane (s : State) (st : Strand) (id : Nat) (b : Bool) : SameView s (s.freeLane st id b) :=
  (onlyStrand_freeLane s st id b).view

theorem nth_map {α : Type} (d : α) (l : List α) (g : α → α) (i : Nat) :
    nth d (l.map g) i = if i < l.length then g (nth d l i) else nth d l i := by
  unfold nth
  simp only [List.getD_eq_getElem?_getD, List.getElem?_map]
  by_cases h : i < l.length
  · rw [if_pos h, List.getElem?_eq_getElem h]; rfl
  · rw [if_neg h, List.getElem?_eq_none (by omega)]; rfl

theorem view_mapDies (s : State) (t : State) (g : Die → Die) (hm : t.mem = s.mem) (ht : t.dies = s.dies.map g)
    (hg : ∀ x, (g x).cores = x.cores ∧ (g x).copies = x.copies) : SameView s t := by
  have hd (d : Nat) : (t.die d).copies = (s.die d).copies ∧ (t.die d).cores = (s.die d).cores := by
    simp only [State.die, ht, nth_map]
    split
    · exact ⟨(hg _).2, (hg _).1⟩
    · exact ⟨rfl, rfl⟩
  exact view_of hm (fun d => (hd d).1) (fun d c => by simp only [State.core, (hd d).2])

theorem view_modGroup (s : State) (n : Nat) (h : Group → Group) : SameView s (s.modGroup n h) :=
  view_mapDies s _ _ rfl rfl fun x => by split <;> exact ⟨rfl, rfl⟩
theorem view_dropGroup (s : State) (n : Nat) : SameView s (s.dropGroup n) :=
  view_mapDies s _ _ rfl rfl fun _ => ⟨rfl, rfl⟩

@[simp] theorem strand_modKernel (s : State) (n k i : Nat) (g : Kernel → Kernel) : (s.modKernel n k g).strand i = s.strand i := by
  unfold State.modKernel
  split <;> rfl
@[simp] theorem strand_modChans (s : State) (st : Strand) (i : Nat) (g : Chan → Chan) : (s.modChans st g).strand i = s.strand i :=
  strand_modKernel _ _ _ _ _
@[simp] theorem strand_modGroup (s : State) (n i : Nat) (h : Group → Group) : (s.modGroup n h).strand i = s.strand i := rfl
@[simp] theorem strand_dropGroup (s : State) (n i : Nat) : (s.dropGroup n).strand i = s.strand i := rfl

theorem strand_modStrand (s : State) (i j : Nat) (g : Strand → Strand) :
    (s.modStrand i g).strand j = if j = i then (s.strand i).map g else s.strand j := by
  unfold State.modStrand
  cases h : s.strand i with
  | none => by_cases hj : j = i <;> simp [hj, h]
  | some st => simp [State.strand_putStrand]

/-- A strand leaves the group of one slot: its slot is empty, and no other strand and no byte differs. -/
theorem leaveSlot_strand (s : State) (id k : Nat) (st : Strand) (h : s.strand id = some st) :
    (s.leaveSlot id k).strand id = some { st with slots := upd st.slots k none } ∧
      (∀ j, j ≠ id → (s.leaveSlot id k).strand j = s.strand j) ∧ SameView s (s.leaveSlot id k) := by
  unfold State.leaveSlot
  rw [h]
  simp only
  cases hn : nth none st.slots k with
  | none =>
    refine ⟨?_, fun _ _ => rfl, SameView.refl _⟩
    simp only [h]
    have : upd st.slots k none = st.slots := by
      unfold upd nth at *
      by_cases hk : k < st.slots.length
      · rw [List.getD_eq_getElem?_getD, List.getElem?_eq_getElem hk] at hn
        have hn' : st.slots[k] = none := hn
        exact List.ext_getElem (by simp) fun i h1 h2 => by
          rw [List.getElem_set]; split
          · next e => subst e; exact hn'.symm
          · rfl
      · rw [List.set_eq_of_length_le (by omega)]
    rw [this]
  | some g =>
    simp only
    split
    · refine ⟨State.strand_putStrand_same _ _ _, fun j hj => by simp [State.strand_putStrand, hj], view_putStrand _ _ _⟩
    · split
      · exact ⟨State.strand_putStrand_same _ _ _, fun j hj => by simp [State.strand_putStrand, hj],
          (view_putStrand _ _ _).trans (view_dropGroup _ _)⟩
      · exact ⟨State.strand_putStrand_same _ _ _, fun j hj => by simp [State.strand_putStrand, hj],
          (view_putStrand _ _ _).trans (view_modGroup _ _ _)⟩

theorem leaveGroups_strand (s : State) (id : Nat) (st : Strand) (h : s.strand id = some st) :
    (∃ l, (s.leaveGroups id).strand id = some { st with slots := l } ∧ ∀ k, k < 4 → nth none l k = none) ∧
      (∀ j, j ≠ id → (s.leaveGroups id).strand j = s.strand j) ∧ SameView s (s.leaveGroups id) := by
  unfold State.leaveGroups
  simp only [List.foldl_cons, List.foldl_nil]
  obtain ⟨a1, a2, a3⟩ := leaveSlot_strand s id 0 st h
  obtain ⟨b1, b2, b3⟩ := leaveSlot_strand _ id 1 _ a1
  obtain ⟨c1, c2, c3⟩ := leaveSlot_strand _ id 2 _ b1
  obtain ⟨d1, d2, d3⟩ := leaveSlot_strand _ id 3 _ c1
  refine ⟨⟨_, d1, ?_⟩, fun j hj => by rw [d2 j hj, c2 j hj, b2 j hj, a2 j hj], ((a3.trans b3).trans c3).trans d3⟩
  intro k hk
  unfold upd nth
  simp only [List.getD_eq_getElem?_getD, List.getElem?_set]
  have : k = 0 ∨ k = 1 ∨ k = 2 ∨ k = 3 := by omega
  rcases this with rfl | rfl | rfl | rfl <;> simp <;> split <;> rfl

/-! The error log touches no strand. -/

theorem strands_devPuts (s : State) (pa : Nat) (bs : List Byte) (n : Nat) : (s.devPuts pa bs n).strands = s.strands :=
  (devPuts_stores s pa bs n).strands
theorem strands_devWrite (s : State) (die core n va : Nat) (bs : List Byte) (kid : Nat) (r : Retry) :
    (s.devWrite die core n va bs kid r).strands = s.strands := by
  unfold State.devWrite
  split
  · exact strands_devPuts _ _ _ _
  · rfl
  · rfl
  · rfl
theorem strands_payOwed (s : State) (n : Nat) : (s.payOwed n).strands = s.strands := by
  unfold State.payOwed
  simp only
  split
  · rfl
  · exact strands_devPuts _ _ _ _
theorem strands_ctxEvent5 (s : State) (n : Nat) : (s.ctxEvent n 5).strands = s.strands := by
  unfold State.ctxEvent
  split
  · rfl
  · rw [strands_payOwed]; rfl
theorem strands_logEng (s : State) (st : Strand) (e : EngErr) : (s.logEng st e).strands = s.strands := by
  unfold State.logEng State.logError
  dsimp only
  unfold State.putLog
  dsimp only
  split
  · rw [strands_ctxEvent5, strands_devWrite]; rfl
  · rw [strands_devWrite]; rfl

theorem foldl_strands {α : Type} (l : List α) (g : State → α → State) (hg : ∀ s x, (g s x).strands = s.strands) (s : State) :
    (l.foldl g s).strands = s.strands := by
  induction l generalizing s with
  | nil => rfl
  | cons a r ih => simp only [List.foldl_cons]; rw [ih, hg]

theorem strand_foldl_logEng (s : State) (st : Strand) (i : Nat) :
    (st.engErrs.foldl (fun s e => s.logEng st e) s).strand i = s.strand i :=
  congrArg (fun m => tget m i) (foldl_strands st.engErrs _ (fun s e => strands_logEng s st e) s)

/-- A Draining strand: Exited where it is on a lane with nothing in flight, else as it was. -/
theorem drained_strand (s : State) (id : Nat) (st : Strand) (h : s.strand id = some st) :
    (∃ w, (s.drained id).strand id = some w ∧ (if st.run = .draining ∧ st.ops = [] ∧ st.loc.isSome = true then
        w = { st with run := .exited, loc := none, lastCore := 16 * st.d + st.k, engErrs := [], v := [], pend := [] } else w = st)) ∧
      (∀ j, j ≠ id → (s.drained id).strand j = s.strand j) ∧ (st.engErrs = [] → SameView s (s.drained id)) := by
  unfold State.drained
  rw [h]
  simp only [Bool.and_eq_true, beq_iff_eq, List.isEmpty_iff, and_assoc]
  by_cases hc : st.run = .draining ∧ st.ops = [] ∧ st.loc.isSome = true
  · rw [if_pos hc]
    refine ⟨⟨_, State.strand_putStrand_same _ _ _, by rw [if_pos hc]⟩, fun j hj => ?_, fun he => ?_⟩
    · rw [State.strand_putStrand, if_neg hj, strand_modChans]
      exact strand_foldl_logEng _ _ _
    · rw [he]
      exact ((view_freeLane _ _ _ _).trans (view_modChans _ _ _)).trans (view_putStrand _ _ _)
  · rw [if_neg hc]
    exact ⟨⟨_, h, by rw [if_neg hc]⟩, fun _ _ => rfl, fun _ => SameView.refl _⟩

/-- No thread remains: what `Gone` says. -/
theorem drain_gone (s : State) (id : Nat) (st : Strand) (h : s.strand id = some st) (hm : st.mask = 0) :
    (∃ w, (s.drain id).strand id = some w ∧ Gone st w) ∧ (∀ j, j ≠ id → (s.drain id).strand j = s.strand j) ∧
      (st.engErrs = [] → SameView s (s.drain id)) := by
  obtain ⟨⟨l, a1, hl⟩, a2, a3⟩ := leaveGroups_strand s id st h
  have e : s.drain id = State.drained (((s.leaveGroups id).modChans { st with slots := l } (Chan.unbind id)).modStrand id
      fun st => { st with run := .draining, frame := none, resume := none, hold := none, stalled := false, runCount := 0, spin := Spin.empty }) id := by
    unfold State.drain
    simp only [a1]
  have hs : (((s.leaveGroups id).modChans { st with slots := l } (Chan.unbind id)).modStrand id
      fun st => { st with run := .draining, frame := none, resume := none, hold := none, stalled := false, runCount := 0, spin := Spin.empty }).strand id =
      some { st with slots := l, run := .draining, frame := none, resume := none, hold := none, stalled := false, runCount := 0, spin := Spin.empty } := by
    rw [strand_modStrand, if_pos rfl, strand_modChans, a1]
    rfl
  obtain ⟨⟨w, b1, b2⟩, b3, b4⟩ := drained_strand _ id _ hs
  rw [e]
  refine ⟨⟨w, b1, ?_⟩, fun j hj => ?_, fun he => ?_⟩
  · simp only [true_and] at b2
    split at b2
    · next hc =>
      subst b2
      exact ⟨hm, rfl, hl, fun _ _ => ⟨rfl, rfl⟩, fun hn => absurd hc.1 hn, rfl, rfl, rfl, rfl, rfl⟩
    · next hc =>
      subst b2
      exact ⟨hm, rfl, hl, fun h1 h2 => absurd ⟨h1, h2⟩ hc, fun _ => ⟨rfl, rfl⟩, rfl, rfl, rfl, rfl, rfl⟩
  · rw [b3 j hj, strand_modStrand, if_neg hj, strand_modChans, a2 j hj]
  · exact ((a3.trans (view_modChans _ _ _)).trans (view_modStrand _ _ _)).trans (b4 he)

/-! What settling at reconvergence PCs keeps of a strand. -/

/-- Two strands agree but for the path that runs: pc, threads, scalars, fmt, the stack, the marks of the merge and time. -/
def SamePath (st r : Strand) : Prop :=
  r = { st with
    pc := r.pc, mask := r.mask, low := r.low, s := r.s, written := r.written, fmt := r.fmt, rdy := r.rdy, due := r.due,
    stack := r.stack, cyc := r.cyc, sts := r.sts, pend := r.pend, nextOp := r.nextOp }

theorem SamePath.refl (st : Strand) : SamePath st st := rfl
theorem SamePath.trans {a b c : Strand} (h : SamePath a b) (k : SamePath b c) : SamePath a c := by
  unfold SamePath at *
  rw [k, h]

theorem settleGo_path (n : Nat) (st : Strand) (df : List Nat) : SamePath st (st.settleGo n df).1 := by
  induction n generalizing st df with
  | zero => exact SamePath.refl st
  | succ n ih =>
    unfold Strand.settleGo
    simp only
    repeat' split
    all_goals first
      | exact SamePath.refl st
      | (refine SamePath.trans ?_ (ih _ _); unfold SamePath; rfl)

theorem foldl_pendMerge_path (l : List Nat) (st : Strand) : SamePath st (l.foldl (fun st n => st.pendMerge n) st) := by
  induction l generalizing st with
  | nil => exact SamePath.refl st
  | cons a r ih => refine SamePath.trans ?_ (ih _); unfold SamePath; rfl

theorem settle_path (s : State) (st : Strand) : SamePath st (s.settle st) := by
  unfold State.settle
  simp only
  split
  · exact (settleGo_path _ _ _).trans (foldl_pendMerge_path _ _)
  · exact settleGo_path _ _ _

end Sys2Proof.Machine
end

