-- ==== Sys2Proof/Laws/Access.lean ====
section
/-! SUPPORT. Issuing counted memory instructions: windows, addresses, translation and the scan of the threads. -/

namespace Sys2Proof.Machine

theorem OnlyCaches.refl (s : State) (id : Nat) : OnlyCaches s s id :=
  ⟨fun _ => rfl, fun _ _ _ => rfl, fun _ _ => rfl, ⟨rfl, fun _ => rfl⟩, fun _ _ => rfl, rfl⟩
theorem OnlyCaches.trans {s t u : State} {id : Nat} (h : OnlyCaches s t id) (k : OnlyCaches t u id) : OnlyCaches s u id where
  mem a := (k.mem a).trans (h.mem a)
  view d c a := (k.view d c a).trans (h.view d c a)
  strands j hj := (k.strands j hj).trans (h.strands j hj)
  dies := ⟨k.dies.1.trans h.dies.1, fun d => (k.dies.2 d).trans (h.dies.2 d)⟩
  cores d c := (k.cores d c).trans (h.cores d c)
  rest := k.rest.trans h.rest
theorem OnlyStrand.caches {s t : State} {id : Nat} (h : OnlyStrand s t id) : OnlyCaches s t id where
  mem := h.mem
  view := h.view
  strands := h.strands
  dies := ⟨h.dies.1, fun d => by unfold Die.uncached; rw [h.dies.2 d]⟩
  cores d c := by unfold Core.uncached; rw [h.cores d c]
  rest := h.rest

/-- A change of a core's caches of translations and of its lanes alone. -/
theorem onlyCaches_modCore (s : State) (d c id : Nat) (g : Core → Core) (hg : ∀ x, (g x).uncached = x.uncached)
    (hl : ∀ x, (g x).l1 = x.l1) : OnlyCaches s (s.modCore d c g) id where
  mem _ := rfl
  view e k a := coreGet_congr e k a rfl
    (by have h : ((s.modCore d c g).die e).bare = (s.die e).bare := State.die_modCore s d c e g
        have h2 := congrArg Die.copies h
        exact h2)
    (by rw [State.core_modCore]; split
        · next h => obtain ⟨rfl, -, rfl, -⟩ := h; exact hl _
        · rfl)
  strands _ _ := rfl
  dies := ⟨State.modCore_length _ _ _ _, fun e => by
    have h : ((s.modCore d c g).die e).bare = (s.die e).bare := State.die_modCore s d c e g
    unfold Die.uncached
    rw [h]⟩
  cores e k := by
    rw [State.core_modCore]
    split
    · next h => obtain ⟨rfl, -, rfl, -⟩ := h; exact hg _
    · rfl
  rest := rfl

theorem onlyCaches_nodeCache (s : State) (d id : Nat) (l : Die → List NodeEnt) :
    OnlyCaches s (s.modDie d fun y => { y with nodeCache := l y }) id where
  mem _ := rfl
  view e k a := coreGet_congr e k a rfl
    (by rw [State.die_modDie]; split
        · next h => rw [h.1]
        · rfl)
    (by simp only [State.core, State.die_modDie]; split
        · next h => rw [h.1]
        · rfl)
  strands _ _ := rfl
  dies := ⟨State.modDie_length _ _ _, fun e => by
    rw [State.die_modDie]
    split
    · next h => rw [h.1]; rfl
    · rfl⟩
  cores e k := by
    simp only [State.core, State.die_modDie]
    split
    · next h => rw [h.1]
    · rfl
  rest := rfl

/-- A translation changes nothing but caches. -/
theorem onlyCaches_translate (s : State) (id ctx d c : Nat) (lane : Option Nat) (va need : Nat) :
    OnlyCaches s (s.translate ctx d c lane va need).1 id := by
  have hf (s : State) (t : Tlb) : OnlyCaches s (match lane with
      | none => s
      | some l => s.modCore d c fun x =>
          let ln := (tget x.lanes l).getD Lane.idle
          { x with lanes := tput x.lanes l { ln with lastPage := cacheFill ln.lastPage t 4 } }) id := by
    split
    · exact OnlyCaches.refl _ _
    · exact onlyCaches_modCore _ _ _ _ _ (fun _ => rfl) (fun _ => rfl)
  have ht (s : State) (g : Core → List Tlb) : OnlyCaches s (s.modCore d c fun x => { x with tlb := g x }) id :=
    onlyCaches_modCore _ _ _ _ _ (fun _ => rfl) (fun _ => rfl)
  unfold State.translate
  simp only
  split
  · exact hf _ _
  · split
    · exact (ht _ _).trans (hf _ _)
    · split
      · exact ((onlyCaches_nodeCache _ _ _ _).trans (ht _ _)).trans (hf _ _)
      · exact onlyCaches_nodeCache _ _ _ _

theorem windowOf_ref {scr n : Nat} {k : AKind} {va : DWord} {w : Win} {off : Nat} (h : InWindow scr k n va w off)
    (al : Nat) (hal : al = n) : windowOf scr k n al va.toNat = .ok (w, off) := by
  subst hal
  unfold windowOf
  cases h with
  | glob h1 h2 h3 =>
    have e : va.toNat / 2 ^ 48 = 0 := Nat.div_eq_of_lt h3
    have e2 : va.toNat % 2 ^ 48 = va.toNat := Nat.mod_eq_of_lt h3
    simp only [e, e2]
    rw [if_neg (by omega), if_neg (by omega)]
  | scr h1 h2 h3 h4 =>
    simp only [h1]
    rw [if_neg, if_neg (by omega)]
    cases k
    · simp; omega
    · simp; omega
    · exact absurd rfl h2
  | bsl h1 h2 h3 h4 =>
    subst h2
    simp only [h1]
    rw [if_neg, if_neg, if_neg (by omega)]
    · decide
    · unfold bsliceSize; simp; omega

theorem base_ref (st : Strand) (f : LFields) (t : Nat) : st.memBase f t = (st.baseRef f t).toNat := by
  unfold Strand.memBase Strand.baseRef
  simp only
  split <;> rfl

theorem index_ref (st : Strand) (f : LFields) (t : Nat) : BitVec.ofInt 64 (st.memIndex f t) = st.indexRef f t := by
  unfold Strand.memIndex Strand.indexRef
  simp only
  split
  · rfl
  · split
    · rfl
    · next h1 h2 =>
      rw [show ((f.b.toNat : Int) - 192) = ((f.b.toNat - 192 : Nat) : Int) by omega]
      exact BitVec.ofInt_natCast _ _

theorem address_mod (b : DWord) (i d : Int) (n : Nat) :
    (((b.toNat : Int) + i * n + d * n) % (2 ^ 64 : Nat)).toNat =
      (b + BitVec.ofInt 64 i * BitVec.ofNat 64 n + BitVec.ofInt 64 d * BitVec.ofNat 64 n).toNat := by
  have h : b + BitVec.ofInt 64 i * BitVec.ofNat 64 n + BitVec.ofInt 64 d * BitVec.ofNat 64 n =
      BitVec.ofInt 64 ((b.toNat : Int) + i * n + d * n) := by
    rw [BitVec.ofInt_add, BitVec.ofInt_add, BitVec.ofInt_mul, BitVec.ofInt_mul]
    simp
  rw [h, BitVec.toNat_ofInt]

theorem address_ref (st : Strand) (f : LFields) (n t : Nat) :
    st.memAddr f n (st.memIndex f t) t = (st.addressRef f n t).toNat := by
  unfold Strand.memAddr Strand.addressRef
  rw [base_ref, address_mod, index_ref]
  rfl

theorem cell_ref (st : Strand) (f : LFields) (t : Nat) : st.cellAddr f t = (st.cellRef f t).toNat := by
  unfold Strand.cellAddr Strand.memAddr Strand.cellRef
  rw [base_ref, address_mod]
  simp
  rfl

theorem base64_ref (st : Strand) (f : LFields) (t : Nat) : st.memBase f t = (st.baseRef f t).toNat := base_ref st f t

theorem size_ref (f : LFields) (h : f.m3 ≠ 7) : sizeOf3 f.m3.toNat = sizeRef f := by
  unfold sizeOf3 sizeRef
  revert h
  generalize f.m3 = m
  revert m
  decide

theorem regs_ref (f : LFields) (h : f.m3 ≠ 7) : regsOf3 f.m3.toNat = wordsRef f := by
  unfold regsOf3 wordsRef
  revert h
  generalize f.m3 = m
  revert m
  decide

/-- The access that a thread's fields form. -/
theorem formAcc_forms {r : AccRow} {st : Strand} {s s1 : State} {t : Nat} {a : Acc} (h : r.Forms st s t s1 a) :
    s.formAcc st r.kind r.need r.size r.size (r.addr st t).toNat t =
      (s1, .ok { a with reg := 0, data := 0, data2 := 0 }) := by
  obtain ⟨h1, h2, h3, h4, ⟨h5, h6, h7⟩, off, h8, h9, h10⟩ := h
  obtain ⟨th, w, va, pa, n, rg, d, d2, dn⟩ := a
  simp only at *
  subst h1 h2 h3 h7
  unfold State.formAcc
  rw [windowOf_ref h8 _ rfl]
  simp only
  cases hw : w with
  | glob => simp only [h9 hw]
  | scr =>
    obtain ⟨e1, e2⟩ := h10 (by rw [hw]; decide)
    simp only [e1, e2]
  | bsl =>
    obtain ⟨e1, e2⟩ := h10 (by rw [hw]; decide)
    simp only [e1, e2]

theorem onlyCaches_forms {r : AccRow} {st : Strand} {s s1 : State} {t : Nat} {a : Acc} (id : Nat) (h : r.Forms st s t s1 a) :
    OnlyCaches s s1 id := by
  obtain ⟨-, -, -, -, -, off, -, h9, h10⟩ := h
  by_cases hw : a.win = .glob
  · have e := h9 hw
    have k := onlyCaches_translate s id st.ctx st.d st.k (some st.ln) off r.need
    rw [e] at k
    exact k
  · rw [(h10 hw).1]
    exact OnlyCaches.refl _ _

theorem onlyCaches_formed {r : AccRow} {st : Strand} {ts : List Nat} {s s1 : State} {as : List Acc} (id : Nat)
    (h : r.Formed st ts s s1 as) : OnlyCaches s s1 id := by
  induction h with
  | none s => exact OnlyCaches.refl _ _
  | one h1 _ ih => exact (onlyCaches_forms id h1).trans ih

/-- The scan of threads whose accesses all form. -/
theorem scanAccs_formed {r : AccRow} {st : Strand} {g : Nat → State → State × Except MStop Acc}
    (hg : ∀ s t s1 a, r.Forms st s t s1 a → g t s = (s1, .ok a)) {ts : List Nat} {s s1 : State} {as : List Acc}
    (h : r.Formed st ts s s1 as) (l : List Acc) : scanAccs g ts s l = (s1, l ++ as, none) := by
  induction h generalizing l with
  | none s => simp [scanAccs]
  | one h1 _ ih =>
    unfold scanAccs
    rw [hg _ _ _ _ h1]
    simp only
    rw [ih]
    simp

theorem threads_take (m : Mask) (hm : m ≠ 0) : (threads m).take 1 = [mLow m] := by
  have h := (mLow_spec m hm).2
  unfold threads
  have e : ((List.range 16).filter (mHas m)).head? = (List.range 16).find? (mHas m) := List.head?_filter
  cases hf : (List.range 16).find? (mHas m) with
  | none => unfold mLow at h; rw [hf] at h; simp [mHas] at h
  | some t =>
    unfold mLow
    rw [hf] at e ⊢
    generalize (List.range 16).filter (mHas m) = l at *
    cases l with
    | nil => cases e
    | cons a l => simp at e; subst e; rfl

theorem accThreads_ref (f : LFields) (one : Bool) (m : Mask) (hm : m ≠ 0) (h : (f.u == 1) = one) :
    accThreads f m = if one then [mLow m] else (List.range 16).filter fun t => mHas m t := by
  unfold accThreads
  rw [h]
  cases one
  · rfl
  · exact threads_take m hm

theorem mem_distinct {α : Type} [DecidableEq α] (l : List α) (x : α) : x ∈ distinct l ↔ x ∈ l := by
  have h (l r : List α) : x ∈ l.foldl (fun r x => if r.contains x then r else r ++ [x]) r ↔ x ∈ r ∨ x ∈ l := by
    induction l generalizing r with
    | nil => simp
    | cons a l ih =>
      simp only [List.foldl_cons, ih]
      by_cases hc : r.contains a = true
      · rw [if_pos hc]
        have : a ∈ r := by simpa using hc
        constructor
        · rintro (h | h)
          · exact .inl h
          · exact .inr (List.mem_cons_of_mem _ h)
        · rintro (h | h)
          · exact .inl h
          · rcases List.mem_cons.mp h with rfl | h
            · exact .inl this
            · exact .inr h
      · rw [if_neg hc]
        simp [or_assoc]
  unfold distinct
  rw [h]
  simp

theorem mem_accDests (n : Nat) (as : List Acc) (x : Nat) :
    x ∈ accDests n as ↔ ∃ a, a ∈ as ∧ a.reg ≤ x ∧ x < a.reg + n := by
  unfold accDests
  rw [mem_distinct]
  simp only [List.mem_flatMap, List.mem_map, List.mem_range]
  constructor
  · rintro ⟨a, ha, i, hi, rfl⟩
    exact ⟨a, ha, by omega, by omega⟩
  · rintro ⟨a, ha, h1, h2⟩
    exact ⟨a, ha, x - a.reg, by omega, by omega⟩

theorem destOf_ref (st : Strand) (sp : OpSpec) (f : LFields) (t n : Nat) (h : st.regRef sp f t = some n) :
    st.destOf sp.d f.d.toNat t = .ok n := by
  unfold Strand.regRef at h
  unfold Strand.destOf
  split at h
  · next hi => rw [if_pos hi, h]
  · next hi => rw [if_neg hi]; cases h; rfl

theorem mapM_ok {α β ε : Type} (l : List α) (g : α → Except ε β) (h : α → β) (hg : ∀ x, x ∈ l → g x = .ok (h x)) :
    l.mapM g = .ok (l.map h) := by
  induction l with
  | nil => rfl
  | cons a l ih =>
    rw [List.mapM_cons, hg a (by simp), ih fun x hx => hg x (List.mem_cons_of_mem _ hx)]
    rfl

theorem spreadUni_ref {r : AccRow} {st : Strand} {f : LFields} {m : Mask} {dest : Nat → Except MStop Nat} (as : List Acc)
    (hu : (f.u == 1) = r.spread) (hd : ∀ t, t < 16 → mHas m t = true → dest t = .ok ((r.reg st t).getD 0)) :
    spreadUni f m dest as = .ok (r.all st m as) := by
  unfold spreadUni AccRow.all
  rw [hu]
  cases r.spread
  · rfl
  · cases as with
    | nil => rfl
    | cons a as =>
      simp only [if_true]
      refine mapM_ok _ _ (fun t => { a with thread := t, reg := (r.reg st t).getD 0 }) fun t ht => ?_
      have := (List.mem_filter.mp ht)
      rw [hd t (List.mem_range.mp this.1) this.2]
      rfl

/-- The operation that issuing starts. -/
def newOp (st : Strand) (path : Nat) (m : Mask) (k : OpKind) (as : List Acc) (ds : List Nat) : Op :=
  { id := st.nextOp, path := path, pc := st.pc, die := st.d, core := st.k, mask := m, kind := k, accs := as, dests := ds,
    fin := false, err := none, bad := 0, badCause := .uncorr, replies := [], applied := [], prog := 0, bits := 0, staged := [],
    parked := false }

theorem cnt_startOp (st : Strand) (path : Nat) (m : Mask) (k : OpKind) (as : List Acc) (ds : List Nat) (h : st.cnt path < 63)
    (p : Nat) : (st.startOp path m k as ds).cnt p = st.cnt p + if p = path then 1 else 0 := by
  unfold Strand.startOp Strand.expects Strand.cnt at *
  simp only [cget_cput]
  split
  · next e =>
    subst e
    rw [BitVec.toNat_add]
    simp
    omega
  · rfl

theorem commit_caches {s s1 : State} {st : Strand} {id : Nat} (h : OnlyCaches s s1 id) :
    OnlyCaches (s.commit st) (s1.commit st) id := by
  have hc : s1.ctxs = s.ctxs := by have h2 := congrArg State.ctxs h.rest; exact h2
  have hk : s1.kernelOf st = s.kernelOf st := by unfold State.kernelOf State.kernel State.ctx; rw [hc]
  have e : ∀ q : State, ∃ c, q.commit st = { q with ctxs := c } ∧ ∀ q' : State, q'.ctxs = q.ctxs → q'.commit st = { q' with ctxs := c } := by
    intro q
    have hkq : ∀ q' : State, q'.ctxs = q.ctxs → q'.kernelOf st = q.kernelOf st ∧ q'.kernel st.ctx st.kid = q.kernel st.ctx st.kid ∧ q'.ctx = q.ctx := by
      intro q' hq
      refine ⟨?_, ?_, ?_⟩
      · unfold State.kernelOf State.kernel State.ctx; rw [hq]
      · unfold State.kernel State.ctx; rw [hq]
      · funext n; unfold State.ctx; rw [hq]
    refine ⟨(q.commit st).ctxs, ?_, ?_⟩
    · unfold State.commit State.modItem State.modKernel
      repeat' split
      all_goals rfl
    · intro q' hq
      obtain ⟨k1, k2, k3⟩ := hkq q' hq
      unfold State.commit State.modItem State.modKernel
      rw [k1, k2]
      cases q.kernelOf st with
      | none => simp only; rw [← hq]
      | some x =>
        simp only
        split
        · cases q.kernel st.ctx st.kid with
          | none => simp only; rw [← hq]
          | some y =>
            simp only [State.modCtx, State.putCtx, k3, hq]
        · rw [← hq]
  obtain ⟨c, e1, e2⟩ := e s
  rw [e1, e2 s1 hc]
  exact ⟨h.mem, h.view, h.strands, h.dies, h.cores, by
    have k := h.rest
    have k2 := congrArg (fun z : State => { z with ctxs := c }) k
    exact k2⟩

/-- Issuing an instruction all of whose accesses form. -/
theorem issueAcc_go {r : AccRow} {s s1 : State} {id : Nat} {st : Strand} {m : Mask} {f : LFields} {kind : Nat} {as : List Acc}
    {form : Strand → Nat → State → State × Except MStop Acc} {spread : Strand → List Acc → Except MStop (List Acc)}
    {dests : List Acc → List Nat}
    (hm : m ≠ 0) (hw : st.cutAt = none) (hn : st.cnt r.path < 63) (he : (f.e == 1) = (r.f.e == 1))
    (hform : ∀ s t s1 a, r.Forms st s t s1 a → form { st with walkParked := false } t s = (s1, .ok a))
    (hspread : ∀ as, spread { st with walkParked := false } as = .ok (r.all st m as))
    (hdests : ∀ as n, n ∈ dests as ↔ ∃ a, a ∈ as ∧ a.reg ≤ n ∧ n < a.reg + r.dests)
    (hone : (f.u == 1) = r.one) (hf : r.Formed st (r.accessors m) s s1 as) :
    ∃ (t : State) (o : Op) (u w : Strand),
      s.issueAcc { id := id, st := st, adm := m } r.sp f r.len r.path kind r.op form spread dests r.commits = .next t ∧
        r.Starts st m (r.all st m as) o ∧
        u = { st.expects st.nextOp o.dests with walkParked := false, ops := st.ops ++ [o], nextOp := st.nextOp + 1, c := u.c } ∧
        (∀ p, u.cnt p = st.cnt p + if p = r.path then 1 else 0) ∧
        OnlyCaches (if r.commits (r.all st m as) then s.commit st else s) t id ∧
        t.strand id = some (t.settle w) ∧
        w.plain = ({ u.advance r.len none with sts := st.endSts (r.f.e == 1) false u.sts } : Strand).plain ∧
        w.run = if st.runEnds (r.f.e == 1) false then .ready else st.run := by
  let st0 : Strand := { st with walkParked := false }
  let ds := dests (r.all st m as)
  let u := st0.startOp r.path m r.op (r.all st m as) ds
  let s2 := if r.commits (r.all st m as) then s1.commit st0 else s1
  have hcm : ∀ q : State, q.commit st0 = q.commit st := fun _ => rfl
  have hx : s.issueAcc { id := id, st := st, adm := m } r.sp f r.len r.path kind r.op form spread dests r.commits =
      .next (s2.finish { id := id, st := st, adm := m } r.sp f r.len u) := by
    unfold State.issueAcc
    simp only
    rw [if_neg hm, if_neg (by unfold Strand.full; simp; omega), accThreads_ref f r.one m hm hone]
    have := scanAccs_formed (g := form st0) (fun s t s1 a h => hform s t s1 a h) hf []
    unfold AccRow.accessors at this
    rw [this]
    simp only [List.nil_append]
    rw [hspread]
  have hcache : OnlyCaches (if r.commits (r.all st m as) then s.commit st else s) s2 id := by
    have h1 := onlyCaches_formed id hf
    show OnlyCaches _ (if r.commits (r.all st m as) then s1.commit st0 else s1) id
    split
    · rw [hcm]; exact commit_caches h1
    · exact h1
  obtain ⟨k1, w, k2, k3, k4⟩ := ends_finish s2 id st u m r.sp f r.len rfl hw
  refine ⟨_, newOp st0 r.path m r.op (r.all st m as) ds, u, w, hx, ⟨⟨rfl, rfl, rfl, rfl, rfl⟩, rfl, ⟨rfl, rfl⟩,
    ⟨rfl, rfl, rfl, rfl, rfl, rfl, rfl⟩, hdests _⟩,
    rfl, cnt_startOp st0 _ _ _ _ _ hn, hcache.trans k1.caches, ?_, ?_, ?_⟩
  · rw [k2]
    have hctx : (s2.finish { id := id, st := st, adm := m } r.sp f r.len u).ctxs = s2.ctxs := by
      have h2 := congrArg State.ctxs k1.rest; exact h2
    unfold State.settle State.scTrap State.ctx
    rw [hctx]
  · rw [k3, he]
  · rw [k4, he]
    rfl

theorem access_zero {i : Instr} {sp : OpSpec} {f : LFields} {len : Nat} {s : State} {id : Nat} {st : Strand} {g : Issued → Result}
    (hp : Passes i sp f noPre s id st) (hx : exec i s = match issue i sp f noPre s with
      | .out o => o
      | .go x => g x)
    (hg : ∀ x : Issued, x.adm = 0 → g x = .next (s.finish x sp f len x.st)) (h0 : st.nowAdm sp f = 0) :
    ∃ t, exec i s = .next t ∧ Ends s t id st st len none (f.e == 1) false := by
  refine ⟨_, ?_, ends_finish s id st st (st.nowAdm sp f) sp f len rfl hp.whole⟩
  rw [hx, issue_go hp]
  exact hg _ h0


theorem ord_ld (c : BitVec 8) : (⟨decide (c.toNat / 64 = 1), false, false, c.toNat / 8 % 8, c.toNat / 4 % 2 == 1, c.toNat % 4⟩ : OrdInfo) =
    ⟨decide (c.extractLsb' 6 2 = 1), false, false, (c.extractLsb' 3 3).toNat, c.getLsbD 2, (c.extractLsb' 0 2).toNat⟩ := by
  revert c; decide
theorem ord_st (c : BitVec 8) : (⟨false, decide (c.toNat / 64 = 2), false, c.toNat / 8 % 8, false, c.toNat % 4⟩ : OrdInfo) =
    ⟨false, decide (c.extractLsb' 6 2 = 2), false, (c.extractLsb' 3 3).toNat, false, (c.extractLsb' 0 2).toNat⟩ := by
  revert c; decide
theorem ord_atom (c : BitVec 8) : (⟨c.toNat / 64 % 2 == 1, decide (2 ≤ c.toNat / 64), false, c.toNat / 8 % 8, c.toNat / 4 % 2 == 1, c.toNat % 4⟩ : OrdInfo) =
    ⟨c.getLsbD 6, c.getLsbD 7, false, (c.extractLsb' 3 3).toNat, c.getLsbD 2, (c.extractLsb' 0 2).toNat⟩ := by
  revert c; decide

theorem m3_size {sp : OpSpec} {f : LFields} (h : sp.ok f = true) (e : sp.m3 = 0x7F) : f.m3 ≠ 7 := by
  have hm : ∀ x : BitVec 3, (0x7F : Nat).testBit x.toNat = true → x ≠ 7 := by decide
  refine hm _ ?_
  rw [← e]
  simp only [OpSpec.ok, Bool.and_eq_true] at h
  exact h.1.1.1.1.1.1.2

theorem regRef_some {st : Strand} {sp : OpSpec} {f : LFields} {t : Nat} (h : (st.regRef sp f t).isSome = true) :
    st.destOf sp.d f.d.toNat t = .ok ((st.regRef sp f t).getD 0) := by
  obtain ⟨n, hn⟩ := Option.isSome_iff_exists.mp h
  rw [destOf_ref st sp f t n hn, hn]
  rfl

/-- One access formed from a register, an address and data. -/
theorem form_of {r : AccRow} {st : Strand} {s s1 : State} {t : Nat} {a : Acc} (h : r.Forms st s t s1 a)
    {kind : AKind} {need n va : Nat} (hk : kind = r.kind) (hn : need = r.need) (hz : n = r.size) (hv : va = (r.addr st t).toNat)
    {fin : Acc → Acc} (hfin : fin { a with reg := 0, data := 0, data2 := 0 } = a) :
    (match s.formAcc { st with walkParked := false } kind need n n va t with
      | (s, .ok a) => (s, Except.ok (fin a))
      | q => q) = (s1, (.ok a : Except MStop Acc)) := by
  subst hk hn hz hv
  have e : s.formAcc { st with walkParked := false } r.kind r.need r.size r.size (r.addr st t).toNat t =
      s.formAcc st r.kind r.need r.size r.size (r.addr st t).toNat t := rfl
  rw [e, formAcc_forms h]
  simp only [hfin]

theorem ld_says {i : Instr} {f : LFields} {len : Nat} {s : State} {id : Nat} {st : Strand}
    (hx : exec i s = ldExec i (rowOf (.ld f)) f len s) (h7 : f.m3 ≠ 7)
    (hp : Passes i (rowOf (.ld f)) f noPre s id st)
    (h0 : st.nowAdm (rowOf (.ld f)) f ≠ 0) (hn : st.cnt 0 < 63)
    (hr : ∀ t, t < 16 → mHas (st.nowAdm (rowOf (.ld f)) f) t = true → (st.regRef (rowOf (.ld f)) f t).isSome = true)
    (s1 : State) (as : List Acc) (hf : (ldRow f len).Formed st ((ldRow f len).accessors (st.nowAdm (rowOf (.ld f)) f)) s s1 as) :
    ∃ (t : State) (o : Op) (u w : Strand), exec i s = .next t ∧
        (ldRow f len).Starts st (st.nowAdm (rowOf (.ld f)) f) ((ldRow f len).all st (st.nowAdm (rowOf (.ld f)) f) as) o ∧
        u = { st.expects st.nextOp o.dests with walkParked := false, ops := st.ops ++ [o], nextOp := st.nextOp + 1, c := u.c } ∧
        (∀ p, u.cnt p = st.cnt p + if p = 0 then 1 else 0) ∧
        OnlyCaches s t id ∧
        t.strand id = some (t.settle w) ∧
        w.plain = ({ u.advance len none with sts := st.endSts (f.e == 1) false u.sts } : Strand).plain ∧
        w.run = if st.runEnds (f.e == 1) false then .ready else st.run := by
  rw [hx]
  unfold ldExec
  rw [issue_go hp]
  simp only
  have hord : (⟨f.c.toNat / 64 == 1, false, false, f.c.toNat / 8 % 8, f.c.toNat / 4 % 2 == 1, f.c.toNat % 4⟩ : OrdInfo) =
      ordRef f (f.c.extractLsb' 6 2 == 1) false (f.c.getLsbD 2) := ord_ld f.c
  rw [hord, size_ref f h7, regs_ref f h7]
  refine issueAcc_go (r := ldRow f len) (s1 := s1) h0 hp.whole hn rfl ?_ ?_ ?_ rfl hf
  · intro s t s1 a h
    have e := destOf_ref st (rowOf (.ld f)) f t a.reg h.reg
    have e2 : Strand.destOf { st with walkParked := false } (rowOf (.ld f)).d f.d.toNat t = .ok a.reg := e
    simp only [e2]
    refine form_of h rfl rfl rfl (address_ref st f (sizeRef f) t) (fin := fun b => { b with reg := a.reg }) ?_
    obtain ⟨d1, d2, -⟩ := h.data
    obtain ⟨_, _, _, _, _, _, _, _, _⟩ := a
    simp only at d1 d2
    subst d1 d2
    rfl
  · intro as
    exact spreadUni_ref (r := ldRow f len) as rfl fun t ht hm => regRef_some (hr t ht hm)
  · intro as n
    exact mem_accDests _ _ _

/-- What `AccessSays` asks of one row, when threads execute. -/
def Accessed (i : Instr) (r : AccRow) (s : State) (id : Nat) (st : Strand) : Prop :=
  st.nowAdm r.sp r.f ≠ 0 → st.cnt r.path < 63 →
      (∀ t, t < 16 → mHas (st.nowAdm r.sp r.f) t = true → (r.reg st t).isSome = true) →
      ∀ s1 as, r.Formed st (r.accessors (st.nowAdm r.sp r.f)) s s1 as →
      ∃ (t : State) (o : Op) (u w : Strand), exec i s = .next t ∧ r.Starts st (st.nowAdm r.sp r.f) (r.all st (st.nowAdm r.sp r.f) as) o ∧
        u = { st.expects st.nextOp o.dests with walkParked := false, ops := st.ops ++ [o], nextOp := st.nextOp + 1, c := u.c } ∧
        (∀ p, u.cnt p = st.cnt p + if p = r.path then 1 else 0) ∧
        OnlyCaches (if r.commits (r.all st (st.nowAdm r.sp r.f) as) then s.commit st else s) t id ∧
        t.strand id = some (t.settle w) ∧
        w.plain = ({ u.advance r.len none with sts := st.endSts (r.f.e == 1) false u.sts } : Strand).plain ∧
        w.run = if st.runEnds (r.f.e == 1) false then .ready else st.run

theorem accDests_zero (as : List Acc) (n : Nat) : n ∈ ([] : List Nat) ↔ ∃ a, a ∈ as ∧ a.reg ≤ n ∧ n < a.reg + 0 :=
  ⟨fun h => (by cases h), fun ⟨_, _, h1, h2⟩ => (by omega)⟩

theorem st_says {i : Instr} {f : LFields} {len : Nat} {s : State} {id : Nat} {st : Strand}
    (hx : exec i s = stExec i (rowOf (.st f)) f len s) (h7 : f.m3 ≠ 7)
    (hp : Passes i (rowOf (.st f)) f noPre s id st) : Accessed i (stRow f len) s id st := by
  intro h0 hn hr s1 as hf
  rw [hx]
  unfold stExec
  rw [issue_go hp]
  simp only
  have hord : (⟨false, f.c.toNat / 64 == 2, false, f.c.toNat / 8 % 8, false, f.c.toNat % 4⟩ : OrdInfo) =
      ordRef f false (f.c.extractLsb' 6 2 == 2) false := ord_st f.c
  rw [hord, size_ref f h7, regs_ref f h7]
  refine issueAcc_go (r := stRow f len) (s1 := s1) h0 hp.whole hn rfl ?_ ?_ ?_ rfl hf
  · intro s t s1 a h
    have hreg := h.reg
    obtain ⟨d1, d2, -⟩ := h.data
    have hsome : (st.regRef (rowOf (.st f)) f t).isSome = true := by
      have : ((st.regRef (rowOf (.st f)) f t).map fun _ => 0) = some a.reg := hreg
      cases hq : st.regRef (rowOf (.st f)) f t with
      | none => rw [hq] at this; cases this
      | some _ => rfl
    have hz : a.reg = 0 := by
      have : ((st.regRef (rowOf (.st f)) f t).map fun _ => 0) = some a.reg := hreg
      cases hq : st.regRef (rowOf (.st f)) f t with
      | none => rw [hq] at this; cases this
      | some _ => rw [hq] at this; exact (Option.some.inj this).symm
    have e2 : Strand.destOf { st with walkParked := false } (rowOf (.st f)).d f.d.toNat t =
      .ok ((st.regRef (rowOf (.st f)) f t).getD 0) := regRef_some hsome
    simp only [e2]
    have q := form_of h rfl rfl rfl (address_ref st f (sizeRef f) t) (fin := fun b => { b with data := a.data })
      (by obtain ⟨_, _, _, _, _, _, _, _, _⟩ := a
          simp only at d2 hz
          subst d2 hz
          rfl)
    · refine Eq.trans ?_ q
      rw [show a.data = st.storeData ((st.regRef (rowOf (.st f)) f t).getD 0) (wordsRef f) t (sizeRef f) from d1]
      rfl
  · intro as
    rfl
  · intro as n
    exact accDests_zero as n

theorem atom_size (f : LFields) : atomSize f.m3.toNat = if f.m3 = 3 then 8 else 4 := by
  generalize f.m3 = m
  revert m
  decide

theorem hw_ref (f : LFields) : hw f = (f.h ++ f.w).toNat := by
  unfold hw
  generalize f.h = a, f.w = b
  revert a b
  decide

theorem atom_says {f : LFields} {s : State} {id : Nat} {st : Strand}
    (hp : Passes (.atom f) (rowOf (.atom f)) f noPre s id st) : Accessed (.atom f) (atomRow f) s id st := by
  intro h0 hn hr s1 as hf
  show ∃ t o u w, execAtom f s = .next t ∧ _
  unfold execAtom
  simp only
  rw [issue_go hp]
  simp only
  have hord : (⟨f.c.toNat / 64 % 2 == 1, decide (2 ≤ f.c.toNat / 64), false, f.c.toNat / 8 % 8, f.c.toNat / 4 % 2 == 1, f.c.toNat % 4⟩ : OrdInfo) =
      ordRef f (f.c.getLsbD 6) (f.c.getLsbD 7) (f.c.getLsbD 2) := ord_atom f.c
  rw [hord, atom_size, hw_ref]
  refine issueAcc_go (r := atomRow f) (s1 := s1) h0 hp.whole hn rfl ?_ ?_ ?_ rfl hf
  · intro s t s1 a h
    have e := destOf_ref st (rowOf (.atom f)) f t a.reg h.reg
    have e2 : Strand.destOf { st with walkParked := false } (rowOf (.atom f)).d f.d.toNat t = .ok a.reg := e
    simp only [e2]
    have hg : (st.regRef (rowOf (.atom f)) f t).getD 0 = a.reg := by
      rw [show st.regRef (rowOf (.atom f)) f t = some a.reg from h.reg]; rfl
    have q := form_of h rfl rfl rfl (base_ref st f t) (fin := fun b => { b with reg := a.reg, data := a.data, data2 := a.data2 }) rfl
    refine Eq.trans ?_ q
    obtain ⟨d1, d2, -⟩ := h.data
    rw [d1, d2]
    simp only [atomRow, hg]
    rfl
  · intro as
    exact spreadUni_ref (r := atomRow f) as rfl fun t ht hm => regRef_some (hr t ht hm)
  · intro as n
    exact mem_accDests _ _ _

theorem sumx_says {f : LFields} {s : State} {id : Nat} {st : Strand}
    (hp : Passes (.sumx f) (rowOf (.sumx f)) f noPre s id st) : Accessed (.sumx f) (sumxRow f) s id st := by
  intro h0 hn hr s1 as hf
  show ∃ t o u w, execSumx f s = .next t ∧ _
  unfold execSumx
  simp only
  rw [issue_go hp]
  simp only
  refine issueAcc_go (r := sumxRow f) (s1 := s1) h0 hp.whole hn rfl ?_ ?_ ?_ rfl hf
  · intro s t s1 a h
    obtain ⟨d1, d2, -⟩ := h.data
    have hz : a.reg = 0 := by have := h.reg; exact (Option.some.inj this).symm
    have q := form_of h rfl rfl rfl (cell_ref st f t) (fin := fun b => { b with data := a.data })
      (by obtain ⟨_, _, _, _, _, _, _, _, _⟩ := a
          simp only at d2 hz
          subst hz
          simp only [sumxRow] at d2
          subst d2
          rfl)
    · refine Eq.trans ?_ q
      rw [d1]
      rfl
  · intro as
    rfl
  · intro as n
    exact accDests_zero as n

theorem sumclr_says {f : LFields} {s : State} {id : Nat} {st : Strand}
    (hp : Passes (.sumclr f) (rowOf (.sumclr f)) f noPre s id st) : Accessed (.sumclr f) (sumclrRow f) s id st := by
  intro h0 hn hr s1 as hf
  show ∃ t o u w, execSumclr f s = .next t ∧ _
  unfold execSumclr
  simp only
  rw [issue_go hp]
  simp only
  refine issueAcc_go (r := sumclrRow f) (s1 := s1) h0 hp.whole hn rfl ?_ ?_ ?_ rfl hf
  · intro s t s1 a h
    obtain ⟨d1, d2, -⟩ := h.data
    have hz : a.reg = 0 := by have := h.reg; exact (Option.some.inj this).symm
    have q := formAcc_forms h
    refine Eq.trans ?_ (q.trans ?_)
    · rw [show (sumclrRow f).addr st t = st.cellRef f t from rfl, ← cell_ref]
      rfl
    · obtain ⟨_, _, _, _, _, _, _, _, _⟩ := a
      simp only [sumclrRow] at d1 d2 hz
      subst hz d1 d2
      rfl
  · intro as
    rfl
  · intro as n
    exact accDests_zero as n

theorem sumrd_says {f : LFields} {s : State} {id : Nat} {st : Strand}
    (hp : Passes (.sumrd f) (rowOf (.sumrd f)) f noPre s id st) : Accessed (.sumrd f) (sumrdRow f) s id st := by
  intro h0 hn hr s1 as hf
  show ∃ t o u w, execSumrd f s = .next t ∧ _
  unfold execSumrd
  simp only
  rw [issue_go hp]
  simp only
  have h7 : (if f.m3.toNat = 7 then 16 else 1) = if f.m3 = 7 then 16 else 1 := by
    generalize f.m3 = m
    revert m
    decide
  rw [h7]
  refine issueAcc_go (r := sumrdRow f) (s1 := s1) h0 hp.whole hn ?_ ?_ ?_ ?_ ?_ hf
  · by_cases hd : 128 ≤ f.d.toNat <;> simp [hd] <;> rfl
  · intro s t s1 a h
    obtain ⟨d1, d2, -⟩ := h.data
    have hz : a.reg = f.d.toNat := by have := h.reg; exact (Option.some.inj this).symm
    refine form_of h rfl rfl rfl (cell_ref st f t) (fin := fun b => { b with reg := f.d.toNat }) ?_
    obtain ⟨_, _, _, _, _, _, _, _, _⟩ := a
    simp only [sumrdRow] at d1 d2 hz
    subst hz d1 d2
    rfl
  · intro as
    simp only [decide_eq_true_eq]
    by_cases hd : 128 ≤ f.d.toNat
    · rw [if_pos hd]
      unfold AccRow.all
      rw [if_neg]
      simp only [sumrdRow]
      simp
      omega
    · rw [if_neg hd]
      refine spreadUni_ref (r := sumrdRow f) as ?_ fun t _ _ => rfl
      simp only [sumrdRow]
      rw [decide_eq_true (by omega : f.d.toNat < 128), Bool.and_true]
  · intro as n
    exact mem_accDests _ _ _
  · simp only [sumrdRow]
    by_cases hd : 128 ≤ f.d.toNat <;> simp [hd]

end Sys2Proof.Machine
end

