-- ==== Sys2Proof/Laws/Cross.lean ====
section
/-! SUPPORT. The cross-thread instructions (R179 to R186): slots written thread by thread, and the prefixes of SCAN and
REDS. -/

namespace Sys2Proof.Machine

theorem vget_vputs (st : Strand) (l : List Word) (n t a t' : Nat) (ht : t < 16) (ht' : t' < 16) :
    (st.vputs n t l).vget a t' = if t' = t ∧ n ≤ a ∧ a < n + l.length then nth 0 l (a - n) else st.vget a t' :=
  vget_words st l n t 0 a t' ht ht'

theorem vputs_rest (st : Strand) (l : List Word) (n t : Nat) : st.vputs n t l = { st with v := (st.vputs n t l).v } := by
  unfold Strand.vputs
  generalize l.zipIdx = z
  induction z generalizing st with
  | nil => rfl
  | cons p r ih =>
    rw [List.foldl_cons, ih]
    rfl

theorem eachThread_slots (d n : Nat) (m : Mask) (val : Nat → Nat → Word) (g : Nat → Strand → Strand) (st : Strand)
    (hg : ∀ t u, t < 16 → u = { st with v := u.v } → ∃ l : List Word, l.length = n ∧ (∀ j, j < n → nth 0 l j = val t j) ∧ g t u = u.vputs d t l) :
    SlotsResult d n m val st (eachThread m g st) := by
  obtain ⟨D, h1, h2, h3, h4, h5⟩ := eachThread_ind m g st
    (fun D u => (∀ t j, t < 16 → D t → j < n → u.vget (d + j) t = val t j) ∧
      (∀ k t, t < 16 → (¬ D t ∨ k < d ∨ d + n ≤ k) → u.vget k t = st.vget k t) ∧ u = { st with v := u.v })
    ⟨fun _ _ _ h => h.elim, fun _ _ _ _ => rfl, rfl⟩ (by
      intro D t u ht hm hD ⟨h1, h2, h3⟩
      obtain ⟨l, hl, hv, e⟩ := hg t u ht h3
      rw [e]
      refine ⟨fun v j hv' h hj => ?_, fun k v hv' h => ?_, ?_⟩
      · rw [vget_vputs _ _ _ _ _ _ ht hv']
        split
        · next hc => rw [hc.1, Nat.add_sub_cancel_left]; exact hv j hj
        · next hc =>
          refine h1 v j hv' (h.resolve_right fun e => hc ⟨e, by omega, by omega⟩) hj
      · rw [vget_vputs _ _ _ _ _ _ ht hv', if_neg]
        · exact h2 k v hv' (h.imp (fun hn hd => hn (.inl hd)) id)
        · intro hc
          rcases h with h | h | h
          · exact h (.inr hc.1)
          · omega
          · omega
      · rw [vputs_rest, h3])
  refine ⟨fun t j ht hm hj => h3 t j ht (h1 t ht hm) hj, fun k t ht h => h4 k t ht (h.imp (fun e hD => ?_) id), h5⟩
  have := (h2 t hD).2
  rw [e] at this
  exact absurd this (by decide)

theorem blockOff_zero (f : LFields) : blockOff f 0 = 0 := by simp [blockOff]

/-- A field value that is a vector register, a scalar register or a constant (R92). -/
def plainOperand (x : Nat) : Prop := x < 0xC0 ∨ 0xE0 ≤ x

theorem plain_of_vsk {n x : Nat} (h : FldK.ok .vsk n x = true) : plainOperand x := by
  simp only [FldK.ok, Bool.or_eq_true, Bool.and_eq_true, decide_eq_true_eq] at h
  unfold plainOperand
  omega

/-- The words of a cross-thread operand. -/
theorem words_plain (st : Strand) (f : LFields) (r : Fld) (x : Nat) (ty : OTy) (t : Nat) (hx : plainOperand x)
    (hk : r.k = .vsk ∨ r.k = .sk ∨ r.k = .vs ∨ r.k = .v) :
    st.words f r x ty t = if x < 0x80 then (List.range r.n).map fun j => st.vget (x + j) t
      else if x < 0xC0 then (List.range r.n).map fun j => st.sget (x - 0x80 + j) else constVal x ty := by
  have h8 : ¬ x < 0xC0 → ¬ x < 0xC8 := by unfold plainOperand at hx; omega
  have : st.operand f r x ty 0 t = .ok (if x < 0x80 then (List.range r.n).map fun j => st.vget (x + j) t
      else if x < 0xC0 then (List.range r.n).map fun j => st.sget (x - 0x80 + j) else constVal x ty) := by
    unfold Strand.operand
    rcases hk with hk | hk | hk | hk <;> simp only [hk] <;> by_cases h1 : x < 0x80 <;>
      simp only [h1, if_true, if_false, blockOff_zero, ite_self, Nat.add_zero] <;> by_cases h2 : x < 0xC0 <;>
      simp only [h2, if_true, if_false, h8, not_false_eq_true]
  unfold Strand.words
  rw [this]

theorem shuffle_says (sp : OpSpec) (f : LFields) (g : Nat → Nat → Nat) (src : Nat → Word → Nat) (st : Strand) (m : Mask)
    (ha : plainOperand f.a.toNat) (hb : plainOperand f.b.toNat) (hka : sp.a.k = .vsk) (hkb : sp.b.k = .vsk ∨ sp.b.k = .sk)
    (hna : sp.a.n = crossLen f) (hnb : sp.b.n = 1) (hsrc : ∀ t (b : Word), t < 16 → g t b.toNat = src t b) :
    SlotsResult f.d.toNat (crossLen f) m (fun t j => st.crossA f (src t (st.crossB f t)) j) st (shuffle sp f g st m) := by
  unfold shuffle
  refine eachThread_slots _ _ _ _ _ _ fun t u ht hu => ⟨_, ?_, ?_, rfl⟩
  · rw [words_plain _ _ _ _ _ _ ha (.inl hka), hna]
    split
    · simp
    · split
      · simp
      · unfold crossLen bTy
        by_cases h : f.m3 = 7
        · simp [h, constVal]
        · simp only [beq_iff_eq, if_neg h, constVal]
          rfl
  · intro j hj
    have hB : (wd (st.words f sp.b f.b.toNat .i32 t) 0) = st.crossB f t := by
      rw [words_plain _ _ _ _ _ _ hb (hkb.imp id .inl), hnb]
      unfold Strand.crossB Strand.sval
      split
      · simp [wd, nth]
      · split <;> simp [wd, nth]
    simp only [hB, hsrc t _ ht]
    rw [words_plain _ _ _ _ _ _ ha (.inl hka), hna]
    unfold Strand.crossA
    split
    · simp [nth, hj]
    · split
      · simp [nth, hj]
      · unfold bTy
        by_cases h : f.m3 = 7 <;> simp [h]

/-- Consecutive threads of a list in ascending order. -/
def consec (l : List Nat) (t v : Nat) : Prop := t ∈ l ∧ v ∈ l ∧ t < v ∧ ∀ w ∈ l, ¬ (t < w ∧ w < v)

theorem consec_snoc {l : List Nat} {u t v : Nat} (h : ∀ a ∈ l, a < u) (last : Nat) (hl : last ∈ l) (hm : ∀ a ∈ l, a ≤ last) :
    consec (l ++ [u]) t v ↔ consec l t v ∨ (v = u ∧ t = last) := by
  unfold consec
  simp only [List.mem_append, List.mem_singleton]
  constructor
  · rintro ⟨h1, h2, h3, h4⟩
    rcases h2 with h2 | rfl
    · left
      refine ⟨h1.resolve_right ?_, h2, h3, fun w hw => h4 w (.inl hw)⟩
      intro e
      have := h v h2
      omega
    · right
      refine ⟨rfl, ?_⟩
      rcases h1 with h1 | h1
      · have := hm t h1
        have := h4 last (.inl hl)
        have := h last hl
        omega
      · omega
  · rintro (⟨h1, h2, h3, h4⟩ | ⟨rfl, rfl⟩)
    · refine ⟨.inl h1, .inl h2, h3, fun w hw => hw.elim (h4 w) fun e => ?_⟩
      have := h v h2
      omega
    · refine ⟨.inl hl, .inr rfl, h t hl, fun w hw => hw.elim (fun hw => ?_) fun e => by omega⟩
      have := hm w hw
      omega

/-- The steps of SCAN and REDS over an ascending list of threads. -/
theorem prefixes_list (ty op : Nat) (env : FEnv) (x : Nat → Word) (l : List Nat) (hs : l.Pairwise (· < ·)) (h : l ≠ []) :
    ∃ p : Nat → Word, (scanPrefixes ty op env (l.map fun t => (t, x t))).1 = l.map (fun t => (t, p t)) ∧
      p (l.head h) = scanFirst ty env (x (l.head h)) ∧
      (∀ t v, consec l t v → p v = (scanStep ty op env (p t) (x v)).1) ∧
      ∀ k, ((scanPrefixes ty op env (l.map fun t => (t, x t))).2.zeroExtend 32 : Word).getLsbD k = true ↔
        ∃ t v, consec l t v ∧ ((scanStep ty op env (p t) (x v)).2.zeroExtend 32 : Word).getLsbD k = true := by
  obtain ⟨a, r, rfl⟩ := List.exists_cons_of_ne_nil h
  simp only [List.map_cons, scanPrefixes, List.head_cons]
  clear h
  suffices ∃ (p : Nat → Word) (last : Nat), last ∈ a :: r ∧ (∀ c ∈ a :: r, c ≤ last) ∧
      ∀ b, b = (r.map fun t => (t, x t)).foldl (fun (acc : List (Nat × Word) × Word × FpFlags) p =>
        let y := scanStep ty op env acc.2.1 p.2
        (acc.1 ++ [(p.1, y.1)], y.1, acc.2.2 ||| y.2)) ([(a, scanFirst ty env (x a))], scanFirst ty env (x a), flagNone) →
        b.1 = (a :: r).map (fun t => (t, p t)) ∧ b.2.1 = p last ∧
        p a = scanFirst ty env (x a) ∧ (∀ t v, consec (a :: r) t v → p v = (scanStep ty op env (p t) (x v)).1) ∧
        ∀ k, (b.2.2.zeroExtend 32 : Word).getLsbD k = true ↔
          ∃ t v, consec (a :: r) t v ∧ ((scanStep ty op env (p t) (x v)).2.zeroExtend 32 : Word).getLsbD k = true by
    obtain ⟨p, last, -, -, hp⟩ := this
    obtain ⟨h1, -, h3, h4, h5⟩ := hp _ rfl
    exact ⟨p, h1, h3, h4, h5⟩
  induction r using List.reverseRecOn with
  | nil =>
    refine ⟨fun _ => scanFirst ty env (x a), a, by simp, by simp, ?_⟩
    rintro b rfl
    refine ⟨rfl, rfl, rfl, fun t v hc => ?_, fun k => ?_⟩
    · obtain ⟨h1, h2, h3, -⟩ := hc
      simp at h1 h2; omega
    · constructor
      · intro hk
        simp [flagNone] at hk
      · rintro ⟨t, v, ⟨h1, h2, h3, -⟩, -⟩
        simp at h1 h2; omega
  | append_singleton r u ih =>
    have hs' : (a :: r ++ [u]).Pairwise (· < ·) := hs
    obtain ⟨hs1, -, hs2⟩ := List.pairwise_append.1 hs'
    have hlt : ∀ c ∈ a :: r, c < u := fun c hc => hs2 c hc u (by simp)
    obtain ⟨p, last, hlast, hmax, hp⟩ := ih hs1
    obtain ⟨h1, h2, h3, h4, h5⟩ := hp _ rfl
    have hu : ∀ c ∈ a :: r, c ≠ u := fun c hc => Nat.ne_of_lt (hlt c hc)
    have hcons : ∀ t v, consec (a :: (r ++ [u])) t v ↔ consec (a :: r) t v ∨ (v = u ∧ t = last) :=
      fun t v => consec_snoc (l := a :: r) hlt last hlast hmax
    refine ⟨fun t => if t = u then (scanStep ty op env (p last) (x u)).1 else p t, u, by simp, ?_, ?_⟩
    · intro c hc
      have : c ∈ a :: r ∨ c = u := by simpa [or_assoc] using hc
      exact this.elim (fun h => Nat.le_of_lt (hlt c h)) (fun h => Nat.le_of_eq h)
    rintro b rfl
    have hpt : ∀ c ∈ a :: r, (if c = u then (scanStep ty op env (p last) (x u)).1 else p c) = p c :=
      fun c hc => if_neg (hu c hc)
    simp only [List.map_append, List.foldl_append, List.map_cons, List.map_nil, List.foldl_cons, List.foldl_nil]
    rw [h2]
    refine ⟨?_, ?_, ?_, fun t v hc => ?_, fun k => ?_⟩
    · rw [h1, if_pos True.intro, hpt a (by simp)]
      simp only [List.map_cons, List.cons_append]
      congr 2
      exact List.map_congr_left fun c hc => by rw [hpt c (by simp [hc])]
    · rw [if_pos True.intro]
    · rw [hpt a (by simp)]; exact h3
    · rcases (hcons t v).1 hc with h | ⟨rfl, rfl⟩
      · rw [hpt t h.1, hpt v h.2.1]
        exact h4 t v h
      · rw [if_pos rfl, hpt _ hlast]
    · have e : ∀ y : FpFlags, (((List.foldl (fun (acc : List (Nat × Word) × Word × FpFlags) p =>
          let y := scanStep ty op env acc.2.1 p.2
          (acc.1 ++ [(p.1, y.1)], y.1, acc.2.2 ||| y.2)) ([(a, scanFirst ty env (x a))], scanFirst ty env (x a), flagNone)
          (r.map fun t => (t, x t))).2.2 ||| y).zeroExtend 32 : Word).getLsbD k = true ↔ _ ∨ (y.zeroExtend 32 : Word).getLsbD k = true :=
        fun y => by
          rw [show ∀ z : FpFlags, ((z ||| y).zeroExtend 32 : Word) = z.zeroExtend 32 ||| y.zeroExtend 32 from fun z => by simp]
          rw [BitVec.getLsbD_or, Bool.or_eq_true, h5]
      rw [e]
      constructor
      · rintro (⟨t, v, hc, hk⟩ | hk)
        · exact ⟨t, v, (hcons t v).2 (.inl hc), by rw [hpt t hc.1]; exact hk⟩
        · exact ⟨last, u, (hcons _ _).2 (.inr ⟨rfl, rfl⟩), by rw [hpt _ hlast]; exact hk⟩
      · rintro ⟨t, v, hc, hk⟩
        rcases (hcons t v).1 hc with h | ⟨rfl, rfl⟩
        · rw [hpt t h.1] at hk
          exact .inl ⟨t, v, h, hk⟩
        · rw [hpt _ hlast] at hk
          exact .inr hk

/-- The threads of a mask in ascending order. -/
def mThreads (m : Mask) : List Nat := (List.range 16).filter (mHas m)

theorem mHas_lt {m : Mask} {t : Nat} (h : mHas m t = true) : t < 16 := BitVec.lt_of_getLsbD h

theorem mem_mThreads {m : Mask} {t : Nat} : t ∈ mThreads m ↔ mHas m t = true := by
  simp only [mThreads, List.mem_filter, List.mem_range]
  exact ⟨fun h => h.2, fun h => ⟨mHas_lt h, h⟩⟩

theorem mThreads_sorted (m : Mask) : (mThreads m).Pairwise (· < ·) := List.pairwise_lt_range.filter _

theorem mThreads_ne {m : Mask} (h : m ≠ 0) : mThreads m ≠ [] := by
  have := mem_mThreads.2 (mLow_spec m h).2
  exact List.ne_nil_of_mem this

theorem head_mThreads {m : Mask} (h : mThreads m ≠ []) : (mThreads m).head h = mLow m := by
  have h1 : (mThreads m).head? = (List.range 16).find? (mHas m) := List.head?_filter
  rw [List.head?_eq_some_head h] at h1
  unfold mLow
  rw [← h1]
  rfl

theorem consec_mask {m : Mask} {t v : Nat} : consec (mThreads m) t v ↔
    t < v ∧ mHas m t = true ∧ mHas m v = true ∧ ∀ w, t < w → w < v → mHas m w = false := by
  unfold consec
  simp only [mem_mThreads]
  constructor
  · rintro ⟨h1, h2, h3, h4⟩
    exact ⟨h3, h1, h2, fun w a b => by
      cases h : mHas m w
      · rfl
      · exact absurd ⟨a, b⟩ (h4 w h)⟩
  · rintro ⟨h3, h1, h2, h4⟩
    exact ⟨h1, h2, h3, fun w h ⟨a, b⟩ => by rw [h4 w a b] at h; exact absurd h (by decide)⟩

theorem prefixes_mask (ty op : Nat) (env : FEnv) (m : Mask) (x : Nat → Word) (h : m ≠ 0) (st u : Strand)
    (hu : u.sts = stsAdd st.sts (scanPrefixes ty op env ((mThreads m).map fun t => (t, x t))).2) :
    ∃ p : Nat → Word, (scanPrefixes ty op env ((mThreads m).map fun t => (t, x t))).1 = (mThreads m).map (fun t => (t, p t)) ∧
      Prefixes ty op env m x p ∧ PrefixFlags ty op env m x p st u := by
  obtain ⟨p, h1, h2, h3, h4⟩ := prefixes_list ty op env x (mThreads m) (mThreads_sorted m) (mThreads_ne h)
  refine ⟨p, h1, ⟨fun t _ ht => ?_, fun t v a b c d => h3 t v (consec_mask.2 ⟨a, b, c, d⟩)⟩, fun k => ?_⟩
  · rw [head_mThreads] at h2
    rw [ht, h2]
  · rw [hu, getLsbD_stsAdd, h4]
    simp only [consec_mask, and_assoc]

theorem slots_of_list (d : Nat) (m : Mask) (val : Nat → Word) (st : Strand) :
    SlotsResult d 1 m (fun t _ => val t) st (((mThreads m).map fun t => (t, val t)).foldl (fun st p => st.vset d p.1 p.2) st) := by
  rw [List.foldl_map]
  refine eachThread_slots d 1 m (fun t _ => val t) (fun t u => u.vset d t (val t)) st fun t u _ _ => ⟨[val t], rfl, ?_, rfl⟩
  intro j hj
  obtain rfl : j = 0 := by omega
  rfl

theorem slots_flags {d n : Nat} {m : Mask} {val : Nat → Nat → Word} {st u : Strand} (h : SlotsResult d n m val st u) (fl : FpFlags) :
    SlotsResult d n m val st { u.addFlags fl with sts := st.sts } := by
  refine ⟨h.written, h.kept, ?_⟩
  have := h.rest
  rw [this]
  rfl

theorem before_take (m : Mask) (k : Nat) (hk : k < (mThreads m).length) :
    (List.range (mThreads m)[k]).filter (mHas m) = (mThreads m).take k := by
  generalize hx : (mThreads m)[k] = x
  have hm : x ∈ mThreads m := hx ▸ List.getElem_mem hk
  have hlt : x < 16 := mHas_lt (mem_mThreads.1 hm)
  have hs : mThreads m = (List.range x).filter (mHas m) ++ x :: ((List.range (15 - x)).map (x + 1 + ·)).filter (mHas m) := by
    have : List.range 16 = List.range x ++ x :: (List.range (15 - x)).map (x + 1 + ·) := by
      rw [show 16 = x + (1 + (15 - x)) by omega, List.range_add, List.range_add]
      simp [Function.comp_def, Nat.add_assoc]
    unfold mThreads
    rw [this, List.filter_append, List.filter_cons, if_pos (mem_mThreads.1 hm)]
  have hn : (mThreads m).Nodup := (mThreads_sorted m).imp (fun h => Nat.ne_of_lt h)
  have hl : ((List.range x).filter (mHas m)).length < (mThreads m).length := by rw [hs]; simp
  have he : (mThreads m)[((List.range x).filter (mHas m)).length] = x := by
    simp only [hs, List.getElem_append_right (Nat.le_refl _), Nat.sub_self, List.getElem_cons_zero]
  have : k = ((List.range x).filter (mHas m)).length := (List.Nodup.getElem_inj_iff hn).1 (hx.trans he.symm)
  conv_rhs => rw [this, hs]
  rw [List.take_left']
  rfl

theorem shifted_list (m : Mask) (p : Nat → Word) (ident : Word) :
    ((((mThreads m).map fun t => (t, p t)).zip ((0, ident) :: (mThreads m).map fun t => (t, p t))).map fun q => (q.1.1, q.2.2)) =
      (mThreads m).map fun t => (t, match mBefore m t with
        | some v => p v
        | none => ident) := by
  apply List.ext_getElem
  · simp
  · intro k h1 h2
    have hk : k < (mThreads m).length := by simpa using h2
    simp only [List.getElem_map, List.getElem_zip, Prod.mk.injEq, true_and]
    have hb := before_take m k hk
    simp only [mBefore, hb]
    cases k with
    | zero => simp
    | succ k =>
      rw [List.getLast?_eq_getElem?]
      simp [show k < (mThreads m).length by omega]

theorem scanInputs_eq {sp : OpSpec} {f : LFields} (st : Strand) (m : Mask) (ha : plainOperand f.a.toNat)
    (hk : sp.a.k = .vsk) (hn : sp.a.n = 1) : scanInputs sp f st m = (mThreads m).map fun t => (t, st.scanArg f t) := by
  unfold scanInputs
  refine List.map_congr_left fun t _ => ?_
  have : wd (st.words f sp.a f.a.toNat (scanTy (f.c.toNat / 16)) t) 0 = (if f.a.toNat < 128 then st.vget f.a.toNat t
    else if f.a.toNat < 192 then st.sget (f.a.toNat - 128) else nth 0 (constVal f.a.toNat (scanTy (f.c.toNat / 16))) 0) := by
    rw [words_plain _ _ _ _ _ _ ha (.inl hk), hn]
    split
    · simp [wd, nth]
    · split <;> simp [wd, nth]
  simp only [this, Strand.scanArg]

theorem bit_three (c : BitVec 8) : (c.toNat / 8 % 2 = 1) ↔ c.getLsbD 3 = true := by
  revert c; decide

theorem scan_says (sp : OpSpec) (f : LFields) (s : State) (st : Strand) (m : Mask) (h : m ≠ 0) (ha : plainOperand f.a.toNat)
    (hk : sp.a.k = .vsk) (hn : sp.a.n = 1) : scanSays f s st m (scanExec sp f st m) := by
  unfold scanExec
  simp only [scanInputs_eq st m ha hk hn]
  obtain ⟨p, h1, h2, h3⟩ := prefixes_mask (f.c.toNat / 16) (f.c.toNat % 8) (FEnv.ofFmt st.fmt) m (st.scanArg f) h st
    (st.addFlags (scanPrefixes (f.c.toNat / 16) (f.c.toNat % 8) (FEnv.ofFmt st.fmt)
      ((mThreads m).map fun t => (t, st.scanArg f t))).2) rfl
  refine ⟨p, h2, ?_, ?_⟩
  · rw [h1, shifted_list]
    by_cases hx : f.c.getLsbD 3 = true
    · rw [if_pos ((bit_three _).2 hx)]
      simp only [if_pos hx]
      exact slots_flags (slots_of_list f.d.toNat m _ st) _
    · rw [if_neg (fun e => hx ((bit_three _).1 e))]
      simp only [if_neg hx]
      exact slots_flags (slots_of_list f.d.toNat m p st) _
  · have hr : ∀ l : List (Nat × Word), (l.foldl (fun st p => st.vset f.d.toNat p.1 p.2) st).sts = st.sts := by
      intro l
      generalize st = u
      induction l generalizing u with
      | nil => rfl
      | cons q l ih => rw [List.foldl_cons, ih]; rfl
    intro k
    rw [← h3 k]
    change (stsAdd (List.foldl _ st _).sts _).getLsbD k = true ↔ (stsAdd st.sts _).getLsbD k = true
    rw [hr]

theorem putDest_word (f : LFields) (m : Mask) (x : Word) (st : Strand) :
    WordResult f m x st (st.putDest f.d.toNat m fun _ => [x]) := by
  unfold WordResult Strand.putDest
  split
  · refine eachThread_slots _ 1 m (fun _ _ => x) _ st fun t u _ _ => ⟨[x], rfl, ?_, rfl⟩
    intro j hj
    obtain rfl : j = 0 := by omega
    rfl
  · simp [Strand.sputs]

theorem wordResult_sts {f : LFields} {m : Mask} {x : Word} {st u : Strand} (h : WordResult f m x st u) : u.sts = st.sts := by
  unfold WordResult at h
  split at h
  · rw [h.rest]
  · rw [h]; rfl

theorem wordResult_flags {f : LFields} {m : Mask} {x : Word} {st u : Strand} (h : WordResult f m x st u) (fl : FpFlags) :
    WordResult f m x st { u.addFlags fl with sts := st.sts } := by
  have e : ({ u.addFlags fl with sts := st.sts } : Strand) = u := by
    have := wordResult_sts h
    rw [← this]
    rfl
  rw [e]
  exact h

theorem reds_says (sp : OpSpec) (f : LFields) (s : State) (st : Strand) (m : Mask) (h : m ≠ 0) (ha : plainOperand f.a.toNat)
    (hk : sp.a.k = .vsk) (hn : sp.a.n = 1) : redsSays f s st m (redsExec sp f st m) := by
  unfold redsExec
  simp only [scanInputs_eq st m ha hk hn]
  obtain ⟨p, h1, h2, h3⟩ := prefixes_mask (f.c.toNat / 16) (f.c.toNat % 8) (FEnv.ofFmt st.fmt) m (st.scanArg f) h st
    (st.addFlags (scanPrefixes (f.c.toNat / 16) (f.c.toNat % 8) (FEnv.ofFmt st.fmt)
      ((mThreads m).map fun t => (t, st.scanArg f t))).2) rfl
  have hl : (scanPrefixes (f.c.toNat / 16) (f.c.toNat % 8) (FEnv.ofFmt st.fmt)
      ((mThreads m).map fun t => (t, st.scanArg f t))).1.getLast? = some (mHigh m, p (mHigh m)) := by
    rw [h1, List.getLast?_map]
    have : (mThreads m).getLast? = some (mHigh m) := by
      obtain ⟨t, ht⟩ : ∃ t, (mThreads m).getLast? = some t := by
        rw [List.getLast?_eq_some_getLast (mThreads_ne h)]; exact ⟨_, rfl⟩
      have ht' : ((List.range 16).filter (mHas m)).getLast? = some t := ht
      rw [ht, mHigh, ht']
      rfl
    rw [this]
    rfl
  simp only [hl]
  have hw := putDest_word f m (p (mHigh m)) st
  refine ⟨p, h2, wordResult_flags hw _, fun k => ?_⟩
  rw [← h3 k]
  change (stsAdd (Strand.putDest st _ _ _).sts _).getLsbD k = true ↔ (stsAdd st.sts _).getLsbD k = true
  rw [wordResult_sts hw]

theorem ffff_bit (b : Bool) (t : Nat) (ht : t < 16) : ((if b then 0xFFFF else 0 : Mask)).getLsbD t = b := by
  revert t; cases b <;> decide

theorem vote_says (f : LFields) (s : State) (st : Strand) (m : Mask) (h : m ≠ 0) (hm : f.m3.toNat ≤ 3) :
    voteSays f s st m (voteExec f st m) := by
  unfold voteSays voteExec
  have hb : ∀ b : Bool, BitsResult f.d.toNat m (fun _ => b) st (st.qset f.d.toNat m (if b then 0xFFFF else 0)) :=
    fun b => bits_qset _ _ _ _ _ fun t ht => ffff_bit b t ht
  have hq : ∀ t, mHas (st.qget f.a.toNat &&& m) t = (mHas (st.qget f.a.toNat) t && mHas m t) := fun t => by
    simp [mHas, BitVec.getLsbD_and]
  have h0 : (st.qget f.a.toNat &&& m) = 0 ↔ ∀ t, t < 16 → mHas m t = true → mHas (st.qget f.a.toNat) t = false := by
    constructor
    · intro e t ht hmt
      have := hq t
      rw [e, hmt, Bool.and_true] at this
      rw [← this]
      simp [mHas]
    · intro e
      apply BitVec.eq_of_getLsbD_eq
      intro t ht
      have := hq t
      simp only [mHas] at this e
      rw [this]
      cases hx : m.getLsbD t <;> simp [hx, e t ht]
  have h1 : (st.qget f.a.toNat &&& m) = m ↔ ∀ t, t < 16 → mHas m t = true → mHas (st.qget f.a.toNat) t = true := by
    constructor
    · intro e t ht hmt
      have := hq t
      rw [e, hmt] at this
      simpa using this.symm
    · intro e
      apply BitVec.eq_of_getLsbD_eq
      intro t ht
      have := hq t
      simp only [mHas] at this e
      rw [this]
      cases hx : m.getLsbD t <;> simp [hx, e t ht]
  have h3 : f.m3.toNat = 0 ∨ f.m3.toNat = 1 ∨ f.m3.toNat = 2 ∨ f.m3.toNat = 3 := by omega
  have hv : ∀ (x : BitVec 3) k, x.toNat = k → x = BitVec.ofNat 3 k := fun x k e => by rw [← e]; simp
  rcases h3 with e | e | e | e
  · have e' := hv _ _ e
    simp only [e', show ¬ (BitVec.ofNat 3 0 = 3) by decide, if_false]
    refine ⟨_, hb _, fun _ => ?_, fun hx => absurd hx (by decide), fun hx => absurd hx (by decide)⟩
    rw [bne_iff_ne, ne_eq, h0]
    push Not
    simp
  · have e' := hv _ _ e
    simp only [e', show ¬ (BitVec.ofNat 3 1 = 3) by decide, if_false]
    refine ⟨_, hb _, fun hx => absurd hx (by decide), fun _ => ?_, fun hx => absurd hx (by decide)⟩
    rw [beq_iff_eq, h1]
  · have e' := hv _ _ e
    simp only [e', show ¬ (BitVec.ofNat 3 2 = 3) by decide, if_false]
    refine ⟨_, hb _, fun hx => absurd hx (by decide), fun hx => absurd hx (by decide), fun _ => ?_⟩
    rw [Bool.or_eq_true, beq_iff_eq, beq_iff_eq, h1, h0]
    constructor
    · rintro (h | h) t v ht hv a b
      · rw [h t ht a, h v hv b]
      · rw [h t ht a, h v hv b]
    · intro hx
      obtain ⟨l1, l2⟩ := mLow_spec m h
      cases hc : mHas (st.qget f.a.toNat) (mLow m)
      · exact .inr fun t ht a => (hx t _ ht l1 a l2).trans hc
      · exact .inl fun t ht a => (hx t _ ht l1 a l2).trans hc
  · have e' := hv _ _ e
    simp only [e', show BitVec.ofNat 3 3 = 3 from rfl, if_true]
    exact putDest_word f m _ st

theorem mOf_bit (p : Nat → Bool) (v : Nat) (hv : v < 16) : (mOf p).getLsbD v = p v := by
  unfold mOf
  suffices ∀ (l : List Nat) (a : Mask), (l.foldl (fun m t => if p t then m ||| (1#16 <<< t) else m) a).getLsbD v = (a.getLsbD v || (decide (v ∈ l) && p v)) by
    rw [this]
    simp [hv]
  intro l
  induction l with
  | nil => simp
  | cons t l ih =>
    intro a
    rw [List.foldl_cons, ih]
    by_cases hp : p t = true
    · rw [if_pos hp, BitVec.getLsbD_or, getLsbD_one_shift _ _ hv]
      by_cases e : v = t
      · subst e; simp [hp]
      · simp [e]
    · rw [if_neg hp]
      by_cases e : v = t
      · subst e; simp [hp]
      · simp [e]

theorem match_says (sp : OpSpec) (f : LFields) (s : State) (st : Strand) (m : Mask) (ha : plainOperand f.a.toNat)
    (hk : sp.a.k = .vsk) (hn : sp.a.n = crossLen f) : matchSays f s st m (matchExec sp f st m) := by
  unfold matchExec
  refine ⟨fun t => ((mOf fun u => mHas m u &&
    st.words f sp.a f.a.toNat (bTy f.m3) u == st.words f sp.a f.a.toNat (bTy f.m3) t).zeroExtend 32),
    eachThread_slots _ 1 m _ _ st fun t u _ _ => ⟨[_], rfl, ?_, rfl⟩, ?_⟩
  · intro j hj
    obtain rfl : j = 0 := by omega
    rfl
  · intro t v ht hv
    have hw : ∀ t, st.words f sp.a f.a.toNat (bTy f.m3) t = (List.range (crossLen f)).map fun j => st.crossA f t j := by
      intro t
      rw [words_plain _ _ _ _ _ _ ha (.inl hk), hn]
      unfold Strand.crossA
      split
      · rfl
      · split
        · rfl
        · unfold bTy crossLen
          by_cases h7 : f.m3 = 7
          · simp only [h7, beq_self_eq_true, if_true]
            simp [constVal, nth, List.range_succ]
          · simp only [beq_iff_eq, if_neg h7, constVal]
            simp [nth]
    simp only [hw]
    by_cases hv' : v < 16
    · simp only [BitVec.truncate_eq_setWidth, BitVec.getLsbD_setWidth, mOf_bit _ _ hv', hv, hv', decide_true, Bool.true_and,
        Bool.and_eq_true, beq_iff_eq, true_and]
      refine and_congr_right fun _ => ?_
      rw [List.map_inj_left]
      simp
    · simp only [BitVec.truncate_eq_setWidth, BitVec.getLsbD_setWidth, BitVec.getLsbD_of_ge _ v (show 16 ≤ v by omega), hv',
        Bool.and_false, Bool.false_eq_true, false_and]


theorem one_word (x : Word) (j : Nat) (hj : j < 1) : nth 0 [x] j = x := by
  obtain rfl : j = 0 := by omega
  rfl

theorem lace_says (f : LFields) (s : State) (st : Strand) (m : Mask) :
    laceSays f s st m (laceExec f (fun k => cget (s.core st.d st.k).lace (128 * f.c.toNat + k)) st m) := by
  unfold laceSays laceExec
  generalize (fun k => cget (s.core st.d st.k).lace (128 * f.c.toNat + k)) = tab
  have hval : ∀ e t, (if (tab (16 * e + t)).toNat ≥ 128 ∨ nbits (tab (16 * e + t)).toNat 4 3 ≥ blockLen f then 0
      else st.vget (f.a.toNat + blockOff f (nbits (tab (16 * e + t)).toNat 4 3)) ((tab (16 * e + t)).toNat % 16)) =
      st.laced f tab e t := by
    intro e t
    unfold Strand.laced
    generalize tab (16 * e + t) = b
    have h7 : b.toNat ≥ 128 ↔ b.getLsbD 7 = true := by revert b; decide
    have h4 : nbits b.toNat 4 3 = (b.extractLsb' 4 3).toNat := by revert b; decide
    have h0 : b.toNat % 16 = (b.extractLsb' 0 4).toNat := by revert b; decide
    simp only [h7, h4, h0, ge_iff_le]
  simp only [hval]
  suffices ∀ (n : Nat) (r : Strand), r = (List.range n).foldl (fun r e => eachThread (elemMask st.resume m e)
      (fun t r => r.vset (f.d.toNat + blockOff f e) t (st.laced f tab e t)) r) st →
      (∀ e t, e < n → t < 16 → mHas (elemMask st.resume m e) t = true →
        r.vget (f.d.toNat + blockOff f e) t = st.laced f tab e t) ∧
      (∀ k t, t < 16 → (∀ e, e < n → mHas (elemMask st.resume m e) t = true → k ≠ f.d.toNat + blockOff f e) →
        r.vget k t = st.vget k t) ∧ r = { st with v := r.v } by
    exact this (blockLen f) _ rfl
  intro n
  induction n with
  | zero => rintro r rfl; exact ⟨fun _ _ h => absurd h (by omega), fun _ _ _ _ => rfl, rfl⟩
  | succ n ih =>
    rintro r rfl
    rw [List.range_succ, List.foldl_append, List.foldl_cons, List.foldl_nil]
    obtain ⟨h1, h2, h3⟩ := ih _ rfl
    generalize (List.range n).foldl (fun r e => eachThread (elemMask st.resume m e)
      (fun t r => r.vset (f.d.toNat + blockOff f e) t (st.laced f tab e t)) r) st = q at *
    have hs := eachThread_slots (f.d.toNat + blockOff f n) 1 (elemMask st.resume m n) (fun t _ => st.laced f tab n t)
      (fun t r => r.vset (f.d.toNat + blockOff f n) t (st.laced f tab n t)) q
      fun t u _ _ => ⟨[st.laced f tab n t], rfl, one_word _, rfl⟩
    refine ⟨fun e t he ht hm => ?_, fun k t ht hk => ?_, ?_⟩
    · by_cases hen : e = n
      · subst hen
        exact hs.written t 0 ht hm (by decide)
      · rw [hs.kept _ t ht (.inr ?_)]
        · exact h1 e t (by omega) ht hm
        · have : blockOff f e ≠ blockOff f n := fun h => hen (blockOff_inj h)
          omega
    · rw [hs.kept k t ht ?_]
      · exact h2 k t ht fun e he hm => hk e (by omega) hm
      · cases hm : mHas (elemMask st.resume m n) t
        · exact .inl rfl
        · have := hk n (by omega) hm
          right; omega
    · rw [hs.rest, h3]

theorem eachThread_none {α : Type} (g : Nat → α → α) (x : α) : eachThread 0 g x = x := by
  unfold eachThread
  have : (List.range 16).filter (mHas 0) = [] := by decide
  rw [this]
  rfl

theorem laceExec_none (f : LFields) (tab : Nat → Byte) (st : Strand) : laceExec f tab st 0 = st := by
  unfold laceExec
  have : ∀ e, elemMask st.resume 0 e = 0 := by
    intro e
    unfold elemMask
    split
    · split
      · rfl
      · split <;> simp
    · rfl
  simp only [this, eachThread_none]
  generalize List.range (blockLen f) = l
  induction l with
  | nil => rfl
  | cons e l ih => exact ih

theorem runCount_v {st u : Strand} (h : u = { st with v := u.v }) : u.runCount = st.runCount := by rw [h]

theorem srcX (t : Nat) (b : Word) (ht : t < 16) : srcShflx t b.toNat = (BitVec.ofNat 4 t ^^^ b.extractLsb' 0 4).toNat := by
  unfold srcShflx
  rw [BitVec.toNat_xor, BitVec.extractLsb'_toNat, BitVec.toNat_ofNat, Nat.mod_eq_of_lt ht]
  simp

theorem ops_ok {sp : OpSpec} {f : LFields} (h : sp.ok f = true) : sp.a.ok f.a.toNat = true ∧ sp.b.ok f.b.toNat = true := by
  simp only [OpSpec.ok, Bool.and_eq_true] at h
  exact ⟨h.1.1.1.1.1.1.1.1.1.2, h.1.1.1.1.1.1.1.1.2⟩

theorem plain_of_fld {r : Fld} {x : Nat} (hk : r.k = .vsk ∨ r.k = .sk) (h : r.ok x = true) : plainOperand x := by
  simp only [Fld.ok, Bool.and_eq_true] at h
  have := h.1
  unfold plainOperand
  rcases hk with hk | hk <;> rw [hk] at this <;>
    simp only [FldK.ok, Bool.or_eq_true, Bool.and_eq_true, decide_eq_true_eq] at this <;> omega

theorem plain_small {n : Nat} (x : BitVec 6) (y : Nat) (h : y = (x.zeroExtend n).toNat) : plainOperand y := by
  left
  rw [h]
  simp only [BitVec.truncate_eq_setWidth, BitVec.toNat_setWidth]
  have := x.isLt
  have := Nat.mod_le x.toNat (2 ^ n)
  omega

theorem w64_cross (f : LFields) : w64 f = crossLen f := by
  unfold w64 crossLen
  simp only [beq_iff_eq]

theorem wordResult_runCount {f : LFields} {m : Mask} {x : Word} {st u : Strand} (h : WordResult f m x st u) :
    u.runCount = st.runCount := by
  unfold WordResult at h
  split at h
  · rw [h.rest]
  · rw [h]; rfl

theorem scanSays_runCount {f : LFields} {s : State} {st u : Strand} {m : Mask} (h : scanSays f s st m u) :
    u.runCount = st.runCount := by
  obtain ⟨p, -, h, -⟩ := h
  have := congrArg (fun v : Strand => v.runCount) h.rest
  exact this

theorem redsSays_runCount {f : LFields} {s : State} {st u : Strand} {m : Mask} (h : redsSays f s st m u) :
    u.runCount = st.runCount := by
  obtain ⟨p, -, h, -⟩ := h
  have := wordResult_runCount h
  exact this

theorem voteSays_runCount {f : LFields} {s : State} {st u : Strand} {m : Mask} (h : voteSays f s st m u) :
    u.runCount = st.runCount := by
  unfold voteSays at h
  split at h
  · exact wordResult_runCount h
  · obtain ⟨b, h, -⟩ := h
    rw [h.rest]

theorem m3_le {sp : OpSpec} {f : LFields} (h : sp.ok f = true) (e : sp.m3 = 0x0F) : f.m3.toNat ≤ 3 := by
  have h1 : sp.m3.testBit f.m3.toNat = true := by
    simp only [OpSpec.ok, Bool.and_eq_true] at h
    exact h.1.1.1.1.1.1.2
  rw [e] at h1
  revert h1
  generalize f.m3 = x
  revert x
  decide

theorem lace_once {f : LFields} {s : State} {id : Nat} {st : Strand}
    (hp : Passes (.lace f) (rowOf (.lace f)) f (tablePre s) s id st) : exec (.lace f) s =
    execOnce (.lace f) (rowOf (.lace f)) f 8 (tablePre s)
      (fun x => laceExec f (fun k => cget (s.core x.st.d x.st.k).lace (128 * f.c.toNat + k)) x.st x.adm) s := by
  change execLace f s = _
  unfold execLace execOnce
  simp only
  rw [issue_go hp]
  simp only
  split
  · next h => rw [h, laceExec_none]
  · rfl

end Sys2Proof.Machine
end

