-- ==== Sys2Proof/Laws/Flight.lean ====
section
/-! SUPPORT. Operations in flight: issuing, ending, and the order in which counters fall. -/

namespace Sys2Proof.Machine

theorem puts_putStrand (s : State) (id : Nat) (w : Strand) : Puts s (s.putStrand id w) id w :=
  ⟨State.strand_putStrand_same _ _ _, fun j hj => by simp [State.strand_putStrand, hj], rfl⟩

theorem Puts.trans {s t u : State} {id : Nat} {v w : Strand} (h : Puts s t id v) (k : Puts t u id w) : Puts s u id w :=
  ⟨k.here, fun j hj => (k.others j hj).trans (h.others j hj), k.rest.trans h.rest⟩

theorem modStrand_some {s : State} {id : Nat} {st : Strand} (h : s.strand id = some st) (g : Strand → Strand) :
    s.modStrand id g = s.putStrand id (g st) := by
  unfold State.modStrand
  rw [h]

@[simp] theorem waitLines_putStrand (s : State) (id : Nat) (w : Strand) : (s.putStrand id w).waitLines = s.waitLines := rfl

theorem run_fall (st : Strand) (w : List Nat) : (st.fall w).run = st.run := rfl

/-- An operation that a change keeps the number of is found changed. -/
theorem op_modOp (st : Strand) (n : Nat) (g : Op → Op) (hg : ∀ o, (g o).id = o.id) : (st.modOp n g).op n = (st.op n).map g := by
  unfold Strand.modOp Strand.op
  simp only
  induction st.ops with
  | nil => rfl
  | cons a r ih =>
    rw [List.map_cons, List.find?_cons, List.find?_cons]
    cases e : a.id == n with
    | true => simp only [if_true, hg, e]; rfl
    | false => simp only [Bool.false_eq_true, if_false, e]; exact ih

/-- Completing an operation of a strand with no mark waiting that is not draining. -/
theorem completeOp_puts {s : State} {id n : Nat} {st : Strand} (h : s.strand id = some st) (hm : st.marks = [])
    (hr : st.run ≠ .draining) (hb : ∀ o, st.op n = some o → o.bad = 0) :
    Puts s (s.completeOp id n) id ((st.modOp n fun o => { o with fin := true }).fall s.waitLines) := by
  have hop := op_modOp st n (fun o => { o with fin := true }) fun _ => rfl
  unfold State.completeOp
  simp only [h, hop]
  have hpd : ∀ q : Option Op, (∀ o, q = some o → o.bad = 0) → opPends q n = [] := by
    intro q hq
    unfold opPends
    cases q with
    | none => rfl
    | some o => simp [hq o rfl]
  have hq : ∀ o, (st.op n).map (fun o => ({ o with fin := true } : Op)) = some o → o.bad = 0 := by
    intro o ho
    obtain ⟨p, h1, h2⟩ := Option.map_eq_some_iff.mp ho
    rw [← h2]
    exact hb p h1
  rw [hpd _ hq, List.append_nil]
  have k1 : Puts s (s.putStrand id (st.modOp n fun o => { o with fin := true })) id _ := puts_putStrand _ _ _
  have hm2 : (st.modOp n fun o => { o with fin := true }).marks = [] := hm
  have e1 : ((s.putStrand id { st.modOp n (fun o => { o with fin := true }) with
      pend := (st.modOp n fun o => { o with fin := true }).pend }).fireMarks id) =
      (s.putStrand id (st.modOp n fun o => { o with fin := true })).putStrand id (st.modOp n fun o => { o with fin := true }) := by
    unfold State.fireMarks
    rw [State.strand_putStrand_same]
    simp only [hm2, List.filter_nil, List.foldl_nil]
    have : { st.modOp n (fun o => { o with fin := true }) with marks := [] } = st.modOp n fun o => { o with fin := true } := by
      rw [← hm2]
    simp only [this]
  have e2 := e1
  rw [e2, modStrand_some (State.strand_putStrand_same _ _ _), waitLines_putStrand, waitLines_putStrand]
  have k2 := (k1.trans (puts_putStrand _ id (st.modOp n fun o => { o with fin := true }))).trans
    (puts_putStrand _ id ((st.modOp n fun o => { o with fin := true }).fall s.waitLines))
  have hd : ∀ t : State, t.strand id = some ((st.modOp n fun o => { o with fin := true }).fall s.waitLines) → t.drained id = t := by
    intro t ht
    unfold State.drained
    simp only [ht]
    rw [if_neg]
    intro hh
    simp only [Bool.and_eq_true, beq_iff_eq] at hh
    exact hr hh.1.1
  rw [hd _ k2.here]
  exact k2

/-- Ending an engine's operation with its error. -/
theorem engDone_puts {s : State} {id n : Nat} {st : Strand} {err : Option EngErr} (h : s.strand id = some st)
    (hm : st.marks = []) (hr : st.run ≠ .draining) (hb : ∀ o, st.op n = some o → o.bad = 0) :
    Puts s (s.engDone id n err) id (st.finishes n err s.waitLines) := by
  unfold State.engDone
  rw [modStrand_some h]
  have hb2 : ∀ o, (st.modOp n fun o => { o with err := err }).op n = some o → o.bad = 0 := by
    intro o ho
    rw [op_modOp st n (fun o => { o with err := err }) fun _ => rfl] at ho
    obtain ⟨p, h1, h2⟩ := Option.map_eq_some_iff.mp ho
    rw [← h2]
    exact hb p h1
  have k := (puts_putStrand s id (st.modOp n fun o => { o with err := err })).trans
    (completeOp_puts (n := n) (State.strand_putStrand_same s id (st.modOp n fun o => { o with err := err })) hm hr hb2)
  have e : ((st.modOp n fun o => { o with err := err }).modOp n fun o => { o with fin := true }) =
      st.modOp n fun o => { o with err := err, fin := true } := by
    unfold Strand.modOp
    simp only [List.map_map]
    congr 1
    refine List.map_congr_left fun o _ => ?_
    simp only [Function.comp]
    by_cases q : o.id = n
    · simp [q]
    · have : (o.id == n) = false := by simpa using q
      simp [this]
  unfold Strand.finishes
  rw [← e]
  exact k

end Sys2Proof.Machine
end

