-- ==== Sys2Proof/Laws/PerInstr.lean ====
section
/-! SUPPORT. The family RoundTrip (R80, R82, R85, R91): for each constructor, the decoder reads back a well-formed
instruction from the bytes that the encoder gives it, with every operand, whatever bytes follow; a step that has no
encoding satisfies it vacuously. -/

namespace Sys2Proof.Laws

/-- The byte k of an n-byte word. -/
theorem wordBytes_two (x : BitVec 16) :
    wordBytes 2 x.toNat = [x.extractLsb' 0 8, x.extractLsb' 8 8] := by
  simp only [wordBytes, List.cons.injEq, and_true]
  constructor <;> apply BitVec.eq_of_toNat_eq <;>
    simp [BitVec.extractLsb'_toNat, Nat.shiftRight_eq_div_pow]

theorem wordBytes_four (x : BitVec 32) :
    wordBytes 4 x.toNat = [x.extractLsb' 0 8, x.extractLsb' 8 8, x.extractLsb' 16 8, x.extractLsb' 24 8] := by
  simp only [wordBytes, List.cons.injEq, and_true]
  refine ⟨?_, ?_, ?_, ?_⟩ <;> apply BitVec.eq_of_toNat_eq <;>
    simp [BitVec.extractLsb'_toNat, Nat.shiftRight_eq_div_pow, Nat.div_div_eq_div_mul]

theorem wordBytes_eight (x : BitVec 64) :
    wordBytes 8 x.toNat = [x.extractLsb' 0 8, x.extractLsb' 8 8, x.extractLsb' 16 8, x.extractLsb' 24 8,
      x.extractLsb' 32 8, x.extractLsb' 40 8, x.extractLsb' 48 8, x.extractLsb' 56 8] := by
  simp only [wordBytes, List.cons.injEq, and_true]
  refine ⟨?_, ?_, ?_, ?_, ?_, ?_, ?_, ?_⟩ <;> apply BitVec.eq_of_toNat_eq <;>
    simp [BitVec.extractLsb'_toNat, Nat.shiftRight_eq_div_pow, Nat.div_div_eq_div_mul]

/-- Bits, one by one, after every append and extract is written out. -/
theorem joinHalf (x : BitVec 16) : half (x.extractLsb' 0 8) (x.extractLsb' 8 8) = x := by
  apply BitVec.eq_of_getLsbD_eq
  intro i hi
  simp only [half, BitVec.getLsbD_append, BitVec.getLsbD_extractLsb']
  by_cases h : i < 8
  · simp [h]
  · simp [h, show i - 8 < 8 by omega, show 8 + (i - 8) = i by omega]

theorem joinWord (x : BitVec 32) :
    half (x.extractLsb' 16 8) (x.extractLsb' 24 8) ++ half (x.extractLsb' 0 8) (x.extractLsb' 8 8) = x := by
  apply BitVec.eq_of_getLsbD_eq
  intro i hi
  simp only [half, BitVec.getLsbD_append, BitVec.getLsbD_extractLsb']
  by_cases h : i < 8
  · simp [h, show i < 16 by omega]
  by_cases h1 : i < 16
  · simp [h, h1, show i - 8 < 8 by omega, show 8 + (i - 8) = i by omega]
  by_cases h2 : i < 24
  · simp [h1, show i - 16 < 8 by omega, show 16 + (i - 16) = i by omega]
  · simp [h1, show ¬ i - 16 < 8 by omega, show i - 16 - 8 < 8 by omega, show 24 + (i - 16 - 8) = i by omega]

theorem joinDouble (x : BitVec 64) :
    half (x.extractLsb' 48 8) (x.extractLsb' 56 8) ++ half (x.extractLsb' 32 8) (x.extractLsb' 40 8) ++
      half (x.extractLsb' 16 8) (x.extractLsb' 24 8) ++ half (x.extractLsb' 0 8) (x.extractLsb' 8 8) = x := by
  apply BitVec.eq_of_getLsbD_eq
  intro i hi
  simp only [half, BitVec.getLsbD_append, BitVec.getLsbD_extractLsb']
  by_cases h : i < 8
  · simp [h, show i < 16 by omega]
  by_cases h1 : i < 16
  · simp [h, h1, show i - 8 < 8 by omega, show 8 + (i - 8) = i by omega]
  by_cases h2 : i < 24
  · simp [h1, show i - 16 < 8 by omega, show i - 16 < 16 by omega, show 16 + (i - 16) = i by omega]
  by_cases h3 : i < 32
  · simp [h1, show i - 16 < 16 by omega, show ¬ i - 16 < 8 by omega, show i - 16 - 8 < 8 by omega,
      show 24 + (i - 16 - 8) = i by omega]
  by_cases h4 : i < 40
  · simp [h1, show ¬ i - 16 < 16 by omega, show i - 16 - 16 < 16 by omega, show i - 16 - 16 < 8 by omega,
      show 32 + (i - 16 - 16) = i by omega]
  by_cases h5 : i < 48
  · simp [h1, show ¬ i - 16 < 16 by omega, show i - 16 - 16 < 16 by omega, show ¬ i - 16 - 16 < 8 by omega,
      show i - 16 - 16 - 8 < 8 by omega, show 40 + (i - 16 - 16 - 8) = i by omega]
  by_cases h6 : i < 56
  · simp [h1, show ¬ i - 16 < 16 by omega, show ¬ i - 16 - 16 < 16 by omega, show i - 16 - 16 - 16 < 8 by omega,
      show 48 + (i - 16 - 16 - 16) = i by omega]
  · simp [h1, show ¬ i - 16 < 16 by omega, show ¬ i - 16 - 16 < 16 by omega, show ¬ i - 16 - 16 - 16 < 8 by omega,
      show i - 16 - 16 - 16 - 8 < 8 by omega, show 56 + (i - 16 - 16 - 16 - 8) = i by omega]

/-- What the decoder reads from the bytes of a word whose low bits give its own length (R80). -/
theorem decode_h (x : BitVec 16) (rest : List Byte) (h0 : x.getLsbD 0 = false) :
    decode ((Enc.h x).bytes ++ rest) = .ok (decodeH x, 2) := by
  have hb : (x.extractLsb' 0 8).getLsbD 0 = false := by simpa using h0
  simp only [Enc.bytes, wordBytes_two, decode, List.cons_append, List.nil_append, hb, joinHalf]
  simp

theorem decode_w (x : BitVec 32) (rest : List Byte) (h0 : x.getLsbD 0 = true) (h1 : x.getLsbD 1 = false) :
    decode ((Enc.w x).bytes ++ rest) = .ok (decodeW x, 4) := by
  have hb : (x.extractLsb' 0 8).getLsbD 0 = true := by simpa using h0
  have hc : (x.extractLsb' 0 8).getLsbD 1 = false := by simpa using h1
  simp only [Enc.bytes, wordBytes_four, decode, List.cons_append, List.nil_append, hb, hc, joinWord]
  simp

theorem decode_l (x : BitVec 64) (rest : List Byte) (h0 : x.getLsbD 0 = true) (h1 : x.getLsbD 1 = true) :
    decode ((Enc.l x).bytes ++ rest) = .ok (decodeL x, 8) := by
  have hb : (x.extractLsb' 0 8).getLsbD 0 = true := by simpa using h0
  have hc : (x.extractLsb' 0 8).getLsbD 1 = true := by simpa using h1
  simp only [Enc.bytes, wordBytes_eight, decode, List.cons_append, List.nil_append, hb, hc, joinDouble]
  simp

/-- A field at the foot of a word, and a field above it. -/
theorem extract_foot {n : Nat} (x : BitVec n) : x.extractLsb' 0 n = x := by
  simp

theorem extract_above {n m : Nat} (k s : Nat) (x : BitVec n) (y : BitVec m) :
    (x ++ y).extractLsb' (m + s) k = x.extractLsb' s k := by
  apply BitVec.eq_of_getLsbD_eq
  intro i hi
  simp [BitVec.getLsbD_append, hi, show ¬ m + s + i < m by omega, show m + s + i - m = s + i by omega]

theorem append_bit {n m : Nat} (x : BitVec n) (y : BitVec m) (i : Nat) (h : i < m) :
    (x ++ y).getLsbD i = y.getLsbD i := by
  simp [BitVec.getLsbD_append, h]

theorem extract_low {n m : Nat} (x : BitVec n) (y : BitVec m) : (x ++ y).extractLsb' 0 m = y := by
  apply BitVec.eq_of_getLsbD_eq
  intro i hi
  simp [BitVec.getLsbD_append, hi]

theorem encH_e (op : Nat) (f : HFields) : (encH op f).extractLsb' 1 1 = f.e :=
  (extract_above 1 0 _ _).trans <| extract_low _ _

theorem encH_op (op : Nat) (f : HFields) : (encH op f).extractLsb' 2 4 = BitVec.ofNat 4 op :=
  (extract_above 4 1 _ _).trans <| (extract_above 4 0 _ _).trans <| extract_low _ _

theorem encH_d (op : Nat) (f : HFields) : (encH op f).extractLsb' 6 5 = f.d :=
  (extract_above 5 5 _ _).trans <| (extract_above 5 4 _ _).trans <| (extract_above 5 0 _ _).trans <| extract_low _ _

theorem encH_b (op : Nat) (f : HFields) : (encH op f).extractLsb' 11 5 = f.b :=
  (extract_above 5 10 _ _).trans <| (extract_above 5 9 _ _).trans <| (extract_above 5 5 _ _).trans <|
  (extract_above 5 0 _ _).trans <| extract_foot _

theorem encWR_e (op : Nat) (f : WRFields) : (encWR op f).extractLsb' 2 1 = f.e :=
  (extract_above 1 0 _ _).trans <| extract_low _ _

theorem encWR_s (op : Nat) (f : WRFields) : (encWR op f).extractLsb' 3 2 = f.s :=
  (extract_above 2 1 _ _).trans <| (extract_above 2 0 _ _).trans <| extract_low _ _

theorem encWR_g (op : Nat) (f : WRFields) : (encWR op f).extractLsb' 5 3 = f.g :=
  (extract_above 3 3 _ _).trans <| (extract_above 3 2 _ _).trans <| (extract_above 3 0 _ _).trans <| extract_low _ _

theorem encWR_op (op : Nat) (f : WRFields) : (encWR op f).extractLsb' 8 6 = BitVec.ofNat 6 op :=
  (extract_above 6 6 _ _).trans <| (extract_above 6 5 _ _).trans <| (extract_above 6 3 _ _).trans <|
  (extract_above 6 0 _ _).trans <| extract_low _ _

theorem encWR_d (op : Nat) (f : WRFields) : (encWR op f).extractLsb' 14 6 = f.d :=
  (extract_above 6 12 _ _).trans <| (extract_above 6 11 _ _).trans <| (extract_above 6 9 _ _).trans <|
  (extract_above 6 6 _ _).trans <| (extract_above 6 0 _ _).trans <| extract_low _ _

theorem encWR_a (op : Nat) (f : WRFields) : (encWR op f).extractLsb' 20 6 = f.a :=
  (extract_above 6 18 _ _).trans <| (extract_above 6 17 _ _).trans <| (extract_above 6 15 _ _).trans <|
  (extract_above 6 12 _ _).trans <| (extract_above 6 6 _ _).trans <| (extract_above 6 0 _ _).trans <| extract_low _ _

theorem encWR_b (op : Nat) (f : WRFields) : (encWR op f).extractLsb' 26 6 = f.b :=
  (extract_above 6 24 _ _).trans <| (extract_above 6 23 _ _).trans <| (extract_above 6 21 _ _).trans <|
  (extract_above 6 18 _ _).trans <| (extract_above 6 12 _ _).trans <| (extract_above 6 6 _ _).trans <|
  (extract_above 6 0 _ _).trans <| extract_foot _

theorem encWI_e (op : Nat) (f : WIFields) : (encWI op f).extractLsb' 2 1 = f.e :=
  (extract_above 1 0 _ _).trans <| extract_low _ _

theorem encWI_d5 (op : Nat) (f : WIFields) : (encWI op f).extractLsb' 3 5 = f.d5 :=
  (extract_above 5 1 _ _).trans <| (extract_above 5 0 _ _).trans <| extract_low _ _

theorem encWI_op (op : Nat) (f : WIFields) : (encWI op f).extractLsb' 8 6 = BitVec.ofNat 6 op :=
  (extract_above 6 6 _ _).trans <| (extract_above 6 5 _ _).trans <| (extract_above 6 0 _ _).trans <| extract_low _ _

theorem encWI_imm (op : Nat) (f : WIFields) : (encWI op f).extractLsb' 14 18 = f.imm :=
  (extract_above 18 12 _ _).trans <| (extract_above 18 11 _ _).trans <| (extract_above 18 6 _ _).trans <|
  (extract_above 18 0 _ _).trans <| extract_foot _

theorem encL_e (op : Nat) (f : LFields) : (encL op f).extractLsb' 2 1 = f.e :=
  (extract_above 1 0 _ _).trans <| extract_low _ _

theorem encL_s4 (op : Nat) (f : LFields) : (encL op f).extractLsb' 3 4 = f.s4 :=
  (extract_above 4 1 _ _).trans <| (extract_above 4 0 _ _).trans <| extract_low _ _

theorem encL_u (op : Nat) (f : LFields) : (encL op f).extractLsb' 7 1 = f.u :=
  (extract_above 1 5 _ _).trans <| (extract_above 1 4 _ _).trans <| (extract_above 1 0 _ _).trans <| extract_low _ _

theorem encL_y (op : Nat) (f : LFields) : (encL op f).extractLsb' 8 1 = f.y :=
  (extract_above 1 6 _ _).trans <| (extract_above 1 5 _ _).trans <| (extract_above 1 1 _ _).trans <|
  (extract_above 1 0 _ _).trans <| extract_low _ _

theorem encL_g6 (op : Nat) (f : LFields) : (encL op f).extractLsb' 9 6 = f.g6 :=
  (extract_above 6 7 _ _).trans <| (extract_above 6 6 _ _).trans <| (extract_above 6 2 _ _).trans <|
  (extract_above 6 1 _ _).trans <| (extract_above 6 0 _ _).trans <| extract_low _ _

theorem encL_gn (op : Nat) (f : LFields) : (encL op f).extractLsb' 15 1 = f.gn :=
  (extract_above 1 13 _ _).trans <| (extract_above 1 12 _ _).trans <| (extract_above 1 8 _ _).trans <|
  (extract_above 1 7 _ _).trans <| (extract_above 1 6 _ _).trans <| (extract_above 1 0 _ _).trans <| extract_low _ _

theorem encL_op (op : Nat) (f : LFields) : (encL op f).extractLsb' 16 9 = BitVec.ofNat 9 op :=
  (extract_above 9 14 _ _).trans <| (extract_above 9 13 _ _).trans <| (extract_above 9 9 _ _).trans <|
  (extract_above 9 8 _ _).trans <| (extract_above 9 7 _ _).trans <| (extract_above 9 1 _ _).trans <|
  (extract_above 9 0 _ _).trans <| extract_low _ _

theorem encL_d (op : Nat) (f : LFields) : (encL op f).extractLsb' 25 8 = f.d :=
  (extract_above 8 23 _ _).trans <| (extract_above 8 22 _ _).trans <| (extract_above 8 18 _ _).trans <|
  (extract_above 8 17 _ _).trans <| (extract_above 8 16 _ _).trans <| (extract_above 8 10 _ _).trans <|
  (extract_above 8 9 _ _).trans <| (extract_above 8 0 _ _).trans <| extract_low _ _

theorem encL_a (op : Nat) (f : LFields) : (encL op f).extractLsb' 33 8 = f.a :=
  (extract_above 8 31 _ _).trans <| (extract_above 8 30 _ _).trans <| (extract_above 8 26 _ _).trans <|
  (extract_above 8 25 _ _).trans <| (extract_above 8 24 _ _).trans <| (extract_above 8 18 _ _).trans <|
  (extract_above 8 17 _ _).trans <| (extract_above 8 8 _ _).trans <| (extract_above 8 0 _ _).trans <| extract_low _ _

theorem encL_b (op : Nat) (f : LFields) : (encL op f).extractLsb' 41 8 = f.b :=
  (extract_above 8 39 _ _).trans <| (extract_above 8 38 _ _).trans <| (extract_above 8 34 _ _).trans <|
  (extract_above 8 33 _ _).trans <| (extract_above 8 32 _ _).trans <| (extract_above 8 26 _ _).trans <|
  (extract_above 8 25 _ _).trans <| (extract_above 8 16 _ _).trans <| (extract_above 8 8 _ _).trans <|
  (extract_above 8 0 _ _).trans <| extract_low _ _

theorem encL_c (op : Nat) (f : LFields) : (encL op f).extractLsb' 49 8 = f.c :=
  (extract_above 8 47 _ _).trans <| (extract_above 8 46 _ _).trans <| (extract_above 8 42 _ _).trans <|
  (extract_above 8 41 _ _).trans <| (extract_above 8 40 _ _).trans <| (extract_above 8 34 _ _).trans <|
  (extract_above 8 33 _ _).trans <| (extract_above 8 24 _ _).trans <| (extract_above 8 16 _ _).trans <|
  (extract_above 8 8 _ _).trans <| (extract_above 8 0 _ _).trans <| extract_low _ _

theorem encL_w (op : Nat) (f : LFields) : (encL op f).extractLsb' 57 2 = f.w :=
  (extract_above 2 55 _ _).trans <| (extract_above 2 54 _ _).trans <| (extract_above 2 50 _ _).trans <|
  (extract_above 2 49 _ _).trans <| (extract_above 2 48 _ _).trans <| (extract_above 2 42 _ _).trans <|
  (extract_above 2 41 _ _).trans <| (extract_above 2 32 _ _).trans <| (extract_above 2 24 _ _).trans <|
  (extract_above 2 16 _ _).trans <| (extract_above 2 8 _ _).trans <| (extract_above 2 0 _ _).trans <| extract_low _ _

theorem encL_h (op : Nat) (f : LFields) : (encL op f).extractLsb' 59 2 = f.h :=
  (extract_above 2 57 _ _).trans <| (extract_above 2 56 _ _).trans <| (extract_above 2 52 _ _).trans <|
  (extract_above 2 51 _ _).trans <| (extract_above 2 50 _ _).trans <| (extract_above 2 44 _ _).trans <|
  (extract_above 2 43 _ _).trans <| (extract_above 2 34 _ _).trans <| (extract_above 2 26 _ _).trans <|
  (extract_above 2 18 _ _).trans <| (extract_above 2 10 _ _).trans <| (extract_above 2 2 _ _).trans <|
  (extract_above 2 0 _ _).trans <| extract_low _ _

theorem encL_m3 (op : Nat) (f : LFields) : (encL op f).extractLsb' 61 3 = f.m3 :=
  (extract_above 3 59 _ _).trans <| (extract_above 3 58 _ _).trans <| (extract_above 3 54 _ _).trans <|
  (extract_above 3 53 _ _).trans <| (extract_above 3 52 _ _).trans <| (extract_above 3 46 _ _).trans <|
  (extract_above 3 45 _ _).trans <| (extract_above 3 36 _ _).trans <| (extract_above 3 28 _ _).trans <|
  (extract_above 3 20 _ _).trans <| (extract_above 3 12 _ _).trans <| (extract_above 3 4 _ _).trans <|
  (extract_above 3 2 _ _).trans <| (extract_above 3 0 _ _).trans <| extract_foot _

theorem hFields_encH (op : Nat) (f : HFields) : hFields (encH op f) = f := by
  simp only [hFields, encH_e, encH_d, encH_b]

theorem wrFields_encWR (op : Nat) (f : WRFields) : wrFields (encWR op f) = f := by
  simp only [wrFields, encWR_e, encWR_s, encWR_g, encWR_d, encWR_a, encWR_b]

theorem wiFields_encWI (op : Nat) (f : WIFields) : wiFields (encWI op f) = f := by
  simp only [wiFields, encWI_e, encWI_d5, encWI_imm]

theorem lFields_encL (op : Nat) (f : LFields) : lFields (encL op f) = f := by
  simp only [lFields, encL_e, encL_s4, encL_u, encL_y, encL_g6, encL_gn, encL_d, encL_a, encL_b, encL_c,
    encL_w, encL_h, encL_m3]

theorem opH (op : Nat) (f : HFields) (h : op < 16) : ((encH op f).extractLsb' 2 4).toNat = op := by
  rw [encH_op, BitVec.toNat_ofNat, Nat.mod_eq_of_lt h]

theorem opWR (op : Nat) (f : WRFields) (h : op < 64) : ((encWR op f).extractLsb' 8 6).toNat = op := by
  rw [encWR_op, BitVec.toNat_ofNat, Nat.mod_eq_of_lt h]

theorem opWI (op : Nat) (f : WIFields) (h : op < 64) : ((encWI op f).extractLsb' 8 6).toNat = op := by
  rw [encWI_op, BitVec.toNat_ofNat, Nat.mod_eq_of_lt h]

theorem opL (op : Nat) (f : LFields) (h : op < 512) : ((encL op f).extractLsb' 16 9).toNat = op := by
  rw [encL_op, BitVec.toNat_ofNat, Nat.mod_eq_of_lt h]

end Sys2Proof.Laws

namespace Sys2Proof.Laws.RoundTrip

/-- Decoding the bytes of a well-formed instruction gives the instruction and its length, whatever follows. -/
def Statement (i : Instr) : Prop :=
  ∀ e, wellFormed i = true → encodeWord i = some e → ∀ rest, decode (e.bytes ++ rest) = .ok (i, e.bytes.length)

theorem roundTrip_h (op : Nat) (k : HFields → Instr) (f : HFields) (h : op < 16)
    (hk : lookupOp hTable op = some k) (he : encodeWord (k f) = some (.h (encH op f))) : Statement (k f) := by
  intro e _ h2 rest
  obtain rfl : Enc.h (encH op f) = e := Option.some.inj (he.symm.trans h2)
  rw [decode_h (encH op f) rest ((append_bit _ 0#1 0 (by decide)).trans (by decide))]
  simp [decodeH, opH op f h, hk, hFields_encH, Enc.bytes, wordBytes]

theorem roundTrip_wr (op : Nat) (k : WRFields → Instr) (f : WRFields) (h : op < 64)
    (hk : lookupOp wrTable op = some k) (he : encodeWord (k f) = some (.w (encWR op f))) : Statement (k f) := by
  intro e _ h2 rest
  obtain rfl : Enc.w (encWR op f) = e := Option.some.inj (he.symm.trans h2)
  rw [decode_w (encWR op f) rest ((append_bit _ 1#2 0 (by decide)).trans (by decide))
    ((append_bit _ 1#2 1 (by decide)).trans (by decide))]
  simp [decodeW, opWR op f h, hk, wrFields_encWR, Enc.bytes, wordBytes]

theorem roundTrip_wi (op : Nat) (k : WIFields → Instr) (f : WIFields) (h : op < 64)
    (hr : (lookupOp wrTable op).isNone = true) (hk : lookupOp wiTable op = some k)
    (he : encodeWord (k f) = some (.w (encWI op f))) : Statement (k f) := by
  intro e _ h2 rest
  obtain rfl : Enc.w (encWI op f) = e := Option.some.inj (he.symm.trans h2)
  rw [decode_w (encWI op f) rest ((append_bit _ 1#2 0 (by decide)).trans (by decide))
    ((append_bit _ 1#2 1 (by decide)).trans (by decide))]
  simp [decodeW, opWI op f h, hk, Option.isNone_iff_eq_none.mp hr, wiFields_encWI, Enc.bytes, wordBytes]

/-- The instruction that op9 and the fields name. -/
theorem roundTrip_of (op : Nat) (i : Instr) (k : LFields → Instr) (f : LFields) (h : op < 512)
    (hk : lookupOp lTable op = some k) (hi : wellFormed i = true → byForm (k f) = i)
    (he : encodeWord i = some (.l (encL op f))) : Statement i := by
  intro e hw h2 rest
  obtain rfl : Enc.l (encL op f) = e := Option.some.inj (he.symm.trans h2)
  rw [decode_l (encL op f) rest ((append_bit _ 3#2 0 (by decide)).trans (by decide))
    ((append_bit _ 3#2 1 (by decide)).trans (by decide))]
  simp [decodeL, opL op f h, hk, lFields_encL, hi hw, Enc.bytes, wordBytes]

theorem roundTrip_l (op : Nat) (k : LFields → Instr) (f : LFields) (h : op < 512)
    (hk : lookupOp lTable op = some k) (hi : byForm (k f) = k f)
    (he : encodeWord (k f) = some (.l (encL op f))) : Statement (k f) :=
  roundTrip_of op (k f) k f h hk (fun _ => hi) he

theorem roundTrip_none {i : Instr} (h : encodeWord i = none) : Statement i := by
  intro e _ h2
  rw [h] at h2
  exact absurd h2 (by simp)

/-- The m3 that a row accepts, once every check of the row passes. -/
theorem m3_of_ok {sp : Machine.OpSpec} {f : LFields} (h : sp.ok f = true) : sp.m3.testBit f.m3.toNat = true := by
  simp only [Machine.OpSpec.ok, Bool.and_eq_true] at h
  exact h.1.1.1.1.1.1.2

/-- A form at m3 = 0, and a form at m3 = 1. -/
theorem m3_zero {sp : Machine.OpSpec} {f : LFields} (h : sp.ok f = true) (hm : sp.m3 = 1) : f.m3 ≠ 1 := by
  have := m3_of_ok h
  rw [hm] at this
  revert this
  generalize f.m3 = x
  revert x
  decide

theorem m3_one {sp : Machine.OpSpec} {f : LFields} (h : sp.ok f = true) (hm : sp.m3 = 2) : f.m3 = 1 := by
  have := m3_of_ok h
  rw [hm] at this
  revert this
  generalize f.m3 = x
  revert x
  decide

theorem iadd (f : LFields) : Statement (.iadd f) :=
  roundTrip_l 0x000 .iadd f (by decide) rfl rfl rfl
theorem isub (f : LFields) : Statement (.isub f) :=
  roundTrip_l 0x001 .isub f (by decide) rfl rfl rfl
theorem imul (f : LFields) : Statement (.imul f) :=
  roundTrip_l 0x002 .imul f (by decide) rfl rfl rfl
theorem imulh (f : LFields) : Statement (.imulh f) :=
  roundTrip_l 0x003 .imulh f (by decide) rfl rfl rfl
theorem imad (f : LFields) : Statement (.imad f) :=
  roundTrip_l 0x004 .imad f (by decide) rfl rfl rfl
theorem iand (f : LFields) : Statement (.iand f) :=
  roundTrip_l 0x005 .iand f (by decide) rfl rfl rfl
theorem ior (f : LFields) : Statement (.ior f) :=
  roundTrip_l 0x006 .ior f (by decide) rfl rfl rfl
theorem ixor (f : LFields) : Statement (.ixor f) :=
  roundTrip_l 0x007 .ixor f (by decide) rfl rfl rfl
theorem ishl (f : LFields) : Statement (.ishl f) :=
  roundTrip_l 0x008 .ishl f (by decide) rfl rfl rfl
theorem ishr (f : LFields) : Statement (.ishr f) :=
  roundTrip_l 0x009 .ishr f (by decide) rfl rfl rfl
theorem isra (f : LFields) : Statement (.isra f) :=
  roundTrip_l 0x00A .isra f (by decide) rfl rfl rfl
theorem imin (f : LFields) : Statement (.imin f) :=
  roundTrip_l 0x00B .imin f (by decide) rfl rfl rfl
theorem imax (f : LFields) : Statement (.imax f) :=
  roundTrip_l 0x00C .imax f (by decide) rfl rfl rfl
theorem iabs (f : LFields) : Statement (.iabs f) :=
  roundTrip_l 0x00D .iabs f (by decide) rfl rfl rfl
theorem icmp (f : LFields) : Statement (.icmp f) :=
  roundTrip_l 0x00E .icmp f (by decide) rfl rfl rfl
theorem isel (f : LFields) : Statement (.isel f) :=
  roundTrip_l 0x00F .isel f (by decide) rfl rfl rfl
theorem bfe (f : LFields) : Statement (.bfe f) :=
  roundTrip_l 0x010 .bfe f (by decide) rfl rfl rfl
theorem bfi (f : LFields) : Statement (.bfi f) :=
  roundTrip_l 0x011 .bfi f (by decide) rfl rfl rfl
theorem popc (f : LFields) : Statement (.popc f) :=
  roundTrip_l 0x012 .popc f (by decide) rfl rfl rfl
theorem clz (f : LFields) : Statement (.clz f) :=
  roundTrip_l 0x013 .clz f (by decide) rfl rfl rfl
theorem brev (f : LFields) : Statement (.brev f) :=
  roundTrip_l 0x014 .brev f (by decide) rfl rfl rfl
theorem bgath (f : LFields) : Statement (.bgath f) :=
  roundTrip_l 0x015 .bgath f (by decide) rfl rfl rfl
theorem lea (f : LFields) : Statement (.lea f) :=
  roundTrip_l 0x016 .lea f (by decide) rfl rfl rfl
theorem iaddc (f : LFields) : Statement (.iaddc f) :=
  roundTrip_l 0x017 .iaddc f (by decide) rfl rfl rfl
theorem mov (f : LFields) : Statement (.mov f) :=
  roundTrip_l 0x018 .mov f (by decide) rfl rfl rfl
theorem movi (f : LFields) : Statement (.movi f) :=
  roundTrip_l 0x019 .movi f (by decide) rfl rfl rfl
theorem movhi (f : LFields) : Statement (.movhi f) :=
  roundTrip_l 0x01A .movhi f (by decide) rfl rfl rfl
theorem idot4 (f : LFields) : Statement (.idot4 f) :=
  roundTrip_l 0x01B .idot4 f (by decide) rfl rfl rfl
theorem fadd (f : LFields) : Statement (.fadd f) :=
  roundTrip_l 0x040 .fadd f (by decide) rfl rfl rfl
theorem fsub (f : LFields) : Statement (.fsub f) :=
  roundTrip_l 0x041 .fsub f (by decide) rfl rfl rfl
theorem fmul (f : LFields) : Statement (.fmul f) :=
  roundTrip_l 0x042 .fmul f (by decide) rfl rfl rfl
theorem ffma (f : LFields) : Statement (.ffma f) :=
  roundTrip_l 0x043 .ffma f (by decide) rfl rfl rfl
theorem fmin (f : LFields) : Statement (.fmin f) :=
  roundTrip_l 0x044 .fmin f (by decide) rfl rfl rfl
theorem fmax (f : LFields) : Statement (.fmax f) :=
  roundTrip_l 0x045 .fmax f (by decide) rfl rfl rfl
theorem fcmp (f : LFields) : Statement (.fcmp f) :=
  roundTrip_l 0x046 .fcmp f (by decide) rfl rfl rfl
theorem fclass (f : LFields) : Statement (.fclass f) :=
  roundTrip_l 0x047 .fclass f (by decide) rfl rfl rfl
theorem frcp (f : LFields) : Statement (.frcp f) :=
  roundTrip_l 0x048 .frcp f (by decide) rfl rfl rfl
theorem frsq (f : LFields) : Statement (.frsq f) :=
  roundTrip_l 0x049 .frsq f (by decide) rfl rfl rfl
theorem fsqrt (f : LFields) : Statement (.fsqrt f) :=
  roundTrip_l 0x04A .fsqrt f (by decide) rfl rfl rfl
theorem fexp2 (f : LFields) : Statement (.fexp2 f) :=
  roundTrip_l 0x04B .fexp2 f (by decide) rfl rfl rfl
theorem flog2 (f : LFields) : Statement (.flog2 f) :=
  roundTrip_l 0x04C .flog2 f (by decide) rfl rfl rfl
theorem fsint (f : LFields) : Statement (.fsint f) :=
  roundTrip_l 0x04D .fsint f (by decide) rfl rfl rfl
theorem fcost (f : LFields) : Statement (.fcost f) :=
  roundTrip_l 0x04E .fcost f (by decide) rfl rfl rfl
theorem fcvt (f : LFields) : Statement (.fcvt f) :=
  roundTrip_l 0x04F .fcvt f (by decide) rfl rfl rfl
theorem frnd (f : LFields) : Statement (.frnd f) :=
  roundTrip_l 0x050 .frnd f (by decide) rfl rfl rfl
theorem ffrac (f : LFields) : Statement (.ffrac f) :=
  roundTrip_l 0x051 .ffrac f (by decide) rfl rfl rfl
theorem cadd (f : LFields) : Statement (.cadd f) :=
  roundTrip_l 0x080 .cadd f (by decide) rfl rfl rfl
theorem csub (f : LFields) : Statement (.csub f) :=
  roundTrip_l 0x081 .csub f (by decide) rfl rfl rfl
theorem cmul (f : LFields) : Statement (.cmul f) :=
  roundTrip_l 0x082 .cmul f (by decide) rfl rfl rfl
theorem cfma (f : LFields) : Statement (.cfma f) :=
  roundTrip_l 0x083 .cfma f (by decide) rfl rfl rfl
theorem cmag2 (f : LFields) : Statement (.cmag2 f) :=
  roundTrip_l 0x084 .cmag2 f (by decide) rfl rfl rfl
theorem cscale (f : LFields) : Statement (.cscale f) :=
  roundTrip_l 0x085 .cscale f (by decide) rfl rfl rfl
theorem cexpi (f : LFields) : Statement (.cexpi f) :=
  roundTrip_l 0x086 .cexpi f (by decide) rfl rfl rfl
theorem cphase (f : LFields) : Statement (.cphase f) :=
  roundTrip_l 0x087 .cphase f (by decide) rfl rfl rfl
theorem twid (f : LFields) : Statement (.twid f) :=
  roundTrip_l 0x088 .twid f (by decide) rfl rfl rfl
theorem bfly (f : LFields) : Statement (.bfly f) :=
  roundTrip_l 0x089 .bfly f (by decide) rfl rfl rfl
theorem ccvt (f : LFields) : Statement (.ccvt f) :=
  roundTrip_l 0x08A .ccvt f (by decide) rfl rfl rfl
theorem bpack (f : LFields) : Statement (.bpack f) :=
  roundTrip_l 0x08B .bpack f (by decide) rfl rfl rfl
theorem bunpk (f : LFields) : Statement (.bunpk f) :=
  roundTrip_l 0x08C .bunpk f (by decide) rfl rfl rfl
theorem bexpm (f : LFields) : Statement (.bexpm f) :=
  roundTrip_l 0x08D .bexpm f (by decide) rfl rfl rfl
theorem phq (f : LFields) : Statement (.phq f) :=
  roundTrip_l 0x08E .phq f (by decide) rfl rfl rfl
theorem edge (f : LFields) : Statement (.edge f) :=
  roundTrip_l 0x08F .edge f (by decide) rfl rfl rfl
theorem trix (f : LFields) : Statement (.trix f) :=
  roundTrip_l 0x090 .trix f (by decide) rfl rfl rfl
theorem shfl (f : LFields) : Statement (.shfl f) :=
  roundTrip_l 0x0B0 .shfl f (by decide) rfl rfl rfl
theorem shflx (f : LFields) : Statement (.shflx f) :=
  roundTrip_l 0x0B1 .shflx f (by decide) rfl rfl rfl
theorem shfld (f : LFields) : Statement (.shfld f) :=
  roundTrip_l 0x0B2 .shfld f (by decide) rfl rfl rfl
theorem shflu (f : LFields) : Statement (.shflu f) :=
  roundTrip_l 0x0B3 .shflu f (by decide) rfl rfl rfl
theorem scan (f : LFields) : Statement (.scan f) :=
  roundTrip_l 0x0B4 .scan f (by decide) rfl rfl rfl
theorem reds (f : LFields) : Statement (.reds f) :=
  roundTrip_l 0x0B5 .reds f (by decide) rfl rfl rfl
theorem vote (f : LFields) : Statement (.vote f) :=
  roundTrip_l 0x0B6 .vote f (by decide) rfl rfl rfl
theorem matchT (f : LFields) : Statement (.matchT f) :=
  roundTrip_l 0x0B7 .matchT f (by decide) rfl rfl rfl
theorem lace (f : LFields) : Statement (.lace f) :=
  roundTrip_l 0x0B8 .lace f (by decide) rfl rfl rfl
theorem laceld (f : LFields) : Statement (.laceld f) :=
  roundTrip_l 0x0B9 .laceld f (by decide) rfl rfl rfl
theorem bcast (f : LFields) : Statement (.bcast f) :=
  roundTrip_l 0x0BA .bcast f (by decide) rfl rfl rfl
theorem qand (f : LFields) : Statement (.qand f) :=
  roundTrip_l 0x0D0 .qand f (by decide) rfl rfl rfl
theorem qor (f : LFields) : Statement (.qor f) :=
  roundTrip_l 0x0D1 .qor f (by decide) rfl rfl rfl
theorem qxor (f : LFields) : Statement (.qxor f) :=
  roundTrip_l 0x0D2 .qxor f (by decide) rfl rfl rfl
theorem qtos (f : LFields) : Statement (.qtos f) :=
  roundTrip_l 0x0D3 .qtos f (by decide) rfl rfl rfl
theorem stoq (f : LFields) : Statement (.stoq f) :=
  roundTrip_l 0x0D4 .stoq f (by decide) rfl rfl rfl
theorem sadd (f : LFields) : Statement (.sadd f) :=
  roundTrip_l 0x0E0 .sadd f (by decide) rfl rfl rfl
theorem ssub (f : LFields) : Statement (.ssub f) :=
  roundTrip_l 0x0E1 .ssub f (by decide) rfl rfl rfl
theorem smul (f : LFields) : Statement (.smul f) :=
  roundTrip_l 0x0E2 .smul f (by decide) rfl rfl rfl
theorem smulh (f : LFields) : Statement (.smulh f) :=
  roundTrip_l 0x0E3 .smulh f (by decide) rfl rfl rfl
theorem sand (f : LFields) : Statement (.sand f) :=
  roundTrip_l 0x0E4 .sand f (by decide) rfl rfl rfl
theorem sor (f : LFields) : Statement (.sor f) :=
  roundTrip_l 0x0E5 .sor f (by decide) rfl rfl rfl
theorem sxor (f : LFields) : Statement (.sxor f) :=
  roundTrip_l 0x0E6 .sxor f (by decide) rfl rfl rfl
theorem sshl (f : LFields) : Statement (.sshl f) :=
  roundTrip_l 0x0E7 .sshl f (by decide) rfl rfl rfl
theorem sshr (f : LFields) : Statement (.sshr f) :=
  roundTrip_l 0x0E8 .sshr f (by decide) rfl rfl rfl
theorem ssra (f : LFields) : Statement (.ssra f) :=
  roundTrip_l 0x0E9 .ssra f (by decide) rfl rfl rfl
theorem smin (f : LFields) : Statement (.smin f) :=
  roundTrip_l 0x0EA .smin f (by decide) rfl rfl rfl
theorem smax (f : LFields) : Statement (.smax f) :=
  roundTrip_l 0x0EB .smax f (by decide) rfl rfl rfl
theorem smov (f : LFields) : Statement (.smov f) :=
  roundTrip_l 0x0EC .smov f (by decide) rfl rfl rfl
theorem smovi (f : LFields) : Statement (.smovi f) :=
  roundTrip_l 0x0ED .smovi f (by decide) rfl rfl rfl
theorem scmp (f : LFields) : Statement (.scmp f) :=
  roundTrip_l 0x0EE .scmp f (by decide) rfl rfl rfl
theorem ssel (f : LFields) : Statement (.ssel f) :=
  roundTrip_l 0x0EF .ssel f (by decide) rfl rfl rfl
theorem sbfe (f : LFields) : Statement (.sbfe f) :=
  roundTrip_l 0x0F0 .sbfe f (by decide) rfl rfl rfl
theorem spopc (f : LFields) : Statement (.spopc f) :=
  roundTrip_l 0x0F1 .spopc f (by decide) rfl rfl rfl
theorem sclz (f : LFields) : Statement (.sclz f) :=
  roundTrip_l 0x0F2 .sclz f (by decide) rfl rfl rfl
theorem sldk (f : LFields) : Statement (.sldk f) :=
  roundTrip_l 0x0F3 .sldk f (by decide) rfl rfl rfl
theorem setfmt (f : LFields) : Statement (.setfmt f) :=
  roundTrip_l 0x0F4 .setfmt f (by decide) rfl rfl rfl
theorem getfmt (f : LFields) : Statement (.getfmt f) :=
  roundTrip_l 0x0F5 .getfmt f (by decide) rfl rfl rfl
theorem xwin (f : LFields) : Statement (.xwin f) :=
  roundTrip_l 0x0F6 .xwin f (by decide) rfl rfl rfl
theorem xset (f : LFields) : Statement (.xset f) :=
  roundTrip_l 0x0F7 .xset f (by decide) rfl rfl rfl
theorem sfadd (f : LFields) : Statement (.sfadd f) :=
  roundTrip_l 0x0F8 .sfadd f (by decide) rfl rfl rfl
theorem sfmul (f : LFields) : Statement (.sfmul f) :=
  roundTrip_l 0x0F9 .sfmul f (by decide) rfl rfl rfl
theorem sffma (f : LFields) : Statement (.sffma f) :=
  roundTrip_l 0x0FA .sffma f (by decide) rfl rfl rfl
theorem sfcvt (f : LFields) : Statement (.sfcvt f) :=
  roundTrip_l 0x0FB .sfcvt f (by decide) rfl rfl rfl
theorem bra (f : LFields) : Statement (.bra f) :=
  roundTrip_l 0x110 .bra f (by decide) rfl rfl rfl
theorem brx (f : LFields) : Statement (.brx f) :=
  roundTrip_l 0x111 .brx f (by decide) rfl rfl rfl
theorem divT (f : LFields) : Statement (.divT f) :=
  roundTrip_l 0x112 .divT f (by decide) rfl rfl rfl
theorem rcv (f : LFields) : Statement (.rcv f) :=
  roundTrip_l 0x113 .rcv f (by decide) rfl rfl rfl
theorem call (f : LFields) : Statement (.call f) :=
  roundTrip_l 0x114 .call f (by decide) rfl rfl rfl
theorem ret (f : LFields) : Statement (.ret f) :=
  roundTrip_l 0x115 .ret f (by decide) rfl rfl rfl
theorem exit (f : LFields) : Statement (.exit f) :=
  roundTrip_l 0x116 .exit f (by decide) rfl rfl rfl
theorem nop (f : LFields) : Statement (.nop f) :=
  roundTrip_l 0x117 .nop f (by decide) rfl rfl rfl
theorem yield (f : LFields) : Statement (.yield f) :=
  roundTrip_l 0x118 .yield f (by decide) rfl rfl rfl
theorem loop (f : LFields) : Statement (.loop f) :=
  roundTrip_l 0x119 .loop f (by decide) rfl rfl rfl
theorem trap (f : LFields) : Statement (.trap f) :=
  roundTrip_l 0x11A .trap f (by decide) rfl rfl rfl
theorem bkpt (f : LFields) : Statement (.bkpt f) :=
  roundTrip_l 0x11B .bkpt f (by decide) rfl rfl rfl
theorem ld (f : LFields) : Statement (.ld f) :=
  roundTrip_l 0x130 .ld f (by decide) rfl rfl rfl
theorem st (f : LFields) : Statement (.st f) :=
  roundTrip_l 0x131 .st f (by decide) rfl rfl rfl
theorem lds (f : LFields) : Statement (.lds f) :=
  roundTrip_l 0x132 .lds f (by decide) rfl rfl rfl
theorem sts (f : LFields) : Statement (.sts f) :=
  roundTrip_l 0x133 .sts f (by decide) rfl rfl rfl
theorem ldt (f : LFields) : Statement (.ldt f) :=
  roundTrip_l 0x134 .ldt f (by decide) rfl rfl rfl
theorem stt (f : LFields) : Statement (.stt f) :=
  roundTrip_l 0x135 .stt f (by decide) rfl rfl rfl
theorem atom (f : LFields) : Statement (.atom f) :=
  roundTrip_l 0x136 .atom f (by decide) rfl rfl rfl
theorem atoms (f : LFields) : Statement (.atoms f) :=
  roundTrip_l 0x137 .atoms f (by decide) rfl rfl rfl
theorem sumx (f : LFields) : Statement (.sumx f) :=
  roundTrip_l 0x138 .sumx f (by decide) rfl rfl rfl
theorem sumrd (f : LFields) : Statement (.sumrd f) :=
  roundTrip_l 0x139 .sumrd f (by decide) rfl rfl rfl
theorem sumclr (f : LFields) : Statement (.sumclr f) :=
  roundTrip_l 0x13A .sumclr f (by decide) rfl rfl rfl
theorem pref (f : LFields) : Statement (.pref f) :=
  roundTrip_l 0x13B .pref f (by decide) rfl rfl rfl
theorem waitc (f : LFields) : Statement (.waitc f) :=
  roundTrip_l 0x13C .waitc f (by decide) rfl rfl rfl
theorem fence (f : LFields) : Statement (.fence f) :=
  roundTrip_l 0x13D .fence f (by decide) rfl rfl rfl
theorem shut (f : LFields) : Statement (.shut f) :=
  roundTrip_l 0x170 .shut f (by decide) rfl rfl rfl
theorem shutx (f : LFields) : Statement (.shutx f) :=
  roundTrip_l 0x171 .shutx f (by decide) rfl rfl rfl
theorem dtld (f : LFields) : Statement (.dtld f) :=
  roundTrip_l 0x172 .dtld f (by decide) rfl rfl rfl
theorem decode (f : LFields) : Statement (.decode f) :=
  roundTrip_l 0x173 .decode f (by decide) rfl rfl rfl
theorem fetchf (f : LFields) : Statement (.fetchf f) :=
  roundTrip_l 0x174 .fetchf f (by decide) rfl rfl rfl
theorem darn (f : LFields) : Statement (.darn f) :=
  roundTrip_l 0x175 .darn f (by decide) rfl rfl rfl
theorem dispq (f : LFields) : Statement (.dispq f) :=
  roundTrip_of 0x176 _ .dispq f (by decide) rfl (fun h => if_neg (m3_zero (f := f) h rfl)) rfl
theorem dispqQuery (f : LFields) : Statement (.dispqQuery f) :=
  roundTrip_of 0x176 _ .dispq f (by decide) rfl (fun h => if_pos (m3_one (f := f) h rfl)) rfl
theorem mclr (f : LFields) : Statement (.mclr f) :=
  roundTrip_l 0x190 .mclr f (by decide) rfl rfl rfl
theorem mloop (f : LFields) : Statement (.mloop f) :=
  roundTrip_l 0x191 .mloop f (by decide) rfl rfl rfl
theorem mrd (f : LFields) : Statement (.mrd f) :=
  roundTrip_l 0x192 .mrd f (by decide) rfl rfl rfl
theorem mbld (f : LFields) : Statement (.mbld f) :=
  roundTrip_l 0x193 .mbld f (by decide) rfl rfl rfl
theorem mtwid (f : LFields) : Statement (.mtwid f) :=
  roundTrip_l 0x194 .mtwid f (by decide) rfl rfl rfl
theorem seedld (f : LFields) : Statement (.seedld f) :=
  roundTrip_l 0x195 .seedld f (by decide) rfl rfl rfl
theorem seedscan (f : LFields) : Statement (.seedscan f) :=
  roundTrip_l 0x196 .seedscan f (by decide) rfl rfl rfl
theorem seeddrop (f : LFields) : Statement (.seeddrop f) :=
  roundTrip_l 0x197 .seeddrop f (by decide) rfl rfl rfl
theorem join (f : LFields) : Statement (.join f) :=
  roundTrip_l 0x1B0 .join f (by decide) rfl rfl rfl
theorem leave (f : LFields) : Statement (.leave f) :=
  roundTrip_l 0x1B1 .leave f (by decide) rfl rfl rfl
theorem bar (f : LFields) : Statement (.bar f) :=
  roundTrip_l 0x1B2 .bar f (by decide) rfl rfl rfl
theorem bara (f : LFields) : Statement (.bara f) :=
  roundTrip_l 0x1B3 .bara f (by decide) rfl rfl rfl
theorem barw (f : LFields) : Statement (.barw f) :=
  roundTrip_l 0x1B4 .barw f (by decide) rfl rfl rfl
theorem ringp (f : LFields) : Statement (.ringp f) :=
  roundTrip_of 0x1B5 _ .ringp f (by decide) rfl (fun h => if_neg (m3_zero (f := f) h rfl)) rfl
theorem ringpAfter (f : LFields) : Statement (.ringpAfter f) :=
  roundTrip_of 0x1B5 _ .ringp f (by decide) rfl (fun h => if_pos (m3_one (f := f) h rfl)) rfl
theorem ringw (f : LFields) : Statement (.ringw f) :=
  roundTrip_l 0x1B6 .ringw f (by decide) rfl rfl rfl
theorem ringf (f : LFields) : Statement (.ringf f) :=
  roundTrip_l 0x1B7 .ringf f (by decide) rfl rfl rfl
theorem launch (f : LFields) : Statement (.launch f) :=
  roundTrip_l 0x1B8 .launch f (by decide) rfl rfl rfl
theorem emit (f : LFields) : Statement (.emit f) :=
  roundTrip_l 0x1B9 .emit f (by decide) rfl rfl rfl
theorem take (f : LFields) : Statement (.take f) :=
  roundTrip_l 0x1BA .take f (by decide) rfl rfl rfl
theorem qclose (f : LFields) : Statement (.qclose f) :=
  roundTrip_l 0x1BB .qclose f (by decide) rfl rfl rfl
theorem grow (f : LFields) : Statement (.grow f) :=
  roundTrip_l 0x1BC .grow f (by decide) rfl rfl rfl
theorem shrink (f : LFields) : Statement (.shrink f) :=
  roundTrip_l 0x1BD .shrink f (by decide) rfl rfl rfl
theorem chsend (f : LFields) : Statement (.chsend f) :=
  roundTrip_l 0x1BE .chsend f (by decide) rfl rfl rfl
theorem chrecv (f : LFields) : Statement (.chrecv f) :=
  roundTrip_l 0x1BF .chrecv f (by decide) rfl rfl rfl
theorem redx (f : LFields) : Statement (.redx f) :=
  roundTrip_l 0x1C0 .redx f (by decide) rfl rfl rfl
theorem redw (f : LFields) : Statement (.redw f) :=
  roundTrip_l 0x1C1 .redw f (by decide) rfl rfl rfl
set_option maxRecDepth 2000

theorem rdsr (f : LFields) : Statement (.rdsr f) :=
  roundTrip_l 0x1D0 .rdsr f (by decide) rfl rfl rfl
theorem wrsr (f : LFields) : Statement (.wrsr f) :=
  roundTrip_l 0x1D1 .wrsr f (by decide) rfl rfl rfl
theorem tret (f : LFields) : Statement (.tret f) :=
  roundTrip_l 0x1D2 .tret f (by decide) rfl rfl rfl
theorem tmset (f : LFields) : Statement (.tmset f) :=
  roundTrip_l 0x1D3 .tmset f (by decide) rfl rfl rfl
theorem balloonGive (f : LFields) : Statement (.balloonGive f) :=
  roundTrip_of 0x1D4 _ .balloonGive f (by decide) rfl (fun h => if_neg (m3_zero (f := f) h rfl)) rfl
theorem balloonQuery (f : LFields) : Statement (.balloonQuery f) :=
  roundTrip_of 0x1D4 _ .balloonGive f (by decide) rfl (fun h => if_pos (m3_one (f := f) h rfl)) rfl
theorem dieset (f : LFields) : Statement (.dieset f) :=
  roundTrip_l 0x1D5 .dieset f (by decide) rfl rfl rfl
theorem memfsp (f : LFields) : Statement (.memfsp f) :=
  roundTrip_l 0x1D6 .memfsp f (by decide) rfl rfl rfl
theorem movH (f : HFields) : Statement (.movH f) :=
  roundTrip_h 0 .movH f (by decide) rfl rfl
theorem iaddH (f : HFields) : Statement (.iaddH f) :=
  roundTrip_h 1 .iaddH f (by decide) rfl rfl
theorem isubH (f : HFields) : Statement (.isubH f) :=
  roundTrip_h 2 .isubH f (by decide) rfl rfl
theorem iandH (f : HFields) : Statement (.iandH f) :=
  roundTrip_h 3 .iandH f (by decide) rfl rfl
theorem iorH (f : HFields) : Statement (.iorH f) :=
  roundTrip_h 4 .iorH f (by decide) rfl rfl
theorem ixorH (f : HFields) : Statement (.ixorH f) :=
  roundTrip_h 5 .ixorH f (by decide) rfl rfl
theorem ishlH (f : HFields) : Statement (.ishlH f) :=
  roundTrip_h 6 .ishlH f (by decide) rfl rfl
theorem ishrH (f : HFields) : Statement (.ishrH f) :=
  roundTrip_h 7 .ishrH f (by decide) rfl rfl
theorem faddH (f : HFields) : Statement (.faddH f) :=
  roundTrip_h 8 .faddH f (by decide) rfl rfl
theorem fsubH (f : HFields) : Statement (.fsubH f) :=
  roundTrip_h 9 .fsubH f (by decide) rfl rfl
theorem fmulH (f : HFields) : Statement (.fmulH f) :=
  roundTrip_h 10 .fmulH f (by decide) rfl rfl
theorem fmaxH (f : HFields) : Statement (.fmaxH f) :=
  roundTrip_h 11 .fmaxH f (by decide) rfl rfl
theorem fminH (f : HFields) : Statement (.fminH f) :=
  roundTrip_h 12 .fminH f (by decide) rfl rfl
theorem caddH (f : HFields) : Statement (.caddH f) :=
  roundTrip_h 13 .caddH f (by decide) rfl rfl
theorem cmulH (f : HFields) : Statement (.cmulH f) :=
  roundTrip_h 14 .cmulH f (by decide) rfl rfl
theorem imulH (f : HFields) : Statement (.imulH f) :=
  roundTrip_h 15 .imulH f (by decide) rfl rfl
theorem movW (f : WRFields) : Statement (.movW f) :=
  roundTrip_wr 1 .movW f (by decide) rfl rfl
theorem iaddW (f : WRFields) : Statement (.iaddW f) :=
  roundTrip_wr 2 .iaddW f (by decide) rfl rfl
theorem isubW (f : WRFields) : Statement (.isubW f) :=
  roundTrip_wr 3 .isubW f (by decide) rfl rfl
theorem imulW (f : WRFields) : Statement (.imulW f) :=
  roundTrip_wr 4 .imulW f (by decide) rfl rfl
theorem iandW (f : WRFields) : Statement (.iandW f) :=
  roundTrip_wr 5 .iandW f (by decide) rfl rfl
theorem iorW (f : WRFields) : Statement (.iorW f) :=
  roundTrip_wr 6 .iorW f (by decide) rfl rfl
theorem ixorW (f : WRFields) : Statement (.ixorW f) :=
  roundTrip_wr 7 .ixorW f (by decide) rfl rfl
theorem ishlW (f : WRFields) : Statement (.ishlW f) :=
  roundTrip_wr 8 .ishlW f (by decide) rfl rfl
theorem ishrW (f : WRFields) : Statement (.ishrW f) :=
  roundTrip_wr 9 .ishrW f (by decide) rfl rfl
theorem iminW (f : WRFields) : Statement (.iminW f) :=
  roundTrip_wr 10 .iminW f (by decide) rfl rfl
theorem imaxW (f : WRFields) : Statement (.imaxW f) :=
  roundTrip_wr 11 .imaxW f (by decide) rfl rfl
theorem icmpW (f : WRFields) : Statement (.icmpW f) :=
  roundTrip_wr 12 .icmpW f (by decide) rfl rfl
theorem faddW (f : WRFields) : Statement (.faddW f) :=
  roundTrip_wr 13 .faddW f (by decide) rfl rfl
theorem fsubW (f : WRFields) : Statement (.fsubW f) :=
  roundTrip_wr 14 .fsubW f (by decide) rfl rfl
theorem fmulW (f : WRFields) : Statement (.fmulW f) :=
  roundTrip_wr 15 .fmulW f (by decide) rfl rfl
theorem ffmaW (f : WRFields) : Statement (.ffmaW f) :=
  roundTrip_wr 16 .ffmaW f (by decide) rfl rfl
theorem fminW (f : WRFields) : Statement (.fminW f) :=
  roundTrip_wr 17 .fminW f (by decide) rfl rfl
theorem fmaxW (f : WRFields) : Statement (.fmaxW f) :=
  roundTrip_wr 18 .fmaxW f (by decide) rfl rfl
theorem fcmpW (f : WRFields) : Statement (.fcmpW f) :=
  roundTrip_wr 19 .fcmpW f (by decide) rfl rfl
theorem caddW (f : WRFields) : Statement (.caddW f) :=
  roundTrip_wr 20 .caddW f (by decide) rfl rfl
theorem csubW (f : WRFields) : Statement (.csubW f) :=
  roundTrip_wr 21 .csubW f (by decide) rfl rfl
theorem cmulW (f : WRFields) : Statement (.cmulW f) :=
  roundTrip_wr 22 .cmulW f (by decide) rfl rfl
theorem cfmaW (f : WRFields) : Statement (.cfmaW f) :=
  roundTrip_wr 23 .cfmaW f (by decide) rfl rfl
theorem bflyW (f : WRFields) : Statement (.bflyW f) :=
  roundTrip_wr 24 .bflyW f (by decide) rfl rfl
theorem twidW (f : WRFields) : Statement (.twidW f) :=
  roundTrip_wr 25 .twidW f (by decide) rfl rfl
theorem shflW (f : WRFields) : Statement (.shflW f) :=
  roundTrip_wr 26 .shflW f (by decide) rfl rfl
theorem shflxW (f : WRFields) : Statement (.shflxW f) :=
  roundTrip_wr 27 .shflxW f (by decide) rfl rfl
theorem ldsW (f : WRFields) : Statement (.ldsW f) :=
  roundTrip_wr 28 .ldsW f (by decide) rfl rfl
theorem stsW (f : WRFields) : Statement (.stsW f) :=
  roundTrip_wr 29 .stsW f (by decide) rfl rfl
theorem ldW (f : WRFields) : Statement (.ldW f) :=
  roundTrip_wr 30 .ldW f (by decide) rfl rfl
theorem stW (f : WRFields) : Statement (.stW f) :=
  roundTrip_wr 31 .stW f (by decide) rfl rfl
theorem saddW (f : WRFields) : Statement (.saddW f) :=
  roundTrip_wr 32 .saddW f (by decide) rfl rfl
theorem ssubW (f : WRFields) : Statement (.ssubW f) :=
  roundTrip_wr 33 .ssubW f (by decide) rfl rfl
theorem smovW (f : WRFields) : Statement (.smovW f) :=
  roundTrip_wr 34 .smovW f (by decide) rfl rfl
theorem scmpW (f : WRFields) : Statement (.scmpW f) :=
  roundTrip_wr 35 .scmpW f (by decide) rfl rfl
theorem sandW (f : WRFields) : Statement (.sandW f) :=
  roundTrip_wr 36 .sandW f (by decide) rfl rfl
theorem sorW (f : WRFields) : Statement (.sorW f) :=
  roundTrip_wr 37 .sorW f (by decide) rfl rfl
theorem sshlW (f : WRFields) : Statement (.sshlW f) :=
  roundTrip_wr 38 .sshlW f (by decide) rfl rfl
theorem sshrW (f : WRFields) : Statement (.sshrW f) :=
  roundTrip_wr 39 .sshrW f (by decide) rfl rfl
theorem moviW (f : WIFields) : Statement (.moviW f) :=
  roundTrip_wi 40 .moviW f (by decide) rfl rfl rfl
theorem smoviW (f : WIFields) : Statement (.smoviW f) :=
  roundTrip_wi 41 .smoviW f (by decide) rfl rfl rfl
theorem iaddi (f : WIFields) : Statement (.iaddi f) :=
  roundTrip_wi 42 .iaddi f (by decide) rfl rfl rfl
theorem saddi (f : WIFields) : Statement (.saddi f) :=
  roundTrip_wi 43 .saddi f (by decide) rfl rfl rfl
theorem movhiW (f : WIFields) : Statement (.movhiW f) :=
  roundTrip_wi 44 .movhiW f (by decide) rfl rfl rfl
theorem smovhi (f : WIFields) : Statement (.smovhi f) :=
  roundTrip_wi 45 .smovhi f (by decide) rfl rfl rfl
theorem braW (f : WIFields) : Statement (.braW f) :=
  roundTrip_wi 48 .braW f (by decide) rfl rfl rfl
theorem loopW (f : WIFields) : Statement (.loopW f) :=
  roundTrip_wi 49 .loopW f (by decide) rfl rfl rfl
theorem callW (f : WIFields) : Statement (.callW f) :=
  roundTrip_wi 50 .callW f (by decide) rfl rfl rfl
theorem waitcW (f : WIFields) : Statement (.waitcW f) :=
  roundTrip_wi 51 .waitcW f (by decide) rfl rfl rfl
theorem exitW (f : WIFields) : Statement (.exitW f) :=
  roundTrip_wi 53 .exitW f (by decide) rfl rfl rfl
theorem rcvW (f : WIFields) : Statement (.rcvW f) :=
  roundTrip_wi 54 .rcvW f (by decide) rfl rfl rfl
theorem divW (f : WIFields) : Statement (.divW f) :=
  roundTrip_wi 55 .divW f (by decide) rfl rfl rfl
theorem halt : Statement .halt := by
  intro e _ h2 rest
  obtain rfl : Enc.l 0x0000000001D70003 = e := Option.some.inj h2
  rw [decode_l _ _ (by decide) (by decide)]
  rfl
theorem yieldW : Statement .yieldW := by
  intro e _ h2 rest
  obtain rfl : Enc.w (encWI 52 { imm := 0, d5 := 0, e := 0 }) = e := Option.some.inj h2
  rw [decode_w _ _ (by decide) (by decide)]
  rfl
theorem spinDemotionTimeout (strand : Nat) : Statement (.spinDemotionTimeout strand) := roundTrip_none rfl
theorem runStart (die core lane : Nat) : Statement (.runStart die core lane) := roundTrip_none rfl
theorem timerExpiry (strand : Nat) : Statement (.timerExpiry strand) := roundTrip_none rfl
theorem asyncTrapTake (strand : Nat) : Statement (.asyncTrapTake strand) := roundTrip_none rfl
theorem requestAnswer (strand : Nat) : Statement (.requestAnswer strand) := roundTrip_none rfl
theorem itemDispatch (ctx kid : Nat) (places : List Loc) : Statement (.itemDispatch ctx kid places) :=
  roundTrip_none rfl
theorem itemComplete (ctx kid item : Nat) : Statement (.itemComplete ctx kid item) := roundTrip_none rfl
theorem preemption (die core forCtx : Nat) : Statement (.preemption die core forCtx) := roundTrip_none rfl
theorem strandSave (strand : Nat) : Statement (.strandSave strand) := roundTrip_none rfl
theorem strandRestore (strand : Nat) (place : Restoring) : Statement (.strandRestore strand place) :=
  roundTrip_none rfl
theorem createCtx (ctx : Nat) : Statement (.createCtx ctx) := roundTrip_none rfl
theorem startCtx (ctx : Nat) : Statement (.startCtx ctx) := roundTrip_none rfl
theorem suspendCtx (ctx : Nat) : Statement (.suspendCtx ctx) := roundTrip_none rfl
theorem resumeCtx (ctx : Nat) : Statement (.resumeCtx ctx) := roundTrip_none rfl
theorem retireCtx (ctx : Nat) : Statement (.retireCtx ctx) := roundTrip_none rfl
theorem ackCtx (ctx : Nat) : Statement (.ackCtx ctx) := roundTrip_none rfl
theorem ctxRetired (ctx : Nat) : Statement (.ctxRetired ctx) := roundTrip_none rfl
theorem ctxCfgWrite (ctx : Nat) (value : BitVec 32) : Statement (.ctxCfgWrite ctx value) := roundTrip_none rfl
theorem embWrite (die core : Nat) (value : BitVec 64) : Statement (.embWrite die core value) := roundTrip_none rfl
theorem registerWrite (addr size : Nat) (value : BitVec 64) : Statement (.registerWrite addr size value) :=
  roundTrip_none rfl
theorem launchslotWrite (ctx appCore word : Nat) (value : BitVec 64) : Statement (.launchslotWrite ctx appCore word value) :=
  roundTrip_none rfl
theorem sweepRange (ctx : Nat) (value : BitVec 64) : Statement (.sweepRange ctx value) := roundTrip_none rfl
theorem sweepAll (ctx : Nat) (value : BitVec 64) : Statement (.sweepAll ctx value) := roundTrip_none rfl
theorem sweepComplete (ctx : Nat) : Statement (.sweepComplete ctx) := roundTrip_none rfl
theorem rollback (strand : Nat) : Statement (.rollback strand) := roundTrip_none rfl
theorem batchWrite (ctx : Nat) : Statement (.batchWrite ctx) := roundTrip_none rfl
theorem batchResolve (ctx : Nat) (seq : BitVec 32) : Statement (.batchResolve ctx seq) := roundTrip_none rfl
theorem loadDataReturn (strand op thread : Nat) (victims : List Nat) : Statement (.loadDataReturn strand op thread victims) :=
  roundTrip_none rfl
theorem storePerformed (strand op : Nat) (victims : List Nat) : Statement (.storePerformed strand op victims) :=
  roundTrip_none rfl
theorem atomicPerformed (strand : Nat) (op : Applying) : Statement (.atomicPerformed strand op) :=
  roundTrip_none rfl
theorem exactSumPerformed (strand : Nat) (op : Applying) : Statement (.exactSumPerformed strand op) :=
  roundTrip_none rfl
theorem shuttleComplete (strand : Nat) (op : Working) : Statement (.shuttleComplete strand op) := roundTrip_none rfl
theorem dtldComplete (strand op : Nat) : Statement (.dtldComplete strand op) := roundTrip_none rfl
theorem decodeComplete (strand : Nat) (op : Working) : Statement (.decodeComplete strand op) := roundTrip_none rfl
theorem fetchfComplete (strand op : Nat) : Statement (.fetchfComplete strand op) := roundTrip_none rfl
theorem promotionRequest (strand die core : Nat) : Statement (.promotionRequest strand die core) := roundTrip_none rfl
theorem seqOpStart (die core : Nat) : Statement (.seqOpStart die core) := roundTrip_none rfl
theorem mloopStep (die core : Nat) : Statement (.mloopStep die core) := roundTrip_none rfl
theorem matrixOpComplete (die core : Nat) : Statement (.matrixOpComplete die core) := roundTrip_none rfl
theorem seedldRemoteLoad (strand op die core : Nat) : Statement (.seedldRemoteLoad strand op die core) :=
  roundTrip_none rfl
theorem lineWriteback (line : Nat) : Statement (.lineWriteback line) := roundTrip_none rfl
theorem tensionReclaim (die : Nat) (frame : Nat) : Statement (.tensionReclaim die frame) := roundTrip_none rfl
theorem parkLimitExpiry (die : Nat) : Statement (.parkLimitExpiry die) := roundTrip_none rfl
theorem arm (die region : Nat) : Statement (.arm die region) := roundTrip_none rfl
theorem disarm (die region : Nat) : Statement (.disarm die region) := roundTrip_none rfl
theorem regionExpire (die region : Nat) : Statement (.regionExpire die region) := roundTrip_none rfl
theorem budgetChange (die : Nat) (celsius : Int) : Statement (.budgetChange die celsius) := roundTrip_none rfl
theorem memspWrite (die : Nat) (value : BitVec 32) : Statement (.memspWrite die value) := roundTrip_none rfl
theorem memfspSwitch : Statement .memfspSwitch := roundTrip_none rfl
theorem dsctlWrite (value : BitVec 32) : Statement (.dsctlWrite value) := roundTrip_none rfl
theorem diesetChange : Statement .diesetChange := roundTrip_none rfl
theorem diesetCommit : Statement .diesetCommit := roundTrip_none rfl
theorem openQ (queue : Nat) : Statement (.openQ queue) := roundTrip_none rfl
theorem closeQ (queue : Nat) : Statement (.closeQ queue) := roundTrip_none rfl
theorem releaseQ (queue : Nat) : Statement (.releaseQ queue) := roundTrip_none rfl
theorem queueAppendWrite (queue appCore word : Nat) (value : BitVec 64) : Statement (.queueAppendWrite queue appCore word value) :=
  roundTrip_none rfl
theorem queueRecordArrive (queue src die : Nat) : Statement (.queueRecordArrive queue src die) := roundTrip_none rfl
theorem channelSlotDeliver (ctx kid channel : Nat) : Statement (.channelSlotDeliver ctx kid channel) :=
  roundTrip_none rfl
theorem redxContributionArrive (ctx kid object : Nat) : Statement (.redxContributionArrive ctx kid object) :=
  roundTrip_none rfl
theorem multicastForward (message router : Nat) : Statement (.multicastForward message router) := roundTrip_none rfl
theorem retrain (die port : Nat) : Statement (.retrain die port) := roundTrip_none rfl
theorem linkFault (link : Nat) : Statement (.linkFault link) := roundTrip_none rfl
theorem flitReplay (die port flits : Nat) : Statement (.flitReplay die port flits) := roundTrip_none rfl
theorem linkTrainingEnd (link : Nat) (trained : Bool) : Statement (.linkTrainingEnd link trained) :=
  roundTrip_none rfl
theorem heartbeatSend (die tile : Nat) (fatal : Bool) : Statement (.heartbeatSend die tile fatal) :=
  roundTrip_none rfl
theorem heartbeatReceive (die tile side : Nat) : Statement (.heartbeatReceive die tile side) := roundTrip_none rfl
theorem heartbeatMiss (die tile side : Nat) : Statement (.heartbeatMiss die tile side) := roundTrip_none rfl
theorem babbleDetect (die tile : Nat) (side : Flit) : Statement (.babbleDetect die tile side) :=
  roundTrip_none rfl
theorem tileFence (die tile : Nat) (transit : List Nat) : Statement (.tileFence die tile transit) :=
  roundTrip_none rfl
theorem fenceBroadcastReceive (die tile : Nat) (receiver : Discard) : Statement (.fenceBroadcastReceive die tile receiver) :=
  roundTrip_none rfl
theorem tagQuery (message : Nat) : Statement (.tagQuery message) := roundTrip_none rfl
theorem tagAnswer (message : Nat) : Statement (.tagAnswer message) := roundTrip_none rfl
theorem selfTestStart (die tile : Nat) : Statement (.selfTestStart die tile) := roundTrip_none rfl
theorem selfTestDone (die tile : Nat) (passed : Bool) : Statement (.selfTestDone die tile passed) :=
  roundTrip_none rfl
theorem probationEnd (die tile : Nat) : Statement (.probationEnd die tile) := roundTrip_none rfl
theorem darnJobStart (die : Nat) : Statement (.darnJobStart die) := roundTrip_none rfl
theorem darnJobComplete (die : Nat) : Statement (.darnJobComplete die) := roundTrip_none rfl
theorem enable (die : Nat) : Statement (.enable die) := roundTrip_none rfl
theorem disable (die : Nat) : Statement (.disable die) := roundTrip_none rfl
theorem vblankStart (die : Nat) : Statement (.vblankStart die) := roundTrip_none rfl
theorem scanoutLine (die : Nat) : Statement (.scanoutLine die) := roundTrip_none rfl
theorem pcieWrite (addr : Nat) (bytes : List Byte) : Statement (.pcieWrite addr bytes) := roundTrip_none rfl
theorem resetBoot (input : BootInput) : Statement (.resetBoot input) := roundTrip_none rfl
theorem aperiModelLoad (image : List Byte) (target : Nat) : Statement (.aperiModelLoad image target) :=
  roundTrip_none rfl
theorem quote : Statement .quote := roundTrip_none rfl
theorem quoteComplete : Statement .quoteComplete := roundTrip_none rfl
theorem clkreqWrite (die : Nat) (value : BitVec 32) : Statement (.clkreqWrite die value) := roundTrip_none rfl
theorem thermalSample (die : Nat) (sensors : List Int) : Statement (.thermalSample die sensors) := roundTrip_none rfl
theorem thermalAction (die : Nat) : Statement (.thermalAction die) := roundTrip_none rfl
theorem thermalTripRelease (die : Nat) : Statement (.thermalTripRelease die) := roundTrip_none rfl
theorem powerLimitStep (milliwatts : Nat) : Statement (.powerLimitStep milliwatts) := roundTrip_none rfl
theorem sramError (place : ErrorPlace) : Statement (.sramError place) := roundTrip_none rfl
theorem tapResume (strand : Nat) : Statement (.tapResume strand) := roundTrip_none rfl
theorem debugAccess (access : TapAccess) : Statement (.debugAccess access) := roundTrip_none rfl
theorem encodingNotAnInstruction : Statement .encodingNotAnInstruction := roundTrip_none rfl
theorem applicationCoreStore (addr : AppAddr) (bytes : List Byte) : Statement (.applicationCoreStore addr bytes) :=
  roundTrip_none rfl
theorem slmAttach (die : Nat) (attached : Bool) : Statement (.slmAttach die attached) := roundTrip_none rfl
theorem writeBackAcknowledged (strand : Nat) : Statement (.writeBackAcknowledged strand) := roundTrip_none rfl

end Sys2Proof.Laws.RoundTrip
end

