-- ==== Sys2Proof/Laws/Scratch.lean ====
section
/-! SUPPORT. The passes of scratchpad instructions, and what reads do to the caches. -/

namespace Sys2Proof.Machine

theorem allFit_append (r : PadRow) (st : Strand) (p q : List (Nat × Nat × List Nat)) (x : State × Strand) :
    r.AllFit st (p ++ q) x ↔ r.AllFit st p x ∧ r.AllFit st q (r.after st p x) := by
  induction p generalizing x with
  | nil => simp [PadRow.AllFit, PadRow.after]
  | cons a p ih =>
    simp only [List.cons_append, PadRow.AllFit, ih, and_assoc]
    rfl

theorem after_append (r : PadRow) (st : Strand) (p q : List (Nat × Nat × List Nat)) (x : State × Strand) :
    r.after st (p ++ q) x = r.after st q (r.after st p x) := List.foldl_append ..

/-- A step of the machine is the row's step where its access is accepted. -/
def StepIs (r : PadRow) (st0 : Strand) (g : ScrStep) : Prop :=
  ∀ e t ts x, r.fits e t ts x → g e t ts x.1 x.2 = .ok (r.step st0 e t ts x)

theorem scrThreads_fit {r : PadRow} {st0 : Strand} {g : ScrStep} (hg : StepIs r st0 g) (e : Nat) (m : Mask) (ts : List Nat)
    (x : State × Strand) (h : r.AllFit st0 (ts.map fun t => (e, t, [t])) x) :
    scrThreads g e m ts x.1 x.2 = .ok (r.after st0 (ts.map fun t => (e, t, [t])) x) := by
  induction ts generalizing x with
  | nil => rfl
  | cons t ts ih =>
    obtain ⟨h1, h2⟩ := h
    unfold scrThreads
    rw [hg e t [t] x h1]
    exact ih _ h2

theorem scrElems_fit {r : PadRow} {st0 : Strand} {g : ScrStep} (hg : StepIs r st0 g) (m : Mask) (rs : Option Resume) (es : List Nat)
    (x : State × Strand) (h : r.AllFit st0 (es.flatMap fun e =>
      ((List.range 16).filter fun t => mHas (elemMask rs m e) t).map fun t => (e, t, [t])) x) :
    scrElems g m rs es x.1 x.2 = .ok (r.after st0 (es.flatMap fun e =>
      ((List.range 16).filter fun t => mHas (elemMask rs m e) t).map fun t => (e, t, [t])) x) := by
  induction es generalizing x with
  | nil => rfl
  | cons e es ih =>
    rw [List.flatMap_cons, allFit_append] at h
    rw [List.flatMap_cons, after_append]
    unfold scrElems
    simp only
    have := scrThreads_fit hg e (elemMask rs m e) _ x h.1
    unfold threads
    rw [this]
    exact ih _ h.2

theorem scrPass_fit {r : PadRow} {st : Strand} {g : ScrStep} (hg : StepIs r st g) (n : Nat) (m : Mask) (s : State)
    (h : r.AllFit st (r.steps st m n) (s, st)) :
    scrPass g r.f n m s st = .ok (r.after st (r.steps st m n) (s, st)) := by
  unfold scrPass
  unfold PadRow.steps at *
  by_cases hu : r.f.u = 1
  · rw [if_pos hu] at h ⊢
    rw [if_pos (by simp [hu])]
    have := hg 0 (mLow m) (threads m) (s, st) h.1
    rw [this]
    rfl
  · rw [if_neg hu] at h ⊢
    rw [if_neg (by simpa using hu)]
    exact scrElems_fit hg m st.resume _ (s, st) h

/-! Offsets and destinations. -/

theorem offset_mod (a : Word) (i : Int) (n k : Nat) :
    (((a.toNat : Int) + i * n + k) % (2 ^ 32 : Nat)).toNat = (a + BitVec.ofInt 32 i * BitVec.ofNat 32 n + BitVec.ofNat 32 k).toNat := by
  have h : a + BitVec.ofInt 32 i * BitVec.ofNat 32 n + BitVec.ofNat 32 k = BitVec.ofInt 32 ((a.toNat : Int) + i * n + k) := by
    rw [BitVec.ofInt_add, BitVec.ofInt_add, BitVec.ofInt_mul]
    simp
  rw [h, BitVec.toNat_ofInt]

theorem index32_ref (st : Strand) (f : LFields) (t : Nat) :
    BitVec.ofInt 32 (st.memIndex f t) = (st.indexRef f t).truncate 32 := by
  rw [← index_ref]
  apply BitVec.eq_of_toNat_eq
  simp only [BitVec.truncate_eq_setWidth, BitVec.toNat_setWidth, BitVec.toNat_ofInt]
  omega

theorem scrOffset_ref (s : State) (st : Strand) (f : LFields) (n e t : Nat)
    (h : s.padFits st n (st.padOffset f n e t)) : s.scrOffset st f n (st.memIndex f t) e t = .ok (st.padOffset f n e t).toNat := by
  have ho : (((((if f.a.toNat < 0x80 then (st.vget f.a.toNat t).toNat else (st.sget (f.a.toNat - 0x80)).toNat : Nat) : Int)) +
      st.memIndex f t * n + (e : Int) * n) % (2 ^ 32 : Nat)).toNat = (st.padOffset f n e t).toNat := by
    unfold Strand.padOffset
    rw [← index32_ref, ← offset_mod]
    split <;> simp
  unfold State.scrOffset
  simp only
  rw [ho, if_neg (by have := h.1; omega), if_neg (by have := h.2; omega)]

theorem atomOffset_ref (s : State) (st : Strand) (f : LFields) (n t : Nat)
    (h : s.padFits st n (st.atomOffset f t)) : s.scrOffset st f n 0 0 t = .ok (st.atomOffset f t).toNat := by
  have ho : (((((if f.a.toNat < 0x80 then (st.vget f.a.toNat t).toNat else (st.sget (f.a.toNat - 0x80)).toNat : Nat) : Int)) +
      0 * n + ((0 : Nat) : Int) * n) % (2 ^ 32 : Nat)).toNat = (st.atomOffset f t).toNat := by
    unfold Strand.atomOffset
    split
    · have := (st.vget f.a.toNat t).isLt; omega
    · have := (st.sget (f.a.toNat - 128)).isLt; omega
  unfold State.scrOffset
  simp only
  rw [ho, if_neg (by have := h.1; omega), if_neg (by have := h.2; omega)]

theorem padReg_dest (st : Strand) (sp : OpSpec) (f : LFields) (e t n : Nat) (h : st.padReg sp f e t = some n) :
    (do
      let n ← st.destOf sp.d f.d.toNat t
      Except.ok (t, if f.d.toNat < 0x80 && sp.d.n == 1 then n + blockOff f e else n)) = (.ok (t, n) : Except MStop (Nat × Nat)) := by
  unfold Strand.padReg at h
  cases hr : st.regRef sp f t with
  | none => rw [hr] at h; cases h
  | some k =>
    rw [hr] at h
    rw [destOf_ref st sp f t k hr]
    have hn := Option.some.inj h
    simp only at hn
    by_cases hc : f.d.toNat < 128 ∧ sp.d.n = 1
    · rw [if_pos hc] at hn
      rw [← hn]
      simp [hc.1, hc.2, bind, Except.bind]
    · rw [if_neg hc] at hn
      rw [← hn]
      have : (f.d.toNat < 0x80 && sp.d.n == 1) = false := by
        simp only [Bool.and_eq_false_iff, decide_eq_false_iff_not, beq_eq_false_iff_ne]
        by_cases h1 : f.d.toNat < 128
        · exact .inr fun h2 => hc ⟨h1, h2⟩
        · exact .inl h1
      simp [this, bind, Except.bind]

theorem dests_ref (st : Strand) (sp : OpSpec) (f : LFields) (e : Nat) (ts : List Nat) (h : st.padRegs sp f e ts) :
    st.dests sp.d f e ts = .ok (ts.map fun t => (t, (st.padReg sp f e t).getD 0)) := by
  unfold Strand.dests
  refine mapM_ok _ _ _ fun t ht => ?_
  obtain ⟨n, hn⟩ := Option.isSome_iff_exists.mp (h t ht)
  rw [hn]
  exact padReg_dest st sp f e t n hn

theorem lds_step (f : LFields) (len : Nat) (h7 : f.m3 ≠ 7) (st : Strand) : StepIs (ldsRow f len) st (ldsStep (rowOf (.lds f)) f) := by
  intro e t ts x h
  obtain ⟨h1, h2⟩ := h
  unfold ldsStep
  simp only [dests_ref _ _ _ _ _ h1, size_ref f h7, scrOffset_ref _ _ _ _ _ _ h2, bind, Except.bind]
  rfl

theorem sts_step (f : LFields) (len : Nat) (h7 : f.m3 ≠ 7) (st : Strand) : StepIs (stsRow f len) st (stsStep (rowOf (.sts f)) f) := by
  intro e t ts x h
  obtain ⟨h1, h2⟩ := h
  unfold stsStep
  simp only [dests_ref _ _ _ _ _ h1, size_ref f h7, regs_ref f h7, scrOffset_ref _ _ _ _ _ _ h2, bind, Except.bind]
  rfl

theorem atoms_step (f : LFields) (st : Strand) : StepIs (atomsRow f) st (atomsStep (rowOf (.atoms f)) f) := by
  intro e t ts x h
  obtain ⟨h1, h2⟩ := h
  have hts : x.2.padRegs (rowOf (.atoms f)) f e ts := fun t ht => h1 t (List.mem_cons_of_mem _ ht)
  have hown := h1 t (by simp)
  have hreg : (x.2.regRef (rowOf (.atoms f)) f t).isSome = true := by
    unfold Strand.padReg at hown
    simpa using hown
  unfold atomsStep
  simp only [dests_ref _ _ _ _ _ hts, atom_size, hw_ref, regRef_some hreg, atomOffset_ref _ _ _ _ _ h2, bind, Except.bind]
  rfl

theorem runCount_vputs (st : Strand) (n t : Nat) (ws : List Word) : (st.vputs n t ws).runCount = st.runCount := by
  rw [vputs_rest]

theorem runCount_foldl {α : Type} (l : List α) (g : Strand → α → Strand) (hg : ∀ u x, (g u x).runCount = u.runCount) (st : Strand) :
    (l.foldl g st).runCount = st.runCount := by
  induction l generalizing st with
  | nil => rfl
  | cons a l ih => rw [List.foldl_cons, ih, hg]

theorem runCount_giveAll (st : Strand) (sp : OpSpec) (f : LFields) (e : Nat) (ts : List Nat) (ws : List Word) :
    (st.giveAll sp f e ts ws).runCount = st.runCount := by
  unfold Strand.giveAll
  exact runCount_foldl _ _ (fun u p => runCount_vputs _ _ _ _) _

theorem runCount_after (r : PadRow) (st : Strand) (hr : ∀ e t ts x, (r.step st e t ts x).2.runCount = x.2.runCount)
    (ps : List (Nat × Nat × List Nat)) (x : State × Strand) : (r.after st ps x).2.runCount = x.2.runCount := by
  induction ps generalizing x with
  | nil => rfl
  | cons p ps ih => exact (ih _).trans (hr _ _ _ _)

/-- What `PadSays` asks of one row. -/
def Padded (i : Instr) (r : PadRow) (s : State) (id : Nat) (st : Strand) : Prop :=
    (st.nowAdm r.sp r.f = 0 → ∃ t, exec i s = .next t ∧ Ends s t id st st r.len none (r.f.e == 1) false) ∧
    (st.nowAdm r.sp r.f ≠ 0 → st.scrBusy 0 (2 ^ 32) = false → st.acqBusy = false → r.whole s st →
      r.AllFit st (r.steps st (st.nowAdm r.sp r.f) (elems r.sp r.f)) (s, st) →
      ∃ t, exec i s = .next t ∧
        let x := r.after st (r.steps st (st.nowAdm r.sp r.f) (elems r.sp r.f)) (s, st)
        Ends x.1 t id st x.2 r.len none (r.f.e == 1) false)

theorem pad_run {i : Instr} {r : PadRow} {s : State} {id : Nat} {st : Strand} {g : ScrStep} {kind : Nat}
    (hp : Passes i r.sp r.f noPre s id st) (hx : exec i s = scrRun i r.sp r.f r.len kind g s) (hg : StepIs r st g)
    (hr : ∀ e t ts x, (r.step st e t ts x).2.runCount = x.2.runCount) : Padded i r s id st := by
  unfold scrRun at hx
  rw [issue_go hp] at hx
  simp only at hx
  refine ⟨fun h0 => ⟨_, ?_, ends_finish s id st st (st.nowAdm r.sp r.f) r.sp r.f r.len rfl hp.whole⟩,
    fun h0 hb hq _ hf => ⟨_, ?_, ends_finish _ id st _ (st.nowAdm r.sp r.f) r.sp r.f r.len (runCount_after r st hr _ _) hp.whole⟩⟩
  · rw [hx]; exact if_pos h0
  · rw [hx, if_neg h0, hb, hq]
    simp only [Bool.or_self, Bool.false_eq_true, if_false]
    rw [scrPass_fit hg _ _ s hf]

theorem rect_run {i : Instr} {r : PadRow} {s : State} {id : Nat} {st : Strand}
    {g : Nat → Nat → Nat → List Nat → State → Strand → State × Strand}
    (hlen : r.len = 8) (hel : elems (rowOf i) r.f = blockLen r.f) (hw : r.whole = rectFits r.f)
    (hsp : r.sp = rowOf i) (hp : Passes i (rowOf i) r.f (pitchPre r.f) s id st) (hx : exec i s = rectRun i r.f g s)
    (hg : StepIs r st fun e t ts s u => .ok (g (rectOffset r.f st e t) e t ts s u))
    (hr : ∀ e t ts x, (r.step st e t ts x).2.runCount = x.2.runCount) : Padded i r s id st := by
  unfold Padded
  rw [hsp, hlen, hel, hw]
  unfold rectRun at hx
  rw [issue_go hp] at hx
  simp only at hx
  refine ⟨fun h0 => ⟨_, ?_, ends_finish s id st st (st.nowAdm (rowOf i) r.f) (rowOf i) r.f 8 rfl hp.whole⟩,
    fun h0 hb hq hfit hf => ⟨_, ?_, ends_finish _ id st _ (st.nowAdm (rowOf i) r.f) (rowOf i) r.f 8 (runCount_after r st hr _ _) hp.whole⟩⟩
  · rw [hx]; exact if_pos h0
  · obtain ⟨h1, h2, h3⟩ := hfit
    rw [hx, if_neg h0, hb, hq]
    simp only [Bool.or_self, Bool.false_eq_true, if_false]
    rw [if_neg (by omega), if_neg (by omega)]
    have := scrPass_fit hg (blockLen r.f) (st.nowAdm (rowOf i) r.f) s hf
    unfold rectOffset at this
    rw [this]

/-! Caches. -/

theorem dieGet_eq (s : State) (d a : Nat) : s.dieGet d a =
    if homeDie a = d then cget s.mem a else ((tget (s.die d).copies a).map CByte.val).getD (cget s.mem a) := by
  unfold State.dieGet
  split
  · rfl
  · cases tget (s.die d).copies a <;> rfl
theorem coreGet_eq (s : State) (d c a : Nat) : s.coreGet d c a = ((tget (s.core d c).l1 a).map CByte.val).getD (s.dieGet d a) := by
  unfold State.coreGet
  cases tget (s.core d c).l1 a <;> rfl

theorem dieGet_modDie (s : State) (d e a : Nat) (g : Die → Die) (hg : d < s.dies.length → homeDie a ≠ d →
    ((tget (g (s.die d)).copies a).map CByte.val).getD (cget s.mem a) = s.dieGet d a) :
    (s.modDie d g).dieGet e a = s.dieGet e a := by
  by_cases h : e = d ∧ d < s.dies.length
  · obtain ⟨rfl, h2⟩ := h
    by_cases hh : homeDie a = e
    · rw [dieGet_eq, dieGet_eq, if_pos hh, if_pos hh]; rfl
    · rw [← hg h2 hh, dieGet_eq, if_neg hh, State.die_modDie, if_pos ⟨rfl, h2⟩]
      rfl
  · rw [dieGet_eq, dieGet_eq, State.die_modDie, if_neg h]
    rfl

theorem view_modDie (s : State) (d : Nat) (g : Die → Die) (hc : ∀ x, (g x).cores = x.cores)
    (hg : ∀ a, d < s.dies.length → homeDie a ≠ d →
      ((tget (g (s.die d)).copies a).map CByte.val).getD (cget s.mem a) = s.dieGet d a) : SameView s (s.modDie d g) := by
  have hcore : ∀ e k, (s.modDie d g).core e k = s.core e k := by
    intro e k
    simp only [State.core, State.die_modDie]
    split
    · next h => rw [hc, h.1]
    · rfl
  intro e k a
  rw [coreGet_eq, coreGet_eq, hcore, dieGet_modDie s d e a g (hg a)]

theorem dieGet_modCore (s : State) (d c e a : Nat) (g : Core → Core) : (s.modCore d c g).dieGet e a = s.dieGet e a := by
  have h : ((s.modCore d c g).die e).bare = (s.die e).bare := State.die_modCore s d c e g
  have h2 : ((s.modCore d c g).die e).copies = (s.die e).copies := by have := congrArg Die.copies h; exact this
  rw [dieGet_eq, dieGet_eq, h2]
  rfl

theorem view_modL1 (s : State) (d c : Nat) (g : Core → Core)
    (hg : ∀ a, d < s.dies.length → c < (s.die d).cores.length →
      ((tget (g (s.core d c)).l1 a).map CByte.val).getD (s.dieGet d a) = s.coreGet d c a) : SameView s (s.modCore d c g) := by
  intro e k a
  rw [coreGet_eq, dieGet_modCore, State.core_modCore]
  split
  · next h =>
    obtain ⟨rfl, h2, rfl, h4⟩ := h
    exact hg a h2 h4
  · rw [coreGet_eq]

/-- A copy with the value that the die already reads is not seen. -/
theorem dieGet_putCopy (s : State) (d e a p : Nat) (b : CByte) (hv : b.val = s.dieGet d a) :
    (s.modDie d fun x => { x with copies := tput x.copies a b }).dieGet e p = s.dieGet e p := by
  refine dieGet_modDie s d e p _ fun _ hp => ?_
  simp only [tget_tput]
  by_cases h : p = a
  · subst h; simp [hv]
  · rw [if_neg h, dieGet_eq, if_neg hp]
theorem view_putCopy (s : State) (d a : Nat) (b : CByte) (hv : b.val = s.dieGet d a) :
    SameView s (s.modDie d fun x => { x with copies := tput x.copies a b }) := by
  refine view_modDie s d _ (fun _ => rfl) fun p _ hp => ?_
  simp only [tget_tput]
  by_cases h : p = a
  · subst h; simp [hv]
  · rw [if_neg h, dieGet_eq, if_neg hp]

/-- A byte of a column with the value that the core already reads is not seen. -/
theorem view_putL1 (s : State) (d c a : Nat) (b : CByte) (hv : b.val = s.coreGet d c a) :
    SameView s (s.modCore d c fun x => { x with l1 := tput x.l1 a b }) := by
  refine view_modL1 s d c _ fun p _ _ => ?_
  simp only [tget_tput]
  by_cases h : p = a
  · subst h; simp [hv]
  · rw [if_neg h, coreGet_eq]

theorem view_core_same (s : State) (d c : Nat) (g : Core → Core) (hg : ∀ x, (g x).l1 = x.l1) :
    SameView s (s.modCore d c g) :=
  view_modL1 s d c g fun a _ _ => by rw [hg, coreGet_eq]

theorem view_foldl {α : Type} (l : List α) (g : State → α → State) (hg : ∀ s x, SameView s (g s x)) (s : State) :
    SameView s (l.foldl g s) := by
  induction l generalizing s with
  | nil => exact SameView.refl _
  | cons a l ih => exact (hg s a).trans (ih _)

/-- A clean byte that a column or a die's copies take in. -/
theorem tget_freshByte (m : Tab CByte) (a p : Nat) (v : Byte) : (tget (freshByte m a v) p).map CByte.val =
    if p = a then some (((tget m a).map CByte.val).getD v) else (tget m p).map CByte.val := by
  unfold freshByte
  cases h : tget m a with
  | some x =>
    by_cases e : p = a
    · subst e; rw [if_pos rfl, h]; rfl
    · rw [if_neg e]
  | none =>
    simp only [tget_tput]
    by_cases e : p = a
    · subst e; rw [if_pos rfl, if_pos rfl]; rfl
    · rw [if_neg e, if_neg e]

theorem dieGet_fresh (s : State) (d e a p : Nat) :
    (s.modDie d fun x => { x with copies := freshByte x.copies a (s.dieGet d a) }).dieGet e p = s.dieGet e p := by
  refine dieGet_modDie s d e p _ fun _ hp => ?_
  rw [tget_freshByte]
  by_cases h : p = a
  · subst h; rw [if_pos rfl, dieGet_eq, if_neg hp]; cases tget (s.die d).copies p <;> rfl
  · rw [if_neg h, dieGet_eq, if_neg hp]
/-- A copy with the value that the die reads is not seen. -/
theorem view_fresh (s : State) (d a : Nat) :
    SameView s (s.modDie d fun x => { x with copies := freshByte x.copies a (s.dieGet d a) }) := by
  refine view_modDie s d _ (fun _ => rfl) fun p _ hp => ?_
  rw [tget_freshByte]
  by_cases h : p = a
  · subst h; rw [if_pos rfl, dieGet_eq, if_neg hp]; cases tget (s.die d).copies p <;> rfl
  · rw [if_neg h, dieGet_eq, if_neg hp]
/-- A change of a die that keeps its cores and copies is not seen. -/
theorem view_die_same (s : State) (d : Nat) (g : Die → Die) (hc : ∀ x, (g x).cores = x.cores) (hg : ∀ x, (g x).copies = x.copies) :
    SameView s (s.modDie d g) :=
  view_modDie s d g hc fun a _ ha => by rw [hg, dieGet_eq, if_neg ha]

/-- What one byte of a sector brings in. -/
theorem view_fillByte (s : State) (d c a : Nat) : SameView s (s.fillByte d c a) := by
  unfold State.fillByte
  split
  · exact SameView.refl _
  · dsimp only
    have h1 : SameView s (if homeDie a = d then s
        else s.modDie d fun x => { x with copies := freshByte x.copies a (s.dieGet d a) }) ∧
        (if homeDie a = d then s
        else s.modDie d fun x => { x with copies := freshByte x.copies a (s.dieGet d a) }).dieGet d a = s.dieGet d a := by
      split
      · exact ⟨SameView.refl _, rfl⟩
      · exact ⟨view_fresh _ _ _, dieGet_fresh _ _ _ _ _⟩
    revert h1
    generalize (if homeDie a = d then s
        else s.modDie d fun x => { x with copies := freshByte x.copies a (s.dieGet d a) }) = s1
    rintro ⟨h1, h2⟩
    refine h1.trans (view_modL1 s1 d c _ fun p _ _ => ?_)
    rw [tget_freshByte]
    by_cases h : p = a
    · subst h; rw [if_pos rfl, coreGet_eq, ← h2]; rfl
    · rw [if_neg h, coreGet_eq]

theorem view_fillSector (s : State) (d c pa : Nat) : SameView s (s.fillSector d c pa) :=
  view_foldl _ _ (fun s _ => view_fillByte s d c _) s

theorem view_sliceUse (s : State) (d line hint : Nat) : SameView s (s.sliceUse d line hint) :=
  view_die_same _ _ _ (fun _ => rfl) fun _ => rfl

theorem view_fillSlice (s : State) (d pa hint : Nat) : SameView s (s.fillSlice d pa hint) := by
  unfold State.fillSlice
  refine SameView.trans ?_ (view_sliceUse _ _ _ _)
  split
  · exact SameView.refl _
  · refine view_foldl _ _ (fun s i => ?_) s
    dsimp only
    split
    · exact SameView.refl _
    · exact view_fresh _ _ _

theorem view_touch (s : State) (d c pa hint : Nat) : SameView s (s.touch d c pa hint) := by
  unfold State.touch
  split
  · exact SameView.refl _
  · split
    · exact view_fillSlice _ _ _ _
    · exact ((view_fillSector _ _ _ _).trans (view_sliceUse _ _ _ _)).trans (view_core_same _ _ _ _ fun _ => rfl)

/-- Translation changes its caches alone. -/
theorem translate_stores (s : State) (ctx d c : Nat) (lane : Option Nat) (va need : Nat) :
    Stores s (s.translate ctx d c lane va need).1 := by
  have hf (s : State) (t : Tlb) : Stores s (match lane with
      | none => s
      | some l => s.modCore d c fun x =>
          let ln := (tget x.lanes l).getD Lane.idle
          { x with lanes := tput x.lanes l { ln with lastPage := cacheFill ln.lastPage t 4 } }) := by
    split
    · exact Stores.refl _
    · exact modCore_stores _ _ _ _
  unfold State.translate
  simp only
  split
  · exact hf _ _
  · split
    · exact (modCore_stores _ _ _ _).trans (hf _ _)
    · split
      · exact ((modDie_stores _ _ _).trans (modCore_stores _ _ _ _)).trans (hf _ _)
      · exact modDie_stores _ _ _

/-! What a write below the columns leaves. -/

/-- A change of a die that keeps its cores. -/
theorem cores_modDie (s : State) (d e : Nat) (g : Die → Die) (hg : ∀ x, (g x).cores = x.cores) :
    ((s.modDie d g).die e).cores = (s.die e).cores := by
  rw [State.die_modDie]
  split
  · next h => rw [hg, h.1]
  · rfl

/-- A write that the home makes: the byte there, and nothing of any column or of any die's copies. -/
theorem homePut_caches (s : State) (a : Nat) (b : Byte) (n : Nat) :
    (∀ e, ((s.homePut a b n).die e).copies = (s.die e).copies ∧ ((s.homePut a b n).die e).cores = (s.die e).cores) ∧
      (s.homePut a b n).mem = cput s.mem a b := by
  refine ⟨fun e => ?_, rfl⟩
  unfold State.homePut
  simp only [State.die_modDie]
  split
  · next h => rw [h.1]; exact ⟨rfl, rfl⟩
  · exact ⟨rfl, rfl⟩

/-- What a write below the columns leaves of a core: its column, and every byte that its column does not hold but for
the one written. -/
structure Below (s t : State) (d c a : Nat) : Prop where
  column : ∀ e k, (t.core e k).l1 = (s.core e k).l1
  lengths : t.dies.length = s.dies.length ∧ ∀ e, (t.die e).cores = (s.die e).cores
  bytes : ∀ p, p ≠ a → t.dieGet d p = s.dieGet d p

theorem below_homePut (s : State) (d c a : Nat) (b : Byte) (n : Nat) : Below s (s.homePut a b n) d c a where
  column e k := by
    unfold State.core
    rw [((homePut_caches s a b n).1 e).2]
  lengths := ⟨State.modDie_length _ _ _, fun e => ((homePut_caches s a b n).1 e).2⟩
  bytes p hp := by
    rw [dieGet_eq, dieGet_eq, ((homePut_caches s a b n).1 d).1, (homePut_caches s a b n).2, cget_cput_ne _ _ _ _ hp]
theorem below_sendPut (s : State) (d c a : Nat) (b : Byte) (n : Nat) : Below s (s.sendPut d a b n) d c a := by
  unfold State.sendPut
  split
  · split
    · exact ⟨fun _ _ => rfl, ⟨rfl, fun _ => rfl⟩, fun _ _ => rfl⟩
    · exact ⟨fun _ _ => rfl, ⟨rfl, fun _ => rfl⟩, fun _ _ => rfl⟩
  · exact below_homePut _ _ _ _ _ _
theorem below_diePut (s : State) (d c a : Nat) (b : Byte) (n : Nat) : Below s (s.diePut d a b n) d c a := by
  unfold State.diePut
  split
  · exact below_sendPut _ _ _ _ _ _
  · refine ⟨fun e k => ?_, ⟨State.modDie_length _ _ _, fun e => cores_modDie s d e _ fun _ => rfl⟩, fun p hp => ?_⟩
    · exact congrArg (fun l => (nth Core.idle l k).l1) (cores_modDie s d e _ fun _ => rfl)
    · refine dieGet_modDie s d d p _ fun _ hh => ?_
      simp only [tget_tput, if_neg hp]
      rw [dieGet_eq, if_neg hh]

end Sys2Proof.Machine
end

