-- ==== Sys2Proof/Laws/Scope.lean ====
section
/-! SUPPORT. What the release and acquire actions leave in a column and among a die's copies (R210). -/

namespace Sys2Proof.Machine

theorem die_absent (s : State) (d : Nat) (h : ¬ d < s.dies.length) : s.die d = Die.afterReset d := by
  unfold State.die nth
  rw [List.getD_eq_getElem?_getD, List.getElem?_eq_none (by omega)]; rfl
theorem core_absent (s : State) (d c : Nat) (h : ¬ (d < s.dies.length ∧ c < (s.die d).cores.length)) :
    s.core d c = Core.idle := by
  unfold State.core
  by_cases hd : d < s.dies.length
  · unfold nth
    rw [List.getD_eq_getElem?_getD, List.getElem?_eq_none (by have := fun x => h ⟨hd, x⟩; omega)]; rfl
  · rw [die_absent s d hd]
    unfold Die.afterReset nth
    simp only [List.getD_eq_getElem?_getD, List.getElem?_replicate]
    split <;> rfl

/-- What holds of every byte of a column as a change makes it holds of the column. -/
theorem l1_modCore (s : State) (d c : Nat) (g : Core → Core) (P : Nat → CByte → Prop)
    (h : ∀ e : Nat × CByte, e ∈ (g (s.core d c)).l1 → P e.1 e.2) (a : Nat) (b : CByte)
    (hb : tget ((s.modCore d c g).core d c).l1 a = some b) : P a b := by
  rw [State.core_modCore] at hb
  split at hb
  · exact h _ (tget_mem _ _ _ hb)
  · next k =>
    rw [core_absent s d c (fun x => k ⟨rfl, x.1, rfl, x.2⟩)] at hb; cases hb
/-- The same of a die's copies. -/
theorem copies_modDie (s : State) (d : Nat) (g : Die → Die) (P : Nat → CByte → Prop)
    (h : ∀ e : Nat × CByte, e ∈ (g (s.die d)).copies → P e.1 e.2) (a : Nat) (b : CByte)
    (hb : tget ((s.modDie d g).die d).copies a = some b) : P a b := by
  rw [State.die_modDie] at hb
  split at hb
  · exact h _ (tget_mem _ _ _ hb)
  · next k =>
    rw [die_absent s d (fun x => k ⟨rfl, x⟩)] at hb; cases hb

/-- A column or a die's copies with every byte that a test admits marked clean. -/
theorem cleaned_clean {p : Nat → Bool} (m : Tab CByte) (e : Nat × CByte) (h : e ∈ cleaned p m) (hp : p e.1 = true) :
    e.2.dirty = false := by
  obtain ⟨x, -, hx⟩ := List.mem_map.mp h
  by_cases k : p x.1 = true
  · rw [if_pos k] at hx
    rw [← hx]
  · rw [if_neg k] at hx
    rw [← hx] at hp
    exact absurd hp k

theorem writeBackL1_clean (s : State) (d c a : Nat) (b : CByte)
    (h : tget ((s.writeBackL1 d c fun _ => true).core d c).l1 a = some b) : b.dirty = false := by
  unfold State.writeBackL1 at h
  dsimp only at h
  generalize State.found _ _ = q at h
  exact l1_modCore q d c _ (fun _ b => b.dirty = false) (fun e he => by dsimp only at he; exact cleaned_clean _ e he rfl) a b h

/-- The same cores. -/
def SameCores (s t : State) : Prop := ∀ e, (t.die e).cores = (s.die e).cores
theorem SameCores.refl (s : State) : SameCores s s := fun _ => rfl
theorem SameCores.trans {s t u : State} (h : SameCores s t) (k : SameCores t u) : SameCores s u := fun e => (k e).trans (h e)
theorem SameCores.foldl {α : Type} (g : State → α → State) (h : ∀ s x, SameCores s (g s x)) (l : List α) (s : State) :
    SameCores s (l.foldl g s) := by
  induction l generalizing s with
  | nil => exact SameCores.refl s
  | cons a l ih => exact (h s a).trans (ih _)
theorem SameCores.foldr {α : Type} (g : α → State → State) (h : ∀ s x, SameCores s (g x s)) (l : List α) (s : State) :
    SameCores s (l.foldr g s) := by
  induction l with
  | nil => exact SameCores.refl s
  | cons a l ih => exact ih.trans (h _ a)
theorem cores_tidy (s : State) (d : Nat) : SameCores s (s.tidy d) := fun e => cores_modDie s d e _ fun _ => rfl
theorem cores_noteDirty (s : State) (d line : Nat) : SameCores s (s.noteDirty d line) := fun e =>
  cores_modDie s d e _ fun x => by
    dsimp only
    split
    · rfl
    · split <;> rfl
theorem cores_found (s : State) (l : List Nat) : SameCores s (s.found l) :=
  SameCores.foldl _ (fun s _ e => cores_modDie s _ e _ (by intro; rfl)) _ _

/-- Writing back a die's copies changes no core. -/
theorem writeBackDie_cores (s : State) (d : Nat) (p : Nat → Bool) : SameCores s (s.writeBackDie d p) := by
  unfold State.writeBackDie
  dsimp only
  refine SameCores.trans ?_ (cores_tidy _ _)
  refine SameCores.trans ?_ (fun e => cores_modDie _ d e _ (by intro; rfl))
  refine SameCores.trans ?_ (cores_found _ _)
  refine SameCores.trans ?_ (SameCores.foldl _ (fun s l => cores_noteDirty s (homeDie (128 * l)) l) _ _)
  exact SameCores.foldr _ (fun s (e : Nat × CByte) => (below_sendPut s d 0 e.1 e.2.val _).lengths.2) _ _
theorem writeBackDie_core (s : State) (d e k : Nat) (p : Nat → Bool) : (s.writeBackDie d p).core e k = s.core e k := by
  unfold State.core
  rw [writeBackDie_cores]

/-- A change of a core keeps the copies of every die. -/
theorem copies_modCore (s : State) (d c e : Nat) (g : Core → Core) : ((s.modCore d c g).die e).copies = (s.die e).copies := by
  have h := congrArg Die.copies (State.die_modCore s d c e g)
  exact h

/-- What a die's copies still hold dirty after they are written back: what was not asked for, or waits for a link. -/
theorem writeBackDie_left (s : State) (d a : Nat) (p : Nat → Bool) (b : CByte)
    (h : tget ((s.writeBackDie d p).die d).copies a = some b) (hp : p a = true) (hl : s.linkSlow d (homeDie a) = false) :
    b.dirty = false := by
  have ht : ∀ q : State, ((q.tidy d).die d).copies = (q.die d).copies := by
    intro q
    unfold State.tidy
    rw [State.die_modDie]
    split
    · rfl
    · rfl
  have h2 := h
  unfold State.writeBackDie at h2
  dsimp only at h2
  rw [ht] at h2
  generalize State.found _ _ = q at h2
  exact copies_modDie q d _ (fun a b => p a = true → s.linkSlow d (homeDie a) = false → b.dirty = false)
    (fun e he h1 h2 => by dsimp only at he; exact cleaned_clean _ e he (by simp only [h1, h2]; rfl)) a b h2 hp hl

theorem release_column (s : State) (d c scope : Nat) (wide : Bool) (hw : 3 ≤ scope ∨ (scope = 1 ∧ wide = true)) (a : Nat) (b : CByte)
    (h : tget ((s.release d c scope wide).core d c).l1 a = some b) : b.dirty = false := by
  refine writeBackL1_clean s d c a b ?_
  unfold State.release at h
  rw [if_pos hw] at h
  dsimp only at h
  split at h
  · split at h
    · rwa [writeBackDie_core] at h
    · rw [State.core_modCore] at h
      split at h
      · rwa [writeBackDie_core] at h
      · rwa [writeBackDie_core] at h
  · exact h
theorem release_copies (s : State) (d c scope : Nat) (wide : Bool) (hw : 4 ≤ scope)
    (hl : (s.release d c scope wide).copiesWait d = false) (a : Nat) (b : CByte)
    (h : tget ((s.release d c scope wide).die d).copies a = some b) : b.dirty = false := by
  have hs := (release_stores s d c scope wide).links
  have hq : s.linkSlow d (homeDie a) = (s.release d c scope wide).linkSlow d (homeDie a) := by
    unfold State.linkSlow State.linkUp State.linkDead State.linkState
    rw [hs]
  by_cases k : s.linkSlow d (homeDie a) = true
  · unfold State.copiesWait at hl
    have h1 := List.any_eq_false.mp hl (a, b) (tget_mem _ _ _ h)
    rw [← hq, k, Bool.and_true] at h1
    simpa using h1
  · have k2 : (s.writeBackL1 d c fun _ => true).linkSlow d (homeDie a) = false := by
      have h2 := (writeBackL1_stores s d c fun _ => true).links
      unfold State.linkSlow State.linkUp State.linkDead State.linkState at k ⊢
      rw [h2]
      simpa using k
    refine writeBackDie_left _ d a (fun _ => true) b ?_ rfl k2
    unfold State.release at h
    rw [if_pos (Or.inl (by omega))] at h
    dsimp only at h
    rw [if_pos hw] at h
    split at h
    · exact h
    · generalize State.writeBackDie _ _ _ = q at h ⊢
      rwa [copies_modCore] at h
theorem acquire_column (s : State) (d c scope : Nat) (wide : Bool) (hw : 3 ≤ scope ∨ (scope = 1 ∧ wide = true)) (a : Nat) (b : CByte)
    (h : tget ((s.acquire d c scope wide).core d c).l1 a = some b) : b.dirty = true := by
  unfold State.acquire at h
  rw [if_pos hw] at h
  exact l1_modCore _ d c _ (fun _ b => b.dirty = true) (fun e he => by dsimp only at he; exact (List.mem_filter.mp he).2) a b h
theorem acquire_copies (s : State) (d c scope : Nat) (wide : Bool) (hw : 4 ≤ scope) (a : Nat) (b : CByte)
    (h : tget ((s.acquire d c scope wide).die d).copies a = some b) : b.dirty = true := by
  unfold State.acquire at h
  rw [if_pos (Or.inl (by omega))] at h
  dsimp only at h
  rw [if_pos hw] at h
  have e := State.die_modCore (s.modDie d fun x => { x with copies := x.copies.filter fun e => e.2.dirty }) d c d
    fun x => { x with l1 := x.l1.filter fun e => e.2.dirty }
  have e2 := congrArg Die.copies e
  dsimp only at e2
  rw [e2] at h
  exact copies_modDie _ d _ (fun _ b => b.dirty = true) (fun e he => by dsimp only at he; exact (List.mem_filter.mp he).2) a b h

end Sys2Proof.Machine
end

