-- ==== Sys2Proof/Laws/Team.lean ====
section
/-! SUPPORT. Entering Waiting, being held, and committing an item: what each does. -/

namespace Sys2Proof.Machine

theorem waits_enter (s : State) (id : Nat) (st : Strand) (m : Mask) (sp : OpSpec) (f : LFields) (len : Nat) (w : Wait) :
    Waits s (s.enterWait { id := id, st := st, adm := m } st sp f len w) id st w len := by
  refine ⟨?_, _, State.strand_putStrand_same _ _ _, rfl, rfl, rfl, rfl, rfl, rfl, rfl, rfl, rfl, rfl, rfl⟩
  have k := onlyStrand_freeLane s st id false
  have k2 : OnlyStrand { s with seqNo := s.seqNo + 1 } { s.freeLane st id false with seqNo := s.seqNo + 1 } id :=
    ⟨k.mem, k.view, k.strands, k.dies, k.cores, by
      have h := congrArg (fun z : State => { z with seqNo := s.seqNo + 1 }) k.rest
      exact h⟩
  exact k2.trans (onlyStrand_putStrand _ _ _)

theorem holds_hold (s : State) (id : Nat) (st : Strand) (m : Mask) (r : Request) :
    Holds s (s.holdOn { id := id, st := st, adm := m } r) id st r :=
  ⟨fun j hj => by
    unfold State.holdOn
    simp only [State.strand_putStrand, if_neg hj]
    rfl, rfl, _, State.strand_putStrand_same _ _ _⟩

/-- Committing an item changes no part of the machine but the contexts' records. -/
theorem commit_ctxs (s : State) (st : Strand) : ∃ c, s.commit st = { s with ctxs := c } := by
  unfold State.commit State.modItem State.modKernel
  split
  · split
    · split
      · exact ⟨_, rfl⟩
      · exact ⟨s.ctxs, rfl⟩
    · exact ⟨s.ctxs, rfl⟩
  · exact ⟨s.ctxs, rfl⟩

@[simp] theorem queue_commit (s : State) (st : Strand) (q : Nat) : (s.commit st).queue q = s.queue q := by
  obtain ⟨c, h⟩ := commit_ctxs s st
  rw [h]
  rfl

end Sys2Proof.Machine
end

