-- ==== Sys2Proof/Tests/Slice0.lean ====
section
/-! SUPPORT. Tests: encodings written out from the manual, ill-formed terms, small results, and for every statement states and
operands that meet its hypotheses. -/

set_option Elab.async false

namespace Sys2Proof.Machine.Tests

/-! Helpers. -/

/-- A strand about to execute on lane 0 of core 0 of D0, all registers zero, and its strand. -/
def w0 : State := State.reset.withFetchWord 64 0
def t0 : Strand := placedStrand

/-- Fields of each format, unguarded. -/
def lf (m3 w c b a d : Nat) : LFields :=
  { m3 := BitVec.ofNat 3 m3, h := 0, w := BitVec.ofNat 2 w, c := BitVec.ofNat 8 c, b := BitVec.ofNat 8 b,
    a := BitVec.ofNat 8 a, d := BitVec.ofNat 8 d, gn := 0, g6 := 0, y := 0, u := 0, s4 := 0, e := 0 }
def wr (b a d s : Nat) : WRFields :=
  { b := BitVec.ofNat 6 b, a := BitVec.ofNat 6 a, d := BitVec.ofNat 6 d, g := 0, s := BitVec.ofNat 2 s, e := 0 }
def wi (imm d : Nat) : WIFields := { imm := BitVec.ofNat 18 imm, d5 := BitVec.ofNat 5 d, e := 0 }
def hf (b d : Nat) : HFields := { b := BitVec.ofNat 5 b, d := BitVec.ofNat 5 d, e := 0 }

/-- The checks of `Passes` as a decision. -/
def passesB (i : Instr) (sp : OpSpec) (f : LFields) (pre : Strand → Mask → Option Nat) (s : State) (id : Nat)
    (st : Strand) : Bool :=
  s.cur == some id && (s.strand id == some st && (st.cutAt.isNone && (wellFormed i && ((!sp.priv || s.priv st.ctx) && (st.allocOk sp f &&
    (overlapOk sp f && ((pre st (st.nowAdm sp f)).isNone && (sp.roleOk st.role &&
    ((!s.score st.ctx || (st.stallField sp f (st.nowAdm sp f)).isNone) &&
    (st.usedRegs sp f (st.nowAdm sp f)).all fun r => !st.outstanding.contains r)))))))))

theorem passes_of {i : Instr} {sp : OpSpec} {f : LFields} {pre : Strand → Mask → Option Nat} {s : State} {id : Nat}
    {st : Strand} (h : passesB i sp f pre s id st = true) : Passes i sp f pre s id st := by
  simp only [passesB, Bool.and_eq_true, beq_iff_eq, Option.isNone_iff_eq_none, Bool.or_eq_true, List.all_eq_true,
    Bool.not_eq_true', List.contains_eq_mem, decide_eq_false_iff_not] at h
  obtain ⟨h1, h2, hw, h3, h4, h5, h6, h7, h8, h9, h10⟩ := h
  exact ⟨h1, h2, hw, h3, fun hp => h4.resolve_left (by simp [hp]), h5, h6, h7, h8, fun hs => h9.resolve_left (by simp [hs]), h10⟩


/-! Per-thread instructions. -/

def vecSamples : List Instr :=
  [.iadd (lf 0 0 0 16 8 4), .isub (lf 0 0 0 16 8 4), .imul (lf 0 0 0 16 8 4), .imulh (lf 0 0 0 16 8 4),
   .imad (lf 0 0 24 16 8 4), .iand (lf 6 0 0 16 8 4), .ior (lf 6 0 0 16 8 4), .ixor (lf 6 0 0 16 8 4),
   .ishl (lf 6 0 0 16 8 4), .ishr (lf 6 0 0 16 8 4), .isra (lf 6 0 0 16 8 4), .imin (lf 0 0 0 16 8 4),
   .imax (lf 0 0 0 16 8 4), .iabs (lf 0 0 0 0 8 4), .icmp (lf 0 0 0 16 8 4), .isel (lf 6 0 24 16 8 4),
   .bfe (lf 0 0 24 16 8 4), .bfi (lf 6 0 24 16 8 4), .popc (lf 6 0 0 0 8 4), .clz (lf 6 0 0 0 8 4),
   .brev (lf 6 0 0 0 8 4), .bgath (lf 6 0 24 16 8 4), .lea (lf 0 0 0 16 8 4), .iaddc (lf 1 0 24 16 8 4),
   .mov (lf 6 0 0 0 8 4), .movi (lf 0 0 24 16 0 4), .movhi (lf 0 0 24 16 0 4), .idot4 (lf 4 0 24 16 8 4),
   .fadd (lf 0 0 0 16 8 4), .fsub (lf 0 0 0 16 8 4), .fmul (lf 0 0 0 16 8 4), .ffma (lf 0 0 24 16 8 4),
   .fmin (lf 0 0 0 16 8 4), .fmax (lf 0 0 0 16 8 4), .fcmp (lf 0 0 0 16 8 4), .fclass (lf 0 0 0 0 8 4),
   .frcp (lf 0 0 0 0 8 4), .frsq (lf 0 0 0 0 8 4), .fsqrt (lf 0 0 0 0 8 4), .fexp2 (lf 0 0 0 0 8 4),
   .flog2 (lf 0 0 0 0 8 4), .fsint (lf 0 0 0 0 8 4), .fcost (lf 0 0 0 0 8 4), .fcvt (lf 0 0 0 0 8 4),
   .frnd (lf 0 0 0 0 8 4), .ffrac (lf 0 0 0 0 8 4), .cadd (lf 0 0 0 16 8 4), .csub (lf 0 0 0 16 8 4),
   .cmul (lf 0 0 0 16 8 4), .cfma (lf 0 0 24 16 8 4), .cmag2 (lf 0 0 0 0 8 4), .cscale (lf 0 0 0 16 8 4),
   .cexpi (lf 0 0 0 0 8 4), .cphase (lf 0 0 0 0 8 4), .twid (lf 0 0 0 16 8 4), .bfly (lf 0 0 0 16 8 4),
   .ccvt (lf 0 0 0 0 8 4), .bpack (lf 6 0 0 16 8 4), .bunpk (lf 6 0 0 0 8 4), .bexpm (lf 6 0 0 0 8 4),
   .phq (lf 0 0 1 0 8 4), .edge (lf 0 0 0 16 8 4), .trix (lf 0 0 24 16 8 4), .movH (hf 4 2), .iaddH (hf 4 2),
   .isubH (hf 4 2), .iandH (hf 4 2), .iorH (hf 4 2), .ixorH (hf 4 2), .ishlH (hf 4 2), .ishrH (hf 4 2),
   .faddH (hf 4 2), .fsubH (hf 4 2), .fmulH (hf 4 2), .fmaxH (hf 4 2), .fminH (hf 4 2), .caddH (hf 4 2),
   .cmulH (hf 4 2), .imulH (hf 4 2), .movW (wr 0 8 4 0), .iaddW (wr 16 8 4 0), .isubW (wr 16 8 4 0),
   .imulW (wr 16 8 4 0), .iandW (wr 16 8 4 0), .iorW (wr 16 8 4 0), .ixorW (wr 16 8 4 0), .ishlW (wr 16 8 4 0),
   .ishrW (wr 16 8 4 0), .iminW (wr 16 8 4 0), .imaxW (wr 16 8 4 0), .icmpW (wr 16 8 4 0), .faddW (wr 16 8 4 0),
   .fsubW (wr 16 8 4 0), .fmulW (wr 16 8 4 0), .fminW (wr 16 8 4 0), .fmaxW (wr 16 8 4 0), .fcmpW (wr 16 8 4 0),
   .caddW (wr 16 8 4 0), .csubW (wr 16 8 4 0), .cmulW (wr 16 8 4 0), .bflyW (wr 16 8 4 0), .twidW (wr 16 8 4 0),
   .ffmaW (wr 16 8 4 0), .cfmaW (wr 16 8 4 0), .moviW (wi 6 4), .iaddi (wi 6 4), .movhiW (wi 6 4)]

/-- The instruction of a row passes its checks in the placed state, no window refuses, and its result is asked of thread 0. -/
def vecFits (i : Instr) : Bool :=
  match vecRow i with
  | some r => passesB i r.sp r.f noPre w0 0 t0 && (r.ready t0 && ((List.range (vecElems r.sp r.f)).all fun e =>
      (List.range 16).all fun t => !mHas (t0.vecMask r.sp r.f (t0.nowAdm r.sp r.f) e) t ||
        (t0.vecOut r.sp r.f (r.vd t0) (t0.nowAdm r.sp r.f) e t).isSome))
  | none => false

theorem witness_vec_check : vecSamples.all vecFits = true := by decide +kernel

/-- VecSays: for every per-thread instruction a state in which its hypotheses hold. -/
theorem witness_vec : ∀ i ∈ vecSamples, ∃ r, vecRow i = some r ∧ Passes i r.sp r.f noPre w0 0 t0 ∧ r.ready t0 = true ∧
    t0.vecInside r.sp r.f (r.vd t0) (t0.nowAdm r.sp r.f) := by
  intro i hi
  have h := List.all_eq_true.mp witness_vec_check i hi
  unfold vecFits at h
  cases hr : vecRow i with
  | none => rw [hr] at h; cases h
  | some r =>
    rw [hr] at h
    simp only [Bool.and_eq_true, List.all_eq_true, List.mem_range, Bool.or_eq_true, Bool.not_eq_true'] at h
    refine ⟨r, rfl, passes_of h.1, h.2.1, fun e t he ht hm => ?_⟩
    exact (h.2.2 e he t ht).resolve_left (by rw [hm]; decide)

def scalarRowSamples : List Instr :=
  [.sadd (lf 0 0 0 144 136 132), .ssub (lf 0 0 0 144 136 132), .smul (lf 0 0 0 144 136 132),
   .smulh (lf 0 0 0 144 136 132), .sand (lf 6 0 0 144 136 132), .sor (lf 6 0 0 144 136 132),
   .sxor (lf 6 0 0 144 136 132), .sshl (lf 6 0 0 144 136 132), .sshr (lf 6 0 0 144 136 132),
   .ssra (lf 6 0 0 144 136 132), .smin (lf 0 0 0 144 136 132), .smax (lf 0 0 0 144 136 132),
   .smov (lf 6 0 0 0 8 132), .smovi (lf 0 0 24 16 0 132), .scmp (lf 0 0 0 144 136 132),
   .ssel (lf 6 0 152 144 136 132), .sbfe (lf 0 0 152 144 136 132), .spopc (lf 6 0 0 0 136 132),
   .sclz (lf 6 0 0 0 136 132), .saddW (wr 16 8 4 0), .ssubW (wr 16 8 4 0), .smovW (wr 0 8 4 0), .scmpW (wr 16 8 4 0),
   .sandW (wr 16 8 4 0), .sorW (wr 16 8 4 0), .sshlW (wr 16 8 4 0), .sshrW (wr 16 8 4 0), .smoviW (wi 6 4),
   .saddi (wi 6 4), .smovhi (wi 6 4)]

def scalarFpRowSamples : List Instr :=
  [.sfadd (lf 0 0 0 144 136 132), .sfmul (lf 0 0 0 144 136 132), .sffma (lf 0 0 152 144 136 132),
   .sfcvt (lf 0 0 0 0 136 132)]

def predRowSamples : List Instr :=
  [.qand (lf 6 0 0 16 8 4), .qor (lf 6 0 0 16 8 4), .qxor (lf 6 0 0 16 8 4), .stoq (lf 0 0 0 0 136 4),
   .qtos (lf 0 0 0 0 8 132)]

def envRowSamples : List Instr :=
  [.setfmt (lf 0 0 0 0 136 0), .getfmt (lf 0 0 0 0 0 132), .xwin (lf 0 0 0 144 136 4), .xset (lf 0 0 0 0 8 4),
   .sldk (lf 6 0 24 16 136 132)]

def crossRowSamples : List Instr :=
  [.shfl (lf 6 0 0 16 8 4), .shflx (lf 6 0 0 16 8 4), .shfld (lf 6 0 0 16 8 4), .shflu (lf 6 0 0 16 8 4),
   .bcast (lf 6 0 0 144 8 4), .shflW (wr 16 8 4 0), .shflxW (wr 16 8 4 0), .scan (lf 0 0 24 0 8 4),
   .reds (lf 0 0 0 0 8 4), .vote (lf 0 0 0 0 8 4), .matchT (lf 6 0 0 0 8 4)]

def sysRowSamples : List Instr :=
  [.rdsr (lf 0 0 0 16 0 4), .wrsr (lf 0 0 0 16 136 0), .tmset (lf 0 0 0 0 136 0)]


/-- An instruction of a table passes its checks in a state. -/
def onceFits (row : Instr → Option OnceRow) (s : State) (st : Strand) (i : Instr) : Bool :=
  match row i with
  | some r => passesB i r.sp r.f (r.pre s) s 0 st
  | none => false
theorem once_of {row : Instr → Option OnceRow} {s : State} {st : Strand} {i : Instr} (h : onceFits row s st i = true) :
    ∃ r, row i = some r ∧ Passes i r.sp r.f (r.pre s) s 0 st := by
  unfold onceFits at h
  cases hr : row i with
  | none => rw [hr] at h; cases h
  | some r => rw [hr] at h; exact ⟨r, rfl, passes_of h⟩

theorem witness_scalar_check : scalarRowSamples.all (onceFits scalarRow w0 t0) = true := by decide +kernel
theorem witness_scalar : ∀ i ∈ scalarRowSamples, ∃ r, scalarRow i = some r ∧ Passes i r.sp r.f (r.pre w0) w0 0 t0 :=
  fun i hi => once_of (List.all_eq_true.mp witness_scalar_check i hi)

theorem witness_scalarFp_check : scalarFpRowSamples.all (onceFits scalarFpRow w0 t0) = true := by decide +kernel
theorem witness_scalarFp : ∀ i ∈ scalarFpRowSamples, ∃ r, scalarFpRow i = some r ∧ Passes i r.sp r.f (r.pre w0) w0 0 t0 :=
  fun i hi => once_of (List.all_eq_true.mp witness_scalarFp_check i hi)

theorem witness_pred_check : predRowSamples.all (onceFits predRow w0 t0) = true := by decide +kernel
theorem witness_pred : ∀ i ∈ predRowSamples, ∃ r, predRow i = some r ∧ Passes i r.sp r.f (r.pre w0) w0 0 t0 :=
  fun i hi => once_of (List.all_eq_true.mp witness_pred_check i hi)

theorem witness_env_check : envRowSamples.all (onceFits envRow w0 t0) = true := by decide +kernel
theorem witness_env : ∀ i ∈ envRowSamples, ∃ r, envRow i = some r ∧ Passes i r.sp r.f (r.pre w0) w0 0 t0 :=
  fun i hi => once_of (List.all_eq_true.mp witness_env_check i hi)

theorem witness_cross_check : crossRowSamples.all (onceFits crossRow w0 t0) = true := by decide +kernel
theorem witness_cross : ∀ i ∈ crossRowSamples, ∃ r, crossRow i = some r ∧ Passes i r.sp r.f (r.pre w0) w0 0 t0 :=
  fun i hi => once_of (List.all_eq_true.mp witness_cross_check i hi)

theorem witness_sys_check : sysRowSamples.all (onceFits sysRow w0 t0) = true := by decide +kernel
theorem witness_sys : ∀ i ∈ sysRowSamples, ∃ r, sysRow i = some r ∧ Passes i r.sp r.f (r.pre w0) w0 0 t0 :=
  fun i hi => once_of (List.all_eq_true.mp witness_sys_check i hi)


def controlSamples : List Instr :=
  [.bra (lf 0 0 24 16 8 0), .rcv (lf 0 0 24 16 8 0), .divT (lf 0 0 24 16 8 0), .call (lf 0 0 24 16 8 132),
   .loop (lf 0 0 24 16 8 132), .brx (lf 0 0 0 0 8 0), .ret (lf 0 0 0 0 136 0), .nop (lf 0 0 0 0 0 0),
   .yield (lf 0 0 0 0 0 0), .braW (wi 6 4), .rcvW (wi 6 0), .divW (wi 6 4), .callW (wi 6 0), .loopW (wi 6 4), .yieldW]
def controlFits (i : Instr) : Bool :=
  match controlRow w0 i with
  | some r => passesB i r.sp r.f r.pre w0 0 t0
  | none => false
theorem witness_control_check : controlSamples.all controlFits = true := by decide +kernel
theorem witness_control : ∀ i ∈ controlSamples, ∃ r, controlRow w0 i = some r ∧ Passes i r.sp r.f r.pre w0 0 t0 := by
  intro i hi
  have h := List.all_eq_true.mp witness_control_check i hi
  unfold controlFits at h
  cases hr : controlRow w0 i with
  | none => rw [hr] at h; cases h
  | some r => rw [hr] at h; exact ⟨r, rfl, passes_of h⟩

/-! Encodings, written out from the manual. -/

/-- A doubleword with every field its own value (R91): m3 0, h 2, w 1, c8 0x04, b8 0x03, a8 0x02, d8 0x01, GN 1, g6 5, Y 1,
U 0, S4 9, E 1, around an op9. -/
def fieldWord (op9 : Nat) : BitVec 64 := BitVec.ofNat 64 (0x1208060402000000 + op9 * 2 ^ 16 + 0x8000 + 0x0A00 + 0x100 + 0x48 + 4 + 3)
def fieldsOf : LFields :=
  { m3 := 0, h := 2, w := 1, c := 4, b := 3, a := 2, d := 1, gn := 1, g6 := 5, y := 1, u := 0, s4 := 9, e := 1 }

/-- The map of R100, row by row; `none` where the map has a dash. -/
def opMap : List (Nat × List (Option (LFields → Instr))) :=
  [(0x000, [some .iadd, some .isub, some .imul, some .imulh, some .imad, some .iand, some .ior, some .ixor]),
   (0x008, [some .ishl, some .ishr, some .isra, some .imin, some .imax, some .iabs, some .icmp, some .isel]),
   (0x010, [some .bfe, some .bfi, some .popc, some .clz, some .brev, some .bgath, some .lea, some .iaddc]),
   (0x018, [some .mov, some .movi, some .movhi, some .idot4, none, none, none, none]),
   (0x040, [some .fadd, some .fsub, some .fmul, some .ffma, some .fmin, some .fmax, some .fcmp, some .fclass]),
   (0x048, [some .frcp, some .frsq, some .fsqrt, some .fexp2, some .flog2, some .fsint, some .fcost, some .fcvt]),
   (0x050, [some .frnd, some .ffrac, none, none, none, none, none, none]),
   (0x080, [some .cadd, some .csub, some .cmul, some .cfma, some .cmag2, some .cscale, some .cexpi, some .cphase]),
   (0x088, [some .twid, some .bfly, some .ccvt, some .bpack, some .bunpk, some .bexpm, some .phq, some .edge]),
   (0x090, [some .trix, none, none, none, none, none, none, none]),
   (0x0B0, [some .shfl, some .shflx, some .shfld, some .shflu, some .scan, some .reds, some .vote, some .matchT]),
   (0x0B8, [some .lace, some .laceld, some .bcast, none, none, none, none, none]),
   (0x0D0, [some .qand, some .qor, some .qxor, some .qtos, some .stoq, none, none, none]),
   (0x0E0, [some .sadd, some .ssub, some .smul, some .smulh, some .sand, some .sor, some .sxor, some .sshl]),
   (0x0E8, [some .sshr, some .ssra, some .smin, some .smax, some .smov, some .smovi, some .scmp, some .ssel]),
   (0x0F0, [some .sbfe, some .spopc, some .sclz, some .sldk, some .setfmt, some .getfmt, some .xwin, some .xset]),
   (0x0F8, [some .sfadd, some .sfmul, some .sffma, some .sfcvt, none, none, none, none]),
   (0x110, [some .bra, some .brx, some .divT, some .rcv, some .call, some .ret, some .exit, some .nop]),
   (0x118, [some .yield, some .loop, some .trap, some .bkpt, none, none, none, none]),
   (0x130, [some .ld, some .st, some .lds, some .sts, some .ldt, some .stt, some .atom, some .atoms]),
   (0x138, [some .sumx, some .sumrd, some .sumclr, some .pref, some .waitc, some .fence, none, none]),
   (0x170, [some .shut, some .shutx, some .dtld, some .decode, some .fetchf, some .darn, some .dispq, none]),
   (0x190, [some .mclr, some .mloop, some .mrd, some .mbld, some .mtwid, some .seedld, some .seedscan, some .seeddrop]),
   (0x1B0, [some .join, some .leave, some .bar, some .bara, some .barw, some .ringp, some .ringw, some .ringf]),
   (0x1B8, [some .launch, some .emit, some .take, some .qclose, some .grow, some .shrink, some .chsend, some .chrecv]),
   (0x1C0, [some .redx, some .redw, none, none, none, none, none, none]),
   (0x1D0, [some .rdsr, some .wrsr, some .tret, some .tmset, some .balloonGive, some .dieset, some .memfsp])]

/-- Every op9 of the map decodes to its instruction with every field, and a dash to none (R100). -/
theorem test_decode_op9 : (opMap.all fun r => (List.range r.2.length).all fun i =>
    decodeL (fieldWord (r.1 + i)) == match nth none r.2 i with
      | some mk => mk fieldsOf
      | none => .encodingNotAnInstruction) = true := by decide +kernel
/-- The forms that m3 chooses, and HALT (R337, R414, R476, R490). -/
theorem test_decode_forms :
    decodeL 0x2003C1C005B50003 = .ringpAfter (lf 1 0 1 0xE0 0xE0 2) ∧
    decodeL 0x2000000015D40003 = .balloonQuery (lf 1 0 0 0 0 0x0A) ∧
    decodeL 0x2000000015760003 = .dispqQuery (lf 1 0 0 0 0 0x0A) ∧
    decodeL 0x0000000001D70003 = .halt ∧ decodeL 0x0000000201D70003 = .encodingNotAnInstruction := by decide +kernel

/-- The H map (R82, R83): op4 at [5:2], d 3, b 4, E 1. -/
theorem test_decode_h : (List.range 16).map (fun k => decodeH (BitVec.ofNat 16 (0x20C2 + 4 * k))) =
    [Instr.movH, .iaddH, .isubH, .iandH, .iorH, .ixorH, .ishlH, .ishrH, .faddH, .fsubH, .fmulH, .fmaxH, .fminH, .caddH,
     .cmulH, .imulH].map (fun mk => mk { e := 1, d := 3, b := 4 }) := by decide +kernel
/-- The W-R map (R85, R87): op6 at [13:8], guard 2, S2 1, E 1, d 5, a 6, b 7. -/
theorem test_decode_wr : (List.range 39).map (fun k => decodeW (BitVec.ofNat 32 (0x1C61404D + 0x100 * (k + 1)))) =
    [Instr.movW, .iaddW, .isubW, .imulW, .iandW, .iorW, .ixorW, .ishlW, .ishrW, .iminW, .imaxW, .icmpW, .faddW, .fsubW,
     .fmulW, .ffmaW, .fminW, .fmaxW, .fcmpW, .caddW, .csubW, .cmulW, .cfmaW, .bflyW, .twidW, .shflW, .shflxW, .ldsW,
     .stsW, .ldW, .stW, .saddW, .ssubW, .smovW, .scmpW, .sandW, .sorW, .sshlW, .sshrW].map
      (fun mk => mk { e := 1, s := 1, g := 2, d := 5, a := 6, b := 7 }) := by decide +kernel
/-- The W-I and W-B maps (R85, R88, R89): d5 9, imm18 0x2ABCD, E 1; YIELD has neither. -/
theorem test_decode_wi : ([40, 41, 42, 43, 44, 45, 48, 49, 50, 51, 53, 54, 55].map fun k =>
      decodeW (BitVec.ofNat 32 (0xAAF3404D + 0x100 * k))) =
    [Instr.moviW, .smoviW, .iaddi, .saddi, .movhiW, .smovhi, .braW, .loopW, .callW, .waitcW, .exitW, .rcvW, .divW].map
      (fun mk => mk { imm := 0x2ABCD, d5 := 9, e := 1 }) ∧ decodeW 0x00003405 = .yieldW := by decide +kernel

/-- The worked words of the chapters: WAITC, LOOP, SMOVI, RCV and DIV of W. -/
theorem test_decode_worked_w :
    decodeW 0x00003305 = .waitcW { imm := 0, d5 := 0, e := 1 } ∧
    decodeW 0xFFEE71F5 = .loopW { imm := 0x3FFB9, d5 := 30, e := 1 } ∧
    decodeW 0x00002921 = .smoviW { imm := 0, d5 := 4, e := 0 } ∧
    decodeW 0x0000A945 = .smoviW { imm := 2, d5 := 8, e := 1 } ∧
    decodeW 0x0002B605 = .rcvW { imm := 10, d5 := 0, e := 1 } ∧
    decodeW 0x0001B70D = .divW { imm := 6, d5 := 1, e := 1 } := by decide +kernel
/-- The worked doublewords of the chapters, field by field. -/
theorem test_decode_worked_l :
    decodeL 0x000001F402D40003 = .stoq (lf 0 0 0 0 0xFA 1) ∧
    decodeL 0x88B00F0811300003 = .ld { lf 4 0 0x58 7 0x84 8 with h := 1 } ∧
    decodeL 0x00001A0105D0001B = .rdsr { lf 0 0 0 13 0 0x82 with s4 := 3 } ∧
    decodeL 0xE001D10504E0001B = .sadd { lf 7 0 0 0xE8 0x82 0x82 with s4 := 3 } ∧
    decodeL 0x00001B0401D10003 = .wrsr (lf 0 0 0 13 0x82 0) ∧
    decodeL 0x0000000001D20007 = .tret { lf 0 0 0 0 0 0 with e := 1 } ∧
    decodeL 0x0000010915B80007 = .launch { lf 0 0 0 0 0x84 0x8A with e := 1 } ∧
    decodeL 0x0000210B0DB90003 = .emit (lf 0 0 0 16 0x85 0x86) ∧
    decodeL 0x0002010915B00003 = .join (lf 0 0 1 0 0x84 0x8A) ∧
    decodeL 0x0000010C07BC0003 = .grow (lf 0 0 0 0 0x86 3) ∧
    decodeL 0x0000010E01BD0003 = .shrink (lf 0 0 0 0 0x87 0) ∧
    decodeL 0x0003C1C001B70007 = .ringf { lf 0 0 1 0xE0 0xE0 0 with e := 1 } := by decide +kernel
theorem test_decode_worked_m :
    decodeL 0x0000012005910003 = .mloop (lf 0 0 0 0 0x90 2) ∧
    decodeL 0x0085333001920003 = .mrd (lf 0 0 0x42 0x99 0x98 0) ∧
    decodeL 0x0E00011821920003 = .mrd { lf 0 3 0 0 0x8C 0x10 with h := 1 } ∧
    decodeL 0x00010D0801950003 = .seedld (lf 0 0 0 0x86 0x84 0) ∧
    decodeL 0x0001DB0801D40003 = .balloonGive (lf 0 0 0 0xED 0x84 0) ∧
    decodeL 0x000001C401D60003 = .memfsp (lf 0 0 0 0 0xE2 0) ∧
    decodeL 0x000001C401D50003 = .dieset (lf 0 0 0 0 0xE2 0) ∧
    decodeL 0x0006_01C1_11C1_0003 = .redw (lf 0 0 3 0 0xE0 0x88) ∧
    decodeL 0x0000_29C7_0DBE_0003 = .chsend (lf 0 0 0 0x14 0xE3 0x86) ∧
    decodeL 0x0000_0110_0175_0003 = .darn (lf 0 0 0 0 0x88 0) ∧
    decodeL 0x4001_C7C2_0888_0003 = .twid (lf 2 0 0 0xE3 0xE1 4) ∧
    decodeL 0x0600_0030_3086_0003 = .cexpi (lf 0 3 0 0 0x18 0x18) ∧
    decodeL 0x0000_0130_0171_0003 = .shutx (lf 0 0 0 0 0x98 0) ∧
    decodeL 0x6000_0005_2AB6_0003 = .vote (lf 3 0 0 0 2 0x95) ∧
    decodeL 0xA000_0F14_1931_0403 = .st { lf 5 0 0 7 0x8A 0x0C with g6 := 2 } ∧
    decodeL 0x2001_C20E_1337_0007 = .atoms { lf 1 0 0 0xE1 7 9 with e := 1 } ∧
    decodeL 0x0000_0918_0138_0003 = .sumx (lf 0 0 0 4 0x8C 0) := by decide +kernel
/-- And the encoder gives the same words. -/
theorem test_encode_worked :
    encodeWord (.ld { lf 4 0 0x58 7 0x84 8 with h := 1 }) = some (.l 0x88B00F0811300003) ∧
    encodeWord (.launch { lf 0 0 0 0 0x84 0x8A with e := 1 }) = some (.l 0x0000010915B80007) ∧
    encodeWord (.divW { imm := 6, d5 := 1, e := 1 }) = some (.w 0x0001B70D) ∧
    encodeWord (.faddH { e := 1, d := 3, b := 4 }) = some (.h 0x20E2) := by decide +kernel
/-- A truncated instruction is not decoded, and a halfword 0x0000 is ill-formed (R80, R84). -/
theorem test_decode_short : (match decode [0x11, 0xE8] with
    | .ok _ => false
    | .error e => e == .truncated 2 4) = true ∧ wellFormed (decodeH 0) = false := by decide +kernel

/-! One ill-formed term for each check on an encoding. -/

/-- A destination of a wrong class; a source, b, c of a wrong class (R92, R93). -/
theorem wf_class : wellFormed (.iadd (lf 0 0 0 16 8 0x84)) = false ∧ wellFormed (.iadd (lf 0 0 0 16 0xFF 4)) = false ∧
    wellFormed (.iadd (lf 0 0 0 0xD0 8 4)) = false ∧ wellFormed (.iadd (lf 0 0 1 16 8 4)) = false := by decide +kernel
/-- An odd pair, and scalars that run past s63 (R61, R152). -/
theorem wf_pair : wellFormed (.lea (lf 0 0 0 16 9 4)) = false ∧ wellFormed (.launch (lf 0 0 0 0 0x83 0x8A)) = false ∧
    wellFormed (.shut (lf 0 0 0 0 0xBC 0)) = false := by decide +kernel
/-- A type code that the entry does not list (R98, R99), and the extent of one that takes none (R96, R99). -/
theorem wf_type : wellFormed (.imulh (lf 4 0 0 16 8 4)) = false ∧ wellFormed (.icmp (lf 0 1 0 16 8 4)) = false := by
  decide +kernel
/-- An indirect operand with a block (R59), uniform execution with a block, or where it is not allowed (R58). -/
theorem wf_extent : wellFormed (.iadd (lf 0 1 0 0xC0 8 4)) = false ∧
    wellFormed (.iadd { lf 0 1 0 16 8 4 with u := 1 }) = false ∧ wellFormed (.iadd (lf 0 1 0 16 8 4)) = true := by decide +kernel
/-- A guard above q47, the guard !q0, and a guard where the entry takes none (R95, R137). -/
theorem wf_guard : wellFormed (.iadd { lf 0 0 0 16 8 4 with g6 := 48 }) = false ∧
    wellFormed (.iadd { lf 0 0 0 16 8 4 with gn := 1 }) = false ∧
    wellFormed (.ret { lf 0 0 0 0 0x88 0 with g6 := 1 }) = false := by decide +kernel
/-- An entry's own check: ORD with a reserved value, a release on a load, a FENCE scope of 6 (R194, R209). -/
theorem wf_entry : wellFormed (.ld (lf 4 0 0xC0 16 8 4)) = false ∧ wellFormed (.fence (lf 0 0 0x30 0 0 0)) = false ∧
    wellFormed (.rdsr (lf 0 0 0 17 0 4)) = false := by decide +kernel
/-- A literal number out of its range: a WAITC path of 6, a matrix tile of 16, LEA's shift of 8 (R159, R208, R351). -/
theorem wf_number : wellFormed (.waitc (lf 1 0 0 0 0 6)) = false ∧ wellFormed (.mclr (lf 0 0 0 0 0 16)) = false ∧
    wellFormed (.lea (lf 0 0 8 16 8 4)) = false := by decide +kernel
/-- The checks of the short formats (R84, R86 to R90). -/
theorem wf_short : wellFormed (.movH { b := 0, d := 0, e := 0 }) = false ∧ wellFormed (.icmpW (wr 7 6 48 0)) = false ∧
    wellFormed (.movW (wr 7 6 5 0)) = false ∧ wellFormed (.ldW (wr 7 5 5 0)) = false ∧
    wellFormed (.movhiW (wi 0x10000 4)) = false ∧ wellFormed (.callW (wi 6 1)) = false ∧
    wellFormed (.waitcW (wi 64 0)) = false ∧ wellFormed (.waitcW (wi 0 6)) = false ∧
    wellFormed (.exitW (wi 1 0)) = false ∧ wellFormed .encodingNotAnInstruction = false := by decide +kernel

/-! Witnesses: control, accesses and scratchpad. -/

/-- The placed state with another strand in place of its own. -/
def wst (st : Strand) : State := w0.putStrand 0 st
/-- The strand with one active thread. -/
def t1 : Strand := { t0 with mask := 1 }
/-- A guarded field record that admits no thread, q1 being clear. -/
def none1 (f : LFields) : LFields := { f with g6 := 1 }
/-- The same place in a kernel with TBL set, owning the core's tables, whose item holds tile 0; and its strand in a role. -/
def tr (r : Nat) : Strand := { t0 with role := r, s := [(10, 1), (18, 0x10001), (19, 16)] }
def wtab (st : Strand) : State :=
  ((wst st).modCore 0 0 fun c => { c with
    owner := some (0, 0), tiles := modAt c.tiles 0 fun q => { q with held := some (0, 0, 0) } }).modKernel 0 0 fun k =>
      { k with record := upd k.record 53 8 }

/-- The conditions that the tables add: targets that are good, and a divergence that has room. -/
theorem witness_brx : t0.brxOk (lf 0 0 0 0 0 0) 0xFFFF ∧ t0.brxOk (lf 0 0 0 0 0x88 0) 0xFFFF := by
  unfold Strand.brxOk
  rw [if_neg (by decide), if_pos (by decide)]
  have h : (brxPaths t0 0xFFFF (lf 0 0 0 0 0 0).a.toNat).length = 1 := by decide +kernel
  have g : (brxPaths t0 0xFFFF (lf 0 0 0 0 0 0).a.toNat).all (fun p => p.1.toNat % 2 == 0) = true := by decide +kernel
  exact ⟨⟨fun p hp => beq_iff_eq.mp (List.all_eq_true.mp g p hp), fun k => absurd h k⟩, by decide +kernel, by decide +kernel⟩
theorem witness_ret : goodTarget (t0.sget64 8) := ⟨by decide +kernel, by decide +kernel⟩
/-- A strand that a DIV on q1 splits into threads 0 to 7 and 8 to 15. -/
def tdiv : Strand := { t0 with rpcv := true, rpc := 0x20000, q := [(1, 0x00FF)] }
def fdiv : LFields := { lf 0 0 0 0 16 0 with g6 := 1 }
theorem witness_div : Passes (.divT fdiv) (rowOf (.divT fdiv)) fdiv (divPre fdiv) (wst tdiv) 0 tdiv ∧ tdiv.divOk fdiv 8 0xFFFF ∧
    tdiv.taken fdiv 0xFFFF ≠ 0 ∧ tdiv.notTaken fdiv 0xFFFF ≠ 0 :=
  ⟨passes_of (by decide +kernel), fun _ _ => by decide +kernel, by decide +kernel, by decide +kernel⟩
theorem witness_sldk : t0.sldkOffset (lf 6 0 0 16 136 132) % sldkBytes (lf 6 0 0 16 136 132) = 0 := by decide +kernel
/-- LACE in a kernel that uses tables. -/
theorem witness_lace : ∃ r, crossRow (.lace (lf 6 0 0 0 8 4)) = some r ∧
    Passes (.lace (lf 6 0 0 0 8 4)) r.sp r.f (r.pre (wtab (tr 0))) (wtab (tr 0)) 0 (tr 0) :=
  once_of (row := crossRow) (by decide +kernel)
/-- A guard that admits no thread. -/
theorem witness_none : Passes (.iadd (none1 (lf 0 0 0 16 8 4))) (rowOf (.iadd (none1 (lf 0 0 0 16 8 4)))) (none1 (lf 0 0 0 16 8 4)) noPre w0 0 t0 ∧
    t0.nowAdm (rowOf (.iadd (none1 (lf 0 0 0 16 8 4)))) (none1 (lf 0 0 0 16 8 4)) = 0 :=
  ⟨passes_of (by decide +kernel), by decide +kernel⟩

/-- EXIT, its W form, TRAP and BKPT. -/
theorem witness_exit : Passes (.exit (lf 0 0 0 0 0 0)) (rowOf (.exit (lf 0 0 0 0 0 0))) (lf 0 0 0 0 0 0) noPre w0 0 t0 :=
  passes_of (by decide +kernel)
theorem witness_exitW : Passes (.exitW (wi 0 0)) (rowOf (.exit { WIFields.toL (wi 0 0) with g6 := 0 })) { WIFields.toL (wi 0 0) with g6 := 0 } noPre w0 0 t0 :=
  passes_of (by decide +kernel)
theorem witness_trap : Passes (.trap (lf 0 0 0 0x42 0 0)) (rowOf (.trap (lf 0 0 0 0x42 0 0))) (lf 0 0 0 0x42 0 0) noPre w0 0 t0 ∧
    t0.nowAdm (rowOf (.trap (lf 0 0 0 0x42 0 0))) (lf 0 0 0 0x42 0 0) ≠ 0 ∧ t0.canTrap w0 :=
  ⟨passes_of (by decide +kernel), by decide +kernel, rfl, by decide +kernel⟩
theorem witness_bkpt : Passes (.bkpt (lf 0 0 0 0 0 0)) (rowOf (.bkpt (lf 0 0 0 0 0 0))) (lf 0 0 0 0 0 0) noPre w0 0 t0 ∧
    t0.nowAdm (rowOf (.bkpt (lf 0 0 0 0 0 0))) (lf 0 0 0 0 0 0) ≠ 0 := ⟨passes_of (by decide +kernel), by decide +kernel⟩
/-- A strand in Handler, whose next trap is HFAULT. -/
def frame0 : Frame := { epc0 := 0x10000, emask0 := 0xFFFF, depth := 0, rpc := 0, rpcv := false, resume := none, firstOp := 0 }
theorem witness_nested : (wst { t0 with frame := some frame0 }).strand 0 = some { t0 with frame := some frame0 } ∧
    ({ t0 with frame := some frame0 } : Strand).frame.isSome = true := ⟨by decide +kernel, rfl⟩

/-! The counted accesses, each with one thread at an address of its own. -/

def accSamples : List Instr :=
  [.ld (lf 6 0 0 16 8 4), .st (lf 6 0 152 16 8 4), .atom (lf 0 0 152 16 8 4), .sumx (lf 0 0 0 16 8 0),
   .sumrd (lf 0 0 0 0 8 4), .sumclr (lf 0 0 0 0 8 0), .ldW (wr 0 8 4 0), .stW (wr 0 8 4 0)]
def accFits (i : Instr) : Bool :=
  match accRow i with
  | some r => passesB i r.sp r.f noPre (wst t1) 0 t1 && (t1.nowAdm r.sp r.f == 1 && (decide (t1.cnt r.path < 63) && ((r.reg t1 0).isSome &&
      (r.addr t1 0 == 0 && ((wst t1).translate 0 0 0 (some 0) 0 r.need).2 == .ok 0 && (decide (0 < r.size) && decide (r.size ≤ 64))))))
  | none => false
theorem witness_acc_check : accSamples.all accFits = true := by decide +kernel
/-- A global access of thread 0 that is formed at address 0. -/
theorem formed_one (r : AccRow) (h0 : r.addr t1 0 = 0) (hr : (r.reg t1 0).isSome = true) (hs : 0 < r.size) (hz : r.size ≤ 64)
    (hx : ((wst t1).translate 0 0 0 (some 0) 0 r.need).2 = .ok 0) : ∃ s1 a, r.Formed t1 [0] (wst t1) s1 [a] := by
  obtain ⟨n, hn⟩ := Option.isSome_iff_exists.mp hr
  refine ⟨((wst t1).translate 0 0 0 (some 0) 0 r.need).1,
    { thread := 0, win := .glob, va := 0, pa := 0, size := r.size, reg := n, data := r.data t1 0, data2 := r.data2 t1 0, done := false },
    AccRow.Formed.one ⟨rfl, by rw [h0]; rfl, rfl, hn, ⟨rfl, rfl, rfl⟩, 0, ?_, fun _ => Prod.ext rfl hx, fun h => absurd rfl h⟩ (AccRow.Formed.none _)⟩
  rw [h0]
  exact InWindow.glob (by show (0 : Nat) + _ ≤ _; omega) (Nat.zero_mod _) (by decide)
/-- AccessSays: for every counted access a state in which its hypotheses hold. -/
theorem witness_acc : ∀ i ∈ accSamples, ∃ r, accRow i = some r ∧ Passes i r.sp r.f noPre (wst t1) 0 t1 ∧
    t1.nowAdm r.sp r.f = 1 ∧ t1.cnt r.path < 63 ∧ ∃ s1 a, r.Formed t1 (r.accessors 1) (wst t1) s1 [a] := by
  intro i hi
  have h := List.all_eq_true.mp witness_acc_check i hi
  unfold accFits at h
  cases hr : accRow i with
  | none => rw [hr] at h; cases h
  | some r =>
    rw [hr] at h
    simp only [Bool.and_eq_true, beq_iff_eq, decide_eq_true_eq] at h
    obtain ⟨h1, h2, h3, h4, ⟨h5, h6⟩, h7, h8⟩ := h
    refine ⟨r, rfl, passes_of h1, h2, h3, ?_⟩
    have e : r.accessors 1 = [0] := by
      unfold AccRow.accessors
      split
      · decide
      · decide
    rw [e]
    exact formed_one r h5 h4 h7 h8 h6

/-! Witnesses: scratchpad, lace table, prefetch, WAITC and FENCE. -/

def padSamples : List Instr :=
  [.lds (lf 6 0 0 16 8 4), .sts (lf 6 0 0 16 8 4), .atoms (lf 0 0 0 16 8 4), .ldt (lf 4 0 0 144 136 4),
   .stt (lf 4 0 0 144 136 4), .ldsW (wr 16 8 4 0), .stsW (wr 16 8 4 0)]
/-- Each scratchpad instruction passes its checks with one thread, none of whose accesses is outstanding. -/
theorem witness_pad_check : (padSamples.all fun i => match padRow i with
    | some r => passesB i r.sp r.f r.pre (wst t1) 0 t1 && t1.nowAdm r.sp r.f == 1
    | none => false) = true := by decide +kernel
theorem witness_pad_idle : t1.scrBusy 0 (2 ^ 32) = false ∧ t1.acqBusy = false := ⟨by decide +kernel, by decide +kernel⟩
/-- And its one access, at offset 0, is accepted. -/
theorem witness_pad_fits : (ldsRow (lf 6 0 0 16 8 4) 8).AllFit t1 ((ldsRow (lf 6 0 0 16 8 4) 8).steps t1 1 1) (wst t1, t1) ∧
    (stsRow (lf 6 0 0 16 8 4) 8).AllFit t1 ((stsRow (lf 6 0 0 16 8 4) 8).steps t1 1 1) (wst t1, t1) ∧
    (atomsRow (lf 0 0 0 16 8 4)).AllFit t1 ((atomsRow (lf 0 0 0 16 8 4)).steps t1 1 1) (wst t1, t1) ∧
    (ldsRow (wrMem (wr 16 8 4 0)) 4).AllFit t1 ((ldsRow (wrMem (wr 16 8 4 0)) 4).steps t1 1 1) (wst t1, t1) ∧
    (stsRow (wrMem (wr 16 8 4 0)) 4).AllFit t1 ((stsRow (wrMem (wr 16 8 4 0)) 4).steps t1 1 1) (wst t1, t1) := by
  refine ⟨⟨⟨?_, ?_, ?_⟩, trivial⟩, ⟨⟨?_, ?_, ?_⟩, trivial⟩, ⟨⟨?_, ?_, ?_⟩, trivial⟩, ⟨⟨?_, ?_, ?_⟩, trivial⟩, ⟨⟨?_, ?_, ?_⟩, trivial⟩⟩ <;>
    first | (unfold Strand.padRegs; decide +kernel) | decide +kernel
theorem witness_rect : rectFits (lf 4 0 0 144 136 4) (wst t1) t1 :=
  ⟨by decide +kernel, by decide +kernel, by decide +kernel⟩

theorem witness_laceld : Passes (.laceld (lf 0 0 0 0 136 4)) (rowOf (.laceld (lf 0 0 0 0 136 4))) (lf 0 0 0 0 136 4)
      (tablePre (wtab t0)) (wtab t0) 0 t0 ∧
    t0.nowAdm (rowOf (.laceld (lf 0 0 0 0 136 4))) (lf 0 0 0 0 136 4) ≠ 0 ∧
    (t0.sval 136).toNat + 128 ≤ (wtab t0).scrSize t0 ∧ (t0.sval 136).toNat % 128 = 0 :=
  ⟨passes_of (by decide +kernel), by decide +kernel, by decide +kernel, by decide +kernel⟩
theorem witness_pref : Passes (.pref (lf 0 0 0 16 8 0)) (rowOf (.pref (lf 0 0 0 16 8 0))) (lf 0 0 0 16 8 0) noPre w0 0 t0 :=
  passes_of (by decide +kernel)

/-- An operation in flight on a path. -/
def opAt (n path : Nat) (k : OpKind) (accs : List Acc) : Op :=
  { id := n, path := path, pc := 0x10000, die := 0, core := 0, mask := 1, kind := k, accs := accs, dests := [], fin := false,
    err := none, bad := 0, badCause := .uncorr, replies := [], applied := [], prog := 0, bits := 0,
    staged := [], parked := false }
def plainOrd : OrdInfo := { acq := false, rel := false, acked := false, scope := 0, rmt := false, hint := 0 }
/-- One thread's access of 4 bytes at an address that its page maps to itself. -/
def accAt (a : Nat) : Acc :=
  { thread := 0, win := .glob, va := a, pa := a, size := 4, reg := 4, data := 7, data2 := 0, done := false }
/-- The strand with one operation in flight. -/
def t0With (o : Op) : Strand := { t0 with ops := [o], nextOp := 1, c := cput [] o.path 1 }
def storeOp : Op := opAt 0 1 (.store plainOrd) [accAt 0x3000]

/-- WAITC at its threshold, with an engine error of its path, and above its threshold; the W form. -/
def fwait : LFields := lf 1 0 0 0 0 1
def eng1 : EngErr := { path := 1, cause := .uncorr, pc := 0, va := 0, time := 0 }
theorem witness_waitc : Passes (.waitc fwait) (rowOf (.waitc fwait)) fwait noPre w0 0 t0 ∧ waitcRow t0 (.waitc fwait) = some (fwait, 8, 0) ∧
    t0.cnt fwait.d.toNat ≤ 0 ∧ t0.engErrs = [] := ⟨passes_of (by decide +kernel), rfl, by decide +kernel, rfl⟩
theorem witness_waitc_error : Passes (.waitc fwait) (rowOf (.waitc fwait)) fwait noPre (wst { t0 with engErrs := [eng1] }) 0 { t0 with engErrs := [eng1] } ∧
    eng1.path = fwait.d.toNat ∧ ({ t0 with engErrs := [eng1] } : Strand).canTrap (wst { t0 with engErrs := [eng1] }) :=
  ⟨passes_of (by decide +kernel), by decide +kernel, rfl, by decide +kernel⟩
theorem witness_waitc_above : Passes (.waitc fwait) (rowOf (.waitc fwait)) fwait noPre (wst (t0With storeOp)) 0 (t0With storeOp) ∧
    0 < (t0With storeOp).cnt fwait.d.toNat := ⟨passes_of (by decide +kernel), by decide +kernel⟩
theorem witness_waitcW : waitcRow t0 (.waitcW (wi 0 0)) = some ({ WIFields.toL (wi 0 0) with m3 := 1, d := 0, b := 0 }, 4, 0) ∧
    Passes (.waitcW (wi 0 0)) (rowOf (.waitc { WIFields.toL (wi 0 0) with m3 := 1, d := 0, b := 0 })) { WIFields.toL (wi 0 0) with m3 := 1, d := 0, b := 0 } noPre w0 0 t0 :=
  ⟨rfl, passes_of (by decide +kernel)⟩

/-- FENCE that may complete, and one that a store in flight holds back. -/
def ffence : LFields := lf 2 0 0x20 0 0 0
theorem witness_fence : Passes (.fence ffence) (rowOf (.fence ffence)) ffence noPre w0 0 t0 ∧
    t0.nowAdm (rowOf (.fence ffence)) ffence ≠ 0 ∧ w0.fenceReady t0 2 4 = true :=
  ⟨passes_of (by decide +kernel), by decide +kernel, by decide +kernel⟩
theorem witness_fence_wait : Passes (.fence ffence) (rowOf (.fence ffence)) ffence noPre (wst (t0With storeOp)) 0 (t0With storeOp) ∧
    (wst (t0With storeOp)).fenceReady (t0With storeOp) 2 4 = false := ⟨passes_of (by decide +kernel), by decide +kernel⟩

/-! Witnesses: engine commands and the sequencer. -/

/-- Each engine command that passes its checks and is accepted, with a strand of the C role. -/
theorem witness_eng : ([Instr.shut (lf 0 0 0 0 160 0), .shutx (lf 0 0 0 0 160 0), .dtld (lf 0 0 0 0 136 4), .decode (lf 0 0 0 0 136 0),
      .fetchf (lf 0 0 0 144 8 4)].all fun i => match engRow i with
    | some r => passesB i (rowOf i) r.f (fun u m => if m = 0 then none else r.pre (wtab (tr 2)) u) (wtab (tr 2)) 0 (tr 2) &&
        (decide ((tr 2).nowAdm (rowOf i) r.f ≠ 0) && ((r.stop (wtab (tr 2)) (tr 2)).isNone && !(tr 2).full r.path))
    | none => false) = true := by decide +kernel
/-- SHUT whose destination is the B-slice. -/
def tbad : Strand := { tr 2 with s := [(11, 0xFFFD0000)] }
theorem witness_eng_stop : (match engRow (.shut (lf 0 0 0 0 136 0)) with
    | some r => passesB (.shut (lf 0 0 0 0 136 0)) (rowOf (.shut (lf 0 0 0 0 136 0))) r.f
        (fun u m => if m = 0 then none else r.pre (wtab tbad) u) (wtab tbad) 0 tbad &&
        ((r.stop (wtab tbad) tbad).isSome && decide (tbad.frame = none ∧ ((wtab tbad).ctx 0).tvec ≠ 0))
    | none => false) = true := by decide +kernel
/-- Each sequencer operation, with a strand of the M role. -/
theorem witness_seq : ([Instr.mclr (lf 2 0 24 16 0 0), .mloop (lf 0 0 0 0 160 0), .mrd (lf 0 0 0 0 160 4), .mbld (lf 0 0 0 144 160 164),
      .mtwid (lf 0 0 1 0 0 164), .seedscan (lf 0 0 0 0 136 0), .seeddrop (lf 0 0 0 0 136 0)].all fun i => match seqRow i with
    | some r => passesB i (rowOf i) r.f (fun u m => if m = 0 then none else r.pre (wtab (tr 1)) u) (wtab (tr 1)) 0 (tr 1) &&
        (decide ((tr 1).nowAdm (rowOf i) r.f ≠ 0) && ((r.stop (wtab (tr 1)) (tr 1)).isNone &&
          (decide (((wtab (tr 1)).core 0 0).seq.length < 16) && !(tr 1).full 3)))
    | none => false) = true := by decide +kernel
theorem witness_seq_mine : ∀ k, ((wtab (tr 1)).tile (tr 1) 0).held = some k → k = ((tr 1).ctx, (tr 1).kid, (tr 1).iid) := by
  intro k hk
  have e : ((wtab (tr 1)).tile (tr 1) 0).held = some (0, 0, 0) := by decide +kernel
  rw [e] at hk; exact (Option.some.inj hk).symm
/-- MBLD beyond the scratchpad. -/
def tfar : Strand := { tr 1 with s := [(32, 0x2000)] }
theorem witness_seq_stop : (match seqRow (.mbld (lf 0 0 0 144 160 164)) with
    | some r => passesB (.mbld (lf 0 0 0 144 160 164)) (rowOf (.mbld (lf 0 0 0 144 160 164))) r.f
        (fun u m => if m = 0 then none else r.pre (wtab tfar) u) (wtab tfar) 0 tfar &&
        r.stop (wtab tfar) tfar == some .window
    | none => false) = true := by decide +kernel

/-- Operations at work. -/
def shutD : ShutDesc :=
  { src := 0x3000, dst := 0xFFFE000000000000, rows := 1, cols := 4, spitch := 0, dpitch := 0, hint := 0, turn := false, esz := 4,
    planes := 1, spp := 0, dpp := 0, conv := 0 }
theorem works_of {s : State} {id n : Nat} {st : Strand} {o : Op} (h1 : s.strand id = some st) (h2 : st.op n = some o)
    (h3 : (!o.fin && (!o.parked && (st.resident && ((st.earlier n).all (fun e => !(e.isAccess && e.unperformed)) && (!s.engWaits st.ctx id n &&
      (st.marks.isEmpty && (decide (st.run ≠ .draining) && decide (o.bad = 0)))))))) = true) : Works s id n st o := by
  simp only [Bool.and_eq_true, List.all_eq_true, Bool.not_eq_true', List.isEmpty_iff, decide_eq_true_eq, Bool.and_eq_false_iff] at h3
  obtain ⟨a, k, b, c, d, e, f, g⟩ := h3
  exact ⟨h1, h2, a, k, b, fun x hx hy => (c x hx).resolve_left (by rw [hy]; decide), d, e, f, g⟩
def tshut : Strand := t0With (opAt 0 2 (.shut shutD) [])
/-- The strand's shuttle operation is the core's only one. -/
def wshut (st : Strand) : State := (wst st).modCore 0 0 fun c => { c with shutq := [(0, 0)] }
/-- ShuttleSays: the shuttle works on it, moves no row yet, moves the last one, and may end. -/
theorem witness_shuttle : Works (wshut tshut) 0 0 tshut (opAt 0 2 (.shut shutD) []) ∧ (0, 0) ∈ (wshut tshut).inShuttles 0 0 ∧
    (match (wshut tshut).shutRun tshut shutD (opAt 0 2 (.shut shutD) []) 0 with
      | (_, _, k, r) => r.isNone && decide (k < shutD.count)) = true ∧
    (match (wshut tshut).shutRun tshut shutD (opAt 0 2 (.shut shutD) []) 9 with
      | (s1, l, k, r) => r.isNone && (decide (shutD.count ≤ k) && match (s1.engKeep 0 0 k 0 l).strand 0 with
        | some u => u.marks.isEmpty && (u.run != .draining && match u.op 0 with
          | some p => p.bad == 0
          | none => true)
        | none => false)) = true :=
  ⟨works_of (by decide +kernel) (by decide +kernel) (by decide +kernel), by decide +kernel, by decide +kernel, by decide +kernel⟩
/-- A shuttle whose page is missing. -/
def shutFar : ShutDesc := { shutD with src := 0x40000000 }
def tfarS : Strand := t0With (opAt 0 2 (.shut shutFar) [])
/-- The second gibibyte is a leaf that is not present. -/
def wpage : State := (wst tfarS).homePuts 0x2008 [4] 0
theorem witness_shuttle_page : (match (wpage.shutRun tfarS shutFar (opAt 0 2 (.shut shutFar) []) 1).2.2.2 with
    | some (.page _) => true
    | _ => false) = true := by decide +kernel
def tdtld : Strand := t0With (opAt 0 4 (.dtld 0 1 0x3000) [])
theorem witness_dtld : Works (wtab tdtld) 0 0 tdtld (opAt 0 4 (.dtld 0 1 0x3000) []) ∧
    (((wtab tdtld).core 0 0).dslot 0).loaded + 1 = 1 ∧ (wtab tdtld).olderDecode 0 0 0 1 = false ∧
    (match (wtab tdtld).imageRead tdtld 0x3000 with
      | (s1, .ok _) => s1.strand 0 == some tdtld
      | _ => false) = true :=
  ⟨works_of (by decide +kernel) (by decide +kernel) (by decide +kernel), by decide +kernel, by decide +kernel, by decide +kernel⟩
def decD : DecDesc := { src := 0x3000, boff := 0, doff := 0, n := 0, slot := 0, stat := 8, version := 0 }
def tdec : Strand := t0With (opAt 0 4 (.decode decD) [])
def wdec : State := (wtab tdec).modCore 0 0 fun c => { c with dslots := modAt c.dslots 0 fun q => { q with image := some (List.replicate 16 0) } }
theorem witness_decode : Works wdec 0 0 tdec (opAt 0 4 (.decode decD) []) ∧
    decD.version ≤ ((wdec.core 0 0).dslot 0).loaded ∧ ((wdec.core 0 0).dslot 0).image = some (List.replicate 16 0) ∧
    (match wdec.decodeRun tdec (List.replicate 16 0) decD 0 { bit := 0, count := 0, invalid := false } with
      | (s1, p, r) => r.isNone && (!p.invalid && (decide (decD.n ≤ p.count) && (s1.engKeep 0 0 p.count 0 []).strand 0 == some tdec))) = true :=
  ⟨works_of (by decide +kernel) (by decide +kernel) (by decide +kernel), by decide +kernel, by decide +kernel, by decide +kernel⟩
def texD : TexDesc := { base := 0x3000, ht := 1, wd := 1, amv := 0, amu := 0, levels := 1, tfmt := 0, pitch := 4, tri := false }
def texIn : List (List Nat) := List.replicate 16 (List.replicate 6 0)
def tfet (u : Bool) : Strand := t0With (opAt 0 0 (.fetchf texD 4 8 u texIn) [])
theorem witness_fetchf : Works (wst (tfet true)) 0 0 (tfet true) (opAt 0 0 (.fetchf texD 4 8 true texIn) []) ∧
    Works (wst (tfet false)) 0 0 (tfet false) (opAt 0 0 (.fetchf texD 4 8 false texIn) []) ∧
    (match (wst (tfet true)).sample (tfet true) texD (nth [] texIn 0) with
      | (_, .ok _) => true
      | _ => false) = true ∧
    (match sampleAll texD 4 texIn [0] (wst (tfet false)) (tfet false) with
      | (_, .ok _) => true
      | _ => false) = true :=
  ⟨works_of (by decide +kernel) (by decide +kernel) (by decide +kernel), works_of (by decide +kernel) (by decide +kernel) (by decide +kernel),
    by decide +kernel, by decide +kernel⟩

/-- Sequencer operations at the head of a queue. -/
def matAt (k : MatKind) : MatOp :=
  { strand := 0, opId := 0, ctx := 0, kid := 0, iid := 0, pc := 0x10000, mask := 0xFFFF, rs := none, fmt := 0, kind := k, started := true,
    hit := false, step := 0, pass := 0, flags := flagNone, err := none, caps := k.slots, capCore := 0 }
def wseq (o : MatOp) : State :=
  (wst (t0With (opAt 0 3 .matrix []))).modCore 0 0 fun c => { c with seq := [o] }
def loopD (mode : Nat) : LoopDesc :=
  { mode := mode, aoff := 0, ainc := 0, boff := 0, binc := 0, apitch := 32, steps := 1, asoff := 0, asinc := 0, bsinc := 0, bsoff := 0,
    aw := 0, bw := 0, xa := 0, xb := 0, keep := none, recs := [] }
theorem witness_seqStart : (((wseq { matAt (.seeddrop 1) with started := false }).core 0 0).seq = [{ matAt (.seeddrop 1) with started := false }]) ∧
    (((wseq { matAt (.mbld 0 0 64) with started := false }).core 0 0).seq = [{ matAt (.mbld 0 0 64) with started := false }]) ∧
    (wseq { matAt (.mbld 0 0 64) with started := false }).opHeld { matAt (.mbld 0 0 64) with started := false } = false :=
  ⟨by decide +kernel, by decide +kernel, by decide +kernel⟩
/-- The core has kept the fragment of A that a loop's first step reads. -/
def tloop : Strand := t0With (opAt 0 3 .matrix [])
def loopK : MatOp := { matAt (.mloop 0 0 0 { loopD 0 with keep := some false }) with started := false }
def wkept : State := (wseq loopK).modCore 0 0 fun x => { x with
  kept := some ((wseq loopK).fragmentAt x tloop { loopD 0 with keep := some false } false 0) }
theorem witness_kept : wkept.strand 0 = some tloop ∧ wkept.keptHit (wkept.core 0 0) tloop { loopD 0 with keep := some false } = true ∧
    wkept.opHeld loopK = false ∧ (wkept.core 0 0).seq = [loopK] ∧
    ((wkept.core 0 0).kept.map fun q => (q.off, q.inB, decide (2 ≤ q.bytes.length))) = some (0, false, true) := by decide +kernel
def kseed : State := ((wst t0).modKernel 0 0 fun k => { k with seeds := [(3, 0x7000)] }).modCore 0 0 fun c => { c with
  seeds := [(3, { owner := (0, 0), src := 0x7000, retiring := false, captures := 0 })] }
theorem witness_seedDrop : (kseed.kernel 0 0).map (fun k => tget k.seeds 3) = some (some 0x7000) ∧
    (tget (kseed.core 0 0).seeds 3).map (fun q => (q.owner, q.retiring)) = some ((0, 0), false) := ⟨by decide +kernel, by decide +kernel⟩
theorem witness_loopStep : ((wseq (matAt (.mloop 0 0 0 (loopD 0)))).core 0 0).seq = [matAt (.mloop 0 0 0 (loopD 0))] ∧
    ((wseq (matAt (.mloop 0 0 0 (loopD 0)))).strand 0).isSome = true ∧ (0 : Nat) < (loopD 0).steps ∧
    0 < ((wseq (matAt (.mloop 0 0 0 (loopD 0)))).core 0 0).tiles.length := ⟨by decide +kernel, by decide +kernel, by decide, by decide +kernel⟩
theorem witness_matrixDone : ((wseq (matAt (.mbld 0 0 64))).core 0 0).seq = [matAt (.mbld 0 0 64)] ∧
    (wseq (matAt (.mbld 0 0 64))).strand 0 = some (t0With (opAt 0 3 .matrix [])) ∧
    (((wseq (matAt (.mbld 0 0 64))).matEffect 0 0 (t0With (opAt 0 3 .matrix [])) (matAt (.mbld 0 0 64))).1.strand 0) =
      some (t0With (opAt 0 3 .matrix [])) := ⟨by decide +kernel, by decide +kernel, by decide +kernel⟩
theorem witness_matrixErr : ((wseq { matAt (.mbld 0 0 64) with err := some .uncorr }).core 0 0).seq =
    [{ matAt (.mbld 0 0 64) with err := some .uncorr }] := by decide +kernel
theorem witness_mrd : (wseq (matAt (.mrdReg 0 0 0 0 0 0 4 8 4 false))).strand (matAt (.mrdReg 0 0 0 0 0 0 4 8 4 false)).strand =
    some (t0With (opAt 0 3 .matrix [])) := by decide +kernel

/-- A well-formed seed record: shape 0, J 1, and zeros; and a placed state with one at 0x3000. -/
def seedRec : List Byte := upd (List.replicate 96 0) 1 1
def wrec (st : Strand) : State := (wst st).homePuts 0x3000 seedRec 0
def tseed : Strand := { tr 1 with s := [(8, 0x3000)] }
def fseed : LFields := lf 0 0 0 144 136 0
theorem witness_seedld : Passes (.seedld fseed) (rowOf (.seedld fseed)) fseed (fun u m => if m = 0 then none else slotPre fseed.b u) (wst tseed) 0 tseed ∧
    tseed.nowAdm (rowOf (.seedld fseed)) fseed ≠ 0 ∧ (tseed.sget64 8).toNat = 0x3000 ∧ tseed.full 3 = false ∧ tseed.accPending = false :=
  ⟨passes_of (by decide +kernel), by decide +kernel, by decide +kernel, by decide +kernel, by decide +kernel⟩
/-- The record read: well-formed, and malformed; the slot may be written, or is Valid with it from the same place. -/
def wvalid : State := (wrec tseed).seedPut 0 0 (0, 0) 0 0x3000 seedRec
theorem witness_seedld_read : Passes (.seedld fseed) (rowOf (.seedld fseed)) fseed (fun u m => if m = 0 then none else slotPre fseed.b u) (wrec tseed) 0 tseed ∧
    (match (wrec tseed).seedRead tseed 0x3000 6 with
      | (s1, .ok bs) => seedOk bs && (!(s1.core 0 0).seedValid (0, 0) 0 && (!s1.seedHeld 0 0 (0, 0) 0 && s1.seedTurn 0 0 0 [0]))
      | _ => false) = true ∧
    (match (wst tseed).seedRead tseed 0x3000 6 with
      | (_, .ok bs) => !seedOk bs
      | _ => false) = true ∧
    (match wvalid.seedRead tseed 0x3000 6 with
      | (s1, .ok bs) => (s1.core 0 0).seedValid (0, 0) 0 && ((s1.core 0 0).seedBytes 0 == bs && (tget (s1.core 0 0).seeds 0).map (·.src) == some 0x3000)
      | _ => false) = true :=
  ⟨passes_of (by decide +kernel), by decide +kernel, by decide +kernel, by decide +kernel⟩
theorem witness_seedRemote : (let o := opAt 0 3 (.seedld 3 0x3000 seedRec) []
    (wrec (t0With o)).strand 0 = some (t0With o) ∧ (0, 0) ∈ (wrec (t0With o)).seedLeft (0, 0) 3 o.replies ∧
      (wrec (t0With o)).linkSlow o.die 0 = false ∧ (wrec (t0With o)).linkDead o.die 0 = false ∧ seedRec.length = 96 ∧
      (match (wrec (t0With o)).reloadRead { load := some (0, 0), ctx := 0, kid := 0, iid := 0, sid := 0, die := 0, core := 0 } 3 0x3000 with
        | .put bs => bs == seedRec
        | _ => false) = true) := by
  decide +kernel

/-! Witnesses: performing accesses. -/

theorem witness_loadWords : (4 : Nat) < 7 ∧ ([1, 2, 3, 4] : List Byte).length = loadSize 4 := by decide
theorem witness_atomNew : (5 : Nat) < 2 ^ 32 ∧ (2 ^ 64 - 1 : Nat) < 2 ^ 64 := by decide
/-- A strand with one operation that may be performed, and the operation. -/
theorem may_of {s : State} {id n : Nat} {st : Strand} {o : Op} (h1 : s.strand id = some st) (h2 : st.op n = some o)
    (h3 : (!o.fin && (st.resident && (o.accs.all (fun a => !waitsFor (st.earlier n) o.kind o.kind.isAccess a && decide (a.thread < 16)) &&
      (st.marks.isEmpty && (decide (st.run ≠ .draining) && decide (o.bad = 0)))))) = true) : MayPerform s id n st o := by
  simp only [Bool.and_eq_true, List.all_eq_true, Bool.not_eq_true', List.isEmpty_iff, decide_eq_true_eq] at h3
  obtain ⟨a, b, c, d, e, f⟩ := h3
  exact ⟨h1, h2, a, b, fun x hx => (c x hx).1, fun x hx => (c x hx).2, d, e, f⟩
def loadOp (rmt : Bool) : Op := opAt 0 0 (.load 4 false { plainOrd with acq := rmt, rmt := rmt, scope := 4 }) [accAt 0x3000]
def tload : Strand := t0With (loadOp false)
/-- The machine once the event's lines are replaced and what an acquire asks is answered. -/
def loadAt : State := ((wst tload).evictAll 0 0 []).promoteAccs 0 (loadOp false).kind.ordInfo [accAt 0x3000]
theorem witness_loadReturn : (wst tload).strand 0 = some tload ∧ tload.op 0 = some (loadOp false) ∧ tload.resident = true ∧
    tload.marks = [] ∧ tload.run ≠ .draining ∧ waitsFor (tload.earlier 0) (loadOp false).kind true (accAt 0x3000) = false ∧
    ((loadOp false).accs.filter fun a => !a.done && (false || a.thread == 0)) = [accAt 0x3000] ∧
    loadAt.promotedAccs 0 (loadOp false).kind.ordInfo [accAt 0x3000] = true ∧ loadAt.readHeld 0 0 0x3000 4 = false ∧
    (loadAt.accAcquire tload (loadOp false).kind.ordInfo).coreBads 0 0 0x3000 4 = none := by
  decide +kernel
/-- The same acquire with .rmt, which every core has answered. -/
def rmtOp : Op := { loadOp true with replies := List.range 16 }
theorem witness_loadReturn_rmt : (wst (t0With rmtOp)).answered rmtOp = true ∧
    (((wst (t0With rmtOp)).evictAll 0 0 []).promoteAccs 0 rmtOp.kind.ordInfo [accAt 0x3000]).promotedAccs 0 rmtOp.kind.ordInfo
      [accAt 0x3000] = true := by decide +kernel
theorem witness_store : MayPerform (wst (t0With storeOp)) 0 0 (t0With storeOp) storeOp ∧
    (wst (t0With storeOp)).relWaits (t0With storeOp) storeOp.kind = false ∧ (wst (t0With storeOp)).regionOf 0x3000 = none ∧
    (storeOp.accs.all fun a => !(wst (t0With storeOp)).storeHeld (t0With storeOp) plainOrd a) = true ∧
    (wst (t0With storeOp)).lostStore storeOp.accs = none ∧ 0 < (wst (t0With storeOp)).dies.length ∧
    0 < ((wst (t0With storeOp)).die 0).cores.length :=
  ⟨may_of (by decide +kernel) (by decide +kernel) (by decide +kernel), by decide +kernel, by decide +kernel, by decide +kernel, by decide +kernel,
    by decide +kernel, by decide +kernel⟩
/-- A releasing store. -/
def relOp : Op := opAt 0 1 (.store { plainOrd with rel := true, scope := 4 }) [accAt 0x3000]
theorem witness_store_release : MayPerform (wst (t0With relOp)) 0 0 (t0With relOp) relOp ∧ (t0With relOp).earlier 0 = [] ∧
    (relOp.accs.all fun a => !(wst (t0With relOp)).storeHeld (t0With relOp) { plainOrd with rel := true, scope := 4 } a) = true ∧
    (wst (t0With relOp)).relWaits (t0With relOp) relOp.kind = false :=
  ⟨may_of (by decide +kernel) (by decide +kernel) (by decide +kernel), by decide +kernel, by decide +kernel, by decide +kernel⟩
/-- Its request goes now. -/
theorem fresh_of {s : State} {id n : Nat} {st : Strand} {o : Op} (h : MayPerform s id n st o)
    (h2 : (o.applied.isEmpty && !s.replyLost id n) = true) : Fresh s id n st o := by
  simp only [Bool.and_eq_true, List.isEmpty_iff, Bool.not_eq_true'] at h2
  exact ⟨h, h2.1, h2.2⟩
def atomOp : Op := opAt 0 1 (.atom 0 0 false plainOrd) [accAt 0x3000]
def atomS1 : State := ((wst (t0With atomOp)).relDo (t0With atomOp) atomOp.kind).promoteAccs 0 plainOrd atomOp.accs
theorem witness_atom : Fresh (wst (t0With atomOp)) 0 0 (t0With atomOp) atomOp ∧
    (wst (t0With atomOp)).relWaits (t0With atomOp) atomOp.kind = false ∧ atomS1.promotedAccs 0 plainOrd atomOp.accs = true ∧
    (match atomS1.atomAll (t0With atomOp) 0 0 plainOrd [[accAt 0x3000]] with
      | some (_, _, m, _) => decide (m = 0)
      | none => false) = true ∧
    (match atomS1.atomApply (t0With atomOp) 0 0 plainOrd [accAt 0x3000] with
      | some (_, ts, _) => !ts.isEmpty
      | none => false) = true :=
  ⟨fresh_of (may_of (by decide +kernel) (by decide +kernel) (by decide +kernel)) (by decide +kernel), by decide +kernel, by decide +kernel,
    by decide +kernel, by decide +kernel⟩
/-- An operation whose update slice tile 14 of D0 has applied, and its reply on its way back with the old value 7. -/
def applied (o : Op) : Op := { o with applied := [(0, 14, 5)] }
def wreply (o : Op) : State := { wst (t0With (applied o)) with
  msgs := [{ id := 9, cls := 4, src := 14, dst := 0, seq := 0, body := .reply 0 0 [(0, 7)], status := 0, reissue := false }] }
theorem witness_atomReply : (wreply atomOp).strand 0 = some (t0With (applied atomOp)) ∧ (t0With (applied atomOp)).op 0 = some (applied atomOp) ∧
    (t0With (applied atomOp)).resident = true ∧ (wreply atomOp).replyLost 0 0 = false ∧ (applied atomOp).applied ≠ [] ∧
    (wreply atomOp).answer 0 (t0With (applied atomOp)) (applied atomOp) = some [(0, 7)] ∧ (t0With (applied atomOp)).marks = [] ∧
    (t0With (applied atomOp)).run ≠ .draining ∧ atomOp.bad = 0 ∧ atomOp.fin = false := by decide +kernel
theorem witness_atomBytes : (wst t0).heldFrom 0 (accAt 0x3000).pa = false ∧
    ((List.range 4).findSome? fun i => ((wst t0).flushRange 0 0 0x3000 4).readBadFrom 0 (0x3000 + i)) = none := by decide +kernel
def cellAcc : Acc := { accAt 0x3000 with size := 64 }
def sumOp (k : OpKind) : Op := opAt 0 5 k [cellAcc]
theorem witness_sum : (∀ k ∈ [OpKind.sumx 0, .sumclr, .sumrd 0 false false], Fresh (wst (t0With (sumOp k))) 0 0 (t0With (sumOp k)) (sumOp k)) ∧
    ([OpKind.sumx 0, .sumclr, .sumrd 0 false false].all fun k => match sumSteps 0 k [cellAcc] (wst (t0With (sumOp k)), t0With (sumOp k)) with
      | some (_, u) => u.op 0 == some (sumOp k) && (u.marks.isEmpty && decide (u.run ≠ .draining))
      | none => false) = true := by
  refine ⟨fun k hk => ?_, by decide +kernel⟩
  simp only [List.mem_cons, List.not_mem_nil, or_false] at hk
  obtain rfl | rfl | rfl := hk <;>
    exact fresh_of (may_of (by decide +kernel) (by decide +kernel) (by decide +kernel)) (by decide +kernel)
theorem witness_sum_held : (sumOp .sumclr).accs.all (fun a => !(wst t0).heldFrom 0 a.pa) = true ∧ (sumOp .sumclr).accs ≠ [] ∧
    (sumOp .sumclr).err = none := by decide +kernel
theorem witness_sumReply : (wreply (sumOp .sumclr)).strand 0 = some (t0With (applied (sumOp .sumclr))) ∧
    (t0With (applied (sumOp .sumclr))).op 0 = some (applied (sumOp .sumclr)) ∧ (applied (sumOp .sumclr)).kind.isSum = true ∧
    (wreply (sumOp .sumclr)).replyLost 0 0 = false ∧
    (wreply (sumOp .sumclr)).answer 0 (t0With (applied (sumOp .sumclr))) (applied (sumOp .sumclr)) = some [(0, 7)] := by decide +kernel
theorem witness_sumBytes : ((wst t0).flushRange 0 0 0x3000 64).cellBad 0 0x3000 = none ∧
    ((wst t0).flushRange 0 0 0x3000 64).linkDead 0 (homeDie 0x3000) = false := by decide +kernel
theorem witness_promotion : (wst (t0With (loadOp true))).strand 0 = some (t0With (loadOp true)) ∧
    ((t0With (loadOp true)).ops.find? fun o => o.isAccess && o.unperformed && o.kind.ordInfo.rmt) = some (loadOp true) ∧
    (wst (t0With (loadOp true))).computing 0 = true ∧ (loadOp true).replies.contains (16 * 0 + 3) = false ∧
    (wst (t0With (loadOp true))).linkSlow 0 0 = false ∧ (wst (t0With (loadOp true))).linkDead 0 0 = false := by decide +kernel
/-- In mode 1, with the link between D0 and D1 in a state. -/
def wmode (n : Nat) (st : Strand) : State := { ((wst st).modLink 0 fun _ => { state := n, fails := 0 }) with dsCur := 1 }
theorem witness_promotion_link : (wmode 3 (t0With (loadOp true))).computing 1 = true ∧ (wmode 3 t0).linkSlow 0 1 = true ∧
    (wmode 4 t0).linkSlow 0 1 = false ∧ (wmode 4 t0).linkDead 0 1 = true ∧ (wmode 2 t0).linkSlow 0 1 = false := by decide +kernel
theorem witness_promote : (w0.core 0 0).filterAny = false ∧ (w0.core 0 0).filter.contains 96 = false ∧
    ((w0.modCore 0 0 fun c => { c with filter := [96] }).core 0 0).filter.contains 96 = true := by decide +kernel
/-- A strand in a release FENCE, a held one, and one with a releasing store. -/
theorem witness_writeBack : ({ t0 with run := .waiting (.fence 1 4) 8 } : Strand).accPending = false ∧
    ({ t0 with hold := some (.emit (lf 0 0 0 16 0x85 0x86)) } : Strand).accPending = false ∧
    ((t0With relOp).ops.find? fun o => o.isAccess && o.unperformed && o.kind.releases && !o.kind.ordInfo.acked) = some relOp := by
  decide +kernel

/-! Witnesses: system instructions, groups, barriers, rings and growth. -/

def thand : Strand := { t0 with frame := some frame0, epc := 0x10000, emask := 0xFFFF }
theorem witness_tret : Passes (.tret (lf 0 0 0 0 0 0)) (rowOf (.tret (lf 0 0 0 0 0 0))) (lf 0 0 0 0 0 0) tretPre (wst thand) 0 thand ∧
    thand.nowAdm (rowOf (.tret (lf 0 0 0 0 0 0))) (lf 0 0 0 0 0 0) ≠ 0 ∧ thand.frame = some frame0 ∧ thand.epc.toNat < 2 ^ 48 ∧
    thand.epc.toNat % 2 = 0 ∧ thand.epc = frame0.epc0 ∧ ({ thand with epc := 0x10008 } : Strand).epc ≠ frame0.epc0 :=
  ⟨passes_of (by decide +kernel), by decide +kernel, rfl, by decide +kernel, by decide +kernel, by decide +kernel, by decide +kernel⟩
theorem witness_halt : Passes .halt specHalt (bareFields w0.curIr) noPre w0 0 t0 ∧ t0.nowAdm specHalt (bareFields w0.curIr) ≠ 0 ∧
    w0.boot.dbg = false ∧ t0.canTrap w0 := ⟨passes_of (by decide +kernel), by decide +kernel, by decide +kernel, rfl, by decide +kernel⟩
def wdbg (st : Strand) : State := { wst st with boot := { (wst st).boot with dbg := true } }
theorem witness_halt_dbg : Passes .halt specHalt (bareFields (wdbg t0).curIr) noPre (wdbg t0) 0 t0 ∧ (wdbg t0).boot.dbg = true :=
  ⟨passes_of (by decide +kernel), by decide +kernel⟩
def thalt : Strand := { t0 with run := .waiting .halt 8 }
theorem witness_tapResume : (wdbg thalt).strand 0 = some thalt ∧ (wst thalt).strand 0 = some thalt ∧ (wst thalt).boot.dbg = false := by
  decide +kernel
theorem witness_illegal : w0.cur = some 0 ∧ w0.strand 0 = some t0 ∧ t0.canTrap w0 := ⟨rfl, by decide +kernel, rfl, by decide +kernel⟩
def ttim : Strand := { t0 with tarmed := true, tcmp := 5, tmr := 5, run := .waiting (.waitc 1 0) 8 }
theorem witness_timer : (wst ttim).strand 0 = some ttim ∧ ttim.resident = true ∧ ttim.tcmp.toNat ≤ ttim.tmr.toNat ∧ ttim.frame = none ∧
    ttim.run ≠ .faulted ∧ ttim.run ≠ .draining ∧ ({ ttim with tmr := 4 } : Strand).tmr.toNat < ttim.tcmp.toNat := by decide +kernel
def pend0 (re : Bool) : Pend := { info := { cause := if re then .uncorr else .timer, epc := 0x10000, emask := 3, detail := 0, eng := none }, reissue := re, op := 0 }
def tpend (re : Bool) : Strand := { t0 with pend := [pend0 re] }
theorem witness_asyncTrap : (wst (tpend true)).strand 0 = some (tpend true) ∧ (tpend true).run = .running ∧ (tpend true).resident = true ∧
    (tpend true).firstPend = some (pend0 true) ∧ (tpend false).firstPend = some (pend0 false) ∧ (tpend true).frame = none ∧
    ((wst (tpend true)).ctx 0).tvec ≠ 0 := by decide +kernel
def tspin : Strand := { t0 with spin := { Spin.empty with demoted := true } }
theorem witness_spin : (wst tspin).strand 0 = some tspin ∧ tspin.resident = true ∧
    tspin.spin.since + 4096 ≤ (((wst tspin).modDie 0 fun x => { x with clk := 4096 }).die 0).clk ∧
    (((wst tspin).modDie 0 fun x => { x with clk := 4095 }).die 0).clk < tspin.spin.since + 4096 := by decide +kernel

/-- JOIN s10, s4, 1 (R310) with no group, with a group of one other member, and with the slot taken. -/
def fjoin : LFields := lf 0 0 1 0 0x84 0x8A
theorem witness_join : Passes (.join fjoin) (rowOf (.join fjoin)) fjoin noPre w0 0 t0 ∧ t0.nowAdm (rowOf (.join fjoin)) fjoin ≠ 0 ∧
    (w0.findGroup 0 0).isNone = true ∧ nth none t0.slots 1 = none ∧ w0.heldGroups = [] ∧ (w0.die 0).groups.length < 2048 :=
  ⟨passes_of (by decide +kernel), by decide +kernel, by decide +kernel, by decide +kernel, by decide +kernel, by decide +kernel⟩
/-- A group with key 0 on D0 with the given members. -/
def wgroup (st : Strand) (members : List Nat) (arrived : List (Nat × Nat)) : State :=
  { ((wst st).modDie 0 fun x => { x with groups := [(7, { ctx := 0, key := 0, members := members, phase := 0, arrived := arrived })] }) with
    strands := [(0, st), (5, { t0 with run := .ready, loc := some { die := 0, core := 0, lane := 1, place := 0 } })] }
def tslot : Strand := { t0 with slots := [none, some 7, none, none] }
theorem witness_join_found : Passes (.join fjoin) (rowOf (.join fjoin)) fjoin noPre (wgroup t0 [5] []) 0 t0 ∧
    (((wgroup t0 [5] []).findGroup 0 0).map fun e => e.1) = some 0 ∧
    (distinct ((0, 0) :: (wgroup t0 [5] []).groupCores [7])).length ≤ 4 ∧
    Passes (.join fjoin) (rowOf (.join fjoin)) fjoin noPre (wgroup tslot [0, 5] []) 0 tslot ∧ (nth none tslot.slots 1).isSome = true :=
  ⟨passes_of (by decide +kernel), by decide +kernel, by decide +kernel, passes_of (by decide +kernel), by decide +kernel⟩
def fleave : LFields := lf 0 0 1 0 0 0
theorem witness_leave : Passes (.leave fleave) (rowOf (.leave fleave)) fleave noPre (wgroup tslot [0] []) 0 tslot ∧
    Passes (.leave fleave) (rowOf (.leave fleave)) fleave noPre (wgroup tslot [0, 5] []) 0 tslot ∧ nth none tslot.slots 1 = some 7 ∧
    ((wgroup tslot [0] []).groupOf 7).map (·.members) = some [0] ∧ ((wgroup tslot [0, 5] []).groupOf 7).map (·.members) = some [0, 5] :=
  ⟨passes_of (by decide +kernel), passes_of (by decide +kernel), by decide +kernel, by decide +kernel, by decide +kernel⟩

/-- BAR, BARA and BARW on slot 1: alone in its group the strand passes, with another member it waits, and an arrival already
made holds it. -/
def fbar : LFields := lf 0 0 1 0 0xE0 0
def fbara : LFields := lf 0 0 1 0 0xE0 0x8A
def fbarw : LFields := lf 0 0 1 0 0x84 0
theorem witness_bar : Passes (.bar fbar) (rowOf (.bar fbar)) fbar (barPre true fbar) (wgroup tslot [0] []) 0 tslot ∧
    Passes (.bara fbara) (rowOf (.bara fbara)) fbara (barPre true fbara) (wgroup tslot [0, 5] []) 0 tslot ∧
    Passes (.barw fbarw) (rowOf (.barw fbarw)) fbarw (barPre false fbarw) (wgroup tslot [0, 5] []) 0 tslot ∧
    (wgroup tslot [0, 5] []).relReady tslot 1 = true ∧
    (((wgroup tslot [0] []).relAct tslot 1).modGroup 7 fun x => Group.check { x with arrived := x.arrived ++ [(0, 0)] }).phaseDone tslot 1 0 = true ∧
    (((wgroup tslot [0, 5] []).relAct tslot 1).modGroup 7 fun x => Group.check { x with arrived := x.arrived ++ [(0, 0)] }).phaseDone tslot 1 0 = false ∧
    ((wgroup tslot [0, 5] [(0, 0)]).groupOf 7).map (·.arrived) = some [(0, 0)] ∧ phasePast 0 0 = false ∧ phasePast 1 0 = true :=
  ⟨passes_of (by decide +kernel), passes_of (by decide +kernel), passes_of (by decide +kernel), by decide +kernel, by decide +kernel,
    by decide +kernel, by decide +kernel, by decide, by decide⟩
theorem witness_barNone : Passes (.bar (none1 fbar)) (rowOf (.bar (none1 fbar))) (none1 fbar) (barPre true (none1 fbar)) (wgroup tslot [0] []) 0 tslot ∧
    Passes (.bara (none1 fbara)) (rowOf (.bara (none1 fbara))) (none1 fbara) (barPre true (none1 fbara)) (wgroup tslot [0] []) 0 tslot ∧
    Passes (.barw (none1 fbarw)) (rowOf (.barw (none1 fbarw))) (none1 fbarw) (barPre false (none1 fbarw)) (wgroup tslot [0] []) 0 tslot ∧
    tslot.nowAdm (rowOf (.bar (none1 fbar))) (none1 fbar) = 0 :=
  ⟨passes_of (by decide +kernel), passes_of (by decide +kernel), passes_of (by decide +kernel), by decide +kernel⟩

/-- The ring instructions on a control word at offset 0. -/
theorem witness_ring : ∀ i ∈ [Instr.ringp (lf 0 0 1 0xE0 0xE0 0), .ringpAfter (lf 1 0 1 0xE0 0xE0 2), .ringw (lf 1 0 1 0xE0 0xE0 0),
      .ringf (lf 0 0 1 0xE0 0xE0 0)], ∃ f, ringFields i = some f ∧ Passes i (rowOf i) f noPre w0 0 t0 ∧ t0.nowAdm (rowOf i) f ≠ 0 := by
  intro i hi
  simp only [List.mem_cons, List.not_mem_nil, or_false] at hi
  obtain rfl | rfl | rfl | rfl := hi <;> exact ⟨_, rfl, passes_of (by decide +kernel), by decide +kernel⟩
theorem witness_ring_place : (t0.sval 0xE0).toNat + 8 ≤ w0.scrSize t0 ∧ (t0.sval 0xE0).toNat % 8 = 0 ∧
    leVal (w0.scrGets t0 0 8) = 0 ∧ t0.accPending = false ∧ (t0With storeOp).accPending = true ∧
    w0.scrSize t0 < (({ t0 with s := [(4, 0x1000)] } : Strand).sval 0x84).toNat + 8 ∧ (({ t0 with s := [(4, 4)] } : Strand).sval 0x84).toNat % 8 ≠ 0 := by
  decide +kernel

/-- GROW and SHRINK: within the allocation, beyond it with room, and beyond it without. -/
def fgrow : LFields := lf 0 0 0 0 0x86 3
def tsmall (n : Nat) : Strand := { t0 with alloc := 64, s := [(6, BitVec.ofNat 32 n)] }
theorem witness_grow : Passes (.grow fgrow) (rowOf (.grow fgrow)) fgrow (allocPre fgrow) (wst (tsmall 48)) 0 (tsmall 48) ∧
    Passes (.grow fgrow) (rowOf (.grow fgrow)) fgrow (allocPre fgrow) (wst (tsmall 128)) 0 (tsmall 128) ∧
    (tsmall 128).nowAdm (rowOf (.grow fgrow)) fgrow ≠ 0 ∧ ((tsmall 48).sval 0x86).toNat ≤ 64 ∧ 64 < ((tsmall 128).sval 0x86).toNat ∧
    128 - 64 ≤ freeRef512 (wst (tsmall 128)) 0 0 0 ∧ tabAbove 0 (wst (tsmall 128)).strands = true :=
  ⟨passes_of (by decide +kernel), passes_of (by decide +kernel), by decide +kernel, by decide +kernel, by decide +kernel, by decide +kernel,
    by decide +kernel⟩
/-- Four more strands of 112 registers on the lane. -/
def wfull : State := { wst (tsmall 128) with
  strands := (0, tsmall 128) :: [1, 2, 3, 4].map fun n => (n, { t0 with alloc := 112, run := .ready, loc := some { die := 0, core := 0, lane := 0, place := n } }) }
theorem witness_grow_wait : Passes (.grow fgrow) (rowOf (.grow fgrow)) fgrow (allocPre fgrow) wfull 0 (tsmall 128) ∧ freeRef512 wfull 0 0 0 < 128 - 64 ∧
    tabAbove 0 wfull.strands = true := ⟨passes_of (by decide +kernel), by decide +kernel, by decide +kernel⟩
theorem witness_shrink : Passes (.shrink { fgrow with d := 0 }) (rowOf (.shrink { fgrow with d := 0 })) { fgrow with d := 0 } (allocPre { fgrow with d := 0 }) (wst (tsmall 48)) 0 (tsmall 48) ∧
    ((tsmall 48).sval 0x86).toNat < (tsmall 48).alloc ∧ (tsmall 48).outstanding = [] := ⟨passes_of (by decide +kernel), by decide +kernel, by decide +kernel⟩

/-! Witnesses: launches, queues, channels, reductions, ports, darning and balloon. -/

/-- A strand with a role and scalars, and the placed state with a launch record at 0x3000. -/
def tk (r : Nat) (l : Cells 32) : Strand := { t0 with role := r, s := l }
def wl (st : Strand) : State := (wst st).homePuts 0x3000 placedRecord 0
/-- The same strand with a store that has not been performed. -/
def tbusy (st : Strand) : Strand := { st with ops := [storeOp], nextOp := 1 }
def flaunch : LFields := lf 0 0 0 0 0x84 0x8A
def launches (p : Nat) : Bool :=
  let st := tk 0 [(4, BitVec.ofNat 32 p), (5, BitVec.ofNat 32 (p / 2 ^ 32))]
  passesB (.launch flaunch) (rowOf (.launch flaunch)) flaunch noPre (wl st) 0 st && decide ((st.sget64 4).toNat = p ∧ st.nowAdm (rowOf (.launch flaunch)) flaunch ≠ 0)
theorem witness_launch : launches 0x3000 = true ∧ launches (2 ^ 48) = true ∧ launches 0x3008 = true ∧
    (wl (tk 0 [(4, 0x3000)])).relBlocked (tk 0 [(4, 0x3000)]) = false ∧ (tk 0 [(4, 0x3000)]).canTrap (wl (tk 0 [(4, 0x3000)])) ∧
    (match (launchReads (wl (tk 0 [(4, 0x3000)])) (tk 0 [(4, 0x3000)]) 0x3000).2 with
      | .ok _ _ _ _ => true
      | _ => false) = true ∧
    (match (launchReads (wst (tk 0 [(4, 0x3000)])) (tk 0 [(4, 0x3000)]) 0x3000).2 with
      | .rejected => true
      | _ => false) = true :=
  ⟨by decide +kernel, by decide +kernel, by decide +kernel, by decide +kernel, ⟨rfl, by decide +kernel⟩, by decide +kernel, by decide +kernel⟩
theorem witness_launch_held :
    passesB (.launch flaunch) (rowOf (.launch flaunch)) flaunch noPre (wst (tbusy (tk 0 [(4, 0x3000)]))) 0 (tbusy (tk 0 [(4, 0x3000)])) = true ∧
    (wst (tbusy (tk 0 [(4, 0x3000)]))).relBlocked (tbusy (tk 0 [(4, 0x3000)])) = true := by decide +kernel
theorem witness_accept : tfresh (w0.ctx 0).kernels 0 = 1 ∧ recDone placedRecord = 0 ∧ launchOk placedRecord = true := by decide +kernel
def manyKernels : State := w0.modCtx 0 fun x => { x with kernels := (List.range 1024).map fun n => (n, placedKernel) }
theorem witness_accept_full : 1024 ≤ tfresh (manyKernels.ctx 0).kernels 0 := by decide +kernel

/-- Queue 0 of context 0, of 64 records a part. -/
def queue0 : Queue := { Queue.free with state := 1, buf := 0x100000 }
def wqs (q : Queue) (st : Strand) : State := { wst st with queues := [(0, q)] }
def wq (q : Queue) : State := wqs q t0
def femit : LFields := lf 0 0 0 8 0x84 0x8A
theorem witness_emit : Passes (.emit femit) (rowOf (.emit femit)) femit (queuePre femit) (wq queue0) 0 t0 ∧
    t0.nowAdm (rowOf (.emit femit)) femit ≠ 0 ∧ (wq queue0).relBlocked t0 = false ∧
    Passes (.emit femit) (rowOf (.emit femit)) femit (queuePre femit) (wqs queue0 (tbusy t0)) 0 (tbusy t0) ∧
    (wqs queue0 (tbusy t0)).relBlocked (tbusy t0) = true :=
  ⟨passes_of (by decide +kernel), by decide +kernel, by decide +kernel, passes_of (by decide +kernel), by decide +kernel⟩
/-- A record of no region without a home, a malformed one, and one of region 5 that is the region's first. -/
def qrec : List Byte := leBytes 64 0
def qrecBad : List Byte := upd qrec 13 1
def qrecRegion : List Byte := upd (upd qrec 8 5) 12 16
def fullParts : List (List QRec) := List.replicate 3 (List.replicate 64 { bytes := qrec, src := 0, slot := 0, wait := 0 })
theorem witness_offer : queue0.badRec qrec = false ∧ queue0.badRec qrecBad = true ∧ queue0.badRec qrecRegion = false ∧
    qRv qrecRegion = true ∧ (wq queue0).qChoose queue0 qrec = some 0 ∧
    (wq { queue0 with bound := [(5, 1)] }).qChoose { queue0 with bound := [(5, 1)] } qrecRegion = some 1 ∧
    (wq { queue0 with parts := fullParts }).qChoose { queue0 with parts := fullParts } qrec = none ∧
    (wq { queue0 with state := 2 }).queue 0 = { queue0 with state := 2 } := by decide +kernel
def ftake : LFields := lf 0 0 0x8A 0 0x84 8
def queue1 : Queue := { queue0 with parts := [[{ bytes := qrec, src := 0, slot := 0, wait := 0 }], [], []] }
theorem witness_take : Passes (.take ftake) (rowOf (.take ftake)) ftake (queuePre ftake) (wq queue1) 0 t0 ∧
    t0.nowAdm (rowOf (.take ftake)) ftake ≠ 0 ∧
    (((wq queue1).commit t0).takeTry t0 8 0 10 (t0.nowAdm (rowOf (.take ftake)) ftake)).2.isSome = true ∧
    Passes (.take ftake) (rowOf (.take ftake)) ftake (queuePre ftake) (wq queue0) 0 t0 ∧
    (((wq queue0).commit t0).takeTry t0 8 0 10 (t0.nowAdm (rowOf (.take ftake)) ftake)).2.isNone = true ∧
    (w0.queue 1).owner = t0.ctx ∧ ({ queue0 with ctl := 1 } : Queue).owner ≠ t0.ctx ∧ queue0.owner = t0.ctx ∧
    queue0.parts = [[], [], []] :=
  ⟨passes_of (by decide +kernel), by decide +kernel, by decide +kernel, passes_of (by decide +kernel), by decide +kernel,
    by decide +kernel, by decide +kernel, by decide +kernel, rfl⟩
def fqclose : LFields := lf 0 0 0 0 0x84 0
theorem witness_qclose : Passes (.qclose fqclose) (rowOf (.qclose fqclose)) fqclose (queuePre fqclose) (wq queue1) 0 t0 ∧
    t0.nowAdm (rowOf (.qclose fqclose)) fqclose ≠ 0 ∧ ((wq queue1).queue (t0.arg fqclose.a)).state = 1 ∧
    ((wq queue1).queue (t0.arg fqclose.a)).owner = t0.ctx ∧
    Passes (.qclose fqclose) (rowOf (.qclose fqclose)) fqclose (queuePre fqclose) w0 0 t0 ∧ (w0.queue (t0.arg fqclose.a)).state ≠ 1 :=
  ⟨passes_of (by decide +kernel), by decide +kernel, by decide +kernel, by decide +kernel, passes_of (by decide +kernel), by decide +kernel⟩
theorem witness_qcmd : (∀ n ∈ [0, 1, 2, 3], ((wq { queue0 with state := n }).queue 0).state = n) ∧
    ((wq queue0).ctx queue0.owner).state = 2 ∧ queue0.buf ≠ 0 ∧ queue0.cons = 0 := by decide +kernel
/-- Seven words of a slot staged by core 1. -/
def staged7 : List (Nat × List (Option DWord)) := [(1, List.replicate 7 (some 0) ++ [none])]
theorem witness_stage : (∀ e ∈ staged7, e.2.length = 8) ∧ (stagePut staged7 1 7 5).2.isSome = true ∧
    (stagePut staged7 1 6 5).2 = none ∧ (stagePut [] 1 0 5).2 = none := by decide +kernel
/-- Seven words of a record of region 5, which is bound to the part of D1. -/
def stagedR : List (Nat × List (Option DWord)) := [(1, [some 0, some 0x0000001000000005] ++ List.replicate 5 (some 0) ++ [none])]
def queueR : Queue := { queue0 with bound := [(5, 1)] }
theorem witness_append : (stagePut stagedR 1 7 0).2 = some qrecRegion ∧ ((wq queueR).qOffer 0 0 qrecRegion).2 = 0 ∧
    ((wq { queue0 with state := 2 }).qOffer 0 0 qrecRegion).2 = 2 ∧ w0.appUp 3 = true ∧ w0.appUp 4 = false ∧ (w0.ctx 0).state = 2 ∧ (w0.ctx 1).state = 0 := by decide +kernel
def crossing : QRec := { bytes := qrec, src := 0, slot := 0, wait := 1 }
/-- A module whose links are Active, with a message in the network from one unit to another. -/
def msgAt (src dst : Nat) (b : MsgBody) : Msg := { id := 5, cls := 3, src := src, dst := dst, seq := 0, body := b, status := 0, reissue := false }
def wmsg (s : State) (src dst : Nat) (b : MsgBody) : State :=
  { s with links := List.replicate 3 { state := 2, fails := 0 }, msgs := [msgAt src dst b] }
theorem witness_arrives : (wmsg w0 72 73 (.queueRec 0 0 1)).arriving (.queueRec 0 0 1) = some (msgAt 72 73 (.queueRec 0 0 1)) ∧
    (wmsg w0 0 14 (.slot 0 0 0)).arriving (.slot 0 0 0) = some (msgAt 0 14 (.slot 0 0 0)) := by decide +kernel
theorem witness_queueArrive : (((wmsg (wq { queue0 with parts := [[], [crossing], []] }) 72 73 (.queueRec 0 0 1)).queue 0).part 1).find?
      (fun r => r.wait == 1 && r.src == 0) = some crossing ∧
    (wmsg (wq { queue0 with parts := [[], [crossing], []] }) 72 73 (.queueRec 0 0 1)).arriving (.queueRec 0 0 1) =
      some (msgAt 72 73 (.queueRec 0 0 1)) := by decide +kernel

/-- A kernel with one channel and one reduction object. -/
def chan0 : Chan := { slots := 2, bytes := 64, state := 0, recv := 0, senders := [], ring := [] }
def red0 : Red := { kind := 1, rfmt := 0, expect := 2, broken := false, count := 0, cell := List.replicate 64 0, val := none, flight := [], root := none }
def slot0 (there : Bool) : Slot := { bytes := leBytes 64 7, sender := 0, before := 0, core := 0, unbound := true, there := there }
def wcr (c : Chan) (o : Red) (st : Strand) : State := (wst st).modKernel 0 0 fun k => { k with chans := [c], reds := [o] }
def wc (c : Chan) : State := wcr c red0 t0
def fsend : LFields := lf 0 0 0 8 0x84 0x8A
def sends (c : Chan) : Bool :=
  passesB (.chsend fsend) (chanRow (.chsend fsend) fsend (wc c) false) fsend (chanPre (wc c) fsend 8 false) (wc c) 0 t0 &&
    (decide (t0.nowAdm (chanRow (.chsend fsend) fsend (wc c) false) fsend ≠ 0) && (wc c).chan t0 (t0.arg fsend.a) == some c)
theorem witness_chsend : sends chan0 = true ∧ sends { chan0 with state := 2 } = true ∧
    sends { chan0 with ring := [slot0 true, slot0 true] } = true := by decide +kernel
def frecv : LFields := lf 0 0 0 0 0x84 8
def recvs (c : Chan) : Bool :=
  passesB (.chrecv frecv) (chanRow (.chrecv frecv) frecv (wc c) true) frecv (chanPre (wc c) frecv 8 true) (wc c) 0 t0 &&
    (decide (t0.nowAdm (chanRow (.chrecv frecv) frecv (wc c) true) frecv ≠ 0) && (wc c).chan t0 (t0.arg frecv.a) == some c)
def recvsNow (c : Chan) : Bool :=
  ((((wc c).commit t0).modChan 0 0 0 fun x => { x with state := 1, recv := 0 }).recvTry t0 0 8 0 0xFFFF).isSome
theorem witness_chrecv : recvs { chan0 with ring := [slot0 true] } = true ∧ recvsNow { chan0 with ring := [slot0 true] } = true ∧
    recvs chan0 = true ∧ recvsNow chan0 = false ∧ recvs { chan0 with state := 2 } = true := by decide +kernel
theorem witness_receipt : (wc { chan0 with ring := [slot0 true] }).chan t0 0 = some { chan0 with ring := [slot0 true] } ∧
    ((wc { chan0 with ring := [slot0 true] }).release 0 0 4 false).copiesWait 0 = false ∧
    (wc { chan0 with ring := [slot0 false] }).chan t0 0 = some { chan0 with ring := [slot0 false] } := by decide +kernel
/-- Its message comes from core 0 of D0. -/
def wslot (c : Chan) : State := wmsg (wc c) (coreTile 0) 14 (.slot 0 0 0)
theorem witness_slotDeliver : ((wslot { chan0 with ring := [slot0 true, slot0 false] }).kernel 0 0).bind (fun k => k.chans[0]?) =
      some { chan0 with ring := [slot0 true, slot0 false] } ∧
    (wslot { chan0 with ring := [slot0 true, slot0 false] }).arriving (.slot 0 0 0) = some (msgAt (coreTile 0) 14 (.slot 0 0 0)) ∧
    (slot0 true).onWay (coreTile 0) = false ∧ (slot0 false).onWay (coreTile 0) = true ∧
    (wslot { chan0 with ring := [slot0 true, slot0 false] }).slotReady (slot0 false) = true ∧
    ((wslot { chan0 with ring := [slot0 true, slot0 false] }).release 0 0 4 false).copiesWait 0 = false := by decide +kernel

def fredx : LFields := lf 3 0 0 8 0x84 0
theorem witness_redx : Passes (.redx fredx) (rowOf (.redx fredx)) fredx (redPre (wc chan0) fredx (some 3)) (wc chan0) 0 t0 ∧
    t0.nowAdm (rowOf (.redx fredx)) fredx ≠ 0 ∧ (wc chan0).relBlocked t0 = false ∧
    Passes (.redx fredx) (rowOf (.redx fredx)) fredx (redPre (wcr chan0 red0 (tbusy t0)) fredx (some 3)) (wcr chan0 red0 (tbusy t0)) 0 (tbusy t0) ∧
    (wcr chan0 red0 (tbusy t0)).relBlocked (tbusy t0) = true :=
  ⟨passes_of (by decide +kernel), by decide +kernel, by decide +kernel, passes_of (by decide +kernel), by decide +kernel⟩
theorem witness_redTake : red0.count < red0.expect ∧ red0.kind ≠ 0 ∧ red0.val = none ∧ ({ red0 with count := 2 } : Red).expect ≤ 2 ∧
    ({ red0 with count := 1, val := some 5 } : Red).count < 2 := by decide
theorem witness_redTake_nan : ({ red0 with kind := 5 } : Red).kind = 5 ∧ fmtF32.isNan (0xFFC00001 : Word).toNat = true := by decide +kernel
/-- A contribution of core 0 on its way to an object with a root. -/
def flying (root : Option Nat) : Red := { red0 with flight := [(coreTile 0, 3, 5)], root := root }
def wfly (root : Option Nat) : State := wmsg (wcr chan0 (flying root) t0) (coreTile 0) 14 (.redx 0 0 0)
theorem witness_redArrive : ((wfly (some 0x4000)).kernel 0 0).bind (fun k => k.reds[0]?) = some (flying (some 0x4000)) ∧
    (wfly (some 0x4000)).arriving (.redx 0 0 0) = some (msgAt (coreTile 0) 14 (.redx 0 0 0)) ∧
    ((flying none).flight.find? fun v => v.1 == coreTile 0) = some (coreTile 0, 3, 5) ∧ (flying none).root = none := by decide +kernel
/-- The kernel state area in the gibibyte that is not mapped. -/
def wfarSave : State := (wcr chan0 (flying none) t0).modCtx 0 fun x => { x with save := 0x40000000 }
theorem witness_redArrive_fault : (match wfarSave.devXlate 0 0 (wfarSave.redLine 0 0 0) kWrite with
      | .fault _ _ => true
      | _ => false) = true ∧ wfarSave.unitWaits 0 7 (wfarSave.redSource 0 0 0 0 0).key = false ∧
    (wfarSave.kernel 0 0).map wfarSave.unitDie = some 0 ∧ ((wfarSave.kernel 0 0).bind fun k => k.reds[0]?) = some (flying none) := by decide +kernel
def fredw : LFields := lf 0 0 1 0 0x84 8
def redws (o : Red) : Bool :=
  passesB (.redw fredw) (rowOf (.redw fredw)) fredw (redPre (wcr chan0 o t0) fredw none) (wcr chan0 o t0) 0 t0 &&
    (wcr chan0 o t0).red t0 (t0.arg fredw.a) == some o
theorem witness_redw : redws red0 = true ∧ redws { red0 with count := 2, val := some 5 } = true ∧
    t0.nowAdm (rowOf (.redw fredw)) fredw ≠ 0 := by decide +kernel

/-- D0's port, scanning, of context 0. -/
def port0 : Port := { Port.off with state := 2, geom := 0x00400040, tim := 0x0001FFFF, ctl := 0x00880000, slm := true }
def wport (p : Port) (st : Strand) : State := ((wst st).modDie 0 fun x => { x with port := p })
def fdispq : LFields := lf 0 0 0 0xE0 0x84 0x8A
def dispqs (p : Port) (va : Nat) : Bool :=
  let st := tk 2 [(4, BitVec.ofNat 32 va), (5, BitVec.ofNat 32 (va / 2 ^ 32))]
  passesB (.dispq fdispq) (rowOf (.dispq fdispq)) fdispq (portPre fdispq) (wport p st) 0 st &&
    (decide ((st.sget64 4).toNat = va ∧ st.nowAdm (rowOf (.dispq fdispq)) fdispq ≠ 0 ∧ (wport p st).linkDead 0 (st.arg fdispq.b) = false ∧ (wport p st).linkSlow 0 (st.arg fdispq.b) = false ∧
      (wport p st).relBlocked st = false ∧ (wport p st).die 0 = { (wport p st).die 0 with port := p }))
theorem witness_dispq : dispqs port0 (2 ^ 48) = true ∧ dispqs port0 0x4001 = true ∧ dispqs port0 0x4000 = true ∧ dispqs Port.off 0x4000 = true ∧
    dispqs { port0 with queue := List.replicate 3 (1, 0, 0) } 0x4000 = true ∧ dispqs { port0 with ctl := 1 } 0x4000 = true ∧
    port0.owner = 0 := by decide +kernel
theorem witness_dispq_held : passesB (.dispq fdispq) (rowOf (.dispq fdispq)) fdispq (portPre fdispq) (wst (tbusy (tk 2 [(4, 0x4000)]))) 0 (tbusy (tk 2 [(4, 0x4000)])) = true ∧
    (wst (tbusy (tk 2 [(4, 0x4000)]))).relBlocked (tbusy (tk 2 [(4, 0x4000)])) = true := by decide +kernel
def fquery (port : Nat) : LFields := lf 1 0 0 (0xE0 + port) 0 0x8A
/-- The link between D0 and D1 trains, has failed. -/
theorem witness_dispqQuery : Passes (.dispqQuery (fquery 0)) (rowOf (.dispqQuery (fquery 0))) (fquery 0) (portPre (fquery 0)) (wst (tk 2 [])) 0 (tk 2 []) ∧
    (wst (tk 2 [])).linkDead 0 0 = false ∧ (wst (tk 2 [])).linkSlow 0 0 = false ∧
    Passes (.dispqQuery (fquery 1)) (rowOf (.dispqQuery (fquery 1))) (fquery 1) (portPre (fquery 1)) (wmode 4 (tk 2 [])) 0 (tk 2 []) ∧
    (wmode 4 (tk 2 [])).linkDead 0 1 = true ∧ (wmode 3 (tk 2 [])).linkDead 0 1 = false ∧ (wmode 3 (tk 2 [])).linkSlow 0 1 = true ∧ (tk 2 []).nowAdm (rowOf (.dispqQuery (fquery 0))) (fquery 0) ≠ 0 ∧
    (tk 2 []).nowAdm (rowOf (.dispqQuery (fquery 1))) (fquery 1) ≠ 0 :=
  ⟨passes_of (by decide +kernel), by decide +kernel, by decide +kernel, passes_of (by decide +kernel), by decide +kernel, by decide +kernel,
    by decide +kernel, by decide +kernel, by decide +kernel⟩
theorem witness_dispq_link : passesB (.dispq (lf 0 0 0 0xE1 0x84 0x8A)) (rowOf (.dispq (lf 0 0 0 0xE1 0x84 0x8A))) (lf 0 0 0 0xE1 0x84 0x8A)
      (portPre (lf 0 0 0 0xE1 0x84 0x8A)) (wmode 4 (tk 2 [(4, 0x4000)])) 0 (tk 2 [(4, 0x4000)]) = true ∧
    (wmode 4 (tk 2 [(4, 0x4000)])).linkDead 0 ((tk 2 []).arg 0xE1) = true ∧ (wmode 3 (tk 2 [])).linkSlow 0 ((tk 2 []).arg 0xE1) = true := by
  decide +kernel

/-- A well-formed job of 16 by 16 pixels at 0x4000 (R466). -/
def job0 : List Byte :=
  leBytes 8 0x10000 ++ leBytes 8 0x11000 ++ leBytes 8 0x12000 ++ leBytes 8 0x13000 ++ leBytes 8 0x14000 ++ leBytes 8 0x15000 ++
    leBytes 4 0 ++ leBytes 2 16 ++ leBytes 2 16 ++ leBytes 4 8 ++ leBytes 1 0 ++ leBytes 1 4 ++ leBytes 2 0
def jobOf (st : Strand) : Job :=
  { strand := 0, opId := 0, ctx := 0, pc := st.pc, bytes := job0, core := 0, kid := 0, iid := 0, sid := 0 }
def wjob (st : Strand) (l : List Job) : State := ((wst st).homePuts 0x4000 job0 0).modDie 0 fun x => { x with darn := l }
def fdarn : LFields := lf 0 0 0 0 0x84 0
def darns (va : Nat) (l : List Job) : Bool :=
  let st := tk 2 [(4, BitVec.ofNat 32 va), (5, BitVec.ofNat 32 (va / 2 ^ 32))]
  passesB (.darn fdarn) (rowOf (.darn fdarn)) fdarn noPre (wjob st l) 0 st &&
    (decide ((st.sget64 4).toNat = va ∧ st.nowAdm (rowOf (.darn fdarn)) fdarn ≠ 0 ∧ st.accPending = false) && !st.full 4)
def darnReads (va : Nat) (l : List Job) : Option (Bool × Nat) :=
  let st := tk 2 [(4, BitVec.ofNat 32 va)]
  match (wjob st l).seedRead st va 4 with
  | (s, .ok r) => some (jobOk r, (s.die st.d).jobs)
  | _ => none
theorem witness_darn : darns 0x4000 [] = true ∧ darnReads 0x4000 [] = some (true, 0) ∧ darns (2 ^ 48) [] = true ∧ darns 0x4010 [] = true ∧
    darns 0x5000 [] = true ∧ darnReads 0x5000 [] = some (false, 0) ∧ darns 0x4000 (List.replicate 8 (jobOf t0)) = true ∧
    darnReads 0x4000 (List.replicate 8 (jobOf t0)) = some (true, 8) := by decide +kernel
theorem witness_darn_held : passesB (.darn fdarn) (rowOf (.darn fdarn)) fdarn noPre (wjob (tbusy (tk 2 [(4, 0x4000)])) []) 0 (tbusy (tk 2 [(4, 0x4000)])) = true ∧
    (tbusy (tk 2 [(4, 0x4000)])).accPending = true := by decide +kernel
theorem witness_darnStart : ((wjob t0 [jobOf t0]).die 0).darnRun = none ∧ ((wjob t0 [jobOf t0]).die 0).darn = [] ++ jobOf t0 :: [] ∧
    0 < (wjob t0 [jobOf t0]).dies.length := by decide +kernel
/-- A running job whose vertices lie in an unmapped gibibyte beyond the window: it meets WINDOW. -/
def jobFar : Job := { jobOf t0 with bytes := upd (job0) 6 1 }
def tdarn : Strand := t0With (opAt 0 4 .darn [])
def wrun (j : Job) : State := (wst tdarn).modDie 0 fun x => { x with darnRun := some j }
theorem witness_darnDone : ((wrun jobFar).die 0).darnRun = some jobFar ∧ (wrun jobFar).engWaits 0 0 0 = false ∧
    ((wrun jobFar).ctx 0).parkedUnits.contains (1, keyOf [0, 0]) = false ∧ (wrun jobFar).strand 0 = some tdarn ∧
    tdarn.marks = [] ∧ tdarn.run ≠ .draining ∧ (tdarn.op 0).map (·.bad) = some 0 ∧
    (match (wrun jobFar).jobRun 0 jobFar with
      | (s1, some (.err _ _)) => s1.strand 0 == some tdarn
      | _ => false) = true := by decide +kernel
/-- A job of no pixels needs no reading but its motion: it completes. -/
def jobNone : Job := { jobOf t0 with bytes := upd (upd job0 52 0) 54 0 }
theorem witness_darnDone_ok : (match (wrun jobNone).jobRun 0 jobNone with
      | (s1, none) => s1.strand 0 == some tdarn
      | _ => false) = true := by decide +kernel

theorem witness_port : ((wport Port.off t0).die 0).port.state = 0 ∧ Port.off.enableOk 0 = false ∧ 0 < (wport Port.off t0).dies.length ∧
    ({ port0 with state := 0 } : Port).state = 0 ∧ port0.state ≠ 0 := by decide +kernel
theorem witness_vblank : 2 ≤ port0.state ∧ port0.state = 2 ∧ ({ port0 with queue := [(1, 0, 0x4000)] } : Port).queue = (1, 0, 0x4000) :: [] ∧
    port0.queue = [] := by decide
theorem witness_scanout : port0.line < port0.vact ∧
    ((List.range port0.hact).mapM ((wport port0 t0).scanPixel 0 port0)).isSome = true := by decide +kernel

def fgive : LFields := lf 0 0 0 0xE1 0x84 0
def gives (va : Nat) (busy : Bool) : Bool :=
  let st0 := tk 0 [(4, BitVec.ofNat 32 va), (5, BitVec.ofNat 32 (va / 2 ^ 32))]
  let st := if busy then tbusy st0 else st0
  passesB (.balloonGive fgive) (rowOf (.balloonGive fgive)) fgive (balloonPre fgive) (wst st) 0 st &&
    (decide ((st.sget64 4).toNat = va ∧ st.nowAdm (rowOf (.balloonGive fgive)) fgive ≠ 0 ∧ (wst st).relBlocked st = busy) &&
      (decide (0x4000 < va) || match (wst st).balloonPages st va (st.arg fgive.b) with
        | (s1, [pa], [], 0) => !s1.heldFrom st.d pa && s1.relBlocked st == busy
        | _ => false))
theorem witness_balloon : gives 0x4000 false = true ∧ gives (2 ^ 48) false = true ∧ gives 0x4800 false = true ∧ gives 0x4000 true = true := by decide +kernel
theorem witness_balloonQuery : Passes (.balloonQuery (lf 1 0 0 0 0 0x8A)) (rowOf (.balloonQuery (lf 1 0 0 0 0 0x8A))) (lf 1 0 0 0 0 0x8A) noPre w0 0 t0 ∧
    t0.nowAdm (rowOf (.balloonQuery (lf 1 0 0 0 0 0x8A))) (lf 1 0 0 0 0 0x8A) ≠ 0 := ⟨passes_of (by decide +kernel), by decide +kernel⟩
theorem witness_givePage : homeDie 0x4000 < w0.dies.length ∧ homeDie (0x4000 / 4096 * 4096) = homeDie 0x4000 ∧
    ∀ r ∈ (w0.die (homeDie 0x4000)).regions, ¬ (r.holds (0x4000 / 4096 * 4096 % 2 ^ 44) = true ∧ r.state = 1 ∧ w0.gtime < r.deadline) := by decide +kernel
def fset (n : Nat) : LFields := lf 0 0 0 0 (0xE0 + n) 0
/-- The strand on core 0 of D1. -/
def taway : Strand := { tk 0 [] with loc := some { die := 1, core := 0, lane := 0, place := 0 } }
theorem witness_dieset : ∀ st ∈ [t0, taway], Passes (.dieset (fset 1)) (rowOf (.dieset (fset 1))) (fset 1)
      (fun u m => if m ≠ 0 ∧ 2 < u.arg (fset 1).a then some 0 else none) (wst st) 0 st ∧
    Passes (.memfsp (fset 1)) (rowOf (.memfsp (fset 1))) (fset 1) (fun u m => if m ≠ 0 ∧ 3 < u.arg (fset 1).a then some 0 else none) (wst st) 0 st := by
  intro st hs
  simp only [List.mem_cons, List.not_mem_nil, or_false] at hs
  obtain rfl | rfl := hs <;> exact ⟨passes_of (by decide +kernel), passes_of (by decide +kernel)⟩
theorem witness_dieset_link : (wst t0).linkDead t0.d 0 = false ∧ (wst t0).linkSlow t0.d 0 = false ∧ (wmode 4 taway).linkDead taway.d 0 = true ∧
    (wmode 3 taway).linkDead taway.d 0 = false ∧ (wmode 3 taway).linkSlow taway.d 0 = true ∧
    t0.nowAdm (rowOf (.dieset (fset 1))) (fset 1) ≠ 0 ∧ t0.nowAdm (rowOf (.memfsp (fset 1))) (fset 1) ≠ 0 := by decide +kernel
theorem witness_kernel_none : Passes (.launch (none1 flaunch)) (rowOf (.launch (none1 flaunch))) (none1 flaunch) noPre w0 0 t0 ∧
    t0.nowAdm (rowOf (.launch (none1 flaunch))) (none1 flaunch) = 0 := ⟨passes_of (by decide +kernel), by decide +kernel⟩

/-! Witnesses: arbitration, items, pre-emption, contexts, sweeps and batches. -/

def ready (n place : Nat) : Nat × Strand :=
  (n, { t0 with run := .ready, alloc := 64, loc := some { die := 0, core := 0, lane := 0, place := place } })
/-- Two Ready strands on an idle lane. -/
def widle : State :=
  { (w0.modCore 0 0 fun c => { c with lanes := [(0, Lane.idle)] }) with strands := [ready 0 0, ready 5 1] }
theorem witness_arb : (ready 0 0).2.loc = some { die := 0, core := 0, lane := 0, place := 0 } ∧
    (ready 5 1).2.loc = some { die := 0, core := 0, lane := 0, place := 1 } := ⟨rfl, rfl⟩
theorem witness_runStart : 0 < widle.dies.length ∧ 0 < (widle.die 0).cores.length ∧ tabAbove 0 widle.strands = true ∧
    ((tget (widle.core 0 0).lanes 0).getD Lane.idle).running = none ∧ ready 0 0 ∈ widle.onLane 0 0 0 ∧ widle.canRun (ready 0 0).2 = true ∧
    ∀ e ∈ widle.onLane 0 0 0, widle.canRun e.2 = true → e.1 ≠ 0 → widle.arbKey (ready 0 0).2 < widle.arbKey e.2 := by decide +kernel
def theld : Strand := { t0 with hold := some (.balloonQuery (lf 1 0 0 0 0 0x8A)) }
theorem witness_request : (wst theld).strand 0 = some theld ∧ theld.hold = some (.balloonQuery (lf 1 0 0 0 0 0x8A)) ∧ (wst theld).mayIssue theld = true :=
  ⟨by decide +kernel, rfl, by decide +kernel⟩
/-- The placed kernel with a second item, to be dispatched. -/
def kernel2 : Kernel := { placedKernel with record := upd placedRecord 32 2 }
def wtwo : State := w0.modKernel 0 0 fun _ => kernel2
def place1 : Loc := { die := 0, core := 0, lane := 1, place := 0 }
/-- What core 0 of D0 is prepared for: a strand of a kernel's item. -/
def onCore0 (kid iid : Nat) : Placing := { load := none, ctx := 0, kid := kid, iid := iid, sid := 0, die := 0, core := 0 }
theorem witness_dispatch : wtwo.suits 0 0 kernel2 1 [place1] ∧ [onCore0 0 (recIbase kernel2.record + 1)].map (fun p => (p.die, p.core)) = coresOf [place1] ∧
    ([place1].map fun l => (l.die, l.core))[0]? = some (0, 0) ∧
    (wtwo.prepareCores [onCore0 0 (recIbase kernel2.record + 1)]).2 = true ∧
    (wtwo.prepareCores [onCore0 0 (recIbase kernel2.record + 1)]).1.kernel 0 0 = some kernel2 := by
  refine ⟨?_, by decide +kernel, by decide +kernel, by decide +kernel, by decide +kernel⟩
  unfold State.suits
  refine ⟨by decide +kernel, by decide +kernel, by decide +kernel, by decide +kernel, by decide +kernel, by decide +kernel, by decide +kernel,
    by decide +kernel, by decide +kernel, .inl (by decide +kernel), by decide +kernel⟩
/-- A kernel that is no more prepares no core. -/
theorem witness_prepare : (w0.prepareCores [onCore0 7 0]).2 = false := by decide +kernel
theorem witness_nextItem : kernel2.nextItem = some 1 ∧ kernel2.returned = [] ∧ ({ kernel2 with returned := [3, 2] } : Kernel).nextItem = some 2 := by
  decide +kernel
def texited : Strand := { t0 with run := .exited }
theorem witness_itemDone : ((wst texited).kernel 0 0).map (fun k => (tget k.items 0).map fun it => (it.strands, it.lost)) = some (some ([0], false)) ∧
    ((wst texited).ctx 0).state ≠ 5 ∧ (wst texited).strand 0 = some texited ∧ texited.run = .exited ∧ texited.doomed = false ∧
    ((wst texited).release 0 0 4 true).copiesWait 0 = false := by decide +kernel
/-- A dirty copy in D0 of a line of D1, whose link trains: its write-back waits. -/
def wslow : State := (wmode 3 texited).modDie 0 fun x => { x with copies := [(2 ^ 44, { val := 1, dirty := true, ctx := 0 })] }
theorem witness_itemDone_waits : (wslow.release 0 0 4 true).copiesWait 0 = true := by decide +kernel

/-- Four contexts resident on the core, context 0 with the largest PRIO, and context 1 with an item to place. -/
def wfour : State :=
  let s := { w0 with strands := [(0, t0), (1, { t0 with ctx := 2 }), (2, { t0 with ctx := 3 }), (3, { t0 with ctx := 4 })] }
  (s.modCtx 0 fun x => { x with cfg := 3 }).putCtx 1 { placedCtx with kernels := [(0, { placedKernel with next := 0, items := [] })] }
theorem witness_preempt : (wfour.ctx 1).state = 2 ∧ wfour.coreUp 0 0 = true ∧ wfour.wants 1 ≠ [] ∧ wfour.contextRoom 1 0 0 = false ∧
    (wfour.core 0 0).embUse = none ∧ wfour.victim 0 0 1 = some 0 := by decide +kernel
/-- A stopped strand, where the save area is mapped and where it is not. -/
def tstop : Strand := { t0 with stop := true }
def loc0 : Loc := { die := 0, core := 0, lane := 0, place := 0 }
def wsave (st : Strand) : State := (wst st).homePuts 0x2010 (leBytes 8 0x8000003D) 0
theorem witness_save : (wsave tstop).strand 0 = some tstop ∧ tstop.loc = some loc0 ∧ tstop.ahead = none ∧ (wsave tstop).saveWaits tstop = false ∧
    ((wsave tstop).release 0 0 4 true).copiesWait 0 = false ∧ (((wsave tstop).release 0 0 4 true).core 0 0).embUse = none ∧
    ((wsave tstop).release 0 0 4 true).unitWaits 0 2 (saveSource 0 0 0 0 0).key = false ∧
    (match ((wsave tstop).release 0 0 4 true).pagesStop 0 0 kWrite ((wsave tstop).recPages 0 tstop loc0) with
      | .ok => true
      | _ => false) = true ∧
    (match ((wst tstop).release 0 0 4 true).pagesStop 0 0 kWrite ((wst tstop).recPages 0 tstop loc0) with
      | .fault _ _ _ => true
      | _ => false) = true ∧
    ((((wst tstop).modCore 0 0 fun x => { x with embUse := some 3 }).release 0 0 4 true).core 0 0).embUse = some 3 ∧ nth 0 ((wst tstop).die 0).emb 0 = 0 ∧ ({ tstop with doomed := true } : Strand).loc = some loc0 ∧
    t0.stop = false ∧ t0.loc = some loc0 := by decide +kernel
def tsaved : Strand := { t0 with loc := none, saved := some loc0, run := .ready }
theorem witness_restore : (wsave tsaved).strand 0 = some tsaved ∧ ((wsave tsaved).ctx 0).state = 2 ∧ ((wsave tsaved).ctx 0).replay = false ∧
    (wsave tsaved).placesFree [(place1, tsaved.alloc)] = true ∧ (wsave tsaved).contextRoom 0 0 0 = true ∧
    tsaved.role ≠ 1 ∧ (wsave tsaved).groupsAllow [(0, tsaved)] 0 0 = true ∧ (wsave tsaved).itemAllows 0 tsaved 0 0 = true ∧ (wsave tsaved).tilesAllow tsaved 0 0 = true ∧
    (wsave tsaved).scrUsed 0 0 + (wsave tsaved).scrSize tsaved ≤ scratchSize ∧
    ((wsave tsaved).restoreRead tsaved 0 0).2 = true ∧ (((wsave tsaved).restoreRead tsaved 0 0).1.prepareCores [onCore0 0 0]).2 = true := by
  decide +kernel
/-- A strand of the M role with the only other M strand of its item. -/
theorem witness_together : ({ wsave tsaved with strands := [(0, { tsaved with role := 1 }), (1, { tsaved with role := 1, sid := 1 })] } : State).together
    { tsaved with role := 1 } 0 0 [(0, { tsaved with role := 1 }, loc0), (1, { tsaved with role := 1, sid := 1 }, place1)] := by
  refine ⟨nofun, fun _ => ⟨fun e he => ?_, fun j u hj _ _ _ => ?_⟩⟩
  · simp only [List.mem_cons, List.not_mem_nil, or_false] at he
    obtain rfl | rfl := he <;> exact ⟨rfl, rfl, rfl, rfl⟩
  · simp only [List.mem_cons, List.not_mem_nil, or_false, Prod.mk.injEq] at hj
    obtain ⟨rfl, rfl⟩ | ⟨rfl, rfl⟩ := hj
    · exact ⟨_, .head _, rfl⟩
    · exact ⟨_, .tail _ (.head _), rfl⟩

/-- Context 0 in a state. -/
def win (n : Nat) : State := w0.modCtx 0 fun x => { x with state := n }
theorem witness_command : (∀ n ∈ [0, 1, 2, 3, 4, 5, 6], ((win n).ctx 0).state = n) ∧ ((win 3).ctx 0).event = 0 := by decide +kernel
theorem witness_start : w0.ready255 { placedCtx with fbase := 0x4000 } ∧ ¬ w0.ready255 placedCtx := by
  unfold State.ready255; decide +kernel
/-- A resident strand of context 0, a saved one, and one of context 1. -/
def wretire : State := { w0 with strands := [(0, t0), (1, { tsaved with sid := 1 }), (2, { t0 with ctx := 1 })], queues := [(0, queue0)] }
theorem witness_retire : tabAbove 0 wretire.strands = true ∧ (wretire.ctx 0).state = 2 ∧ (wretire.strand 1).map (·.loc) = some none ∧
    (wretire.strand 0).map (·.resident) = some true ∧ (wretire.strand 2).map (·.ctx) = some 1 ∧ (wretire.queue 0).owner = 0 ∧
    (wretire.queue 0).state = 1 := by decide +kernel
theorem witness_retired : (win 5).retired 0 = false ∧ ({ win 5 with strands := [] } : State).retired 0 = true ∧
    (({ win 5 with strands := [] } : State).ctx 0).state = 5 := by decide +kernel
theorem witness_cfg : ((win 1).ctx 0).state = 1 ∧ (0x41 &&& 0x73#32).getLsbD 6 = ((win 3).ctx 0).cfg.getLsbD 6 ∧
    0x41 &&& 0x73#32 ≠ ((win 2).ctx 0).cfg ∧ ((win 2).ctx 0).state ≠ 1 ∧ ((win 2).ctx 0).state ≠ 3 := by decide +kernel
theorem witness_emb : (0x2000000 : DWord).toNat % 2 ^ 25 = 0 ∧ homeDie (0x2000000 : DWord).toNat = 0 ∧
    (0x2000000 : DWord).toNat % 2 ^ 44 + 2 ^ 25 ≤ w0.advertised ∧ w0.ctxs.all (fun e => !e.2.spill) = true ∧ (1 : DWord).toNat % 2 ^ 25 ≠ 0 := by decide +kernel
theorem witness_sweep : (0x10000 : DWord).getLsbD 4 = false ∧ (0x10000 : DWord).toNat < 2 ^ 48 ∧ nbits (0x10000 : DWord).toNat 6 6 = 0 ∧
    (0x10 : DWord).getLsbD 4 = true ∧ nbits (0x10 : DWord).toNat 6 6 = 0 ∧ nbits (0x40 : DWord).toNat 6 6 ≠ 0 := by decide +kernel
def sweep0 (md : Bool) : Sweep := { va := 0, shift := 48, all := true, md := md }
def wsweep (st : Strand) (md : Bool) : State := (wst st).modCtx 0 fun x => { x with sweeps := [sweep0 md] }
theorem witness_sweepDone : ((wsweep tload false).ctx 0).sweeps = sweep0 false :: [] ∧ (wsweep tload false).sweepWaits 0 (sweep0 false) = true ∧
    (wsweep t0 false).sweepWaits 0 (sweep0 false) = false ∧ (wsweep t0 true).sweepWaits 0 (sweep0 true) = false ∧ (wsweep t0 true).strand 0 = some t0 ∧
    (wsweep t0 false).computing 0 = true ∧ (wsweep t0 false).computing 1 = false ∧ (wsweep t0 false).linkSlow 0 0 = false ∧
    (wsweep t0 false).linkDead 0 0 = false ∧ ((wsweep t0 false).swept 0 (sweep0 false)).ctxDirty 0 = false := by
  decide +kernel
/-- Behind a Failed link D1 holds a translation of the context; over one that trains the sweep waits. -/
def wbehind (n : Nat) : State := (wmode n t0).modDie 1 fun x => { x with nodeCache := [{ ctx := 0, level := 1, va := 0, entry := 0 }] }
theorem witness_sweepDone_link : (wbehind 4).sweepWaits 0 (sweep0 false) = false ∧ ((wbehind 4).swept 0 (sweep0 false)).ctxDirty 0 = false ∧
    ((wbehind 4).swept 0 (sweep0 false)).linkDead 0 1 = true ∧ (((wbehind 4).swept 0 (sweep0 false)).die 1).cachesOf 0 = true ∧
    (wbehind 4).linkSlow 0 1 = false ∧ (wbehind 3).linkSlow 0 1 = true := by decide +kernel
theorem witness_sweepWait : (0, tload) ∈ (wsweep tload false).strands ∧ loadOp false ∈ tload.ops ∧ (accAt 0x3000).win = .glob ∧
    (accAt 0x3000).va / 2 ^ 30 * 2 ^ 30 < 0x3000 + 2 ^ 12 := by decide +kernel
def tahead : Strand := { t0 with run := .faulted, ahead := some { entries := [{ page := 0x40000, level := 3, cause := .page, kind := 4 }], start := .fetch } }
theorem witness_rollback : (wst tahead).strand 0 = some tahead ∧ tahead.ahead.isSome = true ∧ tahead.resident = true ∧
    ((wst tahead).aheadEnd 0 tahead { entries := [{ page := 0x40000, level := 3, cause := .page, kind := 4 }], start := .fetch }).held = false := by
  decide +kernel
def batch0 (n : Nat) : Batch :=
  { seq := n, src := 0, die := 0, core := 0, pc := 0x10000, kid := 0, iid := 0, sid := 0, strand := some 0, op := 0,
    entries := [{ page := 0x40000, level := 3, cause := .page, kind := 4 }] }
theorem witness_batchBytes : (batch0 1).entries.length ≤ 32 ∧ (batch0 1).seq < 2 ^ 32 ∧ (batch0 1).kid < 2 ^ 32 ∧
    (batch0 1).entries[0]? = some { page := 0x40000, level := 3, cause := .page, kind := 4 } ∧
    BatchEntry.word { page := 0x40000, level := 3, cause := .page, kind := 4 } < 2 ^ 64 := by decide
def wbatch (st : Strand) (f b : List Batch) : State := (wst st).modCtx 0 fun x => { x with forming := f, batches := b }
theorem witness_batchWrite : ((wbatch t0 [batch0 32] [batch0 0]).ctx 0).forming = batch0 32 :: [] ∧ (batch0 0).seq % 32 = (batch0 32).seq % 32 ∧
    ((wbatch t0 [batch0 32] [batch0 0]).ctx 0).batches = [batch0 0] ∧ ((wbatch t0 [batch0 1] []).ctx 0).batches = [] := by decide +kernel
theorem witness_batchResolve : ((wbatch tahead [] [batch0 3]).ctx 0).state = 2 ∧
    ((wbatch tahead [] [batch0 3]).ctx 0).batches.find? (fun b => b.seq == (3 : BitVec 32).toNat) = some (batch0 3) ∧
    (∀ b ∈ ((wbatch tahead [] [batch0 3]).ctx 0).batches, b.seq ≠ (4 : BitVec 32).toNat) ∧ (wbatch tahead [] [batch0 3]).strand 0 = some tahead ∧
    tahead.run = .faulted ∧ tahead.loc.isSome = true := by decide +kernel

/-! Witnesses: frames, regions, set points, links, the die set and tiles. -/

/-- Line 0x200 is dirty on die 0, its frame has one granule, and the pool has g; `l` are the parked writes. -/
def wframe (g : Nat) (l : List Parked) (bs : List Byte) : State :=
  { (w0.modDie 0 fun x => { x with dirty := [(0x200, 0)], frames := [(16, { gran := 1, donated := false })], gfree := g, parked := l }) with
    mem := bs.zipIdx.map fun b => (0x10000 + b.2, b.1) }
def parked0 (line : Nat) : Parked := { line := line, need := 1, ctx := 0, since := 0, waiting := false, raised := false }
/-- A write-back that gives its frame's granule back, one behind a parked write of its frame, and a line that is not dirty. -/
theorem witness_lineBack : lineDie 0x200 < w0.dies.length ∧ tget ((wframe 0 [] []).die 0).dirty 0x200 = some 0 ∧
    (wframe 0 [] []).frameNeed 16 ≤ ((wframe 0 [] []).die 0).gran 16 + 0 ∧ frameOfLine (parked0 0x201).line = frameOfLine 0x200 ∧
    ((wframe 0 [parked0 0x201] []).die 0).parked = [parked0 0x201] ∧ (parked0 0x201).waiting = false ∧ tget (w0.die 0).dirty 0x200 = none := by
  decide +kernel
/-- A frame of D0 is on the move. -/
def wmoving (f : Nat) : State := (wframe 0 [] []).modDie 0 fun x => { x with moving := some (f, 0) }
/-- A frame that is not zero needs a granule, and the pool has none. -/
theorem witness_lineParks : 0 + 0 < Config.granules (1 :: List.replicate 4095 0) := by
  unfold Config.granules
  rw [if_neg (by decide +kernel)]
  omega
theorem witness_lineMoves : ((wmoving 16).die 0).moving = some (16, 0) ∧ ((wmoving 16).frameParked 0x10000) = true := by decide +kernel
theorem witness_replay : ((wframe 0 [parked0 0x200] []).die 0).parked = parked0 0x200 :: [] ∧
    (parked0 0x200).need ≤ ((wframe 0 [parked0 0x200] []).die 0).gran 16 + ((wframe 0 [] []).die 0).gfree ∧
    ((wframe 0 [{ parked0 0x400 with need := 2 }] []).die 0).gran 32 + ((wframe 0 [] []).die 0).gfree < 2 := by decide +kernel
theorem witness_need : parked0 0x200 ∈ ((wframe 0 [parked0 0x200, parked0 0x201] []).die 0).parked ∧
    (((wframe 0 [parked0 0x200, parked0 0x201] []).die 0).parked.all fun q =>
      frameOfLine q.line == frameOfLine (parked0 0x200).line && decide (q.need ≤ (parked0 0x200).need)) = true := by decide +kernel
theorem witness_reclaim_moving : ((wmoving 16).die 0).moving = some (16, 0) ∧ 0 < (wmoving 16).dies.length := by decide +kernel
/-- A parked write of frame 32 waits for a granule: frame 16 is donated, or is a zero frame that holds one. -/
def wshort (don : List Nat) : State := (wframe 0 [parked0 0x400] []).modDie 0 fun x => { x with donated := don }
theorem witness_reclaim : ((wshort [16]).die 0).moving = none ∧ homeDie (4096 * 16) = 0 ∧ ((wshort [16]).die 0).gfree < ((wshort [16]).die 0).parkedNeed ∧ ((wshort [16]).die 0).donated = 16 :: [] ∧
    ((wshort []).die 0).donated = [] ∧ frameOfLine (parked0 0x400).line ≠ 16 ∧ ((wshort []).die 0).inRegion 16 = false ∧
    (wshort []).mem = [] := by decide +kernel
/-- The pool is enough where the frame has what the parked write needs, and a frame that is not zero is packed where no zero one is left. -/
theorem witness_reclaim_pack : ((wframe 5 [parked0 0x400] []).die 0).parkedNeed ≤ ((wframe 5 [parked0 0x400] []).die 0).gfree ∧
    cget (wframe 0 [parked0 0x400] [1]).mem 0x10000 ≠ 0 ∧ ((wframe 0 [parked0 0x400] [1]).die 0).frames = [(16, { gran := 1, donated := false })] ∧
    4096 * 16 ≤ 0x10000 ∧ 0x10000 < 4096 * 16 + 4096 := by decide +kernel
def wlate : State := { wshort [] with gtime := 50000 }
theorem witness_parkLimit : (wlate.die 0).parked = [parked0 0x400] ∧ (parked0 0x400).raised = false ∧
    (parked0 0x400).since + 50000 ≤ wlate.gtime ∧ (wlate.ctx 0).memfull = false ∧ (wlate.ctx 0).state = 2 := by decide +kernel

/-- Register set 2 of die 0 with a region. -/
def wregion (r : Region) : State := w0.modDie 0 fun x => { x with regions := upd x.regions 2 r }
def region1 (state : Nat) : Region := { Region.off with base := 0x40000000, len := 1, state := state, deadline := 7 }
theorem armBad_iff (s : State) (d n : Nat) : s.armBad417 d n ↔ s.armBad d n = true := by
  unfold State.armBad417 State.armBad
  simp only [Bool.or_eq_true, decide_eq_true_eq, beq_iff_eq, List.any_eq_true, Bool.and_eq_true, bne_iff_ne, ne_eq, or_assoc,
    List.mem_zipIdx_iff_getElem?, Prod.exists]
  constructor <;> rintro (h | h | ⟨i, q, h⟩ | h)
  · exact .inl h
  · exact .inr (.inl h)
  · exact .inr (.inr (.inl ⟨q, i, h.1, ⟨h.2.1, h.2.2.1⟩, h.2.2.2⟩))
  · exact .inr (.inr (.inr h))
  · exact .inl h
  · exact .inr (.inl h)
  · exact .inr (.inr (.inl ⟨q, i, h.1, h.2.1.1, h.2.1.2, h.2.2⟩))
  · exact .inr (.inr (.inr h))
/-- A region of one large page can be armed; one of no length or at the end of the advertised space cannot. -/
theorem witness_region : ((wregion (region1 0)).die 0).regions[2]? = some (region1 0) ∧ ¬ (wregion (region1 0)).armBad417 0 2 ∧
    (wregion Region.off).armBad417 0 2 ∧ (wregion { region1 0 with base := 0x400000000 }).armBad417 0 2 ∧ (region1 1).state ≠ 0 := by
  simp only [armBad_iff]
  decide +kernel
theorem witness_deadline : (({ wregion (region1 1) with gtime := 7 } : State).die 0).regions[2]? = some (region1 1) ∧ (region1 1).state = 1 ∧
    (region1 1).deadline ≤ ({ wregion (region1 1) with gtime := 7 } : State).gtime := by decide +kernel
theorem witness_expire : ((wregion (region1 1)).die 0).regions[2]? = some (region1 1) ∧ w0.gtime < (region1 1).deadline ∧
    (region1 1).deadline ≤ ({ wregion (region1 1) with gtime := 7 } : State).gtime := by decide +kernel
theorem witness_budget : budgetAt 45 = 64000000 ∧ budgetAt 46 = 32000000 ∧ budgetAt 85 = 32000000 ∧ budgetAt 86 = 16000000 ∧
    budgetAt 105 = 16000000 ∧ budgetAt 106 = 4000000 ∧ 0 < w0.dies.length := by decide
theorem witness_memsp : (w0.die 0).port.state ≤ 1 ∧ ¬ ((wport port0 t0).die 0).port.state ≤ 1 ∧
    ({ w0 with spPend := true } : State).spPend = true := by decide +kernel

def wlink (n fails : Nat) : State := w0.modLink 2 fun _ => { state := n, fails := fails }
theorem witness_link : (wlink 2 0).links.length = 3 ∧ (wlink 2 0).dies.length = 3 ∧ linkEnds 2 = [(0, 1), (2, 0)] ∧
    1 < ((wlink 2 0).die 0).lnkRt.length ∧ 0 < ((wlink 2 0).die 2).lnkRt.length ∧ ((wlink 2 0).link 2).state = 2 ∧
    ((wlink 3 0).link 2).state ≠ 2 ∧ portLink 0 1 = 2 := by decide +kernel
theorem witness_training : ((wlink 1 0).link 2).state = 1 ∧ ((wlink 3 0).link 2).state = 3 ∧ ((wlink 3 1).link 2).fails < 2 ∧
    2 ≤ ((wlink 3 2).link 2).fails ∧ ((wlink 4 3).link 2).state = 4 ∧ 2 < (wlink 3 2).links.length ∧ (wlink 3 2).msgs = [] := by decide +kernel
theorem witness_dsctl : nbits (0x30 : BitVec 32).toNat 4 2 = 3 ∧ nbits (0x20 : BitVec 32).toNat 4 2 ≠ 3 ∧
    2 ≤ ((wport port0 t0).die 0).port.state ∧ ({ w0 with dsBusy := some 1 } : State).dsBusy.isSome = true ∧
    nbits (0 : BitVec 32).toNat 4 2 = w0.dsCur ∧ w0.dsBusy = none := by decide +kernel
/-- A change to mode 1 waits; the link to die 1 works, or has failed. -/
def wchange (n : Nat) : State := { (w0.modLink 0 fun _ => { state := n, fails := 0 }) with dsReq := 1, dsPend := true }
theorem witness_change : (wchange 2).linkDead 0 1 = false ∧ (wchange 4).linkDead 0 1 = true ∧ (wchange 2).dsReq ≠ (wchange 2).dsCur ∧
    (wchange 2).dsCur < 1 ∧ 1 ≤ (wchange 2).dsReq ∧ (wchange 2).dsBusy = none ∧ ((wchange 2).die 0).port.state ≤ 1 := by decide +kernel
def wcommit : State := { w0 with dsBusy := some 0, dsCur := 2, links := List.replicate 3 { state := 2, fails := 0 } }
theorem witness_commit : wcommit.dsReq = 0 ∧ wcommit.dies.length = 3 ∧ placedStrand.d ≤ 0 ∧ wcommit.reached 0 = 0 ∧ wcommit.strands = [(0, t0)] ∧
    [1, 2].all (fun d => (wcommit.die d).darn == [] && ((wcommit.die d).darnRun == none && (!wcommit.copiesWait d &&
      ((wcommit.die d).cores.all fun x => x.tiles.all fun t => t.held == none) && !wcommit.linkSlow d 0))) = true := by decide +kernel
/-- A change in force that still restores its strands, and one that is done, with and without a change pending. -/
theorem witness_commit_after : ({ w0 with dsBusy := some 0 } : State).dsBusy = some w0.dsCur ∧ ({ w0 with dsBusy := some 0 } : State).restoring = false ∧
    ({ wst { t0 with loc := none, saved := some { die := 1, core := 0, lane := 0, place := 0 } } with dsBusy := some 0 } : State).restoring = true ∧
    w0.dsPend = false ∧ (wchange 2).dsPend = true := by decide +kernel
/-- In mode 0, both links work, that of D1 has failed, that of D2 has. -/
theorem witness_reached : (wlink 2 0).linkDead 0 2 = false ∧ (wlink 4 0).linkDead 0 2 = true ∧ (wlink 4 0).linkDead 0 1 = false ∧
    (wchange 4).linkDead 0 1 = true ∧ w0.dsCur ≤ 2 := by decide +kernel

/-- Mesh tile 7 of die 0 (a core tile) in a state of its life. -/
def wtile (x : MeshTile) : State := { (w0.modTile 0 7 fun _ => x) with gtime := 100000000 }
def tileIn (n : Nat) : MeshTile := { MeshTile.healthy with state := n }
theorem witness_hasTile : 0 < (wtile (tileIn 0)).dies.length ∧ 7 < ((wtile (tileIn 0)).die 0).tiles.length ∧
    ((wtile (tileIn 0)).die 0).voter 7 3 = true ∧ ((wtile (tileIn 0)).die 0).tile 7 = tileIn 0 ∧ (tileIn 0).votes.length = 4 ∧
    (tileIn 0).seen.length = 4 ∧ (tileIn 0).good.length = 4 ∧ (tileIn 0).missed.length = 4 ∧ (tileIn 0).wire.length = 4 ∧
    (tileIn 0).mal.length = 4 := by decide +kernel
/-- Number 0 follows 65535; FATAL or not, after two good periods and after one. -/
theorem witness_beat : (tileIn 0).up = true ∧ (tileIn 2).up = false ∧ ({ tileIn 3 with appeal := true } : MeshTile).state = 3 ∧
    nth none (tileIn 0).wire 3 = none ∧ (0 : Nat) = (nth 0 (tileIn 0).seen 3 + 1) % 65536 ∧ (1 : Nat) ≠ (nth 0 (tileIn 0).seen 3 + 1) % 65536 ∧
    nth none ({ tileIn 1 with wire := [none, none, none, some (0, true)] } : MeshTile).wire 3 = some (0, true) ∧
    2 ≤ nth 0 ({ tileIn 1 with good := [0, 0, 0, 2] } : MeshTile).good 3 ∧ nth 0 ({ tileIn 1 with good := [0, 0, 0, 1] } : MeshTile).good 3 < 2 ∧ 2 ≤ nth 0 ({ tileIn 1 with missed := [0, 0, 0, 2] } : MeshTile).missed 3 := by
  decide
/-- A flit within its class, one that is none, and the ninth within 2 µs. -/
theorem witness_babble : ¬ (5 < 3 ∨ 72 ≤ 9 ∨ 512 ≠ if 3 ≤ 2 then 128 else 512) ∧ (5 < 6 ∨ 72 ≤ 9 ∨ 512 ≠ if 6 ≤ 2 then 128 else 512) ∧
    ((nth [] ({ tileIn 1 with mal := [[], [], [], List.replicate 8 100000000] } : MeshTile).mal 3).filter fun g => decide (100000000 < g + 2000)).length = 8 := by
  decide
theorem witness_fenceTile : ({ tileIn 1 with due := true } : MeshTile).due = true ∧ ({ tileIn 1 with due := true, appeals := 3 } : MeshTile).up = true ∧
    ((wtile (tileIn 0)).die 0).majority 7 = false ∧ ((wtile (tileIn 0)).die 0).isolated 7 = false ∧ (tileIn 5).up = false := by decide +kernel
/-- The buddy of slice 1 works, and is down while slice 1 holds a dirty line. -/
def wslice (n : Nat) : State := (w0.modTile 0 (sliceTile (buddy 1)) fun _ => tileIn n).modDie 0 fun x =>
  x.modSlice 1 fun q => { q with dirty := [0x200] }
theorem witness_fenceSlice : ((wslice 0).die 0).sliceDown (buddy 1) = false ∧ ((wslice 2).die 0).sliceDown (buddy 1) = true ∧
    0x200 ∈ (((wslice 2).die 0).slice 1).dirty ∧ lineDie 0x200 < (wslice 2).dies.length ∧ 1 < ((wslice 0).die 0).slices.length ∧
    buddy 1 < ((wslice 0).die 0).slices.length ∧ 1 ≠ buddy 1 := by decide +kernel
theorem witness_fenceCore : 0 < (w0.die 0).cores.length ∧ tabAbove 0 w0.strands = true ∧ t0.resident = true ∧ t0.d = 0 ∧ t0.k = 0 := by
  decide +kernel
def msg0 (status : Nat) : Msg :=
  { id := 4, cls := 5, src := 3, dst := 9, seq := 4, body := .fence 0 7 [1] [2], status := status, reissue := false }
theorem witness_broadcast : (msg0 0).body = .fence 0 7 [1] [2] ∧ 1 ∈ [1] ∧ 2 ∈ [2] ∧ 2 ∉ [1] ∧ ({ w0 with msgs := [msg0 0] } : State).msgs[0]? = some (msg0 0) ∧
    (msg0 0).id = 4 ∧ 2 < ((w0.modDie 0 id).die 0).tiles.length := by decide +kernel
/-- A lost message whose source knows of the fence; answered messages, a reply among them. -/
def wtag (m : Msg) : State := { w0 with msgs := [m] }
def reply0 (n : Nat) : Msg := { msg0 n with body := .reply 0 0 [] }
theorem witness_tag : (wtag { msg0 1 with body := .slot 0 0 0 }).queried { msg0 1 with body := .slot 0 0 0 } = true ∧
    ((wtag (msg0 2)).msgs.find? fun q => q.id == 4 && decide (2 ≤ q.status)) = some (msg0 2) ∧
    ((wtag (reply0 2)).msgs.find? fun q => q.id == 4 && decide (2 ≤ q.status)) = some (reply0 2) ∧
    ((wtag (reply0 3)).msgs.find? fun q => q.id == 4 && decide (2 ≤ q.status)) = some (reply0 3) ∧ (msg0 1).status < 2 := by decide +kernel
theorem witness_selfTest : (tileIn 2).since + 1000000 ≤ (wtile (tileIn 2)).gtime ∧ (tileIn 3).appeal = false ∧ (tileIn 4).due = false ∧
    (tileIn 4).since + 100000000 ≤ (wtile (tileIn 4)).gtime ∧ tileSlice 7 = none ∧ (tileSlice 14).isSome = true ∧ w0.gtime < (tileIn 4).since + 100000000 := by decide +kernel

/-! Witnesses: stores from outside, boot, attestation, power, soft errors and debug. -/

/-- Bytes at the end of the advertised space, in a hole, and in a frame with a parked write. -/
theorem witness_outside : w0.paOk (0x400000000 - 1) = true ∧ w0.paOk 0x400000000 = false ∧ w0.paOk (2 * 2 ^ 44) = true ∧
    w0.frameParked (0x400000000 - 1) = false ∧ 3 / 4 ≤ w0.dsCur ∧ w0.dsCur < 4 / 4 ∧ w0.dsCur ≤ 2 ∧ (wframe 0 [parked0 0x201] []).frameParked 0x10000 = true ∧ w0.paOk 0x10000 = true := by decide +kernel
def boots (p : Bool) (l : List Nat) (img back : Option (List Byte)) : BootInput :=
  { powerOn := p, straps := l, linksUp := [true, true, true], image := img, backup := back }
/-- Straps that are three numbers and that are not, and copies that are absent. -/
theorem witness_boot : ([0, 1, 2].length = 3 ∧ [0, 1, 2].all (fun p => decide (p < 3)) = true ∧ distinct [0, 1, 2] = [0, 1, 2]) ∧
    distinct [0, 1, 1] ≠ [0, 1, 1] ∧ imgCheck (boots false [0, 1, 2] none none).image ≠ 0 ∧ imgCheck (boots false [0, 1, 2] none none).backup ≠ 0 ∧
    State.reset.boot.trip = false ∧ (boots true [] none none).powerOn = true ∧ State.reset.dies.length = 3 := by decide +kernel
/-- The module's key is fused, so whether a given image passes is not decided here: one that does meets the rest. -/
theorem witness_bootImage (img : List Byte) (h : imgCheck (some img) = 0) :
    let i := boots true [0, 1, 2] (some img) none
    (i.image = some img ∧ imgCheck i.image = 0) ∧ i.powerOn = true ∧ i.straps.length = 3 ∧ distinct i.straps = i.straps ∧ w0.dies.length = 3 :=
  ⟨⟨rfl, h⟩, rfl, rfl, rfl, by decide +kernel⟩
theorem witness_image : imgWhole (List.replicate 512 0) = true ∧ leVal ((List.replicate 512 (0 : Byte)).take 4) ≠ 0x49524550 ∧
    imgWhole (List.replicate 511 0) = false ∧ w0.boot.held = false := by decide +kernel
def wquote (busy : Bool) (buf : DWord) : State := { w0 with boot := { w0.boot with attBusy := busy, attBuf := buf } }
theorem witness_quote : (wquote false 0x20000).boot.attBusy = false ∧ (wquote false 0x20000).boot.attBuf ≠ 0 ∧ (wquote false 0).boot.attBuf = 0 ∧
    (wquote true 0x20000).paOk ((wquote true 0x20000).boot.quoteAt + 48) = true ∧ (wquote true 0x20000).paOk ((wquote true 0x20000).boot.quoteAt + 511) = true ∧
    (List.range 464).all (fun i => !(wquote true 0x20000).frameParked ((wquote true 0x20000).boot.quoteAt + 48 + i)) = true ∧ (wquote true 0x20000).devQ = [] ∧
    ({ pa := 0, bytes := [], ctx := noCtx } : DevWr) ∈
      ({ wquote true 0x20000 with devQ := [{ pa := 0, bytes := [], ctx := noCtx }] } : State).devQ := by
  decide +kernel
theorem witness_clock : (400 % 25 = 0 ∧ (400 : BitVec 32).toNat % 2048 = 400 ∧ 400 ≤ nth 1600 [1000, 1400, 1600] w0.dsCur) ∧
    (1000 : BitVec 32).toNat % 2048 = 1000 ∧ ¬ 1025 ≤ nth 1600 [1000, 1400, 1600] w0.dsCur ∧ 410 % 25 ≠ 0 := by decide +kernel
def wtherm (n : Int) (bub : Nat) : State := w0.modDie 0 fun x => { x with therm := n, bub := bub, clkCur := 425, sensors := [n] }
theorem witness_thermal : (wtherm 121 0).boot.trip = false ∧ (wtherm 121 0).boot.held = false ∧ 0 ≤ (wtherm 121 0).dsCur ∧
    120 < ((wtherm 121 0).die 0).therm ∧ 105 < ((wtherm 106 0).die 0).therm ∧ ((wtherm 120 0).die 0).therm ≤ 120 ∧
    425 ≤ ((wtherm 120 0).die 0).clkCur ∧ 95 ≤ ((wtherm 95 0).die 0).therm ∧ ((wtherm 105 0).die 0).therm ≤ 105 ∧
    ((wtherm 94 1).die 0).therm < 95 ∧ 0 < ((wtherm 94 1).die 0).bub ∧ ((wtherm 94 0).die 0).bub = 0 := by decide +kernel
def wtrip (n : Int) : State := { wtherm n 0 with boot := { w0.boot with trip := true } }
theorem witness_trip : (wtrip 99).boot.trip = true ∧ (wtrip 99).dies.all (fun x => x.sensors.all fun c => decide (c < 100)) = true ∧
    (wtrip 100).dies.any (fun x => x.sensors.any fun c => decide (100 ≤ c)) = true ∧ 7000 ≤ nth 48000 [7000, 26000, 48000] w0.dsCur ∧
    nth 48000 [7000, 26000, 48000] w0.dsCur < 7001 := by decide +kernel
theorem witness_sram : lineDie 0x200 < w0.dies.length ∧ w0.regionOf (128 * 0x200) = none ∧ coreTile 15 < (w0.die 0).tiles.length ∧
    ((wseq { matAt (.mbld 0 0 64) with started := true }).core 0 0).seq = [{ matAt (.mbld 0 0 64) with started := true }] := by decide +kernel
theorem witness_debug : (wdbg t0).boot.dbg = true ∧ w0.boot.dbg = false ∧ (wdbg t0).strand 0 = some t0 := by decide +kernel

/-! Witnesses: encodings, a turn, the checks of issue, and elementary results. -/

theorem witness_words : (0x1C614441 : BitVec 32).extractLsb' 0 2 = 1#2 ∧ decodeW 0x1C614441 ≠ .encodingNotAnInstruction ∧
    decodeW 0x1C614441 ≠ .yieldW ∧ (0x000010020840009B : BitVec 64).extractLsb' 0 2 = 3#2 ∧
    decodeL 0x000010020840009B ≠ .encodingNotAnInstruction ∧ decodeL 0x000010020840009B ≠ .halt ∧ (0x20E2 : BitVec 16).getLsbD 0 = false := by
  decide +kernel
/-- Each op6, and the fields of YIELD, CALL and EXIT that their entries leave no meaning. -/
theorem witness_noWord : (∀ n ∈ [0, 1, 46, 47, 50, 52, 53, 54, 56, 63], ((BitVec.ofNat 32 (n * 256)).extractLsb' 8 6).toNat = n) ∧
    (BitVec.ofNat 32 (52 * 256 + 8)).extractLsb' 3 5 ≠ 0 ∧ (BitVec.ofNat 32 (53 * 256 + 2 ^ 31)).extractLsb' 14 18 ≠ 0 := by decide
theorem witness_roundTrip : wellFormed (.iadd (lf 0 0 0 16 8 4)) = true ∧ (encodeWord (.iadd (lf 0 0 0 16 8 4))).isSome = true := by decide +kernel

/-- The strand of the placed state fetches its instruction, here IADD v4, v8, v16, from a page that translates. -/
def wadd : State := State.reset.withFetchWord 64 0x0000100208020003
theorem witness_fetch : t0.pc.toNat + 8 ≤ 2 ^ 48 ∧ t0.pc.toNat % 4096 ≤ 4088 ∧
    (wadd.translate t0.ctx t0.d t0.k (some t0.ln) t0.pc.toNat kFetch).2 = .ok 0x10000 ∧
    ((wadd.translate t0.ctx t0.d t0.k (some t0.ln) t0.pc.toNat kFetch).1.translate t0.ctx t0.d t0.k (some t0.ln) t0.pc.toNat kFetch).2 = .ok 0x10000 ∧
    (List.range 8).all (fun j => wadd.readBadFrom t0.d (0x10000 + j) == none && !wadd.heldFrom t0.d (0x10000 + j)) = true ∧
    (match decode (wadd.codeBytes t0.d t0.k 0x10000 8) with
      | .ok (_, n) => n == 8
      | _ => false) = true := by decide +kernel
def wstep : State := (({ wadd with agenda := [] } : State).elapse 0 []).deadlines
theorem witness_step : wadd.agenda = { ns := 0, clk := [], act := .issue 0 } :: [] ∧
    wstep.strand 0 = some t0 ∧ wstep.mayIssue t0 = true ∧
    t0.hold = none ∧ t0.firstPend = none ∧ (match wstep.fetch t0 with
      | (_, .ok _ _ n) => n == 8
      | _ => false) = true := by decide +kernel
theorem witness_goesOn : w0.cur = some 0 ∧ w0.strand 0 = some t0 ∧ (Act.issue 0 ≠ .event (.pcieWrite 0 []) ∧ Act.issue 0 ≠ .event (.applicationCoreStore ⟨0, 0⟩ [])) := by
  exact ⟨rfl, by decide +kernel, nofun, nofun⟩
theorem witness_memory : Memory.wf wadd.mem ∧ (match step wadd with
    | .next _ => true
    | _ => false) = true := by decide +kernel

def fadd0 : LFields := lf 0 0 0 16 8 4
/-- The traps of issue, in the order of their checks: a W MOV with a b operand, a register above the allocation, a block that
overlaps its source at another element, and a source that is not yet there with the scoreboard on. -/
def tscore : Strand := { t0 with rdy := [(8, [{ mask := 0xFFFF, own := false, base := 9, o := 1, depth := 4 }])] }
def wscore : State := (wst tscore).modCtx 0 fun x => { x with cfg := 0x50 }
theorem witness_issue : t0.resume = none ∧ t0.frame = none ∧ (w0.ctx t0.ctx).tvec ≠ 0 ∧ (rowOf (.iadd fadd0)).cond = false ∧
    wellFormed (.movW (wr 1 8 4 0)) = false ∧ wellFormed (.iadd fadd0) = true ∧
    (tsmall 64).allocOk (rowOf (.iadd fadd0)) (lf 0 0 0 16 64 4) = false ∧ (tsmall 64).allocOk (rowOf (.iadd fadd0)) (lf 0 0 0 16 63 4) = true ∧
    wellFormed (.iadd (lf 0 1 0 16 8 9)) = true ∧ t0.allocOk (rowOf (.iadd fadd0)) (lf 0 1 0 16 8 9) = true ∧ overlapOk (rowOf (.iadd fadd0)) (lf 0 1 0 16 8 9) = false ∧
    overlapOk (rowOf (.iadd fadd0)) (lf 0 1 0 16 8 8) = true ∧ wscore.score tscore.ctx = true ∧ wscore.cur = some 0 ∧ wscore.strand 0 = some tscore ∧
    tscore.stallField (rowOf (.iadd fadd0)) fadd0 tscore.mask = some 1 ∧ (rowOf (.iadd fadd0)).roleOk tscore.role = true := by decide +kernel
theorem witness_issueRows : (vecRow (.iadd fadd0)).isSome = true ∧ (vecRow (.movW (wr 1 8 4 0))).isSome = true := by decide +kernel
/-- A SHUT in a strand of role V, and an MCLR in one of role C. -/
theorem witness_role : (engRow (.shut (lf 0 0 0 0 136 0))).isSome = true ∧ wellFormed (.shut (lf 0 0 0 0 136 0)) = true ∧
    t0.allocOk (rowOf (.shut (lf 0 0 0 0 136 0))) (lf 0 0 0 0 136 0) = true ∧ overlapOk (rowOf (.shut (lf 0 0 0 0 136 0))) (lf 0 0 0 0 136 0) = true ∧
    shutPre false 8 t0 = none ∧ t0.role ≠ 2 ∧ (seqRow (.mclr (lf 0 0 0 0 0 0))).isSome = true ∧ wellFormed (.mclr (lf 0 0 0 0 0 0)) = true ∧
    (tr 2).allocOk (rowOf (.mclr (lf 0 0 0 0 0 0))) (lf 0 0 0 0 0 0) = true ∧ overlapOk (rowOf (.mclr (lf 0 0 0 0 0 0))) (lf 0 0 0 0 0 0) = true ∧
    (tr 2).role ≠ 1 := by decide +kernel
/-- IADD of two elements that is to stop before its second one. -/
def fpart : LFields := lf 0 1 0 16 8 4
theorem witness_part : Passes (.iadd fpart) (rowOf (.iadd fpart)) fpart noPre w0 0 t0 ∧ (vecRow (.iadd fpart)).isSome = true ∧
    uniform (rowOf (.iadd fpart)) fpart = false ∧ t0.nowElem < 1 ∧ 1 < elems (rowOf (.iadd fpart)) fpart ∧
    (match vecRow (.iadd fpart) with
      | some r => r.ready t0 && ((List.range (elems r.sp r.f)).all fun e => (List.range 16).all fun t =>
          !mHas ((t0.cutBefore 1).vecMask r.sp r.f (t0.nowAdm r.sp r.f) e) t ||
            ((t0.cutBefore 1).vecOut r.sp r.f (r.vd t0) (t0.nowAdm r.sp r.f) e t).isSome)
      | none => false) = true := ⟨passes_of (by decide +kernel), by decide +kernel, by decide +kernel, by decide +kernel, by decide +kernel, by decide +kernel⟩
/-- IADD through index register 2, whose window is empty at reset. -/
def find : LFields := lf 0 0 0 16 0xC2 4
theorem witness_index : Passes (.iadd find) (rowOf (.iadd find)) find noPre w0 0 t0 ∧ (vecRow (.iadd find)).isSome = true ∧
    elems (rowOf (.iadd find)) find = 1 ∧ uniform (rowOf (.iadd find)) find = false ∧ t0.nowAdm (rowOf (.iadd find)) find ≠ 0 ∧
    (match vecRow (.iadd find) with
      | some r => (match t0.inputs r.sp r.f (r.vd t0) 0 (mLow (t0.nowAdm r.sp r.f)) with
        | .error k => k == 2 && r.ready t0
        | _ => false)
      | none => false) = true := ⟨passes_of (by decide +kernel), by decide +kernel⟩

/-- A NaN, an infinity and a finite number of each format, with and without a sign. -/
theorem witness_float : fpFormats.all (fun f => decide (f.nanBits < 2 * f.signBit) && f.isNan f.nanBits && !f.isNan f.infBits && f.isInf f.infBits &&
    !f.isNan f.signBit && !f.isInf f.signBit && f.isNeg f.signBit && !f.isNeg 0 && decide (f.infBits < 2 * f.signBit)) = true := by decide +kernel
theorem witness_complex : (cxFmt 0).isInf (reOf 0x00007C00) = true ∧ (cxFmt 0).isInf (imOf 0xFC000000) = true := by decide +kernel

/-- Instructions stated whole, each in the placed state. -/
def wholeSamples : List Instr := [.idot4 (lf 4 0 24 16 8 4), .lea (lf 0 0 7 16 8 4), .icmp (lf 1 0 5 16 8 4)]
theorem witness_whole_check : wholeSamples.all vecFits = true := by decide +kernel
theorem witness_illFormed : ({ lf 0 0 8 16 8 4 with e := 0 } : LFields).c.toNat = 8 ∧ (lf 0 0 0 16 8 5).d.toNat % 2 = 1 ∧ (lf 0 0 0 16 9 4).a.toNat % 2 = 1 ∧
    6 ≤ (lf 1 0 6 16 8 4).c.toNat ∧ (lf 0 0 0 1 0 136).b ≠ 0 ∧ t0.frame = none := by decide
theorem witness_getfmt : Passes (.getfmt (lf 0 0 0 0 0 136)) (rowOf (.getfmt (lf 0 0 0 0 0 136))) (lf 0 0 0 0 0 136) noPre w0 0 t0 ∧
    t0.nowAdm (rowOf (.getfmt (lf 0 0 0 0 0 136))) (lf 0 0 0 0 0 136) ≠ 0 := ⟨passes_of (by decide +kernel), by decide +kernel⟩
theorem witness_nop : Passes (.nop (lf 0 0 0 0 0 0)) (rowOf (.nop (lf 0 0 0 0 0 0))) (lf 0 0 0 0 0 0) noPre w0 0 t0 ∧ t0.stack = [] ∧
    Passes (.yield (lf 0 0 0 0 0 0)) (rowOf (.yield (lf 0 0 0 0 0 0))) (lf 0 0 0 0 0 0) noPre w0 0 t0 :=
  ⟨passes_of (by decide +kernel), rfl, passes_of (by decide +kernel)⟩
/-- BRA unguarded, and under a predicate that no thread holds. -/
theorem witness_bra : Passes (.bra (lf 0 0 0 0 16 0)) (rowOf (.bra (lf 0 0 0 0 16 0))) (lf 0 0 0 0 16 0) noPre w0 0 t0 ∧
    Passes (.bra (none1 (lf 0 0 0 0 16 0))) (rowOf (.bra (lf 0 0 0 0 16 0))) (none1 (lf 0 0 0 0 16 0)) noPre w0 0 t0 ∧
    t0.mask &&& t0.qget 0 ≠ 0 ∧ t0.mask &&& t0.qget 1 = 0 := ⟨passes_of (by decide +kernel), passes_of (by decide +kernel), by decide +kernel⟩

/-! Witnesses: what is stated of parts of the operations. -/

theorem witness_launchOk : launchOk placedRecord = true := by decide +kernel
/-- A group in its last phase with all of its members arrived. -/
def group0 : Group := { ctx := 0, key := 0, phase := 2 ^ 32 - 1, members := [0, 5], arrived := [(0, 2), (5, 2)] }
theorem witness_phase : group0.members ≠ [] ∧ group0.members.all (fun j => group0.arrived.any fun a => a.1 == j) = true ∧
    group0.arrived.all (fun a => decide (a.2 ≤ group0.members.length)) = true ∧ { group0 with arrived := [(0, 3), (5, 2)] } ≠ group0 := by decide
theorem witness_token : phasePast 0 (2 ^ 32 - 1) = true ∧ phasePast (2 ^ 31) 0 = true ∧ phasePast (2 ^ 31 + 1) 0 = false ∧ phasePast 7 7 = false := by
  decide
theorem witness_takeEmpty : ((wq queue0).queue 0).owner = t0.ctx ∧ ((wq queue0).queue 0).parts = [[], [], []] ∧ ((wq queue0).queue 0).state = 1 ∧
    2 ≤ ((wq { queue0 with state := 2 }).queue 0).state ∧ ((wq { queue0 with ctl := 1 }).queue 0).owner ≠ t0.ctx := by decide +kernel
theorem witness_mbld : (matAt (.mbld 0 0 64)).kind = .mbld 0 0 64 ∧ 0 < w0.dies.length ∧ 0 < (w0.die 0).cores.length := by decide +kernel
theorem witness_redValues : (lf 3 0 0 8 0x84 0).b.toNat < 128 ∧ (lf 3 0 0 8 0x84 0).m3 = 3 ∧ (lf 4 0 0 8 0x84 0).m3 = 4 ∧ (lf 3 0 0 8 0x84 0).u = 0 := by decide
theorem witness_fall : (t0With { storeOp with fin := true }).marks = [] ∧ ((t0With { storeOp with fin := true }).ops.takeWhile (·.fin)).length = 1 := by decide +kernel
theorem witness_window : (3 : Nat) ≠ 4 ∧ 0x3F4000000002 % 4 ≠ 0 ∧ ((BitVec.ofNat 64 7).truncate 32).toNat = 7 ∧ ((win 3).ctx 0).state = 3 ∧ ((win 4).ctx 0).state = 4 := by
  decide +kernel

/-! Effects, each on the placed strand with a few registers set; the expected results are worked by hand from the rules. -/

/-- Vector registers of thread 0 and scalars. -/
def tv (vs : List (Nat × Word)) : Strand := vs.foldl (fun st x => if x.1 < 128 then st.vset x.1 0 x.2 else st.sset (x.1 - 128) x.2) t0
/-- The strand after one instruction. -/
def after (i : Instr) (st : Strand) : Option Strand := match exec i (wst st) with
  | .next t => t.strand 0
  | _ => none
/-- Register `r` of thread 0 afterwards. -/
def vAfter (i : Instr) (vs : List (Nat × Word)) (r : Nat) : Option Word := (after i (tv vs)).map fun st => st.vget r 0

/-- MOVI of W with imm18 = −5, fetched and decoded (R88). -/
theorem test_step_movi : (match step (State.reset.withFetchWord 32 0xFFFEE811) with
    | .next t => (t.strand 0).map fun st => (st.vget 2 0, st.vget 2 15, st.pc)
    | _ => none) = some (0xFFFFFFFB, 0xFFFFFFFB, 0x10004) := by decide +kernel
theorem test_iadd_wraps : vAfter (.iadd (lf 0 0 0 16 8 4)) [(8, 0xFFFFFFFF), (16, 2)] 4 = some 1 := by decide +kernel
theorem test_iadd_halves : vAfter (.iadd (lf 2 0 0 16 8 8)) [(8, 0x0001FFFF), (16, 0x00010001)] 8 = some 0x00020000 := by decide +kernel
theorem test_isub_unsigned : vAfter (.isub (lf 1 0 0 16 8 4)) [(8, 0), (16, 1)] 4 = some 0xFFFFFFFF := by decide +kernel
theorem test_imul_low : vAfter (.imul (lf 0 0 0 16 8 4)) [(8, 0x80000001), (16, 3)] 4 = some 0x80000003 := by decide +kernel
theorem test_ishl_masks : vAfter (.ishl (lf 6 0 0 16 8 4)) [(8, 3), (16, 33)] 4 = some 6 := by decide +kernel
theorem test_isra_sign : vAfter (.isra (lf 6 0 0 16 8 4)) [(8, 0x80000000), (16, 31)] 4 = some 0xFFFFFFFF := by decide +kernel
theorem test_clz_zero : vAfter (.clz (lf 6 0 0 0 8 4)) [(8, 0)] 4 = some 32 := by decide +kernel
theorem test_popc : vAfter (.popc (lf 6 0 0 0 8 4)) [(8, 0xF0F00001)] 4 = some 9 := by decide +kernel
theorem test_idot4_signed : vAfter (.idot4 (lf 4 0 24 16 8 4)) [(8, 0x01FF0203), (16, 0x01010101), (24, 10)] 4 = some 15 := by decide +kernel
theorem test_fadd : vAfter (.fadd (lf 0 0 0 16 8 4)) [(8, 0x3F800000), (16, 0x40000000)] 4 = some 0x40400000 := by decide +kernel
theorem test_fadd_opposite_infinities : (after (.fadd (lf 0 0 0 16 8 4)) (tv [(8, 0x7F800000), (16, 0xFF800000)])).map (fun st => (st.vget 4 0, st.sts &&& 0x10)) =
    some (0x7FC00000, 0x10) := by decide +kernel
theorem test_cmul : vAfter (.cmul (lf 0 0 0 16 8 4)) [(8, 0x40003C00), (16, 0x44004200)] 4 = some 0x4900C500 := by decide +kernel
theorem test_movhi : vAfter (.movhi (lf 0 0 0xAB 0xCD 0 4)) [(4, 0x1234)] 4 = some 0xABCD1234 := by decide +kernel
/-- IADD under a predicate that holds for thread 1 alone leaves thread 0. -/
theorem test_guard : (after (.iadd { lf 0 0 0 16 8 4 with g6 := 1 }) { tv [(8, 5), (16, 6), (4, 9)] with q := [(1, 2)] }).map
    (fun st => (st.vget 4 0, st.vget 4 1)) = some (9, 0) := by decide +kernel
theorem test_bra : (after (.bra (lf 0 0 0 0 16 0)) t0).map (·.pc) = some 0x10020 := by decide +kernel
theorem test_trap : (after (.trap (lf 0 0 0x12 0x34 0 0)) t0).map (fun st => (st.pc, st.epc, st.emask, st.frame.isSome)) =
    some (0x20000, 0x10000, 0xFFFF, true) := by decide +kernel
theorem test_exit : (after (.exit (lf 0 0 0 0 0 0)) t0).map (fun st => (st.mask, st.run)) = some (0, .exited) := by decide +kernel
theorem test_illegal : (after .encodingNotAnInstruction t0).map (fun st => (st.pc, st.cause)) = some (0x20000, 0x1) := by decide +kernel


end Sys2Proof.Machine.Tests
end

section
open Sys2Proof Sys2Proof.Machine
namespace Sys2Proof

/-- The bytes of a word are its slices of eight bits, from the lowest up. -/
theorem wordBytes_shiftRight {w : Nat} (x : BitVec w) (n k : Nat) :
    wordBytes n (x.toNat >>> k) = (List.range n).map fun i => x.extractLsb' (k + 8 * i) 8 := by
  induction n generalizing k with
  | zero => rfl
  | succ n ih =>
    have h : x.toNat >>> k / 256 = x.toNat >>> (k + 8) := by
      rw [Nat.shiftRight_add, Nat.shiftRight_eq_div_pow _ 8]
    rw [wordBytes, h, ih, List.range_succ_eq_map, List.map_cons, List.map_map]
    refine congrArg _ (List.map_congr_left fun i _ => ?_)
    rw [Function.comp, Nat.add_assoc, Nat.mul_succ, Nat.add_comm 8]

theorem half_extract {w : Nat} (x : BitVec w) (k : Nat) :
    half (x.extractLsb' k 8) (x.extractLsb' (k + 8) 8) = x.extractLsb' k 16 :=
  BitVec.extractLsb'_append_extractLsb'_eq_extractLsb' rfl

theorem getLsbD_lowByte {w : Nat} (x : BitVec w) (i : Nat) (hi : i < 8) :
    (x.extractLsb' 0 8).getLsbD i = x.getLsbD i := by
  simp [hi]

theorem decode_bytes_h (x : BitVec 16) (rest : List Byte) (h : x.getLsbD 0 = false) :
    decode ((Enc.h x).bytes ++ rest) = .ok (decodeH x, 2) := by
  have hb : (Enc.h x).bytes = [x.extractLsb' 0 8, x.extractLsb' 8 8] := wordBytes_shiftRight x 2 0
  have hx : half (x.extractLsb' 0 8) (x.extractLsb' 8 8) = x := (half_extract x 0).trans BitVec.extractLsb'_eq_self
  simp only [hb, List.cons_append, decode, getLsbD_lowByte x 0 (by omega), h, hx]
  rfl

theorem decode_bytes_w (x : BitVec 32) (rest : List Byte) (h0 : x.getLsbD 0 = true) (h1 : x.getLsbD 1 = false) :
    decode ((Enc.w x).bytes ++ rest) = .ok (decodeW x, 4) := by
  have hb : (Enc.w x).bytes = [x.extractLsb' 0 8, x.extractLsb' 8 8, x.extractLsb' 16 8, x.extractLsb' 24 8] :=
    wordBytes_shiftRight x 4 0
  have hx : half (x.extractLsb' 16 8) (x.extractLsb' 24 8) ++ half (x.extractLsb' 0 8) (x.extractLsb' 8 8) = x := by
    rw [half_extract x 16, half_extract x 0]
    exact (BitVec.extractLsb'_append_extractLsb'_eq_extractLsb' rfl).trans BitVec.extractLsb'_eq_self
  simp only [hb, List.cons_append, decode, getLsbD_lowByte x 0 (by omega), getLsbD_lowByte x 1 (by omega), h0, h1, hx]
  rfl

theorem decode_bytes_l (x : BitVec 64) (rest : List Byte) (h0 : x.getLsbD 0 = true) (h1 : x.getLsbD 1 = true) :
    decode ((Enc.l x).bytes ++ rest) = .ok (decodeL x, 8) := by
  have hb : (Enc.l x).bytes = [x.extractLsb' 0 8, x.extractLsb' 8 8, x.extractLsb' 16 8, x.extractLsb' 24 8,
      x.extractLsb' 32 8, x.extractLsb' 40 8, x.extractLsb' 48 8, x.extractLsb' 56 8] := wordBytes_shiftRight x 8 0
  have hx : half (x.extractLsb' 48 8) (x.extractLsb' 56 8) ++ half (x.extractLsb' 32 8) (x.extractLsb' 40 8) ++
      half (x.extractLsb' 16 8) (x.extractLsb' 24 8) ++ half (x.extractLsb' 0 8) (x.extractLsb' 8 8) = x := by
    rw [half_extract x 48, half_extract x 32, half_extract x 16, half_extract x 0]
    have h2 : x.extractLsb' 48 16 ++ x.extractLsb' 32 16 = x.extractLsb' 32 32 :=
      BitVec.extractLsb'_append_extractLsb'_eq_extractLsb' rfl
    have h3 : x.extractLsb' 32 32 ++ x.extractLsb' 16 16 = x.extractLsb' 16 48 :=
      BitVec.extractLsb'_append_extractLsb'_eq_extractLsb' rfl
    rw [h2, h3]
    exact (BitVec.extractLsb'_append_extractLsb'_eq_extractLsb' rfl).trans BitVec.extractLsb'_eq_self
  simp only [hb, List.cons_append, decode, getLsbD_lowByte x 0 (by omega), getLsbD_lowByte x 1 (by omega), h0, h1, hx]
  rfl

/-! The decoder's slices of the encodings of the layouts (R82, R85, R91). -/

theorem hFields_encH (n : Nat) (f : HFields) : hFields (encH n f) = f := by
  unfold hFields encH
  simp (disch := decide) only [BitVec.extractLsb'_append_eq_of_le (v := 5 + 5 + 4 + 1) (w := 1),
    BitVec.extractLsb'_append_eq_of_le, BitVec.extractLsb'_append_eq_of_add_le]
  simp only [Nat.reduceSub, BitVec.extractLsb'_eq_self]
theorem wrFields_encWR (n : Nat) (f : WRFields) : wrFields (encWR n f) = f := by
  unfold wrFields encWR
  simp (disch := decide) only [BitVec.extractLsb'_append_eq_of_le (v := 6 + 6 + 6 + 6 + 3 + 2 + 1) (w := 2),
    BitVec.extractLsb'_append_eq_of_le, BitVec.extractLsb'_append_eq_of_add_le]
  simp only [Nat.reduceSub, BitVec.extractLsb'_eq_self]
theorem wiFields_encWI (n : Nat) (f : WIFields) : wiFields (encWI n f) = f := by
  unfold wiFields encWI
  simp (disch := decide) only [BitVec.extractLsb'_append_eq_of_le (v := 18 + 6 + 5 + 1) (w := 2),
    BitVec.extractLsb'_append_eq_of_le, BitVec.extractLsb'_append_eq_of_add_le]
  simp only [Nat.reduceSub, BitVec.extractLsb'_eq_self]
theorem lFields_encL (n : Nat) (f : LFields) : lFields (encL n f) = f := by
  unfold lFields encL
  simp (disch := decide) only [BitVec.extractLsb'_append_eq_of_le (v := 3 + 2 + 2 + 8 + 8 + 8 + 8 + 9 + 1 + 6 + 1 + 1 + 4 + 1) (w := 2),
    BitVec.extractLsb'_append_eq_of_le, BitVec.extractLsb'_append_eq_of_add_le]
  simp only [Nat.reduceSub, BitVec.extractLsb'_eq_self]
theorem op4_encH (n : Nat) (f : HFields) : (encH n f).extractLsb' 2 4 = BitVec.ofNat 4 n := by
  unfold encH
  simp (disch := decide) only [BitVec.extractLsb'_append_eq_of_le (v := 5 + 5 + 4 + 1) (w := 1),
    BitVec.extractLsb'_append_eq_of_le, BitVec.extractLsb'_append_eq_of_add_le]
  simp only [Nat.reduceSub, BitVec.extractLsb'_eq_self]
theorem op6_encWR (n : Nat) (f : WRFields) : (encWR n f).extractLsb' 8 6 = BitVec.ofNat 6 n := by
  unfold encWR
  simp (disch := decide) only [BitVec.extractLsb'_append_eq_of_le (v := 6 + 6 + 6 + 6 + 3 + 2 + 1) (w := 2),
    BitVec.extractLsb'_append_eq_of_le, BitVec.extractLsb'_append_eq_of_add_le]
  simp only [Nat.reduceSub, BitVec.extractLsb'_eq_self]
theorem op6_encWI (n : Nat) (f : WIFields) : (encWI n f).extractLsb' 8 6 = BitVec.ofNat 6 n := by
  unfold encWI
  simp (disch := decide) only [BitVec.extractLsb'_append_eq_of_le (v := 18 + 6 + 5 + 1) (w := 2),
    BitVec.extractLsb'_append_eq_of_le, BitVec.extractLsb'_append_eq_of_add_le]
  simp only [Nat.reduceSub, BitVec.extractLsb'_eq_self]
theorem op9_encL (n : Nat) (f : LFields) : (encL n f).extractLsb' 16 9 = BitVec.ofNat 9 n := by
  unfold encL
  simp (disch := decide) only [BitVec.extractLsb'_append_eq_of_le (v := 3 + 2 + 2 + 8 + 8 + 8 + 8 + 9 + 1 + 6 + 1 + 1 + 4 + 1) (w := 2),
    BitVec.extractLsb'_append_eq_of_le, BitVec.extractLsb'_append_eq_of_add_le]
  simp only [Nat.reduceSub, BitVec.extractLsb'_eq_self]
theorem bit0_encH (n : Nat) (f : HFields) : (encH n f).getLsbD 0 = false := by
  simp only [encH, BitVec.getLsbD_append]; rfl
theorem low_encWR (n : Nat) (f : WRFields) : (encWR n f).getLsbD 0 = true ∧ (encWR n f).getLsbD 1 = false := by
  simp only [encWR, BitVec.getLsbD_append]
  exact ⟨rfl, rfl⟩
theorem low_encWI (n : Nat) (f : WIFields) : (encWI n f).getLsbD 0 = true ∧ (encWI n f).getLsbD 1 = false := by
  simp only [encWI, BitVec.getLsbD_append]; exact ⟨rfl, rfl⟩
theorem low_encL (n : Nat) (f : LFields) : (encL n f).getLsbD 0 = true ∧ (encL n f).getLsbD 1 = true := by
  simp only [encL, BitVec.getLsbD_append]; exact ⟨rfl, rfl⟩

theorem decodeH_encH (n : Nat) (f : HFields) (k : HFields → Instr) (hn : n < 16) (hk : lookupOp hTable n = some k) :
    decodeH (encH n f) = k f := by
  rw [decodeH, op4_encH, BitVec.toNat_ofNat, Nat.mod_eq_of_lt hn, hk, hFields_encH]
theorem decodeW_encWR (n : Nat) (f : WRFields) (k : WRFields → Instr) (hn : n < 64) (hk : lookupOp wrTable n = some k) :
    decodeW (encWR n f) = k f := by
  rw [decodeW, op6_encWR, BitVec.toNat_ofNat, Nat.mod_eq_of_lt hn, hk, wrFields_encWR]
theorem decodeW_encWI (n : Nat) (f : WIFields) (k : WIFields → Instr) (hn : n < 64) (hr : lookupOp wrTable n = none)
    (hk : lookupOp wiTable n = some k) : decodeW (encWI n f) = k f := by
  rw [decodeW, op6_encWI, BitVec.toNat_ofNat, Nat.mod_eq_of_lt hn, hr, hk, wiFields_encWI]
theorem decodeL_encL (n : Nat) (f : LFields) (k : LFields → Instr) (hn : n < 512) (hk : lookupOp lTable n = some k) :
    decodeL (encL n f) = byForm (k f) := by
  rw [decodeL, op9_encL, BitVec.toNat_ofNat, Nat.mod_eq_of_lt hn, hk, lFields_encL]

/-! What has an encoding, by the size of its word. -/

/-- A well-formed instruction with a type field has it among the codes that its row admits (R95). -/
theorem m3_of_lOk {i : Instr} {f : LFields} {sp : OpSpec} (hs : specOf i = some sp) (h : lOk i f = true) :
    sp.m3.testBit f.m3.toNat = true := by
  simp only [lOk, hs, OpSpec.ok, Bool.and_eq_true] at h
  tauto

theorem m3_ne_one {x : BitVec 3} (h : Nat.testBit 1 x.toNat = true) : x ≠ 1 := by
  rintro rfl
  exact absurd h (by decide)
theorem m3_eq_one {x : BitVec 3} (h : Nat.testBit 2 x.toNat = true) : x = 1 := by
  revert x
  decide

/-- The instructions whose op9 carries two operations stand for the one that m3 selects (R337, R414, R476). -/
theorem byForm_ringp {f : LFields} (h : wellFormed (.ringp f) = true) : byForm (.ringp f) = .ringp f :=
  if_neg (m3_ne_one (m3_of_lOk (i := .ringp f) rfl h))
theorem byForm_dispq {f : LFields} (h : wellFormed (.dispq f) = true) : byForm (.dispq f) = .dispq f :=
  if_neg (m3_ne_one (m3_of_lOk (i := .dispq f) rfl h))
theorem byForm_balloonGive {f : LFields} (h : wellFormed (.balloonGive f) = true) :
    byForm (.balloonGive f) = .balloonGive f :=
  if_neg (m3_ne_one (m3_of_lOk (i := .balloonGive f) rfl h))
theorem byForm_ringpAfter {f : LFields} (h : wellFormed (.ringpAfter f) = true) : byForm (.ringp f) = .ringpAfter f :=
  if_pos (m3_eq_one (m3_of_lOk (i := .ringpAfter f) rfl h))
theorem byForm_dispqQuery {f : LFields} (h : wellFormed (.dispqQuery f) = true) : byForm (.dispq f) = .dispqQuery f :=
  if_pos (m3_eq_one (m3_of_lOk (i := .dispqQuery f) rfl h))
theorem byForm_balloonQuery {f : LFields} (h : wellFormed (.balloonQuery f) = true) :
    byForm (.balloonGive f) = .balloonQuery f :=
  if_pos (m3_eq_one (m3_of_lOk (i := .balloonQuery f) rfl h))

theorem encodeWord_h {i : Instr} {x : BitVec 16} (h : encodeWord i = some (.h x)) :
    ∃ n f k, n < 16 ∧ lookupOp hTable n = some k ∧ i = k f ∧ x = encH n f := by
  cases i <;> cases h
  all_goals exact ⟨_, _, _, by decide, rfl, rfl, rfl⟩

set_option maxRecDepth 4000 in
theorem encodeWord_l {i : Instr} {x : BitVec 64} (hw : wellFormed i = true) (h : encodeWord i = some (.l x)) :
    (∃ n f k, n < 512 ∧ lookupOp lTable n = some k ∧ byForm (k f) = i ∧ x = encL n f) ∨
      i = .halt ∧ x = 0x0000000001D70003 := by
  cases i <;> cases h
  case halt => exact .inr ⟨rfl, rfl⟩
  case ringp f => exact .inl ⟨_, f, .ringp, by decide, rfl, byForm_ringp hw, rfl⟩
  case dispq f => exact .inl ⟨_, f, .dispq, by decide, rfl, byForm_dispq hw, rfl⟩
  case balloonGive f => exact .inl ⟨_, f, .balloonGive, by decide, rfl, byForm_balloonGive hw, rfl⟩
  case ringpAfter f => exact .inl ⟨_, f, .ringp, by decide, rfl, byForm_ringpAfter hw, rfl⟩
  case dispqQuery f => exact .inl ⟨_, f, .dispq, by decide, rfl, byForm_dispqQuery hw, rfl⟩
  case balloonQuery f => exact .inl ⟨_, f, .balloonGive, by decide, rfl, byForm_balloonQuery hw, rfl⟩
  all_goals exact .inl ⟨_, _, _, by decide, rfl, rfl, rfl⟩

theorem encodeWord_w {i : Instr} {x : BitVec 32} (h : encodeWord i = some (.w x)) :
    (∃ n f k, n < 64 ∧ lookupOp wrTable n = some k ∧ i = k f ∧ x = encWR n f) ∨
      (∃ n f k, n < 64 ∧ lookupOp wrTable n = none ∧ lookupOp wiTable n = some k ∧ i = k f ∧ x = encWI n f) ∨
        i = .yieldW ∧ x = encWI 52 { imm := 0, d5 := 0, e := 0 } := by
  cases i <;> cases h
  case yieldW => exact .inr (.inr ⟨rfl, rfl⟩)
  case moviW | smoviW | iaddi | saddi | movhiW | smovhi | braW | loopW | callW | waitcW | exitW | rcvW | divW =>
    exact .inr (.inl ⟨_, _, _, by decide, rfl, rfl, rfl, rfl⟩)
  all_goals exact .inl ⟨_, _, _, by decide, rfl, rfl, rfl⟩

theorem decode_encodeWord (i : Instr) (e : Enc) (hw : wellFormed i = true) (he : encodeWord i = some e)
    (rest : List Byte) :
    decode (e.bytes ++ rest) = .ok (i, e.bytes.length) := by
  cases e with
  | h x =>
    obtain ⟨n, f, k, hn, hk, rfl, rfl⟩ := encodeWord_h he
    rw [decode_bytes_h _ _ (bit0_encH n f), decodeH_encH n f k hn hk]
    rfl
  | w x =>
    obtain ⟨n, f, k, hn, hk, rfl, rfl⟩ | ⟨n, f, k, hn, hr, hk, rfl, rfl⟩ | ⟨rfl, rfl⟩ := encodeWord_w he
    · rw [decode_bytes_w _ _ (low_encWR n f).1 (low_encWR n f).2, decodeW_encWR n f k hn hk]
      rfl
    · rw [decode_bytes_w _ _ (low_encWI n f).1 (low_encWI n f).2, decodeW_encWI n f k hn hr hk]
      rfl
    · rfl
  | l x =>
    obtain ⟨n, f, k, hn, hk, rfl, rfl⟩ | ⟨rfl, rfl⟩ := encodeWord_l hw he
    · rw [decode_bytes_l _ _ (low_encL n f).1 (low_encL n f).2, decodeL_encL n f k hn hk]
      rfl
    · rfl

/-- Settles O5: each layout's slices return its fields and its opcode, and the tables of the decoder hold the opcodes that the
encoder writes. -/
theorem decodeEncode : Obligations.DecodeEncode := decode_encodeWord

/-- Settles O7, by evaluating the decoder on the sixteen bytes. -/
theorem decodedWords : Obligations.DecodedWords := ⟨rfl, rfl, rfl, rfl⟩

end Sys2Proof
end

section
/-! Memory stays canonical (O3). Every function that a step calls has a lemma here, in the order of the model: from a
state whose memory is in canonical form it gives one whose memory is too. Only `State.homePut` and `State.zeroRange` write
memory, as `homePut_stores` and `zeroRange_stores` say; the others pass it on, so their lemmas follow their bodies. -/

open Sys2Proof
namespace Sys2Proof.Machine
set_option Elab.async false

/-- The state's memory is in canonical form. -/
def MemWf (s : State) : Prop := Memory.wf s.mem

/-- What leaves memory as it was keeps it canonical. -/
theorem same_wf {s t : State} (h : MemWf s) (e : t.mem = s.mem := by rfl) : MemWf t :=
  (congrArg Memory.wf e).mpr h

/-- The same where a field other than memory is set. -/
theorem with_wf {s : State} {a b c d e f g i j k l m n o p q r t u v w x y z a' b' c' d'} (h : MemWf s) :
    MemWf ⟨a, b, s.mem, c, d, e, f, g, i, j, k, l, m, n, o, p, q, r, t, u, v, w, x, y, z, a', b', c', d'⟩ := h

/-- The next state, where an outcome has one, has canonical memory. -/
def NextWf : Result → Prop
  | .next t => MemWf t
  | .fault _ | .refused _ => True

/-- The outcome of the checks of issue, where they end the turn, has canonical memory. -/
def IssueWf : Issue → Prop
  | .out o => NextWf o
  | .go _ => True

/-- What an operation gives, where it gives something, holds canonical memory. -/
def OptWf {α : Type} (m : α → State) : Option α → Prop
  | some x => MemWf (m x)
  | none => True

theorem foldl_wf {α : Type} {g : State → α → State} {l : List α} {s : State}
    (hg : ∀ s x, MemWf s → MemWf (g s x)) (h : MemWf s) : MemWf (l.foldl g s) := by
  induction l generalizing s with
  | nil => exact h
  | cons x l ih => exact ih (hg s x h)

/-- The same of a fold that carries a value beside the state. -/
theorem foldl_fst_wf {α β : Type} {g : State × β → α → State × β} {l : List α} {s : State} {b : β}
    (hg : ∀ q x, MemWf q.1 → MemWf (g q x).1) (h : MemWf s) : MemWf (l.foldl g (s, b)).1 := by
  suffices hl : ∀ q : State × β, MemWf q.1 → MemWf (l.foldl g q).1 from hl (s, b) h
  induction l with
  | nil => exact fun _ hq => hq
  | cons x l ih => exact fun q hq => ih _ (hg q x hq)

theorem ite_wf {c : Prop} {_ : Decidable c} {a b : State} (ha : MemWf a) (hb : MemWf b) :
    MemWf (if c then a else b) := by
  split
  · exact ha
  · exact hb

theorem ite_fst_wf {α : Type} {c : Prop} {_ : Decidable c} {a b : State × α} (ha : MemWf a.1)
    (hb : MemWf b.1) : MemWf (if c then a else b).1 := by
  split
  · exact ha
  · exact hb

theorem ite_next {c : Prop} {_ : Decidable c} {a b : Result} (ha : NextWf a) (hb : NextWf b) :
    NextWf (if c then a else b) := by
  split
  · exact ha
  · exact hb

theorem ite_opt {α : Type} {m : α → State} {c : Prop} {_ : Decidable c} {a b : Option α}
    (ha : OptWf m a) (hb : OptWf m b) : OptWf m (if c then a else b) := by
  split
  · exact ha
  · exact hb

theorem optMap_wf {α β : Type} {m : α → State} {n : β → State} {g : α → β} {o : Option α}
    (hg : ∀ x, MemWf (m x) → MemWf (n (g x))) (h : OptWf m o) : OptWf n (o.map g) := by
  cases o with
  | none => trivial
  | some x => exact hg x h

theorem fst_wf {α : Type} {p : State × α} {s : State} {x : α} (e : p = (s, x)) (h : MemWf p.1) :
    MemWf s := by
  rwa [e] at h

theorem next_wf {r : Result} {s : State} (e : r = .next s) (h : NextWf r) : MemWf s := by
  rwa [e] at h

theorem some_wf {α : Type} {m : α → State} {o : Option α} {x : α} (e : o = some x) (h : OptWf m o) :
    MemWf (m x) := by
  rwa [e] at h

section
variable {s : State} (h : MemWf s)
include h

/-! Memory, its cached copies and the device. -/

theorem memWf_putDie {d x} : MemWf (s.putDie d x) := (putDie_stores ..).kept h

theorem memWf_modDie {d g} : MemWf (s.modDie d g) := (modDie_stores ..).kept h

theorem memWf_modCore {d c g} : MemWf (s.modCore d c g) := (modCore_stores ..).kept h

theorem memWf_modTile {d m g} : MemWf (s.modTile d m g) := memWf_modDie h

theorem memWf_sliceUse {d line hint} : MemWf (s.sliceUse d line hint) := (sliceUse_stores ..).kept h

theorem memWf_tidy {d} : MemWf (s.tidy d) := (tidy_stores ..).kept h

theorem memWf_update {d c e line val} : MemWf (s.update d c e line val) := (update_stores ..).kept h

theorem memWf_lineBack {line} : MemWf (s.lineBack line) := (lineBack_stores ..).kept h

theorem memWf_sendPut {d pa b ctx} : MemWf (s.sendPut d pa b ctx) := (sendPut_stores ..).kept h

theorem memWf_homePuts {pa bs ctx} : MemWf (s.homePuts pa bs ctx) := (homePuts_stores ..).kept h

theorem memWf_corePuts {d c pa bs ctx hint} : MemWf (s.corePuts d c pa bs ctx hint) :=
  (corePuts_stores ..).kept h

theorem memWf_fillSlice {d pa hint} : MemWf (s.fillSlice d pa hint) := (fillSlice_stores ..).kept h

theorem memWf_touch {d c pa hint} : MemWf (s.touch d c pa hint) := (touch_stores ..).kept h

theorem memWf_writeBackL1 {d c p} : MemWf (s.writeBackL1 d c p) := (writeBackL1_stores ..).kept h

theorem memWf_writeBackDie {d p} : MemWf (s.writeBackDie d p) := (writeBackDie_stores ..).kept h

theorem memWf_release {d c scope wide} : MemWf (s.release d c scope wide) := (release_stores ..).kept h

theorem memWf_acquire {d c scope wide} : MemWf (s.acquire d c scope wide) := (acquire_stores ..).kept h

theorem memWf_recordRelease {d c line} : MemWf (s.recordRelease d c line) := (recordRelease_stores ..).kept h

theorem memWf_promote {d c line} : MemWf (s.promote d c line) := (promote_stores ..).kept h

theorem memWf_evictAll {d c lines} : MemWf (s.evictAll d c lines) := (evictAll_stores ..).kept h

theorem memWf_cleanLine {d line} : MemWf (s.cleanLine d line) := (cleanLine_stores ..).kept h

theorem memWf_replace : MemWf s.replace := (replace_stores ..).kept h

theorem memWf_flushRange {d c pa n} : MemWf (s.flushRange d c pa n) := (flushRange_stores ..).kept h

theorem memWf_devPuts {pa bs ctx} : MemWf (s.devPuts pa bs ctx) := (devPuts_stores ..).kept h

theorem memWf_devFlush : MemWf s.devFlush := (devFlush_stores ..).kept h

/-! Translation. -/

theorem memWf_putCtx {n x} : MemWf (s.putCtx n x) := same_wf h

theorem memWf_modCtx {n g} : MemWf (s.modCtx n g) := memWf_putCtx h

theorem memWf_translate {ctx d c lane va need} : MemWf (s.translate ctx d c lane va need).1 :=
  (translate_stores ..).kept h

/-! Registers, traps and the end of a turn. -/

theorem memWf_putStrand {id st} : MemWf (s.putStrand id st) := same_wf h

theorem memWf_modStrand {id g} : MemWf (s.modStrand id g) := 
  same_wf h (State.modStrand_mem ..)

theorem memWf_stopStrands {n} : MemWf (s.stopStrands n) := same_wf h

theorem memWf_payOwed {n} : MemWf (s.payOwed n) := ite_wf h (memWf_modCtx (memWf_devPuts h))

theorem memWf_ctxEvent {n bit} : MemWf (s.ctxEvent n bit) :=
  ite_wf h (memWf_payOwed (ite_wf (memWf_stopStrands (memWf_modCtx (memWf_modCtx h))) (memWf_modCtx h)))

theorem memWf_takeTrap {s1 : State} (h1 : MemWf s1) {id st t rs} : MemWf (s.takeTrap s1 id st t rs) := by
  unfold State.takeTrap
  dsimp only
  split
  · exact memWf_ctxEvent h
  · exact h1

theorem memWf_trapAtIssue {id st c detail emask} : MemWf (s.trapAtIssue id st c detail emask) :=
  memWf_takeTrap h h

theorem memWf_trapAtThread {s1 : State} (h1 : MemWf s1) {id st c detail e emask} :
    MemWf (s.trapAtThread s1 id st c detail e emask) :=
  memWf_takeTrap h h1

theorem memWf_takePend {id} : MemWf (s.takePend id) := by
  unfold State.takePend
  split
  · exact h
  split
  · exact h
  exact memWf_takeTrap h h

theorem memWf_timerDue {id} : MemWf (s.timerDue id) := by
  unfold State.timerDue
  split
  · exact h
  exact ite_wf (memWf_putStrand h) h

theorem issueWf_issue {i sp f pre} : IssueWf (issue i sp f pre s) := by
  have ht : ∀ id st c n em, IssueWf (.out (.next (s.trapAtIssue id st c n em))) :=
    fun _ _ _ _ _ => memWf_trapAtIssue h
  have hp : ∀ id st, IssueWf (.out (.next (s.putStrand id st))) := fun _ _ => memWf_putStrand h
  unfold issue
  dsimp only
  repeat' split
  all_goals grind [IssueWf, NextWf]

/-- The turn that the checks of issue end. -/
theorem memWf_issue_out {i sp f pre o} (e : issue i sp f pre s = .out o) : NextWf o := by
  have hi : IssueWf (issue i sp f pre s) := issueWf_issue h
  rwa [e] at hi

theorem memWf_freeLane {st id implicit} : MemWf (s.freeLane st id implicit) := memWf_modCore h

theorem memWf_retireWith {id st dn adv} : MemWf (s.retireWith id st dn adv) :=
  memWf_putStrand (ite_wf (memWf_freeLane h) h)

theorem memWf_retire {id st dn} : MemWf (s.retire id st dn) := memWf_retireWith h

theorem memWf_finish {x sp f len st} : MemWf (s.finish x sp f len st) := by
  unfold State.finish
  split
  · exact memWf_putStrand h
  exact memWf_retire h

theorem memWf_execOnce {i sp f len pre g} : NextWf (execOnce i sp f len pre g s) := by
  unfold execOnce
  split
  next e => exact memWf_issue_out h e
  exact memWf_finish h

theorem memWf_enterWait {x st sp f len w} : MemWf (s.enterWait x st sp f len w) :=
  memWf_putStrand (with_wf (memWf_freeLane h))

theorem memWf_wakeAt {id st len} : MemWf (s.wakeAt id st len) := memWf_putStrand h

/-! The per-thread rows. -/

theorem memWf_execVec {i sp f len mk} : NextWf (execVec i sp f len mk s) := by
  unfold execVec
  split
  next e => exact memWf_issue_out h e
  split
  · exact memWf_finish h
  exact memWf_trapAtThread h h

theorem memWf_execL {i f mk} : NextWf (execL i f mk s) := memWf_execVec h

/-! Kernels and their events. -/

theorem memWf_modKernel {n k g} : MemWf (s.modKernel n k g) := 
  same_wf h (State.modKernel_mem ..)

theorem memWf_modItem {n k i g} : MemWf (s.modItem n k i g) := 
  same_wf h (State.modItem_mem ..)

theorem memWf_scrPuts {st a bs} : MemWf (s.scrPuts st a bs) := 
  same_wf h (State.scrPuts_mem ..)

theorem memWf_commit {st} : MemWf (s.commit st) := by
  unfold State.commit
  split
  · exact ite_wf (memWf_modItem h) h
  exact h

/-! Operations in flight. -/

theorem memWf_openBatch {ctx b} : MemWf (s.openBatch ctx b) := memWf_modCtx h

theorem memWf_openDeviceBatch {ctx src die core kid e} : MemWf (s.openDeviceBatch ctx src die core kid e) :=
  memWf_openBatch h

theorem memWf_unitPark {ctx u} : MemWf (s.unitPark ctx u) := memWf_modCtx h

theorem memWf_unitBatch {ctx u e} : MemWf (s.unitBatch ctx u e) := memWf_openBatch h

theorem memWf_pageReady {ctx u va need} : MemWf (s.pageReady ctx u va need).1 := by
  unfold State.pageReady
  split
  · exact h
  split
  · exact h
  · exact h
  · exact memWf_unitPark h
  · exact memWf_unitBatch h

theorem memWf_devWrite {die core ctx va bs kid r} : MemWf (s.devWrite die core ctx va bs kid r) := by
  unfold State.devWrite
  dsimp only
  split
  · exact memWf_devPuts h
  · exact memWf_modCtx h
  · exact memWf_modCtx h
  · exact memWf_modCtx (memWf_openDeviceBatch h)

theorem memWf_putLog {ctx unit bs} : MemWf (s.putLog ctx unit bs) := by
  unfold State.putLog
  dsimp only
  split
  · exact memWf_ctxEvent (memWf_devWrite h)
  exact memWf_devWrite h

theorem memWf_logError {ctx unit cause pc va kid iid sid time} :
    MemWf (s.logError ctx unit cause pc va kid iid sid time) :=
  memWf_putLog (memWf_modCtx h)

theorem memWf_logEng {st e} : MemWf (s.logEng st e) := memWf_logError h

theorem memWf_leaveLane {id st} : MemWf (s.leaveLane id st) := memWf_freeLane h

theorem memWf_xlFault {id st e m ent a} : MemWf (s.xlFault id st e m ent a) :=
  memWf_putStrand (memWf_leaveLane h)

theorem memWf_xlPark {id st e m} : MemWf (s.xlPark id st e m) := memWf_putStrand h

theorem memWf_stallOn {x} : MemWf (s.stallOn x) := memWf_putStrand h

theorem memWf_holdOn {x r} : MemWf (s.holdOn x r) := memWf_putStrand (with_wf h)

theorem memWf_ringPut {st off w} : MemWf (s.ringPut st off w) := memWf_scrPuts h

theorem memWf_fireMarks {id} : MemWf (s.fireMarks id) := by
  unfold State.fireMarks
  split
  · exact h
  exact foldl_wf (fun _ _ h => memWf_ringPut h) (memWf_putStrand h)

theorem memWf_relAct {st scope} : MemWf (s.relAct st scope) := memWf_release h

theorem memWf_acqAct {st scope} : MemWf (s.acqAct st scope) := memWf_acquire h

omit h in
theorem memWf_firstDue {g : Nat → Strand → Option State} (hg : ∀ id st, OptWf (fun t => t) (g id st)) {l} :
    OptWf (·.2) (firstDue g l) := by
  induction l with
  | nil => trivial
  | cons e r ih =>
    simp only [firstDue]
    split
    · exact optMap_wf (fun _ hu => hu) (hg _ _)
    next eq =>
      have ht : MemWf _ := some_wf eq ih
      refine ite_opt ht ?_
      split
      next u eq2 => exact show MemWf u from some_wf eq2 (hg _ _)
      next => exact ht

theorem memWf_runDue {g : State → Nat → Strand → Option State}
    (hg : ∀ s id st, MemWf s → OptWf (fun t => t) (g s id st)) {n} : MemWf (State.runDue g n s) := by
  induction n generalizing s with
  | zero => exact h
  | succ n ih =>
    simp only [State.runDue]
    split
    next hq => exact ih (some_wf hq (memWf_firstDue fun id st => hg s id st h))
    next => exact h

theorem memWf_ringWake {id st} : OptWf (fun t => t) (s.ringWake id st) := by
  unfold State.ringWake
  refine ite_opt trivial ?_
  split
  · exact ite_opt (memWf_wakeAt (memWf_acqAct h)) trivial
  · exact ite_opt trivial (memWf_wakeAt (memWf_ringPut h))
  · trivial

theorem memWf_padPuts {st off bs} : MemWf (s.padPuts st off bs) :=
  ite_wf (memWf_runDue (memWf_scrPuts h) fun _ _ _ hs => memWf_ringWake hs) (memWf_scrPuts h)

theorem memWf_modGroup {n g} : MemWf (s.modGroup n g) := h

theorem memWf_dropGroup {g} : MemWf (s.dropGroup g) := same_wf h

theorem memWf_leaveSlot {id slot} : MemWf (s.leaveSlot id slot) := by
  unfold State.leaveSlot
  split
  · exact h
  split
  · exact h
  dsimp only
  split
  · exact memWf_putStrand h
  exact ite_wf (memWf_dropGroup (memWf_putStrand h)) (memWf_modGroup (memWf_putStrand h))

theorem memWf_leaveGroups {id} : MemWf (s.leaveGroups id) := foldl_wf (fun _ _ h => memWf_leaveSlot h) h

theorem memWf_modChans {st g} : MemWf (s.modChans st g) := memWf_modKernel h

theorem memWf_drained {id} : MemWf (s.drained id) := by
  unfold State.drained
  split
  · exact h
  exact ite_wf (memWf_putStrand (memWf_modChans (memWf_leaveLane (foldl_wf (fun _ _ h => memWf_logEng h) h)))) h

theorem memWf_completeOp {id n} : MemWf (s.completeOp id n) := by
  unfold State.completeOp
  split
  · exact h
  exact memWf_drained (memWf_modStrand (memWf_fireMarks (memWf_putStrand h)))

theorem memWf_drain {id} : MemWf (s.drain id) := by
  unfold State.drain
  dsimp only
  split
  · exact memWf_drained (memWf_modStrand (memWf_modChans (memWf_leaveGroups h)))
  exact memWf_drained (memWf_modStrand (memWf_leaveGroups h))

/-! Seeds. -/

theorem memWf_seedPut {d c owner slot src bs} : MemWf (s.seedPut d c owner slot src bs) := memWf_modCore h

theorem memWf_allCoresMod {g} : MemWf (s.allCoresMod g) := same_wf h

theorem memWf_seedDropAll {owner slot} : MemWf (s.seedDropAll owner slot) := by
  unfold State.seedDropAll
  split
  · exact memWf_allCoresMod (memWf_modKernel h)
  exact h

theorem memWf_seedDropKernel {owner} : MemWf (s.seedDropKernel owner) := by
  unfold State.seedDropKernel
  split
  · exact foldl_wf (fun _ _ h => memWf_seedDropAll h) h
  exact h

theorem memWf_seedQueue {d c slot who} : MemWf (s.seedQueue d c slot who) := memWf_modCore h

theorem memWf_seedTidy : MemWf s.seedTidy :=
  ite_wf h (foldl_wf (fun _ _ h => foldl_wf (fun _ _ h => memWf_modCore h) h) h)

theorem memWf_seedUnqueue {d c slot who} : MemWf (s.seedUnqueue d c slot who) := memWf_modCore h

theorem memWf_reloadReady {p slot src} : MemWf (s.reloadReady p slot src).1 := by
  unfold State.reloadReady
  split
  · exact h
  · exact h
  · exact h
  · exact h
  · exact memWf_seedQueue h
  · exact memWf_unitPark h
  · exact memWf_unitBatch h

theorem memWf_reloadDo {p slot src} : MemWf (s.reloadDo p slot src) := by
  unfold State.reloadDo
  split
  · exact memWf_seedUnqueue (memWf_seedPut h)
  · split
    · split
      · exact memWf_logError h
      exact h
    split
    · exact memWf_logError (memWf_modCore h)
    exact memWf_modCore h
  · exact h

theorem memWf_seedsReady {p} : MemWf (s.seedsReady p).1 :=
  foldl_fst_wf (fun _ _ hq => memWf_reloadReady hq) h

theorem memWf_seedsLoad {p} : MemWf (s.seedsLoad p) := foldl_wf (fun _ _ h => memWf_reloadDo h) h

/-! Accesses and what performs them. -/

theorem memWf_formAcc {st k need n al va t} : MemWf (s.formAcc st k need n al va t).1 := by
  unfold State.formAcc
  split
  · exact h
  split
  · split
    next e3 => exact fst_wf e3 (memWf_translate h)
    next e3 => exact fst_wf e3 (memWf_translate h)
    next e3 => exact fst_wf e3 (memWf_translate h)
    next e3 => exact fst_wf e3 (memWf_translate h)
  exact h

theorem memWf_scanAccs {g : Nat → State → State × Except MStop Acc}
    (hg : ∀ t s, MemWf s → MemWf (g t s).1) {ts l} : MemWf (scanAccs g ts s l).1 := by
  induction ts generalizing s l with
  | nil => exact h
  | cons t r ih =>
    simp only [scanAccs]
    split
    next hq => exact ih (fst_wf hq (hg t s h))
    next hq => exact fst_wf hq (hg t s h)

theorem memWf_promoteAll {d line} : MemWf (s.promoteAll d line) :=
  foldl_wf (fun _ _ h => ite_wf (memWf_promote h) h) h

theorem memWf_promoteAccs {d o as} : MemWf (s.promoteAccs d o as) :=
  ite_wf (foldl_wf (fun _ _ h => ite_wf (memWf_promoteAll h) h) h) h

theorem memWf_accAcquire {st o} : MemWf (s.accAcquire st o) :=
  ite_wf h (ite_wf (memWf_acqAct h) (memWf_acqAct h))

theorem memWf_accRelease {st o a} : MemWf (s.accRelease st o a) := ite_wf (memWf_recordRelease h) h

theorem memWf_performLoad {st m3 o as} : OptWf Perf.s (s.performLoad st m3 o as) := by
  unfold State.performLoad
  split
  · exact h
  split
  · trivial
  dsimp only
  split
  · exact memWf_accAcquire h
  · exact ite_wf (memWf_touch (memWf_accAcquire h)) (memWf_accAcquire h)

theorem memWf_performStore {st o a} : MemWf (s.performStore st o a) := by
  unfold State.performStore
  dsimp only
  split
  · exact memWf_corePuts (memWf_accRelease h)
  · exact memWf_scrPuts (memWf_accRelease h)
  · exact memWf_accRelease h

theorem memWf_storeUncorr {st pc as} : MemWf (s.storeUncorr st pc as) := by
  unfold State.storeUncorr
  split
  · exact memWf_logEng h
  exact h

theorem memWf_atomOne {st op ty o a} : OptWf AtomRes.s (s.atomOne st op ty o a) := by
  unfold State.atomOne
  split
  · refine ite_opt trivial ?_
    have hf : MemWf ((s.accAcquire st o).flushRange st.d st.k a.pa a.size) := memWf_flushRange (memWf_accAcquire h)
    dsimp only
    split
    · exact hf
    · exact memWf_accRelease (memWf_update (memWf_sliceUse (memWf_homePuts hf)))
  · exact memWf_scrPuts h
  · exact h

theorem memWf_performAtom {st op ty o as} : OptWf Perf.s (s.performAtom st op ty o as) := by
  cases as with
  | nil => exact h
  | cons a r => exact optMap_wf (fun _ hr => hr) (memWf_atomOne h)

theorem memWf_performSum {st op k a} : MemWf (s.performSum st op k a).s := by
  unfold State.performSum
  grind [memWf_flushRange, memWf_sendPut, memWf_homePuts, memWf_update]

theorem memWf_relDo {st k} : MemWf (s.relDo st k) := by
  unfold State.relDo
  split
  · exact ite_wf (memWf_relAct h) h
  · exact ite_wf (memWf_relAct h) h
  · exact h

theorem memWf_ownDo {st k} : MemWf (s.ownDo st k) := by
  unfold State.ownDo
  split
  · exact ite_wf (memWf_relAct h) h
  exact h

theorem memWf_stopAt {s1 : State} (h1 : MemWf s1) {id st e kind m stop} :
    MemWf (s.stopAt s1 id st e kind m stop) := by
  cases stop with
  | trap c d => cases c <;> exact memWf_trapAtThread h h1
  | fault c lvl va => exact memWf_xlFault h1
  | park => exact memWf_xlPark h1
  | wait => exact memWf_putStrand h

theorem memWf_foldPerf {p : State → Strand → Acc → Option Perf}
    (hp : ∀ s st a, MemWf s → OptWf Perf.s (p s st a)) {l st m c} : OptWf (·.1) (foldPerf p l s st m c) := by
  induction l generalizing s st m c with
  | nil => exact h
  | cons a r ih =>
    simp only [foldPerf]
    split
    · trivial
    next hq =>
      have h1 := some_wf hq (hp s st a h)
      split
      · exact ih h1
      · exact ih h1

theorem memWf_performNow {st k as} : OptWf (·.1) (s.performNow st k as) := by
  have hr : MemWf (s.relDo st k) := memWf_relDo h
  unfold State.performNow
  dsimp only
  split
  · exact h
  split
  · trivial
  split
  · trivial
  split
  · refine ite_opt trivial (optMap_wf (fun _ hq => hq) (memWf_foldPerf (memWf_promoteAccs hr) fun _ _ _ hs => ?_))
    exact memWf_performLoad hs
  · refine ite_opt trivial (optMap_wf (fun _ hq => hq) (memWf_foldPerf (memWf_promoteAccs hr) fun _ _ _ hs => ?_))
    exact memWf_performAtom hs
  · refine ite_opt trivial ?_
    exact memWf_ownDo (memWf_storeUncorr (foldl_wf (fun _ _ hs => memWf_performStore hs) hr))
  · refine ite_opt trivial (optMap_wf (fun _ hq => hq) (memWf_foldPerf hr fun _ _ _ hs => ?_))
    exact memWf_performSum hs
  · refine ite_opt trivial (foldl_fst_wf (fun q a hq => ?_) hr)
    split <;> exact memWf_performSum hq
  · refine ite_opt trivial (foldl_fst_wf (fun q a hq => ?_) hr)
    split <;> exact memWf_performSum hq
  · exact hr

theorem memWf_issueAcc {form : Strand → Nat → State → State × Except MStop Acc}
    (hf : ∀ st t s, MemWf s → MemWf (form st t s).1) {x sp f len path kind k spread dests commits} :
    NextWf (s.issueAcc x sp f len path kind k form spread dests commits) := by
  have hs : MemWf (scanAccs (form { x.st with walkParked := false }) (accThreads f x.adm) s []).1 :=
    memWf_scanAccs h fun _ _ => hf _ _ _
  unfold State.issueAcc
  split
  · exact memWf_finish h
  split
  · exact memWf_stallOn h
  dsimp only
  split
  next e =>
    have h1 := fst_wf e hs
    split
    · exact memWf_stopAt h h1
    · exact memWf_finish (ite_wf (memWf_commit h1) h1)
  next => exact memWf_stallOn h
  next e =>
    have h1 := fst_wf e hs
    split
    · exact memWf_stallOn h
    next e2 =>
      have h2 := some_wf e2 (memWf_performNow h1)
      exact memWf_stopAt h (ite_wf (memWf_commit h2) h2)

/-! The complex rows. -/

theorem memWf_execBunpk {f} : NextWf (execBunpk f s) := by
  unfold execBunpk
  dsimp only
  split
  next e => exact memWf_issue_out h e
  exact ite_next (memWf_trapAtIssue h) (memWf_execL h)

/-! The rows across threads. -/

theorem memWf_execCross {i sp f len g} : NextWf (execCross i sp f len g s) := memWf_execOnce h

theorem memWf_execLace {f} : NextWf (execLace f s) := by
  unfold execLace
  dsimp only
  split
  next e => exact memWf_issue_out h e
  exact memWf_finish h

theorem memWf_execLaceld {f} : NextWf (execLaceld f s) := by
  unfold execLaceld
  dsimp only
  split
  next e => exact memWf_issue_out h e
  exact ite_next (memWf_finish h) (ite_next (memWf_trapAtIssue h) (ite_next (memWf_trapAtIssue h)
    (ite_next (memWf_stallOn h) (memWf_finish (memWf_modCore h)))))

/-! Control flow. -/

theorem memWf_endAt {x sp f len st t} : MemWf (s.endAt x sp f len st t) := memWf_retire h

theorem memWf_braExec {i sp f len} : NextWf (braExec i sp f len s) := by
  unfold braExec
  split
  next e => exact memWf_issue_out h e
  exact memWf_endAt h

theorem memWf_rcvExec {i sp f len} : NextWf (rcvExec i sp f len s) := by
  unfold rcvExec
  split
  next e => exact memWf_issue_out h e
  exact memWf_finish h

theorem memWf_endDiverged {x sp f len st branch} : MemWf (s.endDiverged x sp f len st branch) :=
  memWf_retireWith h

theorem memWf_divExec {i sp f len} : NextWf (divExec i sp f len s) := by
  unfold divExec
  split
  next e => exact memWf_issue_out h e
  split
  · exact memWf_finish h
  dsimp only
  split
  · exact memWf_finish h
  split
  · exact memWf_endAt h
  split
  · exact memWf_trapAtIssue h
  exact memWf_endDiverged h

theorem memWf_execBrx {f} : NextWf (execBrx f s) := by
  unfold execBrx
  dsimp only
  split
  next e => exact memWf_issue_out h e
  split
  · exact memWf_finish h
  split
  · split
    · exact memWf_trapAtIssue h
    exact memWf_endAt h
  split
  · exact ite_next (memWf_trapAtIssue h) (memWf_endAt h)
  split
  · exact memWf_trapAtIssue h
  exact ite_next (memWf_trapAtIssue h) (memWf_endDiverged h)

theorem memWf_callExec {i sp f len} : NextWf (callExec i sp f len s) := by
  unfold callExec
  split
  next e => exact memWf_issue_out h e
  exact ite_next (memWf_finish h) (memWf_endAt h)

theorem memWf_execRet {f} : NextWf (execRet f s) := by
  unfold execRet
  dsimp only
  split
  next e => exact memWf_issue_out h e
  split
  · exact memWf_finish h
  split
  · exact memWf_trapAtIssue h
  exact memWf_endAt h

theorem memWf_loopExec {i sp f len} : NextWf (loopExec i sp f len s) := by
  unfold loopExec
  split
  next e => exact memWf_issue_out h e
  exact ite_next (memWf_finish h) (memWf_endAt h)

theorem memWf_exitExec {i sp f len} : NextWf (exitExec i sp f len s) := by
  unfold exitExec
  split
  next e => exact memWf_issue_out h e
  dsimp only
  split
  · exact ite_next (memWf_drain (memWf_retire h)) (memWf_retire h)
  exact memWf_retire h

theorem memWf_yieldExec {i sp f len} : NextWf (yieldExec i sp f len s) := by
  unfold yieldExec
  split
  next e => exact memWf_issue_out h e
  exact memWf_retire h

theorem memWf_trapExec {i c f} : NextWf (trapExec i c f s) := by
  unfold trapExec
  split
  next e => exact memWf_issue_out h e
  exact ite_next (memWf_finish h) (memWf_trapAtIssue h)

/-! System registers and traps. -/

theorem memWf_execRdsr {f} : NextWf (execRdsr f s) := by
  unfold execRdsr
  dsimp only
  split
  next e => exact memWf_issue_out h e
  exact memWf_finish h

theorem memWf_execTret {f} : NextWf (execTret f s) := by
  unfold execTret
  dsimp only
  split
  next e => exact memWf_issue_out h e
  split
  · exact memWf_finish h
  split
  · exact memWf_finish h
  split
  · exact memWf_trapAtIssue h
  exact memWf_retireWith h

theorem memWf_execHalt : NextWf (execHalt s) := by
  unfold execHalt
  dsimp only
  split
  next e => exact memWf_issue_out h e
  exact ite_next (memWf_finish h) (ite_next (memWf_enterWait h) (memWf_trapAtIssue h))

theorem memWf_execTapResume {strand} : NextWf (execTapResume strand s) := by
  unfold execTapResume
  split
  · split
    · exact ite_wf (memWf_wakeAt h) h
    exact h
  exact h

theorem memWf_execEncodingNotAnInstruction : NextWf (execEncodingNotAnInstruction s) := by
  unfold execEncodingNotAnInstruction
  split
  · trivial
  split
  · trivial
  exact memWf_trapAtIssue h

theorem memWf_execSpinDemotionTimeout {strand} : NextWf (execSpinDemotionTimeout strand s) := by
  unfold execSpinDemotionTimeout
  split
  · exact ite_next (memWf_putStrand h) h
  exact h

theorem memWf_execAsyncTrapTake {strand} : NextWf (execAsyncTrapTake strand s) := by
  unfold execAsyncTrapTake
  split
  · exact ite_wf (memWf_takePend h) h
  exact h

/-! The memory instructions and the events of their operations. -/

theorem memWf_ldExec {i sp f len} : NextWf (ldExec i sp f len s) := by
  unfold ldExec
  split
  next e => exact memWf_issue_out h e
  refine memWf_issueAcc h fun st t s hs => ?_
  split
  · exact hs
  split
  next e => exact fst_wf e (memWf_formAcc hs)
  next => exact memWf_formAcc hs

theorem memWf_stExec {i sp f len} : NextWf (stExec i sp f len s) := by
  unfold stExec
  split
  next e => exact memWf_issue_out h e
  refine memWf_issueAcc h fun st t s hs => ?_
  split
  · exact hs
  split
  next e => exact fst_wf e (memWf_formAcc hs)
  next => exact memWf_formAcc hs

/-- What one thread of a scratchpad instruction does keeps canonical memory. -/
def ScrStep.KeepsWf (g : ScrStep) : Prop :=
  ∀ e t ts s st q, MemWf s → g e t ts s st = .ok q → MemWf q.1

/-- Canonical memory where a pass ends or stops. -/
def PassWf : Except SStop (State × Strand) → Prop
  | .ok q => MemWf q.1
  | .error w => MemWf w.s

omit h in
theorem pass_ok_wf {st} {p : Except SStop (State × Strand)} (e : p = .ok (s, st)) (hp : PassWf p) : MemWf s := by
  rwa [e] at hp

omit h in
theorem pass_error_wf {w} {p : Except SStop (State × Strand)} (e : p = .error w) (hp : PassWf p) : MemWf w.s := by
  rwa [e] at hp

theorem memWf_scrThreads {g : ScrStep} (hg : g.KeepsWf) {e m ts st} : PassWf (scrThreads g e m ts s st) := by
  induction ts generalizing s st with
  | nil => exact h
  | cons t r ih =>
    simp only [scrThreads]
    split
    next hq => exact ih (hg _ _ _ _ _ _ h hq)
    next => exact h

theorem memWf_scrElems {g : ScrStep} (hg : g.KeepsWf) {adm rs es st} : PassWf (scrElems g adm rs es s st) := by
  induction es generalizing s st with
  | nil => exact h
  | cons e r ih =>
    have hk : PassWf (scrThreads g e (elemMask rs adm e) (threads (elemMask rs adm e)) s st) := memWf_scrThreads h hg
    simp only [scrElems]
    split
    next hq => exact ih (pass_ok_wf hq hk)
    next hq => exact pass_error_wf hq hk

theorem memWf_scrPass {g : ScrStep} (hg : g.KeepsWf) {f n adm st} : PassWf (scrPass g f n adm s st) := by
  unfold scrPass
  split
  · split
    next hq => exact hg _ _ _ _ _ _ h hq
    next => exact h
  · exact memWf_scrElems h hg

theorem memWf_scrRun {g : ScrStep} (hg : g.KeepsWf) {i sp f len kind} : NextWf (scrRun i sp f len kind g s) := by
  unfold scrRun
  split
  next e => exact memWf_issue_out h e
  refine ite_next (memWf_finish h) (ite_next (memWf_stallOn h) ?_)
  split
  next e => exact memWf_finish (pass_ok_wf e (memWf_scrPass h hg))
  next e => exact memWf_stopAt h (pass_error_wf e (memWf_scrPass h hg))

omit h in
theorem keepsWf_ldsStep {sp f} : (ldsStep sp f).KeepsWf := by
  intro e t ts s st q h hq
  simp only [ldsStep, bind, Except.bind] at hq
  grind

theorem memWf_ldsExec {i sp f len} : NextWf (ldsExec i sp f len s) := memWf_scrRun h keepsWf_ldsStep

omit h in
theorem keepsWf_stsStep {sp f} : (stsStep sp f).KeepsWf := by
  intro e t ts s st q h hq
  simp only [stsStep, bind, Except.bind] at hq
  grind [memWf_padPuts]

theorem memWf_stsExec {i sp f len} : NextWf (stsExec i sp f len s) := memWf_scrRun h keepsWf_stsStep

omit h in
theorem keepsWf_atomsStep {sp f} : (atomsStep sp f).KeepsWf := by
  intro e t ts s st q h hq
  simp only [atomsStep, bind, Except.bind] at hq
  grind [memWf_padPuts]

theorem memWf_execAtoms {f} : NextWf (execAtoms f s) := memWf_scrRun h keepsWf_atomsStep

theorem memWf_rectRun {g : Nat → Nat → Nat → List Nat → State → Strand → State × Strand}
    (hg : ∀ a e t ts s st, MemWf s → MemWf (g a e t ts s st).1) {i f} : NextWf (rectRun i f g s) := by
  have hk (a p : Nat) : ScrStep.KeepsWf fun e t ts s st => .ok (g (a + t * p + 4 * e) e t ts s st) := by
    intro e t ts s st q h hq
    cases hq
    exact hg _ e t ts s st h
  unfold rectRun
  dsimp only
  split
  next e => exact memWf_issue_out h e
  refine ite_next (memWf_finish h) (ite_next (memWf_stallOn h) (ite_next (memWf_trapAtIssue h)
    (ite_next (memWf_trapAtIssue h) ?_)))
  split
  next e => exact memWf_finish (pass_ok_wf e (memWf_scrPass h (hk _ _)))
  next e => exact memWf_stopAt h (pass_error_wf e (memWf_scrPass h (hk _ _)))

theorem memWf_execLdt {f} : NextWf (execLdt f s) := memWf_rectRun h fun _ _ _ _ _ _ hs => hs

theorem memWf_execStt {f} : NextWf (execStt f s) := memWf_rectRun h fun _ _ _ _ _ _ hs => memWf_padPuts hs

theorem memWf_execAtom {f} : NextWf (execAtom f s) := by
  unfold execAtom
  dsimp only
  split
  next e => exact memWf_issue_out h e
  refine memWf_issueAcc h fun st t s hs => ?_
  split
  · exact hs
  split
  next e => exact fst_wf e (memWf_formAcc hs)
  next => exact memWf_formAcc hs

theorem memWf_execSumx {f} : NextWf (execSumx f s) := by
  unfold execSumx
  dsimp only
  split
  next e => exact memWf_issue_out h e
  refine memWf_issueAcc h fun st t s hs => ?_
  split
  next e => exact fst_wf e (memWf_formAcc hs)
  next => exact memWf_formAcc hs

theorem memWf_execSumclr {f} : NextWf (execSumclr f s) := by
  unfold execSumclr
  dsimp only
  split
  next e => exact memWf_issue_out h e
  exact memWf_issueAcc h fun _ _ _ hs => memWf_formAcc hs

theorem memWf_execSumrd {f} : NextWf (execSumrd f s) := by
  unfold execSumrd
  dsimp only
  split
  next e => exact memWf_issue_out h e
  refine memWf_issueAcc h fun st t s hs => ?_
  split
  next e => exact fst_wf e (memWf_formAcc hs)
  next => exact memWf_formAcc hs

theorem memWf_execPref {f} : NextWf (execPref f s) := by
  unfold execPref
  dsimp only
  split
  next e => exact memWf_issue_out h e
  refine memWf_finish (foldl_wf (fun s t hs => ?_) h)
  split
  · exact hs
  split
  next e =>
    have h1 := fst_wf e (memWf_translate hs)
    split
    · exact h1
    · exact ite_wf (foldl_wf (fun _ _ h2 => memWf_touch h2) h1) (memWf_fillSlice h1)
  next e => exact fst_wf e (memWf_translate hs)

theorem memWf_deliverErr {id st e m} : MemWf (s.deliverErr id st e m) := memWf_takeTrap h h

theorem memWf_waitcExec {i sp f len thr} : NextWf (waitcExec i sp f len thr s) := by
  unfold waitcExec
  split
  next e => exact memWf_issue_out h e
  split
  · exact memWf_finish h
  dsimp only
  split
  · split
    · exact memWf_deliverErr h
    exact memWf_finish h
  exact memWf_enterWait h

theorem memWf_fenceAct {st kind scope} : MemWf (s.fenceAct st kind scope) :=
  ite_wf (ite_wf h (ite_wf (memWf_recordRelease (memWf_relAct h)) (memWf_relAct h)))
    (memWf_acqAct (ite_wf h (ite_wf (memWf_recordRelease (memWf_relAct h)) (memWf_relAct h))))

theorem memWf_execFence {f} : NextWf (execFence f s) := by
  unfold execFence
  dsimp only
  split
  next e => exact memWf_issue_out h e
  exact ite_next (memWf_finish h) (ite_next (memWf_finish (memWf_fenceAct h)) (memWf_enterWait h))

theorem memWf_markDone {id n ts bad} : MemWf (s.markDone id n ts bad) := by
  unfold State.markDone
  dsimp only
  split
  · exact ite_wf (memWf_modStrand h) (memWf_completeOp (memWf_modStrand h))
  exact memWf_modStrand h

theorem memWf_execLoadDataReturn {strand op thread victims} :
    NextWf (execLoadDataReturn strand op thread victims s) := by
  unfold execLoadDataReturn
  split
  · exact h
  split
  · exact h
  split
  · dsimp only
    split
    · exact h
    refine ite_next (memWf_promoteAccs (memWf_evictAll h)) ?_
    split
    · exact memWf_promoteAccs (memWf_evictAll h)
    next e =>
      have hl := some_wf e (memWf_performLoad (memWf_promoteAccs (memWf_evictAll h)))
      exact memWf_markDone (memWf_putStrand hl)
  · exact h

theorem memWf_execStorePerformed {strand op victims} : NextWf (execStorePerformed strand op victims s) := by
  unfold execStorePerformed
  split
  · exact h
  split
  · exact h
  split
  · exact ite_next h (memWf_markDone (memWf_ownDo (memWf_storeUncorr (foldl_wf (fun _ _ h => memWf_performStore
      h) (memWf_relDo (memWf_evictAll h))))))
  exact h

theorem memWf_send {cls src dst b} : MemWf (s.send cls src dst b) := with_wf (with_wf h)

theorem memWf_replySend {id st o vals} : MemWf (s.replySend id st o vals) := by
  unfold State.replySend
  split
  · exact h
  exact memWf_send h

theorem memWf_replyIn {id n} : MemWf (s.replyIn id n) := same_wf h

theorem memWf_atomApply {st op ty ord as} : OptWf (·.1) (s.atomApply st op ty ord as) := by
  induction as generalizing s with
  | nil => exact h
  | cons a r ih =>
    simp only [State.atomApply]
    split
    · trivial
    next e =>
      have ha := some_wf e (memWf_atomOne h)
      split
      · trivial
      split
      · trivial
      next e2 =>
        have h2 := some_wf e2 (ih ha)
        exact h2

theorem memWf_atomAll {st op ty ord as} : OptWf (·.1) (s.atomAll st op ty ord as) := by
  induction as generalizing s st with
  | nil => exact h
  | cons a r ih =>
    simp only [State.atomAll]
    split
    · trivial
    next e =>
      have ha := some_wf e (memWf_performAtom h)
      split
      · trivial
      next e2 =>
        have h2 := some_wf e2 (ih ha)
        split
        · exact h2
        · exact h2

theorem memWf_atomBoth {id st o k ty uni ord} : MemWf (s.atomBoth id st o k ty uni ord) := by
  unfold State.atomBoth
  dsimp only
  split
  · exact h
  split
  · exact h
  next e => exact memWf_markDone (memWf_putStrand (some_wf e (memWf_atomAll (memWf_promoteAccs (memWf_relDo h)))))

theorem memWf_atomFar {id st o k ty uni ord} : MemWf (s.atomFar id st o k ty uni ord) := by
  unfold State.atomFar
  dsimp only
  split
  · exact h
  split
  · exact memWf_atomBoth h
  next e => exact memWf_replySend (memWf_modStrand (some_wf e (memWf_atomApply (memWf_promoteAccs (memWf_relDo h)))))

theorem memWf_execAtomicPerformed {strand op} : NextWf (execAtomicPerformed strand op s) := by
  unfold execAtomicPerformed
  split
  · exact h
  split
  · exact h
  split
  · split
    · exact h
    split
    · exact memWf_markDone (memWf_putStrand (memWf_replyIn h))
    exact ite_next h (ite_wf (memWf_atomBoth h) (memWf_atomFar h))
  exact h

theorem memWf_sumAll {st o} : MemWf (s.sumAll st o).1 := by
  unfold State.sumAll
  exact foldl_fst_wf (fun _ _ hq => memWf_performSum hq) h

theorem memWf_execExactSumPerformed {strand op} : NextWf (execExactSumPerformed strand op s) := by
  unfold execExactSumPerformed
  split
  · exact h
  split
  · exact h
  split
  · exact h
  split
  · exact memWf_markDone (memWf_replyIn h)
  exact ite_next h (ite_next (memWf_markDone (memWf_putStrand (memWf_sumAll h)))
    (memWf_replySend (memWf_putStrand (memWf_sumAll h))))

theorem memWf_execPromotionRequest {strand die core} : NextWf (execPromotionRequest strand die core s) := by
  unfold execPromotionRequest
  split
  · exact h
  split
  · exact h
  exact ite_next h (ite_next (ite_wf (memWf_ctxEvent h) (foldl_wf (fun _ _ h => memWf_promote h) h))
    (memWf_modStrand (ite_wf (memWf_ctxEvent h) (foldl_wf (fun _ _ h => memWf_promote h) h))))

theorem memWf_execWriteBackAcknowledged {strand} : NextWf (execWriteBackAcknowledged strand s) := by
  unfold execWriteBackAcknowledged
  split
  · exact h
  split
  · exact h
  split
  · exact ite_wf h (memWf_relAct h)
  split
  · split
    · exact ite_next (memWf_relAct h) h
    exact ite_next (memWf_relAct h) (ite_next h (ite_next (memWf_relDo h) (memWf_modStrand (memWf_relDo h))))
  split
  · exact ite_next (memWf_relAct h) h
  exact ite_next (memWf_relAct h) (ite_next h (ite_next (memWf_relDo h) (memWf_modStrand (memWf_relDo h))))

/-! The engines: shuttle, tables, decoder, textures. -/

theorem memWf_engAddr {st k need n va} : MemWf (s.engAddr st k need n va).1 := by
  unfold State.engAddr
  split
  · exact h
  split
  · split
    next e3 => exact fst_wf e3 (memWf_translate h)
    next e3 => exact fst_wf e3 (memWf_translate h)
    next e3 => exact fst_wf e3 (memWf_translate h)
    next e3 => exact fst_wf e3 (memWf_translate h)
    next e3 => exact fst_wf e3 (memWf_translate h)
  exact h

theorem memWf_engRead {st n va hint} : MemWf (s.engRead st n va hint).1 := by
  unfold State.engRead
  split
  next e1 => exact fst_wf e1 (memWf_engAddr h)
  next e1 =>
    have h1 := fst_wf e1 (memWf_engAddr h)
    split
    · exact h1
    split
    · exact h1
    exact memWf_touch h1
  next e1 => exact fst_wf e1 (memWf_engAddr h)
  next e1 => exact fst_wf e1 (memWf_engAddr h)

theorem memWf_engWrite {st va bs hint} : MemWf (s.engWrite st va bs hint).1 := by
  unfold State.engWrite
  split
  next e1 => exact fst_wf e1 (memWf_engAddr h)
  next e1 =>
    have h1 := fst_wf e1 (memWf_engAddr h)
    exact ite_fst_wf h1 (memWf_corePuts h1)
  next e1 => exact memWf_scrPuts (fst_wf e1 (memWf_engAddr h))

theorem memWf_engIssue {go : Issued → State → State × Strand} (hg : ∀ x, MemWf (go x s).1) {i f pre path stop} :
    NextWf (engIssue i f pre path stop go s) := by
  unfold engIssue
  split
  next e => exact memWf_issue_out h e
  refine ite_next (memWf_finish h) ?_
  split
  · exact memWf_trapAtIssue h
  · exact ite_next (memWf_stallOn h) (memWf_finish (hg _))

theorem memWf_engDone {id n err} : MemWf (s.engDone id n err) := memWf_completeOp (memWf_modStrand h)

theorem memWf_engPage {id st o e} : MemWf (s.engPage id st o e) := ite_wf (memWf_engDone h) (memWf_openBatch h)

theorem memWf_engEnd {s1 : State} (h1 : MemWf s1) {id st o r} : MemWf (s.engEnd s1 id st o r) := by
  unfold State.engEnd
  split
  · exact memWf_engDone h1
  · exact memWf_engDone h1
  · exact memWf_engPage h
  · exact memWf_modStrand h
  · exact h

theorem memWf_engKeep {id n prog bits staged} : MemWf (s.engKeep id n prog bits staged) := memWf_modStrand h

theorem memWf_shutRead {st d n} : MemWf (s.shutRead st d n).1 := by
  unfold State.shutRead
  split
  exact memWf_engRead h

theorem memWf_shutElem {st d staged n} : MemWf (s.shutElem st d staged n).1 := by
  unfold State.shutElem
  grind [memWf_shutRead, memWf_engWrite]

theorem memWf_shutMove {st d staged k n} : MemWf (s.shutMove st d staged k n).1 := by
  induction k generalizing s n with
  | zero => exact h
  | succ k ih =>
    simp only [State.shutMove]
    split
    next e => exact ih (fst_wf e (memWf_shutElem h))
    next e => exact fst_wf e (memWf_shutElem h)

theorem memWf_shutStage {st d k l} : MemWf (s.shutStage st d k l).1 := by
  induction k generalizing s l with
  | zero => exact h
  | succ k ih =>
    simp only [State.shutStage]
    split
    next e => exact ih (fst_wf e (memWf_shutRead h))
    next e => exact fst_wf e (memWf_shutRead h)

theorem memWf_shutRun {st d o rows} : MemWf (s.shutRun st d o rows).1 := by
  unfold State.shutRun
  dsimp only
  split
  next e1 => exact fst_wf e1 (ite_fst_wf (memWf_shutStage h) h)
  next e1 => exact fst_wf e1 (ite_fst_wf (memWf_shutStage h) h)
  next e1 => exact fst_wf e1 (ite_fst_wf (memWf_shutStage h) h)
  next e1 => exact memWf_shutMove (fst_wf e1 (ite_fst_wf (memWf_shutStage h) h))

theorem memWf_shutExec {i x f} : NextWf (shutExec i x f s) := by
  unfold shutExec
  exact memWf_engIssue h fun _ => memWf_modCore h

theorem memWf_execShuttleComplete {strand op} : NextWf (execShuttleComplete strand op s) := by
  unfold execShuttleComplete
  split
  · split
    · split
      · exact h
      split
      next e4 =>
        have h4 := fst_wf e4 (memWf_shutRun h)
        exact ite_next (memWf_engKeep h4)
          (memWf_engEnd (ite_wf (memWf_modCore (memWf_engKeep h4)) (memWf_engKeep h4))
            (ite_wf (memWf_modCore (memWf_engKeep h4)) (memWf_engKeep h4)))
    exact h
  exact h

theorem memWf_execDtld {f} : NextWf (execDtld f s) := by
  unfold execDtld
  exact memWf_engIssue h fun _ => memWf_modCore h

theorem memWf_imageRead {st ptr} : MemWf (s.imageRead st ptr).1 := by
  unfold State.imageRead
  refine ite_fst_wf h (foldl_fst_wf (fun q i hq => ?_) h)
  split
  · exact hq
  split
  next e => exact fst_wf e (memWf_engRead hq)
  next e => exact fst_wf e (memWf_engRead hq)

theorem memWf_execDtldComplete {strand op} : NextWf (execDtldComplete strand op s) := by
  unfold execDtldComplete
  split
  · split
    · split
      · exact h
      split
      next e4 => exact memWf_engEnd h (memWf_modCore (fst_wf e4 (memWf_imageRead h)))
      next e4 => exact memWf_engEnd h (memWf_modCore (fst_wf e4 (memWf_imageRead h)))
    exact h
  exact h

theorem memWf_execDecode {f} : NextWf (execDecode f s) := by
  unfold execDecode
  exact memWf_engIssue h fun _ => h

theorem memWf_streamBit {st src bit} : MemWf (s.streamBit st src bit).1 := by
  unfold State.streamBit
  dsimp only
  split
  · exact h
  split
  next e2 => exact fst_wf e2 (memWf_engRead h)
  next e2 => exact fst_wf e2 (memWf_engRead h)

theorem memWf_prefixCode {st im src m n l bit code first idx} :
    MemWf (s.prefixCode st im src m n l bit code first idx).1 := by
  induction n generalizing s l bit code first idx with
  | zero => exact h
  | succ n ih =>
    simp only [State.prefixCode]
    split
    · exact h
    split
    next e => exact fst_wf e (memWf_streamBit h)
    next e =>
      have h1 := fst_wf e (memWf_streamBit h)
      exact ite_fst_wf h1 (ih h1)

theorem memWf_fixedCode {st src bit l} : MemWf (s.fixedCode st src bit l).1 := by
  unfold State.fixedCode
  refine foldl_fst_wf (fun q i hq => ?_) h
  split
  · exact hq
  split
  next e => exact fst_wf e (memWf_streamBit hq)
  next e => exact fst_wf e (memWf_streamBit hq)

theorem memWf_nextSymbol {st im src bit} : MemWf (s.nextSymbol st im src bit).1 := by
  unfold State.nextSymbol
  dsimp only
  split
  · exact memWf_prefixCode h
  split
  next e2 => exact fst_wf e2 (memWf_fixedCode h)
  next e2 => exact fst_wf e2 (memWf_fixedCode h)

theorem memWf_decodeRun {st im d n p} : MemWf (s.decodeRun st im d n p).1 := by
  induction n generalizing s p with
  | zero => exact h
  | succ n ih =>
    simp only [State.decodeRun]
    split
    next e => exact fst_wf e (memWf_nextSymbol h)
    next e => exact fst_wf e (memWf_nextSymbol h)
    next e => exact ih (memWf_scrPuts (fst_wf e (memWf_nextSymbol h)))

theorem memWf_execDecodeComplete {strand op} : NextWf (execDecodeComplete strand op s) := by
  unfold execDecodeComplete
  split
  · split
    · dsimp only
      split
      · exact h
      split
      · exact ite_next (memWf_engKeep (memWf_decodeRun h))
          (memWf_engEnd (memWf_engKeep (memWf_decodeRun h))
            (ite_wf (memWf_scrPuts (memWf_engKeep (memWf_decodeRun h))) (memWf_engKeep (memWf_decodeRun h))))
      exact ite_next (memWf_engKeep h) (memWf_engEnd (memWf_engKeep h) (ite_wf (memWf_scrPuts (memWf_engKeep h))
        (memWf_engKeep h)))
    exact h
  exact h

theorem memWf_execFetchf {f} : NextWf (execFetchf f s) := by
  unfold execFetchf
  exact memWf_engIssue h fun _ => h

theorem memWf_texel {st d l i j} : MemWf (s.texel st d l i j).1 := memWf_engRead h

theorem memWf_texTaps {st d inp l wt} : MemWf (s.texTaps st d inp l wt).1 := by
  unfold State.texTaps
  dsimp only
  refine ite_fst_wf h (foldl_fst_wf (fun q t hq => ?_) h)
  split
  · exact hq
  split
  next e => exact fst_wf e (memWf_texel hq)
  next e => exact fst_wf e (memWf_texel hq)

theorem memWf_sample {st d inp} : MemWf (s.sample st d inp).1 := by
  unfold State.sample
  grind [memWf_texTaps]

theorem memWf_execFetchfComplete {strand op} : NextWf (execFetchfComplete strand op s) := by
  unfold execFetchfComplete
  split
  · split
    · refine memWf_engEnd h (memWf_putStrand (foldl_fst_wf (fun q g hq => ?_) h))
      split
      · exact hq
      split
      next e => exact fst_wf e (memWf_sample hq)
      next e => exact fst_wf e (memWf_sample hq)
    · exact h
  · exact h

/-! Groups, barriers and rings. -/

theorem memWf_join {id st key slot} : MemWf (s.join id st key slot).1 := by
  unfold State.join
  dsimp only
  split
  · exact ite_fst_wf h (ite_fst_wf h (ite_fst_wf h (memWf_modStrand (memWf_modGroup h))))
  exact ite_fst_wf h (ite_fst_wf h (ite_fst_wf h (memWf_modStrand (memWf_modDie (with_wf h)))))

theorem memWf_execJoin {f} : NextWf (execJoin f s) := by
  unfold execJoin
  dsimp only
  split
  next e => exact memWf_issue_out h e
  split
  · exact memWf_finish h
  split
  · exact memWf_finish (memWf_join h)
  exact memWf_join h

theorem memWf_execLeave {f} : NextWf (execLeave f s) := by
  unfold execLeave
  dsimp only
  split
  next e => exact memWf_issue_out h e
  split
  · exact memWf_finish (ite_wf h (memWf_leaveSlot h))
  exact ite_wf h (memWf_leaveSlot h)

theorem memWf_arrive {id st g count} : MemWf (s.arrive id st g count) := memWf_modGroup (memWf_relAct h)

theorem memWf_execBar {f} : NextWf (execBar f s) := by
  unfold execBar
  dsimp only
  split
  next e => exact memWf_issue_out h e
  split
  · exact memWf_finish h
  exact ite_next (memWf_finish h) (ite_next (memWf_holdOn h) (ite_next (memWf_finish (memWf_acqAct
    (memWf_arrive h))) (memWf_enterWait (memWf_arrive h))))

theorem memWf_execBara {f} : NextWf (execBara f s) := by
  unfold execBara
  dsimp only
  split
  next e => exact memWf_issue_out h e
  split
  · exact memWf_finish h
  exact ite_next (memWf_finish h) (ite_next (memWf_holdOn h) (memWf_finish (memWf_arrive h)))

theorem memWf_execBarw {f} : NextWf (execBarw f s) := by
  unfold execBarw
  dsimp only
  split
  next e => exact memWf_issue_out h e
  exact ite_next (memWf_finish h) (ite_next (memWf_finish (memWf_acqAct h)) (memWf_enterWait h))

theorem memWf_ringRun {g : Issued → Nat → Nat → State → State} (hg : ∀ x off k, MemWf (g x off k s)) {i f} :
    NextWf (ringRun i f g s) := by
  unfold ringRun
  split
  next e => exact memWf_issue_out h e
  refine ite_next (memWf_finish h) (ite_next (memWf_trapAtIssue h) (ite_next (memWf_trapAtIssue h) ?_))
  exact hg _ _ _

theorem memWf_execRingp {f} : NextWf (execRingp f s) := by
  unfold execRingp
  dsimp only
  refine memWf_ringRun h fun _ _ _ => ?_
  refine ite_wf (memWf_enterWait h) ?_
  exact memWf_finish (memWf_ringPut h)

theorem memWf_execRingpAfter {f} : NextWf (execRingpAfter f s) := by
  unfold execRingpAfter
  dsimp only
  refine memWf_ringRun h fun _ _ _ => ?_
  refine ite_wf (memWf_holdOn h) (ite_wf (memWf_stallOn h) (ite_wf ?_ (memWf_finish h)))
  exact memWf_finish (memWf_ringPut h)

theorem memWf_execRingw {f} : NextWf (execRingw f s) := by
  unfold execRingw
  dsimp only
  refine memWf_ringRun h fun _ _ _ => ?_
  refine ite_wf ?_ (memWf_enterWait h)
  exact memWf_finish (memWf_acqAct h)

theorem memWf_execRingf {f} : NextWf (execRingf f s) := by
  unfold execRingf
  dsimp only
  refine memWf_ringRun h fun _ _ _ => ?_
  refine ite_wf (memWf_stallOn h) ?_
  exact memWf_finish (memWf_ringPut h)

theorem memWf_execGrow {f} : NextWf (execGrow f s) := by
  unfold execGrow
  dsimp only
  split
  next e => exact memWf_issue_out h e
  exact ite_next (memWf_finish h) (ite_next (memWf_finish h) (ite_next (memWf_enterWait h) (memWf_finish h)))

theorem memWf_execShrink {f} : NextWf (execShrink f s) := by
  unfold execShrink
  dsimp only
  split
  next e => exact memWf_issue_out h e
  exact ite_next (memWf_finish h) (ite_next (memWf_holdOn h) (memWf_finish h))

theorem memWf_growDone {id ok} : MemWf (s.growDone id ok) := by
  unfold State.growDone
  split
  · split
    · exact memWf_wakeAt h
    exact h
  exact h

theorem memWf_growStep {d c l} : OptWf (fun t => t) (s.growStep d c l) := by
  unfold State.growStep
  dsimp only
  split
  · trivial
  split
  · split
    · exact memWf_growDone h
    split
    · split
      · exact memWf_growDone h
      trivial
    trivial
  trivial

theorem memWf_growLane {d c l n} : MemWf (State.growLane d c l n s) := by
  induction n generalizing s with
  | zero => exact h
  | succ n ih =>
    simp only [State.growLane]
    split
    next e => exact ih (some_wf e (memWf_growStep h))
    next => exact h

theorem memWf_placeHeld {e} : MemWf (s.placeHeld e) := by
  unfold State.placeHeld
  split
  · exact with_wf (memWf_modDie h)
  exact h

theorem memWf_placeHeldGroups : MemWf s.placeHeldGroups := foldl_wf (fun _ _ h => memWf_placeHeld h) h

/-! Launches. -/

theorem memWf_homeRead {tr : State → Nat → State × Xl} (ht : ∀ s va, MemWf s → MemWf (tr s va).1)
    {d va n} : MemWf (s.homeRead d tr va n).1 := by
  induction n generalizing s va with
  | zero => exact h
  | succ n ih =>
    simp only [State.homeRead]
    split
    next e => exact fst_wf e (ht s va h)
    next e => exact fst_wf e (ht s va h)
    next e => exact fst_wf e (ht s va h)
    next e =>
      have h1 := fst_wf e (ht s va h)
      refine ite_fst_wf h1 ?_
      split
      · exact h1
      split
      next e2 => exact fst_wf e2 (ih h1)
      next => exact ih h1

theorem memWf_launchRest {tr : State → Nat → State × Xl} (ht : ∀ s va, MemWf s → MemWf (tr s va).1)
    {d r} : MemWf (State.launchRest d tr s r).1 := by
  unfold State.launchRest
  split
  next e =>
    have h1 := fst_wf e (memWf_homeRead h ht)
    dsimp only
    split
    next e2 => exact fst_wf e2 (memWf_homeRead h1 ht)
    next e2 => exact fst_wf e2 (memWf_homeRead h1 ht)
  next e => exact fst_wf e (memWf_homeRead h ht)

theorem memWf_launchRead {tr : State → Nat → State × Xl} (ht : ∀ s va, MemWf s → MemWf (tr s va).1)
    {d ptr} : MemWf (State.launchRead d tr s ptr).1 := by
  unfold State.launchRead
  split
  next e =>
    have h1 := fst_wf e (memWf_homeRead h ht)
    exact ite_fst_wf (memWf_launchRest h1 ht) h1
  next e => exact fst_wf e (memWf_homeRead h ht)

theorem memWf_writeDone {ctx kid} : MemWf (s.writeDone ctx kid) := by
  unfold State.writeDone
  split
  · exact ite_wf h (memWf_devWrite h)
  exact h

theorem memWf_reroot {ctx kid n} : MemWf (s.reroot ctx kid n) := by
  unfold State.reroot
  split
  · exact h
  dsimp only
  split
  next e2 => exact memWf_modKernel (fst_wf e2 (memWf_pageReady h))
  next e2 =>
    have h2 := fst_wf e2 (memWf_pageReady h)
    split
    · exact with_wf (memWf_modKernel h2)
    exact memWf_modKernel h2

theorem memWf_acceptKernel {ctx r par chans reds die} : MemWf (s.acceptKernel ctx r par chans reds die).1 :=
  ite_fst_wf h (foldl_wf (fun _ _ h => memWf_reroot h) (memWf_writeDone (memWf_modCtx h)))

theorem memWf_execLaunch {f} : NextWf (execLaunch f s) := by
  unfold execLaunch
  dsimp only
  split
  next e => exact memWf_issue_out h e
  have hl : ∀ {st : Strand} {ptr}, MemWf ((s.relAct st 4).launchRead st.d
      (fun s va => s.translate st.ctx st.d st.k (some st.ln) va kRead) ptr).1 :=
    memWf_launchRead (memWf_relAct h) fun _ _ hs => memWf_translate hs
  refine ite_next (memWf_finish h) (ite_next (memWf_trapAtIssue h) (ite_next (memWf_trapAtIssue h)
    (ite_next (memWf_holdOn h) ?_)))
  split
  next e => exact memWf_xlPark (fst_wf e hl)
  next e => exact memWf_holdOn (fst_wf e hl)
  next e => exact memWf_xlFault (fst_wf e hl)
  next => exact memWf_trapAtIssue h
  next e => exact memWf_finish (memWf_commit (fst_wf e hl))
  next e => exact memWf_finish (memWf_commit (fst_wf e hl))
  next e => exact memWf_finish (memWf_commit (memWf_acceptKernel (fst_wf e hl)))

theorem memWf_logAppend {ctx c detail} : MemWf (s.logAppend ctx c detail) := memWf_logError h

theorem memWf_appendLaunch {ctx r} : MemWf (s.appendLaunch ctx r) := by
  have hl : MemWf (s.launchRest 0 (devTr 0 ctx) r).1 := memWf_launchRest h fun _ _ hs => hs
  unfold State.appendLaunch
  refine ite_wf (memWf_logAppend h) ?_
  split
  next e =>
    have h1 := fst_wf e hl
    exact ite_wf (memWf_logAppend (memWf_acceptKernel h1)) (memWf_acceptKernel h1)
  next e => exact memWf_logAppend (fst_wf e hl)
  next e => exact memWf_logAppend (fst_wf e hl)
  next e => exact memWf_modCtx (memWf_openDeviceBatch (fst_wf e hl))
  next e => exact memWf_modCtx (fst_wf e hl)
  next e => exact memWf_modCtx (fst_wf e hl)

theorem memWf_launchSlot {ctx appCore word v} : MemWf (s.launchSlot ctx appCore word v) := by
  unfold State.launchSlot
  split
  · exact h
  split
  split
  · exact memWf_modCtx h
  exact ite_wf (memWf_appendLaunch (memWf_modCtx h)) (memWf_modCtx (memWf_modCtx h))

theorem memWf_execLaunchslotWrite {ctx appCore word value} :
    NextWf (execLaunchslotWrite ctx appCore word value s) :=
  ite_wf (memWf_launchSlot h) h

theorem memWf_disown {owner} : MemWf (s.disown owner) := memWf_allCoresMod h

theorem memWf_freeKernel {ctx kid} : MemWf (s.freeKernel ctx kid) := by
  unfold State.freeKernel
  dsimp only
  split
  · exact memWf_modCtx (with_wf (memWf_disown (memWf_seedDropKernel h)))
  exact memWf_disown (memWf_seedDropKernel h)

theorem memWf_endKernel {ctx kid} : MemWf (s.endKernel ctx kid) := by
  unfold State.endKernel
  split
  · exact ite_wf h (ite_wf (memWf_freeKernel h) (ite_wf (memWf_freeKernel h) h))
  exact h

theorem memWf_endKernels : MemWf s.endKernels :=
  foldl_wf (fun _ _ h => foldl_wf (fun _ _ h => ite_wf (memWf_endKernel h) h) h) h

/-! The matrix unit and the seed instructions. -/

theorem memWf_letGo {o} : MemWf (s.letGo o) := memWf_modCore h

theorem memWf_enqueue {x counted k dests} : MemWf (s.enqueue x counted k dests).1 := memWf_modCore h

theorem memWf_matIssue {i f pre stop counted mk dests} : NextWf (matIssue i f pre stop counted mk dests s) := by
  unfold matIssue
  split
  next e => exact memWf_issue_out h e
  refine ite_next (memWf_finish h) ?_
  split
  · exact memWf_trapAtIssue h
  · refine ite_next (memWf_stallOn h) ?_
    dsimp only
    exact memWf_finish (memWf_enqueue h)

theorem memWf_mclrGo {i f x t} : NextWf (execMclr.mclrGo i f x s t) := by
  unfold execMclr.mclrGo
  dsimp only
  exact ite_next (memWf_stallOn h) (memWf_finish (memWf_enqueue (memWf_modCore h)))

theorem memWf_execMclr {f} : NextWf (execMclr f s) := by
  unfold execMclr
  dsimp only
  split
  next e => exact memWf_issue_out h e
  refine ite_next (memWf_finish h) ?_
  split
  · exact ite_next (memWf_holdOn h) (memWf_mclrGo h)
  · exact memWf_mclrGo h

theorem memWf_execMloop {f} : NextWf (execMloop f s) := by
  unfold execMloop
  dsimp only
  split
  next e => exact memWf_issue_out h e
  split
  · exact memWf_finish h
  split
  · exact memWf_trapAtIssue h
  split
  · exact memWf_trapAtIssue h
  exact ite_next (memWf_trapAtIssue h) (ite_next (memWf_stallOn h) (memWf_finish (memWf_enqueue h)))

theorem memWf_execMrd {f} : NextWf (execMrd f s) := by
  unfold execMrd
  dsimp only
  exact memWf_matIssue h

theorem memWf_execMbld {f} : NextWf (execMbld f s) := by
  unfold execMbld
  dsimp only
  exact memWf_matIssue h

theorem memWf_execMtwid {f} : NextWf (execMtwid f s) := by
  unfold execMtwid
  dsimp only
  exact memWf_matIssue h

theorem memWf_seedRead {st va n} : MemWf (s.seedRead st va n).1 := by
  induction n generalizing s va with
  | zero => exact h
  | succ n ih =>
    simp only [State.seedRead]
    split
    next e => exact fst_wf e (memWf_translate h)
    next e => exact fst_wf e (memWf_translate h)
    next e => exact fst_wf e (memWf_translate h)
    next e =>
      have h1 := fst_wf e (memWf_translate h)
      refine ite_fst_wf h1 ?_
      split
      · exact h1
      split
      next e2 => exact fst_wf e2 (ih h1)
      next => exact ih h1

theorem memWf_execSeedld {f} : NextWf (execSeedld f s) := by
  unfold execSeedld
  dsimp only
  split
  next e => exact memWf_issue_out h e
  have ht : ∀ {t : State} {id st c n em l x}, MemWf t →
      NextWf (.next ((t.seedUnqueue st.d st.k x l).trapAtIssue id st c n em)) :=
    fun ht => memWf_trapAtIssue (memWf_seedUnqueue ht)
  refine ite_next (memWf_finish h) (ite_next (ht h) (ite_next (ht h)
    (ite_next (memWf_stallOn h) (ite_next (memWf_holdOn h) ?_))))
  split
  next e => exact memWf_xlPark (fst_wf e (memWf_seedRead h))
  next e => exact memWf_holdOn (fst_wf e (memWf_seedRead h))
  next e => exact memWf_xlFault (fst_wf e (memWf_seedRead h))
  next => exact ht h
  next e =>
    have h1 := fst_wf e (memWf_seedRead h)
    refine ite_next (ht h) (ite_next (ite_next ?_ (ht h)) (ite_next ?_ ?_))
    · exact memWf_finish (memWf_seedUnqueue h1)
    · exact memWf_holdOn (memWf_seedQueue h1)
    · exact memWf_finish (memWf_seedUnqueue (memWf_modKernel (memWf_seedPut h1)))

theorem memWf_execSeedldRemoteLoad {strand op die core} : NextWf (execSeedldRemoteLoad strand op die core s) := by
  have hf : ∀ {t : State} {own slot}, MemWf t → MemWf (match (t.strand strand).bind fun st => st.op op with
      | some o => if (t.seedLeft own slot o.replies).isEmpty then t.completeOp strand op else t
      | none => t) := by
    intro t own slot ht
    split
    · exact ite_wf (memWf_completeOp ht) ht
    · exact ht
  unfold execSeedldRemoteLoad
  split
  · exact h
  split
  · exact h
  split
  · dsimp only
    refine ite_next h (ite_next (hf h) (ite_next h (ite_next (hf (memWf_modStrand (memWf_ctxEvent h))) ?_)))
    split
    next e => exact hf (memWf_modStrand (memWf_reloadDo (fst_wf e (memWf_reloadReady h))))
    next e => exact fst_wf e (memWf_reloadReady h)
  · exact h

theorem memWf_keepStep {die core st d k} : MemWf (s.keepStep die core st d k) := memWf_modCore h

theorem memWf_loopStep {die core st o tn sxv d} : MemWf (s.loopStep die core st o tn sxv d) := by
  unfold State.loopStep
  dsimp only
  split
  · exact memWf_modCore h
  · exact memWf_modCore h
  · exact memWf_modCore h
  · exact memWf_modCore h
  · exact memWf_modCore h
  · exact memWf_modCore h

theorem memWf_bubble {die core} : MemWf (s.bubble die core) := memWf_modCore h

theorem memWf_execSeqOpStart {die core} : NextWf (execSeqOpStart die core s) := by
  unfold execSeqOpStart
  split
  · exact h
  split
  · exact h
  split
  · exact memWf_seedDropAll (memWf_modCore h)
  · exact memWf_modCore h
  · exact memWf_modCore h

theorem memWf_execMloopStep {die core} : NextWf (execMloopStep die core s) := by
  unfold execMloopStep
  split
  · exact h
  split
  · exact ite_next h (memWf_bubble (ite_wf (memWf_keepStep (memWf_loopStep h)) (memWf_loopStep h)))
  exact h

theorem memWf_scanRun {st toff tp ji nc kc coff cnt roff} :
    MemWf (s.scanRun st toff tp ji nc kc coff cnt roff) :=
  foldl_wf (fun _ _ h => memWf_scrPuts h) h

theorem memWf_matEffect {die core st o} : MemWf (s.matEffect die core st o).1 := by
  unfold State.matEffect
  dsimp only
  split
  · exact memWf_modCore h
  · exact h
  · exact ite_wf (memWf_modCore (memWf_modStrand h)) (memWf_modStrand h)
  · exact ite_wf (memWf_modCore (foldl_wf (fun _ _ h => memWf_scrPuts h) h))
      (foldl_wf (fun _ _ h => memWf_scrPuts h) h)
  · exact memWf_modCore h
  · exact memWf_modCore h
  · exact memWf_scanRun h
  · exact h

theorem memWf_matComplete {die core} : MemWf (s.matComplete die core) := by
  unfold State.matComplete
  split
  · exact h
  split
  · exact memWf_modCore (memWf_letGo h)
  dsimp only
  refine ite_wf h (memWf_completeOp (memWf_modStrand (memWf_modCore (memWf_letGo ?_))))
  split
  · exact h
  · exact memWf_matEffect h

/-! Placing, saving and completing items. -/

theorem memWf_tablesReady {p} : MemWf (s.tablesReady p).1 := by
  unfold State.tablesReady
  split
  · exact h
  · exact h
  · exact memWf_unitPark h
  · exact memWf_unitBatch h
  · exact h

theorem memWf_tablesLoad {p} : MemWf (s.tablesLoad p) := by
  unfold State.tablesLoad
  split
  · exact memWf_modCore h
  exact h

theorem memWf_prepareCores {ps} : MemWf (s.prepareCores ps).1 :=
  ite_fst_wf (foldl_wf (fun _ _ h => memWf_seedsLoad (memWf_tablesLoad h))
    (foldl_fst_wf (fun _ _ h => memWf_seedsReady (memWf_tablesReady h)) h))
      (foldl_fst_wf (fun _ _ h => memWf_seedsReady (memWf_tablesReady h)) h)

theorem memWf_settleIn {ctx l} : MemWf (s.settleIn ctx l) := memWf_modCore h

theorem memWf_execItemDispatch {ctx kid places} : NextWf (execItemDispatch ctx kid places s) := by
  unfold execItemDispatch
  split
  · exact h
  split
  · exact h
  dsimp only
  exact ite_next h (ite_next (memWf_prepareCores h) (memWf_modKernel (foldl_wf (fun _ _ hs => memWf_acquire hs)
    (with_wf (foldl_wf (fun _ _ hs => with_wf (memWf_settleIn hs)) (with_wf (memWf_prepareCores h)))))))

theorem memWf_freeTiles {key} : MemWf (s.freeTiles key) := memWf_allCoresMod h

theorem memWf_endOps {ctx kid complete ops} : MemWf (s.endOps ctx kid complete ops) := by
  unfold State.endOps
  refine foldl_wf (fun s o hs => ?_) h
  dsimp only
  split
  · exact ite_wf (memWf_seedDropAll (memWf_letGo hs)) (memWf_letGo hs)
  · exact memWf_letGo hs

theorem memWf_execItemComplete {ctx kid item} : NextWf (execItemComplete ctx kid item s) := by
  unfold execItemComplete
  split
  · exact h
  split
  · exact h
  exact ite_next h (ite_next (foldl_wf (fun _ _ h => memWf_release h) h) (memWf_endKernel
    (ite_wf (memWf_writeDone (memWf_modKernel (with_wf (memWf_endOps (memWf_freeTiles
      (foldl_wf (fun _ _ h => memWf_release h) h))))))
        (memWf_modKernel (with_wf (memWf_endOps (memWf_freeTiles (foldl_wf (fun _ _ h => memWf_release h)
          h))))))))

theorem memWf_itemGone {ctx kid iid} : MemWf (s.itemGone ctx kid iid) := by
  unfold State.itemGone
  split
  · exact h
  dsimp only
  split
  · exact h
  exact memWf_endKernel (memWf_modKernel (memWf_endOps (memWf_freeTiles h)))

theorem memWf_discard {id} : MemWf (s.discard id) := by
  unfold State.discard
  split
  · exact h
  exact ite_wf (with_wf (memWf_allCoresMod (foldl_wf (fun _ _ h => memWf_letGo h)
    (ite_wf (memWf_leaveLane (memWf_modChans (memWf_leaveGroups h))) (memWf_modChans (memWf_leaveGroups h))))))
      (memWf_itemGone (with_wf (memWf_allCoresMod (foldl_wf (fun _ _ h => memWf_letGo h)
        (ite_wf (memWf_leaveLane (memWf_modChans (memWf_leaveGroups h)))
          (memWf_modChans (memWf_leaveGroups h)))))))

theorem memWf_stopCore {n d c} : MemWf (s.stopCore n d c) := memWf_modCore (with_wf h)

theorem memWf_execPreemption {die core forCtx} : NextWf (execPreemption die core forCtx s) := by
  unfold execPreemption
  dsimp only
  split
  · exact h
  split
  · exact h
  exact memWf_stopCore h

theorem memWf_saveWrite {ctx u pages} : MemWf (s.saveWrite ctx u pages).1 := by
  unfold State.saveWrite
  dsimp only
  split
  · exact h
  split
  · exact h
  split
  · exact h
  · exact memWf_ctxEvent h
  · exact h
  · exact memWf_unitPark h
  · exact ite_fst_wf (memWf_unitBatch h) (memWf_modCore (memWf_modCtx (memWf_unitBatch h)))

theorem memWf_saveItem {d c key pages} : MemWf (s.saveItem d c key pages) :=
  ite_wf h (memWf_modItem (memWf_modCore h))

theorem memWf_saveTiles {d c n} : MemWf (s.saveTiles d c n) := by
  unfold State.saveTiles
  dsimp only
  refine ite_wf ?_ (memWf_modCore ?_)
  all_goals
    refine foldl_wf (fun s k hs => ?_) h
    refine ite_wf hs ?_
    split
    next e => exact memWf_saveItem (fst_wf e (memWf_saveWrite hs))
    next e => exact fst_wf e (memWf_saveWrite hs)

theorem memWf_saveMatrix : MemWf s.saveMatrix :=
  ite_wf h (foldl_wf (fun _ _ h => foldl_wf (fun _ _ h => foldl_wf (fun _ _ h => memWf_saveTiles h) h) h) h)

theorem memWf_execStrandSave {strand} : NextWf (execStrandSave strand s) := by
  unfold execStrandSave
  split
  · exact h
  split
  · exact ite_next (memWf_discard h) h
  next l _ =>
    refine ite_next h (ite_next (memWf_payOwed (memWf_discard h)) ?_)
    have hr : MemWf (s.release l.die l.core 4 true) := memWf_release h
    dsimp only
    generalize s.release l.die l.core 4 true = s1 at hr
    refine ite_next hr ?_
    split
    next e => exact fst_wf e (memWf_saveWrite hr)
    next e =>
      have h1 := fst_wf e (memWf_saveWrite hr)
      exact memWf_payOwed (memWf_saveItem (memWf_modCore (memWf_putStrand (memWf_leaveLane h1))))

theorem memWf_freeEmb {ctx i} : MemWf (s.freeEmb ctx i) := memWf_modCtx (memWf_modCore h)

theorem memWf_moveGroups {st d} : MemWf (s.moveGroups st d) := by
  unfold State.moveGroups
  refine foldl_wf (fun s g hs => ?_) h
  split
  · exact hs
  · exact ite_wf hs (memWf_modDie (memWf_dropGroup hs))

theorem memWf_restoreItem {st d c} : MemWf (s.restoreItem st d c) := by
  unfold State.restoreItem
  split
  · exact ite_wf h (memWf_modItem (memWf_modCore h))
  exact h

theorem memWf_readRecord {ctx l} : MemWf (s.readRecord ctx l) := memWf_freeEmb (memWf_modCtx (with_wf h))

theorem memWf_restoreRead {st d c} : MemWf (s.restoreRead st d c).1 := by
  unfold State.restoreRead
  dsimp only
  split
  · exact h
  split
  · exact h
  · exact memWf_ctxEvent h
  · exact h
  · exact memWf_unitPark h
  · exact memWf_unitBatch h

theorem memWf_restoreOne {id st l} : MemWf (s.restoreOne id st l) :=
  memWf_drained (memWf_modCore (memWf_putStrand (ite_wf (memWf_moveGroups (memWf_settleIn h))
    (memWf_acquire (memWf_moveGroups (memWf_settleIn h))))))

theorem memWf_execStrandRestore {strand place} : NextWf (execStrandRestore strand place s) := by
  unfold execStrandRestore
  split
  next st all _ _ =>
    have hr : MemWf (all.foldl (fun q e =>
        ((q.1.restoreRead e.2.1 place.loc.die place.loc.core).1,
          q.2 && (q.1.restoreRead e.2.1 place.loc.die place.loc.core).2)) (s, true)).1 :=
      foldl_fst_wf (fun _ _ hq => memWf_restoreRead hq) h
    dsimp only
    refine ite_next h (ite_next hr (ite_next (memWf_prepareCores hr) ?_))
    refine foldl_wf (fun _ _ hs => memWf_restoreOne hs) ?_
    refine memWf_restoreItem (with_wf (memWf_modCtx (foldl_wf (fun s e hs => ?_) (memWf_prepareCores hr))))
    split
    · exact memWf_readRecord hs
    · exact hs
  next => exact h

/-! Messages. -/

theorem memWf_gone {m} : MemWf (s.gone m) := same_wf h

theorem memWf_loseFor {ctx} : MemWf (s.loseFor ctx) := ite_wf h (with_wf h)

/-! Queues. -/

theorem memWf_modQueue {q g} : MemWf (s.modQueue q g) := same_wf h

theorem memWf_qStore {qn d r} : MemWf (s.qStore qn d r).1 := by
  unfold State.qStore
  dsimp only
  exact memWf_pageReady h

theorem memWf_qRetry {qn d} : MemWf (s.qRetry qn d) := by
  unfold State.qRetry
  refine memWf_modQueue (foldl_fst_wf (fun a r ha => ?_) h)
  exact ite_fst_wf (memWf_qStore ha) ha

theorem memWf_qRetryAll {ctx} : MemWf (s.qRetryAll ctx) :=
  foldl_wf (fun _ _ h => ite_wf (memWf_qRetry (memWf_qRetry (memWf_qRetry h))) h) h

theorem memWf_qPutBad {ctx va r} : MemWf (s.qPutBad ctx va r) := by
  unfold State.qPutBad
  split
  · exact memWf_devPuts h
  · exact memWf_modCtx h
  · exact memWf_modCtx h
  · exact memWf_modCtx (memWf_openDeviceBatch h)

theorem memWf_qOffer {qn src r} : MemWf (s.qOffer qn src r).1 := by
  unfold State.qOffer
  dsimp only
  split
  · exact h
  split
  · exact memWf_modQueue (memWf_qPutBad h)
  split
  · exact h
  exact memWf_modQueue (ite_fst_wf (memWf_qStore h) (memWf_send h))

theorem memWf_qFirst {qn d} : MemWf (s.qFirst qn d).1 := by
  unfold State.qFirst
  refine foldl_fst_wf (fun a p ha => ?_) h
  split
  · exact ha
  · exact ite_fst_wf ha (ite_fst_wf (memWf_pageReady ha) (memWf_modQueue (memWf_pageReady ha)))

theorem memWf_qNext {qn d} : MemWf (s.qNext qn d).1 := by
  unfold State.qNext
  refine foldl_fst_wf (fun a e ha => ?_) h
  split
  · exact ha
  split
  next eq => exact fst_wf eq (memWf_qFirst ha)
  next eq => exact memWf_modQueue (fst_wf eq (memWf_qFirst ha))

theorem memWf_takeTry {st d qn c m} : MemWf (s.takeTry st d qn c m).1 := by
  unfold State.takeTry
  dsimp only
  refine ite_fst_wf ?_ ?_
  all_goals
    refine ite_fst_wf h (foldl_fst_wf (fun a t ha => ?_) h)
    split
    next e => exact fst_wf e (memWf_qNext ha)
    next e => exact fst_wf e (memWf_qNext ha)

theorem memWf_execEmit {f} : NextWf (execEmit f s) := by
  unfold execEmit
  dsimp only
  split
  next e => exact memWf_issue_out h e
  refine ite_next (memWf_finish h) (ite_next (memWf_holdOn h) ?_)
  refine memWf_finish (foldl_fst_wf (fun a t ha => ?_) ?_)
  · refine ite_fst_wf ha ?_
    split
    next e => exact fst_wf e (memWf_qOffer ha)
    next e => exact fst_wf e (memWf_qOffer ha)
    next e => exact fst_wf e (memWf_qOffer ha)
  · exact memWf_commit (memWf_relAct h)

theorem memWf_execTake {f} : NextWf (execTake f s) := by
  unfold execTake
  dsimp only
  split
  next e => exact memWf_issue_out h e
  split
  · exact memWf_finish h
  split
  next e3 => exact memWf_finish (memWf_acqAct (fst_wf e3 (memWf_takeTry (memWf_commit h))))
  next e3 =>
    have h3 := fst_wf e3 (memWf_takeTry (memWf_commit h))
    exact ite_next (memWf_enterWait h3) (memWf_holdOn h3)

theorem memWf_execQclose {f} : NextWf (execQclose f s) := by
  unfold execQclose
  dsimp only
  split
  next e => exact memWf_issue_out h e
  exact ite_next (memWf_finish h) (memWf_finish (ite_wf (memWf_modQueue (memWf_commit h)) (memWf_commit h)))

theorem memWf_launchCons {ctx ptr} : MemWf (s.launchCons ctx ptr) := by
  have hr : MemWf (s.homeRead 0 (devTr 0 ctx) ptr 8).1 := memWf_homeRead h fun _ _ hs => hs
  unfold State.launchCons
  split
  next e => exact memWf_appendLaunch (fst_wf e hr)
  next e => exact memWf_logAppend (fst_wf e hr)
  next e => exact memWf_modCtx (memWf_openDeviceBatch (fst_wf e hr))
  next e => exact memWf_modCtx (fst_wf e hr)
  next e => exact memWf_modCtx (fst_wf e hr)

theorem memWf_qcmd {qn code} : MemWf (s.qcmd qn code) :=
  ite_wf h (ite_wf (ite_wf h (ite_wf (memWf_modQueue h) (memWf_launchCons (memWf_modQueue h))))
    (ite_wf (ite_wf (memWf_modQueue h) h) (ite_wf (ite_wf (memWf_modQueue h) h) h)))

theorem memWf_qRetire {ctx} : MemWf (s.qRetire ctx) := same_wf h

theorem memWf_appendSlot {queue appCore word value} : MemWf (s.appendSlot queue appCore word value) := by
  unfold State.appendSlot
  split
  · exact h
  split
  split
  · exact memWf_modQueue h
  dsimp only
  split
  next e4 => exact memWf_modQueue (fst_wf e4 (memWf_qOffer (memWf_modQueue h)))
  next e4 => exact fst_wf e4 (memWf_qOffer (memWf_modQueue h))

theorem memWf_execQueueAppendWrite {queue appCore word value} :
    NextWf (execQueueAppendWrite queue appCore word value s) :=
  ite_wf (memWf_appendSlot h) h

theorem memWf_execQueueRecordArrive {queue src die} : NextWf (execQueueRecordArrive queue src die s) := by
  unfold execQueueRecordArrive
  dsimp only
  split
  · exact h
  split
  · exact h
  exact memWf_modQueue (memWf_qStore (memWf_gone h))

theorem memWf_qMigrate {stay d} : MemWf (s.qMigrate stay d) := by
  unfold State.qMigrate
  refine foldl_wf (fun s e hs => ?_) h
  dsimp only
  refine foldl_wf (fun s r hr => ?_) (with_wf (memWf_modQueue hs))
  split
  · exact hr
  · exact ite_wf (memWf_loseFor hr) (memWf_modQueue (memWf_qStore hr))

/-! Channels and reductions. -/

theorem memWf_modChan {ctx kid n g} : MemWf (s.modChan ctx kid n g) := memWf_modKernel h

theorem memWf_execChsend {f} : NextWf (execChsend f s) := by
  unfold execChsend
  dsimp only
  split
  next e => exact memWf_issue_out h e
  split
  · exact memWf_finish h
  split
  · exact memWf_trapAtIssue h
  exact ite_next (memWf_trapAtIssue h) (ite_next (memWf_finish (memWf_commit h)) (memWf_finish (memWf_send
    (memWf_modChan (memWf_commit h)))))

theorem memWf_recvTry {st id base n m} : OptWf (·.1) (s.recvTry st id base n m) := by
  unfold State.recvTry
  split
  · trivial
  split
  · trivial
  dsimp only
  refine ite_opt trivial (ite_opt trivial ?_)
  exact memWf_acqAct (memWf_modChan (memWf_release h))

theorem memWf_execChrecv {f} : NextWf (execChrecv f s) := by
  unfold execChrecv
  dsimp only
  split
  next e => exact memWf_issue_out h e
  refine ite_next (memWf_finish h) ?_
  split
  · exact memWf_trapAtIssue h
  refine ite_next (memWf_trapAtIssue h) ?_
  split
  next e => exact memWf_finish (some_wf e (memWf_recvTry (memWf_modChan (memWf_commit h))))
  next => exact memWf_enterWait (memWf_modChan (memWf_commit h))

theorem memWf_execChannelSlotDeliver {ctx kid channel} : NextWf (execChannelSlotDeliver ctx kid channel s) := by
  unfold execChannelSlotDeliver
  split
  · exact h
  split
  · exact h
  split
  · exact memWf_gone h
  exact ite_next h (ite_next (memWf_release h) (memWf_modChan (memWf_gone (memWf_release h))))

theorem memWf_modRed {ctx kid n g} : MemWf (s.modRed ctx kid n g) := memWf_modKernel h

theorem memWf_execRedx {f} : NextWf (execRedx f s) := by
  unfold execRedx
  dsimp only
  split
  next e => exact memWf_issue_out h e
  exact ite_next (memWf_finish h) (ite_next (memWf_holdOn h) (memWf_finish (foldl_wf (fun _ _ h => memWf_send h)
    (memWf_modRed (memWf_commit (memWf_relAct h))))))

theorem memWf_execRedxContributionArrive {ctx kid object} :
    NextWf (execRedxContributionArrive ctx kid object s) := by
  unfold execRedxContributionArrive
  split
  · exact h
  split
  · exact memWf_reroot h
  split
  · exact h
  split
  · exact memWf_gone h
  exact memWf_modRed (memWf_gone h)

theorem memWf_execRedw {f} : NextWf (execRedw f s) := by
  unfold execRedw
  dsimp only
  split
  next e => exact memWf_issue_out h e
  split
  · exact memWf_finish h
  split
  · exact memWf_trapAtIssue h
  exact ite_next (memWf_finish h) (memWf_finish (memWf_acqAct h))

theorem memWf_dropMsg {m} : MemWf (s.dropMsg m) := by
  unfold State.dropMsg
  dsimp only
  split
  · exact memWf_modRed (memWf_gone h)
  · exact memWf_modChan (memWf_gone h)
  · exact memWf_modQueue (memWf_gone h)
  · exact memWf_gone h
  · exact memWf_gone h

/-! Frames, balloons and regions. -/

theorem memWf_replayAt {d} : MemWf (s.replayAt d) := memWf_tidy (memWf_modDie h)

theorem memWf_reclaim {d frame} : MemWf (s.reclaim d frame) := by
  unfold State.reclaim
  dsimp only
  split
  · exact memWf_putDie h
  exact ite_wf (memWf_putDie h) (ite_wf (memWf_putDie h) h)

theorem memWf_execTensionReclaim {die frame} : NextWf (execTensionReclaim die frame s) := by
  unfold execTensionReclaim
  split
  · exact h
  dsimp only
  split
  · exact memWf_replayAt (memWf_putDie h)
  exact memWf_replayAt (ite_wf h (memWf_reclaim h))

theorem memWf_parkLimit {die} : MemWf (s.parkLimit die) :=
  ite_wf h (foldl_wf (fun _ _ h => ite_wf h (memWf_ctxEvent (memWf_modCtx h))) (memWf_modDie h))

theorem memWf_balloonPages {st va n} : MemWf (s.balloonPages st va n).1 := by
  induction n generalizing s va with
  | zero => exact h
  | succ n ih =>
    have hk : ∀ {va'}, MemWf ((s.translate st.ctx st.d st.k (some st.ln) va kWrite).1.balloonPages st va' n).1 :=
      ih (memWf_translate h)
    simp only [State.balloonPages]
    split
    · exact hk
    · exact hk
    · exact hk
    · exact hk

theorem memWf_zeroRange {pa n} : MemWf (s.zeroRange pa n) := (zeroRange_stores ..).kept h

theorem memWf_givePage {d c pa} : MemWf (s.givePage d c pa) := (givePage_stores ..).kept h

theorem memWf_execBalloonGive {f} : NextWf (execBalloonGive f s) := by
  unfold execBalloonGive
  dsimp only
  split
  next e => exact memWf_issue_out h e
  split
  · exact memWf_finish h
  split
  · exact memWf_trapAtIssue h
  split
  · exact memWf_trapAtIssue h
  split
  next e5 => exact memWf_xlFault (fst_wf e5 (memWf_balloonPages h))
  next e5 => exact memWf_xlPark (fst_wf e5 (memWf_balloonPages h))
  next e5 =>
    have h5 := fst_wf e5 (memWf_balloonPages h)
    exact ite_next (memWf_holdOn h5) (memWf_finish (foldl_wf (fun _ _ h => memWf_givePage h) (memWf_relAct h5)))

theorem memWf_execBalloonQuery {f} : NextWf (execBalloonQuery f s) := memWf_execOnce h

theorem memWf_dropRegion {d r} : MemWf (s.dropRegion d r) := same_wf h

theorem memWf_armRegion {d n} : MemWf (s.armRegion d n) :=
  ite_wf (memWf_modDie h) (memWf_modDie (memWf_modDie (memWf_zeroRange (memWf_dropRegion h))))

theorem memWf_disarmRegion {d n} : MemWf (s.disarmRegion d n) :=
  memWf_modDie (ite_wf h (memWf_modDie (memWf_zeroRange h)))

theorem memWf_execArm {die region} : NextWf (execArm die region s) := ite_wf h (memWf_armRegion h)

theorem memWf_execDisarm {die region} : NextWf (execDisarm die region s) := ite_wf h (memWf_disarmRegion h)

theorem memWf_deadlines : MemWf s.deadlines := foldl_wf (fun _ _ h => memWf_parkLimit h) (ite_wf (with_wf h) h)

theorem memWf_execBudgetChange {die celsius} : NextWf (execBudgetChange die celsius s) := memWf_modDie h

theorem memWf_memSwitch : MemWf s.memSwitch := ite_wf (with_wf h) h

theorem memWf_memRequest {v} : MemWf (s.memRequest v) := ite_wf (memWf_memSwitch (with_wf h)) (with_wf h)

theorem memWf_execMemfsp {f} : NextWf (execMemfsp f s) := by
  unfold execMemfsp
  dsimp only
  split
  next e => exact memWf_issue_out h e
  exact ite_next (memWf_finish h) (ite_next (memWf_ctxEvent (memWf_finish h)) (ite_next (memWf_holdOn h)
    (memWf_finish (memWf_memRequest h))))

theorem memWf_execMemspWrite {die value} : NextWf (execMemspWrite die value s) := ite_wf (memWf_memRequest h) h

theorem memWf_execMemfspSwitch : NextWf (execMemfspSwitch s) := ite_wf (memWf_memSwitch h) h

/-! The die set and its links. -/

theorem memWf_modLink {l g} : MemWf (s.modLink l g) := same_wf h

theorem memWf_loseMsg {m} : MemWf (s.loseMsg m) := by
  unfold State.loseMsg
  split
  · dsimp only
    split
    · exact memWf_markDone (memWf_gone h)
    exact memWf_gone h
  split
  · exact memWf_loseFor (memWf_dropMsg h)
  exact memWf_dropMsg h

theorem memWf_dropDead : MemWf s.dropDead := ite_wf h (foldl_wf (fun _ _ h => memWf_loseMsg h) h)

theorem memWf_retrainLink {l} : MemWf (s.retrainLink l) :=
  ite_wf h (foldl_wf (fun _ _ h => memWf_modDie h) (memWf_modLink h))

theorem memWf_execRetrain {die port} : NextWf (execRetrain die port s) := ite_wf h (memWf_retrainLink h)

theorem memWf_execFlitReplay {die port flits} : NextWf (execFlitReplay die port flits s) :=
  ite_wf h (memWf_modDie h)

theorem memWf_failLink {l} : MemWf (s.failLink l) := memWf_dropDead (memWf_modLink h)

theorem memWf_trainEnd {l trained} : MemWf (s.trainEnd l trained) :=
  ite_wf h (ite_wf (memWf_modLink h) (ite_wf (memWf_failLink h) (memWf_modLink h)))

theorem memWf_diesetBegin {mode} : MemWf (s.diesetBegin mode) :=
  ite_wf (with_wf h) (ite_wf (with_wf h) (foldl_wf (fun _ _ h => foldl_wf (fun _ _ h => memWf_stopCore h) h)
    (with_wf (memWf_memSwitch h))))

theorem memWf_diesetRequest {v} : MemWf (s.diesetRequest v) :=
  ite_wf (memWf_diesetBegin (with_wf h)) (with_wf h)

theorem memWf_frameBoundary : MemWf s.frameBoundary :=
  ite_wf (memWf_diesetBegin (memWf_memSwitch h)) (memWf_memSwitch h)

theorem memWf_execDieset {f} : NextWf (execDieset f s) := by
  unfold execDieset
  dsimp only
  split
  next e => exact memWf_issue_out h e
  exact ite_next (memWf_finish h) (ite_next (memWf_ctxEvent (memWf_finish h)) (ite_next (memWf_holdOn h)
    (memWf_diesetRequest (memWf_finish h))))

theorem memWf_execDsctlWrite {value} : NextWf (execDsctlWrite value s) := ite_wf h (memWf_diesetRequest h)

theorem memWf_execDiesetChange : NextWf (execDiesetChange s) := ite_wf (memWf_diesetBegin h) h

theorem memWf_moveDieGroups {d mode} : MemWf (s.moveDieGroups d mode) := by
  unfold State.moveDieGroups
  refine foldl_wf (fun s e hs => ?_) h
  dsimp only
  split
  · exact hs
  · exact hs

theorem memWf_diesetMove {goal mode leaving} : MemWf (s.diesetMove goal mode leaving) :=
  with_wf (foldl_wf (fun _ _ h => memWf_moveDieGroups (memWf_qMigrate (foldl_wf (fun _ _ h => memWf_release h)
    h))) h)

theorem memWf_execDiesetCommit : NextWf (execDiesetCommit s) := by
  unfold execDiesetCommit
  split
  · exact h
  exact ite_next (ite_next h (ite_wf (memWf_diesetBegin (with_wf h)) (with_wf h)))
    (ite_wf h (memWf_diesetMove h))

/-! Tiles and their fences. -/

theorem memWf_payTile {d} : MemWf (s.payTile d) :=
  ite_wf h (foldl_wf (fun _ _ h => memWf_devPuts h) (memWf_modDie h))

theorem memWf_tileEvent {d m} : MemWf (s.tileEvent d m) := memWf_payTile (memWf_modDie h)

theorem memWf_execHeartbeatSend {die tile fatal} : NextWf (execHeartbeatSend die tile fatal s) :=
  ite_wf h (memWf_modTile h)

theorem memWf_appealDone {d m} : MemWf (s.appealDone d m) := ite_wf (memWf_tileEvent (memWf_modTile h)) h

theorem memWf_execHeartbeatReceive {die tile side} : NextWf (execHeartbeatReceive die tile side s) := by
  unfold execHeartbeatReceive
  dsimp only
  split
  · exact h
  exact ite_next (memWf_modTile h) (memWf_appealDone (ite_wf (memWf_modDie (memWf_modTile (memWf_modTile h)))
    (memWf_modTile (memWf_modTile h))))

theorem memWf_execHeartbeatMiss {die tile side} : NextWf (execHeartbeatMiss die tile side s) :=
  ite_next h (ite_wf (memWf_modDie (memWf_modDie (memWf_modTile h))) (memWf_modDie (memWf_modTile h)))

theorem memWf_execBabbleDetect {die tile side} : NextWf (execBabbleDetect die tile side s) :=
  ite_next h (ite_next (memWf_modTile h) (ite_wf (memWf_modDie (memWf_modTile (memWf_modTile h)))
    (memWf_modDie (memWf_modDie (memWf_modTile (memWf_modTile h))))))

theorem memWf_orphanKernel {ctx kid d c k} : MemWf (s.orphanKernel ctx kid d c k) :=
  foldl_wf (fun _ _ h => ite_wf (foldl_wf (fun _ _ h => ite_wf h (memWf_modStrand h)) (memWf_modChan h)) h) h

theorem memWf_hitItem {key} : MemWf (s.hitItem key) :=
  memWf_modKernel (ite_wf (memWf_seedDropKernel (with_wf h)) (with_wf h))

theorem memWf_fenceCore {d c} : MemWf (s.fenceCore d c) :=
  foldl_wf (fun _ _ h => memWf_ctxEvent h) (memWf_modCore (foldl_wf (fun _ _ h => memWf_letGo h) (foldl_wf
    (fun _ _ h => ite_wf h (memWf_itemGone h)) (foldl_wf (fun _ _ h => memWf_discard h) (foldl_wf (fun _ _ h =>
      memWf_hitItem h) (foldl_wf (fun _ _ h => foldl_wf (fun _ _ h => memWf_orphanKernel h) h) h))))))

theorem memWf_loseLine {line} : MemWf (s.loseLine line) := memWf_modDie h

theorem memWf_fenceSlice {d n} : MemWf (s.fenceSlice d n) :=
  ite_wf (memWf_modDie (memWf_modDie h)) (foldl_wf (fun _ _ h => memWf_ctxEvent h) (foldl_wf (fun _ _ h =>
    memWf_loseLine h) (memWf_modDie (memWf_modDie h))))

theorem memWf_broadcast {d m} : MemWf (s.broadcast d m) := ite_wf (with_wf h) (memWf_send (with_wf h))

theorem memWf_loseTransit {s0 d m transit} : MemWf (s.loseTransit s0 d m transit) := h

theorem memWf_fenceLinks : MemWf s.fenceLinks := foldl_wf (fun _ _ h => ite_wf (memWf_failLink h) h) h

theorem memWf_execTileFence {die tile transit} : NextWf (execTileFence die tile transit s) := by
  unfold execTileFence
  dsimp only
  split
  · exact h
  split
  · exact memWf_tileEvent (memWf_fenceCore (memWf_fenceLinks (memWf_broadcast (memWf_loseTransit
      (memWf_modTile h)))))
  · exact memWf_tileEvent (memWf_fenceSlice (memWf_fenceLinks (memWf_broadcast (memWf_loseTransit
      (memWf_modTile h)))))
  · exact memWf_tileEvent (memWf_fenceLinks (memWf_broadcast (memWf_loseTransit (memWf_modTile h))))

theorem memWf_execMulticastForward {message router} : NextWf (execMulticastForward message router s) :=
  with_wf h

theorem memWf_tileDropped {d n} : MemWf (s.tileDropped d n) := memWf_modDie h

theorem memWf_fenceMsgs {d m r} : MemWf (s.fenceMsgs d m r) :=
  ite_wf (foldl_wf (fun _ _ h => memWf_dropMsg h) (memWf_tileDropped (foldl_wf (fun _ _ h => memWf_dropMsg h)
    h))) (with_wf (memWf_tileDropped (foldl_wf (fun _ _ h => memWf_dropMsg h) h)))

theorem memWf_execFenceBroadcastReceive {die tile receiver} :
    NextWf (execFenceBroadcastReceive die tile receiver s) := by
  unfold execFenceBroadcastReceive
  split
  · exact h
  exact ite_next (memWf_payTile (memWf_modTile (with_wf h)))
    (memWf_payTile (memWf_fenceMsgs (memWf_tileDropped (memWf_modTile (with_wf h)))))

theorem memWf_execTagQuery {message} : NextWf (execTagQuery message s) := with_wf h

theorem memWf_execTagAnswer {message} : NextWf (execTagAnswer message s) := by
  unfold execTagAnswer
  split
  · exact h
  split
  · exact ite_next (with_wf h) (memWf_modStrand (memWf_gone h))
  exact with_wf h

theorem memWf_execSelfTestDone {die tile passed} : NextWf (execSelfTestDone die tile passed s) :=
  ite_next h (ite_next (memWf_modTile h) (memWf_tileEvent (memWf_modTile h)))

theorem memWf_execProbationEnd {die tile} : NextWf (execProbationEnd die tile s) := by
  unfold execProbationEnd
  dsimp only
  split
  · exact h
  split
  · exact memWf_tileEvent (memWf_modDie h)
  exact ite_next (foldl_wf (fun _ _ h => memWf_cleanLine h) h)
    (memWf_broadcast (memWf_tileEvent (memWf_modDie (foldl_wf (fun _ _ h => memWf_cleanLine h) h))))

/-! The interpolation jobs. -/

theorem memWf_execDarn {f} : NextWf (execDarn f s) := by
  unfold execDarn
  dsimp only
  split
  next e => exact memWf_issue_out h e
  split
  · exact memWf_finish h
  split
  · exact memWf_trapAtIssue h
  split
  · exact memWf_trapAtIssue h
  split
  · exact memWf_holdOn h
  split
  next e6 => exact memWf_xlPark (fst_wf e6 (memWf_seedRead h))
  next e6 => exact memWf_holdOn (fst_wf e6 (memWf_seedRead h))
  next e6 => exact memWf_xlFault (fst_wf e6 (memWf_seedRead h))
  · exact memWf_trapAtIssue h
  next e6 =>
    have h6 := fst_wf e6 (memWf_seedRead h)
    exact ite_next (memWf_trapAtIssue h) (ite_next (memWf_holdOn h6) (ite_next (memWf_stallOn h6) (memWf_finish
      (memWf_modDie (memWf_commit h6)))))

theorem memWf_execDarnJobStart {die} : NextWf (execDarnJobStart die s) := by
  unfold execDarnJobStart
  dsimp only
  split
  · exact memWf_modDie h
  exact h

theorem memWf_jobAddr {d j need va} : MemWf (s.jobAddr d j need va).1 := by
  unfold State.jobAddr
  split
  · exact h
  split
  next e2 => exact fst_wf e2 (memWf_translate h)
  next e2 => exact fst_wf e2 (memWf_translate h)
  next e2 => exact fst_wf e2 (memWf_translate h)
  next e2 => exact fst_wf e2 (memWf_translate h)
  next e2 => exact fst_wf e2 (memWf_translate h)

theorem memWf_jobRead {d j k va n} : MemWf (s.jobRead d j k va n).1 := by
  induction n generalizing s va with
  | zero => exact h
  | succ n ih =>
    simp only [State.jobRead]
    split
    next e => exact fst_wf e (memWf_jobAddr h)
    next e =>
      have h1 := fst_wf e (memWf_jobAddr h)
      refine ite_fst_wf h1 ?_
      split
      · exact h1
      split
      next e2 => exact fst_wf e2 (ih h1)
      next => exact ih h1

theorem memWf_jobWrite {d j va l} : MemWf (s.jobWrite d j va l).1 := by
  induction l generalizing s va with
  | nil => exact h
  | cons w r ih =>
    simp only [State.jobWrite]
    split
    next e => exact fst_wf e (memWf_jobAddr h)
    next e =>
      have h1 := fst_wf e (memWf_jobAddr h)
      exact ite_fst_wf h1 (ih (memWf_corePuts h1))

theorem memWf_jobJoin {d j} : MemWf (s.jobJoin d j) := by
  unfold State.jobJoin
  split
  · exact h
  dsimp only
  split
  · exact ite_wf (memWf_acquire (memWf_release h)) (memWf_acquire (memWf_release h))
  exact memWf_release h

theorem memWf_jobRun {d j} : MemWf (s.jobRun d j).1 := by
  unfold State.jobRun
  dsimp only
  split
  next e1 => exact fst_wf e1 (memWf_jobRead h)
  next e1 =>
    have h1 := fst_wf e1 (memWf_jobRead h)
    split
    next e2 => exact fst_wf e2 (memWf_jobRead h1)
    next e2 =>
      have h2 := fst_wf e2 (memWf_jobRead h1)
      split
      next e3 => exact fst_wf e3 (memWf_jobRead h2)
      next e3 =>
        have h3 := fst_wf e3 (memWf_jobRead h2)
        split
        next e4 => exact fst_wf e4 (memWf_jobRead h3)
        next e4 =>
          have h4 := fst_wf e4 (memWf_jobRead h3)
          split
          next e5 => exact fst_wf e5 (memWf_jobWrite h4)
          next e5 =>
            have h5 := fst_wf e5 (memWf_jobWrite h4)
            split
            next e6 => exact fst_wf e6 (memWf_jobWrite h5)
            next e6 =>
              dsimp only
              exact memWf_jobJoin (fst_wf e6 (memWf_jobWrite h5))

theorem memWf_jobEnd {d j e} : MemWf (s.jobEnd d j e) := by
  unfold State.jobEnd
  dsimp only
  split
  · exact memWf_engDone (memWf_modDie h)
  split
  · exact memWf_logError (memWf_modDie h)
  exact memWf_modDie h

theorem memWf_execDarnJobComplete {die} : NextWf (execDarnJobComplete die s) := by
  unfold execDarnJobComplete
  split
  · exact h
  split
  next e2 => exact ite_next h (memWf_jobEnd (fst_wf e2 (memWf_jobRun h)))
  next e2 => exact ite_next h (memWf_jobEnd (fst_wf e2 (memWf_jobRun h)))
  · exact ite_next h (ite_wf (memWf_jobEnd h) (memWf_openBatch h))
  · exact ite_next h (memWf_unitPark h)
  · exact ite_next h h

theorem memWf_modPort {d g} : MemWf (s.modPort d g) := memWf_modDie h

theorem memWf_afterStop {d} : MemWf (s.afterStop d) := ite_wf (memWf_frameBoundary h) h

theorem memWf_portEnable {d} : MemWf (s.portEnable d) := memWf_modPort h

theorem memWf_portDisable {d} : MemWf (s.portDisable d) := memWf_afterStop (memWf_modPort h)

theorem memWf_execSlmAttach {die attached} : NextWf (execSlmAttach die attached s) :=
  memWf_afterStop (memWf_modPort h)

theorem memWf_execVblankStart {die} : NextWf (execVblankStart die s) :=
  ite_next h (ite_wf (memWf_frameBoundary (memWf_modPort h)) (memWf_modPort h))

theorem memWf_execScanoutLine {die} : NextWf (execScanoutLine die s) := by
  unfold execScanoutLine
  dsimp only
  split
  · exact h
  split
  · exact h
  exact memWf_modPort h

theorem memWf_queueFrame {d ctx va} : MemWf (s.queueFrame d ctx va).1 :=
  ite_fst_wf h (ite_fst_wf h (ite_fst_wf h (memWf_modPort h)))

theorem memWf_execDispq {f} : NextWf (execDispq f s) := by
  unfold execDispq
  dsimp only
  split
  next e => exact memWf_issue_out h e
  exact ite_next (memWf_finish h) (ite_next (memWf_trapAtIssue h) (ite_next (memWf_trapAtIssue h)
    (ite_next (memWf_ctxEvent (memWf_holdOn h))
      (ite_next (memWf_holdOn h) (memWf_finish (memWf_queueFrame (memWf_commit (memWf_relAct h))))))))

theorem memWf_execDispqQuery {f} : NextWf (execDispqQuery f s) := by
  unfold execDispqQuery
  dsimp only
  split
  next e => exact memWf_issue_out h e
  exact ite_next (memWf_finish h) (ite_next (memWf_ctxEvent (memWf_holdOn h)) (ite_next (memWf_holdOn h)
    (memWf_finish h)))

/-! Contexts: commands, errors, sweeps. -/

theorem memWf_ctxErr {n e} : MemWf (s.ctxErr n e) := memWf_modCtx h

theorem memWf_ctxDo {g : State → State} (hg : MemWf (g s)) {n ok} : MemWf (s.ctxDo n ok g) :=
  ite_wf h (ite_wf (memWf_ctxErr hg) (memWf_ctxErr h))

theorem memWf_create {n} : MemWf (s.create n) := memWf_ctxDo h h

theorem memWf_start {n} : MemWf (s.start n) :=
  ite_wf h (ite_wf (memWf_ctxErr h) (ite_wf (memWf_ctxErr h) (memWf_modCtx h)))

theorem memWf_suspend {n} : MemWf (s.suspend n) := memWf_ctxDo h (memWf_stopStrands (memWf_modCtx h))

theorem memWf_resumeCtx {n} : MemWf (s.resumeCtx n) := memWf_ctxDo h h

theorem memWf_retireCtx {n} : MemWf (s.retireCtx n) := by
  have hq : ∀ {g},
      MemWf ((((s.ctx n).kernels.foldl (fun s e => s.seedDropKernel (n, e.1)) s).modCtx n g).qRetire n) :=
    memWf_qRetire (memWf_modCtx (foldl_wf (fun _ _ hs => memWf_seedDropKernel hs) h))
  unfold State.retireCtx
  refine memWf_ctxDo h ?_
  dsimp only
  exact foldl_wf (fun _ _ hs => memWf_discard hs) (with_wf hq)

theorem memWf_ack {n} : MemWf (s.ack n) := memWf_ctxDo h h

theorem memWf_ctxCmd {n v} : MemWf (s.ctxCmd n v) := by
  unfold State.ctxCmd
  split
  · exact memWf_create h
  · exact memWf_start h
  · exact memWf_suspend h
  · exact memWf_resumeCtx h
  · exact memWf_retireCtx h
  · exact memWf_ack h
  · exact ite_wf (memWf_ctxErr h) h

theorem memWf_writeCfg {n v} : MemWf (s.writeCfg n v) := ite_wf h (ite_wf (memWf_modCtx h) (memWf_ctxErr h))

theorem memWf_writeEmb {d c v} : MemWf (s.writeEmb d c v) := ite_wf (memWf_modDie h) h

theorem memWf_writeInv {n v} : MemWf (s.writeInv n v) := ite_wf h (ite_wf (memWf_ctxErr h) (memWf_modCtx h))

theorem memWf_execSweepRange {ctx value} : NextWf (execSweepRange ctx value s) := ite_wf h (memWf_writeInv h)

theorem memWf_execSweepAll {ctx value} : NextWf (execSweepAll ctx value s) := ite_wf (memWf_writeInv h) h

theorem memWf_sweepCaches {n w at_} : MemWf (s.sweepCaches n w at_) :=
  foldl_wf (fun _ _ h => ite_wf h (memWf_modDie h)) h

theorem memWf_flushCtx {n} : MemWf (s.flushCtx n) :=
  foldl_wf (fun _ _ h => memWf_writeBackDie h) (foldl_wf (fun _ _ h => memWf_writeBackL1 h) h)

theorem memWf_retrySave {n i va} : MemWf (s.retrySave n i va) := by
  unfold State.retrySave
  dsimp only
  split
  · exact memWf_freeEmb h
  · exact memWf_freeEmb (memWf_ctxEvent h)
  · exact memWf_modCtx h
  · exact memWf_modCtx h
  · exact memWf_modCtx (memWf_unitBatch h)

theorem memWf_retryOne {n a} : MemWf (s.retryOne n a) := by
  unfold State.retryOne
  split
  · exact memWf_appendLaunch h
  · exact memWf_writeDone h
  · exact memWf_devWrite h
  · exact memWf_putLog h
  · exact h
  · exact memWf_retrySave h
  · exact memWf_launchCons h
  · exact memWf_qPutBad h

theorem memWf_runRetries {n key} : MemWf (s.runRetries n key) :=
  foldl_wf (fun _ _ h => memWf_retryOne h) (memWf_modCtx h)

theorem memWf_unpark {ctx} : MemWf (s.unpark ctx) :=
  memWf_qRetryAll (memWf_runRetries (memWf_modCtx (with_wf h)))

theorem memWf_rerootAll {ctx w} : MemWf (s.rerootAll ctx w) :=
  foldl_wf (fun _ _ h => foldl_wf (fun _ _ h => ite_wf (memWf_reroot h) h) h) h

theorem memWf_execSweepComplete {ctx} : NextWf (execSweepComplete ctx s) := by
  unfold execSweepComplete
  split
  · exact h
  next w r _ =>
    have hf : MemWf ((s.sweepCaches ctx w fun e => !s.linkDead 0 e).flushCtx ctx) :=
      memWf_flushCtx (memWf_sweepCaches h)
    dsimp only
    generalize (s.sweepCaches ctx w fun e => !s.linkDead 0 e).flushCtx ctx = s1 at hf
    have hm : ∀ {g}, MemWf ((s1.modCtx ctx g).rerootAll ctx w) := memWf_rerootAll (memWf_modCtx hf)
    exact ite_next h (ite_next hf (ite_next (memWf_ctxEvent hf) (ite_wf (memWf_unpark hm) hm)))

theorem memWf_execBatchWrite {ctx} : NextWf (execBatchWrite ctx s) := by
  unfold execBatchWrite
  dsimp only
  split
  · exact h
  exact ite_next h (memWf_ctxEvent (memWf_modCtx (memWf_devPuts h)))

theorem memWf_fdone {n seq} : MemWf (s.fdone n seq) := by
  unfold State.fdone
  dsimp only
  split
  · exact h
  split
  · exact memWf_ctxErr h
  split
  · split
    · exact memWf_qRetryAll (memWf_runRetries (memWf_modStrand (memWf_modCtx h)))
    exact memWf_qRetryAll (memWf_runRetries (memWf_modCtx h))
  split
  · exact memWf_runRetries (memWf_modStrand (memWf_modCtx h))
  exact memWf_runRetries (memWf_modCtx h)

theorem memWf_execCtxRetired {ctx} : NextWf (execCtxRetired ctx s) :=
  ite_next h (memWf_ctxEvent (memWf_modCtx (with_wf (foldl_wf (fun _ _ h => memWf_freeKernel h)
    (memWf_flushCtx (memWf_sweepCaches h))))))

/-! Boot, power and debug. -/

theorem memWf_writeClk {d v} : MemWf (s.writeClk d v) := ite_wf (memWf_modDie h) h

theorem memWf_execClkreqWrite {die value} : NextWf (execClkreqWrite die value s) := ite_wf h (memWf_writeClk h)

theorem memWf_startQuote : MemWf s.startQuote := ite_wf (with_wf h) (with_wf h)

theorem memWf_execQuoteComplete : NextWf (execQuoteComplete s) := ite_next h (with_wf (memWf_devPuts h))

theorem memWf_setDie64 {d off v} : MemWf (s.setDie64 d off v) := by
  unfold State.setDie64
  split
  · exact memWf_writeEmb h
  · exact memWf_modDie h
  · exact ite_wf (memWf_modQueue h) h
  · exact ite_wf (memWf_modQueue h) h
  · exact ite_wf (memWf_modDie h) (ite_wf (memWf_modPort h) (ite_wf (with_wf h) h))

theorem memWf_setQueue32 {q r v} : MemWf (s.setQueue32 q r v) :=
  ite_wf (ite_wf (memWf_modQueue h) h) (ite_wf (memWf_qcmd h) h)

theorem memWf_setPort32 {d off v} : MemWf (s.setPort32 d off v) :=
  ite_wf (memWf_modPort h) (ite_wf (ite_wf (memWf_portEnable h) (ite_wf (memWf_portDisable h) h))
    (ite_wf (memWf_modPort h) (ite_wf (memWf_modPort h) h)))

theorem memWf_setRegion32 {d n r v} : MemWf (s.setRegion32 d n r v) :=
  ite_wf (memWf_modDie h) (ite_wf (ite_wf (memWf_armRegion h) (ite_wf (memWf_disarmRegion h) h)) h)

theorem memWf_setDie32 {d off v} : MemWf (s.setDie32 d off v) := by
  unfold State.setDie32
  split
  · exact memWf_setDie64 h
  split
  · exact memWf_setRegion32 h
  · exact ite_wf (memWf_retrainLink h) h
  · exact ite_wf (memWf_setQueue32 h) h
  · exact ite_wf (memWf_setPort32 h)
      (ite_wf (ite_wf (memWf_memRequest h) h) (ite_wf (ite_wf (memWf_diesetRequest h) h) (ite_wf (memWf_modDie
        h) (ite_wf (memWf_modDie h) (ite_wf (memWf_writeClk h) (ite_wf (ite_wf (memWf_startQuote h) h) h))))))

theorem memWf_setCtx64 {n off v} : MemWf (s.setCtx64 n off v) := ite_wf (memWf_modCtx h) (memWf_ctxErr h)

theorem memWf_setCtx32 {n off v} : MemWf (s.setCtx32 n off v) := by
  unfold State.setCtx32
  split
  · exact memWf_setCtx64 h
  exact ite_wf (memWf_ctxCmd h) (ite_wf (memWf_writeCfg h) (ite_wf (ite_wf (memWf_modCtx h) (memWf_ctxErr h))
    (ite_wf (memWf_modCtx h) (ite_wf (memWf_fdone h) h))))

theorem memWf_writeWindow {appCore addr size v} : MemWf (s.writeWindow appCore addr size v) := by
  unfold State.writeWindow
  split
  · exact h
  split
  · split
    · exact memWf_setDie32 h
    split
    · exact ite_wf (memWf_appendSlot h) h
    exact ite_wf (memWf_setDie64 h) (memWf_setDie32 (memWf_setDie32 h))
  · split
    · exact memWf_setCtx32 h
    split
    · exact memWf_writeInv h
    split
    · exact memWf_launchSlot h
    exact ite_wf (memWf_setCtx64 h) (memWf_setCtx32 (memWf_setCtx32 h))
  · exact h

theorem memWf_outsideStore {addr bytes} : NextWf (s.outsideStore addr bytes) :=
  ite_next trivial (ite_next h (memWf_homePuts h))

theorem memWf_execApplicationCoreStore {addr bytes} : NextWf (execApplicationCoreStore addr bytes s) :=
  ite_next h (ite_next (memWf_writeWindow h) (memWf_outsideStore h))

omit h in
theorem memWf_resetFrom {powerOn} : MemWf (s.resetFrom powerOn) := ite_wf reset_kept (with_wf reset_kept)

theorem memWf_bootFail {stage err} : MemWf (s.bootFail stage err) := same_wf h

theorem memWf_bootRun {img} : MemWf (s.bootRun img) := ite_wf (memWf_devPuts (with_wf h)) (with_wf h)

theorem memWf_execResetBoot {input} : NextWf (execResetBoot input s) := by
  unfold execResetBoot
  split
  · exact h
  dsimp only
  split
  · exact memWf_bootFail memWf_resetFrom
  split
  · split
    · exact memWf_bootRun (with_wf memWf_resetFrom)
    exact with_wf memWf_resetFrom
  split
  · split
    · exact memWf_bootRun (with_wf memWf_resetFrom)
    exact with_wf memWf_resetFrom
  exact memWf_bootFail (with_wf memWf_resetFrom)

theorem memWf_execAperiModelLoad {image target} : NextWf (execAperiModelLoad image target s) :=
  ite_next h (with_wf (memWf_devPuts h))

theorem memWf_execThermalSample {die sensors} : NextWf (execThermalSample die sensors s) :=
  ite_wf h (memWf_modDie h)

theorem memWf_execThermalAction {die} : NextWf (execThermalAction die s) := by
  unfold execThermalAction
  dsimp only
  exact ite_next h (ite_next (with_wf memWf_resetFrom) (memWf_modDie h))

theorem memWf_execThermalTripRelease {die} : NextWf (execThermalTripRelease die s) := ite_next (with_wf h) h

theorem memWf_execPowerLimitStep {milliwatts} : NextWf (execPowerLimitStep milliwatts s) :=
  ite_next (with_wf h) (with_wf (with_wf h))

theorem memWf_execSramError {place} : NextWf (execSramError place s) := by
  unfold execSramError
  split
  · exact memWf_modDie h
  · exact memWf_modDie h
  · exact memWf_modTile h
  · exact memWf_modCore h

theorem memWf_tapOut {n} : MemWf (s.tapOut n) := same_wf h

theorem memWf_tapStrand {id g} : MemWf (s.tapStrand id g) := by
  unfold State.tapStrand
  split
  · exact memWf_tapOut h
  exact h

theorem memWf_execDebugAccess {access} : NextWf (execDebugAccess access s) := by
  unfold execDebugAccess
  dsimp only
  split
  · exact memWf_tapOut h
  · exact ite_wf (memWf_tapOut h) h
  · exact ite_wf (ite_wf (memWf_tapOut h) h) h
  · exact ite_wf (memWf_tapStrand h) h
  · exact ite_wf (memWf_tapStrand h) h
  · exact ite_wf (memWf_tapStrand h) h
  · exact ite_wf (memWf_tapStrand h) h
  · exact ite_wf (memWf_tapStrand h) h
  · exact ite_wf (memWf_tapStrand h) h
  · exact ite_wf (ite_wf (memWf_writeWindow h) h) h
  · exact ite_wf (memWf_modStrand h) h
  · exact ite_wf (memWf_modStrand h) h
  · exact ite_wf (memWf_modStrand h) h
  · exact ite_wf (memWf_modStrand h) h
  · exact ite_wf (memWf_modStrand h) h
  · exact ite_wf (memWf_modStrand h) h

/-! Fetch. -/

theorem memWf_fetchPart {st va n} : MemWf (s.fetchPart st va n).1 := by
  unfold State.fetchPart
  split
  next e1 =>
    have h1 := fst_wf e1 (memWf_translate h)
    split
    · exact h1
    split
    · exact h1
    exact h1
  next e1 => exact fst_wf e1 (memWf_translate h)
  next e1 => exact fst_wf e1 (memWf_translate h)
  next e1 => exact fst_wf e1 (memWf_translate h)

theorem memWf_fetch {st} : MemWf (s.fetch st).1 := by
  unfold State.fetch
  dsimp only
  split
  · exact h
  split
  next e2 => exact fst_wf e2 (memWf_fetchPart h)
  next e2 =>
    have h2 := fst_wf e2 (memWf_fetchPart h)
    split
    · exact h2
    split
    next e4 => exact fst_wf e4 (memWf_fetchPart h2)
    next e4 =>
      have h4 := fst_wf e4 (memWf_fetchPart h2)
      split
      next e5 => exact fst_wf e5 (ite_fst_wf (memWf_fetchPart h4) h4)
      next e5 =>
        have h5 := fst_wf e5 (ite_fst_wf (memWf_fetchPart h4) h4)
        split
        · exact h5
        exact h5

/-! The scalar rows. -/

theorem memWf_execS {i f pre g} : NextWf (execS i f pre g s) := memWf_execOnce h

theorem memWf_execSldk {f} : NextWf (execSldk f s) := by
  unfold execSldk
  dsimp only
  split
  next e => exact memWf_issue_out h e
  exact ite_next (memWf_finish h) (ite_next (memWf_trapAtIssue h) (memWf_finish h))

/-! The short forms. -/

theorem memWf_execH {i row x m3 vd} : NextWf (execH i row x m3 vd s) := by
  unfold execH
  dsimp only
  exact memWf_execVec h

theorem memWf_execWV {i row r m3 vd} : NextWf (execWV i row r m3 vd s) := by
  unfold execWV
  dsimp only
  exact memWf_execVec h

theorem memWf_execWAcc {i row r vd} : NextWf (execWAcc i row r vd s) := by
  unfold execWAcc
  dsimp only
  exact memWf_execVec h

theorem memWf_execWX {i row r src} : NextWf (execWX i row r src s) := memWf_execCross h

theorem memWf_execWS {i row f g} : NextWf (execWS i row f g s) := memWf_execOnce h

theorem memWf_execMoviW {r} : NextWf (execMoviW r s) := by
  unfold execMoviW
  dsimp only
  exact memWf_execVec h

theorem memWf_execIaddi {r} : NextWf (execIaddi r s) := by
  unfold execIaddi
  dsimp only
  exact memWf_execVec h

theorem memWf_execMovhiW {r} : NextWf (execMovhiW r s) := by
  unfold execMovhiW
  dsimp only
  exact memWf_execVec h

theorem memWf_execSmoviW {r} : NextWf (execSmoviW r s) := memWf_execOnce h

theorem memWf_execSaddi {r} : NextWf (execSaddi r s) := memWf_execOnce h

theorem memWf_execSmovhi {r} : NextWf (execSmovhi r s) := memWf_execOnce h

theorem memWf_execBraW {r} : NextWf (execBraW r s) := memWf_braExec h

theorem memWf_execLoopW {r} : NextWf (execLoopW r s) := memWf_loopExec h

theorem memWf_execCallW {r} : NextWf (execCallW r s) := memWf_callExec h

theorem memWf_execWaitcW {r} : NextWf (execWaitcW r s) := memWf_waitcExec h

theorem memWf_execYieldW : NextWf (execYieldW s) := memWf_yieldExec h

theorem memWf_execExitW {r} : NextWf (execExitW r s) := memWf_exitExec h

theorem memWf_execRcvW {r} : NextWf (execRcvW r s) := memWf_rcvExec h

theorem memWf_execDivW {r} : NextWf (execDivW r s) := memWf_divExec h

/-! The run ahead of a batch: what it computes is discarded, but its fetches and walks stay in the state. -/

omit h in
theorem memWf_runSt_access {q : RunSt} (hq : MemWf q.s) {x t} : OptWf RunSt.s (q.access x t) := by
  unfold RunSt.access
  dsimp only
  split
  · refine ite_opt hq ?_
    split
    · trivial
    split
    next e => exact fst_wf e (memWf_formAcc hq)
    next e => exact fst_wf e (memWf_formAcc hq)
    next e => exact fst_wf e (memWf_formAcc hq)
    next e => exact fst_wf e (memWf_formAcc hq)
    next => trivial
  · exact ite_opt hq (ite_opt hq trivial)
  · exact ite_opt hq (ite_opt trivial hq)
  · exact hq

omit h in
theorem memWf_runSt_accesses {x ts} {q : RunSt} (hq : MemWf q.s) : MemWf (RunSt.accesses x ts q).1.s := by
  induction ts generalizing q with
  | nil => exact hq
  | cons t r ih =>
    simp only [RunSt.accesses]
    split
    next e =>
      have h1 := some_wf e (memWf_runSt_access hq)
      split
      · exact h1
      · exact ih h1
    next => exact hq

omit h in
theorem runPair_wf {p : RunSt × Bool} {q b} (e : p = (q, b)) (hp : MemWf p.1.s) : MemWf q.s := by
  rwa [e] at hp

omit h in
theorem memWf_runSt_memory {q : RunSt} (hq : MemWf q.s) {id i ir x first} : MemWf (q.memory id i ir x first).1.s := by
  unfold RunSt.memory
  split
  · exact hq
  split
  · exact hq
  dsimp only
  split
  next e => exact runPair_wf e (memWf_runSt_accesses hq)
  next q2 e => exact show MemWf q2.s from runPair_wf e (memWf_runSt_accesses hq)

omit h in
theorem memWf_runSt_arith {q : RunSt} (hq : MemWf q.s) {id i ir x} : MemWf (q.arith id i ir x).1.s := by
  unfold RunSt.arith
  grind [RunSt.stop]

omit h in
theorem memWf_runSt_ahead {id n} {q : RunSt} (hq : MemWf q.s) : MemWf (RunSt.ahead id n q).s := by
  induction n generalizing q with
  | zero => exact hq
  | succ n ih =>
    simp only [RunSt.ahead]
    grind [memWf_fetch, memWf_runSt_memory, memWf_runSt_arith]

omit h in
theorem memWf_runSt_start {q : RunSt} (hq : MemWf q.s) {id a} : MemWf (q.start id a).s := by
  unfold RunSt.start
  grind [memWf_fetch, memWf_runSt_memory, memWf_runSt_ahead, RunSt.move]

theorem memWf_execRollback {strand} : NextWf (execRollback strand s) := by
  unfold execRollback
  split
  · exact h
  split
  · exact h
  refine ite_next h ?_
  dsimp only
  refine ite_next h (memWf_openBatch (memWf_putStrand ?_))
  split
  · exact h
  · exact memWf_runSt_start h

/-! Choosing the next strand. -/

theorem memWf_startRun {d c l} : MemWf (s.startRun d c l) := by
  unfold State.startRun
  dsimp only
  split
  · exact with_wf (memWf_modCore h)
  exact h

theorem memWf_execRunStart {die core lane} : NextWf (execRunStart die core lane s) :=
  ite_wf h (memWf_startRun h)

theorem memWf_requestExec {r : Request} : NextWf (r.exec s) := by
  cases r with
  | launch => exact memWf_execLaunch h
  | join => exact memWf_execJoin h
  | leave => exact memWf_execLeave h
  | emit => exact memWf_execEmit h
  | take => exact memWf_execTake h
  | qclose => exact memWf_execQclose h
  | redx => exact memWf_execRedx h
  | dispq => exact memWf_execDispq h
  | dispqQuery => exact memWf_execDispqQuery h
  | balloonGive => exact memWf_execBalloonGive h
  | balloonQuery => exact memWf_execBalloonQuery h
  | memfsp => exact memWf_execMemfsp h
  | dieset => exact memWf_execDieset h
  | seedld => exact memWf_execSeedld h
  | darn => exact memWf_execDarn h
  | mclr => exact memWf_execMclr h
  | ringpAfter => exact memWf_execRingpAfter h
  | bar => exact memWf_execBar h
  | bara => exact memWf_execBara h
  | shrink => exact memWf_execShrink h

theorem memWf_asStrand {g : State → Result} (hg : ∀ t, MemWf t → NextWf (g t)) {id} : NextWf (s.asStrand id g) := by
  have ht := hg { s with cur := some id } (same_wf h)
  unfold State.asStrand
  split
  next e => exact same_wf (next_wf e ht)
  next => trivial
  next => trivial

theorem memWf_execRequestAnswer {strand} : NextWf (execRequestAnswer strand s) := by
  unfold execRequestAnswer
  split
  · split
    · exact ite_next (memWf_asStrand h fun _ ht => memWf_requestExec ht) h
    · exact h
  · exact h

/-! Every instruction and every event. -/

theorem memWf_exec {i : Instr} : NextWf (exec i s) := by
  unfold exec
  cases i
  case iadd | isub | imul | imulh | imad | iand | ior | ixor | ishl | ishr | isra | imin | imax | iabs | icmp |
    isel | bfe | bfi | popc | clz | brev | bgath | lea | iaddc | mov | movi | movhi | idot4 | fadd | fsub |
    fmul | ffma | fmin | fmax | fcmp | fclass | frcp | frsq | fsqrt | fexp2 | flog2 | fsint | fcost | fcvt |
    frnd | ffrac | cadd | csub | cmul | cfma | cmag2 | cscale | cexpi | cphase | twid | bfly | ccvt | bpack |
    bexpm | phq | edge | trix =>
    exact memWf_execL h
  case qand | qor | qxor | qtos | stoq | sadd | ssub | smul | smulh | sand | sor | sxor | sshl | sshr | ssra |
    smin | smax | smov | smovi | scmp | ssel | sbfe | spopc | sclz | setfmt | getfmt | xwin | xset | sfadd |
    sfmul | sffma | sfcvt =>
    exact memWf_execS h
  case movW | iaddW | isubW | imulW | iandW | iorW | ixorW | ishlW | ishrW | iminW | imaxW | icmpW | faddW |
    fsubW | fmulW | fminW | fmaxW | fcmpW | caddW | csubW | cmulW | bflyW | twidW =>
    exact memWf_execWV h
  case iaddH | isubH | iandH | iorH | ixorH | ishlH | ishrH | faddH | fsubH | fmulH | fmaxH | fminH | caddH |
    cmulH | imulH =>
    exact memWf_execH h
  case shfl | shflx | shfld | shflu | scan | reds | vote | matchT | bcast => exact memWf_execCross h
  case saddW | ssubW | smovW | scmpW | sandW | sorW | sshlW | sshrW => exact memWf_execWS h
  case nop | wrsr | tmset => exact memWf_execOnce h
  case openQ | closeQ | releaseQ => exact memWf_qcmd h
  case trap | bkpt => exact memWf_trapExec h
  case ld | ldW => exact memWf_ldExec h
  case st | stW => exact memWf_stExec h
  case lds | ldsW => exact memWf_ldsExec h
  case sts | stsW => exact memWf_stsExec h
  case shut | shutx => exact memWf_shutExec h
  case seedscan | seeddrop => exact memWf_matIssue h
  case ffmaW | cfmaW => exact memWf_execWAcc h
  case shflW | shflxW => exact memWf_execWX h
  case bunpk => exact memWf_execBunpk h
  case lace => exact memWf_execLace h
  case laceld => exact memWf_execLaceld h
  case sldk => exact memWf_execSldk h
  case bra => exact memWf_braExec h
  case brx => exact memWf_execBrx h
  case divT => exact memWf_divExec h
  case rcv => exact memWf_rcvExec h
  case call => exact memWf_callExec h
  case ret => exact memWf_execRet h
  case exit => exact memWf_exitExec h
  case yield => exact memWf_yieldExec h
  case loop => exact memWf_loopExec h
  case ldt => exact memWf_execLdt h
  case stt => exact memWf_execStt h
  case atom => exact memWf_execAtom h
  case atoms => exact memWf_execAtoms h
  case sumx => exact memWf_execSumx h
  case sumrd => exact memWf_execSumrd h
  case sumclr => exact memWf_execSumclr h
  case pref => exact memWf_execPref h
  case waitc => exact memWf_waitcExec h
  case fence => exact memWf_execFence h
  case dtld => exact memWf_execDtld h
  case decode => exact memWf_execDecode h
  case fetchf => exact memWf_execFetchf h
  case darn => exact memWf_execDarn h
  case dispq => exact memWf_execDispq h
  case dispqQuery => exact memWf_execDispqQuery h
  case mclr => exact memWf_execMclr h
  case mloop => exact memWf_execMloop h
  case mrd => exact memWf_execMrd h
  case mbld => exact memWf_execMbld h
  case mtwid => exact memWf_execMtwid h
  case seedld => exact memWf_execSeedld h
  case join => exact memWf_execJoin h
  case leave => exact memWf_execLeave h
  case bar => exact memWf_execBar h
  case bara => exact memWf_execBara h
  case barw => exact memWf_execBarw h
  case ringp => exact memWf_execRingp h
  case ringpAfter => exact memWf_execRingpAfter h
  case ringw => exact memWf_execRingw h
  case ringf => exact memWf_execRingf h
  case launch => exact memWf_execLaunch h
  case emit => exact memWf_execEmit h
  case take => exact memWf_execTake h
  case qclose => exact memWf_execQclose h
  case grow => exact memWf_execGrow h
  case shrink => exact memWf_execShrink h
  case chsend => exact memWf_execChsend h
  case chrecv => exact memWf_execChrecv h
  case redx => exact memWf_execRedx h
  case redw => exact memWf_execRedw h
  case rdsr => exact memWf_execRdsr h
  case tret => exact memWf_execTret h
  case balloonGive => exact memWf_execBalloonGive h
  case balloonQuery => exact memWf_execBalloonQuery h
  case dieset => exact memWf_execDieset h
  case memfsp => exact memWf_execMemfsp h
  case movH => exact memWf_execVec h
  case moviW => exact memWf_execMoviW h
  case smoviW => exact memWf_execSmoviW h
  case iaddi => exact memWf_execIaddi h
  case saddi => exact memWf_execSaddi h
  case movhiW => exact memWf_execMovhiW h
  case smovhi => exact memWf_execSmovhi h
  case braW => exact memWf_execBraW h
  case loopW => exact memWf_execLoopW h
  case callW => exact memWf_execCallW h
  case waitcW => exact memWf_execWaitcW h
  case exitW => exact memWf_execExitW h
  case rcvW => exact memWf_execRcvW h
  case divW => exact memWf_execDivW h
  case halt => exact memWf_execHalt h
  case yieldW => exact memWf_execYieldW h
  case spinDemotionTimeout => exact memWf_execSpinDemotionTimeout h
  case runStart => exact memWf_execRunStart h
  case timerExpiry => exact memWf_timerDue h
  case asyncTrapTake => exact memWf_execAsyncTrapTake h
  case requestAnswer => exact memWf_execRequestAnswer h
  case itemDispatch => exact memWf_execItemDispatch h
  case itemComplete => exact memWf_execItemComplete h
  case preemption => exact memWf_execPreemption h
  case strandSave => exact memWf_execStrandSave h
  case strandRestore => exact memWf_execStrandRestore h
  case createCtx => exact memWf_create h
  case startCtx => exact memWf_start h
  case suspendCtx => exact memWf_suspend h
  case resumeCtx => exact memWf_resumeCtx h
  case retireCtx => exact memWf_retireCtx h
  case ackCtx => exact memWf_ack h
  case ctxRetired => exact memWf_execCtxRetired h
  case ctxCfgWrite => exact memWf_writeCfg h
  case embWrite => exact memWf_writeEmb h
  case registerWrite => exact memWf_writeWindow h
  case launchslotWrite => exact memWf_execLaunchslotWrite h
  case sweepRange => exact memWf_execSweepRange h
  case sweepAll => exact memWf_execSweepAll h
  case sweepComplete => exact memWf_execSweepComplete h
  case rollback => exact memWf_execRollback h
  case batchWrite => exact memWf_execBatchWrite h
  case batchResolve => exact memWf_fdone h
  case loadDataReturn => exact memWf_execLoadDataReturn h
  case storePerformed => exact memWf_execStorePerformed h
  case atomicPerformed => exact memWf_execAtomicPerformed h
  case exactSumPerformed => exact memWf_execExactSumPerformed h
  case shuttleComplete => exact memWf_execShuttleComplete h
  case dtldComplete => exact memWf_execDtldComplete h
  case decodeComplete => exact memWf_execDecodeComplete h
  case fetchfComplete => exact memWf_execFetchfComplete h
  case promotionRequest => exact memWf_execPromotionRequest h
  case seqOpStart => exact memWf_execSeqOpStart h
  case mloopStep => exact memWf_execMloopStep h
  case matrixOpComplete => exact memWf_matComplete h
  case seedldRemoteLoad => exact memWf_execSeedldRemoteLoad h
  case lineWriteback => exact memWf_lineBack h
  case tensionReclaim => exact memWf_execTensionReclaim h
  case parkLimitExpiry => exact memWf_parkLimit h
  case arm => exact memWf_execArm h
  case disarm => exact memWf_execDisarm h
  case regionExpire => exact memWf_modDie h
  case budgetChange => exact memWf_execBudgetChange h
  case memspWrite => exact memWf_execMemspWrite h
  case memfspSwitch => exact memWf_execMemfspSwitch h
  case dsctlWrite => exact memWf_execDsctlWrite h
  case diesetChange => exact memWf_execDiesetChange h
  case diesetCommit => exact memWf_execDiesetCommit h
  case queueAppendWrite => exact memWf_execQueueAppendWrite h
  case queueRecordArrive => exact memWf_execQueueRecordArrive h
  case channelSlotDeliver => exact memWf_execChannelSlotDeliver h
  case redxContributionArrive => exact memWf_execRedxContributionArrive h
  case multicastForward => exact memWf_execMulticastForward h
  case retrain => exact memWf_execRetrain h
  case linkFault => exact memWf_retrainLink h
  case flitReplay => exact memWf_execFlitReplay h
  case linkTrainingEnd => exact memWf_trainEnd h
  case heartbeatSend => exact memWf_execHeartbeatSend h
  case heartbeatReceive => exact memWf_execHeartbeatReceive h
  case heartbeatMiss => exact memWf_execHeartbeatMiss h
  case babbleDetect => exact memWf_execBabbleDetect h
  case tileFence => exact memWf_execTileFence h
  case fenceBroadcastReceive => exact memWf_execFenceBroadcastReceive h
  case tagQuery => exact memWf_execTagQuery h
  case tagAnswer => exact memWf_execTagAnswer h
  case selfTestStart => exact memWf_modTile h
  case selfTestDone => exact memWf_execSelfTestDone h
  case probationEnd => exact memWf_execProbationEnd h
  case darnJobStart => exact memWf_execDarnJobStart h
  case darnJobComplete => exact memWf_execDarnJobComplete h
  case enable => exact memWf_portEnable h
  case disable => exact memWf_portDisable h
  case vblankStart => exact memWf_execVblankStart h
  case scanoutLine => exact memWf_execScanoutLine h
  case pcieWrite => exact memWf_outsideStore h
  case resetBoot => exact memWf_execResetBoot h
  case aperiModelLoad => exact memWf_execAperiModelLoad h
  case quote => exact memWf_startQuote h
  case quoteComplete => exact memWf_execQuoteComplete h
  case clkreqWrite => exact memWf_execClkreqWrite h
  case thermalSample => exact memWf_execThermalSample h
  case thermalAction => exact memWf_execThermalAction h
  case thermalTripRelease => exact memWf_execThermalTripRelease h
  case powerLimitStep => exact memWf_execPowerLimitStep h
  case sramError => exact memWf_execSramError h
  case tapResume => exact memWf_execTapResume h
  case debugAccess => exact memWf_execDebugAccess h
  case encodingNotAnInstruction => exact memWf_execEncodingNotAnInstruction h
  case applicationCoreStore => exact memWf_execApplicationCoreStore h
  case slmAttach => exact memWf_execSlmAttach h
  case writeBackAcknowledged => exact memWf_execWriteBackAcknowledged h

/-! What wakes a waiting strand. -/

theorem memWf_wakeWait {id st w len} : OptWf (fun t => t) (s.wakeWait id st w len) := by
  unfold State.wakeWait
  split
  · refine ite_opt trivial ?_
    split
    · exact memWf_wakeAt h
    · exact memWf_modStrand (memWf_deliverErr h)
  · exact ite_opt (memWf_wakeAt (memWf_fenceAct h)) trivial
  · exact ite_opt (memWf_wakeAt (memWf_acqAct h)) trivial
  · exact ite_opt (memWf_wakeAt (memWf_acqAct h)) trivial
  · exact memWf_ringWake h
  · exact memWf_ringWake h
  · split
    next e => exact memWf_wakeAt (memWf_acqAct (fst_wf e (memWf_takeTry h)))
    next => trivial
  · split
    next e => exact memWf_wakeAt (some_wf e (memWf_recvTry h))
    next => trivial
  · trivial
  · trivial

theorem memWf_arriveHeld {id st r} : OptWf (fun t => t) (s.arriveHeld id st r) := by
  unfold State.arriveHeld
  refine ite_opt trivial ?_
  split
  next e => exact ite_opt (next_wf e (memWf_asStrand h fun _ ht => memWf_requestExec ht)) trivial
  next => trivial

theorem memWf_wake {id st} : OptWf (fun t => t) (s.wake id st) := by
  unfold State.wake
  split
  · exact memWf_arriveHeld h
  · exact memWf_arriveHeld h
  split
  · exact ite_opt (memWf_wakeWait h) trivial
  trivial

theorem memWf_takeProbe : MemWf s.takeProbe := by
  unfold State.takeProbe
  refine foldl_wf (fun s e hs => ?_) h
  split
  · refine ite_wf hs ?_
    split
    next eq => exact fst_wf eq (memWf_takeTry hs)
    next => exact hs
  · exact hs

theorem memWf_wakeAll : MemWf s.wakeAll := memWf_runDue h fun _ _ _ hs => memWf_wake hs

theorem memWf_growAll : MemWf s.growAll := foldl_wf (fun _ _ h => memWf_growLane h) h

theorem memWf_refall : MemWf s.refall := foldl_wf (fun _ _ h => ite_wf (memWf_drained (memWf_modStrand h)) h) h

theorem memWf_retrySlow : MemWf s.retrySlow :=
  foldl_wf (fun _ _ h => foldl_wf (fun _ _ h => ite_wf (memWf_qRetry h) h) h)
    (foldl_wf (fun _ _ h => ite_wf (memWf_runRetries h) h) h)

theorem memWf_tellLost : MemWf s.tellLost := with_wf (foldl_wf (fun _ _ h => memWf_ctxEvent h) h)

theorem memWf_settleMemory : MemWf s.settleMemory :=
  memWf_refall (ite_wf (ite_wf h (memWf_replace h)) (memWf_devFlush (ite_wf h (memWf_replace h))))

theorem memWf_consequences : MemWf s.consequences :=
  foldl_wf (fun _ _ h => memWf_payTile h)
    (foldl_wf (fun _ _ h => ite_wf h (memWf_payOwed h))
      (memWf_placeHeldGroups (memWf_endKernels (foldl_wf (fun _ _ h => memWf_timerDue h) (memWf_growAll
        (memWf_wakeAll (memWf_takeProbe (memWf_saveMatrix (memWf_seedTidy (memWf_retrySlow
          (memWf_tellLost (memWf_settleMemory (memWf_dropDead h)))))))))))))

theorem memWf_elapse {ns clk} : MemWf (s.elapse ns clk) := same_wf h

/-! A turn. -/

theorem memWf_execFetched {id st a} : NextWf (s.execFetched id st a) := by
  unfold State.execFetched
  split
  · exact memWf_exec (with_wf (memWf_putStrand h))
  · exact memWf_trapAtIssue h
  · exact memWf_xlFault h
  · exact memWf_xlPark h
  · exact h

theorem memWf_issueTurn {id} : NextWf (s.issueTurn id) := by
  unfold State.issueTurn
  split
  · exact h
  split
  · exact h
  split
  · exact memWf_requestExec (with_wf h)
  exact ite_next (memWf_takePend (with_wf h)) (memWf_execFetched (memWf_fetch h))

theorem memWf_partTurn {id elem} : NextWf (s.partTurn id elem) := by
  unfold State.partTurn
  split
  · exact h
  split
  · exact h
  split
  next e3 =>
    have h3 := fst_wf e3 (memWf_fetch h)
    split
    · exact h3
    split
    next e5 => exact memWf_modStrand (next_wf e5 (memWf_execFetched h3))
    exact memWf_execFetched h3
  next e3 => exact fst_wf e3 (memWf_fetch h)

theorem memWf_idleTurn : NextWf s.idleTurn := by
  unfold State.idleTurn
  split
  · exact h
  split
  · exact h
  exact ite_next (memWf_startRun h) (memWf_issueTurn h)

omit h in
theorem memWf_settleTurn {r} (hr : NextWf r) : NextWf (settleTurn r) := by
  cases r with
  | next s => exact memWf_consequences hr
  | fault => trivial
  | refused => trivial

theorem memWf_turn : NextWf s.turn := by
  unfold State.turn
  split
  next t r e =>
    have hd : MemWf ({ s with agenda := r }.elapse t.ns t.clk).deadlines := memWf_deadlines (memWf_elapse (same_wf h))
    refine memWf_settleTurn ?_
    split
    · exact ite_next (memWf_exec hd) hd
    · exact memWf_issueTurn hd
    · exact memWf_partTurn hd
  · exact memWf_settleTurn (memWf_idleTurn (memWf_deadlines (memWf_elapse (same_wf h))))

end

/-- Settles O3: a step is a turn, and every function that a turn calls keeps memory canonical; its bytes change
through `State.homePut` and `State.zeroRange` alone, or are reset. -/
theorem memoryKept : Obligations.MemoryKept := fun _ _ h e => next_wf e (memWf_turn h)

end Sys2Proof.Machine
end

section
/-! Atomics, exact sums and promotions (O31). A promotion request that a Failed link loses raises an event of its context; the event
ends an Active context and marks its resident strands to be saved, the requesting one among them. -/

namespace Sys2Proof.Machine

/-- An .rmt acquire of one thread, not performed and not yet answered by any core. -/
def rmtAcquire : Op :=
  { id := 0, path := 0, pc := 0x10000, die := 0, core := 0, mask := 1,
    kind := .load 4 false { acq := true, rel := false, acked := false, scope := 4, rmt := true, hint := 0 },
    accs := [{ thread := 0, win := .glob, va := 0x3000, pa := 0x3000, size := 4, reg := 4, data := 0, data2 := 0, done := false }],
    dests := [], fin := false, err := none, bad := 0, badCause := .uncorr, replies := [], applied := [], prog := 0, bits := 0,
    staged := [], parked := false }

/-- The placed strand, on D0, with that acquire in flight. -/
def acquiring : Strand := { placedStrand with ops := [rmtAcquire], nextOp := 1, c := cput [] 0 1 }

/-- The placed machine in the mode of two dies, its context Active, with that strand and a Failed link between D0 and D1. -/
def linkFailed : State :=
  { (State.reset.withFetchWord 64 0).putStrand 0 acquiring with
    dsCur := 1, links := [{ state := 4, fails := 0 }, { state := 0, fails := 0 }, { state := 0, fails := 0 }] }

/-- The request counts as answered, but the event of the lost request has marked the strand to be saved. -/
theorem promotionRequest_lost_marks_strand :
    ∃ t, exec (.promotionRequest 0 1 0) linkFailed = .next t ∧ (t.strand 0).map (·.stop) = some true :=
  ⟨_, rfl, by decide +kernel⟩

theorem not_promotionSays : ¬ PromotionSays := by
  intro h
  obtain ⟨-, lost, -⟩ := h linkFailed 0 1 0 acquiring rmtAcquire (by decide +kernel) (by decide +kernel) (by decide +kernel)
    (by decide) (by decide +kernel)
  obtain ⟨t, ht, puts⟩ := lost (by decide +kernel) (by decide +kernel)
  obtain ⟨u, hu, stops⟩ := promotionRequest_lost_marks_strand
  obtain rfl : t = u := by
    rw [ht] at hu
    exact Host.Outcome.next.inj hu
  rw [puts.here] at stops
  exact absurd stops (by decide +kernel)

/-- Refutes O31: of a promotion request lost over a Failed link its `PromotionSays` says that the strand is as before but for its
replies. The event that tells the context (R432) ends an Active context and marks the strand to be saved (R256). -/
theorem not_atomicsAndSums : ¬ Obligations.AtomicsAndSums := by
  rintro ⟨-, -, -, -, -, -, -, promotion, -⟩
  exact not_promotionSays promotion

end Sys2Proof.Machine
end

section
/-! Integer elements (O13): an operation on natural numbers that agrees with an operation on bit vectors of the element's width
gives, through `lanes`, that operation on each element of a word. -/

open Sys2Proof
namespace Sys2Proof.Machine

/-! Reading words and elements. -/

theorem toNat_append_add {m n : Nat} (x : BitVec m) (y : BitVec n) : (x ++ y).toNat = x.toNat * 2 ^ n + y.toNat := by
  rw [BitVec.toNat_append, Nat.shiftLeft_eq, Nat.mul_comm, Nat.two_pow_add_eq_or_of_lt y.isLt]

@[simp] theorem wv_one (a : Word) : wv [a] = a.toNat := by
  have h : (pair64 [a]).toNat = (0 : Word).toNat * 2 ^ 32 + a.toNat := toNat_append_add 0 a
  rw [wv, h]
  simp

theorem nbits_toNat {w : Nat} (a : BitVec w) (lo n : Nat) : nbits a.toNat lo n = (a.extractLsb' lo n).toNat := by
  rw [nbits, BitVec.extractLsb'_toNat, Nat.shiftRight_eq_div_pow]

/-- A pattern of its width reads as the bit vector's signed value. -/
theorem sx_toNat {w : Nat} (x : BitVec w) (hw : 0 < w) : sx w x.toNat = x.toInt := by
  obtain ⟨n, rfl⟩ := Nat.exists_eq_add_of_lt hw
  rw [sx, BitVec.toInt_eq_toNat_cond]
  simp only [Nat.zero_add, Nat.add_sub_cancel]
  have half : x.toNat < 2 ^ n ↔ 2 * x.toNat < 2 ^ (n + 1) := by omega
  by_cases h : x.toNat < 2 ^ n
  · rw [if_pos h, if_pos (half.mp h)]
  · rw [if_neg h, if_neg (mt half.mpr h)]
    rfl

/-! Elements of a word. -/

/-- The result of the element of width w that begins at bit k of three words. -/
def laneAt (w : Nat) (g : Nat → Nat → Nat → Nat) (a b c : Word) (k : Nat) : BitVec w :=
  BitVec.ofNat w (g (a.extractLsb' k w).toNat (b.extractLsb' k w).toNat (c.extractLsb' k w).toNat)

theorem lanes_toNat (w : Nat) (g : Nat → Nat → Nat → Nat) (a b c : Word) : lanes w g a.toNat b.toNat c.toNat =
    (List.range (32 / w)).foldl (fun r i => r + (laneAt w g a b c (w * i)).toNat * 2 ^ (w * i)) 0 := by
  simp only [lanes, laneAt, nbits_toNat, BitVec.toNat_ofNat]

theorem lanes_word (g : Nat → Nat → Nat → Nat) (a b c : Word) :
    BitVec.ofNat 32 (lanes 32 g a.toNat b.toNat c.toNat) = laneAt 32 g a b c 0 := by
  apply BitVec.eq_of_toNat_eq
  rw [lanes_toNat, BitVec.toNat_ofNat]
  simpa using (laneAt 32 g a b c 0).isLt

theorem lanes_halves (g : Nat → Nat → Nat → Nat) (a b c : Word) :
    BitVec.ofNat 32 (lanes 16 g a.toNat b.toNat c.toNat) = laneAt 16 g a b c 16 ++ laneAt 16 g a b c 0 := by
  apply BitVec.eq_of_toNat_eq
  rw [lanes_toNat, BitVec.toNat_ofNat, toNat_append_add]
  generalize laneAt 16 g a b c = e
  have h0 := (e 0).isLt
  have h16 := (e 16).isLt
  simp only [show List.range (32 / 16) = [0, 1] from rfl, List.foldl_cons, List.foldl_nil, Nat.reduceMul]
  omega

theorem lanes_bytes (g : Nat → Nat → Nat → Nat) (a b c : Word) :
    BitVec.ofNat 32 (lanes 8 g a.toNat b.toNat c.toNat) =
      laneAt 8 g a b c (8 * 3) ++ laneAt 8 g a b c (8 * 2) ++ laneAt 8 g a b c (8 * 1) ++ laneAt 8 g a b c (8 * 0) := by
  apply BitVec.eq_of_toNat_eq
  rw [lanes_toNat, BitVec.toNat_ofNat, toNat_append_add, toNat_append_add, toNat_append_add]
  generalize laneAt 8 g a b c = e
  have h0 := (e (8 * 0)).isLt
  have h1 := (e (8 * 1)).isLt
  have h2 := (e (8 * 2)).isLt
  have h3 := (e (8 * 3)).isLt
  rw [show List.range (32 / 8) = [0, 1, 2, 3] from rfl, List.foldl_cons, List.foldl_cons, List.foldl_cons, List.foldl_cons,
    List.foldl_nil]
  omega

section
variable {m : Nat} {g : Nat → Nat → Nat → Nat} (env : FEnv) (a b c : Word)

/-- A type of 32 bits: the operation on the word. -/
theorem intDef_word {op : Word → Word → Word} (hm : intW m = 32)
    (h : ∀ x y z : Word, BitVec.ofNat 32 (g x.toNat y.toNat z.toNat) = op x y) :
    (intDef m g).fn env (words1 a b c) = { d := [op a b], q := none, flags := 0 } := by
  simp only [intDef, intMap, words1, hm, wv_one, lanes_word, laneAt, h, BitVec.extractLsb'_eq_self]
  rfl

/-- A type of 16 bits: the operation on each half. -/
theorem intDef_halves {op : BitVec 16 → BitVec 16 → BitVec 16} (hm : intW m = 16)
    (h : ∀ x y z : BitVec 16, BitVec.ofNat 16 (g x.toNat y.toNat z.toNat) = op x y) :
    (intDef m g).fn env (words1 a b c) = { d := [byHalf op a b], q := none, flags := 0 } := by
  simp only [intDef, intMap, words1, hm, wv_one, lanes_halves, laneAt, h]
  rfl

/-- A type of 8 bits: the operation on each byte. -/
theorem intDef_bytes {op : Byte → Byte → Byte} (hm : intW m = 8)
    (h : ∀ x y z : Byte, BitVec.ofNat 8 (g x.toNat y.toNat z.toNat) = op x y) :
    (intDef m g).fn env (words1 a b c) = { d := [byByte op a b], q := none, flags := 0 } := by
  simp only [intDef, intMap, words1, hm, wv_one, lanes_bytes, laneAt, h]
  rfl

end

/-! What the elementary operations are on bit vectors (R29, R154). -/

section
variable {w : Nat} (x y : BitVec w)

theorem ofNat_iAdd : BitVec.ofNat w (iAdd x.toNat y.toNat) = x + y := by
  rw [iAdd, BitVec.ofNat_add, BitVec.ofNat_toNat, BitVec.ofNat_toNat, BitVec.setWidth_eq, BitVec.setWidth_eq]

theorem ofNat_iMul : BitVec.ofNat w (x.toNat * y.toNat) = x * y := by
  rw [BitVec.ofNat_mul, BitVec.ofNat_toNat, BitVec.ofNat_toNat, BitVec.setWidth_eq, BitVec.setWidth_eq]

theorem ofNat_iSub : BitVec.ofNat w (iSub w x.toNat y.toNat) = x - y := by
  have h : ((x.toNat : Int) - y.toNat) % 2 ^ w = ((2 ^ w - y.toNat + x.toNat : Nat) : Int) % (2 ^ w : Nat) := by
    rw [Nat.cast_add, Nat.cast_sub y.isLt.le, Nat.cast_pow, ← Int.add_emod_right]
    congr 1
    push_cast
    ring
  apply BitVec.eq_of_toNat_eq
  rw [BitVec.toNat_ofNat, BitVec.toNat_sub, iSub, wrapN, h, ← Int.natCast_mod, Int.toNat_natCast, Nat.mod_mod]

theorem ofNat_land : BitVec.ofNat w (x.toNat.land y.toNat) = x &&& y :=
  BitVec.eq_of_toNat_eq (Nat.mod_eq_of_lt (x &&& y).isLt)

theorem ofNat_lor : BitVec.ofNat w (x.toNat.lor y.toNat) = x ||| y :=
  BitVec.eq_of_toNat_eq (Nat.mod_eq_of_lt (x ||| y).isLt)

theorem ofNat_xor : BitVec.ofNat w (x.toNat.xor y.toNat) = x ^^^ y :=
  BitVec.eq_of_toNat_eq (Nat.mod_eq_of_lt (x ^^^ y).isLt)

theorem ofNat_iShl (n : Nat) : BitVec.ofNat w (iShl x.toNat n) = x <<< n := by
  apply BitVec.eq_of_toNat_eq
  rw [BitVec.toNat_ofNat, BitVec.toNat_shiftLeft, Nat.shiftLeft_eq, iShl]

theorem ofNat_iShr (n : Nat) : BitVec.ofNat w (iShr x.toNat n) = x >>> n := by
  apply BitVec.eq_of_toNat_eq
  rw [BitVec.toNat_ofNat, BitVec.toNat_ushiftRight, Nat.shiftRight_eq_div_pow, iShr]
  exact Nat.mod_eq_of_lt (Nat.lt_of_le_of_lt (Nat.div_le_self _ _) x.isLt)

end

/-! The order of a type's elements: a number per element, different for different elements. -/

/-- What a type reads its elements as. -/
structure ReadsAs (m w : Nat) (k : BitVec w → Int) : Prop where
  value : ∀ x, ival m x.toNat = k x
  inj : ∀ x y, k x = k y → x = y

theorem readsAs_signed {m w : Nat} (hs : intS m = true) (hw : intW m = w) (h0 : 0 < w) : ReadsAs m w BitVec.toInt where
  value x := by rw [ival, if_pos hs, hw, sx_toNat x h0]
  inj _ _ := BitVec.eq_of_toInt_eq

theorem readsAs_unsigned {m w : Nat} (hs : intS m = false) : ReadsAs m w fun x => (x.toNat : Int) where
  value x := by rw [ival, hs]; rfl
  inj _ _ h := BitVec.eq_of_toNat_eq (Int.ofNat.inj h)

section
variable {m w : Nat} {k : BitVec w → Int} (h : ReadsAs m w k) (x y : BitVec w)
include h

theorem ofNat_iMin : BitVec.ofNat w (iMinMax m false x.toNat y.toNat) = if k x < k y then x else y := by
  rw [iMinMax, h.value, h.value]
  rcases lt_trichotomy (k x) (k y) with lt | eq | gt
  · simp [lt, lt.le]
  · simp [h.inj _ _ eq]
  · simp [gt.not_ge, gt.not_gt]

theorem ofNat_iMax : BitVec.ofNat w (iMinMax m true x.toNat y.toNat) = if k x < k y then y else x := by
  rw [iMinMax, h.value, h.value]
  rcases lt_trichotomy (k x) (k y) with lt | eq | gt
  · simp [lt, lt.le]
  · simp [h.inj _ _ eq]
  · simp [gt.not_ge, gt.not_gt]

end

/-! Minima, maxima and shifts of one type (R154). -/

section
variable (env : FEnv) (a b c : Word)

theorem defImin_i32 : (defImin 0).fn env (words1 a b c) = { d := [if a.slt b then a else b], q := none, flags := 0 } :=
  intDef_word (op := fun a b => if a.slt b then a else b) env a b c rfl fun x y _ => by
    simp only [ofNat_iMin (readsAs_signed (m := 0) (w := 32) rfl rfl (by decide)), BitVec.slt_eq_decide, decide_eq_true_eq]

theorem defImin_n32 : (defImin 1).fn env (words1 a b c) = { d := [if a.ult b then a else b], q := none, flags := 0 } :=
  intDef_word (op := fun a b => if a.ult b then a else b) env a b c rfl fun x y _ => by
    simp only [ofNat_iMin (readsAs_unsigned (m := 1) rfl), BitVec.ult_eq_decide, decide_eq_true_eq, Int.ofNat_lt]

theorem defImax_i32 : (defImax 0).fn env (words1 a b c) = { d := [if a.slt b then b else a], q := none, flags := 0 } :=
  intDef_word (op := fun a b => if a.slt b then b else a) env a b c rfl fun x y _ => by
    simp only [ofNat_iMax (readsAs_signed (m := 0) (w := 32) rfl rfl (by decide)), BitVec.slt_eq_decide, decide_eq_true_eq]

theorem defImax_n32 : (defImax 1).fn env (words1 a b c) = { d := [if a.ult b then b else a], q := none, flags := 0 } :=
  intDef_word (op := fun a b => if a.ult b then b else a) env a b c rfl fun x y _ => by
    simp only [ofNat_iMax (readsAs_unsigned (m := 1) rfl), BitVec.ult_eq_decide, decide_eq_true_eq, Int.ofNat_lt]

theorem defImin_i16 : (defImin 2).fn env (words1 a b c) =
    { d := [byHalf (fun a b => if a.slt b then a else b) a b], q := none, flags := 0 } :=
  intDef_halves env a b c rfl fun x y _ => by
    simp only [ofNat_iMin (readsAs_signed (m := 2) (w := 16) rfl rfl (by decide)), BitVec.slt_eq_decide, decide_eq_true_eq]

theorem defImax_n8 : (defImax 5).fn env (words1 a b c) =
    { d := [byByte (fun a b => if a.ult b then b else a) a b], q := none, flags := 0 } :=
  intDef_bytes env a b c rfl fun x y _ => by
    simp only [ofNat_iMax (readsAs_unsigned (m := 5) rfl), BitVec.ult_eq_decide, decide_eq_true_eq, Int.ofNat_lt]

theorem defIshl_b32 : (defIshl 6).fn env (words1 a b c) = { d := [a <<< (b.toNat % 32)], q := none, flags := 0 } :=
  intDef_word (m := 6) (op := fun a b => a <<< (b.toNat % 32)) env a b c rfl fun x _ _ => ofNat_iShl x _

theorem defIshr_b32 : (defIshr 6).fn env (words1 a b c) = { d := [a >>> (b.toNat % 32)], q := none, flags := 0 } :=
  intDef_word (m := 6) (op := fun a b => a >>> (b.toNat % 32)) env a b c rfl fun x _ _ => ofNat_iShr x _

end

/-! Carries and comparisons (R155, R156). -/

theorem defIaddc_words (env : FEnv) (a b c : Word) :
    (defIaddc.fn env (words1 a b c)).d = [a + b + c] ∧
      (defIaddc.fn env (words1 a b c)).q = some (decide (2 ^ 32 ≤ a.toNat + b.toNat + c.toNat)) := by
  simp [defIaddc, words1, BitVec.ofNat_add]

theorem defIcmp_i32 (env : FEnv) (a b c : Word) (k : Nat) :
    (defIcmp 0 k).fn env (words1 a b c) = outQ (intCond k a.toInt b.toInt) 0 := by
  simp only [defIcmp, predDef, words1, wv_one, intCompare, sx_toNat _ (show 0 < 32 by decide)]
  rfl

theorem defIcmp_n32 (env : FEnv) (a b c : Word) (k : Nat) :
    (defIcmp 1 k).fn env (words1 a b c) = outQ (intCond k a.toNat b.toNat) 0 := by
  simp only [defIcmp, predDef, words1, wv_one]
  rfl

theorem intCond_toInt (k : Nat) (a b : Word) : intCond k a.toInt b.toInt = match k with
    | 0 => a.slt b
    | 1 => a.sle b
    | 2 => b.slt a
    | 3 => b.sle a
    | 4 => a == b
    | _ => a != b := by
  rcases k with _ | _ | _ | _ | _ | k <;>
    simp [intCond, BitVec.slt_eq_decide, BitVec.sle_eq_decide, BitVec.toInt_inj, bne, beq_eq_decide]

theorem intCond_toNat (k : Nat) (a b : Word) : intCond k a.toNat b.toNat = match k with
    | 0 => a.ult b
    | 1 => a.ule b
    | 2 => b.ult a
    | 3 => b.ule a
    | 4 => a == b
    | _ => a != b := by
  rcases k with _ | _ | _ | _ | _ | k <;>
    simp [intCond, BitVec.ult_eq_decide, BitVec.ule_eq_decide, BitVec.toNat_inj, bne, beq_eq_decide]

/-- Settles O13: on a type's width the elementary operations on numbers are those on bit vectors, and `intMap` takes them
element by element. -/
theorem integerResults : Obligations.IntegerResults := by
  intro env a b c
  refine ⟨intDef_word env a b c rfl fun x y _ => ofNat_iAdd x y, intDef_word env a b c rfl fun x y _ => ofNat_iAdd x y,
    intDef_halves env a b c rfl fun x y _ => ofNat_iAdd x y, intDef_halves env a b c rfl fun x y _ => ofNat_iAdd x y,
    intDef_bytes env a b c rfl fun x y _ => ofNat_iAdd x y, intDef_bytes env a b c rfl fun x y _ => ofNat_iAdd x y,
    intDef_word env a b c rfl fun x y _ => ofNat_iSub x y, intDef_halves env a b c rfl fun x y _ => ofNat_iSub x y,
    intDef_bytes env a b c rfl fun x y _ => ofNat_iSub x y,
    intDef_word env a b c rfl fun x y _ => ofNat_iMul x y, intDef_halves env a b c rfl fun x y _ => ofNat_iMul x y,
    intDef_bytes env a b c rfl fun x y _ => ofNat_iMul x y,
    defImin_i32 env a b c, defImin_n32 env a b c, defImax_i32 env a b c, defImax_n32 env a b c, defImin_i16 env a b c,
    defImax_n8 env a b c,
    intDef_word env a b c rfl fun x y _ => ofNat_land x y, intDef_word env a b c rfl fun x y _ => ofNat_lor x y,
    intDef_word env a b c rfl fun x y _ => ofNat_xor x y, defIshl_b32 env a b c, defIshr_b32 env a b c,
    (defIaddc_words env a b c).1, (defIaddc_words env a b c).2, fun k => ?_, fun k => ?_⟩
  · rw [defIcmp_i32, intCond_toInt]
    rfl
  · rw [defIcmp_n32, intCond_toNat]
    rfl

end Sys2Proof.Machine
end

section
/-! NaN, infinities and zeros of sums and products (O14): an encoding is a sign and a magnitude, an operand decodes by its magnitude
and carries its sign, and `sumTerms` of one or two terms does not depend on their order. -/

open Sys2Proof
namespace Sys2Proof.Machine

/-! Sign and magnitude of an encoding (R26). -/

section
variable {f : FFmt} (neg : Bool) {r : Nat}

theorem signBit_eq (f : FFmt) : f.signBit = 2 ^ f.fbits * 2 ^ f.ebits := by
  rw [FFmt.signBit, Nat.pow_add, Nat.mul_comm]

theorem signBit_pos (f : FFmt) : 0 < f.signBit := Nat.two_pow_pos _

theorem withSign_eq (f : FFmt) (r : Nat) : f.withSign neg r = r + f.signBit * neg.toNat := by
  cases neg <;> simp [FFmt.withSign, Nat.add_comm]

theorem isNeg_withSign (h : r < f.signBit) : f.isNeg (f.withSign neg r) = neg := by
  rw [FFmt.isNeg, withSign_eq, Nat.add_mul_div_left _ _ (signBit_pos f), Nat.div_eq_of_lt h]
  cases neg <;> rfl

theorem expField_withSign (h : r < f.signBit) : f.withSign neg r / 2 ^ f.fbits % 2 ^ f.ebits = r / 2 ^ f.fbits := by
  rw [withSign_eq, signBit_eq, Nat.mul_assoc, Nat.add_mul_div_left _ _ (Nat.two_pow_pos _), Nat.add_mul_mod_self_left]
  exact Nat.mod_eq_of_lt (Nat.div_lt_of_lt_mul (signBit_eq f ▸ h))

theorem fracField_withSign (r : Nat) : f.withSign neg r % 2 ^ f.fbits = r % 2 ^ f.fbits := by
  rw [withSign_eq, signBit_eq, Nat.mul_assoc, Nat.add_mul_mod_self_left]

/-- Every encoding is a magnitude with a sign. -/
theorem withSign_isNeg_mod {x : Nat} (h : x < 2 * f.signBit) : f.withSign (f.isNeg x) (x % f.signBit) = x := by
  have hd : x / f.signBit < 2 := Nat.div_lt_of_lt_mul (by rwa [Nat.mul_comm])
  have hm := Nat.div_add_mod x f.signBit
  rw [withSign_eq, FFmt.isNeg, Nat.mod_eq_of_lt hd]
  generalize x / f.signBit = q at hd hm ⊢
  obtain rfl | rfl : q = 0 ∨ q = 1 := by omega
  · simpa using hm
  · simpa [Nat.add_comm] using hm

end

/-! Decoding (R27, R34, R36). -/

/-- The operand of a sign and a magnitude. -/
def FFmt.magnitude (f : FFmt) (neg : Bool) (r : Nat) : Fp :=
  if r / 2 ^ f.fbits == f.emax then (if r % 2 ^ f.fbits == 0 then .inf neg else .nan)
  else if r / 2 ^ f.fbits == 0 then .fin neg (r % 2 ^ f.fbits) (f.emin - f.fbits)
  else .fin neg (2 ^ f.fbits + r % 2 ^ f.fbits) (f.emin - f.fbits + (((r / 2 ^ f.fbits : Nat) : Int) - 1))

theorem magnitude_not (f : FFmt) (neg : Bool) (r : Nat) : f.magnitude (!neg) r = (f.magnitude neg r).neg := by
  unfold FFmt.magnitude
  split
  · split <;> rfl
  · split <;> rfl

section
variable {f : FFmt} (neg : Bool) {r : Nat} (h : r < f.signBit)
include h

theorem dec_withSign : f.dec (f.withSign neg r) = f.magnitude neg r := by
  have hn : (f.withSign neg r / f.signBit % 2 == 1) = neg := isNeg_withSign neg h
  simp only [FFmt.dec, FFmt.magnitude, hn, expField_withSign neg h, fracField_withSign]

theorem flush_withSign (ftz : Bool) :
    f.flush ftz (f.withSign neg r) = f.withSign neg (if ftz && f.isSub (f.withSign false r) then 0 else r) := by
  have hs : f.isSub (f.withSign neg r) = f.isSub (f.withSign false r) := by
    simp only [FFmt.isSub, expField_withSign _ h, fracField_withSign]
  rw [FFmt.flush, isNeg_withSign neg h, hs]
  split <;> rfl

theorem decIn_withSign (env : FEnv) : f.decIn env (f.withSign neg r) =
    f.magnitude neg (if env.ftz && f.isSub (f.withSign false r) then 0 else r) := by
  rw [FFmt.decIn, flush_withSign neg h, dec_withSign]
  split
  · exact signBit_pos f
  · exact h

/-- The opposite sign decodes to minus the value. -/
theorem decIn_withSign_not (env : FEnv) :
    f.decIn env (f.withSign (!neg) r) = (f.decIn env (f.withSign neg r)).neg := by
  rw [decIn_withSign _ h, decIn_withSign _ h, magnitude_not]

end

/-- The encoding with its sign inverted decodes to minus the value. -/
theorem decIn_opposite {f : FFmt} {x : Nat} (hx : x < 2 * f.signBit) (env : FEnv) :
    f.decIn env (if f.isNeg x then x - f.signBit else x + f.signBit) = (f.decIn env x).neg := by
  have hr : x % f.signBit < f.signBit := Nat.mod_lt _ (signBit_pos f)
  have e : (if f.isNeg x then x - f.signBit else x + f.signBit) = f.withSign (!f.isNeg x) (x % f.signBit) := by
    have hw := withSign_isNeg_mod hx
    rw [withSign_eq] at hw ⊢
    cases hn : f.isNeg x <;> simp [hn] at hw ⊢ <;> omega
  have k := decIn_withSign_not (f.isNeg x) hr env
  rw [withSign_isNeg_mod hx] at k
  rw [e, k]

/-- The exponent field of infinities and NaNs is none of subnormals, so that no flush changes it. -/
theorem flush_of_emax {f : FFmt} (h0 : f.emax ≠ 0) {x : Nat} (hx : x / 2 ^ f.fbits % 2 ^ f.ebits = f.emax) (ftz : Bool) :
    f.flush ftz x = x := by
  simp [FFmt.flush, FFmt.isSub, hx, h0]

theorem decIn_nan {f : FFmt} (h0 : f.emax ≠ 0) {x : Nat} (h : f.isNan x = true) (env : FEnv) : f.decIn env x = .nan := by
  simp only [FFmt.isNan, Bool.and_eq_true, beq_iff_eq, bne_iff_ne] at h
  rw [FFmt.decIn, flush_of_emax h0 h.1]
  simp [FFmt.dec, h.1, h.2]

theorem dec_fin {f : FFmt} {x : Nat} (hn : f.isNan x = false) (hi : f.isInf x = false) :
    ∃ n m e, f.dec x = .fin n m e := by
  have hx : x / 2 ^ f.fbits % 2 ^ f.ebits ≠ f.emax := by
    intro k
    by_cases z : x % 2 ^ f.fbits = 0
    · simp [FFmt.isInf, k, z] at hi
    · simp [FFmt.isNan, k, z] at hn
  simp only [FFmt.dec, beq_iff_eq, if_neg hx]
  split
  · exact ⟨_, _, _, rfl⟩
  · exact ⟨_, _, _, rfl⟩

theorem decIn_fin {f : FFmt} (h0 : f.emax ≠ 0) {x : Nat} (hn : f.isNan x = false) (hi : f.isInf x = false) (env : FEnv) :
    ∃ n m e, f.decIn env x = .fin n m e := by
  have zero : f.dec (f.withSign (f.isNeg x) 0) = .fin (f.isNeg x) 0 (f.emin - f.fbits) := by
    rw [dec_withSign _ (signBit_pos f)]
    simp [FFmt.magnitude, h0.symm]
  unfold FFmt.decIn FFmt.flush
  split
  · exact ⟨_, _, _, zero⟩
  · exact dec_fin hn hi

/-! Sums of one and of two terms. -/

theorem sgn_eq_zero (n : Bool) (m : Nat) : sgn n m = 0 ↔ m = 0 := by cases n <;> simp [sgn]

/-- Two finite terms over the smaller exponent, whichever comes first. -/
theorem sumFin_fin_comm (n k : Bool) (m l : Nat) (e g : Int) :
    sumFin [.fin n m e, .fin k l g] = sumFin [.fin k l g, .fin n m e] := by
  have hm := sgn_eq_zero n m
  have hl := sgn_eq_zero k l
  simp only [sumFin, List.foldl_cons, List.foldl_nil, beq_iff_eq]
  by_cases m0 : m = 0 <;> by_cases l0 : l = 0 <;> simp only [m0, l0, hm, hl, if_true, if_false]
  obtain lt | rfl | gt := lt_trichotomy e g
  · simp [lt.le, lt.not_ge, Int.add_comm]
  · simp [Int.add_comm]
  · simp [gt.le, gt.not_ge, Int.add_comm]

theorem sumFin_comm (s t : Term) : sumFin [s, t] = sumFin [t, s] := by
  cases s with
  | fin n m e => cases t with
    | fin k l g => exact sumFin_fin_comm n k m l e g
    | _ => rfl
  | _ => cases t <;> rfl

theorem sumTerms_comm (f : FFmt) (env : FEnv) (s t : Term) : sumTerms f env [s, t] = sumTerms f env [t, s] := by
  have h (p : Term → Bool) : [s, t].any p = [t, s].any p := by simp [Bool.or_comm]
  have k (p : Term → Bool) : [s, t].all p = [t, s].all p := by simp [Bool.and_comm]
  simp only [sumTerms, h, k, sumFin_comm s t]

theorem prod_comm (x y : Fp) : x.prod y = y.prod x := by
  cases x <;> cases y <;> simp [Fp.prod, Bool.xor_comm, Nat.mul_comm, Int.add_comm]

theorem isNv_term (x : Fp) : x.term.isNv = false := by cases x <;> rfl

theorem sumTerms_nan (f : FFmt) (env : FEnv) (x : Fp) : sumTerms f env [.nan, x.term] = f.nanRes flagNone := by
  have hn : Term.isNv .nan = false := rfl
  have hi : Term.isNan .nan = true := rfl
  simp [sumTerms, isNv_term, hn, hi]

/-- A finite value and its opposite. -/
theorem sumTerms_cancel (f : FFmt) (env : FEnv) (n : Bool) (m : Nat) (e : Int) :
    (sumTerms f env [.fin n m e, .fin (!n) m e]).bits = if env.rm = .rdn then f.signBit else 0 := by
  have hs : (sumFin [.fin n m e, .fin (!n) m e]).1 = 0 := by
    by_cases m0 : m = 0
    · simp [sumFin, m0]
    · cases n <;> simp [sumFin, m0, sgn]
  have hz (b : Bool) : [Term.fin n m e, .fin (!n) m e].all (Term.isZero b) = false := by
    cases n <;> cases b <;> simp [Term.isZero]
  simp [sumTerms, hz, roundDyadic, hs, Term.isNv, Term.isNan, Term.isInf, zeroSumNeg, FFmt.withSign]

/-! The three formats (R26). -/

theorem emax_ne_zero : ∀ f ∈ fpFormats, f.emax ≠ 0 := by decide

theorem infBits_fields : ∀ f ∈ fpFormats, f.infBits < f.signBit ∧ f.isSub (f.withSign false f.infBits) = false ∧
    ∀ neg, f.magnitude neg f.infBits = .inf neg := by decide

theorem decIn_inf {f : FFmt} (hf : f ∈ fpFormats) (env : FEnv) (neg : Bool) :
    f.decIn env (f.withSign neg f.infBits) = .inf neg := by
  obtain ⟨lt, sub, mag⟩ := infBits_fields f hf
  rw [decIn_withSign neg lt, sub, Bool.and_false, if_neg (by decide), mag]

/-! Sums and products of operands. -/

theorem fpAdd_comm (f : FFmt) (env : FEnv) (a b : Nat) : fpAdd f env a b = fpAdd f env b a := sumTerms_comm _ _ _ _

theorem fpMul_comm (f : FFmt) (env : FEnv) (a b : Nat) : fpMul f env a b = fpMul f env b a := by
  rw [fpMul, fpMul, prod_comm]

section
variable {f : FFmt} (hf : f ∈ fpFormats) (env : FEnv) {a b : Nat}
include hf

theorem fpAdd_nan (h : f.isNan a = true ∨ f.isNan b = true) : fpAdd f env a b = { bits := f.nanBits, flags := 0 } := by
  have left {a b : Nat} (h : f.isNan a = true) : fpAdd f env a b = { bits := f.nanBits, flags := 0 } := by
    rw [fpAdd, decIn_nan (emax_ne_zero f hf) h]
    exact sumTerms_nan f env _
  exact h.elim left fun h => (fpAdd_comm f env a b).trans (left h)

theorem fpMul_nan (h : f.isNan a = true ∨ f.isNan b = true) : fpMul f env a b = { bits := f.nanBits, flags := 0 } := by
  have left {a b : Nat} (h : f.isNan a = true) : fpMul f env a b = { bits := f.nanBits, flags := 0 } := by
    rw [fpMul, decIn_nan (emax_ne_zero f hf) h]
    rfl
  exact h.elim left fun h => (fpMul_comm f env a b).trans (left h)

omit hf in
theorem fpSub_eq_fpAdd (hb : b < 2 * f.signBit) :
    fpSub f env a b = fpAdd f env a (if f.isNeg b then b - f.signBit else b + f.signBit) := by
  rw [fpSub, fpAdd, decIn_opposite hb]

theorem fpAdd_opposite_inf : fpAdd f env f.infBits (f.signBit + f.infBits) = { bits := f.nanBits, flags := flagNV } := by
  rw [fpAdd, show f.decIn env f.infBits = .inf false from decIn_inf hf env false,
    show f.decIn env (f.signBit + f.infBits) = .inf true from decIn_inf hf env true]
  rfl

theorem fpAdd_inf (hn : f.isNan a = false) (hi : f.isInf a = false) :
    fpAdd f env a f.infBits = { bits := f.infBits, flags := 0 } := by
  obtain ⟨n, m, e, ha⟩ := decIn_fin (emax_ne_zero f hf) hn hi env
  rw [fpAdd, ha, show f.decIn env f.infBits = .inf false from decIn_inf hf env false]
  rfl

theorem fpSub_self (hn : f.isNan a = false) (hi : f.isInf a = false) :
    (fpSub f env a a).bits = if env.rm = .rdn then f.signBit else 0 := by
  obtain ⟨n, m, e, ha⟩ := decIn_fin (emax_ne_zero f hf) hn hi env
  rw [fpSub, ha]
  exact sumTerms_cancel f env n m e

end

/-- Settles O14: operands decode to a sign and a magnitude, and the sum of their terms is symmetric. -/
theorem floatResults : Obligations.FloatResults := fun _ hf env a b _ hb =>
  ⟨fun h => ⟨fpAdd_nan hf env h, fpMul_nan hf env h⟩, fpAdd_comm _ env a b, fpMul_comm _ env a b,
    fun _ => fpSub_eq_fpAdd env hb, fpAdd_opposite_inf hf env,
    fun hn hi => ⟨fpAdd_inf hf env hn hi, fpSub_self hf env hn hi⟩⟩

end Sys2Proof.Machine
end

section
/-! Matrix operations (O37): fragments, the steps of a loop, the completion of the head, and what MRD and MBLD write. -/

open Sys2Proof
namespace Sys2Proof.Machine

/-! Bytes at consecutive addresses. -/

theorem cgets_eq_map (m : Cells 8) (a n : Nat) : cgets m a n = (List.range n).map fun i => cget m (a + i) := by
  induction n generalizing a with
  | zero => rfl
  | succ n ih => simp [cgets, ih, List.range_succ_eq_map, Nat.add_assoc, Nat.add_comm 1]

theorem scrGets_eq_map (s : State) (st : Strand) (a n : Nat) :
    s.scrGets st a n = (List.range n).map fun i => s.scrGet st (a + i) := by
  induction n generalizing a with
  | zero => rfl
  | succ n ih => simp [State.scrGets, ih, List.range_succ_eq_map, Nat.add_assoc, Nat.add_comm 1]

theorem take_drop_map_range {α : Type} (g : Nat → α) {k n N : Nat} (h : k + n ≤ N) :
    (((List.range N).map g).drop k).take n = (List.range n).map fun i => g (k + i) :=
  List.ext_getElem (by simp; omega) (by simp)

/-- The bytes of a part of a range of a store. -/
theorem cgets_part (m : Cells 8) {a off n N : Nat} (h0 : a ≤ off) (h : off + n ≤ a + N) :
    ((cgets m a N).drop (off - a)).take n = cgets m off n := by
  rw [cgets_eq_map, cgets_eq_map, take_drop_map_range _ (by omega)]
  exact List.map_congr_left fun i _ => by rw [← Nat.add_assoc, Nat.add_sub_cancel' h0]

theorem scrGets_part (s : State) (st : Strand) {a off n N : Nat} (h0 : a ≤ off) (h : off + n ≤ a + N) :
    ((s.scrGets st a N).drop (off - a)).take n = s.scrGets st off n := by
  rw [scrGets_eq_map, scrGets_eq_map, take_drop_map_range _ (by omega)]
  exact List.map_congr_left fun i _ => by rw [← Nat.add_assoc, Nat.add_sub_cancel' h0]

theorem cgets_length (m : Cells 8) (a n : Nat) : (cgets m a n).length = n := by simp [cgets_eq_map]

theorem scrGets_length (s : State) (st : Strand) (a n : Nat) : (s.scrGets st a n).length = n := by simp [scrGets_eq_map]

/-! The fragment that the collector keeps (R359). -/

/-- A fragment's bytes are those of its operand's memory from its offset on. -/
theorem fragmentAt_bytes (s : State) (x : Core) (st : Strand) (d : LoopDesc) (inB : Bool) (k : Nat) :
    ∃ N, (s.fragmentAt x st d inB k).bytes =
      if inB then cgets x.bslice (s.fragmentAt x st d inB k).off.toNat N
      else s.scrGets st (s.fragmentAt x st d inB k).off.toNat N := ⟨_, rfl⟩

theorem fragment_says : FragmentSays := by
  intro s x st d o q off n hq hit lo hi bs
  have e : s.fragmentAt x st d q.inB 0 = q := by
    unfold State.keptHit at hit
    rw [hq] at hit
    exact eq_of_beq ((Bool.and_eq_true _ _).mp hit).2
  obtain ⟨N, hN⟩ := fragmentAt_bytes s x st d q.inB 0
  rw [e] at hN
  have part : (q.bytes.drop (off - q.off.toNat)).take n = bs := by
    show _ = if q.inB then cgets x.bslice off n else s.scrGets st off n
    have len : q.bytes.length = N := by
      rw [hN]
      split
      · exact cgets_length _ _ _
      · exact scrGets_length _ _ _ _
    rw [len] at hi
    rw [hN]
    split
    · exact cgets_part _ lo hi
    · exact scrGets_part _ _ lo hi
  unfold MatOp.fragment
  rw [hq]
  simp only [part, ite_self]

/-! A change of one core after another, and what it leaves. -/

theorem modAt_modAt {α : Type} (l : List α) (i : Nat) (g h : α → α) : modAt (modAt l i g) i h = modAt l i fun x => h (g x) := by
  unfold modAt
  cases e : l[i]? with
  | none => simp only [e]
  | some x => simp only [List.getElem?_set_self (List.getElem?_eq_some_iff.mp e).1, List.set_set]

theorem modCore_modCore (s : State) (d c : Nat) (g h : Core → Core) :
    (s.modCore d c g).modCore d c h = s.modCore d c fun x => h (g x) := by
  simp only [State.modCore, State.modDie, modAt_modAt]

theorem core_modCore_same {s : State} {d c : Nat} (hd : d < s.dies.length) (hc : c < (s.die d).cores.length)
    (g : Core → Core) : (s.modCore d c g).core d c = g (s.core d c) := by
  rw [State.core_modCore, if_pos ⟨rfl, hd, rfl, hc⟩]

/-- What a function reads of each element is the same where the change of one keeps it. -/
theorem map_modAt {α β : Type} (F : α → β) (l : List α) (i : Nat) (g : α → α) (h : ∀ x, F (g x) = F x) :
    (modAt l i g).map F = l.map F := by
  unfold modAt
  split
  · next x e =>
    obtain ⟨hi, rfl⟩ := List.getElem?_eq_some_iff.mp e
    rw [List.map_set, h, ← List.getElem_map F (h := by simpa using hi), List.set_getElem_self]
  · rfl

theorem waitLines_modCore (s : State) (d c : Nat) (g : Core → Core) : (s.modCore d c g).waitLines = s.waitLines := by
  unfold State.waitLines
  rw [List.flatMap_def, List.flatMap_def]
  exact congrArg _ (map_modAt _ _ _ _ fun _ => rfl)

theorem scrGets_modCore (s : State) (d c : Nat) (g : Core → Core) (st : Strand) (a n : Nat) :
    (s.modCore d c g).scrGets st a n = s.scrGets st a n := by
  rw [scrGets_eq_map, scrGets_eq_map]
  rfl

/-! One step of a loop (R350, R356 to R358). -/

/-- A core whose loop at the head has taken a step: a tile, the head and the number of steps have changed. -/
def Core.stepped (y : Core) (n : Nat) (g : Tile → Tile) (h : MatOp → MatOp) : Core :=
  { (y.modTile n g).modHead h with arraySteps := y.arraySteps + 1 }

/-- What a step may change of its tile and of its operation. -/
structure StepChange (o : MatOp) (x : LoopDesc) (g : Tile → Tile) (h : MatOp → MatOp) : Prop where
  tile : ∀ q, g q = { q with entries := (g q).entries, ovm := (g q).ovm, ixm := (g q).ixm }
  kind : (h o).kind = o.kind
  strand : (h o).strand = o.strand
  step : x.mode < 5 → (h o).step = o.step + 1
  pass : 5 ≤ x.mode → (h o).step = if seedJ (nth (0, []) x.recs o.step).2 ≤ o.pass + 1 then o.step + 1 else o.step

/-- A real step as `State.loopStep` makes it of its core's B-slice and its item's scratchpad. -/
def State.realStepOf (s : State) (d c : Nat) (st : Strand) (o : MatOp) (n : Nat) (x : LoopDesc) (bf : Bool) : StepOut :=
  realStep bf (FEnv.ofFmt o.fmt) x o.step
    (fun off => o.fragment (s.core d c) false off 2 (s.scrGets st off 2))
    (fun off => o.fragment (s.core d c) true off 2 (cgets (s.core d c).bslice off 2))
    (nth Tile.free (s.core d c).tiles n).entries

/-- What a floating-point step writes into its tile and its operation. -/
def Core.realStepped (y : Core) (n : Nat) (r : StepOut) : Core :=
  y.stepped n (fun q => { q with entries := r.1 }) fun p => { p with step := p.step + 1, flags := p.flags ||| r.2 }

/-- What an integer step writes into its tile and its operation; `next` moves on by a step or by a pass. -/
def Core.intStepped (y : Core) (n : Nat) (r : IntTile) (next : MatOp → MatOp) : Core :=
  y.stepped n (fun q => { q with entries := r.e, ovm := r.ovm, ixm := r.ixm }) fun p =>
    next { p with flags := p.flags ||| flagIf r.ovf flagOF }

/-- The position after a pass of a seed loop: the next step once every basis of the record is done (R358). -/
def MatOp.nextPass (x : LoopDesc) (k : Nat) (p : MatOp) : MatOp :=
  if seedJ (nth (0, []) x.recs k).2 ≤ p.pass + 1 then { p with step := p.step + 1, pass := 0 } else { p with pass := p.pass + 1 }

theorem nextPass_kind (x : LoopDesc) (k : Nat) (p : MatOp) : (p.nextPass x k).kind = p.kind := by
  unfold MatOp.nextPass
  split <;> rfl

theorem nextPass_strand (x : LoopDesc) (k : Nat) (p : MatOp) : (p.nextPass x k).strand = p.strand := by
  unfold MatOp.nextPass
  split <;> rfl

theorem nextPass_step (x : LoopDesc) (k : Nat) (p : MatOp) :
    (p.nextPass x k).step = if seedJ (nth (0, []) x.recs k).2 ≤ p.pass + 1 then p.step + 1 else p.step := by
  unfold MatOp.nextPass
  split <;> rfl

/-- Bubbles counted on a core change nothing else of it (R366). -/
theorem bubble_core {s : State} {d c : Nat} (hd : d < s.dies.length) (hc : c < (s.die d).cores.length) (g : Core → Core) :
    ∃ b, ((s.modCore d c g).bubble d c).core d c = { g (s.core d c) with bubbles := b } := by
  unfold State.bubble
  rw [modCore_modCore, core_modCore_same hd hc]
  dsimp only
  split
  · exact ⟨_, rfl⟩
  · exact ⟨_, rfl⟩

section
variable (s : State) (d c : Nat) (st : Strand) (o : MatOp) (n : Nat) (sx : Int) (x : LoopDesc)

theorem loopStep_f16 (e : x.mode = 0) :
    s.loopStep d c st o n sx x = s.modCore d c (·.realStepped n (s.realStepOf d c st o n x false)) := by
  unfold State.loopStep
  rw [e]
  rfl

theorem loopStep_bf16 (e : x.mode = 1) :
    s.loopStep d c st o n sx x = s.modCore d c (·.realStepped n (s.realStepOf d c st o n x true)) := by
  unfold State.loopStep
  rw [e]
  rfl

theorem loopStep_cplx (e : x.mode = 2 ∨ x.mode = 3) : ∃ r, s.loopStep d c st o n sx x = s.modCore d c (·.realStepped n r) := by
  unfold State.loopStep
  obtain e | e := e
  · rw [e]
    exact ⟨_, rfl⟩
  · rw [e]
    exact ⟨_, rfl⟩

theorem loopStep_bfp (e : x.mode = 4) :
    ∃ r, s.loopStep d c st o n sx x = s.modCore d c (·.intStepped n r fun p => { p with step := p.step + 1 }) := by
  unfold State.loopStep
  rw [e]
  exact ⟨_, rfl⟩

theorem loopStep_seed {k : Nat} (e : x.mode = k + 5) :
    ∃ r, s.loopStep d c st o n sx x = s.modCore d c (·.intStepped n r fun p => p.nextPass x o.step) := by
  unfold State.loopStep
  rw [e]
  exact ⟨_, rfl⟩

end

/-- Every step of a loop is a change of its tile and its head; a real one makes the entries of `realStepOf`. -/
theorem loopStep_change (s : State) (d c : Nat) (st : Strand) (o : MatOp) (n : Nat) (sx : Int) (x : LoopDesc) :
    ∃ g h, s.loopStep d c st o n sx x = s.modCore d c (·.stepped n g h) ∧ StepChange o x g h ∧
      (x.mode < 2 → ∀ q, (g q).entries = (s.realStepOf d c st o n x (x.mode == 1)).1) := by
  match e : x.mode with
  | 0 => exact ⟨_, _, loopStep_f16 s d c st o n sx x e, ⟨fun _ => rfl, rfl, rfl, fun _ => rfl, by omega⟩, fun _ _ => rfl⟩
  | 1 => exact ⟨_, _, loopStep_bf16 s d c st o n sx x e, ⟨fun _ => rfl, rfl, rfl, fun _ => rfl, by omega⟩, fun _ _ => rfl⟩
  | 2 =>
    obtain ⟨r, hr⟩ := loopStep_cplx s d c st o n sx x (.inl e)
    exact ⟨_, _, hr, ⟨fun _ => rfl, rfl, rfl, fun _ => rfl, by omega⟩, by omega⟩
  | 3 =>
    obtain ⟨r, hr⟩ := loopStep_cplx s d c st o n sx x (.inr e)
    exact ⟨_, _, hr, ⟨fun _ => rfl, rfl, rfl, fun _ => rfl, by omega⟩, by omega⟩
  | 4 =>
    obtain ⟨r, hr⟩ := loopStep_bfp s d c st o n sx x e
    exact ⟨_, _, hr, ⟨fun _ => rfl, rfl, rfl, fun _ => rfl, by omega⟩, by omega⟩
  | k + 5 =>
    obtain ⟨r, hr⟩ := loopStep_seed s d c st o n sx x e
    refine ⟨_, _, hr, ⟨fun _ => rfl, ?_, ?_, by omega, fun _ => ?_⟩, by omega⟩
    · exact nextPass_kind _ _ _
    · exact nextPass_strand _ _ _
    · exact nextPass_step _ _ _

/-- The fragment of a step is the same after a change of the core that leaves its B-slice. -/
theorem fragmentAt_modCore (s : State) (d c : Nat) (G : Core → Core) (y z : Core) (hb : z.bslice = y.bslice) (st : Strand)
    (x : LoopDesc) (inB : Bool) (k : Nat) : (s.modCore d c G).fragmentAt z st x inB k = s.fragmentAt y st x inB k := by
  unfold State.fragmentAt
  simp only [scrGets_modCore, hb]

/-- What the collector keeps after step `k` of a loop (R359). -/
def State.keptAfter (s : State) (y : Core) (st : Strand) (x : LoopDesc) (k : Nat) : Option Kept := match x.keep with
  | some inB => if k + 1 = x.steps then some (s.fragmentAt y st x inB k) else none
  | none => none

theorem keepStep_eq (s : State) (d c : Nat) (st : Strand) (x : LoopDesc) (k : Nat) :
    s.keepStep d c st x k = s.modCore d c fun y => { y with kept := s.keptAfter y st x k } := rfl

theorem keptAfter_modCore (s : State) (d c : Nat) (G : Core → Core) {y z : Core} (hb : z.bslice = y.bslice) (st : Strand)
    (x : LoopDesc) (k : Nat) : (s.modCore d c G).keptAfter z st x k = s.keptAfter y st x k := by
  unfold State.keptAfter
  simp only [fragmentAt_modCore s d c G y z hb]

section
variable {s : State} {d c : Nat} {o : MatOp} {r : List MatOp} {st : Strand} {n kind : Nat} {sx : Int} {x : LoopDesc}
  (hseq : (s.core d c).seq = o :: r) (hk : o.kind = .mloop n kind sx x) (hst : s.strand o.strand = some st)
  (hs : o.started = true) (he : o.err = none) (hlt : o.step < x.steps) (hd : d < s.dies.length)
  (hc : c < (s.die d).cores.length)
include hseq hk hst hs he hlt

theorem exec_mloopStep : exec (.mloopStep d c) s = .next
    ((if ((s.loopStep d c st o n sx x).core d c).seq.head?.any fun p => p.step != o.step then
      (s.loopStep d c st o n sx x).keepStep d c st x o.step else s.loopStep d c st o n sx x).bubble d c) := by
  show execMloopStep d c s = _
  unfold execMloopStep
  simp only [hseq, hk, hst, hs, he, Nat.not_le.mpr hlt, decide_false, Option.isSome_none, Bool.not_true, Bool.or_self,
    Bool.false_eq_true, if_false]

include hd hc

/-- What MLOOP_STEP leaves of the state: its core after the step, with what the collector keeps and the bubbles. -/
theorem mloopStep_core : ∃ t g h K B, exec (.mloopStep d c) s = .next t ∧ t.strands = s.strands ∧ t.mem = s.mem ∧
    t.core d c = { (s.core d c).stepped n g h with kept := K, bubbles := B } ∧ StepChange o x g h ∧
    (x.mode < 2 → ∀ q, (g q).entries = (s.realStepOf d c st o n x (x.mode == 1)).1) ∧
    (x.mode < 5 → K = s.keptAfter (s.core d c) st x o.step) := by
  obtain ⟨g, h, e, hchg, hreal⟩ := loopStep_change s d c st o n sx x
  rw [exec_mloopStep hseq hk hst hs he hlt, e]
  have hhead : (((s.modCore d c (·.stepped n g h)).core d c).seq.head?.any fun p => p.step != o.step) =
      ((h o).step != o.step) := by
    rw [core_modCore_same hd hc]
    show ((modAt (s.core d c).seq 0 h).head?.any _) = _
    rw [hseq]
    rfl
  rw [hhead]
  by_cases hend : (h o).step = o.step
  · rw [if_neg (by simpa using hend)]
    obtain ⟨b, hb⟩ := bubble_core hd hc (·.stepped n g h)
    refine ⟨_, g, h, (s.core d c).kept, b, rfl, rfl, rfl, hb, hchg, hreal, fun h5 => ?_⟩
    have := hchg.step h5
    omega
  · rw [if_pos (by simpa using hend)]
    obtain ⟨b, hb⟩ := bubble_core hd hc fun y => { y.stepped n g h with
      kept := (s.modCore d c (·.stepped n g h)).keptAfter (y.stepped n g h) st x o.step }
    rw [keepStep_eq, modCore_modCore]
    exact ⟨_, g, h, _, b, rfl, rfl, rfl, hb, hchg, hreal, fun _ => keptAfter_modCore _ _ _ _ rfl _ _ _⟩

end

theorem stepped_seq {y : Core} {o : MatOp} {r : List MatOp} (e : y.seq = o :: r) (n : Nat) (g : Tile → Tile)
    (h : MatOp → MatOp) : (y.stepped n g h).seq = h o :: r := by
  show modAt y.seq 0 h = _
  rw [e]
  rfl

theorem stepped_tile (y : Core) (n k : Nat) (g : Tile → Tile) (h : MatOp → MatOp) :
    nth Tile.free (y.stepped n g h).tiles k =
      if k = n ∧ n < y.tiles.length then g (nth Tile.free y.tiles n) else nth Tile.free y.tiles k :=
  nth_modAt ..

theorem loopStep_says : LoopStepSays := by
  intro s d c o r st n kind sx x hseq hk hst hs he hlt hd hc
  obtain ⟨t, g, h, K, B, hx, hstr, hmem, hcore, hchg, -, hK⟩ := mloopStep_core hseq hk hst hs he hlt hd hc
  have tile (k : Nat) : nth Tile.free (t.core d c).tiles k = nth Tile.free ((s.core d c).stepped n g h).tiles k := by rw [hcore]
  refine ⟨t, hx, hstr, hmem, ⟨h o, ?_, hchg.kind, hchg.strand, hchg.step, hchg.pass⟩, fun k hk => ?_, fun a => ?_, fun hn => ?_,
    fun h5 => ?_⟩
  · rw [hcore]
    exact stepped_seq hseq n g h
  · rw [tile, stepped_tile, if_neg fun e => hk e.1]
  · rw [hcore]
    rfl
  · rw [tile, stepped_tile, if_pos ⟨rfl, hn⟩]
    exact hchg.tile _
  · rw [hcore]
    exact hK h5

/-! Writes at distinct places, one after another. -/

section
variable {σ α β : Type} (read : σ → Nat → β) (step : σ → α → σ) (key : α → Nat) (val : α → β → β)
  (hstep : ∀ q x a, read (step q x) a = if a = key x then val x (read q a) else read q a)
include hstep

theorem foldl_keeps (l : List α) (q : σ) (a : Nat) (h : ∀ x ∈ l, key x ≠ a) : read (l.foldl step q) a = read q a := by
  induction l generalizing q with
  | nil => rfl
  | cons y l ih =>
    rw [List.foldl_cons, ih _ fun x hx => h x (List.mem_cons_of_mem _ hx), hstep, if_neg (h y List.mem_cons_self).symm]

/-- Each of the writes to distinct places finds there what stood there first. -/
theorem foldl_writes (l : List α) (hl : l.Pairwise fun x y => key x ≠ key y) (q : σ) (x : α) (hx : x ∈ l) :
    read (l.foldl step q) (key x) = val x (read q (key x)) := by
  induction l generalizing q with
  | nil => nomatch hx
  | cons y l ih =>
    obtain ⟨hy, hl⟩ := List.pairwise_cons.mp hl
    rw [List.foldl_cons]
    obtain rfl | hx := List.mem_cons.mp hx
    · rw [foldl_keeps read step key val hstep l _ _ fun z hz => (hy z hz).symm, hstep, if_pos rfl]
    · rw [ih hl _ hx, hstep, if_neg (hy x hx).symm]

end

/-! The entries of a tile after a step in a real mode (R48, R354, R356). -/

/-- Numbers in row-major order, `w` a row, are distinct. -/
theorem pairwise_rows (m w : Nat) : ((List.range m).flatMap fun i => (List.range w).map fun j => (i, j)).Pairwise
    fun p q => w * p.1 + p.2 ≠ w * q.1 + q.2 := by
  refine List.pairwise_flatMap.mpr ⟨fun i _ => ?_, ?_⟩
  · refine List.pairwise_map.mpr (List.pairwise_lt_range.imp fun h => ?_)
    dsimp only
    omega
  · refine List.pairwise_lt_range.imp fun {i k} h => ?_
    intro p hp q hq
    obtain ⟨a, ha, rfl⟩ := List.mem_map.mp hp
    obtain ⟨b, hb, rfl⟩ := List.mem_map.mp hq
    have h1 : w * (i + 1) ≤ w * k := Nat.mul_le_mul_left w h
    have h2 := List.mem_range.mp ha
    dsimp only
    rw [Nat.mul_succ] at h1
    omega

/-- A new value of one entry, and the flags raised. -/
def entryWrite (kind : Nat) (g : Nat → Nat → BitVec 64 → BitVec 64 × FpFlags) (q : StepOut) (p : Nat × Nat) : StepOut :=
  let r := g p.1 p.2 (cget q.1 (tileIdx kind p.1 p.2))
  (cput q.1 (tileIdx kind p.1 p.2) r.1, q.2 ||| r.2)

theorem cget_entryWrite (kind : Nat) (g : Nat → Nat → BitVec 64 → BitVec 64 × FpFlags) (q : StepOut) (p : Nat × Nat) (a : Nat) :
    cget (entryWrite kind g q p).1 a =
      if a = tileIdx kind p.1 p.2 then (g p.1 p.2 (cget q.1 a)).1 else cget q.1 a := by
  unfold entryWrite
  dsimp only
  rw [cget_cput]
  split
  · next h => rw [h]
  · rfl

theorem eachEntry_eq (kind cols : Nat) (g : Nat → Nat → BitVec 64 → BitVec 64 × FpFlags) (e : Cells 64) :
    eachEntry kind cols g e = ((List.range (tileRows kind)).flatMap fun i => (List.range cols).map fun j => (i, j)).foldl
      (entryWrite kind g) (e, flagNone) := by
  simp only [List.foldl_flatMap, List.foldl_map]
  rfl

theorem cget_eachEntry {kind i j : Nat} (g : Nat → Nat → BitVec 64 → BitVec 64 × FpFlags) (e : Cells 64)
    (hi : i < tileRows kind) (hj : j < tileCols kind) :
    cget (eachEntry kind (tileCols kind) g e).1 (tileIdx kind i j) = (g i j (cget e (tileIdx kind i j))).1 := by
  rw [eachEntry_eq]
  exact foldl_writes (fun q => cget q.1) _ (fun p => tileIdx kind p.1 p.2) (fun p v => (g p.1 p.2 v).1) (cget_entryWrite kind g) _
    (pairwise_rows _ _) (e, flagNone) (i, j)
    (List.mem_flatMap.mpr ⟨i, List.mem_range.mpr hi, List.mem_map.mpr ⟨j, List.mem_range.mpr hj, rfl⟩⟩)

theorem cget_eachEntry_real (g : Nat → Nat → BitVec 64 → BitVec 64 × FpFlags) (e : Cells 64) {i j : Nat} (hi : i < 32)
    (hj : j < 64) : cget (eachEntry 0 64 g e).1 (64 * i + j) = (g i j (cget e (64 * i + j))).1 :=
  cget_eachEntry (kind := 0) g e hi hj

theorem realStep_says : RealStepSays := by
  intro s d c o r st n kind sx x hseq hk hst hs he hlt hd hc h2 hn
  obtain ⟨t, g, h, K, B, hx, -, -, hcore, -, hreal, -⟩ := mloopStep_core hseq hk hst hs he hlt hd hc
  refine ⟨t, hx, fun i j hi hj => ?_⟩
  have e : (nth Tile.free (t.core d c).tiles n).entries = (s.realStepOf d c st o n x (x.mode == 1)).1 := by
    rw [hcore, ← hreal h2 (nth Tile.free (s.core d c).tiles n)]
    show (nth Tile.free ((s.core d c).stepped n g h).tiles n).entries = _
    rw [stepped_tile, if_pos ⟨rfl, hn⟩]
  rw [e]
  unfold State.realStepOf realStep
  rw [cget_eachEntry_real _ _ hi hj]
  by_cases hm : x.mode = 1
  · rw [if_pos hm, show (x.mode == 1) = true by simpa using hm]
    rfl
  · rw [if_neg hm, show (x.mode == 1) = false by simpa using hm]
    rfl

/-! The completion of the head (R349, R361, R368). -/

theorem tput_tput {α : Type} (l : Tab α) (a : Nat) (x y : α) : tput (tput l a x) a y = tput l a y := by
  induction l with
  | nil => simp [tput]
  | cons p r ih =>
    obtain ⟨k, v⟩ := p
    rcases Nat.lt_trichotomy a k with h | rfl | h
    · simp [tput, h, Nat.ne_of_lt h]
    · simp [tput]
    · simp [tput, Nat.ne_of_gt h, Nat.not_lt_of_gt h, ih]

theorem putStrand_putStrand (s : State) (id : Nat) (v w : Strand) : (s.putStrand id v).putStrand id w = s.putStrand id w := by
  simp only [State.putStrand, tput_tput]

/-- A strand receives flags and an operation of it ends, with its error if it has one. -/
theorem flagsDone_puts {s : State} {id n : Nat} {u : Strand} (fl : FpFlags) (err : Option EngErr) (h : s.strand id = some u)
    (hm : u.marks = []) (hr : u.run ≠ .draining) (hb : ∀ p, u.op n = some p → p.bad = 0) :
    Puts s ((s.modStrand id fun st => (st.addFlags fl).modOp n fun p => { p with err := err }).completeOp id n) id
      ((u.addFlags fl).finishes n err s.waitLines) := by
  have k := (puts_putStrand s id (u.addFlags fl)).trans
    (engDone_puts (n := n) (err := err) (State.strand_putStrand_same s id (u.addFlags fl)) hm hr hb)
  unfold State.engDone at k
  rw [modStrand_some (State.strand_putStrand_same _ _ _), putStrand_putStrand] at k
  rw [modStrand_some h]
  exact k

/-- The head's captures end and it leaves the queue. -/
def State.leave (s : State) (d c : Nat) (o : MatOp) : State :=
  (s.letGo o).modCore d c fun x => { x with seq := x.seq.drop 1 }

theorem waitLines_leave (s : State) (d c : Nat) (o : MatOp) : (s.leave d c o).waitLines = s.waitLines :=
  (waitLines_modCore _ _ _ _).trans (waitLines_modCore _ _ _ _)

section
variable {s : State} {d c : Nat} {o : MatOp} {r : List MatOp} {st : Strand} (hseq : (s.core d c).seq = o :: r)
  (hst : s.strand o.strand = some st) (hs : o.started = true)
include hseq hst hs

theorem matComplete_err {e : Cause} (he : o.err = some e) : s.matComplete d c =
    ((s.leave d c o).modStrand o.strand fun st => (st.addFlags o.flags).modOp o.opId fun p => { p with
      err := some { path := 3, cause := e, pc := o.pc, va := 0, time := s.gtime } }).completeOp o.strand o.opId := by
  unfold State.matComplete
  simp only [hseq, hst, hs, he, Option.isNone_some, Bool.false_and, Bool.not_true, Bool.or_self, Bool.false_eq_true, if_false]
  rfl

theorem matComplete_ok (he : o.err = none) (hall : ∀ n kind sx x, o.kind = .mloop n kind sx x → x.steps ≤ o.step) {s1 : State}
    {fl : FpFlags} (hm : s.matEffect d c st o = (s1, fl)) : s.matComplete d c =
    ((s1.leave d c o).modStrand o.strand fun st => (st.addFlags fl).modOp o.opId fun p => { p with err := none }).completeOp
      o.strand o.opId := by
  unfold State.matComplete
  simp only [hseq, hst, hs, he, hm]
  rw [if_neg]
  · rfl
  · split
    · next n kind sx x e => simpa using hall n kind sx x e
    · simp

end

theorem matrixDone_says : MatrixDoneSays := by
  intro s d c o r st hseq hst hs hmk hrun hbad
  refine ⟨fun he hall s1 fl u hm hu humk hurun hubad => ⟨_, rfl, ?_⟩, fun e he => ⟨_, rfl, ?_⟩⟩
  · rw [matComplete_ok hseq hst hs he hall hm, ← waitLines_leave s1 d c o]
    exact flagsDone_puts fl none hu humk hurun hubad
  · rw [matComplete_err hseq hst hs he, ← waitLines_leave s d c o]
    exact flagsDone_puts o.flags _ hst hmk hrun hbad

/-! The effects of MBLD (R363) and of MRD to registers (R361, R362, R370). -/

theorem matEffect_mbld {s : State} {d c : Nat} {st : Strand} {o : MatOp} {dst src len : Nat} (hk : o.kind = .mbld dst src len) :
    s.matEffect d c st o =
      (s.modCore d c fun x => { x with bslice := cputs x.bslice dst (s.scrGets st src len) }, flagNone) := by
  unfold State.matEffect
  simp only [hk]

theorem mbld_says : MbldSays := by
  intro s d c st o dst src len hk hd hc
  refine ⟨_, matEffect_mbld hk, fun a => ?_⟩
  rw [core_modCore_same hd hc]
  dsimp only
  rw [cget_cputs, scrGets_length]
  split
  · next h =>
    rw [scrGets_eq_map, List.getD_eq_getElem _ _ (by rw [List.length_map, List.length_range]; omega), List.getElem_map,
      List.getElem_range]
  · rfl

/-- The register, thread and value of one entry that MRD reads, with the flags of its conversion. -/
def MatOp.mrdRead (o : MatOp) (q : Tile) (kind : Nat) (sx : Int) (fm row col dst w e th : Nat) : Nat × Nat × Nat × FpFlags :=
  (dst + 8 * (e / w) + e % w, th, mrdConv kind sx fm (FEnv.ofFmt o.fmt) (cget q.entries (tileIdx kind (row + th) (col + e))))

/-- The threads that execute element `e` of MRD (R76). -/
def MatOp.mrdMask (o : MatOp) (len e : Nat) : Mask := if len = 1 then o.mask else elemMask o.rs o.mask e

/-- All that MRD writes into registers, in order. -/
def MatOp.mrdReads (o : MatOp) (q : Tile) (kind : Nat) (sx : Int) (fm row col dst len w : Nat) :
    List (Nat × Nat × Nat × FpFlags) :=
  (List.range len).flatMap fun e => (threads (o.mrdMask len e)).map (o.mrdRead q kind sx fm row col dst w e)

theorem mem_mrdReads {o : MatOp} {q : Tile} {kind : Nat} {sx : Int} {fm row col dst len w : Nat} {x : Nat × Nat × Nat × FpFlags} :
    x ∈ o.mrdReads q kind sx fm row col dst len w ↔
      ∃ e < len, ∃ th, mHas (o.mrdMask len e) th = true ∧ o.mrdRead q kind sx fm row col dst w e th = x := by
  simp only [MatOp.mrdReads, List.mem_flatMap, List.mem_range, List.mem_map]
  refine exists_congr fun e => and_congr_right fun _ => exists_congr fun th => and_congr_left fun _ => ?_
  exact mem_mThreads

/-- One register of one thread receives a converted entry. -/
def Strand.mrdWrite (st : Strand) (x : Nat × Nat × Nat × FpFlags) : Strand := st.vset x.1 x.2.1 (BitVec.ofNat 32 x.2.2.1)

/-- The tile that `.free` frees (R361). -/
def State.freeTile (s : State) (d c n : Nat) (fr : Bool) : State :=
  if fr then s.modCore d c fun x => x.modTile n Tile.release else s

theorem strand_freeTile (s : State) (d c n i : Nat) (fr : Bool) : (s.freeTile d c n fr).strand i = s.strand i := by
  unfold State.freeTile
  split <;> rfl

theorem tile_freeTile {s : State} {d c n : Nat} (fr : Bool) (hd : d < s.dies.length) (hc : c < (s.die d).cores.length)
    (hn : n < (s.core d c).tiles.length) : nth Tile.free ((s.freeTile d c n fr).core d c).tiles n =
      { nth Tile.free (s.core d c).tiles n with held := if fr then none else (nth Tile.free (s.core d c).tiles n).held } := by
  unfold State.freeTile
  cases fr with
  | false => rfl
  | true =>
    rw [if_pos rfl, core_modCore_same hd hc]
    show nth Tile.free (modAt (s.core d c).tiles n Tile.release) n = _
    rw [nth_modAt, if_pos ⟨rfl, hn⟩]
    rfl

theorem matEffect_mrdReg {s : State} {d c : Nat} {st : Strand} {o : MatOp} {n kind fm row col dst len w : Nat} {sx : Int}
    {fr : Bool} (hk : o.kind = .mrdReg n kind sx fm row col dst len w fr) (hst : s.strand o.strand = some st) :
    s.matEffect d c st o = ((s.putStrand o.strand
      ((o.mrdReads (nth Tile.free (s.core d c).tiles n) kind sx fm row col dst len w).foldl Strand.mrdWrite st)).freeTile d c n fr,
      (o.mrdReads (nth Tile.free (s.core d c).tiles n) kind sx fm row col dst len w).foldl (fun a x => a ||| x.2.2.2)
        ((nth Tile.free (s.core d c).tiles n).marks kind)) := by
  unfold State.matEffect
  simp only [hk]
  rw [modStrand_some hst]
  rfl

theorem blockAt_lt {w e k : Nat} (h1 : 1 ≤ w) (h8 : w ≤ 8) (h : e < k) : blockAt w e < blockAt w k := by
  have hr := Nat.mod_lt e h1
  have hle := Nat.div_le_div_right (c := w) h.le
  have he := Nat.div_add_mod e w
  have hk := Nat.div_add_mod k w
  unfold blockAt
  obtain heq | hlt := hle.eq_or_lt
  · rw [heq] at he ⊢
    omega
  · omega

/-- No register of a thread is written twice. -/
theorem mrdReads_pairwise (o : MatOp) (q : Tile) (kind : Nat) (sx : Int) (fm row col dst len : Nat) {w : Nat} (h1 : 1 ≤ w)
    (h8 : w ≤ 8) : (o.mrdReads q kind sx fm row col dst len w).Pairwise
      fun x y => 16 * x.1 + x.2.1 ≠ 16 * y.1 + y.2.1 := by
  refine List.pairwise_flatMap.mpr ⟨fun e _ => ?_, ?_⟩
  · refine List.pairwise_map.mpr ((List.pairwise_lt_range.filter _).imp fun h => ?_)
    dsimp only [MatOp.mrdRead]
    omega
  · refine List.pairwise_lt_range.imp fun {e k} h x hx y hy => ?_
    obtain ⟨a, ha, rfl⟩ := List.mem_map.mp hx
    obtain ⟨b, hb, rfl⟩ := List.mem_map.mp hy
    have ha := mHas_lt (List.mem_filter.mp ha).2
    have hlt := blockAt_lt h1 h8 h
    unfold blockAt at hlt
    dsimp only [MatOp.mrdRead]
    omega

theorem vget_mrdWrite (st : Strand) (x : Nat × Nat × Nat × FpFlags) (a : Nat) :
    cget (st.mrdWrite x).v a = if a = 16 * x.1 + x.2.1 then BitVec.ofNat 32 x.2.2.1 else cget st.v a := cget_cput ..

theorem mrdReg_says : MrdRegSays := by
  intro s d c st o n kind sx fm row col dst len w fr hk hst h1 h8 m
  refine ⟨_, _, _, matEffect_mrdReg hk hst, (strand_freeTile ..).trans (State.strand_putStrand_same ..),
    fun e th he hth hin => ?_, fun k th hth hout => ?_, fun hd hc hn => tile_freeTile fr hd hc hn⟩
  · have hx := foldl_writes (fun q : Strand => cget q.v) Strand.mrdWrite (fun x => 16 * x.1 + x.2.1)
      (fun x _ => BitVec.ofNat 32 x.2.2.1) vget_mrdWrite _
      (mrdReads_pairwise o (nth Tile.free (s.core d c).tiles n) kind sx fm row col dst len h1 h8) st _
      (mem_mrdReads.mpr ⟨e, he, th, hin, rfl⟩)
    unfold blockAt
    rw [← Nat.add_assoc]
    exact hx
  · refine foldl_keeps (fun q : Strand => cget q.v) Strand.mrdWrite (fun x => 16 * x.1 + x.2.1)
      (fun x _ => BitVec.ofNat 32 x.2.2.1) vget_mrdWrite _ st _ fun x hx => ?_
    obtain ⟨e, he, a, hin, rfl⟩ := mem_mrdReads.mp hx
    have ha := mHas_lt hin
    intro heq
    dsimp only [MatOp.mrdRead] at heq
    obtain ⟨hke, rfl⟩ : k = dst + blockAt w e ∧ a = th := by
      unfold blockAt
      omega
    exact absurd hin (ne_true_of_eq_false (hout e he hke))

/-- Settles O37: the fragment that the collector keeps, the steps of a loop and its real-mode sums, the completion of the head,
and the effects of MRD to registers and of MBLD. -/
theorem matrixEffects : Obligations.MatrixEffects :=
  ⟨fragment_says, loopStep_says, realStep_says, matrixDone_says, mrdReg_says, mbld_says⟩

end Sys2Proof.Machine
end

section
/-! Per-thread instructions complete (O12), also in a turn that ends before an element of their block. -/

open Sys2Proof
namespace Sys2Proof.Machine

theorem vec_says : VecSays := by
  intro i r s id st h hp hr hin
  obtain ⟨u, hx, hu⟩ := exec_vec h hp (fun _ => hr) hin
  exact ⟨_, u, hx, hu, ends_finish _ _ _ _ _ _ _ _ (by rw [hu.rest]) hp.whole⟩

/-- A per-thread instruction that the checks of issue let go is executed by its row. -/
theorem exec_vecRow_go {i : Instr} {r : VecRow} (h : vecRow i = some r) {s : State} {x : Issued}
    (hi : issue i r.sp r.f noPre s = .go x) (hr : r.ready x.st = true) :
    exec i s = execVec i r.sp r.f r.len r.vd s := by
  unfold vecRow at h
  split at h
  case h_59 f =>
    cases h
    have hg : (x.adm != 0 && (bunpkHead x.st f 0).isNone) = false := by
      rw [Option.isNone_eq_false_iff.mpr hr, Bool.and_false]
    change execBunpk f s = _
    unfold execBunpk
    simp only [hi, hg, Bool.false_eq_true, if_false]
    rfl
  case h_108 => cases h
  all_goals
    cases h
    rfl

/-- For a block of several elements the threads are the same wherever in the block the strand stands. -/
theorem nowAdm_cutBefore (st : Strand) (n : Nat) {sp : OpSpec} {f : LFields} (h1 : elems sp f ≠ 1) :
    (st.cutBefore n).nowAdm sp f = st.nowAdm sp f := by
  unfold Strand.nowAdm
  rw [if_neg h1, if_neg h1]
  rfl

/-- The checks of issue do not depend on where in a block the turn ends. -/
theorem issue_cutBefore {i : Instr} {sp : OpSpec} {f : LFields} {s : State} {id : Nat} {st : Strand} (n : Nat)
    (hp : Passes i sp f noPre s id st) (h1 : elems sp f ≠ 1) :
    issue i sp f noPre (s.putStrand id (st.cutBefore n)) =
      .go { id := id, st := st.cutBefore n, adm := st.nowAdm sp f } := by
  have hcur : (s.putStrand id (st.cutBefore n)).cur = some id := hp.cur
  have hbusy : (((st.cutBefore n).usedRegs sp f (st.nowAdm sp f)).any fun r => (st.cutBefore n).outstanding.contains r) =
      false := by
    have h : ((st.usedRegs sp f (st.nowAdm sp f)).any fun r => st.outstanding.contains r) = false := by
      simpa using hp.free
    exact h
  have hpriv : (sp.priv && !(s.putStrand id (st.cutBefore n)).priv (st.cutBefore n).ctx) = false := by
    cases h : sp.priv with
    | false => rfl
    | true => exact congrArg not (hp.privilege h)
  have halloc : (st.cutBefore n).allocOk sp f = true := hp.allocated
  have hrole : sp.roleOk (st.cutBefore n).role = true := hp.role
  have hready : (s.putStrand id (st.cutBefore n)).score (st.cutBefore n).ctx = true →
      (st.cutBefore n).stallField sp f (st.nowAdm sp f) = none := hp.ready
  unfold issue
  simp only [hcur, State.strand_putStrand_same, beq_false_of_ne h1, Bool.and_false, Bool.false_eq_true, if_false,
    nowAdm_cutBefore st n h1, hp.encoding, hpriv, halloc, hp.apart, noPre, hrole, hbusy, Bool.not_true]
  by_cases hs : (s.putStrand id (st.cutBefore n)).score (st.cutBefore n).ctx = true
  · simp only [hs, if_true, hready hs]
  · simp only [hs, Bool.false_eq_true, if_false]

theorem cutAt_cutBefore (st : Strand) (n : Nat) : (st.cutBefore n).cutAt = some n := by
  unfold Strand.cutBefore Strand.cutAt
  cases st.resume <;> rfl

theorem keptNow_cutBefore (st : Strand) (n : Nat) : (st.cutBefore n).keptNow = st.keptNow := by
  unfold Strand.cutBefore Strand.keptNow
  cases st.resume <;> rfl

/-- Whether a row's header resolves, and its meaning, do not depend on where in the block the strand stands. -/
theorem vecRow_cutBefore {i : Instr} {r : VecRow} (h : vecRow i = some r) (st : Strand) (n : Nat) :
    r.ready (st.cutBefore n) = r.ready st ∧ r.vd (st.cutBefore n) = r.vd st := by
  unfold vecRow at h
  split at h
  case h_108 => cases h
  all_goals
    cases h
    exact ⟨rfl, rfl⟩

theorem part_says : PartSays := by
  intro i r s id st n h hp hr hu hlo hhi hin
  have h1 : elems r.sp r.f ≠ 1 := by omega
  obtain ⟨hready, hvd⟩ := vecRow_cutBefore h st n
  obtain ⟨hplain, hone⟩ := vecRow_plain h hp.encoding h1 st
  have hgo := issue_cutBefore n hp h1
  obtain ⟨u, hpass, hres⟩ := vecPass_result r.sp r.f (r.vd st) (st.cutBefore n) (st.nowAdm r.sp r.f) hin
    fun _ _ => apart_of_plain hplain hp.apart h1 hone
  have hkept : u.keptNow = st.keptNow := by
    rw [hres.rest]
    exact keptNow_cutBefore st n
  refine ⟨(s.putStrand id (st.cutBefore n)).putStrand id (u.atElem n), u, ?_, ?_, hres, ?_⟩
  · rw [exec_vecRow_go h hgo (hready.trans hr)]
    unfold execVec
    simp only [hgo, hvd, hpass]
    rw [finish_cut _ _ _ _ _ _ n (cutAt_cutBefore st n)]
  · exact (onlyStrand_putStrand _ _ _).trans (onlyStrand_putStrand _ _ _)
  · rw [State.strand_putStrand_same, Strand.atElem, hkept]

/-- Settles O12: the pass of `exec_vec`, and for a turn that ends inside a block the same pass up to its element. -/
theorem vectorResults : Obligations.VectorResults := ⟨vec_says, part_says⟩

end Sys2Proof.Machine
end

section
/-! The checks of issue (O11): INDEX is not raised at an instruction of one element that its strand resumes past that element. -/

open Sys2Proof
namespace Sys2Proof.Machine

/-- IADD v4 from v16 and, through index register 2, from v8 on; the window of x2 is empty at reset. -/
def indexedAdd : LFields :=
  { m3 := 0, h := 0, w := 0, c := 0, b := 16, a := 0xC2, d := 4, gn := 0, g6 := 0, y := 0, u := 0, s4 := 0, e := 0 }
def indexedRow : VecRow :=
  { sp := rowOf (.iadd indexedAdd), f := indexedAdd, len := 8, vd := fun _ => defIadd indexedAdd.m3.toNat }
/-- The placed strand at a boundary behind the only element of its instruction, every thread left. -/
def strandPastElement : Strand :=
  { placedStrand with resume := some { elem := 1, mask := 0xFFFF, kept := [], upto := none } }
def statePastElement : State := (State.reset.withFetchWord 64 0).putStrand 0 strandPastElement

/-- The instruction passes its checks there. -/
theorem passes_pastElement :
    Passes (.iadd indexedAdd) (rowOf (.iadd indexedAdd)) indexedAdd noPre statePastElement 0 strandPastElement where
  cur := rfl
  here := by decide +kernel
  whole := rfl
  encoding := by decide +kernel
  privilege := by decide +kernel
  allocated := by decide +kernel
  apart := by decide +kernel
  entry := rfl
  role := by decide +kernel
  ready := by decide +kernel
  free := by decide +kernel

/-- The machine goes on and the strand has no frame: no trap was taken. -/
def noFrameAfter (i : Instr) (s : State) (id : Nat) : Bool :=
  match exec i s with
  | .next t => (t.strand id).any fun st => st.frame.isNone
  | _ => false

theorem noFrameAfter_pastElement : noFrameAfter (.iadd indexedAdd) statePastElement 0 = true := by decide +kernel

/-- A strand that has trapped is in its handler. -/
theorem not_trapped_of_noFrame {i : Instr} {s t : State} {id : Nat} {st : Strand} {c : Cause} {n : Nat} {m : Mask}
    (hf : noFrameAfter i s id = true) (hx : exec i s = .next t) : ¬ Trapped s t id st c n m := by
  rintro ⟨-, w, fr, hw, -, -, -, -, -, -, hplain⟩
  have hframe : w.frame = some fr := congrArg Strand.frame hplain
  simp [noFrameAfter, hx, hw, hframe] at hf

/-- Refutes O11: in `IndexSays` the strand may stand behind the only element of its instruction (`resume.elem = 1`). The window
of x2 then refuses the operand of the lowest thread, but no thread executes, and the instruction ends without a trap. -/
theorem not_issueChecks : ¬ Obligations.IssueChecks := by
  rintro ⟨-, -, hindex⟩
  obtain ⟨t, hx, htrap⟩ := hindex _ indexedRow statePastElement 0 strandPastElement 2 rfl passes_pastElement rfl
    (by decide +kernel) (by decide +kernel) (by decide +kernel) ⟨rfl, by decide +kernel⟩ rfl
  exact not_trapped_of_noFrame noFrameAfter_pastElement hx htrap

end Sys2Proof.Machine
end

section
/-! Predicates, the numeric environment, the index windows and the parameter block (O21). -/

open Sys2Proof
namespace Sys2Proof.Machine

/-- A bit of a mask that a condition inverts. -/
theorem getLsbD_inverted (b : Bool) (x : Mask) (t : Nat) (ht : t < 16) :
    (if b then ~~~x else x).getLsbD t = (x.getLsbD t ^^ b) := by
  cases b <;> simp [ht]

/-- QAND, QOR and QXOR, by what their operation does to one bit. -/
theorem qLogic_bits {op : Mask → Mask → Mask} {val : Bool → Bool → Bool}
    (hop : ∀ (x y : Mask) t, (op x y).getLsbD t = val (x.getLsbD t) (y.getLsbD t)) (f : LFields) (st : Strand) (m : Mask) :
    BitsResult f.d.toNat m (fun t => val (st.qbit f 0 f.a.toNat t) (st.qbit f 1 f.b.toNat t) ^^ f.m3.getLsbD 2) st
      (qLogic op f st m) :=
  bits_qset _ _ _ _ _ fun t ht => by
    simp only [getLsbD_inverted _ _ _ ht, hop, Strand.qbit, mHas]

theorem stoq_bits (f : LFields) (st : Strand) (m : Mask) :
    BitsResult f.d.toNat m (fun t => (st.sval f.a.toNat).getLsbD t) st (stoqExec f st m) :=
  bits_qset _ _ _ _ _ fun t ht => by
    simp [ht]

theorem BitsResult.runCount {d : Nat} {m : Mask} {val : Nat → Bool} {st u : Strand} (h : BitsResult d m val st u) :
    u.runCount = st.runCount := by
  rw [h.rest]

theorem pred_says : OnceSays predRow := by
  intro i r s id st h hp _
  unfold predRow at h
  split at h
  case h_1 f =>
    cases h
    exact exec_once_rel hp rfl (fun _ => BitsResult.runCount) fun _ => qLogic_bits (fun _ _ _ => BitVec.getLsbD_and) f st _
  case h_2 f =>
    cases h
    exact exec_once_rel hp rfl (fun _ => BitsResult.runCount) fun _ => qLogic_bits (fun _ _ _ => BitVec.getLsbD_or) f st _
  case h_3 f =>
    cases h
    exact exec_once_rel hp rfl (fun _ => BitsResult.runCount) fun _ => qLogic_bits (fun _ _ _ => BitVec.getLsbD_xor) f st _
  case h_4 f =>
    cases h
    exact exec_once_rel hp rfl (fun _ => BitsResult.runCount) fun _ => stoq_bits f st _
  case h_5 f =>
    cases h
    exact once_becomes hp (qtos_eq f) rfl rfl
  case h_6 => cases h

theorem setfmt_eq (f : LFields) : (fun (st : Strand) (_ : Mask) => { st with fmt := setfmtVal f st }) = setfmtRef f := by
  funext st m
  simp only [setfmtVal, setfmtRef, setfmt_word, beq_iff_eq]

/-- XWIN's write of a window. -/
theorem xwin_window (f : LFields) (st : Strand) :
    windowRef f st { st with
      xbase := cput st.xbase f.d.toNat ((st.sval f.a.toNat).truncate 7),
      xsize := cput st.xsize f.d.toNat ((st.sval f.b.toNat).truncate 8) } := by
  refine ⟨?_, ?_, fun k hk => ⟨?_, ?_⟩, rfl⟩
  · simp only [cget_cput, if_true]
  · simp only [cget_cput, if_true]
  · simp only [cget_cput, if_neg hk]
  · simp only [cget_cput, if_neg hk]

/-- The parameter block's bytes as one number, and its bytes again. -/
def State.sldkValue (s : State) (st : Strand) (f : LFields) : DWord :=
  BitVec.ofNat 64 (leVal ((List.range (sldkBytes f)).map fun j =>
    nth 0 ((s.kernelOf st).elim [] Kernel.params) (st.sldkOffset f + j)))

theorem sldk_ref (f : LFields) (s : State) (st : Strand) : sldkRef f s st (scalarOut f (s.sldkValue st f) st) := by
  refine ⟨s.sldkValue st f, fun j hj => ?_, outOf_word f _ st⟩
  have h8 : sldkBytes f ≤ 8 := by
    unfold sldkBytes
    split <;> decide
  rw [State.sldkValue, leVal_byte _ j (by simpa using h8) (by simpa using hj)]
  simp

/-- SLDK that passes its checks, where its offset is aligned for the threads that execute. -/
theorem exec_sldk {f : LFields} {s : State} {id : Nat} {st : Strand} (hp : Passes (.sldk f) (rowOf (.sldk f)) f noPre s id st)
    (ha : st.nowAdm (rowOf (.sldk f)) f ≠ 0 → st.sldkOffset f % sldkBytes f = 0) :
    exec (.sldk f) s = .next (s.finish { id := id, st := st, adm := st.nowAdm (rowOf (.sldk f)) f } (rowOf (.sldk f)) f 8
      (if st.nowAdm (rowOf (.sldk f)) f = 0 then st else scalarOut f (s.sldkValue st f) st)) := by
  have hn : (if (f.m3 == 7) = true then 8 else 4) = sldkBytes f := by simp only [sldkBytes, beq_iff_eq]
  change execSldk f s = _
  unfold execSldk
  simp only [issue_go hp, hn]
  by_cases h0 : st.nowAdm (rowOf (.sldk f)) f = 0
  · rw [if_pos h0, if_pos h0]
  · rw [if_neg h0, if_neg h0]
    refine (if_neg (not_not_intro (ha h0))).trans ?_
    unfold State.sldkValue
    cases s.kernelOf st <;> rfl

theorem env_says : OnceSays envRow := by
  intro i r s id st h hp hok
  unfold envRow at h
  split at h
  case h_1 f =>
    cases h
    exact once_becomes hp (setfmt_eq f) rfl rfl
  case h_2 f =>
    cases h
    exact once_becomes hp (getfmt_eq f) rfl rfl
  case h_3 f =>
    cases h
    exact exec_once_rel hp rfl (fun u hu => by rw [hu.2.2.2]) fun _ => xwin_window f st
  case h_4 f =>
    cases h
    exact exec_xset hp
  case h_5 f =>
    cases h
    refine ⟨_, _, exec_sldk hp hok, fun h0 => if_pos h0, fun h0 => ?_, ends_finish _ _ _ _ _ _ _ _ ?_ hp.whole⟩
    · rw [if_neg h0]
      exact sldk_ref f s st
    · split
      · rfl
      · exact runCount_scalarOut _ _ _
  case h_6 => cases h

/-- Settles O21: each instruction's meaning is the effect of its row, bit by bit for the predicates and byte by byte for SLDK. -/
theorem predicateAndEnvironment : Obligations.PredicateAndEnvironment := ⟨pred_says, env_says⟩

end Sys2Proof.Machine
end

section
/-! Special registers and the return from a trap (O23). -/

open Sys2Proof
namespace Sys2Proof.Machine

theorem slotGroup_eq (s : State) (st : Strand) (slot : Nat) : s.slotGroup st slot = groupRef s st slot := by
  unfold State.slotGroup groupRef
  cases nth none st.slots slot <;> rfl

/-- Each special register as the current strand reads it. -/
theorem srVal_eq {s : State} {id : Nat} (hc : s.cur = some id) (st : Strand) (n slot t : Nat) :
    s.srVal id st n slot t = srRef s st n slot t := by
  unfold srRef
  rw [hc, ← slotGroup_eq]
  match n with
  | 0 | 1 | 2 | 3 | 4 | 5 | 6 | 7 | 10 | 11 | 12 | 13 | 14 | 15 => rfl
  | 8 =>
    unfold State.srVal
    cases s.slotGroup st slot <;> rfl
  | 9 =>
    unfold State.srVal
    cases s.slotGroup st slot <;> rfl
  | _ + 16 => rfl

/-- The words that RDSR gives: a pair for the registers of 64 bits. -/
theorem take_words64 (x : DWord) (n : Nat) :
    (words64 x).take (srRegs n) = if 10 ≤ n ∧ n ≤ 13 then [x.truncate 32, x.extractLsb' 32 32] else [x.truncate 32] := by
  unfold srRegs
  split
  · rfl
  · rfl

theorem runCount_sputs (st : Strand) (n : Nat) (ws : List Word) : (st.sputs n ws).runCount = st.runCount := by
  unfold Strand.sputs
  generalize ws.zipIdx = l
  induction l generalizing st with
  | nil => rfl
  | cons a l ih => exact (ih _).trans (runCount_sset _ _ _)

theorem runCount_putDest (st : Strand) (x : Nat) (m : Mask) (ws : Nat → List Word) :
    (st.putDest x m ws).runCount = st.runCount := by
  unfold Strand.putDest
  split
  · obtain ⟨-, -, -, h⟩ := eachThread_ind m (fun t st => st.vputs x t (ws t)) st (fun _ u => u.runCount = st.runCount) rfl
      fun _ _ _ _ _ _ h => (runCount_vputs _ _ _ _).trans h
    exact h
  · exact runCount_sputs _ _ _

theorem rdsr_says {f : LFields} {s : State} {id : Nat} {st : Strand} (hp : Passes (.rdsr f) (rowOf (.rdsr f)) f noPre s id st) :
    ∃ t u, exec (.rdsr f) s = .next t ∧ (st.nowAdm (rowOf (.rdsr f)) f = 0 → u = st) ∧
      (st.nowAdm (rowOf (.rdsr f)) f ≠ 0 → u = st.putDest f.d.toNat (st.nowAdm (rowOf (.rdsr f)) f) fun t =>
        let n := (f.c ++ f.b).toNat
        let x := srRef s st n f.a.toNat t
        if 10 ≤ n ∧ n ≤ 13 then [x.truncate 32, x.extractLsb' 32 32] else [x.truncate 32]) ∧
      Ends s t id st u 8 none (f.e == 1) false := by
  have hx : exec (.rdsr f) s = .next (s.finish { id := id, st := st, adm := st.nowAdm (rowOf (.rdsr f)) f } (rowOf (.rdsr f)) f 8
      (if st.nowAdm (rowOf (.rdsr f)) f = 0 then st else st.putDest f.d.toNat (st.nowAdm (rowOf (.rdsr f)) f) fun t =>
        (words64 (s.srVal id st (imm16 f).toNat f.a.toNat t)).take (srRegs (imm16 f).toNat))) := by
    change execRdsr f s = _
    unfold execRdsr
    simp only [issue_go hp]
  refine ⟨_, _, hx, fun h0 => if_pos h0, fun h0 => ?_, ends_finish _ _ _ _ _ _ _ _ ?_ hp.whole⟩
  · rw [if_neg h0]
    simp only [srVal_eq hp.cur, take_words64, imm16]
  · split
    · rfl
    · exact runCount_putDest _ _ _ _

theorem runCount_wrsrExec (f : LFields) (st : Strand) : (wrsrExec f st).runCount = st.runCount := by
  unfold wrsrExec
  split <;> rfl

theorem runCount_tmsetExec (f : LFields) (st : Strand) : (tmsetExec f st).runCount = st.runCount := by
  unfold tmsetExec
  split <;> rfl

theorem wrsr_effect (f : LFields) (st : Strand) :
    let n := (f.c ++ f.b).toNat
    (n = 13 → wrsrExec f st = { st with epc := st.sval64 f.a.toNat }) ∧
      (n = 14 → wrsrExec f st = { st with emask := st.sval f.a.toNat &&& 0xFFFF }) ∧
      (n = 15 → wrsrExec f st = { st with cause := st.sval f.a.toNat &&& 0xF0FFFFFF }) ∧
      (n = 16 → wrsrExec f st = { st with sts := st.sts &&& ~~~st.sval f.a.toNat }) := by
  simp only
  unfold wrsrExec imm16
  refine ⟨?_, ?_, ?_, ?_⟩
  all_goals
    intro hn
    simp only [hn]

theorem tmset_effect (f : LFields) (st : Strand) :
    (f.m3 = 0 → tmsetExec f st = { st with tcmp := st.sval64 f.a.toNat, tarmed := true }) ∧
      (f.m3 = 1 → tmsetExec f st = { st with tcmp := st.tmr + st.sval64 f.a.toNat, tarmed := true }) ∧
      (f.m3 = 2 → tmsetExec f st = { st with tarmed := false }) := by
  unfold tmsetExec
  refine ⟨?_, ?_, ?_⟩
  all_goals
    intro hm
    rw [hm]
    rfl

theorem sys_says : OnceSays sysRow := by
  intro i r s id st h hp _
  unfold sysRow at h
  split at h
  case h_1 f =>
    cases h
    exact rdsr_says hp
  case h_2 f =>
    cases h
    exact exec_once_says hp rfl (runCount_wrsrExec f st) fun _ => wrsr_effect f st
  case h_3 f =>
    cases h
    exact exec_once_says hp rfl (runCount_tmsetExec f st) fun _ => tmset_effect f st
  case h_4 => cases h

/-- Where TRET leaves the strand: at the boundary of the trap, or at the SR_EPC that the handler has written. -/
theorem tret_eq (st : Strand) (fr : Frame) : st.tret fr =
    if st.epc = fr.epc0 then { st.allReady with
        rpc := fr.rpc, rpcv := fr.rpcv, frame := none, pc := fr.epc0,
        resume := some { elem := (fr.resume.map (·.elem)).getD 0, mask := st.emask.truncate 16 &&& fr.emask0,
                         kept := (fr.resume.map (·.kept)).getD [], upto := none } }
    else { st.allReady with rpc := fr.rpc, rpcv := fr.rpcv, frame := none, pc := st.epc, resume := none } := by
  unfold Strand.tret
  cases fr.resume <;> rfl

theorem tret_says : TretSays := by
  intro f s id st fr hp h0 hfr hw ha
  have hgood : badTarget st.epc = none := badTarget_good ⟨hw, ha⟩
  have hx : exec (.tret f) s = .next (s.retireWith id st
      { doneOf (rowOf (.tret f)) f 8 [] with xfer := jump st.epc false } fun st => st.tret fr) := by
    change execTret f s = _
    unfold execTret
    simp only [issue_go hp, hfr, if_neg h0, hgood]
  refine ⟨_, hx, stands_retireWith s id st st _ _ _ rfl ?_ ?_ ?_⟩
  · exact congrArg Strand.plain (tret_eq st fr)
  · split <;> rfl
  · split <;> rfl

/-- Settles O23: RDSR by its table of special registers, WRSR and TMSET by their selectors, TRET by its jump. -/
theorem specialRegisters : Obligations.SpecialRegisters := ⟨sys_says, tret_says⟩

end Sys2Proof.Machine
end

section
/-! Branches, calls and divergences, with their W-B forms (O24). -/

open Sys2Proof
namespace Sys2Proof.Machine

theorem yield_stands {i : Instr} {f : LFields} {sp : OpSpec} {len : Nat} {s : State} {id : Nat} {st : Strand}
    (hp : Passes i sp f noPre s id st) : ∃ t, yieldExec i sp f len s = .next t ∧
      Stands s t id st (if st.nowAdm sp f = 0 then st.advance len none else st.advance len none) (f.e == 1) true := by
  rw [ite_self]
  exact yield_goes hp

/-- Settles O24: a `_goes` lemma for each instruction; a W-B form shares that of its L instruction. -/
theorem controlFlow : Obligations.ControlFlow := by
  intro i r s id st h hp hok
  unfold controlRow at h
  split at h
  case h_1 f =>
    cases h
    exact bra_goes hp
  case h_2 f =>
    cases h
    exact rcv_goes hp
  case h_3 f =>
    cases h
    exact div_goes hp hok
  case h_4 f =>
    cases h
    exact call_goes hp
  case h_5 f =>
    cases h
    exact loop_goes hp
  case h_6 f =>
    cases h
    exact brx_goes hp hok
  case h_7 f =>
    cases h
    exact ret_goes hp hok
  case h_8 f =>
    cases h
    simp only [ite_self]
    exact nop_goes hp
  case h_9 f =>
    cases h
    exact yield_stands hp
  case h_10 r =>
    cases h
    exact bra_goes hp
  case h_11 r =>
    cases h
    exact rcv_goes hp
  case h_12 r =>
    cases h
    exact div_goes hp hok
  case h_13 r =>
    cases h
    exact call_goes hp
  case h_14 r =>
    cases h
    exact loop_goes hp
  case h_15 =>
    cases h
    exact yield_stands hp
  case h_16 => cases h

end Sys2Proof.Machine
end

section
/-! EXIT, TRAP, BKPT, HALT, and encodings that are none (O27). -/

open Sys2Proof
namespace Sys2Proof.Machine

/-- The threads of an EXIT leave, and the strand stands behind it. -/
def State.exited (s : State) (id : Nat) (st : Strand) (m : Mask) (sp : OpSpec) (f : LFields) (len : Nat) : State :=
  s.retire id (st.without m) { doneOf sp f len [] with ends := true }

theorem exited_stands (s : State) (id : Nat) (st : Strand) (m : Mask) (sp : OpSpec) (f : LFields) (len : Nat) :
    Stands s (s.exited id st m sp f len) id st ((st.without m).advance len none) (f.e == 1) true :=
  stands_of_ends (ends_retire s id st (st.without m) { doneOf sp f len [] with ends := true } rfl)

theorem exit_goes {i : Instr} {f : LFields} {sp : OpSpec} {len : Nat} {s : State} {id : Nat} {st w : Strand}
    (hp : Passes i sp f noPre s id st) (hw : (s.exited id st (st.nowAdm sp f) sp f len).strand id = some w) :
    exitExec i sp f len s = .next (if w.mask = 0 then (s.exited id st (st.nowAdm sp f) sp f len).drain id
      else s.exited id st (st.nowAdm sp f) sp f len) := by
  have hr : (s.retire id { st with
      mask := st.mask &&& ~~~st.nowAdm sp f, stack := st.stack.map (·.remove (st.nowAdm sp f)) }
      { doneOf sp f len [] with ends := true }).strand id = some w := hw
  unfold exitExec
  simp only [issue_go hp, hr]
  split
  · rfl
  · rfl

/-- What EXIT leaves, of either form. -/
theorem exit_leaves {i : Instr} {f : LFields} {sp : OpSpec} {len : Nat} {s : State} {id : Nat} {st : Strand}
    (hp : Passes i sp f noPre s id st) :
    ∃ t w, exitExec i sp f len s = .next t ∧
      let v := (st.without (st.nowAdm sp f)).advance len none
      w.plain = ({ v with sts := st.endSts (f.e == 1) true v.sts } : Strand).plain ∧
      ((s.settle w).mask ≠ 0 → OnlyStrand s t id ∧ t.strand id = some (s.settle w) ∧ w.run = .ready) ∧
      ((s.settle w).mask = 0 → ∃ g, t.strand id = some g ∧ Gone (s.settle w) g ∧
        (st.engErrs = [] → ∀ d c a, t.coreGet d c a = s.coreGet d c a) ∧ ∀ j, j ≠ id → t.strand j = s.strand j) := by
  obtain ⟨honly, w, hw, hplain, hrun⟩ := exited_stands s id st (st.nowAdm sp f) sp f len
  refine ⟨_, w, exit_goes hp hw, hplain, fun hm => ?_, fun hm => ?_⟩
  · rw [if_neg hm]
    exact ⟨honly, hw, hrun.trans (if_pos (Bool.or_true _))⟩
  · rw [if_pos hm]
    obtain ⟨⟨g, hg, hgone⟩, hothers, hview⟩ := drain_gone _ id _ hw hm
    have herr : (s.settle w).engErrs = st.engErrs := by
      have hwe : w.engErrs = st.engErrs :=
        (congrArg Strand.engErrs hplain).trans (advance_engErrs (st.without (st.nowAdm sp f)) len none)
      rw [settle_path s w]
      exact hwe
    exact ⟨g, hg, hgone, fun he d c a => (hview (herr.trans he) d c a).trans (honly.view d c a),
      fun j hj => (hothers j hj).trans (honly.strands j hj)⟩

theorem exit_says : ExitSays := by
  intro i f len s id st h hp
  unfold exitRow at h
  split at h
  · cases h
    exact exit_leaves hp
  · cases h
    exact exit_leaves hp
  · cases h

theorem trap_says {mk : LFields → Instr} {c : Cause} (he : ∀ f s, exec (mk f) s = trapExec (mk f) c f s) : TrapSays mk c := by
  intro f s id st hp h0 hc
  refine ⟨_, ?_, trapped_takeTrap hc⟩
  rw [he]
  unfold trapExec
  rw [issue_go hp]
  exact if_neg h0

theorem illegal_says : IllegalSays := by
  intro s id st hcur hst hc
  refine ⟨_, ?_, trapped_takeTrap hc⟩
  change execEncodingNotAnInstruction s = _
  unfold execEncodingNotAnInstruction
  simp only [hcur, hst]
  cases st.resume with
  | none => exact congrArg (fun m => Host.Outcome.next (s.trapAtIssue id st .illop 0 m)) BitVec.and_allOnes.symm
  | some r => rfl

theorem nested_says : NestedSays := by
  intro s id st c detail m _ h
  unfold State.trapAtIssue State.takeTrap
  exact if_pos h

theorem halt_says : HaltSays := by
  intro s id st hp h0
  have hx : exec .halt s = if s.boot.dbg then
        .next (s.enterWait { id := id, st := st, adm := st.nowAdm specHalt (bareFields s.curIr) } st specHalt (bareFields s.curIr) 8 .halt)
      else .next (s.trapAtIssue id st .bkpt 0xFFFF (st.nowAdm specHalt (bareFields s.curIr))) := by
    change execHalt s = _
    unfold execHalt
    simp only [issue_go hp]
    exact if_neg h0
  refine ⟨fun hd => ⟨_, hx.trans (if_pos hd), waits_enter _ _ _ _ _ _ _ _⟩, fun hd hc =>
    ⟨_, hx.trans (if_neg ?_), trapped_takeTrap hc⟩⟩
  rw [hd]
  exact Bool.false_ne_true

theorem tapResume_says : TapResumeSays := by
  intro s id st len hst hrun
  have hx : exec (.tapResume id) s = .next (if s.boot.dbg then s.wakeAt id st len else s) := by
    change execTapResume id s = _
    unfold execTapResume
    simp only [hst, hrun]
  refine ⟨fun hd => ⟨s.wakeAt id st len, ?_, puts_putStrand _ _ _⟩, fun hd => ?_⟩
  · rw [hx, hd]
    rfl
  · rw [hx, hd]
    rfl

/-- Settles O27: EXIT retires and drains, and every other entry takes the trap of `trapped_takeTrap` or waits. -/
theorem exitAndTraps : Obligations.ExitAndTraps :=
  ⟨exit_says, trap_says fun _ _ => rfl, trap_says fun _ _ => rfl, illegal_says, nested_says, halt_says, tapResume_says⟩

end Sys2Proof.Machine
end

section
/-! The timer, pending traps and the spin detector's timeout (O28). -/

open Sys2Proof
namespace Sys2Proof.Machine

/-- The condition under which TIMER becomes pending (R269). -/
def Strand.timerReady (st : Strand) : Bool :=
  st.resident && st.tarmed && decide (st.tcmp.toNat ≤ st.tmr.toNat) && st.frame.isNone && st.run != .faulted && st.run != .draining

/-- A strand that waited is Ready, any other goes on as it was. -/
def RunState.woken : RunState → RunState
  | .waiting _ _ => .ready
  | r => r

/-- The strand once its timer has come. -/
def Strand.timed (st : Strand) : Strand :=
  { st with
    tarmed := false, run := st.run.woken,
    pend := st.pend ++ [{ info := { cause := .timer, epc := st.pc, emask := st.mask, detail := 0, eng := none },
                          reissue := false, op := 0 }] }

theorem exec_timerExpiry {s : State} {id : Nat} {st : Strand} (h : s.strand id = some st) :
    exec (.timerExpiry id) s = .next (if st.timerReady then s.putStrand id st.timed else s) := by
  change Host.Outcome.next (s.timerDue id) = _
  unfold State.timerDue
  simp only [h]
  rfl

theorem timer_says : TimerSays := by
  intro s id st h
  refine ⟨fun hres harm hdue hframe hfault hdrain => ?_, fun hnot => ?_⟩
  · have hready : st.timerReady = true := by
      simp [Strand.timerReady, hres, harm, hdue, hframe, hfault, hdrain]
    refine ⟨_, st.timed, _, (exec_timerExpiry h).trans (by rw [if_pos hready]), puts_putStrand _ _ _, rfl, rfl, rfl, rfl, ?_, ?_⟩
    · rintro ⟨wt, len, hw⟩
      simp only [Strand.timed, hw, RunState.woken]
    · intro hw
      unfold Strand.timed RunState.woken
      cases hr : st.run with
      | waiting wt len => exact absurd hr (hw wt len)
      | _ => rfl
  · have hready : st.timerReady = false := by
      unfold Strand.timerReady
      rcases hnot with ha | hd
      · simp [ha]
      · simp [Nat.not_le.mpr hd]
    rw [exec_timerExpiry h, hready]
    rfl

/-- The boundary at which the strand stands (R76). -/
def Strand.boundary (st : Strand) : Resume := match st.resume with
  | some r => r
  | none => { elem := 0, mask := 0xFFFF, kept := [], upto := none }

theorem boundary_mask (st : Strand) : st.boundary.mask = (st.resume.map (·.mask)).getD 0xFFFF := by
  unfold Strand.boundary
  cases st.resume <;> rfl

/-- What a pending trap writes when it is taken: SCMERGE and a re-issued load what was pending, any other the boundary. -/
def Strand.pendInfo (st : Strand) (p : Pend) : TrapInfo :=
  match p.info.cause with
  | .scmerge => p.info
  | _ => if p.reissue then p.info else { p.info with epc := st.pc, emask := st.mask &&& st.boundary.mask }

/-- Where the handler of a pending trap returns to. -/
def Strand.pendBack (st : Strand) (p : Pend) : Resume :=
  if p.reissue then
    { elem := 0, mask := p.info.emask, kept := (st.pc, st.boundary.elem, st.boundary.mask) :: st.boundary.kept, upto := none }
  else st.boundary

theorem takePend_eq {s : State} {id : Nat} {st : Strand} {p : Pend} (h : s.strand id = some st) (hp : st.firstPend = some p) :
    s.takePend id = s.takeTrap s id { st with pend := st.pend.erase p } (st.pendInfo p) (some (st.pendBack p)) := by
  unfold State.takePend
  simp only [h, hp]
  rfl

theorem pendInfo_cause (st : Strand) (p : Pend) : (st.pendInfo p).cause = p.info.cause ∧
    (st.pendInfo p).detail = p.info.detail ∧ (st.pendInfo p).eng = p.info.eng := by
  unfold Strand.pendInfo
  split
  · exact ⟨rfl, rfl, rfl⟩
  · split <;> exact ⟨rfl, rfl, rfl⟩

theorem pendInfo_reissue (st : Strand) {p : Pend} (h : p.reissue = true) : st.pendInfo p = p.info := by
  unfold Strand.pendInfo
  split
  · rfl
  · exact if_pos h

theorem pendInfo_boundary (st : Strand) {p : Pend} (h : p.reissue = false) (hc : p.info.cause ≠ .scmerge) :
    st.pendInfo p = { p.info with epc := st.pc, emask := st.mask &&& st.boundary.mask } := by
  unfold Strand.pendInfo
  split
  · next he => exact absurd he hc
  · rw [h]
    rfl

/-- The strand in its handler, with the trap's registers and the frame to return through (R275). -/
def Strand.handling (st : Strand) (t : TrapInfo) (rs : Option Resume) (vec : DWord) : Strand :=
  { st with
    epc := t.epc, emask := t.emask.zeroExtend 32, cause := causeWord t.cause t.detail t.eng,
    frame := some { epc0 := t.epc, emask0 := t.emask, depth := st.stack.length, rpc := st.rpc, rpcv := st.rpcv, resume := rs,
                    firstOp := st.nextOp },
    rpcv := false, pc := evenPc vec, resume := none, runCount := 0, spin := st.spin.leave, run := .running,
    hold := none, stalled := false }

theorem takeTrap_eq {s : State} {id : Nat} {st : Strand} (hc : st.canTrap s) (t : TrapInfo) (rs : Option Resume) :
    s.takeTrap s id st t rs = s.putStrand id (st.handling t rs (s.ctx st.ctx).tvec) := by
  obtain ⟨hframe, hvec⟩ := hc
  unfold State.takeTrap
  refine if_neg ?_
  rintro (h | h)
  · rw [hframe] at h
    exact absurd h (by decide)
  · exact hvec h

theorem exec_asyncTrapTake {s : State} {id : Nat} {st : Strand} (h : s.strand id = some st) (hrun : st.run = .running)
    (hres : st.resident = true) (hstop : st.stop = false) : exec (.asyncTrapTake id) s = .next (s.takePend id) := by
  change execAsyncTrapTake id s = _
  unfold execAsyncTrapTake Strand.atBoundary
  simp only [h, hrun, hres, hstop, beq_self_eq_true, Bool.not_false, Bool.and_self, Bool.true_or, if_true]

theorem asyncTrap_says : AsyncTrapSays := by
  intro s id st p h hrun hres hstop hc hp heng
  obtain ⟨hcause, hdetail, heng'⟩ := pendInfo_cause st p
  have hx : exec (.asyncTrapTake id) s = .next (s.putStrand id
      (({ st with pend := st.pend.erase p } : Strand).handling (st.pendInfo p) (some (st.pendBack p)) (s.ctx st.ctx).tvec)) := by
    rw [exec_asyncTrapTake h hrun hres hstop, takePend_eq h hp]
    exact congrArg Host.Outcome.next (takeTrap_eq (st := { st with pend := st.pend.erase p }) hc _ _)
  refine ⟨_, _, _, hx,
    onlyStrand_putStrand _ _ _, State.strand_putStrand_same _ _ _, rfl, rfl, ?_, rfl, rfl, rfl, rfl, rfl, rfl, rfl, rfl, rfl, rfl,
    rfl, fun hr => ?_, fun hr hne => ?_⟩
  · change causeWord (st.pendInfo p).cause (st.pendInfo p).detail (st.pendInfo p).eng = _
    rw [hcause, hdetail, heng', heng]
    exact causeWord_ref _ _
  · rw [pendInfo_reissue st hr]
    exact ⟨rfl, rfl⟩
  · rw [pendInfo_boundary st hr hne, boundary_mask]
    exact ⟨rfl, rfl⟩

theorem exec_spinDemotionTimeout {s : State} {id : Nat} {st : Strand} (h : s.strand id = some st) :
    exec (.spinDemotionTimeout id) s =
      if st.resident && st.spin.demoted && decide (st.spin.since + 4096 ≤ (s.die st.d).clk) then
        .next (s.putStrand id { st with spin := Spin.empty })
      else .next s := by
  change execSpinDemotionTimeout id s = _
  unfold execSpinDemotionTimeout
  simp only [h]

theorem spin_says : SpinSays := by
  intro s id st h
  refine ⟨fun hres hdem hclk => ⟨_, (exec_spinDemotionTimeout h).trans (if_pos ?_), puts_putStrand _ _ _⟩,
    fun hnot => (exec_spinDemotionTimeout h).trans (if_neg ?_)⟩
  · simp [hres, hdem, hclk]
  · rcases hnot with hd | hclk
    · simp [hd]
    · simp [Nat.not_le.mpr hclk]

/-- Settles O28: the timer's condition, the trap that the boundary takes first, and the detector's timeout, each by its event. -/
theorem asynchronousTraps : Obligations.AsynchronousTraps := ⟨timer_says, asyncTrap_says, spin_says⟩

end Sys2Proof.Machine
end

section
/-! Global accesses issue (O29). -/

open Sys2Proof
namespace Sys2Proof.Machine

/-- With no thread admitted, an access that passes its checks only moves its strand on. -/
theorem issueAcc_zero (s : State) (x : Issued) (sp : OpSpec) (f : LFields) (len path kind : Nat) (k : OpKind)
    (form : Strand → Nat → State → State × Except MStop Acc) (spread : Strand → List Acc → Except MStop (List Acc))
    (dests : List Acc → List Nat) (commits : List Acc → Bool) (h : x.adm = 0) :
    s.issueAcc x sp f len path kind k form spread dests commits = .next (s.finish x sp f len x.st) :=
  if_pos h

/-- A size or type code that an instruction's row accepts is not 7. -/
theorem m3_ne_seven {i : Instr} {f : LFields} {sp : OpSpec} (hs : specOf i = some sp) (h : lOk i f = true) (e : sp.m3 = 0x7F) :
    f.m3 ≠ 7 := by
  unfold lOk at h
  rw [hs] at h
  exact m3_size h e

/-- SUMRD to a scalar is issued as if U were set; with no thread admitted its strand only moves on. -/
theorem sumrd_zero {f : LFields} {s : State} {id : Nat} {st : Strand}
    (hp : Passes (.sumrd f) (rowOf (.sumrd f)) f noPre s id st) (h0 : st.nowAdm (rowOf (.sumrd f)) f = 0) :
    ∃ t, exec (.sumrd f) s = .next t ∧ Ends s t id st st 8 none (f.e == 1) false := by
  have hx : exec (.sumrd f) s = .next (s.finish { id := id, st := st, adm := st.nowAdm (rowOf (.sumrd f)) f } (rowOf (.sumrd f))
      (if decide (128 ≤ f.d.toNat) = true then { f with u := 1 } else f) 8 st) := by
    change execSumrd f s = _
    unfold execSumrd
    simp only [issue_go hp]
    exact issueAcc_zero _ _ _ _ _ _ _ _ _ _ _ _ h0
  have h := ends_finish s id st st (st.nowAdm (rowOf (.sumrd f)) f) (rowOf (.sumrd f))
    (if decide (128 ≤ f.d.toNat) = true then { f with u := 1 } else f) 8 rfl hp.whole
  have he : (if decide (128 ≤ f.d.toNat) = true then { f with u := 1 } else f).e = f.e := by
    split
    · rfl
    · rfl
  rw [he] at h
  exact ⟨_, hx, h⟩

/-- Settles O29: the scan of the threads forms each access, and the operation is posted. -/
theorem globalAccesses : Obligations.GlobalAccesses := by
  intro i r s id st h hp
  unfold accRow at h
  split at h
  case h_1 f =>
    cases h
    exact ⟨access_zero hp rfl fun x hx => issueAcc_zero _ _ _ _ _ _ _ _ _ _ _ _ hx,
      ld_says rfl (m3_ne_seven (i := .ld f) rfl hp.encoding rfl) hp⟩
  case h_2 f =>
    cases h
    exact ⟨access_zero hp rfl fun x hx => issueAcc_zero _ _ _ _ _ _ _ _ _ _ _ _ hx,
      st_says rfl (m3_ne_seven (i := .st f) rfl hp.encoding rfl) hp⟩
  case h_3 f =>
    cases h
    exact ⟨access_zero hp rfl fun x hx => issueAcc_zero _ _ _ _ _ _ _ _ _ _ _ _ hx,
      atom_says hp⟩
  case h_4 f =>
    cases h
    exact ⟨access_zero hp rfl fun x hx => issueAcc_zero _ _ _ _ _ _ _ _ _ _ _ _ hx,
      sumx_says hp⟩
  case h_5 f =>
    cases h
    exact ⟨sumrd_zero hp, sumrd_says hp⟩
  case h_6 f =>
    cases h
    exact ⟨access_zero hp rfl fun x hx => issueAcc_zero _ _ _ _ _ _ _ _ _ _ _ _ hx,
      sumclr_says hp⟩
  case h_7 w =>
    cases h
    exact ⟨access_zero hp rfl fun x hx => issueAcc_zero _ _ _ _ _ _ _ _ _ _ _ _ hx,
      ld_says rfl (by decide : (4 : BitVec 3) ≠ 7) hp⟩
  case h_8 w =>
    cases h
    exact ⟨access_zero hp rfl fun x hx => issueAcc_zero _ _ _ _ _ _ _ _ _ _ _ _ hx,
      st_says rfl (by decide : (4 : BitVec 3) ≠ 7) hp⟩
  case h_9 => cases h

end Sys2Proof.Machine
end

section
/-! PREF, WAITC and FENCE (O33). -/

open Sys2Proof
namespace Sys2Proof.Machine

/-! A step that only fills caches. -/

/-- No byte reads differently for any core, and nothing but the dies differs. -/
structure Unseen (s t : State) : Prop where
  view : SameView s t
  rest : { t with dies := [] } = { s with dies := [] }

theorem Unseen.refl (s : State) : Unseen s s := ⟨SameView.refl s, rfl⟩
theorem Unseen.trans {s t u : State} (h : Unseen s t) (k : Unseen t u) : Unseen s u :=
  ⟨h.view.trans k.view, k.rest.trans h.rest⟩
theorem Unseen.mem {s t : State} (h : Unseen s t) : t.mem = s.mem := by
  have h2 := congrArg State.mem h.rest
  exact h2
theorem Unseen.strands {s t : State} (h : Unseen s t) : t.strands = s.strands := by
  have h2 := congrArg State.strands h.rest
  exact h2
theorem Unseen.ctxs {s t : State} (h : Unseen s t) : t.ctxs = s.ctxs := by
  have h2 := congrArg State.ctxs h.rest
  exact h2
theorem Unseen.foldl {α : Type} (l : List α) (g : State → α → State) (hg : ∀ s x, Unseen s (g s x)) (s : State) :
    Unseen s (l.foldl g s) := by
  induction l generalizing s with
  | nil => exact Unseen.refl s
  | cons a l ih => exact (hg s a).trans (ih _)

theorem foldl_rest {α : Type} (l : List α) (g : State → α → State)
    (hg : ∀ s x, { g s x with dies := [] } = { s with dies := [] }) (s : State) :
    { l.foldl g s with dies := [] } = { s with dies := [] } := by
  induction l generalizing s with
  | nil => rfl
  | cons a l ih => exact (ih _).trans (hg s a)

theorem rest_fillByte (s : State) (d c a : Nat) : { s.fillByte d c a with dies := [] } = { s with dies := [] } := by
  unfold State.fillByte
  split
  · rfl
  · dsimp only
    split <;> rfl

theorem rest_fillSector (s : State) (d c pa : Nat) : { s.fillSector d c pa with dies := [] } = { s with dies := [] } := by
  unfold State.fillSector
  exact foldl_rest _ _ (fun s _ => rest_fillByte s d c _) s

theorem rest_fillSlice (s : State) (d pa hint : Nat) : { s.fillSlice d pa hint with dies := [] } = { s with dies := [] } := by
  unfold State.fillSlice
  split
  · rfl
  · refine foldl_rest _ _ (fun s i => ?_) s
    dsimp only
    split <;> rfl

theorem rest_marks (s : State) (d c line hint : Nat) :
    { (s.sliceUse d line hint).l1Use d c line hint with dies := [] } = { s with dies := [] } := rfl

theorem unseen_fillSlice (s : State) (d pa hint : Nat) : Unseen s (s.fillSlice d pa hint) :=
  ⟨view_fillSlice s d pa hint, rest_fillSlice s d pa hint⟩

theorem unseen_touch (s : State) (d c pa hint : Nat) : Unseen s (s.touch d c pa hint) := by
  refine ⟨view_touch s d c pa hint, ?_⟩
  unfold State.touch
  split
  · rfl
  · split
    · exact rest_fillSlice _ _ _ _
    · exact (rest_marks _ d c (lineOf pa) hint).trans (rest_fillSector s d c pa)

theorem unseen_translate (s : State) (ctx d c : Nat) (lane : Option Nat) (va need : Nat) :
    Unseen s (s.translate ctx d c lane va need).1 := by
  refine ⟨(onlyCaches_translate s 0 ctx d c lane va need).view, ?_⟩
  unfold State.translate
  simp only
  split
  · cases lane <;> rfl
  · split
    · cases lane <;> rfl
    · split
      · cases lane <;> rfl
      · rfl

/-! PREF. -/

/-- What PREF does for one thread's address. -/
def State.prefOne (s : State) (st : Strand) (f : LFields) (t : Nat) : State :=
  let va := st.memAddr f 128 (st.memIndex f t) t
  if va / 2 ^ 48 ≠ 0 then s
  else match s.translate st.ctx st.d st.k (some st.ln) va kRead with
    | (s, .ok pa) =>
      if (s.regionOf pa).isSome || s.heldFrom st.d pa then s
      else if f.m3 == 0 then
        (List.range 8).foldl (fun s j => s.touch st.d st.k (128 * lineOf pa + 16 * j) (f.c.toNat % 4)) s
      else s.fillSlice st.d pa (f.c.toNat % 4)
    | (s, _) => s

theorem unseen_prefOne (s : State) (st : Strand) (f : LFields) (t : Nat) : Unseen s (s.prefOne st f t) := by
  unfold State.prefOne
  dsimp only
  split
  · exact Unseen.refl s
  · have h := unseen_translate s st.ctx st.d st.k (some st.ln) (st.memAddr f 128 (st.memIndex f t) t) kRead
    split
    · next q pa hq =>
      rw [hq] at h
      refine h.trans ?_
      split
      · exact Unseen.refl q
      · split
        · exact Unseen.foldl _ _ (fun s _ => unseen_touch s _ _ _ _) q
        · exact unseen_fillSlice q _ _ _
    · next q r _ hq =>
      rw [hq] at h
      exact h

theorem settle_congr {s t : State} (h : t.ctxs = s.ctxs) (w : Strand) : t.settle w = s.settle w := by
  unfold State.settle State.scTrap State.ctx
  rw [h]

theorem pref_says : PrefSays := by
  intro f s id st hp
  have hx : exec (.pref f) s = .next (State.finish ((accThreads f (st.nowAdm (rowOf (.pref f)) f)).foldl
      (fun s t => s.prefOne st f t) s) { id := id, st := st, adm := st.nowAdm (rowOf (.pref f)) f } (rowOf (.pref f)) f 8 st) := by
    change execPref f s = _
    unfold execPref
    simp only [issue_go hp]
    rfl
  have hu := Unseen.foldl (accThreads f (st.nowAdm (rowOf (.pref f)) f)) (fun s t => s.prefOne st f t)
    (fun s t => unseen_prefOne s st f t) s
  revert hx hu
  generalize (accThreads f (st.nowAdm (rowOf (.pref f)) f)).foldl (fun s t => s.prefOne st f t) s = q
  intro hx hu
  obtain ⟨honly, w, hw, hplain, -⟩ := stands_finish q id st st (st.nowAdm (rowOf (.pref f)) f) (rowOf (.pref f)) f 8 rfl hp.whole
  refine ⟨_, w, hx, fun a => ?_, fun d c a => ?_, fun j hj => ?_, ?_, ?_, ?_⟩
  · rw [honly.mem, hu.mem]
  · rw [honly.view, hu.view]
  · rw [honly.strands j hj]
    exact congrArg (fun l => tget l j) hu.strands
  · rw [honly.rest]
    exact congrArg (fun t : State => { t with strands := [] }) hu.rest
  · rw [hw, settle_congr hu.ctxs]
  · rw [hplain, advance_sts]

/-! WAITC. -/

theorem waitcExec_eq {i : Instr} {f : LFields} {len thr : Nat} {s : State} {id : Nat} {st : Strand}
    (hp : Passes i (rowOf (.waitc f)) f noPre s id st) : waitcExec i (rowOf (.waitc f)) f len thr s =
      if st.nowAdm (rowOf (.waitc f)) f = 0 then
        .next (s.finish { id := id, st := st, adm := st.nowAdm (rowOf (.waitc f)) f } (rowOf (.waitc f)) f len st)
      else if st.cnt f.d.toNat ≤ thr then
        .next ((st.pathErr f.d.toNat).elim
          (s.finish { id := id, st := st, adm := st.nowAdm (rowOf (.waitc f)) f } (rowOf (.waitc f)) f len st)
          fun e => s.deliverErr id st e (st.nowAdm (rowOf (.waitc f)) f))
      else .next (s.enterWait { id := id, st := st, adm := st.nowAdm (rowOf (.waitc f)) f } st (rowOf (.waitc f)) f len
        (.waitc f.d.toNat thr)) := by
  unfold waitcExec
  simp only [issue_go hp]
  cases st.pathErr f.d.toNat <;> rfl

/-- Either form of WAITC is `waitcExec` with its row's fields and threshold. -/
theorem exec_waitc {st : Strand} {i : Instr} {f : LFields} {len thr : Nat} (h : waitcRow st i = some (f, len, thr)) {s : State}
    {id : Nat} (hp : Passes i (rowOf (.waitc f)) f noPre s id st) : exec i s = waitcExec i (rowOf (.waitc f)) f len thr s := by
  unfold waitcRow at h
  split at h
  · next g =>
    cases h
    change waitcExec (.waitc f) (rowOf (.waitc f)) f 8 (waitcThr f s) s = _
    congr 1
    unfold waitcThr
    simp only [hp.cur, Option.bind_some, hp.here, beq_iff_eq]
    rfl
  · cases h
    rfl
  · cases h

theorem engineRef_path (q : Fin 8) (c : Cause) :
    BitVec.ofNat 32 (c.code + (2 ^ 28 * q.val + 2 ^ 31)) = 1#1 ++ BitVec.ofNat 3 q.val ++ 0#20 ++ BitVec.ofNat 8 c.code := by
  revert q
  cases c <;> decide

/-- SR_CAUSE of an engine's error: its fields lie beside each other. -/
theorem causeWord_engine (c : Cause) (p : Nat) : causeWord c 0 (some p) = engineRef c p := by
  have h3 : BitVec.ofNat 3 p = BitVec.ofNat 3 (p % 8) := by
    apply BitVec.eq_of_toNat_eq
    simp
  unfold causeWord engineRef
  rw [h3]
  exact engineRef_path ⟨p % 8, Nat.mod_lt _ (by decide)⟩ c

/-- The error that is delivered is the first of its path, and the others stay in their order. -/
theorem pathErr_first {st : Strand} {l1 l2 : List EngErr} {e : EngErr} {p : Nat} (h : st.engErrs = l1 ++ e :: l2)
    (he : e.path = p) (h1 : ∀ x, x ∈ l1 → x.path ≠ p) : st.pathErr p = some e ∧ st.engErrs.erase e = l1 ++ l2 := by
  have hfind : l1.find? (fun x => x.path == p) = none := List.find?_eq_none.mpr fun x hx => by simpa using h1 x hx
  constructor
  · unfold Strand.pathErr
    rw [h, List.find?_append, hfind, Option.none_or, List.find?_cons_of_pos (by simpa using he)]
  · rw [h, List.erase_append_right _ fun hm => h1 e hm he, List.erase_cons_head]

theorem pathErr_none {st : Strand} {p : Nat} (h : ∀ e, e ∈ st.engErrs → e.path ≠ p) : st.pathErr p = none :=
  List.find?_eq_none.mpr fun x hx => by simpa using h x hx

theorem waitc_says : WaitcSays := by
  intro i f len thr s id st h hp
  have hx := (exec_waitc h hp).trans (waitcExec_eq hp)
  refine ⟨fun hm => ⟨_, ?_, ends_finish s id st st (st.nowAdm (rowOf (.waitc f)) f) (rowOf (.waitc f)) f len rfl hp.whole⟩,
    fun h0 hle hc l1 e l2 herr hpath hfirst => ?_, fun h0 hlt => ?_⟩
  · rw [hx]
    rcases hm with h0 | ⟨hle, hnone⟩
    · rw [if_pos h0]
    · rw [if_pos hle, pathErr_none hnone]
      exact ite_self _
  · obtain ⟨hfind, herase⟩ := pathErr_first herr hpath hfirst
    rw [if_neg h0, if_pos hle, hfind] at hx
    have ht := takeTrap_eq (id := id) (st := { st with engErrs := st.engErrs.erase e }) hc
      { cause := e.cause, epc := st.pc, emask := st.nowAdm (rowOf (.waitc f)) f, detail := 0, eng := some e.path }
      (some { elem := 0, mask := st.nowAdm (rowOf (.waitc f)) f, kept := [], upto := none })
    refine ⟨_, _, hx.trans (congrArg Host.Outcome.next ht), onlyStrand_putStrand _ _ _, State.strand_putStrand_same _ _ _,
      rfl, rfl, rfl, ?_, rfl, herase, rfl, rfl, rfl, rfl, rfl⟩
    rw [← hpath]
    exact causeWord_engine _ _
  · rw [if_neg h0, if_neg (by omega)] at hx
    obtain ⟨honly, w, hw, hrun, hpc, -, hs, hv, hq, hxr, hsts, hops, hcnt, -⟩ :=
      waits_enter s id st (st.nowAdm (rowOf (.waitc f)) f) (rowOf (.waitc f)) f len (.waitc f.d.toNat thr)
    exact ⟨_, w, hx, honly, hw, hrun, hpc, hs, hv, hq, hxr, hsts, hops, hcnt⟩

/-! FENCE. A fence that may complete has nothing to write back. -/

/-- A table with no dirty byte is as clean as it can be. -/
theorem cleaned_of_clean (p : Nat → Bool) (m : Tab CByte) (h : ∀ e ∈ m, e.2.dirty = false) : cleaned p m = m := by
  have hfilter : (m.filter fun e => !(p e.1 && (tget m e.1).any (·.dirty)) ||
      (List.range 8).all fun i => (tget m (e.1 / 8 * 8 + i)).isSome) = m := by
    refine List.filter_eq_self.mpr fun e _ => ?_
    have hd : (tget m e.1).any (·.dirty) = false := by
      cases hg : tget m e.1 with
      | none => rfl
      | some b => exact h _ (tget_mem _ _ _ hg)
    rw [hd, Bool.and_false]
    rfl
  unfold cleaned
  dsimp only
  rw [hfilter]
  refine (List.map_congr_left fun e he => ?_).trans (List.map_id m)
  split
  · rw [← h e he]
    rfl
  · rfl

/-- No byte of a column, and no copy of a die, is dirty. -/
def State.cleanColumn (s : State) (d c : Nat) : Prop := ∀ e ∈ (s.core d c).l1, e.2.dirty = false
def State.cleanCopies (s : State) (d : Nat) : Prop := ∀ e ∈ (s.die d).copies, e.2.dirty = false

theorem filter_clean {m : Tab CByte} (h : ∀ e ∈ m, e.2.dirty = false) (p : Nat → Bool) :
    (m.filter fun e => e.2.dirty && p e.1) = [] :=
  List.filter_eq_nil_iff.mpr fun e he => by rw [h e he]; exact Bool.false_ne_true

theorem writeBackL1_of_clean {s : State} {d c : Nat} (h : s.cleanColumn d c) (p : Nat → Bool) :
    s.writeBackL1 d c p = s.modCore d c fun x => { x with l1 := cleaned p x.l1 } := by
  unfold State.writeBackL1
  rw [filter_clean h]
  rfl

theorem writeBackDie_of_clean {s : State} {d : Nat} (h : s.cleanCopies d) (p : Nat → Bool) :
    s.writeBackDie d p =
      (s.modDie d fun x => { x with copies := cleaned (fun a => p a && !s.linkSlow d (homeDie a)) x.copies }).tidy d := by
  unfold State.writeBackDie
  dsimp only
  rw [filter_clean h fun a => p a && !s.linkSlow d (homeDie a)]
  rfl

theorem view_tidy (s : State) (d : Nat) : SameView s (s.tidy d) := view_die_same _ _ _ (fun _ => rfl) fun _ => rfl

theorem view_writeBackL1 {s : State} {d c : Nat} (h : s.cleanColumn d c) (p : Nat → Bool) : SameView s (s.writeBackL1 d c p) := by
  rw [writeBackL1_of_clean h]
  refine view_modL1 s d c _ fun a _ _ => ?_
  rw [cleaned_of_clean p _ h, coreGet_eq]

theorem view_writeBackDie {s : State} {d : Nat} (h : s.cleanCopies d) (p : Nat → Bool) : SameView s (s.writeBackDie d p) := by
  rw [writeBackDie_of_clean h]
  have hv : SameView s (s.modDie d fun x =>
      { x with copies := cleaned (fun a => p a && !s.linkSlow d (homeDie a)) x.copies }) := by
    refine view_modDie s d _ (fun _ => rfl) fun a _ ha => ?_
    rw [cleaned_of_clean _ _ h, dieGet_eq, if_neg ha]
  exact hv.trans (view_tidy _ d)

theorem copies_writeBackL1 {s : State} {d c : Nat} (h : s.cleanColumn d c) (p : Nat → Bool) (e : Nat) :
    ((s.writeBackL1 d c p).die e).copies = (s.die e).copies := by
  rw [writeBackL1_of_clean h, copies_modCore]

/-- A release that has nothing to write back changes no value. -/
theorem view_release {s : State} {d c scope : Nat} {wide : Bool} (h : s.needsWb d c scope wide = false) :
    SameView s (s.release d c scope wide) := by
  unfold State.release
  split
  · next hw =>
    have hwide : (decide (3 ≤ scope) || (scope == 1 && wide)) = true := by simpa using hw
    unfold State.needsWb at h
    rw [hwide, Bool.true_and, Bool.or_eq_false_iff, List.any_eq_false] at h
    have hcol : s.cleanColumn d c := fun e he => by simpa using h.1 e he
    dsimp only
    split
    · next h4 =>
      have hcop : (s.writeBackL1 d c fun _ => true).cleanCopies d := by
        intro e he
        rw [copies_writeBackL1 hcol] at he
        have := h.2
        rw [decide_eq_true h4, Bool.true_and, List.any_eq_false] at this
        simpa using this e he
      have hv := (view_writeBackL1 hcol fun _ => true).trans (view_writeBackDie hcop fun _ => true)
      split
      · exact hv
      · exact hv.trans (view_core_same _ _ _ _ fun _ => rfl)
    · exact view_writeBackL1 hcol _
  · exact SameView.refl s

theorem fenceAct_stores (s : State) (st : Strand) (kind scope : Nat) : Stores s (s.fenceAct st kind scope) := by
  unfold State.fenceAct
  dsimp only
  have h : Stores s (if kind = 0 then s
      else if scope = 2 then (s.relAct st scope).recordRelease st.d st.k none else s.relAct st scope) := by
    split
    · exact Stores.refl s
    · split
      · exact (release_stores _ _ _ _ _).trans (recordRelease_stores _ _ _ _)
      · exact release_stores _ _ _ _ _
  split
  · exact h
  · exact h.trans (acquire_stores _ _ _ _ _)

/-- The release side alone. -/
theorem fenceAct_release (s : State) (st : Strand) (scope : Nat) : s.fenceAct st 1 scope =
    if scope = 2 then (s.relAct st scope).recordRelease st.d st.k none else s.relAct st scope := rfl

theorem core_filterAny_l1 (s : State) (d c : Nat) : ((s.recordRelease d c none).core d c).l1 = (s.core d c).l1 := by
  unfold State.recordRelease
  rw [State.core_modCore]
  split
  · rfl
  · rfl

/-- After a wide release every byte of the column is clean, whatever the order of its table. -/
theorem release_cleanColumn (s : State) (d c scope : Nat) (wide : Bool) (hw : 3 ≤ scope ∨ (scope = 1 ∧ wide = true))
    (h : s.cleanColumn d c) : (s.release d c scope wide).cleanColumn d c := by
  have hl1 : (s.writeBackL1 d c fun _ => true).cleanColumn d c := by
    rw [writeBackL1_of_clean h]
    intro e he
    rw [State.core_modCore] at he
    split at he
    · rw [cleaned_of_clean _ _ h] at he
      exact h e he
    · exact h e he
  unfold State.release
  rw [if_pos hw]
  dsimp only
  split
  · split
    · intro e he
      rw [writeBackDie_core] at he
      exact hl1 e he
    · intro e he
      rw [State.core_modCore, writeBackDie_core] at he
      split at he
      · exact hl1 e he
      · exact hl1 e he
  · exact hl1

/-- A wide acquire leaves nothing of a clean column. -/
theorem acquire_nil (s : State) (d c scope : Nat) (wide : Bool) (hw : 3 ≤ scope ∨ (scope = 1 ∧ wide = true))
    (h : s.cleanColumn d c) : ((s.acquire d c scope wide).core d c).l1 = [] := by
  have hcore : ∀ q : State, q.core d c = s.core d c →
      ((q.modCore d c fun x => { x with l1 := x.l1.filter fun e => e.2.dirty }).core d c).l1 = [] := by
    intro q hq
    rw [State.core_modCore]
    split
    · rw [hq]
      exact List.filter_eq_nil_iff.mpr fun e he => by rw [h e he]; exact Bool.false_ne_true
    · next hn =>
      rw [core_absent q d c fun hx => hn ⟨rfl, hx.1, rfl, hx.2⟩]
      rfl
  unfold State.acquire
  rw [if_pos hw]
  dsimp only
  split
  · refine hcore _ ?_
    unfold State.core
    exact congrArg (fun l => nth Core.idle l c) (cores_modDie s d d _ fun _ => rfl)
  · exact hcore s rfl

/-- A change of a core touches no group. -/
theorem groupOf_modCore (s : State) (d c g : Nat) (h : Core → Core) : (s.modCore d c h).groupOf g = s.groupOf g := by
  have hmap : (s.modCore d c h).dies.map (fun x => tget x.groups g) = s.dies.map fun x => tget x.groups g := by
    refine List.ext_getElem (by simp only [List.length_map, State.modCore_length]) fun e h1 h2 => ?_
    have hd : ∀ (q : State) (hq : e < q.dies.length), q.dies[e] = q.die e := by
      intro q hq
      unfold State.die nth
      rw [List.getD_eq_getElem?_getD, List.getElem?_eq_getElem hq]
      rfl
    have hb := congrArg (fun x : Die => tget x.groups g) (State.die_modCore s d c e h)
    simp only [List.length_map] at h1 h2
    simp only [List.getElem_map, hd _ h1, hd _ h2]
    exact hb
  have hfind : ∀ l : List Die, (l.findSome? fun x => tget x.groups g) = (l.map fun x => tget x.groups g).findSome? id := by
    intro l
    rw [List.findSome?_map]
    rfl
  unfold State.groupOf
  rw [hfind, hmap, ← hfind]
  rfl

theorem groupWide_modCore (s : State) (d c : Nat) (h : Core → Core) (st : Strand) :
    (s.modCore d c h).groupWide st = s.groupWide st := by
  unfold State.groupWide
  simp only [groupOf_modCore]
  rfl

/-- A fence's scope is its field; its row accepts no other bits of c. -/
theorem fence_scope {f : LFields} (h : wellFormed (.fence f) = true) : f.c.toNat / 8 = (f.c.extractLsb' 3 3).toNat := by
  have hx : (f.c.toNat % 8 == 0 && decide (f.c.toNat / 8 ≤ 5)) = true := by
    change ({ specBase with m3 := 0x07, c := fraw, extra := f.c.toNat % 8 == 0 && decide (f.c.toNat / 8 ≤ 5) } : OpSpec).ok f = true at h
    simp only [OpSpec.ok, Bool.and_eq_true] at h
    simp only [Bool.and_eq_true]
    tauto
  simp only [Bool.and_eq_true, beq_iff_eq, decide_eq_true_eq] at hx
  rw [BitVec.extractLsb'_toNat, Nat.shiftRight_eq_div_pow]
  omega

theorem execFence_eq {f : LFields} {s : State} {id : Nat} {st : Strand} (hp : Passes (.fence f) (rowOf (.fence f)) f noPre s id st) :
    exec (.fence f) s =
      if st.nowAdm (rowOf (.fence f)) f = 0 then
        .next (s.finish { id := id, st := st, adm := st.nowAdm (rowOf (.fence f)) f } (rowOf (.fence f)) f 8 st)
      else if s.fenceReady st f.m3.toNat (f.c.extractLsb' 3 3).toNat then
        .next ((s.fenceAct st f.m3.toNat (f.c.extractLsb' 3 3).toNat).finish
          { id := id, st := st, adm := st.nowAdm (rowOf (.fence f)) f } (rowOf (.fence f)) f 8 st)
      else .next (s.enterWait { id := id, st := st, adm := st.nowAdm (rowOf (.fence f)) f } st (rowOf (.fence f)) f 8
        (.fence f.m3.toNat (f.c.extractLsb' 3 3).toNat)) := by
  change execFence f s = _
  unfold execFence
  simp only [issue_go hp, fence_scope hp.encoding]

/-- The scopes that reach beyond the core. -/
theorem wide_iff (scope : Nat) (wide : Bool) :
    (decide (3 ≤ scope) || (scope == 1 && wide)) = true ↔ 3 ≤ scope ∨ (scope = 1 ∧ wide = true) := by
  simp

/-- What the actions of a fence that may complete leave of values and of the column. -/
theorem fenceAct_leaves {s : State} {st : Strand} {kind scope : Nat} (h : s.fenceReady st kind scope = true) :
    (kind = 1 → SameView s (s.fenceAct st kind scope)) ∧
    ((3 ≤ scope ∨ (scope = 1 ∧ s.groupWide st = true)) →
      (kind = 1 → ∀ a b, tget ((s.fenceAct st kind scope).core st.d st.k).l1 a = some b → b.dirty = false) ∧
      (kind = 0 → ∀ a b, tget ((s.fenceAct st kind scope).core st.d st.k).l1 a = some b → b.dirty = true) ∧
      (kind = 2 → ((s.fenceAct st kind scope).core st.d st.k).l1 = [])) := by
  have hneeds : kind ≠ 0 → s.needsWb st.d st.k scope (s.groupWide st) = false := by
    intro hk
    unfold State.fenceReady State.relReady at h
    rw [if_neg hk, Bool.and_eq_true, Bool.not_eq_true', Bool.not_eq_true'] at h
    exact h.2
  refine ⟨?_, fun hw => ⟨?_, ?_, ?_⟩⟩
  · rintro rfl
    rw [fenceAct_release]
    have hv := view_release (hneeds (by decide))
    split
    · exact hv.trans (view_core_same _ _ _ _ fun _ => rfl)
    · exact hv
  · rintro rfl a b hb
    rw [fenceAct_release, if_neg (by omega)] at hb
    exact release_column s st.d st.k scope _ hw a b hb
  · rintro rfl a b hb
    exact acquire_column s st.d st.k scope _ hw a b hb
  · rintro rfl
    have hcol : s.cleanColumn st.d st.k := by
      have hn := hneeds (by decide)
      unfold State.needsWb at hn
      rw [(wide_iff _ _).mpr hw, Bool.true_and, Bool.or_eq_false_iff, List.any_eq_false] at hn
      exact fun e he => by simpa using hn.1 e he
    have hact : s.fenceAct st 2 scope = (s.relAct st scope).acqAct st scope := by
      unfold State.fenceAct
      dsimp only
      rw [if_neg (by omega), if_neg (by omega), if_neg (by omega)]
    rw [hact]
    refine acquire_nil _ _ _ _ _ ?_ (release_cleanColumn s _ _ _ _ hw hcol)
    rcases hw with h3 | ⟨rfl, hg⟩
    · exact .inl h3
    · refine .inr ⟨rfl, ?_⟩
      have hrel : s.relAct st 1 = s.modCore st.d st.k fun x => { x with l1 := cleaned (fun _ => true) x.l1 } := by
        unfold State.relAct State.release
        rw [if_pos (.inr ⟨rfl, hg⟩), ← writeBackL1_of_clean hcol]
        rfl
      rw [hrel, groupWide_modCore, hg]

theorem fence_says : FenceSays := by
  intro f s id st hp
  have hx := execFence_eq hp
  refine ⟨fun h0 => ⟨_, hx.trans (if_pos h0), ends_finish s id st st _ _ f 8 rfl hp.whole⟩, fun h0 hr => ?_, fun h0 hr => ?_⟩
  · rw [if_neg h0, if_pos hr] at hx
    have hs := fenceAct_stores s st f.m3.toNat (f.c.extractLsb' 3 3).toNat
    obtain ⟨hview, hcolumn⟩ := fenceAct_leaves hr
    exact ⟨_, _, hx, ends_finish _ id st st _ _ f 8 rfl hp.whole, hs.strands, hs.ctxs,
      fun hk _ a _ _ => hview hk _ _ a, fun hw => (hcolumn ((wide_iff _ _).mp hw)).1,
      fun hw => (hcolumn ((wide_iff _ _).mp hw)).2.1, fun hw => (hcolumn ((wide_iff _ _).mp hw)).2.2⟩
  · rw [if_neg h0, if_neg (by rw [hr]; exact Bool.false_ne_true)] at hx
    obtain ⟨honly, w, hw, hrun, hpc, -, hsr, hv, hq, hxr, hsts, hops, hcnt, -⟩ :=
      waits_enter s id st (st.nowAdm (rowOf (.fence f)) f) (rowOf (.fence f)) f 8
        (.fence f.m3.toNat (f.c.extractLsb' 3 3).toNat)
    exact ⟨_, w, hx, honly, hw, hrun, hpc, hsr, hv, hq, hxr, hsts, hops, hcnt⟩

/-- Settles O33: PREF only fills caches, WAITC compares its counter and delivers the path's first error, and a fence that may
complete has nothing to write back, so that its release changes no value. -/
theorem cacheAndOrder : Obligations.CacheAndOrder := ⟨pref_says, waitc_says, fence_says⟩

end Sys2Proof.Machine
end

section
/-! Engine commands issue (O34). -/

open Sys2Proof
namespace Sys2Proof.Machine

/-! Counters fall in issue order. -/

/-- The operations of one path. -/
def onPath (p : Nat) (ops : List Op) : List Op := ops.filter fun o => o.path == p

theorem onPath_cons_same {p : Nat} {o : Op} (h : o.path = p) (ops : List Op) : onPath p (o :: ops) = o :: onPath p ops :=
  List.filter_cons_of_pos (by simpa using h)
theorem onPath_cons_other {p : Nat} {o : Op} (h : o.path ≠ p) (ops : List Op) : onPath p (o :: ops) = onPath p ops :=
  List.filter_cons_of_neg (by simpa using h)

theorem fallen_cons (bl : List Nat) (o : Op) (r : List Op) : fallen [] bl (o :: r) =
    if o.fin = true ∧ o.path ∉ bl then ((fallen [] bl r).1, o :: (fallen [] bl r).2)
    else (o :: (fallen [] (o.path :: bl) r).1, (fallen [] (o.path :: bl) r).2) := by
  rw [fallen]
  by_cases h : o.fin = true ∧ o.path ∉ bl
  · rw [if_pos h, if_pos (by simpa using h)]
  · rw [if_neg h, if_neg (by simpa using h)]

/-- Of each path that nothing blocks, the operations that stand completed at its head fall, and no other. -/
theorem onPath_fallen (p : Nat) (ops : List Op) (bl : List Nat) :
    onPath p (fallen [] bl ops).1 = (if p ∈ bl then onPath p ops else (onPath p ops).dropWhile (·.fin)) ∧
    onPath p (fallen [] bl ops).2 = (if p ∈ bl then [] else (onPath p ops).takeWhile (·.fin)) := by
  induction ops generalizing bl with
  | nil => simp [fallen, onPath]
  | cons o r ih =>
    rw [fallen_cons]
    by_cases hp : o.path = p
    · rw [onPath_cons_same hp]
      split
      · next h =>
        obtain ⟨hfin, hbl⟩ := h
        rw [hp] at hbl
        obtain ⟨h1, h2⟩ := ih bl
        rw [if_neg hbl] at h1 h2
        rw [onPath_cons_same hp, if_neg hbl, if_neg hbl, List.dropWhile_cons_of_pos hfin, List.takeWhile_cons_of_pos hfin]
        exact ⟨h1, congrArg (o :: ·) h2⟩
      · next h =>
        obtain ⟨h1, h2⟩ := ih (o.path :: bl)
        rw [if_pos (by simp [hp])] at h1 h2
        rw [onPath_cons_same hp, h1, h2]
        by_cases hbl : p ∈ bl
        · rw [if_pos hbl, if_pos hbl]
          exact ⟨rfl, rfl⟩
        · have hfin : ¬ o.fin = true := fun hf => h ⟨hf, hp ▸ hbl⟩
          rw [if_neg hbl, if_neg hbl, List.dropWhile_cons_of_neg hfin, List.takeWhile_cons_of_neg hfin]
          exact ⟨rfl, rfl⟩
    · rw [onPath_cons_other hp]
      split
      · rw [onPath_cons_other hp]
        exact ih bl
      · rw [onPath_cons_other hp]
        have h := ih (o.path :: bl)
        simpa only [List.mem_cons, Ne.symm hp, false_or] using h

/-- What falls lowers its own path's counter alone. -/
theorem cget_lower (p : Nat) (gone : List Op) (c : Cells 6) :
    cget (gone.foldl (fun c o => cput c o.path (cget c o.path - 1)) c) p = cget c p - BitVec.ofNat 6 (onPath p gone).length := by
  induction gone generalizing c with
  | nil => simp [onPath]
  | cons o r ih =>
    rw [List.foldl_cons, ih, cget_cput]
    by_cases hp : o.path = p
    · rw [if_pos hp.symm, onPath_cons_same hp, List.length_cons, hp, BitVec.ofNat_add]
      generalize BitVec.ofNat 6 (onPath p r).length = n
      bv_omega
    · rw [if_neg (Ne.symm hp), onPath_cons_other hp]

theorem fall_says : FallSays := by
  intro st wait hmarks hheld p
  have hf : (st.fall wait).ops = (fallen [] [] st.ops).1 ∧
      (st.fall wait).c = (fallen [] [] st.ops).2.foldl (fun c o => cput c o.path (cget c o.path - 1)) st.c := by
    unfold Strand.fall
    rw [hmarks, hheld]
    exact ⟨rfl, rfl⟩
  obtain ⟨h1, h2⟩ := onPath_fallen p st.ops []
  rw [if_neg List.not_mem_nil] at h1 h2
  rw [hf.1, hf.2, cget_lower, h2]
  exact ⟨h1, rfl⟩

/-! Descriptors. -/

theorem toNat_sget64 (st : Strand) (b : Nat) : (st.sget64 b).toNat = (st.sget b).toNat + 2 ^ 32 * (st.sget (b + 1)).toNat := by
  unfold Strand.sget64
  rw [BitVec.toNat_append, ← Nat.shiftLeft_add_eq_or_of_lt (st.sget b).isLt, Nat.shiftLeft_eq]
  omega

/-- A field of a register as a number. -/
theorem toNat_field (x : Word) (lo len : Nat) : (x.extractLsb' lo len).toNat = x.toNat / 2 ^ lo % 2 ^ len := by
  rw [BitVec.extractLsb'_toNat, Nat.shiftRight_eq_div_pow]

theorem shutDesc_says : ShutDescSays := by
  intro x st b
  dsimp only
  simp only [toNat_field, pow_zero, Nat.div_one]
  have hlt (n : Nat) : (st.sget n).toNat % 2 ^ 32 = (st.sget n).toNat := Nat.mod_eq_of_lt (st.sget n).isLt
  refine ⟨?_, ?_, ?_, rfl, rfl, rfl, rfl, ?_, rfl, ?_, ?_⟩
  · rw [add_zero, hlt, hlt]
    exact toNat_sget64 st b
  · rw [hlt, hlt]
    exact toNat_sget64 st (b + 2)
  · have h : (st.sget (b + 4)).toNat < 2 ^ 16 * 2 ^ 16 := (st.sget (b + 4)).isLt
    exact (Nat.mod_eq_of_lt (Nat.div_lt_of_lt_mul h)).symm
  · exact beq_iff_eq
  · rintro rfl
    exact ⟨rfl, rfl, rfl, rfl⟩
  · rintro rfl
    exact ⟨rfl, rfl, rfl, rfl⟩

/-! The commands. -/

theorem modAt_id {α : Type} (l : List α) (i : Nat) : modAt l i (fun x => x) = l := by
  unfold modAt
  split
  · next x h =>
    obtain ⟨hi, rfl⟩ := List.getElem?_eq_some_iff.mp h
    exact List.set_getElem_self hi
  · rfl

theorem modCore_id (s : State) (d c : Nat) : s.modCore d c (fun x => x) = s := by
  have h : s.modCore d c (fun x => x) = { s with dies := modAt s.dies d fun x => x } := by
    unfold State.modCore State.modDie
    simp only [modAt_id]
  rw [h, modAt_id]

theorem modAt_at {α : Type} (d : α) (l : List α) (i : Nat) {g h : α → α} (hgh : g (nth d l i) = h (nth d l i)) :
    modAt l i g = modAt l i h := by
  unfold modAt
  split
  · next x hx =>
    have hn : nth d l i = x := by
      unfold nth
      rw [List.getD_eq_getElem?_getD, hx]
      rfl
    rw [← hn, hgh]
  · rfl

/-- A change of a core depends only on what it makes of the core that stands there. -/
theorem modCore_at (s : State) (d c : Nat) {g h : Core → Core} (hgh : g (s.core d c) = h (s.core d c)) :
    s.modCore d c g = s.modCore d c h := by
  unfold State.modCore State.modDie
  congr 1
  refine modAt_at (Die.afterReset d) _ _ ?_
  congr 1
  exact modAt_at Core.idle _ _ hgh

/-- An engine command's issue, given what its row says of it. -/
theorem engine_issue {i : Instr} {r : EngRow} {s : State} {id : Nat} {st : Strand} {pre : Strand → Option Nat}
    {stop : State → Strand → Option Cause} {go : Issued → State → State × Strand}
    (hp : Passes i (rowOf i) r.f (fun u m => if m = 0 then none else pre u) s id st)
    (hx : exec i s = engIssue i r.f pre r.path stop go s) (hstop : stop s st = r.stop s st)
    (hgo : ∀ m, go { id := id, st := st, adm := m } s =
      (s.modCore st.d st.k (r.core id st), st.posted (st.newOp r.path m (r.kind s st) r.dests))) :
    (st.nowAdm (rowOf i) r.f = 0 → ∃ t, exec i s = .next t ∧ Ends s t id st st 8 none (r.f.e == 1) false) ∧
    (∀ c, st.nowAdm (rowOf i) r.f ≠ 0 → r.stop s st = some c → st.canTrap s →
      ∃ t, exec i s = .next t ∧ Trapped s t id st c 0 (st.nowAdm (rowOf i) r.f)) ∧
    (st.nowAdm (rowOf i) r.f ≠ 0 → r.stop s st = none → st.full r.path = false →
      ∃ t, exec i s = .next t ∧ Ends (s.modCore st.d st.k (r.core id st)) t id st
        (st.posted (st.newOp r.path (st.nowAdm (rowOf i) r.f) (r.kind s st) r.dests)) 8 none (r.f.e == 1) false) := by
  unfold engIssue at hx
  simp only [issue_go hp, hstop, hgo] at hx
  refine ⟨fun h0 => ⟨_, hx.trans (if_pos h0), ends_finish s id st st _ _ r.f 8 rfl hp.whole⟩, fun c h0 hc ht => ?_,
    fun h0 hc hfull => ?_⟩
  · rw [if_neg h0, hc] at hx
    exact ⟨_, hx, trapped_takeTrap ht⟩
  · rw [if_neg h0, hc, hfull] at hx
    exact ⟨_, hx, ends_finish _ id st _ _ _ r.f 8 rfl hp.whole⟩

/-- DECODE's checks of its descriptor, said of what traps and of what does not. -/
theorem decode_stop (d : DecDesc) (z : Nat) :
    (if z < d.doff + 2 * d.n ∨ z < d.stat + 8 then some Cause.window
      else if d.doff % 2 ≠ 0 ∨ d.stat % 8 ≠ 0 then some .align else none) =
    if d.doff + 2 * d.n ≤ z ∧ d.stat + 8 ≤ z then (if d.doff % 2 = 0 ∧ d.stat % 8 = 0 then none else some .align)
    else some .window := by
  have hwin : (z < d.doff + 2 * d.n ∨ z < d.stat + 8) ↔ ¬ (d.doff + 2 * d.n ≤ z ∧ d.stat + 8 ≤ z) := by omega
  have halign : (d.doff % 2 ≠ 0 ∨ d.stat % 8 ≠ 0) ↔ ¬ (d.doff % 2 = 0 ∧ d.stat % 8 = 0) := by omega
  simp only [hwin, halign, ite_not]

/-- FETCHF's checks of its base. -/
theorem fetchf_stop (base : Nat) :
    (if base / 2 ^ 48 ≠ 0 then some Cause.window else if base % 256 ≠ 0 then some .align else none) =
    if base < 2 ^ 48 then (if base % 256 = 0 then none else some .align) else some .window := by
  have hwin : base / 2 ^ 48 = 0 ↔ base < 2 ^ 48 := by omega
  simp only [ne_eq, ite_not, hwin]

theorem engine_says : EngineSays := by
  intro i r s id st h hp
  unfold engRow at h
  split at h
  case h_1 f =>
    cases h
    have hx : exec (.shut f) s = shutExec (.shut f) false f s := rfl
    unfold shutExec at hx
    exact engine_issue hp hx rfl fun _ => rfl
  case h_2 f =>
    cases h
    have hx : exec (.shutx f) s = shutExec (.shutx f) true f s := rfl
    unfold shutExec at hx
    exact engine_issue hp hx rfl fun _ => rfl
  case h_3 f =>
    cases h
    have hx : exec (.dtld f) s = execDtld f s := rfl
    unfold execDtld at hx
    refine engine_issue hp hx (ite_not _ _ _) fun _ => Prod.ext ?_ rfl
    exact modCore_at s st.d st.k rfl
  case h_4 f =>
    cases h
    have hx : exec (.decode f) s = execDecode f s := rfl
    unfold execDecode at hx
    refine engine_issue hp hx (decode_stop ..) fun _ => ?_
    rw [modCore_id]
    rfl
  case h_5 f =>
    cases h
    have hx : exec (.fetchf f) s = execFetchf f s := rfl
    unfold execFetchf at hx
    refine engine_issue hp hx (fetchf_stop _) fun _ => ?_
    rw [modCore_id]
    rfl
  case h_6 => cases h

/-- Settles O34: completed operations fall from the head of each path, the descriptors are read field by field, and a command
posts its operation. -/
theorem engineCommands : Obligations.EngineCommands := ⟨fall_says, shutDesc_says, engine_says⟩

end Sys2Proof.Machine
end

section
/-! Loads return and stores are performed (O30): a write-back's acknowledgement marks every operation of its number, and an operation
of the same number that is no store stays what it is. -/

open Sys2Proof
namespace Sys2Proof.Machine

def strandScope : OrdInfo := { acq := false, rel := true, acked := false, scope := 0, rmt := false, hint := 0 }
/-- A matrix operation, and a releasing store of one word that has not been performed, both of number 0. -/
def matrixZero : Op :=
  { id := 0, path := 3, pc := 0x10000, die := 0, core := 0, mask := 1, kind := .matrix, accs := [], dests := [], fin := false,
    err := none, bad := 0, badCause := .uncorr, replies := [], applied := [], prog := 0, bits := 0, staged := [], parked := false }
def releaseZero : Op :=
  { matrixZero with
    path := 1, kind := .store strandScope,
    accs := [{ thread := 0, win := .glob, va := 0x3000, pa := 0x3000, size := 4, reg := 0, data := 7, data2 := 0, done := false }] }

def strandTwoZeros : Strand := { placedStrand with ops := [matrixZero, releaseZero], nextOp := 1 }
def stateTwoZeros : State := (State.reset.withFetchWord 64 0).putStrand 0 strandTwoZeros

/-- The kind of a strand's first operation after an instruction. -/
def firstKindAfter (i : Instr) (s : State) (id : Nat) : Option OpKind :=
  match exec i s with
  | .next t => (t.strand id).bind fun st => st.ops.head?.map (·.kind)
  | _ => none

theorem firstKind_twoZeros : firstKindAfter (.writeBackAcknowledged 0) stateTwoZeros 0 = some .matrix := by decide +kernel

theorem firstKindAfter_next {i : Instr} {s t : State} {id : Nat} {w : Strand} (hx : exec i s = .next t)
    (hw : t.strand id = some w) : firstKindAfter i s id = w.ops.head?.map (·.kind) := by
  unfold firstKindAfter
  rw [hx]
  exact congrArg (fun q => Option.bind q fun st : Strand => st.ops.head?.map (·.kind)) hw

theorem earlier_releaseZero : strandTwoZeros.earlier releaseZero.id = [] := rfl

/-- Refutes O30: `WriteBackSays` lets two operations of a strand have one number, and gives both the kind of the acknowledged
store. Of the matrix operation 0 and the releasing store 0 the model makes only the store acknowledged. -/
theorem not_accessesPerformed : ¬ Obligations.AccessesPerformed := by
  rintro ⟨-, -, -, -, hack, -⟩
  obtain ⟨-, -, hstore⟩ := hack stateTwoZeros 0 strandTwoZeros (State.strand_putStrand_same _ _ _) (by decide +kernel)
  obtain ⟨t, hx, hput⟩ := hstore releaseZero strandScope rfl rfl rfl rfl rfl (by decide +kernel)
    (fun e he => absurd (earlier_releaseZero ▸ he) List.not_mem_nil) (by decide +kernel)
  have hkind := (firstKindAfter_next hx hput.here).symm.trans firstKind_twoZeros
  exact absurd hkind (by decide +kernel)

end Sys2Proof.Machine
end

section
/-! Items are dispatched and completed (O48). -/

open Sys2Proof
namespace Sys2Proof.Machine

/-! A strand as it is created. -/

theorem newStrand_says : NewStrandSays := by
  intro k ctx kid iid sid l seq
  have hs (n : Nat) : (newStrand k ctx kid iid sid l seq).sget n =
      if n = 3 then BitVec.ofNat 32 sid else if n = 2 then BitVec.ofNat 32 iid
      else if n = 1 then BitVec.ofNat 32 (recParam k.record / 2 ^ 32) else if n = 0 then BitVec.ofNat 32 (recParam k.record) else 0 := by
    unfold newStrand Strand.sget
    simp only [cget_cput]
    rfl
  refine ⟨rfl, rfl, rfl, rfl, rfl, rfl, rfl, rfl, hs 0, hs 1, hs 2, hs 3, fun n hn => ?_, fun _ _ => rfl, rfl, rfl, rfl, rfl⟩
  rw [hs, if_neg (by omega), if_neg (by omega), if_neg (by omega), if_neg (by omega)]

/-! The item that comes next. -/

theorem nextItem_says : NextItemSays := by
  intro k i h
  unfold Kernel.nextItem at h
  split at h
  · next j r hr =>
    cases h
    have hmin := List.min?_eq_some_iff.mp (List.min?_cons' (x := j) (xs := r))
    refine ⟨fun h0 => absurd (hr.symm.trans h0) (List.cons_ne_nil j r), fun _ => ?_⟩
    rw [hr]
    exact hmin
  · next hr =>
    split at h
    · next hlt =>
      cases h
      exact ⟨fun _ => ⟨rfl, hlt⟩, fun h0 => absurd hr h0⟩
    · cases h

/-! The in-order count. -/

theorem le_countRun (l : List Nat) (fuel n : Nat) : n ≤ countRun l fuel n := by
  induction fuel generalizing n with
  | zero => exact le_refl n
  | succ fuel ih =>
    rw [countRun]
    split
    · exact le_trans (Nat.le_succ n) (ih (n + 1))
    · exact le_refl n

/-- Every number that it passes is in the list. -/
theorem mem_of_lt_countRun {l : List Nat} {fuel n i : Nat} (h : n ≤ i) (hi : i < countRun l fuel n) : i ∈ l := by
  induction fuel generalizing n with
  | zero => exact absurd hi (not_lt.mpr h)
  | succ fuel ih =>
    rw [countRun] at hi
    split at hi
    · next hn =>
      rcases Nat.eq_or_lt_of_le h with rfl | hlt
      · exact List.contains_iff_mem.mp hn
      · exact ih hlt hi
    · exact absurd hi (not_lt.mpr h)

/-- Where it stops in the list, its fuel is spent. -/
theorem countRun_of_mem {l : List Nat} {fuel n : Nat} (h : countRun l fuel n ∈ l) : countRun l fuel n = n + fuel := by
  induction fuel generalizing n with
  | zero => rfl
  | succ fuel ih =>
    rw [countRun] at h ⊢
    split at h
    · next hn => rw [if_pos hn, ih h]; omega
    · next hn => exact absurd (List.contains_iff_mem.mpr h) hn

/-- With more fuel than the list has elements it stops outside the list. -/
theorem countRun_not_mem (l : List Nat) (n : Nat) : countRun l (l.length + 1) n ∉ l := by
  intro h
  have hend := countRun_of_mem h
  have hsub : List.range' n (l.length + 1) ⊆ l := fun i hi => by
    obtain ⟨hn, hlt⟩ := List.mem_range'_1.mp hi
    exact mem_of_lt_countRun hn (hend ▸ hlt)
  have hnodup : (List.range' n (l.length + 1)).Nodup := List.nodup_range'
  have hlen := (hnodup.subperm hsub).length_le
  rw [List.length_range'] at hlen
  omega

/-- The completed items with one more. -/
def Kernel.completedWith (k : Kernel) (n : Nat) : List Nat := if k.completed.contains n then k.completed else n :: k.completed

theorem mem_completedWith (k : Kernel) (n i : Nat) : i ∈ k.completedWith n ↔ i = n ∨ i ∈ k.completed := by
  unfold Kernel.completedWith
  split
  · next h =>
    have hn := List.contains_iff_mem.mp h
    exact ⟨Or.inr, fun hi => hi.elim (fun e => e ▸ hn) id⟩
  · exact List.mem_cons

theorem count_advance (k : Kernel) (n : Nat) :
    (k.advance n).count = countRun (k.completedWith n) ((k.completedWith n).length + 1) k.count := rfl
theorem completed_advance (k : Kernel) (n : Nat) :
    (k.advance n).completed = (k.completedWith n).filter fun x => decide ((k.advance n).count ≤ x) := rfl

theorem isComplete_iff (k : Kernel) (i : Nat) : k.isComplete i = true ↔ i < k.count ∨ i ∈ k.completed := by
  unfold Kernel.isComplete
  rw [Bool.or_eq_true, decide_eq_true_iff, List.contains_iff_mem]

theorem count_says : CountSays := by
  intro k n
  have hle : k.count ≤ (k.advance n).count := le_countRun _ _ _
  have hin (i : Nat) (h : k.count ≤ i) (hi : i < (k.advance n).count) : i = n ∨ i ∈ k.completed :=
    (mem_completedWith k n i).mp (mem_of_lt_countRun h hi)
  refine ⟨hle, hin, ?_, fun i => ?_⟩
  · exact not_or.mp fun h => countRun_not_mem _ _ ((mem_completedWith k n _).mpr h)
  · rw [isComplete_iff, isComplete_iff, completed_advance, List.mem_filter, decide_eq_true_iff, mem_completedWith]
    constructor
    · rintro (hi | ⟨rfl | hi, -⟩)
      · rcases Nat.lt_or_ge i k.count with hc | hc
        · exact .inl (.inl hc)
        · exact (hin i hc hi).elim .inr fun h => .inl (.inr h)
      · exact .inr rfl
      · exact .inl (.inr hi)
    · intro h
      rcases Nat.lt_or_ge i (k.advance n).count with hc | hc
      · exact .inl hc
      · refine .inr ⟨?_, hc⟩
        rcases h with (h | h) | h
        · exact absurd (lt_of_lt_of_le h hle) (not_lt.mpr hc)
        · exact .inr h
        · exact .inl h

/-! Readiness of cores. -/

/-- A step that may begin waits, but changes no core's tables or seeds, no memory and no strand. -/
structure OnlyWaits (s t : State) : Prop where
  owner : ∀ d c, (t.core d c).owner = (s.core d c).owner
  lace : ∀ d c, (t.core d c).lace = (s.core d c).lace
  dslots : ∀ d c, (t.core d c).dslots = (s.core d c).dslots
  seeds : ∀ d c, (t.core d c).seeds = (s.core d c).seeds
  mem : t.mem = s.mem
  strands : t.strands = s.strands

theorem OnlyWaits.refl (s : State) : OnlyWaits s s := ⟨fun _ _ => rfl, fun _ _ => rfl, fun _ _ => rfl, fun _ _ => rfl, rfl, rfl⟩
theorem OnlyWaits.trans {s t u : State} (h : OnlyWaits s t) (k : OnlyWaits t u) : OnlyWaits s u where
  owner d c := (k.owner d c).trans (h.owner d c)
  lace d c := (k.lace d c).trans (h.lace d c)
  dslots d c := (k.dslots d c).trans (h.dslots d c)
  seeds d c := (k.seeds d c).trans (h.seeds d c)
  mem := k.mem.trans h.mem
  strands := k.strands.trans h.strands

theorem onlyWaits_modCtx (s : State) (n : Nat) (g : Ctx → Ctx) : OnlyWaits s (s.modCtx n g) :=
  ⟨fun _ _ => rfl, fun _ _ => rfl, fun _ _ => rfl, fun _ _ => rfl, rfl, rfl⟩

theorem onlyWaits_unitPark (s : State) (n : Nat) (u : Source) : OnlyWaits s (s.unitPark n u) := onlyWaits_modCtx _ _ _
theorem onlyWaits_unitBatch (s : State) (n : Nat) (u : Source) (e : BatchEntry) : OnlyWaits s (s.unitBatch n u e) := by
  unfold State.unitBatch State.openBatch
  exact onlyWaits_modCtx _ _ _

theorem core_seedQueue (s : State) (d c slot : Nat) (who : List Nat) (e j : Nat) :
    ∃ w, (s.seedQueue d c slot who).core e j = { s.core e j with seedWait := w } := by
  unfold State.seedQueue
  rw [State.core_modCore]
  split
  · next h =>
    obtain ⟨rfl, -, rfl, -⟩ := h
    exact ⟨_, rfl⟩
  · exact ⟨_, rfl⟩

theorem onlyWaits_seedQueue (s : State) (d c slot : Nat) (who : List Nat) : OnlyWaits s (s.seedQueue d c slot who) := by
  have h := core_seedQueue s d c slot who
  refine ⟨fun e j => ?_, fun e j => ?_, fun e j => ?_, fun e j => ?_, rfl, rfl⟩
  all_goals
    obtain ⟨w, hw⟩ := h e j
    rw [hw]

theorem onlyWaits_tablesReady (s : State) (p : Placing) : OnlyWaits s (s.tablesReady p).1 := by
  unfold State.tablesReady
  split
  · exact OnlyWaits.refl s
  · exact OnlyWaits.refl s
  · exact onlyWaits_unitPark _ _ _
  · exact onlyWaits_unitBatch _ _ _ _
  · exact OnlyWaits.refl s

theorem onlyWaits_reloadReady (s : State) (p : Placing) (slot src : Nat) : OnlyWaits s (s.reloadReady p slot src).1 := by
  unfold State.reloadReady
  split
  · exact OnlyWaits.refl s
  · exact OnlyWaits.refl s
  · exact OnlyWaits.refl s
  · exact OnlyWaits.refl s
  · exact onlyWaits_seedQueue _ _ _ _ _
  · exact onlyWaits_unitPark _ _ _
  · exact onlyWaits_unitBatch _ _ _ _

theorem OnlyWaits.foldl {α β : Type} (l : List α) (g : State × β → α → State × β) (hg : ∀ q x, OnlyWaits q.1 (g q x).1)
    (q : State × β) : OnlyWaits q.1 (l.foldl g q).1 := by
  induction l generalizing q with
  | nil => exact OnlyWaits.refl _
  | cons a l ih => exact (hg q a).trans (ih _)

theorem onlyWaits_seedsReady (s : State) (p : Placing) : OnlyWaits s (s.seedsReady p).1 := by
  unfold State.seedsReady
  refine OnlyWaits.foldl _ _ (fun q e => ?_) (s, true)
  exact onlyWaits_reloadReady q.1 p e.1 e.2

/-- The first pass over the cores. -/
theorem onlyWaits_readiness (s : State) (on : List Placing) : OnlyWaits s (on.foldl (fun (q : State × Bool) p =>
    (((q.1.tablesReady p).1.seedsReady p).1, q.2 && (q.1.tablesReady p).2 && ((q.1.tablesReady p).1.seedsReady p).2)) (s, true)).1 := by
  refine OnlyWaits.foldl _ _ (fun q p => ?_) (s, true)
  exact (onlyWaits_tablesReady q.1 p).trans (onlyWaits_seedsReady _ p)

theorem prepare_says : PrepareSays := by
  intro s on s1 h
  have hw := onlyWaits_readiness s on
  unfold State.prepareCores at h
  dsimp only at h
  split at h
  · cases h
  · rw [h] at hw
    exact ⟨fun d c => ⟨hw.owner d c, hw.lace d c, hw.dslots d c, hw.seeds d c⟩, hw.mem, hw.strands⟩

/-! Kernels and their records. -/

theorem kernel_modKernel {s : State} {ctx kid : Nat} {k : Kernel} (h : s.kernel ctx kid = some k) (g : Kernel → Kernel) :
    (s.modKernel ctx kid g).kernel ctx kid = some (g k) := by
  unfold State.modKernel
  rw [h]
  dsimp only
  unfold State.kernel
  rw [State.ctx_modCtx_same]
  exact tget_tput_same _ _ _

theorem kernel_congr {s t : State} (h : t.ctxs = s.ctxs) (ctx kid : Nat) : t.kernel ctx kid = s.kernel ctx kid := by
  unfold State.kernel State.ctx
  rw [h]

/-- A change of a context that leaves its kernels. -/
theorem kernel_modCtx (s : State) (n ctx kid : Nat) (g : Ctx → Ctx) (hg : ∀ x, (g x).kernels = x.kernels) :
    (s.modCtx n g).kernel ctx kid = s.kernel ctx kid := by
  unfold State.kernel
  rw [State.ctx_modCtx]
  split
  · next h => rw [hg, h]
  · rfl

/-! Dispatch. -/

/-- The number of a place that was found. -/
def placeNumber : Option (Loc × Nat) → Nat
  | some q => q.2
  | none => 0
/-- The first strand that a core is to receive. -/
def firstOn (places : List Loc) (p : Nat × Nat) : Nat := placeNumber ((places.zipIdx).find? fun q => (q.1.die, q.1.core) == p)

/-- The placement of an item on each core that it uses. -/
def placingsOf (ctx kid iid : Nat) (places : List Loc) : List Placing := (coresOf places).map fun p =>
  { load := none, ctx := ctx, kid := kid, iid := iid, sid := firstOn places p, die := p.1, core := p.2 }

/-- The places that are left, from strand number m on, receive their strands. -/
def State.placeFrom (s : State) (k : Kernel) (ctx kid iid id0 m : Nat) (places : List Loc) : State :=
  (places.zipIdx m).foldl (fun s p =>
    let s := s.settleIn ctx p.1
    { s with strands := tput s.strands (id0 + p.2) (newStrand k ctx kid iid p.2 p.1 s.seqNo) }) s

/-- The strands of an item are placed, and each core acquires at package scope. -/
def State.placeItem (s : State) (k : Kernel) (ctx kid iid : Nat) (places : List Loc) : State :=
  (coresOf places).foldl (fun s p => s.acquire p.1 p.2 4 true)
    { ({ s with seqNo := s.seqNo + 1 } : State).placeFrom k ctx kid iid s.nextStrand 0 places with
      nextStrand := s.nextStrand + places.length }

/-- The die of the first place. -/
def firstDie : List Loc → Nat
  | l :: _ => l.die
  | [] => 0

/-- An item as it is dispatched. -/
def newItem (k : Kernel) (iid id0 : Nat) (places : List Loc) : Item :=
  { iid := iid, strands := (List.range places.length).map (id0 + ·), committed := !attrRpl k.record, complete := false,
    lost := false, die := firstDie places, cores := (coresOf places).map fun p => 16 * p.1 + p.2, scr := [],
    savedTiles := [], savedOps := [], savedPages := [] }

/-- The kernel after the dispatch of item i. -/
def Kernel.dispatched (k : Kernel) (total i : Nat) (it : Item) : Kernel :=
  { k with
    next := if k.returned.contains i then k.next else k.next + 1, returned := k.returned.filter (· != i),
    items := tput k.items i it,
    state := if (k.returned.filter (· != i)).isEmpty ∧ (if k.returned.contains i then k.next else k.next + 1) = total
      then 1 else 0 }

/-- What the dispatch of item i does when its cores have answered. -/
def afterReady (k : Kernel) (ctx kid i : Nat) (places : List Loc) (q : State × Bool) : Result :=
  if !q.2 then .next q.1
  else .next ((q.1.placeItem k ctx kid (recIbase k.record + i) places).modKernel ctx kid
    (·.dispatched (recItems k.record) i (newItem k (recIbase k.record + i) q.1.nextStrand places)))

/-- The first strand on a core is found by the places' cores. -/
theorem firstOn_eq {places : List Loc} {p : Nat × Nat} {n : Nat} (h : (places.map fun l => (l.die, l.core))[n]? = some p)
    (hfirst : ∀ m, m < n → (places.map fun l => (l.die, l.core))[m]? ≠ some p) : firstOn places p = n := by
  have key (places : List Loc) (n m : Nat) (h : (places.map fun l => (l.die, l.core))[n]? = some p)
      (hfirst : ∀ j, j < n → (places.map fun l => (l.die, l.core))[j]? ≠ some p) :
      placeNumber ((places.zipIdx m).find? fun q => (q.1.die, q.1.core) == p) = m + n := by
    induction places generalizing n m with
    | nil => simp at h
    | cons l ls ih =>
      rw [List.zipIdx_cons]
      cases n with
      | zero =>
        have hl : (l.die, l.core) = p := by simpa using h
        rw [List.find?_cons_of_pos (by simpa using hl)]
        rfl
      | succ n =>
        have hl : (l.die, l.core) ≠ p := by simpa using hfirst 0 (Nat.succ_pos n)
        rw [List.find?_cons_of_neg (by simpa using hl), ih n (m + 1) (by simpa using h)
          fun j hj => by simpa using hfirst (j + 1) (Nat.succ_lt_succ hj)]
        omega
  exact (key places n 0 h hfirst).trans (Nat.zero_add n)

/-- What the event's placements must be. -/
theorem placings_eq {ctx kid iid : Nat} {places : List Loc} {on : List Placing}
    (hcores : on.map (fun p => (p.die, p.core)) = coresOf places)
    (h : ∀ p, p ∈ on → p.load = none ∧ p.ctx = ctx ∧ p.kid = kid ∧ p.iid = iid ∧
      (places.map fun l => (l.die, l.core))[p.sid]? = some (p.die, p.core) ∧
      ∀ n, n < p.sid → (places.map fun l => (l.die, l.core))[n]? ≠ some (p.die, p.core)) :
    placingsOf ctx kid iid places = on := by
  unfold placingsOf
  rw [← hcores, List.map_map]
  refine (List.map_congr_left fun p hp => ?_).trans (List.map_id on)
  obtain ⟨hload, hctx, hkid, hiid, hsid, hfirst⟩ := h p hp
  have hf := firstOn_eq hsid hfirst
  obtain ⟨load, c, kd, ii, sid, die, core⟩ := p
  simp only at hload hctx hkid hiid hf
  subst hload hctx hkid hiid
  simp only [Function.comp, hf, id]

/-- ITEM_DISPATCH of places that suit: the cores are prepared, and where all are ready the item is placed. -/
theorem exec_itemDispatch {s : State} {ctx kid : Nat} {k : Kernel} {i : Nat} {places : List Loc} (h : s.suits ctx kid k i places) :
    exec (.itemDispatch ctx kid places) s =
      afterReady k ctx kid i places (s.prepareCores (placingsOf ctx kid (recIbase k.record + i) places)) := by
  obtain ⟨hk, hnext, hstate, hks, hwin, hlen, hspan, hlocal, hfree, hone, hroom⟩ := h
  change execItemDispatch ctx kid places s = _
  unfold execItemDispatch
  simp only [hk, hnext]
  refine (if_neg ?_).trans ?_
  · have hl : (!attrLocal k.record || places.all fun l => l.die == k.launchDie) = true := by
      cases ha : attrLocal k.record
      · rfl
      · simpa using hlocal ha
    have hr : ((coresOf places).all fun p => s.contextRoom ctx p.1 p.2 && !s.recordOf ctx p.1 p.2 &&
        decide (s.scrUsed p.1 p.2 + recScr k.record * 256 ≤ scratchSize)) = true := by
      rw [List.all_eq_true]
      intro p hp
      obtain ⟨h1, h2, h3⟩ := hroom p hp
      rw [h1, h2, decide_eq_true h3]
      rfl
    have ho : (decide (1 < (coresOf places).length) && s.allCores.any fun p => s.oneCoreFits ctx k p.1 p.2) = false := by
      rcases hone with h1 | h1
      · rw [decide_eq_false (by omega)]
        rfl
      · rw [Bool.and_eq_false_iff, List.any_eq_false]
        exact .inr fun p hp => by rw [h1 p hp]; exact Bool.false_ne_true
    rw [hl, hr, ho, hstate, hks, hwin, hspan, hfree, decide_eq_true hlen]
    decide
  · rfl

/-- What placing strands leaves: of the machine all but the dies and the strands. -/
theorem placeFrom_keeps (s : State) (k : Kernel) (ctx kid iid id0 m : Nat) (places : List Loc) :
    (s.placeFrom k ctx kid iid id0 m places).ctxs = s.ctxs := by
  induction places generalizing s m with
  | nil => rfl
  | cons l ls ih => exact ih _ (m + 1)

theorem placeFrom_cons (s : State) (k : Kernel) (ctx kid iid id0 m : Nat) (l : Loc) (ls : List Loc) :
    s.placeFrom k ctx kid iid id0 m (l :: ls) =
      ({ s.settleIn ctx l with strands := tput s.strands (id0 + m) (newStrand k ctx kid iid m l s.seqNo) } : State).placeFrom
        k ctx kid iid id0 (m + 1) ls := rfl

theorem placeFrom_below (s : State) (k : Kernel) (ctx kid iid id0 m : Nat) (places : List Loc) (j : Nat) (hj : j < id0 + m) :
    (s.placeFrom k ctx kid iid id0 m places).strand j = s.strand j := by
  induction places generalizing s m with
  | nil => rfl
  | cons l ls ih =>
    rw [placeFrom_cons, ih _ (m + 1) (by omega)]
    exact tget_tput_ne _ _ _ _ (by omega)

/-- Each place has its strand. -/
theorem placeFrom_strand (s : State) (k : Kernel) (ctx kid iid id0 m : Nat) (places : List Loc) (n : Nat) (l : Loc)
    (h : places[n]? = some l) :
    (s.placeFrom k ctx kid iid id0 m places).strand (id0 + (m + n)) = some (newStrand k ctx kid iid (m + n) l s.seqNo) := by
  induction places generalizing s m n with
  | nil => simp at h
  | cons p ps ih =>
    rw [placeFrom_cons]
    cases n with
    | zero =>
      obtain rfl : p = l := by simpa using h
      rw [placeFrom_below _ _ _ _ _ _ _ _ _ (by omega)]
      exact tget_tput_same _ _ _
    | succ n =>
      have hrec := ih { s.settleIn ctx p with strands := tput s.strands (id0 + m) (newStrand k ctx kid iid m p s.seqNo) } (m + 1) n
        (by simpa using h)
      rw [show m + (n + 1) = m + 1 + n by omega]
      exact hrec

/-- The acquires after the placing touch memory and caches alone. -/
theorem placeItem_stores (s : State) (k : Kernel) (ctx kid iid : Nat) (places : List Loc) :
    Stores { ({ s with seqNo := s.seqNo + 1 } : State).placeFrom k ctx kid iid s.nextStrand 0 places with
      nextStrand := s.nextStrand + places.length } (s.placeItem k ctx kid iid places) :=
  Stores.foldl _ (fun s (p : Nat × Nat) => acquire_stores s p.1 p.2 4 true) _ _

theorem Stores.nextStrand {s t : State} (h : Stores s t) : t.nextStrand = s.nextStrand := by
  have h2 := congrArg State.nextStrand h.only
  exact h2
theorem Stores.strand {s t : State} (h : Stores s t) (j : Nat) : t.strand j = s.strand j :=
  congrArg (fun l => tget l j) h.strands

theorem dispatch_says : DispatchSays := by
  intro s ctx kid k i places on hsuits hcores hon
  have hx := exec_itemDispatch hsuits
  rw [placings_eq hcores hon] at hx
  refine ⟨fun s1 hp => ?_, fun s1 hp hk => ?_⟩
  · rw [hp] at hx
    exact hx
  · rw [hp] at hx
    have hst := placeItem_stores s1 k ctx kid (recIbase k.record + i) places
    have hkern : (s1.placeItem k ctx kid (recIbase k.record + i) places).kernel ctx kid = some k :=
      (kernel_congr (hst.ctxs.trans (placeFrom_keeps _ _ _ _ _ _ _ _)) ctx kid).trans hk
    refine ⟨_, _, _, hx, ?_, fun n l hl => ?_, fun j hj => ?_, kernel_modKernel hkern _, tget_tput_same _ _ _, rfl, rfl, rfl, rfl,
      rfl, rfl, rfl, rfl, ?_⟩
    · rw [State.modKernel_nextStrand]
      exact hst.nextStrand
    · rw [strand_modKernel, hst.strand]
      have hn := placeFrom_strand { s1 with seqNo := s1.seqNo + 1 } k ctx kid (recIbase k.record + i) s1.nextStrand 0 places n l hl
      rw [Nat.zero_add] at hn
      exact hn
    · rw [strand_modKernel, hst.strand]
      exact placeFrom_below { s1 with seqNo := s1.seqNo + 1 } k ctx kid (recIbase k.record + i) s1.nextStrand 0 places j hj
    · exact if_congr (and_congr_left' List.isEmpty_iff) rfl rfl

/-! Completion. -/

theorem kernel_devWrite (s : State) (die core n va : Nat) (bs : List Byte) (kid0 : Nat) (r : Retry) (ctx kid : Nat) :
    (s.devWrite die core n va bs kid0 r).kernel ctx kid = s.kernel ctx kid := by
  unfold State.devWrite
  split
  · exact kernel_congr (devPuts_stores _ _ _ _).ctxs ctx kid
  · exact kernel_modCtx _ _ _ _ _ fun _ => rfl
  · exact kernel_modCtx _ _ _ _ _ fun _ => rfl
  · dsimp only
    refine (kernel_modCtx _ _ _ _ _ ?_).trans ?_
    · exact fun _ => rfl
    · unfold State.openDeviceBatch State.openBatch
      exact kernel_modCtx _ _ _ _ _ fun _ => rfl

theorem kernel_writeDone (s : State) (n m ctx kid : Nat) : (s.writeDone n m).kernel ctx kid = s.kernel ctx kid := by
  unfold State.writeDone
  split
  · dsimp only
    split
    · rfl
    · exact kernel_devWrite _ _ _ _ _ _ _ _ _ _
  · rfl

theorem strands_writeDone (s : State) (ctx kid : Nat) : (s.writeDone ctx kid).strands = s.strands := by
  unfold State.writeDone
  split
  · dsimp only
    split
    · rfl
    · exact strands_devWrite _ _ _ _ _ _ _ _
  · rfl

theorem strands_seedDropAll (s : State) (owner : Nat × Nat) (slot : Nat) : (s.seedDropAll owner slot).strands = s.strands := by
  unfold State.seedDropAll
  split
  · exact State.modKernel_strands _ _ _ _
  · rfl

theorem strands_freeKernel (s : State) (ctx kid : Nat) : (s.freeKernel ctx kid).strands = s.strands := by
  have hdrop : (s.seedDropKernel (ctx, kid)).strands = s.strands := by
    unfold State.seedDropKernel
    split
    · exact foldl_strands _ _ (fun s _ => strands_seedDropAll s _ _) s
    · rfl
  unfold State.freeKernel
  dsimp only
  split
  · exact hdrop
  · exact hdrop

theorem kernel_freeKernel (s : State) (ctx kid : Nat) : (s.freeKernel ctx kid).kernel ctx kid = none := by
  unfold State.freeKernel
  dsimp only
  split
  · unfold State.kernel
    rw [State.ctx_modCtx_same]
    exact (tget_tdel _ _ _).trans (if_pos rfl)
  · next h => exact h

theorem strands_endKernel (s : State) (ctx kid : Nat) : (s.endKernel ctx kid).strands = s.strands := by
  unfold State.endKernel
  split
  · split
    · rfl
    · split
      · exact strands_freeKernel s ctx kid
      · split
        · exact strands_freeKernel s ctx kid
        · rfl
  · rfl

/-- A kernel that can end is no more; another stays as it is. -/
theorem kernel_endKernel (s : State) (ctx kid : Nat) :
    (s.endKernel ctx kid).kernel ctx kid = none ∨ (s.endKernel ctx kid).kernel ctx kid = s.kernel ctx kid := by
  unfold State.endKernel
  split
  · split
    · exact .inr rfl
    · split
      · exact .inl (kernel_freeKernel s ctx kid)
      · split
        · exact .inl (kernel_freeKernel s ctx kid)
        · exact .inr rfl
  · exact .inr rfl

/-- A kernel that differs from another at most in its seed list. -/
def SeedsOnly (k k2 : Kernel) : Prop := k2 = { k with seeds := k2.seeds }

theorem SeedsOnly.trans {k k2 k3 : Kernel} (h : SeedsOnly k k2) (h2 : SeedsOnly k2 k3) : SeedsOnly k k3 := by
  unfold SeedsOnly at h h2 ⊢
  rw [h2, h]

theorem kernel_seedDropAll {s : State} {ctx kid : Nat} {k : Kernel} (h : s.kernel ctx kid = some k) (slot : Nat) :
    ∃ k2, (s.seedDropAll (ctx, kid) slot).kernel ctx kid = some k2 ∧ SeedsOnly k k2 := by
  unfold State.seedDropAll
  split
  · exact ⟨_, kernel_modKernel h _, rfl⟩
  · exact ⟨k, h, rfl⟩

theorem strands_endOps (s : State) (ctx kid : Nat) (b : Bool) (ops : List MatOp) : (s.endOps ctx kid b ops).strands = s.strands := by
  unfold State.endOps
  refine foldl_strands _ _ (fun s o => ?_) s
  dsimp only
  split
  · split
    · exact strands_seedDropAll _ _ _
    · rfl
  · rfl

/-- The end of saved operations changes at most the kernel's seed list. -/
theorem kernel_endOps (b : Bool) (ops : List MatOp) {s : State} {ctx kid : Nat} {k : Kernel} (h : s.kernel ctx kid = some k) :
    ∃ k2, (s.endOps ctx kid b ops).kernel ctx kid = some k2 ∧ SeedsOnly k k2 ∧ (ops = [] → k2 = k) := by
  induction ops generalizing s k with
  | nil => exact ⟨k, h, rfl, fun _ => rfl⟩
  | cons o ops ih =>
    have hlet : (s.letGo o).kernel ctx kid = some k := h
    have hone : ∃ k1, (s.endOps ctx kid b [o]).kernel ctx kid = some k1 ∧ SeedsOnly k k1 := by
      unfold State.endOps
      dsimp only [List.foldl_cons, List.foldl_nil]
      split
      · split
        · exact kernel_seedDropAll hlet _
        · exact ⟨k, hlet, rfl⟩
      · exact ⟨k, hlet, rfl⟩
    obtain ⟨k1, hk1, hs1⟩ := hone
    obtain ⟨k2, hk2, hs2, -⟩ := ih hk1
    exact ⟨k2, hk2, hs1.trans hs2, fun hnil => absurd hnil (List.cons_ne_nil o ops)⟩

theorem tget_foldl_tdel {α β : Type} (l : List (Nat × β)) (m : Tab α) (j : Nat) (h : tget m j = none ∨ ∃ e ∈ l, e.1 = j) :
    tget (l.foldl (fun m e => tdel m e.1) m) j = none := by
  induction l generalizing m with
  | nil => exact h.resolve_right fun ⟨e, he, _⟩ => absurd he List.not_mem_nil
  | cons a l ih =>
    refine ih _ ?_
    rw [tget_tdel]
    rcases h with h | ⟨e, he, rfl⟩
    · exact .inl (by rw [h, ite_self])
    · rcases List.mem_cons.mp he with rfl | he
      · exact .inl (if_pos rfl)
      · exact .inr ⟨e, he, rfl⟩

/-- An item's strands, each with its number. -/
def State.itemStrands (s : State) (it : Item) : List (Nat × Strand) :=
  it.strands.filterMap fun id => (s.strand id).map fun st => (id, st)

theorem mem_itemStrands {s : State} {it : Item} {e : Nat × Strand} :
    e ∈ s.itemStrands it ↔ e.1 ∈ it.strands ∧ s.strand e.1 = some e.2 := by
  unfold State.itemStrands
  rw [List.mem_filterMap]
  constructor
  · rintro ⟨id, hid, h⟩
    obtain ⟨st, hst, rfl⟩ := Option.map_eq_some_iff.mp h
    exact ⟨hid, hst⟩
  · rintro ⟨hid, hst⟩
    exact ⟨e.1, hid, by rw [hst]; rfl⟩

theorem itemStrands_length {s : State} {it : Item} (h : ∀ id, id ∈ it.strands → ∃ st, s.strand id = some st) :
    (s.itemStrands it).length = it.strands.length := by
  unfold State.itemStrands
  refine List.filterMap_length_eq_length.mpr fun id hid => ?_
  obtain ⟨st, hst⟩ := h id hid
  rw [hst]
  rfl

theorem lastCores_eq (s : State) (it : Item) : distinct ((s.itemStrands it).map (·.2.lastCore)) = s.lastCores it := by
  unfold State.itemStrands State.lastCores
  rw [List.map_filterMap, List.map_filterMap]
  congr 1
  refine List.filterMap_congr fun id _ => ?_
  cases s.strand id <;> rfl

/-- The strands are no more. -/
def State.dropStrands (s : State) (sts : List (Nat × Strand)) : State :=
  { s with strands := sts.foldl (fun m e => tdel m e.1) s.strands }

/-- The item is gone: its tiles and saved operations, its strands and its record; the count has taken it in. -/
def State.itemEnd (s : State) (ctx kid n : Nat) (it : Item) (sts : List (Nat × Strand)) : State :=
  (((s.freeTiles (ctx, kid, it.iid)).endOps ctx kid true it.savedOps).dropStrands sts).modKernel ctx kid fun k =>
    { k.advance n with items := tdel k.items n }

theorem strands_itemEnd (s : State) (ctx kid n : Nat) (it : Item) (sts : List (Nat × Strand)) :
    (s.itemEnd ctx kid n it sts).strands = sts.foldl (fun m e => tdel m e.1) s.strands := by
  unfold State.itemEnd
  rw [State.modKernel_strands]
  unfold State.dropStrands
  dsimp only
  rw [strands_endOps]
  rfl

/-- Of its kernel the count has taken the item in and its record is gone; the seed list may be another. -/
theorem kernel_itemEnd {s : State} {ctx kid : Nat} {k : Kernel} (h : s.kernel ctx kid = some k) (n : Nat) (it : Item)
    (sts : List (Nat × Strand)) : ∃ k2, SeedsOnly k k2 ∧ (it.savedOps = [] → k2 = k) ∧
      (s.itemEnd ctx kid n it sts).kernel ctx kid = some { k2.advance n with items := tdel k2.items n } := by
  have hfree : (s.freeTiles (ctx, kid, it.iid)).kernel ctx kid = some k := h
  obtain ⟨k2, hk2, hseeds, hnil⟩ := kernel_endOps true it.savedOps hfree
  have hdrop : (((s.freeTiles (ctx, kid, it.iid)).endOps ctx kid true it.savedOps).dropStrands sts).kernel ctx kid = some k2 := hk2
  exact ⟨k2, hseeds, hnil, kernel_modKernel hdrop _⟩

/-- The count has risen. -/
def countRose (k : Kernel) (q : Option Kernel) : Bool := match q with
  | some k2 => k2.count != k.count
  | none => false

/-- The count is written where it rose, and a kernel with nothing left ends. -/
def State.itemNoted (s : State) (ctx kid : Nat) (k : Kernel) : State :=
  (if countRose k (s.kernel ctx kid) then s.writeDone ctx kid else s).endKernel ctx kid

theorem strands_itemNoted (s : State) (ctx kid : Nat) (k : Kernel) : (s.itemNoted ctx kid k).strands = s.strands := by
  unfold State.itemNoted
  rw [strands_endKernel]
  split
  · exact strands_writeDone s ctx kid
  · rfl

theorem kernel_itemNoted (s : State) (ctx kid : Nat) (k : Kernel) :
    (s.itemNoted ctx kid k).kernel ctx kid = none ∨ (s.itemNoted ctx kid k).kernel ctx kid = s.kernel ctx kid := by
  unfold State.itemNoted
  split
  · exact (kernel_endKernel _ ctx kid).imp_right (·.trans (kernel_writeDone s ctx kid ctx kid))
  · exact kernel_endKernel s ctx kid

/-- ITEM_COMPLETE of an item whose strands have all Exited. -/
theorem exec_itemComplete {s : State} {ctx kid n : Nat} {k : Kernel} {it : Item} (hk : s.kernel ctx kid = some k)
    (hit : tget k.items n = some it) (hlost : it.lost = false) (hstate : (s.ctx ctx).state ≠ 5)
    (hall : ∀ id, id ∈ it.strands → ∃ st, s.strand id = some st ∧ st.run = .exited ∧ st.doomed = false) :
    exec (.itemComplete ctx kid n) s =
      let s1 := (s.lastCores it).foldl (fun (s : State) (i : Nat) => s.release (i / 16) (i % 16) 4 true) s
      if (s.lastCores it).any fun i => s1.copiesWait (i / 16) then .next s1
      else .next ((s1.itemEnd ctx kid n it (s.itemStrands it)).itemNoted ctx kid k) := by
  have hlen : ((s.itemStrands it).length != it.strands.length) = false := by
    rw [itemStrands_length fun id hid => (hall id hid).imp fun _ h => h.1]
    exact bne_self_eq_false _
  have hruns : ((s.itemStrands it).any fun e => e.2.run != .exited || e.2.doomed) = false := by
    rw [List.any_eq_false]
    intro e he
    obtain ⟨hid, hst⟩ := mem_itemStrands.mp he
    obtain ⟨st, hst2, hrun, hdoomed⟩ := hall e.1 hid
    obtain rfl : e.2 = st := Option.some.inj (hst.symm.trans hst2)
    rw [hrun, hdoomed]
    decide
  rw [← lastCores_eq]
  change execItemComplete ctx kid n s = _
  unfold execItemComplete
  rw [hk]
  dsimp only
  rw [hit]
  refine (if_neg ?_).trans rfl
  change ¬ (it.lost || (s.itemStrands it).length != it.strands.length ||
    (s.itemStrands it).any (fun e => e.2.run != .exited || e.2.doomed) || (s.ctx ctx).state == 5) = true
  rw [hlost, hlen, hruns, beq_false_of_ne hstate]
  decide

theorem itemDone_says : ItemDoneSays := by
  intro s ctx kid n k it hk hit hlost hstate hall
  have hx := exec_itemComplete hk hit hlost hstate hall
  dsimp only at hx ⊢
  have hst : Stores s ((s.lastCores it).foldl (fun (s : State) (i : Nat) => s.release (i / 16) (i % 16) 4 true) s) :=
    Stores.foldl _ (fun s i => release_stores s _ _ _ _) _ _
  revert hx hst
  generalize (s.lastCores it).foldl (fun (s : State) (i : Nat) => s.release (i / 16) (i % 16) 4 true) s = s1
  intro hx hst
  refine ⟨fun hw => hx.trans (if_pos hw), fun hw => ⟨_, hx.trans (if_neg (by rw [hw]; exact Bool.false_ne_true)), ?_, ?_⟩⟩
  · intro id hid
    obtain ⟨st, hs, -, -⟩ := hall id hid
    unfold State.strand
    rw [strands_itemNoted, strands_itemEnd]
    exact tget_foldl_tdel _ _ _ (.inr ⟨(id, st), mem_itemStrands.mpr ⟨hid, hs⟩, rfl⟩)
  · obtain ⟨k2, hseeds, hnil, hend⟩ := kernel_itemEnd ((kernel_congr hst.ctxs ctx kid).trans hk) n it (s.itemStrands it)
    refine (kernel_itemNoted _ ctx kid k).imp_right fun hsame => ⟨_, hsame.trans hend, ?_, fun h0 => ?_⟩
    · unfold SeedsOnly at hseeds
      rw [hseeds]
      rfl
    · rw [hnil h0]
      rfl

/-- Settles O48: strands are created as R63 and R285 say and placed once every core is ready, nothing changes hands before, and the
count runs to the first item that is not complete. -/
theorem items : Obligations.Items :=
  ⟨newStrand_says, prepare_says, dispatch_says, nextItem_says, itemDone_says, count_says⟩

end Sys2Proof.Machine
end

section
/-! The encoder inverts the decoder, and the W words that are no instruction (O6, O8). -/

open Sys2Proof Sys2Proof.Machine
namespace Sys2Proof

/-! The encoder's layouts hold every bit of a word (R82, R85, R91). -/

theorem encH_hFields {x : BitVec 16} (h : x.getLsbD 0 = false) : encH (x.extractLsb' 2 4).toNat (hFields x) = x := by
  have h0 : 0#1 = x.extractLsb' 0 1 := BitVec.eq_of_getLsbD_eq fun i hi => by
    obtain rfl : i = 0 := by omega
    exact h.symm.trans (by simp)
  unfold encH hFields
  rw [h0, BitVec.ofNat_toNat, BitVec.setWidth_eq]
  simp (disch := rfl) only [BitVec.extractLsb'_append_extractLsb'_eq_extractLsb']
  exact BitVec.extractLsb'_eq_self

theorem encWR_wrFields {x : BitVec 32} (h : x.extractLsb' 0 2 = 1#2) : encWR (x.extractLsb' 8 6).toNat (wrFields x) = x := by
  unfold encWR wrFields
  rw [← h, BitVec.ofNat_toNat, BitVec.setWidth_eq]
  simp (disch := rfl) only [BitVec.extractLsb'_append_extractLsb'_eq_extractLsb']
  exact BitVec.extractLsb'_eq_self

theorem encWI_wiFields {x : BitVec 32} (h : x.extractLsb' 0 2 = 1#2) : encWI (x.extractLsb' 8 6).toNat (wiFields x) = x := by
  unfold encWI wiFields
  rw [← h, BitVec.ofNat_toNat, BitVec.setWidth_eq]
  simp (disch := rfl) only [BitVec.extractLsb'_append_extractLsb'_eq_extractLsb']
  exact BitVec.extractLsb'_eq_self

theorem encL_lFields {x : BitVec 64} (h : x.extractLsb' 0 2 = 3#2) : encL (x.extractLsb' 16 9).toNat (lFields x) = x := by
  unfold encL lFields
  rw [← h, BitVec.ofNat_toNat, BitVec.setWidth_eq]
  simp (disch := rfl) only [BitVec.extractLsb'_append_extractLsb'_eq_extractLsb']
  exact BitVec.extractLsb'_eq_self

/-! Each operation of the decoder's tables is encoded under its own code. -/

theorem mem_of_lookupOp {α : Type} {l : List (Nat × α)} {n : Nat} {v : α} (h : lookupOp l n = some v) : (n, v) ∈ l := by
  induction l with
  | nil => cases h
  | cons p r ih =>
    unfold lookupOp at h
    split at h
    · next hk =>
      cases h
      rw [← hk]
      exact List.mem_cons_self
    · exact List.mem_cons_of_mem _ (ih h)

/-- Every entry of a table encodes its fields under its code. -/
theorem encodeWord_hTable {n : Nat} {k : HFields → Instr} (h : lookupOp hTable n = some k) (f : HFields) :
    encodeWord (k f) = some (.h (encH n f)) := by
  have ht : hTable.Forall fun p => encodeWord (p.2 f) = some (.h (encH p.1 f)) := by
    repeat' apply And.intro
    all_goals rfl
  exact List.forall_iff_forall_mem.1 ht _ (mem_of_lookupOp h)
theorem encodeWord_wrTable {n : Nat} {k : WRFields → Instr} (h : lookupOp wrTable n = some k) (f : WRFields) :
    encodeWord (k f) = some (.w (encWR n f)) := by
  have ht : wrTable.Forall fun p => encodeWord (p.2 f) = some (.w (encWR p.1 f)) := by
    repeat' apply And.intro
    all_goals rfl
  exact List.forall_iff_forall_mem.1 ht _ (mem_of_lookupOp h)
theorem encodeWord_wiTable {n : Nat} {k : WIFields → Instr} (h : lookupOp wiTable n = some k) (f : WIFields) :
    encodeWord (k f) = some (.w (encWI n f)) := by
  have ht : wiTable.Forall fun p => encodeWord (p.2 f) = some (.w (encWI p.1 f)) := by
    repeat' apply And.intro
    all_goals rfl
  exact List.forall_iff_forall_mem.1 ht _ (mem_of_lookupOp h)
theorem encodeWord_lTable {n : Nat} {k : LFields → Instr} (h : lookupOp lTable n = some k) (f : LFields) :
    encodeWord (k f) = some (.l (encL n f)) := by
  have ht : lTable.Forall fun p => encodeWord (p.2 f) = some (.l (encL p.1 f)) := by
    repeat' apply And.intro
    all_goals rfl
  exact List.forall_iff_forall_mem.1 ht _ (mem_of_lookupOp h)

/-- The two operations of one op9 have one encoding: m3, which tells them apart, is a field of it. -/
theorem encodeWord_byForm (i : Instr) : encodeWord (byForm i) = encodeWord i := by
  unfold byForm
  split
  case h_4 => rfl
  all_goals
    split
    · rfl
    · rfl

/-! Which words the decoder reads from a table, and which by themselves. -/

/-- What the opcode of a W word says that it decodes to (R87 to R90). -/
theorem decodeW_cases (x : BitVec 32) :
    (∃ k, lookupOp wrTable (x.extractLsb' 8 6).toNat = some k ∧ decodeW x = k (wrFields x)) ∨
      (∃ k, lookupOp wiTable (x.extractLsb' 8 6).toNat = some k ∧ decodeW x = k (wiFields x)) ∨
      decodeW x = .yieldW ∨ decodeW x = .encodingNotAnInstruction := by
  unfold decodeW
  split
  · next k hk => exact .inl ⟨k, hk, rfl⟩
  · split
    · next k hk => exact .inr (.inl ⟨k, hk, rfl⟩)
    · split
      · exact .inr (.inr (.inl rfl))
      · exact .inr (.inr (.inr rfl))

/-- The same for op4 of a halfword (R83): every code names an operation. -/
theorem decodeH_eq (x : BitVec 16) :
    ∃ k, lookupOp hTable (x.extractLsb' 2 4).toNat = some k ∧ decodeH x = k (hFields x) := by
  have hsome : ∀ n, n < 16 → (lookupOp hTable n).isSome = true := by decide
  obtain ⟨k, hk⟩ := Option.isSome_iff_exists.1 (hsome _ (x.extractLsb' 2 4).isLt)
  exact ⟨k, hk, by rw [decodeH, hk]⟩

/-- The same for op9 of a doubleword (R100, R101). -/
theorem decodeL_cases (x : BitVec 64) :
    (∃ k, lookupOp lTable (x.extractLsb' 16 9).toNat = some k ∧ decodeL x = byForm (k (lFields x))) ∨
      decodeL x = .halt ∨ decodeL x = .encodingNotAnInstruction := by
  unfold decodeL
  split
  · next k hk => exact .inl ⟨k, hk, rfl⟩
  · split
    · exact .inr (.inl rfl)
    · exact .inr (.inr rfl)

theorem encodeWord_decodeH {x : BitVec 16} (h : x.getLsbD 0 = false) : encodeWord (decodeH x) = some (.h x) := by
  obtain ⟨k, hk, hx⟩ := decodeH_eq x
  rw [hx, encodeWord_hTable hk, encH_hFields h]

theorem encodeWord_decodeW {x : BitVec 32} (h : x.extractLsb' 0 2 = 1#2) (hn : decodeW x ≠ .encodingNotAnInstruction)
    (hy : decodeW x ≠ .yieldW) : encodeWord (decodeW x) = some (.w x) := by
  obtain ⟨k, hk, hx⟩ | ⟨k, hk, hx⟩ | hx | hx := decodeW_cases x
  · rw [hx, encodeWord_wrTable hk, encWR_wrFields h]
  · rw [hx, encodeWord_wiTable hk, encWI_wiFields h]
  · exact absurd hx hy
  · exact absurd hx hn

theorem encodeWord_decodeL {x : BitVec 64} (h : x.extractLsb' 0 2 = 3#2) (hn : decodeL x ≠ .encodingNotAnInstruction)
    (hh : decodeL x ≠ .halt) : encodeWord (decodeL x) = some (.l x) := by
  obtain ⟨k, hk, hx⟩ | hx | hx := decodeL_cases x
  · rw [hx, encodeWord_byForm, encodeWord_lTable hk, encL_lFields h]
  · exact absurd hx hh
  · exact absurd hx hn

/-- Settles O6: the layouts that the decoder slices hold every bit of the word, and each table entry is encoded under the code
that it was found by. -/
theorem encodeDecode : Obligations.EncodeDecode :=
  ⟨fun x => (Bool.eq_false_or_eq_true (x.getLsbD 0)).symm.imp encodeWord_decodeH id,
    fun _ h hn hy => encodeWord_decodeW h hn hy, fun _ h hn hh => encodeWord_decodeL h hn hh⟩

/-! W words that are no instruction (R89, R90). -/

/-- An opcode that neither table of W lists is an instruction only as a YIELD. -/
theorem decodeW_none {x : BitVec 32} (hr : lookupOp wrTable (x.extractLsb' 8 6).toNat = none)
    (hi : lookupOp wiTable (x.extractLsb' 8 6).toNat = none)
    (hy : x.extractLsb' 8 6 = 52 → x.extractLsb' 3 5 ≠ 0 ∨ x.extractLsb' 14 18 ≠ 0) :
    decodeW x = .encodingNotAnInstruction := by
  rw [decodeW, hr, hi]
  refine if_neg fun h => ?_
  simp only [Bool.and_eq_true, decide_eq_true_eq] at h
  obtain ⟨⟨h52, hd⟩, ho⟩ := h
  exact (hy h52).elim (absurd hd) (absurd ho)

theorem lookup_unused {n : Nat} (hn : n < 64) (h : n = 0 ∨ n = 46 ∨ n = 47 ∨ n = 52 ∨ 56 ≤ n) :
    lookupOp wrTable n = none ∧ lookupOp wiTable n = none := by
  have ht : ∀ n, n < 64 → (n = 0 ∨ n = 46 ∨ n = 47 ∨ n = 52 ∨ 56 ≤ n) →
      (lookupOp wrTable n).isNone = true ∧ (lookupOp wiTable n).isNone = true := by decide
  simpa using ht n hn h

theorem lookup_used {n : Nat} (h0 : n ≠ 0) (h46 : n ≠ 46) (h47 : n ≠ 47) (h52 : n ≠ 52) (hn : n < 56) :
    (lookupOp wrTable n).isSome = true ∨ (lookupOp wiTable n).isSome = true := by
  have ht : ∀ n, n < 56 → (n = 0 ∨ n = 46 ∨ n = 47 ∨ n = 52) ∨
      (lookupOp wrTable n).isSome = true ∨ (lookupOp wiTable n).isSome = true := by decide
  exact (ht n hn).resolve_left (by omega)

/-- What the tables list is an instruction: it has an encoding. -/
theorem decodeW_some {x : BitVec 32} (h : (lookupOp wrTable (x.extractLsb' 8 6).toNat).isSome = true ∨
    (lookupOp wiTable (x.extractLsb' 8 6).toNat).isSome = true) : decodeW x ≠ .encodingNotAnInstruction := by
  suffices ∃ e, encodeWord (decodeW x) = some e by
    intro hx
    rw [hx] at this
    obtain ⟨e, he⟩ := this
    cases he
  rw [decodeW]
  split
  · next k hk => exact ⟨_, encodeWord_wrTable hk _⟩
  · next hr =>
    rw [hr] at h
    obtain ⟨k, hk⟩ := Option.isSome_iff_exists.1 (h.resolve_left Bool.false_ne_true)
    rw [hk]
    exact ⟨_, encodeWord_wiTable hk _⟩

/-- The W-I or W-B operation of an opcode. -/
theorem decodeW_wi {x : BitVec 32} {n : Nat} {k : WIFields → Instr} (hx : (x.extractLsb' 8 6).toNat = n)
    (hr : lookupOp wrTable n = none) (hk : lookupOp wiTable n = some k) : decodeW x = k (wiFields x) := by
  rw [decodeW, hx, hr, hk]

theorem noWord_says : NoWordSays := by
  intro x
  have hlt : (x.extractLsb' 8 6).toNat < 64 := (x.extractLsb' 8 6).isLt
  refine ⟨fun h => ?_, fun h0 h46 h47 h52 h56 => decodeW_some (lookup_used h0 h46 h47 h52 h56), fun h hy => ?_, fun h hd => ?_,
    fun h ho => ?_⟩
  · obtain ⟨hr, hi⟩ := lookup_unused hlt (by omega)
    refine decodeW_none hr hi fun h52 => ?_
    rw [h52] at h
    exact absurd h (by decide)
  · obtain ⟨hr, hi⟩ := lookup_unused hlt (by omega)
    exact decodeW_none hr hi fun _ => hy
  · have hw : (x.extractLsb' 3 5 == 0) = false := beq_false_of_ne hd
    obtain h | h := h
    · rw [decodeW_wi h rfl rfl]
      exact hw
    · rw [decodeW_wi h rfl rfl]
      exact hw
  · rw [decodeW_wi h rfl rfl]
    exact beq_false_of_ne ho

/-- Settles O8: an opcode that no table of W lists decodes to no instruction, and the checks of CALL, RCV and EXIT compare their
fields with zero. -/
theorem wordsRefused : Obligations.WordsRefused := noWord_says

end Sys2Proof
end

section
/-! Fetch and the turn of a strand (O9, O10). -/

open Sys2Proof
namespace Sys2Proof.Machine

/-! What a fetch reads is the same where only caches of translations differ. -/

section
variable {s t : State} {id : Nat} (h : OnlyCaches s t id)
include h

theorem OnlyCaches.die_of {α : Type} (g : Die → α) (hg : ∀ x : Die, g x = g x.uncached) (d : Nat) :
    g (t.die d) = g (s.die d) := by
  rw [hg, hg (s.die d), h.dies.2 d]
theorem OnlyCaches.gtime : t.gtime = s.gtime := by
  have h2 := congrArg State.gtime h.rest
  exact h2
theorem OnlyCaches.links : t.links = s.links := by
  have h2 := congrArg State.links h.rest
  exact h2

theorem OnlyCaches.codeByte (d c pa : Nat) : t.codeByte d c pa = s.codeByte d c pa := by
  have hl1 : (t.core d c).l1 = (s.core d c).l1 := by
    have h2 := congrArg Core.l1 (h.cores d c)
    exact h2
  unfold State.codeByte
  rw [hl1, h.die_of Die.copies (fun _ => rfl), h.mem]

theorem OnlyCaches.codeBytes (d c pa n : Nat) : t.codeBytes d c pa n = s.codeBytes d c pa n := by
  induction n generalizing pa with
  | zero => rfl
  | succ n ih => rw [State.codeBytes, State.codeBytes, h.codeByte, ih]

theorem OnlyCaches.linkState (a b : Nat) : t.linkState a b = s.linkState a b := by
  unfold State.linkState
  rw [h.links]

theorem OnlyCaches.readBadFrom (d pa : Nat) : t.readBadFrom d pa = s.readBadFrom d pa := by
  unfold State.readBadFrom State.linkDead State.readBad State.regionOf
  dsimp only
  rw [h.linkState, h.gtime, h.die_of Die.regions (fun _ => rfl), h.die_of Die.lost (fun _ => rfl)]

theorem OnlyCaches.heldFrom (d pa : Nat) : t.heldFrom d pa = s.heldFrom d pa := by
  unfold State.heldFrom State.linkSlow State.linkUp State.linkDead State.frameParked
  dsimp only
  rw [h.linkState, h.die_of Die.parked (fun _ => rfl), h.die_of Die.moving (fun _ => rfl)]
end

/-- A part of a fetch whose page translates, and whose bytes meet no error and do not wait. -/
theorem fetchPart_ok {s s1 : State} {st : Strand} {va pa n : Nat}
    (ht : s.translate st.ctx st.d st.k (some st.ln) va kFetch = (s1, .ok pa))
    (hb : ∀ j, j < n → s.readBadFrom st.d (pa + j) = none ∧ s.heldFrom st.d (pa + j) = false) :
    s.fetchPart st va n = (s1, .ok (s.codeBytes st.d st.k pa n)) := by
  have h : OnlyCaches s s1 0 := by
    have h2 := onlyCaches_translate s 0 st.ctx st.d st.k (some st.ln) va kFetch
    rwa [ht] at h2
  have hheld : s1.heldFroms st.d pa n = false := by
    unfold State.heldFroms
    rw [List.any_eq_false]
    intro j hj
    rw [h.heldFrom, (hb j (List.mem_range.1 hj)).2]
    decide
  have hbad : ((List.range n).findSome? fun j => s1.readBadFrom st.d (pa + j)) = none := by
    rw [List.findSome?_eq_none_iff]
    intro j hj
    rw [h.readBadFrom, (hb j (List.mem_range.1 hj)).1]
  unfold State.fetchPart
  rw [ht]
  simp only [hheld, hbad, h.codeBytes]
  rfl

theorem instrLen_cases (x : BitVec 16) : instrLen x = 2 ∨ instrLen x = 4 ∨ instrLen x = 8 := by
  unfold instrLen
  split
  · exact .inl rfl
  · split
    · exact .inr (.inr rfl)
    · exact .inr (.inl rfl)

theorem getLsbD_half (b0 b1 : Byte) {k : Nat} (hk : k < 8) : (Sys2Proof.half b0 b1).getLsbD k = b0.getLsbD k := by
  unfold Sys2Proof.half
  rw [BitVec.getLsbD_append, if_pos hk]

/-- An instruction is as long as its first halfword says, and its own bytes decode to it (R80). -/
theorem decode_front {b0 b1 b2 b3 b4 b5 b6 b7 : Byte} {i : Instr} {n : Nat}
    (h : decode [b0, b1, b2, b3, b4, b5, b6, b7] = .ok (i, n)) :
    n = instrLen (Sys2Proof.half b0 b1) ∧ decode ([b0, b1, b2, b3, b4, b5, b6, b7].take n) = .ok (i, n) := by
  unfold instrLen
  rw [getLsbD_half b0 b1 (by decide), getLsbD_half b0 b1 (by decide)]
  unfold decode at h
  cases e0 : b0.getLsbD 0 with
  | false =>
    simp only [e0] at h
    cases h
    refine ⟨rfl, ?_⟩
    simp only [List.take, decode, e0]
    rfl
  | true =>
    cases e1 : b0.getLsbD 1 with
    | false =>
      simp only [e0, e1] at h
      cases h
      refine ⟨rfl, ?_⟩
      simp only [List.take, decode, e0, e1]
      rfl
    | true =>
      simp only [e0, e1] at h
      cases h
      refine ⟨rfl, ?_⟩
      simp only [List.take, decode, e0, e1]
      rfl

theorem codeBytes_take (s : State) (d c pa n : Nat) (hn : n ≤ 8) :
    (s.codeBytes d c pa 8).take n = s.codeBytes d c pa n := by
  suffices ∀ m n pa, n ≤ m → (s.codeBytes d c pa m).take n = s.codeBytes d c pa n from this 8 n pa hn
  intro m
  induction m with
  | zero =>
    intro n pa h
    rw [Nat.le_zero.1 h]
    rfl
  | succ m ih =>
    intro n pa h
    cases n with
    | zero => rfl
    | succ n => exact congrArg (_ :: ·) (ih n _ (Nat.le_of_succ_le_succ h))

theorem fetch_says : FetchSays := by
  intro s s1 s2 st pa i n h48 h4096 ht1 ht2 hb hd
  have hc : OnlyCaches s s1 0 := by
    have h := onlyCaches_translate s 0 st.ctx st.d st.k (some st.ln) st.pc.toNat kFetch
    rwa [ht1] at h
  obtain ⟨hn, hfront⟩ := decode_front hd
  have hn8 : 2 ≤ n ∧ n ≤ 8 := by
    have := instrLen_cases (Sys2Proof.half (s.codeByte st.d st.k pa) (s.codeByte st.d st.k (pa + 1)))
    omega
  have hp1 : s.fetchPart st st.pc.toNat 2 = (s1, .ok (s.codeBytes st.d st.k pa 2)) :=
    fetchPart_ok ht1 fun j hj => hb j (by omega)
  have hp2 : s1.fetchPart st st.pc.toNat n = (s2, .ok (s.codeBytes st.d st.k pa n)) := by
    rw [← hc.codeBytes]
    exact fetchPart_ok ht2 fun j hj => by
      rw [hc.readBadFrom, hc.heldFrom]
      exact hb j (by omega)
  have hdec : decode (s.codeBytes st.d st.k pa n) = .ok (i, n) := by
    rw [← codeBytes_take s _ _ _ _ hn8.2]
    exact hfront
  have hlen : instrLen (Sys2Proof.half (nth 0 (s.codeBytes st.d st.k pa 2) 0) (nth 0 (s.codeBytes st.d st.k pa 2) 1)) = n := hn.symm
  have hfirst : min n (4096 - st.pc.toNat % 4096) = n := by omega
  unfold State.fetch
  simp only [hp1, hlen, hfirst, hp2, Nat.lt_irrefl, if_false, List.append_nil, hdec]
  rw [if_neg (by omega), if_neg (by omega)]

/-- Settles O9: a translation changes caches alone, so the second part reads the bytes that the first one did, and these are as
many as the first halfword says. -/
theorem fetch : Obligations.Fetch := fetch_says

/-! One turn. -/

/-- A strand that may issue, with nothing held and no trap pending, executes what it fetches. -/
theorem issueTurn_fetched {s s1 : State} {id : Nat} {st : Strand} {i : Instr} {ir : DWord} {n : Nat}
    (hst : s.strand id = some st) (hi : s.mayIssue st = true) (hh : st.hold = none) (hp : st.firstPend = none)
    (hf : s.fetch st = (s1, .ok i ir n)) :
    s.issueTurn id = exec i { s1.putStrand id { st with ir := ir } with cur := some id } := by
  have h : s.issueTurn id = s1.execFetched id st (.ok i ir n) := by
    unfold State.issueTurn
    simp only [hst, hi, hh, hp, hf, Bool.not_true, Option.isSome_none, Bool.false_eq_true, if_false]
  exact h

/-- A turn of the agenda that lets a strand issue. -/
theorem step_issue {s : State} {id ns : Nat} {clk : List Nat} {r : List Turn}
    (ha : s.agenda = { ns := ns, clk := clk, act := .issue id } :: r) :
    step s = settleTurn (({ s with agenda := r }.elapse ns clk).deadlines.issueTurn id) := by
  unfold step State.turn
  rw [ha]

/-- Settles O10: the turn of the agenda is the strand's, and the strand's turn is the instruction that it fetches. -/
theorem stepRunsDecoded : Obligations.StepRunsDecoded := by
  intro s id st ns clk r i ir n s1 ha s0 hst hi hh hp hf
  rw [step_issue ha, issueTurn_fetched hst hi hh hp hf]

end Sys2Proof.Machine
end

section
/-! The scalar instructions (O20). -/

open Sys2Proof
namespace Sys2Proof.Machine

theorem smulh_eq {f : LFields} (hm : f.m3 = 0 ∨ f.m3 = 1) :
    scalar2 f (fun _ a b => iMulh f.m3.toNat a b) = typedRef f highProduct :=
  typed_eq hm _ _ fun a b => iMulh_word f.m3 hm a b
theorem smin_eq {f : LFields} (hm : f.m3 = 0 ∨ f.m3 = 1) :
    scalar2 f (fun _ a b => iMinMax f.m3.toNat false a b) = typedRef f lesser :=
  typed_eq hm _ _ fun a b => iMinMax_word f.m3 hm false a b
theorem smax_eq {f : LFields} (hm : f.m3 = 0 ∨ f.m3 = 1) :
    scalar2 f (fun _ a b => iMinMax f.m3.toNat true a b) = typedRef f greater :=
  typed_eq hm _ _ fun a b => iMinMax_word f.m3 hm true a b
theorem sbfe_eq (f : LFields) : sbfeExec f = bfeRef f := by
  funext st m
  unfold sbfeExec bfeRef
  rw [bitField_word]
  rfl
theorem spopc_eq {f : LFields} (hm : scalarType f.m3 = true) : sCount popCount f = popcRef f := by
  rw [scount_eq hm _ onesOf popCount_onesOf]
  funext st m
  unfold popcRef
  split <;> rfl
theorem sclz_eq {f : LFields} (hm : scalarType f.m3 = true) : sCount leadZeros f = clzRef f := by
  rw [scount_eq hm _ zerosAbove leadZeros_zerosAbove]
  funext st m
  unfold clzRef
  split <;> rfl

theorem runCount_movRef (f : LFields) (st : Strand) (m : Mask) : (movRef f st m).runCount = st.runCount := by
  unfold movRef
  split
  · exact runCount_outRef _ _ _ _
  · exact runCount_outRef _ _ _ _
theorem runCount_selRef (f : LFields) (st : Strand) (m : Mask) : (selRef f st m).runCount = st.runCount := by
  unfold selRef
  split
  · exact runCount_outRef _ _ _ _
  · exact runCount_outRef _ _ _ _
theorem runCount_moviRef (f : LFields) (st : Strand) (m : Mask) : (moviRef f st m).runCount = st.runCount := by
  unfold moviRef
  simp only [apply_ite Strand.runCount, runCount_sset, runCount_sset64, ite_self]

theorem scalar_says : OnceSays scalarRow := by
  intro i r s id st h hp _
  unfold scalarRow at h
  split at h
  case h_1 f =>
    cases h
    exact once_becomes hp (sadd_eq (m3_scalar (sp := specS2 0x83 f) 0x83 hp.encoding rfl (by decide))) (runCount_outRef _ _ _ _) rfl
  case h_2 f =>
    cases h
    exact once_becomes hp (ssub_eq (m3_scalar (sp := specS2 0x83 f) 0x83 hp.encoding rfl (by decide))) (runCount_outRef _ _ _ _) rfl
  case h_3 f =>
    cases h
    exact once_becomes hp (smul_eq (m3_scalar (sp := specS2 0x83 f) 0x83 hp.encoding rfl (by decide))) (runCount_outRef _ _ _ _) rfl
  case h_4 f =>
    cases h
    exact once_becomes hp (smulh_eq (m3_01 (sp := specS2 0x03 f) 0x03 hp.encoding rfl (by decide))) rfl rfl
  case h_5 f =>
    cases h
    exact once_becomes hp (sand_eq (m3_scalar (sp := specS2 0xC0 f) 0xC0 hp.encoding rfl (by decide))) (runCount_outRef _ _ _ _) rfl
  case h_6 f =>
    cases h
    exact once_becomes hp (sor_eq (m3_scalar (sp := specS2 0xC0 f) 0xC0 hp.encoding rfl (by decide))) (runCount_outRef _ _ _ _) rfl
  case h_7 f =>
    cases h
    exact once_becomes hp (sxor_eq (m3_scalar (sp := specS2 0xC0 f) 0xC0 hp.encoding rfl (by decide))) (runCount_outRef _ _ _ _) rfl
  case h_8 f =>
    cases h
    exact once_becomes hp (sshl_eq (m3_scalar (sp := specSSh 0xC0 f) 0xC0 hp.encoding rfl (by decide))) (runCount_outRef _ _ _ _) rfl
  case h_9 f =>
    cases h
    exact once_becomes hp (sshr_eq (m3_scalar (sp := specSSh 0xC0 f) 0xC0 hp.encoding rfl (by decide))) (runCount_outRef _ _ _ _) rfl
  case h_10 f =>
    cases h
    exact once_becomes hp (ssra_eq (m3_scalar (sp := specSSh 0xC0 f) 0xC0 hp.encoding rfl (by decide))) (runCount_outRef _ _ _ _) rfl
  case h_11 f =>
    cases h
    exact once_becomes hp (smin_eq (m3_01 (sp := specS2 0x03 f) 0x03 hp.encoding rfl (by decide))) rfl rfl
  case h_12 f =>
    cases h
    exact once_becomes hp (smax_eq (m3_01 (sp := specS2 0x03 f) 0x03 hp.encoding rfl (by decide))) rfl rfl
  case h_13 f =>
    cases h
    exact once_becomes hp (smov_eq f) (runCount_movRef _ _ _) rfl
  case h_14 f =>
    cases h
    exact once_becomes hp (movi_eq (m3_movi (sp := rowOf (.smovi f)) 0x87 hp.encoding rfl (by decide))) (runCount_moviRef _ _ _) rfl
  case h_15 f =>
    cases h
    exact once_becomes hp (scmp_eq (m3_017 (sp := rowOf (.scmp f)) 0x83 hp.encoding rfl (by decide))) rfl rfl
  case h_16 f =>
    cases h
    exact once_becomes hp (sel_eq f) (runCount_selRef _ _ _) rfl
  case h_17 f =>
    cases h
    exact once_becomes hp (sbfe_eq f) rfl rfl
  case h_18 f =>
    cases h
    exact once_becomes hp (spopc_eq (m3_scalar (sp := rowOf (.spopc f)) 0xC0 hp.encoding rfl (by decide))) rfl rfl
  case h_19 f =>
    cases h
    exact once_becomes hp (sclz_eq (m3_scalar (sp := rowOf (.sclz f)) 0xC0 hp.encoding rfl (by decide))) rfl rfl
  case h_20 r =>
    cases h
    exact once_becomes hp (sadd_eq (f := WRFields.scal r 0 true) rfl) (runCount_outRef _ _ _ _) rfl
  case h_21 r =>
    cases h
    exact once_becomes hp (ssub_eq (f := WRFields.scal r 0 true) rfl) (runCount_outRef _ _ _ _) rfl
  case h_22 r =>
    cases h
    exact once_becomes hp (smov_eq (WRFields.scal r 0 false)) (runCount_movRef _ _ _) rfl
  case h_23 r =>
    cases h
    exact once_becomes hp (scmp_eq (f := WRFields.scal r 0 true) (.inl rfl)) rfl rfl
  case h_24 r =>
    cases h
    exact once_becomes hp (sand_eq (f := WRFields.scal r 6 true) rfl) (runCount_outRef _ _ _ _) rfl
  case h_25 r =>
    cases h
    exact once_becomes hp (sor_eq (f := WRFields.scal r 6 true) rfl) (runCount_outRef _ _ _ _) rfl
  case h_26 r =>
    cases h
    exact once_becomes hp (sshl_eq (f := WRFields.scal r 6 true) rfl) (runCount_outRef _ _ _ _) rfl
  case h_27 r =>
    cases h
    exact once_becomes hp (sshr_eq (f := WRFields.scal r 6 true) rfl) (runCount_outRef _ _ _ _) rfl
  case h_28 r =>
    cases h
    exact once_becomes (g := moviWRef r) hp rfl rfl rfl
  case h_29 r =>
    cases h
    exact once_becomes (g := addiRef r) hp rfl rfl rfl
  case h_30 r =>
    cases h
    exact once_becomes (g := movhiRef r) hp rfl rfl (movhi_eq r s)
  case h_31 => cases h

theorem scalarFp_says : OnceSays scalarFpRow := by
  intro i r s id st h hp _
  unfold scalarFpRow at h
  split at h
  case h_1 f =>
    cases h
    exact once_becomes hp (sfadd_eq f) rfl rfl
  case h_2 f =>
    cases h
    exact once_becomes hp (sfmul_eq f) rfl rfl
  case h_3 f =>
    cases h
    exact once_becomes hp (sffma_eq f (c_ne (sp := specSF true) hp.encoding rfl)) rfl rfl
  case h_4 f =>
    cases h
    exact once_becomes hp (sfcvt_eq f) rfl rfl
  case h_5 => cases h

/-- Settles O20: each operation on numbers is the operation of its row on words or pairs, in the types that its row accepts. -/
theorem scalarOps : Obligations.ScalarOps := ⟨scalar_says, scalarFp_says⟩

end Sys2Proof.Machine
end

section
/-! BALLOON, the set points, and requests without threads (O46). -/

open Sys2Proof
namespace Sys2Proof.Machine

/-! Requests without threads (R95). -/

/-- What a request does: refused, trapped or stalled at issue, ended with no thread admitted, or else `k`. -/
def State.requested (s : State) (i : Instr) (sp : OpSpec) (f : LFields) (pre : Strand → Mask → Option Nat)
    (k : Issued → Result) : Result :=
  match issue i sp f pre s with
  | .out o => o
  | .go x => if x.adm = 0 then .next (s.finish x sp f 8 x.st) else k x

section
variable {i : Instr} {sp : OpSpec} {f : LFields} {pre : Strand → Mask → Option Nat} {k : Issued → Result} {s : State}
  {id : Nat} {st : Strand} (hp : Passes i sp f pre s id st) (he : exec i s = s.requested i sp f pre k)
include hp he

theorem requested_none (h0 : st.nowAdm sp f = 0) :
    ∃ t, exec i s = .next t ∧ Ends s t id st st 8 none (f.e == 1) false := by
  refine ⟨_, ?_, ends_finish s id st st (st.nowAdm sp f) sp f 8 rfl hp.whole⟩
  rw [he, State.requested, issue_go hp]
  exact if_pos h0

theorem requested_some (h0 : st.nowAdm sp f ≠ 0) : exec i s = k { id := id, st := st, adm := st.nowAdm sp f } := by
  rw [he, State.requested, issue_go hp]
  exact if_neg h0
end

theorem none_says : NoneSays := by
  intro i f sp pre s id st h hp h0
  obtain ⟨rfl, rfl, rfl⟩ | ⟨rfl, rfl, rfl⟩ | ⟨rfl, rfl, rfl⟩ | ⟨rfl, rfl, rfl⟩ | ⟨rfl, rfl, rfl⟩ | ⟨rfl, rfl, rfl⟩ |
    ⟨rfl, rfl, rfl⟩ | ⟨rfl, rfl, rfl⟩ | ⟨rfl, rfl, rfl⟩ | ⟨rfl, rfl, rfl⟩ | ⟨rfl, rfl, rfl⟩ | ⟨rfl, rfl, rfl⟩ |
    ⟨rfl, rfl, rfl⟩ := h
  -- BALLOON.query, whose meaning is that of a strand-once instruction
  case inr.inr.inr.inr.inr.inr.inr.inr.inr.inr.inl =>
    obtain ⟨t, u, hx, hu, -, hends⟩ := exec_once hp rfl fun _ => rfl
    rw [hu h0] at hends
    exact ⟨t, hx, hends⟩
  all_goals exact requested_none hp rfl h0

/-! Requests to D0 (R422, R432, R448). -/

/-- A request to D0: lost over a Failed link, held while the link trains, or else `k` (R431, R432). -/
def State.toD0 (s : State) (sp : OpSpec) (f : LFields) (r : Request) (k : Issued → Result) (x : Issued) : Result :=
  if s.linkDead x.st.d 0 then .next ((s.finish x sp f 8 x.st).ctxEvent x.st.ctx 1)
  else if s.linkSlow x.st.d 0 then .next (s.holdOn x r)
  else k x

section
variable {i : Instr} {sp : OpSpec} {f : LFields} {pre : Strand → Mask → Option Nat} {r : Request} {k : Issued → Result}
  {s : State} {id : Nat} {st : Strand} (hp : Passes i sp f pre s id st) (he : exec i s = s.requested i sp f pre (s.toD0 sp f r k))
  (h0 : st.nowAdm sp f ≠ 0)
include hp he h0

theorem toD0_dead (hd : s.linkDead st.d 0 = true) :
    ∃ t, exec i s = .next (t.ctxEvent st.ctx 1) ∧ Ends s t id st st 8 none (f.e == 1) false :=
  ⟨_, (requested_some hp he h0).trans (if_pos hd), ends_finish s id st st (st.nowAdm sp f) sp f 8 rfl hp.whole⟩

theorem toD0_slow (hd : s.linkDead st.d 0 = false) (hs : s.linkSlow st.d 0 = true) :
    ∃ t, exec i s = .next t ∧ Holds s t id st r := by
  refine ⟨_, (requested_some hp he h0).trans ?_, holds_hold s id st (st.nowAdm sp f) r⟩
  exact (if_neg (ne_true_of_eq_false hd)).trans (if_pos hs)

theorem toD0_up (hd : s.linkDead st.d 0 = false) (hs : s.linkSlow st.d 0 = false) :
    exec i s = k { id := id, st := st, adm := st.nowAdm sp f } := by
  refine (requested_some hp he h0).trans ?_
  exact (if_neg (ne_true_of_eq_false hd)).trans (if_neg (ne_true_of_eq_false hs))
end

theorem setPoint_says : SetPointSays := by
  refine ⟨fun f s id st hp => ⟨requested_none hp rfl, toD0_dead hp rfl, toD0_slow hp rfl, fun h0 hd hs => ?_⟩,
    fun f s id st hp => ⟨requested_none hp rfl, toD0_dead hp rfl, toD0_slow hp rfl, fun h0 hd hs => ?_⟩⟩
  · exact ⟨_, toD0_up hp rfl h0 hd hs, ends_finish s id st st _ _ f 8 rfl hp.whole⟩
  · exact ⟨_, toD0_up hp rfl h0 hd hs, ends_finish (s.memRequest (st.arg f.a)) id st st _ _ f 8 rfl hp.whole⟩

/-! BALLOON (R414, R415). -/

/-- BALLOON.give for the threads that execute. -/
def State.balloonGives (s : State) (f : LFields) (x : Issued) : Result :=
  let st := x.st
  let va := (st.sget64 (f.a.toNat - 0x80)).toNat
  if va / 2 ^ 48 ≠ 0 then .next (s.trapAtIssue x.id st .window 0 x.adm)
  else if va % 4096 ≠ 0 then .next (s.trapAtIssue x.id st .align 0 x.adm)
  else
    let st1 := { st with walkParked := false }
    match s.balloonPages st va (st.arg f.b) with
    | (s1, _, e :: es, _) => .next (s1.xlFault x.id st1 0 x.adm ((e :: es).take 32) .instr)
    | (s1, _, [], 2) => .next (s1.xlPark x.id st 0 x.adm)
    | (s1, ps, [], w) =>
      if w = 1 || s1.relBlocked st || ps.any (fun pa => s1.heldFrom st.d pa) then
        .next (s1.holdOn { x with st := st1 } (.balloonGive f))
      else
        .next ((ps.foldl (fun s pa => s.givePage st.d st.k pa) (s1.relAct st 4)).finish x (rowOf (.balloonGive f)) f 8 st1)

theorem exec_balloonGive (f : LFields) (s : State) : exec (.balloonGive f) s =
    s.requested (.balloonGive f) (rowOf (.balloonGive f)) f (balloonPre f) (s.balloonGives f) := rfl

theorem balloonGives_window {s : State} {f : LFields} {x : Issued}
    (hva : 2 ^ 48 ≤ (x.st.sget64 (f.a.toNat - 0x80)).toNat) :
    s.balloonGives f x = .next (s.trapAtIssue x.id x.st .window 0 x.adm) := by
  unfold State.balloonGives
  exact if_pos (Nat.div_pos hva (by decide)).ne'

theorem balloonGives_align {s : State} {f : LFields} {x : Issued} (hva : (x.st.sget64 (f.a.toNat - 0x80)).toNat < 2 ^ 48)
    (hal : (x.st.sget64 (f.a.toNat - 0x80)).toNat % 4096 ≠ 0) :
    s.balloonGives f x = .next (s.trapAtIssue x.id x.st .align 0 x.adm) := by
  unfold State.balloonGives
  dsimp only
  rw [if_neg (not_not_intro (Nat.div_eq_of_lt hva)), if_pos hal]

/-- A range whose pages all translate: the pages are given, or the request is held. -/
theorem balloonGives_pages {s s1 : State} {f : LFields} {x : Issued} {ps : List Nat}
    (hva : (x.st.sget64 (f.a.toNat - 0x80)).toNat < 2 ^ 48) (hal : (x.st.sget64 (f.a.toNat - 0x80)).toNat % 4096 = 0)
    (hps : s.balloonPages x.st (x.st.sget64 (f.a.toNat - 0x80)).toNat (x.st.arg f.b) = (s1, ps, [], 0)) :
    s.balloonGives f x =
      if s1.relBlocked x.st = true ∨ ∃ pa, pa ∈ ps ∧ s1.heldFrom x.st.d pa = true then
        .next (s1.holdOn { x with st := { x.st with walkParked := false } } (.balloonGive f))
      else .next ((ps.foldl (fun s pa => s.givePage x.st.d x.st.k pa) (s1.relAct x.st 4)).finish x (rowOf (.balloonGive f)) f 8
        { x.st with walkParked := false }) := by
  unfold State.balloonGives
  dsimp only
  rw [if_neg (not_not_intro (Nat.div_eq_of_lt hva)), if_neg (not_not_intro hal), hps]
  refine if_congr ?_ rfl rfl
  rw [Bool.or_eq_true, Bool.or_eq_true, List.any_eq_true]
  exact or_congr_left (or_iff_right (by decide))

theorem balloon_says : BalloonSays := by
  refine ⟨fun f s id st hp h0 => ?_, fun f s id st hp h0 => ?_⟩
  · have hx := requested_some hp (exec_balloonGive f s) h0
    refine ⟨fun hva ht => ⟨_, hx.trans (balloonGives_window hva), trapped_takeTrap ht⟩,
      fun hva hal ht => ⟨_, hx.trans (balloonGives_align hva hal), trapped_takeTrap ht⟩, fun hva hal s1 ps hps => ?_⟩
    have hk := hx.trans (balloonGives_pages (x := { id := id, st := st, adm := st.nowAdm _ f }) hva hal hps)
    refine ⟨fun hb hh => ⟨_, hk.trans (if_neg ?_), ends_finish _ id st _ _ _ f 8 rfl hp.whole⟩,
      fun hh => ⟨_, hk.trans (if_pos hh), holds_hold s1 id _ _ _⟩⟩
    rintro (h | ⟨pa, hpa, h⟩)
    · exact ne_true_of_eq_false hb h
    · exact ne_true_of_eq_false (hh pa hpa) h
  · obtain ⟨t, u, hx, -, hu, hends⟩ := exec_once hp rfl fun _ => rfl
    rw [hu h0] at hends
    exact ⟨t, hx, hends⟩

/-! A page that is given (R415). -/

theorem cget_filter {w : Nat} (m : Cells w) (p : Nat → Bool) (a : Nat) :
    cget (m.filter fun e => p e.1) a = if p a then cget m a else 0 := by
  induction m with
  | nil => exact (ite_self _).symm
  | cons e m ih =>
    obtain ⟨k, v⟩ := e
    cases hk : p k with
    | true =>
      rw [List.filter_cons_of_pos (by exact hk), cget, cget, ih]
      split
      · next h => rw [← h, hk]; rfl
      · rfl
    | false =>
      rw [List.filter_cons_of_neg (by simp [hk]), ih, cget]
      split
      · next h =>
        rw [if_neg]
        rintro rfl
        exact Bool.false_ne_true (hk.symm.trans h)
      · rfl

/-- A part of a die that a change of a die leaves. -/
theorem die_modDie_part {α : Type} (s : State) (d e : Nat) (g : Die → Die) (part : Die → α) (hg : ∀ x, part (g x) = part x) :
    part ((s.modDie d g).die e) = part (s.die e) := by
  rw [State.die_modDie]
  split
  · next h => rw [hg, h.1]
  · rfl

/-- An address lies outside the frame of a page. -/
def offPage (pa a : Nat) : Bool := decide (a < 4096 * (pa / 4096)) || decide (4096 * (pa / 4096) + 4096 ≤ a)

theorem offPage_eq_false {pa a : Nat} : offPage pa a = false ↔ pa / 4096 * 4096 ≤ a ∧ a < pa / 4096 * 4096 + 4096 := by
  simp only [offPage, Bool.or_eq_false_iff, decide_eq_false_iff_not]
  omega

theorem offPage_of_mem_filter {l : Tab CByte} {pa : Nat} {e : Nat × CByte} (he : e ∈ l.filter fun e => offPage pa e.1) :
    offPage pa e.1 = true :=
  (List.mem_filter.1 he).2

/-- A column, and a die's copies, without a page. -/
def Core.dropPage (x : Core) (pa : Nat) : Core :=
  { x with l1 := x.l1.filter fun e => offPage pa e.1, tags := x.tags.keepOnly fun l => offPage pa (128 * l) }
def Die.dropPage (x : Die) (pa : Nat) : Die := { x with copies := x.copies.filter fun e => offPage pa e.1 }
/-- The giving core's column and its die's copies lose a page. -/
def State.dropPage (s : State) (d c pa : Nat) : State := (s.modCore d c (·.dropPage pa)).modDie d (·.dropPage pa)

/-- The home of a page zeroes it. -/
def State.zeroPage (s : State) (pa : Nat) : State :=
  (s.zeroRange (4096 * (pa / 4096)) 4096).modDie (homeDie pa) fun x => { x with
    slices := x.slices.map fun y => { y with tags := y.tags.keepOnly fun l => offPage pa (128 * l) } }

/-- The home of a page re-arms its transient region, or else donates its frame. -/
def Die.donatePage (x : Die) (now pa : Nat) : Die :=
  let off := 4096 * (pa / 4096) % 2 ^ 44
  if x.regions.any fun r => r.holds off && r.state == 1 && decide (now < r.deadline) then
    { x with regions := x.regions.map fun r => if r.holds off then r.arming now x.budget else r }
  else
    { x with
      frames := tput x.frames (pa / 4096) { x.frame (pa / 4096) with donated := true },
      donated := if x.donated.contains (pa / 4096) then x.donated else x.donated ++ [pa / 4096] }

theorem givePage_eq (s : State) (d c pa : Nat) :
    s.givePage d c pa = ((s.dropPage d c pa).zeroPage pa).modDie (homeDie pa) fun x => x.donatePage s.gtime pa := rfl

/-! What a part of the giving reads, and what it leaves. -/

section
variable (s : State) (d c pa : Nat)

theorem dropPage_length : (s.dropPage d c pa).dies.length = s.dies.length :=
  (State.modDie_length _ _ _).trans (State.modCore_length _ _ _ _)

theorem dropPage_regions (e : Nat) : ((s.dropPage d c pa).die e).regions = (s.die e).regions := by
  refine (die_modDie_part _ d e (·.dropPage pa) Die.regions fun _ => rfl).trans ?_
  exact die_modDie_part s d e _ Die.regions fun _ => rfl

theorem dropPage_copies {a : Nat} (ha : offPage pa a = false) : tget ((s.dropPage d c pa).die d).copies a = none := by
  refine Option.eq_none_iff_forall_ne_some.2 fun b hb => Bool.false_ne_true (ha.symm.trans ?_)
  exact copies_modDie _ d _ (fun k _ => offPage pa k = true) (fun _ => offPage_of_mem_filter) a b hb

theorem dropPage_l1 {a : Nat} (ha : offPage pa a = false) : tget ((s.dropPage d c pa).core d c).l1 a = none := by
  refine Option.eq_none_iff_forall_ne_some.2 fun b hb => Bool.false_ne_true (ha.symm.trans ?_)
  unfold State.dropPage State.core at hb
  rw [die_modDie_part _ d d (·.dropPage pa) Die.cores fun _ => rfl] at hb
  exact l1_modCore s d c _ (fun k _ => offPage pa k = true) (fun _ => offPage_of_mem_filter) a b hb

/-- What zeroing a page leaves of a die: its cores, its copies, its regions. -/
theorem zeroPage_part {α : Type} (part : Die → α) (e : Nat)
    (hpart : ∀ (x : Die) dirty lost slices, part { x with dirty := dirty, lost := lost, slices := slices } = part x) :
    part ((s.zeroPage pa).die e) = part (s.die e) := by
  refine (die_modDie_part _ _ e _ part fun x => hpart x x.dirty x.lost _).trans ?_
  refine (die_modDie_part _ _ e _ part fun x => hpart x _ x.lost _).trans ?_
  exact die_modDie_part { s with mem := _ } _ e _ part fun x => hpart x _ _ x.slices

theorem zeroPage_mem (a : Nat) : cget (s.zeroPage pa).mem a = if offPage pa a then cget s.mem a else 0 :=
  cget_filter s.mem (offPage pa) a

theorem zeroPage_length : (s.zeroPage pa).dies.length = s.dies.length :=
  (State.modDie_length _ _ _).trans ((State.modDie_length _ _ _).trans (State.modDie_length _ _ _))
end

theorem donatePage_part {α : Type} (x : Die) (now pa : Nat) (part : Die → α)
    (hpart : ∀ (x : Die) regions frames donated, part { x with regions := regions, frames := frames, donated := donated } = part x) :
    part (x.donatePage now pa) = part x := by
  unfold Die.donatePage
  dsimp only
  split
  · exact hpart x _ x.frames x.donated
  · exact hpart x x.regions _ _

/-- After the column and the copies have lost the page, a part that neither the zeroing nor the donation touches stays. -/
theorem givePage_part {α : Type} (s : State) (d c pa e : Nat) (part : Die → α)
    (hzero : ∀ (x : Die) dirty lost slices, part { x with dirty := dirty, lost := lost, slices := slices } = part x)
    (hgive : ∀ (x : Die) regions frames donated, part { x with regions := regions, frames := frames, donated := donated } = part x) :
    part ((s.givePage d c pa).die e) = part ((s.dropPage d c pa).die e) := by
  rw [givePage_eq]
  exact (die_modDie_part _ _ e _ part fun x => donatePage_part x _ _ part hgive).trans (zeroPage_part _ pa part e hzero)

/-- A page in no armed region is donated, once. -/
theorem donatePage_donates {x : Die} {now pa : Nat}
    (h : ∀ r, r ∈ x.regions → ¬ (r.holds (4096 * (pa / 4096) % 2 ^ 44) = true ∧ r.state = 1 ∧ now < r.deadline)) :
    (tget (x.donatePage now pa).frames (pa / 4096)).map (·.donated) = some true ∧ pa / 4096 ∈ (x.donatePage now pa).donated := by
  unfold Die.donatePage
  dsimp only
  rw [if_neg]
  · refine ⟨by rw [tget_tput_same]; rfl, ?_⟩
    split
    · next hc => exact List.contains_iff_mem.1 hc
    · exact List.mem_append_right _ List.mem_cons_self
  · rw [List.any_eq_true]
    rintro ⟨r, hr, ha⟩
    simp only [Bool.and_eq_true, beq_iff_eq, decide_eq_true_eq] at ha
    exact h r hr ⟨ha.1.1, ha.1.2, ha.2⟩

theorem givePage_says : GivePageSays := by
  intro s d c pa hdie _ t
  have ht : t = _ := givePage_eq s d c pa
  have hmem : ∀ a, cget t.mem a = if offPage pa a then cget s.mem a else 0 := fun a => by
    rw [ht]
    exact zeroPage_mem (s.dropPage d c pa) pa a
  have hcopies : (t.die d).copies = ((s.dropPage d c pa).die d).copies :=
    givePage_part s d c pa d Die.copies (fun _ _ _ _ => rfl) fun _ _ _ _ => rfl
  have hcores : (t.die d).cores = ((s.dropPage d c pa).die d).cores :=
    givePage_part s d c pa d Die.cores (fun _ _ _ _ => rfl) fun _ _ _ _ => rfl
  refine ⟨fun a => ?_, fun a h1 h2 => ?_, fun hr => ?_⟩
  · rw [hmem]
    by_cases h : pa / 4096 * 4096 ≤ a ∧ a < pa / 4096 * 4096 + 4096
    · rw [if_pos h, offPage_eq_false.2 h]
      rfl
    · rw [if_neg h, Bool.of_not_eq_false (mt offPage_eq_false.1 h)]
      rfl
  · have ha := offPage_eq_false.2 ⟨h1, h2⟩
    have hl1 : tget (t.core d c).l1 a = none := by
      unfold State.core
      rw [hcores]
      exact dropPage_l1 s d c pa ha
    rw [coreGet_eq, dieGet_eq, hl1, hcopies, dropPage_copies s d c pa ha, hmem, ha]
    exact ite_self _
  · rw [ht, State.die_modDie, if_pos ⟨rfl, by rw [zeroPage_length, dropPage_length]; exact hdie⟩]
    refine donatePage_donates ?_
    rw [zeroPage_part _ pa Die.regions _ fun _ _ _ _ => rfl, dropPage_regions, Nat.mul_comm]
    exact hr

/-- Settles O46: BALLOON by its checks in order and by what each page loses and gains, the requests to D0 by the state of its link,
and every request without threads by the end that it shares. -/
theorem privilegedRequests : Obligations.PrivilegedRequests := ⟨balloon_says, givePage_says, setPoint_says, none_says⟩

end Sys2Proof.Machine
end

section
/-! GETFMT reads fmt (O19), BRA takes all active threads or none (O25), and NOP and YIELD (O26). -/

open Sys2Proof
namespace Sys2Proof.Machine

/-! An instruction whose encoding its entry does not admit (R101). -/

/-- The first check of issue: nothing of the instruction is looked at behind it (R274). -/
theorem issue_illFormed {i : Instr} {sp : OpSpec} {f : LFields} {pre : Strand → Mask → Option Nat} {s : State} {id : Nat}
    {st : Strand} (hi : wellFormed i = false) (hcur : s.cur = some id) (hst : s.strand id = some st) (hres : st.resume = none) :
    issue i sp f pre s = .out (.next (s.trapAtIssue id st .illop 0 (st.left (st.allNow sp f)))) := by
  unfold issue
  simp [hcur, hst, hres, hi]

theorem once_illFormed {i : Instr} {sp : OpSpec} {f : LFields} {len : Nat} {pre : Strand → Mask → Option Nat}
    {g : Issued → Strand} (hi : wellFormed i = false) (he : ∀ s, exec i s = execOnce i sp f len pre g s) : IllFormedSays i := by
  refine ⟨hi, fun s id st hcur hst hres hc => ⟨_, st.left (st.allNow sp f), ?_, trapped_takeTrap hc⟩⟩
  rw [he, execOnce, issue_illFormed hi hcur hst hres]

/-- An unused field holds zero (R92). -/
theorem zero_of_unused {x : BitVec 8} (h : fz.ok x.toNat = true) : x = 0 := by
  unfold Fld.ok at h
  exact BitVec.eq_of_toNat_eq (beq_iff_eq.1 (Bool.and_eq_true_iff.1 h).1)

theorem c_ok {sp : OpSpec} {f : LFields} (h : sp.ok f = true) : sp.c.ok f.c.toNat = true := by
  simp only [OpSpec.ok, Bool.and_eq_true] at h
  tauto

theorem guard_ok {sp : OpSpec} {f : LFields} (h : sp.ok f = true) : f.g6.toNat < 48 := by
  simp only [OpSpec.ok, Bool.and_eq_true, decide_eq_true_eq] at h
  tauto

theorem getfmt_unused {f : LFields} (h : wellFormed (.getfmt f) = true) : f.a = 0 ∧ f.b = 0 ∧ f.c = 0 ∧ f.m3 = 0 := by
  have hok : ({ specS 1 with d := fd .s 1 1 } : OpSpec).ok f = true := h
  have hm3 : ∀ x : BitVec 3, Nat.testBit 1 x.toNat = true → x = 0 := by decide
  exact ⟨zero_of_unused (ops_ok hok).1, zero_of_unused (ops_ok hok).2, zero_of_unused (c_ok hok),
    hm3 _ (m3_of_lOk (i := .getfmt f) rfl h)⟩

/-- Settles O19: the effect of GETFMT's row for the threads that execute, and the first check of issue for a field that is not
zero. -/
theorem getfmtReadsFmt : Obligations.GetfmtReadsFmt := by
  refine ⟨fun f s id st hp h0 => ?_, fun f hf => once_illFormed ?_ fun _ => rfl⟩
  · obtain ⟨t, u, hx, -, hu, hends⟩ := once_becomes hp (getfmt_eq f) rfl rfl
    obtain rfl : u = _ := hu h0
    exact ⟨t, hx, hends⟩
  · refine Bool.eq_false_iff.2 fun hwf => ?_
    obtain ⟨ha, hb, hc, hm3⟩ := getfmt_unused hwf
    simp [ha, hb, hc, hm3] at hf

/-! BRA (R139). -/

/-- At an instruction that nothing interrupted, its guard alone selects the threads (R76, R95). -/
theorem nowAdm_guarded {st : Strand} {sp : OpSpec} {f : LFields} (hres : st.resume = none) (hcond : sp.cond = false)
    (hg : f.g6.toNat < 48) : st.nowAdm sp f = st.mask &&& (if f.gn = 1 then ~~~st.qget f.g6.toNat else st.qget f.g6.toNat) := by
  have hleft : ∀ m, st.left m = m := fun m => by rw [Strand.left, hres]
  rw [Strand.nowAdm, hleft, ite_self, Strand.allNow, if_neg (ne_true_of_eq_false hcond), Strand.issueMask, if_pos hg]
  simp only [Strand.admitted, beq_iff_eq]

theorem advance_past {st : Strand} (hres : st.resume = none) (len : Nat) : st.advance len none = st.goTo (st.past len) := by
  unfold Strand.advance
  rw [hres]
  rfl

/-- Every thread holds predicate 0 (R95). -/
theorem and_qget_zero (st : Strand) : st.mask &&& st.qget 0 = st.mask := BitVec.and_allOnes

/-- Settles O25: `bra_goes`, with the guard as what selects the threads. -/
theorem braAllOrNone : Obligations.BraAllOrNone := by
  intro f s id st hp hres some'
  have hok : (specJ false).ok f = true := hp.encoding
  have hadm : st.nowAdm (rowOf (.bra f)) f = some' := nowAdm_guarded hres rfl (guard_ok hok)
  obtain ⟨t, hx, hgoes⟩ := bra_goes (len := 8) hp
  rw [hadm, advance_past hres] at hgoes
  refine ⟨fun h => ⟨t, hx, ?_⟩, fun h => ⟨t, hx, ?_⟩, fun hg hn hm => ?_⟩
  · rwa [if_neg h] at hgoes
  · rwa [if_pos h] at hgoes
  · have hall : some' = st.mask := by
      simp only [some', hg, hn]
      exact and_qget_zero st
    rwa [hall]

/-! NOP at a boundary that keeps the place behind an instruction that runs again (R199). -/

/-- NOP without stall or end of the run. -/
def plainNop : LFields :=
  { m3 := 0, h := 0, w := 0, c := 0, b := 0, a := 0, d := 0, gn := 0, g6 := 0, y := 0, u := 0, s4 := 0, e := 0 }
/-- The placed strand at such a boundary: behind the instruction it goes on at 0x10040. -/
def strandReissuing : Strand :=
  { placedStrand with resume := some { elem := 0, mask := 0xFFFF, kept := [(0x10040, 0, 0xFFFF)], upto := none } }
def stateReissuing : State := (State.reset.withFetchWord 64 0).putStrand 0 strandReissuing

theorem passes_reissuing : Passes (.nop plainNop) (rowOf (.nop plainNop)) plainNop noPre stateReissuing 0 strandReissuing where
  cur := rfl
  here := State.strand_putStrand_same _ _ _
  whole := rfl
  encoding := by decide +kernel
  privilege := by decide +kernel
  allocated := by decide +kernel
  apart := by decide +kernel
  entry := rfl
  role := by decide +kernel
  ready := by decide +kernel
  free := by decide +kernel

/-- Where a strand stands after an instruction. -/
def pcAfter (i : Instr) (s : State) (id : Nat) : Option DWord :=
  match exec i s with
  | .next t => (t.strand id).map (·.pc)
  | _ => none

theorem pcAfter_next {i : Instr} {s t : State} {id : Nat} {w : Strand} (hx : exec i s = .next t)
    (hw : t.strand id = some w) : pcAfter i s id = some w.pc := by
  unfold pcAfter
  rw [hx]
  exact congrArg (Option.map fun st : Strand => st.pc) hw

theorem pcAfter_reissuing : pcAfter (.nop plainNop) stateReissuing 0 = some 0x10040 := by decide +kernel
theorem past_reissuing : strandReissuing.past 8 = 0x10008 := by decide +kernel

/-- Refutes O26: `NopSays` has the strand behind NOP at `past 8` at every boundary. At one that keeps the place behind an instruction
that runs again (`resume.kept`), the model goes on at that place: here 0x10040, and not 0x10008. -/
theorem not_nopYield : ¬ Obligations.NopYield := by
  intro h
  obtain ⟨hnop, -⟩ := h stateReissuing 0 strandReissuing rfl
  obtain ⟨t, w, hx, -, hw, hpc, -⟩ := hnop plainNop passes_reissuing
  have hstands : some w.pc = some 0x10040 := (pcAfter_next hx hw).symm.trans pcAfter_reissuing
  rw [hpc, past_reissuing] at hstands
  exact absurd hstands (by decide)

end Sys2Proof.Machine
end

section
/-! Elementary results of the vector family: complex sums and magnitudes (O15), IDOT4 (O16), LEA (O17) and ICMP (O18). -/

open Sys2Proof
namespace Sys2Proof.Machine

/-! CMAG2 (R169). -/

theorem cxFmt_mem (m : Nat) : cxFmt m ∈ fpFormats := by
  unfold cxFmt
  split
  · decide
  · decide

/-- An infinity decodes as one: no flush changes it. -/
theorem decIn_isInf {f : FFmt} (h0 : f.emax ≠ 0) {x : Nat} (h : f.isInf x = true) (env : FEnv) :
    ∃ n, f.decIn env x = .inf n := by
  simp only [FFmt.isInf, Bool.and_eq_true, beq_iff_eq] at h
  rw [FFmt.decIn, flush_of_emax h0 h.1]
  exact ⟨x / f.signBit % 2 == 1, by simp [FFmt.dec, h.1, h.2]⟩

theorem cxMag2_inf {m : Nat} (env : FEnv) {a : Word}
    (h : (cxFmt m).isInf (reOf a) = true ∨ (cxFmt m).isInf (imOf a) = true) :
    cxMag2 (cxFmt m) env a = { bits := fmtF32.infBits, flags := 0 } := by
  have h0 := emax_ne_zero _ (cxFmt_mem m)
  unfold cxMag2
  rcases h with h | h
  · obtain ⟨n, hn⟩ := decIn_isInf h0 h env
    rw [hn]
    rfl
  · obtain ⟨n, hn⟩ := decIn_isInf h0 h env
    rw [hn]
    cases (cxFmt m).decIn env (reOf a) <;> rfl

/-- Settles O15: BFLY's two registers are those of CADD and CSUB by definition, and an infinite component decides CMAG2 whatever
the other one decodes to. -/
theorem complexResults : Obligations.ComplexResults := fun env _ _ =>
  ⟨rfl, rfl, fun _ => cxMag2_inf env⟩

/-! A whole per-thread instruction: `exec_vec` with what its function gives for one thread's operands. -/

theorem whole_says {i : Instr} {f : LFields} {vd : VecDef} {rule : VIn → VOut → Prop}
    (hrow : vecRow i = some { sp := rowOf i, f := f, len := 8, vd := fun _ => vd })
    (hrule : wellFormed i = true → ∀ (st : Strand) e t x, st.inputs (rowOf i) f vd e t = .ok x →
      rule x (vd.fn (FEnv.ofFmt st.fmt) x)) : WholeSays i f rule vd := by
  intro s id st hp hin
  obtain ⟨t, u, hx, hu, hends⟩ := vec_says i _ s id st hrow hp rfl hin
  refine ⟨t, u, hx, hends, hu, fun e t o n x ho hi => ?_⟩
  obtain ⟨y, hy, rfl, -⟩ := vecOut_eq ho
  obtain rfl : y = x := Except.ok.inj (hy.symm.trans hi)
  exact hrule hp.encoding st e _ y hi

theorem vec_illFormed {i : Instr} {f : LFields} {mk : Strand → VecDef} (hi : wellFormed i = false)
    (he : ∀ s, exec i s = execL i f mk s) : IllFormedSays i := by
  refine ⟨hi, fun s id st hcur hst hres hc => ⟨_, st.left (st.allNow (rowOf i) f), ?_, trapped_takeTrap hc⟩⟩
  rw [he, execL, execVec, issue_illFormed hi hcur hst hres]

/-! IDOT4 (R161). -/

/-- A byte's value extended to 32 bits, signed or not. -/
def dotByte (signed : Bool) (x : Word) (i : Nat) : Word :=
  if signed then (x.extractLsb' (8 * i) 8).signExtend 32 else (x.extractLsb' (8 * i) 8).zeroExtend 32

theorem ofInt_byte (signed : Bool) (x : Word) (i : Nat) :
    BitVec.ofInt 32 (if signed then sx 8 (nbits x.toNat (8 * i) 8) else (nbits x.toNat (8 * i) 8 : Nat)) =
      dotByte signed x i := by
  rw [nbits_toNat, dotByte]
  cases signed with
  | true => rw [if_pos rfl, if_pos rfl, sx_toNat _ (by decide)]; rfl
  | false =>
    rw [if_neg Bool.false_ne_true, if_neg Bool.false_ne_true, BitVec.ofInt_natCast, BitVec.ofNat_toNat]

/-- A sum of four numbers from c on, wrapped at the end or at each term. -/
theorem ofInt_sum4 (p : Nat → Int) (c : Word) :
    BitVec.ofInt 32 ((List.range 4).foldl (fun r i => r + p i) (c.toNat : Int)) =
      c + BitVec.ofInt 32 (p 0) + BitVec.ofInt 32 (p 1) + BitVec.ofInt 32 (p 2) + BitVec.ofInt 32 (p 3) := by
  simp only [show List.range 4 = [0, 1, 2, 3] from rfl, List.foldl_cons, List.foldl_nil, BitVec.ofInt_add,
    BitVec.ofInt_natCast, BitVec.ofNat_toNat, BitVec.setWidth_eq]

theorem dot4_ref (signed : Bool) (a b c : Word) : dot4 signed a b c = dotRef signed a b c := by
  unfold dot4
  simp only [ofInt_sum4, BitVec.ofInt_mul, ofInt_byte]
  rfl

/-- Settles O16: `dot4` is exact, so that wrapping each product and sum gives the same 32 bits. -/
theorem idot4DotProduct : Obligations.Idot4DotProduct := fun f =>
  whole_says rfl fun _ _ _ _ _ _ => ⟨rfl, rfl, congrArg (fun w => [w]) (dot4_ref (f.m3 == 4) _ _ _)⟩

/-! Encodings that an entry does not accept (R92, R101). -/

theorem le_of_lit {lo hi x : Nat} (h : (fnum lo hi).ok x = true) : x ≤ hi := by
  simp only [Fld.ok, fnum, FldK.ok, Bool.and_eq_true, decide_eq_true_eq] at h
  exact h.1.2

theorem d_ok {sp : OpSpec} {f : LFields} (h : sp.ok f = true) : sp.d.ok f.d.toNat = true := by
  simp only [OpSpec.ok, Bool.and_eq_true] at h
  tauto

/-- A register pair begins at an even number (R61). -/
theorem even_of_pair {r : Fld} {x : Nat} (hk : r.k = .v ∨ r.k = .vs) (hal : r.al = 2) (hx : x < 0xC0) (h : r.ok x = true) :
    x % 2 = 0 := by
  have hmod : x % 128 % 64 % 2 = 0 := by
    unfold Fld.ok at h
    rcases hk with hk | hk <;>
      simp only [hk, hal, Bool.and_eq_true, Bool.or_eq_true, decide_eq_true_eq, beq_iff_eq] at h <;> omega
  omega

/-! LEA (R159). -/

theorem defLea_ref (m : BitVec 3) (n : Nat) (env : FEnv) (x : VIn) : (defLea m.toNat n).fn env x =
    { d := words64 (pair64 x.a + ((if m = 0 then (nth 0 x.b 0).signExtend 64 else (nth 0 x.b 0).zeroExtend 64) <<< n)),
      q := none, flags := 0 } := by
  have hm : (m.toNat == 0) = decide (m = 0) := by revert m; decide
  simp only [defLea, hm, decide_eq_true_eq]
  rfl

theorem exec_lea (f : LFields) (s : State) : exec (.lea f) s = execL (.lea f) f (fun _ => defLea f.m3.toNat f.c.toNat) s := rfl

theorem lea_illFormed {f : LFields}
    (h : 8 ≤ f.c.toNat ∨ (f.d.toNat < 128 ∧ f.d.toNat % 2 = 1) ∨ (f.a.toNat < 192 ∧ f.a.toNat % 2 = 1)) :
    wellFormed (.lea f) = false := by
  refine Bool.eq_false_iff.2 fun hwf => ?_
  have hok : (rowOf (.lea f)).ok f = true := hwf
  have hc : f.c.toNat ≤ 7 := le_of_lit (lo := 0) (c_ok hok)
  have hd (hx : f.d.toNat < 128) : f.d.toNat % 2 = 0 := even_of_pair (.inl rfl) rfl (by omega) (d_ok hok)
  have ha (hx : f.a.toNat < 192) : f.a.toNat % 2 = 0 := even_of_pair (.inr rfl) rfl hx (ops_ok hok).1
  omega

/-- Settles O17: LEA's function is the sum of its rule, and its row admits c8 to 7 and even pairs alone. -/
theorem leaPairAndIndex : Obligations.LeaPairAndIndex := by
  refine ⟨fun f => whole_says rfl fun _ _ _ _ x _ => ?_, fun f hf => vec_illFormed (lea_illFormed hf) (exec_lea f)⟩
  rw [defLea_ref]
  exact ⟨rfl, rfl, rfl⟩

/-! ICMP (R155). -/

/-- A vector, scalar or constant operand of one register has one word where its type selects constants of one word. -/
theorem operand_one {st : Strand} {f : LFields} {r : Fld} {x : Nat} {ty : OTy} {e t : Nat} {l : List Word}
    (hk : r.k = .any) (hn : r.n = 1) (hty : ty ≠ .b64) (h : st.operand f r x ty e t = .ok l) : ∃ w, l = [w] := by
  unfold Strand.operand at h
  simp only [hk, hn] at h
  split at h
  · exact ⟨_, (Except.ok.inj h).symm⟩
  · split at h
    · exact ⟨_, (Except.ok.inj h).symm⟩
    · split at h
      · split at h
        · exact ⟨_, (Except.ok.inj h).symm⟩
        · cases h
      · obtain rfl := Except.ok.inj h
        cases ty with
        | b64 => exact absurd rfl hty
        | _ => exact ⟨_, rfl⟩

/-- The words of a field that a row may leave unread. -/
def Strand.readIf (st : Strand) (f : LFields) (r : Fld) (x : Nat) (ty : OTy) (e t : Nat) : Except Nat (List Word) :=
  if r.rd then st.operand f r x ty e t else .ok []

theorem inputs_eq (st : Strand) (sp : OpSpec) (f : LFields) (vd : VecDef) (e t : Nat) : st.inputs sp f vd e t =
    (st.operand f sp.a f.a.toNat vd.ta e t).bind fun a => (st.operand f sp.b f.b.toNat vd.tb e t).bind fun b =>
      (st.readIf f sp.c f.c.toNat vd.tc e t).bind fun c => (st.readIf f sp.d f.d.toNat vd.ta e t).bind fun d =>
        .ok { t := t, e := e, a := a, b := b, c := c, d := d } := by
  unfold Strand.inputs Strand.readIf
  cases sp.c.rd <;> cases sp.d.rd <;> rfl

/-- The sources a and b of a thread are what their fields read. -/
theorem operands_of_inputs {st : Strand} {sp : OpSpec} {f : LFields} {vd : VecDef} {e t : Nat} {x : VIn}
    (h : st.inputs sp f vd e t = .ok x) :
    st.operand f sp.a f.a.toNat vd.ta e t = .ok x.a ∧ st.operand f sp.b f.b.toNat vd.tb e t = .ok x.b := by
  rw [inputs_eq] at h
  generalize st.operand f sp.a f.a.toNat vd.ta e t = a at h ⊢
  generalize st.operand f sp.b f.b.toNat vd.tb e t = b at h ⊢
  generalize st.readIf f sp.c f.c.toNat vd.tc e t = c at h
  generalize st.readIf f sp.d f.d.toNat vd.ta e t = d at h
  match a, b, c, d, h with
  | .ok _, .ok _, .ok _, .ok _, rfl => exact ⟨rfl, rfl⟩

theorem pair64_one_beq (a b : Word) : (pair64 [a] == pair64 [b]) = (a == b) := by
  have h (w : Word) : (pair64 [w]).toNat = w.toNat := wv_one w
  rw [Bool.eq_iff_iff, beq_iff_eq, beq_iff_eq, ← BitVec.toNat_inj, ← BitVec.toNat_inj, h, h]

/-- The comparison as R155 states it: signed words under .i32, else unsigned pairs, of which a word is the lower half. -/
def icmpRef (signed : Bool) (c : Nat) (x y : List Word) : Bool :=
  let a := pair64 x
  let b := pair64 y
  let lt := if signed then (nth 0 x 0).slt (nth 0 y 0) else a.ult b
  match c with
  | 0 => lt
  | 1 => lt || a == b
  | 2 => !lt && a != b
  | 3 => !lt
  | 4 => a == b
  | _ => a != b

theorem icmpRef_signed (c : Nat) (a b : Word) : icmpRef true c [a] [b] = holds true c a b := by
  have hne : (pair64 [a] != pair64 [b]) = (a != b) := congrArg not (pair64_one_beq a b)
  simp only [icmpRef, holds, pair64_one_beq, hne, if_true] <;> rfl

theorem icmpRef_unsigned (c : Nat) (x y : List Word) : icmpRef false c x y = holds false c (pair64 x) (pair64 y) := by
  simp only [icmpRef, holds, Bool.false_eq_true, if_false] <;> rfl

theorem intCompare_signed (c : Nat) (a b : Word) : intCompare 0 c (wv [a]) (wv [b]) = icmpRef true c [a] [b] := by
  rw [icmpRef_signed, wv_one, wv_one]
  exact intCompare_word 0 (.inl rfl) c a b

theorem intCompare_unsigned {m : Nat} (hm : m ≠ 0) (c : Nat) (x y : List Word) :
    intCompare m c (wv x) (wv y) = icmpRef false c x y := by
  rw [icmpRef_unsigned, ← intCompare_pair]
  simp only [intCompare, beq_iff_eq, if_neg hm]
  rfl

/-- Under .i32 an operand of ICMP is one word. -/
theorem icmp_words {f : LFields} (h0 : f.m3 = 0) {st : Strand} {e t : Nat} {x : VIn}
    (h : st.inputs (rowOf (.icmp f)) f (defIcmp f.m3.toNat f.c.toNat) e t = .ok x) : ∃ a b, x.a = [a] ∧ x.b = [b] := by
  obtain ⟨ha, hb⟩ := operands_of_inputs h
  have hn : w64 f = 1 := by simp [w64, h0]
  have hty : intTy f.m3.toNat ≠ .b64 := by rw [h0]; decide
  obtain ⟨a, ha⟩ := operand_one rfl hn hty ha
  obtain ⟨b, hb⟩ := operand_one rfl hn hty hb
  exact ⟨a, b, ha, hb⟩

theorem icmp_compares {f : LFields} {st : Strand} {e t : Nat} {x : VIn}
    (h : st.inputs (rowOf (.icmp f)) f (defIcmp f.m3.toNat f.c.toNat) e t = .ok x) :
    intCompare f.m3.toNat f.c.toNat (wv x.a) (wv x.b) = icmpRef (f.m3 = 0) f.c.toNat x.a x.b := by
  by_cases h0 : f.m3 = 0
  · obtain ⟨a, b, ha, hb⟩ := icmp_words h0 h
    rw [ha, hb, decide_eq_true h0, h0]
    exact intCompare_signed _ a b
  · rw [decide_eq_false h0]
    exact intCompare_unsigned (fun hm => h0 (BitVec.eq_of_toNat_eq hm)) _ _ _

theorem exec_icmp (f : LFields) (s : State) :
    exec (.icmp f) s = execL (.icmp f) f (fun _ => defIcmp f.m3.toNat f.c.toNat) s := rfl

theorem icmp_illFormed {f : LFields} (h : 6 ≤ f.c.toNat) : wellFormed (.icmp f) = false := by
  refine Bool.eq_false_iff.2 fun hwf => ?_
  have hok : (rowOf (.icmp f)).ok f = true := hwf
  have hc : f.c.toNat ≤ 5 := le_of_lit (lo := 0) (c_ok hok)
  omega

/-- Settles O18: ICMP compares numbers, the signed values of words under .i32 and the values of pairs else, and its row
admits c8 to 5 alone. -/
theorem icmpPredicateBits : Obligations.IcmpPredicateBits := by
  refine ⟨fun f => whole_says rfl fun _ st e t x hx => ⟨rfl, rfl, ?_⟩,
    fun f hf => vec_illFormed (icmp_illFormed hf) (exec_icmp f)⟩
  refine congrArg some ((icmp_compares hx).trans ?_)
  simp only [icmpRef, decide_eq_true_eq] <;> rfl

end Sys2Proof.Machine
end

section
/-! The cross-thread instructions (O22). -/

open Sys2Proof
namespace Sys2Proof.Machine

/-- A shuffle by its row: the source threads of its definition on numbers are those of the rule on bits (R180). -/
theorem shuffle_once {i j : Instr} {f : LFields} {k : FldK} {len : Nat} {g : Nat → Nat → Nat} {src : Nat → Word → Nat}
    {s : State} {id : Nat} {st : Strand} (hp : Passes i (rowOf j) f noPre s id st)
    (he : exec i s = execCross i (rowOf j) f len (shuffle (rowOf j) f g) s)
    (hrow : rowOf j = { specShfl f with b := fs k 1 1 }) (hk : k = .vsk ∨ k = .sk)
    (hplain : plainOperand f.a.toNat ∧ plainOperand f.b.toNat)
    (hsrc : ∀ t (b : Word), t < 16 → g t b.toNat = src t b) :
    ∃ t u, exec i s = .next t ∧ (st.nowAdm (rowOf j) f = 0 → u = st) ∧
      (st.nowAdm (rowOf j) f ≠ 0 → (shuffleRow j f len src).effect s st (st.nowAdm (rowOf j) f) u) ∧
      Ends s t id st u len none (f.e == 1) false :=
  exec_once_rel hp he (fun _ h => runCount_v h.rest) fun _ =>
    shuffle_says (rowOf j) f g src st _ hplain.1 hplain.2 (by rw [hrow]; rfl) (by rw [hrow]; exact hk)
      (by rw [hrow]; exact w64_cross f) (by rw [hrow]; rfl) hsrc

/-- The sources of an L instruction that its row keeps to registers and constants. -/
theorem plain_ops {sp : OpSpec} {f : LFields} (h : sp.ok f = true) (ha : sp.a.k = .vsk ∨ sp.a.k = .sk)
    (hb : sp.b.k = .vsk ∨ sp.b.k = .sk) : plainOperand f.a.toNat ∧ plainOperand f.b.toNat :=
  ⟨plain_of_fld ha (ops_ok h).1, plain_of_fld hb (ops_ok h).2⟩

/-- The sources of a W instruction are vector registers (R87). -/
theorem plain_short (r : WRFields) (m3 : Nat) :
    plainOperand (WRFields.toM r m3).a.toNat ∧ plainOperand (WRFields.toM r m3).b.toNat :=
  ⟨plain_small r.a _ rfl, plain_small r.b _ rfl⟩

theorem srcShfl_bits (t : Nat) (b : Word) : srcShfl t b.toNat = (b.extractLsb' 0 4).toNat := by
  simp [srcShfl, BitVec.extractLsb'_toNat]

theorem low_five (b : Word) : b.toNat % 32 = (b.extractLsb' 0 5).toNat := by
  simp [BitVec.extractLsb'_toNat]

theorem srcShfld_bits (t : Nat) (b : Word) : srcShfld t b.toNat =
    if t + (b.extractLsb' 0 5).toNat ≤ 15 then t + (b.extractLsb' 0 5).toNat else t := by
  rw [srcShfld, low_five]

theorem srcShflu_bits (t : Nat) (b : Word) : srcShflu t b.toNat =
    if (b.extractLsb' 0 5).toNat ≤ t then t - (b.extractLsb' 0 5).toNat else t := by
  rw [srcShflu, low_five]

theorem laceSays_runCount {f : LFields} {s : State} {st u : Strand} {m : Mask} (h : laceSays f s st m u) :
    u.runCount = st.runCount := runCount_v h.2.2

theorem matchSays_runCount {f : LFields} {s : State} {st u : Strand} {m : Mask} (h : matchSays f s st m u) :
    u.runCount = st.runCount := by
  obtain ⟨_, hslots, -⟩ := h
  exact runCount_v hslots.rest

/-- Settles O22: each instruction's meaning gives the slots of its row, SCAN and REDS step by step over
the threads. -/
theorem crossThread : Obligations.CrossThread := by
  intro i r s id st h hp _
  unfold crossRow at h
  split at h
  case h_1 f =>
    cases h
    exact shuffle_once hp rfl rfl (.inl rfl) (plain_ops (sp := rowOf (.shfl f)) hp.encoding (.inl rfl) (.inl rfl))
      fun t b _ => srcShfl_bits t b
  case h_2 f =>
    cases h
    exact shuffle_once hp rfl rfl (.inl rfl) (plain_ops (sp := rowOf (.shflx f)) hp.encoding (.inl rfl) (.inl rfl)) srcX
  case h_3 f =>
    cases h
    exact shuffle_once hp rfl rfl (.inl rfl) (plain_ops (sp := rowOf (.shfld f)) hp.encoding (.inl rfl) (.inl rfl))
      fun t b _ => srcShfld_bits t b
  case h_4 f =>
    cases h
    exact shuffle_once hp rfl rfl (.inl rfl) (plain_ops (sp := rowOf (.shflu f)) hp.encoding (.inl rfl) (.inl rfl))
      fun t b _ => srcShflu_bits t b
  case h_5 f =>
    cases h
    exact shuffle_once hp rfl rfl (.inr rfl) (plain_ops (sp := rowOf (.bcast f)) hp.encoding (.inl rfl) (.inr rfl))
      fun t b _ => srcShfl_bits t b
  case h_6 w =>
    cases h
    exact shuffle_once hp rfl rfl (.inl rfl) (plain_short w 6) fun t b _ => srcShfl_bits t b
  case h_7 w =>
    cases h
    exact shuffle_once hp rfl rfl (.inl rfl) (plain_short w 6) srcX
  case h_8 f =>
    cases h
    have ha : plainOperand f.a.toNat := plain_of_fld (.inl rfl) (ops_ok (sp := rowOf (.scan f)) hp.encoding).1
    exact exec_once_rel hp rfl (fun _ => scanSays_runCount (s := s)) fun h0 =>
      scan_says (rowOf (.scan f)) f s st _ h0 ha rfl rfl
  case h_9 f =>
    cases h
    have ha : plainOperand f.a.toNat := plain_of_fld (.inl rfl) (ops_ok (sp := rowOf (.reds f)) hp.encoding).1
    exact exec_once_rel hp rfl (fun _ => redsSays_runCount (s := s)) fun h0 =>
      reds_says (rowOf (.reds f)) f s st _ h0 ha rfl rfl
  case h_10 f =>
    cases h
    have hm : f.m3.toNat ≤ 3 := m3_le (sp := rowOf (.vote f)) hp.encoding rfl
    exact exec_once_rel hp rfl (fun _ => voteSays_runCount (s := s)) fun h0 => vote_says f s st _ h0 hm
  case h_11 f =>
    cases h
    have ha : plainOperand f.a.toNat := plain_of_fld (.inl rfl) (ops_ok (sp := rowOf (.matchT f)) hp.encoding).1
    exact exec_once_rel hp rfl (fun _ => matchSays_runCount (s := s)) fun _ =>
      match_says (rowOf (.matchT f)) f s st _ ha rfl (w64_cross f)
  case h_12 f =>
    cases h
    exact exec_once_rel hp (lace_once hp) (fun _ => laceSays_runCount (s := s)) fun _ => lace_says f s st _
  case h_13 => cases h

end Sys2Proof.Machine
end

section
/-! The scratchpad instructions and the placement tables (O32). -/

open Sys2Proof
namespace Sys2Proof.Machine

theorem lds_pads {i : Instr} {f : LFields} {len : Nat} {s : State} {id : Nat} {st : Strand}
    (hp : Passes i (rowOf (.lds f)) f noPre s id st) (hx : exec i s = ldsExec i (rowOf (.lds f)) f len s) (h7 : f.m3 ≠ 7) :
    Padded i (ldsRow f len) s id st :=
  pad_run (r := ldsRow f len) hp hx (lds_step f len h7 st) fun _ _ _ _ => runCount_giveAll _ _ _ _ _ _

theorem sts_pads {i : Instr} {f : LFields} {len : Nat} {s : State} {id : Nat} {st : Strand}
    (hp : Passes i (rowOf (.sts f)) f noPre s id st) (hx : exec i s = stsExec i (rowOf (.sts f)) f len s) (h7 : f.m3 ≠ 7) :
    Padded i (stsRow f len) s id st :=
  pad_run (r := stsRow f len) hp hx (sts_step f len h7 st) fun _ _ _ _ => rfl

theorem atoms_pads {f : LFields} {s : State} {id : Nat} {st : Strand}
    (hp : Passes (.atoms f) (rowOf (.atoms f)) f noPre s id st) : Padded (.atoms f) (atomsRow f) s id st :=
  pad_run (r := atomsRow f) hp rfl (atoms_step f st) fun _ _ _ _ => runCount_giveAll _ _ _ _ _ _

/-- What LDT and STT move between the scratchpad at an offset and the registers of an element (R201). -/
def ldtMove (f : LFields) (off e _ : Nat) (ts : List Nat) (s : State) (u : Strand) : State × Strand :=
  (s, ts.foldl (fun u t => u.vset (f.d.toNat + blockOff f e) t (BitVec.ofNat 32 (leVal (s.scrGets u off 4)))) u)
def sttMove (f : LFields) (off e t : Nat) (_ : List Nat) (s : State) (u : Strand) : State × Strand :=
  (s.padPuts u off (leBytes 4 (u.vget (f.d.toNat + blockOff f e) t).toNat), u)

theorem ldt_pads {f : LFields} {s : State} {id : Nat} {st : Strand}
    (hp : Passes (.ldt f) (rowOf (.ldt f)) f (pitchPre f) s id st) : Padded (.ldt f) (ldtRow f) s id st :=
  rect_run (r := ldtRow f) (g := ldtMove f) rfl rfl rfl rfl hp rfl (fun _ _ _ _ _ => rfl) fun _ _ _ _ =>
    runCount_foldl _ (fun u t => u.vset _ t _) (fun _ _ => rfl) _

theorem stt_pads {f : LFields} {s : State} {id : Nat} {st : Strand}
    (hp : Passes (.stt f) (rowOf (.stt f)) f (pitchPre f) s id st) : Padded (.stt f) (sttRow f) s id st :=
  rect_run (r := sttRow f) (g := sttMove f) rfl rfl rfl rfl hp rfl (fun _ _ _ _ _ => rfl) fun _ _ _ _ => rfl

theorem pad_says : PadSays := by
  intro i r s id st h hp
  unfold padRow at h
  split at h
  case h_1 f =>
    cases h
    exact lds_pads hp rfl (m3_ne_seven (i := .lds f) rfl hp.encoding rfl)
  case h_2 f =>
    cases h
    exact sts_pads hp rfl (m3_ne_seven (i := .sts f) rfl hp.encoding rfl)
  case h_3 f =>
    cases h
    exact atoms_pads hp
  case h_4 f =>
    cases h
    exact ldt_pads hp
  case h_5 f =>
    cases h
    exact stt_pads hp
  case h_6 w =>
    cases h
    exact lds_pads hp rfl (by decide : (4 : BitVec 3) ≠ 7)
  case h_7 w =>
    cases h
    exact sts_pads hp rfl (by decide : (4 : BitVec 3) ≠ 7)
  case h_8 => cases h

/-! LACELD (R186). -/

/-- The machine once a core's table number d8 holds the 128 scratchpad bytes from a on. -/
def State.laceLoaded (s : State) (st : Strand) (f : LFields) : State :=
  s.modCore st.d st.k fun c =>
    { c with lace := cputs c.lace (128 * f.d.toNat) (s.scrGets st (st.sval f.a.toNat).toNat 128) }

theorem exec_laceld {f : LFields} {s : State} {id : Nat} {st : Strand}
    (hp : Passes (.laceld f) (rowOf (.laceld f)) f (tablePre s) s id st) (h0 : st.nowAdm (rowOf (.laceld f)) f ≠ 0)
    (hfit : (st.sval f.a.toNat).toNat + 128 ≤ s.scrSize st) (hal : (st.sval f.a.toNat).toNat % 128 = 0)
    (hbusy : st.scrBusy (st.sval f.a.toNat).toNat 128 = false) (hacq : st.acqBusy = false) :
    exec (.laceld f) s = .next ((s.laceLoaded st f).finish { id := id, st := st, adm := st.nowAdm (rowOf (.laceld f)) f }
      (rowOf (.laceld f)) f 8 st) := by
  change execLaceld f s = _
  unfold execLaceld
  simp only [issue_go hp]
  rw [if_neg h0, if_neg (Nat.not_lt.mpr hfit), if_neg (not_not_intro hal), hbusy, hacq]
  rfl

theorem modAt_outside {α : Type} {l : List α} {i : Nat} (h : l.length ≤ i) (g : α → α) : modAt l i g = l := by
  unfold modAt
  rw [List.getElem?_eq_none h]

/-- Outside the machine's dies and their cores nothing changes. -/
theorem modCore_outside {s : State} {d c : Nat} (h : ¬ (d < s.dies.length ∧ c < (s.die d).cores.length)) (g : Core → Core) :
    s.modCore d c g = s := by
  unfold State.modCore State.modDie
  by_cases hd : d < s.dies.length
  · have hc : (s.die d).cores.length ≤ c := Nat.le_of_not_lt fun hc => h ⟨hd, hc⟩
    have hdie : { s.die d with cores := modAt (s.die d).cores c g } = s.die d := by rw [modAt_outside hc]
    rw [modAt_at (Die.afterReset d) s.dies d (h := fun x => x) hdie, modAt_id]
  · rw [modAt_outside (Nat.le_of_not_lt hd)]

/-- A change of a core's lace table is told by the table that stands there afterwards. -/
theorem modCore_lace (s : State) (d c : Nat) (g : Cells 8 → Cells 8) :
    s.modCore d c (fun x => { x with lace := g x.lace }) =
      s.modCore d c fun x => { x with lace := ((s.modCore d c fun x => { x with lace := g x.lace }).core d c).lace } := by
  by_cases h : d < s.dies.length ∧ c < (s.die d).cores.length
  · refine modCore_at s d c ?_
    rw [core_modCore_same h.1 h.2]
  · rw [modCore_outside h, modCore_outside h]

/-- The lace table of a core of the machine after LACELD. -/
theorem lace_laceLoaded {s : State} {st : Strand} (f : LFields) (hd : st.d < s.dies.length)
    (hk : st.k < (s.die st.d).cores.length) (k : Nat) : cget ((s.laceLoaded st f).core st.d st.k).lace k =
      if 128 * f.d.toNat ≤ k ∧ k < 128 * f.d.toNat + 128
        then s.scrGet st ((st.sval f.a.toNat).toNat + (k - 128 * f.d.toNat))
        else cget (s.core st.d st.k).lace k := by
  rw [State.laceLoaded, core_modCore_same hd hk]
  simp only [cget_cputs, scrGets_length]
  split
  · next h =>
    have hlt : k - 128 * f.d.toNat < 128 := by omega
    simp [scrGets_eq_map, hlt]
  · rfl

theorem laceld_says : LaceldSays := by
  intro f s id st hp h0 hfit hal hbusy hacq
  exact ⟨s.laceLoaded st f, _, exec_laceld hp h0 hfit hal hbusy hacq, ends_finish _ _ _ _ _ _ _ _ rfl hp.whole,
    modCore_lace s st.d st.k (cputs · (128 * f.d.toNat) (s.scrGets st (st.sval f.a.toNat).toNat 128)),
    fun hd hk => lace_laceLoaded f hd hk⟩

/-- Settles O32: a step of each scratchpad instruction is its row's step, and LACELD writes one table of its core. -/
theorem scratchpadAccesses : Obligations.ScratchpadAccesses := ⟨pad_says, laceld_says⟩

end Sys2Proof.Machine
end

section
/-! Shuttle, decode and texture operations complete (O35). How much of an operation one event does, and what of it stays done where
it stops, is the model's reading (log entry 49), as is the bit count of the status record (log entry 50). -/

open Sys2Proof
namespace Sys2Proof.Machine

/-! An operation at work, and how its pass ends. -/

theorem Works.id_eq {s : State} {id n : Nat} {st : Strand} {o : Op} (h : Works s id n st o) : o.id = n := by
  simpa using List.find?_some h.op

/-- The engine takes an operation that is at work. -/
theorem Works.engReady {s : State} {id n : Nat} {st : Strand} {o : Op} (h : Works s id n st o) :
    s.engReady id n = some (st, o) := by
  have he : ((st.earlier n).any fun e => e.isAccess && e.unperformed) = false := by
    rw [List.any_eq_false]
    intro e hmem hacc
    obtain ⟨ha, hu⟩ := Bool.and_eq_true_iff.mp hacc
    exact Bool.false_ne_true ((h.earlier e hmem ha).symm.trans hu)
  unfold State.engReady
  simp only [h.here, h.op, h.going, h.unparked, h.resident, h.pages, he]
  rfl

/-- The strand of an operation at work may end it wherever it still stands as it was. -/
theorem Works.endsAs {s t : State} {id n : Nat} {st : Strand} {o : Op} (h : Works s id n st o) (ht : t.strand id = some st) :
    t.endsAs id n st := by
  obtain ⟨hm, hr, hb⟩ := h.simple
  refine ⟨ht, hm, hr, fun p hp => ?_⟩
  cases h.op.symm.trans hp
  exact hb

/-- What a strand may do with an operation does not depend on the rest of the machine. -/
theorem State.endsAs.of_strand {s t : State} {id n : Nat} {u : Strand} (h : s.endsAs id n u) (ht : t.strand id = s.strand id) :
    t.endsAs id n u := ⟨ht.trans h.1, h.2⟩

theorem State.endsAs.engDone {s : State} {id n : Nat} {u : Strand} (h : s.endsAs id n u) (err : Option EngErr) :
    Puts s (s.engDone id n err) id (u.finishes n err s.waitLines) := by
  obtain ⟨hu, hm, hr, hb⟩ := h
  exact engDone_puts hu hm hr hb

/-- A pass that stops, of an engine whose work stays with its operation. -/
theorem engineStops_engEnd {s s1 : State} {i : Instr} {id n : Nat} {st u : Strand} {o : Op} {r : EStop} (hid : o.id = n)
    (hx : exec i s = .next (s1.engEnd s1 id st o (some r))) (hc : (s1.ctx st.ctx).state = (s.ctx st.ctx).state)
    (hu : s1.endsAs id n u) : EngineStops s s1 i id n st u o r := by
  subst hid
  refine ⟨?err, ?page, ?park, ?wait⟩
  case err =>
    rintro c va rfl
    exact ⟨_, hx, hu.engDone _⟩
  case page =>
    rintro e rfl h5
    rw [hx, State.engEnd, State.engPage, if_neg (hc ▸ h5)]
  case park =>
    rintro rfl
    exact hx
  case wait =>
    rintro rfl
    exact hx

/-! What an engine's reads leave: nothing but memory and its caches differs. -/

/-- What holds of the state that a function gives holds of it under its name. -/
theorem of_fst {α : Type} {P : State → Prop} {p : State × α} {t : State} {x : α} (e : p = (t, x)) (h : P p.1) : P t := by
  rwa [e] at h

theorem engAddr_stores (s : State) (st : Strand) (k : AKind) (need n va : Nat) : Stores s (s.engAddr st k need n va).1 := by
  unfold State.engAddr
  split
  · exact Stores.refl s
  · next w off _ =>
    cases w
    case glob =>
      have ht := translate_stores s st.ctx st.d st.k none off need
      dsimp only
      split <;> next e => exact of_fst e ht
    all_goals exact Stores.refl s

theorem engRead_stores (s : State) (st : Strand) (n va hint : Nat) : Stores s (s.engRead st n va hint).1 := by
  have ha := engAddr_stores s st .read kRead n va
  unfold State.engRead
  split
  next e => exact of_fst e ha
  next e =>
    have h1 := of_fst e ha
    split
    · exact h1
    · split
      · exact h1
      · exact h1.trans (touch_stores _ _ _ _ _)
  next e => exact of_fst e ha
  next e => exact of_fst e ha

theorem streamBit_stores (s : State) (st : Strand) (src bit : Nat) : Stores s (s.streamBit st src bit).1 := by
  have hr := engRead_stores s st 1 ((src + bit / 8) % 2 ^ 64) 0
  unfold State.streamBit
  dsimp only
  split
  · exact Stores.refl s
  · split <;> next e => exact of_fst e hr

theorem prefixCode_stores (st : Strand) (im : List Byte) (src m n : Nat) (s : State) (l bit code first idx : Nat) :
    Stores s (s.prefixCode st im src m n l bit code first idx).1 := by
  induction n generalizing s l bit code first idx with
  | zero => exact Stores.refl s
  | succ n ih =>
    have hb := streamBit_stores s st src bit
    simp only [State.prefixCode]
    split
    · exact Stores.refl s
    · split
      next e => exact of_fst e hb
      next e =>
        have h1 := of_fst e hb
        split
        · exact h1
        · exact h1.trans (ih ..)

theorem fixedCode_stores (s : State) (st : Strand) (src bit l : Nat) : Stores s (s.fixedCode st src bit l).1 := by
  unfold State.fixedCode
  refine List.foldlRecOn (motive := fun q : State × Except EStop Nat => Stores s q.1) _ _ (Stores.refl s) fun q hq i _ => ?_
  split
  · exact hq
  · next t v =>
    have hb := streamBit_stores t st src (bit + i)
    split <;> next e => exact hq.trans (of_fst e hb)

theorem nextSymbol_stores (s : State) (st : Strand) (im : List Byte) (src bit : Nat) :
    Stores s (s.nextSymbol st im src bit).1 := by
  have hf := fixedCode_stores s st src bit (recField im 1 1)
  unfold State.nextSymbol
  dsimp only
  split
  · exact prefixCode_stores ..
  · split <;> next e => exact of_fst e hf

/-! An engine's work leaves every context in its state, as whether a missing page makes a batch turns on it (R402). -/

/-- Every context of t is in the state that it has in s. -/
structure SamePhases (s t : State) : Prop where
  state : ∀ n, (t.ctx n).state = (s.ctx n).state

theorem SamePhases.refl (s : State) : SamePhases s s := ⟨fun _ => rfl⟩
theorem SamePhases.trans {s t u : State} (h : SamePhases s t) (k : SamePhases t u) : SamePhases s u :=
  ⟨fun n => (k.state n).trans (h.state n)⟩
theorem samePhases_of_ctxs {s t : State} (h : t.ctxs = s.ctxs) : SamePhases s t := by
  constructor
  unfold State.ctx
  simp only [h, implies_true]
theorem Stores.samePhases {s t : State} (h : Stores s t) : SamePhases s t := samePhases_of_ctxs h.ctxs

theorem samePhases_modKernel (s : State) (n k : Nat) (g : Kernel → Kernel) : SamePhases s (s.modKernel n k g) := by
  unfold State.modKernel
  split
  · constructor
    intro m
    rw [State.ctx_modCtx]
    split
    · next h => rw [h]
    · rfl
  · exact SamePhases.refl s
theorem samePhases_scrPuts (s : State) (st : Strand) (a : Nat) (bs : List Byte) : SamePhases s (s.scrPuts st a bs) :=
  samePhases_modKernel ..
theorem samePhases_engKeep (s : State) (id n prog bits : Nat) (staged : List (List Byte)) :
    SamePhases s (s.engKeep id n prog bits staged) := samePhases_of_ctxs (State.modStrand_ctxs ..)

theorem samePhases_engWrite (s : State) (st : Strand) (va : Nat) (bs : List Byte) (hint : Nat) :
    SamePhases s (s.engWrite st va bs hint).1 := by
  have ha := (engAddr_stores s st .write kWrite bs.length va).samePhases
  unfold State.engWrite
  split
  next e => exact of_fst e ha
  next e =>
    have h1 := of_fst e ha
    split
    · exact h1
    · exact h1.trans (corePuts_stores ..).samePhases
  next e => exact (of_fst e ha).trans (samePhases_scrPuts ..)

theorem samePhases_shutRead (s : State) (st : Strand) (d : ShutDesc) (n : Nat) : SamePhases s (s.shutRead st d n).1 :=
  (engRead_stores ..).samePhases

theorem samePhases_shutElem (s : State) (st : Strand) (d : ShutDesc) (staged : List (List Byte)) (n : Nat) :
    SamePhases s (s.shutElem st d staged n).1 := by
  have hw (t : State) (bs : List Byte) := samePhases_engWrite t st (wrapVa (d.dAt (d.place n).1 (d.place n).2.1 (d.place n).2.2))
    (d.convert bs) d.hint
  have hr : SamePhases s (match staged[n]? with
      | some bs => (s, Except.ok bs)
      | none => s.shutRead st d n).1 := by
    split
    · exact SamePhases.refl s
    · exact samePhases_shutRead ..
  unfold State.shutElem
  dsimp only
  split
  next e => exact of_fst e hr
  next t bs e => split <;> next e2 => exact (of_fst e hr).trans (of_fst e2 (hw t bs))

theorem samePhases_shutMove (st : Strand) (d : ShutDesc) (staged : List (List Byte)) (k : Nat) (s : State) (n : Nat) :
    SamePhases s (s.shutMove st d staged k n).1 := by
  induction k generalizing s n with
  | zero => exact SamePhases.refl s
  | succ k ih =>
    have he := samePhases_shutElem s st d staged n
    simp only [State.shutMove]
    split
    next e => exact (of_fst e he).trans (ih ..)
    next e => exact of_fst e he

theorem samePhases_shutStage (st : Strand) (d : ShutDesc) (k : Nat) (s : State) (l : List (List Byte)) :
    SamePhases s (s.shutStage st d k l).1 := by
  induction k generalizing s l with
  | zero => exact SamePhases.refl s
  | succ k ih =>
    have hr := samePhases_shutRead s st d l.length
    simp only [State.shutStage]
    split
    next e => exact (of_fst e hr).trans (ih ..)
    next e => exact of_fst e hr

theorem samePhases_shutRun (s : State) (st : Strand) (d : ShutDesc) (o : Op) (rows : Nat) :
    SamePhases s (s.shutRun st d o rows).1 := by
  have hs : SamePhases s (if d.overlaps && o.prog == 0 then s.shutStage st d (d.count - o.staged.length) o.staged
      else (s, o.staged, none)).1 := by
    split
    · exact samePhases_shutStage ..
    · exact SamePhases.refl s
  unfold State.shutRun
  dsimp only
  split
  next e => exact of_fst e hs
  next e => exact of_fst e hs
  next e => exact of_fst e hs
  next e => exact (of_fst e hs).trans (samePhases_shutMove ..)

theorem samePhases_decodeRun (st : Strand) (im : List Byte) (d : DecDesc) (n : Nat) (s : State) (p : DecPos) :
    SamePhases s (s.decodeRun st im d n p).1 := by
  induction n generalizing s p with
  | zero => exact SamePhases.refl s
  | succ n ih =>
    have hn := (nextSymbol_stores s st im d.src p.bit).samePhases
    simp only [State.decodeRun]
    split
    next e => exact of_fst e hn
    next e => exact of_fst e hn
    next e => exact ((of_fst e hn).trans (samePhases_scrPuts ..)).trans (ih ..)

/-! The shuttles (R212 to R216). -/

theorem exec_shuttleComplete {s s1 : State} {id n rows k : Nat} {st : Strand} {o : Op} {d : ShutDesc} {l : List (List Byte)}
    {r : Option EStop} (hw : Works s id n st o) (hk : o.kind = .shut d) (hin : (id, n) ∈ s.inShuttles st.d st.k)
    (hrun : s.shutRun st d o rows = (s1, l, k, r)) :
    exec (.shuttleComplete id ⟨n, rows⟩) s =
      let s2 := s1.engKeep id n k 0 l
      let s3 := if r.isNone then s2.modCore st.d st.k fun c => { c with shutq := c.shutq.filter (· != (id, n)) } else s2
      if r.isNone && decide (k < d.count) then .next s2 else .next (s3.engEnd s3 id st o r) := by
  change execShuttleComplete id ⟨n, rows⟩ s = _
  have hc : (s.inShuttles st.d st.k).contains (id, n) = true := List.contains_iff_mem.mpr hin
  unfold execShuttleComplete
  simp only [hw.engReady, hk, hc, hrun, Bool.not_true, Bool.false_eq_true, if_false]

theorem shuttle_says : ShuttleSays := by
  intro s id n rows st o d hw hk hin s1 l k r hrun
  dsimp only
  have hx := exec_shuttleComplete hw hk hin hrun
  have hph : SamePhases s (s1.engKeep id n k 0 l) :=
    (of_fst hrun (samePhases_shutRun s st d o rows)).trans (samePhases_engKeep ..)
  refine ⟨fun hr hlt => ?more, fun u hu => ⟨fun hr hle => ?last, fun e hr => ?stops⟩⟩
  case more =>
    subst hr
    simpa [hlt] using hx
  case last =>
    subst hr
    simp only [Option.isNone_none, Bool.true_and, decide_eq_true_eq, if_neg (Nat.not_lt.mpr hle), if_true] at hx
    refine ⟨_, hx, ?_⟩
    rw [← waitLines_modCore (s1.engKeep id n k 0 l) st.d st.k fun c => { c with shutq := c.shutq.filter (· != (id, n)) }]
    exact hw.id_eq ▸ (hu.of_strand (State.strand_modCore ..)).engDone none
  case stops =>
    subst hr
    exact engineStops_engEnd hw.id_eq hx (hph.state st.ctx) hu

/-- Each of the first k elements of a list that satisfy p stands behind fewer than k that do. -/
theorem take_filter_split {α : Type} (p : α → Bool) (l : List α) (k : Nat) (q : α) (h : q ∈ (l.filter p).take k) :
    ∃ xs ys, l = xs ++ q :: ys ∧ (xs.filter p).length < k := by
  induction l generalizing k with
  | nil => simp at h
  | cons a l ih =>
    cases k with
    | zero => simp at h
    | succ k =>
      by_cases ha : p a = true
      · rw [List.filter_cons_of_pos ha, List.take_succ_cons, List.mem_cons] at h
        rcases h with rfl | h
        · exact ⟨[], l, rfl, Nat.succ_pos k⟩
        · obtain ⟨xs, ys, rfl, hlt⟩ := ih k h
          refine ⟨a :: xs, ys, rfl, ?_⟩
          rw [List.filter_cons_of_pos ha]
          exact Nat.succ_lt_succ hlt
      · rw [List.filter_cons_of_neg ha] at h
        obtain ⟨xs, ys, rfl, hlt⟩ := ih (k + 1) h
        refine ⟨a :: xs, ys, rfl, ?_⟩
        rw [List.filter_cons_of_neg ha]
        exact hlt

theorem shuttleOrder_says : ShuttleOrderSays :=
  fun s d c => ⟨List.length_take_le .., fun q hq => take_filter_split (s.shutLive d c) (s.core d c).shutq 2 q hq⟩

/-! The table loader (R217, R218). -/

/-- The core of a strand once version v of a decode slot is loaded with an image, or with none. -/
def State.slotLoaded (s : State) (st : Strand) (k v : Nat) (im : Option (List Byte)) : State :=
  s.modCore st.d st.k fun c => { c with dslots := modAt c.dslots k fun q => { q with loaded := v, image := im } }

theorem exec_dtldComplete {s : State} {id n k v ptr : Nat} {st : Strand} {o : Op} (hw : Works s id n st o)
    (hk : o.kind = .dtld k v ptr) (hv : ((s.core st.d st.k).dslot k).loaded + 1 = v)
    (hold : s.olderDecode st.d st.k k v = false) :
    exec (.dtldComplete id n) s = .next (match s.imageRead st ptr with
      | (s1, .ok im) => s.engEnd (s1.slotLoaded st k v (if imageOk im then some im else none)) id st o none
      | (s1, .error e) => s.engEnd (s1.slotLoaded st k v none) id st o (some e)) := by
  change execDtldComplete id n s = _
  unfold execDtldComplete
  simp only [hw.engReady, hk]
  rw [if_neg (by simp [hv, hold])]
  rcases s.imageRead st ptr with ⟨s1, _ | im⟩ <;> rfl

/-- Loading a slot of the core leaves the strand, so that its operation ends as it would have ended. -/
theorem slotLoaded_engDone {s s1 : State} {id n : Nat} {st : Strand} {o : Op} (hw : Works s id n st o)
    (hs : s1.strand id = some st) (k v : Nat) (im : Option (List Byte)) (err : Option EngErr) :
    Puts (s1.slotLoaded st k v im) ((s1.slotLoaded st k v im).engDone id o.id err) id (st.finishes n err s1.waitLines) := by
  have hwait : (s1.slotLoaded st k v im).waitLines = s1.waitLines := waitLines_modCore ..
  rw [← hwait, hw.id_eq]
  exact (hw.endsAs ((State.strand_modCore ..).trans hs)).engDone err

theorem dtld_says : DtldSays := by
  intro s id n st o k v ptr hw hk hv hold
  dsimp only
  have hx := exec_dtldComplete hw hk hv hold
  refine ⟨fun s1 im hr hs => ?_, fun s1 c va hr hs => ?_⟩ <;> rw [hr] at hx
  all_goals exact ⟨_, hx, slotLoaded_engDone hw hs ..⟩

/-! The decoder (R217, R219). -/

/-- The decoder's pass over up to n further symbols, with the image of its slot or with none. -/
def State.decodePass (s : State) (st : Strand) (im : Option (List Byte)) (d : DecDesc) (n : Nat) (p : DecPos) :
    State × DecPos × Option EStop :=
  match im with
  | some im => s.decodeRun st im d n p
  | none => (s, { p with invalid := true }, none)

theorem samePhases_decodePass (s : State) (st : Strand) (im : Option (List Byte)) (d : DecDesc) (n : Nat) (p : DecPos) :
    SamePhases s (s.decodePass st im d n p).1 := by
  cases im with
  | some im => exact samePhases_decodeRun ..
  | none => exact SamePhases.refl s

/-- The status record of a decoder that has come to p: the bits consumed, then the symbols written, with bit 31 set at an
invalid code. -/
def DecDesc.status (d : DecDesc) (p : DecPos) : List Byte :=
  leBytes 4 (p.bit - d.boff) ++ leBytes 4 (p.count % 2 ^ 31 + if p.invalid then 2 ^ 31 else 0)

theorem exec_decodeComplete {s s1 : State} {id n blocks : Nat} {st : Strand} {o : Op} {d : DecDesc} {p : DecPos}
    {r : Option EStop} (hw : Works s id n st o) (hk : o.kind = .decode d)
    (hv : d.version ≤ ((s.core st.d st.k).dslot d.slot).loaded)
    (hrun : s.decodePass st ((s.core st.d st.k).dslot d.slot).image d (min (16 * blocks) (d.n - o.prog))
      { bit := d.boff + o.bits, count := o.prog, invalid := false } = (s1, p, r)) :
    exec (.decodeComplete id ⟨n, blocks⟩) s =
      let s2 := s1.engKeep id n p.count (p.bit - d.boff) []
      if r.isNone && !p.invalid && decide (p.count < d.n) then .next s2
      else .next (s2.engEnd (if r.isNone then s2.scrPuts st d.stat (d.status p) else s2) id st o r) := by
  change execDecodeComplete id ⟨n, blocks⟩ s = _
  unfold execDecodeComplete
  simp only [hw.engReady, hk, if_neg (Nat.not_lt.mpr hv)]
  cases him : ((s.core st.d st.k).dslot d.slot).image with
  | some im =>
    rw [him, State.decodePass] at hrun
    simp only [hrun]
    rfl
  | none =>
    rw [him] at hrun
    cases hrun
    rfl

theorem strand_scrPuts (s : State) (st : Strand) (a : Nat) (bs : List Byte) (id : Nat) :
    (s.scrPuts st a bs).strand id = s.strand id := by
  unfold State.strand
  rw [State.scrPuts_strands]
theorem waitLines_scrPuts (s : State) (st : Strand) (a : Nat) (bs : List Byte) :
    (s.scrPuts st a bs).waitLines = s.waitLines := by
  unfold State.waitLines
  rw [State.scrPuts_dies]

theorem decode_says : DecodeSays := by
  intro s id n blocks st o d hw hk hv
  dsimp only
  intro s1 p r hrun
  have hx := exec_decodeComplete (blocks := blocks) hw hk hv hrun
  have hph : SamePhases s (s1.engKeep id n p.count (p.bit - d.boff) []) :=
    (of_fst (P := SamePhases s) hrun (samePhases_decodePass ..)).trans (samePhases_engKeep ..)
  refine ⟨fun hr hi hlt => ?more, fun u hu => ⟨fun hr hdone => ?last, fun e hr => ?stops⟩⟩
  case more =>
    subst hr
    simpa [hi, hlt] using hx
  case last =>
    subst hr
    have hno : ¬ (p.invalid = false ∧ p.count < d.n) := fun ⟨hi, hlt⟩ =>
      hdone.elim (fun h => Bool.false_ne_true (hi.symm.trans h)) (Nat.not_le.mpr hlt)
    have hst : (leBytes 4 (p.bit - d.boff) ++ leBytes 4 (if p.invalid then p.count % 2 ^ 31 + 2 ^ 31 else p.count % 2 ^ 31)) =
        d.status p := by
      unfold DecDesc.status
      cases p.invalid <;> rfl
    simp only [Option.isNone_none, Bool.true_and, Bool.and_eq_true, Bool.not_eq_true', decide_eq_true_eq, if_neg hno,
      if_true] at hx
    refine ⟨_, hx, ?_⟩
    rw [hst, ← waitLines_scrPuts _ st d.stat (d.status p)]
    exact hw.id_eq ▸ (hu.of_strand (strand_scrPuts ..)).engDone none
  case stops =>
    subst hr
    exact engineStops_engEnd hw.id_eq hx (hph.state st.ctx) hu

/-! The sampler (R221). -/

/-- The sampler's pass over groups of threads, each of which receives the sample of one thread. -/
def fetchStep (d : TexDesc) (dst : Nat) (inputs : List (List Nat)) (q : State × Strand × Option EStop) (g : Nat × List Nat) :
    State × Strand × Option EStop :=
  match q with
  | (s, st, some e) => (s, st, some e)
  | (s, st, none) => match s.sample st d (nth [] inputs g.1) with
    | (s, .ok ws) => (s, g.2.foldl (fun st t => st.vputs dst t ws) st, none)
    | (s, .error e) => (s, st, some e)

theorem exec_fetchfComplete {s s1 : State} {id n dst a : Nat} {st u : Strand} {o : Op} {d : TexDesc} {uni : Bool}
    {inputs : List (List Nat)} (hw : Works s id n st o) (hk : o.kind = .fetchf d dst a uni inputs)
    (hrun : (if uni then [(mLow o.mask, threads o.mask)] else (threads o.mask).map fun t => (t, [t])).foldl
      (fetchStep d dst inputs) (s, st, none) = (s1, u, none)) :
    exec (.fetchfComplete id n) s = .next ((s1.putStrand id u).engDone id n none) := by
  have hpass : exec (.fetchfComplete id n) s = .next (let r := (if uni then [(mLow o.mask, threads o.mask)]
      else (threads o.mask).map fun t => (t, [t])).foldl (fetchStep d dst inputs) (s, st, none)
      s.engEnd (r.1.putStrand id r.2.1) id st o r.2.2) := by
    change execFetchfComplete id n s = _
    unfold execFetchfComplete
    simp only [hw.engReady, hk]
    rfl
  rw [hpass, hrun, ← hw.id_eq]
  rfl

/-- The sampler's pass over single threads is their samples in order. -/
theorem foldl_fetchStep_single {d : TexDesc} {dst : Nat} {inputs : List (List Nat)} {s1 : State} {u : Strand} (ts : List Nat)
    (s : State) (st : Strand) (h : sampleAll d dst inputs ts s st = (s1, .ok u)) :
    (ts.map fun t => (t, [t])).foldl (fetchStep d dst inputs) (s, st, none) = (s1, u, none) := by
  induction ts generalizing s st with
  | nil =>
    cases h
    rfl
  | cons t ts ih =>
    unfold sampleAll at h
    split at h
    · cases h
    · next s2 ws hs =>
      have hstep : fetchStep d dst inputs (s, st, none) (t, [t]) = (s2, st.vputs dst t ws, none) := by
        simp only [fetchStep, hs]
        rfl
      rw [List.map_cons, List.foldl_cons, hstep]
      exact ih _ _ h

/-- Nothing but vector registers differs. -/
def OnlyVector (st u : Strand) : Prop := u = { st with v := u.v }

theorem OnlyVector.vputs {st u : Strand} (h : OnlyVector st u) (n t : Nat) (ws : List Word) : OnlyVector st (u.vputs n t ws) := by
  unfold OnlyVector at h ⊢
  rw [vputs_rest, h]

theorem onlyVector_foldl_vputs (st : Strand) (dst : Nat) (ws : List Word) (ts : List Nat) :
    OnlyVector st (ts.foldl (fun u v => u.vputs dst v ws) st) :=
  List.foldlRecOn (motive := OnlyVector st) ts _ rfl fun _ h t _ => h.vputs dst t ws

theorem onlyVector_sampleAll {d : TexDesc} {dst : Nat} {inputs : List (List Nat)} {s1 : State} {st0 u : Strand} (ts : List Nat)
    (s : State) (st : Strand) (h0 : OnlyVector st0 st) (h : sampleAll d dst inputs ts s st = (s1, .ok u)) :
    OnlyVector st0 u := by
  induction ts generalizing s st with
  | nil =>
    cases h
    exact h0
  | cons t ts ih =>
    unfold sampleAll at h
    split at h
    · cases h
    · exact ih _ _ (h0.vputs ..) h

/-- The strand of an operation at work may end it with other vector registers. -/
theorem Works.endsAs_vector {s t : State} {id n : Nat} {st u : Strand} {o : Op} (h : Works s id n st o) (hu : OnlyVector st u) :
    (t.putStrand id u).endsAs id n u := by
  obtain ⟨_, hm, hr, hb⟩ := h.endsAs h.here
  have ht := State.strand_putStrand_same t id u
  rw [hu] at ht ⊢
  exact ⟨ht, hm, hr, hb⟩

theorem fetchf_done {s s1 : State} {id n : Nat} {st u : Strand} {o : Op} (h : Works s id n st o) (hu : OnlyVector st u) :
    Puts s1 ((s1.putStrand id u).engDone id n none) id (u.finishes n none s1.waitLines) :=
  (puts_putStrand s1 id u).trans ((h.endsAs_vector (t := s1) hu).engDone none)

theorem fetchf_says : FetchfSays := by
  intro s id n st o d dst a uni inputs hw hk
  dsimp only
  refine ⟨fun hu s1 ws hs => ?one, fun hu s1 u hs => ?each⟩ <;> subst hu
  case one =>
    refine ⟨_, exec_fetchfComplete hw hk ?_, fetchf_done hw (onlyVector_foldl_vputs st dst ws (threads o.mask))⟩
    simp only [if_true, List.foldl_cons, List.foldl_nil, fetchStep, hs]
    rfl
  case each =>
    exact ⟨_, exec_fetchfComplete hw hk (foldl_fetchStep_single _ s st hs),
      fetchf_done hw (onlyVector_sampleAll _ s st rfl hs)⟩

/-- Settles O35: each engine's event is one equation of its pass and its end, an operation at work ends by `engDone_puts`, and no
pass changes the state of a context, on which the batch of a missing page turns. -/
theorem enginesComplete : Obligations.EnginesComplete :=
  ⟨shuttle_says, shuttleOrder_says, dtld_says, decode_says, fetchf_says⟩

end Sys2Proof.Machine
end

section
/-! The machine after reset (O1). -/

open Sys2Proof
namespace Sys2Proof.Machine

theorem link_reset (l : Nat) : (State.reset.link l).state = 0 := by
  match l with
  | 0 | 1 | 2 | _ + 3 => rfl

theorem tile_afterReset (p m : Nat) : ((Die.afterReset p).tile m).state = 0 := by
  unfold Die.tile nth
  rw [List.getD_eq_getElem?_getD]
  change ((List.replicate 24 MeshTile.healthy)[m]?.getD MeshTile.healthy).state = 0
  rw [List.getElem?_replicate]
  split <;> rfl

theorem region_afterReset {p n : Nat} {r : Region} (h : (Die.afterReset p).regions[n]? = some r) : r.state = 0 := by
  obtain rfl : r = Region.off := List.eq_of_mem_replicate (List.mem_of_getElem? h)
  rfl

theorem die_reset (d : Nat) : State.reset.die d = Die.afterReset d := by
  match d with
  | 0 | 1 | 2 | _ + 3 => rfl

/-- Settles O1: the dies of the reset state are dies after reset, whose tiles and regions are copies of one record. -/
theorem resetValues : Obligations.ResetValues := by
  refine ⟨rfl, rfl, rfl, rfl, rfl, rfl, rfl, rfl, fun _ => rfl, link_reset, rfl, rfl, fun d _ => ?_⟩
  rw [die_reset]
  exact ⟨rfl, rfl, rfl, rfl, rfl, tile_afterReset d, fun _ _ => region_afterReset⟩

end Sys2Proof.Machine
end

section
/-! Lane arbitration and the answers to held requests (O47). -/

open Sys2Proof
namespace Sys2Proof.Machine

/-! Records of a table. -/

/-- With rising keys a table lists one record for each key. -/
theorem tget_of_mem {α : Type} {m : Tab α} {lo a : Nat} {x : α} (h : tabAbove lo m = true) (hm : (a, x) ∈ m) :
    tget m a = some x ∧ lo ≤ a := by
  induction m generalizing lo with
  | nil => exact absurd hm List.not_mem_nil
  | cons e m ih =>
    obtain ⟨k, v⟩ := e
    rw [tabAbove, Bool.and_eq_true, decide_eq_true_iff] at h
    rcases List.mem_cons.mp hm with he | hm
    · cases he
      exact ⟨if_pos rfl, h.1⟩
    · obtain ⟨hx, hk⟩ := ih h.2 hm
      exact ⟨(if_neg (by omega)).trans hx, by omega⟩

/-- A change of each record under its key. -/
theorem tget_map_keyed {α : Type} (m : Tab α) (f : Nat × α → Nat × α) (hf : ∀ e, (f e).1 = e.1) (a : Nat) :
    tget (m.map f) a = (tget m a).map fun x => (f (a, x)).2 := by
  induction m with
  | nil => rfl
  | cons e m ih =>
    obtain ⟨k, v⟩ := e
    have hk : f (k, v) = (k, (f (k, v)).2) := Prod.ext (hf (k, v)) rfl
    rw [List.map_cons, hk, tget, tget, ih]
    split
    · next h =>
      subst h
      rfl
    · rfl

/-! The keys of R314 as one number. -/

/-- A digit below the radix decides only where what stands before it is equal. -/
theorem digit_lt {k x y x' y' : Nat} (hy : y < k) (hy' : y' < k) :
    x * k + y < x' * k + y' ↔ x < x' ∨ x = x' ∧ y < y' := by
  rcases Nat.lt_trichotomy x x' with h | rfl | h
  · have hk : (x + 1) * k ≤ x' * k := Nat.mul_le_mul_right k h
    rw [Nat.add_mul] at hk
    exact ⟨fun _ => .inl h, fun _ => by omega⟩
  · constructor <;> omega
  · have hk : (x' + 1) * k ≤ x * k := Nat.mul_le_mul_right k h
    rw [Nat.add_mul] at hk
    constructor <;> omega

theorem digit_eq {k x y x' y' : Nat} (hy : y < k) (hy' : y' < k) : x * k + y = x' * k + y' ↔ x = x' ∧ y = y' := by
  have h := digit_lt (x := x) (x' := x') hy hy'
  have h' := digit_lt (x := x') (x' := x) hy' hy
  constructor
  · intro e
    omega
  · rintro ⟨rfl, rfl⟩
    rfl

/-- Digits one behind the other, each below its radix: the numbers compare as the lists of their digits do. -/
theorem foldl_digits_lt (l : List (Nat × Nat × Nat)) (h : ∀ e ∈ l, e.2.1 < e.1 ∧ e.2.2 < e.1) (m n : Nat) :
    l.foldl (fun m e => m * e.1 + e.2.1) m < l.foldl (fun n e => n * e.1 + e.2.2) n ↔
      m :: l.map (·.2.1) < n :: l.map (·.2.2) := by
  induction l generalizing m n with
  | nil => simp [List.cons_lt_cons_iff]
  | cons e l ih =>
    obtain ⟨hx, hy⟩ := h e List.mem_cons_self
    rw [List.foldl_cons, List.foldl_cons, ih fun e he => h e (List.mem_cons_of_mem _ he), List.map_cons, List.map_cons,
      List.cons_lt_cons_iff, List.cons_lt_cons_iff, List.cons_lt_cons_iff, digit_lt hx hy, digit_eq hx hy]
    tauto

theorem spri_lt (s : State) (st : Strand) : s.spri st < 4 := by
  unfold State.spri
  split
  · exact Nat.mod_lt _ (by decide)
  · decide

theorem arb_says : ArbSays := by
  intro s a b p q ha hb hp hq
  have hdemoted (st : Strand) : (if st.spin.demoted then 1 else 0) < 2 := by split <;> decide
  have hprio (st : Strand) : nbits (s.ctx st.ctx).cfg.toNat 0 2 < 4 := Nat.mod_lt _ (by decide)
  have hwait (st : Strand) : 2 ^ 32 - min st.waitCount (2 ^ 32) < 2 ^ 40 := lt_of_le_of_lt (Nat.sub_le _ _) (by decide)
  unfold State.arbKey State.arbKeys
  rw [ha, hb]
  dsimp only [Option.map_some, Option.getD_some]
  generalize 2 ^ 40 = k at hwait ⊢
  refine foldl_digits_lt [(2, _, _), (4, _, _), (4, _, _), (k, _, _), (8, _, _)] (fun e he => ?_) _ _
  simp only [List.mem_cons, List.not_mem_nil, or_false] at he
  obtain rfl | rfl | rfl | rfl | rfl := he
  · exact ⟨hdemoted a, hdemoted b⟩
  · exact ⟨hprio a, hprio b⟩
  · exact ⟨spri_lt s a, spri_lt s b⟩
  · exact ⟨hwait a, hwait b⟩
  · exact ⟨hp, hq⟩

/-! Runs and answers. -/

theorem mem_of_arbBest {s : State} {l : List (Nat × Strand)} {b : Nat × Strand} (h : s.arbBest l = some b) : b ∈ l := by
  induction l generalizing b with
  | nil => cases h
  | cons a l ih =>
    unfold State.arbBest at h
    split at h
    · cases h
      exact List.mem_cons_self
    · next c hc =>
      split at h
      · cases h
        exact List.mem_cons_of_mem _ (ih hc)
      · cases h
        exact List.mem_cons_self

/-- The strand whose key is below every other's is chosen. -/
theorem arbBest_of_least {s : State} {l : List (Nat × Strand)} {e : Nat × Strand} (he : e ∈ l)
    (h : ∀ x, x ∈ l → x ≠ e → s.arbKey e.2 < s.arbKey x.2) : s.arbBest l = some e := by
  induction l with
  | nil => exact absurd he List.not_mem_nil
  | cons a l ih =>
    unfold State.arbBest
    by_cases ha : e = a
    · subst ha
      split
      · rfl
      · next b hb =>
        refine if_neg fun hlt => ?_
        by_cases hbe : b = e
        · exact absurd hlt (hbe ▸ lt_irrefl _)
        · exact absurd hlt (lt_asymm (h b (List.mem_cons_of_mem _ (mem_of_arbBest hb)) hbe))
    · have hl : e ∈ l := (List.mem_cons.mp he).resolve_left ha
      rw [ih hl fun x hx => h x (List.mem_cons_of_mem _ hx)]
      exact if_pos (h a List.mem_cons_self (Ne.symm ha))

/-- A strand of the module after its lane has started the run of strand `id`: those that could have been chosen count it. -/
def runCounted (ready : List (Nat × Strand)) (id : Nat) (e : Nat × Strand) : Nat × Strand :=
  if e.1 = id then (e.1, { e.2 with run := .running, waitCount := 0, runCount := 0 })
  else if e.2.run == .ready && ready.any (fun r => r.1 == e.1) then (e.1, { e.2 with waitCount := e.2.waitCount + 1 })
  else e

theorem runCounted_key (ready : List (Nat × Strand)) (id : Nat) (e : Nat × Strand) : (runCounted ready id e).1 = e.1 := by
  unfold runCounted
  split
  · rfl
  · split <;> rfl

/-- The strands that a lane may choose. -/
def State.mayRun (s : State) (d c l : Nat) : List (Nat × Strand) := (s.onLane d c l).filter fun e => s.canRun e.2

/-- An idle lane has started the run of strand `id`. -/
def State.runStarted (s : State) (d c l id : Nat) : State :=
  { s.modCore d c (fun x => { x with
      lanes := tput x.lanes l { (tget (s.core d c).lanes l).getD Lane.idle with running := some id } }) with
    strands := s.strands.map (runCounted (s.mayRun d c l) id) }

theorem startRun_eq {s : State} {d c l id : Nat} {st : Strand}
    (hidle : ((tget (s.core d c).lanes l).getD Lane.idle).running = none) (hbest : s.arbBest (s.mayRun d c l) = some (id, st)) :
    s.startRun d c l = s.runStarted d c l id := by
  unfold State.mayRun at hbest
  unfold State.startRun
  dsimp only
  rw [hidle, hbest]
  rfl

theorem runStart_says : RunStartSays := by
  intro s d c l id st hd hc hd3 hc16 hl hsorted hidle hon hrun hfirst
  have hlisted {e : Nat × Strand} (he : e ∈ s.onLane d c l) : s.strand e.1 = some e.2 :=
    (tget_of_mem hsorted (List.mem_filter.mp he).1).1
  have hready {e : Nat × Strand} (he : e ∈ s.onLane d c l) (hr : s.canRun e.2 = true) : e ∈ s.mayRun d c l :=
    List.mem_filter.mpr ⟨he, hr⟩
  have hbest : s.arbBest (s.mayRun d c l) = some (id, st) := by
    refine arbBest_of_least (hready hon hrun) fun x hx hne => ?_
    obtain ⟨hxl, hxr⟩ := List.mem_filter.mp hx
    refine hfirst x hxl hxr fun hid => hne ?_
    have hst := hlisted hxl
    rw [hid, hlisted hon] at hst
    exact Prod.ext hid (Option.some.inj hst).symm
  have hstrand (j : Nat) : (s.runStarted d c l id).strand j =
      (s.strand j).map fun u => (runCounted (s.mayRun d c l) id (j, u)).2 := tget_map_keyed _ _ (runCounted_key _ _) j
  refine ⟨s.runStarted d c l id, ?_, rfl, rfl, ?_, ?_, fun j u hj hne hr => ?_, fun j u hu hoff => ?_⟩
  · change Host.Outcome.next (if 3 ≤ d ∨ 16 ≤ c ∨ 192 ≤ l then s else s.startRun d c l) = _
    rw [if_neg (by omega), startRun_eq hidle hbest]
  · change (tget (State.core (s.modCore d c _) d c).lanes l).map (·.running) = _
    rw [State.core_modCore, if_pos ⟨rfl, hd, rfl, hc⟩]
    dsimp only
    rw [tget_tput_same]
    rfl
  · rw [hstrand, hlisted hon]
    exact congrArg (fun e : Nat × Strand => some e.2) (if_pos rfl)
  · have hany : (u.run == .ready && (s.mayRun d c l).any fun r => r.1 == j) = true := by
      unfold State.canRun at hr
      simp only [Bool.and_eq_true] at hr
      rw [hr.1.1.1, Bool.true_and, List.any_eq_true]
      exact ⟨(j, u), List.mem_filter.mpr ⟨hj, by unfold State.canRun; simp only [Bool.and_eq_true]; exact hr⟩, beq_self_eq_true j⟩
    rw [hstrand, hlisted hj]
    exact congrArg (fun e : Nat × Strand => some e.2) ((if_neg hne).trans (if_pos hany))
  · have hnone : ((s.mayRun d c l).any fun r => r.1 == j) = false := by
      refine List.any_eq_false.mpr fun r hr hrj => hoff ?_
      have hrl := (List.mem_filter.mp hr).1
      have hrs := hlisted hrl
      rw [beq_iff_eq.mp hrj, hu] at hrs
      rwa [Option.some.inj hrs, ← beq_iff_eq.mp hrj]
    have hid : j ≠ id := by
      rintro rfl
      rw [hlisted hon] at hu
      exact hoff (Option.some.inj hu ▸ hon)
    rw [hstrand, hu]
    refine congrArg (fun e : Nat × Strand => some e.2) ((if_neg hid).trans (if_neg ?_))
    rw [hnone, Bool.and_false]
    exact Bool.false_ne_true

/-! The instruction of a held request goes on: it traps, is held again or completes. -/

/-- What an instruction does after the checks of issue. -/
def State.issued (s : State) (i : Instr) (sp : OpSpec) (f : LFields) (pre : Strand → Mask → Option Nat)
    (k : Issued → Result) : Result :=
  match issue i sp f pre s with
  | .out o => o
  | .go x => k x

/-- Where the checks of issue end the turn, they do so with a next state. -/
def Issue.goesOn : Issue → Bool
  | .out o => Machine.goesOn o
  | .go _ => true

theorem goesOn_iff {r : Result} : goesOn r = true ↔ ∃ t, r = .next t := by
  cases r with
  | next t => exact ⟨fun _ => ⟨t, rfl⟩, fun _ => rfl⟩
  | fault f => exact ⟨fun h => (Bool.false_ne_true h).elim, fun ⟨_, h⟩ => by cases h⟩
  | refused f => exact ⟨fun h => (Bool.false_ne_true h).elim, fun ⟨_, h⟩ => by cases h⟩

theorem goesOn_ite {c : Prop} {_ : Decidable c} {a b : Result} (ha : goesOn a = true) (hb : goesOn b = true) :
    goesOn (if c then a else b) = true := by
  split
  · exact ha
  · exact hb

theorem mclrGo_goesOn (i : Instr) (f : LFields) (x : Issued) (s : State) (t : Nat) :
    goesOn (execMclr.mclrGo i f x s t) = true := by
  unfold execMclr.mclrGo
  exact goesOn_ite rfl rfl

section
variable {s : State} {id : Nat} {st : Strand} (hcur : s.cur = some id) (hst : s.strand id = some st)
include hcur hst

theorem issue_goesOn (i : Instr) (sp : OpSpec) (f : LFields) (pre : Strand → Mask → Option Nat) :
    (issue i sp f pre s).goesOn = true := by
  unfold issue
  rw [hcur]
  dsimp only
  rw [hst]
  dsimp only
  repeat' split
  all_goals rfl

/-- With its strand there, an instruction goes on where it does so after the checks of issue. -/
theorem issued_goesOn {i : Instr} {sp : OpSpec} {f : LFields} {pre : Strand → Mask → Option Nat} {k : Issued → Result}
    (hk : ∀ x, goesOn (k x) = true) : goesOn (s.issued i sp f pre k) = true := by
  have h := issue_goesOn hcur hst i sp f pre
  unfold State.issued
  split
  · next o ho => rwa [ho] at h
  · exact hk _

theorem execLaunch_goesOn (f : LFields) : goesOn (execLaunch f s) = true := issued_goesOn hcur hst fun x => by
  refine goesOn_ite rfl (goesOn_ite rfl (goesOn_ite rfl (goesOn_ite rfl ?_)))
  dsimp only
  split <;> rfl

theorem execJoin_goesOn (f : LFields) : goesOn (execJoin f s) = true := issued_goesOn hcur hst fun x => by
  refine goesOn_ite rfl ?_
  split
  split <;> rfl

theorem execLeave_goesOn (f : LFields) : goesOn (execLeave f s) = true := issued_goesOn hcur hst fun x => by
  dsimp only
  split <;> rfl

theorem execEmit_goesOn (f : LFields) : goesOn (execEmit f s) = true := issued_goesOn hcur hst fun _ =>
  goesOn_ite rfl (goesOn_ite rfl rfl)

theorem execTake_goesOn (f : LFields) : goesOn (execTake f s) = true := issued_goesOn hcur hst fun x => by
  refine goesOn_ite rfl ?_
  dsimp only
  split
  · rfl
  · exact goesOn_ite rfl rfl

theorem execQclose_goesOn (f : LFields) : goesOn (execQclose f s) = true := issued_goesOn hcur hst fun _ =>
  goesOn_ite rfl rfl

theorem execRedx_goesOn (f : LFields) : goesOn (execRedx f s) = true := issued_goesOn hcur hst fun _ =>
  goesOn_ite rfl (goesOn_ite rfl rfl)

theorem execDispq_goesOn (f : LFields) : goesOn (execDispq f s) = true := issued_goesOn hcur hst fun _ =>
  goesOn_ite rfl (goesOn_ite rfl (goesOn_ite rfl (goesOn_ite rfl (goesOn_ite rfl rfl))))

theorem execDispqQuery_goesOn (f : LFields) : goesOn (execDispqQuery f s) = true := issued_goesOn hcur hst fun _ =>
  goesOn_ite rfl (goesOn_ite rfl (goesOn_ite rfl rfl))

theorem execBalloonGive_goesOn (f : LFields) : goesOn (execBalloonGive f s) = true := issued_goesOn hcur hst fun x => by
  refine goesOn_ite rfl (goesOn_ite rfl (goesOn_ite rfl ?_))
  dsimp only
  split
  · rfl
  · rfl
  · exact goesOn_ite rfl rfl

theorem execBalloonQuery_goesOn (f : LFields) : goesOn (execBalloonQuery f s) = true := issued_goesOn hcur hst fun _ => rfl

theorem execMemfsp_goesOn (f : LFields) : goesOn (execMemfsp f s) = true := issued_goesOn hcur hst fun _ =>
  goesOn_ite rfl (goesOn_ite rfl (goesOn_ite rfl rfl))

theorem execDieset_goesOn (f : LFields) : goesOn (execDieset f s) = true := issued_goesOn hcur hst fun _ =>
  goesOn_ite rfl (goesOn_ite rfl (goesOn_ite rfl rfl))

theorem execSeedld_goesOn (f : LFields) : goesOn (execSeedld f s) = true := issued_goesOn hcur hst fun x => by
  refine goesOn_ite rfl (goesOn_ite rfl (goesOn_ite rfl (goesOn_ite rfl (goesOn_ite rfl ?_))))
  split
  · rfl
  · rfl
  · rfl
  · rfl
  · exact goesOn_ite rfl (goesOn_ite (goesOn_ite rfl rfl) (goesOn_ite rfl rfl))

theorem execDarn_goesOn (f : LFields) : goesOn (execDarn f s) = true := issued_goesOn hcur hst fun x => by
  refine goesOn_ite rfl (goesOn_ite rfl (goesOn_ite rfl (goesOn_ite rfl ?_)))
  split
  · rfl
  · rfl
  · rfl
  · rfl
  · exact goesOn_ite rfl (goesOn_ite rfl (goesOn_ite rfl rfl))

theorem execMclr_goesOn (f : LFields) : goesOn (execMclr f s) = true := issued_goesOn hcur hst fun x => by
  refine goesOn_ite rfl ?_
  dsimp only
  split
  · exact goesOn_ite rfl (mclrGo_goesOn _ _ _ _ _)
  · exact mclrGo_goesOn _ _ _ _ _

theorem execRingpAfter_goesOn (f : LFields) : goesOn (execRingpAfter f s) = true := issued_goesOn hcur hst fun _ =>
  goesOn_ite rfl (goesOn_ite rfl (goesOn_ite rfl rfl))

theorem execBar_goesOn (f : LFields) : goesOn (execBar f s) = true := issued_goesOn hcur hst fun x => by
  dsimp only
  split
  · rfl
  · exact goesOn_ite rfl (goesOn_ite rfl (goesOn_ite rfl rfl))

theorem execBara_goesOn (f : LFields) : goesOn (execBara f s) = true := issued_goesOn hcur hst fun x => by
  dsimp only
  split
  · rfl
  · exact goesOn_ite rfl (goesOn_ite rfl rfl)

theorem execShrink_goesOn (f : LFields) : goesOn (execShrink f s) = true := issued_goesOn hcur hst fun _ =>
  goesOn_ite rfl (goesOn_ite rfl rfl)

theorem request_goesOn (r : Request) : goesOn (r.exec s) = true := by
  cases r with
  | launch => exact execLaunch_goesOn hcur hst _
  | join => exact execJoin_goesOn hcur hst _
  | leave => exact execLeave_goesOn hcur hst _
  | emit => exact execEmit_goesOn hcur hst _
  | take => exact execTake_goesOn hcur hst _
  | qclose => exact execQclose_goesOn hcur hst _
  | redx => exact execRedx_goesOn hcur hst _
  | dispq => exact execDispq_goesOn hcur hst _
  | dispqQuery => exact execDispqQuery_goesOn hcur hst _
  | balloonGive => exact execBalloonGive_goesOn hcur hst _
  | balloonQuery => exact execBalloonQuery_goesOn hcur hst _
  | memfsp => exact execMemfsp_goesOn hcur hst _
  | dieset => exact execDieset_goesOn hcur hst _
  | seedld => exact execSeedld_goesOn hcur hst _
  | darn => exact execDarn_goesOn hcur hst _
  | mclr => exact execMclr_goesOn hcur hst _
  | ringpAfter => exact execRingpAfter_goesOn hcur hst _
  | bar => exact execBar_goesOn hcur hst _
  | bara => exact execBara_goesOn hcur hst _
  | shrink => exact execShrink_goesOn hcur hst _
end

theorem request_says : RequestSays := by
  intro s id st r hst hhold hissue
  obtain ⟨t, ht⟩ := goesOn_iff.mp (request_goesOn (s := { s with cur := some id }) rfl hst r)
  refine ⟨t, ht, ?_⟩
  change execRequestAnswer id s = _
  unfold execRequestAnswer
  rw [hst]
  dsimp only
  rw [hhold]
  dsimp only
  rw [if_pos hissue]
  unfold State.asStrand
  rw [ht]

/-- Settles O47: the keys of R314 are the digits of one number, an idle lane takes the strand whose number is least, and the
instruction of every request goes on. -/
theorem arbitration : Obligations.Arbitration := ⟨arb_says, runStart_says, request_says⟩

end Sys2Proof.Machine
end

section
/-! Register writes of the windows (O51). -/

open Sys2Proof
namespace Sys2Proof.Machine

/-! CTX_CFG and EMB (R254, R265). -/

theorem cfg_says : CfgSays := by
  intro s n v hn
  have hx : exec (.ctxCfgWrite n v) s = .next (if v &&& 0x73#32 = (s.ctx n).cfg ∨ (s.ctx n).state = 1 ∨
      ((s.ctx n).state = 3 ∧ (v &&& 0x73#32).getLsbD 6 = (s.ctx n).cfg.getLsbD 6) then
      s.modCtx n fun x => { x with cfg := v &&& 0x73#32 } else s.ctxErr n 1) :=
    congrArg _ (if_neg (by omega))
  refine ⟨fun h => hx.trans (congrArg _ (if_pos (.inr h))), fun hsame h1 h3 => hx.trans (congrArg _ (if_neg ?_))⟩
  rintro (h | h | ⟨h, hpriv⟩)
  · exact hsame h
  · exact h1 h
  · exact h3.elim (· h) (· hpriv)

theorem emb_says : EmbSays := by
  intro s d c v
  have hok : (v.toNat % 2 ^ 25 == 0 && (v.toNat == 0 || (homeDie v.toNat == d && decide (v.toNat % 2 ^ 44 + 2 ^ 25 ≤ s.advertised))) &&
      !s.ctxs.any fun e => e.2.spill) = true ↔ v.toNat % 2 ^ 25 = 0 ∧
      (v = 0 ∨ homeDie v.toNat = d ∧ v.toNat % 2 ^ 44 + 2 ^ 25 ≤ s.advertised) ∧ ∀ e, e ∈ s.ctxs → e.2.spill = false := by
    have hzero : v.toNat = 0 ↔ v = 0 := BitVec.toNat_inj (y := 0#64)
    simp only [Bool.and_eq_true, Bool.or_eq_true, beq_iff_eq, decide_eq_true_iff, Bool.not_eq_true', List.any_eq_false,
      Bool.not_eq_true, and_assoc, hzero]
  exact ⟨fun h => congrArg _ (if_pos (hok.mpr h)), fun h => congrArg _ (if_neg (mt hok.mp h))⟩

/-! Where an address lies (R250). -/

theorem slotAt_some {off base step n i r : Nat} (h : off = base + step * i + r) (hr : r < step) (hi : i < n) :
    slotAt off base step n = some (i, r) := by
  have hle : step * (i + 1) ≤ step * n := Nat.mul_le_mul_left step hi
  rw [Nat.mul_add, Nat.mul_one] at hle
  have hpos : 0 < step := by omega
  have hsub : off - base = r + step * i := by omega
  unfold slotAt
  rw [if_pos (by omega), hsub, Nat.add_mul_div_left r i hpos, Nat.add_mul_mod_self_left, Nat.mod_eq_of_lt hr,
    Nat.div_eq_of_lt hr, Nat.zero_add]

theorem slotAt_none {off base step n : Nat} (h : off < base ∨ base + step * n ≤ off) : slotAt off base step n = none :=
  if_neg (by omega)

theorem getHalf_low (v : DWord) : getHalf v false = v.truncate 32 :=
  BitVec.eq_of_toNat_eq (congrArg (· % 2 ^ 32) Nat.shiftRight_zero)

theorem exec_registerWrite (a n : Nat) (v : DWord) (s : State) :
    exec (.registerWrite a n v) s = .next (s.writeWindow (some 0) a n v) := rfl

/-- Writes of a wrong size, misaligned ones and those below the windows change nothing. -/
theorem writeWindow_outside {s : State} {core : Option Nat} {a n : Nat} {v : DWord}
    (h : (n ≠ 4 ∧ n ≠ 8) ∨ a % n ≠ 0 ∨ a < 0x3F0000000000) : s.writeWindow core a n v = s := by
  unfold State.writeWindow
  split
  · rfl
  · next hno =>
    have ha : a < 0x3F0000000000 := (h.resolve_left fun h4 => hno (.inl h4)).resolve_left fun hm => hno (.inr hm)
    have hd : dieWindowOf a = none := slotAt_none (.inl ha)
    have hc : ctxWindowOf a = none := slotAt_none (.inl (by omega))
    rw [hd, hc]

section
variable {s : State} {n off : Nat} {v : DWord} (hn : n < 4096) (ho : off < 0x1000)
include hn ho

theorem windows_ctx : dieWindowOf (ctxWindow n + off) = none ∧ ctxWindowOf (ctxWindow n + off) = some (n, off) :=
  ⟨slotAt_none (.inr (by unfold ctxWindow; omega)), slotAt_some rfl ho hn⟩

/-- A 4-byte write of a context window. -/
theorem writeWindow_ctx4 (ha : off % 4 = 0) :
    s.writeWindow (some 0) (ctxWindow n + off) 4 v = s.setCtx32 n off (v.truncate 32) := by
  obtain ⟨hd, hc⟩ := windows_ctx hn ho
  unfold State.writeWindow
  rw [if_neg (by unfold ctxWindow; omega), hd, hc, ← getHalf_low]
  rfl

/-- An 8-byte write of a 64-bit register of a context window. -/
theorem writeWindow_ctx8 (ha : off % 8 = 0) (hinv : off ≠ 0x068) (hslot : slotAt off 0x100 8 8 = none)
    (hreg : (s.ctxReg64 n off).isSome = true) :
    s.writeWindow (some 0) (ctxWindow n + off) 8 v = s.setCtx64 n off v := by
  obtain ⟨hd, hc⟩ := windows_ctx hn ho
  unfold State.writeWindow
  rw [if_neg (by unfold ctxWindow; omega), hd, hc]
  dsimp only
  rw [if_neg (by decide), if_neg hinv, hslot]
  exact if_pos hreg
end

theorem writeWindow_launchSlot {s : State} {n i : Nat} {v : DWord} (hn : n < 4096) (hi : i < 8) :
    s.writeWindow (some 0) (ctxWindow n + 0x100 + 8 * i) 8 v = s.launchSlot n 0 i v := by
  rw [Nat.add_assoc]
  obtain ⟨hd, hc⟩ := windows_ctx (off := 0x100 + 8 * i) hn (by omega)
  unfold State.writeWindow
  rw [if_neg (by unfold ctxWindow; omega), hd, hc]
  dsimp only
  rw [if_neg (by decide), if_neg (by omega), slotAt_some (i := i) (r := 0) (Nat.add_zero _).symm (by decide) hi]

section
variable {s : State} {d off : Nat} {v : DWord} (hd : d < 3) (ho : off < 0x1000000)
include hd ho

theorem window_die : dieWindowOf (dieWindow d + off) = some (d, off) := slotAt_some rfl ho hd

/-- A 4-byte write of a die window. -/
theorem writeWindow_die4 (ha : off % 4 = 0) :
    s.writeWindow (some 0) (dieWindow d + off) 4 v = s.setDie32 d off (v.truncate 32) := by
  unfold State.writeWindow
  rw [if_neg (by unfold dieWindow; omega), window_die hd ho, ← getHalf_low]
  rfl

/-- An 8-byte write of a 64-bit register of a die window. -/
theorem writeWindow_die8 (ha : off % 8 = 0) (hslot : slotAt off 0x800000 64 256 = none)
    (hreg : (s.dieReg64 d off).isSome = true) : s.writeWindow (some 0) (dieWindow d + off) 8 v = s.setDie64 d off v := by
  unfold State.writeWindow
  rw [if_neg (by unfold dieWindow; omega), window_die hd ho]
  dsimp only
  rw [if_neg (by decide), hslot]
  exact if_pos hreg
end

theorem writeWindow_queueSlot {s : State} {q i : Nat} {v : DWord} (hq : q < 256) (hi : i < 8) :
    s.writeWindow (some 0) (dieWindow 0 + 0x800000 + 64 * q + 8 * i) 8 v = s.appendSlot q 0 i v := by
  rw [Nat.add_assoc, Nat.add_assoc]
  unfold State.writeWindow
  rw [if_neg (by unfold dieWindow; omega), window_die (off := 0x800000 + (64 * q + 8 * i)) (by decide) (by omega)]
  dsimp only
  rw [if_neg (by decide), slotAt_some (i := q) (r := 8 * i) (by omega) (by omega) hq]
  dsimp only
  rw [if_pos rfl, Nat.mul_div_cancel_left i (by decide)]

/-- Application core 0 lies on D0, which is in every die set. -/
theorem appUp_zero (s : State) : s.appUp 0 = true := decide_eq_true (Nat.zero_le _)

/-! The registers of a context window (R251 to R254, R303). -/

section
variable {s : State} {n : Nat} (v : DWord) (hn : n < 4096)
include hn

/-- A write of CTX_CMD. -/
theorem write_ctxCmd : exec (.registerWrite (ctxWindow n + 8) 4 v) s = .next (s.ctxCmd n (v.truncate 32).toNat) :=
  congrArg _ (writeWindow_ctx4 hn (by decide) rfl)

/-- A write of a 64-bit register of the context window. -/
theorem write_ctx64 (off : Nat) (h : off ∈ [0x18, 0x20, 0x28, 0x30, 0x38, 0x60]) :
    exec (.registerWrite (ctxWindow n + off) 8 v) s = .next (s.setCtx64 n off v) := by
  simp only [List.mem_cons, List.not_mem_nil, or_false] at h
  obtain rfl | rfl | rfl | rfl | rfl | rfl := h
  all_goals exact congrArg _ (writeWindow_ctx8 hn (by decide) rfl (by decide) rfl rfl)

end

theorem ctxCmd_none {s : State} {n k : Nat} (hn : n < 4096) (hk : k = 0 ∨ 6 < k) : s.ctxCmd n k = s.ctxErr n 2 := by
  unfold State.ctxCmd
  split
  case h_7 => exact if_pos hn
  all_goals omega

/-! The registers of a die window (R265, R416, R429, R464, R472, R486). -/

section
variable {s : State} {d : Nat}

/-- EMBBASE of core c is a 64-bit register. -/
theorem dieReg64_emb {c : Nat} (hc : c < 16) : (s.dieReg64 d (0x100 + 8 * c)).isSome = true := by
  unfold State.dieReg64
  rw [slotAt_some (base := 0x100) (step := 8) (i := c) (r := 0) (Nat.add_zero _).symm (by decide) hc]
  rfl

theorem setDie64_emb {c : Nat} {v : DWord} (hc : c < 16) : s.setDie64 d (0x100 + 8 * c) v = s.writeEmb d c v := by
  unfold State.setDie64
  rw [slotAt_some (base := 0x100) (step := 8) (i := c) (r := 0) (Nat.add_zero _).symm (by decide) hc]

/-- A link port's set holds no 64-bit register. -/
theorem dieReg64_link {p r : Nat} (hp : p < 2) (hr : r < 32) : s.dieReg64 d (0x600 + 32 * p + r) = none := by
  unfold State.dieReg64
  rw [slotAt_none (by omega), slotAt_none (by omega), slotAt_none (by omega)]
  dsimp only
  rw [if_neg (by omega), if_neg (by omega), if_neg (by omega), if_neg (by omega)]

/-- The word of a region's set that holds REGION_LEN and REGION_CMD is no 64-bit register. -/
theorem dieReg64_region {r : Nat} (hr : r < 16) : s.dieReg64 d (0x300 + 32 * r + 8) = none := by
  unfold State.dieReg64
  rw [slotAt_none (by omega), slotAt_some (base := 0x300) (i := r) (r := 8) rfl (by decide) hr, slotAt_none (by omega)]
  dsimp only
  rw [if_neg (by omega), if_neg (by omega), if_neg (by omega), if_neg (by omega)]
  rfl

theorem setDie32_retrain {p : Nat} (hp : p < 2) :
    s.setDie32 d (0x600 + 32 * p + 4) 1 = s.retrainLink (portLink d p) := by
  have hoff : (0x600 + 32 * p + 4) / 8 * 8 = 0x600 + 32 * p + 0 := by omega
  unfold State.setDie32
  rw [hoff, dieReg64_link hp (by decide), slotAt_none (by omega), slotAt_some rfl (by decide) hp]
  exact if_pos ⟨rfl, rfl⟩

theorem setDie32_region {r : Nat} {w : Word} (hr : r < 16) :
    s.setDie32 d (0x300 + 32 * r + 0xC) w = s.setRegion32 d r 0xC w := by
  have hoff : (0x300 + 32 * r + 0xC) / 8 * 8 = 0x300 + 32 * r + 8 := by omega
  unfold State.setDie32
  rw [hoff, dieReg64_region hr, slotAt_some rfl (by decide) hr]
end

theorem window_says : WindowSays := by
  refine ⟨fun _ _ _ _ h => congrArg _ (writeWindow_outside h), fun s n v hn => ?ctx,
    fun s _ _ _ hq hi => congrArg _ ((writeWindow_queueSlot hq hi).trans (if_pos (appUp_zero s)).symm), fun s d v hd => ?die⟩
  case ctx =>
    dsimp only
    have h4 (off : Nat) (ho : off < 0x1000) (ha : off % 4 = 0) :
        exec (.registerWrite (ctxWindow n + off) 4 v) s = .next (s.setCtx32 n off (v.truncate 32)) :=
      congrArg _ (writeWindow_ctx4 hn ho ha)
    have h8 := write_ctx64 (s := s) v hn
    refine ⟨write_ctxCmd 1 hn, write_ctxCmd 2 hn, write_ctxCmd 3 hn, write_ctxCmd 4 hn, write_ctxCmd 5 hn,
        write_ctxCmd 6 hn, fun hw => ?_, h4 _ (by decide) rfl, fun hk => ⟨?_, ?_, ?_, ?_, ?_, ?_⟩,
        fun h1 h3 => ⟨?_, ?_, ?_⟩, fun hk => ?_,
      h4 _ (by decide) rfl, h4 _ (by decide) rfl, fun i hi => ?_⟩
    · rw [write_ctxCmd v hn, ctxCmd_none hn (hw.imp_left fun h => by rw [h]; rfl)]
      rfl
    · exact (h8 _ (by decide)).trans (congrArg _ (if_pos (by omega)))
    · exact (h8 _ (by decide)).trans (congrArg _ (if_pos (by omega)))
    · exact (h8 _ (by decide)).trans (congrArg _ (if_pos (by omega)))
    · exact (h8 _ (by decide)).trans (congrArg _ (if_pos (by omega)))
    · exact (h4 _ (by decide) rfl).trans (congrArg _ (if_pos hk))
    · exact (h8 _ (by decide)).trans (congrArg _ (if_pos (by omega)))
    · exact (h8 _ (by decide)).trans (congrArg _ (if_neg (by omega)))
    · exact (h4 _ (by decide) rfl).trans (congrArg _ (if_neg (by omega)))
    · exact (h8 _ (by decide)).trans (congrArg _ (if_neg (by omega)))
    · exact (h8 _ (by decide)).trans (congrArg _ (if_pos (by omega)))
    · exact congrArg _ ((writeWindow_launchSlot hn hi).trans (if_pos (appUp_zero s)).symm)
  case die =>
    dsimp only
    have h4 (v : DWord) (off : Nat) (ho : off < 0x1000000) (ha : off % 4 = 0) :
        exec (.registerWrite (dieWindow d + off) 4 v) s = .next (s.setDie32 d off (v.truncate 32)) :=
      congrArg _ (writeWindow_die4 hd ho ha)
    refine ⟨h4 v _ (by decide) rfl, ?_, h4 v _ (by decide) rfl, ?_, fun c hc => ?_, h4 1 _ (by decide) rfl, h4 2 _ (by decide) rfl,
      fun p hp => ?_, fun r hr => ?_⟩
    · exact congrArg _ (writeWindow_die8 hd (by decide) rfl rfl rfl)
    · exact (h4 v _ (by decide) rfl).trans (congrArg _ (if_neg (by omega)).symm)
    · have hslot : slotAt (0x100 + 8 * c) 0x800000 64 256 = none := slotAt_none (by omega)
      rw [Nat.add_assoc, exec_registerWrite, writeWindow_die8 hd (by omega) (by omega) hslot (dieReg64_emb hc), setDie64_emb hc]
      rfl
    · rw [Nat.add_assoc, Nat.add_assoc, h4 1 _ (by omega) (by omega), ← Nat.add_assoc]
      exact (congrArg _ (setDie32_retrain hp)).trans (congrArg _ (if_neg (by omega)).symm)
    · rw [Nat.add_assoc, Nat.add_assoc, h4 1 _ (by omega) (by omega), h4 2 _ (by omega) (by omega), ← Nat.add_assoc]
      exact ⟨(congrArg _ (setDie32_region hr)).trans (congrArg _ (if_neg (by omega)).symm),
        (congrArg _ (setDie32_region hr)).trans (congrArg _ (if_neg (by omega)).symm)⟩

/-- Settles O51: a write is split by its size, alignment and window; a register array is found by its element and offset. -/
theorem controlWindows : Obligations.ControlWindows := ⟨window_says, cfg_says, emb_says⟩

end Sys2Proof.Machine
end

section
/-! Pre-emption, saves and restores (O49). -/

open Sys2Proof
namespace Sys2Proof.Machine

/-! The victim (R257). -/

/-- The residents that a context may displace: those above its PRIO. -/
def State.above (s : State) (d c forCtx : Nat) : List Nat := (s.residents d c).filter fun n => decide (s.prio forCtx < s.prio n)

/-- The highest PRIO of a list of contexts. -/
def State.topPrio (s : State) (l : List Nat) : Nat := l.foldl (fun m n => max m (s.prio n)) 0

/-- Those of the highest PRIO. -/
def State.highest (s : State) (d c forCtx : Nat) : List Nat :=
  (s.above d c forCtx).filter fun n => s.prio n == s.topPrio (s.above d c forCtx)

theorem prio_le_topPrio {s : State} {l : List Nat} {n : Nat} (h : n ∈ l) : s.prio n ≤ s.topPrio l := by
  have hfold (l : List Nat) (m : Nat) : m ≤ l.foldl (fun m n => max m (s.prio n)) m ∧
      ∀ n, n ∈ l → s.prio n ≤ l.foldl (fun m n => max m (s.prio n)) m := by
    induction l generalizing m with
    | nil => exact ⟨Nat.le_refl m, by simp⟩
    | cons a r ih =>
      obtain ⟨hm, hr⟩ := ih (max m (s.prio a))
      refine ⟨le_trans (le_max_left ..) hm, fun n hn => ?_⟩
      obtain rfl | hn := List.mem_cons.mp hn
      · exact le_trans (le_max_right ..) hm
      · exact hr n hn
  exact (hfold l 0).2 n h

theorem mem_above {s : State} {d c f n : Nat} : n ∈ s.above d c f ↔ n ∈ s.residents d c ∧ s.prio f < s.prio n := by
  rw [State.above, List.mem_filter, decide_eq_true_iff]

theorem mem_highest {s : State} {d c f n : Nat} :
    n ∈ s.highest d c f ↔ n ∈ s.above d c f ∧ s.prio n = s.topPrio (s.above d c f) := by
  rw [State.highest, List.mem_filter, beq_iff_eq]

theorem victim_eq (s : State) (d c f : Nat) : s.victim d c f =
    ((s.core d c).residentOrder.find? fun n => (s.highest d c f).contains n).or (s.highest d c f).head? := by
  unfold State.victim
  dsimp only
  split <;> next h => exact (congrArg (Option.or · _) h).symm

theorem victim_mem {s : State} {d c f n : Nat} (h : s.victim d c f = some n) : n ∈ s.highest d c f := by
  rw [victim_eq, Option.or_eq_some_iff] at h
  obtain h | ⟨-, h⟩ := h
  · exact List.contains_iff_mem.mp (List.find?_some h)
  · exact List.mem_of_head? h

/-- A resident of the victim's PRIO is one of the highest too. -/
theorem mem_highest_of_prio {s : State} {d c f n m : Nat} (hn : n ∈ s.highest d c f) (hm : m ∈ s.residents d c)
    (hp : s.prio m = s.prio n) : m ∈ s.highest d c f := by
  obtain ⟨ha, htop⟩ := mem_highest.mp hn
  exact mem_highest.mpr ⟨mem_above.mpr ⟨hm, hp ▸ (mem_above.mp ha).2⟩, hp.trans htop⟩

theorem victim_says : VictimSays := by
  intro s d c f n h
  have hmem := victim_mem h
  obtain ⟨habove, htop⟩ := mem_highest.mp hmem
  obtain ⟨hres, hlt⟩ := mem_above.mp habove
  rw [victim_eq, Option.or_eq_some_iff] at h
  refine ⟨hres, hlt, fun m hm => ?_, fun hout m hm hp hmo => ?_, fun l1 l2 horder hfirst m hm hmr hp => ?_⟩
  · by_cases hf : s.prio f < s.prio m
    · exact htop ▸ prio_le_topPrio (mem_above.mpr ⟨hm, hf⟩)
    · omega
  · obtain h | ⟨h, -⟩ := h
    · exact hout (List.mem_of_find?_eq_some h)
    · exact List.find?_eq_none.mp h m hmo (List.contains_iff_mem.mpr (mem_highest_of_prio hmem hm hp))
  · have hhigh : (s.highest d c f).contains m = true := List.contains_iff_mem.mpr (mem_highest_of_prio hmem hmr hp)
    rw [horder, List.find?_append] at h
    obtain h | ⟨h, -⟩ := h
    · obtain h | ⟨h, -⟩ := Option.or_eq_some_iff.mp h
      · exact hfirst (List.mem_of_find?_eq_some h)
      · exact List.find?_eq_none.mp h m hm hhigh
    · exact List.find?_eq_none.mp (Option.or_eq_none_iff.mp h).1 m hm hhigh

/-! Pre-emption (R257, R258, R259). -/

/-- A core whose contexts to be saved are one more list, with the context in it. -/
theorem exec_preemption {s : State} {d c f n : Nat} (hst : (s.ctx f).state = 2) (hup : s.coreUp d c = true)
    (hw : s.wants f ≠ [])
    (hshort : s.contextRoom f d c = false ∨ ∃ r, r ∈ s.wants f ∧ s.noLane d c r = true) (hemb : (s.core d c).embUse = none)
    (hv : s.victim d c f = some n) : exec (.preemption d c f) s = .next (s.stopCore n d c) := by
  have hplace : (!s.contextRoom f d c || (s.wants f).any fun r => s.noLane d c r) = true := by
    rw [Bool.or_eq_true, Bool.not_eq_true', List.any_eq_true]
    exact hshort
  have hwants : (s.wants f).isEmpty = false := List.isEmpty_eq_false_iff.mpr hw
  change execPreemption d c f s = _
  unfold execPreemption
  dsimp only
  rw [hplace, hst, hup, hwants, hemb, hv]
  rfl

/-- The records of a table that satisfy a test are changed. -/
theorem tget_map_ite {α : Type} (m : Tab α) (p : α → Bool) (g : α → α) (a : Nat) :
    tget (m.map fun e => if p e.2 then (e.1, g e.2) else e) a = (tget m a).map fun x => if p x then g x else x := by
  rw [tget_map_keyed _ _ (fun e => by split <;> rfl)]
  exact congrArg (Option.map · _) (funext fun x => (apply_ite Prod.snd ..))

theorem strand_stopCore (s : State) (n d c id : Nat) : (s.stopCore n d c).strand id = (s.strand id).map fun st =>
    if st.ctx = n ∧ st.resident = true ∧ st.d = d ∧ st.k = c then { st with stop := true } else st := by
  refine (tget_map_ite s.strands (fun st => st.ctx == n && st.resident && st.d == d && st.k == c)
    (fun st => { st with stop := true }) id).trans ?_
  simp only [Bool.and_eq_true, beq_iff_eq, and_assoc]
  rfl

/-- A core's contexts to be saved, with one more. -/
def Core.alsoSaving (x : Core) (n : Nat) : Core := { x with saving := if x.saving.contains n then x.saving else x.saving ++ [n] }

theorem mem_alsoSaving {x : Core} {n m : Nat} : m ∈ (x.alsoSaving n).saving ↔ m ∈ x.saving ∨ m = n := by
  unfold Core.alsoSaving
  split
  · next h =>
    exact ⟨.inl, fun hm => hm.elim id fun e => e ▸ List.contains_iff_mem.mp h⟩
  · exact List.mem_append.trans (or_congr_right List.mem_singleton)

theorem core_stopCore (s : State) (n d c e j : Nat) : (s.stopCore n d c).core e j =
    if e = d ∧ d < s.dies.length ∧ j = c ∧ c < (s.die d).cores.length then (s.core d c).alsoSaving n else s.core e j :=
  State.core_modCore { s with strands := _ } d c e j (Core.alsoSaving · n)

theorem preempt_says : PreemptSays := by
  intro s d c f n hst hup hw hshort hemb hv
  refine ⟨s.stopCore n d c, exec_preemption hst hup hw hshort hemb hv, rfl, fun id st h => ?_, fun e j => ?_⟩
  · rw [strand_stopCore, h, Option.map_some]
  · rw [core_stopCore, core_stopCore]
    refine ⟨?_, fun m hm => ?_, fun hd hc => ?_⟩
    · split
      · next h =>
        obtain ⟨rfl, -, rfl, -⟩ := h
        rfl
      · rfl
    · split at hm
      · next h =>
        obtain ⟨rfl, -, rfl, -⟩ := h
        exact (mem_alsoSaving.mp hm).imp_right fun e => ⟨e, rfl, rfl⟩
      · exact .inl hm
    · rw [if_pos ⟨rfl, hd, rfl, hc⟩]
      exact mem_alsoSaving.mpr (.inr rfl)

theorem packed_says : PackedSays := by
  intro st l pages
  refine ⟨rfl, rfl, rfl, rfl, rfl, rfl, rfl, rfl, rfl, rfl, rfl, rfl, rfl, rfl, rfl, rfl, rfl, rfl, rfl, rfl, rfl, rfl, rfl, rfl,
    rfl, rfl, rfl, rfl, rfl, rfl, fun h => ?_, fun h => ?_⟩
  all_goals unfold Strand.packed; cases hr : st.run <;> simp_all

/-! What stores and write-backs leave of the dies: everything but the caches and the marks of what is dirty. -/

/-- A core without its column, and a die without its slices, copies and regions. -/
def Core.still (x : Core) : Core := { x with l1 := [], tags := Core.idle.tags, filter := [], filterAny := false }
def Die.still (x : Die) : Die :=
  { x with cores := x.cores.map Core.still, copies := [], slices := [], dirty := [], lost := [], regions := [] }

def CachesOnly (s t : State) : Prop := t.dies.map Die.still = s.dies.map Die.still

theorem CachesOnly.refl (s : State) : CachesOnly s s := rfl
theorem CachesOnly.trans {s t u : State} (h : CachesOnly s t) (k : CachesOnly t u) : CachesOnly s u := Eq.trans k h
theorem CachesOnly.foldl {α : Type} (g : State → α → State) (h : ∀ s x, CachesOnly s (g s x)) (l : List α) (s : State) :
    CachesOnly s (l.foldl g s) := by
  induction l generalizing s with
  | nil => exact .refl s
  | cons a l ih => exact (h s a).trans (ih _)
theorem CachesOnly.foldr {α : Type} (g : α → State → State) (h : ∀ s x, CachesOnly s (g x s)) (l : List α) (s : State) :
    CachesOnly s (l.foldr g s) := by
  induction l with
  | nil => exact .refl s
  | cons a l ih => exact ih.trans (h _ a)

theorem cachesOnly_modDie (s : State) (d : Nat) {g : Die → Die} (hg : ∀ x, (g x).still = x.still) : CachesOnly s (s.modDie d g) :=
  map_modAt Die.still s.dies d g hg

theorem cachesOnly_modCore (s : State) (d c : Nat) {g : Core → Core} (hg : ∀ x, (g x).still = x.still) :
    CachesOnly s (s.modCore d c g) :=
  cachesOnly_modDie s d fun x => by
    unfold Die.still
    dsimp only
    rw [map_modAt Core.still x.cores c g hg]

section
variable {s t : State} (h : CachesOnly s t)
include h

theorem CachesOnly.length : t.dies.length = s.dies.length := by
  simpa using congrArg List.length h

theorem CachesOnly.die (d : Nat) : (t.die d).still = (s.die d).still := by
  have hd := congrArg (List.getD · d (Die.afterReset d).still) h
  rwa [List.getD_map, List.getD_map] at hd

theorem CachesOnly.coreCount (d : Nat) : (t.die d).cores.length = (s.die d).cores.length := by
  simpa [Die.still] using congrArg (fun x => x.cores.length) (h.die d)

theorem CachesOnly.core (d c : Nat) : (t.core d c).still = (s.core d c).still := by
  have hc := congrArg (fun x => List.getD x.cores c Core.idle.still) (h.die d)
  unfold Die.still at hc
  dsimp only at hc
  rwa [List.getD_map, List.getD_map] at hc
end

section
variable (s : State) (d : Nat)

theorem cachesOnly_homePut (pa : Nat) (b : Byte) (n : Nat) : CachesOnly s (s.homePut pa b n) :=
  cachesOnly_modDie { s with mem := _ } _ fun _ => rfl

theorem cachesOnly_sendPut (pa : Nat) (b : Byte) (n : Nat) : CachesOnly s (s.sendPut d pa b n) := by
  unfold State.sendPut
  split
  · split <;> rfl
  · exact cachesOnly_homePut ..

theorem cachesOnly_diePut (pa : Nat) (b : Byte) (n : Nat) : CachesOnly s (s.diePut d pa b n) := by
  unfold State.diePut
  split
  · exact cachesOnly_sendPut ..
  · exact cachesOnly_modDie _ _ fun _ => rfl

theorem cachesOnly_noteDirty (l : Nat) : CachesOnly s (s.noteDirty d l) :=
  cachesOnly_modDie _ _ fun x => by
    dsimp only
    split
    · rfl
    · split <;> rfl

theorem cachesOnly_found (l : List Nat) : CachesOnly s (s.found l) :=
  .foldl _ (fun s _ => cachesOnly_modDie s _ (by intro; rfl)) _ _

theorem cachesOnly_update (c e l : Nat) (v : Option Nat) : CachesOnly s (s.update d c e l v) :=
  cachesOnly_modDie { s with tagNo := _ } _ fun _ => rfl

theorem cachesOnly_tidy : CachesOnly s (s.tidy d) := cachesOnly_modDie _ _ fun _ => rfl

theorem cachesOnly_writeBackL1 (c : Nat) (p : Nat → Bool) : CachesOnly s (s.writeBackL1 d c p) :=
  (((CachesOnly.foldr _ (fun s (e : Nat × CByte) => cachesOnly_diePut s d e.1 e.2.val e.2.ctx) _ _).trans
    (.foldl _ (fun _ _ => (cachesOnly_noteDirty _ _ _).trans (cachesOnly_update _ _ _ _ _ _)) _ _)).trans
    (cachesOnly_found _ _)).trans (cachesOnly_modCore _ _ _ fun _ => rfl)

theorem cachesOnly_writeBackDie (p : Nat → Bool) : CachesOnly s (s.writeBackDie d p) := by
  unfold State.writeBackDie
  dsimp only
  refine CachesOnly.trans ?_ (cachesOnly_tidy _ _)
  refine CachesOnly.trans ?_ (cachesOnly_modDie _ _ (by intro; rfl))
  refine CachesOnly.trans ?_ (cachesOnly_found _ _)
  refine CachesOnly.trans ?_ (.foldl _ (fun _ _ => cachesOnly_noteDirty _ _ _) _ _)
  exact CachesOnly.foldr _ (fun s (e : Nat × CByte) => cachesOnly_sendPut s d e.1 e.2.val _) _ _

theorem cachesOnly_release (c scope : Nat) (w : Bool) : CachesOnly s (s.release d c scope w) := by
  unfold State.release
  split
  · dsimp only
    split
    · split
      · exact (cachesOnly_writeBackL1 ..).trans (cachesOnly_writeBackDie ..)
      · exact ((cachesOnly_writeBackL1 ..).trans (cachesOnly_writeBackDie ..)).trans (cachesOnly_modCore _ _ _ fun _ => rfl)
    · exact cachesOnly_writeBackL1 ..
  · exact .refl s

theorem cachesOnly_homePuts (pa : Nat) (bs : List Byte) (n : Nat) : CachesOnly s (s.homePuts pa bs n) := by
  have hbytes : ∀ (bs : List Byte) (s : State) (pa : Nat), CachesOnly s (s.homeBytes pa bs n) := by
    intro bs
    induction bs with
    | nil => exact fun s _ => .refl s
    | cons b r ih => exact fun s pa => (cachesOnly_homePut s pa b n).trans (ih _ _)
  exact ((hbytes bs s pa).trans (.foldl _ (fun _ _ => cachesOnly_noteDirty _ _ _) _ _)).trans (cachesOnly_found _ _)

theorem cachesOnly_devPuts (pa : Nat) (bs : List Byte) (n : Nat) : CachesOnly s (s.devPuts pa bs n) := by
  unfold State.devPuts
  dsimp only
  split
  · rfl
  · unfold State.devNow
    split
    · exact cachesOnly_homePuts ..
    · exact .refl s

theorem cachesOnly_payOwed (n : Nat) : CachesOnly s (s.payOwed n) := by
  unfold State.payOwed
  dsimp only
  split
  · exact .refl s
  · exact cachesOnly_devPuts ..
end

/-! Discarding a strand (R256, R290). -/

theorem strand_itemGone (s : State) (ctx kid iid j : Nat) : (s.itemGone ctx kid iid).strand j = s.strand j := by
  unfold State.itemGone
  split
  · rfl
  · dsimp only
    split
    · rfl
    · unfold State.strand
      rw [strands_endKernel, State.modKernel_strands, strands_endOps]
      rfl

/-- The state without the strand: its groups, channels, lane and queued matrix operations have let go of it. -/
def State.unlisted (s : State) (id : Nat) (st : Strand) : State :=
  let s := (s.leaveGroups id).modChans st fun c => (c.unbind id).unsend id
  let s := if st.loc.isSome then s.leaveLane id st else s
  let s := (s.dies.flatMap fun d => d.cores.flatMap fun c => c.seq.filter fun o => o.strand == id).foldl (fun s o => s.letGo o) s
  let s := s.allCoresMod fun x => { x with
    seq := x.seq.filter fun o => o.strand != id, shutq := x.shutq.filter fun q => q.1 != id }
  { s with strands := tdel s.strands id }

theorem discard_eq {s : State} {id : Nat} {st : Strand} (h : s.strand id = some st) : s.discard id =
    if (s.unlisted id st).strands.any fun e => e.2.ctx == st.ctx && e.2.kid == st.kid && e.2.iid == st.iid
    then s.unlisted id st else (s.unlisted id st).itemGone st.ctx st.kid st.iid := by
  unfold State.discard
  rw [h]
  rfl

theorem strand_unlisted {s : State} {id : Nat} {st : Strand} (h : s.strand id = some st) (j : Nat) :
    (s.unlisted id st).strand j = if j = id then none else s.strand j := by
  have hlet (l : List MatOp) (s : State) : (l.foldl (fun s o => s.letGo o) s).strand j = s.strand j :=
    congrArg (tget · j) (foldl_strands l _ (by intros; rfl) s)
  have hother : j ≠ id → (s.leaveGroups id).strand j = s.strand j := (leaveGroups_strand s id st h).2.1 j
  refine (tget_tdel _ id j).trans ?_
  split
  · rfl
  · next hj =>
    refine (hlet _ _).trans ?_
    rw [← hother hj, ← strand_modChans (s.leaveGroups id) st j fun c => (c.unbind id).unsend id]
    split <;> rfl

theorem strand_discard {s : State} {id : Nat} {st : Strand} (h : s.strand id = some st) (j : Nat) :
    (s.discard id).strand j = if j = id then none else s.strand j := by
  rw [discard_eq h, ← strand_unlisted h]
  split
  · rfl
  · exact strand_itemGone ..

theorem strand_payOwed (s : State) (n j : Nat) : (s.payOwed n).strand j = s.strand j :=
  congrArg (tget · j) (strands_payOwed s n)

/-! The pages of a record do not depend on the caches. -/

theorem recPages_congr {s t : State} (hst : t.strands = s.strands) (hctx : t.ctxs = s.ctxs) (h : CachesOnly s t) (id : Nat)
    (st : Strand) (l : Loc) : t.recPages id st l = s.recPages id st l := by
  have htiles (d c : Nat) : (t.core d c).tiles = (s.core d c).tiles := by
    have h2 := congrArg Core.tiles (h.core d c)
    exact h2
  have hseq (d c : Nat) : (t.core d c).seq = (s.core d c).seq := by
    have h2 := congrArg Core.seq (h.core d c)
    exact h2
  have hon (d c : Nat) : t.onCore d c = s.onCore d c := congrArg (List.filter _) hst
  have hk := kernel_congr hctx
  have hsave (n : Nat) : t.ctx n = s.ctx n := by unfold State.ctx; rw [hctx]
  unfold State.recPages State.scrPlace State.scrSize State.matrixPages State.matrixOn State.kernelOf State.recBase
  simp only [htiles, hseq, hon, hk, hsave]

/-! What a save does (R258, R259, R262). -/

/-- A strand is in its record: its lane and its core's shuttle queue have let go of it. -/
def State.offLane (s : State) (id : Nat) (st : Strand) (l : Loc) (pages : List Nat) : State :=
  ((s.leaveLane id st).putStrand id (st.packed l pages)).modCore l.die l.core fun x =>
    { x with shutq := x.shutq.filter fun q => q.1 != id }

/-- The end of a save: the item's matrix operations go too. -/
def State.saveEnd (s : State) (id : Nat) (st : Strand) (l : Loc) (pages : List Nat) : State :=
  ((s.offLane id st l pages).saveItem l.die l.core st.itemKey []).payOwed st.ctx

/-- A save of a strand whose core's writes are performed. -/
def State.saveOut (s : State) (id : Nat) (st : Strand) (l : Loc) : State :=
  let pages := s.recPages id st l
  let q := s.saveWrite st.ctx (saveSource st.kid st.iid st.sid l.die l.core) pages
  if q.2 then q.1.saveEnd id st l pages else q.1

/-- STRAND_SAVE of a strand on a lane that waits for nothing. -/
theorem exec_strandSave {s : State} {id : Nat} {st : Strand} {l : Loc} (h : s.strand id = some st) (hl : st.loc = some l)
    (ha : st.ahead = none) (hw : s.saveWaits st = false) : exec (.strandSave id) s = .next
      (if st.stop = false then s
      else if st.doomed then (s.discard id).payOwed st.ctx
      else if (s.release l.die l.core 4 true).copiesWait l.die then s.release l.die l.core 4 true
      else (s.release l.die l.core 4 true).saveOut id st l) := by
  change execStrandSave id s = _
  unfold execStrandSave
  rw [h]
  dsimp only
  rw [hl]
  dsimp only
  rw [ha, hw]
  cases st.stop
  · rfl
  · cases st.doomed
    · unfold State.saveOut
      dsimp only
      generalize s.release l.die l.core 4 true = r
      cases r.copiesWait l.die
      · generalize r.saveWrite st.ctx (saveSource st.kid st.iid st.sid l.die l.core) (r.recPages id st l) = q
        obtain ⟨q, b⟩ := q
        cases b <;> rfl
      · rfl
    · rfl

/-! What the end of a save leaves. -/

/-- A core but for its tiles and the queue of its sequencer; a context but for its kernels, and but for the messages it owes. -/
def Core.idleMatrix (x : Core) : Core := { x with tiles := [], seq := [] }
def Ctx.front (x : Ctx) : Ctx := { x with kernels := [] }
def Ctx.paid (x : Ctx) : Ctx := { x with owed := 0 }

theorem Ctx.spill_of_front {x y : Ctx} (h : x.front = y.front) : x.spill = y.spill := by
  have h2 := congrArg Ctx.spill h
  exact h2
theorem Ctx.spill_of_paid {x y : Ctx} (h : x.paid = y.paid) : x.spill = y.spill := by
  have h2 := congrArg Ctx.spill h
  exact h2

/-- Two cores run the same strands and hold the same shuttle queue and emergency area. -/
def Core.SameUse (x y : Core) : Prop := x.lanes = y.lanes ∧ x.shutq = y.shutq ∧ x.embUse = y.embUse

theorem Core.sameUse_of_still {x y : Core} (h : x.still = y.still) : x.SameUse y := by
  have h1 := congrArg Core.lanes h
  have h2 := congrArg Core.shutq h
  have h3 := congrArg Core.embUse h
  exact ⟨h1, h2, h3⟩
theorem Core.sameUse_of_idleMatrix {x y : Core} (h : x.idleMatrix = y.idleMatrix) : x.SameUse y := by
  have h1 := congrArg Core.lanes h
  have h2 := congrArg Core.shutq h
  have h3 := congrArg Core.embUse h
  exact ⟨h1, h2, h3⟩
theorem Core.SameUse.trans {x y z : Core} (h : x.SameUse y) (k : y.SameUse z) : x.SameUse z :=
  ⟨h.1.trans k.1, h.2.1.trans k.2.1, h.2.2.trans k.2.2⟩

theorem ctx_modKernel_front (s : State) (c k n : Nat) (g : Kernel → Kernel) :
    ((s.modKernel c k g).ctx n).front = (s.ctx n).front := by
  unfold State.modKernel
  split
  · rw [State.ctx_modCtx]
    split
    · next h =>
      rw [h]
      rfl
    · rfl
  · rfl

theorem ctx_payOwed (s : State) (m n : Nat) : ((s.payOwed m).ctx n).paid = (s.ctx n).paid := by
  unfold State.payOwed
  dsimp only
  split
  · rfl
  · have hdev (k : Nat) : (s.devPuts (s.ctx m).evtAddr.toNat (leBytes 4 (s.ctx m).evtData.toNat) m).ctx k = s.ctx k := by
      unfold State.ctx
      rw [(devPuts_stores ..).ctxs]
    rw [State.ctx_modCtx]
    split
    · next h =>
      rw [h, hdev]
      rfl
    · rw [hdev]

section
variable (s : State) (d c : Nat) (key : Nat × Nat × Nat) (pages : List Nat)

theorem strand_saveItem (j : Nat) : (s.saveItem d c key pages).strand j = s.strand j := by
  unfold State.saveItem
  split
  · rfl
  · unfold State.strand
    dsimp only
    rw [State.modItem_strands]
    rfl

theorem core_saveItem (e k : Nat) : ((s.saveItem d c key pages).core e k).idleMatrix = (s.core e k).idleMatrix := by
  unfold State.saveItem
  split
  · rfl
  · dsimp only
    unfold State.core State.die
    rw [State.modItem_dies]
    change (State.core (State.modCore ..) e k).idleMatrix = _
    rw [State.core_modCore]
    split
    · next h =>
      obtain ⟨rfl, -, rfl, -⟩ := h
      rfl
    · rfl

theorem ctx_saveItem_front (n : Nat) : ((s.saveItem d c key pages).ctx n).front = (s.ctx n).front := by
  unfold State.saveItem
  split
  · rfl
  · exact ctx_modKernel_front ..
end

section
variable (s : State) (id : Nat) (st : Strand) (l : Loc) (pages : List Nat)

theorem strand_saveEnd (j : Nat) :
    (s.saveEnd id st l pages).strand j = if j = id then some (st.packed l pages) else s.strand j := by
  unfold State.saveEnd
  rw [strand_payOwed, strand_saveItem]
  unfold State.offLane
  rw [State.strand_modCore, State.strand_putStrand]
  rfl

/-- The end of a save leaves each core's lanes, shuttle queue and emergency area as leaving the lane does. -/
theorem core_saveEnd (e k : Nat) : ((s.saveEnd id st l pages).core e k).SameUse ((s.offLane id st l pages).core e k) :=
  (Core.sameUse_of_still ((cachesOnly_payOwed _ _).core e k)).trans (Core.sameUse_of_idleMatrix (core_saveItem ..))

theorem diesLength_leaveLane : (s.leaveLane id st).dies.length = s.dies.length := State.modCore_length ..

theorem coresLength_leaveLane (d : Nat) : ((s.leaveLane id st).die d).cores.length = (s.die d).cores.length := by
  unfold State.leaveLane State.freeLane State.modCore
  rw [State.die_modDie]
  split
  · next h =>
    rw [h.1]
    exact modAt_length ..
  · rfl

theorem core_offLane (e k : Nat) : (s.offLane id st l pages).core e k =
    if e = l.die ∧ l.die < s.dies.length ∧ k = l.core ∧ l.core < (s.die l.die).cores.length then
      { (s.leaveLane id st).core l.die l.core with
        shutq := ((s.leaveLane id st).core l.die l.core).shutq.filter fun q => q.1 != id }
    else (s.leaveLane id st).core e k := by
  rw [← diesLength_leaveLane s id st, ← coresLength_leaveLane s id st]
  exact State.core_modCore ..

/-- The lane lets go of the strand; where the core does not exist, no lane runs it. -/
theorem running_leaveLane (hl : st.loc = some l) :
    (tget ((s.leaveLane id st).core l.die l.core).lanes l.lane).bind (·.running) ≠ some id := by
  have hd : st.d = l.die := by rw [Strand.d, hl]
  have hk : st.k = l.core := by rw [Strand.k, hl]
  have hn : st.ln = l.lane := by rw [Strand.ln, hl]
  unfold State.leaveLane State.freeLane
  rw [hd, hk, hn, State.core_modCore]
  split
  · split
    · next x _ =>
      rw [tget_tput_same, Option.bind_some]
      dsimp only
      split
      · simp
      · next h => exact fun he => h (beq_iff_eq.mpr he)
    · next h =>
      rw [h]
      simp
  · next h =>
    rw [core_absent s l.die l.core fun hin => h ⟨rfl, hin.1, rfl, hin.2⟩]
    simp [Core.idle, tget]

theorem running_saveEnd (hl : st.loc = some l) :
    (tget ((s.saveEnd id st l pages).core l.die l.core).lanes l.lane).bind (·.running) ≠ some id := by
  rw [(core_saveEnd s id st l pages l.die l.core).1, core_offLane]
  split <;> exact running_leaveLane s id st l hl

theorem shutq_saveEnd : ∀ q, q ∈ ((s.saveEnd id st l pages).core l.die l.core).shutq → q.1 ≠ id := by
  intro q hq
  rw [(core_saveEnd s id st l pages l.die l.core).2.1, core_offLane] at hq
  split at hq
  · exact bne_iff_ne.mp (List.mem_filter.mp hq).2
  · next h =>
    have hout : ¬ (l.die < (s.leaveLane id st).dies.length ∧ l.core < ((s.leaveLane id st).die l.die).cores.length) := by
      rw [diesLength_leaveLane, coresLength_leaveLane]
      exact fun ⟨hd, hc⟩ => h ⟨rfl, hd, rfl, hc⟩
    rw [core_absent _ _ _ hout] at hq
    exact absurd hq List.not_mem_nil

theorem embUse_saveEnd (e k : Nat) : ((s.saveEnd id st l pages).core e k).embUse = (s.core e k).embUse := by
  have hlane (e k : Nat) : ((s.leaveLane id st).core e k).embUse = (s.core e k).embUse :=
    have h := congrArg Core.embUse (core_freeLane s st id e k false)
    h
  rw [(core_saveEnd s id st l pages e k).2.2, core_offLane]
  split
  · next hk =>
    obtain ⟨rfl, -, rfl, -⟩ := hk
    exact hlane ..
  · exact hlane ..

theorem spill_saveEnd (n : Nat) : ((s.saveEnd id st l pages).ctx n).spill = (s.ctx n).spill :=
  (Ctx.spill_of_paid (ctx_payOwed ..)).trans (Ctx.spill_of_front (ctx_saveItem_front ..))
end

/-! Where a part of a record is written (R266). -/

section
variable {s : State} {ctx : Nat} {u : Source} {pages : List Nat}

theorem saveWrite_own (h : (s.core u.die u.core).embUse = some ctx) : s.saveWrite ctx u pages = (s, true) := if_pos h

theorem saveWrite_other {m : Nat} (h : (s.core u.die u.core).embUse = some m) (hm : m ≠ ctx) :
    s.saveWrite ctx u pages = (s, false) := by
  unfold State.saveWrite
  dsimp only
  rw [h, if_neg fun e => hm (Option.some.inj e)]
  rfl

section
variable (h : (s.core u.die u.core).embUse = none) (hw : s.unitWaits ctx 2 u.key = false)
include h hw

theorem saveWrite_ok (hp : s.pagesStop u.die ctx kWrite pages = .ok) : s.saveWrite ctx u pages = (s, true) := by
  unfold State.saveWrite
  dsimp only
  rw [h, hw, hp]
  rfl

/-- The record's emergency area takes the rest, and SPILL is set. -/
def State.spillTo (s : State) (ctx : Nat) (u : Source) (va : Nat) : State :=
  (s.modCtx ctx fun x => { x with
    spill := true, retries := x.retries ++ [(x.lastBatch, .save (16 * u.die + u.core) va)] }).modCore u.die u.core
    fun x => { x with embUse := some ctx }

theorem saveWrite_fault {c : Cause} {lvl va : Nat} (hp : s.pagesStop u.die ctx kWrite pages = .fault c lvl va) :
    s.saveWrite ctx u pages = if nth 0 (s.die u.die).emb u.core = 0 then (s.unitBatch ctx u (faultEntry va c lvl kWrite), false)
      else ((s.unitBatch ctx u (faultEntry va c lvl kWrite)).spillTo ctx u va, true) := by
  unfold State.saveWrite
  dsimp only
  rw [h, hw, hp]
  rfl
end
end

theorem embUse_spillTo {s : State} {ctx : Nat} {u : Source} {va : Nat} (hd : u.die < s.dies.length)
    (hc : u.core < (s.die u.die).cores.length) : ((s.spillTo ctx u va).core u.die u.core).embUse = some ctx := by
  unfold State.spillTo
  rw [State.core_modCore, if_pos ⟨rfl, hd, rfl, hc⟩]

theorem spill_spillTo (s : State) (ctx : Nat) (u : Source) (va : Nat) : ((s.spillTo ctx u va).ctx ctx).spill = true := by
  have h := State.ctx_modCtx_same s ctx fun x => { x with
    spill := true, retries := x.retries ++ [(x.lastBatch, .save (16 * u.die + u.core) va)] }
  exact congrArg Ctx.spill h

theorem forming_unitBatch (s : State) (ctx : Nat) (u : Source) (e : BatchEntry) :
    ∃ b : Batch, ((s.unitBatch ctx u e).ctx ctx).forming = (s.ctx ctx).forming ++ [b] ∧ b.src = u.src ∧ b.die = u.die ∧
      b.core = u.core ∧ b.kid = u.kid ∧ b.iid = u.iid ∧ b.sid = u.sid ∧ b.entries = [e] :=
  ⟨_, congrArg Ctx.forming (State.ctx_modCtx_same ..), rfl, rfl, rfl, rfl, rfl, rfl, rfl⟩

theorem saveOut_written {s q : State} {id : Nat} {st : Strand} {l : Loc}
    (h : s.saveWrite st.ctx (saveSource st.kid st.iid st.sid l.die l.core) (s.recPages id st l) = (q, true)) :
    s.saveOut id st l = q.saveEnd id st l (s.recPages id st l) := by
  unfold State.saveOut
  dsimp only
  rw [h]
  rfl

theorem saveOut_held {s q : State} {id : Nat} {st : Strand} {l : Loc}
    (h : s.saveWrite st.ctx (saveSource st.kid st.iid st.sid l.die l.core) (s.recPages id st l) = (q, false)) :
    s.saveOut id st l = q := by
  unfold State.saveOut
  dsimp only
  rw [h]
  rfl

theorem save_says : SaveSays := by
  intro s id st l h hl ha hw
  dsimp only
  rw [exec_strandSave h hl ha hw]
  have hmem : CachesOnly s (s.release l.die l.core 4 true) := cachesOnly_release ..
  have hstores : Stores s (s.release l.die l.core 4 true) := release_stores ..
  generalize s.release l.die l.core 4 true = s1 at hmem hstores ⊢
  have hstrand (j : Nat) : s1.strand j = s.strand j := congrArg (tget · j) hstores.strands
  have hpages : s1.recPages id st l = s.recPages id st l := recPages_congr hstores.strands hstores.ctxs hmem id st l
  have hctx : s1.ctx st.ctx = s.ctx st.ctx := by unfold State.ctx; rw [hstores.ctxs]
  have hemb : (s1.die l.die).emb = (s.die l.die).emb := by
    have h2 := congrArg Die.emb (hmem.die l.die)
    exact h2
  rw [← hpages]
  refine ⟨fun hs => ?_, fun hs hd => ?_, fun hs hd hc => ?_, fun hs hd hc hu => ?_, fun m hs hd hc hu hm => ?_,
    fun c lvl va hs hd hc hu hwait hp => ?_⟩
  all_goals simp only [hs, Bool.true_eq_false, if_false, if_true]
  · simp only [hd, if_true]
    exact ⟨_, rfl, (strand_payOwed ..).trans ((strand_discard h id).trans (if_pos rfl))⟩
  all_goals simp only [hd, hc, Bool.false_eq_true, if_false, if_true]
  · have hwrite : s1.saveWrite st.ctx (saveSource st.kid st.iid st.sid l.die l.core) (s1.recPages id st l) = (s1, true) :=
        hu.elim (saveWrite_own (u := saveSource st.kid st.iid st.sid l.die l.core) ·) fun ⟨hn, hwait, hp⟩ =>
        saveWrite_ok hn hwait hp
    rw [saveOut_written hwrite]
    exact ⟨_, rfl, (strand_saveEnd ..).trans (if_pos rfl), fun j hj => (strand_saveEnd ..).trans ((if_neg hj).trans (hstrand j)),
      running_saveEnd s1 id st l _ hl, shutq_saveEnd s1 id st l _⟩
  · rw [saveOut_held (saveWrite_other hu hm)]
  · have hwrite := saveWrite_fault hu hwait hp
    rw [show (saveSource st.kid st.iid st.sid l.die l.core).die = l.die from rfl, hemb] at hwrite
    refine ⟨fun hno => ?_, fun hno => ?_⟩
    · rw [saveOut_held (hwrite.trans (if_pos hno))]
      obtain ⟨b, hforming, hb⟩ := forming_unitBatch s1 st.ctx (saveSource st.kid st.iid st.sid l.die l.core)
        (faultEntry va c lvl kWrite)
      exact ⟨_, b, rfl, hstores.strands, rfl, hctx ▸ hforming, hb⟩
    · rw [saveOut_written (hwrite.trans (if_neg hno))]
      refine ⟨_, rfl, (strand_saveEnd ..).trans (if_pos rfl), (spill_saveEnd ..).trans (spill_spillTo ..), fun hd hc => ?_⟩
      rw [embUse_saveEnd]
      exact embUse_spillTo (u := saveSource st.kid st.iid st.sid l.die l.core) (hmem.length ▸ hd) (hmem.coreCount l.die ▸ hc)

/-! Restores (R262, R324, R347). -/

/-- A strand as a restore leaves it: on its place with its state as it was, or Exited where its last operation has ended. -/
def Restored (st : Strand) (l : Loc) (w : Strand) : Prop :=
  w.saved = none ∧ w.s = st.s ∧ w.q = st.q ∧ w.x = st.x ∧ w.pc = st.pc ∧ w.mask = st.mask ∧ w.stack = st.stack ∧
    w.fmt = st.fmt ∧ w.sts = st.sts ∧ w.c = st.c ∧ w.frame = st.frame ∧ w.slots = st.slots ∧
    w.ops.map (·.id) = st.ops.map (·.id) ∧
    (st.run ≠ .draining ∨ st.ops ≠ [] → w.loc = some l ∧ w.v = st.v ∧
      w.run = if st.run = .faulted ∧ st.resolved = true then .ready else st.run) ∧
    (st.run = .draining → st.ops = [] → w.loc = none ∧ w.run = .exited)

theorem rebase_id (o : Op) (x : Core) : (o.rebase x).id = o.id := by
  unfold Op.rebase
  split <;> rfl

theorem strand_moveGroups (s : State) (st : Strand) (d j : Nat) : (s.moveGroups st d).strand j = s.strand j := by
  unfold State.moveGroups
  refine congrArg (tget · j) (foldl_strands _ _ (fun s g => ?_) s)
  split
  · rfl
  · split <;> rfl

theorem strand_acquire (s : State) (d c scope j : Nat) (w : Bool) : (s.acquire d c scope w).strand j = s.strand j :=
  congrArg (tget · j) (acquire_stores ..).strands

/-- The strand on its lane, before it is asked whether its last operation has ended. -/
def Strand.placed (st : Strand) (l : Loc) (seq : Nat) (x : Core) : Strand := { st with
  loc := some l, saved := none, savedPages := [], placedAt := seq, waitCount := 0, ops := st.ops.map fun o => o.rebase x,
  run := if st.run = .faulted ∧ st.resolved then .ready else st.run,
  resolved := if st.run = .faulted then false else st.resolved }

/-- The core is ready to take the strand: its lane, its groups' records and what an acquire leaves of the caches. -/
def State.madeReady (s : State) (st : Strand) (l : Loc) : State :=
  let s := (s.settleIn st.ctx l).moveGroups st l.die
  if st.lastCore = 16 * l.die + l.core then s
  else s.acquire l.die l.core (if st.lastCore / 16 = l.die then 3 else 4) true

theorem strand_madeReady (s : State) (st : Strand) (l : Loc) (j : Nat) : (s.madeReady st l).strand j = s.strand j := by
  unfold State.madeReady
  dsimp only
  split
  · exact strand_moveGroups ..
  · exact (strand_acquire ..).trans (strand_moveGroups ..)

/-- A restore puts the strand on its lane, changes its core, and asks whether its last operation has ended. -/
theorem restoreOne_eq (s : State) (id : Nat) (st : Strand) (l : Loc) : ∃ g : Core → Core, s.restoreOne id st l =
    (((s.madeReady st l).putStrand id
      (st.placed l (s.madeReady st l).seqNo ((s.madeReady st l).core l.die l.core))).modCore l.die l.core g).drained id :=
  ⟨_, rfl⟩

theorem placed_run {st : Strand} {l : Loc} {seq : Nat} {x : Core} :
    (st.placed l seq x).run = .draining ∧ (st.placed l seq x).ops = [] ∧ (st.placed l seq x).loc.isSome = true ↔
      st.run = .draining ∧ st.ops = [] := by
  unfold Strand.placed
  dsimp only
  rw [List.map_eq_nil_iff]
  split
  · next h => simp [h.1]
  · simp

theorem placed_opIds (st : Strand) (l : Loc) (seq : Nat) (x : Core) : (st.placed l seq x).ops.map (·.id) = st.ops.map (·.id) := by
  rw [Strand.placed, List.map_map]
  exact List.map_congr_left fun o _ => rebase_id o _

/-- A strand that was saved with operations, or was not Draining, stays on its lane. -/
theorem restored_placed {st : Strand} {l : Loc} {seq : Nat} {x : Core} (h : ¬ (st.run = .draining ∧ st.ops = [])) :
    Restored st l (st.placed l seq x) :=
  ⟨rfl, rfl, rfl, rfl, rfl, rfl, rfl, rfl, rfl, rfl, rfl, rfl, placed_opIds .., fun _ => ⟨rfl, rfl, rfl⟩,
    fun hr ho => absurd ⟨hr, ho⟩ h⟩

/-- One that was Draining with no operation left has Exited. -/
theorem restored_exited {st : Strand} {l : Loc} {seq n : Nat} {x : Core} (h : st.run = .draining ∧ st.ops = []) :
    Restored st l { st.placed l seq x with run := .exited, loc := none, lastCore := n, engErrs := [], v := [], pend := [] } :=
  ⟨rfl, rfl, rfl, rfl, rfl, rfl, rfl, rfl, rfl, rfl, rfl, rfl, placed_opIds st l seq x, fun hn => absurd h (not_and_or.mpr hn),
    fun _ _ => ⟨rfl, rfl⟩⟩

theorem restoreOne_strand (s : State) (id : Nat) (st : Strand) (l : Loc) :
    (∃ w, (s.restoreOne id st l).strand id = some w ∧ Restored st l w) ∧
      ∀ j, j ≠ id → (s.restoreOne id st l).strand j = s.strand j := by
  obtain ⟨g, heq⟩ := restoreOne_eq s id st l
  rw [heq]
  obtain ⟨⟨w, hw, hwu⟩, hother, -⟩ := drained_strand (((s.madeReady st l).putStrand id
    (st.placed l (s.madeReady st l).seqNo ((s.madeReady st l).core l.die l.core))).modCore l.die l.core g) id _
    (State.strand_putStrand_same ..)
  refine ⟨⟨w, hw, ?_⟩, fun j hj => (hother j hj).trans ?_⟩
  · by_cases h : st.run = .draining ∧ st.ops = []
    · rw [if_pos (placed_run.mpr h)] at hwu
      exact hwu ▸ restored_exited h
    · rw [if_neg (mt placed_run.mp h)] at hwu
      exact hwu ▸ restored_placed h
  · rw [State.strand_modCore, State.strand_putStrand, if_neg hj]
    exact strand_madeReady ..

theorem restoreAll_strand {all : List (Nat × Strand × Loc)} (h : (all.map (·.1)).Nodup) (s : State) :
    (∀ e, e ∈ all → ∃ w, (all.foldl (fun s e => s.restoreOne e.1 e.2.1 e.2.2) s).strand e.1 = some w ∧
        Restored e.2.1 e.2.2 w) ∧
      ∀ j, j ∉ all.map (·.1) → (all.foldl (fun s e => s.restoreOne e.1 e.2.1 e.2.2) s).strand j = s.strand j := by
  induction all generalizing s with
  | nil => exact ⟨fun _ he => absurd he List.not_mem_nil, fun _ _ => rfl⟩
  | cons a all ih =>
    obtain ⟨ha, hr⟩ := List.nodup_cons.mp h
    obtain ⟨hin, hout⟩ := ih hr (s.restoreOne a.1 a.2.1 a.2.2)
    obtain ⟨⟨w, hw, hwr⟩, hother⟩ := restoreOne_strand s a.1 a.2.1 a.2.2
    refine ⟨fun e he => ?_, fun j hj => ?_⟩
    · obtain rfl | he := List.mem_cons.mp he
      · exact ⟨w, (hout _ ha).trans hw, hwr⟩
      · exact hin e he
    · rw [List.map_cons, List.mem_cons, not_or] at hj
      obtain ⟨hja, hjr⟩ := hj
      exact (hout j hjr).trans (hother j hja)

/-! The strands that a restore places. -/

/-- The strands of the places that a restore names. -/
theorem mapM_strands {s : State} (all : List (Nat × Strand × Loc)) (h : ∀ e, e ∈ all → s.strand e.1 = some e.2.1) :
    ((all.map fun e => (e.1, e.2.2)).mapM fun p => (s.strand p.1).map fun st => (p.1, st, p.2)) = some all := by
  induction all with
  | nil => rfl
  | cons a all ih =>
    rw [List.map_cons, List.mapM_cons, ih fun e he => h e (List.mem_cons_of_mem a he), h a List.mem_cons_self]
    rfl

theorem distinct_of_nodup {α : Type} [DecidableEq α] {l : List α} (h : l.Nodup) : distinct l = l := by
  have hgo (l r : List α) (h : (r ++ l).Nodup) : l.foldl (fun r x => if r.contains x then r else r ++ [x]) r = r ++ l := by
    induction l generalizing r with
    | nil => exact (List.append_nil r).symm
    | cons a l ih =>
      have ha : r.contains a = false := by
        rw [← Bool.not_eq_true, List.contains_iff_mem]
        exact fun hm => (List.nodup_append.mp h).2.2 a hm a List.mem_cons_self rfl
      rw [List.foldl_cons, ha, if_neg Bool.false_ne_true, ih _ (by rwa [List.append_assoc]), List.append_assoc]
      rfl
  exact hgo l [] h

/-- What `together` asks is what the model asks of the mates. -/
theorem matesOk_of_together {s : State} {id : Nat} {st : Strand} {p : Loc} {mates : List (Nat × Loc)}
    {all : List (Nat × Strand × Loc)} (hall : all.map (fun e => (e.1, e.2.2)) = (id, p) :: mates)
    (hnd : (all.map (·.1)).Nodup) (h : s.together st p.die p.core all) : s.matesOk st all = true := by
  obtain ⟨hone, hrole⟩ := h
  have hlen : (distinct (all.map (·.1))).length = all.length := by rw [distinct_of_nodup hnd, List.length_map]
  have hhead : (all.head?.map fun q => (q.2.2.die, q.2.2.core)) = some (p.die, p.core) := by
    have h2 := congrArg (fun l => l.head?.map fun q : Nat × Loc => (q.2.die, q.2.core)) hall
    rwa [List.head?_map, Option.map_map] at h2
  unfold State.matesOk
  rw [hlen, hhead]
  by_cases hr : st.role = 1
  · obtain ⟨heach, hcover⟩ := hrole hr
    simp only [hr, decide_true, bne_self_eq_false, Bool.false_eq_true, if_false, Bool.true_and, Bool.and_eq_true, List.all_eq_true,
      beq_iff_eq, Option.some.injEq, Prod.mk.injEq, Bool.or_eq_true, bne_iff_ne, List.any_eq_true]
    refine ⟨fun e he => ?_, fun e he => ?_⟩
    · obtain ⟨h1, h2, h3, h4⟩ := heach e he
      exact ⟨⟨h1, h2⟩, h3, h4⟩
    · have hc := hcover e.1 e.2 he
      tauto
  · simp [hr, hone hr]

theorem exec_strandRestore {s s1 s2 : State} {id : Nat} {st : Strand} {p : Loc} {mates : List (Nat × Loc)}
    {all : List (Nat × Strand × Loc)} (hall : all.map (fun e => (e.1, e.2.2)) = (id, p) :: mates)
    (hst : ∀ e, e ∈ all → s.strand e.1 = some e.2.1) (hid : s.strand id = some st) (hmates : s.matesOk st all = true)
    (hctx : (s.ctx st.ctx).state = 2)
    (heach : ∀ e, e ∈ all → e.2.1.loc = none ∧ e.2.1.run ≠ .exited ∧ e.2.1.run ≠ .pending ∧ e.2.1.doomed = false ∧
      s.itemAllows e.1 e.2.1 p.die p.core = true)
    (hreplay : (s.ctx st.ctx).replay = true → ∀ x q, x ∈ s.dies → q ∈ x.parked → q.ctx ≠ st.ctx)
    (hplaces : s.placesFree (all.map fun e => (e.2.2, e.2.1.alloc)) = true)
    (hroom : s.contextRoom st.ctx p.die p.core = true)
    (hgroups : s.groupsAllow (all.map fun e => (e.1, e.2.1)) p.die p.core = true)
    (htiles : s.tilesAllow st p.die p.core = true)
    (hscr : (∃ e, e ∈ s.onCore p.die p.core ∧ e.2.itemKey = st.itemKey) ∨
      s.scrUsed p.die p.core + s.scrSize st ≤ scratchSize)
    (hread : all.foldl (fun q e =>
      let a := q.1.restoreRead e.2.1 p.die p.core
      (a.1, q.2 && a.2)) (s, true) = (s1, true))
    (hcores : s1.prepareCores
      [{ load := none, ctx := st.ctx, kid := st.kid, iid := st.iid, sid := st.sid, die := p.die, core := p.core }] = (s2, true)) :
    ∃ q : State, exec (.strandRestore id ⟨p, mates⟩) s = .next (all.foldl (fun s e => s.restoreOne e.1 e.2.1 e.2.2) q) := by
  have hmap : ((id, p) :: mates).mapM (fun p => (s.strand p.1).map fun st => (p.1, st, p.2)) = some all :=
    hall ▸ mapM_strands all hst
  have hrest : all.all (fun e => e.2.1.restorable && s.itemAllows e.1 e.2.1 p.die p.core) = true := by
    refine List.all_eq_true.mpr fun e he => ?_
    obtain ⟨hl, hx, hp, hd, hi⟩ := heach e he
    simp [Strand.restorable, hl, hx, hp, hd, hi]
  have hpark : ((s.ctx st.ctx).replay && s.dies.any fun x => x.parked.any fun p => p.ctx == st.ctx) = false := by
    rw [← Bool.not_eq_true, Bool.and_eq_true, List.any_eq_true]
    rintro ⟨hr, x, hx, hp⟩
    obtain ⟨q, hq, hqc⟩ := List.any_eq_true.mp hp
    exact hreplay hr x q hx hq (beq_iff_eq.mp hqc)
  have hfirst : (!(!(s.onCore p.die p.core).any fun e => e.2.itemKey == st.itemKey) ||
      decide (s.scrUsed p.die p.core + s.scrSize st ≤ scratchSize)) = true := by
    rw [Bool.not_not, Bool.or_eq_true, List.any_eq_true, decide_eq_true_iff]
    simpa only [beq_iff_eq] using hscr
  change ∃ q, execStrandRestore id ⟨p, mates⟩ s = _
  unfold execStrandRestore
  rw [hid, hmap]
  dsimp only at hread ⊢
  rw [if_neg, hread]
  · dsimp only
    rw [hcores]
    exact ⟨_, rfl⟩
  · simp only [hctx, hrest, hmates, hpark, hplaces, hroom, hgroups, htiles, beq_self_eq_true, Bool.not_false, Bool.and_self,
      Bool.true_and, Bool.not_eq_true, Bool.not_eq_false']
    exact hfirst

theorem restore_says : RestoreSays := by
  intro s id st p mates all s1 s2 hall hst hid hnd htog hctx heach hreplay hplaces hroom hgroups htiles hscr hread hcores
  obtain ⟨q, hq⟩ := exec_strandRestore hall hst hid (matesOk_of_together hall hnd htog) hctx heach hreplay hplaces hroom hgroups
    htiles hscr hread hcores
  exact ⟨_, hq, (restoreAll_strand hnd q).1⟩

/-- Settles O49: a save is its release, the writing of its record and the leaving of its lane; a restore is a fold over the
strands that it places, each of which leaves the others alone. -/
theorem preemption : Obligations.Preemption := ⟨victim_says, preempt_says, save_says, packed_says, restore_says⟩

end Sys2Proof.Machine
end

section
/-! Commands of a context (O50). -/

open Sys2Proof
namespace Sys2Proof.Machine

/-! The commands of R253: what each does to the context's record. -/

theorem modCtx_modCtx (s : State) (n : Nat) (f g : Ctx → Ctx) : (s.modCtx n f).modCtx n g = s.modCtx n fun x => g (f x) := by
  have h : (s.modCtx n f).modCtx n g = (s.modCtx n f).putCtx n (g (f (s.ctx n))) := by
    rw [← State.ctx_modCtx_same s n f]
    rfl
  rw [h]
  unfold State.modCtx State.putCtx
  dsimp only
  rw [tput_tput]

section
variable {s : State} {n : Nat} (hn : n < 4096)
include hn

theorem ctxDo_done {ok : Bool} (h : ok = true) (g : State → State) :
    s.ctxDo n ok g = (g s).modCtx n fun x => { x with err := 0 } := by
  unfold State.ctxDo
  rw [if_neg (by omega), if_pos h]
  rfl

theorem ctxDo_refused {ok : Bool} (h : ¬ ok = true) (g : State → State) :
    s.ctxDo n ok g = s.modCtx n fun x => { x with err := 1 } := by
  unfold State.ctxDo
  rw [if_neg (by omega), if_neg h]
  rfl
end

theorem startOk_iff (s : State) (x : Ctx) : s.startOk x = true ↔ s.ready255 x := by
  unfold State.startOk State.ready255
  simp only [Bool.and_eq_true, Bool.or_eq_true, bne_iff_ne, beq_iff_eq, decide_eq_true_iff, and_assoc]

theorem ctx_stopStrands (s : State) (n m : Nat) : (s.stopStrands n).ctx m = s.ctx m := rfl

theorem strand_stopStrands (s : State) (n id : Nat) : (s.stopStrands n).strand id = (s.strand id).map fun st =>
    if st.ctx = n ∧ st.resident = true then { st with stop := true } else st := by
  refine (tget_map_ite s.strands (fun st => st.ctx == n && st.resident) (fun st => { st with stop := true }) id).trans ?_
  simp only [Bool.and_eq_true, beq_iff_eq]
  rfl

section
variable {s : State} {n : Nat} (hn : n < 4096)
include hn

theorem create_done (h : (s.ctx n).state = 0 ∨ (s.ctx n).state = 6) : s.create n = s.putCtx n { Ctx.free with state := 1 } := by
  unfold State.create
  rw [ctxDo_done hn (by simpa using h)]
  exact modCtx_modCtx s n (fun _ => { Ctx.free with state := 1 }) fun x => { x with err := 0 }

theorem create_refused (h0 : (s.ctx n).state ≠ 0) (h6 : (s.ctx n).state ≠ 6) :
    s.create n = s.modCtx n fun x => { x with err := 1 } := by
  unfold State.create
  exact ctxDo_refused hn (by simp [h0, h6]) _

theorem start_done (h : (s.ctx n).state = 1) (hr : s.ready255 (s.ctx n)) :
    s.start n = s.modCtx n fun x => { x with state := 2, elogSeq := 0, err := 0 } := by
  unfold State.start
  rw [if_neg (by omega), if_neg (not_not.mpr h), (startOk_iff ..).mpr hr]
  rfl

theorem start_wrong (h : (s.ctx n).state = 1) (hr : ¬ s.ready255 (s.ctx n)) :
    s.start n = s.modCtx n fun x => { x with err := 2 } := by
  unfold State.start
  rw [if_neg (by omega), if_neg (not_not.mpr h), Bool.eq_false_iff.mpr (mt (startOk_iff ..).mp hr)]
  rfl

theorem start_refused (h : (s.ctx n).state ≠ 1) : s.start n = s.modCtx n fun x => { x with err := 1 } := by
  unfold State.start
  rw [if_neg (by omega), if_pos h]
  rfl

theorem suspend_done (h : (s.ctx n).state = 2) : s.suspend n =
    ((s.modCtx n fun x => { x with state := 3 }).stopStrands n).modCtx n fun x => { x with err := 0 } := by
  unfold State.suspend
  rw [ctxDo_done hn (beq_iff_eq.mpr h)]

theorem suspend_refused (h : (s.ctx n).state ≠ 2) : s.suspend n = s.modCtx n fun x => { x with err := 1 } := by
  unfold State.suspend
  exact ctxDo_refused hn (mt beq_iff_eq.mp h) _

theorem ack_done (h1 : 1 ≤ (s.ctx n).state) (h4 : (s.ctx n).state ≤ 4) :
    s.ack n = s.modCtx n fun x => { x with elovf := false, err := 0 } := by
  unfold State.ack
  rw [ctxDo_done hn (by simp [h1, h4])]
  exact modCtx_modCtx s n (fun x => { x with elovf := false }) fun x => { x with err := 0 }

theorem ack_refused (h : (s.ctx n).state = 0 ∨ 4 < (s.ctx n).state) : s.ack n = s.modCtx n fun x => { x with err := 1 } := by
  unfold State.ack
  exact ctxDo_refused hn (by simp; omega) _

end

/-! RESUME. -/

/-- A parked write after RESUME: the limit of R412 starts anew. -/
def Parked.again (p : Parked) (n now : Nat) : Parked := if p.ctx = n then { p with since := now, raised := false } else p

/-- The dies after RESUME. -/
def State.unparked (s : State) (n : Nat) : State :=
  { s with dies := s.dies.map fun (d : Die) => { d with parked := d.parked.map (·.again n s.gtime) } }

theorem resume_done {s : State} {n : Nat} (hn : n < 4096)
    (h : ((s.ctx n).state = 3 ∨ (s.ctx n).state = 4) ∧ nbits (s.ctx n).event.toNat 0 3 = 0) : s.resumeCtx n =
      (s.unparked n).modCtx n fun x =>
        { x with replay := x.replay || (s.ctx n).state == 4, state := 2, memfull := false, err := 0 } := by
  unfold State.resumeCtx
  rw [ctxDo_done hn (by simpa using h)]
  exact modCtx_modCtx (s.unparked n) n
    (fun x => { x with replay := x.replay || (s.ctx n).state == 4, state := 2, memfull := false }) fun x => { x with err := 0 }

theorem resume_refused {s : State} {n : Nat} (hn : n < 4096)
    (h : ¬ (((s.ctx n).state = 3 ∨ (s.ctx n).state = 4) ∧ nbits (s.ctx n).event.toNat 0 3 = 0)) :
    s.resumeCtx n = s.modCtx n fun x => { x with err := 1 } := by
  unfold State.resumeCtx
  exact ctxDo_refused hn (by simpa using h) _

theorem parked_unparked {s : State} {n d i : Nat} {p : Parked} (h : (s.die d).parked[i]? = some p) :
    ((s.unparked n).die d).parked[i]? = some (p.again n s.gtime) := by
  have hd : d < s.dies.length := by
    by_contra hd
    rw [die_absent s d hd] at h
    exact absurd h (by simp [Die.afterReset])
  have hdie : ((s.unparked n).die d).parked = (s.die d).parked.map (·.again n s.gtime) := by
    unfold State.unparked State.die
    rw [nth_map, if_pos hd]
  rw [hdie, List.getElem?_map, h, Option.map_some]

theorem command_says : CommandSays := by
  intro s n hn
  refine ⟨fun h => congrArg _ (create_done hn h), fun h0 h6 => congrArg _ (create_refused hn h0 h6),
    fun h hr => congrArg _ (start_done hn h hr), fun h hr => congrArg _ (start_wrong hn h hr),
    fun h => congrArg _ (start_refused hn h), fun h => ?_, fun h => congrArg _ (suspend_refused hn h), fun h => ?_,
    fun h => congrArg _ (resume_refused hn h), fun h1 h4 => congrArg _ (ack_done hn h1 h4), fun h => congrArg _ (ack_refused hn h)⟩
  · refine ⟨_, congrArg Host.Outcome.next (suspend_done hn h), ?_, fun id st hst => ?_, rfl⟩
    · rw [State.ctx_modCtx_same, ctx_stopStrands, State.ctx_modCtx_same]
    · refine (strand_stopStrands (s.modCtx n fun x => { x with state := 3 }) n id).trans ?_
      rw [State.strand_modCtx, hst, Option.map_some]
  · refine ⟨_, congrArg Host.Outcome.next (resume_done hn h), ?_, rfl, rfl, fun d i p hp => parked_unparked hp⟩
    rw [State.ctx_modCtx_same]
    rfl

/-! Kernels of a context that enters Retiring list no seed record (R381). -/

theorem kernel_modKernel_eq (s : State) (c k n j : Nat) (g : Kernel → Kernel) :
    (s.modKernel c k g).kernel n j = if n = c ∧ j = k then (s.kernel c k).map g else s.kernel n j := by
  unfold State.modKernel
  split
  · next x hx =>
    rw [hx]
    unfold State.kernel
    rw [State.ctx_modCtx]
    by_cases hn : n = c
    · subst hn
      rw [if_pos rfl, tget_tput]
      by_cases hj : j = k <;> simp [hj]
    · simp [hn]
  · next hx =>
    rw [hx]
    by_cases h : n = c ∧ j = k
    · rw [if_pos h, h.1, h.2, hx]
      rfl
    · rw [if_neg h]

theorem tdel_absent {α : Type} {m : Tab α} {a : Nat} (h : tget m a = none) : tdel m a = m := by
  induction m with
  | nil => rfl
  | cons x m ih =>
    obtain ⟨k, v⟩ := x
    rw [tget] at h
    split at h
    · exact absurd h (Option.some_ne_none v)
    · next hk =>
      have hrest : tdel ((k, v) :: m) a = (k, v) :: tdel m a := List.filter_cons_of_pos (bne_iff_ne.mpr hk)
      rw [hrest, ih h]

/-- Deleting each of a table's keys leaves nothing. -/
theorem foldl_tdel_self {α : Type} (m : Tab α) : m.foldl (fun t e => tdel t e.1) m = [] := by
  have hmem (l t : Tab α) (e : Nat × α) (h : e ∈ l.foldl (fun t e => tdel t e.1) t) : e ∈ t ∧ ∀ x, x ∈ l → e.1 ≠ x.1 := by
    induction l generalizing t with
    | nil => exact ⟨h, fun _ hx => absurd hx List.not_mem_nil⟩
    | cons a l ih =>
      obtain ⟨ht, hl⟩ := ih (tdel t a.1) h
      obtain ⟨hin, ha⟩ := List.mem_filter.mp ht
      exact ⟨hin, List.forall_mem_cons.mpr ⟨bne_iff_ne.mp ha, hl⟩⟩
  refine List.eq_nil_iff_forall_not_mem.mpr fun e he => ?_
  obtain ⟨hin, hne⟩ := hmem m m e he
  exact hne e hin rfl

/-- A kernel's list without one slot. -/
def Kernel.unseed (k : Kernel) (slot : Nat) : Kernel := { k with seeds := tdel k.seeds slot }

theorem kernel_seedDropAll_eq (s : State) (c k slot n j : Nat) : (s.seedDropAll (c, k) slot).kernel n j =
    if n = c ∧ j = k then (s.kernel c k).map (·.unseed slot) else s.kernel n j := by
  unfold State.seedDropAll
  split
  · exact kernel_modKernel_eq ..
  · next h =>
    by_cases hn : n = c ∧ j = k
    · rw [if_pos hn, hn.1, hn.2]
      cases hk : s.kernel c k with
      | none => rfl
      | some x =>
        rw [hk, Option.bind_some] at h
        rw [Option.map_some, Kernel.unseed, tdel_absent h]
    · rw [if_neg hn]

theorem kernel_foldl_seedDropAll (l : List (Nat × Nat)) (s : State) (c k n j : Nat) :
    (l.foldl (fun s e => s.seedDropAll (c, k) e.1) s).kernel n j =
      if n = c ∧ j = k then (s.kernel c k).map fun x => { x with seeds := l.foldl (fun t e => tdel t e.1) x.seeds }
      else s.kernel n j := by
  induction l generalizing s with
  | nil =>
    split
    · next h =>
      rw [h.1, h.2]
      exact Option.map_id'.symm
    · rfl
  | cons a l ih =>
    simp only [List.foldl_cons, ih, kernel_seedDropAll_eq, and_self, if_true, Option.map_map]
    split <;> rfl

theorem kernel_seedDropKernel (s : State) (c k n j : Nat) : (s.seedDropKernel (c, k)).kernel n j =
    if n = c ∧ j = k then (s.kernel c k).map fun x => { x with seeds := [] } else s.kernel n j := by
  unfold State.seedDropKernel
  split
  · next x hx =>
    rw [kernel_foldl_seedDropAll, hx, Option.map_some, foldl_tdel_self]
    rfl
  · next hx =>
    by_cases h : n = c ∧ j = k
    · rw [if_pos h, h.1, h.2]
      dsimp only at hx
      rw [hx]
      rfl
    · rw [if_neg h]

/-- The context's kernels drop their lists. -/
def State.seedless (s : State) (n : Nat) : State := (s.ctx n).kernels.foldl (fun s e => s.seedDropKernel (n, e.1)) s

theorem seeds_seedless {s : State} {n kid : Nat} {k : Kernel} (h : (s.seedless n).kernel n kid = some k) : k.seeds = [] := by
  have hfold (l : List (Nat × Kernel)) (s : State) : (l.foldl (fun s e => s.seedDropKernel (n, e.1)) s).kernel n kid =
      if kid ∈ l.map (·.1) then (s.kernel n kid).map fun x => { x with seeds := [] } else s.kernel n kid := by
    induction l generalizing s with
    | nil => rfl
    | cons a l ih =>
      rw [List.foldl_cons, ih, kernel_seedDropKernel, List.map_cons]
      by_cases hk : kid = a.1
      · subst hk
        simp only [List.mem_cons, true_or, and_self, if_true, Option.map_map]
        split <;> rfl
      · simp only [List.mem_cons, hk, false_or, and_false, if_false]
  unfold State.seedless at h
  rw [hfold] at h
  have hin (x : Kernel) (hx : s.kernel n kid = some x) : kid ∈ (s.ctx n).kernels.map (·.1) :=
    List.mem_map_of_mem (tget_mem _ _ _ hx)
  split at h
  · obtain ⟨x, -, rfl⟩ := Option.map_eq_some_iff.mp h
    rfl
  · next hno => exact absurd (hin k h) hno

/-! What discarding strands of a Retiring context leaves (R256). -/

/-- A kernel but for its channels and items. -/
def Kernel.brief (k : Kernel) : Kernel := { k with chans := [], items := [] }

/-- The queues, the contexts' registers, and each kernel but for its channels and items stay. -/
structure KeepsBrief (s t : State) : Prop where
  queues : t.queues = s.queues
  front : ∀ n, (t.ctx n).front = (s.ctx n).front
  kernel : ∀ n kid, (t.kernel n kid).map Kernel.brief = (s.kernel n kid).map Kernel.brief

theorem state_of_front {x y : Ctx} (h : x.front = y.front) : y.state = x.state := by
  have h2 := congrArg Ctx.state h
  exact h2.symm

theorem KeepsBrief.refl (s : State) : KeepsBrief s s := ⟨rfl, fun _ => rfl, fun _ _ => rfl⟩
theorem KeepsBrief.trans {s t u : State} (h : KeepsBrief s t) (k : KeepsBrief t u) : KeepsBrief s u :=
  ⟨k.queues.trans h.queues, fun n => (k.front n).trans (h.front n), fun n j => (k.kernel n j).trans (h.kernel n j)⟩
theorem KeepsBrief.foldl {α : Type} (g : State → α → State) (h : ∀ s x, KeepsBrief s (g s x)) (l : List α) (s : State) :
    KeepsBrief s (l.foldl g s) := by
  induction l generalizing s with
  | nil => exact .refl s
  | cons a l ih => exact (h s a).trans (ih _)

theorem keepsBrief_of_ctxs {s t : State} (hc : t.ctxs = s.ctxs) (hq : t.queues = s.queues) : KeepsBrief s t :=
  ⟨hq, fun n => by unfold State.ctx; rw [hc], fun n j => by rw [kernel_congr hc]⟩

theorem keepsBrief_modKernel (s : State) (c k : Nat) {g : Kernel → Kernel} (hg : ∀ x, (g x).brief = x.brief) :
    KeepsBrief s (s.modKernel c k g) := by
  refine ⟨State.modKernel_queues .., fun n => ctx_modKernel_front s c k n g, fun n j => ?_⟩
  rw [kernel_modKernel_eq]
  split
  · next h =>
    rw [h.1, h.2, Option.map_map]
    exact congrArg (Option.map · _) (funext hg)
  · rfl

theorem keepsBrief_leaveSlot (s : State) (id k : Nat) : KeepsBrief s (s.leaveSlot id k) := by
  unfold State.leaveSlot
  split
  · exact .refl s
  · split
    · exact .refl s
    · dsimp only
      split
      · exact keepsBrief_of_ctxs rfl rfl
      · split <;> exact keepsBrief_of_ctxs rfl rfl

theorem keepsBrief_letGo (s : State) (o : MatOp) : KeepsBrief s (s.letGo o) := keepsBrief_of_ctxs rfl rfl

theorem keepsBrief_strands (s : State) (l : Tab Strand) : KeepsBrief s { s with strands := l } := keepsBrief_of_ctxs rfl rfl
theorem keepsBrief_allCoresMod (s : State) (g : Core → Core) : KeepsBrief s (s.allCoresMod g) := keepsBrief_of_ctxs rfl rfl

theorem keepsBrief_unlisted (s : State) (id : Nat) (st : Strand) : KeepsBrief s (s.unlisted id st) := by
  have hchans : KeepsBrief s ((s.leaveGroups id).modChans st fun c => (c.unbind id).unsend id) :=
    (KeepsBrief.foldl _ (fun s k => keepsBrief_leaveSlot s id k) _ s).trans (keepsBrief_modKernel _ _ _ fun _ => rfl)
  have hlane (t : State) (h : KeepsBrief s t) : KeepsBrief s (if st.loc.isSome then t.leaveLane id st else t) := by
    split
    · exact h.trans (keepsBrief_of_ctxs rfl rfl)
    · exact h
  exact (((hlane _ hchans).trans (.foldl _ (fun s o => keepsBrief_letGo s o) _ _)).trans (keepsBrief_allCoresMod _ _)).trans
    (keepsBrief_strands _ _)

/-- Saved operations of an item that did not complete only let go of what they captured. -/
theorem keepsBrief_endOps (s : State) (c k : Nat) (ops : List MatOp) : KeepsBrief s (s.endOps c k false ops) := by
  refine .foldl _ (fun s o => ?_) ops s
  dsimp only
  split <;> exact keepsBrief_letGo s o

theorem endKernel_retiring {s : State} {c : Nat} (h : (s.ctx c).state = 5) (k : Nat) : s.endKernel c k = s := by
  unfold State.endKernel
  split
  · exact if_pos (.inl h)
  · rfl

/-- In a Retiring context an item that loses its strands is gone, and its kernel does not end. -/
theorem keepsBrief_itemGone {s : State} {c : Nat} (h : (s.ctx c).state = 5) (k i : Nat) : KeepsBrief s (s.itemGone c k i) := by
  unfold State.itemGone
  split
  · exact .refl s
  · dsimp only
    split
    · exact .refl s
    · next it _ =>
      have hops : KeepsBrief s ((s.freeTiles (c, k, i)).endOps c k false it.savedOps) :=
        (keepsBrief_allCoresMod s _).trans (keepsBrief_endOps _ c k it.savedOps)
      have hfive : (((s.freeTiles (c, k, i)).endOps c k false it.savedOps).ctx c).state = 5 :=
        state_of_front (hops.front c) ▸ h
      generalize (s.freeTiles (c, k, i)).endOps c k false it.savedOps = t at hops hfive
      rw [hfive, beq_self_eq_true, Bool.or_true]
      simp only [if_true]
      have hkern (j : Nat) : KeepsBrief t (t.modKernel c k fun x => { x with items := tdel x.items j }) :=
        keepsBrief_modKernel _ _ _ fun _ => rfl
      rw [endKernel_retiring (state_of_front ((hkern _).front c) ▸ hfive)]
      exact hops.trans (hkern _)

theorem keepsBrief_discard {s : State} {id : Nat} (h : ∀ st, s.strand id = some st → (s.ctx st.ctx).state = 5) :
    KeepsBrief s (s.discard id) := by
  cases hs : s.strand id with
  | none =>
    unfold State.discard
    rw [hs]
    exact .refl s
  | some st =>
    rw [discard_eq hs]
    have hout := keepsBrief_unlisted s id st
    split
    · exact hout
    · exact hout.trans (keepsBrief_itemGone (state_of_front (hout.front st.ctx) ▸ h st hs) ..)

/-- A strand that is there is no more; without it nothing differs. -/
theorem strand_discard_any (s : State) (id j : Nat) : (s.discard id).strand j = if j = id then none else s.strand j := by
  cases hs : s.strand id with
  | none =>
    unfold State.discard
    rw [hs]
    dsimp only
    split
    · next h => rw [h, hs]
    · rfl
  | some st => exact strand_discard hs j

/-- Discarding strands of a Retiring context: they are no more, and the rest stays. -/
theorem foldl_discard (l : List Nat) {s : State} {n : Nat} (h5 : (s.ctx n).state = 5)
    (hl : ∀ id st, id ∈ l → s.strand id = some st → st.ctx = n) :
    KeepsBrief s (l.foldl State.discard s) ∧
      ∀ j, (l.foldl State.discard s).strand j = if j ∈ l then none else s.strand j := by
  induction l generalizing s with
  | nil => exact ⟨.refl s, fun _ => rfl⟩
  | cons a l ih =>
    have hone : KeepsBrief s (s.discard a) := keepsBrief_discard fun st hs => hl a st List.mem_cons_self hs ▸ h5
    obtain ⟨hk, hst⟩ := ih (state_of_front (hone.front n) ▸ h5) fun id st hid hs => by
      rw [strand_discard_any] at hs
      split at hs
      · cases hs
      · exact hl id st (List.mem_cons_of_mem a hid) hs
    refine ⟨hone.trans hk, fun j => (hst j).trans ?_⟩
    rw [strand_discard_any]
    by_cases ha : j = a <;> by_cases hj : j ∈ l <;> simp [ha, hj]

/-! RETIRE. -/

theorem foldl_queues {α : Type} (l : List α) (g : State → α → State) (hg : ∀ s x, (g s x).queues = s.queues) (s : State) :
    (l.foldl g s).queues = s.queues := by
  induction l generalizing s with
  | nil => rfl
  | cons a r ih => rw [List.foldl_cons, ih, hg]

theorem queues_seedDropAll (s : State) (o : Nat × Nat) (slot : Nat) : (s.seedDropAll o slot).queues = s.queues := by
  unfold State.seedDropAll
  split
  · exact State.modKernel_queues ..
  · rfl

theorem strands_seedDropKernel (s : State) (o : Nat × Nat) : (s.seedDropKernel o).strands = s.strands := by
  unfold State.seedDropKernel
  split
  · exact foldl_strands _ _ (fun s (e : Nat × Nat) => strands_seedDropAll s o e.1) s
  · rfl

theorem queues_seedDropKernel (s : State) (o : Nat × Nat) : (s.seedDropKernel o).queues = s.queues := by
  unfold State.seedDropKernel
  split
  · exact foldl_queues _ _ (fun s (e : Nat × Nat) => queues_seedDropAll s o e.1) s
  · rfl

theorem strands_seedless (s : State) (n : Nat) : (s.seedless n).strands = s.strands :=
  foldl_strands _ _ (fun s _ => strands_seedDropKernel s _) s

theorem queues_seedless (s : State) (n : Nat) : (s.seedless n).queues = s.queues :=
  foldl_queues _ _ (fun s _ => queues_seedDropKernel s _) s

/-- A context that enters Retiring: its batches are void and its kernels Lost. -/
def Ctx.retiring (x : Ctx) : Ctx :=
  { x with
    state := 5, forming := [], batches := [], retries := [], parkedUnits := [],
    kernels := x.kernels.map fun e => (e.1, { e.2 with state := 3 }) }

/-- A strand of such a context: it stops where it is resident, to be discarded. -/
def Strand.doom (st : Strand) : Strand :=
  { st with doomed := true, stop := st.stop || st.resident, ahead := none, hold := none, walkParked := false }

/-- RETIRE before the saved strands are discarded. -/
def State.retiring (s : State) (n : Nat) : State :=
  let s := ((s.seedless n).modCtx n Ctx.retiring).qRetire n
  { s with strands := s.strands.map fun e => if e.2.ctx == n then (e.1, e.2.doom) else e }

/-- The strands of a context that are on no lane. -/
def State.offLanes (s : State) (n : Nat) : List Nat := (s.strands.filter fun e => e.2.ctx == n && e.2.loc.isNone).map (·.1)

section
variable {s : State} {n : Nat}

theorem retire_done (hn : n < 4096) (h1 : 1 ≤ (s.ctx n).state) (h4 : (s.ctx n).state ≤ 4) : s.retireCtx n =
    (((s.retiring n).offLanes n).foldl State.discard (s.retiring n)).modCtx n fun x => { x with err := 0 } := by
  unfold State.retireCtx
  rw [ctxDo_done hn (by simp [h1, h4])]
  rfl

theorem retire_refused (hn : n < 4096) (h : (s.ctx n).state = 0 ∨ 4 < (s.ctx n).state) :
    s.retireCtx n = s.modCtx n fun x => { x with err := 1 } := by
  unfold State.retireCtx
  exact ctxDo_refused hn (by simp; omega) _

theorem ctx_retiring : (s.retiring n).ctx n = ((s.seedless n).ctx n).retiring := State.ctx_modCtx_same ..

theorem kernel_retiring_eq (kid : Nat) :
    (s.retiring n).kernel n kid = ((s.seedless n).kernel n kid).map fun k => { k with state := 3 } := by
  unfold State.kernel
  rw [ctx_retiring]
  exact tget_map_keyed _ (fun e : Nat × Kernel => (e.1, { e.2 with state := 3 })) (fun _ => rfl) _

/-- Its kernels are Lost and list no seed record. -/
theorem kernel_retiring {kid : Nat} {k : Kernel} (h : (s.retiring n).kernel n kid = some k) : k.state = 3 ∧ k.seeds = [] := by
  rw [kernel_retiring_eq] at h
  obtain ⟨x, hx, rfl⟩ := Option.map_eq_some_iff.mp h
  have hs := seeds_seedless hx
  exact ⟨rfl, hs⟩

theorem strand_retiring (id : Nat) :
    (s.retiring n).strand id = (s.strand id).map fun st => if st.ctx = n then st.doom else st := by
  refine (tget_map_ite (s.seedless n).strands (fun st => st.ctx == n) Strand.doom id).trans ?_
  rw [strands_seedless]
  simp only [beq_iff_eq]
  rfl

theorem queue_retiring {q : Nat} (ho : (s.queue q).owner = n) (hs : (s.queue q).state = 1 ∨ (s.queue q).state = 2) :
    ((s.retiring n).queue q).state = 3 := by
  have hmap : (s.retiring n).queues = s.queues.map fun e =>
      if e.2.owner = n ∧ (e.2.state = 1 ∨ e.2.state = 2) then
        (e.1, { e.2 with state := 3, parts := [[], [], []], bound := [] })
      else e := congrArg (List.map _) (queues_seedless s n)
  unfold State.queue at ho hs ⊢
  rw [hmap, tget_map_keyed _ _ fun e => by split <;> rfl]
  cases hq : tget s.queues q with
  | none =>
    rw [hq] at hs
    exact absurd hs (by decide)
  | some x =>
    rw [hq] at ho hs
    dsimp only [Option.map_some, Option.getD_some] at ho hs ⊢
    rw [if_pos ⟨ho, hs⟩]

/-- What RETIRE discards is of the context and on no lane. -/
theorem mem_offLanes_retiring (h : tabAbove 0 s.strands = true) {id : Nat} (hid : id ∈ (s.retiring n).offLanes n) :
    ∃ st, s.strand id = some st ∧ st.ctx = n ∧ st.loc = none := by
  obtain ⟨e, he, rfl⟩ := List.mem_map.mp hid
  obtain ⟨hin, hp⟩ := List.mem_filter.mp he
  obtain ⟨e0, he0, rfl⟩ := List.mem_map.mp hin
  have hs : e0 ∈ s.strands := strands_seedless s n ▸ he0
  have hst := (tget_of_mem h hs).1
  by_cases hc : e0.2.ctx = n
  · rw [beq_iff_eq.mpr hc] at hp ⊢
    exact ⟨e0.2, hst, hc, Option.isNone_iff_eq_none.mp (Bool.and_eq_true_iff.mp hp).2⟩
  · rw [beq_false_of_ne hc] at hp
    exact absurd (beq_iff_eq.mp (Bool.and_eq_true_iff.mp hp).1) hc

/-- Every such strand is discarded. -/
theorem offLanes_retiring_mem {id : Nat} {st : Strand} (hst : s.strand id = some st) (hc : st.ctx = n) (hl : st.loc = none) :
    id ∈ (s.retiring n).offLanes n := by
  have hd : (s.retiring n).strand id = some st.doom := by rw [strand_retiring, hst, Option.map_some, if_pos hc]
  refine List.mem_map.mpr ⟨(id, st.doom), List.mem_filter.mpr ⟨tget_mem _ _ _ hd, ?_⟩, rfl⟩
  simp [Strand.doom, hc, hl]
end

/-- What RETIRE says of a context's registers, where only its kernels may differ. -/
theorem registers_of_front {x y : Ctx} (h : x.front = y.retiring.front) :
    x.state = 5 ∧ x.forming = [] ∧ x.batches = [] ∧ x.retries = [] ∧ x.parkedUnits = [] := by
  have h1 := congrArg Ctx.state h
  have h2 := congrArg Ctx.forming h
  have h3 := congrArg Ctx.batches h
  have h4 := congrArg Ctx.retries h
  have h5 := congrArg Ctx.parkedUnits h
  exact ⟨h1, h2, h3, h4, h5⟩

theorem lost_of_brief {k : Kernel} {o : Option Kernel} (h : some k.brief = o.map Kernel.brief)
    (ho : ∀ x, o = some x → x.state = 3 ∧ x.seeds = []) : k.state = 3 ∧ k.seeds = [] := by
  obtain ⟨x, hx, hb⟩ := Option.map_eq_some_iff.mp h.symm
  have h1 := congrArg Kernel.state hb
  have h2 := congrArg Kernel.seeds hb
  exact ⟨Eq.trans h1.symm (ho x hx).1, Eq.trans h2.symm (ho x hx).2⟩

theorem retire_says : RetireSays := by
  intro s n hn habove
  refine ⟨fun h1 h4 => ⟨_, congrArg Host.Outcome.next (retire_done hn h1 h4), ?_⟩, fun h => congrArg _ (retire_refused hn h)⟩
  have hfive : ((s.retiring n).ctx n).state = 5 := congrArg Ctx.state ctx_retiring
  obtain ⟨hkeep, hstrand⟩ := foldl_discard ((s.retiring n).offLanes n) hfive fun id st hid hst => by
    obtain ⟨u, hu, hc, -⟩ := mem_offLanes_retiring habove hid
    rw [strand_retiring, hu, Option.map_some, if_pos hc] at hst
    exact Option.some.inj hst ▸ hc
  generalize ((s.retiring n).offLanes n).foldl State.discard (s.retiring n) = t at hkeep hstrand ⊢
  have hstays {id : Nat} {st : Strand} (hst : s.strand id = some st) (h : ¬ (st.ctx = n ∧ st.loc = none)) :
      t.strand id = some (if st.ctx = n then st.doom else st) := by
    have hout : id ∉ (s.retiring n).offLanes n := fun hid => by
      obtain ⟨u, hu, hc⟩ := mem_offLanes_retiring habove hid
      exact h (Option.some.inj (hst.symm.trans hu) ▸ hc)
    rw [hstrand, if_neg hout, strand_retiring, hst, Option.map_some]
  have hfront := hkeep.front n
  rw [ctx_retiring] at hfront
  obtain ⟨hstate, hforming, hbatches, hretries, hparked⟩ := registers_of_front hfront
  rw [State.ctx_modCtx_same]
  refine ⟨hstate, rfl, hforming, hbatches, hretries, hparked, fun kid k hk => ?_, fun id st hst hc hl => ?_,
    fun id st hst hc hr => ⟨st.doom, ?_, ?_, rfl, rfl, rfl⟩, fun id st hst hc => ?_, fun q ho hs => ?_⟩
  · rw [kernel_modCtx _ _ _ _ _ (by intro; rfl)] at hk
    have hbrief := hkeep.kernel n kid
    rw [hk, Option.map_some] at hbrief
    exact lost_of_brief hbrief fun x => kernel_retiring
  · exact (hstrand id).trans (if_pos (offLanes_retiring_mem hst hc hl))
  · refine (hstays hst fun hno => ?_).trans (congrArg some (if_pos hc))
    rw [Strand.resident, hno.2] at hr
    exact absurd hr Bool.false_ne_true
  · exact (congrArg (st.stop || ·) hr).trans (Bool.or_true _)
  · exact (hstays hst fun h => hc h.1).trans (congrArg some (if_neg hc))
  · have hq : t.queue q = (s.retiring n).queue q := by
      unfold State.queue
      rw [hkeep.queues]
    exact (congrArg Queue.state hq).trans (queue_retiring ho hs)

/-! The translations that dies and cores hold (R393). -/

/-- A die's cached nodes, and the translations of each of its cores. -/
def Die.tables (x : Die) : List NodeEnt × List (List Tlb) := (x.nodeCache, x.cores.map (·.tlb))

/-- No cached translation is the context's. -/
def Unmapped (n : Nat) (y : List NodeEnt × List (List Tlb)) : Prop :=
  (∀ e, e ∈ y.1 → e.ctx ≠ n) ∧ ∀ l, l ∈ y.2 → ∀ e, e ∈ l → e.ctx ≠ n

def KeepsTables (s t : State) : Prop := t.dies.map Die.tables = s.dies.map Die.tables

theorem KeepsTables.refl (s : State) : KeepsTables s s := rfl
theorem KeepsTables.trans {s t u : State} (h : KeepsTables s t) (k : KeepsTables t u) : KeepsTables s u := Eq.trans k h
theorem KeepsTables.foldl {α : Type} (g : State → α → State) (h : ∀ s x, KeepsTables s (g s x)) (l : List α) (s : State) :
    KeepsTables s (l.foldl g s) := by
  induction l generalizing s with
  | nil => exact .refl s
  | cons a l ih => exact (h s a).trans (ih _)

theorem KeepsTables.die {s t : State} (h : KeepsTables s t) (d : Nat) : (t.die d).tables = (s.die d).tables := by
  have hd := congrArg (List.getD · d (Die.afterReset d).tables) h
  rwa [List.getD_map, List.getD_map] at hd

theorem tables_still (x : Die) : x.still.tables = x.tables := by
  unfold Die.tables Die.still
  rw [List.map_map]
  rfl

theorem keepsTables_of_caches {s t : State} (h : CachesOnly s t) : KeepsTables s t := by
  have hmap := congrArg (List.map Die.tables) h
  rw [List.map_map, List.map_map] at hmap
  have hfun : Die.tables ∘ Die.still = Die.tables := funext tables_still
  rwa [hfun] at hmap

theorem keepsTables_map (s : State) {g : Die → Die} (hg : ∀ x, (g x).tables = x.tables) :
    KeepsTables s { s with dies := s.dies.map g } := by
  have hfun : Die.tables ∘ g = Die.tables := funext hg
  exact List.map_map.trans (congrArg (List.map · s.dies) hfun)

theorem keepsTables_allCoresMod (s : State) {g : Core → Core} (hg : ∀ x, (g x).tlb = x.tlb) : KeepsTables s (s.allCoresMod g) :=
  keepsTables_map s fun x => by
    unfold Die.tables
    rw [List.map_map]
    exact congrArg (x.nodeCache, List.map · x.cores) (funext hg)

theorem keepsTables_of_dies {s t : State} (h : t.dies = s.dies) : KeepsTables s t := congrArg (List.map Die.tables) h

theorem tlb_seedDrop (x : Core) (o : Nat × Nat) (slot : Nat) : (x.seedDrop o slot).tlb = x.tlb := by
  unfold Core.seedDrop
  split
  · split <;> rfl
  · rfl

theorem keepsTables_seedDropAll (s : State) (o : Nat × Nat) (slot : Nat) : KeepsTables s (s.seedDropAll o slot) := by
  unfold State.seedDropAll
  split
  · exact (keepsTables_of_dies (State.modKernel_dies ..)).trans (keepsTables_allCoresMod _ fun x => tlb_seedDrop x o slot)
  · exact .refl s

theorem keepsTables_freeKernel (s : State) (c k : Nat) : KeepsTables s (s.freeKernel c k) := by
  have hdrop : KeepsTables s (s.seedDropKernel (c, k)) := by
    unfold State.seedDropKernel
    split
    · exact .foldl _ (fun s (e : Nat × Nat) => keepsTables_seedDropAll s (c, k) e.1) _ s
    · exact .refl s
  have hown : KeepsTables s ((s.seedDropKernel (c, k)).disown (c, k)) :=
    hdrop.trans (keepsTables_allCoresMod _ fun x => by split <;> rfl)
  unfold State.freeKernel
  dsimp only
  split
  · exact hown.trans (keepsTables_of_dies rfl)
  · exact hown

theorem cachesOnly_flushCtx (s : State) (n : Nat) : CachesOnly s (s.flushCtx n) :=
  (CachesOnly.foldl _ (fun s (p : Nat × Nat) => cachesOnly_writeBackL1 s p.1 p.2 _) _ s).trans
    (.foldl _ (fun s d => cachesOnly_writeBackDie s d _) _ _)

/-! Retirement (R256). -/

/-- A die after a sweep of a context's translations. -/
def Die.swept (x : Die) (n : Nat) (w : Sweep) : Die :=
  let keep (t : Tlb) : Bool := t.ctx != n || !w.covers t.page t.shift
  { x with
    nodeCache := x.nodeCache.filter fun t => t.ctx != n || !w.covers t.va (levelShift t.level),
    cores := x.cores.map fun c => { c with
      tlb := c.tlb.filter keep, lanes := c.lanes.map fun l => (l.1, { l.2 with lastPage := l.2.lastPage.filter keep }) } }

theorem sweepCaches_eq (s : State) (n : Nat) (w : Sweep) : s.sweepCaches n w (fun _ => true) =
    ((s.modDie 0 (·.swept n w)).modDie 1 (·.swept n w)).modDie 2 (·.swept n w) := rfl

theorem unmapped_swept (x : Die) (n : Nat) {w : Sweep} (hw : w.all = true) : Unmapped n (x.swept n w).tables := by
  have hcov (page shift : Nat) : w.covers page shift = true := by rw [Sweep.covers, hw, Bool.true_or]
  have hkeep {c page shift : Nat} (h : (c != n || !w.covers page shift) = true) : c ≠ n := by
    rw [hcov, Bool.not_true, Bool.or_false] at h
    exact bne_iff_ne.mp h
  refine ⟨fun e he => hkeep (List.mem_filter.mp he).2, fun l hl e he => ?_⟩
  obtain ⟨y, hy, rfl⟩ := List.mem_map.mp hl
  obtain ⟨c, -, rfl⟩ := List.mem_map.mp hy
  exact hkeep (List.mem_filter.mp he).2

theorem unmapped_afterReset (d n : Nat) : Unmapped n (Die.afterReset d).tables := by
  refine ⟨fun e he => absurd he List.not_mem_nil, fun l hl e he => ?_⟩
  obtain ⟨c, hc, rfl⟩ := List.mem_map.mp hl
  rw [List.eq_of_mem_replicate hc] at he
  exact absurd he List.not_mem_nil

theorem unmapped_sweepCaches (s : State) (n : Nat) {w : Sweep} (hw : w.all = true) {d : Nat} (hd : d < 3) :
    Unmapped n ((s.sweepCaches n w fun _ => true).die d).tables := by
  rw [sweepCaches_eq]
  by_cases hl : d < s.dies.length
  · have hdie : (((s.modDie 0 (·.swept n w)).modDie 1 (·.swept n w)).modDie 2 (·.swept n w)).die d = (s.die d).swept n w := by
      obtain rfl | rfl | rfl : d = 0 ∨ d = 1 ∨ d = 2 := by omega
      all_goals simp [State.die_modDie, hl]
    rw [hdie]
    exact unmapped_swept _ n hw
  · rw [die_absent _ d (by simpa using hl)]
    exact unmapped_afterReset d n

/-- No group is the context's, and no core's emergency area holds its record. -/
def Die.released (x : Die) (n : Nat) : Die :=
  { x with
    groups := x.groups.filter fun g => g.2.ctx != n,
    cores := x.cores.map fun c => if c.embUse = some n then { c with embUse := none } else c }

theorem tables_released (x : Die) (n : Nat) : (x.released n).tables = x.tables := by
  unfold Die.tables Die.released
  rw [List.map_map]
  refine congrArg (x.nodeCache, List.map · x.cores) (funext fun c => ?_)
  dsimp only [Function.comp_apply]
  split <;> rfl

/-- The translations are swept, and the kernels freed. -/
def State.flushed (s : State) (n : Nat) : State :=
  let s := (s.sweepCaches n { va := 0, shift := 48, all := true, md := false } fun _ => true).flushCtx n
  (s.ctx n).kernels.foldl (fun s k => s.freeKernel n k.1) s

def State.unheld (s : State) (n : Nat) : State :=
  { s with dies := s.dies.map (·.released n), heldGroups := s.heldGroups.filter fun g => g.2.ctx != n }

/-- A context in Retired. -/
def Ctx.retired (x : Ctx) : Ctx :=
  { x with state := 6, kernels := [], sweeps := [], retries := [], parkedUnits := [], spill := false }

theorem exec_ctxRetired {s : State} {n : Nat} (h5 : (s.ctx n).state = 5) (hr : s.retired n = true) :
    exec (.ctxRetired n) s = .next ((((s.flushed n).unheld n).modCtx n Ctx.retired).ctxEvent n 4) := by
  refine if_neg ?_
  rw [h5, hr]
  simp

/-- An event that stops no context: its bit is set, and its message owed and paid. -/
theorem ctxEvent_note {s : State} {n bit : Nat} (hn : n < 4096) (hb : 2 < bit) : ∃ k, s.ctxEvent n bit =
    (s.modCtx n fun x => { x with event := x.event ||| (1#32 <<< bit), owed := k }).payOwed n := by
  unfold State.ctxEvent
  rw [if_neg (by unfold noCtx; omega)]
  dsimp only
  rw [if_neg (by omega)]
  exact ⟨_, rfl⟩

theorem groups_unheld (s : State) (n d : Nat) : ∀ g, g ∈ ((s.unheld n).die d).groups → g.2.ctx ≠ n := by
  intro g hg
  have hdie : (s.unheld n).die d = if d < s.dies.length then (s.die d).released n else s.die d := nth_map ..
  rw [hdie] at hg
  split at hg
  · exact bne_iff_ne.mp (List.mem_filter.mp hg).2
  · next hd =>
    rw [die_absent s d hd] at hg
    exact absurd hg List.not_mem_nil

theorem keepsTables_flushed (s : State) (n : Nat) : KeepsTables (s.sweepCaches n
    { va := 0, shift := 48, all := true, md := false } fun _ => true) (s.flushed n) :=
  (keepsTables_of_caches (cachesOnly_flushCtx _ n)).trans
    (.foldl _ (fun s (k : Nat × Kernel) => keepsTables_freeKernel s n k.1) _ _)

theorem keepsTables_unheld (s : State) (n : Nat) : KeepsTables s (s.unheld n) :=
  keepsTables_map s fun x => tables_released x n

/-- What CTX_RETIRED says of a context's registers, where only its message may differ. -/
theorem registers_of_paid {x y : Ctx} {e : Word} {k : Nat}
    (h : x.paid = { y.retired with event := e ||| (1#32 <<< 4), owed := k }.paid) :
    x.state = 6 ∧ x.kernels = [] ∧ x.event.getLsbD 4 = true ∧ x.spill = false := by
  have h1 := congrArg Ctx.state h
  have h2 := congrArg Ctx.kernels h
  have h3 := congrArg (fun z => z.event.getLsbD 4) h
  have h4 := congrArg Ctx.spill h
  have hbit : (e ||| (1#32 <<< 4)).getLsbD 4 = true := by simp
  exact ⟨h1, h2, Eq.trans h3 hbit, h4⟩

theorem groups_of_still {x y : Die} (h : x.still = y.still) : x.groups = y.groups := by
  have h2 := congrArg Die.groups h
  exact h2

/-- Without translations of the context in a die, none of its cores holds one. -/
theorem tlb_of_unmapped {s : State} {n d : Nat} (h : Unmapped n (s.die d).tables) (c : Nat) :
    ∀ e, e ∈ (s.core d c).tlb → e.ctx ≠ n := by
  intro e he
  by_cases hc : c < (s.die d).cores.length
  · refine h.2 (s.core d c).tlb (List.mem_map_of_mem ?_) e he
    unfold State.core nth
    rw [List.getD_eq_getElem _ _ hc]
    exact List.getElem_mem hc
  · rw [core_absent s d c fun hin => hc hin.2] at he
    exact absurd he List.not_mem_nil

/-- A context enters Retired with its event, which leaves the dies but for their caches. -/
theorem ctxEvent_retired (s : State) {n : Nat} (hn : n < 4096) :
    CachesOnly s ((s.modCtx n Ctx.retired).ctxEvent n 4) ∧
      (((s.modCtx n Ctx.retired).ctxEvent n 4).ctx n).state = 6 ∧ (((s.modCtx n Ctx.retired).ctxEvent n 4).ctx n).kernels = [] ∧
      (((s.modCtx n Ctx.retired).ctxEvent n 4).ctx n).event.getLsbD 4 = true ∧
      (((s.modCtx n Ctx.retired).ctxEvent n 4).ctx n).spill = false := by
  obtain ⟨k, heq⟩ := ctxEvent_note (s := s.modCtx n Ctx.retired) (bit := 4) hn (by decide)
  rw [heq]
  have hctx := ctx_payOwed ((s.modCtx n Ctx.retired).modCtx n fun x =>
    { x with event := x.event ||| (1#32 <<< 4), owed := k }) n n
  rw [State.ctx_modCtx_same, State.ctx_modCtx_same] at hctx
  have hpay := cachesOnly_payOwed ((s.modCtx n Ctx.retired).modCtx n fun x =>
    { x with event := x.event ||| (1#32 <<< 4), owed := k }) n
  exact ⟨hpay, registers_of_paid hctx⟩

theorem retired_says : RetiredSays := by
  intro s n hn h5
  refine ⟨fun hr => if_pos (.inr (by rw [hr]; rfl)), fun hr => ⟨_, exec_ctxRetired h5 hr, ?_⟩⟩
  obtain ⟨hcaches, hstate, hkernels, hevent, hspill⟩ := ctxEvent_retired ((s.flushed n).unheld n) hn
  generalize (((s.flushed n).unheld n).modCtx n Ctx.retired).ctxEvent n 4 = t at hcaches hstate hkernels hevent hspill ⊢
  have hkeep := (keepsTables_flushed s n).trans ((keepsTables_unheld _ n).trans (keepsTables_of_caches hcaches))
  have htables (d : Nat) (hd : d < 3) : Unmapped n (t.die d).tables := by
    rw [hkeep.die d]
    exact unmapped_sweepCaches s n rfl hd
  have hgroups (d : Nat) : (t.die d).groups = (((s.flushed n).unheld n).die d).groups :=
    groups_of_still (hcaches.die d)
  refine ⟨hstate, hkernels, hevent, hspill, fun d c e hd he => tlb_of_unmapped (htables d hd) c e he,
    fun d e hd => (htables d hd).1 e, fun d g hg => ?_⟩
  rw [hgroups] at hg
  exact groups_unheld (s.flushed n) n d g hg

/-- Settles O50: each command is its effect on the context's record; RETIRE discards one strand after another, which leaves the
registers, the queues and the other strands; CTX_RETIRED's sweep stands through what it does after it. -/
theorem contextCommands : Obligations.ContextCommands := ⟨command_says, retire_says, retired_says⟩

end Sys2Proof.Machine
end
